-- ==== Sys2Proof/Word.lean ====
section
/-! DEFINITION. The word types of the Ximus X9 and their plainest arithmetic. -/

namespace Sys2Proof

/-- A byte of memory (R4: little-endian). -/
abbrev Byte := BitVec 8

/-- A 32-bit register value (Table 7-5). -/
abbrev Word := BitVec 32

/-- A 64-bit value: a register pair, a system register, an instruction word. -/
abbrev Dword := BitVec 64

/-- A 57-bit virtual address (R274). -/
abbrev VAddr := BitVec 57

/-- Joins a low and a high 32-bit half into a 64-bit value. -/
def joinWords (lo hi : Word) : Dword := hi ++ lo

/-- The low 32 bits of a 64-bit value. -/
def loWord (d : Dword) : Word := d.setWidth 32

/-- The high 32 bits of a 64-bit value. -/
def hiWord (d : Dword) : Word := (d >>> 32).setWidth 32

end Sys2Proof
end

