-- ==== Sys2Proof/Syntax/Fields.lean ====
section
/-! DEFINITION. The operand and modifier kinds of the instruction set, one small type for each kind of field that the
spec's encoding tables name. -/

namespace Sys2Proof

/-- The fields common to every instruction word (Table 7-2): guard, inversion, stall count and yield hint. -/
structure Hdr where
  /-- GUARD: predicate p0 to p14; 15 is pt. -/
  guard : BitVec 4
  /-- GINV. -/
  ginv : Bool
  /-- STALL (R57). -/
  stall : BitVec 3
  /-- YIELD, without architectural effect (R51). -/
  yld : Bool
  deriving DecidableEq, Repr

/-- A register operand: a general register by its 8-bit field (255 is vz, Table 7-5), or an expansion temporary
k0 to k7, which only a template names (R128). -/
inductive Reg where
  | v (n : BitVec 8)
  | k (n : BitVec 3)
  deriving DecidableEq, Repr

/-- Source B of an F-ALU op: a register, the short immediate SC (R156), or WORD1 (R157). -/
inductive SrcB where
  | reg (r : Reg)
  | imm (v : BitVec 8)
  | long (v : Dword)
  deriving DecidableEq, Repr

/-- The four integer TYPE codes of the arithmetic ops (Table 7-4). -/
inductive IntTy where
  | s32 | s64 | n32 | n64
  deriving DecidableEq, Repr

/-- TYPE codes 0 to 14 (Table 7-4). -/
inductive NumTy where
  | s8 | s16 | s32 | s64 | n8 | n16 | n32 | n64 | f32 | f16 | bf16 | f8e4 | f8e5 | f4 | l6
  deriving DecidableEq, Repr

/-- The three float TYPE codes of float arithmetic (R406). -/
inductive FTy where
  | f32 | f16 | bf16
  deriving DecidableEq, Repr

/-- Rounding modes (Table 7-4). -/
inductive Rnd where
  | rn | rz | rd | ru
  deriving DecidableEq, Repr

/-- Scopes (Table 7-4). -/
inductive Scope where
  | warp | cohort | core | cluster | sect | device | domain | system
  deriving DecidableEq, Repr

/-- Integer comparisons of ISETP (R426). -/
inductive ICmp where
  | eq | ne | lt | le | gt | ge
  deriving DecidableEq, Repr

/-- Float comparisons of FSETP (Table 18-9). -/
inductive FCmp where
  | eq | ne | lt | le | gt | ge | num | nan | equ | neu | ltu | leu | gtu | geu
  deriving DecidableEq, Repr

/-- Elements a packed op computes (R450, EL). -/
inductive PackEl where
  | both | lo | hi
  deriving DecidableEq, Repr

/-- Special functions (Table 21-2). -/
inductive SfnFn where
  | rcp | rsq | ex2 | lg2 | sin | cos | tanh | sigm
  deriving DecidableEq, Repr

/-- The block formats of QNT (R461). -/
inductive QTy where
  | f8e4 | f8e5 | f4 | l6
  deriving DecidableEq, Repr

/-- SHFL modes (R489). -/
inductive ShflMode where
  | abs | below | above | xor
  deriving DecidableEq, Repr

/-- VOTE forms with their destinations: a predicate, or a register for .mask (R502). -/
inductive VoteForm where
  | all (p : BitVec 8)
  | any (p : BitVec 8)
  | same (p : BitVec 8)
  | mask (d : Reg)
  deriving DecidableEq, Repr

/-- ELANE forms with their destinations (R401). -/
inductive ElaneForm where
  | pred (p : BitVec 8)
  | lane (d : Reg)
  deriving DecidableEq, Repr

/-- REDW operations (Table 20-5). -/
inductive RedwOp where
  | add | min | max | and | or | xor | maxidx
  deriving DecidableEq, Repr

/-- REDW types (Table 20-5). -/
inductive RedwTy where
  | s32 | s64 | n32 | n64 | f32 | f16 | bf16
  deriving DecidableEq, Repr

/-- A memory offset: SC (scaled by the op) or WORD1[31:0] in bytes (R157). -/
inductive MemOff where
  | short (v : BitVec 8)
  | long (v : Word)
  deriving DecidableEq, Repr

/-- Access sizes of LD, LDL, ST and STL (Table 19-7): 1, 2, 4, 8 and 16 bytes. -/
inductive MSize where
  | b1 | b2 | b4 | b8 | b16
  deriving DecidableEq, Repr

/-- LDT and STT register types (Table 19-7). -/
inductive TTy where
  | f32 | f16 | bf16
  deriving DecidableEq, Repr

/-- ATOM operations (Table 17-5). -/
inductive AtomOp where
  | add | min | max | and | or | xor | exch | cas
  deriving DecidableEq, Repr

/-- ATOM ordering (R357). -/
inductive AtomOrd where
  | plain | acq | acqrel
  deriving DecidableEq, Repr

/-- AWAIT conditions (Table 17-8). -/
inductive AwaitCmp where
  | eq | ne | geu | ltu | ges | lts | any | none
  deriving DecidableEq, Repr

/-- Completion-counter classes (Table 11-1). -/
inductive CtrClass where
  | ldc | cpy | mxe | col
  deriving DecidableEq, Repr

/-- WALU operations (R507). -/
inductive WaluOp where
  | add | sub | and | or | xor | shl | shr | minu | maxu
  deriving DecidableEq, Repr

/-- WALU source B: a warp-uniform register number field or an immediate (R507). -/
inductive WaluSrc where
  | reg (n : BitVec 8)
  | imm (n : BitVec 8)
  deriving DecidableEq, Repr

/-- WMOV directions (Table 21-4). -/
inductive WmovDir where
  | toW | fromW | wToW | lo
  deriving DecidableEq, Repr

/-- XRED operations (Table 21-5). -/
inductive XredOp where
  | add | min | max | and | or | xor
  deriving DecidableEq, Repr

/-- XRED types (Table 21-5). -/
inductive XredTy where
  | s32 | n32 | f32 | f16 | bf16
  deriving DecidableEq, Repr

/-- XRED modes (Table 21-5). -/
inductive XredMode where
  | tree | slot | quant
  deriving DecidableEq, Repr

/-- Registers of the hub and of a function's window that a REGISTER_WRITE names (Tables 16-6 and 16-10). -/
inductive DevReg where
  | hubPartcfg
  | secQctl (n : Nat)
  | secIlv (n : Nat)
  | secNetb (n : Nat)
  | hubShoot
  | admBase (fn : Nat)
  | admLog (fn : Nat)
  | admWridx (fn : Nat)
  | admRdidx (fn : Nat)
  | admEvaddr (fn : Nat)
  | admDb (fn : Nat)
  | qdb (fn : Nat) (s : Nat)
  deriving DecidableEq, Repr

/-- Accesses on which an uncorrectable error is reported (Table 14-6). -/
inductive ErrSite where
  /-- Fetch, page walk, personality-store or format-table read, stash fill or call-stack refill of a thread, with its
  ACC of Table 13-5. -/
  | atOp (tid : Nat) (addr : Dword) (acc : Nat)
  /-- Data of an outstanding LDC operation of a thread. -/
  | atLoad (tid : Nat) (id : Nat) (addr : Dword)
  /-- A read of a copy. -/
  | atCopy (id : Nat) (addr : Dword)
  /-- A prefetch. -/
  | atPref
  /-- Anything else, in the partition that holds the section. -/
  | noRequester (sec : Nat)
  deriving DecidableEq, Repr

/-- States of a TDI (Table 16-1). -/
inductive TdiState where
  | configUnlocked | configLocked | run | error
  deriving DecidableEq, Repr

/-- The checking stages of R340. -/
inductive CheckStage where
  | hbmToL2 | l2ToL1 | flit | lineCrc
  deriving DecidableEq, Repr

end Sys2Proof
end

