-- ==== Sys2Proof/Config.lean ====
section
/-! DEFINITION. What one X9 module fixes, and the free values: what the spec leaves open. A free value is a constant
without a body, so nothing can be proved of it beyond its type. -/

namespace Sys2Proof.Config

/-- The free choices, one for each draw (log entry 1). -/
opaque freeNat : Nat → Nat

/-- The function that the module computes for .ex2, .lg2, .sin, .cos, .tanh and .sigm away from their special operands
(R486 leaves it open inside the bounds of Table 21-2; log entry 4). -/
opaque sfn : SfnFn → FTy → Word → Word

/-- Argument number k of a 64-byte admin ring entry, whose layout after the opcode R327 does not give (log entry 5). -/
opaque adminArg : Nat → List Byte → Nat

/-- The completion address of an admin ring entry (R327; log entry 5). -/
opaque adminCompl : List Byte → Nat

/-- The 64 bytes of a text key, which has a number of its own in every entry of RUN: the root of trust derives it (R323;
log entry 6). -/
opaque textKey : Nat → List Byte

/-- A plug-in's decision on a CTX_CREATE, by its version, the function and the descriptor: none admits it, and a number is
the status with which it is refused (R335; log entry 41). -/
opaque admission : Nat → Nat → List Byte → Option Nat

/-- What the module answers to an SPDM request, by request number and session phase (R322 names the requests and not
their contents; log entry 13). -/
opaque spdmAnswer : Nat → Nat → Nat

/-- Silicon features of the shipped module (Table 8-5), before FEATMASK; log entry 7. -/
def siliconFeatures : Dword := 0x7FF#64

/-- Bytes of HBM of one section: four stacks of 64 GiB (Table 1-4). -/
def sectionBytes : Nat := 4 * 64 * 2 ^ 30

/-- Warp slots of one core (Table 1-2). -/
def warpSlots : Nat := 64

/-- Register file of one core in bytes (Table 1-2). -/
def regFileBytes : Nat := 768 * 1024

/-- Local store of one core in bytes (Table 1-2). -/
def localStoreBytes : Nat := 24 * 65536

/-- Named barriers of one core (Table 1-2). -/
def namedBarriers : Nat := 64

/-- Bin record store of one section in bytes (Table 1-4). -/
def binStoreBytes : Nat := 4 * 2 ^ 20

/-- Range-scoreboard entries of one core (Table 1-2). -/
def scoreboardEntries : Nat := 32

/-- Entries of the TLB of one cluster (R279). -/
def tlbEntries : Nat := 4096

/-- Code lines that the instruction cache of one cluster holds: 256 KiB (Table 1-3). -/
def codeLines : Nat := 256 * 1024 / 128

/-- Ops that the decoded-op cache of a cluster holds (Table 1-3). -/
def decodedOps : Nat := 32768

/-- Slots of the personality store of a cluster (Table 1-3). -/
def persSlots : Nat := 16

/-- How often in a row the module may do something else before what it could do for longest (R40; log entry 37). -/
opaque patience : Nat

/-- Outstanding operations of each class that a thread may have (R233). -/
def maxOutstanding : Nat := 32

/-- Records of a device-launch queue (R430). -/
def deviceLaunchQueueSize : Nat := 64

end Sys2Proof.Config
end

