-- ==== Sys2Proof/Syntax.lean ====
section
/-! DEFINITION. The instruction set: one constructor for each row of spec/opcode_table.json, in its order. The rows
that are native instructions carry the header of Table 7-2 and the operands of their reference entries; the rows that
are events of the hardware, the firmware or the outside carry the objects that they act on. -/

namespace Sys2Proof

/-- A row of the opcode table. -/
inductive Instr where
  | iadd (h : Hdr) (ty : IntTy) (sat : Bool) (d a : Reg) (b : SrcB)
  | isub (h : Hdr) (ty : IntTy) (sat : Bool) (d a : Reg) (b : SrcB)
  | imul (h : Hdr) (ty : IntTy) (sat : Bool) (d a : Reg) (b : SrcB)
  | imulh (h : Hdr) (ty : IntTy) (d a : Reg) (b : SrcB)
  | imad (h : Hdr) (ty : IntTy) (wide sat : Bool) (d a : Reg) (b : SrcB) (c : Reg)
  | imin (h : Hdr) (ty : IntTy) (d a : Reg) (b : SrcB)
  | imax (h : Hdr) (ty : IntTy) (d a : Reg) (b : SrcB)
  | iabs (h : Hdr) (w64 sat : Bool) (d a : Reg)
  | isetp (h : Hdr) (ty : IntTy) (cmp : ICmp) (d : BitVec 8) (a : Reg) (b : SrcB)
  | idp4 (h : Hdr) (asg bsg sat : Bool) (d a b c : Reg)
  | shl (h : Hdr) (ty : IntTy) (d a : Reg) (b : SrcB)
  | shr (h : Hdr) (ty : IntTy) (d a : Reg) (b : SrcB)
  | shf (h : Hdr) (w64 right : Bool) (d a : Reg) (b : SrcB) (c : Reg)
  | logt (h : Hdr) (w64 : Bool) (d a : Reg) (b : SrcB) (lut : BitVec 8)
  | bfe (h : Hdr) (ty : IntTy) (d a : Reg) (b : SrcB)
  | bfi (h : Hdr) (w64 : Bool) (d a : Reg) (b : SrcB) (c : Reg)
  | popc (h : Hdr) (w64 : Bool) (d a : Reg)
  | clz (h : Hdr) (w64 : Bool) (d a : Reg)
  | brev (h : Hdr) (w64 : Bool) (d a : Reg)
  | pswz (h : Hdr) (d a : Reg) (b : SrcB) (c : Reg)
  | lea (h : Hdr) (ty : IntTy) (d a : Reg) (b : SrcB) (sh : BitVec 6)
  | sel (h : Hdr) (w64 : Bool) (d a : Reg) (b : SrcB) (pc : BitVec 8)
  | mov (h : Hdr) (w64 : Bool) (d a : Reg)
  | movX (h : Hdr) (d : Reg) (n : BitVec 8)
  | moviShort (h : Hdr) (ty : IntTy) (d : Reg) (v : BitVec 8)
  | moviLong (h : Hdr) (ty : IntTy) (d : Reg) (v : Dword)
  | fadd (h : Hdr) (ty : FTy) (rnd : Rnd) (nb : Bool) (d a : Reg) (b : SrcB)
  | fmul (h : Hdr) (ty : FTy) (rnd : Rnd) (nb : Bool) (d a : Reg) (b : SrcB)
  | ffma (h : Hdr) (ty : FTy) (rnd : Rnd) (nb nc : Bool) (d a : Reg) (b : SrcB) (c : Reg)
  | fmin (h : Hdr) (ty : FTy) (d a : Reg) (b : SrcB)
  | fmax (h : Hdr) (ty : FTy) (d a : Reg) (b : SrcB)
  | fsetp (h : Hdr) (ty : FTy) (cmp : FCmp) (d : BitVec 8) (a : Reg) (b : SrcB)
  | frnd (h : Hdr) (ty : FTy) (rnd : Rnd) (d a : Reg)
  | fclass (h : Hdr) (ty : NumTy) (d a : Reg)
  | padd (h : Hdr) (bf : Bool) (rnd : Rnd) (nb : Bool) (el : PackEl) (d a : Reg) (b : SrcB)
  | pmul (h : Hdr) (bf : Bool) (rnd : Rnd) (nb : Bool) (el : PackEl) (d a : Reg) (b : SrcB)
  | pfma (h : Hdr) (bf : Bool) (rnd : Rnd) (nb nc : Bool) (el : PackEl) (d a : Reg) (b : SrcB) (c : Reg)
  | pminmax (h : Hdr) (bf isMax : Bool) (el : PackEl) (d a : Reg) (b : SrcB)
  | sfn (h : Hdr) (fn : SfnFn) (ty : FTy) (d a : Reg)
  | cvt (h : Hdr) (dt st : NumTy) (rnd : Rnd) (sat : Bool) (d a : Reg) (x : Option Reg)
  | qnt (h : Hdr) (ty : QTy) (rnd : Rnd) (d a : Reg) (texp : BitVec 8)
  | lmul (h : Hdr) (d a b : Reg)
  | ladd (h : Hdr) (rnd : Rnd) (nb : Bool) (d a b : Reg)
  | shfl (h : Hdr) (mode : ShflMode) (w64 : Bool) (d a b m : Reg)
  | vote (h : Hdr) (form : VoteForm) (a : BitVec 8) (m : Reg)
  | redw (h : Hdr) (ty : RedwTy) (op : RedwOp) (sat : Bool) (rnd : Rnd) (d a b m : Reg)
  | matchOp (h : Hdr) (w64 same : Bool) (d a m : Reg)
  | elane (h : Hdr) (form : ElaneForm) (m : Reg)
  | plop3 (h : Hdr) (d a b : BitVec 8) (c : BitVec 5) (lut : BitVec 8)
  | pmovP2r (h : Hdr) (d : Reg)
  | pmovR2p (h : Hdr) (a b : Reg)
  | ld (h : Hdr) (sz : MSize) (sgn : Bool) (acq : Option Scope) (d a : Reg) (off : MemOff) (resid : BitVec 8)
  | ldt (h : Hdr) (ty : TTy) (rnd : Rnd) (hi : Bool) (acq : Option Scope) (d a : Reg) (off : MemOff) (resid : BitVec 8)
  | ldl (h : Hdr) (sz : MSize) (sgn : Bool) (acq : Option Scope) (d a : Reg) (off : MemOff)
  | st (h : Hdr) (sz : MSize) (rel : Option Scope) (a : Reg) (off : MemOff) (b : Reg)
  | stl (h : Hdr) (sz : MSize) (rel : Option Scope) (a : Reg) (off : MemOff) (b : Reg)
  | stt (h : Hdr) (ty : TTy) (rnd : Rnd) (hi : Bool) (rel : Option Scope) (a : Reg) (off : MemOff) (b : Reg)
  | atom (h : Hdr) (w64 sgn : Bool) (op : AtomOp) (ord : AtomOrd) (scope : Scope) (d a : Reg) (off : MemOff) (b : Reg)
  | red (h : Hdr) (w64 sgn : Bool) (op : AtomOp) (rel : Option Scope) (a : Reg) (off : MemOff) (b : Reg)
  | pref (h : Hdr) (l1 : Bool) (a : Reg) (off : MemOff)
  | pgreq (h : Hdr) (a : Reg) (off : BitVec 8)
  | smap (h : Hdr) (m : BitVec 3) (a b : Reg)
  | sflush (h : Hdr) (a b : Reg)
  | sinv (h : Hdr) (a b : Reg)
  | cflush (h : Hdr) (scope : Scope) (a b : Reg)
  | acpy (h : Hdr) (a : Reg)
  | acpyt (h : Hdr) (a : Reg)
  | tagld (h : Hdr) (d a : Reg) (off : MemOff)
  | tagst (h : Hdr) (a : Reg) (off : MemOff) (b : Reg)
  | waitc (h : Hdr) (cls : CtrClass) (n : BitVec 5)
  | fence (h : Hdr) (scope : Scope)
  | bar (h : Hdr) (scope : Scope) (arv : Bool) (b : BitVec 8) (m : Reg)
  | barGrp (h : Hdr) (scope : Scope) (arv : Bool) (g : BitVec 8)
  | await (h : Hdr) (loc w64 : Bool) (cmp : AwaitCmp) (scope : Scope) (d a b : Reg)
  | awaitReread (tid : Nat)
  | yieldOp (h : Hdr)
  | backoffImm (h : Hdr) (n : BitVec 12)
  | backoffReg (h : Hdr) (a : Reg)
  | backoffExpiry (tid : Nat)
  | rpost (h : Hdr) (ring : BitVec 3) (a : Reg)
  | rtake (h : Hdr) (ring : BitVec 3) (d : Reg)
  | mmap (h : Hdr) (d : BitVec 8) (a m : Reg)
  | mmal (h : Hdr) (d : BitVec 8) (a m : Reg)
  | accz (h : Hdr) (n : BitVec 6) (d : BitVec 8) (m : Reg)
  | accld (h : Hdr) (d : BitVec 8) (a m : Reg)
  | accst (h : Hdr) (d : BitVec 8) (a m : Reg)
  | matrixRetire (coh : Nat)
  | braRel (h : Hdr) (off : BitVec 24)
  | braLong (h : Hdr) (t : VAddr)
  | brx (h : Hdr) (a : Reg)
  | callRel (h : Hdr) (off : BitVec 24)
  | callLong (h : Hdr) (t : VAddr)
  | callx (h : Hdr) (cls : BitVec 8) (a : Reg)
  | ret (h : Hdr)
  | exit (h : Hdr)
  | threadEnd (tid : Nat)
  | skip (h : Hdr) (n : BitVec 3)
  | nop (h : Hdr)
  | trap (h : Hdr) (n : BitVec 8)
  | bpt (h : Hdr)
  | fetchw (h : Hdr) (a : Reg)
  | binpush (h : Hdr) (sz : BitVec 4) (a b : Reg)
  | bindrain (h : Hdr) (close : Bool) (b : Reg)
  | launch (h : Hdr) (d a b : Reg)
  | rdsys (h : Hdr) (lo : Bool) (srn : BitVec 12) (d : Reg)
  | wrsys (h : Hdr) (lo : Bool) (srn : BitVec 12) (a : Reg)
  | setctl (h : Hdr) (ring : BitVec 3) (a : Reg)
  | rand (h : Hdr) (d : Reg) (k : BitVec 8) (stream : BitVec 8)
  | feat (h : Hdr) (d : Reg)
  | watch (h : Hdr) (n : BitVec 8) (a b : Reg)
  | gret (h : Hdr)
  | tret (h : Hdr)
  | pdone (h : Hdr)
  | xred (h : Hdr) (ty : XredTy) (op : XredOp) (mode : XredMode) (scope : Scope) (a b : Reg) (g : BitVec 8)
  | xredResultWrite (launch g : Nat)
  | wmov (h : Hdr) (dir : WmovDir) (d a : Reg)
  | walu (h : Hdr) (op : WaluOp) (d a : BitVec 8) (b : WaluSrc)
  | bundleForm (core q : Nat)
  | rotationTurn (core q : Nat)
  | guestFetchDecode (tid : Nat)
  | loadDataReturn (tid id : Nat)
  | copyLand (id : Nat)
  | copyPark (id : Nat)
  | copyFaultStop (id : Nat)
  | walkerEmission (core launch : Nat)
  | persistentCohortCreate (launch core : Nat)
  | workRequest (core launch : Nat)
  | split (sec slot core : Nat)
  | withdrawal (req : Nat)
  | makeRoom (launch core : Nat)
  | replayableDeschedule (coh : Nat)
  | readmission (coh core : Nat)
  | saveRequest (coh : Nat)
  | preemptHandlerEntry (tid : Nat)
  | cohortSave (coh : Nat)
  | forcedSave (coh : Nat)
  | timeSliceExpiry (cid : Nat)
  | contextRestore (cid : Nat)
  | launchPreemption (launch : Nat)
  | queueDoorbell (fn sec qn : Nat)
  | packetNop (queue : Nat)
  | packetLaunch (queue : Nat)
  | packetWait (queue : Nat)
  | packetSignal (queue : Nat)
  | queueWaitResume (queue : Nat)
  | deviceLaunchQueueTake (cid sec : Nat)
  | gangReservationTimeout
  | gangCommit
  | completionSignalWrite (launch : Nat)
  | binPushArrival (tid : Nat)
  | binDrainArrival (tid : Nat)
  | binSpillAutoReplay (sec bin : Nat)
  | binAgeExpiry (sec bin : Nat)
  | binPriorityPromotion (sec bin : Nat)
  | binFireSelect (sec core : Nat)
  | binFireComplete (sec : Nat)
  | binArmingEnd (launch : Nat)
  | tokenVisit (launch : Nat)
  | faultPost (cid : Nat)
  | uncorrectableError (site : ErrSite)
  | stashRecall (coh line : Nat) (write : Bool)
  | stashEviction (coh line : Nat)
  | flitReceive (port : Nat) (crcOk : Bool)
  | linkDown (port : Nat)
  | adminDoorbell (fn : Nat)
  | admBaseWrite (fn : Nat) (v : Dword)
  | ctxCreate (fn compl desc : Nat)
  | ctxDestroy (fn compl cid : Nat)
  | qBind (fn compl cid qcb sec : Nat)
  | qUnbind (fn compl sec qn : Nat)
  | faultReplay (fn compl cid idx : Nat)
  | faultAbort (fn compl cid idx : Nat)
  | shootdown (fn compl cid va len : Nat)
  | frameAssign (fn compl cid frame n : Nat)
  | frameRelease (fn compl cid frame n : Nat)
  | watchSet (fn compl cid slot scope core : Nat) (addr ctl : Dword)
  | binAbort (fn compl sec bin : Nat)
  | migSave (fn compl cid : Nat)
  | migRestore (fn compl image : Nat)
  | partSet (fn compl cfg : Nat)
  | partReset (fn compl pid : Nat)
  | gangAssign (fn compl gang : Nat) (fns : List Nat) (withdraw : Bool)
  | partcfgCommit
  | quiesceRequest (sec : Nat)
  | quiesceRelease (sec : Nat)
  | hubShootGo
  | registerWrite (r : DevReg) (v : Dword)
  | moduleReset
  | sectionsTrained
  | trainingFailure (sec : Nat)
  | capUnmet (mw : Nat)
  | heatFluxHigh (sec : Nat)
  | heatFluxLow (sec : Nat)
  | tdiLeaveRun (fn : Nat)
  | ideIntegrityFailure (fn : Nat)
  | pluginPmpBreach (fn : Nat)
  | vfReset (fn : Nat)
  | getVersion
  | getCapabilities
  | negotiateAlgorithms
  | getDigests
  | getCertificate
  | challenge
  | getMeasurements
  | keyExchange
  | finish
  | endSession
  | stashWriteBackRetire (tid id : Nat)
  | hostRequesterAccess (write : Bool) (pid addr : Nat) (data : List Byte)
  | pcieConfiguration (numVfs : Nat) (part plugin : List Nat)
  | tdispRequest (fn : Nat) (target : TdiState)
  | correctedError (stage : CheckStage)
  | firmwareUpdate (version : Nat) (signed : Bool)
  | linkTrained (port : Nat)
  deriving DecidableEq, Repr

end Sys2Proof
end

