-- ==== Sys2Proof/Machine/State.lean ====
section
/-! DEFINITION. The state of one Ximus X9 module as plain data, the reasons a step can stop, and the state after reset. -/

namespace Sys2Proof.Machine

/-- A map from numbers to values of n bits whose unlisted entries read 0: keys strictly rising, no entry 0. -/
abbrev Sparse (n : Nat) := List (Nat × BitVec n)

/-- A map from numbers to records: keys strictly rising. -/
abbrev Assoc (α : Type) := List (Nat × α)

/-- Fault kinds (Table 13-6). -/
inductive FaultKind where
  | illegalInstruction | illegalOperand | role | stallCount | pcAlign | lineCrc | lineFormat | branchTarget
  | sigClass | regNeed | callstack | lsRange | addrForm | unmapped | ptFormat | perm | notResident | tag | watch
  | format | scope | memErr | persPte | persUnloaded | persTable | persStraddle | illegalGuest | emuNested
  | binSpill | binClosed
  deriving DecidableEq, Repr

/-- What a fault carries to its record (Table 13-5). -/
structure FaultInfo where
  kind : FaultKind
  /-- CAUSE: 1 for a BIN_SPILL of cause EXHAUSTED. -/
  cause : Nat := 0
  /-- ACC of Table 13-5: 0 load, 1 store, 2 atomic, 3 fetch, 4 copy, 5 stash fill, 6 call stack, 7 other. -/
  acc : Nat := 7
  addr : Dword := 0
  info : Dword := 0
  /-- Op index within an expansion (R133). -/
  opIdx : Nat := 0
  /-- COPY and CDESC of a fault raised by a copy. -/
  copy : Bool := false
  cdesc : Nat := 0
  /-- The mapping page of an access, by which records are shared; none: the 64 KiB page of the address (R289). -/
  page : Option Nat := none
  /-- The access reached a frame that its context does not own: it is no fault but a violation (R341). -/
  frozen : Bool := false
  /-- The line of the user handler that would have taken it has failed its check (R296). -/
  unhandled : Bool := false
  deriving DecidableEq, Repr

/-- A register named by a hazard or a pending entry. -/
inductive RegKey where
  | r (x : Reg)
  | p (n : Nat)
  | w (n : Nat)
  deriving DecidableEq, Repr

/-- A release or a FENCE, as the readers of a write meet it (R265): the instances of its scope and of every narrower one,
narrowest first (R254), and the writes that happen before it. -/
structure Rel where
  insts : List Nat
  view : List Nat
  /-- Every read by a thread that it reaches is an acquire (completion objects, Table 12-2). -/
  auto : Bool := false
  deriving DecidableEq, Repr

/-- A write that is not performed for every observer yet (R253, R260): its number, the key of its first byte, the bytes
that it wrote and those that it replaced. -/
structure Msg where
  ts : Nat
  key : Nat
  new : List Byte
  old : List Byte
  /-- Writes that happen before it or that its agent made in program order before it, itself included (R266). -/
  view : List Nat
  /-- Releases and fences whose release sequence it belongs to (R264, R265). -/
  rels : List Rel := []
  /-- An ATOM or RED (R269). -/
  rmw : Bool := false
  /-- Made by an agent that is no thread, copy or matrix instruction. -/
  agent : Bool := false
  deriving DecidableEq, Repr

/-- What orders the accesses of a thread (R260 to R267). -/
structure Ord where
  /-- Writes that happen before its next op. -/
  view : List Nat := []
  /-- Writes that its reads return or pass, and its writes follow, besides: those it has read (R260), and those of a copy
  that its accesses to the scratchpad wait for (R251). -/
  must : List Nat := []
  /-- Writes that its reads return or pass besides: those that its fences met (R267). -/
  fenced : List Nat := []
  /-- Writes that its writes follow besides: those that a copy has read whose range holds its stores (R251). -/
  after : List Nat := []
  /-- Writes that it has read, with what happens before them, as its next release or FENCE carries them (R266). -/
  obs : List Nat := []
  /-- Releases of the writes that it has read, for its next FENCE (R265, cases 2 and 3). -/
  acq : List Rel := []
  /-- Its FENCEs, for its later writes (R265, cases 2 and 4). -/
  rel : List Rel := []
  deriving DecidableEq, Repr

/-- What an AWAIT waits for (R363, R364): its address and comparand, the op, and whether its scope was clamped. -/
structure AwaitSpec where
  loc : Bool
  w64 : Bool
  cmp : AwaitCmp
  a : Dword
  b : Dword
  d : Reg
  op : Instr
  pers : Nat
  /-- The scope of its acquire, after the ceiling (R364). -/
  scope : Scope
  clamp : Bool
  deriving DecidableEq, Repr

/-- When a settled token op can proceed (R314). -/
inductive TokenNeed where
  | always
  /-- With the personality of the op's page and the op. -/
  | ringPost (r pers : Nat) (op : Instr)
  | ringTake (r pers : Nat) (op : Instr)
  | named (b phase : Nat)
  | grp (g phase : Nat)
  | await (a : AwaitSpec)
  deriving DecidableEq, Repr

/-- What a BINPUSH or BINDRAIN sends to the controller (R99, R108). -/
inductive BinReq where
  | push (sec bin : Nat) (data : List Byte)
  | drain (sec bin : Nat) (close : Bool)
  deriving DecidableEq, Repr

/-- A thread's arrival at a convergence point (R54): its lane mask, its guard, the personality of its page and the op. -/
structure ConvWait where
  mask : Word
  guard : Bool
  pers : Nat
  op : Instr
  deriving DecidableEq, Repr

/-- Thread states (Table 2-8), with the runnable ones split by what they wait for. -/
inductive TStatus where
  | ready
  /-- Runnable, its BACKOFF delay runs (R369). -/
  | backoff
  /-- Runnable, waits for the bin controller's answer (R382). -/
  | binWait (q : BinReq) (pers : Nat) (op : Instr)
  /-- Runnable, its LAUNCH waits for room in the device-launch queue of a section, with the record that it read
  (R430, R431); `stamp` orders the arrivals. -/
  | devWait (sec stamp : Nat) (bytes : List Byte) (pers : Nat) (op : Instr)
  /-- Runnable, EXIT waits for outstanding operations (R404). -/
  | exiting
  /-- Waiting in AWAIT. -/
  | awaiting (a : AwaitSpec)
  /-- Waiting in RPOST, RTAKE or SETCTL: the state "waiting in AWAIT" (R227). -/
  | ring (r : Nat) (pers : Nat) (op : Instr)
  | named (b phase : Nat)
  | grp (g phase : Nat)
  /-- At an XRED, in the state "waiting at a group barrier" (R514). -/
  | coll (g phase pers : Nat) (op : Instr)
  /-- Waiting at a convergence point (R54). -/
  | conv (c : ConvWait)
  /-- Parked on a fault (R46). -/
  | parked
  /-- Parked on BIN_SPILL against a bin (R100). -/
  | parkedBin (sec bin : Nat) (exhausted : Bool)
  /-- Parked on a parked copy that its WAITC or EXIT waits for (R248). -/
  | parkedCopy (copy : Nat)
  /-- Its record waits to be posted (R294); `parks`: it is then parked on its fault, otherwise the record is a PGREQ's. -/
  | posting (parks : Bool)
  /-- PDONE done under a standing save request (R306). -/
  | preWait
  /-- At a token op of a deterministic launch (R314). -/
  | token (need : TokenNeed)
  | exited
  deriving DecidableEq, Repr

/-- An outstanding operation of a completion-counter class (R232, R233). -/
structure OutOp where
  cls : CtrClass
  id : Nat
  dests : List (Reg × Word) := []
  preds : List (Nat × Bool) := []
  /-- Its work is done; it has retired once every older one of its class has too. It stays listed until a WAITC covers
  it. -/
  returned : Bool := false
  /-- A fault that the WAITC or EXIT covering it delivers (R248, R302). -/
  fault : Option FaultInfo := none
  /-- Flags that its retirement sets (R249), and the writes that its WAITC orders (R270). -/
  flags : BitVec 7 := 0
  wrote : List Nat := []
  /-- The reads whose data an uncorrectable error can lose: ACC, virtual address and mapping page of each (Table 14-6). -/
  src : List (Nat × VAddr × Nat) := []
  deriving DecidableEq, Repr

/-- A pending register (R231): the value before and after the operation. -/
structure Pend where
  key : RegKey
  old : Dword
  new : Dword
  cls : CtrClass
  id : Nat
  pc : VAddr
  deriving DecidableEq, Repr

/-- A fixed-latency result in flight (R57 to R59): its register's value before, and the credited distance left. -/
structure Hazard where
  key : RegKey
  old : Dword
  left : Nat
  pc : VAddr
  deriving DecidableEq, Repr

/-- A store in an expansion buffer (R132): a scratchpad address or a physical key, and the stash line that it goes
through. -/
structure BufStore where
  scratch : Bool
  key : Nat
  line : Option Nat := none
  bytes : List Byte
  /-- The scope of its release, after the ceiling. -/
  rel : Option Scope := none
  /-- A shootdown waits for it to be performed (R327). -/
  awaited : Bool := false
  deriving DecidableEq, Repr

/-- A guest instruction decoded into its expansion (R131). -/
structure Exp where
  pers : Nat
  /-- Guest instruction length in bytes. -/
  len : Nat
  ops : List Instr
  idx : Nat := 0
  temps : Sparse 32 := []
  /-- The registers that it writes, and the sticky flags, as a rollback restores them (R133). -/
  undo : List (RegKey × Dword) := []
  flags0 : BitVec 7 := 0
  shadow0 : Option (Nat × Bool) := none
  /-- Buffered stores in template order (R132). -/
  stores : List BufStore := []
  deriving DecidableEq, Repr

/-- A thread watchpoint (Table 13-4). -/
structure Wp where
  addr : Dword := 0
  ctl : Dword := 0
  deriving DecidableEq, Repr

/-- A thread (R25, R39). -/
structure Thread where
  pc : VAddr := 0
  regs : Sparse 32 := []
  preds : BitVec 15 := 0
  flags : BitVec 7 := 0
  /-- On-chip return entries, newest first (R63). -/
  stack : List Dword := []
  csp : Dword := 0
  spilled : Word := 0
  /-- SKIP shadow: ops left and g (R61). -/
  shadow : Option (Nat × Bool) := none
  hazards : List Hazard := []
  out : List OutOp := []
  pend : List Pend := []
  /-- Handler flag, emulation registers and x0 to x15 (R136). -/
  handler : Bool := false
  x : Sparse 32 := []
  emuPc : VAddr := 0
  emuNext : VAddr := 0
  emuWord : Dword := 0
  emuInfo : Dword := 0
  /-- User trap state (R297). -/
  tf : Bool := false
  trapVec : VAddr := 0
  trapPc : VAddr := 0
  trapNext : VAddr := 0
  trapCause : Dword := 0
  trapAddr : Dword := 0
  trapInfo : Dword := 0
  /-- Pre-emption handler state (R305). -/
  preActive : Bool := false
  prePc : VAddr := 0
  preLive : Dword := 0
  /-- The SKIP shadow of the interrupted code (R61). -/
  preShadow : Option (Nat × Bool) := none
  /-- The interrupted instruction replays with its watchpoints suppressed (R288). -/
  preSuppress : Bool := false
  wp0 : Wp := {}
  wp1 : Wp := {}
  /-- Watchpoints suppressed for one execution (R288). -/
  wpSuppress : Bool := false
  exp : Option Exp := none
  /-- Stores of an expansion that has ended, which enter memory in the same step (R132). -/
  commits : List BufStore := []
  /-- Registers whose value was substituted for the op that executes or waits (R59, R231), with their own values. -/
  keep : List (RegKey × Dword) := []
  /-- Destinations of that op in which an earlier result in flight stands at the end, with that result; and those in
  which the op's own result stands although a load is to return there (R59, R231). -/
  lose : List (RegKey × Dword) := []
  win : List RegKey := []
  /-- Took an emulation trap and has not fetched the handler's line yet (R137). -/
  emuEntry : Bool := false
  status : TStatus := .ready
  /-- The Serpent has granted this token op (R315). -/
  granted : Bool := false
  /-- Token op arrived at a barrier and waits to depart (R314). -/
  departing : Bool := false
  /-- Pushes made to each arming, by its launch number (R113). -/
  pushes : Assoc Nat := []
  ord : Ord := {}
  /-- An uncorrectable error that its next access of an ACC to an address meets (Table 14-6). -/
  err : Option (Nat × VAddr) := none
  /-- Ready in the sense of R48, and for how many bundles it has not been since it could issue. -/
  rdy : Bool := false
  late : Nat := 0
  /-- Executed YIELD: it is not ready in its quarter's next cycle (R517). -/
  yielded : Bool := false
  deriving DecidableEq, Repr

/-- A warp (Table 2-1). -/
structure Warp where
  /-- 0 = C, 1 = M, 2 = V (R30). -/
  role : Nat := 2
  w : Sparse 64 := []
  quarter : Nat := 0
  /-- The writes of one bundle (R163): its number, each written register's value before it, and the writer's lane. -/
  wb : Nat := 0
  wOld : Sparse 64 := []
  wLane : Assoc Nat := []
  /-- Writes of copies and ACCSTs that its WAITCs have covered, and writes that its RTAKEs have acquired (R228). -/
  covered : List Nat := []
  taken : List Nat := []
  /-- Writes of its threads in a deterministic launch, which its accesses follow in one order (R315, R319). -/
  made : List Nat := []
  deriving DecidableEq, Repr

/-- A named barrier (R371): the phases completed, the phase mask of an open phase, and the threads arrived in it. -/
structure NBar where
  phase : Nat := 0
  mask : Option Word := none
  arrived : List Nat := []
  /-- The releases of the arrivals of the open phase, by thread (R265, case 5). -/
  rels : Assoc Rel := []
  deriving DecidableEq, Repr

/-- A stash slot (R236). -/
structure StashSlot where
  s : Nat
  len : Nat
  va : Dword
  deriving DecidableEq, Repr

/-- A present stash line (R237, R239): the physical key of its memory, its bytes and dirty mask, and the writes that it
holds and memory does not (R272). -/
structure StashLine where
  key : Nat
  va : Dword
  bytes : List Byte
  dirty : BitVec 128
  fresh : List Nat := []
  deriving DecidableEq, Repr

/-- The matrix instructions (R216). -/
inductive MatKind where
  | mmap | mmal | accz | accld | accst
  deriving DecidableEq, Repr

/-- A matrix instruction between execution and retirement (R224, R225): its parameter block, and what orders its
accesses (R270). -/
structure MatOp where
  id : Nat
  kind : MatKind
  dst : Nat
  off : Nat
  count : Nat
  block : List Byte
  tids : List Nat
  ord : Ord := {}
  /-- Carried out and not retired yet: the flags that it raised and the writes that it made (R220). -/
  done : Option (BitVec 7 × List Nat) := none
  deriving DecidableEq, Repr

/-- Element formats (Table 9-1). -/
inductive Fmt where
  | f32 | f16 | bf16 | f8e4 | f8e5 | f4 | l6
  deriving DecidableEq, Repr

/-- A format descriptor (Table 9-4). -/
structure Desc where
  fmt : Fmt
  /-- Block size in elements; 0 = no block scale. -/
  blk : Nat
  side : Bool
  texp : Int
  xv : Nat
  dbase : Dword
  sbase : Dword
  deriving DecidableEq, Repr

/-- A copy in flight (R242 to R250). -/
structure Copy where
  id : Nat
  tid : Nat
  coh : Nat
  planes : Bool
  desc : List Byte
  descOff : Nat
  pc : VAddr
  pers : Nat := 0
  opIdx : Nat := 0
  /-- Its progress: the parts that it has done, in no order (R246), and the descriptors that it read for the first element
  of its rows, with the size of its page (R205, R534). -/
  done : List Nat := []
  formats : Assoc (Desc × Nat) := []
  parked : Bool := false
  flags : BitVec 7 := 0
  /-- Its accesses are performed, and it has not retired yet (R233, R251). -/
  landed : Bool := false
  /-- What orders its accesses, the writes that it has made (R270) and those that its reads have met. -/
  ord : Ord := {}
  wrote : List Nat := []
  met : List Nat := []
  deriving DecidableEq, Repr

/-- A cohort (R25, R31). -/
structure Cohort where
  launch : Nat
  cid : Nat
  index : Nat
  coord : List Nat
  groups : List Nat
  param : Dword
  binfire : Dword
  warps : Nat
  /-- Registers per thread. -/
  regs : Nat
  scratch : Nat
  nbar : Nat
  /-- Stash steps of 64 KiB. -/
  stash : Nat
  core : Option Nat
  logical : Nat := 0
  saved : Bool := false
  replayable : Bool := false
  sp : Sparse 8 := []
  acc : Sparse 32 := []
  bars : Assoc NBar := []
  slots : Assoc StashSlot := []
  lines : Assoc StashLine := []
  mats : List MatOp := []
  prevec : VAddr := 0
  pending : Bool := false
  /-- The save request stands to make room, and is withdrawn where R41 lets the cohort stay. -/
  forRoom : Bool := false
  /-- Stage rings that the cohort uses: an RPOST, RTAKE or SETCTL named them (R226). -/
  rings : List Nat := []
  /-- Stage rings whose duty of R228 a store has broken, whether the cohort uses them or not yet. -/
  broken : List Nat := []
  deriving DecidableEq, Repr

/-- The fields of a launch record (R67 to R72). -/
structure LaunchRec where
  kind : Nat := 1
  prio : Nat := 0
  det : Bool := false
  persist : Bool := false
  nd : Nat := 1
  pers : Nat := 0
  order : Nat := 0
  ordparam : Nat := 0
  entry : Dword := 0
  ext : List Nat := []
  grain : Nat := 1
  ncoh : Nat := 0
  warps : Nat := 1
  regs : Nat := 8
  nbar : Nat := 0
  stash : Nat := 0
  /-- Scratchpad bytes. -/
  scratch : Nat := 0
  roles : Dword := 0
  gtab : Dword := 0
  param : Dword := 0
  signal : Dword := 0
  tag : Word := 0
  bin : Nat := 0
  rsize : Nat := 16
  /-- THRESH + 1. -/
  thresh : Nat := 1
  gather : Bool := false
  k : Nat := 1
  age : Nat := 0
  quota : Nat := 1
  inoff : Nat := 0
  ringbase : Dword := 0
  ringlog : Nat := 12
  parts : Nat := 0
  subs : Dword := 0
  deriving DecidableEq, Repr

/-- A valid group table entry (R34, R35). -/
structure GroupEnt where
  lo : List Nat
  hi : List Nat
  stride : List Nat
  deriving DecidableEq, Repr

/-- A group barrier (R37): its phase and the threads that have arrived in it. -/
structure GBar where
  phase : Nat := 0
  arrived : List Nat := []
  /-- The releases of the arrivals of the open phase, by thread (R265, case 5). -/
  rels : Assoc Rel := []
  deriving DecidableEq, Repr

/-- One cohort's contribution to a collective (R514). -/
structure Contrib where
  coh : Nat
  /-- Arriving thread with the lowest logical ID, whose operands count. -/
  tid : Nat
  ty : XredTy
  op : XredOp
  mode : XredMode
  scope : Scope
  off : Nat
  count : Nat
  slot : Nat
  /-- The buffer read when the cohort contributed; empty before. -/
  data : List Byte := []
  deriving DecidableEq, Repr

/-- A phase of a collective at .domain or .system that is complete on its own device (R514): the set's GANGID, the
group, the number of the phase on it in its context, the device as its partition, and the launch. -/
structure CollPart where
  gang : Nat
  g : Nat
  k : Nat
  pid : Nat
  cid : Nat
  launch : Nat
  contribs : List Contrib
  deriving DecidableEq, Repr

/-- A completed phase of collectives whose results are not written yet (R515): the buffers to write, by cohort, and the
flags and operations of the participating threads. -/
structure CollDone where
  writes : List (Nat × Nat × List Byte)
  flags : BitVec 7
  ops : List (Nat × Nat)
  deriving DecidableEq, Repr

/-- A group's collectives (R514). -/
structure GColl where
  phase : Nat := 0
  arrived : List Nat := []
  contribs : List Contrib := []
  /-- Every member has contributed or exited; the phase waits for other devices. -/
  handed : Bool := false
  done : List CollDone := []
  deriving DecidableEq, Repr

/-- A range of indices that waits for a walker slot (R78). -/
structure PendRange where
  sec : Nat
  lo : Nat
  hi : Nat
  deriving DecidableEq, Repr

/-- The Serpent of a deterministic launch (R313): warps left in the round, oldest first, and warps visited. -/
structure Token where
  /-- Members of the round not yet visited; the head holds the token. Warps are numbered cohort × 32 + warp. -/
  todo : List Nat := []
  /-- The writes that happen before the passes of the token (Table 12-2). -/
  view : List Nat := []
  deriving DecidableEq, Repr

/-- Launches, bin armings and gangs. -/
structure Launch where
  cid : Nat
  pid : Nat
  /-- Physical section whose front end accepted it. -/
  sec : Nat
  rc : LaunchRec
  ownerQ : Option Nat
  /-- Accepted from a packet of its owning queue's ring. -/
  fromRing : Bool := false
  groups : Assoc GroupEnt := []
  gbars : Assoc GBar := []
  gcolls : Assoc GColl := []
  /-- Members of each group whose cohorts have exited (R37). -/
  gone : Assoc Nat := []
  pend : List PendRange := []
  /-- Walkers saved at a switch-out or pre-emption (R90). -/
  saved : List PendRange := []
  /-- Cohorts created; of a bin arming, fires completed. -/
  created : Nat := 0
  /-- Deterministic: cohorts created on each logical core (R312). -/
  onCore : Assoc Nat := []
  /-- Requests served per persistent cohort (R89). -/
  served : Assoc Nat := []
  /-- Final status once the launch ends or is rejected. -/
  status : Option Nat := none
  signaled : Bool := false
  preempted : Bool := false
  token : Token := {}
  /-- GANG: its parts (R72). -/
  parts : List Nat := []
  /-- Part of a gang that waits for the commit (R334). -/
  held : Bool := false
  /-- The writes that the acceptance acquired, and those that happen before the ends of its threads (Table 12-2). -/
  view : List Nat := []
  endView : List Nat := []
  /-- Launch-order index of the cohort that the front end makes room for, and the target core, where its room is held
  (R41). -/
  room : Option (Nat × Nat) := none
  deriving DecidableEq, Repr

/-- A Fife walker (R77). -/
structure Walker where
  sec : Nat
  slot : Nat
  launch : Nat
  cursor : Nat
  limit : Nat
  core : Nat
  deriving DecidableEq, Repr

/-- A FETCHW request at the pool (R85). -/
structure FetchReq where
  id : Nat
  tid : Nat
  coh : Nat
  va : Nat
  deriving DecidableEq, Repr

/-- A record held in a bin (R96), with the parts of its sort key (R113). -/
structure BinRec where
  seq : Nat
  data : List Byte
  /-- Bytes 0 to 3 as accepted (R106). -/
  key : Nat
  tag : Nat
  lid : Nat
  num : Nat
  /-- Held in the spill ring at this ring index. -/
  ring : Option Nat := none
  /-- The writes that happen before its push (R99). -/
  view : List Nat := []
  deriving DecidableEq, Repr

/-- An armed bin (R93 to R115). -/
structure Bin where
  launch : Nat
  recs : List BinRec := []
  nextSeq : Nat := 0
  ringTail : Nat := 0
  /-- The newest record known to have been held for AGE cycles, by its sequence number (R101). -/
  aged : Option Nat := none
  /-- Drain mark: records with a lower sequence number stand before it. -/
  mark : Option Nat := none
  closing : Bool := false
  fires : Nat := 0
  /-- Order in which bins became eligible (R103). -/
  eligSince : Option Nat := none
  promoted : Bool := false
  /-- Core of a selected fire (R103, R111). -/
  selected : Option Nat := none
  /-- Deterministic bins: the runs of record numbers that remain to fire (R114). -/
  plan : List (List Nat) := []
  deriving DecidableEq, Repr

/-- A bound queue (R330). -/
structure Queue where
  fn : Nat
  cid : Nat
  sec : Nat
  qn : Nat
  qcb : Dword
  ringbase : Dword
  ringlog : Nat
  priomax : Nat
  rev : Nat
  wr : Nat := 0
  rd : Nat := 0
  /-- STATE: 0 idle, 1 running, 2 waiting, 3 error. -/
  state : Nat := 0
  err : Nat := 0
  evcount : Nat := 0
  evbin : Nat := 0
  /-- When the front end last served it, for the rotation (R332). -/
  turn : Nat := 0
  /-- The writes that happen before what its front end does for it next (R331, R332, Table 12-2). -/
  view : List Nat := []
  deriving DecidableEq, Repr

/-- A fault record waiting to be posted (R294), with what it parks. -/
structure Post where
  kind : FaultKind
  info : FaultInfo
  parked : Bool
  pers : Nat
  lane : Nat
  pc : VAddr
  lanes : Word
  logid : Nat
  tids : List Nat
  copy : Option Nat := none
  /-- The arming that it was pushed against has ended: its threads replay once it is posted (R100, R294). -/
  replay : Bool := false
  /-- Warp and bundle, for records shared by the threads of one warp in one cycle (R289). -/
  warp : Nat
  bundle : Nat
  page : Nat
  deriving DecidableEq, Repr

/-- What a posted record parks (R295). -/
structure Parked where
  tids : List Nat
  copy : Option Nat
  /-- The record is of kind WATCH: the replay suppresses the watchpoints (R288). -/
  watch : Bool := false
  deriving DecidableEq, Repr

/-- The contract of a context (Table 16-3). -/
structure Contract where
  ptroot : Nat := 0
  persdir : Dword := 0
  fmttab : Dword := 0
  fqbase : Dword := 0
  codedir : Dword := 0
  featmask : Dword := 0
  fqlog : Nat := 4
  /-- CEIL: a scope code, 4 to 7. -/
  ceil : Nat := 7
  scopeTrap : Bool := false
  sbCheck : Bool := false
  textenc : Bool := false
  gangid : Nat := 0
  deriving DecidableEq, Repr

/-- A context (R326). -/
structure Ctx where
  fn : Nat
  pid : Nat
  con : Contract
  scheduled : Bool := true
  stopped : Bool := false
  /-- Restored from an image: its waits are re-evaluated before it is scheduled (R339). -/
  migrated : Bool := false
  posts : List Post := []
  parked : Assoc Parked := []
  /-- Pages with a record not yet consumed, by posted index (R284). -/
  requests : List (Nat × Nat) := []
  /-- Records posted, counted without wrapping. -/
  posted : Nat := 0
  /-- Records that commands named while the context was switched out: replayed, or with `true` aborted (R310). -/
  held : List (Nat × Bool) := []
  /-- Collective phases of its launches that every member has met, by group (R514). -/
  collPhases : Assoc Nat := []
  deriving DecidableEq, Repr

/-- A function's register window and firmware's view of it (R328, R322, R334, R341). -/
structure Func where
  isPf : Bool
  pid : Nat
  admBase : Dword := 0
  admLog : Nat := 0
  admWr : Nat := 0
  admRd : Nat := 0
  /-- ADM_WRIDX as firmware read it at the last doorbell: how far it serves the ring (R328). -/
  admTo : Nat := 0
  /-- The command of the entry that firmware has read and not completed. -/
  cmd : Option Instr := none
  /-- The writes that happen before what firmware does for the function next (R328). -/
  view : List Nat := []
  evaddr : Dword := 0
  tdi : TdiState := .configUnlocked
  frozen : Bool := false
  textKey : Bool := false
  /-- Number of the text key: every entry of RUN makes a new one (R323). -/
  keyNo : Nat := 0
  gangs : List Nat := []
  /-- Version of the policy plug-in that the VF pins (R335). -/
  plugin : Nat := 0
  /-- How far a command that waits has come: 0 not begun; 1 the TLBs have dropped the range, and accesses that used its
  old leaves are still to be performed; 2 the frames are SCRUBBING (R327, R336). -/
  stage : Nat := 0
  deriving DecidableEq, Repr

/-- One record of a device-launch queue (R430). -/
structure DevRec where
  bytes : List Byte
  prioCap : Nat
  ownerQ : Option Nat
  /-- The writes that happen before its LAUNCH. -/
  view : List Nat := []
  deriving DecidableEq, Repr

/-- Start-up states of the module (R345). -/
inductive ModPhase where
  | reduced | full | failed
  deriving DecidableEq, Repr

/-- State of a frame that is not FREE (R336). -/
inductive FrameState where
  | owned (cid : Nat)
  /-- On its way from a context to FREE. -/
  | scrubbing (cid : Nat)
  deriving DecidableEq, Repr

/-- State of a Ximus Link port (R325, R345). -/
inductive PortState where
  | training | up | down
  deriving DecidableEq, Repr

/-- A Ximus Link port. -/
structure Port where
  state : PortState := .training
  replays : Nat := 0
  deriving DecidableEq, Repr

/-- A core watchpoint (R287). -/
structure CoreWp where
  cid : Nat
  addr : Dword
  ctl : Dword
  deriving DecidableEq, Repr

/-- Phases of an SPDM session (R322; log entry 13). -/
inductive SpdmPhase where
  | start | versioned | capable | negotiated | exchanged | established
  deriving DecidableEq, Repr

/-- A gang reservation at the hub (R334). -/
structure GangRes where
  launch : Nat
  /-- Parts reserved so far. -/
  reserved : List Nat
  deriving DecidableEq, Repr

/-- A migration image (R338): the contract and the objects of the context. -/
structure Image where
  con : Contract
  /-- The context's feature word and the sections of its partition, at the source. -/
  feat : Dword
  secs : List Nat
  ctx : Ctx
  queues : Assoc Queue
  launches : Assoc Launch
  bins : Assoc Bin
  cohorts : Assoc Cohort
  warps : Assoc Warp
  threads : Assoc Thread
  copies : Assoc Copy
  devq : Assoc (List DevRec)
  deriving DecidableEq, Repr

/-- The hub, the firmware and the platform (R322 to R346). -/
structure Hub where
  phase : ModPhase := .reduced
  /-- HUB_PARTCFG.PID as written, and the configuration applied. -/
  pidReg : BitVec 8 := 0xE4
  pidNow : BitVec 8 := 0xE4
  /-- COMMIT and GO as set and not served yet (Table 16-6). -/
  commit : Bool := false
  shGo : Bool := false
  busy : Bool := false
  badcfg : Bool := false
  /-- SEC_QCTLn REQ, DONE, REFUSED; SEC_ILVn NLOG, FIRST; SEC_NETBn MASK. -/
  qReq : BitVec 4 := 0
  qDone : BitVec 4 := 0
  qRefused : BitVec 4 := 0
  ilvNlog : List (BitVec 2) := [0, 0, 0, 0]
  ilvFirst : List (BitVec 4) := [0, 0, 0, 0]
  netb : List (BitVec 4) := [1, 2, 4, 8]
  shCid : BitVec 12 := 0
  shAll : Bool := false
  shSecs : BitVec 4 := 0
  shDone : Bool := false
  heldBells : List (Nat × Nat × Nat) := []
  /-- PIDs of stopped partitions (R303). -/
  stopped : List Nat := []
  frozenCores : List Nat := []
  /-- Frozen copy engines, by core × 2 + engine (R341, Table 1-2). -/
  frozenEngines : List Nat := []
  /-- Frames that are not FREE, by partition × 2^34 + frame number. -/
  frames : Assoc FrameState := []
  funcs : Assoc Func := [(0, { isPf := true, pid := 0 })]
  coreWps : Assoc CoreWp := []
  evseq : Nat := 0
  corrected : Assoc Nat := []
  fwVersion : Nat := 0
  fwStaged : Option Nat := none
  fwStored : Nat := 0
  powerCap : Nat := 3200000
  heat : BitVec 4 := 0
  ports : List Port := List.replicate 16 {}
  spdm : SpdmPhase := .start
  spdmLast : Nat := 0
  trainFailed : Option Nat := none
  gang : Option GangRes := none
  images : Assoc Image := []
  deriving DecidableEq, Repr

/-- What a structure read through a cache that only an explicit invalidation empties can return besides the bytes in
memory: the versions read since (R141, R142, R205, R279). -/
structure Seen where
  /-- 0 code line, 1 personality structure, 2 format descriptor, 3 leaf, 4 table entry of a walk; behind the ops in a
  decoded-op cache, 5 guest line and 6 personality structure (R141). -/
  what : Nat
  cluster : Nat
  cid : Nat
  addr : Nat
  vals : List (List Byte)
  deriving DecidableEq, Repr

/-- A CFLUSH.CODE over n bytes of a context in some clusters, and the writes that its thread's reads return: what they
replaced enters those caches no more (R142). -/
structure CodeFlush where
  cid : Nat
  clusters : List Nat
  va : Nat
  n : Nat
  known : List Nat
  deriving DecidableEq, Repr

/-- What the module may do of its own accord: an event of the instruction table, the performing of its writes for
every observer (R262), some of the accesses of a copy in flight (R246), the carrying out of a cohort's next matrix
instruction before its retirement (R220), the next work of firmware on a function's admin ring (R328), or the setting of
the power cap (R346). -/
inductive Act where
  | event (i : Instr)
  | perform
  | advance (copy : Nat)
  | matrix (coh : Nat)
  | serve (fn : Nat)
  /-- Firmware sets the power cap, in mW (R346). -/
  | powerCap
  deriving DecidableEq, Repr

/-- A request for work at the walkers that could not be served (R81). -/
structure WorkReq where
  core : Nat
  launch : Nat
  deriving DecidableEq, Repr

/-- The thread whose op executes, with the personality of the page of its PC, as its fetch found it (R121). -/
structure Cur where
  tid : Nat
  pers : Nat
  deriving DecidableEq, Repr

/-- The module. -/
structure State where
  hub : Hub := {}
  /-- Physical memory: strictly rising keys, no entry 0 (an unlisted byte reads 0, R253, R336). -/
  mem : List Host.Cell := []
  /-- Memory tags, by granule key (R285). -/
  tags : Sparse 4 := []
  seen : List Seen := []
  /-- Code flushes since the last time that every write was performed for every observer (R142). -/
  flushes : List CodeFlush := []
  /-- Writes that are not performed for every observer, each after those that precede it in coherence order (R260). -/
  hist : List Msg := []
  /-- The writes that happen before the FENCEs of each scope instance (R267). -/
  fences : Assoc (List Nat) := []
  ctxs : Assoc Ctx := []
  queues : Assoc Queue := []
  launches : Assoc Launch := []
  walkers : List Walker := []
  fetches : List FetchReq := []
  /-- Requests for work that wait, oldest first (R81, R83). -/
  works : List WorkReq := []
  /-- Armed bins, by section × 512 + bin. -/
  bins : Assoc Bin := []
  cohorts : Assoc Cohort := []
  /-- Warps, by cohort × 32 + warp. -/
  warps : Assoc Warp := []
  /-- Threads, by cohort × 1024 + warp × 32 + lane. -/
  threads : Assoc Thread := []
  copies : Assoc Copy := []
  /-- Collective phases that wait for other devices (R514). -/
  colls : List CollPart := []
  /-- Device-launch queues, by context × 4 + section. -/
  devq : Assoc (List DevRec) := []
  /-- When the front ends last served them, for the rotation (R430). -/
  devTurn : Assoc Nat := []
  /-- Rotations of the quarters, by core × 4 + quarter: launches, next to serve first (R52). -/
  rotation : Assoc (List Nat) := []
  agenda : List Instr := []
  issue : List Nat := []
  /-- Launches that end, with their statuses, once the bundle that issues is over (R47, R51). -/
  ending : List (Nat × Nat) := []
  /-- What the module could do and has not done yet, oldest first, and how often in a row it has done something younger
  (R40). -/
  backlog : List Act := []
  skips : Nat := 0
  /-- The writes that happen before the next access of the host (R263). -/
  host : List Nat := []
  /-- Partitions that a write-back over a link that is down stops next (R325). -/
  lost : List Nat := []
  cur : Option Cur := none
  free : Nat := 0
  bundle : Nat := 0
  nextId : Nat := 1
  deriving DecidableEq, Repr

/-- Why the machine stops with a fault. -/
inductive Fault where
  /-- HOST_REQUESTER_ACCESS names memory that no partition has (Table 16-2); safe. -/
  | noSuchMemory
  deriving DecidableEq, Repr

/-- Why an instruction is refused. -/
inductive Refusal where
  /-- Raised by exec's arm of an instruction without a meaning; safe. -/
  | notModelled (mnemonic : String)
  /-- Raised by a thread's instruction when no thread executes (`cur` names none): there is nothing for it to act on.
  Step names a thread before it issues an instruction, so it answers this only where the agenda, which holds events, were
  to hold a thread's instruction; safe. -/
  | noThread
  deriving DecidableEq, Repr

/-- The module right after reset: REDUCED, no context, no queue, no thread (R344, R345), every register at its Reset
value (R8). -/
def State.reset : State := {}

end Sys2Proof.Machine
end

