-- ==== Sys2Proof/Machine/Maps.lean ====
section
/-! DEFINITION. The maps that State is made of: lookup, insertion and removal in lists with strictly rising keys, byte
strings, and the predicate of their canonical form. -/

namespace Sys2Proof.Machine

/-- The value under a key; 0 where the key is not listed. -/
def sget {n : Nat} (m : Sparse n) (k : Nat) : BitVec n :=
  match m with
  | [] => 0
  | (j, v) :: t => if j = k then v else sget t k

/-- Puts an entry in its place in a map. -/
def sput {n : Nat} (m : Sparse n) (k : Nat) (v : BitVec n) : Sparse n :=
  match m with
  | [] => [(k, v)]
  | (j, u) :: t =>
    if k < j then (k, v) :: (j, u) :: t
    else if k = j then (k, v) :: t
    else (j, u) :: sput t k v

/-- Writes a value; writing 0 removes the entry. -/
def sset {n : Nat} (m : Sparse n) (k : Nat) (v : BitVec n) : Sparse n :=
  if v = 0 then m.filter fun e => e.1 != k else sput m k v

/-- Every key is above `lo` and keys rise strictly. -/
def rising {α : Type} (lo : Nat) (m : List (Nat × α)) : Bool :=
  match m with
  | [] => true
  | (j, _) :: t => decide (lo ≤ j) && rising (j + 1) t

/-- The canonical form of a sparse map: keys strictly rising, no entry 0. -/
def Sparse.wf {n : Nat} (m : Sparse n) : Bool := rising 0 m && m.all fun e => e.2 != 0

/-- The canonical form of physical memory, as State holds it. -/
def Memory.wf (m : List Host.Cell) : Bool := Sparse.wf (n := 8) m

/-- Record under a key. -/
def aget {α : Type} (m : Assoc α) (k : Nat) : Option α :=
  match m with
  | [] => none
  | (j, v) :: t => if j = k then some v else aget t k

/-- Writes a record under a key. -/
def aset {α : Type} (m : Assoc α) (k : Nat) (v : α) : Assoc α :=
  match m with
  | [] => [(k, v)]
  | (j, u) :: t =>
    if k < j then (k, v) :: (j, u) :: t
    else if k = j then (k, v) :: t
    else (j, u) :: aset t k v

/-- Removes the record under a key. -/
def adel {α : Type} (m : Assoc α) (k : Nat) : Assoc α := m.filter fun e => e.1 != k

/-- Changes the record under a key, if there is one. -/
def amod {α : Type} (m : Assoc α) (k : Nat) (f : α → α) : Assoc α :=
  m.map fun e => if e.1 = k then (e.1, f e.2) else e

/-- The bytes of a value, least significant first (R4). -/
def leBytes (n : Nat) (v : Nat) : List Byte :=
  match n with
  | 0 => []
  | n + 1 => BitVec.ofNat 8 (v % 256) :: leBytes n (v / 256)

/-- The number that little-endian bytes hold (R4). -/
def leNat (bs : List Byte) : Nat :=
  match bs with
  | [] => 0
  | b :: t => b.toNat + 256 * leNat t

/-- Reads n bytes of a byte map from address a. -/
def sread (m : Sparse 8) (a n : Nat) : List Byte :=
  match n with
  | 0 => []
  | n + 1 => sget m a :: sread m (a + 1) n

/-- Writes bytes of a byte map from address a. -/
def swrite (m : Sparse 8) (a : Nat) (bs : List Byte) : Sparse 8 :=
  match bs with
  | [] => m
  | b :: t => swrite (sset m a b) (a + 1) t

/-- The number in n bytes at offset o of a byte string. -/
def field (bs : List Byte) (o n : Nat) : Nat := leNat ((bs.drop o).take n)

/-- Bits hi to lo of a number. -/
def bitsOf (x hi lo : Nat) : Nat := x / 2 ^ lo % 2 ^ (hi - lo + 1)

/-- The number as a list of its n lowest bits. -/
def lowBits (n x : Nat) : List Bool :=
  match n with
  | 0 => []
  | n + 1 => (x % 2 == 1) :: lowBits n (x / 2)

/-- Position of the first element that satisfies a test. -/
def firstIdx {α : Type} (p : α → Bool) (l : List α) : Option Nat :=
  match l with
  | [] => none
  | x :: t => if p x then some 0 else (firstIdx p t).map (· + 1)

/-- Insertion into a list sorted by a relation. -/
def insertBy {α : Type} (le : α → α → Bool) (x : α) (l : List α) : List α :=
  match l with
  | [] => [x]
  | y :: t => if le x y then x :: y :: t else y :: insertBy le x t

/-- Insertion sort; elements that the relation ties keep their order. -/
def sortBy {α : Type} (le : α → α → Bool) (l : List α) : List α :=
  match l with
  | [] => []
  | x :: t => insertBy le x (sortBy le t)

/-- Sorted insertion without repeats. -/
def insertNat (x : Nat) (l : List Nat) : List Nat :=
  match l with
  | [] => [x]
  | y :: t => if x < y then x :: y :: t else if x = y then y :: t else y :: insertNat x t

/-- Least upper multiple. -/
def roundUp (x g : Nat) : Nat := (x + g - 1) / g * g

/-- Quotient rounded up. -/
def ceilDiv (x g : Nat) : Nat := (x + g - 1) / g

/-- Sign extension of the low n bits of a number, as an integer. -/
def sextInt (n x : Nat) : Int := if x % 2 ^ n < 2 ^ (n - 1) then (x % 2 ^ n : Nat) else (x % 2 ^ n : Nat) - (2 ^ n : Nat)

/-- Two's-complement bits of an integer. -/
def truncInt (n : Nat) (i : Int) : BitVec n := BitVec.ofInt n i

end Sys2Proof.Machine
end

