-- ==== Sys2Proof/Machine/Flags.lean ====
section
/-! DEFINITION. The sticky flags and the integer results that set them (R162, R423). -/

namespace Sys2Proof.Machine

/-- Bits of SYS_FLAGS (Table 7-10). -/
def flagNV : BitVec 7 := 0x01#7
def flagDZ : BitVec 7 := 0x02#7
def flagOF : BitVec 7 := 0x04#7
def flagUF : BitVec 7 := 0x08#7
def flagNX : BitVec 7 := 0x10#7
def flagSAT : BitVec 7 := 0x20#7

/-- A flag, where its condition holds. -/
def flagIf (c : Bool) (f : BitVec 7) : BitVec 7 := if c then f else 0

/-- Least value of a w-bit type. -/
def tyMin (w : Nat) (signed : Bool) : Int := if signed then -(2 ^ (w - 1) : Nat) else 0

/-- Greatest value of a w-bit type. -/
def tyMax (w : Nat) (signed : Bool) : Int := if signed then (2 ^ (w - 1) - 1 : Nat) else (2 ^ w - 1 : Nat)

/-- The integer that w bits hold. -/
def intOf (w : Nat) (signed : Bool) (x : Nat) : Int := if signed then sextInt w x else (x % 2 ^ w : Nat)

/-- An exact integer result brought into w bits, with the nearer bound under SAT, and whether SAT is set (R423). -/
def satInt (w : Nat) (signed sat : Bool) (r : Int) : Dword × BitVec 7 :=
  if sat && (r < tyMin w signed || tyMax w signed < r) then
    (BitVec.ofInt 64 (if r < tyMin w signed then tyMin w signed else tyMax w signed), flagSAT)
  else (BitVec.ofInt 64 r, 0)

end Sys2Proof.Machine
end

