-- ==== Sys2Proof/Machine/Numeric.lean ====
section
/-! DEFINITION. Number formats and arithmetic (R186 to R199, R206): exact values, one rounding into each format with its
flags, and the operations of the float, packed, narrow and L6 instructions. -/

namespace Sys2Proof.Machine

/-- An exact value: (−1)^neg × m × 2^e, an infinity, or a NaN, which may be signalling. -/
inductive Val where
  | num (neg : Bool) (m : Nat) (e : Int)
  | inf (neg : Bool)
  | nan (sig : Bool)
  deriving DecidableEq, Repr

/-- Exponent bits of a format with exponent and fraction. -/
def Fmt.ebits : Fmt → Nat
  | .f32 | .bf16 => 8 | .f16 | .f8e5 => 5 | .f8e4 => 4 | .f4 => 2 | .l6 => 0

/-- Fraction bits. -/
def Fmt.fbits : Fmt → Nat
  | .f32 => 23 | .f16 => 10 | .bf16 => 7 | .f8e4 => 3 | .f8e5 => 2 | .f4 => 1 | .l6 => 0

def Fmt.bias : Fmt → Nat
  | .f32 | .bf16 => 127 | .f16 | .f8e5 => 15 | .f8e4 => 7 | .f4 => 1 | .l6 => 0

/-- Bits of a code. -/
def Fmt.bits : Fmt → Nat
  | .f32 => 32 | .f16 | .bf16 => 16 | .f8e4 | .f8e5 => 8 | .f4 => 4 | .l6 => 6

/-- The format has IEEE infinities and NaNs: exponent all ones. -/
def Fmt.ieee : Fmt → Bool
  | .f32 | .f16 | .bf16 | .f8e5 => true
  | _ => false

/-- Canonical NaNs (R193); F4 has none. -/
def Fmt.cnan : Fmt → Nat
  | .f32 => 0x7FC00000 | .f16 => 0x7E00 | .bf16 => 0x7FC0 | .f8e4 => 0x7F | .f8e5 => 0x7E | .f4 => 0x8 | .l6 => 0x30

/-- Code of the largest finite magnitude. -/
def Fmt.maxCode : Fmt → Nat
  | .f8e4 => 0x7E
  | .f4 => 0x7
  | .l6 => 0x0F
  | t => (2 ^ t.ebits - 1) * 2 ^ t.fbits - 1

/-- Code of infinity. -/
def Fmt.infCode (t : Fmt) : Nat := (2 ^ t.ebits - 1) * 2 ^ t.fbits

def FTy.fmt : FTy → Fmt
  | .f32 => .f32 | .f16 => .f16 | .bf16 => .bf16

/-- Format of a float TYPE code. -/
def NumTy.fmt : NumTy → Fmt
  | .f16 => .f16 | .bf16 => .bf16 | .f8e4 => .f8e4 | .f8e5 => .f8e5 | .f4 => .f4 | .l6 => .l6 | _ => .f32

/-- T[f] × 32768 (Table 9-2). -/
def l6T (f : Nat) : Nat := if f = 0 then 32768 else if f = 1 then 38968 else if f = 2 then 46341 else 55109

/-- log value of an L6 code, in quarters (R188). -/
def l6n (c : Nat) : Int := sextInt 5 c

/-- Value of an L6 code (R188). -/
def l6Val (c : Nat) : Val :=
  let c := c % 64
  if c = 0x10 then .num false 0 0
  else if c = 0x30 then .nan false
  else .num (c / 32 = 1) (l6T (c % 4)) (sextInt 3 (c / 4 % 8) - 15)

/-- Value of a code with exponent and fraction fields (Table 9-1). -/
def ieeeVal (t : Fmt) (c : Nat) : Val :=
  let neg := c / 2 ^ (t.bits - 1) % 2 == 1
  let ex := c / 2 ^ t.fbits % 2 ^ t.ebits
  let fr := c % 2 ^ t.fbits
  if t.ieee && ex == 2 ^ t.ebits - 1 then
    (if fr = 0 then .inf neg else .nan (fr < 2 ^ (t.fbits - 1)))
  else if t = .f8e4 && ex == 15 && fr == 7 then .nan false
  else if ex = 0 then .num neg fr (1 - (t.bias : Int) - t.fbits)
  else .num neg (2 ^ t.fbits + fr) ((ex : Int) - t.bias - t.fbits)

/-- Value of a code; `xv` is the extra value of F4, as BF16 bits (R187). -/
def Fmt.val (t : Fmt) (c : Nat) (xv : Nat) : Val :=
  match t with
  | .l6 => l6Val c
  | .f4 => if c % 16 = 8 then ieeeVal .bf16 xv else ieeeVal .f4 (c % 16)
  | t => ieeeVal t (c % 2 ^ t.bits)

/-- Magnitude m × 2^e is rounded up in a mode, from its floor n and the rest of 2^sh. -/
def roundsUp (rnd : Rnd) (neg odd : Bool) (rest half2 : Nat) : Bool :=
  match rnd with
  | .rn => half2 < 2 * rest || (half2 == 2 * rest && odd)
  | .rz => false
  | .rd => neg && rest ≠ 0
  | .ru => !neg && rest ≠ 0

/-- m × 2^e as a multiple of 2^q: the multiple, and whether it is inexact. -/
def quantum (rnd : Rnd) (neg : Bool) (m : Nat) (e q : Int) : Nat × Bool :=
  if q ≤ e then (m * 2 ^ (e - q).toNat, false)
  else
    let sh := (q - e).toNat
    let n := m / 2 ^ sh
    let rest := m % 2 ^ sh
    (if roundsUp rnd neg (n % 2 == 1) rest (2 ^ sh) then n + 1 else n, rest != 0)

/-- A result and its flags. -/
abbrev FRes := Nat × BitVec 7

/-- Sign bit of a format. -/
def Fmt.sign (t : Fmt) (neg : Bool) : Nat := if neg then 2 ^ (t.bits - 1) else 0

/-- A non-zero finite value rounded into a format with exponent and fraction (R191, Table 9-3). -/
def roundIeee (t : Fmt) (rnd : Rnd) (neg : Bool) (m : Nat) (e : Int) : FRes :=
  let top := (Nat.log2 m : Int) + e
  let emin : Int := 1 - t.bias
  let q := max (top - t.fbits) (emin - t.fbits)
  let (n, inex) := quantum rnd neg m e q
  let code := if n < 2 ^ t.fbits then n else ((q + t.fbits + t.bias).toNat - 1) * 2 ^ t.fbits + n
  if t.maxCode < code then
    let away := match rnd with
      | .rn => true
      | .rz => false
      | .rd => neg
      | .ru => !neg
    (t.sign neg + (if t.ieee && away then t.infCode else t.maxCode), flagOF ||| flagNX)
  else
    let tiny := top < emin && (let (k, _) := quantum rnd neg m e (top - t.fbits)
      !(top = emin - 1 && k == 2 ^ (t.fbits + 1)))
    let code := if t = .f4 && code = 0 then 0 else t.sign neg + code
    (code, flagIf inex flagNX ||| flagIf (inex && tiny) flagUF)

/-- Codes of the non-zero L6 magnitudes from integer part i, extended above the format: T[f] × 2^(i − 15). -/
def l6Mag (k : Int) : Nat × Int := (l6T (k % 4).toNat, k / 4 - 15)

/-- Compares m × 2^e with n × 2^g. -/
def cmpMag (m : Nat) (e : Int) (n : Nat) (g : Int) : Ordering :=
  let lo := min e g
  compare (m * 2 ^ (e - lo).toNat) (n * 2 ^ (g - lo).toNat)

/-- Greatest log value k, from `k` down, whose linear magnitude is at most m × 2^e; none below −16. -/
def l6Floor (m : Nat) (e : Int) (k : Int) (fuel : Nat) : Option Int :=
  match fuel with
  | 0 => none
  | fuel + 1 =>
    let (n, g) := l6Mag k
    if cmpMag n g m e != .gt then some k else l6Floor m e (k - 1) fuel

/-- A non-zero finite value encoded to L6 (R198). The log value −16 has no code: the least magnitude above zero is that
of −15; zero is the candidate below it. -/
def roundL6 (rnd : Rnd) (neg : Bool) (m : Nat) (e : Int) : FRes :=
  let s := if neg then 32 else 0
  let (m16, e16) := l6Mag 16
  if cmpMag m e m16 e16 != .lt then
    (s + 0x0F, flagOF ||| flagNX)
  else
    let lo := l6Floor m e 15 31
    let loV := match lo with
      | none => (0, 0)
      | some k => l6Mag k
    let hi := match lo with
      | none => -15
      | some k => k + 1
    let hiV := l6Mag hi
    let exact := cmpMag loV.1 loV.2 m e == .eq
    let g := min (min loV.2 hiV.2) e - 1
    let sc := fun (v : Nat × Int) => v.1 * 2 ^ (v.2 - g).toNat
    let x := sc (m, e)
    let loEven := match lo with
      | none => true
      | some k => k % 2 == 0
    let up := !exact && (match rnd with
      | .rz => false
      | .rd => neg
      | .ru => !neg
      | .rn => decide (sc loV + sc hiV < 2 * x) || (2 * x == sc loV + sc hiV && !loEven))
    let r := if up then some hi else lo
    match r with
    | none => (0x10, flagUF ||| flagNX)
    | some k =>
      if 15 < k then (s + 0x0F, flagOF ||| flagNX)
      else
        (s + (k % 32).toNat, flagIf (!exact) flagNX ||| flagIf (!exact && k < -12) flagUF)

/-- Values of the fifteen standard F4 codes hold m × 2^e (R194). -/
def isStdF4 (v : Val) : Bool :=
  match v with
  | .num neg m e =>
    m == 0 || (List.range 7).any fun c => match ieeeVal .f4 (c + 1) with
      | .num _ n g => cmpMag m e n g == .eq && (neg || true)
      | _ => false
  | _ => false

/-- Two finite values are equal. -/
def sameNum (a b : Val) : Bool :=
  match a, b with
  | .num na ma ea, .num nb mb eb => (ma == 0 && mb == 0) || (na == nb && cmpMag ma ea mb eb == .eq)
  | _, _ => false

/-- Rounds a value into a format; `xv` is the extra value in force for F4 (R191, R194, Table 9-3). A signalling NaN sets
NV (R193). -/
def roundTo (t : Fmt) (rnd : Rnd) (v : Val) (xv : Nat) : FRes :=
  let x := ieeeVal .bf16 xv
  let xFin := match x with
    | .num .. => true
    | _ => false
  if t = .f4 && xFin && !isStdF4 x && sameNum v x then (0x8, 0)
  else match v with
  | .nan sig =>
    let f := flagIf sig flagNV
    if t = .f4 then (match x with
      | .nan _ => (0x8, f)
      | _ => (0x0, flagNV))
    else (t.cnan, f)
  | .inf neg =>
    match t with
    | .f8e4 => (0x7F, flagNV)
    | .l6 => (0x30, flagNV)
    | .f4 => if x = .inf neg then (0x8, 0) else ((if neg then 0xF else 0x7), flagNV ||| flagNX)
    | t => (t.sign neg + t.infCode, 0)
  | .num neg m e =>
    if m = 0 then (match t with
      | .l6 => (0x10, 0)
      | .f4 => (0, 0)
      | t => (t.sign neg, 0))
    else if t = .l6 then roundL6 rnd neg m e else roundIeee t rnd neg m e

/-! ## Exact operations -/

/-- Negation of a value's sign. -/
def Val.negIf (v : Val) (c : Bool) : Val :=
  match v with
  | .num n m e => .num (n ^^ c) m e
  | .inf n => .inf (n ^^ c)
  | v => v

/-- A signalling NaN. -/
def Val.isSig : Val → Bool
  | .nan true => true
  | _ => false

def Val.isNan : Val → Bool
  | .nan _ => true
  | _ => false

/-- The signed mantissa of a finite value at exponent g. -/
def scaled (neg : Bool) (m : Nat) (e g : Int) : Int :=
  let a : Int := (m * 2 ^ (e - g).toNat : Nat)
  if neg then -a else a

/-- Exact sum, with the sign of an exact zero by the rounding mode (R407), and NV for ∞ − ∞. -/
def addVal (a b : Val) (rnd : Rnd) : Val × BitVec 7 :=
  let f := flagIf (a.isSig || b.isSig) flagNV
  match a, b with
  | .nan _, _ => (.nan false, f)
  | _, .nan _ => (.nan false, f)
  | .inf x, .inf y => if x = y then (.inf x, f) else (.nan false, f ||| flagNV)
  | .inf x, .num .. => (.inf x, f)
  | .num .., .inf y => (.inf y, f)
  | .num nx mx ex, .num ny my ey =>
    if mx = 0 && my = 0 then (.num (if nx = ny then nx else rnd == .rd) 0 0, f)
    else
      let g := min ex ey
      let r := scaled nx mx ex g + scaled ny my ey g
      if r = 0 then (.num (rnd == .rd) 0 0, f) else (.num (r < 0) r.natAbs g, f)

/-- Exact product, with NV for 0 × ∞. -/
def mulVal (a b : Val) : Val × BitVec 7 :=
  let f := flagIf (a.isSig || b.isSig) flagNV
  match a, b with
  | .nan _, _ => (.nan false, f)
  | _, .nan _ => (.nan false, f)
  | .inf x, .inf y => (.inf (x ^^ y), f)
  | .inf x, .num y m _ => if m = 0 then (.nan false, f ||| flagNV) else (.inf (x ^^ y), f)
  | .num x m _, .inf y => if m = 0 then (.nan false, f ||| flagNV) else (.inf (x ^^ y), f)
  | .num x m e, .num y n g => (.num (x ^^ y) (m * n) (e + g), f)

/-- A value times a power of two. -/
def Val.shift (v : Val) (k : Int) : Val :=
  match v with
  | .num n m e => .num n m (e + k)
  | v => v

/-- FADD of two codes (R407). -/
def fadd' (t : Fmt) (rnd : Rnd) (a : Nat) (nb : Bool) (b : Nat) : FRes :=
  let (v, f) := addVal (t.val a 0) ((t.val b 0).negIf nb) rnd
  let (c, g) := roundTo t rnd v 0
  (c, f ||| g)

/-- FMUL of two codes (R407). -/
def fmul' (t : Fmt) (rnd : Rnd) (a : Nat) (nb : Bool) (b : Nat) : FRes :=
  let (v, f) := mulVal (t.val a 0) ((t.val b 0).negIf nb)
  let (c, g) := roundTo t rnd v 0
  (c, f ||| g)

/-- FFMA of three codes: one rounding (R407). -/
def ffma' (t : Fmt) (rnd : Rnd) (a : Nat) (nb : Bool) (b : Nat) (nc : Bool) (c : Nat) : FRes :=
  let (p, f) := mulVal (t.val a 0) ((t.val b 0).negIf nb)
  let (v, g) := addVal p ((t.val c 0).negIf nc) rnd
  let (r, h) := roundTo t rnd v 0
  (r, f ||| g ||| h)

/-- Sign of a value, for comparison. -/
def Val.cmp (a b : Val) : Ordering :=
  match a, b with
  | .num na ma ea, .num nb mb eb =>
    let g := min ea eb
    compare (scaled na ma ea g) (scaled nb mb eb g)
  | .inf x, .inf y => if x = y then .eq else if x then .lt else .gt
  | .inf x, _ => if x then .lt else .gt
  | _, .inf y => if y then .gt else .lt
  | _, _ => .eq

/-- Total order of FMIN and FMAX: −0 is less than +0 (R408). -/
def Val.lt0 (a b : Val) : Bool :=
  match a.cmp b with
  | .lt => true
  | .gt => false
  | .eq => match a, b with
    | .num true 0 _, .num false 0 _ => true
    | _, _ => false

/-- minimumNumber and maximumNumber (R408): the operand's own bits. -/
def fminmax (t : Fmt) (isMax : Bool) (a b : Nat) : FRes :=
  let va := t.val a 0
  let vb := t.val b 0
  let f := flagIf (va.isSig || vb.isSig) flagNV
  if va.isNan && vb.isNan then (t.cnan, f)
  else if va.isNan then (b % 2 ^ t.bits, f)
  else if vb.isNan then (a % 2 ^ t.bits, f)
  else
    let less := va.lt0 vb
    ((if less ^^ isMax then a else b) % 2 ^ t.bits, f)

/-- FSETP (Table 18-9). -/
def fcompare (t : Fmt) (c : FCmp) (a b : Nat) : Bool × BitVec 7 :=
  let va := t.val a 0
  let vb := t.val b 0
  let u := va.isNan || vb.isNan
  let o := va.cmp vb
  let eq := o == .eq
  let lt := o == .lt
  let gt := o == .gt
  let r := match c with
    | .eq => !u && eq
    | .ne => !u && !eq
    | .lt => !u && lt
    | .le => !u && (lt || eq)
    | .gt => !u && gt
    | .ge => !u && (gt || eq)
    | .num => !u
    | .nan => u
    | .equ => u || eq
    | .neu => u || !eq
    | .ltu => u || lt
    | .leu => u || lt || eq
    | .gtu => u || gt
    | .geu => u || gt || eq
  (r, flagIf (va.isSig || vb.isSig) flagNV)

/-- FRND: rounding to an integral value of the same format (R416). -/
def fround (t : Fmt) (rnd : Rnd) (a : Nat) : FRes :=
  let a := a % 2 ^ t.bits
  match t.val a 0 with
  | .nan sig => (t.cnan, flagIf sig flagNV)
  | .inf _ => (a, 0)
  | .num neg m e =>
    if m = 0 || 0 ≤ e then (a, 0)
    else
      let (n, _) := quantum rnd neg m e 0
      ((roundTo t .rn (.num neg n 0) 0).1, 0)

/-- FCLASS (Table 18-8): the number of the bit that is set. -/
def fclassBit (t : Fmt) (a : Nat) : Nat :=
  let a := a % 2 ^ t.bits
  if t = .f4 && a = 8 then 10
  else match t.val a 0 with
    | .nan sig => if sig then 0 else 1
    | .inf neg => if neg then 2 else 9
    | .num neg m _ =>
      if m = 0 then (if neg then 5 else 6)
      else if t ≠ .l6 && a / 2 ^ t.fbits % 2 ^ t.ebits = 0 then (if neg then 4 else 7)
      else if neg then 3 else 8

/-! ## Conversions -/

/-- Float to integer (R195): the integer and the flags. The value is rounded before the type's range is tested (DESIGN
CHOICE: R195 does not say which comes first; log entry 19). -/
def toInt (v : Val) (w : Nat) (signed : Bool) (rnd : Rnd) : Int × BitVec 7 :=
  match v with
  | .nan _ => (0, flagNV)
  | .inf neg => (if neg then tyMin w signed else tyMax w signed, flagNV)
  | .num neg m e =>
    let (n, inex) := quantum rnd neg m e 0
    let r : Int := if neg then -(n : Int) else n
    if r < tyMin w signed then (tyMin w signed, flagNV)
    else if tyMax w signed < r then (tyMax w signed, flagNV)
    else (r, flagIf inex flagNX)

/-- An integer as a value. -/
def ofInt (i : Int) : Val := .num (i < 0) i.natAbs 0

/-! ## L6 -/

/-- The L6 product (R197). -/
def l6mul (a b : Nat) : FRes :=
  let a := a % 64
  let b := b % 64
  if a = 0x30 || b = 0x30 then (0x30, 0)
  else if a = 0x10 || b = 0x10 then (0x10, 0)
  else
    let s := if (a / 32 == 1) ^^ (b / 32 == 1) then 32 else 0
    let n := l6n a + l6n b
    if 15 < n then (s + 15, flagOF ||| flagNX)
    else if n < -15 then (0x10, flagUF ||| flagNX)
    else (s + (n % 32).toNat, 0)

/-- Negation of an L6 code (R428). -/
def l6neg (a : Nat) : Nat := let a := a % 64; if a = 0x10 || a = 0x30 then a else Nat.xor a 32

/-- The L6 sum (R428). -/
def l6add (rnd : Rnd) (a b : Nat) : FRes :=
  let (v, _) := addVal (l6Val a) (l6Val b) rnd
  match v with
  | .num _ 0 _ => (0x10, 0)
  | v => roundTo .l6 rnd v 0

/-! ## Reciprocal and reciprocal square root (R485) -/

/-- Integer square root: greatest r with r × r ≤ x, from the bits of r. -/
def isqrtFrom (x r : Nat) (bit : Nat) : Nat :=
  match bit with
  | 0 => r
  | b + 1 => let t := r + 2 ^ b; isqrtFrom x (if t * t ≤ x then t else r) b

/-- 1 ÷ (m × 2^e) as a value that rounds as the exact quotient does: 64 significant bits and a sticky bit. -/
def rcpVal (neg : Bool) (m : Nat) (e : Int) : Val :=
  let k := Nat.log2 m + 64
  let q := 2 ^ k / m
  let st := if 2 ^ k % m = 0 then 0 else 1
  .num neg (2 * q + st) (-(k : Int) - e - 1)

/-- 1 ÷ √(m × 2^e) likewise. -/
def rsqVal (m : Nat) (e : Int) : Val :=
  let odd := e % 2 == 1
  let m := if odd then 2 * m else m
  let e := if odd then e - 1 else e
  let k := Nat.log2 m / 2 + 64
  -- 2^(2k) ÷ m under the root
  let x := 2 ^ (2 * k) / m
  let r := isqrtFrom x 0 (k + 1)
  let st := if r * r * m = 2 ^ (2 * k) then 0 else 1
  .num false (2 * r + st) (-(k : Int) - e / 2 - 1)

/-! ## Block quantisation (R206) -/

/-- Greatest exponent of a format's scaled block (R206). -/
def Fmt.emax : Fmt → Int
  | .f8e4 => 8 | .f8e5 => 15 | .f4 => 2 | _ => 3

/-- floor(log2) of the greatest magnitude of a block; none where it is 0. -/
def blockExp (vs : List Val) : Option Int :=
  vs.foldl (fun acc v => match v with
    | .num _ m e => if m = 0 then acc else
        let k := (Nat.log2 m : Int) + e
        match acc with
        | none => some k
        | some j => some (max j k)
    | _ => acc) none

/-- Block quantisation: scale byte, codes and flags (R206). -/
def quantBlock (t : Fmt) (rnd : Rnd) (texp : Int) (xv : Nat) (vs : List Val) : Nat × List Nat × BitVec 7 :=
  if vs.any fun v => match v with
      | .num .. => false
      | _ => true then
    (0xFF, vs.map fun _ => (roundTo t .rn (.nan false) xv).1, flagNV)
  else
    let x : Int := match blockExp vs with
      | none => -127
      | some k => min 127 (max (-127) (k - t.emax))
    let rs := vs.map fun v => roundTo t rnd (v.shift (-x - texp)) xv
    ((x + 127).toNat, rs.map (·.1), rs.foldl (fun f r => f ||| r.2) 0)

/-- Codes packed as R190 places them, lowest element in the lowest bits. -/
def packCodes (t : Fmt) (cs : List Nat) : Nat :=
  cs.foldr (fun c acc => c + acc * 2 ^ (if t = .f4 then 4 else 8)) 0

end Sys2Proof.Machine
end

