-- ==== Sys2Proof/WellFormed.lean ====
section
/-! DEFINITION. Which terms of Instr stand for an encoding: the combinations of operands and modifiers that the
reference entries list (R153). No words decode to a term that is not well formed. -/

namespace Sys2Proof

/-- The type is one of the 64-bit types. -/
def IntTy.is64 : IntTy → Bool
  | .s64 | .n64 => true
  | .s32 | .n32 => false

/-- The type is signed. -/
def IntTy.signed : IntTy → Bool
  | .s32 | .s64 => true
  | .n32 | .n64 => false

/-- The type is an integer type. -/
def NumTy.isInt : NumTy → Bool
  | .s8 | .s16 | .s32 | .s64 | .n8 | .n16 | .n32 | .n64 => true
  | _ => false

/-- The type takes a register pair (R154). -/
def NumTy.is64 : NumTy → Bool
  | .s64 | .n64 => true
  | _ => false

/-- Native code names no expansion temporary (Table 7-5). -/
def Reg.native : Reg → Bool
  | .v _ => true
  | .k _ => false

/-- Native register, in source B. -/
def SrcB.native : SrcB → Bool
  | .reg r => r.native
  | _ => true

/-- Source B where the short immediate is accepted (R156), with a WORD1 of `w` significant bits (R157). -/
def SrcB.ok (immOk : Bool) (w : Nat) : SrcB → Bool
  | .reg _ => true
  | .imm _ => immOk
  | .long v => v.toNat < 2 ^ w

/-- Significant bits of a WORD1 that carries source B of an integer type. -/
def IntTy.width (t : IntTy) : Nat := if t.is64 then 64 else 32

/-- Significant bits of a WORD1 that carries a float source B (Table 7-5b). -/
def FTy.width : FTy → Nat
  | .f32 => 32
  | .f16 | .bf16 => 16

/-- A REDW combination of Table 20-5, with its SAT, RND and source B rules. -/
def redwOk (ty : RedwTy) (op : RedwOp) (sat : Bool) (rnd : Rnd) (b : Reg) : Bool :=
  let int := ty == .s32 || ty == .s64 || ty == .n32 || ty == .n64
  let uns := ty == .n32 || ty == .n64
  let opOk := match op with
    | .add | .min | .max => true
    | .and | .or | .xor => uns
    | .maxidx => !int
  opOk && (!sat || (int && op == .add)) && (rnd == .rn || (!int && op == .add)) &&
    (op == .maxidx || b == .v 255)

/-- A SIZE, SGN and OPX combination of Table 17-5. -/
def atomOk (w64 sgn : Bool) (op : AtomOp) : Bool :=
  match op with
  | .add => !sgn || !w64
  | .min | .max => true
  | .and | .or | .xor | .exch | .cas => !sgn

/-- An XRED combination that R513 does not reject. -/
def xredOk (ty : XredTy) (op : XredOp) (mode : XredMode) (scope : Scope) : Bool :=
  (scope == .device || scope == .domain || scope == .system) &&
  (match op with
    | .and | .or | .xor => ty == .n32
    | _ => true) &&
  (mode == .tree || (ty == .f32 && op == .add && (scope == .domain || scope == .system)))

/-- The term is an instruction that has words (R153), or an event. -/
def Instr.wellFormed : Instr → Bool
  | .iadd _ ty _ _ _ b | .isub _ ty _ _ _ b | .imul _ ty _ _ _ b => b.ok true ty.width
  | .imulh _ ty _ _ b | .imin _ ty _ _ b | .imax _ ty _ _ b | .isetp _ ty _ _ _ b => b.ok true ty.width
  | .imad _ ty wide _ _ _ b _ => b.ok false ty.width && !(wide && ty.is64)
  | .shl _ ty _ _ b | .shr _ ty _ _ b => b.ok true ty.width
  | .shf _ w64 _ _ _ b _ => b.ok false (if w64 then 64 else 32)
  | .logt _ w64 _ _ b _ => b.ok false (if w64 then 64 else 32)
  | .bfe _ _ _ _ b => b.ok true 32
  | .bfi _ _ _ _ b _ => b.ok false 32
  | .pswz _ _ _ b _ => b.ok false 32
  | .lea _ ty _ _ b _ => b.ok false ty.width
  | .sel _ w64 _ _ b _ => b.ok false (if w64 then 64 else 32)
  | .moviLong _ ty _ v => v.toNat < 2 ^ ty.width
  | .fadd _ ty _ _ _ _ b | .fmul _ ty _ _ _ _ b => b.ok false ty.width
  | .ffma _ ty _ _ _ _ _ b _ => b.ok false ty.width
  | .fmin _ ty _ _ b | .fmax _ ty _ _ b => b.ok false ty.width
  | .fsetp _ ty _ _ _ b => b.ok false ty.width
  | .fclass _ ty _ _ => !ty.isInt
  | .padd _ _ _ _ _ _ _ b | .pmul _ _ _ _ _ _ _ b => b.ok false 32
  | .pfma _ _ _ _ _ _ _ _ b _ => b.ok false 32
  | .pminmax _ _ _ _ _ _ b => b.ok false 32
  | .cvt _ dty sty rnd sat _ _ x =>
      (x.isSome == (dty == .f4 || sty == .f4)) && (rnd == .rn || !(dty.isInt && sty.isInt)) &&
      (!sat || (dty.isInt && sty.isInt))
  | .redw _ ty op sat rnd _ _ b _ => redwOk ty op sat rnd b
  | .ld _ sz sgn _ _ _ _ _ => !sgn || sz == .b1 || sz == .b2
  | .ldl _ sz sgn _ _ _ _ => !sgn || sz == .b1 || sz == .b2
  | .atom _ w64 sgn op ord scope d _ _ _ =>
      atomOk w64 sgn op && (ord != .plain || scope == .warp) && (ord == .plain || d != .v 255)
  | .red _ w64 sgn op _ _ _ _ => atomOk w64 sgn op && op != .exch && op != .cas
  | .backoffReg _ a => a != .v 255
  | .braLong _ _ | .callLong _ _ => true
  | .skip _ n => n != 0
  | .xred _ ty op mode scope _ _ _ => xredOk ty op mode scope
  | _ => true

/-- Every register operand of the term is an architectural register, so the term can stand in native code and in
personality 1 (Table 7-5). -/
def Instr.native : Instr → Bool
  | .iadd _ _ _ d a b | .isub _ _ _ d a b | .imul _ _ _ d a b => d.native && a.native && b.native
  | .imulh _ _ d a b | .imin _ _ d a b | .imax _ _ d a b => d.native && a.native && b.native
  | .imad _ _ _ _ d a b c => d.native && a.native && b.native && c.native
  | .iabs _ _ _ d a => d.native && a.native
  | .isetp _ _ _ _ a b => a.native && b.native
  | .idp4 _ _ _ _ d a b c => d.native && a.native && b.native && c.native
  | .shl _ _ d a b | .shr _ _ d a b => d.native && a.native && b.native
  | .shf _ _ _ d a b c => d.native && a.native && b.native && c.native
  | .logt _ _ d a b _ => d.native && a.native && b.native
  | .bfe _ _ d a b => d.native && a.native && b.native
  | .bfi _ _ d a b c => d.native && a.native && b.native && c.native
  | .popc _ _ d a | .clz _ _ d a | .brev _ _ d a => d.native && a.native
  | .pswz _ d a b c => d.native && a.native && b.native && c.native
  | .lea _ _ d a b _ => d.native && a.native && b.native
  | .sel _ _ d a b _ => d.native && a.native && b.native
  | .mov _ _ d a => d.native && a.native
  | .movX _ d _ => d.native
  | .moviShort _ _ d _ | .moviLong _ _ d _ => d.native
  | .fadd _ _ _ _ d a b | .fmul _ _ _ _ d a b => d.native && a.native && b.native
  | .ffma _ _ _ _ _ d a b c => d.native && a.native && b.native && c.native
  | .fmin _ _ d a b | .fmax _ _ d a b => d.native && a.native && b.native
  | .fsetp _ _ _ _ a b => a.native && b.native
  | .frnd _ _ _ d a | .fclass _ _ d a => d.native && a.native
  | .padd _ _ _ _ _ d a b | .pmul _ _ _ _ _ d a b => d.native && a.native && b.native
  | .pfma _ _ _ _ _ _ d a b c => d.native && a.native && b.native && c.native
  | .pminmax _ _ _ _ d a b => d.native && a.native && b.native
  | .sfn _ _ _ d a => d.native && a.native
  | .cvt _ _ _ _ _ d a x => d.native && a.native && x.all Reg.native
  | .qnt _ _ _ d a _ => d.native && a.native
  | .lmul _ d a b | .ladd _ _ _ d a b => d.native && a.native && b.native
  | .shfl _ _ _ d a b m => d.native && a.native && b.native && m.native
  | .vote _ form _ m => (match form with
      | .mask d => d.native
      | _ => true) && m.native
  | .redw _ _ _ _ _ d a b m => d.native && a.native && b.native && m.native
  | .matchOp _ _ _ d a m => d.native && a.native && m.native
  | .elane _ form m => (match form with
      | .lane d => d.native
      | _ => true) && m.native
  | .pmovP2r _ d => d.native
  | .pmovR2p _ a b => a.native && b.native
  | .ld _ _ _ _ d a _ _ | .ldt _ _ _ _ _ d a _ _ | .ldl _ _ _ _ d a _ => d.native && a.native
  | .st _ _ _ a _ b | .stl _ _ _ a _ b | .stt _ _ _ _ _ a _ b => a.native && b.native
  | .atom _ _ _ _ _ _ d a _ b => d.native && a.native && b.native
  | .red _ _ _ _ _ a _ b => a.native && b.native
  | .pref _ _ a _ | .pgreq _ a _ => a.native
  | .smap _ _ a b | .sflush _ a b | .sinv _ a b | .cflush _ _ a b => a.native && b.native
  | .acpy _ a | .acpyt _ a => a.native
  | .tagld _ d a _ => d.native && a.native
  | .tagst _ a _ b => a.native && b.native
  | .bar _ _ _ _ m => m.native
  | .await _ _ _ _ _ d a b => d.native && a.native && b.native
  | .backoffReg _ a | .rpost _ _ a => a.native
  | .rtake _ _ d => d.native
  | .mmap _ _ a m | .mmal _ _ a m | .accld _ _ a m | .accst _ _ a m => a.native && m.native
  | .accz _ _ _ m => m.native
  | .brx _ a | .callx _ _ a | .fetchw _ a => a.native
  | .binpush _ _ a b => a.native && b.native
  | .bindrain _ _ b => b.native
  | .launch _ d a b => d.native && a.native && b.native
  | .rdsys _ _ _ d => d.native
  | .wrsys _ _ _ a | .setctl _ _ a => a.native
  | .rand _ d _ _ | .feat _ d => d.native
  | .watch _ _ a b | .xred _ _ _ _ _ a b _ => a.native && b.native
  | .wmov _ _ d a => d.native && a.native
  | _ => true

/-- The row is an event of the hardware, the firmware or the outside, which has no words. -/
def Instr.isEvent : Instr → Bool
  | .iadd .. | .isub .. | .imul .. | .imulh .. | .imad .. | .imin .. | .imax .. | .iabs .. | .isetp .. | .idp4 ..
  | .shl .. | .shr .. | .shf .. | .logt .. | .bfe .. | .bfi .. | .popc .. | .clz .. | .brev .. | .pswz .. | .lea ..
  | .sel .. | .mov .. | .movX .. | .moviShort .. | .moviLong .. | .fadd .. | .fmul .. | .ffma .. | .fmin ..
  | .fmax .. | .fsetp .. | .frnd .. | .fclass .. | .padd .. | .pmul .. | .pfma .. | .pminmax .. | .sfn ..
  | .cvt .. | .qnt .. | .lmul .. | .ladd .. | .shfl .. | .vote .. | .redw .. | .matchOp .. | .elane ..
  | .plop3 .. | .pmovP2r .. | .pmovR2p .. | .ld .. | .ldt .. | .ldl .. | .st .. | .stl .. | .stt .. | .atom ..
  | .red .. | .pref .. | .pgreq .. | .smap .. | .sflush .. | .sinv .. | .cflush .. | .acpy .. | .acpyt ..
  | .tagld .. | .tagst .. | .waitc .. | .fence .. | .bar .. | .barGrp .. | .await .. | .yieldOp ..
  | .backoffImm .. | .backoffReg .. | .rpost .. | .rtake .. | .mmap .. | .mmal .. | .accz .. | .accld ..
  | .accst .. | .braRel .. | .braLong .. | .brx .. | .callRel .. | .callLong .. | .callx .. | .ret .. | .exit ..
  | .skip .. | .nop .. | .trap .. | .bpt .. | .fetchw .. | .binpush .. | .bindrain .. | .launch .. | .rdsys ..
  | .wrsys .. | .setctl .. | .rand .. | .feat .. | .watch .. | .gret .. | .tret .. | .pdone .. | .xred ..
  | .wmov .. | .walu .. => false
  | _ => true

end Sys2Proof
end

