-- ==== Sys2Proof/Decode.lean ====
section
/-! DEFINITION. The instruction words: the encoding tables of the spec as an encoder, and the decoder, which reads the
operands of a word's opcode and accepts the word exactly when the instruction it stands for is well formed and has that
word (R153, R154, R158). -/

namespace Sys2Proof

/-- The fields of an instruction word (Table 7-2). -/
structure Fields where
  opc : BitVec 10
  h : Hdr
  dst : BitVec 8
  sa : BitVec 8
  sb : BitVec 8
  sc : BitVec 8
  mod : BitVec 12
  long : Bool
  deriving DecidableEq, Repr

/-- The word of a set of fields (Table 7-2). -/
def Fields.pack (f : Fields) : Dword :=
  BitVec.ofBool f.long ++ f.mod ++ f.sc ++ f.sb ++ f.sa ++ f.dst ++ BitVec.ofBool f.h.yld ++ f.h.stall ++
    BitVec.ofBool f.h.ginv ++ f.h.guard ++ f.opc

/-- The fields of a word (Table 7-2). -/
def Fields.unpack (w : Dword) : Fields where
  opc := w.extractLsb' 0 10
  h := { guard := w.extractLsb' 10 4, ginv := w.getLsbD 14, stall := w.extractLsb' 15 3, yld := w.getLsbD 18 }
  dst := w.extractLsb' 19 8
  sa := w.extractLsb' 27 8
  sb := w.extractLsb' 35 8
  sc := w.extractLsb' 43 8
  mod := w.extractLsb' 51 12
  long := w.getLsbD 63

/-- MOD of F-ALU (Table 7-3). -/
def aluMod (bi : Bool) (ty : BitVec 4) (rnd : BitVec 2) (opx : BitVec 5) : BitVec 12 := opx ++ rnd ++ ty ++ BitVec.ofBool bi

/-- MOD of F-MEM (Table 7-3). -/
def memMod (size : BitVec 3) (sgn : Bool) (scope : BitVec 3) (ord : BitVec 2) (opx : BitVec 3) : BitVec 12 :=
  opx ++ ord ++ scope ++ BitVec.ofBool sgn ++ size

/-! ## Codes -/

def IntTy.code : IntTy → BitVec 4
  | .s32 => 2 | .s64 => 3 | .n32 => 6 | .n64 => 7

def IntTy.ofCode (c : BitVec 4) : IntTy :=
  if c = 2 then .s32 else if c = 3 then .s64 else if c = 6 then .n32 else .n64

def NumTy.code : NumTy → BitVec 4
  | .s8 => 0 | .s16 => 1 | .s32 => 2 | .s64 => 3 | .n8 => 4 | .n16 => 5 | .n32 => 6 | .n64 => 7 | .f32 => 8
  | .f16 => 9 | .bf16 => 10 | .f8e4 => 11 | .f8e5 => 12 | .f4 => 13 | .l6 => 14

def NumTy.ofCode (c : BitVec 4) : NumTy :=
  if c = 0 then .s8 else if c = 1 then .s16 else if c = 2 then .s32 else if c = 3 then .s64 else if c = 4 then .n8
  else if c = 5 then .n16 else if c = 6 then .n32 else if c = 7 then .n64 else if c = 8 then .f32
  else if c = 9 then .f16 else if c = 10 then .bf16 else if c = 11 then .f8e4 else if c = 12 then .f8e5
  else if c = 13 then .f4 else .l6

def FTy.code : FTy → BitVec 4
  | .f32 => 8 | .f16 => 9 | .bf16 => 10

def FTy.ofCode (c : BitVec 4) : FTy := if c = 8 then .f32 else if c = 9 then .f16 else .bf16

/-- TYPE 6 or 7, for the ops that have only .n32 and .n64. -/
def w64Code (w64 : Bool) : BitVec 4 := if w64 then 7 else 6

/-- TYPE 2 or 3, for IABS. -/
def s64Code (w64 : Bool) : BitVec 4 := if w64 then 3 else 2

/-- TYPE 9 or 10, for the packed ops. -/
def packCode (bf : Bool) : BitVec 4 := if bf then 10 else 9

def Rnd.code : Rnd → BitVec 2
  | .rn => 0 | .rz => 1 | .rd => 2 | .ru => 3

def Rnd.ofCode (c : BitVec 2) : Rnd := if c = 0 then .rn else if c = 1 then .rz else if c = 2 then .rd else .ru

def Scope.code : Scope → BitVec 3
  | .warp => 0 | .cohort => 1 | .core => 2 | .cluster => 3 | .sect => 4 | .device => 5 | .domain => 6 | .system => 7

def Scope.ofCode (c : BitVec 3) : Scope :=
  if c = 0 then .warp else if c = 1 then .cohort else if c = 2 then .core else if c = 3 then .cluster
  else if c = 4 then .sect else if c = 5 then .device else if c = 6 then .domain else .system

def ICmp.code : ICmp → BitVec 5
  | .eq => 0 | .ne => 1 | .lt => 2 | .le => 3 | .gt => 4 | .ge => 5

def ICmp.ofCode (c : BitVec 5) : ICmp :=
  if c = 0 then .eq else if c = 1 then .ne else if c = 2 then .lt else if c = 3 then .le else if c = 4 then .gt else .ge

def FCmp.code : FCmp → BitVec 5
  | .eq => 0 | .ne => 1 | .lt => 2 | .le => 3 | .gt => 4 | .ge => 5 | .num => 6 | .nan => 7 | .equ => 8 | .neu => 9
  | .ltu => 10 | .leu => 11 | .gtu => 12 | .geu => 13

def FCmp.ofCode (c : BitVec 5) : FCmp :=
  if c = 0 then .eq else if c = 1 then .ne else if c = 2 then .lt else if c = 3 then .le else if c = 4 then .gt
  else if c = 5 then .ge else if c = 6 then .num else if c = 7 then .nan else if c = 8 then .equ
  else if c = 9 then .neu else if c = 10 then .ltu else if c = 11 then .leu else if c = 12 then .gtu else .geu

def PackEl.code : PackEl → BitVec 2
  | .both => 0 | .lo => 1 | .hi => 2

def PackEl.ofCode (c : BitVec 2) : PackEl := if c = 0 then .both else if c = 1 then .lo else .hi

def SfnFn.code : SfnFn → BitVec 5
  | .rcp => 0 | .rsq => 1 | .ex2 => 2 | .lg2 => 3 | .sin => 4 | .cos => 5 | .tanh => 6 | .sigm => 7

def SfnFn.ofCode (c : BitVec 5) : SfnFn :=
  if c = 0 then .rcp else if c = 1 then .rsq else if c = 2 then .ex2 else if c = 3 then .lg2 else if c = 4 then .sin
  else if c = 5 then .cos else if c = 6 then .tanh else .sigm

def QTy.code : QTy → BitVec 4
  | .f8e4 => 11 | .f8e5 => 12 | .f4 => 13 | .l6 => 14

def QTy.ofCode (c : BitVec 4) : QTy := if c = 11 then .f8e4 else if c = 12 then .f8e5 else if c = 13 then .f4 else .l6

def ShflMode.code : ShflMode → BitVec 5
  | .abs => 0 | .below => 1 | .above => 2 | .xor => 3

def ShflMode.ofCode (c : BitVec 5) : ShflMode :=
  if c = 0 then .abs else if c = 1 then .below else if c = 2 then .above else .xor

def RedwOp.code : RedwOp → BitVec 3
  | .add => 0 | .min => 1 | .max => 2 | .and => 3 | .or => 4 | .xor => 5 | .maxidx => 6

def RedwOp.ofCode (c : BitVec 3) : RedwOp :=
  if c = 0 then .add else if c = 1 then .min else if c = 2 then .max else if c = 3 then .and else if c = 4 then .or
  else if c = 5 then .xor else .maxidx

def RedwTy.code : RedwTy → BitVec 4
  | .s32 => 2 | .s64 => 3 | .n32 => 6 | .n64 => 7 | .f32 => 8 | .f16 => 9 | .bf16 => 10

def RedwTy.ofCode (c : BitVec 4) : RedwTy :=
  if c = 2 then .s32 else if c = 3 then .s64 else if c = 6 then .n32 else if c = 7 then .n64 else if c = 8 then .f32
  else if c = 9 then .f16 else .bf16

def MSize.code : MSize → BitVec 3
  | .b1 => 0 | .b2 => 1 | .b4 => 2 | .b8 => 3 | .b16 => 4

def MSize.ofCode (c : BitVec 3) : MSize :=
  if c = 0 then .b1 else if c = 1 then .b2 else if c = 2 then .b4 else if c = 3 then .b8 else .b16

/-- SIZE and SGN of an LDT or STT type (Table 19-7). -/
def TTy.code : TTy → BitVec 3 × Bool
  | .f32 => (2, false) | .f16 => (1, false) | .bf16 => (1, true)

def TTy.ofCode (size : BitVec 3) (sgn : Bool) : TTy := if size = 2 then .f32 else if sgn then .bf16 else .f16

/-- OPX of LDT and STT: RND and HI (Table 19-6). -/
def tOpx (rnd : Rnd) (hi : Bool) : BitVec 3 := rnd.code ++ BitVec.ofBool hi

def AtomOp.code : AtomOp → BitVec 3
  | .add => 0 | .min => 1 | .max => 2 | .and => 3 | .or => 4 | .xor => 5 | .exch => 6 | .cas => 7

def AtomOp.ofCode (c : BitVec 3) : AtomOp :=
  if c = 0 then .add else if c = 1 then .min else if c = 2 then .max else if c = 3 then .and else if c = 4 then .or
  else if c = 5 then .xor else if c = 6 then .exch else .cas

def AtomOrd.code : AtomOrd → BitVec 2
  | .plain => 0 | .acq => 1 | .acqrel => 2

def AtomOrd.ofCode (c : BitVec 2) : AtomOrd := if c = 0 then .plain else if c = 1 then .acq else .acqrel

def AwaitCmp.code : AwaitCmp → BitVec 3
  | .eq => 0 | .ne => 1 | .geu => 2 | .ltu => 3 | .ges => 4 | .lts => 5 | .any => 6 | .none => 7

def AwaitCmp.ofCode (c : BitVec 3) : AwaitCmp :=
  if c = 0 then .eq else if c = 1 then .ne else if c = 2 then .geu else if c = 3 then .ltu else if c = 4 then .ges
  else if c = 5 then .lts else if c = 6 then .any else .none

def CtrClass.code : CtrClass → BitVec 2
  | .ldc => 0 | .cpy => 1 | .mxe => 2 | .col => 3

def CtrClass.ofCode (c : BitVec 2) : CtrClass :=
  if c = 0 then .ldc else if c = 1 then .cpy else if c = 2 then .mxe else .col

def WaluOp.code : WaluOp → BitVec 4
  | .add => 0 | .sub => 1 | .and => 2 | .or => 3 | .xor => 4 | .shl => 5 | .shr => 6 | .minu => 7 | .maxu => 8

def WaluOp.ofCode (c : BitVec 4) : WaluOp :=
  if c = 0 then .add else if c = 1 then .sub else if c = 2 then .and else if c = 3 then .or else if c = 4 then .xor
  else if c = 5 then .shl else if c = 6 then .shr else if c = 7 then .minu else .maxu

def WmovDir.code : WmovDir → BitVec 2
  | .toW => 0 | .fromW => 1 | .wToW => 2 | .lo => 3

def WmovDir.ofCode (c : BitVec 2) : WmovDir :=
  if c = 0 then .toW else if c = 1 then .fromW else if c = 2 then .wToW else .lo

def XredOp.code : XredOp → BitVec 3
  | .add => 0 | .min => 1 | .max => 2 | .and => 3 | .or => 4 | .xor => 5

def XredOp.ofCode (c : BitVec 3) : XredOp :=
  if c = 0 then .add else if c = 1 then .min else if c = 2 then .max else if c = 3 then .and else if c = 4 then .or
  else .xor

def XredTy.code : XredTy → BitVec 3
  | .s32 => 0 | .n32 => 1 | .f32 => 2 | .f16 => 3 | .bf16 => 4

def XredTy.ofCode (c : BitVec 3) : XredTy :=
  if c = 0 then .s32 else if c = 1 then .n32 else if c = 2 then .f32 else if c = 3 then .f16 else .bf16

def XredMode.code : XredMode → BitVec 2
  | .tree => 0 | .slot => 1 | .quant => 2

def XredMode.ofCode (c : BitVec 2) : XredMode := if c = 0 then .tree else if c = 1 then .slot else .quant

/-! ## Operands -/

/-- The field of a register operand (Table 7-5). -/
def Reg.code : Reg → BitVec 8
  | .v n => n
  | .k n => 0xF0#8 + n.setWidth 8

/-- The register that a field names; `lit`: the field stands literally in a template, where 0xF0 to 0xF7 name k0 to
k7 (R128). -/
def Reg.ofCode (lit : Bool) (n : BitVec 8) : Reg := if lit && n.extractLsb' 3 5 = 30#5 then .k (n.extractLsb' 0 3) else .v n

/-- BI of a source B. -/
def SrcB.bi : SrcB → Bool
  | .imm _ => true
  | _ => false

/-- SB of a source B (R156, R157). -/
def SrcB.sb : SrcB → BitVec 8
  | .reg r => r.code
  | _ => 255

/-- SC of a source B, in the ops whose SC has no other use (R156). -/
def SrcB.sc : SrcB → BitVec 8
  | .imm v => v
  | _ => 0

def SrcB.isLong : SrcB → Bool
  | .long _ => true
  | _ => false

/-- WORD1 of a source B (R157). -/
def SrcB.w1 : SrcB → Dword
  | .long v => v
  | _ => 0

def SrcB.parse (lit : Bool) (bi long : Bool) (sb sc : BitVec 8) (w1 : Dword) : SrcB :=
  if bi then .imm sc else if long then .long w1 else .reg (Reg.ofCode lit sb)

def MemOff.sc : MemOff → BitVec 8
  | .short v => v
  | .long _ => 0

def MemOff.isLong : MemOff → Bool
  | .short _ => false
  | .long _ => true

def MemOff.w1 : MemOff → Dword
  | .short _ => 0
  | .long v => v.setWidth 64

def MemOff.parse (long : Bool) (sc : BitVec 8) (w1 : Dword) : MemOff := if long then .long (w1.setWidth 32) else .short sc

/-- SCOPE of an optional acquire or release (Table 19-6). -/
def scopeCode : Option Scope → BitVec 3
  | none => 0
  | some s => s.code

/-- ORD of an optional acquire or release (Table 19-6). -/
def ordCode : Option Scope → BitVec 2
  | none => 0
  | some _ => 1

def ordParse (ord : BitVec 2) (scope : BitVec 3) : Option Scope := if ord = 0 then none else some (Scope.ofCode scope)

/-! ## The encoder -/

/-- F-ALU fields with a source B and SC for it. -/
def encAlu (opc : BitVec 10) (h : Hdr) (dst sa : BitVec 8) (b : SrcB) (ty : BitVec 4) (rnd : BitVec 2) (opx : BitVec 5) :
    Option (Fields × Dword) :=
  some (⟨opc, h, dst, sa, b.sb, b.sc, aluMod b.bi ty rnd opx, b.isLong⟩, b.w1)

/-- F-ALU fields with a source B and an SC of their own. -/
def encAluC (opc : BitVec 10) (h : Hdr) (dst sa : BitVec 8) (b : SrcB) (sc : BitVec 8) (ty : BitVec 4) (rnd : BitVec 2)
    (opx : BitVec 5) : Option (Fields × Dword) :=
  some (⟨opc, h, dst, sa, b.sb, sc, aluMod b.bi ty rnd opx, b.isLong⟩, b.w1)

/-- F-ALU fields without a source B. -/
def encAluN (opc : BitVec 10) (h : Hdr) (dst sa sb sc : BitVec 8) (ty : BitVec 4) (rnd : BitVec 2) (opx : BitVec 5) :
    Option (Fields × Dword) :=
  some (⟨opc, h, dst, sa, sb, sc, aluMod false ty rnd opx, false⟩, 0)

/-- F-MEM fields with an offset. -/
def encMem (opc : BitVec 10) (h : Hdr) (dst sa sb : BitVec 8) (off : MemOff) (mod : BitVec 12) : Option (Fields × Dword) :=
  some (⟨opc, h, dst, sa, sb, off.sc, mod, off.isLong⟩, off.w1)

/-- Fields of the formats without a long form. -/
def encPlain (opc : BitVec 10) (h : Hdr) (dst sa sb sc : BitVec 8) (mod : BitVec 12) : Option (Fields × Dword) :=
  some (⟨opc, h, dst, sa, sb, sc, mod, false⟩, 0)

/-- Fields and WORD1 of an instruction; none for an event. -/
def encodeFields : Instr → Option (Fields × Dword)
  | .iadd h ty sat d a b => encAlu 0x001 h d.code a.code b ty.code 0 (0#4 ++ BitVec.ofBool sat)
  | .isub h ty sat d a b => encAlu 0x002 h d.code a.code b ty.code 0 (0#4 ++ BitVec.ofBool sat)
  | .imul h ty sat d a b => encAlu 0x003 h d.code a.code b ty.code 0 (0#4 ++ BitVec.ofBool sat)
  | .imulh h ty d a b => encAlu 0x004 h d.code a.code b ty.code 0 0
  | .imad h ty wide sat d a b c =>
      encAluC 0x005 h d.code a.code b c.code ty.code 0 (0#3 ++ BitVec.ofBool wide ++ BitVec.ofBool sat)
  | .imin h ty d a b => encAlu 0x006 h d.code a.code b ty.code 0 0
  | .imax h ty d a b => encAlu 0x007 h d.code a.code b ty.code 0 0
  | .iabs h w64 sat d a => encAluN 0x008 h d.code a.code 255 0 (s64Code w64) 0 (0#4 ++ BitVec.ofBool sat)
  | .isetp h ty cmp d a b => encAlu 0x009 h d a.code b ty.code 0 cmp.code
  | .idp4 h asg bsg sat d a b c =>
      encAluN 0x00A h d.code a.code b.code c.code 2 0
        (0#2 ++ BitVec.ofBool sat ++ BitVec.ofBool bsg ++ BitVec.ofBool asg)
  | .shl h ty d a b => encAlu 0x00B h d.code a.code b ty.code 0 0
  | .shr h ty d a b => encAlu 0x00C h d.code a.code b ty.code 0 0
  | .shf h w64 right d a b c =>
      encAluC 0x00D h d.code a.code b c.code (w64Code w64) 0 (0#4 ++ BitVec.ofBool right)
  | .logt h w64 d a b lut => encAluC 0x00E h d.code a.code b lut (w64Code w64) 0 0
  | .bfe h ty d a b => encAlu 0x00F h d.code a.code b ty.code 0 0
  | .bfi h w64 d a b c => encAluC 0x010 h d.code a.code b c.code (w64Code w64) 0 0
  | .popc h w64 d a => encAluN 0x011 h d.code a.code 255 0 (w64Code w64) 0 0
  | .clz h w64 d a => encAluN 0x012 h d.code a.code 255 0 (w64Code w64) 0 0
  | .brev h w64 d a => encAluN 0x013 h d.code a.code 255 0 (w64Code w64) 0 0
  | .pswz h d a b c => encAluC 0x014 h d.code a.code b c.code 6 0 0
  | .lea h ty d a b sh => encAluC 0x015 h d.code a.code b (0#2 ++ sh) ty.code 0 0
  | .sel h w64 d a b pc => encAluC 0x016 h d.code a.code b pc (w64Code w64) 0 0
  | .mov h w64 d a => encAluN 0x017 h d.code a.code 255 0 (w64Code w64) 0 0
  | .movX h d n => encAluN 0x017 h d.code n 255 0 6 0 1
  | .moviShort h ty d v => encAlu 0x018 h d.code 255 (.imm v) ty.code 0 0
  | .moviLong h ty d v => encAlu 0x018 h d.code 255 (.long v) ty.code 0 0
  | .fadd h ty rnd nb d a b => encAlu 0x040 h d.code a.code b ty.code rnd.code (0#4 ++ BitVec.ofBool nb)
  | .fmul h ty rnd nb d a b => encAlu 0x041 h d.code a.code b ty.code rnd.code (0#4 ++ BitVec.ofBool nb)
  | .ffma h ty rnd nb nc d a b c =>
      encAluC 0x042 h d.code a.code b c.code ty.code rnd.code (0#3 ++ BitVec.ofBool nc ++ BitVec.ofBool nb)
  | .fmin h ty d a b => encAlu 0x043 h d.code a.code b ty.code 0 0
  | .fmax h ty d a b => encAlu 0x044 h d.code a.code b ty.code 0 0
  | .fsetp h ty cmp d a b => encAlu 0x045 h d a.code b ty.code 0 cmp.code
  | .frnd h ty rnd d a => encAluN 0x046 h d.code a.code 255 0 ty.code rnd.code 0
  | .fclass h ty d a => encAluN 0x047 h d.code a.code 255 0 ty.code 0 0
  | .padd h bf rnd nb el d a b =>
      encAlu 0x050 h d.code a.code b (packCode bf) rnd.code (0#1 ++ el.code ++ 0#1 ++ BitVec.ofBool nb)
  | .pmul h bf rnd nb el d a b =>
      encAlu 0x051 h d.code a.code b (packCode bf) rnd.code (0#1 ++ el.code ++ 0#1 ++ BitVec.ofBool nb)
  | .pfma h bf rnd nb nc el d a b c =>
      encAluC 0x052 h d.code a.code b c.code (packCode bf) rnd.code
        (0#1 ++ el.code ++ BitVec.ofBool nc ++ BitVec.ofBool nb)
  | .pminmax h bf isMax el d a b =>
      encAlu 0x053 h d.code a.code b (packCode bf) 0 (0#1 ++ el.code ++ 0#1 ++ BitVec.ofBool isMax)
  | .sfn h fn ty d a => encAluN 0x058 h d.code a.code 255 0 ty.code 0 fn.code
  | .cvt h dty sty rnd sat d a x =>
      encAluN 0x060 h d.code a.code 255 (match x with | none => 0 | some r => r.code) dty.code rnd.code
        (BitVec.ofBool sat ++ sty.code)
  | .qnt h ty rnd d a texp => encAluN 0x061 h d.code a.code 255 texp ty.code rnd.code 0
  | .lmul h d a b => encAluN 0x062 h d.code a.code b.code 0 14 0 0
  | .ladd h rnd nb d a b => encAluN 0x063 h d.code a.code b.code 0 14 rnd.code (0#4 ++ BitVec.ofBool nb)
  | .shfl h mode w64 d a b m => encAluN 0x080 h d.code a.code b.code m.code (w64Code w64) 0 mode.code
  | .vote h (.all p) a m => encAluN 0x081 h p a 255 m.code 0 0 0
  | .vote h (.any p) a m => encAluN 0x081 h p a 255 m.code 0 0 1
  | .vote h (.same p) a m => encAluN 0x081 h p a 255 m.code 0 0 2
  | .vote h (.mask d) a m => encAluN 0x081 h d.code a 255 m.code 0 0 3
  | .redw h ty op sat rnd d a b m =>
      encAluN 0x082 h d.code a.code b.code m.code ty.code rnd.code (0#1 ++ BitVec.ofBool sat ++ op.code)
  | .matchOp h w64 same d a m => encAluN 0x083 h d.code a.code 255 m.code (w64Code w64) 0 (0#4 ++ BitVec.ofBool same)
  | .elane h (.pred p) m => encAluN 0x084 h p 255 255 m.code 0 0 0
  | .elane h (.lane d) m => encAluN 0x084 h d.code 255 255 m.code 0 0 1
  | .plop3 h d a b c lut => encAluN 0x090 h d a b lut 0 0 c
  | .pmovP2r h d => encAluN 0x091 h d.code 255 255 0 6 0 0
  | .pmovR2p h a b => encAluN 0x091 h 255 a.code b.code 0 6 0 1
  | .ld h sz sgn acq d a off resid =>
      encMem 0x0C0 h d.code a.code resid off (memMod sz.code sgn (scopeCode acq) (ordCode acq) 0)
  | .st h sz rel a off b => encMem 0x0C1 h 255 a.code b.code off (memMod sz.code false (scopeCode rel) (ordCode rel) 0)
  | .ldt h ty rnd hi acq d a off resid =>
      encMem 0x0C2 h d.code a.code resid off
        (memMod ty.code.1 ty.code.2 (scopeCode acq) (ordCode acq) (tOpx rnd hi))
  | .stt h ty rnd hi rel a off b =>
      encMem 0x0C3 h 255 a.code b.code off (memMod ty.code.1 ty.code.2 (scopeCode rel) (ordCode rel) (tOpx rnd hi))
  | .ldl h sz sgn acq d a off =>
      encMem 0x0C4 h d.code a.code 255 off (memMod sz.code sgn (scopeCode acq) (ordCode acq) 0)
  | .stl h sz rel a off b => encMem 0x0C5 h 255 a.code b.code off (memMod sz.code false (scopeCode rel) (ordCode rel) 0)
  | .atom h w64 sgn op ord scope d a off b =>
      encMem 0x0C6 h d.code a.code b.code off (memMod (if w64 then 3 else 2) sgn scope.code ord.code op.code)
  | .red h w64 sgn op rel a off b =>
      encMem 0x0C7 h 255 a.code b.code off (memMod (if w64 then 3 else 2) sgn (scopeCode rel) (ordCode rel) op.code)
  | .pref h l1 a off => encMem 0x0C8 h 255 a.code 255 off (memMod 0 false 0 0 (0#2 ++ BitVec.ofBool l1))
  | .pgreq h a off => encPlain 0x0C9 h 255 a.code 255 off 0
  | .smap h m a b => encPlain 0x0CA h 255 a.code b.code (0#5 ++ m) 0
  | .sflush h a b => encPlain 0x0CB h 255 a.code b.code 0 0
  | .sinv h a b => encPlain 0x0CC h 255 a.code b.code 0 0
  | .cflush h scope a b => encPlain 0x0CD h 255 a.code b.code 0 (memMod 0 false scope.code 0 0)
  | .acpy h a => encPlain 0x0CE h 255 a.code 255 0 0
  | .acpyt h a => encPlain 0x0CF h 255 a.code 255 0 0
  | .tagld h d a off => encMem 0x0D0 h d.code a.code 255 off 0
  | .tagst h a off b => encMem 0x0D1 h 255 a.code b.code off 0
  | .waitc h cls n => encPlain 0x100 h 255 255 255 (0#3 ++ n) (0#10 ++ cls.code)
  | .fence h scope => encPlain 0x101 h 255 255 255 0 (0#9 ++ scope.code)
  | .bar h scope arv b m => encPlain 0x102 h 255 255 m.code b (0#7 ++ scope.code ++ BitVec.ofBool arv ++ 0#1)
  | .barGrp h scope arv g => encPlain 0x102 h 255 255 255 g (0#7 ++ scope.code ++ BitVec.ofBool arv ++ 1#1)
  | .await h loc w64 cmp scope d a b =>
      encPlain 0x103 h d.code a.code b.code 0
        (0#4 ++ scope.code ++ cmp.code ++ BitVec.ofBool w64 ++ BitVec.ofBool loc)
  | .yieldOp h => encPlain 0x104 h 255 255 255 0 0
  | .backoffImm h n => encPlain 0x105 h 255 255 255 0 n
  | .backoffReg h a => encPlain 0x105 h 255 a.code 255 0 0
  | .rpost h ring a => encPlain 0x106 h 255 a.code 255 (0#5 ++ ring) 0
  | .rtake h ring d => encPlain 0x107 h d.code 255 255 (0#5 ++ ring) 0
  | .mmap h d a m => encPlain 0x140 h d a.code 255 m.code 0
  | .mmal h d a m => encPlain 0x141 h d a.code 255 m.code 0
  | .accz h n d m => encPlain 0x142 h d 255 255 m.code (0#6 ++ n)
  | .accld h d a m => encPlain 0x143 h d a.code 255 m.code 0
  | .accst h d a m => encPlain 0x144 h d a.code 255 m.code 0
  | .braRel h off => encPlain 0x180 h 255 (off.extractLsb' 0 8) (off.extractLsb' 8 8) (off.extractLsb' 16 8) 0
  | .braLong h t => some (⟨0x180, h, 255, 0, 0, 0, 0, true⟩, t.setWidth 64)
  | .brx h a => encPlain 0x181 h 255 a.code 0 0 0
  | .callRel h off => encPlain 0x182 h 255 (off.extractLsb' 0 8) (off.extractLsb' 8 8) (off.extractLsb' 16 8) 0
  | .callLong h t => some (⟨0x182, h, 255, 0, 0, 0, 0, true⟩, t.setWidth 64)
  | .callx h cls a => encPlain 0x183 h 255 a.code 0 0 (0#4 ++ cls)
  | .ret h => encPlain 0x184 h 255 0 0 0 0
  | .exit h => encPlain 0x185 h 255 0 0 0 0
  | .skip h n => encPlain 0x186 h 255 0 0 0 (0#9 ++ n)
  | .nop h => encPlain 0x187 h 255 0 0 0 0
  | .trap h n => encPlain 0x188 h 255 0 0 0 (0#4 ++ n)
  | .bpt h => encPlain 0x189 h 255 0 0 0 0
  | .fetchw h a => encPlain 0x1C0 h 255 a.code 255 0 0
  | .binpush h sz a b => encPlain 0x1C1 h 255 a.code b.code 0 (0#8 ++ sz)
  | .bindrain h close b => encPlain 0x1C2 h 255 255 b.code 0 (0#11 ++ BitVec.ofBool close)
  | .launch h d a b => encPlain 0x1C3 h d.code a.code b.code 0 0
  | .rdsys h lo srn d => encPlain 0x200 h d.code 255 255 (srn.extractLsb' 0 8) (0#7 ++ BitVec.ofBool lo ++ srn.extractLsb' 8 4)
  | .wrsys h lo srn a => encPlain 0x201 h 255 a.code 255 (srn.extractLsb' 0 8) (0#7 ++ BitVec.ofBool lo ++ srn.extractLsb' 8 4)
  | .setctl h ring a => encPlain 0x202 h 255 a.code 255 (0#5 ++ ring) 0
  | .rand h d k stream => encPlain 0x203 h d.code k 255 stream 0
  | .feat h d => encPlain 0x204 h d.code 255 255 0 0
  | .watch h n a b => encPlain 0x205 h 255 a.code b.code n 0
  | .gret h => encPlain 0x206 h 255 255 255 0 0
  | .tret h => encPlain 0x207 h 255 255 255 0 0
  | .pdone h => encPlain 0x208 h 255 255 255 0 0
  | .xred h ty op mode scope a b g =>
      encPlain 0x209 h 255 a.code b.code g (0#1 ++ mode.code ++ ty.code ++ op.code ++ scope.code)
  | .wmov h dir d a => encPlain 0x20A h d.code a.code 255 0 (0#10 ++ dir.code)
  | .walu h op d a (.reg b) => encPlain 0x20B h d a b 0 (0#8 ++ op.code)
  | .walu h op d a (.imm b) => encPlain 0x20B h d a 255 b (0#7 ++ 1#1 ++ op.code)
  | _ => none

/-- The words of an instruction: WORD0, and WORD1 of a long form (R157); no words for an event. -/
def encode (i : Instr) : List Dword :=
  match encodeFields i with
  | none => []
  | some (f, w1) => if f.long then [f.pack, w1] else [f.pack]

/-! ## The decoder -/

/-- Which operand fields stand literally in a template (R128); none in native code and in personality 1. -/
structure Lit where
  dst : Bool := false
  sa : Bool := false
  sb : Bool := false
  sc : Bool := false
  deriving DecidableEq, Repr

/-- Reads the operands of an F-ALU word. -/
def parseAlu (l : Lit) (f : Fields) (w1 : Dword) : Option Instr :=
  let h := f.h
  let bi := f.mod.getLsbD 0
  let tc := f.mod.extractLsb' 1 4
  let rnd := Rnd.ofCode (f.mod.extractLsb' 5 2)
  let opx := f.mod.extractLsb' 7 5
  let it := IntTy.ofCode tc
  let ft := FTy.ofCode tc
  let w64 := tc = 7
  let bf := tc = 10
  let x0 := opx.getLsbD 0
  let x1 := opx.getLsbD 1
  let el := PackEl.ofCode (opx.extractLsb' 2 2)
  let d := Reg.ofCode l.dst f.dst
  let a := Reg.ofCode l.sa f.sa
  let rb := Reg.ofCode l.sb f.sb
  let c := Reg.ofCode l.sc f.sc
  let b := SrcB.parse l.sb bi f.long f.sb f.sc w1
  match f.opc.toNat with
  | 0x001 => some (.iadd h it x0 d a b)
  | 0x002 => some (.isub h it x0 d a b)
  | 0x003 => some (.imul h it x0 d a b)
  | 0x004 => some (.imulh h it d a b)
  | 0x005 => some (.imad h it x1 x0 d a b c)
  | 0x006 => some (.imin h it d a b)
  | 0x007 => some (.imax h it d a b)
  | 0x008 => some (.iabs h (tc = 3) x0 d a)
  | 0x009 => some (.isetp h it (ICmp.ofCode opx) f.dst a b)
  | 0x00A => some (.idp4 h x0 x1 (opx.getLsbD 2) d a rb c)
  | 0x00B => some (.shl h it d a b)
  | 0x00C => some (.shr h it d a b)
  | 0x00D => some (.shf h w64 x0 d a b c)
  | 0x00E => some (.logt h w64 d a b f.sc)
  | 0x00F => some (.bfe h it d a b)
  | 0x010 => some (.bfi h w64 d a b c)
  | 0x011 => some (.popc h w64 d a)
  | 0x012 => some (.clz h w64 d a)
  | 0x013 => some (.brev h w64 d a)
  | 0x014 => some (.pswz h d a b c)
  | 0x015 => some (.lea h it d a b (f.sc.extractLsb' 0 6))
  | 0x016 => some (.sel h w64 d a b f.sc)
  | 0x017 => some (if x0 then .movX h d f.sa else .mov h w64 d a)
  | 0x018 => some (if bi then .moviShort h it d f.sc else .moviLong h it d w1)
  | 0x040 => some (.fadd h ft rnd x0 d a b)
  | 0x041 => some (.fmul h ft rnd x0 d a b)
  | 0x042 => some (.ffma h ft rnd x0 x1 d a b c)
  | 0x043 => some (.fmin h ft d a b)
  | 0x044 => some (.fmax h ft d a b)
  | 0x045 => some (.fsetp h ft (FCmp.ofCode opx) f.dst a b)
  | 0x046 => some (.frnd h ft rnd d a)
  | 0x047 => some (.fclass h (NumTy.ofCode tc) d a)
  | 0x050 => some (.padd h bf rnd x0 el d a b)
  | 0x051 => some (.pmul h bf rnd x0 el d a b)
  | 0x052 => some (.pfma h bf rnd x0 x1 el d a b c)
  | 0x053 => some (.pminmax h bf x0 el d a b)
  | 0x058 => some (.sfn h (SfnFn.ofCode opx) ft d a)
  | 0x060 =>
      let dty := NumTy.ofCode tc
      let sty := NumTy.ofCode (opx.extractLsb' 0 4)
      some (.cvt h dty sty rnd (opx.getLsbD 4) d a (if dty = .f4 ∨ sty = .f4 then some c else none))
  | 0x061 => some (.qnt h (QTy.ofCode tc) rnd d a f.sc)
  | 0x062 => some (.lmul h d a rb)
  | 0x063 => some (.ladd h rnd x0 d a rb)
  | 0x080 => some (.shfl h (ShflMode.ofCode opx) w64 d a rb c)
  | 0x081 =>
      let form := if opx = 0 then VoteForm.all f.dst else if opx = 1 then .any f.dst
        else if opx = 2 then .same f.dst else .mask d
      some (.vote h form f.sa c)
  | 0x082 =>
      some (.redw h (RedwTy.ofCode tc) (RedwOp.ofCode (opx.extractLsb' 0 3)) (opx.getLsbD 3) rnd d a rb c)
  | 0x083 => some (.matchOp h w64 x0 d a c)
  | 0x084 => some (.elane h (if x0 then .lane d else .pred f.dst) c)
  | 0x090 => some (.plop3 h f.dst f.sa f.sb opx f.sc)
  | 0x091 => some (if x0 then .pmovR2p h a rb else .pmovP2r h d)
  | _ => none

/-- Reads the operands of an F-MEM word. -/
def parseMem (l : Lit) (f : Fields) (w1 : Dword) : Option Instr :=
  let h := f.h
  let size := f.mod.extractLsb' 0 3
  let sgn := f.mod.getLsbD 3
  let sc := f.mod.extractLsb' 4 3
  let ord := f.mod.extractLsb' 7 2
  let opx := f.mod.extractLsb' 9 3
  let os := ordParse ord sc
  let sz := MSize.ofCode size
  let tt := TTy.ofCode size sgn
  let rnd := Rnd.ofCode (opx.extractLsb' 1 2)
  let hi := opx.getLsbD 0
  let d := Reg.ofCode l.dst f.dst
  let a := Reg.ofCode l.sa f.sa
  let b := Reg.ofCode l.sb f.sb
  let off := MemOff.parse f.long f.sc w1
  match f.opc.toNat with
  | 0x0C0 => some (.ld h sz sgn os d a off f.sb)
  | 0x0C1 => some (.st h sz os a off b)
  | 0x0C2 => some (.ldt h tt rnd hi os d a off f.sb)
  | 0x0C3 => some (.stt h tt rnd hi os a off b)
  | 0x0C4 => some (.ldl h sz sgn os d a off)
  | 0x0C5 => some (.stl h sz os a off b)
  | 0x0C6 => some (.atom h (size = 3) sgn (AtomOp.ofCode opx) (AtomOrd.ofCode ord) (Scope.ofCode sc) d a off b)
  | 0x0C7 => some (.red h (size = 3) sgn (AtomOp.ofCode opx) os a off b)
  | 0x0C8 => some (.pref h hi a off)
  | 0x0C9 => some (.pgreq h a f.sc)
  | 0x0CA => some (.smap h (f.sc.extractLsb' 0 3) a b)
  | 0x0CB => some (.sflush h a b)
  | 0x0CC => some (.sinv h a b)
  | 0x0CD => some (.cflush h (Scope.ofCode sc) a b)
  | 0x0CE => some (.acpy h a)
  | 0x0CF => some (.acpyt h a)
  | 0x0D0 => some (.tagld h d a off)
  | 0x0D1 => some (.tagst h a off b)
  | _ => none

/-- Reads the operands of the other formats. -/
def parseCtl (l : Lit) (f : Fields) (w1 : Dword) : Option Instr :=
  let h := f.h
  let m := f.mod
  let d := Reg.ofCode l.dst f.dst
  let a := Reg.ofCode l.sa f.sa
  let b := Reg.ofCode l.sb f.sb
  let c := Reg.ofCode l.sc f.sc
  let off : BitVec 24 := f.sc ++ f.sb ++ f.sa
  let ring := f.sc.extractLsb' 0 3
  let srn : BitVec 12 := m.extractLsb' 0 4 ++ f.sc
  let t : VAddr := w1.setWidth 57
  match f.opc.toNat with
  | 0x100 => some (.waitc h (CtrClass.ofCode (m.extractLsb' 0 2)) (f.sc.extractLsb' 0 5))
  | 0x101 => some (.fence h (Scope.ofCode (m.extractLsb' 0 3)))
  | 0x102 =>
      let scope := Scope.ofCode (m.extractLsb' 2 3)
      some (if m.getLsbD 0 then .barGrp h scope (m.getLsbD 1) f.sc else .bar h scope (m.getLsbD 1) f.sc b)
  | 0x103 =>
      some (.await h (m.getLsbD 0) (m.getLsbD 1) (AwaitCmp.ofCode (m.extractLsb' 2 3)) (Scope.ofCode (m.extractLsb' 5 3))
        d a b)
  | 0x104 => some (.yieldOp h)
  | 0x105 => some (if f.sa = 255 then .backoffImm h m else .backoffReg h a)
  | 0x106 => some (.rpost h ring a)
  | 0x107 => some (.rtake h ring d)
  | 0x140 => some (.mmap h f.dst a c)
  | 0x141 => some (.mmal h f.dst a c)
  | 0x142 => some (.accz h (m.extractLsb' 0 6) f.dst c)
  | 0x143 => some (.accld h f.dst a c)
  | 0x144 => some (.accst h f.dst a c)
  | 0x180 => some (if f.long then .braLong h t else .braRel h off)
  | 0x181 => some (.brx h a)
  | 0x182 => some (if f.long then .callLong h t else .callRel h off)
  | 0x183 => some (.callx h (m.extractLsb' 0 8) a)
  | 0x184 => some (.ret h)
  | 0x185 => some (.exit h)
  | 0x186 => some (.skip h (m.extractLsb' 0 3))
  | 0x187 => some (.nop h)
  | 0x188 => some (.trap h (m.extractLsb' 0 8))
  | 0x189 => some (.bpt h)
  | 0x1C0 => some (.fetchw h a)
  | 0x1C1 => some (.binpush h (m.extractLsb' 0 4) a b)
  | 0x1C2 => some (.bindrain h (m.getLsbD 0) b)
  | 0x1C3 => some (.launch h d a b)
  | 0x200 => some (.rdsys h (m.getLsbD 4) srn d)
  | 0x201 => some (.wrsys h (m.getLsbD 4) srn a)
  | 0x202 => some (.setctl h ring a)
  | 0x203 => some (.rand h d f.sa f.sc)
  | 0x204 => some (.feat h d)
  | 0x205 => some (.watch h f.sc a b)
  | 0x206 => some (.gret h)
  | 0x207 => some (.tret h)
  | 0x208 => some (.pdone h)
  | 0x209 =>
      some (.xred h (XredTy.ofCode (m.extractLsb' 6 3)) (XredOp.ofCode (m.extractLsb' 3 3))
        (XredMode.ofCode (m.extractLsb' 9 2)) (Scope.ofCode (m.extractLsb' 0 3)) a b f.sc)
  | 0x20A => some (.wmov h (WmovDir.ofCode (m.extractLsb' 0 2)) d a)
  | 0x20B =>
      some (.walu h (WaluOp.ofCode (m.extractLsb' 0 4)) f.dst f.sa (if m.getLsbD 4 then .imm f.sc else .reg f.sb))
  | _ => none

/-- Reads the operands of a word, by the group of its opcode (Table 7-6). -/
def parse (l : Lit) (f : Fields) (w1 : Dword) : Option Instr :=
  if f.opc < 0x0C0#10 then parseAlu l f w1
  else if f.opc < 0x100#10 then parseMem l f w1
  else parseCtl l f w1

/-- The instruction of a word and the word after it; none where check 4 of Table 7-7 fails for any reason but an absent
feature. -/
def decode (l : Lit) (w0 w1 : Dword) : Option Instr :=
  match parse l (Fields.unpack w0) w1 with
  | none => none
  | some i =>
    if i.wellFormed && (match encodeFields i with
        | none => false
        | some (f, x1) => f.pack == w0 && (!f.long || x1 == w1)) then some i
    else none

/-- The instruction is a long form (R157). -/
def Instr.isLong (i : Instr) : Bool :=
  match encodeFields i with
  | some (f, _) => f.long
  | none => false

/-- The instruction of table bits: the low 64 bits are the first word, the next 64 the second; bits above `nbits` are 0. -/
def decodeTableWord (nbits w : Nat) : Option Instr :=
  decode {} (BitVec.ofNat 64 (w % 2 ^ nbits)) (BitVec.ofNat 64 (w % 2 ^ nbits / 2 ^ 64))

end Sys2Proof
end

