-- ==== Sys2Proof/Machine/Aes.lean ====
section
/-! DEFINITION. AES-256 in XTS mode, by which code text is encrypted (R323): the published standards' inverse cipher and
mode, over bytes as numbers below 256 (PRESUMED, log entry 6). -/

namespace Sys2Proof.Machine

/-! ## The field of 256 elements -/

/-- Multiplication by x. -/
def gfDouble (a : Nat) : Nat := if a < 128 then 2 * a else Nat.xor (2 * a) 0x11B

/-- Multiplication. -/
def gfMul (a b : Nat) : Nat :=
  ((List.range 8).foldl (fun (r : Nat × Nat) k => (if b / 2 ^ k % 2 = 1 then Nat.xor r.1 r.2 else r.1, gfDouble r.2)) (0, a)).1

/-- The inverse, and 0 of 0: the power 254. -/
def gfInv (a : Nat) : Nat :=
  ((List.range 7).foldl (fun (r : Nat × Nat) _ => let q := gfMul r.2 r.2; (gfMul r.1 q, q)) (1, a)).1

/-- A byte rotated left. -/
def rotByte (a n : Nat) : Nat := a * 2 ^ n % 256 + a / 2 ^ (8 - n)

/-- The substitution of a byte, and its inverse. -/
def subByte (a : Nat) : Nat :=
  let b := gfInv a
  [1, 2, 3, 4].foldl (fun x n => Nat.xor x (rotByte b n)) (Nat.xor b 0x63)

def unsubByte (a : Nat) : Nat := gfInv (Nat.xor (Nat.xor (rotByte a 1) (rotByte a 3)) (Nat.xor (rotByte a 6) 5))

/-! ## Blocks of 16 bytes, column by column -/

/-- Bytes of two blocks, added. -/
def xorBytes (a b : List Nat) : List Nat := (a.zip b).map fun x => Nat.xor x.1 x.2

/-- Row r of the columns is rotated by r places, to the left or, where `back`, to the right. -/
def shiftRows (back : Bool) (b : List Nat) : List Nat :=
  (List.range 16).map fun i => b.getD ((i + 4 * (if back then 16 - i % 4 else i % 4)) % 16) 0

/-- Every column times the polynomial whose coefficients, the lowest first, are given. -/
def mixColumns (p b : List Nat) : List Nat :=
  (List.range 16).map fun i =>
    ((List.range 4).map fun k => gfMul (p.getD ((i % 4 + 4 - k) % 4) 0) (b.getD (i / 4 * 4 + k) 0)).foldl Nat.xor 0

/-- The next word of the key schedule. -/
def nextKeyWord (ws : List (List Nat)) : List Nat :=
  let i := ws.length
  let last := ws.getLastD []
  let t :=
    if i % 8 = 0 then xorBytes ((last.rotateLeft 1).map subByte) [2 ^ (i / 8 - 1), 0, 0, 0]
    else if i % 8 = 4 then last.map subByte
    else last
  xorBytes (ws.getD (i - 8) []) t

/-- The 15 round keys of a 32-byte key. -/
def roundKeys (key : List Nat) : List (List Nat) :=
  let ws := (List.range 52).foldl (fun ws _ => ws ++ [nextKeyWord ws])
    ((List.range 8).map fun i => (key.drop (4 * i)).take 4)
  (List.range 15).map fun r => ((ws.drop (4 * r)).take 4).flatMap id

/-- Encrypts one block under round keys. -/
def aesEncrypt (ks : List (List Nat)) (b : List Nat) : List Nat :=
  let k := fun r => ks.getD r []
  let b := ((List.range 13).map (· + 1)).foldl (fun b r =>
    xorBytes (mixColumns [2, 1, 1, 3] (shiftRows false (b.map subByte))) (k r)) (xorBytes b (k 0))
  xorBytes (shiftRows false (b.map subByte)) (k 14)

/-- Decrypts one block under round keys. -/
def aesDecrypt (ks : List (List Nat)) (b : List Nat) : List Nat :=
  let k := fun r => ks.getD r []
  let b := ((List.range 13).map (13 - ·)).foldl (fun b r =>
    mixColumns [14, 9, 13, 11] (xorBytes ((shiftRows true b).map unsubByte) (k r))) (xorBytes b (k 14))
  xorBytes ((shiftRows true b).map unsubByte) (k 0)

/-! ## XTS -/

/-- The tweak of the next block. -/
def nextTweak (t : Nat) : Nat := if t < 2 ^ 127 then 2 * t else Nat.xor (2 * t % 2 ^ 128) 0x87

/-- The bytes of a number as a block. -/
def blockOf (n : Nat) : List Nat := (leBytes 16 n).map BitVec.toNat

/-- Decrypts n blocks, the first under tweak t. -/
def xtsBlocks (ks : List (List Nat)) (t : Nat) (data : List Byte) (n : Nat) : List Byte :=
  match n with
  | 0 => []
  | n + 1 =>
    let c := xorBytes ((data.take 16).map BitVec.toNat) (blockOf t)
    (xorBytes (aesDecrypt ks c) (blockOf t)).map (BitVec.ofNat 8) ++ xtsBlocks ks (nextTweak t) (data.drop 16) n

/-- Decrypts a data unit of whole blocks by its number, under a 64-byte key. -/
def xtsDecrypt (key : List Nat) (unit : Nat) (data : List Byte) : List Byte :=
  let t := aesEncrypt (roundKeys (key.drop 32)) (blockOf unit)
  xtsBlocks (roundKeys (key.take 32)) (leNat (t.map (BitVec.ofNat 8))) data (data.length / 16)

end Sys2Proof.Machine
end

