-- ==== Sys2Proof/Machine/Base.lean ====
section
/-! DEFINITION. Named operations over State: free choices, objects, registers and predicates of a thread, program
counters, and physical memory with the recall of stash lines. -/

namespace Sys2Proof.Machine

/-- Computations of one step that can end in a fault. -/
abbrev M := EStateM FaultInfo State

/-! ## Free choices -/

/-- A free choice among n outcomes, numbered from 0; no choice is drawn where there is only one. -/
def State.pick (s : State) (n : Nat) : Nat × State :=
  if n ≤ 1 then (0, s) else (Config.freeNat s.free % n, { s with free := s.free + 1 })

/-- A free number. -/
def State.draw (s : State) : Nat × State := (Config.freeNat s.free, { s with free := s.free + 1 })

/-- A free choice, in a computation. -/
def pickM (n : Nat) : M Nat := fun s => let (x, s') := s.pick n; .ok x s'

/-- A free number, in a computation. -/
def drawM : M Nat := fun s => let (x, s') := s.draw; .ok x s'

/-- A free choice of an element of a list. -/
def pickOf {α : Type} (l : List α) (d : α) : M α := do
  let i ← pickM l.length
  pure (l.getD i d)

/-! ## Partitions and cores -/

/-- Partition of a section, by the applied configuration (Table 16-6). -/
def State.pidOf (s : State) (sec : Nat) : Nat := bitsOf s.hub.pidNow.toNat (2 * sec + 1) (2 * sec)

/-- Sections of a partition, ascending. -/
def State.sectionsOf (s : State) (pid : Nat) : List Nat := [0, 1, 2, 3].filter fun n => s.pidOf n == pid

/-- Bytes of HBM of a partition (Table 1-6). -/
def State.partBytes (s : State) (pid : Nat) : Nat := (s.sectionsOf pid).length * Config.sectionBytes

/-- Section of a core (R14). -/
def secOfCore (core : Nat) : Nat := core / 64

/-- Cluster of a core, numbered over the module (R14). -/
def clusterOf (core : Nat) : Nat := core / 4

/-- Partition of a core. -/
def State.pidOfCore (s : State) (core : Nat) : Nat := s.pidOf (secOfCore core)

/-- Cores of a partition, ascending by global core index. -/
def State.coresOf (s : State) (pid : Nat) : List Nat := (List.range 256).filter fun c => s.pidOfCore c == pid

/-! ## Objects -/

def State.setThread (s : State) (tid : Nat) (t : Thread) : State := { s with threads := aset s.threads tid t }

def State.modThread (s : State) (tid : Nat) (f : Thread → Thread) : State := { s with threads := amod s.threads tid f }

def State.modCohort (s : State) (coh : Nat) (f : Cohort → Cohort) : State := { s with cohorts := amod s.cohorts coh f }

def State.modWarp (s : State) (w : Nat) (f : Warp → Warp) : State := { s with warps := amod s.warps w f }

def State.modLaunch (s : State) (l : Nat) (f : Launch → Launch) : State := { s with launches := amod s.launches l f }

def State.modCtx (s : State) (cid : Nat) (f : Ctx → Ctx) : State := { s with ctxs := amod s.ctxs cid f }

/-- Cohort number of a thread. -/
def cohOf (tid : Nat) : Nat := tid / 1024

/-- Key of a thread's warp. -/
def warpOf (tid : Nat) : Nat := tid / 32

/-- Warp number of a thread within its cohort. -/
def warpNo (tid : Nat) : Nat := tid / 32 % 32

/-- Architectural lane of a thread. -/
def laneOf (tid : Nat) : Nat := tid % 32

/-- Threads of a cohort. -/
def State.cohThreads (s : State) (coh : Nat) : List (Nat × Thread) := s.threads.filter fun e => cohOf e.1 == coh

/-- Threads of a warp. -/
def State.warpThreads (s : State) (w : Nat) : List (Nat × Thread) := s.threads.filter fun e => warpOf e.1 == w

/-- Cohorts of a launch. -/
def State.launchCohorts (s : State) (l : Nat) : List (Nat × Cohort) := s.cohorts.filter fun e => e.2.launch == l

/-- Takes a new object number. -/
def State.freshId (s : State) : Nat × State := (s.nextId, { s with nextId := s.nextId + 1 })

/-- Feature word of a context (Table 8-5, Table 16-3). -/
def Ctx.features (c : Ctx) : Dword := (Config.siliconFeatures &&& ~~~c.con.featmask) ||| 1#64

/-- The context has a feature (R178). -/
def Ctx.has (c : Ctx) (bit : Nat) : Bool := c.features.getLsbD bit

/-! ## The executing thread -/

/-- What surrounds the executing thread. -/
structure Env where
  tid : Nat
  th : Thread
  coh : Nat
  c : Cohort
  warp : Nat
  w : Warp
  lane : Nat
  l : Launch
  cid : Nat
  ctx : Ctx
  /-- Personality of the page of its PC. -/
  pers : Nat
  /-- The bundle in which it executes (R163). -/
  bundle : Nat
  deriving DecidableEq, Repr

/-- The surroundings of a thread. -/
def State.envOf (s : State) (tid pers : Nat) : Option Env :=
  match aget s.threads tid, aget s.cohorts (cohOf tid), aget s.warps (warpOf tid) with
  | some th, some c, some w =>
    match aget s.launches c.launch, aget s.ctxs c.cid with
    | some l, some ctx =>
      some { tid := tid, th := th, coh := cohOf tid, c := c, warp := warpOf tid, w := w, lane := laneOf tid, l := l,
             cid := c.cid, ctx := ctx, pers := pers, bundle := s.bundle }
    | _, _ => none
  | _, _, _ => none

/-- The executing thread's surroundings; none where no thread executes. -/
def State.env (s : State) : Option Env :=
  match s.cur with
  | none => none
  | some c => s.envOf c.tid c.pers

/-- Core of the thread; 0 where its cohort is not resident (no instruction executes there). -/
def Env.core (e : Env) : Nat := e.c.core.getD 0

/-- Logical ID (R32). -/
def Cohort.logId (c : Cohort) (tid : Nat) : Nat := c.index * 1024 + tid % 1024

def Env.logId (e : Env) : Nat := e.c.logId e.tid

/-- Op index of the executing thread's PC (R48). -/
def Env.opIdx (e : Env) : Nat :=
  match e.th.exp with
  | some x => x.idx
  | none => 0

/-- The launch is deterministic. -/
def Env.det (e : Env) : Bool := e.l.rc.det

/-! ## Registers and predicates of a thread -/

/-- The register after this one. -/
def regNext : Reg → Reg
  | .v n => .v (n + 1)
  | .k n => .k (n + 1)

/-- The register i places after this one. -/
def regPlus (r : Reg) (i : Nat) : Reg :=
  match r with
  | .v n => .v (n + BitVec.ofNat 8 i)
  | .k n => .k (n + BitVec.ofNat 3 i)

/-- A general register; vz reads 0 (Table 7-5). -/
def Thread.rd (t : Thread) (r : Reg) : Word :=
  match r with
  | .v n => if n = 255 then 0 else sget t.regs n.toNat
  | .k n => match t.exp with
    | none => 0
    | some x => sget x.temps n.toNat

/-- A register pair; vz reads 0 (Table 7-5). -/
def Thread.rd64 (t : Thread) (r : Reg) : Dword :=
  if r = .v 255 then 0 else joinWords (t.rd r) (t.rd (regNext r))

/-- Writes a general register; a write to vz is discarded (Table 7-5). -/
def Thread.wr (t : Thread) (r : Reg) (v : Word) : Thread :=
  match r with
  | .v n => if n = 255 then t else { t with regs := sset t.regs n.toNat v }
  | .k n => { t with exp := t.exp.map fun x => { x with temps := sset x.temps n.toNat v } }

/-- Writes a register pair. -/
def Thread.wr64 (t : Thread) (r : Reg) (v : Dword) : Thread :=
  if r = .v 255 then t else (t.wr r (loWord v)).wr (regNext r) (hiWord v)

/-- A 32-bit or 64-bit operand, zero-extended. -/
def Thread.rdW (t : Thread) (w64 : Bool) (r : Reg) : Dword := if w64 then t.rd64 r else (t.rd r).setWidth 64

/-- Writes a 32-bit or 64-bit result. -/
def Thread.wrW (t : Thread) (w64 : Bool) (r : Reg) (v : Dword) : Thread :=
  if w64 then t.wr64 r v else t.wr r (v.setWidth 32)

/-- Predicate n; 15 is pt. -/
def Thread.p (t : Thread) (n : Nat) : Bool := if n = 15 then true else t.preds.getLsbD n

/-- Writes predicate n; 15 discards. -/
def Thread.setP (t : Thread) (n : Nat) (b : Bool) : Thread :=
  if n ≥ 15 then t
  else { t with preds := (t.preds &&& ~~~(BitVec.ofNat 15 (2 ^ n))) ||| (if b then BitVec.ofNat 15 (2 ^ n) else 0) }

/-- A predicate source: number and inversion (Table 7-5). -/
def Thread.psrc (t : Thread) (f : BitVec 8) : Bool := t.p (f.extractLsb' 0 4).toNat ^^ f.getLsbD 4

/-- The value of a guard (R151). -/
def Thread.guard (t : Thread) (h : Hdr) : Bool := t.p h.guard.toNat ^^ h.ginv

/-- An op executes where its guard and the shadow's g are true (R61). -/
def Thread.active (t : Thread) (h : Hdr) : Bool :=
  t.guard h && (match t.shadow with
    | none => true
    | some (_, g) => g)

/-- The lane mask of a mask register; 255 is the full mask (Table 7-5). -/
def Thread.mask (t : Thread) (m : Reg) : Word := if m = .v 255 then 0xFFFFFFFF#32 else t.rd m

/-- n registers from r, r lowest. -/
def Thread.rdMany (t : Thread) (r : Reg) (n : Nat) : List Word := (List.range n).map fun i => t.rd (regPlus r i)

/-- Sets the sticky flags of a mask (R162). -/
def Thread.orFlags (t : Thread) (f : BitVec 7) : Thread := { t with flags := t.flags ||| f }

/-- A w register of a warp as a thread of bundle b reads it: the writes of the same bundle are not seen (R163). -/
def Warp.rd (w : Warp) (b n : Nat) : Dword :=
  if w.wb = b && (aget w.wLane n).isSome then sget w.wOld n else sget w.w n

/-- A write of a w register by a lane in bundle b: among the writers of one bundle the lowest lane stands (R163). -/
def Warp.wr (w : Warp) (b n lane : Nat) (v : Dword) : Warp :=
  let w := if w.wb = b then w else { w with wb := b, wOld := [], wLane := [] }
  match aget w.wLane n with
  | none => { w with wOld := sset w.wOld n (sget w.w n), wLane := aset w.wLane n lane, w := sset w.w n v }
  | some l => if l < lane then w else { w with wLane := aset w.wLane n lane, w := sset w.w n v }

/-! ## Program counters -/

/-- The slot after n slots, in native code: slot 0 of a line is passed over (R146). -/
def nextNative (pc : VAddr) (n : Nat) : VAddr :=
  let q := pc + BitVec.ofNat 57 (8 * n)
  if q.toNat % 128 = 0 then q + 8 else q

/-- The PC of the next instruction in sequential flow: after the op's slots in native code, after its 8 or 16 bytes in
personality 1, after the guest instruction in a template (R146, R132, R139). -/
def Env.seqNext (e : Env) (long : Bool) : VAddr :=
  let n := if long then 2 else 1
  if e.pers = 0 then nextNative e.th.pc n
  else match e.th.exp with
    | some x => e.th.pc + BitVec.ofNat 57 x.len
    | none => e.th.pc + BitVec.ofNat 57 (8 * n)

/-- Pointer form: bits [62:60] equal bit [63] (R274). -/
def ptrOk (p : Dword) : Bool :=
  let t := p.extractLsb' 60 4
  t = 0 || t = 15

/-- Virtual address of a pointer (R274). -/
def vaOf (p : Dword) : VAddr := p.extractLsb' 63 1 ++ p.extractLsb' 0 56

/-- Pointer tag (R274). -/
def tagOf (p : Dword) : BitVec 4 := p.extractLsb' 56 4

/-! ## Physical memory -/

/-- Key of a physical address of a partition (Table 16-2): local frames by partition, host memory, peer memory; none for
an address that no target has. -/
def State.physKey (s : State) (pid : Nat) (pa : Nat) : Option Nat :=
  let sel := bitsOf pa 51 50
  let low := pa % 2 ^ 50
  if sel = 0 then (if low < s.partBytes pid then some (pid * 2 ^ 50 + low) else none)
  else if sel = 1 then some (4 * 2 ^ 50 + low)
  else if sel = 2 then (if bitsOf pa 49 42 < 144 then some (5 * 2 ^ 50 + low) else none)
  else none

/-- The stack that a physical address of a partition lies on, as the section and the stack's number in it, by 4 KiB
granules: the L2 of that section caches its lines (R20). -/
def State.stackOf (s : State) (pid pa : Nat) : Nat × Nat :=
  let secs := s.sectionsOf pid
  let k := pa / 4096 % (4 * secs.length)
  (secs.getD (k / 4) 0, k % 4)

/-- The key is one of a local frame, which carries tag storage (R285). -/
def isLocalKey (k : Nat) : Bool := k < 4 * 2 ^ 50

/-- The key is one of a peer's memory. -/
def isPeerKey (k : Nat) : Bool := 5 * 2 ^ 50 ≤ k

/-- Two ranges, each a start and a length, overlap. -/
def rangesMeet (a n b m : Nat) : Bool := decide (a < b + m) && decide (b < a + n)

/-- Writes the bytes of a stash line that its mask marks (R239). -/
def writeDirty (m : Sparse 8) (key : Nat) (bytes : List Byte) (dirty : BitVec 128) (i : Nat) : Sparse 8 :=
  match bytes with
  | [] => m
  | b :: t => writeDirty (if dirty.getLsbD i then sset m (key + i) b else m) key t dirty (i + 1)

/-- The line overlaps the n bytes from key. -/
def StashLine.overlaps (l : StashLine) (key n : Nat) : Bool := l.key < key + n && key < l.key + 128

/-- A port of a link is down. -/
def State.linkDown (s : State) : Bool := s.hub.ports.any fun p => p.state == .down

/-- Writes back the dirty bytes of lines of a partition's cohort (R239). A write-back to a peer's memory may need a link
that is down: then it is lost, and the partition stops (R325; log entry 15). -/
def State.writeBack (s : State) (pid : Nat) (ls : List StashLine) : State :=
  ls.foldl (fun s l =>
    let (x, s) : Nat × State := if l.dirty != 0#128 && isPeerKey l.key && s.linkDown then s.pick 2 else (0, s)
    if x = 1 then { s with lost := insertNat pid s.lost }
    else { s with mem := writeDirty s.mem l.key l.bytes l.dirty 0 }) s

/-- Partition of a cohort. -/
def State.cohPid (s : State) (c : Cohort) : Nat := ((aget s.ctxs c.cid).map Ctx.pid).getD 0

/-- A line that has been written back holds nothing that memory does not. -/
def StashLine.clean (l : StashLine) : StashLine := { l with dirty := 0, fresh := [] }

/-- Recalls the stash lines that an access of another agent conflicts with: a read cleans them, a write also makes them
absent (R238). -/
def State.recall (s : State) (key n : Nat) (write : Bool) : State :=
  let hit := fun (e : Nat × StashLine) => e.2.overlaps key n
  if s.cohorts.any fun c => c.2.lines.any hit then
    let s := s.cohorts.foldl (fun s c => s.writeBack (s.cohPid c.2) ((c.2.lines.filter hit).map (·.2))) s
    { s with cohorts := s.cohorts.map fun c =>
        (c.1, { c.2 with lines :=
          if write then c.2.lines.filter fun e => !hit e
          else c.2.lines.map fun e => if hit e then (e.1, e.2.clean) else e }) }
  else s

/-! ### Writes that are not performed for every observer (R253, R260, R268) -/

/-- The bytes from key with those of another place put over them where the two overlap. -/
def patch (bs : List Byte) (key : Nat) (m : List Byte) (mkey : Nat) : List Byte :=
  bs.zipIdx.map fun b =>
    let a := key + b.2
    if mkey ≤ a && a < mkey + m.length then m.getD (a - mkey) 0 else b.1

/-- The write overlaps n bytes from key. -/
def Msg.overlaps (m : Msg) (key n : Nat) : Bool := m.key < key + n && key < m.key + m.new.length

/-- Adds numbers to a set of write numbers. -/
def joinView (a b : List Nat) : List Nat := b.foldl (fun l x => insertNat x l) a

/-- A write that is a release: it comes before what an acquire of it synchronises (R266). -/
def Rel.ofWrite (ts : Nat) (r : Rel) : Rel := { r with view := insertNat ts r.view }

/-- A write takes the last place in coherence order: its number, and the state that lists it. Its own releases include it;
those that it carries on are of fences and of the release sequences that it continues (R264, R265). -/
def State.logMsg (s : State) (key : Nat) (old new : List Byte) (view : List Nat) (own carried : List Rel)
    (rmw agent : Bool) : Nat × State :=
  let (ts, s) := s.freshId
  (ts, { s with hist := s.hist ++
    [{ ts := ts, key := key, new := new, old := old, view := joinView view [ts],
       rels := carried ++ own.map (Rel.ofWrite ts), rmw := rmw, agent := agent }] })

/-- Every write made so far is performed for every observer (R262). -/
def State.performAll (s : State) : State := { s with hist := [], fences := [], flushes := [] }

/-- Key of the memory tag of a byte's granule among the locations (R285). -/
def tagKey (k : Nat) : Nat := 6 * 2 ^ 50 + k / 32

/-- Key of a byte of a cohort's scratchpad among the locations (R253). -/
def spKey (coh a : Nat) : Nat := 7 * 2 ^ 50 + coh * 2 ^ 24 + a

/-- No access returns what was written to n bytes of local memory from a key, or to their tags, before they were scrubbed. -/
def State.dropWrites (s : State) (key n : Nat) : State :=
  { s with hist := s.hist.filter fun m => !m.overlaps key n && !m.overlaps (tagKey key) (n / 32) }

/-- Scratchpad bytes of a cohort. -/
def State.spOf (s : State) (coh : Nat) : Sparse 8 :=
  match aget s.cohorts coh with
  | some c => c.sp
  | none => []

/-- Puts bytes into a cohort's scratchpad. -/
def State.setSp (s : State) (coh a : Nat) (bs : List Byte) : State := s.modCohort coh fun c => { c with sp := swrite c.sp a bs }

/-- Reads n bytes of physical memory. -/
def State.readMem (s : State) (key n : Nat) : List Byte × State :=
  let s' := s.recall key n false
  (sread s'.mem key n, s')

/-- Puts bytes into physical memory. -/
def State.setMem (s : State) (key : Nat) (bs : List Byte) : State :=
  let s' := s.recall key bs.length true
  { s' with mem := swrite s'.mem key bs }

/-- An agent writes bytes of physical memory, after the writes of a view, with the releases that its write carries. -/
def State.writeMem (s : State) (key : Nat) (bs : List Byte) (view : List Nat := []) (rels : List Rel := []) : State :=
  let (old, s) := s.readMem key bs.length
  ((s.logMsg key old bs view rels [] false true).2).setMem key bs

def readMemM (key n : Nat) : M (List Byte) := fun s => let (b, s') := s.readMem key n; .ok b s'

def writeMemM (key : Nat) (bs : List Byte) (view : List Nat := []) (rels : List Rel := []) : M Unit := fun s =>
  .ok () (s.writeMem key bs view rels)

/-! ## Versions that a cache may still hold (R142, R205, R279) -/

/-- The versions of a structure that were read since its last invalidation. -/
def State.versions (s : State) (what cluster cid addr : Nat) : List (List Byte) :=
  match s.seen.find? fun v => v.what == what && v.cluster == cluster && v.cid == cid && v.addr == addr with
  | none => []
  | some v => v.vals

/-- Notes a version. -/
def State.note (s : State) (what cluster cid addr : Nat) (v : List Byte) : State :=
  let hit := fun (x : Seen) => x.what == what && x.cluster == cluster && x.cid == cid && x.addr == addr
  if (s.versions what cluster cid addr).contains v then s
  else if s.seen.any hit then
    { s with seen := s.seen.map fun x => if hit x then { x with vals := x.vals ++ [v] } else x }
  else { s with seen := s.seen ++ [{ what := what, cluster := cluster, cid := cid, addr := addr, vals := [v] }] }

/-- A cache of a cluster holds at most n of the groups into which `grp` puts its structures; which of them leaves it is the
implementation's (Table 1-3). -/
def State.boundSeen (s : State) (what : List Nat) (cluster n : Nat) (grp : Seen → Nat) : State :=
  let mine := s.seen.filter fun v => what.contains v.what && v.cluster == cluster
  let name := fun (v : Seen) => (v.cid, grp v)
  let groups := (mine.map name).eraseDups
  if groups.length ≤ n then s
  else
    let older := groups.filter fun g => (mine.getLast?.map name) != some g
    let (i, s) := s.pick older.length
    match older[i]? with
    | none => s
    | some g => { s with seen := s.seen.filter fun v => !(what.contains v.what && v.cluster == cluster && name v == g) }

/-- One of the versions that a read may return through the caches that hold a structure under some names, each a kind and
an address: the current one, or one noted there. The current one is noted where `keep`. -/
def cached (names : List (Nat × Nat)) (cluster cid : Nat) (keep : Bool) (cur : List Byte) : M (List Byte) := fun s =>
  let s := if keep then names.foldl (fun s k => s.note k.1 cluster cid k.2 cur) s else s
  let vs := (cur :: names.flatMap fun k => s.versions k.1 cluster cid k.2).eraseDups
  let (i, s) := s.pick vs.length
  .ok (vs.getD i cur) s

end Sys2Proof.Machine
end

