-- ==== Sys2Proof/Machine/Pool.lean ====
section
/-! DEFINITION. The walker slots of the sections: what launches are served, the initial ranges of an index space (R77),
the slots free for a launch, and the pending ranges that freed slots load (R78). -/

namespace Sys2Proof.Machine

/-- The launch can make progress: accepted, not ended, in a scheduled context, not pre-empted, not held by a gang. -/
def State.active (s : State) (l : Launch) : Bool :=
  l.status.isNone && !l.preempted && !l.held && !s.hub.stopped.contains l.pid && s.hub.phase == .full &&
    (match aget s.ctxs l.cid with
      | some c => c.scheduled && !c.stopped
      | none => false)

/-- Extents in use. -/
def LaunchRec.exts (r : LaunchRec) : List Nat := (List.range r.nd).map fun d => r.ext.getD d 0

/-- Number of indices. -/
def LaunchRec.space (r : LaunchRec) : Nat := r.exts.foldl (· * ·) 1

/-- Parts of the gang at the hub that have their reservation, but for one launch (R334). -/
def State.reservedParts (s : State) (lid : Nat) : List Launch :=
  match s.hub.gang with
  | none => []
  | some g => (g.reserved.filter (· != lid)).filterMap fun p => aget s.launches p

/-- Launches in the order that serves them: priority, then age (R78, R81). -/
def launchBefore (a b : Nat × Launch) : Bool := b.2.rc.prio < a.2.rc.prio || (a.2.rc.prio == b.2.rc.prio && a.1 ≤ b.1)

/-- A slot of a section's pool holds no walker. -/
def State.slotFree (s : State) (sec slot : Nat) : Bool := !s.walkers.any fun w => w.sec == sec && w.slot == slot

/-- Initial division of an index space (R77): the ranges with their slots. -/
def initialRanges (secs : List Nat) (n grain : Nat) : List (PendRange × Nat) :=
  let m := 32 * secs.length
  let len := roundUp (ceilDiv n m) grain
  (List.range m).filterMap fun j =>
    let lo := min n (j * len)
    let hi := min n ((j + 1) * len)
    if lo < hi then some ({ sec := secs.getD (j / 32) 0, lo := lo, hi := hi }, j % 32) else none

/-- The initial ranges of a launch: none in deterministic mode (R77, R89). -/
def Launch.ranges0 (l : Launch) (secs : List Nat) : List (PendRange × Nat) :=
  if l.rc.det then [] else initialRanges secs l.rc.space l.rc.grain

/-- A slot that a gang's reservation holds for another launch: one of its initial ranges' (R334). -/
def State.slotHeld (s : State) (sec slot lid : Nat) : Bool :=
  (s.reservedParts lid).any fun l =>
    (l.ranges0 (s.sectionsOf l.pid)).any fun r => r.1.sec == sec && r.2 == slot

/-- Free slots of a section's pool for a launch, lowest first: a split, a range load or a restore takes the lowest-numbered
one, where the spec names none (DESIGN CHOICE, log entry 38). -/
def State.freeSlotsOf (s : State) (sec lid : Nat) : List Nat :=
  (List.range 32).filter fun k => s.slotFree sec k && !s.slotHeld sec k lid

/-- Walkers of a launch in a section, by number. -/
def State.walkersOf (s : State) (lid sec : Nat) : List Walker :=
  sortBy (fun a b => a.slot ≤ b.slot) (s.walkers.filter fun w => w.launch == lid && w.sec == sec)

/-- The lowest pending range of a launch in a section. -/
def Launch.lowPend (l : Launch) (sec : Nat) : Option PendRange :=
  (sortBy (fun a b => a.lo ≤ b.lo) (l.pend.filter fun p => p.sec == sec)).head?

/-- Core of walker slot w of a section (R77). -/
def boundCore (sec slot : Nat) : Nat := sec * 64 + 2 * slot

/-- Loads a pending range into a slot, bound to a core (R78). -/
def State.loadRange (s : State) (lid : Nat) (p : PendRange) (slot core : Nat) : State :=
  { s.modLaunch lid fun l => { l with pend := l.pend.filter fun q => q != p } with
    walkers := s.walkers ++ [{ sec := p.sec, slot := slot, launch := lid, cursor := p.lo, limit := p.hi, core := core }] }

/-- The pending range that a freed slot of a section loads: of the launch of highest priority, then the oldest (R78). -/
def State.nextPend (s : State) (sec : Nat) : Option (Nat × PendRange) :=
  (sortBy launchBefore (s.launches.filter fun l => s.active l.2 && (l.2.lowPend sec).isSome)).head?.bind fun l =>
    (l.2.lowPend sec).map fun p => (l.1, p)

/-- The request of a core of a section for work of a launch that has waited for longest (R81, R83). -/
def State.nextWork (s : State) (sec lid : Nat) : Option WorkReq :=
  s.works.find? fun r => secOfCore r.core == sec && r.launch == lid

/-- A slot of a section has become free: it loads the lowest pending range, bound to the core that waits for work of its
launch, or else to core 2w (R78). -/
def State.refillSlot (s : State) (sec slot : Nat) : State :=
  match s.nextPend sec with
  | none => s
  | some (lid, p) =>
    if s.slotFree sec slot && !s.slotHeld sec slot lid then
      match s.nextWork sec lid with
      | some r => State.loadRange { s with works := s.works.filter fun x => x != r } lid p slot r.core
      | none => s.loadRange lid p slot (boundCore sec slot)
    else s

/-- Free slots of the sections load pending ranges, lowest slot first. -/
def State.refillAll (s : State) : State :=
  if s.launches.all fun l => l.2.pend.isEmpty then s
  else (List.range 128).foldl (fun s k => s.refillSlot (k / 32) (k % 32)) s

end Sys2Proof.Machine
end

