-- ==== Sys2Proof/Machine/Ending.lean ====
section
/-! DEFINITION. The end of a launch, of a context's launches and of a partition: what stops, and what it frees (R47, R92,
R110, R303, R334, R341, R405). -/

namespace Sys2Proof.Machine

/-- Statuses of a completion signal (Table 4-7). -/
def stOk : Nat := 0x0000
def stFault : Nat := 0x0010
def stAborted : Nat := 0x0011
def stRollback : Nat := 0x000D

/-- Quarters keep in their rotations the launches that have warps resident in them (R52). -/
def State.fixRotation (s : State) : State :=
  { s with rotation := (s.rotation.map fun e =>
      (e.1, e.2.filter fun l => s.warps.any fun w =>
        match aget s.cohorts (w.1 / 32) with
        | some c => c.launch == l && c.core == some (e.1 / 4) && w.2.quarter == e.1 % 4
        | none => false)).filter fun e => !e.2.isEmpty }

/-- Removes a cohort with everything it holds; its dirty stash lines are written back first (R405). -/
def State.dropCohort (s : State) (coh : Nat) : State :=
  let s : State := match aget s.cohorts coh with
    | some c => s.writeBack (s.cohPid c) (c.lines.map (·.2))
    | none => s
  { s with
    cohorts := adel s.cohorts coh
    warps := s.warps.filter fun e => e.1 / 32 != coh
    threads := s.threads.filter fun e => cohOf e.1 != coh
    copies := s.copies.filter fun e => e.2.coh != coh
    fetches := s.fetches.filter fun f => f.coh != coh
    issue := s.issue.filter fun t => cohOf t != coh }

/-- The record waits to be posted and parks a push against a bin (R100). -/
def Post.spills (p : Post) (k : Nat) : Bool := p.kind == .binSpill && p.parked && p.info.addr.toNat % 2048 == k

/-- Threads whose push against a bin is parked, its record posted (R100). -/
def State.pushesAgainst (s : State) (k : Nat) : List Nat :=
  s.threads.filterMap fun e => match e.2.status with
    | .parkedBin sec bin _ => if sec * 512 + bin = k then some e.1 else none
    | _ => none

/-- Parked threads are replayed: no record parks them any more (R295). -/
def State.unpark (s : State) (ts : List Nat) : State :=
  { s with
    threads := s.threads.map fun e => if ts.contains e.1 then (e.1, { e.2 with status := .ready }) else e
    ctxs := s.ctxs.map fun c =>
      (c.1, { c.2 with parked := c.2.parked.map fun p => (p.1, { p.2 with tids := p.2.tids.filter fun t => !ts.contains t }) }) }

/-- Disarms the bin of an arming; the pushes parked against it replay, those whose record still waits for room once it is
posted (R100, R110, R294). Where the bin is armed anew for the context before a push is executed again, the new arming
answers it: R110 says BIN_CLOSED of a disarmed bin, R99 acceptance of an armed one (DESIGN CHOICE, log entry 39). -/
def State.disarm (s : State) (lid : Nat) : State :=
  match s.bins.find? fun e => e.2.launch == lid with
  | none => s
  | some (k, _) =>
    let s := s.unpark (s.pushesAgainst k)
    { s with
      bins := adel s.bins k
      ctxs := s.ctxs.map fun c =>
        (c.1, { c.2 with posts := c.2.posts.map fun p => if p.spills k then { p with replay := true } else p }) }

/-- The end of a gang before its commit releases its reservation, and its parts report GANG_ROLLBACK (R334). -/
def State.dropGang (s : State) (lid : Nat) (l : Launch) : State :=
  if l.rc.kind ≠ 3 then s
  else
    { s with
      hub := { s.hub with gang := match s.hub.gang with
        | some g => if g.launch = lid then none else some g
        | none => none }
      launches := s.launches.map fun p =>
        if l.parts.contains p.1 && p.2.held && p.2.status.isNone then (p.1, { p.2 with status := some stRollback }) else p }

/-- The writes that a thread has completed, with those that happen before its end: its operations that no WAITC has covered
are among them (R75, R404). -/
def Thread.completed (t : Thread) : List Nat :=
  t.out.foldl (fun v o => joinView v o.wrote) (joinView t.ord.view t.ord.obs)

/-- The writes that the threads of a cohort and their copies have completed (R75). -/
def State.completedBy (s : State) (coh : Nat) : List Nat :=
  (s.copies.filter fun c => c.2.coh == coh).foldl (fun v c => joinView v c.2.wrote)
    ((s.cohThreads coh).foldl (fun v t => joinView v t.2.completed) [])

/-- Writes come to happen before the completion signal of a launch (R75). -/
def State.beforeSignal (s : State) (lid : Nat) (v : List Nat) : State :=
  s.modLaunch lid fun l => { l with endView := joinView l.endView v }

/-- Ends a launch or an arming with a status: every cohort of it stops, its walkers, ranges, requests and records are
discarded, and the slots that it frees load pending ranges (R47, R78, R92, R110). A launch that has ended keeps its
status. -/
def State.endLaunch (s : State) (lid status : Nat) : State :=
  match aget s.launches lid with
  | none => s
  | some l =>
    if l.status.isSome then s
    else
      let s := (s.launchCohorts lid).foldl (fun s c => (s.beforeSignal lid (s.completedBy c.1)).dropCohort c.1) s
      let s := (s.disarm lid).dropGang lid l
      State.refillAll <| State.fixRotation
        { s with
          walkers := s.walkers.filter fun w => w.launch != lid
          works := s.works.filter fun r => r.launch != lid
          colls := s.colls.filter fun c => c.launch != lid
          launches := amod s.launches lid fun l => { l with pend := [], saved := [], status := some status } }

/-- Ends every launch and arming of a context (R294). -/
def State.endContext (s : State) (cid status : Nat) : State :=
  s.launches.foldl (fun s l => if l.2.cid == cid then s.endLaunch l.1 status else s) s

/-- Launches with a resident cohort on a core end with FAULT (R341). -/
def State.clearCore (s : State) (core : Nat) : State :=
  (s.cohorts.filter fun c => c.2.core == some core).foldl (fun s c => s.endLaunch c.2.launch stFault) s

/-- A violation freezes a core (R341). -/
def State.freezeCore (s : State) (core : Nat) : State :=
  State.clearCore { s with hub := { s.hub with frozenCores := insertNat core s.hub.frozenCores } } core

/-- A violation freezes the copy engine of a core that made the access: either of its two (R341, Table 1-2). -/
def State.freezeEngine (s : State) (core : Nat) : State :=
  let (x, s) := s.pick 2
  State.clearCore { s with hub := { s.hub with frozenEngines := insertNat (core * 2 + x) s.hub.frozenEngines } } core

/-- A partition stop: every launch of the partition ends and no completion signal is written (R303). -/
def State.stopPartition (s : State) (pid : Nat) : State :=
  let s := s.launches.foldl (fun s l => if l.2.pid == pid then s.endLaunch l.1 stFault else s) s
  { s with
    launches := s.launches.map fun l => if l.2.pid = pid then (l.1, { l.2 with signaled := true }) else l
    hub := { s.hub with stopped := insertNat pid s.hub.stopped } }

end Sys2Proof.Machine
end

