-- ==== Sys2Proof/Machine/Order.lean ====
section
/-! DEFINITION. The order of memory accesses (R253 to R273): scope instances, what a thread's reads must see, releases,
acquires and fences, and the reads and writes of threads over the writes that are not performed for every observer. -/

namespace Sys2Proof.Machine

/-! ## Scope instances (R254 to R256) -/

/-- Order of the scopes (Table 7-4). -/
def Scope.rank : Scope → Nat
  | .warp => 0 | .cohort => 1 | .core => 2 | .cluster => 3 | .sect => 4 | .device => 5 | .domain => 6 | .system => 7

/-- Number of the domain instance (i = 6) or the system instance (i = 7) of an agent of a partition. Without the feature
DOMAIN (`far` false) it holds the partition and its host alone (R255). -/
def wideInst (pid : Nat) (far : Bool) (i : Nat) : Nat := 8 * (2 * pid + far.toNat) + i

/-- Number of the system instance of the host. -/
def hostInst : Nat := 8 * 8 + 7

/-- Two instances of one scope hold each other's agents: they are one, or the wide instances of agents in one partition, of
agents that both have the feature DOMAIN, or of an agent and the host (R255, R256). -/
def meetEach (a b : Nat) : Bool :=
  a == b || (a % 8 == b % 8 && decide (6 ≤ a % 8) &&
    (a == hostInst || b == hostInst || a / 16 == b / 16 || (a / 8 % 2 == 1 && b / 8 % 2 == 1)))

/-- Numbers of the scope instances of a thread on a core of a partition, narrowest first (Table 12-1). -/
def instances (tid core pid : Nat) (far : Bool) : List Nat :=
  [8 * warpOf tid, 8 * cohOf tid + 1, 8 * core + 2, 8 * clusterOf core + 3, 8 * secOfCore core + 4, 8 * pid + 5,
   wideInst pid far 6, wideInst pid far 7]

/-- The instances of a scope and of every narrower one. -/
def Env.insts (e : Env) (sc : Scope) : List Nat :=
  (instances e.tid e.core e.ctx.pid (e.ctx.has 10)).take (Scope.rank sc + 1)

/-- The scope instances of a unit of a partition in a section, which stands in no warp, cohort, core or cluster. -/
def agentInsts (sec pid : Nat) : List Nat := [1, 2, 3, 4, 8 * sec + 4, 8 * pid + 5, wideInst pid true 6, wideInst pid true 7]

/-- The scope instances of the host and of firmware, which belong to the system scope alone (R254). -/
def hostInsts : List Nat := [1, 2, 3, 4, 5, 6, 7, hostInst]

/-- Two operations reach each other: the narrower of their scopes decides (R256). -/
def reachEach (a b : List Nat) : Bool :=
  let n := min a.length b.length
  decide (0 < n) && meetEach (a.getD (n - 1) 0) (b.getD (n - 1) 0)

/-! ## What orders a thread's accesses -/

/-- The thread's reads return the write or a later one (R260, R267). -/
def Ord.knows (o : Ord) (ts : Nat) : Bool := o.view.contains ts || o.must.contains ts || o.fenced.contains ts

/-- The writes that the thread's reads return or pass. -/
def Ord.known (o : Ord) : List Nat := joinView (joinView o.view o.must) o.fenced

/-- The thread's writes follow the write: a fence met by another alone binds no write (R260, R267). -/
def Ord.follows (o : Ord) (ts : Nat) : Bool := o.view.contains ts || o.must.contains ts || o.after.contains ts

/-- Writes come to happen before the next op. -/
def Ord.join (o : Ord) (v : List Nat) : Ord := { o with view := joinView o.view v }

/-- A release or FENCE carries what the thread has read (R266). -/
def Ord.release (o : Ord) : Ord := { o.join o.obs with obs := [] }

/-- An acquire synchronises with the releases that it reads and that reach it (R265). -/
def Ord.acquire (o : Ord) (insts : List Nat) (rels : List Rel) : Ord :=
  rels.foldl (fun o r => if reachEach r.insts insts then o.join r.view else o) o

/-- A FENCE: an acquire of what the thread has read before, and a release for its later writes (R265). -/
def Ord.fence (o : Ord) (insts : List Nat) : Ord :=
  let o := o.release.acquire insts o.acq
  { o with rel := o.rel.filter (fun r => r.insts != insts) ++ [{ insts := insts, view := o.view }] }

/-- The fences of a scope's instances that come before, and the thread's own (R267). -/
def State.fenceOrder (s : State) (o : Ord) (insts : List Nat) : Ord × State :=
  let seen := s.fences.foldl (fun v x => if insts.any (meetEach x.1) then joinView v x.2 else v) o.fenced
  ({ o with fenced := seen },
    { s with fences := insts.foldl (fun m k => aset m k (joinView ((aget m k).getD []) o.view)) s.fences })

/-- What orders the accesses of a copy or matrix instruction, from its thread's order at its issue (R270): they follow what
the thread read and wrote, and are unordered among themselves (R246). -/
def Ord.forUnit (o : Ord) : Ord :=
  { view := o.view, fenced := joinView o.must o.fenced, after := joinView o.must o.after }

/-! ## Reads -/

/-- Splits the overlapping writes, the newest first, into those that a read does not see and those that it sees: a write
that it need not see, and over which it sees no later one, may be either (R260, R268). -/
def chooseSeen (o : Ord) (ms seen : List Msg) (s : State) : List Msg × List Msg × State :=
  match ms with
  | [] => ([], seen, s)
  | m :: t =>
    if o.knows m.ts || seen.any (fun v => v.overlaps m.key m.new.length) then chooseSeen o t (seen ++ [m]) s
    else
      let (x, s) := s.pick 2
      if x = 0 then chooseSeen o t (seen ++ [m]) s
      else
        let (hid, vis, s) := chooseSeen o t seen s
        (m :: hid, vis, s)

/-- The writes whose bytes a read of n bytes returns, of those that it sees, the newest first. -/
def returned (key n : Nat) (vis : List Msg) (covered : List Nat) : List Msg :=
  match vis with
  | [] => []
  | m :: t =>
    let mine := (List.range n).filter fun i => m.key ≤ key + i && key + i < m.key + m.new.length && !covered.contains i
    if mine.isEmpty then returned key n t covered else m :: returned key n t (covered ++ mine)

/-- A read has returned writes (R260, R266); with `acq` it is an acquire at those instances, and a release that names every
reader is acquired by any thread that it reaches (Table 12-2). -/
def Ord.read (o : Ord) (own : List Nat) (acq : Option (List Nat)) (ws : List Msg) : Ord :=
  let rels := ws.flatMap Msg.rels
  let o := { o with
    must := joinView o.must (ws.map Msg.ts), obs := ws.foldl (fun v (m : Msg) => joinView v m.view) o.obs
    acq := (o.acq ++ rels).eraseDups }
  let o := o.acquire own (rels.filter Rel.auto)
  match acq with
  | none => o
  | some i => o.acquire i rels

/-- A read of bytes that stand at a key now, by an agent whose accesses are so ordered: the bytes that it returns. The
instances at which the read is an acquire, if it is one, may depend on those bytes (AWAIT, R364). -/
def State.observe (s : State) (o : Ord) (own : List Nat) (acq : List Byte → Option (List Nat)) (key : Nat)
    (cur : List Byte) : List Byte × Ord × State :=
  let ms := (s.hist.filter fun m => m.overlaps key cur.length).reverse
  let (hid, vis, s) := chooseSeen o ms [] s
  let b := hid.foldl (fun b m => patch b key m.old m.key) cur
  (b, o.read own (acq b) (returned key cur.length vis []), s)

/-! ## Writes -/

/-- The overlapping writes, newest first, that a write need not follow in coherence order (R260, R268). -/
def passable (o : Ord) (ms : List Msg) : List Msg := ms.takeWhile fun m => !o.follows m.ts

/-- How many of the newest of some writes stand after a new one, as far as an atomic operation follows at once the write
that it reads (R269): none, or as many as leave no atomic operation next behind the new write. -/
def slotsAmong (ms : List Msg) : List Nat :=
  (List.range (ms.length + 1)).filter fun k => k == 0 || !((ms[k - 1]?).any Msg.rmw)

/-- The bytes that stood at a key before the k newest of some writes over them. -/
def bytesBefore (key : Nat) (cur : List Byte) (ms : List Msg) (k : Nat) : List Byte :=
  (ms.take k).foldl (fun b m => patch b key m.old m.key) cur

/-- Redoes later writes over the bytes of a new one: those bytes at the end, and the writes with what they replace now. -/
def redo (key : Nat) (cur : List Byte) (ms : List Msg) : List Byte × List Msg :=
  match ms with
  | [] => (cur, [])
  | m :: t =>
    let (b, r) := redo key (patch cur key m.new m.key) t
    (b, { m with old := patch m.old m.key cur key } :: r)

/-- A write takes its place in coherence order before the k newest of the writes that overlap it: the bytes that stand
there in the end, and the order of its agent after it. -/
def State.placeAt (s : State) (o : Ord) (own carried : List Rel) (rmw : Bool) (key : Nat) (cur bs : List Byte)
    (later : List Msg) (k : Nat) : List Byte × Ord × State :=
  let late := (later.take k).reverse
  let (ts, s) := s.freshId
  let v := joinView o.view [ts]
  let m : Msg := { ts := ts, key := key, new := bs, old := bytesBefore key cur later k, view := v
                   rels := carried ++ o.rel ++ own.map (Rel.ofWrite ts), rmw := rmw }
  let (fin, redone) := redo key bs late
  let at_ := (firstIdx (fun x => late.any fun y => y.ts == x.ts) s.hist).getD s.hist.length
  let hist := s.hist.map fun x => (redone.find? fun y => y.ts == x.ts).getD x
  (fin, { o with view := v }, { s with hist := hist.take at_ ++ m :: hist.drop at_ })

/-- The writes over n bytes from a key, the newest first. -/
def State.writesAt (s : State) (key n : Nat) : List Msg := (s.hist.filter fun m => m.overlaps key n).reverse

/-- A write of bytes over those that stand at a key now takes a place in coherence order: the bytes that stand there in
the end. -/
def State.placeWrite (s : State) (o : Ord) (own : List Rel) (key : Nat) (cur bs : List Byte) : List Byte × Ord × State :=
  let later := passable o (s.writesAt key bs.length)
  let ks := slotsAmong later
  let (i, s) := s.pick ks.length
  s.placeAt o own [] false key cur bs later (ks.getD i 0)

/-! ## Accesses of a thread -/

/-- A thread's order as it stands. -/
def State.ordOf (s : State) (tid : Nat) : Ord := ((aget s.threads tid).map Thread.ord).getD {}

def State.setOrd (s : State) (tid : Nat) (o : Ord) : State := s.modThread tid fun t => { t with ord := o }

/-- The thread's launch is deterministic. -/
def State.inDet (s : State) (tid : Nat) : Bool :=
  (((aget s.cohorts (cohOf tid)).bind fun c => aget s.launches c.launch).map fun l => l.rc.det).getD false

/-- What orders the next access of a thread. In a deterministic launch the accesses of a warp's threads follow each other's
writes in one order (R315, R319). -/
def State.ordFor (s : State) (tid : Nat) : Ord :=
  let o := s.ordOf tid
  if s.inDet tid then
    let made := ((aget s.warps (warpOf tid)).map Warp.made).getD []
    { o with fenced := joinView o.fenced made, after := joinView o.after made }
  else o

/-- The thread has made a write. -/
def State.noteMade (s : State) (tid ts : Nat) : State :=
  if s.inDet tid then s.modWarp (warpOf tid) fun w => { w with made := insertNat ts w.made } else s

/-- The instances of every scope of a thread. -/
def Env.allInsts (e : Env) : List Nat := e.insts .system

/-- The thread reads bytes that stand at a key; the read is an acquire at the scope that `acq` gives for them. -/
def seeIfM (e : Env) (acq : List Byte → Option Scope) (key : Nat) (cur : List Byte) : M (List Byte) := fun s =>
  let (b, o, s') := s.observe (s.ordFor e.tid) e.allInsts (fun b => (acq b).map e.insts) key cur
  .ok b (s'.setOrd e.tid o)

/-- The thread reads bytes that stand at a key; with `acq` the read is an acquire at that scope. -/
def seeM (e : Env) (acq : Option Scope) (key : Nat) (cur : List Byte) : M (List Byte) := seeIfM e (fun _ => acq) key cur

/-- The release that a write of the thread carries. -/
def Ord.relAt (o : Ord) (insts : List Nat) : Rel := { insts := insts, view := o.view }

/-- The order and the releases of a write, a release where it names a scope (R263). -/
def Ord.forWrite (o : Ord) (e : Env) (rel : Option Scope) : Ord × List Rel :=
  match rel with
  | none => (o, [])
  | some sc => (o.release, [o.release.relAt (e.insts sc)])

/-- A write of the thread over the bytes that stand at a key; the bytes that stand there in the end. -/
def placeM (e : Env) (rel : Option Scope) (key : Nat) (cur bs : List Byte) : M (List Byte) := fun s =>
  let (o, own) := (s.ordFor e.tid).forWrite e rel
  let (fin, o, s') := s.placeWrite o own key cur bs
  .ok fin ((s'.setOrd e.tid o).noteMade e.tid s.nextId)

/-- A read of physical memory by the thread. -/
def readSeenM (e : Env) (acq : Option Scope) (key n : Nat) : M (List Byte) := do
  seeM e acq key (← readMemM key n)

/-- A write of physical memory by the thread. -/
def writeSeenM (e : Env) (rel : Option Scope) (key : Nat) (bs : List Byte) : M Unit := do
  let fin ← placeM e rel key (← readMemM key bs.length) bs
  modify fun s => s.setMem key fin

/-- An atomic operation of the thread over the bytes that stand at a key: the bytes that it reads, and those that stand
there in the end. Its write, if it makes one, follows at once the write that it reads, and no other atomic operation
stands between the two (R264, R269). -/
def State.rmw (s : State) (e : Env) (acq rel : Option Scope) (key : Nat) (cur : List Byte)
    (f : List Byte → Option (List Byte)) : List Byte × List Byte × State :=
  let o := s.ordFor e.tid
  let ms := s.writesAt key cur.length
  let later := ms.takeWhile fun m => !o.knows m.ts && !o.follows m.ts
  let ks := (List.range (later.length + 1)).filter fun k =>
    (slotsAmong later).contains k || (f (bytesBefore key cur later k)).isNone
  let (i, s) := s.pick ks.length
  let k := ks.getD i 0
  let b := bytesBefore key cur later k
  let ws := returned key cur.length (ms.drop k) []
  let o := o.read e.allInsts (acq.map e.insts) ws
  match f b with
  | none => (b, cur, s.setOrd e.tid o)
  | some bs =>
    let (o, own) := o.forWrite e rel
    let (fin, o, s') := s.placeAt o own (ws.flatMap Msg.rels) true key cur bs later k
    (b, fin, (s'.setOrd e.tid o).noteMade e.tid s.nextId)

/-- An atomic operation of the thread on physical memory. -/
def rmwM (e : Env) (acq rel : Option Scope) (key n : Nat) (f : List Byte → Option (List Byte)) : M (List Byte) := do
  let cur ← readMemM key n
  fun s =>
    let (b, fin, s') := s.rmw e acq rel key cur f
    .ok b (if (f b).isNone then s' else s'.setMem key fin)

/-- A FENCE of the thread at a scope (R265 to R267). -/
def State.fenceBy (s : State) (tid : Nat) (insts : List Nat) : State :=
  let (o, s) := s.fenceOrder ((s.ordOf tid).fence insts) insts
  s.setOrd tid o

/-- Every thread of a cohort acts as if it executed a FENCE at .device scope (R271). -/
def State.fenceCohort (s : State) (coh : Nat) : State :=
  match aget s.cohorts coh with
  | none => s
  | some c =>
    let pid := ((aget s.ctxs c.cid).map Ctx.pid).getD 0
    (s.cohThreads coh).foldl (fun s e =>
      s.fenceBy e.1 ((instances e.1 (c.core.getD 0) pid false).take 6)) s

/-- Writes come to happen before the next op of a thread. -/
def State.joinThread (s : State) (tid : Nat) (v : List Nat) : State := s.setOrd tid ((s.ordOf tid).join v)

/-- What a release of a thread carries; its order after it. -/
def State.carry (s : State) (tid : Nat) : List Nat × State :=
  let o := (s.ordOf tid).release
  (o.view, s.setOrd tid o)

/-- A release of the thread that is no write, at a scope (R265, case 5). -/
def releaseM (e : Env) (sc : Scope) : M Rel := fun s =>
  let (v, s) := s.carry e.tid
  .ok { insts := e.insts sc, view := v } s

end Sys2Proof.Machine
end

