-- ==== Sys2Proof/Machine/Translate.lean ====
section
/-! DEFINITION. Translation and the checks of a global access (R274 to R288): page walk, permission, watchpoints,
residency and memory tags, in the order of Table 13-3. -/

namespace Sys2Proof.Machine

/-- Who makes an access: its context, partition, core and thread, and the features that the checks depend on. -/
structure Who where
  cid : Nat
  pid : Nat
  fn : Nat
  root : Nat
  /-- Cluster whose caches serve the access; none for front ends and controllers. -/
  cluster : Option Nat
  /-- The thread, for watchpoints. -/
  tid : Option Nat
  core : Nat
  tags : Bool
  watch : Bool
  /-- Code text is encrypted (R323). -/
  enc : Bool
  /-- The access is the thread's own, and orders its later ones. -/
  own : Bool := false
  /-- The copy whose access it is. -/
  copy : Option Nat := none
  deriving DecidableEq, Repr

/-- An agent of a context that is no thread (front end, bin controller, fault queue). -/
def agentOf (cid : Nat) (ctx : Ctx) : Who :=
  { cid := cid, pid := ctx.pid, fn := ctx.fn, root := ctx.con.ptroot, cluster := none, tid := none, core := 0,
    tags := ctx.has 6, watch := false, enc := ctx.con.textenc }

/-- The executing thread as an accessor; a thread of a saved cohort stands in no cluster. -/
def Env.who (e : Env) : Who :=
  { agentOf e.cid e.ctx with
    cluster := e.c.core.map clusterOf, tid := some e.tid, core := e.core, watch := e.ctx.has 7, own := true }

/-- A unit that reads for a thread, as an accessor: not matched against watchpoints (R281). -/
def Who.noWatch (w : Who) : Who := { w with watch := false, own := false }

/-- Result of a page walk (R276). -/
inductive Walked where
  | leaf (pte : Nat) (log : Nat)
  | unmapped
  /-- Malformed entry at this physical address. -/
  | format (pa : Nat)
  deriving DecidableEq, Repr

/-- The bytes that physical memory and dirty stash lines hold. -/
def State.peek (s : State) (key n : Nat) : List Byte := (s.readMem key n).1

/-- Key of a local frame of a partition. -/
def frameKey (pid f : Nat) : Nat := pid * 2 ^ 34 + f

/-- The frames that n bytes from a local address touch are OWNED by the context, each of them (R336). -/
def State.framesOwned (s : State) (pid cid addr n : Nat) : Bool :=
  let lo := frameKey pid (addr / 2 ^ 16)
  let cnt := (addr + n - 1) / 2 ^ 16 - addr / 2 ^ 16 + 1
  (s.hub.frames.filter fun f => decide (lo ≤ f.1) && decide (f.1 < lo + cnt) && f.2 == .owned cid).length == cnt

/-- A leaf of a page of 2^log bytes is well formed and names frames that its context owns (R276, R324, R336). -/
def State.leafOk (s : State) (pid cid : Nat) (tags : Bool) (e log : Nat) : Bool :=
  let frame := bitsOf e 51 16 * 2 ^ 16
  let sel := bitsOf frame 51 50
  bitsOf e 63 52 == 0 && bitsOf e 9 8 != 3 && e / 2 ^ 16 % 2 ^ (log - 16) == 0 &&
  (sel == 0 || sel == 1 || sel == 2) &&
  !(sel == 0 && (!(frame % 2 ^ 50 + 2 ^ log ≤ s.partBytes pid) || !s.framesOwned pid cid (frame % 2 ^ 50) (2 ^ log))) &&
  !(sel == 2 && 144 ≤ bitsOf frame 49 42) &&
  !(tags && bitsOf e 7 7 == 1 && sel != 0)

/-- Walks the levels whose lowest index bits are listed (Table 13-1). -/
def State.walkFrom (s : State) (pid cid : Nat) (tags : Bool) (va : Nat) (levels : List Nat) (table : Nat) : Walked :=
  match levels with
  | [] => .unmapped
  | sh :: rest =>
    let pa := table + 8 * (va / 2 ^ sh % (if sh = 16 then 32 else 512))
    match s.physKey pid pa with
    | none => .format pa
    | some k =>
      let e := leNat (s.peek k 8)
      if bitsOf e 0 0 = 0 then .unmapped
      else if bitsOf e 1 1 = 1 then
        if sh ≤ 30 && s.leafOk pid cid tags e sh then .leaf e sh else .format pa
      else if sh = 16 || bitsOf e 63 52 != 0 || bitsOf e 7 2 != 0 || (sh != 21 && bitsOf e 11 8 != 0) then .format pa
      else s.walkFrom pid cid tags va rest (bitsOf e 51 8 * 256)

/-- The walk of a virtual address in a context (R275). -/
def State.walk (s : State) (w : Who) (va : VAddr) : Walked :=
  s.walkFrom w.pid w.cid w.tags va.toNat [48, 39, 30, 21, 16] w.root

/-- The leaf is resident. -/
def pteRes (pte : Nat) : Bool := bitsOf pte 5 5 == 1

/-! ### Entries that a walk may still use (R279) -/

/-- Number of the page of 2^log bytes that holds an address, with its size, as the TLB tags it. -/
def pageTag (va log : Nat) : Nat := va / 2 ^ log * 64 + log

/-- The resident leaves that a cluster's TLB may hold for an address: those used since the last shootdown. -/
def State.tlbLeaves (s : State) (cl cid va : Nat) : List Walked :=
  (s.seen.filter fun v => v.what == 3 && v.cluster == cl && v.cid == cid && v.addr == pageTag va (v.addr % 64)).flatMap
    fun v => v.vals.map fun b => .leaf (leNat b) (v.addr % 64)

/-- The walks of an address, each with the non-leaf entries that it uses: at every level the entry in memory, or one that
was used since the last shootdown. The first takes every entry from memory. -/
def State.walksFrom (s : State) (cl pid cid : Nat) (tags : Bool) (va : Nat) (levels : List Nat) (table : Nat) :
    List (Walked × List (Nat × Nat)) :=
  match levels with
  | [] => [(.unmapped, [])]
  | sh :: rest =>
    let pa := table + 8 * (va / 2 ^ sh % (if sh = 16 then 32 else 512))
    match s.physKey pid pa with
    | none => [(.format pa, [])]
    | some k =>
      let es := (leNat (s.peek k 8) :: (s.versions 4 cl cid (pageTag va sh)).map leNat).eraseDups
      es.flatMap fun e =>
        if bitsOf e 0 0 = 0 then [(.unmapped, [])]
        else if bitsOf e 1 1 = 1 then [(if sh ≤ 30 && s.leafOk pid cid tags e sh then .leaf e sh else .format pa, [])]
        else if sh = 16 || bitsOf e 63 52 != 0 || bitsOf e 7 2 != 0 || (sh != 21 && bitsOf e 11 8 != 0) then
          [(.format pa, [])]
        else (s.walksFrom cl pid cid tags va rest (bitsOf e 51 8 * 256)).map fun r => (r.1, (pageTag va sh, e) :: r.2)

/-- Memory without the writes that an agent need not see: what its walks may still read (R268, R284). -/
def State.asBefore (s : State) (o : Ord) : State :=
  let out := s.hist.reverse.foldl (fun (acc : Sparse 8 × List Msg) (m : Msg) =>
    if o.knows m.ts || acc.2.any (fun v => v.overlaps m.key m.new.length) then (acc.1, m :: acc.2)
    else (if m.key < 6 * 2 ^ 50 then swrite acc.1 m.key m.old else acc.1, acc.2)) (s.mem, [])
  { s with mem := out.1 }

/-- A walk leaves its entries and its resident leaf in the cluster's TLB, which holds no more leaves than its capacity
(R279). -/
def State.noteUsed (s : State) (cl cid : Nat) (va : Nat) (r : Walked × List (Nat × Nat)) : State :=
  let s := r.2.foldl (fun s x => s.note 4 cl cid x.1 (leBytes 8 x.2)) s
  match r.1 with
  | .leaf p log => if pteRes p then
      (s.note 3 cl cid (pageTag va log) (leBytes 8 p)).boundSeen [3] cl Config.tlbEntries Seen.addr
    else s
  | _ => s

/-- A walk through the cluster's TLB: the path in memory, or one that the TLB or an earlier walk may still hold, whole
(R279). -/
def walkM (w : Who) (va : VAddr) : M Walked := fun s =>
  let cur := s.walk w va
  match w.cluster with
  | none => .ok cur s
  | some cl =>
    let paths := fun (s : State) => s.walksFrom cl w.pid w.cid w.tags va.toNat [48, 39, 30, 21, 16] w.root
    let o := ((w.tid.bind fun t => aget s.threads t).map Thread.ord).getD {}
    let old := if s.hist.isEmpty then [] else paths (s.asBefore o)
    let now := paths s
    let kept := (s.tlbLeaves cl w.cid va.toNat).filter fun l => !now.any (·.1 == l)
    let all := (now ++ kept.map (fun l => (l, [])) ++ old).eraseDups
    let (i, s) := s.pick all.length
    let r := all.getD i (cur, [])
    .ok r.1 (s.noteUsed cl w.cid va.toNat r)

/-- An access to check. -/
structure Access where
  ptr : Dword
  n : Nat
  /-- Needs RD, WR, EX (R278). -/
  rd : Bool := false
  wr : Bool := false
  fx : Bool := false
  /-- ACC of the fault record. -/
  acc : Nat := 0
  /-- ADDR of the fault record, where it is not the pointer. -/
  faddr : Option Dword := none
  /-- Size of the mapping page that it met, as a power of two; 64 KiB where no leaf was found (R289). -/
  log : Nat := 16
  deriving DecidableEq, Repr

/-- The access has met a leaf. -/
def Access.at_ (a : Access) (log : Nat) : Access := { a with log := log }

/-- The mapping page of an access (R289). An ADDR_FORM fault, before any walk, has found no leaf, and so has the 64 KiB page
of its address (DEDUCED, log entry 20). -/
def Access.page (a : Access) : Nat := (vaOf a.ptr).toNat / 2 ^ a.log * 2 ^ a.log

/-- Where an access goes: the physical key of its first byte and its leaf. -/
structure Place where
  key : Nat
  pte : Nat
  log : Nat
  deriving DecidableEq, Repr

/-- ADDR of a MEMERR: the virtual address of the access, or the line address for a fetch (R302). -/
def memErrAddr (a : Access) : Dword :=
  let va := vaOf a.ptr
  (if a.fx then va &&& ~~~(127#57) else va).setWidth 64

/-- A fault of an access. -/
def accFault (k : FaultKind) (a : Access) (info : Nat := 0) : FaultInfo :=
  { kind := k, acc := a.acc
    addr := if k = .memErr then memErrAddr a else a.faddr.getD a.ptr
    info := BitVec.ofNat 64 info
    page := some a.page }

/-- A thread watchpoint matches an access of n bytes at va (R288). -/
def wpHit (wp : Wp) (a : Access) (va : Nat) : Bool :=
  let lo := wp.addr.toNat % 2 ^ 57
  let len := 2 ^ bitsOf wp.ctl.toNat 8 4
  wp.ctl.getLsbD 0 && ((a.rd && wp.ctl.getLsbD 1) || (a.wr && wp.ctl.getLsbD 2) || (a.fx && wp.ctl.getLsbD 3)) &&
    va < lo + len && lo < va + a.n

/-- Watchpoints n of the threads whose accessors include the thread (R287). -/
def State.threadWpHit (s : State) (tid : Nat) (n : Nat) (a : Access) (va : Nat) : Bool :=
  s.threads.any fun e =>
    let wp := if n = 0 then e.2.wp0 else e.2.wp1
    let who := bitsOf wp.ctl.toNat 10 9
    wpHit wp a va && (if who = 0 then e.1 == tid else if who = 1 then warpOf e.1 == warpOf tid
      else cohOf e.1 == cohOf tid)

/-- The watchpoint that an access matches, as INFO numbers it (R288). Of several, INFO names the thread's 0, then its 1,
then the lowest of the core's (DESIGN CHOICE: the spec is silent; log entry 20). -/
def State.watchHit (s : State) (w : Who) (a : Access) (va : Nat) : Option Nat :=
  match w.tid with
  | none => none
  | some tid =>
    if !w.watch || (match aget s.threads tid with | some t => t.wpSuppress | none => true) then none
    else if s.threadWpHit tid 0 a va then some 0
    else if s.threadWpHit tid 1 a va then some 1
    else (firstIdx (fun slot => match aget s.hub.coreWps (w.core * 8 + slot) with
        | some c => c.cid == w.cid && wpHit { addr := c.addr, ctl := c.ctl } a va
        | none => false) (List.range 8)).map (8 + ·)

/-- A peer's memory is reached over a link: with a link down, the access may need it (R325; which ports serve a peer is
not given, log entry 15). -/
def linkNeedM (key : Nat) : M Bool := fun s =>
  if isPeerKey key && s.hub.ports.any (fun p => p.state == .down) then
    let (i, s) := s.pick 2
    .ok (i == 1) s
  else .ok false s

/-- The walk reads an entry that lies in a peer's memory. -/
def State.walkPeer (s : State) (pid va : Nat) (levels : List Nat) (table : Nat) : Bool :=
  match levels with
  | [] => false
  | sh :: rest =>
    match s.physKey pid (table + 8 * (va / 2 ^ sh % (if sh = 16 then 32 else 512))) with
    | none => false
    | some k =>
      let e := leNat (s.peek k 8)
      isPeerKey k || (bitsOf e 1 0 == 1 && s.walkPeer pid va rest (bitsOf e 51 8 * 256))

/-- A walk over a peer's tables may need a link that is down (R325). -/
def linkNeedWalk (w : Who) (va : VAddr) : M Bool := fun s =>
  if s.hub.ports.any (fun p => p.state == .down) && s.walkPeer w.pid va.toNat [48, 39, 30, 21, 16] w.root then
    let (i, s) := s.pick 2
    .ok (i == 1) s
  else .ok false s

/-- The access meets an uncorrectable error that is reported at its op: its ACC and its bytes, or the line of a fetch, are
those of the error (R302, Table 14-6). -/
def State.errAt (s : State) (w : Who) (a : Access) : Bool :=
  match (w.tid.bind fun t => aget s.threads t).bind Thread.err with
  | none => false
  | some (acc, at_) =>
    let va := vaOf a.ptr
    acc == a.acc && (if a.fx then (at_ &&& ~~~(127#57)) == (va &&& ~~~(127#57)) else decide ((at_ - va).toNat < a.n))

/-- Check 1 of Table 13-3 and the walk of check 2. -/
def walkFor (w : Who) (a : Access) : M Walked := do
  if !ptrOk a.ptr then throw (accFault .addrForm a)
  if (← linkNeedWalk w (vaOf a.ptr)) || (← get).errAt w a then throw (accFault .memErr a)
  walkM w (vaOf a.ptr)

/-- Physical address of a byte of a page of 2^log bytes. -/
def leafAddr (pte log : Nat) (va : VAddr) : Nat := bitsOf pte 51 log * 2 ^ log + va.toNat % 2 ^ log

/-- The rest of checks 2 and 3 of Table 13-3 after the walk, and the place of the access; an access whose frame is not its
context's, through a leaf that a TLB still holds, is a violation (R341). -/
def placeOf (w : Who) (a : Access) (r : Walked) : M Place := do
  match r with
  | .unmapped => throw (accFault .unmapped a)
  | .format pa => throw (accFault .ptFormat a pa)
  | .leaf pte log =>
    let a := a.at_ log
    if (a.rd && bitsOf pte 2 2 == 0) || (a.wr && bitsOf pte 3 3 == 0) || (a.fx && bitsOf pte 4 4 == 0) then
      throw (accFault .perm a)
    let s ← get
    let pa := leafAddr pte log (vaOf a.ptr)
    match s.physKey w.pid pa with
    | some key =>
      if isLocalKey key && !s.framesOwned w.pid w.cid pa a.n then throw { accFault .memErr a with frozen := true }
      pure { key := key, pte := pte, log := log }
    | none => throw (accFault .ptFormat a)

/-- Checks 1 to 3 of Table 13-3, and the place of the access. -/
def checkTo3 (w : Who) (a : Access) : M Place := do
  let r ← walkFor w a
  placeOf w a r

/-- Check 4 of Table 13-3. -/
def checkWatch (w : Who) (a : Access) : M Unit := do
  let s ← get
  match s.watchHit w a (vaOf a.ptr).toNat with
  | some n => throw (accFault .watch a n)
  | none => pure ()

/-- What orders the accesses of an accessor: its copy's order, or its thread's. -/
def State.orderOf (s : State) (w : Who) (tid : Nat) : Ord :=
  match w.copy.bind (aget s.copies) with
  | some c => c.ord
  | none => s.ordFor tid

/-- An access reads the memory tag of the granule that holds a byte as a plain load of its location, in its thread's or
its copy's order (R285, R286); the read of a fetch orders no later access. Another agent reads the newest. -/
def seeTag (w : Who) (fx : Bool) (key : Nat) : M (BitVec 4) := fun s =>
  let t := sget s.tags (key / 32)
  match w.tid with
  | none => .ok t s
  | some tid =>
    if s.hist.any fun m => m.overlaps (tagKey key) 1 then
      let o := s.orderOf w tid
      let (b, o, s') := s.observe o [] (fun _ => none) (tagKey key) [t.setWidth 8]
      .ok ((b.headD 0).setWidth 4) (if w.copy.isNone && w.own && !fx then s'.setOrd tid o else s')
    else .ok t s

/-- Check 6 of Table 13-3: the memory tag of the granule equals the pointer tag (R285). -/
def checkTag (w : Who) (a : Access) (p : Place) : M Unit := do
  if w.tags && bitsOf p.pte 7 7 == 1 then
    let t ← seeTag w a.fx p.key
    if t != tagOf a.ptr then throw (accFault .tag (a.at_ p.log) ((tagOf a.ptr).toNat + 16 * t.toNat))

/-- Checks 4 to 6 of Table 13-3; false: the page is not resident. -/
def checkFrom4 (w : Who) (a : Access) (p : Place) : M Bool := do
  checkWatch w (a.at_ p.log)
  if pteRes p.pte then
    checkTag w a p
    pure true
  else pure false

/-- Checks 1 to 6 of Table 13-3 for an access inside one granule; none: the page is not resident. -/
def checkRes (w : Who) (a : Access) : M (Option Place) := do
  let p ← checkTo3 w a
  if ← checkFrom4 w a p then pure (some p) else pure none

/-- Checks 1 to 6 of Table 13-3, where a page that is not resident is a fault (R283). -/
def checkPlace (w : Who) (a : Access) : M Place := do
  let p ← checkTo3 w a
  if ← checkFrom4 w a p then pure p else throw (accFault .notResident (a.at_ p.log))

/-- The checks of a read, which takes MEMERR where it needs a link that is down (R325). -/
def checkRead (w : Who) (a : Access) : M Place := do
  let p ← checkPlace w a
  if ← linkNeedM p.key then throw (accFault .memErr (a.at_ p.log))
  pure p

/-- Writes bytes at a place; a write that needs a link that is down stops the partition (R325). -/
def storeM (w : Who) (key : Nat) (bs : List Byte) (view : List Nat := []) (rels : List Rel := []) : M Unit := do
  if ← linkNeedM key then modify fun s => s.stopPartition w.pid
  else writeMemM key bs view rels

/-- Reads through translation, one unit at a time, each unit inside one granule. -/
def readVirt (w : Who) (ptr : Dword) (acc unit units : Nat) (rd : Nat → Nat → M (List Byte)) : M (List Byte) :=
  match units with
  | 0 => pure []
  | u + 1 => do
    let p ← checkRead w { ptr := ptr, n := unit, rd := true, acc := acc }
    let b ← rd p.key unit
    let rest ← readVirt w (ptr + BitVec.ofNat 64 unit) acc unit u rd
    pure (b ++ rest)

/-- Pieces of a structure as an agent whose accesses are so ordered may read them: as they are now, or as they were before
the newest writes that it need not see, with those writes (R142, R205). -/
def State.observeWhole (s : State) (o : Ord) (ps : List (Nat × List Byte)) : List Byte × List Nat × State :=
  let ms := (s.hist.filter fun m => ps.any fun p => m.overlaps p.1 p.2.length).reverse.takeWhile fun m => !o.knows m.ts
  let (k, s) := s.pick (ms.length + 1)
  (ps.flatMap fun p => bytesBefore p.1 p.2 ms k, (ms.take k).map Msg.ts, s)

/-- The keys of the units that hold a structure, each checked as a plain load, and their bytes now. -/
def structUnits (w : Who) (ptr : Dword) (acc unit units : Nat) : M (List (Nat × List Byte)) :=
  match units with
  | 0 => pure []
  | u + 1 => do
    let p ← checkRead w { ptr := ptr, n := unit, rd := true, acc := acc }
    let b ← readMemM p.key unit
    let rest ← structUnits w (ptr + BitVec.ofNat 64 unit) acc unit u
    pure ((p.key, b) :: rest)

/-- Bytes that a unit reads for an accessor: for a thread, what its own reads could return, so that a fetch or a structure
read for it may still be the old one, whole (R142, R205). With the writes that it does not see. -/
def readPieces (w : Who) (ps : List (Nat × List Byte)) : M (List Byte × List Nat) := fun s =>
  match w.tid with
  | none => .ok (ps.flatMap (·.2), []) s
  | some t =>
    let (b, hid, s') := s.observeWhole (s.orderOf w t) ps
    .ok (b, hid) s'

/-- What is read for an accessor from n bytes of a context, without some writes, may be left in its cluster's caches: no
CFLUSH.CODE over those bytes came after one of those writes (R142). -/
def State.mayKeep (s : State) (w : Who) (va n : Nat) (hid : List Nat) : Bool :=
  !(s.flushes.any fun f => f.cid == w.cid && (w.cluster.any f.clusters.contains) && rangesMeet f.va f.n va n &&
    hid.any f.known.contains)

/-- Runs an agent's access, whose failure is no fault of a thread: its result, or none. -/
def tryM {α : Type} (s : State) (x : M α) : Option α × State :=
  match x s with
  | .ok a s' => (some a, s')
  | .error _ s' => (none, { s with free := s'.free, seen := s'.seen })

/-- Runs an access of an agent: where it needs a link that is down and no thread is its requester, the partition stops
(Table 14-6, R303). -/
def tryAgent {α : Type} (s : State) (w : Who) (x : M α) : Option α × State :=
  match x s with
  | .ok a s' => (some a, s')
  | .error f s' =>
    let t := { s with free := s'.free, seen := s'.seen }
    (none, if f.kind = .memErr && w.tid.isNone then t.stopPartition w.pid else t)

/-- A read of physical memory by an agent that no thread is, after the writes of a view: it may miss others (R253, R268). -/
def readAfter (view : List Nat) (key n : Nat) : M (List Byte) := do
  let cur ← readMemM key n
  fun s =>
    let (b, _, s') := s.observe { view := view } [] (fun _ => none) key cur
    .ok b s'

/-- Reads n bytes through translation for an agent, with the tag of the pointer, in 8-byte units, after the writes of a
view. -/
def State.agentRead (s : State) (w : Who) (ptr : Dword) (n : Nat) (view : List Nat) : Option (List Byte) × State :=
  tryAgent s w (readVirt w ptr 7 8 (n / 8) (readAfter view))

/-- The writes of the units of the module, of the host and of firmware that are not performed for every observer: a unit
reads what it wrote itself, and what the command or doorbell that it answers follows (log entry 3). -/
def State.agentWrites (s : State) : List Nat := (s.hist.filter Msg.agent).map Msg.ts

/-- One read by an agent that is an acquire at its instances, after the writes of a view: the bytes, and the writes that
then happen before what the agent does next (R265). -/
def acquireUnit (w : Who) (insts view : List Nat) (ptr : Dword) (n : Nat) : M (List Byte × List Nat) := do
  let p ← checkRead w { ptr := ptr, n := n, rd := true, acc := 7 }
  let cur ← readMemM p.key n
  fun s =>
    let (b, o, s') := s.observe { view := view } insts (fun _ => some insts) p.key cur
    .ok (b, joinView o.view o.must) s'

/-- Writes bytes through translation for an agent, in units of at most 16 bytes inside one granule, with what its writes
are ordered after and the releases that they carry. -/
def writeVirt (w : Who) (ptr : Dword) (acc : Nat) (unit : Nat) (bs : List Byte) (units : Nat) (view : List Nat := [])
    (rels : List Rel := []) : M Unit :=
  match units with
  | 0 => pure ()
  | u + 1 => do
    let p ← checkPlace w { ptr := ptr, n := unit, wr := true, acc := acc }
    storeM w p.key (bs.take unit) view rels
    writeVirt w (ptr + BitVec.ofNat 64 unit) acc unit (bs.drop unit) u view rels

end Sys2Proof.Machine
end

