-- ==== Sys2Proof/Machine/Fetch.lean ====
section
/-! DEFINITION. Fetch lines and the checks of an instruction fetch (R141 to R149, R159): line header, CRC, well-formed
lines, the fetch of a native PC, and the target lines of control transfers. -/

namespace Sys2Proof.Machine

/-- The pointer of a virtual address, with tag 0 (R274). -/
def ptrOf (va : VAddr) : Dword :=
  (if va.getLsbD 56 then 0xF#4 else 0#4) ++ 0#4 ++ va.extractLsb' 0 56

/-- ADDR of a fault that names a code address. -/
def addrOf (va : VAddr) : Dword := va.setWidth 64

/-! ## Lines -/

/-- Header word of a line (Table 7-1). -/
def lineHeader (b : List Byte) : Nat := field b 0 8

/-- START bit of slot s, 1 to 15 (Table 7-1). -/
def lineStart (b : List Byte) (s : Nat) : Bool := bitsOf (lineHeader b) (s - 1) (s - 1) == 1

/-- TARGET bit of slot s (Table 7-1). -/
def lineTarget (b : List Byte) (s : Nat) : Bool := bitsOf (lineHeader b) (s + 14) (s + 14) == 1

def lineEntry (b : List Byte) : Bool := bitsOf (lineHeader b) 30 30 == 1

def lineSigClass (b : List Byte) : Nat := bitsOf (lineHeader b) 39 32

/-- Register need of an entry line, in registers (R149). -/
def lineNeed (b : List Byte) : Nat := 8 * bitsOf (lineHeader b) 47 40

/-- The word of slot s. -/
def lineWord (b : List Byte) (s : Nat) : Nat := field b (8 * s) 8

/-- A long form begins in slot s. -/
def lineLong (b : List Byte) (s : Nat) : Bool := lineStart b s && bitsOf (lineWord b s) 63 63 == 1

/-- One bit of the CRC register (R148). -/
def crcBit (c : Nat) : Nat := if c ≥ 0x8000 then Nat.xor (c * 2 % 0x10000) 0x1021 else c * 2

/-- Eight bits of the CRC register. -/
def crcByte (c : Nat) : Nat :=
  let c := crcBit (crcBit (crcBit (crcBit c)))
  crcBit (crcBit (crcBit (crcBit c)))

/-- CRC-16 of bytes, most significant bit first (R148). -/
def crc16 (bs : List Byte) (c : Nat) : Nat :=
  match bs with
  | [] => c
  | b :: t => crc16 t (crcByte (Nat.xor c (b.toNat * 256)))

/-- The line's CRC field matches (R148). -/
def lineCrcOk (b : List Byte) : Bool := crc16 (b.drop 8) 0xFFFF == bitsOf (lineHeader b) 63 48

/-- The line is well formed (R145). -/
def lineOk (b : List Byte) : Bool :=
  let h := lineHeader b
  lineStart b 1 &&
  ((List.range 14).all fun i => lineStart b (i + 2) == !lineLong b (i + 1)) &&
  !lineLong b 15 &&
  ((List.range 15).all fun i => !lineTarget b (i + 1) || lineStart b (i + 1)) &&
  bitsOf h 31 31 == 0 &&
  (if lineEntry b then 1 ≤ bitsOf h 47 40 && bitsOf h 47 40 ≤ 32 else bitsOf h 47 32 == 0)

/-! ## The checks of a fetch -/

/-- The access of an instruction fetch of n bytes. -/
def fetchAcc (va : VAddr) (n : Nat) : Access :=
  { ptr := ptrOf va, n := n, fx := true, acc := 3, faddr := some (addrOf va) }

/-- Walk and permission of a fetch (R159). -/
def fetchPlace (w : Who) (va : VAddr) : M Place := checkTo3 w (fetchAcc va 1)

/-- Personality descriptor of a page (R121). -/
def pteDesc (pte : Nat) : Nat := bitsOf pte 15 10

/-- Tag checks of the granules that n bytes touch, ascending, with tag 0 (R281, R285). -/
def fetchTags (w : Who) (a : Access) (p : Place) (granules : Nat) (key : Nat) : M Unit :=
  match granules with
  | 0 => pure ()
  | g + 1 => do
    checkTag w a { p with key := key }
    fetchTags w a p g (key + 32)

/-- Watchpoint, residency and tag parts of a fetch of n bytes, over the granules of its line. -/
def fetchRest (w : Who) (va : VAddr) (n : Nat) (p : Place) : M Unit := do
  let a := (fetchAcc va n).at_ p.log
  checkWatch w a
  if !pteRes p.pte then throw (accFault .notResident a)
  if ← linkNeedM p.key then throw (accFault .memErr a)
  fetchTags w a p 4 (p.key - p.key % 128)

/-- The function of an accessor has its text key (R323). -/
def State.keyed (s : State) (w : Who) : Bool := ((aget s.hub.funcs w.fn).map Func.textKey).getD false

/-- The plain text of a line, from the bytes that memory holds, under the function's key (R141, R323). -/
def State.plainText (s : State) (w : Who) (line : VAddr) (raw : List Byte) : List Byte :=
  if w.enc then
    let key := Config.textKey (((aget s.hub.funcs w.fn).map Func.keyNo).getD 0)
    xtsDecrypt (key.map BitVec.toNat) (line.toNat / 128) raw
  else raw

/-- The address of the line that holds va. -/
def lineAddr (va : VAddr) : VAddr := va &&& ~~~(127#57)

/-- Name of a structure behind the ops of a decoded-op cache: the guest line in which their instruction begins, the
personality and the structure's address (R141). -/
def opName (line : VAddr) (pers addr : Nat) : Nat := line.toNat * 2 ^ 64 + pers * 2 ^ 57 + addr

/-- The decoded-op cache of a cluster holds no more ops than its capacity, and so the ops of no more lines (R141). -/
def State.boundOps (s : State) (cl : Nat) : State := s.boundSeen [5, 6] cl Config.decodedOps fun v => v.addr / 2 ^ 64

/-- The plain text of the line that holds va, as the instruction cache may deliver it, or the decoded-op cache the ops of
guest code: `guest` gives the address and the personality of a guest instruction (R141, R142). LINE_CRC where the text key
of the function is gone (R323). -/
def lineText (w : Who) (va : VAddr) (p : Place) (guest : Option (VAddr × Nat) := none) : M (List Byte) := do
  let key := p.key - p.key % 128
  let (raw, hid) ← readPieces w [(key, ← readMemM key 128)]
  let s ← get
  if w.enc && !s.keyed w then throw { kind := .lineCrc, acc := 3, addr := addrOf (lineAddr va) }
  let cur := s.plainText w (lineAddr va) raw
  let line := (lineAddr va).toNat
  match w.cluster with
  | none => pure cur
  | some cl =>
    let names := (0, line) :: (guest.map fun g => (5, opName (lineAddr g.1) g.2 line)).toList
    let b ← cached names cl w.cid (s.mayKeep w line 128 hid) cur
    modify fun s => (s.boundSeen [0] cl Config.codeLines Seen.addr).boundOps cl
    pure b

/-- Slot of a code address. -/
def slotOf (va : VAddr) : Nat := va.toNat / 8 % 16

/-- Checks 1 to 3 of a native PC, after the page's walk, and the line (R143, R145, R148). -/
def fetchNative (w : Who) (pc : VAddr) (p : Place) : M (List Byte) := do
  if pc.toNat % 8 ≠ 0 || slotOf pc = 0 then throw { kind := .pcAlign, acc := 3, addr := addrOf pc }
  let s ← get
  let text := s.plainText w (lineAddr pc) (s.peek (p.key - p.key % 128) 128)
  let n := if pteRes p.pte && bitsOf (lineWord text (slotOf pc)) 63 63 == 1 then 16 else 8
  fetchRest w pc n p
  let b ← lineText w pc p
  let line := addrOf (lineAddr pc)
  if !lineCrcOk b then throw { kind := .lineCrc, acc := 3, addr := line }
  if !lineOk b then throw { kind := .lineFormat, acc := 3, addr := line }
  if !lineStart b (slotOf pc) then throw { kind := .pcAlign, acc := 3, addr := addrOf pc }
  pure b

/-- The two words at a slot of a line. -/
def lineWords (b : List Byte) (slot : Nat) : Dword × Dword :=
  (BitVec.ofNat 64 (lineWord b slot), BitVec.ofNat 64 (lineWord b (slot + 1)))

/-- The read of the line of a transfer's target, with its fetch faults, at no watchpoint: the descriptor of its page and
its text (R386, R392). -/
def targetLine (w : Who) (va : VAddr) : M (Nat × List Byte) := do
  let w := w.noWatch
  let p ← fetchPlace w va
  fetchRest w va 8 p
  let b ← lineText w va p
  pure (pteDesc p.pte, b)

/-- The line is an entry address with a register need of at most `regs` (R147, R149). -/
def entryOk (va : VAddr) (pers : Nat) (b : List Byte) (regs : Nat) : Bool :=
  pers == 0 && va.toNat % 128 == 0 && lineOk b && lineEntry b && decide (lineNeed b ≤ regs)

end Sys2Proof.Machine
end

