-- ==== Sys2Proof/Machine/Operands.lean ====
section
/-! DEFINITION. The operands of each instruction: which registers it names and how wide (R154, R155), the checks 4 to 6 of
Table 7-7 that depend on the context, the role and the registers, and the values of source B, offsets and addresses. -/

namespace Sys2Proof.Machine

/-- A register operand with the role its reference entry gives it (Table 7-5). -/
inductive Opnd where
  | r (x : Reg)
  | pair (x : Reg)
  /-- Four registers of a load; 255 discards (Table 19-7). -/
  | quad (x : Reg)
  /-- Four registers of a store or of RAND: a multiple of 4. -/
  | quadS (x : Reg)
  /-- The four registers of RAND, of which the last may be vz (R463). -/
  | quadR (x : Reg)
  /-- n registers from x, none of them 255 (QNT, .cas). -/
  | many (x : Reg) (n : Nat) (align : Nat)
  | psrc (f : BitVec 8)
  | pdst (f : BitVec 8)
  | mask (x : Reg)
  | w (n : Nat)
  /-- wk and w(k + 1), k even (R463). -/
  | wpair (n : Nat)
  | emu (n : BitVec 8)
  | block (n : BitVec 8)
  | sysRd (srn : Nat)
  | sysWr (srn : Nat)
  deriving DecidableEq, Repr

/-- A register or a pair, by width. -/
def Opnd.wd (w64 : Bool) (x : Reg) : Opnd := if w64 then .pair x else .r x

/-- The register that a source B names, if it is one. -/
def opndB (w64 : Bool) (b : SrcB) : List Opnd :=
  match b with
  | .reg r => [.wd w64 r]
  | _ => []

/-- Number that a w field holds. -/
def wNum (r : Reg) : Nat := (r.code).toNat

/-- Sources of an instruction. -/
def Instr.srcs : Instr → List Opnd
  | .iadd _ ty _ _ a b | .isub _ ty _ _ a b | .imul _ ty _ _ a b => .wd ty.is64 a :: opndB ty.is64 b
  | .imulh _ ty _ a b | .imin _ ty _ a b | .imax _ ty _ a b => .wd ty.is64 a :: opndB ty.is64 b
  | .imad _ ty wide _ _ a b c => .wd ty.is64 a :: .wd (ty.is64 || wide) c :: opndB ty.is64 b
  | .iabs _ w64 _ _ a => [.wd w64 a]
  | .isetp _ ty _ _ a b => .wd ty.is64 a :: opndB ty.is64 b
  | .idp4 _ _ _ _ _ a b c => [.r a, .r b, .r c]
  | .shl _ ty _ a b | .shr _ ty _ a b => .wd ty.is64 a :: opndB false b
  | .shf _ w64 _ _ a b c => .wd w64 a :: .wd w64 c :: opndB false b
  | .logt _ w64 d a b _ => .wd w64 d :: .wd w64 a :: opndB w64 b
  | .bfe _ ty _ a b => .wd ty.is64 a :: opndB false b
  | .bfi _ w64 _ a b c => .wd w64 a :: .wd w64 c :: opndB false b
  | .popc _ w64 _ a | .clz _ w64 _ a | .brev _ w64 _ a => [.wd w64 a]
  | .pswz _ _ a b c => .r a :: .r c :: opndB false b
  | .lea _ ty _ a b _ => .pair a :: opndB ty.is64 b
  | .sel _ w64 _ a b pc => .psrc pc :: .wd w64 a :: opndB w64 b
  | .mov _ w64 _ a => [.wd w64 a]
  | .movX _ _ n => [.emu n]
  | .fadd _ _ _ _ _ a b | .fmul _ _ _ _ _ a b => .r a :: opndB false b
  | .ffma _ _ _ _ _ _ a b c => .r a :: .r c :: opndB false b
  | .fmin _ _ _ a b | .fmax _ _ _ a b => .r a :: opndB false b
  | .fsetp _ _ _ _ a b => .r a :: opndB false b
  | .frnd _ _ _ _ a | .fclass _ _ _ a => [.r a]
  | .padd _ _ _ _ _ _ a b | .pmul _ _ _ _ _ _ a b => .r a :: opndB false b
  | .pfma _ _ _ _ _ _ _ a b c => .r a :: .r c :: opndB false b
  | .pminmax _ _ _ _ _ a b => .r a :: opndB false b
  | .sfn _ _ _ _ a => [.r a]
  | .cvt _ _ sty _ _ _ a x => .wd sty.is64 a :: (match x with
      | some r => [.r r]
      | none => [])
  | .qnt _ _ _ _ a _ => [.many a 16 1]
  | .lmul _ _ a b | .ladd _ _ _ _ a b => [.r a, .r b]
  | .shfl _ _ w64 _ a b m => [.wd w64 a, .r b, .mask m]
  | .vote _ _ a m => [.psrc a, .mask m]
  | .redw _ ty op _ _ _ a b m =>
      [.wd (ty == .s64 || ty == .n64) a, .mask m] ++ (if op = .maxidx then [.r b] else [])
  | .matchOp _ w64 _ _ a m => [.wd w64 a, .mask m]
  | .elane _ _ m => [.mask m]
  | .plop3 _ _ a b c _ => [.psrc a, .psrc b, .psrc (c.setWidth 8)]
  | .pmovP2r _ _ => (List.range 15).map fun i => .psrc (BitVec.ofNat 8 i)
  | .pmovR2p _ a b => [.r a, .r b]
  | .ld _ _ _ _ _ a _ _ | .ldt _ _ _ _ _ _ a _ _ => [.pair a]
  | .ldl _ _ _ _ _ a _ => [.r a]
  | .st _ sz _ a _ b => [.pair a, if sz = .b16 then .quadS b else .wd (sz == .b8) b]
  | .stl _ sz _ a _ b => [.r a, if sz = .b16 then .quadS b else .wd (sz == .b8) b]
  | .stt _ _ _ _ _ a _ b => [.pair a, .r b]
  | .atom _ w64 _ op _ _ _ a _ b =>
      [.pair a, if op = .cas then .many b (if w64 then 4 else 2) (if w64 then 2 else 1) else .wd w64 b]
  | .red _ w64 _ _ _ a _ b => [.pair a, .wd w64 b]
  | .pref _ _ a _ | .pgreq _ a _ => [.pair a]
  | .smap _ _ a b | .cflush _ _ a b => [.pair a, .r b]
  | .sflush _ a b | .sinv _ a b => [.r a, .r b]
  | .acpy _ a | .acpyt _ a => [.r a]
  | .tagld _ _ a _ => [.pair a]
  | .tagst _ a _ b => [.pair a, .r b]
  | .bar _ _ _ _ m => [.mask m]
  | .await _ loc w64 _ _ _ a b => [.wd (!loc) a, .wd w64 b]
  | .backoffReg _ a | .rpost _ _ a => [.r a]
  | .mmap _ d a m | .mmal _ d a m | .accld _ d a m | .accst _ d a m => [.block d, .r a, .mask m]
  | .accz _ _ d m => [.block d, .mask m]
  | .brx _ a | .callx _ _ a => [.pair a]
  | .fetchw _ a => [.r a]
  | .binpush _ _ a b => [.r a, .r b]
  | .bindrain _ _ b => [.r b]
  | .launch _ _ a b => [.pair a, .r b]
  | .rdsys _ _ srn _ => [.sysRd srn.toNat]
  | .wrsys _ lo srn a => [.sysWr srn.toNat, .wd (!lo) a]
  | .setctl _ _ a => [.r a]
  | .rand _ _ k _ => [.wpair k.toNat]
  | .watch _ _ a b => [.pair a, .r b]
  | .xred _ _ _ _ _ a b _ => [.r a, .r b]
  | .wmov _ dir _ a => [match dir with
      | .toW => .pair a
      | .fromW | .wToW => .w (wNum a)
      | .lo => .r a]
  | .walu _ _ _ a b => .w a.toNat :: (match b with
      | .reg n => [.w n.toNat]
      | .imm _ => [])
  | _ => []

/-- Destinations of an instruction, those of its loads included. -/
def Instr.dsts : Instr → List Opnd
  | .iadd _ ty _ d _ _ | .isub _ ty _ d _ _ | .imul _ ty _ d _ _ => [.wd ty.is64 d]
  | .imulh _ ty d _ _ | .imin _ ty d _ _ | .imax _ ty d _ _ => [.wd ty.is64 d]
  | .imad _ ty wide _ d _ _ _ => [.wd (ty.is64 || wide) d]
  | .iabs _ w64 _ d _ => [.wd w64 d]
  | .isetp _ _ _ d _ _ | .fsetp _ _ _ d _ _ => [.pdst d]
  | .idp4 _ _ _ _ d _ _ _ => [.r d]
  | .shl _ ty d _ _ | .shr _ ty d _ _ => [.wd ty.is64 d]
  | .shf _ w64 _ d _ _ _ => [.wd w64 d]
  | .logt _ w64 d _ _ _ => [.wd w64 d]
  | .bfe _ ty d _ _ => [.wd ty.is64 d]
  | .bfi _ w64 d _ _ _ => [.wd w64 d]
  | .popc _ w64 d _ | .clz _ w64 d _ | .brev _ w64 d _ => [.wd w64 d]
  | .pswz _ d _ _ _ => [.r d]
  | .lea _ _ d _ _ _ => [.pair d]
  | .sel _ w64 d _ _ _ => [.wd w64 d]
  | .mov _ w64 d _ => [.wd w64 d]
  | .movX _ d _ => [.r d]
  | .moviShort _ ty d _ | .moviLong _ ty d _ => [.wd ty.is64 d]
  | .fadd _ _ _ _ d _ _ | .fmul _ _ _ _ d _ _ => [.r d]
  | .ffma _ _ _ _ _ d _ _ _ => [.r d]
  | .fmin _ _ d _ _ | .fmax _ _ d _ _ => [.r d]
  | .frnd _ _ _ d _ | .fclass _ _ d _ => [.r d]
  | .padd _ _ _ _ _ d _ _ | .pmul _ _ _ _ _ d _ _ => [.r d]
  | .pfma _ _ _ _ _ _ d _ _ _ => [.r d]
  | .pminmax _ _ _ _ d _ _ => [.r d]
  | .sfn _ _ _ d _ => [.r d]
  | .cvt _ dty _ _ _ d _ _ => [.wd dty.is64 d]
  | .qnt _ ty _ d _ _ => [.many d (if ty = .f4 then 3 else 5) 1]
  | .lmul _ d _ _ | .ladd _ _ _ d _ _ => [.r d]
  | .shfl _ _ w64 d _ _ _ => [.wd w64 d]
  | .vote _ form _ _ => [match form with
      | .all p | .any p | .same p => .pdst p
      | .mask d => .r d]
  | .redw _ ty op _ _ d _ _ _ => [.wd (ty == .s64 || ty == .n64 || op == .maxidx) d]
  | .matchOp _ _ _ d _ _ => [.r d]
  | .elane _ form _ => [match form with
      | .pred p => .pdst p
      | .lane d => .r d]
  | .plop3 _ d _ _ _ _ => [.pdst d]
  | .pmovP2r _ d => [.r d]
  | .ld _ sz _ _ d _ _ resid => [if sz = .b16 then .quad d else .wd (sz == .b8) d, .pdst resid]
  | .ldt _ _ _ _ _ d _ _ resid => [.r d, .pdst resid]
  | .ldl _ sz _ _ d _ _ => [if sz = .b16 then .quad d else .wd (sz == .b8) d]
  | .atom _ w64 _ _ _ _ d _ _ _ => [.wd w64 d]
  | .tagld _ d _ _ => [.r d]
  | .await _ _ w64 _ _ d _ _ => [.wd w64 d]
  | .rtake _ _ d => [.r d]
  | .launch _ d _ _ => [.r d]
  | .rdsys _ lo _ d => [.wd (!lo) d]
  | .rand _ d _ _ => [.quadR d]
  | .feat _ d => [.pair d]
  | .wmov _ dir d _ => [match dir with
      | .fromW => .pair d
      | .toW | .wToW | .lo => .w (wNum d)]
  | .walu _ _ d _ _ => [.w d.toNat]
  | _ => []

/-- System registers that RDSYS reads (Tables 7-8, 14-5 and 13-4). -/
def sysAssigned (srn : Nat) : Bool :=
  srn ≤ 0x00B || (0x100 ≤ srn && srn ≤ 0x102) || (0x200 ≤ srn && srn ≤ 0x203) || (0x300 ≤ srn && srn ≤ 0x305) ||
    (0x310 ≤ srn && srn ≤ 0x314) || (0x400 ≤ srn && srn ≤ 0x403)

/-- System registers with a field that WRSYS writes (R160). -/
def sysWritable (srn : Nat) : Bool :=
  (0x100 ≤ srn && srn ≤ 0x102) || srn == 0x201 || srn == 0x300 || srn == 0x302 || srn == 0x310 ||
    (0x400 ≤ srn && srn ≤ 0x403)

/-- A register operand is encodable for a thread with `regs` registers (Table 7-5, R155). -/
def Opnd.ok (o : Opnd) (regs : Nat) (handler watch : Bool) : Bool :=
  match o with
  | .r (.v n) => n = 255 || n.toNat < regs
  | .r (.k _) => true
  | .pair (.v n) => n = 255 || (n.toNat % 2 = 0 && n.toNat ≤ 252 && n.toNat + 1 < regs)
  | .pair (.k n) => n.toNat % 2 = 0
  | .quad (.v n) => n = 255 || (n.toNat % 4 = 0 && n.toNat + 3 < regs && n.toNat + 3 < 255)
  | .quad (.k n) => n.toNat % 4 = 0
  | .quadS (.v n) => n.toNat % 4 = 0 && n.toNat + 3 < regs && n.toNat + 3 < 255
  | .quadS (.k n) => n.toNat % 4 = 0
  | .quadR (.v n) => n.toNat % 4 = 0 && n.toNat + 3 < regs
  | .quadR (.k n) => n.toNat % 4 = 0
  | .many (.v n) c al => n.toNat % al = 0 && n.toNat + c ≤ regs && n.toNat + c ≤ 255
  | .many (.k n) c al => n.toNat % al = 0 && n.toNat + c ≤ 8
  | .psrc f => f.toNat < 32
  | .pdst f => f.toNat < 16
  | .mask (.v n) => n = 255 || n.toNat < regs
  | .mask (.k _) => true
  | .w n => n < 64
  | .wpair n => n % 2 = 0 && n ≤ 62
  | .emu n => n.toNat < 16 && handler
  | .block n => n.toNat < 64
  | .sysRd n => sysAssigned n && (watch || n < 0x400)
  | .sysWr n => sysWritable n && (watch || n < 0x400)

/-- Registers of an operand, as hazards and pending entries name them. -/
def Opnd.keys (o : Opnd) : List RegKey :=
  let gen := fun (x : Reg) (n : Nat) =>
    if x = .v 255 then [] else (List.range n).map fun i => RegKey.r (regPlus x i)
  match o with
  | .r x => gen x 1
  | .pair x => gen x 2
  | .quad x | .quadS x => gen x 4
  | .quadR x => (gen x 4).filter (· != .r (.v 255))
  | .many x n _ => gen x n
  | .psrc f | .pdst f => if f.extractLsb' 0 4 = 15 then [] else [.p (f.extractLsb' 0 4).toNat]
  | .mask x => gen x 1
  | .w n => [.w n]
  | .wpair n => [.w n, .w (n + 1)]
  | .emu _ | .block _ | .sysRd _ | .sysWr _ => []

/-- The header of an instruction; of an event, one that is unguarded. -/
def Instr.hdr : Instr → Hdr
  | .iadd h .. | .isub h .. | .imul h .. | .imulh h .. | .imad h .. | .imin h .. | .imax h .. | .iabs h ..
  | .isetp h .. | .idp4 h .. | .shl h .. | .shr h .. | .shf h .. | .logt h .. | .bfe h .. | .bfi h ..
  | .popc h .. | .clz h .. | .brev h .. | .pswz h .. | .lea h .. | .sel h .. | .mov h .. | .movX h ..
  | .moviShort h .. | .moviLong h .. | .fadd h .. | .fmul h .. | .ffma h .. | .fmin h .. | .fmax h ..
  | .fsetp h .. | .frnd h .. | .fclass h .. | .padd h .. | .pmul h .. | .pfma h .. | .pminmax h .. | .sfn h ..
  | .cvt h .. | .qnt h .. | .lmul h .. | .ladd h .. | .shfl h .. | .vote h .. | .redw h .. | .matchOp h ..
  | .elane h .. | .plop3 h .. | .pmovP2r h .. | .pmovR2p h .. | .ld h .. | .ldt h .. | .ldl h .. | .st h ..
  | .stl h .. | .stt h .. | .atom h .. | .red h .. | .pref h .. | .pgreq h .. | .smap h .. | .sflush h ..
  | .sinv h .. | .cflush h .. | .acpy h .. | .acpyt h .. | .tagld h .. | .tagst h .. | .waitc h .. | .fence h ..
  | .bar h .. | .barGrp h .. | .await h .. | .yieldOp h .. | .backoffImm h .. | .backoffReg h .. | .rpost h ..
  | .rtake h .. | .mmap h .. | .mmal h .. | .accz h .. | .accld h .. | .accst h .. | .braRel h .. | .braLong h ..
  | .brx h .. | .callRel h .. | .callLong h .. | .callx h .. | .ret h .. | .exit h .. | .skip h .. | .nop h ..
  | .trap h .. | .bpt h .. | .fetchw h .. | .binpush h .. | .bindrain h .. | .launch h .. | .rdsys h ..
  | .wrsys h .. | .setctl h .. | .rand h .. | .feat h .. | .watch h .. | .gret h .. | .tret h .. | .pdone h ..
  | .xred h .. | .wmov h .. | .walu h .. => h
  | _ => { guard := 15, ginv := false, stall := 0, yld := false }

/-- The predicate of a guard, as a source. -/
def Hdr.keys (h : Hdr) : List RegKey := if h.guard = 15 then [] else [.p h.guard.toNat]

/-- Registers that an op reads, the record of a BINPUSH among them (R99). -/
def Instr.srcKeys (i : Instr) : List RegKey :=
  (Instr.srcs i).flatMap Opnd.keys ++ (match i with
    | .binpush _ sz a _ => (List.range (4 * (sz.toNat + 1))).map fun k => .r (regPlus a k)
    | _ => [])

/-- Registers that an op writes; PMOV.r2p writes the predicates that vB selects (R456). -/
def Instr.dstKeys (i : Instr) (t : Thread) : List RegKey :=
  match i with
  | .pmovR2p _ _ b => ((List.range 15).filter fun n => (t.rd b).getLsbD n).map RegKey.p
  | _ => (Instr.dsts i).flatMap Opnd.keys

/-- Latency of a fixed-latency op; 0 for every other (Table 3-2). -/
def Instr.latency : Instr → Nat
  | .mov .. | .movX .. | .moviShort .. | .moviLong .. | .sel .. | .pmovP2r .. | .pmovR2p .. | .plop3 .. | .wmov ..
  | .walu .. => 2
  | .iadd .. | .isub .. | .imin .. | .imax .. | .iabs .. | .isetp .. | .shl .. | .shr .. | .shf .. | .logt ..
  | .bfe .. | .bfi .. | .popc .. | .clz .. | .brev .. | .pswz .. | .lea .. | .fsetp .. | .fmin .. | .fmax ..
  | .fclass .. => 4
  | .imul .. | .imulh .. | .imad .. | .idp4 .. | .fadd .. | .fmul .. | .ffma .. | .frnd .. | .padd .. | .pmul ..
  | .pfma .. | .pminmax .. | .cvt .. | .qnt .. | .lmul .. | .ladd .. => 6
  | _ => 0

/-- Operations of class LDC: their destinations are written when they retire (Table 11-1). -/
def Instr.isLdc : Instr → Bool
  | .ld .. | .ldt .. | .ldl .. | .tagld .. => true
  | .atom _ _ _ _ _ _ d _ _ _ => d != .v 255
  | _ => false

/-- The instruction is a matrix instruction (R216). -/
def Instr.isMatrix : Instr → Bool
  | .mmap .. | .mmal .. | .accz .. | .accld .. | .accst .. => true
  | _ => false

/-- The instruction is a convergence point (R54). -/
def Instr.isConv : Instr → Bool
  | .shfl .. | .vote .. | .redw .. | .matchOp .. | .elane .. => true
  | i => Instr.isMatrix i

/-- Features that the instruction needs, by bit number (Table 8-5a). -/
def Instr.features : Instr → List Nat
  | .mmap .. | .accz .. | .accld .. | .accst .. | .acpyt .. => [1]
  | .mmal .. => [1, 2]
  | .lmul .. | .ladd .. => [2]
  | .fclass _ ty _ _ => if ty = .l6 then [2] else []
  | .cvt _ dty sty _ _ _ _ _ => if dty = .l6 ∨ sty = .l6 then [2] else []
  | .qnt _ ty _ _ _ _ => if ty = .l6 then [2] else []
  | .binpush .. | .bindrain .. => [4]
  | .tagld .. | .tagst .. => [6]
  | .watch .. => [7]
  | .smap .. | .sflush .. | .sinv .. => [8]
  | _ => []

/-- The role of the warp allows the instruction (R30). -/
def Instr.roleOk (i : Instr) (role : Nat) : Bool :=
  match i with
  | .acpy .. | .acpyt .. => role == 0 || role == 2
  | _ => !Instr.isMatrix i || role == 1

/-- A fault of checks 4 to 7, which report the op's PC (R159). -/
def pcFault (k : FaultKind) (pc : VAddr) : FaultInfo := { kind := k, addr := addrOf pc }

/-- The instruction must not stand in a SKIP shadow (R62). -/
def Instr.noShadow : Instr → Bool
  | .braRel .. | .braLong .. | .brx .. | .callRel .. | .callLong .. | .callx .. | .ret .. | .exit .. | .skip ..
  | .trap .. | .bpt .. | .gret .. | .tret .. => true
  | _ => false

/-- Checks 4 (feature part), 5 and 6 of Table 7-7, and the bar of R62. R62 does not say where its fault stands among the
checks, nor names its ADDR: here it follows check 6 and ADDR is the op's PC (DESIGN CHOICE, log entry 40). -/
def preCheck (e : Env) (i : Instr) : Option FaultInfo :=
  if (Instr.features i).any fun b => !e.ctx.has b then some (pcFault .illegalInstruction e.th.pc)
  else if !Instr.roleOk i e.w.role then some (pcFault .role e.th.pc)
  else if ((Instr.srcs i) ++ (Instr.dsts i)).any fun o => !o.ok e.c.regs e.th.handler (e.ctx.has 7) then
    some (pcFault .illegalOperand e.th.pc)
  else if Instr.noShadow i && e.th.shadow.isSome then some (pcFault .illegalInstruction e.th.pc)
  else none

/-! ## Operand values -/

/-- Source B of an integer op, as the bits of its type (R156, R157). -/
def Thread.srcB (t : Thread) (ty : IntTy) (b : SrcB) : Dword :=
  match b with
  | .reg r => t.rdW ty.is64 r
  | .imm v => if ty.signed then v.signExtend 64 else v.setWidth 64
  | .long v => v

/-- Source B that is a single register whatever the type: shift amounts and control words (R377, R487). -/
def Thread.srcB32 (t : Thread) (ty : IntTy) (b : SrcB) : Dword :=
  match b with
  | .reg r => (t.rd r).setWidth 64
  | .imm v => if ty.signed then (if ty.is64 then v.signExtend 64 else (v.signExtend 32).setWidth 64) else v.setWidth 64
  | .long v => v

/-- Source B of the ops whose B is a 32-bit register. -/
def Thread.srcW (t : Thread) (b : SrcB) : Word :=
  match b with
  | .reg r => t.rd r
  | .imm v => v.setWidth 32
  | .long v => v.setWidth 32

/-- Source B by width, without an immediate. -/
def Thread.srcW64 (t : Thread) (w64 : Bool) (b : SrcB) : Dword :=
  match b with
  | .reg r => t.rdW w64 r
  | .imm v => v.setWidth 64
  | .long v => v

/-- Bytes of an access size (Table 19-7). -/
def mBytes : MSize → Nat
  | .b1 => 1 | .b2 => 2 | .b4 => 4 | .b8 => 8 | .b16 => 16

/-- The byte offset of a memory operand in units of `unit` (R434). -/
def offBytes (o : MemOff) (unit : Nat) : Dword :=
  match o with
  | .short v => v.signExtend 64 * BitVec.ofNat 64 unit
  | .long v => v.signExtend 64

/-- The global pointer of a memory operand (R434). -/
def Thread.gptr (t : Thread) (a : Reg) (o : MemOff) (unit : Nat) : Dword := t.rd64 a + offBytes o unit

/-- The local address of a memory operand (R434). -/
def Thread.lptr (t : Thread) (a : Reg) (o : MemOff) (unit : Nat) : Word := t.rd a + (offBytes o unit).setWidth 32

end Sys2Proof.Machine
end

