-- ==== Sys2Proof/Machine/Ops.lean ====
section
/-! DEFINITION. The shared operations of thread instructions: taking a fault and returning from a handler (R291 to
R300), passing to the next op with its hazards and shadow (R57 to R62), and the frame in which every instruction of a
thread executes (R159, R347). -/

namespace Sys2Proof.Machine

/-! ## Values substituted for one op -/

/-- Writes a register by its name. -/
def Thread.setKey (t : Thread) (k : RegKey) (v : Dword) : Thread :=
  match k with
  | .r x => t.wr x (v.setWidth 32)
  | .p n => t.setP n (v.getLsbD 0)
  | .w _ => t

/-- Gives the registers that were substituted for one op their own values again, but for those that the op wrote. -/
def Thread.restore (t : Thread) (written : List RegKey) : Thread :=
  { t.keep.foldl (fun t k => if written.contains k.1 then t else t.setKey k.1 k.2) t with keep := [], lose := [], win := [] }

/-- The thread without any substitution. -/
def Thread.unkeep (t : Thread) : Thread := t.restore []

/-! ## Expansions (R132, R133) -/

/-- The register is a temporary of an expansion. -/
def RegKey.isTemp : RegKey → Bool
  | .r (.k _) => true
  | _ => false

/-- Temporaries end with their expansion: data that return later go nowhere (R128). -/
def Thread.dropTemps (t : Thread) : Thread :=
  { t with
    out := t.out.map fun o => { o with dests := o.dests.filter fun d => !(RegKey.r d.1).isTemp }
    pend := t.pend.filter fun p => !p.key.isTemp
    hazards := t.hazards.filter fun h => !h.key.isTemp }

/-- The end of an expansion: its buffered stores commit. -/
def Thread.endExp (t : Thread) : Thread :=
  match t.exp with
  | none => t
  | some x => { t.dropTemps with commits := t.commits ++ x.stores, exp := none }

/-- A rollback discards the expansion: no register, predicate, flag or memory location that it would change is changed,
and an op of it that stood in a SKIP shadow keeps its place there (R61, R133). -/
def Thread.rollback (t : Thread) : Thread :=
  match t.exp with
  | none => t
  | some x =>
    { (x.undo.foldl (fun t k => t.setKey k.1 k.2) t).dropTemps with flags := x.flags0, shadow := x.shadow0, exp := none }

/-- The thread leaves its op without an effect. -/
def Thread.abandon (t : Thread) : Thread := t.unkeep.rollback

/-- Data of an earlier operation that land while an expansion runs: a rollback keeps them. -/
def Thread.lateData (t : Thread) (ks : List (RegKey × Dword)) : Thread :=
  { t with exp := t.exp.map fun x => { x with undo := x.undo.map fun u => (u.1, ((ks.find? fun k => k.1 == u.1).map (·.2)).getD u.2) } }

/-- Flags of an operation that ends apart from the thread's ops: a rollback keeps them. -/
def Thread.lateFlags (t : Thread) (f : BitVec 7) : Thread :=
  { t.orFlags f with exp := t.exp.map fun x => { x with flags0 := x.flags0 ||| f } }

/-- A byte under a buffered store of it. -/
def BufStore.merge (b : Byte) (w : BufStore) (key : Nat) : Byte :=
  if w.key ≤ key && key < w.key + w.bytes.length then
    w.bytes.getD (key - w.key) 0
  else b

/-- Bytes read at a place as an expansion sees them: the latest buffered store of each byte wins (R132). -/
def overlay (ws : List BufStore) (scratch : Bool) (key : Nat) (bs : List Byte) : List Byte :=
  bs.zipIdx.map fun b => ws.foldl (fun v w => if w.scratch = scratch then BufStore.merge v w (key + b.2) else v) b.1

/-- The buffered stores of a thread's expansion. -/
def Env.buffered (e : Env) : List BufStore := (e.th.exp.map Exp.stores).getD []

/-! ## Faults -/

/-- Codes of Table 13-6. -/
def FaultKind.code : FaultKind → Nat
  | .illegalInstruction => 0x01 | .illegalOperand => 0x02 | .role => 0x03 | .stallCount => 0x04 | .pcAlign => 0x05
  | .lineCrc => 0x06 | .lineFormat => 0x07 | .branchTarget => 0x08 | .sigClass => 0x09 | .regNeed => 0x0A
  | .callstack => 0x0B | .lsRange => 0x0C | .addrForm => 0x10 | .unmapped => 0x11 | .ptFormat => 0x12 | .perm => 0x13
  | .notResident => 0x14 | .tag => 0x15 | .watch => 0x16 | .format => 0x17 | .scope => 0x18 | .memErr => 0x19
  | .persPte => 0x20 | .persUnloaded => 0x21 | .persTable => 0x22 | .persStraddle => 0x23 | .illegalGuest => 0x24
  | .emuNested => 0x25 | .binSpill => 0x28 | .binClosed => 0x29

/-- Kinds that park a thread (Table 13-6). -/
def FaultKind.parks : FaultKind → Bool
  | .unmapped | .perm | .notResident | .watch | .binSpill => true
  | _ => false

/-- Kinds raised by an access, whose records are shared by page (R289). -/
def FaultKind.isAccess : FaultKind → Bool
  | .addrForm | .unmapped | .ptFormat | .perm | .notResident | .tag | .watch | .format | .memErr => true
  | _ => false

/-- A fault of an op's own checks that involves no access: ADDR is 0 (R289). -/
def opFault (k : FaultKind) : FaultInfo := { kind := k }

/-- The virtual address in ADDR: that of a fetch or of a MEMERR stands there as it is, else a pointer's (R274, R302). -/
def FaultInfo.va (f : FaultInfo) : VAddr := if f.kind = .memErr ∨ f.acc = 3 then f.addr.setWidth 57 else vaOf f.addr

/-- What records are shared by: the mapping page of an access, else ADDR (R289). -/
def FaultInfo.place (f : FaultInfo) : Nat :=
  if f.kind.isAccess then f.page.getD (f.va.toNat / 2 ^ 16 * 2 ^ 16) else f.addr.toNat

/-- Two records to be posted are one: same warp, kind, PC, page and cycle (R289). -/
def Post.same (a b : Post) : Bool :=
  a.warp == b.warp && a.kind == b.kind && a.pc == b.pc && a.page == b.page && a.bundle == b.bundle &&
    a.parked == b.parked && a.copy.isNone && b.copy.isNone

/-- Merges a record with one of its warp; LANE, ADDR, LOGID and INFO are those of the lowest lane (R289). -/
def Post.merge (a b : Post) : Post :=
  let lo := if a.lane ≤ b.lane then a else b
  { lo with lanes := a.lanes ||| b.lanes, tids := a.tids ++ b.tids }

/-- Adds a record to the posts that wait. -/
def addPost (ps : List Post) (p : Post) : List Post :=
  if ps.any fun q => q.same p then ps.map fun q => if q.same p then q.merge p else q else ps ++ [p]

/-- The record of a thread's fault. -/
def State.postOf (s : State) (e : Env) (f : FaultInfo) (parked : Bool) : Post :=
  let f := match e.th.exp with
    | some x => if f.opIdx = 0 then { f with opIdx := x.idx } else f
    | none => f
  { kind := f.kind, info := f, parked := parked, pers := e.pers, lane := e.lane, pc := e.th.pc,
    lanes := BitVec.ofNat 32 (2 ^ e.lane), logid := e.logId, tids := if parked then [e.tid] else [], warp := e.warp,
    bundle := s.bundle, page := f.place }

/-- Puts a record on its context's list of posts; a stopped context posts no more (R294). -/
def State.queuePost (s : State) (cid : Nat) (p : Post) : State :=
  s.modCtx cid fun c => if c.stopped then c else { c with posts := addPost c.posts p }

/-- SYS_TRAPCAUSE without TF (Table 14-5). -/
def trapCauseOf (kind code acc : Nat) (copy : Bool) : Dword :=
  BitVec.ofNat 64 (kind + 256 * code + 2 ^ 16 * acc + (if copy then 2 ^ 19 else 0))

/-- The user handler's line can be entered (R296). -/
def State.handlerOk (s : State) (e : Env) : Bool × State :=
  match tryM s (targetLine e.who e.th.trapVec) with
  | (some (pers, b), s') => (entryOk e.th.trapVec pers b e.c.regs, s')
  | (none, s') => (false, s')

/-- Entry of the user handler: saved PC and next PC, cause, TF, and the PC at slot 1 of the handler's line
(R297, R146). -/
def Thread.enterHandler (t : Thread) (next : VAddr) (cause addr info : Dword) : Thread :=
  { t.abandon with
    trapPc := t.pc, trapNext := next, trapCause := cause, tf := true, trapAddr := addr, trapInfo := info
    pc := t.trapVec + 8, status := .ready, granted := false, emuEntry := false }

/-- A thread takes a fault (R291): a kind that parks parks it and posts a record, but for the fault of a copy, which its
WAITC or EXIT takes precisely (R248); else the user handler takes it where
R296 allows; else the record is posted, and the answer is that the launch ends (R47). A violation freezes the core
(R341). `long`: the op is a long form. -/
def State.raise (s : State) (e : Env) (long : Bool) (f : FaultInfo) : State × Bool :=
  if f.frozen then (s.freezeCore e.core, false)
  else if f.kind.parks && !f.copy then
    ((s.modThread e.tid fun t => { t.abandon with status := .posting true, wpSuppress := false, granted := false }).queuePost e.cid
      (s.postOf e f true), false)
  else
    let (ok, s') := if e.th.trapVec ≠ 0 && !e.th.tf && f.kind ≠ .memErr && f.kind ≠ .binClosed && !f.unhandled then
        s.handlerOk e
      else (false, s)
    if ok then
      let next := if f.copy then e.th.pc else e.seqNext long
      (s'.modThread e.tid fun t =>
        { t.enterHandler next (trapCauseOf f.kind.code f.cause f.acc f.copy) f.addr f.info with wpSuppress := false },
       false)
    else (s'.queuePost e.cid (s'.postOf e f false), true)

/-- A launch ends by a fault: at once, or once the threads of the bundle that issues have performed their ops, which the
fault does not affect (R47, R51). -/
def State.endByFault (s : State) (lid : Nat) : State :=
  if s.issue.isEmpty then s.endLaunch lid stFault else { s with ending := s.ending ++ [(lid, stFault)] }

/-- A thread whose launch ends runs no further op. -/
def Thread.halt (t : Thread) : Thread := { t.abandon with status := .posting true, wpSuppress := false, granted := false }

/-- A thread takes a fault, with the end of its launch where nothing resolves it (R47). -/
def State.takeFault (s : State) (e : Env) (long : Bool) (f : FaultInfo) : State :=
  match s.raise e long f with
  | (s', true) => (s'.modThread e.tid Thread.halt).endByFault e.c.launch
  | (s', false) => s'

/-- Several threads of one launch take a fault in one step. -/
def State.faultAll (s : State) (es : List Env) (long : Bool) (f : FaultInfo) : State :=
  let (s', ends) := es.foldl (fun (acc : State × Bool) e =>
    let (t, x) := acc.1.raise e long f
    (t, acc.2 || x)) (s, false)
  match es with
  | e :: _ => if ends then (es.foldl (fun s e => s.modThread e.tid Thread.halt) s').endByFault e.c.launch else s'
  | [] => s'

/-- Keeps the draws and the cached versions of a computation that had no other effect. -/
def State.keepDraws (s s' : State) : State := { s with free := s'.free, seen := s'.seen }

/-! ## Passing to the next op -/

/-- Value of a general register or a predicate. -/
def Thread.keyVal (t : Thread) (k : RegKey) : Dword :=
  match k with
  | .r x => (t.rd x).setWidth 64
  | .p n => if t.p n then 1 else 0
  | .w _ => 0

/-- Value of a register in a list of names and values. -/
def keyIn (ks : List (RegKey × Dword)) (k : RegKey) : Option Dword := (ks.find? fun x => x.1 == k).map (·.2)

/-- Value of a register before an op; that of a w register before the op's bundle, whose writes are one (R163). -/
def Env.keyVal (e : Env) (k : RegKey) : Dword :=
  match k with
  | .w n => e.w.rd e.bundle n
  | _ => e.th.unkeep.keyVal k

/-- The hazards after an op: every distance falls by 1 + stall, and a fixed-latency op that executed adds its
destinations, with what a reader may get besides the register's value (R57 to R59). Guest code has none (R131). -/
def hazardsAfter (e : Env) (i : Instr) (dests : List (RegKey × Dword)) : List Hazard :=
  let gap := 1 + (Instr.hdr i).stall.toNat
  let old := (e.th.hazards.map fun h => { h with left := h.left - gap }).filter fun h => h.left > 0
  if e.pers = 0 && gap < Instr.latency i then
    old ++ dests.map fun k => { key := k.1, old := k.2, left := Instr.latency i - gap, pc := e.th.pc }
  else old

/-- The thread's op stands in a template of two or more ops, where loads complete at their op (R132). -/
def Env.multiOp (e : Env) : Bool :=
  match e.th.exp with
  | some x => 1 < x.ops.length
  | none => false

/-- The SKIP shadow after an op that stood in it (R61). -/
def shadowAfter (sh : Option (Nat × Bool)) : Option (Nat × Bool) :=
  match sh with
  | none => none
  | some (n, g) => if n ≤ 1 then none else some (n - 1, g)

/-- Removes destinations from operations whose data have not returned. -/
def OutOp.drop (ks : List RegKey) (o : OutOp) : OutOp :=
  if o.returned then o
  else { o with dests := o.dests.filter fun d => !ks.contains (.r d.1), preds := o.preds.filter fun d => !ks.contains (.p d.1) }

/-- The end of an op for the registers of its thread: substituted registers have their own values again, and where an
earlier result was in flight to a destination, the one that stands stands, and a later read of a pending register gives
that or what is to return (R59, R231). Answers the destinations with what
a reader may get besides the value. `ldc`: the op's own results are still to return. -/
def Thread.settle (t : Thread) (e : Env) (keys : List RegKey) (ldc : Bool) : Thread × List (RegKey × Dword) :=
  let lost := e.th.lose.filter fun k => keys.contains k.1
  let others := fun (os : List OutOp) => os.map (OutOp.drop e.th.win)
  let swapped := t.lose
  let t := t.restore (if ldc then [] else keys)
  if ldc then
    ({ t with out := others t.out.dropLast ++ (t.out.drop (t.out.length - 1)).map (OutOp.drop (lost.map (·.1))) }, [])
  else
    let alt := fun k => match keyIn lost k with
      | none => e.keyVal k
      | some _ => match k with
        | .w _ => (keyIn swapped k).getD 0
        | _ => t.keyVal k
    let t := lost.foldl (fun t k => t.setKey k.1 k.2) { t with out := others t.out }
    let raced := e.th.win ++ lost.map (·.1)
    ({ t with pend := t.pend.map fun p => if raced.contains p.key then { p with old := t.keyVal p.key } else p },
      keys.map fun k => (k, alt k))

/-- A thread passes its op: in an expansion to the next op, where a grant and the suppression of watchpoints go on, else to
the PC given or to the next in sequential flow. -/
def Thread.pass (t : Thread) (e : Env) (i : Instr) (active : Bool) (pc : Option VAddr) : Thread :=
  let ldc := active && Instr.isLdc i && !e.multiOp
  let (t, dests) := t.settle e (if active then Instr.dstKeys i e.th else []) ldc
  let t := { t with
    hazards := hazardsAfter e i dests
    shadow := if e.th.shadow.isSome then shadowAfter e.th.shadow else t.shadow }
  let ended := { t with wpSuppress := false, granted := false }
  match pc, t.exp with
  | some pc, _ => { ended.endExp with pc := pc }
  | none, some x =>
    if x.idx + 1 < x.ops.length then { t with exp := some { x with idx := x.idx + 1 } }
    else { ended.endExp with pc := e.seqNext (Instr.isLong i) }
  | none, none => { ended with pc := e.seqNext (Instr.isLong i) }

/-- How an op of a thread ends, where it raises no fault. -/
inductive Flow where
  /-- It is done; the thread passes to the next op. -/
  | done
  /-- It transferred control. -/
  | goto (pc : VAddr)
  /-- It waits or the state says where the thread stands; the PC is unchanged. -/
  | stay
  deriving DecidableEq, Repr

/-- The frame of every instruction of a thread: the executing thread, checks 4 to 6, the guard and the shadow. -/
def guarded (i : Instr) (s : State) (act : Env → State) : Host.Outcome State Fault Refusal :=
  match s.env with
  | none => .refused .noThread
  | some e =>
    match preCheck e i with
    | some f => .next (s.takeFault e (Instr.isLong i) f)
    | none =>
      if e.th.active (Instr.hdr i) then .next (act e)
      else .next (s.setThread e.tid (e.th.pass e i false none))

/-- An op that changes the executing thread's registers, predicates and flags only. -/
def aluOp (i : Instr) (s : State) (f : Env → Thread) : Host.Outcome State Fault Refusal :=
  guarded i s fun e => s.setThread e.tid ((f e).pass e i true none)

/-- The end of an op of a thread: its flow, or its fault with no effect. -/
def endOp (i : Instr) (s : State) (e : Env) (r : EStateM.Result FaultInfo State Flow) : State :=
  match r with
  | .ok .done s' => s'.modThread e.tid fun t => t.pass e i true none
  | .ok (.goto pc) s' => s'.modThread e.tid fun t => t.pass e i true (some pc)
  | .ok .stay s' => s'
  | .error f s' => (s.keepDraws s').takeFault e (Instr.isLong i) f

/-- An op of a thread that acts on the whole state or can fault. -/
def threadOp (i : Instr) (s : State) (body : Env → M Flow) : Host.Outcome State Fault Refusal :=
  guarded i s fun e => endOp i s e (body e s)

/-- Changes the executing thread. -/
def modTh (e : Env) (f : Thread → Thread) : M Unit := fun s => .ok () (s.modThread e.tid f)

/-- The executing thread as it stands. -/
def getTh (e : Env) : M Thread := fun s => .ok ((aget s.threads e.tid).getD e.th) s

/-- The op is a token op that the token has not performed yet, in a deterministic launch (R314). -/
def Env.needsToken (e : Env) : Bool := e.det && !e.th.granted

/-- The thread stands at a token op, in the state "waiting in AWAIT" (R314). -/
def tokenStop (e : Env) (need : TokenNeed) : M Flow := do
  modTh e fun t => { t with status := .token need }
  pure .stay

/-! ## Events -/

/-- An event that changes the state, which has no effect where it is not enabled. -/
def event (s : State) : Host.Outcome State Fault Refusal := .next s

/-! ## User traps and returns -/

/-- TRAP and BPT: a user trap, or ILLEGAL_INSTRUCTION with ADDR = the op's PC (R298). A handler line that cannot be
entered leaves the trap unresolved (R296). -/
def userTrap (e : Env) (i : Instr) (kind code : Nat) : M Flow := fun s =>
  if e.th.trapVec = 0 || e.th.tf then .error (pcFault .illegalInstruction e.th.pc) s
  else
    match s.handlerOk e with
    | (true, s') => .ok .stay (s'.modThread e.tid fun t =>
        { t.enterHandler (e.seqNext (Instr.isLong i)) (trapCauseOf kind code 0 false) 0 0 with
          hazards := hazardsAfter e i [], wpSuppress := false })
    | (false, s') => .error { pcFault .illegalInstruction e.th.pc with unhandled := true } s'

/-- TRET: continues at SYS_TRAPNEXT with TF clear and the trap registers 0 (R299). -/
def Thread.leaveHandler (t : Thread) : Thread :=
  { t with tf := false, trapPc := 0, trapNext := 0, trapCause := 0, trapAddr := 0, trapInfo := 0 }

/-- GRET: leaves handler state; the emulation registers read 0 (R138, R421). -/
def Thread.leaveEmu (t : Thread) : Thread :=
  { t with handler := false, emuPc := 0, emuNext := 0, emuWord := 0, emuInfo := 0, x := [] }

/-! ## Scopes -/

/-- The scope that an op is treated as naming: .domain is .device without the feature DOMAIN (R255). -/
def Ctx.named (ctx : Ctx) (sc : Scope) : Scope := if sc = .domain && !ctx.has 10 then .device else sc

/-- A scope is above the context's ceiling (R273). -/
def Ctx.clamps (ctx : Ctx) (sc : Scope) : Bool := decide (ctx.con.ceil < Scope.rank (ctx.named sc))

/-- The scope at which an op is performed in the context, and whether it was clamped; a SCOPE fault under SCOPE_TRAP
(R255, R273). -/
def clampScope (e : Env) (sc : Scope) : M (Scope × Bool) :=
  if !e.ctx.clamps sc then pure (e.ctx.named sc, false)
  else if e.ctx.con.scopeTrap then throw (opFault .scope)
  else pure (e.ctx.named (if e.ctx.con.ceil = 4 then .sect else if e.ctx.con.ceil = 5 then .device else .domain), true)

/-- SCOPE_CLAMP (Table 7-10). -/
def flagClamp : BitVec 7 := 0x40#7

/-- The ceiling applied to an optional acquire or release: its scope, and whether SCOPE_CLAMP is set. -/
def clampOpt (e : Env) (sc : Option Scope) : M (Option Scope × Bool) :=
  match sc with
  | none => pure (none, false)
  | some sc => do
    let (x, c) ← clampScope e sc
    pure (some x, c)

/-- Sets SCOPE_CLAMP in the executing thread where the op was clamped. -/
def setClamp (e : Env) (c : Bool) : M Unit := if c then modTh e fun t => t.orFlags flagClamp else pure ()

/-! ## Completion counters -/

/-- Operations of a class, oldest first. -/
def Thread.ofClass (t : Thread) (c : CtrClass) : List OutOp := t.out.filter fun o => o.cls == c

/-- Operations of a class that have not retired: they retire in issue order (R233). -/
def Thread.unretired (t : Thread) (c : CtrClass) : List OutOp := (t.ofClass c).dropWhile fun o => o.returned

/-- Number of outstanding operations of a class (R233). -/
def Thread.outstanding (t : Thread) (c : CtrClass) : Nat := (t.unretired c).length

/-- The operations that a WAITC with count n covers: all of its class but the n newest (R234). -/
def Thread.covered (t : Thread) (c : CtrClass) (n : Nat) : List OutOp :=
  (t.ofClass c).take ((t.ofClass c).length - n)

/-- A WAITC covers operations: they are listed no more, their registers are no longer pending, and their writes happen
before the thread's next op (R231, R234, R270). -/
def Thread.cover (t : Thread) (c : CtrClass) (n : Nat) : Thread :=
  let ids := (t.covered c n).map OutOp.id
  { t with
    out := t.out.filter fun o => !ids.contains o.id, pend := t.pend.filter fun p => !ids.contains p.id
    ord := (t.covered c n).foldl (fun o x => o.join x.wrote) t.ord }

/-- Operations that have retired (R233). -/
def Thread.retired (t : Thread) : List Nat :=
  [CtrClass.ldc, .cpy, .mxe, .col].flatMap fun c => ((t.ofClass c).takeWhile fun o => o.returned).map OutOp.id

/-- Operations set their flags when they retire (R249). -/
def Thread.retire (t : Thread) : Thread :=
  let ids := t.retired
  let f := t.out.foldl (fun f o => if ids.contains o.id then f ||| o.flags else f) (0 : BitVec 7)
  { t.lateFlags f with out := t.out.map fun o => if ids.contains o.id then { o with flags := 0 } else o }

/-- The work of an operation is done; it retires once every older one of its class has too. -/
def Thread.finish (t : Thread) (id : Nat) (fault : Option FaultInfo) (flags : BitVec 7 := 0) (wrote : List Nat := []) : Thread :=
  Thread.retire { t with out := t.out.map fun o =>
    if o.id = id then { o with returned := true, fault := fault, flags := flags, wrote := wrote } else o }

/-- The writes of scratchpads among some. -/
def State.spWrites (s : State) (ts : List Nat) : List Nat :=
  ts.filter fun x => s.hist.any fun m => m.ts == x && decide (spKey 0 0 ≤ m.key)

/-- A copy has retired: the LDLs and STLs of its cohort that come after it follow what it wrote to the scratchpad, and the
STLs what it read there (R251). -/
def State.settleCopy (s : State) (c : Copy) : State :=
  let wrote := s.spWrites c.wrote
  let met := s.spWrites c.met
  let add := fun (o : Ord) => { o with must := joinView o.must wrote, after := joinView o.after met }
  if wrote.isEmpty && met.isEmpty then s
  else
    { s with threads := s.threads.map fun e =>
        if cohOf e.1 = c.coh then (e.1, { e.2 with ord := add e.2.ord }) else e }

/-- Copies that have retired hold their range-scoreboard entries no more (R251). -/
def State.reap (s : State) (tid : Nat) : State :=
  let ids := ((aget s.threads tid).map Thread.retired).getD []
  let gone := s.copies.filter fun c => c.2.landed && ids.contains c.1
  gone.foldl (fun s c => s.settleCopy c.2) { s with copies := s.copies.filter fun c => !(c.2.landed && ids.contains c.1) }

/-- Adds an operation; its registers are pending until a WAITC covers it (R231, R232). In a multi-op template a load
completes at once and none is added. -/
def Thread.addOut (t : Thread) (e : Env) (o : OutOp) : Thread :=
  let u := t.unkeep
  let pends := (o.dests.filter fun d => d.1 ≠ .v 255).map fun d =>
      ({ key := .r d.1, old := (u.rd d.1).setWidth 64, new := d.2.setWidth 64, cls := o.cls, id := o.id, pc := e.th.pc } : Pend)
  let ppends := (o.preds.filter fun d => d.1 < 15).map fun d =>
      ({ key := .p d.1, old := if u.p d.1 then 1 else 0, new := if d.2 then 1 else 0, cls := o.cls, id := o.id,
         pc := e.th.pc } : Pend)
  { t with out := t.out ++ [o], pend := t.pend ++ pends ++ ppends }

/-- Writes the destinations of an operation. -/
def Thread.writeDests (t : Thread) (o : OutOp) : Thread :=
  o.preds.foldl (fun t d => t.setP d.1 d.2) (o.dests.foldl (fun t d => t.wr d.1 d.2) t)

/-- Capacity of 32 outstanding operations of a class (R233). -/
def Thread.hasRoom (t : Thread) (c : CtrClass) : Bool := t.outstanding c < Config.maxOutstanding

end Sys2Proof.Machine
end

