-- ==== Sys2Proof/Machine/Formats.lean ====
section
/-! DEFINITION. Format descriptors, and the elements that LDT, STT and the converting copies read and write (R200 to
R205, R534). -/

namespace Sys2Proof.Machine

/-- The format of a TYPE code from 8 to 14. -/
def fmtOfCode : Nat → Option Fmt
  | 8 => some .f32 | 9 => some .f16 | 10 => some .bf16 | 11 => some .f8e4 | 12 => some .f8e5 | 13 => some .f4
  | 14 => some .l6 | _ => none

/-- The descriptor in 32 bytes, if it is valid (R201); without the feature LNS, FMT 14 is not (R178). -/
def descOf (lns : Bool) (b : List Byte) : Option Desc :=
  let w := field b 0 8
  let blk := bitsOf w 5 4
  let side := bitsOf w 7 6
  let dbase : Dword := BitVec.ofNat 64 (field b 8 8)
  let sbase : Dword := BitVec.ofNat 64 (field b 16 8)
  match fmtOfCode (bitsOf w 3 0) with
  | none => none
  | some f =>
    if bitsOf w 63 63 == 1 && (f != .l6 || lns) && side < 2 && ((blk == 0) == (side == 0)) && (blk == 0 || 11 ≤ bitsOf w 3 0) &&
        (bitsOf w 31 16 == 0 || f == .f4) && bitsOf w 62 32 == 0 && field b 24 8 == 0 &&
        (if side = 1 then dbase.toNat % 64 == 0 && sbase.toNat % 64 == 0 && ptrOk dbase && ptrOk sbase
         else dbase == 0 && sbase == 0) then
      some { fmt := f, blk := if blk = 0 then 0 else 8 * 2 ^ blk, side := side == 1, texp := sextInt 8 (bitsOf w 15 8),
             xv := bitsOf w 31 16, dbase := dbase, sbase := sbase }
    else none

/-- A pointer with tag 0 (R205). -/
def untag (p : Dword) : Dword := p &&& ~~~(0xF#64 <<< 56)

/-- Descriptor number d of a context, through its caches; none: not valid, or its bytes cannot be read (R200, R205);
an uncorrectable error is MEMERR (Table 14-6). -/
def readDesc (w : Who) (ctx : Ctx) (d : Nat) : M (Option Desc) := do
  if d = 0 || ctx.con.fmttab = 0 then pure none
  else
    let lns := ctx.has 2
    let ptr := untag (ctx.con.fmttab + BitVec.ofNat 64 (32 * d))
    let s ← get
    let one : M (List Byte × List Nat) := do readPieces w (← structUnits w.noWatch ptr 0 32 1)
    match one s with
    | .error f s' =>
      set { s with free := s'.free, seen := s'.seen }
      if f.kind = .memErr then throw f else pure none
    | .ok (b, hid) s' =>
      set s'
      match w.cluster with
      | none => pure (descOf lns b)
      | some cl =>
        let b ← cached [(2, (vaOf ptr).toNat)] cl w.cid (s.mayKeep w (vaOf ptr).toNat 32 hid) b
        pure (descOf lns b)

/-- Bytes of an element of a format that is not F4 (R434). -/
def Fmt.bytes : Fmt → Nat
  | .f32 => 4 | .f16 | .bf16 => 2 | _ => 1

/-- The descriptor that an element access reads, or the fault of that read, which is raised where its check stands. -/
def descFor (w : Who) (ctx : Ctx) (d : Nat) : M (Except FaultInfo (Option Desc)) := fun s =>
  match readDesc w ctx d s with
  | .ok x s' => .ok (.ok x) s'
  | .error f s' => .ok (.error f) { s with free := s'.free, seen := s'.seen }

/-- The descriptor of an element access, or FORMAT (R201). -/
def formatCheck (dr : Except FaultInfo (Option Desc)) (a : Access) : M Desc :=
  match dr with
  | .error f => throw f
  | .ok none => throw (accFault .format a)
  | .ok (some d) => if d.side && (vaOf a.ptr).toNat < (vaOf d.dbase).toNat then throw (accFault .format a) else pure d

/-- The descriptor that an element access at a needs, or FORMAT (R201). -/
def elemDesc (w : Who) (ctx : Ctx) (p : Place) (a : Access) : M Desc := do
  formatCheck (← descFor w ctx (pteDesc p.pte)) (a.at_ p.log)

/-- Bytes of one block of elements (R202). -/
def Desc.blockBytes (d : Desc) : Nat := if d.fmt = .f4 then d.blk / 2 else d.blk

/-- The pointer of the scale byte of the element at a, with SBASE's tag (R202). -/
def Desc.scalePtr (d : Desc) (a : Dword) : Dword :=
  let off := ((vaOf a).toNat - (vaOf d.dbase).toNat) / d.blockBytes
  let va := vaOf d.sbase + BitVec.ofNat 57 off
  ptrOf va ||| ((tagOf d.sbase).setWidth 64 <<< 56)

/-- The scale byte of an element and the access that read it, or why it cannot be read: its page is not resident, or it
needs a link that is down. -/
inductive ScaleRead where
  | here (sc : Nat) (src : List Access)
  | absent (a : Access)
  | down (a : Access)
  deriving DecidableEq, Repr

/-- The read of the scale byte of the element at a, in its order: 127 without a side array (R202, R203). -/
def readScale (w : Who) (d : Desc) (a : Dword) (acc : Nat) (buf : List BufStore := [])
    (rd : Nat → Nat → M (List Byte) := readMemM) : M ScaleRead := do
  if !d.side then pure (.here 127 [])
  else
    let x : Access := { ptr := d.scalePtr a, n := 1, rd := true, acc := acc }
    let p ← checkTo3 w x
    let x := x.at_ p.log
    if ← checkFrom4 w x p then
      if ← linkNeedM p.key then pure (.down x)
      else
        let b ← rd p.key 1
        pure (.here (leNat (overlay buf false p.key b)) [x])
    else pure (.absent x)

/-- The scale byte, where a failing read is a fault of the access that needs it. -/
def ScaleRead.get (r : ScaleRead) : M Nat :=
  match r with
  | .here sc _ => pure sc
  | .absent a => throw (accFault .notResident a)
  | .down a => throw (accFault .memErr a)

/-- The decoded value of a code under a scale byte (R203). Under scale byte 0xFF every code reads as a quiet NaN, so that
a signalling NaN's code sets no NV (DEDUCED from R189, where R193 would set it: log entry 19). -/
def Desc.decode (d : Desc) (code e : Nat) : Val :=
  if e = 255 then .nan false else (d.fmt.val code d.xv).shift ((e : Int) - 127 + d.texp)

/-- The code of a value under a scale byte, with its flags (R204); a signalling NaN sets NV under every scale (R193). -/
def Desc.encode (d : Desc) (rnd : Rnd) (v : Val) (e : Nat) : FRes :=
  if e = 255 then roundTo d.fmt .rn (.nan v.isSig) d.xv
  else roundTo d.fmt rnd (v.shift (127 - (e : Int) - d.texp)) d.xv

/-- The element code in the bytes that hold it; `hi` selects the upper half of a byte of F4 (R435). -/
def Desc.codeIn (d : Desc) (b : List Byte) (hi : Bool) : Nat :=
  if d.fmt = .f4 then (if hi then leNat b / 16 % 16 else leNat b % 16) else leNat b

/-- The bytes after writing an element code among those that held it (R497). -/
def Desc.codeOut (d : Desc) (old : List Byte) (hi : Bool) (code : Nat) : List Byte :=
  if d.fmt = .f4 then
    let o := leNat old
    leBytes 1 (if hi then code * 16 + o % 16 else o / 16 * 16 + code % 16)
  else leBytes d.fmt.bytes code

end Sys2Proof.Machine
end

