-- ==== Sys2Proof/Machine/Pers.lean ====
section
/-! DEFINITION. Decode personalities (R117 to R130, R139): the personality store's structures, guest fetch, the match
plane, templates with their substitutions, and the decoding of one guest instruction. -/

namespace Sys2Proof.Machine

/-! ## The personality store -/

/-- PERS_TABLE with the address of the failing structure (Table 6-9). -/
def persBad (ptr : Dword) : FaultInfo := { kind := .persTable, addr := ptr }

/-- Reads the units of structures of a personality, 8-byte aligned, from memory: plain data, at no watchpoint (R118). A
structure that cannot be read is PERS_TABLE, but for an uncorrectable error (R130, Table 14-6). -/
def persUnits (w : Who) (ptr : Dword) (n : Nat) : M (List (Nat × List Byte)) := fun s =>
  match structUnits w.noWatch (untag ptr) 7 8 (n / 8) s with
  | .error f s' => .error (if f.kind = .memErr then f else persBad ptr) s'
  | .ok b s' => .ok b s'

/-- A guest instruction that is decoded: its accessor, its address and its personality. -/
structure Guest where
  w : Who
  pc : VAddr
  p : Nat
  deriving DecidableEq, Repr

/-- The bytes of a structure of a guest instruction's personality as the store may hold them, or the decoded-op cache what
was decoded from them (R141, R142). The store holds the structures of at most 16 personalities (Table 1-3). -/
def persCached (g : Guest) (ptr : Dword) (b : List Byte) (hid : List Nat) : M (List Byte) := do
  match g.w.cluster with
  | none => pure b
  | some cl =>
    let va := (vaOf ptr).toNat
    let s ← get
    let b ← cached [(1, g.p * 2 ^ 57 + va), (6, opName (lineAddr g.pc) g.p va)] cl g.w.cid (s.mayKeep g.w va b.length hid) b
    modify fun s => (s.boundSeen [1] cl Config.persSlots fun v => v.addr / 2 ^ 57).boundOps cl
    pure b

/-- Reads a structure of a personality through the store (R118, R142). -/
def persRead (g : Guest) (ptr : Dword) (n : Nat) : M (List Byte) := do
  let (b, hid) ← readPieces g.w (← persUnits g.w ptr n)
  persCached g ptr b hid

/-- A loaded personality (Table 6-2). -/
structure PersHdr where
  p : Nat
  table : Dword
  lenmode : Nat
  bigend : Bool
  /-- The length pattern of LENMODE 3. -/
  lenpat : Nat
  gregs : Nat
  nbase : Nat
  /-- Register stride, 1 to 8. -/
  stride : Nat
  zreg : Option Nat
  npat : Nat
  nmatch : Nat
  emuh : Dword
  patoff : Nat
  matoff : Nat
  tploff : Nat
  tplsize : Nat
  nomatchEmu : Bool
  nocross : Bool
  deriving DecidableEq, Repr

/-- A field pattern is valid (R123). -/
def patOk (x : Nat) : Bool :=
  let w := fun s => bitsOf x (12 * s + 11) (12 * s + 6)
  let lo := fun s => bitsOf x (12 * s + 5) (12 * s)
  decide (1 ≤ w 0) && ([0, 1, 2].all fun s => decide (w s ≤ 32) && (w s == 0 || decide (lo s + w s ≤ 64))) &&
    decide (w 0 + w 1 + w 2 ≤ 32) && !(w 1 == 0 && w 2 != 0) && bitsOf x 63 58 == 0

/-- The value that a field pattern extracts from a guest word (R123). -/
def patField (word x : Nat) : Word :=
  let (v, w) := [0, 1, 2].foldl (fun (acc : Nat × Nat) s =>
    let lo := bitsOf x (12 * s + 5) (12 * s)
    let w := bitsOf x (12 * s + 11) (12 * s + 6)
    if w = 0 then acc else (acc.1 * 2 ^ w + word / 2 ^ lo % 2 ^ w, acc.2 + w)) (0, 0)
  let n : Int := if bitsOf x 36 36 = 1 then sextInt w v else v
  BitVec.ofInt 32 (n * 2 ^ bitsOf x 41 37 + sextInt 16 (bitsOf x 57 42))

/-- Highest native register that the map reaches, the one that maps to vz not counted; none where it reaches none
(R120). -/
def mapTop (gregs nbase stride : Nat) (zreg : Option Nat) : Option Nat :=
  let top := if zreg = some (gregs - 1) then gregs - 1 else gregs
  if top = 0 then none else some (nbase + (top - 1) * stride)

def PersHdr.top (h : PersHdr) : Option Nat := mapTop h.gregs h.nbase h.stride h.zreg

/-- The header in 64 bytes, with the checks of R119 and R120 on it. -/
def hdrOf (p : Nat) (table : Dword) (size : Nat) (b : List Byte) : Option PersHdr :=
  let w4 := field b 4 4
  let w8 := field b 8 4
  let wC := field b 12 4
  let w28 := field b 0x28 4
  let lenmode := bitsOf w4 1 0
  let lenpat := bitsOf w4 7 3
  let gregs := bitsOf w8 8 0
  let nbase := bitsOf w8 16 9
  let stride := bitsOf w8 19 17 + 1
  let zreg := if bitsOf w8 28 28 = 1 then some (bitsOf w8 27 20) else none
  let npat := bitsOf wC 5 0
  let nmatch := bitsOf wC 16 6
  let patoff := field b 0x18 4
  let matoff := field b 0x1C 4
  let tploff := field b 0x20 4
  let tplsize := field b 0x24 4
  if field b 0 4 == 1 && bitsOf w4 31 8 == 0 && (if lenmode = 3 then decide (lenpat < npat) else lenpat == 0) &&
      decide (1 ≤ gregs) && decide (gregs ≤ 256) && decide (nbase ≤ 254) && bitsOf w8 31 29 == 0 &&
      decide (npat ≤ 32) && decide (nmatch ≤ 1024) && bitsOf wC 31 17 == 0 && field b 0x10 8 % 128 == 0 &&
      patoff % 8 == 0 && matoff % 32 == 0 && tploff % 16 == 0 && decide (tplsize ≤ 2 ^ 20) && bitsOf w28 31 2 == 0 &&
      field b 0x2C 20 == 0 && decide (patoff + 8 * npat ≤ size) && decide (matoff + 32 * nmatch ≤ size) &&
      decide (tploff + tplsize ≤ size) && (match mapTop gregs nbase stride zreg with
        | none => true
        | some t => decide (t ≤ 254)) then
    some { p := p, table := table, lenmode := lenmode, bigend := bitsOf w4 2 2 == 1, lenpat := lenpat, gregs := gregs,
           nbase := nbase, stride := stride, zreg := zreg, npat := npat, nmatch := nmatch,
           emuh := BitVec.ofNat 64 (field b 0x10 8), patoff := patoff, matoff := matoff, tploff := tploff,
           tplsize := tplsize, nomatchEmu := bitsOf w28 0 0 == 1, nocross := bitsOf w28 1 1 == 1 }
  else none

/-- An address inside the table. -/
def tableAt (table : Dword) (o : Nat) : Dword := table + BitVec.ofNat 64 o

/-- Pattern f of a personality, which must be valid (R123, R130). -/
def readPattern (g : Guest) (table : Dword) (patoff f : Nat) : M Nat := do
  let ptr := tableAt table (patoff + 8 * f)
  let x := leNat (← persRead g ptr 8)
  if patOk x then pure x else throw (persBad ptr)

/-- The header of the personality of a guest instruction, 2 to 15 (R117, R119, R178). -/
def persHeader (g : Guest) (ctx : Ctx) : M PersHdr := do
  let p := g.p
  let unloaded : FaultInfo := { kind := .persUnloaded, addr := addrOf g.pc }
  if !ctx.has 3 || ctx.con.persdir = 0 then throw unloaded
  let ent ← persRead g (tableAt ctx.con.persdir (16 * p)) 16
  if bitsOf (field ent 12 4) 0 0 = 0 then throw unloaded
  let table : Dword := BitVec.ofNat 64 (field ent 0 8)
  let size := field ent 8 3
  if table.toNat % 64 ≠ 0 || size < 64 then throw (persBad table)
  match hdrOf p table size (← persRead g table 64) with
  | none => throw (persBad table)
  | some h =>
    if h.lenmode = 3 then
      let x := leNat (← persRead g (tableAt table (h.patoff + 8 * h.lenpat)) 8)
      if !patOk x then throw (persBad table)
      pure { h with lenpat := x }
    else pure h

/-- Alignment of guest addresses (R121). -/
def PersHdr.align (h : PersHdr) : Nat := if h.lenmode = 1 then 4 else if h.lenmode = 2 then 8 else 2

/-! ## Guest fetch (R121, R122) -/

/-- The n bytes of a guest instruction at an address, n at most 16, whose page's leaf was found; the second line or page
that it reaches into is fetched as well. `first`: the text of its first line, where it has been fetched: one line is
fetched once (R142). -/
def guestBytes (w : Who) (pers : Nat) (nocross : Bool) (pc : VAddr) (p : Place) (n : Nat)
    (first : Option (List Byte) := none) : M (List Byte) := do
  let o := pc.toNat % 128
  let room := 128 - o
  let text := match first with
    | some b => pure b
    | none => lineText w pc p (some (pc, pers))
  if n ≤ room then
    fetchRest w pc n p
    let b ← text
    pure ((b.drop o).take n)
  else
    let q := pc + BitVec.ofNat 57 room
    let same := pc.toNat / 2 ^ p.log = q.toNat / 2 ^ p.log
    if !same && nocross then throw { kind := .pcAlign, acc := 3, addr := addrOf pc }
    let p2 ← if same then pure { p with key := p.key + room } else fetchPlace w q
    if pteDesc p2.pte ≠ pers then throw { kind := .persStraddle, acc := 3, addr := addrOf pc }
    fetchRest w pc room p
    fetchRest w q (n - room) p2
    let b ← text
    let c ← lineText w q p2 (some (pc, pers))
    pure (b.drop o ++ c.take (n - room))

/-- The text of the first line of a guest instruction, of whose bytes the first n lie in it. -/
def guestLine (w : Who) (pers : Nat) (pc : VAddr) (p : Place) (n : Nat) : M (List Byte) := do
  fetchRest w pc n p
  lineText w pc p (some (pc, pers))

/-- The number that guest bytes hold, in the byte order of the personality (R122). -/
def guestNat (bigend : Bool) (b : List Byte) : Nat := if bigend then leNat b.reverse else leNat b

/-- ILLEGAL_GUEST, whose ADDR is the guest word (Table 6-9). -/
def illegalGuest (word : Nat) (op : Nat := 0) : FaultInfo :=
  { kind := .illegalGuest, addr := BitVec.ofNat 64 word, opIdx := op }

/-- The guest word at an address and its length in bytes (R122). For a length value above 3 there is no guest word: ADDR
holds the parcel (log entry 36). -/
def guestWord (e : Env) (h : PersHdr) (pc : VAddr) (p : Place) : M (Nat × Nat) := do
  if h.lenmode < 3 then
    let n := 2 ^ (h.lenmode + 1)
    pure (guestNat h.bigend (← guestBytes e.who h.p h.nocross pc p n), n)
  else
    let b ← guestLine e.who h.p pc p 2
    let parcel := guestNat h.bigend ((b.drop (pc.toNat % 128)).take 2)
    let v := (patField parcel h.lenpat).toNat
    if 3 < v then throw (illegalGuest parcel)
    let n := 2 * (v + 1)
    pure (guestNat h.bigend (← guestBytes e.who h.p h.nocross pc p n (some b)), n)

/-! ## Match plane (R124, R125) -/

/-- The matching entry of a guest word from entry k on: its number, PSET and TPL. -/
def findEntry (g : Guest) (h : PersHdr) (word k n : Nat) : M (Option (Nat × Nat × Nat)) :=
  match n with
  | 0 => pure none
  | n + 1 => do
    let ptr := tableAt h.table (h.matoff + 32 * k)
    let b ← persRead g ptr 32
    let mask := field b 0 8
    let value := field b 8 8
    if field b 0x16 2 ≠ 0 || field b 0x18 8 ≠ 0 || Nat.land value mask ≠ value then throw (persBad ptr)
    if Nat.land word mask = value then pure (some (k, field b 0x10 4, field b 0x14 2))
    else findEntry g h word (k + 1) n

/-- Pattern numbers that PSET names, ascending. -/
def psetList (pset : Nat) : List Nat := (List.range 32).filter fun i => bitsOf pset i i == 1

/-- The slots of an entry (R125). -/
def readSlots (g : Guest) (h : PersHdr) (word : Nat) (fs : List Nat) : M (List Word) :=
  match fs with
  | [] => pure []
  | f :: t => do
    let x ← readPattern g h.table h.patoff f
    let rest ← readSlots g h word t
    pure (patField word x :: rest)

/-! ## Templates (R126 to R130) -/

/-- Width of a substitution position (Table 6-6). -/
def posWidth (pos : Nat) : Nat := if pos < 4 then 8 else if pos = 4 then 5 else 32

/-- Lowest bit of a position in WORD0. -/
def posBit (pos : Nat) : Nat := if pos = 0 then 19 else if pos = 1 then 27 else if pos = 2 then 35 else if pos = 3 then 43 else 10

/-- The value that a descriptor places; none: ILLEGAL_GUEST (Table 6-7). -/
def substValue (h : PersHdr) (kind pos : Nat) (slot : Word) : Option Nat :=
  let w := posWidth pos
  let v := slot.toNat
  if kind = 0 then some (v % 2 ^ w)
  else if kind = 1 then
    if h.gregs ≤ v then none else if h.zreg = some v then some 255 else some (h.nbase + v * h.stride)
  else if kind = 2 then
    if -(2 ^ (w - 1) : Int) ≤ slot.toInt && slot.toInt ≤ 2 ^ (w - 1) - 1 then some (v % 2 ^ w) else none
  else if v < 2 ^ w then some v else none

/-- Replaces bits of a number. -/
def putBits (x lo w v : Nat) : Nat := x - x / 2 ^ lo % 2 ^ w * 2 ^ lo + v % 2 ^ w * 2 ^ lo

/-- The descriptors of an OPCTL. -/
def opctlDescs (ctl : Nat) : List Nat := (List.range (bitsOf ctl 4 2)).map fun k => bitsOf ctl (12 * k + 19) (12 * k + 8)

/-- Applies descriptors to the two words of an op; none: ILLEGAL_GUEST (R127). -/
def applyDescs (h : PersHdr) (slots : List Word) (ds : List Nat) (w0 w1 : Nat) : Option (Nat × Nat) :=
  match ds with
  | [] => some (w0, w1)
  | d :: t =>
    let pos := bitsOf d 2 0
    match substValue h (bitsOf d 8 7) pos (slots.getD (bitsOf d 6 3) 0) with
    | none => none
    | some v =>
      if pos < 5 then applyDescs h slots t (putBits w0 (posBit pos) (posWidth pos) v) w1
      else applyDescs h slots t w0 (putBits w1 (32 * (pos - 5)) 32 v)

/-- Opcodes that may stand in a template of two or more ops; the control transfers only as the last (Table 6-8). -/
def multiOpcode (opc : Nat) (last : Bool) : Bool :=
  (0x001 ≤ opc && opc ≤ 0x018) || (0x040 ≤ opc && opc ≤ 0x047) || (0x050 ≤ opc && opc ≤ 0x053) || opc == 0x058 ||
    (0x060 ≤ opc && opc ≤ 0x063) || opc == 0x090 || opc == 0x091 || (0x0C0 ≤ opc && opc ≤ 0x0C5) || opc == 0x0C8 ||
    opc == 0x187 || (last && ((0x180 ≤ opc && opc ≤ 0x185) || opc == 0x188 || opc == 0x189))

/-- Opcodes that no template may hold: SKIP, GRET, TRET, PDONE (R129). -/
def barredOpcode (opc : Nat) : Bool := opc == 0x186 || opc == 0x206 || opc == 0x207 || opc == 0x208

/-- ST, STL and STT. -/
def storeOpcode (opc : Nat) : Bool := opc == 0x0C1 || opc == 0x0C3 || opc == 0x0C5

/-- An op slot: WORD0, WORD1, OPCTL. -/
abbrev OpSlot := Nat × Nat × Nat

/-- A descriptor is valid in an op (R127, R129). -/
def descValid (d : Nat) (long : Bool) (slots : Nat) : Bool :=
  let pos := bitsOf d 2 0
  bitsOf d 11 9 == 0 && pos != 7 && (bitsOf d 8 7 != 1 || decide (pos ≤ 2)) && (decide (pos < 5) || long) &&
    decide (bitsOf d 6 3 < slots)

/-- An assigned opcode (R158), as far as templates ask: an unassigned one is ILLEGAL_GUEST and breaks no rule here. -/
def assignedOpcode (opc : Nat) : Bool :=
  (parse {} { Fields.unpack 0 with opc := BitVec.ofNat 10 opc } 0).isSome

/-- Op slot i of n meets R126 to R129. -/
def opSlotOk (slots n i : Nat) (o : OpSlot) : Bool :=
  let (w0, w1, ctl) := o
  let long := bitsOf ctl 1 1 == 1
  let opc := bitsOf w0 9 0
  (bitsOf ctl 0 0 == 1) == decide (i + 1 = n) && decide (bitsOf ctl 4 2 ≤ 4) && bitsOf ctl 7 5 == 0 &&
    bitsOf ctl 63 56 == 0 && bitsOf w0 17 15 == 0 && (bitsOf w0 63 63 == 1) == long && (long || w1 == 0) &&
    !barredOpcode opc && (n == 1 || !assignedOpcode opc || multiOpcode opc (i + 1 == n)) &&
    (opctlDescs ctl).all fun d => descValid d long slots

/-- The op slots in template bytes. -/
def opSlots (b : List Byte) (n : Nat) : List OpSlot :=
  (List.range n).map fun i => (field b (24 * i) 8, field b (24 * i + 8) 8, field b (24 * i + 16) 8)

/-- The op of a slot: its descriptors applied and its words decoded; register numbers that stand literally may name
temporaries (R127, R128). -/
def templateOp (h : PersHdr) (slots : List Word) (o : OpSlot) : Option Instr :=
  let ds := opctlDescs o.2.2
  let lit := fun pos => !(ds.any fun d => bitsOf d 2 0 == pos)
  match applyDescs h slots ds o.1 o.2.1 with
  | none => none
  | some (w0, w1) =>
    decode { dst := lit 0, sa := lit 1, sb := lit 2, sc := lit 3 } (BitVec.ofNat 64 w0) (BitVec.ofNat 64 w1)

/-- The first failing op of a template raises ILLEGAL_GUEST: with its index where a substitution fails, with 0 where the
op fails check 4 (Table 6-9). -/
def templateOps (h : PersHdr) (slots : List Word) (word i : Nat) (os : List OpSlot) : M (List Instr) :=
  match os with
  | [] => pure []
  | o :: t =>
    match templateOp h slots o with
    | none => throw (illegalGuest word (if (applyDescs h slots (opctlDescs o.2.2) o.1 o.2.1).isNone then i else 0))
    | some op => do
      let rest ← templateOps h slots word (i + 1) t
      pure (op :: rest)

/-- Registers that an op can write, whatever its operands hold: PMOV.r2p every predicate, unless vz selects them (R456). -/
def Instr.mayWrite : Instr → List RegKey
  | .pmovR2p _ _ b => if b = .v 255 then [] else (List.range 15).map RegKey.p
  | i => (Instr.dsts i).flatMap Opnd.keys

/-- Architectural registers among some, each once. -/
def archOnly (ks : List RegKey) : List RegKey :=
  (ks.filter fun k => match k with
    | .r (.k _) => false
    | _ => true).eraseDups

/-- Architectural registers that ops can write. -/
def mayWrites (ops : List Instr) : List RegKey := archOnly (ops.flatMap Instr.mayWrite)

/-- Architectural registers that ops write (R129): after substitution, a register that two ops write once, and of PMOV.r2p
the predicates that vB selects as the thread's registers stand (R456; log entry 36). -/
def archWrites (t : Thread) (ops : List Instr) : List RegKey := archOnly (ops.flatMap fun i => Instr.dstKeys i t)

/-- The op slots of a template by its first 8 bytes, where they are in order and the template ends within TPLSIZE
(R126). -/
def templateCount (h : PersHdr) (tpl w : Nat) : Option Nat :=
  if 8 ≤ w || h.tplsize < 16 * tpl + 8 + 24 * (w + 1) then none else some (w + 1)

/-- The bytes of a template: all of it, or its first 8 bytes where those are not in order (R126); with the writes that the
read does not see. -/
def templateBytes (g : Guest) (h : PersHdr) (tpl : Nat) (ptr : Dword) : M (List Byte × List Nat) := do
  let a ← persUnits g.w ptr 8
  let now := a.flatMap (·.2)
  let rest ← match templateCount h tpl (leNat now) with
    | none => pure []
    | some n => persUnits g.w (ptr + 8) (24 * n)
  let (b, hid) ← readPieces g.w (a ++ rest)
  match templateCount h tpl (field b 0 8) with
  | none => pure (b, hid)
  | some n => pure (if b.length < 8 + 24 * n then ((a ++ rest).flatMap (·.2), []) else (b, hid))

/-- The ops of template `tpl` with an entry's slots; the store holds a template as one structure (R142). -/
def readTemplate (g : Guest) (t : Thread) (h : PersHdr) (slots : List Word) (word tpl : Nat) : M (List Instr) := do
  let ptr := tableAt h.table (h.tploff + 16 * tpl)
  if h.tplsize < 16 * tpl + 8 then throw (persBad ptr)
  let (b, hid) ← templateBytes g h tpl ptr
  let b ← persCached g ptr b hid
  match templateCount h tpl (field b 0 8) with
  | none => throw (persBad ptr)
  | some n =>
    let os := opSlots (b.drop 8) n
    if !(os.zipIdx.all fun x => opSlotOk slots.length n x.2 x.1) ||
        2 < (os.filter fun o => storeOpcode (bitsOf o.1 9 0)).length then throw (persBad ptr)
    let ops ← templateOps h slots word 0 os
    if 4 < (archWrites t ops).length then throw (persBad ptr)
    pure ops

/-! ## Decoding one guest instruction -/

/-- What a guest instruction decodes to. -/
inductive GuestDec where
  /-- An expansion: the length in bytes and the ops. -/
  | ops (len : Nat) (ops : List Instr)
  /-- An emulation trap (R136): entry, slots, NOMATCH, length in bytes, guest word, EMUH. -/
  | emu (entry : Nat) (slots : List Word) (noMatch : Bool) (len word : Nat) (emuh : Dword)
  deriving DecidableEq, Repr

/-- A guest instruction of personality 2 to 15. -/
def decodeTable (e : Env) (pers : Nat) (pc : VAddr) (p : Place) : M GuestDec := do
  let g : Guest := { w := e.who, pc := pc, p := pers }
  let h ← persHeader g e.ctx
  if pc.toNat % h.align ≠ 0 then throw { kind := .pcAlign, acc := 3, addr := addrOf pc }
  let (word, len) ← guestWord e h pc p
  match ← findEntry g h word 0 h.nmatch with
  | none =>
    if h.nomatchEmu && h.emuh ≠ 0 then pure (.emu 0 [] true len word h.emuh) else throw (illegalGuest word)
  | some (k, pset, tpl) =>
    let fs := psetList pset
    if 16 < fs.length || fs.any (fun f => h.npat ≤ f) then throw (persBad (tableAt h.table (h.matoff + 32 * k)))
    let slots ← readSlots g h word fs
    if tpl = 0xFFFF then
      if h.emuh = 0 then throw (illegalGuest word)
      pure (.emu k slots false len word h.emuh)
    else
      let ops ← readTemplate g e.th h slots word tpl
      pure (.ops len ops)

/-- A guest instruction of personality 1 (R139). -/
def decodePortable (e : Env) (pc : VAddr) (p : Place) : M GuestDec := do
  if pc.toNat % 8 ≠ 0 then throw { kind := .pcAlign, acc := 3, addr := addrOf pc }
  let b ← guestLine e.who 1 pc p 8
  let w0 := leNat ((b.drop (pc.toNat % 128)).take 8)
  let long := bitsOf w0 63 63 = 1
  let w1 ← if long then do
      let c ← guestBytes e.who 1 false pc p 16 (some b)
      pure (field c 8 8)
    else pure 0
  if bitsOf w0 17 15 ≠ 0 then throw (illegalGuest w0)
  match decode {} (BitVec.ofNat 64 w0) (BitVec.ofNat 64 w1) with
  | none => throw (illegalGuest w0)
  | some i => pure (.ops (if long then 16 else 8) [i])

/-- Fetch and decoding of the guest instruction at a PC whose page's leaf names personality 1 to 15 (R121, R139). -/
def decodeGuest (e : Env) (pers : Nat) (pc : VAddr) (p : Place) : M GuestDec :=
  if pers = 1 then decodePortable e pc p else decodeTable e pers pc p

end Sys2Proof.Machine
end

