-- ==== Sys2Proof/Machine/Groups.lean ====
section
/-! DEFINITION. Named barriers and group barriers (R37, R370 to R376): arrivals, completion, the group table's members,
and the barriers of a cohort after a thread of it has exited. -/

namespace Sys2Proof.Machine

/-! ## Members of a group (R34 to R36) -/

/-- Multiples of a stride above lo in [lo, min hi ext). -/
def axisCount (lo hi stride ext : Nat) : Nat := ceilDiv (min hi ext - lo) stride

/-- Extents of a launch's coordinates in the four dimensions; a persistent cohort n has coordinate (n, 0, 0, 0). -/
def LaunchRec.box (r : LaunchRec) : List Nat :=
  if r.persist then [r.ncoh, 1, 1, 1] else (List.range 4).map fun d => if d < r.nd then r.ext.getD d 1 else 1

/-- Member count of a group entry over a box of coordinates (R36). -/
def GroupEnt.count (g : GroupEnt) (box : List Nat) : Nat :=
  (List.range 4).foldl (fun n d => n * axisCount (g.lo.getD d 0) (g.hi.getD d 0) (g.stride.getD d 1) (box.getD d 1)) 1

/-- A coordinate is a member of a group (R35). -/
def GroupEnt.has (g : GroupEnt) (coord : List Nat) : Bool :=
  (List.range 4).all fun d =>
    let c := coord.getD d 0
    let lo := g.lo.getD d 0
    decide (lo ≤ c) && decide (c < g.hi.getD d 0) && (c - lo) % g.stride.getD d 1 == 0

/-- Member count of group g of a launch. -/
def Launch.memberCount (l : Launch) (g : Nat) : Nat :=
  match aget l.groups g with
  | none => 0
  | some e => e.count l.rc.box

/-- The cohort of a thread is a member of a group of its launch. -/
def Env.member (e : Env) (g : Nat) : Bool := (aget e.l.groups g).isSome && e.c.groups.contains g

/-- A set of arrivals holds every thread of the cohort that has not exited. -/
def State.cohArrived (s : State) (coh : Nat) (arrived : List Nat) : Bool :=
  (s.cohThreads coh).all fun e => e.2.status == .exited || arrived.contains e.1

/-- Live cohorts of a launch that are members of a group. -/
def State.liveMembers (s : State) (lid g : Nat) : List Nat :=
  ((s.launchCohorts lid).filter fun c => c.2.groups.contains g).map (·.1)

/-- Every member of the group has arrived or exited (R37). -/
def State.groupMet (s : State) (lid g : Nat) (l : Launch) (arrived : List Nat) : Bool :=
  let live := s.liveMembers lid g
  live.all (fun c => s.cohArrived c arrived) && (aget l.gone g).getD 0 + live.length == l.memberCount g

/-! ## Release -/

/-- Threads that wait for a phase without the token leave the wait. -/
def State.release (s : State) (wait : TStatus) : State :=
  { s with threads := s.threads.map fun e => if e.2.status = wait then (e.1, { e.2 with status := .ready }) else e }

/-- Releases the threads of one cohort. -/
def State.releaseIn (s : State) (coh : Nat) (wait : TStatus) : State :=
  { s with threads := s.threads.map fun e =>
      if cohOf e.1 = coh ∧ e.2.status = wait then (e.1, { e.2 with status := .ready }) else e }

/-- Releases the threads of one launch. -/
def State.releaseOf (s : State) (lid : Nat) (wait : TStatus) : State :=
  let mine := (s.launchCohorts lid).map (·.1)
  { s with threads := s.threads.map fun e =>
      if mine.contains (cohOf e.1) && e.2.status == wait then (e.1, { e.2 with status := .ready }) else e }

/-- The waiting threads of a phase depart with the acquires that their arrivals name: they synchronise with the releases
of the phase that reach them (R265, case 5, R375). -/
def State.acquirePhase (s : State) (rels : Assoc Rel) (waits : List TStatus) : State :=
  { s with threads := s.threads.map fun e =>
      match aget rels e.1 with
      | some own =>
        if waits.contains e.2.status then (e.1, { e.2 with ord := e.2.ord.acquire own.insts (rels.map (·.2)) }) else e
      | none => e }

/-! ## Named barriers -/

/-- Named barrier b of a cohort. -/
def Cohort.bar (c : Cohort) (b : Nat) : NBar := (aget c.bars b).getD {}

/-- Every thread of the warps of a phase mask has arrived or exited (R371). -/
def State.barMet (s : State) (coh : Nat) (mask : Word) (arrived : List Nat) : Bool :=
  (s.cohThreads coh).all fun e => !mask.getLsbD (warpNo e.1) || e.2.status == .exited || arrived.contains e.1

/-- The open phase of a named barrier completes if it can (R371). -/
def State.barCheck (coh : Nat) (s : State) (b : Nat) : State :=
  match aget s.cohorts coh with
  | none => s
  | some c =>
    match (c.bar b).mask with
    | none => s
    | some m =>
      if s.barMet coh m (c.bar b).arrived then
        let k := (c.bar b).phase
        ((s.acquirePhase (c.bar b).rels [.named b k, .token (.named b k)]).modCohort coh fun c =>
          { c with bars := aset c.bars b { phase := k + 1 } }).releaseIn coh (.named b k)
      else s

/-- The warps of a cohort as a mask. -/
def Cohort.warpMask (c : Cohort) : Word := BitVec.ofNat 32 (2 ^ c.warps - 1)

/-- The mask of a BAR (R372). -/
def barMask (e : Env) (m : Reg) : Word := if m = .v 255 then e.c.warpMask else e.th.rd m

/-- An arrival that R372 refuses. -/
def barRefused (e : Env) (mask : Word) (b : NBar) : Bool :=
  mask &&& e.c.warpMask != mask || !mask.getLsbD (warpNo e.tid) || (match b.mask with
    | none => false
    | some m => m != mask)

/-- Records a named arrival with its release. -/
def State.barArrive (s : State) (coh tid b : Nat) (mask : Word) (rel : Rel) : State :=
  s.modCohort coh fun c =>
    let x := c.bar b
    { c with bars := aset c.bars b { x with mask := some mask, arrived := tid :: x.arrived, rels := aset x.rels tid rel } }

/-- How a thread goes on after its arrival in a phase: at once with ARV, waiting otherwise; under the token its departure
is a token op of its own (R373, R314). -/
def departM (e : Env) (i : Instr) (arv : Bool) (wait : TStatus) (need : TokenNeed) : M Unit :=
  modTh e fun t =>
    let t := t.pass e i true none
    if arv then t
    else if e.det then { t with status := .token need, departing := true }
    else { t with status := wait }

/-! ## Group barriers -/

/-- The barrier of group g of a launch. -/
def Launch.gbar (l : Launch) (g : Nat) : GBar := (aget l.gbars g).getD {}

/-- The phase of a group barrier completes if it can (R37). -/
def State.grpCheck (lid : Nat) (s : State) (g : Nat) : State :=
  match aget s.launches lid with
  | none => s
  | some l =>
    if l.status.isNone && (aget l.groups g).isSome && !(l.gbar g).arrived.isEmpty &&
        s.groupMet lid g l (l.gbar g).arrived then
      let k := (l.gbar g).phase
      ((s.acquirePhase (l.gbar g).rels [.grp g k, .token (.grp g k)]).modLaunch lid fun l =>
        { l with gbars := aset l.gbars g { phase := k + 1 } }).releaseOf lid (.grp g k)
    else s

/-- Records a group arrival with its release. -/
def State.grpArrive (s : State) (lid tid g : Nat) (rel : Rel) : State :=
  s.modLaunch lid fun l =>
    let x := l.gbar g
    { l with gbars := aset l.gbars g { x with arrived := tid :: x.arrived, rels := aset x.rels tid rel } }

end Sys2Proof.Machine
end

