-- ==== Sys2Proof/Machine/Rings.lean ====
section
/-! DEFINITION. Stage rings (R226 to R228, R475, R476, R480, R481): the control block, one step of RPOST, RTAKE and
SETCTL, the threads that wait on a ring, and the stores that break the duty of R228. -/

namespace Sys2Proof.Machine

/-! ## The control block (Table 10-6) -/

/-- LOGD of ring r. -/
def ringLogd (sp : Sparse 8) (r : Nat) : Nat := leNat (sread sp (128 * r) 4) % 8

/-- POST of ring r. -/
def ringPosts (sp : Sparse 8) (r : Nat) : Nat := leNat (sread sp (128 * r + 4) 4)

/-- TAKE of ring r. -/
def ringTakes (sp : Sparse 8) (r : Nat) : Nat := leNat (sread sp (128 * r + 8) 4)

/-- Posts not yet taken, modulo 2^32. -/
def ringGap (sp : Sparse 8) (r : Nat) : Nat := (ringPosts sp r + (2 ^ 32 - ringTakes sp r)) % 2 ^ 32

/-- Address of SLOT[s]. -/
def ringSlot (r s : Nat) : Nat := 128 * r + 64 + 4 * s

/-- The wait condition of a ring op (R227, R481). -/
def ringReady (i : Instr) (sp : Sparse 8) (r : Nat) : Bool :=
  match i with
  | .rpost .. => decide (ringGap sp r < 2 ^ ringLogd sp r)
  | .rtake .. => decide (0 < ringGap sp r)
  | _ => decide (ringGap sp r = 0)

/-- The writes of a ring step, each with its address (R227, R481). -/
def ringWrites (i : Instr) (r : Nat) (t : Thread) (sp : Sparse 8) : List (Nat × List Byte) :=
  match i with
  | .rpost _ _ a =>
    let post := ringPosts sp r
    let s := post % 2 ^ ringLogd sp r
    let phase := leNat (sread sp (128 * r + 12) 2)
    [(ringSlot r s, leBytes 4 (t.rd a).toNat), (128 * r + 12, leBytes 2 (Nat.xor phase (2 ^ s))),
     (128 * r + 4, leBytes 4 (post + 1))]
  | .rtake .. => [(128 * r + 8, leBytes 4 (ringTakes sp r + 1))]
  | .setctl _ _ a =>
    [(128 * r, [(sget sp (128 * r) &&& 0xF8#8) ||| ((t.rd a).setWidth 8 &&& 7#8)]), (128 * r + 4, leBytes 10 0)]
  | _ => []

/-- The slot that RTAKE takes (R227). -/
def ringTaken (sp : Sparse 8) (r : Nat) : Nat := ringSlot r (ringTakes sp r % 2 ^ ringLogd sp r)

/-- The registers after a ring step (R227). -/
def ringRegs (i : Instr) (r : Nat) (t : Thread) (sp : Sparse 8) : Thread :=
  match i with
  | .rtake _ _ d => t.wr d (BitVec.ofNat 32 (leNat (sread sp (ringTaken sp r) 4)))
  | _ => t

/-! ## Broken rings -/

/-- The contents of a ring become undefined: POST, TAKE, PHASE and every SLOT are free values (R228). -/
def scrambleRing (coh r : Nat) : M Unit := do
  let a ← drawM
  let b ← drawM
  modify fun s => s.modCohort coh fun c =>
    { c with sp := swrite (swrite c.sp (128 * r + 4) (leBytes 10 a)) (128 * r + 64) (leBytes 64 b) }

/-- The scratchpad as it stands. -/
def getSp (e : Env) : M (Sparse 8) := fun s => .ok ((aget s.cohorts e.coh).getD e.c).sp s

/-- The ring is broken. -/
def isBroken (e : Env) (r : Nat) : M Bool := fun s => .ok (((aget s.cohorts e.coh).getD e.c).broken.contains r) s

/-! ## One op -/

/-- The faults of a ring op, before any wait (R227, R481). -/
def ringChecks (e : Env) (i : Instr) (r : Nat) : M Unit := do
  match i with
  | .setctl _ _ a => if 4 < (e.th.rd a).toNat then throw (opFault .illegalOperand)
  | _ => pure ()
  if e.c.scratch < 128 * (r + 1) then throw (opFault .lsRange)
  match i with
  | .setctl .. => pure ()
  | _ => if 4 < ringLogd (← getSp e) r then throw (opFault .illegalOperand)

/-- The ring op can proceed; on a broken ring a free choice (R228). -/
def ringCan (e : Env) (i : Instr) (r : Nat) : M Bool := do
  if ← isBroken e r then
    let x ← pickM 2
    pure (x == 1)
  else pure (ringReady i (← getSp e) r)

/-- The order of a ring step: it reads POST, and RTAKE its slot too; RPOST is a release at cohort scope, which covers what
a WAITC of its warp has retired, RTAKE an acquire (R228). Answers its releases, and those that its writes carry on. -/
def ringOrder (e : Env) (i : Instr) (r : Nat) (sp : Sparse 8) (s : State) :
    Ord × List Rel × List Rel :=
  let newest := fun a => returned (spKey e.coh a) 4 (s.writesAt (spKey e.coh a) 4) []
  let post := newest (128 * r + 4)
  let w := (aget s.warps e.warp).getD e.w
  match i with
  | .rpost .. =>
    let o := ((s.ordOf e.tid).join w.covered).read e.allInsts none post
    let (o, own) := o.forWrite e (some .cohort)
    (o, own, post.flatMap Msg.rels ++ o.rel)
  | .rtake .. => ((s.ordOf e.tid).read e.allInsts (some (e.insts .cohort)) (post ++ newest (ringTaken sp r)), [], [])
  | _ => (s.ordOf e.tid, [], [])

/-- The writes of a ring step enter the scratchpad, each next in coherence order. -/
def State.ringPut (s : State) (coh : Nat) (o : Ord) (own carried : List Rel) (ws : List (Nat × List Byte)) :
    Ord × State :=
  ws.foldl (fun (x : Ord × State) w =>
    let (ts, s) := x.2.logMsg (spKey coh w.1) (sread (x.2.spOf coh) w.1 w.2.length) w.2 x.1.view
      (own.map fun r => { r with view := joinView r.view x.1.view }) carried true false
    (x.1.join [ts], s.setSp coh w.1 w.2)) (o, s)

/-- The ring op takes its step. SETCTL ends a breach, and leaves the SLOTs as they are (R481). -/
def ringDo (e : Env) (i : Instr) (r : Nat) : M Unit := do
  let broken ← isBroken e r
  if broken then scrambleRing e.coh r
  let sp ← getSp e
  let t ← getTh e
  modify fun s =>
    let (o, own, carried) := ringOrder e i r sp s
    let (o, s) := s.ringPut e.coh o own carried (ringWrites i r t sp)
    let s := (s.modThread e.tid fun t => ringRegs i r t sp).setOrd e.tid o
    match i with
    | .setctl .. => s.modCohort e.coh fun c => { c with broken := c.broken.filter (· != r) }
    | .rtake .. => s.modWarp e.warp fun w => { w with taken := joinView w.taken o.view }
    | _ => s
  match i with
  | .setctl .. => pure ()
  | _ => if broken then scrambleRing e.coh r

/-- What the token needs to perform a ring op; SETCTL is no token op (R314, R481). -/
def ringNeed (e : Env) (i : Instr) (r : Nat) : Option TokenNeed :=
  match i with
  | .rpost .. => some (.ringPost r e.pers i)
  | .rtake .. => some (.ringTake r e.pers i)
  | _ => none

/-- The state of a thread that waits at a ring op: "waiting in AWAIT", for the token where it is a token op. -/
def ringWait (e : Env) (i : Instr) (r : Nat) : TStatus :=
  match e.det, ringNeed e i r with
  | true, some need => .token need
  | _, _ => .ring r e.pers i

/-! ## Threads that wait -/

/-- The ring that a thread waits on, with the personality of its op's page, the op, and whether it waits for the token
besides (R227, R314). -/
def TStatus.onRing : TStatus → Option (Nat × Nat × Instr × Bool)
  | .ring r pers op => some (r, pers, op, false)
  | .token (.ringPost r pers op) | .token (.ringTake r pers op) => some (r, pers, op, true)
  | _ => none

/-- A thread waits on the ring, the token's waits included. -/
def TStatus.awaitsRing (st : TStatus) (r : Nat) : Bool :=
  match st.onRing with
  | some x => x.1 == r
  | none => false

/-- Threads of a cohort that wait on a ring, in ascending logical ID. -/
def State.ringWaiters (s : State) (coh r : Nat) : List Nat :=
  ((s.cohThreads coh).filter fun e => e.2.status.awaitsRing r).map (·.1)

/-- A waiting thread tests its condition again: whether it left its wait, by its step or by a fault. One that waits for
the token tests for its faults alone (R227, R314). -/
def State.ringRetest (s : State) (r tid : Nat) : Bool × State :=
  match (aget s.threads tid).bind fun t => t.status.onRing with
  | none => (false, s)
  | some (_, pers, op, token) =>
    match s.envOf tid pers with
    | none => (false, s)
    | some e =>
      let e := { e with th := { e.th with status := .ready } }
      let test : M Bool := do
        ringChecks e op r
        if token then pure false else ringCan e op r
      match test s with
      | .ok false s' => (false, s')
      | .ok true s' =>
        let s' := s'.modThread tid fun t => { t with status := .ready }
        (true, endOp op s' e ((do ringDo e op r; pure Flow.done : M Flow) s'))
      | .error f s' =>
        let s' := s'.modThread tid fun t => { t with status := .ready }
        (true, s'.takeFault e (Instr.isLong op) f)

/-- The first waiting thread that can leave its wait does so. -/
def State.ringFirst (s : State) (r : Nat) (ts : List Nat) : Bool × State :=
  match ts with
  | [] => (false, s)
  | t :: rest =>
    match s.ringRetest r t with
    | (true, s') => (true, s')
    | (false, s') => s'.ringFirst r rest

/-- Waiting threads proceed in ascending logical ID, one step at a time (R227). -/
def State.ringServe (s : State) (coh r fuel : Nat) : State :=
  match fuel with
  | 0 => s
  | n + 1 =>
    match s.ringFirst r (s.ringWaiters coh r) with
    | (true, s') => s'.ringServe coh r n
    | (false, s') => s'

/-- After a step on a ring or a store to its control block. -/
def State.ringWake (s : State) (coh r : Nat) : State := s.ringServe coh r (s.ringWaiters coh r).length

/-! ## The body of a ring op -/

/-- A ring op at its step or its wait; after its step the threads that wait on the ring test again (R227). -/
def ringTry (e : Env) (i : Instr) (r : Nat) : M Flow := do
  if ← ringCan e i r then
    ringDo e i r
    modify fun s => s.ringWake e.coh r
    pure .done
  else
    modTh e fun t => { t with status := ringWait e i r, granted := false }
    pure .stay

/-- The body of RPOST, RTAKE and SETCTL. -/
def ringBody (i : Instr) (r : Nat) (e : Env) : M Flow := do
  ringChecks e i r
  modify fun s => s.modCohort e.coh fun c => { c with rings := insertNat r c.rings }
  match e.needsToken, ringNeed e i r with
  | true, some need => tokenStop e need
  | _, _ => ringTry e i r

/-! ## Stores to a control block -/

/-- A store of n bytes at a reaches LOGD, or POST, TAKE, PHASE or a SLOT, of ring r. -/
def ringTouch (r a n : Nat) : Bool :=
  (decide (128 * r + 4 < a + n) && decide (a < 128 * r + 14)) || (decide (128 * r + 64 < a + n) && decide (a < 128 * r + 128))

/-- What a store of n bytes at a, inside the control block of ring r, does to the ring beyond writing them. One outside
the condition of R228 breaks the ring, whether the cohort has used it yet or does so later; every store to the control
block makes the waiting threads test again (R227). `before`: the scratchpad before the store. -/
def State.ringStore (s : State) (coh r a n : Nat) (before : Sparse 8) : State :=
  match aget s.cohorts coh with
  | none => s
  | some c =>
    let waits := (s.cohThreads coh).any fun e => e.2.status.awaitsRing r
    let breach := (ringGap before r ≠ 0 || waits) && (ringTouch r a n || ringLogd before r ≠ ringLogd c.sp r)
    let s := if breach then s.modCohort coh fun c => { c with broken := insertNat r c.broken } else s
    if !c.rings.contains r then s
    else
      let s := if breach then
          match scrambleRing coh r s with
          | .ok _ s' => s'
          | .error _ s' => s'
        else s
      s.ringWake coh r

/-- Puts bytes into a cohort's scratchpad, for a store, a copy or an ACCST: those that touch a stage ring's control block
act on the ring too (R227, R228). -/
def State.putSp (s : State) (coh a : Nat) (bs : List Byte) : State :=
  let before := s.spOf coh
  let rings := (List.range 8).filter fun r => decide (128 * r < a + bs.length) && decide (a < 128 * (r + 1))
  rings.foldl (fun s r => s.ringStore coh r a bs.length before) (s.setSp coh a bs)

/-- A unit of the module writes bytes of a cohort's scratchpad, with the releases that its write carries. -/
def State.writeSp (s : State) (coh a : Nat) (bs : List Byte) (view : List Nat := []) (rels : List Rel := []) : State :=
  ((s.logMsg (spKey coh a) (sread (s.spOf coh) a bs.length) bs view rels [] false true).2).putSp coh a bs

end Sys2Proof.Machine
end

