-- ==== Sys2Proof/Machine/Plane.lean ====
section
/-! DEFINITION. The plane engine, the LNS path and the accumulator window (R211 to R225, R349 to R352, R444 to R446):
parameter blocks, their checks, and what a matrix instruction computes. -/

namespace Sys2Proof.Machine

/-! ## Parameter blocks -/

/-- Word at an offset of a parameter block. -/
def blkWord (b : List Byte) (o : Nat) : Nat := field b o 4

/-- An MMAP parameter block (Table 10-2), with the counts that its fields encode. -/
structure PlaneBlk where
  pa : Nat
  pb : Nat
  nc : Nat
  kc : Nat
  /-- 3 is integer. -/
  kblk : Nat
  acc : Bool
  tri : Nat
  asgn : Bool
  bsgn : Bool
  abase : Nat
  bbase : Nat
  aexp : Nat
  bexp : Nat
  diag : Int
  fill : Nat
  roworg : Nat
  colorg : Nat
  deriving DecidableEq, Repr

/-- The fields of an MMAP parameter block. -/
def planeBlk (b : List Byte) : PlaneBlk :=
  let w := blkWord b 0
  { pa := bitsOf w 3 0 + 1, pb := bitsOf w 7 4 + 1, nc := bitsOf w 10 8 + 1, kc := bitsOf w 16 11 + 1,
    kblk := bitsOf w 18 17, acc := bitsOf w 19 19 == 1, tri := bitsOf w 21 20, asgn := bitsOf w 22 22 == 1,
    bsgn := bitsOf w 23 23 == 1, abase := bitsOf (blkWord b 4) 20 0, bbase := bitsOf (blkWord b 8) 20 0,
    aexp := bitsOf (blkWord b 12) 20 0, bexp := bitsOf (blkWord b 16) 20 0, diag := sextInt 32 (blkWord b 20),
    fill := blkWord b 24, roworg := blkWord b 28, colorg := blkWord b 32 }

/-- Elements of an exponent record's K-block. -/
def PlaneBlk.kb (p : PlaneBlk) : Nat := 16 * 2 ^ p.kblk

/-- Columns and contraction length. -/
def PlaneBlk.n (p : PlaneBlk) : Nat := 32 * p.nc
def PlaneBlk.k (p : PlaneBlk) : Nat := 1024 * p.kc

/-- Check 3 and 4 of R217 for MMAP. -/
def planeBlkOk (b : List Byte) : Bool :=
  let p := planeBlk b
  p.abase % 128 == 0 && p.bbase % 128 == 0 && p.aexp % 2 == 0 && p.bexp % 2 == 0 &&
  bitsOf (blkWord b 0) 31 24 == 0 && ([4, 8, 12, 16].all fun o => bitsOf (blkWord b o) 31 21 == 0) &&
  field b 36 12 == 0 && p.tri != 3 && (p.kblk != 3 || (p.aexp == 0 && p.bexp == 0))

/-- The areas of the scratchpad that an MMAP reads: start and length. -/
def planeAreas (p : PlaneBlk) : List (Nat × Nat) :=
  [(p.abase, 4096 * p.kc * p.pa), (p.bbase, 4096 * p.nc * p.kc * p.pb)] ++
  (if p.kblk = 3 then [] else [(p.aexp, 64 * (p.k / p.kb)), (p.bexp, 2 * p.n * (p.k / p.kb))])

/-- An MMAL parameter block (Table 10-4). -/
structure LnsBlk where
  nc : Nat
  k : Nat
  acc : Bool
  tri : Nat
  abase : Nat
  bbase : Nat
  x : Int
  diag : Int
  fill : Nat
  roworg : Nat
  colorg : Nat
  deriving DecidableEq, Repr

/-- The fields of an MMAL parameter block. -/
def lnsBlk (b : List Byte) : LnsBlk :=
  let w := blkWord b 0
  { nc := bitsOf w 2 0 + 1, k := 64 * (bitsOf w 9 3 + 1), acc := bitsOf w 10 10 == 1, tri := bitsOf w 12 11,
    abase := bitsOf (blkWord b 4) 20 0, bbase := bitsOf (blkWord b 8) 20 0, x := sextInt 32 (blkWord b 12),
    diag := sextInt 32 (blkWord b 16), fill := blkWord b 20, roworg := blkWord b 24, colorg := blkWord b 28 }

/-- Checks 3 and 4 of R217 for MMAL. -/
def lnsBlkOk (b : List Byte) : Bool :=
  let p := lnsBlk b
  p.abase % 64 == 0 && p.bbase % 64 == 0 && bitsOf (blkWord b 0) 31 13 == 0 &&
  ([4, 8].all fun o => bitsOf (blkWord b o) 31 21 == 0) && p.tri != 3

/-- The areas of the scratchpad that an MMAL reads. -/
def lnsAreas (p : LnsBlk) : List (Nat × Nat) := [(p.abase, 32 * p.k), (p.bbase, 32 * p.nc * p.k)]

/-- First byte at or above scratch that areas touch (R217); none where all lie below. -/
def overScratch (scratch : Nat) (areas : List (Nat × Nat)) : Option Nat :=
  areas.foldl (fun r a =>
    if a.1 + a.2 ≤ scratch then r
    else match r with
      | none => some (max a.1 scratch)
      | some x => some (min x (max a.1 scratch))) none

/-- LS_RANGE at a scratchpad offset. -/
def lsRange (a : Nat) : FaultInfo := { kind := .lsRange, addr := BitVec.ofNat 64 a }

/-- Checks that areas lie below scratch. -/
def checkAreas (scratch : Nat) (areas : List (Nat × Nat)) : Except FaultInfo Unit :=
  match overScratch scratch areas with
  | some a => .error (lsRange a)
  | none => .ok ()

/-- The checks of R217, R351 and R445 when an instance executes, and the parameter block; `off` is lane 0's SA value. -/
def matrixCheck (i : Instr) (off : Nat) (c : Cohort) : Except FaultInfo (MatKind × Nat × Nat × List Byte) := do
  let op := opFault .illegalOperand
  match i with
  | .mmap _ d _ _ =>
    if off % 16 ≠ 0 || 2 ^ 21 ≤ off then throw op
    checkAreas c.scratch [(off, 48)]
    let b := sread c.sp off 48
    if !planeBlkOk b || 64 < d.toNat + (planeBlk b).nc then throw op
    checkAreas c.scratch (planeAreas (planeBlk b))
    pure (.mmap, d.toNat, (planeBlk b).nc, b)
  | .mmal _ d _ _ =>
    if off % 16 ≠ 0 || 2 ^ 21 ≤ off then throw op
    checkAreas c.scratch [(off, 32)]
    let b := sread c.sp off 32
    if !lnsBlkOk b || 64 < d.toNat + (lnsBlk b).nc then throw op
    checkAreas c.scratch (lnsAreas (lnsBlk b))
    pure (.mmal, d.toNat, (lnsBlk b).nc, b)
  | .accz _ n d _ =>
    if 64 < d.toNat + n.toNat + 1 then throw op
    pure (.accz, d.toNat, n.toNat + 1, [])
  | .accld _ d _ _ =>
    if off % 16 ≠ 0 || 2 ^ 21 ≤ off then throw op
    checkAreas c.scratch [(off, 4096)]
    pure (.accld, d.toNat, 1, [])
  | .accst _ d _ _ =>
    if off % 16 ≠ 0 || 2 ^ 21 ≤ off then throw op
    checkAreas c.scratch [(off, 4096)]
    pure (.accst, d.toNat, 1, [])
  | _ => throw op

/-- The register that holds a matrix instruction's scratchpad offset. -/
def matrixReg : Instr → Reg
  | .mmap _ _ a _ | .mmal _ _ a _ | .accld _ _ a _ | .accst _ _ a _ => a
  | _ => .v 255

/-! ## What the engines compute -/

/-- Element (m, n) is masked (R219). -/
def triMasked (tri : Nat) (diag : Int) (roworg colorg m n : Nat) : Bool :=
  let g : Int := colorg + n
  let h : Int := roworg + m + diag
  (tri == 1 && decide (h < g)) || (tri == 2 && decide (g < h))

/-- Bit k mod 1024 of a vector of the tile at an address (R211). -/
def planeBit (sp : Sparse 8) (tile v k : Nat) : Nat :=
  (sget sp (tile + 128 * v + k % 1024 / 8)).toNat / 2 ^ (k % 8) % 2

/-- The value of p plane bits, plane 0 first (R212). -/
def planeVal (sgn : Bool) (p : Nat) (bit : Nat → Nat) : Int :=
  (List.range p).foldl (fun (q : Int) i =>
    let w : Int := (2 ^ i : Nat)
    q + (if sgn && i + 1 == p then -w else w) * (bit i : Int)) 0

/-- qa(m, k) (R211, Table 10-1). -/
def PlaneBlk.qa (b : PlaneBlk) (sp : Sparse 8) (m k : Nat) : Int :=
  planeVal b.asgn b.pa fun p => planeBit sp (b.abase + 4096 * (k / 1024 * b.pa + p)) m k

/-- qb(k, n). -/
def PlaneBlk.qb (b : PlaneBlk) (sp : Sparse 8) (k n : Nat) : Int :=
  planeVal b.bsgn b.pb fun p =>
    planeBit sp (b.bbase + 4096 * ((n / 32 * b.kc + k / 1024) * b.pb + p)) (n % 32) k

/-- A 16-bit record of the scratchpad. -/
def spHalf (sp : Sparse 8) (a : Nat) : Nat := leNat (sread sp a 2)

/-- Exact sum of products over a range of k. -/
def PlaneBlk.dot (b : PlaneBlk) (sp : Sparse 8) (m n k0 len : Nat) : Int :=
  (List.range len).foldl (fun s i => s + b.qa sp m (k0 + i) * b.qb sp (k0 + i) n) 0

/-- Index of a word of the accumulator window (R222). -/
def accIdx (blk m j : Nat) : Nat := blk * 1024 + 32 * m + j

/-- An exact integer times a power of two, rounded to FP32 (R218). -/
def scaledF32 (i e : Int) : FRes := roundTo .f32 .rn (.num (i < 0) i.natAbs e) 0

/-- y + t in FP32 (R218). -/
def accAdd (y : FRes) (t : FRes) : FRes :=
  let (r, f) := fadd' .f32 .rn y.1 false t.1
  (r, y.2 ||| t.2 ||| f)

/-- −0.0 in FP32. -/
def negZero : Nat := 0x80000000

/-- MMAP's value of one element that is not masked, from the accumulator word, with its flags (R218). -/
def planeElem (b : PlaneBlk) (sp : Sparse 8) (m n : Nat) (word : Nat) : FRes :=
  if b.kblk = 3 then
    let s := b.dot sp m n 0 b.k + (if b.acc then sextInt 32 word else 0)
    let (v, f) := satInt 32 true true s
    (v.toNat % 2 ^ 32, f)
  else
    (List.range (b.k / b.kb)).foldl (fun y i =>
      let ea := spHalf sp (b.aexp + 2 * (32 * i + m))
      let eb := spHalf sp (b.bexp + 2 * (b.n * i + n))
      let t := if ea = 0x8000 || eb = 0x8000 then (Fmt.f32.cnan, flagNV)
        else scaledF32 (b.dot sp m n (i * b.kb) b.kb) (sextInt 16 ea + sextInt 16 eb - b.pa - b.pb + 4)
      accAdd y t) (if b.acc then word else negZero, 0)

/-- One term of the LNS dot product, in units of 2^−23; none for a NaN operand (R199). -/
def lnsTerm (a b : Nat) : Option Int :=
  let a := a % 64
  let b := b % 64
  if a = 0x30 || b = 0x30 then none
  else if a = 0x10 || b = 0x10 then some 0
  else
    let n := l6n a + l6n b
    let x : Int := (l6T (n % 4).toNat * 2 ^ (n / 4 + 8).toNat : Nat)
    some (if (a / 32 == 1) ^^ (b / 32 == 1) then -x else x)

/-- MMAL's value of one element that is not masked (R221). -/
def lnsElem (b : LnsBlk) (sp : Sparse 8) (m n : Nat) (word : Nat) : FRes :=
  let s := (List.range b.k).foldl (fun (acc : Option Int) k =>
    match acc, lnsTerm (sget sp (b.abase + m * b.k + k)).toNat (sget sp (b.bbase + n * b.k + k)).toNat with
    | some x, some y => some (x + y)
    | _, _ => none) (some 0)
  let t := match s with
    | none => (Fmt.f32.cnan, 0)
    | some x => scaledF32 x (b.x - 23)
  accAdd (if b.acc then word else negZero, 0) t

/-- Writes every element of a product into the accumulator window: FILL where masked (R219). -/
def productWrite (dst n fill : Nat) (masked : Nat → Nat → Bool) (elem : Nat → Nat → Nat → FRes) (acc : Sparse 32) :
    Sparse 32 × BitVec 7 :=
  (List.range 32).foldl (fun r m =>
    (List.range n).foldl (fun (r : Sparse 32 × BitVec 7) j =>
      let i := accIdx (dst + j / 32) m (j % 32)
      if masked m j then (sset r.1 i (BitVec.ofNat 32 fill), r.2)
      else
        let (v, f) := elem m j (sget r.1 i).toNat
        (sset r.1 i (BitVec.ofNat 32 v), r.2 ||| f)) r) (acc, 0)

/-- The accumulator window, the bytes written to the scratchpad and the flags of a matrix instruction, from the
scratchpad that it reads. -/
def matrixRun (o : MatOp) (sp : Sparse 8) (acc : Sparse 32) : Sparse 32 × List Byte × BitVec 7 :=
  match o.kind with
  | .mmap =>
    let b := planeBlk o.block
    let (a, f) := productWrite o.dst b.n b.fill (triMasked b.tri b.diag b.roworg b.colorg) (planeElem b sp) acc
    (a, [], f)
  | .mmal =>
    let b := lnsBlk o.block
    let (a, f) := productWrite o.dst (32 * b.nc) b.fill (triMasked b.tri b.diag b.roworg b.colorg) (lnsElem b sp) acc
    (a, [], f)
  | .accz => (acc.filter fun e => e.1 / 1024 < o.dst || o.dst + o.count ≤ e.1 / 1024, [], 0)
  | .accld =>
    ((List.range 1024).foldl (fun a i => sset a (o.dst * 1024 + i) (BitVec.ofNat 32 (leNat (sread sp (o.off + 4 * i) 4))))
      acc, [], 0)
  | .accst => (acc, (List.range 1024).flatMap fun i => leBytes 4 (sget acc (o.dst * 1024 + i)).toNat, 0)

/-! ## Execution and retirement -/

/-- The scratchpad as a matrix instruction reads it: in each aligned 16-byte unit that a write reached lately, any
content that the order of its accesses allows (R225, R270). -/
def mixUnits (coh : Nat) (us : List Nat) (o : Ord) (sp : Sparse 8) (s : State) : Sparse 8 × State :=
  us.foldl (fun (x : Sparse 8 × State) u =>
    let (b, _, s') := x.2.observe o [] (fun _ => none) (spKey coh (16 * u)) (sread sp (16 * u) 16)
    (swrite x.1 (16 * u) b, s')) (sp, s)

/-- Aligned 16-byte units of a cohort's scratchpad that writes not performed for every observer reach. -/
def State.lateUnits (s : State) (coh : Nat) : List Nat :=
  (s.hist.filter fun m => spKey coh 0 ≤ m.key && m.key < spKey (coh + 1) 0).foldl (fun us m =>
    let a := m.key - spKey coh 0
    ((List.range ((a + m.new.length - 1) / 16 + 1 - a / 16)).map fun i => a / 16 + i).foldl (fun us u => insertNat u us) us) []

/-- ACCST's bytes enter the scratchpad, each aligned 16-byte unit in any order with the writes of other agents (R225). -/
def accstUnits (coh off : Nat) (out : List Byte) (us : List Nat) (o : Ord) (s : State) : Ord × State :=
  us.foldl (fun (x : Ord × State) u =>
    let a := off + 16 * u
    let (fin, o', s') := x.2.placeWrite x.1 [] (spKey coh a) (sread (x.2.spOf coh) a 16) ((out.drop (16 * u)).take 16)
    (o', s'.putSp coh a fin)) (o, s)

/-- What orders the accesses of a matrix instruction: everything before it in its participants' program order, and what
the RTAKEs of its warp have acquired (R228, R270). -/
def matrixOrd (e : Env) (ps : List Env) (s : State) : Ord :=
  let w := (aget s.warps e.warp).getD e.w
  ps.foldl (fun o p =>
    let q := (s.ordFor p.tid).forUnit
    { o.join q.view with fenced := joinView o.fenced q.fenced, after := joinView o.after q.after }) { view := w.taken }

/-- The instance of a matrix instruction executes: its checks, the read of its parameter block, one MXE operation of
each of its threads, and its place in issue order (R217, R224, R233). -/
def matrixIssue (i : Instr) (ps : List Env) : M Unit := fun s =>
  match ps with
  | [] => .ok () s
  | e :: _ =>
    let off := (e.th.rd (matrixReg i)).toNat
    let c := (aget s.cohorts e.coh).getD e.c
    match matrixCheck i off c with
    | .error f => .error f s
    | .ok (k, dst, n, b) =>
      let (id, s) := s.freshId
      let op : MatOp := { id := id, kind := k, dst := dst, off := off, count := n, block := b, tids := ps.map (·.tid),
                          ord := matrixOrd e ps s }
      let s := s.modCohort e.coh fun c => { c with mats := c.mats ++ [op] }
      .ok () (ps.foldl (fun s p => s.modThread p.tid fun t => { t with out := t.out ++ [{ cls := .mxe, id := id }] }) s)

/-- The matrix instructions behind one that has been carried out, which read what it wrote (R224, R225). -/
def MatOp.after (wrote : List Nat) (o : MatOp) : MatOp := { o with ord := { o.ord with must := joinView o.ord.must wrote } }

/-- A cohort's first matrix instruction that has not been is carried out: it reads the scratchpad, changes the accumulator
window and writes ACCST's bytes, which those behind it read (R223 to R225). -/
def State.computeMatrix (s : State) (coh : Nat) : State :=
  match aget s.cohorts coh with
  | none => s
  | some c =>
    match c.mats.dropWhile fun o => o.done.isSome with
    | [] => s
    | o :: rest =>
      let (sp, s) := mixUnits coh (s.lateUnits coh) o.ord c.sp s
      let (acc, out, f) := matrixRun o sp c.acc
      let s := s.modCohort coh fun c => { c with acc := acc }
      let (ord, s) := accstUnits coh o.off out (List.range (out.length / 16)) o.ord s
      let wrote := ord.view.filter fun x => !o.ord.view.contains x
      s.modCohort coh fun c => { c with
        mats := (c.mats.takeWhile fun o => o.done.isSome) ++ { o with done := some (f, wrote) } :: rest.map (MatOp.after wrote) }

/-- The oldest matrix instruction of a cohort retires: its flags reach every thread of its warp (R220). -/
def State.retireMatrix (s : State) (coh : Nat) : State :=
  match (aget s.cohorts coh).map Cohort.mats with
  | some (o :: rest) =>
    let (f, wrote) := o.done.getD (0, [])
    let s := s.modCohort coh fun c => { c with mats := rest }
    { s with threads := s.threads.map fun e =>
        if o.tids.contains e.1 then (e.1, e.2.finish o.id none f wrote)
        else if (o.tids.head?.map warpOf) == some (warpOf e.1) then (e.1, e.2.lateFlags f) else e }
  | _ => s

/-- The oldest matrix instruction of a cohort has been carried out. -/
def State.oldestDone (s : State) (coh : Nat) : Bool :=
  ((aget s.cohorts coh).bind fun c => c.mats.head?).any fun o => o.done.isSome

/-- Every plane step of the cohort's section is withheld (R346). -/
def State.heated (s : State) (coh : Nat) : Bool :=
  match (aget s.cohorts coh).bind Cohort.core with
  | some core => s.hub.heat.getLsbD (secOfCore core)
  | none => true

/-- MATRIX_RETIRE: no effect where the cohort is not resident or its section's plane steps are withheld (R346). -/
def execMatrixRetire (coh : Nat) (s : State) : Host.Outcome State Fault Refusal :=
  if s.heated coh then event s
  else event ((if s.oldestDone coh then s else s.computeMatrix coh).retireMatrix coh)

/-- Flags of the matrix instructions of a warp that have been carried out and not retired (R220). -/
def Cohort.matFlags (c : Cohort) (warp : Nat) : List (BitVec 7) :=
  (c.mats.filter fun o => (o.tids.head?.map warpOf) == some warp).filterMap fun o => o.done.map (·.1)

end Sys2Proof.Machine
end

