-- ==== Sys2Proof/Machine/CopyDesc.lean ====
section
/-! DEFINITION. Copy descriptors (R243 to R245): their fields, the checks at issue (R242), and the scratchpad ranges that
the range scoreboard records (R251). -/

namespace Sys2Proof.Machine

/-- A copy descriptor (Table 11-2). -/
structure CDesc where
  dir : Nat
  /-- 0 RAW, 1 DECODE, 2 ENCODE, 3 PLANES. -/
  conv : Nat
  etype : Nat
  rnd : Nat
  /-- P field: planes − 1. -/
  p : Nat
  kblk : Nat
  rows : Nat
  gaddr : Dword
  gdst : Dword
  gpitch : Nat
  rowlen : Nat
  saddr : Nat
  spitch : Nat
  ebase : Nat
  comp : Nat
  nocomp : Bool
  deriving DecidableEq, Repr

/-- The fields of a copy descriptor. -/
def cdescOf (b : List Byte) : CDesc :=
  let w := blkWord b 0
  { dir := bitsOf w 1 0, conv := bitsOf w 3 2, etype := bitsOf w 7 4, rnd := bitsOf w 9 8, p := bitsOf w 13 10,
    kblk := bitsOf w 15 14, rows := blkWord b 4, gaddr := BitVec.ofNat 64 (field b 8 8),
    gdst := BitVec.ofNat 64 (field b 16 8), gpitch := blkWord b 0x18, rowlen := blkWord b 0x1C,
    saddr := bitsOf (blkWord b 0x20) 20 0, spitch := blkWord b 0x24, ebase := bitsOf (blkWord b 0x28) 20 0,
    comp := bitsOf (blkWord b 0x2C) 20 0, nocomp := bitsOf (blkWord b 0x2C) 31 31 == 1 }

/-- Planes, chunks, K-block size of a PLANES copy. -/
def CDesc.planes (d : CDesc) : Nat := d.p + 1
def CDesc.kc (d : CDesc) : Nat := d.spitch % 64 + 1
def CDesc.kb (d : CDesc) : Nat := 16 * 2 ^ d.kblk

/-- Scratchpad format of DECODE and ENCODE. -/
def CDesc.efmt (d : CDesc) : Fmt := if d.etype = 8 then .f32 else if d.etype = 9 then .f16 else .bf16

/-- Rounding of DECODE and ENCODE. -/
def CDesc.rmode (d : CDesc) : Rnd := if d.rnd = 0 then .rn else if d.rnd = 1 then .rz else if d.rnd = 2 then .rd else .ru

/-- Bytes of an element of DECODE and ENCODE in the scratchpad. -/
def CDesc.ebytes (d : CDesc) : Nat := if d.etype = 8 then 4 else 2

/-- Bytes of a scratchpad row of ACPY. -/
def CDesc.rowBytes (d : CDesc) : Nat := if d.conv = 0 then d.rowlen else d.rowlen * d.ebytes

/-- Check 3 of R242: reserved bits, ranges and combinations (R243 to R245, Table 17-3). -/
def cdescOk (b : List Byte) (planes : Bool) : Bool :=
  let d := cdescOf b
  let conv := d.conv == 1 || d.conv == 2
  bitsOf (blkWord b 0) 31 16 == 0 && bitsOf (blkWord b 0x20) 31 21 == 0 && bitsOf (blkWord b 0x28) 31 21 == 0 &&
  bitsOf (blkWord b 0x2C) 30 21 == 0 && field b 0x30 16 == 0 && d.dir != 3 &&
  (if conv then 8 ≤ d.etype && d.etype ≤ 10 else d.etype == 0 && d.rnd == 0) &&
  (if planes then 1 ≤ d.p && d.kblk != 3 else d.p == 0 && d.kblk == 0 && d.ebase == 0) &&
  1 ≤ d.rowlen && d.rowlen ≤ 2 ^ 20 && (d.dir == 2 || d.gdst == 0) && d.comp % 8 == 0 && (!d.nocomp || d.comp == 0) &&
  (if planes then
    d.conv == 3 && d.dir == 0 && d.rows % 32 == 0 && 32 ≤ d.rows && d.rows ≤ 256 && d.saddr % 128 == 0 &&
    d.ebase % 2 == 0 && d.spitch < 64 && d.rowlen ≤ 1024 * d.kc
   else
    d.conv != 3 && 1 ≤ d.rows && d.rows ≤ 65536 && (d.dir == 2 || d.rows == 1 || d.rowBytes ≤ d.spitch) &&
    (if d.conv = 0 then
      d.gaddr.toNat % 4 == 0 && d.gdst.toNat % 4 == 0 && d.gpitch % 4 == 0 && d.saddr % 4 == 0 && d.spitch % 4 == 0 &&
      d.rowlen % 4 == 0
     else if d.conv = 1 then d.dir == 0 else d.dir == 1))

/-- The rows of the scratchpad that ACPY touches. -/
def CDesc.rowAreas (d : CDesc) : List (Nat × Nat) :=
  (List.range d.rows).map fun r => (d.saddr + r * d.spitch, d.rowBytes)

/-- Bytes that ACPYT's tiles and records take. -/
def CDesc.tileBytes (d : CDesc) : Nat := 4096 * (d.rows / 32) * d.kc * d.planes
def CDesc.recBytes (d : CDesc) : Nat := 2 * d.rows * (1024 * d.kc / d.kb)

/-- Every scratchpad area that a copy reads or writes (R242, check 4). -/
def CDesc.areas (d : CDesc) : List (Nat × Nat) :=
  (if d.nocomp then [] else [(d.comp, 8)]) ++
  (if d.conv = 3 then [(d.saddr, d.tileBytes), (d.ebase, d.recBytes)] else if d.dir = 2 then [] else d.rowAreas)

/-- The smallest interval, start and end, that covers the rows. -/
def CDesc.rowSpan (d : CDesc) : Nat × Nat := (d.saddr, d.saddr + (d.rows - 1) * d.spitch + d.rowBytes)

/-- The write range of a copy (R251). -/
def CDesc.writeRange (d : CDesc) : Option (Nat × Nat) :=
  if d.conv = 3 then
    some (min d.saddr d.ebase, max (d.saddr + d.tileBytes) (d.ebase + d.recBytes))
  else if d.dir = 0 then some d.rowSpan else none

/-- The read range of a copy (R251). -/
def CDesc.readRange (d : CDesc) : Option (Nat × Nat) := if d.conv ≠ 3 && d.dir = 1 then some d.rowSpan else none

/-- The copy takes a range-scoreboard entry (R354). -/
def CDesc.takesEntry (d : CDesc) : Bool := d.dir != 2

/-- n bytes from a overlap a range. -/
def overlapsRange (r : Option (Nat × Nat)) (a n : Nat) : Bool :=
  match r with
  | none => false
  | some (lo, hi) => decide (a < hi) && decide (lo < a + n)

/-- Row and byte in it of a scratchpad address of ACPY's rows. -/
def CDesc.rowAt (d : CDesc) (a : Nat) : Nat × Nat :=
  if d.rows ≤ 1 then (0, a - d.saddr) else ((a - d.saddr) / d.spitch, (a - d.saddr) % d.spitch)

/-- An access to n scratchpad bytes of a cohort is held by a copy in flight (R251). -/
def State.held (s : State) (coh a n : Nat) (store : Bool) : Bool :=
  s.copies.any fun c =>
    let d := cdescOf c.2.desc
    c.2.coh == coh && (overlapsRange d.writeRange a n || (store && overlapsRange d.readRange a n))

end Sys2Proof.Machine
end

