-- ==== Sys2Proof/Machine/LocalStore.lean ====
section
/-! DEFINITION. Local addresses: the scratchpad and the stash with its slots and lines (R235 to R240). -/

namespace Sys2Proof.Machine

/-- First local address of the stash (R235). -/
def stashBase : Nat := 0x200000

/-- A local offset lies in the stash (R235). -/
def Cohort.isStashAddr (c : Cohort) (a : Nat) : Bool := stashBase ≤ a && a < stashBase + 65536 * c.stash

/-- Where a local access goes (R235). -/
inductive LPlace where
  | scratch (a : Nat)
  /-- Stash byte offset, and the slot that maps it. -/
  | stash (off : Nat) (slot : StashSlot)
  deriving DecidableEq, Repr

/-- The slot that maps a stash byte. -/
def Cohort.slotAt (c : Cohort) (off : Nat) : Option StashSlot :=
  (c.slots.find? fun e => e.2.s ≤ off && off < e.2.s + e.2.len).map (·.2)

/-- The place of n bytes at a local address; none: LS_RANGE (R235). -/
def Cohort.localPlace (c : Cohort) (a n : Nat) : Option LPlace :=
  if a + n ≤ c.scratch then some (.scratch a)
  else if stashBase ≤ a && a + n ≤ stashBase + 65536 * c.stash then
    (c.slotAt (a - stashBase)).map fun s => .stash (a - stashBase) s
  else none

/-- The global pointer of a stash line (R236, R237). -/
def StashSlot.linePtr (sl : StashSlot) (line : Nat) : Dword := sl.va + BitVec.ofNat 64 (128 * line - sl.s)

/-- The access that an LDL or STL of n bytes at a stash byte makes to the mapped global location (R237); its faults report
the local address (R289). -/
def StashSlot.access (sl : StashSlot) (off n : Nat) (store : Bool) : Access :=
  { ptr := sl.va + BitVec.ofNat 64 (off - sl.s), n := n, rd := !store, wr := store, acc := if store then 1 else 0
    faddr := some (BitVec.ofNat 64 (stashBase + off)) }

/-- The access that a fill makes to a granule of its line, whose faults report the granule (R237). -/
def fillAccess (x : Access) (ptr : Dword) : Access := { ptr := ptr, n := 32, rd := x.rd, wr := x.wr, acc := 5 }

/-- The checks of a fill from watchpoints on, over the granules of its line, ascending (R237, R278, R281); watchpoints match
the bytes of the access (R288). -/
def fillChecks (w : Who) (x : Access) (ptr : Dword) (p : Place) (n : Nat) : M Unit :=
  match n with
  | 0 => pure ()
  | n + 1 => do
    let a := (fillAccess x ptr).at_ p.log
    if (← get).errAt w a then throw (accFault .memErr a)
    if (vaOf ptr).toNat = (vaOf x.ptr).toNat / 32 * 32 then checkWatch w (x.at_ p.log)
    if !pteRes p.pte then throw (accFault .notResident a)
    checkTag w a p
    if ← linkNeedM p.key then throw (accFault .memErr a)
    fillChecks w x (ptr + 32) { p with key := p.key + 32 } n

/-- Fills the line of an access through one leaf, whole (R237, R279). The fill recalls the line from every other cohort that
holds it (R238). -/
def fillLine (e : Env) (line : Nat) (ptr : Dword) (x : Access) (r : Walked) : M StashLine := do
  let p ← placeOf e.who (fillAccess x ptr) r
  fillChecks e.who x ptr p 4
  let b ← readMemM p.key 128
  let l : StashLine := { key := p.key, va := ptr, bytes := b, dirty := 0 }
  modify fun s => s.modCohort e.coh fun c => { c with lines := aset c.lines line l }
  pure l

/-- Writes back the dirty bytes of a cohort's lines that a test selects; they stay present and clean, or become absent
(R239, R240). -/
def State.flushLines (s : State) (coh : Nat) (sel : Nat → Bool) (drop : Bool) : State :=
  match aget s.cohorts coh with
  | none => s
  | some c =>
    let hit := fun (e : Nat × StashLine) => sel e.1
    (s.writeBack (s.cohPid c) ((c.lines.filter hit).map (·.2))).modCohort coh fun c =>
      { c with lines := if drop then c.lines.filter fun e => !hit e
        else c.lines.map fun e => if hit e then (e.1, e.2.clean) else e }

/-- A line of a cohort is written back and made absent, or recalled by a read: cleaned only (R238, R239). -/
def State.dropLine (s : State) (coh line : Nat) (write : Bool) : State := s.flushLines coh (· == line) write

/-- A leaf maps a line that is present to another frame than the one that the line was filled from (R279). -/
def State.movedBy (s : State) (w : Who) (l : StashLine) (r : Walked) : Bool :=
  match r with
  | .leaf pte log => (s.physKey w.pid (leafAddr pte log (vaOf l.va))).any (· != l.key)
  | _ => false

/-- The line of a stash byte for an access of n bytes: present, after the checks of the access, or filled first where it is
absent (R237, R281). The access uses one leaf, whole: where that leaf gives the page another frame than the line has, the
line leaves the stash first (R239), and the fill is from the new frame (R279). -/
def stashLine (e : Env) (off n : Nat) (sl : StashSlot) (store : Bool) : M StashLine := do
  let line := off / 128
  let ptr := sl.linePtr line
  let x := sl.access off n store
  match (aget (← get).cohorts e.coh).bind fun c => aget c.lines line with
  | none => fillLine e line ptr x (← walkFor e.who (fillAccess x ptr))
  | some l =>
    let r ← walkFor e.who x
    if (← get).movedBy e.who l r then
      modify fun s => s.dropLine e.coh line true
      fillLine e line ptr x r
    else
      let p ← placeOf e.who x r
      if ← checkFrom4 e.who x p then pure l else throw (accFault .notResident (x.at_ p.log))

/-- Marks n bytes of a dirty mask from bit i. -/
def markDirty (m : BitVec 128) (i n : Nat) : BitVec 128 := m ||| (BitVec.ofNat 128 (2 ^ n - 1) <<< i)

/-- Replaces bytes of a list from position i. -/
def setBytes (bs : List Byte) (i : Nat) (new : List Byte) : List Byte :=
  bs.take i ++ new ++ bs.drop (i + new.length)

/-- Every other copy of the bytes that a stash write changes is recalled (R238), those of the cohort's own lines that map
the same frame among them (R280): only the line written stays. -/
def State.recallOthers (s : State) (coh line key n : Nat) : State :=
  match (aget s.cohorts coh).bind fun c => aget c.lines line with
  | none => s.recall key n true
  | some l =>
    let s' := (s.modCohort coh fun c => { c with lines := adel c.lines line }).recall key n true
    s'.modCohort coh fun c => { c with lines := aset c.lines line l }

/-- Reads n bytes at a local place, as an acquire where a scope is given. -/
def readLocal (e : Env) (acq : Option Scope) (p : LPlace) (n : Nat) : M (List Byte) := do
  match p with
  | .scratch a =>
    let s ← get
    seeM e acq (spKey e.coh a) (sread (s.spOf e.coh) a n)
  | .stash off sl =>
    let l ← stashLine e off n sl false
    seeM e acq (l.key + off % 128) ((l.bytes.drop (off % 128)).take n)

/-- Puts the bytes of write ts into a present stash line, which keeps which bytes are dirty (R239). -/
def StashLine.put (l : StashLine) (i : Nat) (bs : List Byte) (ts : Nat) : StashLine :=
  { l with bytes := setBytes l.bytes i bs, dirty := markDirty l.dirty i bs.length, fresh := l.fresh ++ [ts] }

/-- A store of the thread to a present stash line. -/
def storeLine (e : Env) (rel : Option Scope) (line i : Nat) (l : StashLine) (bs : List Byte) : M Unit := do
  let ts := (← get).nextId
  let fin ← placeM e rel (l.key + i) ((l.bytes.drop i).take bs.length) bs
  modify fun s => (s.recallOthers e.coh line (l.key + i) bs.length).modCohort e.coh fun c =>
    { c with lines := aset c.lines line (l.put i fin ts) }

/-- A store of the thread to its cohort's scratchpad. -/
def storeSp (e : Env) (rel : Option Scope) (a : Nat) (bs : List Byte) : M Unit := do
  let s ← get
  let fin ← placeM e rel (spKey e.coh a) (sread (s.spOf e.coh) a bs.length) bs
  modify fun s => s.putSp e.coh a fin

/-- Writes bytes at a local place, as a release where a scope is given. -/
def writeLocal (e : Env) (rel : Option Scope) (p : LPlace) (bs : List Byte) : M Unit := do
  match p with
  | .scratch a => storeSp e rel a bs
  | .stash off sl =>
    let l ← stashLine e off bs.length sl true
    storeLine e rel (off / 128) (off % 128) l bs

end Sys2Proof.Machine
end

