-- ==== Sys2Proof/Machine/Memory.lean ====
section
/-! DEFINITION. Loads, stores, atomics, prefetch, page requests, code flushes and tag accesses (R357 to R362, R394 to
R396, R433 to R436, R453, R454, R458, R467 to R469, R495 to R500). -/

namespace Sys2Proof.Machine

/-! ## Shared operations -/

/-- DSHR of a leaf (R276). -/
def pteDshr (pte : Nat) : Bool := bitsOf pte 6 6 == 1

/-- Misalignment (R257): ILLEGAL_OPERAND with the address. -/
def alignCheck (a n : Nat) (addr : Dword) (acc : Nat) : M Unit :=
  if a % n = 0 then pure () else throw { kind := .illegalOperand, acc := acc, addr := addr }

/-- The registers that a load of some bytes writes, with their words (Table 19-7). -/
def loadWords (sz : MSize) (sgn : Bool) (d : Reg) (bs : List Byte) : List (Reg × Word) :=
  let x := leNat bs
  let w := fun (i : Nat) => (regPlus d i, (BitVec.ofNat 32 (x / 2 ^ (32 * i)) : Word))
  if d = .v 255 then []
  else match sz with
    | .b1 => [(d, BitVec.ofInt 32 (intOf 8 sgn x))]
    | .b2 => [(d, BitVec.ofInt 32 (intOf 16 sgn x))]
    | .b4 => [w 0]
    | .b8 => [w 0, w 1]
    | .b16 => [w 0, w 1, w 2, w 3]

/-- The end of a load: one LDC operation whose destinations are pending (R231, R435); in a template of two or more ops it
completes here (R132). `src`: the global reads whose data it waits for. -/
def finishLoad (e : Env) (dests : List (Reg × Word)) (preds : List (Nat × Bool)) (fault : Option FaultInfo)
    (src : List Access := []) : M Flow := do
  let o : OutOp := { cls := .ldc, id := 0, dests := dests, preds := preds, fault := fault,
                     src := src.map fun a => (a.acc, vaOf a.ptr, a.page) }
  if e.multiOp then
    match fault with
    | some f => throw f
    | none => modTh e fun t => t.writeDests o
  else
    modify fun s =>
      let (id, s) := s.freshId
      s.modThread e.tid fun t => t.addOut e { o with id := id }
  pure .done

/-- A load has to wait for a free LDC slot (R233). -/
def Env.ldcFull (e : Env) : Bool := !e.multiOp && !e.th.hasRoom .ldc

/-- The residency predicate of a load, as a result (R282). -/
def residPred (resid : BitVec 8) (ok : Bool) : List (Nat × Bool) :=
  if resid.toNat < 15 then [(resid.toNat, ok)] else []

/-- Zeros for the registers of a load. -/
def zeroWords (ds : List (Reg × Word)) : List (Reg × Word) := ds.map fun d => (d.1, 0)

/-- What a load does on a page that is not resident: zero and false, or NOT_RESIDENT (R282, R283). -/
def absentLoad (e : Env) (a : Access) (dests : List (Reg × Word)) (resid : BitVec 8) : M Flow :=
  if resid.toNat < 15 then finishLoad e (zeroWords dests) (residPred resid false) none
  else throw (accFault .notResident a)

/-- Memory as the thread's op reads it, as an acquire where a scope is given. -/
def readMine (e : Env) (acq : Option Scope) (key n : Nat) : M (List Byte) := do
  let b ← readSeenM e acq key n
  pure (overlay e.buffered false key b)

/-- Puts a store into the expansion buffer. -/
def bufferM (e : Env) (w : BufStore) : M Unit :=
  modTh e fun t => { t with exp := t.exp.map fun x => { x with stores := x.stores ++ [w] } }

/-- A store of the thread enters memory, as a release where a scope is given; one that needs a link that is down stops the
partition (R325). -/
def storeSeen (e : Env) (rel : Option Scope) (key : Nat) (bs : List Byte) : M Unit := do
  if ← linkNeedM key then modify fun s => s.stopPartition e.ctx.pid
  else writeSeenM e rel key bs

/-- A store of the thread's op to memory: made at once, or buffered in a template of two or more ops (R132). -/
def storeMine (e : Env) (rel : Option Scope) (key : Nat) (bs : List Byte) : M Unit :=
  if e.multiOp then bufferM e { scratch := false, key := key, bytes := bs, rel := rel } else storeSeen e rel key bs

/-! ## Loads -/

/-- LD (R433 to R436). -/
def execLd (h : Hdr) (sz : MSize) (sgn : Bool) (acq : Option Scope) (d a : Reg) (off : MemOff) (resid : BitVec 8)
    (s : State) : Host.Outcome State Fault Refusal :=
  threadOp (.ld h sz sgn acq d a off resid) s fun e => do
    if e.ldcFull then return .stay
    let (acq, cl) ← clampOpt e acq
    let n := mBytes sz
    let ptr := e.th.gptr a off n
    alignCheck ptr.toNat n ptr 0
    let x : Access := { ptr := ptr, n := n, rd := true }
    let p ← checkTo3 e.who x
    let x := x.at_ p.log
    if e.needsToken && pteDshr p.pte then tokenStop e .always
    else
      let here ← checkFrom4 e.who x p
      let down ← if here then linkNeedM p.key else pure false
      if !here then absentLoad e x (loadWords sz sgn d []) resid
      else if down then
        setClamp e cl
        finishLoad e (zeroWords (loadWords sz sgn d [])) (residPred resid true) (some (accFault .memErr x))
      else
        setClamp e cl
        let b ← readMine e acq p.key n
        finishLoad e (loadWords sz sgn d b) (residPred resid true) none [x]

/-- The register type of LDT and STT. -/
def TTy.fmt : TTy → Fmt
  | .f32 => .f32 | .f16 => .f16 | .bf16 => .bf16

/-- The element of an LDT or STT: its descriptor, and whether its address and HI fit it (R434, R496). -/
def elementOf (x : Access) (dr : Except FaultInfo (Option Desc)) (hi : Bool) : M Desc := do
  let d ← formatCheck dr x
  if x.ptr.toNat % d.fmt.bytes ≠ 0 || (hi && d.fmt ≠ .f4) then
    throw { kind := .illegalOperand, acc := x.acc, addr := x.ptr }
  pure d

/-- The access of an LDT or STT and the one read of its descriptor (R205): one element of the page's descriptor, one byte
where it has none. -/
def elementAccess (e : Env) (ptr : Dword) (store : Bool) : M (Access × Place × Except FaultInfo (Option Desc)) := do
  let x : Access := { ptr := ptr, n := 1, rd := !store, wr := store, acc := if store then 1 else 0 }
  let p ← checkTo3 e.who x
  let x := x.at_ p.log
  let dr ← descFor e.who e.ctx (pteDesc p.pte)
  match dr with
  | .ok (some d) => pure ({ x with n := d.fmt.bytes }, p, dr)
  | _ => pure (x, p, dr)

/-- Where the element of an LDT is, after the checks of its access and of its scale byte. -/
inductive Element where
  /-- Its page, or that of its scale byte, is not resident: the access that finds it so. -/
  | absent (a : Access)
  /-- It or its scale byte needs a link that is down: the access that does. -/
  | down (a : Access)
  /-- Its descriptor, its scale byte and the access that read it. -/
  | here (ds : Desc) (sc : Nat) (src : List Access)
  deriving DecidableEq, Repr

/-- The checks of an LDT from check 4 on (R282, R325, R434). -/
def loadElement (e : Env) (x : Access) (p : Place) (dr : Except FaultInfo (Option Desc)) (hi : Bool) : M Element := do
  if ← checkFrom4 e.who x p then
    let ds ← elementOf x dr hi
    match ← readScale e.who ds x.ptr 0 e.buffered (readSeenM e none) with
    | .absent a => pure (.absent a)
    | .down a => pure (.down a)
    | .here sc src => if ← linkNeedM p.key then pure (.down x) else pure (.here ds sc src)
  else pure (.absent x)

/-- LDT (R433 to R436). -/
def execLdt (h : Hdr) (ty : TTy) (rnd : Rnd) (hi : Bool) (acq : Option Scope) (d a : Reg) (off : MemOff)
    (resid : BitVec 8) (s : State) : Host.Outcome State Fault Refusal :=
  threadOp (.ldt h ty rnd hi acq d a off resid) s fun e => do
    if e.ldcFull then return .stay
    let (acq, cl) ← clampOpt e acq
    let (x, p, dr) ← elementAccess e (e.th.gptr a off 1) false
    let zero : List (Reg × Word) := [(d, 0)]
    if e.needsToken && pteDshr p.pte then tokenStop e .always
    else
      match ← loadElement e x p dr hi with
      | .absent a => absentLoad e a zero resid
      | .down a =>
        setClamp e cl
        finishLoad e zero (residPred resid true) (some (accFault .memErr a))
      | .here ds sc src =>
        setClamp e cl
        let b ← readMine e acq p.key ds.fmt.bytes
        let (c, f) := roundTo (TTy.fmt ty) rnd (ds.decode (ds.codeIn b hi) sc) 0
        modTh e fun t => t.orFlags f
        finishLoad e [(d, BitVec.ofNat 32 c)] (residPred resid true) none (x :: src)

/-- LS_RANGE at a local address (R235). -/
def localFault (a : Word) (acc : Nat) : FaultInfo := { kind := .lsRange, acc := acc, addr := a.setWidth 64 }

/-- The local place of an access; a scratchpad access that a copy holds has none yet (R251). -/
def localPlaceM (e : Env) (a : Word) (n acc : Nat) : M (Option LPlace) := do
  alignCheck a.toNat n (a.setWidth 64) acc
  let s ← get
  match ((aget s.cohorts e.coh).getD e.c).localPlace a.toNat n with
  | none => throw (localFault a acc)
  | some p =>
    match p with
    | .scratch x => if s.held e.coh x n (acc == 1) then pure none else pure (some p)
    | .stash .. => pure (some p)

/-- Bytes at a local place as the thread's op reads them. -/
def overLocal (e : Env) (p : LPlace) (b : List Byte) : M (List Byte) := fun s =>
  match p with
  | .scratch a => .ok (overlay e.buffered true a b) s
  | .stash off _ =>
    match (aget s.cohorts e.coh).bind fun c => aget c.lines (off / 128) with
    | some l => .ok (overlay e.buffered false (l.key + off % 128) b) s
    | none => .ok b s

/-- LDL (R433 to R436). -/
def execLdl (h : Hdr) (sz : MSize) (sgn : Bool) (acq : Option Scope) (d a : Reg) (off : MemOff) (s : State) :
    Host.Outcome State Fault Refusal :=
  threadOp (.ldl h sz sgn acq d a off) s fun e => do
    if e.ldcFull then return .stay
    let (acq, cl) ← clampOpt e acq
    match ← localPlaceM e (e.th.lptr a off (mBytes sz)) (mBytes sz) 0 with
    | none => pure .stay
    | some p =>
      let b ← readLocal e acq p (mBytes sz)
      let b ← overLocal e p b
      setClamp e cl
      finishLoad e (loadWords sz sgn d b) [] none

/-! ## Stores -/

/-- The bytes that a store takes from its data register (R497). -/
def storeBytes (t : Thread) (sz : MSize) (b : Reg) : List Byte :=
  match sz with
  | .b1 => leBytes 1 (t.rd b).toNat
  | .b2 => leBytes 2 (t.rd b).toNat
  | .b4 => leBytes 4 (t.rd b).toNat
  | .b8 => leBytes 8 (t.rd64 b).toNat
  | .b16 => (t.rdMany b 4).flatMap fun w => leBytes 4 w.toNat

/-- ST (R495 to R498). -/
def execSt (h : Hdr) (sz : MSize) (rel : Option Scope) (a : Reg) (off : MemOff) (b : Reg) (s : State) :
    Host.Outcome State Fault Refusal :=
  threadOp (.st h sz rel a off b) s fun e => do
    let (rel, cl) ← clampOpt e rel
    let n := mBytes sz
    let ptr := e.th.gptr a off n
    alignCheck ptr.toNat n ptr 1
    let x : Access := { ptr := ptr, n := n, wr := true, acc := 1 }
    let p ← checkTo3 e.who x
    if e.needsToken && pteDshr p.pte then tokenStop e .always
    else
      if ← checkFrom4 e.who x p then
        storeMine e rel p.key (storeBytes e.th sz b)
        setClamp e cl
        pure .done
      else throw (accFault .notResident (x.at_ p.log))

/-- STL (R495 to R498). -/
def execStl (h : Hdr) (sz : MSize) (rel : Option Scope) (a : Reg) (off : MemOff) (b : Reg) (s : State) :
    Host.Outcome State Fault Refusal :=
  threadOp (.stl h sz rel a off b) s fun e => do
    let (rel, cl) ← clampOpt e rel
    match ← localPlaceM e (e.th.lptr a off (mBytes sz)) (mBytes sz) 1 with
    | none => pure .stay
    | some p =>
      if e.multiOp then
        match p with
        | .scratch a => bufferM e { scratch := true, key := a, bytes := storeBytes e.th sz b, rel := rel }
        | .stash off sl =>
          let l ← stashLine e off (mBytes sz) sl true
          bufferM e { scratch := false, key := l.key + off % 128, line := some (off / 128), bytes := storeBytes e.th sz b,
                      rel := rel }
      else writeLocal e rel p (storeBytes e.th sz b)
      setClamp e cl
      pure .done

/-- The bytes that an STT writes, with their place: an element of whole bytes, or for F4 the aligned 4-byte unit that holds
it, which it reads first (R258). -/
def elementBytes (e : Env) (ds : Desc) (key : Nat) (hi : Bool) (c : Nat) : M (Nat × List Byte) := do
  if ds.fmt = .f4 then
    let unit := key - key % 4
    let old ← readMine e none unit 4
    let i := key % 4
    pure (unit, setBytes old i (ds.codeOut ((old.drop i).take 1) hi c))
  else pure (key, ds.codeOut [] hi c)

/-- STT (R495 to R498). -/
def execStt (h : Hdr) (ty : TTy) (rnd : Rnd) (hi : Bool) (rel : Option Scope) (a : Reg) (off : MemOff) (b : Reg)
    (s : State) : Host.Outcome State Fault Refusal :=
  threadOp (.stt h ty rnd hi rel a off b) s fun e => do
    let (rel, cl) ← clampOpt e rel
    let (x, p, dr) ← elementAccess e (e.th.gptr a off 1) true
    if e.needsToken && pteDshr p.pte then tokenStop e .always
    else
      if ← checkFrom4 e.who x p then
        let ds ← elementOf x dr hi
        let sc ← (← readScale e.who ds x.ptr 1 e.buffered (readSeenM e none)).get
        let t := TTy.fmt ty
        let (c, f) := ds.encode rnd (t.val ((e.th.rd b).toNat % 2 ^ t.bits) 0) sc
        let (key, bs) ← elementBytes e ds p.key hi c
        storeMine e rel key bs
        setClamp e cl
        modTh e fun t => t.orFlags f
        pure .done
      else throw (accFault .notResident x)

/-! ## The commit of an expansion (R132) -/

/-- A buffered store enters memory: through its stash line where that is present, or to the line's memory. -/
def commitOne (e : Env) (w : BufStore) : M Unit := do
  let s ← get
  if w.scratch then storeSp e w.rel w.key w.bytes
  else
    match w.line.bind fun n => ((aget s.cohorts e.coh).bind fun c => aget c.lines n).map fun l => (n, l) with
    | some (n, l) =>
      if l.key ≤ w.key && w.key < l.key + 128 then storeLine e w.rel n (w.key - l.key) l w.bytes
      else storeSeen e w.rel w.key w.bytes
    | none => storeSeen e w.rel w.key w.bytes

/-- The stores of a thread's ended expansion enter memory in template order. -/
def State.commitStores (s : State) (tid : Nat) : State :=
  match s.envOf tid 0 with
  | none => s
  | some e =>
    if e.th.commits.isEmpty then s
    else
      let s := s.modThread tid fun t => { t with commits := [] }
      match (e.th.commits.forM (commitOne e)) s with
      | .ok _ s' => s'
      | .error _ s' => s'

/-! ## Atomics -/

/-- The new value of an atomic operation on w bits; none: no write (Table 17-5, R360). -/
def atomNew (w64 sgn : Bool) (op : AtomOp) (old b c : Nat) : Option Nat :=
  let w := if w64 then 64 else 32
  let less := decide (intOf w sgn b < intOf w sgn old)
  match op with
  | .add =>
    if sgn then
      some (if (Fmt.f32.val old 0).isNan || (Fmt.f32.val b 0).isNan then 0x7FC00000 else (fadd' .f32 .rn old false b).1)
    else some ((old + b) % 2 ^ w)
  | .min => some (if less then b else old)
  | .max => some (if less then old else b)
  | .and => some (Nat.land old b)
  | .or => some (Nat.lor old b)
  | .xor => some (Nat.xor old b)
  | .exch => some b
  | .cas => if old = b then some c else none

/-- The atomic step of ATOM and RED (R359): its access after the checks, and the value before. None: a read over a link that
is down, or a write over one, which stops the partition (R325). -/
def atomStep (e : Env) (w64 sgn : Bool) (op : AtomOp) (acq rel : Option Scope) (ptr : Dword) (b c : Nat) (ret : Bool) :
    M (Access × Option Nat) := do
  let n := if w64 then 8 else 4
  alignCheck ptr.toNat n ptr 2
  let x : Access := { ptr := ptr, n := n, rd := true, wr := true, acc := 2 }
  let p ← checkPlace e.who x
  if ← linkNeedM p.key then
    if !ret then modify fun s => s.stopPartition e.ctx.pid
    pure (x.at_ p.log, none)
  else
    let old ← rmwM e acq rel p.key n fun bs => (atomNew w64 sgn op (leNat bs) b c).map (leBytes n)
    pure (x.at_ p.log, some (leNat old))

/-- The scope of an ATOM, where it has an order. -/
def atomScope (ord : AtomOrd) (scope : Scope) : Option Scope := if ord = .plain then none else some scope

/-- The scope of the release of an ATOM (R362). -/
def atomRel (ord : AtomOrd) (scope : Option Scope) : Option Scope := if ord = .acqrel then scope else none

/-- ATOM (R357 to R362). -/
def execAtom (h : Hdr) (w64 sgn : Bool) (op : AtomOp) (ord : AtomOrd) (scope : Scope) (d a : Reg) (off : MemOff)
    (b : Reg) (s : State) : Host.Outcome State Fault Refusal :=
  threadOp (.atom h w64 sgn op ord scope d a off b) s fun e => do
    let ret := d != .v 255
    if ret && e.ldcFull then return .stay
    if e.needsToken then return ← tokenStop e .always
    let (sc, cl) ← clampOpt e (atomScope ord scope)
    let ptr := e.th.gptr a off (if w64 then 8 else 4)
    let bv := (e.th.rdW w64 b).toNat
    let cv := (e.th.rdW w64 (regPlus b (if w64 then 2 else 1))).toNat
    let (x, old) ← atomStep e w64 sgn op sc (atomRel ord sc) ptr bv cv ret
    setClamp e cl
    let sz : MSize := if w64 then .b8 else .b4
    match ret, old with
    | false, _ => pure .done
    | true, some v => finishLoad e (loadWords sz false d (leBytes 8 v)) [] none [x]
    | true, none => finishLoad e (zeroWords (loadWords sz false d [])) [] (some (accFault .memErr x))

/-- RED (R467 to R469). -/
def execRed (h : Hdr) (w64 sgn : Bool) (op : AtomOp) (rel : Option Scope) (a : Reg) (off : MemOff) (b : Reg)
    (s : State) : Host.Outcome State Fault Refusal :=
  threadOp (.red h w64 sgn op rel a off b) s fun e => do
    if e.needsToken then return ← tokenStop e .always
    let (rel, cl) ← clampOpt e rel
    let _ ← atomStep e w64 sgn op none rel (e.th.gptr a off (if w64 then 8 else 4)) (e.th.rdW w64 b).toNat 0 false
    setClamp e cl
    pure .done

/-! ## Prefetch, page requests, code flushes -/

/-- PREF: no architectural effect (R458). -/
def execPref (h : Hdr) (l1 : Bool) (a : Reg) (off : MemOff) (s : State) : Host.Outcome State Fault Refusal :=
  aluOp (.pref h l1 a off) s fun e => e.th

/-- RDIDX of a context's fault queue, as memory holds it (R293); none where it cannot be read. -/
def State.fqRdidx (s : State) (cid : Nat) (ctx : Ctx) : Option Nat × State :=
  match s.agentRead (agentOf cid ctx) (untag ctx.con.fqbase) 8 s.agentWrites with
  | (some b, s') => (some (field b 4 4), s')
  | (none, s') => (none, s')

/-- A request for the page is outstanding: a posted record that names it has not been consumed (R284). -/
def State.requested (s : State) (cid : Nat) (ctx : Ctx) (page : Nat) : Bool × State :=
  let (rd, s') := s.fqRdidx cid ctx
  let consumed := match rd with
    | none => 0
    | some r => ctx.posted - (ctx.posted + 2 ^ 32 - r) % 2 ^ 32
  (ctx.requests.any fun q => q.1 == page && consumed ≤ q.2, s')

/-- PGREQ (R453, R454): the post of R284, during which the thread is not runnable (R294). -/
def execPgreq (h : Hdr) (a : Reg) (off : BitVec 8) (s : State) : Host.Outcome State Fault Refusal :=
  threadOp (.pgreq h a off) s fun e => do
    let x : Access := { ptr := e.th.rd64 a + off.signExtend 64, n := 1, acc := 7 }
    let p ← checkTo3 e.who x
    if !pteRes p.pte then
      let f := accFault .notResident (x.at_ p.log)
      modify fun s =>
        let post := { s.postOf e f false with tids := [e.tid] }
        let (out, s') := s.requested e.cid e.ctx post.page
        if out then s'
        else (s'.modThread e.tid fun t => { t with status := .posting false }).queuePost e.cid post
    pure .done

/-- Clusters of a scope's instance from .cluster to .device. -/
def State.clustersIn (s : State) (e : Env) (sc : Scope) : List Nat :=
  match sc with
  | .cluster => [clusterOf e.core]
  | .sect => (List.range 16).map fun i => secOfCore e.core * 16 + i
  | _ => (s.coresOf e.ctx.pid).map clusterOf

/-- A structure of a cluster's caches lies in the range [va, va + n) by its own bytes. -/
def Seen.inRange (v : Seen) (va n : Nat) : Bool :=
  rangesMeet (v.addr % 2 ^ 57) (v.vals.foldl (fun n b => max n b.length) 0) va n

/-- A personality of a context as a cluster holds it belongs to the range by its directory entry or by any byte of a table
that an entry in the store names (R142, R395). -/
def State.slotInRange (s : State) (cluster cid p dir va n : Nat) : Bool :=
  rangesMeet dir 16 va n ||
  s.seen.any fun u =>
    (u.what == 1 || u.what == 6) && u.cluster == cluster && u.cid == cid && u.addr % 2 ^ 64 == p * 2 ^ 57 + dir &&
    u.vals.any fun b => rangesMeet (vaOf (BitVec.ofNat 64 (field b 0 8))).toNat (field b 8 3) va n

/-- A structure of a cluster's caches is invalidated by a flush of a range: a code line or a descriptor by its own bytes, a
slot of the personality store with its personality, and decoded ops by either (R142, R395). -/
def State.flushReaches (s : State) (persdir va n : Nat) (v : Seen) : Bool :=
  let p := v.addr / 2 ^ 57 % 2 ^ 7
  let slot := s.slotInRange v.cluster v.cid p (persdir + 16 * p) va n
  if v.what = 0 || v.what = 2 then v.inRange va n
  else if v.what = 1 then slot
  else if v.what = 5 then slot || v.inRange va n || rangesMeet (v.addr / 2 ^ 64) 128 va n
  else v.what == 6 && (slot || rangesMeet (v.addr / 2 ^ 64) 128 va n)

/-- Invalidates a context's code lines, personality-store slots, decoded ops and descriptors that overlap a range (R395);
what the flushing thread's reads no longer return enters those caches no more (R142). -/
def State.flushCode (s : State) (cid : Nat) (clusters known : List Nat) (va n : Nat) : State :=
  let persdir := ((aget s.ctxs cid).map fun c => (vaOf c.con.persdir).toNat).getD 0
  { s with
    seen := s.seen.filter fun v => !(v.cid == cid && clusters.contains v.cluster && s.flushReaches persdir va n v)
    flushes := if s.hist.isEmpty then s.flushes
      else s.flushes ++ [{ cid := cid, clusters := clusters, va := va, n := n, known := known }] }

/-- CFLUSH.CODE (R394 to R396). -/
def execCflush (h : Hdr) (scope : Scope) (a b : Reg) (s : State) : Host.Outcome State Fault Refusal :=
  threadOp (.cflush h scope a b) s fun e => do
    let sc := match scope with
      | .warp | .cohort | .core => .cluster
      | .domain | .system => .device
      | x => x
    let (sc, cl) ← clampScope e sc
    let ptr := e.th.rd64 a
    if !ptrOk ptr then throw { kind := .addrForm, addr := ptr }
    let n := (e.th.rd b).toNat
    if n ≠ 0 then modify fun s => s.flushCode e.cid (s.clustersIn e sc) (s.ordOf e.tid).known (vaOf ptr).toNat n
    setClamp e cl
    pure .done

/-! ## Memory tags -/

/-- The pointer of the granule that holds an address. -/
def granulePtr (p : Dword) : Dword := p &&& ~~~(31#64)

/-- Checks 1 to 5 for a tag access to a granule, and its place (R500). -/
def tagPlace (w : Who) (ptr faddr : Dword) (store : Bool) : M Place := do
  let x : Access := { ptr := granulePtr ptr, n := 32, rd := !store, wr := store, acc := if store then 1 else 0,
                      faddr := some faddr }
  let p ← checkTo3 w x
  let x := x.at_ p.log
  checkWatch w x
  if !pteRes p.pte then throw (accFault .notResident x)
  pure p

/-- TAGLD (R499, R500). -/
def execTagld (h : Hdr) (d a : Reg) (off : MemOff) (s : State) : Host.Outcome State Fault Refusal :=
  threadOp (.tagld h d a off) s fun e => do
    if e.ldcFull then return .stay
    let ptr := e.th.gptr a off 32
    let p ← tagPlace e.who ptr ptr false
    let t ← if isLocalKey p.key then seeTag e.who false p.key else pure 0
    let v : Word := t.setWidth 32
    finishLoad e (if d = .v 255 then [] else [(d, v)]) [] none [{ ptr := granulePtr ptr, n := 32, log := p.log }]

/-- The places of n granules, each checked, ascending (R500). -/
def tagPlaces (w : Who) (ptr : Dword) (n : Nat) (first : Dword) : M (List Nat) :=
  match n with
  | 0 => pure []
  | n + 1 => do
    let p ← tagPlace w ptr first true
    let next := granulePtr ptr + 32
    let rest ← tagPlaces w next n next
    pure (p.key :: rest)

/-- Tags a thread's granules, each a plain store of its tag's location; the stores are not ordered among themselves, and
follow what the thread's program orders before them (R500). -/
def storeTags (tid : Nat) (ks : List Nat) (v : BitVec 4) (s : State) : State :=
  let o := s.ordFor tid
  let r := ks.foldl (fun (x : List Nat × State) k =>
    let (fin, o', s) := x.2.placeWrite o [] (tagKey k) [(sget x.2.tags (k / 32)).setWidth 8] [v.setWidth 8]
    (joinView x.1 o'.view, State.noteMade { s with tags := sset s.tags (k / 32) ((fin.headD 0).setWidth 4) } tid x.2.nextId)) ([], s)
  r.2.setOrd tid (o.join r.1)

/-- TAGST (R499, R500). -/
def execTagst (h : Hdr) (a : Reg) (off : MemOff) (b : Reg) (s : State) : Host.Outcome State Fault Refusal :=
  threadOp (.tagst h a off b) s fun e => do
    let v := (e.th.rd b).toNat
    if bitsOf v 7 4 ≠ 0 || bitsOf v 31 16 ≠ 0 then throw (opFault .illegalOperand)
    let ptr := e.th.gptr a off 32
    let ks ← tagPlaces e.who ptr (bitsOf v 15 8 + 1) ptr
    modify (storeTags e.tid (ks.filter isLocalKey) (BitVec.ofNat 4 v))
    pure .done

end Sys2Proof.Machine
end

