-- ==== Sys2Proof/Machine/Sync.lean ====
section
/-! DEFINITION. Waiting and ordering: WAITC (R234, R504, R505), FENCE (R412 to R414), BAR (R370 to R376), AWAIT (R363 to
R367), YIELD (R517), BACKOFF (R368, R369), RPOST, RTAKE (R475, R476) and SETCTL (R480, R481). -/

namespace Sys2Proof.Machine

/-- The thread passes its op and then stands in a state. -/
def passInto (e : Env) (i : Instr) (st : TStatus) : M Flow := do
  modTh e fun t => { t.pass e i true none with status := st }
  pure .stay

/-! ## WAITC -/

/-- What holds a thread at the operations that its WAITC or EXIT covers. -/
inductive Cover where
  /-- All have retired. -/
  | clear
  | held
  | parked (copy : Nat)
  | fault (id : Nat) (f : FaultInfo)
  deriving DecidableEq, Repr

/-- A covered operation is a parked copy (R248). -/
def State.parkedOp (s : State) (o : OutOp) : Bool := ((aget s.copies o.id).map Copy.parked).getD false

/-- What the covered operations do to the thread: it waits until all have retired, parked where one is a parked copy, and
then takes their faults, oldest first (R234, R248, R292, R404). -/
def State.coverOf (s : State) (os : List OutOp) : Cover :=
  match os.find? s.parkedOp with
  | some o => .parked o.id
  | none =>
    if os.all OutOp.returned then
      match os.find? fun o => o.fault.isSome with
      | some o => .fault o.id (o.fault.getD (opFault .memErr))
      | none => .clear
    else .held

/-- A fault of an operation is delivered once. -/
def Thread.delivered (t : Thread) (id : Nat) : Thread :=
  { t with out := t.out.map fun o => if o.id = id then { o with fault := none } else o }

/-- A thread takes the fault of an earlier operation at its WAITC or EXIT. -/
def State.deliver (s : State) (e : Env) (long : Bool) (id : Nat) (f : FaultInfo) : State :=
  let s := s.modThread e.tid fun t => t.delivered id
  s.takeFault { e with th := e.th.delivered id } long f

/-- WAITC (R234, R504, R505). -/
def execWaitc (h : Hdr) (cls : CtrClass) (n : BitVec 5) (s : State) : Host.Outcome State Fault Refusal :=
  let i := Instr.waitc h cls n
  guarded i s fun e =>
    match s.coverOf (e.th.covered cls n.toNat) with
    | .held => s
    | .parked c => s.modThread e.tid fun t => { t with status := .parkedCopy c }
    | .fault id f => s.deliver e false id f
    | .clear =>
      let wrote := (e.th.covered cls n.toNat).foldl (fun v o => joinView v o.wrote) []
      (s.modWarp e.warp fun w => { w with covered := joinView w.covered (s.spWrites wrote) }).setThread e.tid
        ((e.th.cover cls n.toNat).pass e i true none)

/-! ## FENCE -/

/-- FENCE at the scope at which it is performed (R265 to R267, R412 to R414). -/
def execFence (h : Hdr) (scope : Scope) (s : State) : Host.Outcome State Fault Refusal :=
  threadOp (.fence h scope) s fun e => do
    let (sc, cl) ← clampScope e scope
    modify fun s => s.fenceBy e.tid (e.insts sc)
    setClamp e cl
    pure .done

/-! ## BAR -/

/-- BAR, named form (R371 to R373, R375, R376). -/
def execBar (h : Hdr) (scope : Scope) (arv : Bool) (b : BitVec 8) (m : Reg) (s : State) :
    Host.Outcome State Fault Refusal :=
  let i := Instr.bar h scope arv b m
  threadOp i s fun e => do
    let (sc, cl) ← clampScope e scope
    let n := b.toNat
    if e.c.nbar ≤ n then throw (opFault .illegalOperand)
    let bar := e.c.bar n
    if bar.arrived.contains e.tid then return .stay
    if e.needsToken then return ← tokenStop e .always
    let mask := barMask e m
    if barRefused e mask bar then throw (opFault .illegalOperand)
    setClamp e cl
    departM e i arv (.named n bar.phase) (.named n bar.phase)
    let rel ← releaseM e sc
    modify fun s => State.barCheck e.coh (s.barArrive e.coh e.tid n mask rel) n
    pure .stay

/-- BAR, group form (R37, R374, R375). -/
def execBarGrp (h : Hdr) (scope : Scope) (arv : Bool) (g : BitVec 8) (s : State) : Host.Outcome State Fault Refusal :=
  let i := Instr.barGrp h scope arv g
  threadOp i s fun e => do
    let (sc, cl) ← clampScope e scope
    let n := g.toNat
    if !e.member n then throw (opFault .illegalOperand)
    let bar := e.l.gbar n
    if bar.arrived.contains e.tid then return .stay
    if e.needsToken then return ← tokenStop e .always
    setClamp e cl
    departM e i arv (.grp n bar.phase) (.grp n bar.phase)
    let rel ← releaseM e sc
    modify fun s => State.grpCheck e.c.launch (s.grpArrive e.c.launch e.tid n rel) n
    pure .stay

/-! ## AWAIT -/

/-- The condition of an AWAIT (Table 17-8) on a value of w bits. -/
def awaitCond (w64 : Bool) (cmp : AwaitCmp) (v b : Dword) : Bool :=
  let n := if w64 then 64 else 32
  let x := v.toNat % 2 ^ n
  let y := b.toNat % 2 ^ n
  match cmp with
  | .eq => x == y
  | .ne => x != y
  | .geu => decide (y ≤ x)
  | .ltu => decide (x < y)
  | .ges => decide (sextInt n y ≤ sextInt n x)
  | .lts => decide (sextInt n x < sextInt n y)
  | .any => Nat.land x y != 0
  | .none => Nat.land x y == 0

/-- Bytes that an AWAIT reads. -/
def AwaitSpec.size (a : AwaitSpec) : Nat := if a.w64 then 8 else 4

/-- The value in the bytes that an AWAIT reads. -/
def awaitVal (b : List Byte) : Dword := BitVec.ofNat 64 (leNat b)

/-- One read of an AWAIT, with its checks (R364, R366); the read that ends the wait is an acquire. -/
def awaitRead (e : Env) (a : AwaitSpec) : M Dword := do
  let n := a.size
  let acq := fun (b : List Byte) => if awaitCond a.w64 a.cmp (awaitVal b) a.b then some a.scope else none
  alignCheck a.a.toNat n a.a 0
  if a.loc then
    if e.c.isStashAddr a.a.toNat then
      throw { kind := .illegalOperand, acc := 0, addr := a.a }
    if e.c.scratch < a.a.toNat + n then throw { kind := .lsRange, acc := 0, addr := a.a }
    let s ← get
    let b ← seeIfM e acq (spKey e.coh a.a.toNat) (sread (s.spOf e.coh) a.a.toNat n)
    pure (awaitVal b)
  else
    let p ← checkRead e.who { ptr := a.a, n := n, rd := true }
    let b ← seeIfM e acq p.key (← readMemM p.key n)
    pure (awaitVal b)

/-- The end of a wait (R364). -/
def awaitEnd (e : Env) (a : AwaitSpec) (v : Dword) : M Flow := do
  setClamp e a.clamp
  modTh e fun t => t.wrW a.w64 a.d v
  pure .done

/-- One read of an AWAIT and what it leads to. -/
def awaitTry (e : Env) (a : AwaitSpec) : M Flow := do
  let v ← awaitRead e a
  if awaitCond a.w64 a.cmp v a.b then awaitEnd e a v
  else
    modTh e fun t => { t with status := .awaiting a }
    pure .stay

/-- The location of an AWAIT lies in a DSHR page (R314). -/
def awaitShared (e : Env) (a : AwaitSpec) : M Bool := do
  if a.loc then pure false
  else
    alignCheck a.a.toNat a.size a.a 0
    let p ← checkTo3 e.who { ptr := a.a, n := a.size, rd := true }
    pure (pteDshr p.pte)

/-- AWAIT (R363 to R367). -/
def execAwait (h : Hdr) (loc w64 : Bool) (cmp : AwaitCmp) (scope : Scope) (d a b : Reg) (s : State) :
    Host.Outcome State Fault Refusal :=
  let i := Instr.await h loc w64 cmp scope d a b
  threadOp i s fun e => do
    let (sc, cl) ← clampScope e scope
    let spec : AwaitSpec := { loc := loc, w64 := w64, cmp := cmp, a := e.th.rdW (!loc) a, b := e.th.rdW w64 b, d := d,
                              op := i, pers := e.pers, scope := sc, clamp := cl }
    if e.needsToken then
      if ← awaitShared e spec then return ← tokenStop e (.await spec)
    awaitTry e spec

/-- The awaited location of a thread whose cohort is saved is read again: where the condition holds, or the read would fault,
the thread leaves the wait and executes its AWAIT anew once its cohort is back (Table 2-8, R309). -/
def State.rereadSaved (s : State) (e : Env) (a : AwaitSpec) : State :=
  let (ends, s) : Bool × State := match awaitRead e a s with
    | .ok v s' => (awaitCond a.w64 a.cmp v a.b, s.keepDraws s')
    | .error _ s' => (true, s.keepDraws s')
  if ends then s.modThread e.tid fun t => { t.unkeep with status := .ready } else s

/-- AWAIT_REREAD: the hardware reads the awaited location again (R365, R366). -/
def execAwaitReread (tid : Nat) (s : State) : Host.Outcome State Fault Refusal :=
  match aget s.threads tid with
  | none => event s
  | some t =>
    match t.status with
    | .awaiting a =>
      match s.envOf tid a.pers with
      | none => event s
      | some e =>
        if e.c.core.isNone then event (s.rereadSaved e a)
        else
          let e := { e with th := { e.th with status := .ready } }
          let s' := s.modThread tid fun t => { t with status := .ready }
          event (endOp a.op s' e (awaitTry e a s'))
    | _ => event s

/-! ## YIELD and BACKOFF -/

/-- YIELD: the thread is not ready in the next cycle of its quarter (R517). -/
def execYieldOp (h : Hdr) (s : State) : Host.Outcome State Fault Refusal :=
  aluOp (.yieldOp h) s fun e => { e.th with yielded := true }

/-- BACKOFF, immediate form: n + 1 cycles (R368, R369). -/
def execBackoffImm (h : Hdr) (n : BitVec 12) (s : State) : Host.Outcome State Fault Refusal :=
  threadOp (.backoffImm h n) s fun e => passInto e (.backoffImm h n) .backoff

/-- BACKOFF, register form: a delay of 0 is none (R368, R369). -/
def execBackoffReg (h : Hdr) (a : Reg) (s : State) : Host.Outcome State Fault Refusal :=
  threadOp (.backoffReg h a) s fun e =>
    if (e.th.rd a).toNat % 65536 = 0 then pure .done else passInto e (.backoffReg h a) .backoff

/-- BACKOFF_EXPIRY: the delay has run out (R369). -/
def execBackoffExpiry (tid : Nat) (s : State) : Host.Outcome State Fault Refusal :=
  event (s.modThread tid fun t => if t.status = .backoff then { t with status := .ready } else t)

/-! ## Stage rings -/

/-- RPOST (R227, R475, R476). -/
def execRpost (h : Hdr) (ring : BitVec 3) (a : Reg) (s : State) : Host.Outcome State Fault Refusal :=
  threadOp (.rpost h ring a) s (ringBody (.rpost h ring a) ring.toNat)

/-- RTAKE (R227, R475, R476). -/
def execRtake (h : Hdr) (ring : BitVec 3) (d : Reg) (s : State) : Host.Outcome State Fault Refusal :=
  threadOp (.rtake h ring d) s (ringBody (.rtake h ring d) ring.toNat)

/-- SETCTL.ring (R480, R481). -/
def execSetctl (h : Hdr) (ring : BitVec 3) (a : Reg) (s : State) : Host.Outcome State Fault Refusal :=
  threadOp (.setctl h ring a) s (ringBody (.setctl h ring a) ring.toNat)

end Sys2Proof.Machine
end

