-- ==== Sys2Proof/Machine/Control.lean ====
section
/-! DEFINITION. Control flow: BRA, BRX (R384 to R388), CALL, CALLX (R390 to R393), RET (R473, R474), EXIT (R403, R404),
SKIP (R491, R492), NOP (R449), TRAP, BPT, TRET (R298, R299), GRET (R420, R421) and PDONE (R306, R452). -/

namespace Sys2Proof.Machine

/-! ## Targets -/

/-- The unit of a relative target: a slot, or a byte in a template (R385). -/
def Env.unit (e : Env) : Nat := if 2 ≤ e.pers then 1 else 8

/-- The target of a relative transfer (R385). -/
def Env.relTarget (e : Env) (off : BitVec 24) : VAddr := e.th.pc + off.signExtend 57 * BitVec.ofNat 57 e.unit

/-- BRANCH_TARGET, with the target. -/
def branchFault (t : Dword) : FaultInfo := { kind := .branchTarget, addr := t }

/-- The target of a pair: bits [63:57] must be zero (R388, R391). -/
def pairTarget (v : Dword) : M VAddr :=
  if v.extractLsb' 57 7 = 0 then pure (v.setWidth 57) else throw (branchFault v)

/-- A branch to a target, with its checks (R147, R386). -/
def branchTo (e : Env) (t : VAddr) : M Flow := do
  let (pers, b) ← targetLine e.who t
  if pers = 0 && !(t.toNat % 8 == 0 && slotOf t != 0 && lineOk b && lineTarget b (slotOf t)) then
    throw (branchFault (addrOf t))
  pure (.goto t)

/-- BRA, relative form (R384 to R386). -/
def execBraRel (h : Hdr) (off : BitVec 24) (s : State) : Host.Outcome State Fault Refusal :=
  threadOp (.braRel h off) s fun e => branchTo e (e.relTarget off)

/-- BRA, long form (R384 to R386). -/
def execBraLong (h : Hdr) (t : VAddr) (s : State) : Host.Outcome State Fault Refusal :=
  threadOp (.braLong h t) s fun e => branchTo e t

/-- BRX (R388). -/
def execBrx (h : Hdr) (a : Reg) (s : State) : Host.Outcome State Fault Refusal :=
  threadOp (.brx h a) s fun e => do branchTo e (← pairTarget (e.th.rd64 a))

/-! ## The return stack (R63 to R65) -/

/-- The access of a spill or a refill. -/
def stackAcc (csp : Dword) (store : Bool) : Access := { ptr := csp, n := 8, rd := !store, wr := store, acc := 6 }

/-- A push needs a spill that the stack cannot make (R65). -/
def Thread.stackFull (t : Thread) : Bool := t.csp.toNat < 8 || t.spilled = 0xFFFFFFFF

/-- Pushes a return PC, spilling the oldest entry where four are on chip (R63, R64); in a template of two or more ops the
spill is one of its buffered stores (R132). `target`: the ADDR of CALLSTACK. -/
def pushReturn (e : Env) (ret : VAddr) (target : Dword) : M Unit := do
  let t ← getTh e
  if t.stack.length < 4 then modTh e fun t => { t with stack := addrOf ret :: t.stack }
  else
    if t.stackFull then throw { kind := .callstack, addr := target }
    let csp := t.csp - 8
    let p ← checkPlace e.who (stackAcc csp true)
    storeMine e none p.key (leBytes 8 (t.stack.getLastD 0).toNat)
    modTh e fun t => { t with stack := addrOf ret :: t.stack.dropLast, csp := csp, spilled := t.spilled + 1 }

/-- The checks of a call on its target's line, and the PC in the callee (R147, R149, R392). -/
def callTarget (e : Env) (t : VAddr) (cls : Option Nat) : M VAddr := do
  let (pers, b) ← targetLine e.who t
  if pers = 0 then
    if !(t.toNat % 128 == 0 && lineOk b && lineEntry b) then throw (branchFault (addrOf t))
    match cls with
    | some c => if lineSigClass b ≠ c then throw { kind := .sigClass, addr := addrOf t }
    | none => pure ()
    if e.c.regs < lineNeed b then throw { kind := .regNeed, addr := addrOf t }
    pure (t + 8)
  else
    if 16 ≤ pers then throw { kind := .persPte, acc := 3, addr := addrOf t }
    let align ← if pers = 1 then pure 8 else do
      let h ← persHeader { w := e.who, pc := t, p := pers } e.ctx
      pure h.align
    if t.toNat % align ≠ 0 then throw { kind := .pcAlign, acc := 3, addr := addrOf t }
    pure t

/-- A call (R391, R392). -/
def callTo (e : Env) (long : Bool) (t : VAddr) (cls : Option Nat) : M Flow := do
  let pc ← callTarget e t cls
  pushReturn e (e.seqNext long) (addrOf t)
  pure (.goto pc)

/-- CALL, relative form (R390 to R393). -/
def execCallRel (h : Hdr) (off : BitVec 24) (s : State) : Host.Outcome State Fault Refusal :=
  threadOp (.callRel h off) s fun e => callTo e false (e.relTarget off) none

/-- CALL, long form (R390 to R393). -/
def execCallLong (h : Hdr) (t : VAddr) (s : State) : Host.Outcome State Fault Refusal :=
  threadOp (.callLong h t) s fun e => callTo e true t none

/-- CALLX (R390 to R393). -/
def execCallx (h : Hdr) (cls : BitVec 8) (a : Reg) (s : State) : Host.Outcome State Fault Refusal :=
  threadOp (.callx h cls a) s fun e => do callTo e false (← pairTarget (e.th.rd64 a)) (some cls.toNat)

/-- The PC of an entry, whose bits [63:57] must be zero (R474). -/
def entryPc (v addr : Dword) : M VAddr :=
  if v.extractLsb' 57 7 = 0 then pure (v.setWidth 57) else throw { kind := .callstack, addr := addr }

/-- RET; its refill sees the buffered stores of its template (R63, R132, R473, R474). -/
def execRet (h : Hdr) (s : State) : Host.Outcome State Fault Refusal :=
  threadOp (.ret h) s fun e => do
    match e.th.stack with
    | v :: rest =>
      let pc ← entryPc v 0
      modTh e fun t => { t with stack := rest }
      pure (.goto pc)
    | [] =>
      if e.th.spilled = 0 then throw (opFault .callstack)
      let p ← checkRead e.who (stackAcc e.th.csp false)
      let v : Dword := BitVec.ofNat 64 (leNat (← readMine e none p.key 8))
      let pc ← entryPc v e.th.csp
      modTh e fun t => { t with csp := t.csp + 8, spilled := t.spilled - 1 }
      pure (.goto pc)

/-! ## EXIT -/

/-- A FETCHW request of the thread waits for its answer (R86). -/
def State.fetching (s : State) (tid : Nat) : Bool := s.fetches.any fun f => f.tid == tid

/-- EXIT: waits for the thread's operations and requests, delivers their faults, and then stands to end; under the token
its ending is a token op (R404). -/
def execExit (h : Hdr) (s : State) : Host.Outcome State Fault Refusal :=
  guarded (.exit h) s fun e =>
    match s.coverOf e.th.out with
    | .held => s
    | .parked c => s.modThread e.tid fun t => { t with status := .parkedCopy c }
    | .fault id f => if s.fetching e.tid then s else s.deliver e false id f
    | .clear =>
      if s.fetching e.tid then s
      else if e.needsToken then s.modThread e.tid fun t => { t with status := .token .always }
      else s.modThread e.tid fun t => { t.endExp with status := .exiting }

/-! ## SKIP and NOP -/

/-- SKIP: a shadow of n ops with g the guard, whatever its value (R61, R492). -/
def execSkip (h : Hdr) (n : BitVec 3) (s : State) : Host.Outcome State Fault Refusal :=
  let i := Instr.skip h n
  match s.env with
  | none => .refused .noThread
  | some e =>
    match preCheck e i with
    | some f => .next (s.takeFault e false f)
    | none =>
      let g := e.th.guard h
      .next (s.setThread e.tid { e.th.pass e i g none with shadow := some (n.toNat, g) })

/-- NOP (R449). -/
def execNop (h : Hdr) (s : State) : Host.Outcome State Fault Refusal := aluOp (.nop h) s fun e => e.th

/-! ## Traps and returns from handlers -/

/-- TRAP (R298, R501). -/
def execTrap (h : Hdr) (n : BitVec 8) (s : State) : Host.Outcome State Fault Refusal :=
  threadOp (.trap h n) s fun e => userTrap e (.trap h n) 0xF0 n.toNat

/-- BPT (R298, R383). -/
def execBpt (h : Hdr) (s : State) : Host.Outcome State Fault Refusal :=
  threadOp (.bpt h) s fun e => userTrap e (.bpt h) 0xF1 0

/-- GRET (R138, R421). -/
def execGret (h : Hdr) (s : State) : Host.Outcome State Fault Refusal :=
  threadOp (.gret h) s fun e => do
    if !e.th.handler then throw (opFault .illegalInstruction)
    modTh e Thread.leaveEmu
    pure (.goto e.th.emuNext)

/-- TRET (R299). -/
def execTret (h : Hdr) (s : State) : Host.Outcome State Fault Refusal :=
  threadOp (.tret h) s fun e => do
    if !e.th.tf then throw (opFault .illegalInstruction)
    modTh e Thread.leaveHandler
    pure (.goto e.th.trapNext)

/-- The thread after PDONE's zeroing under a LIVE entry: the bits of V and P (R306, Table 8-4). -/
def Thread.keepLive (t : Thread) (live : Nat) : Thread :=
  { t with regs := t.regs.filter fun r => bitsOf live r.1 r.1 == 1, preds := t.preds &&& BitVec.ofNat 15 (live / 2 ^ 256) }

/-- PDONE: returns from the pre-emption handler to its safe point (R306, R452). -/
def execPdone (h : Hdr) (s : State) : Host.Outcome State Fault Refusal :=
  threadOp (.pdone h) s fun e => do
    if !e.th.preActive then throw (opFault .illegalInstruction)
    let s ← get
    let (b, s') := s.agentRead e.who.noWatch e.th.preLive 48 (s.ordOf e.tid).known
    set s'
    modTh e fun t =>
      let t := t.unkeep
      let t := match b with
        | some b => t.keepLive (leNat b)
        | none => t
      { t with preActive := false, prePc := 0, preLive := 0, preShadow := none, preSuppress := false }
    modTh e fun t => { t.pass e (.pdone h) true (some e.th.prePc) with
      shadow := e.th.preShadow, wpSuppress := e.th.preSuppress, status := if e.c.pending then .preWait else t.status }
    pure .stay

end Sys2Proof.Machine
end

