-- ==== Sys2Proof/Machine/Place.lean ====
section
/-! DEFINITION. Where cohorts stand: the admission test (R16, R28), placement in quarters (R26), the creation of a cohort
(R29, R31, R229), and the logical cores of deterministic launches (R312). -/

namespace Sys2Proof.Machine

/-! ## Admission -/

/-- The part of a shape that the admission test needs. -/
structure Need where
  warps : Nat
  regs : Nat
  scratch : Nat
  stash : Nat
  nbar : Nat
  deriving DecidableEq, Repr

def LaunchRec.need (r : LaunchRec) : Need :=
  { warps := r.warps, regs := r.regs, scratch := r.scratch, stash := r.stash, nbar := r.nbar }

def Cohort.need (c : Cohort) : Need :=
  { warps := c.warps, regs := c.regs, scratch := c.scratch, stash := c.stash, nbar := c.nbar }

/-- The needs together fit one core (R16, R28). -/
def needsFit (ns : List Need) : Bool :=
  let sum := fun (f : Need → Nat) => (ns.map f).foldl (· + ·) 0
  decide (sum Need.warps ≤ Config.warpSlots) &&
    decide (sum (fun n => n.warps * 32 * n.regs * 4) ≤ Config.regFileBytes) &&
    decide (roundUp (sum Need.scratch) 65536 + 65536 * sum Need.stash ≤ Config.localStoreBytes) &&
    decide (sum Need.nbar ≤ Config.namedBarriers)

/-- Cohorts resident on a core. -/
def State.residents (s : State) (core : Nat) : List (Nat × Cohort) := s.cohorts.filter fun c => c.2.core == some core

/-- Logical cores of a partition are its cores in ascending order (R312). -/
def State.logicalCore (s : State) (pid j : Nat) : Nat := (s.coresOf pid).getD j 0

/-- Reservations hold room for one cohort on logical core 0 of their partition (R334). -/
def State.heldNeeds (s : State) (core lid : Nat) : List Need :=
  ((s.reservedParts lid).filter fun l => s.logicalCore l.pid 0 == core).map fun l => l.rc.need

/-- Fires selected for a core hold room for their cohorts, against the other cohorts of their arming too (R103). -/
def State.firingNeeds (s : State) (core : Nat) : List Need :=
  (s.bins.filter fun b => b.2.selected == some core).filterMap fun b =>
    (aget s.launches b.2.launch).map fun l => l.rc.need

/-- Room made on a core is held for the cohort that it is made for (R41): the needs of the cohorts of other launches and
indices than the one asking. -/
def State.roomNeeds (s : State) (core lid : Nat) (own : Option Nat) : List Need :=
  s.launches.filterMap fun l => match l.2.room with
    | none => none
    | some (i, k) => if k = core && s.active l.2 && !(l.1 == lid && own == some i) then some l.2.rc.need else none

/-- The core takes a cohort of this need for a launch; `out`: cohorts taken as gone; `own`: its launch-order index, where it
has one yet (R16, R341). -/
def State.fitsWithout (s : State) (core lid : Nat) (n : Need) (own : Option Nat) (out : List Nat) : Bool :=
  !s.hub.frozenCores.contains core && !s.hub.frozenEngines.any (fun x => x / 2 == core) &&
    needsFit (n :: (s.heldNeeds core lid ++ s.firingNeeds core ++ s.roomNeeds core lid own ++
      ((s.residents core).filter fun c => !out.contains c.1).map fun c => c.2.need))

/-- The core has room for a cohort (R16). -/
def State.fits (s : State) (core lid : Nat) (n : Need) (own : Option Nat) : Bool := s.fitsWithout core lid n own []

/-- Cohorts of a need that fit on an empty core (R312). -/
def Need.perCore (n : Need) : Nat := ((List.range 65).filter fun k => needsFit (List.replicate k n)).foldl max 0

/-! ## Placement -/

/-- Warps in a quarter of a core. -/
def State.inQuarter (s : State) (core q : Nat) : Nat :=
  (s.warps.filter fun w => w.2.quarter == q && (match aget s.cohorts (w.1 / 32) with
    | some c => c.core == some core
    | none => false)).length

/-- Free slots of the quarters of a core (R26). -/
def State.freeSlots (s : State) (core : Nat) : List Nat := (List.range 4).map fun q => 16 - s.inQuarter core q

/-- Chooses a quarter with a free slot for each of n warps (R26). -/
def chooseQuarters (free : List Nat) (n : Nat) (s : State) : List Nat × State :=
  match n with
  | 0 => ([], s)
  | n + 1 =>
    let open_ := (List.range 4).filter fun q => free.getD q 0 != 0
    let (i, s) := s.pick open_.length
    let q := open_.getD i 0
    let (qs, s) := chooseQuarters (free.set q (free.getD q 0 - 1)) n s
    (q :: qs, s)

/-- A launch joins the rotations of the quarters where it has a warp now, behind the launch just served; R52 does not say
where a launch that joins stands (DESIGN CHOICE, log entry 40). -/
def State.joinRotation (s : State) (core lid : Nat) (qs : List Nat) : State :=
  { s with rotation := qs.foldl (fun r q =>
      let k := core * 4 + q
      let ls := (aget r k).getD []
      if ls.contains lid then r else aset r k (ls ++ [lid])) s.rotation }

/-- Places a cohort on a core: a slot of a quarter for each warp (R26). -/
def State.place (s : State) (coh core : Nat) : State :=
  match aget s.cohorts coh with
  | none => s
  | some c =>
    let (qs, s) := chooseQuarters (s.freeSlots core) c.warps s
    let s := (List.range c.warps).foldl (fun s w => s.modWarp (coh * 32 + w) fun x => { x with quarter := qs.getD w 0 }) s
    (s.modCohort coh fun c => { c with core := some core }).joinRotation core c.launch qs

/-- Role of warp w (R69). -/
def LaunchRec.role (r : LaunchRec) (w : Nat) : Nat := bitsOf r.roles.toNat (2 * w + 1) (2 * w)

/-- The PC at which a cohort begins: slot 1 of the entry line in native code (R73, R146). -/
def LaunchRec.startPc (r : LaunchRec) : VAddr :=
  if r.pers = 0 then r.entry.setWidth 57 + 8 else r.entry.setWidth 57

/-- Creates a cohort of a launch on a core, its registers and memories zero (R29, R31, R80, R229). What its launch's
acceptance acquired, and the writes of `view`, happen before its threads' first ops (Table 12-2). -/
def State.createCohort (s : State) (lid core index logical : Nat) (coord : List Nat) (binfire : Dword) (sp : Sparse 8)
    (view : List Nat := []) : State :=
  match aget s.launches lid with
  | none => s
  | some l =>
    let (coh, s) := s.freshId
    let groups := (l.groups.filter fun g => g.2.has coord).map (·.1)
    let c : Cohort :=
      { launch := lid, cid := l.cid, index := index, coord := coord, groups := groups, param := l.rc.param,
        binfire := binfire, warps := l.rc.warps, regs := l.rc.regs, scratch := l.rc.scratch, nbar := l.rc.nbar,
        stash := l.rc.stash, core := none, logical := logical, sp := sp }
    let t : Thread := { pc := l.rc.startPc, ord := { view := joinView l.view view } }
    let s := { s with
      cohorts := aset s.cohorts coh c
      warps := (List.range l.rc.warps).foldl (fun m w => aset m (coh * 32 + w) ({ role := l.rc.role w } : Warp)) s.warps
      threads := (List.range (32 * l.rc.warps)).foldl (fun m k => aset m (coh * 1024 + k) t) s.threads }
    (s.place coh core).modLaunch lid fun l =>
      { l with created := l.created + 1, onCore := aset l.onCore logical ((aget l.onCore logical).getD 0 + 1) }

/-! ## States of threads (Table 2-8) -/

/-- The thread is runnable (R39). -/
def TStatus.runnable : TStatus → Bool
  | .ready | .backoff | .binWait .. | .devWait .. | .exiting | .preWait => true
  | _ => false

/-- The thread is parked on a fault: its record may wait to be posted (R46, R294). -/
def TStatus.isParked : TStatus → Bool
  | .parked | .parkedBin .. | .parkedCopy .. | .posting true => true
  | _ => false

/-- A thread of the cohort is runnable. -/
def State.cohRunnable (s : State) (coh : Nat) : Bool := (s.cohThreads coh).any fun e => TStatus.runnable e.2.status

/-- The resident threads of a launch issue: it has not ended, and its partition runs. They do so during a switch-out or
pre-emption as well, until they are saved (R305). -/
def State.runs (s : State) (l : Launch) : Bool :=
  l.status.isNone && !s.hub.stopped.contains l.pid && s.hub.phase == .full

/-- A deterministic launch's cohort is due until every thread of it has performed its EXIT (R312). -/
def State.due (s : State) (coh : Nat) : Bool :=
  (s.cohThreads coh).any fun e => e.2.status != .exited && e.2.status != .exiting

end Sys2Proof.Machine
end

