-- ==== Sys2Proof/Machine/Walkers.lean ====
section
/-! DEFINITION. Index spaces and Fife walkers (R76 to R92): the traversal orders, the initial division, pending ranges,
emission, splits, FETCHW withdrawals, and their save and restore. -/

namespace Sys2Proof.Machine

/-! ## Index spaces (R76) -/

/-- Digits of an index in mixed radix, the first extent fastest. -/
def digits (es : List Nat) (i : Nat) : List Nat :=
  match es with
  | [] => []
  | e :: t => i % e :: digits t (i / e)

/-- Coordinate d of a Morton code: bit nd × b + d of the code is bit b of it. -/
def deinterleave (nd d bits code : Nat) : Nat :=
  (List.range bits).foldl (fun x b => x + code / 2 ^ (nd * b + d) % 2 * 2 ^ b) 0

/-- The n-th in-box point from a code on, in Morton order. -/
def mortonFrom (es : List Nat) (n code fuel : Nat) : List Nat :=
  match fuel with
  | 0 => []
  | f + 1 =>
    let x := (List.range es.length).map fun d => deinterleave es.length d 32 code
    if (List.zipWith (fun a e => decide (a < e)) x es).all id then
      (match n with
        | 0 => x
        | n + 1 => mortonFrom es n (code + 1) f)
    else mortonFrom es n (code + 1) f

/-- The coordinate of an index in the order of a launch, without the dimensions not in use (R76, Table 4-9). -/
def LaunchRec.point (r : LaunchRec) (i : Nat) : List Nat :=
  let es := r.exts
  let e0 := es.getD 0 1
  let e1 := es.getD 1 1
  match r.order with
  | 0 => digits es i
  | 1 => mortonFrom es i 0 (2 ^ (32 * r.nd))
  | 2 =>
    let j := i % e0
    let row := i / e0
    (if row % 2 = 0 then j else e0 - 1 - j) :: digits (es.drop 1) row
  | _ =>
    let k := i % (e0 * e1)
    let g := k / (r.ordparam * e0)
    let base := g * r.ordparam
    let h := min r.ordparam (e1 - base)
    let m := k - g * r.ordparam * e0
    m / h :: (base + m % h) :: digits (es.drop 2) (i / (e0 * e1))

/-- coord(i): four coordinates, those beyond the dimensions of the launch 0. -/
def LaunchRec.coord (r : LaunchRec) (i : Nat) : List Nat := (r.point i ++ [0, 0, 0, 0]).take 4

/-- Coordinate of persistent cohort n (R35). -/
def persistCoord (n : Nat) : List Nat := [n, 0, 0, 0]

/-! ## Walkers and pending ranges -/

/-- A walker emits its cursor; an empty walker is freed at once (R79). -/
def State.emit (s : State) (w : Walker) : State :=
  let w' := { w with cursor := w.cursor + 1 }
  let s' := { s with walkers := s.walkers.filterMap fun x =>
    if x.sec = w.sec ∧ x.slot = w.slot then (if w'.cursor < w'.limit then some w' else none) else some x }
  if w'.cursor < w'.limit then s' else s'.refillSlot w.sec w.slot

/-- A pending range hands out its lowest index and stays pending with the rest (R78). -/
def State.handOut (s : State) (lid : Nat) (p : PendRange) : State :=
  s.modLaunch lid fun l => { l with pend := l.pend.filterMap fun q =>
    if q = p then (if p.lo + 1 < p.hi then some { p with lo := p.lo + 1 } else none) else some q }

/-- Gives a launch its walkers; a range whose slot is held waits (R77, R78). -/
def State.divide (s : State) (lid : Nat) : State :=
  match aget s.launches lid with
  | none => s
  | some l =>
    (l.ranges0 (s.sectionsOf l.pid)).foldl (fun s r =>
      let s := s.modLaunch lid fun l => { l with pend := l.pend ++ [r.1] }
      if s.slotFree r.1.sec r.2 && !s.slotHeld r.1.sec r.2 lid then s.loadRange lid r.1 r.2 (boundCore r.1.sec r.2) else s) s

/-- Indices of a launch that are not emitted, as ranges. -/
def State.ranges (s : State) (lid : Nat) : List (Nat × Nat) :=
  (s.walkers.filterMap fun w => if w.launch = lid then some (w.cursor, w.limit) else none) ++
    (match aget s.launches lid with
      | some l => (l.pend ++ l.saved).map fun p => (p.lo, p.hi)
      | none => [])

/-- The lowest index of a launch that is not emitted. -/
def State.lowestIndex (s : State) (lid : Nat) : Option Nat :=
  (s.ranges lid).foldl (fun m r => some (match m with
    | none => r.1
    | some x => min x r.1)) none

/-- The lowest index is handed out, by its walker or its pending range (R80, R78). -/
def State.takeIndex (s : State) (lid i : Nat) : State :=
  match s.walkers.find? fun w => w.launch == lid && w.cursor == i with
  | some w => s.emit w
  | none =>
    match (aget s.launches lid).bind fun l => l.pend.find? fun p => p.lo == i with
    | none => s
    | some p =>
      match s.freeSlotsOf p.sec lid with
      | [] => s.handOut lid p
      | slot :: _ =>
        let s := s.loadRange lid p slot (boundCore p.sec slot)
        match s.walkers.find? fun w => w.launch == lid && w.cursor == i with
        | some w => s.emit w
        | none => s

/-! ## Splits (R81 to R84) -/

/-- The middle of a split (R82). -/
def splitMid (w : Walker) (grain : Nat) : Nat := w.cursor + grain * ceilDiv (w.limit - w.cursor) (2 * grain)

/-- A walker can be split (R82). -/
def splitOk (w : Walker) (grain : Nat) : Bool := decide (2 * grain ≤ w.limit - w.cursor)

/-- Walker with the most remaining indices; ties go to the lowest section and number (R81, R84). -/
def mostLeft (ws : List Walker) : Option Walker :=
  (sortBy (fun a b => decide (b.limit - b.cursor < a.limit - a.cursor) ||
    (a.limit - a.cursor == b.limit - b.cursor && decide (a.sec * 32 + a.slot ≤ b.sec * 32 + b.slot))) ws).head?

/-- Splits a walker; its new half stands in a slot of a section, bound to a core (R82). -/
def State.splitWalker (s : State) (w : Walker) (grain sec slot core : Nat) : State :=
  let mid := splitMid w grain
  { s with walkers := (s.walkers.map fun x => if x.sec = w.sec ∧ x.slot = w.slot then { x with limit := mid } else x) ++
      [{ sec := sec, slot := slot, launch := w.launch, cursor := mid, limit := w.limit, core := core }] }

/-- A core is idle for a launch (R81). -/
def State.idleFor (s : State) (core lid : Nat) (l : Launch) : Bool :=
  s.fits core lid l.rc.need none && !s.walkers.any fun w => w.launch == lid && w.core == core

/-- Launches whose work walkers hand out. -/
def State.walked (s : State) (l : Launch) : Bool := s.active l && l.rc.kind == 1 && !l.rc.det

/-- The launch has indices in a section. -/
def State.leftIn (s : State) (lid sec : Nat) (l : Launch) : Bool :=
  !(s.walkersOf lid sec).isEmpty || (l.lowPend sec).isSome

/-- The launch for which an idle core asks: of highest priority, then the oldest, among those with indices in the core's
section (R81). Without any, it asks for one with indices in other sections (R84), which R81 does not put in an order: here
too by priority, then age (DESIGN CHOICE, log entry 38). -/
def State.askedLaunch (s : State) (core : Nat) : Option (Nat × Launch) :=
  let sec := secOfCore core
  let mine := s.launches.filter fun l => s.walked l.2 && l.2.pid == s.pidOf sec && s.idleFor core l.1 l.2
  match sortBy launchBefore (mine.filter fun l => s.leftIn l.1 sec l.2) with
  | l :: _ => some l
  | [] => (sortBy launchBefore (mine.filter fun l => (s.sectionsOf l.2.pid).any fun x => s.leftIn l.1 x l.2)).head?

/-- A split in the core's section for a request, if one can be made (R81). -/
def State.localSplit (s : State) (core lid grain : Nat) : Option State :=
  let sec := secOfCore core
  match mostLeft (s.walkersOf lid sec), s.freeSlotsOf sec lid with
  | some w, slot :: _ => if splitOk w grain then some (s.splitWalker w grain sec slot core) else none
  | _, _ => none

/-- The walker that the hub splits for a core of a section: that with the most remaining indices in the partition's other
sections (R84). -/
def State.farDonor (s : State) (sec lid : Nat) (l : Launch) : Option Walker :=
  mostLeft (((s.sectionsOf l.pid).filter (· != sec)).flatMap (s.walkersOf lid))

/-- A split over the hub, which the donor's section serves only when no request from within it waits (R84). -/
def State.farSplit (s : State) (core lid : Nat) (l : Launch) : Option State :=
  let sec := secOfCore core
  match s.farDonor sec lid l, s.freeSlotsOf sec lid with
  | some w, slot :: _ =>
    if splitOk w l.rc.grain && decide (l.rc.grain ≤ w.limit - splitMid w l.rc.grain) &&
        !s.works.any (fun r => secOfCore r.core == w.sec) then
      some (s.splitWalker w l.rc.grain sec slot core)
    else none
  | _, _ => none

/-- Serves a request for work, if it can be served (R81, R84). -/
def State.serveWork (s : State) (core lid : Nat) (l : Launch) : Option State :=
  let sec := secOfCore core
  match l.lowPend sec, s.freeSlotsOf sec lid with
  | some p, slot :: _ => some (s.loadRange lid p slot core)
  | some _, [] => none
  | none, _ =>
    if (s.walkersOf lid sec).isEmpty then s.farSplit core lid l else s.localSplit core lid l.rc.grain

/-- A waiting request stands as long as its core is idle for a launch that hands out work. -/
def State.workStands (s : State) (r : WorkReq) : Bool :=
  match aget s.launches r.launch with
  | none => false
  | some l => s.walked l && l.pid == s.pidOf (secOfCore r.core) && s.idleFor r.core r.launch l

/-- A request of the core waits. -/
def State.asksFor (s : State) (core : Nat) : Bool := s.works.any fun r => r.core == core && s.workStands r

/-- Serves the first of some waiting requests that can be served; the rest wait on (R81, R83). -/
def State.serveFirst (s : State) (rs : List WorkReq) : State :=
  match rs with
  | [] => s
  | r :: rest =>
    match (aget s.launches r.launch).bind fun l =>
        State.serveWork { s with works := s.works.filter fun x => x != r } r.core r.launch l with
    | some s' => s'
    | none => s.serveFirst rest

/-- A section serves its waiting requests in the order of their arrival; those whose core is idle no more are void. -/
def State.serveSection (s : State) (sec : Nat) : State :=
  let s := { s with works := s.works.filter s.workStands }
  s.serveFirst (s.works.filter fun r => secOfCore r.core == sec)

/-! ## Events of the walkers -/

/-- WALKER_EMISSION: the core's lowest-numbered walker of the launch emits its cursor, and the cohort of that index is
created on the core (R80). -/
def execWalkerEmission (core launch : Nat) (s : State) : Host.Outcome State Fault Refusal :=
  match aget s.launches launch with
  | none => event s
  | some l =>
    match (s.walkersOf launch (secOfCore core)).find? fun w => w.core == core with
    | none => event s
    | some w =>
      if s.walked l && !l.rc.persist && s.fits core launch l.rc.need (some w.cursor) then
        event ((s.emit w).createCohort launch core w.cursor 0 (l.rc.coord w.cursor) 0 [])
      else event s

/-- PERSISTENT_COHORT_CREATE: the next persistent cohort is created on a core of the partition with room (R80). -/
def execPersistentCohortCreate (launch core : Nat) (s : State) : Host.Outcome State Fault Refusal :=
  match aget s.launches launch with
  | none => event s
  | some l =>
    if s.walked l && l.rc.persist && decide (l.created < l.rc.ncoh) && (s.coresOf l.pid).contains core &&
        s.fits core launch l.rc.need (some l.created) then
      event (s.createCohort launch core l.created 0 (persistCoord l.created) 0 [])
    else event s

/-- WORK_REQUEST: an idle core asks for work; its request waits until it can be served (R81, R84). -/
def execWorkRequest (core launch : Nat) (s : State) : Host.Outcome State Fault Refusal :=
  match s.askedLaunch core with
  | none => event s
  | some (lid, _) =>
    if lid = launch && !s.asksFor core then
      event (State.serveSection { s with works := s.works ++ [{ core := core, launch := launch }] } (secOfCore core))
    else event s

/-- SPLIT: the walker with the most remaining indices of its launch, in its section or over the hub, is split for a core of
the requesting section, whose first request that can be served is served (R81 to R84). -/
def execSplit (sec slot core : Nat) (s : State) : Host.Outcome State Fault Refusal :=
  match s.walkers.find? fun w => w.sec == sec && w.slot == slot, s.works.find? fun r => r.core == core with
  | some w, some r =>
    match aget s.launches r.launch with
    | none => event s
    | some l =>
      let home := secOfCore core
      let donor := if home = sec then mostLeft (s.walkersOf r.launch sec) else s.farDonor home r.launch l
      if r.launch = w.launch && donor = some w then event (s.serveSection home) else event s
  | _, _ => event s

/-! ## FETCHW (R86 to R89) -/

/-- The mailbox of an answer (Table 4-12): READY with a coordinate, or DONE. -/
def mailbox (coord : Option (List Nat)) : List Byte :=
  match coord with
  | none => leBytes 15 0 ++ [2]
  | some c => leBytes 4 (c.getD 0 0) ++ leBytes 4 (c.getD 1 0) ++ leBytes 4 (c.getD 2 0) ++ leBytes 3 (c.getD 3 0) ++ [1]

/-- Stores an answer to its mailbox and ends the request (R87). -/
def State.answer (s : State) (r : FetchReq) (coord : Option (List Nat)) : State :=
  State.writeSp { s with fetches := s.fetches.filter fun f => f.id != r.id } r.coh r.va (mailbox coord)

/-- A withdrawal: the index that a request of a core receives (R86); none: DONE. -/
def State.withdraw (s : State) (core lid : Nat) (l : Launch) : Option Nat × State :=
  let sec := secOfCore core
  let others := (s.sectionsOf l.pid).filter (· != sec)
  match (s.walkersOf lid sec).find? fun w => w.core == core with
  | some w => (some w.cursor, s.emit w)
  | none =>
    match l.lowPend sec with
    | some p =>
      (match s.freeSlotsOf sec lid with
        | [] => (some p.lo, s.handOut lid p)
        | slot :: _ =>
          let w : Walker := { sec := sec, slot := slot, launch := lid, cursor := p.lo, limit := p.hi, core := core }
          (some p.lo, (s.loadRange lid p slot core).emit w))
    | none =>
      match s.localSplit core lid l.rc.grain with
      | some s' =>
        (match (s'.walkersOf lid sec).find? fun w => w.core == core with
          | some w => (some w.cursor, s'.emit w)
          | none => (none, s'))
      | none =>
        match mostLeft (s.walkersOf lid sec) with
        | some w => (some w.cursor, s.emit w)
        | none =>
          match (sortBy (fun a b => a.lo ≤ b.lo) (others.filterMap l.lowPend)).head? with
          | some p => (some p.lo, s.handOut lid p)
          | none =>
            match mostLeft (others.flatMap (s.walkersOf lid)) with
            | some w => (some w.cursor, s.emit w)
            | none => (none, s)

/-- The pool serves a request (R86, R88, R89); one of a launch that is being switched out has been answered before its
walkers were saved, and none issues until they are restored (R90, R91). -/
def State.serveFetch (s : State) (r : FetchReq) : State :=
  match aget s.cohorts r.coh with
  | none => s
  | some c =>
    match aget s.launches c.launch with
    | none => s
    | some l =>
      if l.rc.kind ≠ 1 || !l.rc.persist then s.answer r none
      else if l.rc.det then
        let k := (aget l.served c.index).getD 0
        let i := c.index + k * l.rc.ncoh
        if i < l.rc.space then
          (s.modLaunch c.launch fun l => { l with served := aset l.served c.index (k + 1) }).answer r (some (l.rc.coord i))
        else s.answer r none
      else if !s.active l then s
      else
        let (i, s) := s.withdraw (c.core.getD 0) c.launch l
        s.answer r (i.map l.rc.coord)

/-- WITHDRAWAL: the pool serves a request; two requests of one thread in their order (R86). -/
def execWithdrawal (req : Nat) (s : State) : Host.Outcome State Fault Refusal :=
  match s.fetches.find? fun f => f.id == req with
  | none => event s
  | some r => if (s.fetches.find? fun f => f.tid == r.tid) = some r then event (s.serveFetch r) else event s

/-! ## Save and restore (R90) -/

/-- The pool answers the requests of a launch's cohorts (R90, R91). -/
def State.answerFetches (s : State) (lid : Nat) : State :=
  (s.fetches.filter fun f => (match aget s.cohorts f.coh with
    | some c => c.launch == lid
    | none => false)).foldl State.serveFetch s

/-- Saves the walkers of a launch and frees their slots, once its requests at the pool are answered; its cores' requests for
work are void (R90). -/
def State.saveWalkers (s : State) (lid : Nat) : State :=
  let mine := s.walkers.filter fun w => w.launch == lid
  let s := { s with
    walkers := s.walkers.filter fun w => w.launch != lid
    works := s.works.filter fun r => r.launch != lid }
  s.modLaunch lid fun l => { l with saved := l.saved ++ mine.map fun w => { sec := w.sec, lo := w.cursor, hi := w.limit } }

/-- Restores the saved walkers into slots of their sections, bound to any core of the section; those that do not fit wait
as pending ranges (R90). -/
def State.restoreWalkers (s : State) (lid : Nat) : State :=
  match aget s.launches lid with
  | none => s
  | some l =>
    l.saved.foldl (fun s p =>
      let s := s.modLaunch lid fun l => { l with saved := l.saved.filter (· != p), pend := l.pend ++ [p] }
      match s.freeSlotsOf p.sec lid with
      | [] => s
      | slot :: _ =>
        let (c, s) := s.pick 64
        s.loadRange lid p slot (p.sec * 64 + c)) s

end Sys2Proof.Machine
end

