-- ==== Sys2Proof/Machine/Complete.lean ====
section
/-! DEFINITION. The completion of launches and its signal (R75, R92). -/

namespace Sys2Proof.Machine

/-- SPACE_TOO_LARGE (Table 4-7). -/
def stTooLarge : Nat := 0x0005

/-- No cohort of the launch is left. -/
def State.noCohorts (s : State) (lid : Nat) : Bool := (s.launchCohorts lid).isEmpty

/-- An ITER launch has run to its end: every index emitted, or every persistent cohort created, and every cohort exited
(R75). -/
def State.iterDone (s : State) (lid : Nat) (l : Launch) : Bool :=
  !l.held && s.noCohorts lid &&
    (if l.rc.persist then l.created == l.rc.ncoh
     else if l.rc.det then l.created == l.rc.space
     else (s.ranges lid).isEmpty)

/-- The parts of a GANG, in sub-record order. -/
def State.partsOf (s : State) (l : Launch) : List Launch := l.parts.filterMap fun p => aget s.launches p

/-- STATUS of a GANG: that of its first part whose status is not OK (R75). -/
def gangStatus (ps : List Launch) : Nat :=
  (((ps.map fun p => p.status.getD stOk).find? (· != stOk))).getD stOk

/-- The status with which a launch completes now, if it does; a bin arming completes as R110 gives. -/
def State.completes (s : State) (lid : Nat) (l : Launch) : Option Nat :=
  match l.status with
  | some st => some st
  | none =>
    if l.rc.kind = 1 then (if s.iterDone lid l then some stOk else none)
    else if l.rc.kind = 3 then
      (if (s.partsOf l).all Launch.signaled then some (gangStatus (s.partsOf l)) else none)
    else none

/-- Ends a launch that has no cohort left: its walkers, ranges and requests are discarded (R75, R79). -/
def State.setStatus (s : State) (lid st : Nat) : State :=
  let s := State.modLaunch { s with
      walkers := s.walkers.filter fun w => w.launch != lid
      works := s.works.filter fun r => r.launch != lid } lid fun l =>
    { l with status := some (l.status.getD st), pend := [], saved := [] }
  s.refillAll

/-- The 8 bytes of a completion signal. -/
def signalBytes (st : Nat) (tag : Word) : List Byte := leBytes 4 st ++ leBytes 4 tag.toNat

/-- The store to SIGNAL, once, through the context's translation with the tag of the pointer: a release at system scope,
after what happens before the ends of the launch's threads, which its front end's later stores follow too (R75). A store
that cannot be performed is not made; one whose pointer is malformed (ADDR_FORM), which R75 does not name, is not made
either (DESIGN CHOICE, log entry 40). A stopped partition writes no signal (R303). -/
def State.signal (s : State) (lid : Nat) : State :=
  match aget s.launches lid with
  | none => s
  | some l =>
    let s' := s.modLaunch lid fun l => { l with signaled := true }
    let s' : State := match l.ownerQ with
      | some q => { s' with queues := amod s'.queues q fun q => { q with view := joinView q.view l.endView } }
      | none => s'
    match l.status, aget s.ctxs l.cid with
    | some st, some ctx =>
      if l.signaled then s
      else if s.hub.stopped.contains ctx.pid then s'
      else if l.rc.signal = 0 || l.rc.signal.toNat % 8 ≠ 0 then s'
      else
        let rel : Rel := { insts := agentInsts l.sec l.pid, view := l.endView }
        (tryAgent s' (agentOf l.cid ctx)
          (writeVirt (agentOf l.cid ctx) l.rc.signal 7 8 (signalBytes st l.rc.tag) 1 l.endView [rel])).2
    | some _, none => s'
    | none, _ => s

/-- A release at system scope of a queue's front end: it covers what the front end has acquired for the queue (R265). -/
def Queue.rel (q : Queue) (pid : Nat) : Rel := { insts := agentInsts q.sec pid, view := q.view }

/-- The front end's store to its fields of a QCB, a release in pieces of `unit` bytes (R332); one that cannot be performed is
not made, and a stopped partition makes none (R303). -/
def State.qcbWrite (s : State) (q : Queue) (o unit : Nat) (bs : List Byte) : State :=
  match aget s.ctxs q.cid with
  | none => s
  | some ctx =>
    if s.hub.stopped.contains ctx.pid then s
    else
      (tryAgent s (agentOf q.cid ctx)
        (writeVirt (agentOf q.cid ctx) (q.qcb + BitVec.ofNat 64 o) 7 unit bs (bs.length / unit) q.view [q.rel ctx.pid])).2

/-- COMPLETION_SIGNAL_WRITE: a launch that has completed makes the store to its signal (R75). -/
def execCompletionSignalWrite (launch : Nat) (s : State) : Host.Outcome State Fault Refusal :=
  match aget s.launches launch with
  | none => event s
  | some l =>
    if l.signaled then event s
    else match s.completes launch l with
      | none => event s
      | some st => event ((s.setStatus launch st).signal launch)

end Sys2Proof.Machine
end

