-- ==== Sys2Proof/Machine/Copy.lean ====
section
/-! DEFINITION. Copies: ACPY and ACPYT, and the landing, the park and the fault stop of a copy (R213, R214, R242 to R250,
R353 to R356, R534). -/

namespace Sys2Proof.Machine

/-! ## Issue -/

/-- Checks 3 and 4 of R242, on a descriptor's bytes. -/
def copyCheck (scratch : Nat) (b : List Byte) (planes : Bool) : Except FaultInfo Unit := do
  if !cdescOk b planes then throw (opFault .illegalOperand)
  checkAreas scratch (cdescOf b).areas

/-- The thread reads the descriptor of a copy, in program order like an LDL (R356), and the checks of R242 follow. -/
def readCopyDesc (e : Env) (off : Nat) (planes : Bool) : M (List Byte) := fun s =>
  match checkAreas e.c.scratch [(off, 64)] with
  | .error f => .error f s
  | .ok _ =>
    match seeM e none (spKey e.coh off) (sread (s.spOf e.coh) off 64) s with
    | .error f s' => .error f s'
    | .ok b s' => match copyCheck e.c.scratch b planes with
      | .error f => .error f s'
      | .ok _ => .ok b s'

/-- Range-scoreboard entries in use on a core (R251). -/
def State.entriesUsed (s : State) (core : Nat) : Nat :=
  (s.copies.filter fun c => (cdescOf c.2.desc).takesEntry && (match aget s.cohorts c.2.coh with
    | some x => x.core == some core
    | none => false)).length

/-- A thread starts one copy (R242, R354 to R356). -/
def startCopy (e : Env) (off : Nat) (planes : Bool) : M Flow := do
  let s ← get
  let c := (aget s.cohorts e.coh).getD e.c
  if off % 64 ≠ 0 || c.isStashAddr off then throw (opFault .illegalOperand)
  if s.held e.coh off 64 false then return .stay
  let b ← readCopyDesc { e with c := c } off planes
  if !e.th.hasRoom .cpy ||
      ((cdescOf b).takesEntry && Config.scoreboardEntries ≤ s.entriesUsed e.core) then
    modify fun s' => s.keepDraws s'
    return .stay
  modify fun s =>
    let (id, s) := s.freshId
    let cp : Copy := { id := id, tid := e.tid, coh := e.coh, planes := planes, desc := b, descOff := off, pc := e.th.pc,
                       pers := e.pers, opIdx := e.opIdx, ord := (s.ordFor e.tid).forUnit }
    State.modThread { s with copies := aset s.copies id cp } e.tid fun t =>
      { t with out := t.out ++ [{ cls := .cpy, id := id }] }
  pure .done

/-- ACPY (R353 to R356). -/
def execAcpy (h : Hdr) (a : Reg) (s : State) : Host.Outcome State Fault Refusal :=
  threadOp (.acpy h a) s fun e => startCopy e (e.th.rd a).toNat false

/-- ACPYT (R353 to R356). -/
def execAcpyt (h : Hdr) (a : Reg) (s : State) : Host.Outcome State Fault Refusal :=
  threadOp (.acpyt h a) s fun e => startCopy e (e.th.rd a).toNat true

/-! ## The accesses of a copy -/

/-- What a copy works with: its issuing thread's context without watchpoints, and its descriptor (R244, R281). -/
structure CopyEnv where
  id : Nat
  e : Env
  d : CDesc
  deriving DecidableEq, Repr

/-- A read of a copy inside one granule. -/
def copyAcc (ptr : Dword) (n : Nat) (store : Bool) : Access := { ptr := ptr, n := n, rd := !store, wr := store, acc := 4 }

def CopyEnv.who (x : CopyEnv) : Who := { x.e.who.noWatch with copy := some x.id }

/-- What orders the accesses of the copy: they follow those of its thread before it, and are unordered among themselves
(R246, R270). -/
def CopyEnv.ord (x : CopyEnv) (s : State) : Ord := ((aget s.copies x.id).map Copy.ord).getD {}

/-- A read of the copy over the bytes that stand at a key. -/
def copySee (x : CopyEnv) (key : Nat) (cur : List Byte) : M (List Byte) := fun s =>
  let (b, o, s') := s.observe (x.ord s) x.e.allInsts (fun _ => none) key cur
  .ok b { s' with copies := amod s'.copies x.id fun c => { c with met := joinView c.met o.must } }

/-- A write of the copy over the bytes that stand at a key: the bytes that stand there in the end. -/
def copyPlace (x : CopyEnv) (key : Nat) (cur bs : List Byte) : M (List Byte) := fun s =>
  let (fin, _, s') := s.placeWrite (x.ord s) [] key cur bs
  .ok fin { s' with copies := amod s'.copies x.id fun c => { c with wrote := joinView c.wrote [s.nextId] } }

/-- A read of physical memory by the copy. -/
def copyMem (x : CopyEnv) (key n : Nat) : M (List Byte) := do copySee x key (← readMemM key n)

/-- Scratchpad bytes of the copy's cohort. -/
def spRead (x : CopyEnv) (a n : Nat) : M (List Byte) := do
  let s ← get
  copySee x (spKey x.e.coh a) (sread (s.spOf x.e.coh) a n)

def spWrite (x : CopyEnv) (a : Nat) (bs : List Byte) : M Unit := do
  let s ← get
  let fin ← copyPlace x (spKey x.e.coh a) (sread (s.spOf x.e.coh) a bs.length) bs
  modify fun s => s.putSp x.e.coh a fin

/-- A write of physical memory by the copy; one that needs a link that is down stops the partition (R325). -/
def copyStore (x : CopyEnv) (key : Nat) (bs : List Byte) : M Unit := do
  if ← linkNeedM key then modify fun s => s.stopPartition x.who.pid
  else
    let fin ← copyPlace x key (← readMemM key bs.length) bs
    modify fun s => s.setMem key fin

/-- ORs flags into those that the copy will set when it retires (R249). -/
def copyFlags (id : Nat) (f : BitVec 7) : M Unit :=
  modify fun s => { s with copies := amod s.copies id fun c => { c with flags := c.flags ||| f } }

/-- Pointer of byte o of global row r. -/
def rowPtr (base : Dword) (pitch r o : Nat) : Dword := base + BitVec.ofNat 64 (r * pitch + o)

/-- Reads 4 bytes of a row, or writes them. -/
def copyRead4 (x : CopyEnv) (ptr : Dword) : M (List Byte) := do
  let p ← checkRead x.who (copyAcc ptr 4 false)
  copyMem x p.key 4

def copyWrite (x : CopyEnv) (ptr : Dword) (bs : List Byte) : M Unit := do
  let p ← checkPlace x.who (copyAcc ptr bs.length true)
  copyStore x p.key bs

/-! ### Aligned 16-byte units (R225, R246) -/

/-- Bytes with their places, in order, as the accesses that write them: each inside one aligned 16-byte unit. -/
def runs16 (l : List (Nat × Byte)) : List (Nat × List Byte) :=
  match l with
  | [] => []
  | (k, b) :: t =>
    match runs16 t with
    | (k', bs) :: r => if k' = k + 1 && k' % 16 ≠ 0 then (k, b :: bs) :: r else (k, [b]) :: (k', bs) :: r
    | [] => [(k, [b])]

/-- Bytes with their places, from one place on. -/
def bytesAt (k : Nat) (bs : List Byte) : List (Nat × Byte) := bs.zipIdx.map fun b => (k + b.2, b.1)

/-- The copy writes bytes of the scratchpad, and of physical memory. -/
def putSpBytes (x : CopyEnv) (l : List (Nat × Byte)) : M Unit := (runs16 l).forM fun r => spWrite x r.1 r.2

def putMemBytes (x : CopyEnv) (l : List (Nat × Byte)) : M Unit := (runs16 l).forM fun r => copyStore x r.1 r.2

/-- Addresses of the scratchpad's aligned 16-byte unit number u of a copy. -/
def CDesc.spUnit (d : CDesc) (u : Nat) : List Nat :=
  ((List.range 16).map fun i => (d.saddr / 16 + u) * 16 + i).filter fun a => d.saddr ≤ a

/-- The bytes of a row, first and end, in the row's aligned 16-byte unit number j of the global addresses. -/
def rowUnit (row : Dword) (len j : Nat) : Nat × Nat :=
  let o := (vaOf row).toNat % 16
  (16 * j - o, min len (16 * (j + 1) - o))

/-- Part u of a RAW copy: the words that it writes into one aligned 16-byte unit (R244). -/
def rawUnit (x : CopyEnv) (u : Nat) : M Unit := do
  if x.d.dir = 0 then
    let words := (x.d.spUnit u).filter fun a =>
      let (r, o) := x.d.rowAt a
      decide (r < x.d.rows) && decide (o < x.d.rowlen) && o % 4 == 0
    let bs ← words.mapM fun a => do
      let (r, o) := x.d.rowAt a
      pure (bytesAt a (← copyRead4 x (rowPtr x.d.gaddr x.d.gpitch r o)))
    putSpBytes x bs.flatten
  else
    let per := x.d.rowlen / 16 + 2
    let r := u / per
    let to_ := if x.d.dir = 1 then x.d.gaddr else x.d.gdst
    let (lo, hi) := rowUnit (rowPtr to_ x.d.gpitch r 0) x.d.rowlen (u % per)
    if lo < hi then
      let b ← if x.d.dir = 1 then spRead x (x.d.saddr + r * x.d.spitch + lo) (hi - lo)
        else do
          let ws ← (List.range ((hi - lo) / 4)).mapM fun i => copyRead4 x (rowPtr x.d.gaddr x.d.gpitch r (lo + 4 * i))
          pure ws.flatten
      copyWrite x (rowPtr to_ x.d.gpitch r lo) b

/-- Bits of an element in memory (R534). -/
def Fmt.memBits (t : Fmt) : Nat := if t = .f4 then 4 else 8 * t.bytes

/-- The pieces of an element's bytes, each inside one granule, with their places (R281): checks 1 to 6 of each. -/
def copyPieces (x : CopyEnv) (ptr : Dword) (n : Nat) (store : Bool) : M (List (Place × Nat)) := do
  let m := min n (32 - (vaOf ptr).toNat % 32)
  let p ← checkPlace x.who (copyAcc ptr m store)
  if m < n then
    let q ← checkPlace x.who (copyAcc (ptr + BitVec.ofNat 64 m) (n - m) store)
    pure [(p, m), (q, n - m)]
  else pure [(p, n)]

/-- The descriptor of the page that holds an element, or FORMAT; the element's own checks 1 to 6 come first. An element
that reaches into a second page lies on pages of one FMT (R534). Each descriptor is read once, and not where it is `known`
from the check of the row's first element (R205). -/
def copyElem (x : CopyEnv) (ptr : Dword) (n : Nat) (store : Bool) (known : Option Desc := none) :
    M (Desc × List (Place × Nat)) := do
  let a := copyAcc ptr n store
  let ps ← copyPieces x ptr n store
  match ps with
  | [] => throw (accFault .format a)
  | p :: t =>
    let d ← match known with
      | some d => pure d
      | none => elemDesc x.who x.e.ctx p.1 a
    let far := t.filter fun q => q.1.key % 2 ^ q.1.log == 0
    let ds ← far.mapM fun q => elemDesc x.who x.e.ctx q.1 a
    if ds.any fun y => y.fmt ≠ d.fmt then throw (accFault .format (a.at_ p.1.log)) else pure (d, ps)

/-- Size of the mapping page of an element's first piece, as a power of two. -/
def firstLog (ps : List (Place × Nat)) : Nat := (ps.head?.map fun p => p.1.log).getD 16

/-- The descriptor of the first element of row r, which fixes the format of the row (R534), with the size of its page; it is
read once (R205). -/
def rowFormat (x : CopyEnv) (r : Nat) (row : Dword) (store : Bool) : M (Desc × Nat) := do
  let s ← get
  match (aget s.copies x.id).bind fun c => aget c.formats r with
  | some d => pure d
  | none =>
    let (d, ps) ← copyElem x row 1 store
    let d := (d, firstLog ps)
    modify fun s => { s with copies := amod s.copies x.id fun c => { c with formats := aset c.formats r d } }
    pure d

/-- The row rules of DECODE and ENCODE under the descriptor of a page of the row (R244, R534): FORMAT at the row's first
element, whose page has 2^log bytes. -/
def rowCheck (x : CopyEnv) (row : Dword) (store : Bool) (log : Nat) (d : Desc) : M Unit :=
  if (d.fmt = .f4 && x.d.rowlen % 2 ≠ 0) ||
      (d.blk ≠ 0 && ((vaOf row).toNat % d.blockBytes ≠ 0 || x.d.rowlen % d.blk ≠ 0)) then
    throw (accFault .format ((copyAcc row 1 store).at_ log))
  else pure ()

/-- Pointer of element k of a row, and whether it is the upper half of its byte (R534). -/
def elemPtr (row : Dword) (t : Fmt) (k : Nat) : Dword × Bool :=
  (row + BitVec.ofNat 64 (k * t.memBits / 8), t == .f4 && k % 2 == 1)

/-- Reads an element's bytes, piece by piece. -/
def readPieces' (x : CopyEnv) (a : Access) (ps : List (Place × Nat)) : M (List Byte) :=
  match ps with
  | [] => pure []
  | p :: t => do
    if ← linkNeedM p.1.key then throw (accFault .memErr (a.at_ p.1.log))
    let b ← copyMem x p.1.key p.2
    pure (b ++ (← readPieces' x a t))

/-- The descriptor of the row's first element, where element k is that one. -/
def knownFor (k : Nat) (d : Desc) : Option Desc := if k = 0 then some d else none

/-- Reads element k of a row under the descriptor of the row's first element: its page's descriptor, its code and its scale
byte (R202, R203, R534). -/
def readElem (x : CopyEnv) (row : Dword) (d0 : Desc) (k : Nat) (kb : Nat) : M (Desc × Nat × Nat) := do
  let t := d0.fmt
  let (ptr, hi) := elemPtr row t k
  let a := copyAcc ptr t.bytes false
  let (d, ps) ← copyElem x ptr t.bytes false (knownFor k d0)
  if d.fmt ≠ t || (kb ≠ 0 && d.blk ≠ 0 && d.blk ≠ kb) then
    throw (accFault .format (a.at_ (firstLog ps)))
  let sc ← (← readScale x.who d ptr 4 [] (copyMem x)).get
  let b ← readPieces' x a ps
  pure (d, d.codeIn b hi, sc)

/-- Element k of row r of a DECODE copy, as the bytes of its scratchpad element (R244), with its flags. -/
def decodeElem (x : CopyEnv) (r k : Nat) : M (List Byte × BitVec 7) := do
  let row := rowPtr x.d.gaddr x.d.gpitch r 0
  let (d0, log) ← rowFormat x r row false
  rowCheck x row false log d0
  let (d, c, sc) ← readElem x row d0 k 0
  rowCheck x row false log d
  let (v, f) := roundTo x.d.efmt x.d.rmode (d.decode c sc) 0
  pure (leBytes x.d.ebytes v, f)

/-- Part u of a DECODE copy: the elements that begin in one aligned 16-byte unit of the scratchpad. -/
def decodeUnit (x : CopyEnv) (id u : Nat) : M Unit := do
  let here := (x.d.spUnit u).filter fun a =>
    let (r, o) := x.d.rowAt a
    decide (r < x.d.rows) && decide (o < x.d.rowBytes) && o % x.d.ebytes == 0
  let bs ← here.mapM fun a => do
    let (r, o) := x.d.rowAt a
    let (b, f) ← decodeElem x r (o / x.d.ebytes)
    pure (bytesAt a b, f)
  putSpBytes x (bs.flatMap (·.1))
  copyFlags id (bs.foldl (fun f b => f ||| b.2) 0)

/-- The value of scratchpad element k of a row. -/
def spElem (x : CopyEnv) (r k : Nat) : M Val := do
  let b ← spRead x (x.d.saddr + r * x.d.spitch + k * x.d.ebytes) x.d.ebytes
  pure (x.d.efmt.val (leNat b) 0)

/-- The places of the bytes of a block, each piece of 8 bytes checked. -/
def blockPlaces (x : CopyEnv) (ptr : Dword) (bs : List Byte) (pieces : Nat) : M (List (Nat × Byte)) :=
  match pieces with
  | 0 => pure []
  | n + 1 => do
    let p ← checkPlace x.who (copyAcc ptr 8 true)
    let rest ← blockPlaces x (ptr + 8) (bs.drop 8) n
    pure (bytesAt p.key (bs.take 8) ++ rest)

/-- The codes of one byte of F4, or of one element of another format, without a block scale, with their flags. -/
def plainCodes (x : CopyEnv) (d : Desc) (r k : Nat) : M (List Byte × BitVec 7) := do
  let (c, f) := d.encode x.d.rmode (← spElem x r k) 127
  if d.fmt = .f4 then
    let (c', f') := d.encode x.d.rmode (← spElem x r (k + 1)) 127
    pure (leBytes 1 (c % 16 + 16 * c'), f ||| f')
  else pure (leBytes d.fmt.bytes c, f)

/-- What an ENCODE copy writes for some elements: their bytes, their scale bytes, and the flags. -/
structure Encoded where
  codes : List (Nat × Byte) := []
  scales : List (Nat × Byte) := []
  flags : BitVec 7 := 0
  deriving DecidableEq, Repr

/-- Element k of row r of an ENCODE copy, or the block that begins at it under its own page's descriptor (R244, R206,
R534); the two F4 elements of a byte are written as one. -/
def encodeElem (x : CopyEnv) (r k : Nat) (d0 : Desc) (log : Nat) : M Encoded := do
  let row := rowPtr x.d.gaddr x.d.gpitch r 0
  let (ptr, hi) := elemPtr row d0.fmt k
  let n := d0.fmt.bytes
  let (d, ps) ← copyElem x ptr n true (knownFor k d0)
  if d.fmt ≠ d0.fmt then throw (accFault .format ((copyAcc ptr n true).at_ (firstLog ps)))
  rowCheck x row true log d
  if hi then pure {}
  else if d.blk = 0 then
    let (bs, f) ← plainCodes x d r k
    let cut := (ps.headD ({ key := 0, pte := 0, log := 0 }, 0)).2
    pure { codes := (ps.zipIdx).flatMap fun p =>
             bytesAt p.1.1.key ((if p.2 = 0 then bs else bs.drop cut).take p.1.2), flags := f }
  else if (vaOf ptr).toNat % d.blockBytes = 0 then
    let vs ← (List.range d.blk).mapM fun j => spElem x r (k + j)
    let (e, cs, f) := quantBlock d.fmt x.d.rmode d.texp d.xv vs
    let sp ← checkPlace x.who (copyAcc (d.scalePtr ptr) 1 true)
    let bs ← blockPlaces x ptr (leBytes d.blockBytes (packCodes d.fmt cs)) (d.blockBytes / 8)
    pure { codes := bs, scales := bytesAt sp.key (leBytes 1 e), flags := f }
  else pure {}

/-- Part u of an ENCODE copy: the elements and blocks that begin in one aligned 16-byte unit of a row's global addresses.
Codes and scales are separate accesses (R258). -/
def encodeUnit (x : CopyEnv) (id u : Nat) : M Unit := do
  let per := x.d.rowlen / 4 + 2
  let r := u / per
  let row := rowPtr x.d.gaddr x.d.gpitch r 0
  let (d0, log) ← rowFormat x r row true
  rowCheck x row true log d0
  let (lo, hi) := rowUnit row (x.d.rowlen * d0.fmt.memBits / 8) (u % per)
  let ks := (List.range x.d.rowlen).filter fun k =>
    decide (lo ≤ k * d0.fmt.memBits / 8) && decide (k * d0.fmt.memBits / 8 < hi)
  let es ← ks.mapM fun k => encodeElem x r k d0 log
  putMemBytes x (es.flatMap Encoded.codes)
  (es.flatMap Encoded.scales).forM fun c => copyStore x c.1 [c.2]
  copyFlags id (es.foldl (fun f e => f ||| e.flags) 0)

/-- Rounding to nearest even of a value, as an integer (R214). -/
def rneInt (v : Val) : Int × Bool :=
  match v with
  | .num neg m e =>
    let (n, inex) := quantum .rn neg m e 0
    (if neg then -(n : Int) else n, inex)
  | _ => (0, false)

/-- An integer that a finite value equals, if it does. -/
def exactInt (v : Val) : Option Int :=
  match v with
  | .num .. => let (i, inex) := rneInt v; if inex then none else some i
  | _ => none

/-- One element of a K-block as PLANES reads it: its decoded value, and where it is F4 its own value, its s and XV. -/
structure PElem where
  v : Val
  f4 : Option (Val × Int × Nat) := none
  deriving DecidableEq, Repr

/-- The exponent record, the integers and the flags of a K-block (R214, R534). -/
def planesOf (p : Nat) (es : List PElem) : Nat × List Int × BitVec 7 :=
  let vs := es.map (·.v)
  let hi : Int := (2 ^ (p - 1) - 1 : Nat)
  let lo : Int := -(2 ^ (p - 1) : Nat)
  if vs.any fun v => match v with
      | .num .. => false
      | _ => true then
    (0x8000, vs.map fun _ => 0, flagNV)
  else match blockExp vs with
    | none => (0, vs.map fun _ => 0, 0)
    | some k =>
      let first := es.findSome? (·.f4)
      let exact : Option (Int × List Int) := match first with
        | none => none
        | some (_, sc, xv) =>
          if p ≠ 5 || es.any fun e => match e.f4 with
              | some (_, sc', xv') => sc' ≠ sc || xv' ≠ xv
              | none => true then none
          else
            let qs := es.map fun e => match e.f4 with
              | some (v, _) => exactInt (v.shift 1)
              | none => none
            if qs.all fun q => match q with
                | some i => decide (lo ≤ i) && decide (i ≤ hi)
                | none => false then
              some (sc, qs.map fun q => q.getD 0)
            else none
      match exact with
      | some (sc, qs) => ((BitVec.ofInt 16 (sc + 2)).toNat, qs, 0)
      | none =>
        let rs := vs.map fun v => rneInt (v.shift ((p : Int) - 2 - k))
        let cl := fun (i : Int) => min hi (max lo i)
        let nx := rs.any fun r => r.2 || cl r.1 ≠ r.1
        ((BitVec.ofInt 16 k).toNat, rs.map fun r => cl r.1, flagIf nx flagNX)

/-- K-block b of vector v as PLANES reads and converts it: its record, its integers and its flags (R214, R245, R534). -/
def planesBlock (x : CopyEnv) (v b : Nat) : M (Nat × List Int × BitVec 7) := do
  let row := rowPtr x.d.gaddr x.d.gpitch v 0
  let (d0, _) ← rowFormat x v row false
  let es ← (List.range x.d.kb).mapM fun j => do
    let k := b * x.d.kb + j
    if x.d.rowlen ≤ k then pure ({ v := .num false 0 0 } : PElem)
    else
      let (d, c, sc) ← readElem x row d0 k x.d.kb
      pure { v := d.decode c sc,
             f4 := if d.fmt = .f4 then some (d.fmt.val c d.xv, (sc : Int) - 127 + d.texp, d.xv) else none }
  let es := es.map fun e => match e.f4, es.findSome? (·.f4) with
    | none, some (_, sc, xv) => if e.v = .num false 0 0 && d0.fmt = .f4 then { e with f4 := some (e.v, sc, xv) } else e
    | _, _ => e
  pure (planesOf x.d.planes es)

/-- Bit pl of each of some integers, eight to a byte, the first lowest (R211). -/
def planeBytes (pl : Nat) (qs : List Int) : List Byte :=
  (List.range (qs.length / 8)).map fun i =>
    BitVec.ofNat 8 (((qs.drop (8 * i)).take 8).zipIdx.foldl (fun x q =>
      x + (BitVec.ofInt 16 q.1).toNat / 2 ^ pl % 2 * 2 ^ q.2) 0)

/-- Part u of a PLANES copy: 128 elements of each of 8 vectors, which fill aligned 16-byte units of every plane, and their
records (R211, R245). -/
def planesUnit (x : CopyEnv) (id u : Nat) : M Unit := do
  let chunks := 8 * x.d.kc
  let blocks := 128 / x.d.kb
  let k0 := 128 * (u % chunks)
  let res ← (List.range 8).mapM fun i => do
    let v := 8 * (u / chunks) + i
    let bs ← (List.range blocks).mapM fun j => planesBlock x v (k0 / x.d.kb + j)
    pure (v, bs)
  res.forM fun w => (List.range x.d.planes).forM fun pl =>
    putSpBytes x (bytesAt
      (x.d.saddr + 4096 * ((w.1 / 32 * x.d.kc + k0 / 1024) * x.d.planes + pl) + 128 * (w.1 % 32) + k0 % 1024 / 8)
      (planeBytes pl (w.2.flatMap fun b => b.2.1)))
  (List.range blocks).forM fun j =>
    putSpBytes x (res.flatMap fun w =>
      bytesAt (x.d.ebase + 2 * (x.d.rows * (k0 / x.d.kb + j) + w.1)) (leBytes 2 ((w.2.map (·.1)).getD j 0)))
  copyFlags id (res.foldl (fun f w => w.2.foldl (fun f b => f ||| b.2.2) f) 0)

/-- Number of aligned 16-byte units of the scratchpad that ACPY's rows touch. -/
def CDesc.spUnits (d : CDesc) : Nat := (d.rowSpan.2 + 15) / 16 - d.saddr / 16

/-- Number of parts of a copy. -/
def CDesc.units (d : CDesc) : Nat :=
  if d.conv = 3 then d.rows * d.kc
  else if d.conv = 2 then d.rows * (d.rowlen / 4 + 2)
  else if d.conv = 1 || d.dir = 0 then d.spUnits
  else d.rows * (d.rowlen / 16 + 2)

/-- One unit of a copy. -/
def copyUnit (x : CopyEnv) (id u : Nat) : M Unit :=
  if x.d.conv = 3 then planesUnit x id u
  else if x.d.conv = 0 then rawUnit x u
  else if x.d.conv = 1 then decodeUnit x id u
  else encodeUnit x id u

/-- The parts of a copy that are still to do. -/
def Copy.left (c : Copy) : List Nat := (List.range (cdescOf c.desc).units).filter fun u => !c.done.contains u

/-- Does n parts of a copy, in any order (R246, R270): the failure that it meets, or none. -/
def runUnits (x : CopyEnv) (id n : Nat) (s : State) : Option FaultInfo × State :=
  match n with
  | 0 => (none, s)
  | n + 1 =>
    match ((aget s.copies id).map Copy.left).getD [] with
    | [] => (none, s)
    | left =>
      let (i, s) := s.pick left.length
      let u := left.getD i 0
      match copyUnit x id u s with
      | .ok _ s' => runUnits x id n { s' with copies := amod s'.copies id fun c => { c with done := insertNat u c.done } }
      | .error f s' => (some f, s.keepDraws s')

/-- What a copy that is in flight on a resident cohort works with (R250). -/
def State.copyEnv (s : State) (id : Nat) : Option (Copy × CopyEnv) :=
  match aget s.copies id with
  | none => none
  | some c =>
    if c.parked || c.landed then none
    else match s.envOf c.tid c.pers with
      | none => none
      | some e => if e.c.core.isNone then none else some (c, { id := id, e := e, d := cdescOf c.desc })

/-- Runs the rest of a copy; none: no such copy is in flight. -/
def State.runCopy (s : State) (id : Nat) : Option (Copy × Env × Option FaultInfo × State) :=
  (s.copyEnv id).map fun x =>
    let (r, s') := runUnits x.2 id x.2.d.units s
    (x.1, x.2.e, r, s')

/-- A copy makes some of its accesses and goes on later (R246); one that meets a failure stays before it. -/
def State.advanceCopy (s : State) (id : Nat) : State :=
  match s.copyEnv id with
  | none => s
  | some (c, x) =>
    let (n, s) := s.pick c.left.length
    (runUnits x id n s).2

/-! ## Landing, park and stop -/

/-- A completion object after an update: its 8 bytes (R247, Table 11-3). -/
def compBytes (sp : Sparse 8) (a : Nat) (fault : Bool) : List Byte :=
  let w := leNat (sread sp a 4)
  let n := leNat (sread sp (a + 4) 4)
  leBytes 4 ((1 - w % 2) + (if fault then 2 else w / 2 % 2 * 2)) ++ leBytes 4 ((n + 1) % 2 ^ 32)

/-- The release of a completion update: at cohort scope, over the copy's writes and what precedes them (R247). -/
def Copy.release (c : Copy) : Rel :=
  { insts := (instances c.tid 0 0 false).take 2, view := joinView c.ord.view c.wrote, auto := true }

/-- The update of a copy's completion object, one read-modify-write that is a release: an observer of it observes every copy
that it counts, those of the updates before it too (R247). -/
def State.updateComp (s : State) (c : Copy) (a : Nat) (bs : List Byte) : State :=
  let key := spKey c.coh a
  let before := (returned key 8 (s.writesAt key 8) []).flatMap Msg.rels
  ((s.logMsg key (sread (s.spOf c.coh) a 8) bs c.release.view [c.release] before true true).2).putSp c.coh a bs

/-- A copy ends: its completion object, and its retirement with its flags once every older operation of its class has
retired (R233, R247, R249). -/
def State.endCopy (s : State) (c : Copy) (fault : Option FaultInfo) : State :=
  let d := cdescOf c.desc
  let c := (aget s.copies c.id).getD c
  let s := if d.nocomp then s
    else s.updateComp c d.comp (compBytes (s.spOf c.coh) d.comp fault.isSome)
  let s := { s with copies := amod s.copies c.id fun x => { x with landed := true } }
  State.reap (s.modThread c.tid fun t => t.finish c.id fault c.flags c.wrote) c.tid

/-- The record of a parked copy (R248): its PC is that of its ACPY or ACPYT. -/
def copyPost (s : State) (e : Env) (c : Copy) (f : FaultInfo) : Post :=
  let p := s.postOf e { f with copy := true, cdesc := c.descOff, opIdx := c.opIdx } true
  { p with pc := c.pc, tids := [], copy := some c.id, info := { p.info with opIdx := c.opIdx } }

/-- COPY_LAND: every access of the copy is made, and it retires (R247). -/
def execCopyLand (id : Nat) (s : State) : Host.Outcome State Fault Refusal :=
  match s.runCopy id with
  | some (c, _, none, s') => event (s'.endCopy c none)
  | _ => event s

/-- COPY_PARK: the copy meets a page that is not resident and parks with what it has written (R248). -/
def execCopyPark (id : Nat) (s : State) : Host.Outcome State Fault Refusal :=
  match s.runCopy id with
  | some (c, e, some f, s') =>
    if f.kind = .notResident then
      let s' := { s' with copies := amod s'.copies id fun x => { x with parked := true } }
      event (s'.queuePost e.cid (copyPost s' e c f))
    else event s
  | _ => event s

/-- COPY_FAULT_STOP: any other failure stops the copy, with FAULT in its completion object; the WAITC or EXIT that covers
it takes the fault (R248). -/
def execCopyFaultStop (id : Nat) (s : State) : Host.Outcome State Fault Refusal :=
  match s.runCopy id with
  | some (c, e, some f, s') =>
    if f.kind = .notResident then event s
    else if f.frozen then event (s'.freezeEngine e.core)
    else event (s'.endCopy c (some { f with copy := true, cdesc := c.descOff }))
  | _ => event s

end Sys2Proof.Machine
end

