-- ==== Sys2Proof/Machine/Special.lean ====
section
/-! DEFINITION. The special functions of SFN (R484 to R486): their values to some 300 bits in fixed point, the codes inside
the bounds of Table 21-2, and the results. -/

namespace Sys2Proof.Machine

/-! ## Fixed point: a number in units of 2^−512 -/

def fixOne : Nat := 2 ^ 512

def fixMul (a b : Nat) : Nat := a * b / fixOne

/-- m × 2^e. -/
def fixOf (m : Nat) (e : Int) : Nat := if -512 ≤ e then m * 2 ^ (e + 512).toNat else m / 2 ^ (-512 - e).toNat

/-- e^r for r below 1: the first n terms of its series, from the last. -/
def fixExp (r n acc : Nat) : Nat :=
  match n with
  | 0 => acc
  | k + 1 => fixExp r k (fixOne + fixMul r acc / (k + 1))

/-- sin(r) ÷ r, from the square of r below 3. -/
def fixSin (r2 n acc : Nat) : Nat :=
  match n with
  | 0 => acc
  | k + 1 => fixSin r2 k (fixOne - fixMul r2 acc / ((2 * k + 2) * (2 * k + 3)))

/-- cos(r), from the square of r below 3. -/
def fixCos (r2 n acc : Nat) : Nat :=
  match n with
  | 0 => acc
  | k + 1 => fixCos r2 k (fixOne - fixMul r2 acc / ((2 * k + 1) * (2 * k + 2)))

/-- arctan(z) ÷ z, from the square of z below 1/9. -/
def fixAtan (z2 n acc : Nat) : Nat :=
  match n with
  | 0 => acc
  | k + 1 => fixAtan z2 k (fixOne / (2 * k + 1) - fixMul z2 acc)

/-- artanh(z) ÷ z, from the square of z below 1/8. -/
def fixAtanh (z2 n acc : Nat) : Nat :=
  match n with
  | 0 => acc
  | k + 1 => fixAtanh z2 k (fixOne / (2 * k + 1) + fixMul z2 acc)

/-- ln y for y from 1 to 2. -/
def fixLn (y : Nat) : Nat :=
  let z := (y - fixOne) * fixOne / (y + fixOne)
  2 * fixMul z (fixAtanh (fixMul z z) 200 0)

def fixLn2 : Nat := fixLn (2 * fixOne)

/-- π, by Machin's sum. -/
def fixPi : Nat := 16 * (fixAtan (fixOne / 25) 150 0 / 5) - 4 * (fixAtan (fixOne / 57121) 150 0 / 239)

/-- e^t for t of any size. -/
def fixExpOf (t : Nat) : Nat :=
  let k := t / fixLn2
  fixExp (t % fixLn2) 120 fixOne * 2 ^ k

/-! ## The functions -/

/-- The value of one of the six functions at ±m × 2^e as i × 2^d, to within 2^212 of i. -/
def sfnExact (fn : SfnFn) (neg : Bool) (m : Nat) (e : Int) : Int × Int :=
  -- beyond these every format has overflowed, underflowed or come within its last unit of the limit
  let x := min (fixOf m e) (256 * fixOne)
  let sg : Int := if neg then -1 else 1
  match fn with
  | .ex2 =>
    let y : Int := sg * x
    (fixExp (fixMul (y % fixOne).toNat fixLn2) 120 fixOne, y / fixOne - 512)
  | .lg2 =>
    let k := Nat.log2 m
    ((k + e) * fixOne + fixLn (fixOf m (-(k : Int))) * fixOne / fixLn2, -512)
  | .tanh =>
    let y := fixExpOf (2 * x)
    (sg * ((y - fixOne) * fixOne / (y + fixOne) : Nat), -512)
  | .sigm =>
    let y := fixExpOf x
    (((if neg then fixOne else y) * fixOne / (y + fixOne) : Nat), -512)
  | _ =>
    let x := fixOf m e
    let q := 2 * x / fixPi
    let r := x - q * fixPi / 2
    let q := if fn = .cos then q + 1 else q
    let r2 := fixMul r r
    let v : Int := if q % 2 = 0 then fixMul r (fixSin r2 80 fixOne) else fixCos r2 80 fixOne
    ((if q % 4 < 2 then v else -v) * (if fn = .cos then 1 else sg), -512)

/-- The bound of Table 21-2 on the result at a value i × 2^d, in units of 2^d. One ulp is the distance of the format's
neighbouring values in the binade of the exact value (log entry 4). -/
def sfnBound (fn : SfnFn) (t : Fmt) (m : Nat) (e i d : Int) : Int :=
  let q := max ((Nat.log2 i.natAbs : Int) + d) (1 - t.bias) - t.fbits
  let ulp : Int := 2 ^ (q - d).toNat
  let abs := fun (b : Int) => (2 : Int) ^ (b - d).toNat
  match fn, t with
  | .lg2, .f32 => let top := (Nat.log2 m : Int) + e; if top = -1 || top = 0 then abs (-22) else 2 * ulp
  | .sin, .f32 | .cos, .f32 => abs (-22)
  | .sin, _ | .cos, _ => max ulp (abs (-14))
  | .sigm, .f32 => max (2 * ulp) (abs (-24))
  | _, .f32 => 2 * ulp
  | _, _ => ulp

/-- The code of a magnitude, rounded to the greatest below it; infinity stands at the power of two after the largest
finite value. -/
def magDown (t : Fmt) (m : Nat) (d : Int) : Nat :=
  if m = 0 then 0
  else if (t.bias : Int) < (Nat.log2 m : Int) + d then t.infCode
  else (roundIeee t .rz false m d).1

/-- The code of a magnitude, rounded to the smallest above it. -/
def magUp (t : Fmt) (m : Nat) (d : Int) : Nat := if m = 0 then 0 else (roundIeee t .ru false m d).1

/-- Codes in the order of their values, −0 just below +0: the first and the last inside the bound of Table 21-2. -/
def sfnRange (fn : SfnFn) (t : Fmt) (neg : Bool) (m : Nat) (e : Int) : Int × Int :=
  let (i, d) := sfnExact fn neg m e
  let b := sfnBound fn t m e i d + 2 ^ 212
  let lo := i - b
  let hi := i + b
  (if 0 < lo then (magUp t lo.natAbs d : Int) else -(magDown t lo.natAbs d : Int) - 1,
    if 0 ≤ hi then (magDown t hi.natAbs d : Int) else -(magUp t hi.natAbs d : Int) - 1)

/-- One of the codes between two places of that order. -/
def sfnBetween (t : Fmt) (r : Int × Int) (n : Nat) : Nat :=
  let j := r.1 + (n % (r.2 - r.1 + 1).toNat : Nat)
  if 0 ≤ j then j.toNat else 2 ^ (t.bits - 1) + (-j - 1).toNat

/-! ## The results -/

/-- The value is an exact power of two: its exponent. -/
def pow2Exp (m : Nat) (e : Int) : Option Int := if m = 2 ^ Nat.log2 m then some (e + Nat.log2 m) else none

/-- The flags of a result that the module computes inside the bound of Table 21-2 (R486): NX, and OF and UF as Table
9-3 gives for the delivered result. -/
def deliveredFlags (t : Fmt) (c : Nat) : BitVec 7 :=
  flagNX ||| (match t.val c 0 with
    | .inf _ => flagOF
    | .num _ m e => flagIf (m = 0 || (Nat.log2 m : Int) + e < 1 - t.bias) flagUF
    | .nan _ => 0)

/-- SFN (R485, R486): special operands, the exact cases, .rcp and .rsq correctly rounded, and the module's own function
inside the bound of Table 21-2 for the rest. -/
def sfnVal (fn : SfnFn) (ty : FTy) (a : Nat) : FRes :=
  let t := FTy.fmt ty
  let a := a % 2 ^ t.bits
  let free := fun (neg : Bool) (m : Nat) (e : Int) =>
    let c := sfnBetween t (sfnRange fn t neg m e) (Config.sfn fn ty (BitVec.ofNat 32 a)).toNat
    ((c, deliveredFlags t c) : FRes)
  let nanR : FRes := (t.cnan, flagNV)
  let one := (t.bias) * 2 ^ t.fbits
  match t.val a 0 with
  | .nan sig => (t.cnan, flagIf sig flagNV)
  | .inf neg => match fn with
    | .rcp => (t.sign neg, 0)
    | .rsq => if neg then nanR else (0, 0)
    | .ex2 => if neg then (0, 0) else (t.infCode, 0)
    | .lg2 => if neg then nanR else (t.infCode, 0)
    | .sin | .cos => nanR
    | .tanh => (t.sign neg + one, 0)
    | .sigm => if neg then (0, 0) else (one, 0)
  | .num neg m e =>
    if m = 0 then match fn with
      | .rcp | .rsq => (t.sign neg + t.infCode, flagDZ)
      | .lg2 => (t.sign true + t.infCode, flagDZ)
      | .sin | .tanh => (t.sign neg, 0)
      | .cos | .ex2 => (one, 0)
      | .sigm =>
        let r := free neg m e
        if (t.val r.1 0).cmp (.num false 1 (-1)) == .eq then (r.1, 0) else r
    else match fn with
      | .rcp => roundTo t .rn (rcpVal neg m e) 0
      | .rsq => if neg then nanR else roundTo t .rn (rsqVal m e) 0
      | .ex2 =>
        let (n, inex) := quantum .rz neg m e 0
        let k : Int := if neg then -(n : Int) else n
        let lo : Int := 1 - t.bias - t.fbits
        if !inex && lo ≤ k && k ≤ t.bias then roundTo t .rn (.num false 1 k) 0 else free neg m e
      | .lg2 =>
        if neg then nanR
        else match pow2Exp m e with
          | some k => roundTo t .rn (ofInt k) 0
          | none => free neg m e
      | .sin | .cos | .tanh | .sigm => free neg m e

end Sys2Proof.Machine
end

