-- ==== Sys2Proof/Machine/Float.lean ====
section
/-! DEFINITION. Float, packed, special-function and L6 instructions (R406 to R411, R416 to R418, R427, R428, R450,
R451, R484 to R486). -/

namespace Sys2Proof.Machine

/-- Writes a code, zero above its bits, and its flags. -/
def Thread.putF (t : Thread) (d : Reg) (r : FRes) : Thread := (t.wr d (BitVec.ofNat 32 r.1)).orFlags r.2

/-- The bits of an operand that a float type reads (R406). -/
def fbitsOf (t : Fmt) (x : Word) : Nat := x.toNat % 2 ^ t.bits

/-- A two-source float op. -/
def Thread.fOp (t : Thread) (ty : FTy) (d a : Reg) (b : SrcB) (f : Fmt → Nat → Nat → FRes) : Thread :=
  let m := FTy.fmt ty
  t.putF d (f m (fbitsOf m (t.rd a)) (fbitsOf m (t.srcW b)))

/-! ## Float arithmetic -/

/-- FADD (R407). -/
def execFadd (h : Hdr) (ty : FTy) (rnd : Rnd) (nb : Bool) (d a : Reg) (b : SrcB) (s : State) :
    Host.Outcome State Fault Refusal :=
  aluOp (.fadd h ty rnd nb d a b) s fun e => e.th.fOp ty d a b fun m x y => fadd' m rnd x nb y

/-- FMUL (R407). -/
def execFmul (h : Hdr) (ty : FTy) (rnd : Rnd) (nb : Bool) (d a : Reg) (b : SrcB) (s : State) :
    Host.Outcome State Fault Refusal :=
  aluOp (.fmul h ty rnd nb d a b) s fun e => e.th.fOp ty d a b fun m x y => fmul' m rnd x nb y

/-- FFMA (R407). -/
def execFfma (h : Hdr) (ty : FTy) (rnd : Rnd) (nb nc : Bool) (d a : Reg) (b : SrcB) (c : Reg) (s : State) :
    Host.Outcome State Fault Refusal :=
  aluOp (.ffma h ty rnd nb nc d a b c) s fun e => e.th.fOp ty d a b fun m x y =>
    ffma' m rnd x nb y nc (fbitsOf m (e.th.rd c))

/-- FMIN (R408). -/
def execFmin (h : Hdr) (ty : FTy) (d a : Reg) (b : SrcB) (s : State) : Host.Outcome State Fault Refusal :=
  aluOp (.fmin h ty d a b) s fun e => e.th.fOp ty d a b fun m x y => fminmax m false x y

/-- FMAX (R408). -/
def execFmax (h : Hdr) (ty : FTy) (d a : Reg) (b : SrcB) (s : State) : Host.Outcome State Fault Refusal :=
  aluOp (.fmax h ty d a b) s fun e => e.th.fOp ty d a b fun m x y => fminmax m true x y

/-- FSETP (R417, R418). -/
def execFsetp (h : Hdr) (ty : FTy) (cmp : FCmp) (d : BitVec 8) (a : Reg) (b : SrcB) (s : State) :
    Host.Outcome State Fault Refusal :=
  aluOp (.fsetp h ty cmp d a b) s fun e =>
    let m := FTy.fmt ty
    let (r, f) := fcompare m cmp (fbitsOf m (e.th.rd a)) (fbitsOf m (e.th.srcW b))
    (e.th.setP d.toNat r).orFlags f

/-- FRND (R416). -/
def execFrnd (h : Hdr) (ty : FTy) (rnd : Rnd) (d a : Reg) (s : State) : Host.Outcome State Fault Refusal :=
  aluOp (.frnd h ty rnd d a) s fun e =>
    let m := FTy.fmt ty
    e.th.putF d (fround m rnd (fbitsOf m (e.th.rd a)))

/-- FCLASS (R410). -/
def execFclass (h : Hdr) (ty : NumTy) (d a : Reg) (s : State) : Host.Outcome State Fault Refusal :=
  aluOp (.fclass h ty d a) s fun e =>
    let m := NumTy.fmt ty
    e.th.wr d (BitVec.ofNat 32 (2 ^ fclassBit m (fbitsOf m (e.th.rd a))))

/-! ## Packed arithmetic -/

/-- The 16-bit format of a packed op. -/
def packFmt (bf : Bool) : Fmt := if bf then .bf16 else .f16

/-- Element i is computed (R450). -/
def PackEl.sel : PackEl → Nat → Bool
  | .both, _ => true
  | .lo, i => i == 0
  | .hi, i => i == 1

/-- A packed op: the elements that EL selects, the other zero without flags (R451). -/
def packOp (el : PackEl) (f : Nat → FRes) : FRes :=
  let r := fun i => if PackEl.sel el i then f i else (0, 0)
  ((r 0).1 + 65536 * (r 1).1, (r 0).2 ||| (r 1).2)

/-- Element i of a packed operand (R190). -/
def elem16 (x : Word) (i : Nat) : Nat := x.toNat / 65536 ^ i % 65536

/-- PADD (R451). -/
def execPadd (h : Hdr) (bf : Bool) (rnd : Rnd) (nb : Bool) (el : PackEl) (d a : Reg) (b : SrcB) (s : State) :
    Host.Outcome State Fault Refusal :=
  aluOp (.padd h bf rnd nb el d a b) s fun e => e.th.putF d (packOp el fun i =>
    fadd' (packFmt bf) rnd (elem16 (e.th.rd a) i) nb (elem16 (e.th.srcW b) i))

/-- PMUL (R451). -/
def execPmul (h : Hdr) (bf : Bool) (rnd : Rnd) (nb : Bool) (el : PackEl) (d a : Reg) (b : SrcB) (s : State) :
    Host.Outcome State Fault Refusal :=
  aluOp (.pmul h bf rnd nb el d a b) s fun e => e.th.putF d (packOp el fun i =>
    fmul' (packFmt bf) rnd (elem16 (e.th.rd a) i) nb (elem16 (e.th.srcW b) i))

/-- PFMA (R451). -/
def execPfma (h : Hdr) (bf : Bool) (rnd : Rnd) (nb nc : Bool) (el : PackEl) (d a : Reg) (b : SrcB) (c : Reg)
    (s : State) : Host.Outcome State Fault Refusal :=
  aluOp (.pfma h bf rnd nb nc el d a b c) s fun e => e.th.putF d (packOp el fun i =>
    ffma' (packFmt bf) rnd (elem16 (e.th.rd a) i) nb (elem16 (e.th.srcW b) i) nc (elem16 (e.th.rd c) i))

/-- PMINMAX (R451). -/
def execPminmax (h : Hdr) (bf isMax : Bool) (el : PackEl) (d a : Reg) (b : SrcB) (s : State) :
    Host.Outcome State Fault Refusal :=
  aluOp (.pminmax h bf isMax el d a b) s fun e => e.th.putF d (packOp el fun i =>
    fminmax (packFmt bf) isMax (elem16 (e.th.rd a) i) (elem16 (e.th.srcW b) i))

/-! ## Special functions and L6 -/

/-- SFN (R485, R486). -/
def execSfn (h : Hdr) (fn : SfnFn) (ty : FTy) (d a : Reg) (s : State) : Host.Outcome State Fault Refusal :=
  aluOp (.sfn h fn ty d a) s fun e => e.th.putF d (sfnVal fn ty (fbitsOf (FTy.fmt ty) (e.th.rd a)))

/-- The four elements of an L6 op (R428). -/
def l6Op (f : Nat → Nat → FRes) (a b : Word) : FRes :=
  (List.range 4).foldl (fun acc i =>
    let r := f (a.toNat / 256 ^ i % 64) (b.toNat / 256 ^ i % 64)
    (acc.1 + r.1 * 256 ^ i, acc.2 ||| r.2)) (0, 0)

/-- LMUL (R428). -/
def execLmul (h : Hdr) (d a b : Reg) (s : State) : Host.Outcome State Fault Refusal :=
  aluOp (.lmul h d a b) s fun e => e.th.putF d (l6Op l6mul (e.th.rd a) (e.th.rd b))

/-- LADD (R428). -/
def execLadd (h : Hdr) (rnd : Rnd) (nb : Bool) (d a b : Reg) (s : State) : Host.Outcome State Fault Refusal :=
  aluOp (.ladd h rnd nb d a b) s fun e => e.th.putF d
    (l6Op (fun x y => l6add rnd x (if nb then l6neg y else y)) (e.th.rd a) (e.th.rd b))

end Sys2Proof.Machine
end

