-- ==== Sys2Proof/Machine/Convert.lean ====
section
/-! DEFINITION. Conversions: CVT (R398 to R400) and QNT (R461, R462). -/

namespace Sys2Proof.Machine

/-- Bits of an integer TYPE. -/
def NumTy.intBits : NumTy → Nat
  | .s8 | .n8 => 8
  | .s16 | .n16 => 16
  | .s64 | .n64 => 64
  | _ => 32

/-- Signed integer TYPE. -/
def NumTy.isSigned : NumTy → Bool
  | .s8 | .s16 | .s32 | .s64 => true
  | _ => false

/-- The integer that CVT reads (R399). -/
def NumTy.intVal (ty : NumTy) (x : Dword) : Int := intOf (NumTy.intBits ty) (NumTy.isSigned ty) x.toNat

/-- An integer result in a destination: its low bits, extended to 32 or 64 bits (R399). -/
def NumTy.extend (ty : NumTy) (r : Int) : Dword :=
  BitVec.ofInt 64 (intOf (NumTy.intBits ty) (NumTy.isSigned ty) (BitVec.ofInt 64 r).toNat)

/-- CVT's result and flags (R399). An integer beyond FP16's range overflows as Table 9-3's FP16 row says (DEDUCED: R195
names the overflow of integers only in the narrower formats; log entry 19). -/
def cvtVal (dty sty : NumTy) (rnd : Rnd) (sat : Bool) (x : Dword) (xv : Nat) : Dword × BitVec 7 :=
  let code := x.toNat % 2 ^ (NumTy.fmt sty).bits
  if dty.isInt then
    if sty.isInt then
      let i := NumTy.intVal sty x
      let (_, f) := satInt (NumTy.intBits dty) (NumTy.isSigned dty) sat i
      let r := if f = 0 then i else if i < 0 then tyMin (NumTy.intBits dty) (NumTy.isSigned dty)
        else tyMax (NumTy.intBits dty) (NumTy.isSigned dty)
      (NumTy.extend dty r, f)
    else
      let (i, f) := toInt ((NumTy.fmt sty).val code xv) (NumTy.intBits dty) (NumTy.isSigned dty) rnd
      (NumTy.extend dty i, f)
  else
    let v := if sty.isInt then ofInt (NumTy.intVal sty x) else (NumTy.fmt sty).val code xv
    if dty = sty && !v.isNan then (BitVec.ofNat 64 code, 0)
    else
      let (c, f) := roundTo (NumTy.fmt dty) rnd v xv
      (BitVec.ofNat 64 c, f)

/-- CVT (R398, R399). -/
def execCvt (h : Hdr) (dt st : NumTy) (rnd : Rnd) (sat : Bool) (d a : Reg) (x : Option Reg) (s : State) :
    Host.Outcome State Fault Refusal :=
  aluOp (.cvt h dt st rnd sat d a x) s fun e =>
    let xv := match x with
      | none => 0
      | some r => (e.th.rd r).toNat % 65536
    let (v, f) := cvtVal dt st rnd sat (e.th.rdW st.is64 a) xv
    (e.th.wrW dt.is64 d v).orFlags f

/-- The format of QNT. -/
def QTy.fmt : QTy → Fmt
  | .f8e4 => .f8e4 | .f8e5 => .f8e5 | .f4 => .f4 | .l6 => .l6

/-- Writes consecutive registers from the 32-bit words of a number. -/
def Thread.wrMany (t : Thread) (d : Reg) (n x : Nat) : Thread :=
  match n with
  | 0 => t
  | n + 1 => (t.wr d (BitVec.ofNat 32 x)).wrMany (regNext d) n (x / 2 ^ 32)

/-- QNT: the codes of the block, then the scale byte in the next register (R462). -/
def execQnt (h : Hdr) (ty : QTy) (rnd : Rnd) (d a : Reg) (texp : BitVec 8) (s : State) :
    Host.Outcome State Fault Refusal :=
  aluOp (.qnt h ty rnd d a texp) s fun e =>
    let t := QTy.fmt ty
    let n := if ty = .f4 then 2 else 4
    let (sc, cs, f) := quantBlock t rnd texp.toInt 0 ((e.th.rdMany a 16).map fun x => Fmt.f32.val x.toNat 0)
    ((e.th.wrMany d n (packCodes t cs)).wr (regPlus d n) (BitVec.ofNat 32 sc)).orFlags f

end Sys2Proof.Machine
end

