-- ==== Sys2Proof/Machine/Integer.lean ====
section
/-! DEFINITION. Integer, shift, bit-field, byte and move instructions (R347, R377 to R380, R387, R397, R422 to R426,
R437 to R440, R447, R448, R457 to R460, R478, R479, R487, R488). -/

namespace Sys2Proof.Machine

/-! ## Shared results -/

/-- The integer that an operand of an integer type holds (R423). -/
def IntTy.val (ty : IntTy) (x : Dword) : Int := intOf ty.width ty.signed x.toNat

/-- Writes an exact result in the register or pair of a type, under SAT (R423). -/
def Thread.putInt (t : Thread) (w64 signed sat : Bool) (d : Reg) (r : Int) : Thread :=
  let (v, f) := satInt (if w64 then 64 else 32) signed sat r
  (t.wrW w64 d v).orFlags f

/-- A two-source integer op: the exact result of the two operands (R423). -/
def Thread.intOp (t : Thread) (ty : IntTy) (sat : Bool) (d a : Reg) (b : SrcB) (f : Int → Int → Int) : Thread :=
  t.putInt ty.is64 ty.signed sat d (f (IntTy.val ty (t.rdW ty.is64 a)) (IntTy.val ty (t.srcB ty b)))

/-- Start and length of a bit field, from the control word (R378). -/
def bitField (w : Nat) (b : Dword) : Nat × Nat :=
  let p := min (b.toNat % 256) w
  let l := b.toNat / 256 % 256
  (p, min (if l = 0 then w - p else l) (w - p))

/-- Writes the bits of a number in the register or pair of a width. -/
def Thread.putNat (t : Thread) (w64 : Bool) (d : Reg) (n : Nat) : Thread := t.wrW w64 d (BitVec.ofNat 64 n)

/-- Number of bits of an operand. -/
def widthOf (w64 : Bool) : Nat := if w64 then 64 else 32

/-- Number of 1 bits among the n lowest. -/
def popCount (n x : Nat) : Nat := ((lowBits n x).filter id).length

/-- The n lowest bits in reverse order. -/
def revBits (n x : Nat) : Nat := (lowBits n x).foldl (fun acc b => 2 * acc + (if b then 1 else 0)) 0

/-- The shift amount, as an unsigned value of at most w (R488). -/
def shiftAmt (t : Thread) (ty : IntTy) (b : SrcB) : Nat := min (t.srcB32 ty b).toNat ty.width

/-! ## Arithmetic -/

/-- IADD (R422, R423). -/
def execIadd (h : Hdr) (ty : IntTy) (sat : Bool) (d a : Reg) (b : SrcB) (s : State) : Host.Outcome State Fault Refusal :=
  aluOp (.iadd h ty sat d a b) s fun e => e.th.intOp ty sat d a b (· + ·)

/-- ISUB (R422, R423). -/
def execIsub (h : Hdr) (ty : IntTy) (sat : Bool) (d a : Reg) (b : SrcB) (s : State) : Host.Outcome State Fault Refusal :=
  aluOp (.isub h ty sat d a b) s fun e => e.th.intOp ty sat d a b (· - ·)

/-- IMUL (R422, R423). -/
def execImul (h : Hdr) (ty : IntTy) (sat : Bool) (d a : Reg) (b : SrcB) (s : State) : Host.Outcome State Fault Refusal :=
  aluOp (.imul h ty sat d a b) s fun e => e.th.intOp ty sat d a b (· * ·)

/-- IMULH: the high half of the exact product (R423). -/
def execImulh (h : Hdr) (ty : IntTy) (d a : Reg) (b : SrcB) (s : State) : Host.Outcome State Fault Refusal :=
  aluOp (.imulh h ty d a b) s fun e => e.th.intOp ty false d a b fun x y => x * y / (2 ^ ty.width : Nat)

/-- IMAD and IMAD.wide (R423). -/
def execImad (h : Hdr) (ty : IntTy) (wide sat : Bool) (d a : Reg) (b : SrcB) (c : Reg) (s : State) :
    Host.Outcome State Fault Refusal :=
  aluOp (.imad h ty wide sat d a b c) s fun e =>
    let w64 := ty.is64 || wide
    let x := IntTy.val ty (e.th.rdW ty.is64 a)
    let y := IntTy.val ty (e.th.srcB ty b)
    let z := intOf (widthOf w64) ty.signed (e.th.rdW w64 c).toNat
    e.th.putInt w64 ty.signed sat d (x * y + z)

/-- IMIN (R423). -/
def execImin (h : Hdr) (ty : IntTy) (d a : Reg) (b : SrcB) (s : State) : Host.Outcome State Fault Refusal :=
  aluOp (.imin h ty d a b) s fun e => e.th.intOp ty false d a b min

/-- IMAX (R423). -/
def execImax (h : Hdr) (ty : IntTy) (d a : Reg) (b : SrcB) (s : State) : Host.Outcome State Fault Refusal :=
  aluOp (.imax h ty d a b) s fun e => e.th.intOp ty false d a b max

/-- IABS (R423). -/
def execIabs (h : Hdr) (w64 sat : Bool) (d a : Reg) (s : State) : Host.Outcome State Fault Refusal :=
  aluOp (.iabs h w64 sat d a) s fun e =>
    e.th.putInt w64 true sat d (sextInt (widthOf w64) (e.th.rdW w64 a).toNat).natAbs

/-- The comparisons of ISETP (R426). -/
def icmpHolds (c : ICmp) (x y : Int) : Bool :=
  match c with
  | .eq => x == y
  | .ne => x != y
  | .lt => decide (x < y)
  | .le => decide (x ≤ y)
  | .gt => decide (y < x)
  | .ge => decide (y ≤ x)

/-- ISETP (R426). -/
def execIsetp (h : Hdr) (ty : IntTy) (cmp : ICmp) (d : BitVec 8) (a : Reg) (b : SrcB) (s : State) :
    Host.Outcome State Fault Refusal :=
  aluOp (.isetp h ty cmp d a b) s fun e =>
    e.th.setP d.toNat (icmpHolds cmp (IntTy.val ty (e.th.rdW ty.is64 a)) (IntTy.val ty (e.th.srcB ty b)))

/-- The exact sum of IDP4 (R425). -/
def dot4 (asg bsg : Bool) (a b c : Word) : Int :=
  (List.range 4).foldl (fun r i =>
    r + intOf 8 asg (a.toNat / 2 ^ (8 * i)) * intOf 8 bsg (b.toNat / 2 ^ (8 * i))) (sextInt 32 c.toNat)

/-- IDP4 (R425). -/
def execIdp4 (h : Hdr) (asg bsg sat : Bool) (d a b c : Reg) (s : State) : Host.Outcome State Fault Refusal :=
  aluOp (.idp4 h asg bsg sat d a b c) s fun e =>
    e.th.putInt false true sat d (dot4 asg bsg (e.th.rd a) (e.th.rd b) (e.th.rd c))

/-- LEA: plain 64-bit arithmetic (R438). -/
def execLea (h : Hdr) (ty : IntTy) (d a : Reg) (b : SrcB) (sh : BitVec 6) (s : State) :
    Host.Outcome State Fault Refusal :=
  aluOp (.lea h ty d a b sh) s fun e =>
    e.th.wr64 d (BitVec.ofInt 64 ((e.th.rd64 a).toNat + IntTy.val ty (e.th.srcB ty b) * (2 ^ sh.toNat : Nat)))

/-! ## Shifts -/

/-- SHL (R488). -/
def execShl (h : Hdr) (ty : IntTy) (d a : Reg) (b : SrcB) (s : State) : Host.Outcome State Fault Refusal :=
  aluOp (.shl h ty d a b) s fun e =>
    e.th.putNat ty.is64 d ((e.th.rdW ty.is64 a).toNat * 2 ^ shiftAmt e.th ty b)

/-- SHR (R488). -/
def execShr (h : Hdr) (ty : IntTy) (d a : Reg) (b : SrcB) (s : State) : Host.Outcome State Fault Refusal :=
  aluOp (.shr h ty d a b) s fun e =>
    e.th.wrW ty.is64 d (BitVec.ofInt 64 (IntTy.val ty (e.th.rdW ty.is64 a) / (2 ^ shiftAmt e.th ty b : Nat)))

/-- SHF (R488). -/
def execShf (h : Hdr) (w64 right : Bool) (d a : Reg) (b : SrcB) (c : Reg) (s : State) :
    Host.Outcome State Fault Refusal :=
  aluOp (.shf h w64 right d a b c) s fun e =>
    let w := widthOf w64
    let n := shiftAmt e.th (if w64 then .n64 else .n32) b
    let x := (e.th.rdW w64 c).toNat * 2 ^ w + (e.th.rdW w64 a).toNat
    e.th.putNat w64 d (if right then x / 2 ^ n else x * 2 ^ n / 2 ^ w)

/-! ## Bits, fields and bytes -/

/-- The bitwise function of three operands that an 8-bit table gives (R440). -/
def lutWord (lut : BitVec 8) (a b c : Dword) : Dword :=
  BitVec.ofNat 64 ((List.range 64).foldl (fun acc i =>
    let k := (if a.getLsbD i then 4 else 0) + (if b.getLsbD i then 2 else 0) + (if c.getLsbD i then 1 else 0)
    acc + (if lut.getLsbD k then 2 ^ i else 0)) 0)

/-- LOGT; C is the destination as it stood (R439, R440). -/
def execLogt (h : Hdr) (w64 : Bool) (d a : Reg) (b : SrcB) (lut : BitVec 8) (s : State) :
    Host.Outcome State Fault Refusal :=
  aluOp (.logt h w64 d a b lut) s fun e =>
    e.th.wrW w64 d (lutWord lut (e.th.rdW w64 a) (e.th.srcW64 w64 b) (e.th.rdW w64 d))

/-- BFE (R378). -/
def execBfe (h : Hdr) (ty : IntTy) (d a : Reg) (b : SrcB) (s : State) : Host.Outcome State Fault Refusal :=
  aluOp (.bfe h ty d a b) s fun e =>
    let (p, l) := bitField ty.width (e.th.srcB32 ty b)
    let f := (e.th.rdW ty.is64 a).toNat / 2 ^ p % 2 ^ l
    e.th.wrW ty.is64 d (if l = 0 then 0 else BitVec.ofInt 64 (intOf l ty.signed f))

/-- BFI (R380). -/
def execBfi (h : Hdr) (w64 : Bool) (d a : Reg) (b : SrcB) (c : Reg) (s : State) : Host.Outcome State Fault Refusal :=
  aluOp (.bfi h w64 d a b c) s fun e =>
    let (p, l) := bitField (widthOf w64) (e.th.srcB32 (if w64 then .n64 else .n32) b)
    let x := (e.th.rdW w64 c).toNat
    let f := (e.th.rdW w64 a).toNat % 2 ^ l
    e.th.putNat w64 d (x - x / 2 ^ p % 2 ^ l * 2 ^ p + f * 2 ^ p)

/-- POPC (R457). -/
def execPopc (h : Hdr) (w64 : Bool) (d a : Reg) (s : State) : Host.Outcome State Fault Refusal :=
  aluOp (.popc h w64 d a) s fun e => e.th.putNat w64 d (popCount 64 (e.th.rdW w64 a).toNat)

/-- CLZ (R397). -/
def execClz (h : Hdr) (w64 : Bool) (d a : Reg) (s : State) : Host.Outcome State Fault Refusal :=
  aluOp (.clz h w64 d a) s fun e =>
    let x := (e.th.rdW w64 a).toNat
    e.th.putNat w64 d (if x = 0 then widthOf w64 else widthOf w64 - 1 - Nat.log2 x)

/-- BREV (R387). -/
def execBrev (h : Hdr) (w64 : Bool) (d a : Reg) (s : State) : Host.Outcome State Fault Refusal :=
  aluOp (.brev h w64 d a) s fun e => e.th.putNat w64 d (revBits (widthOf w64) (e.th.rdW w64 a).toNat)

/-- One byte of PSWZ's result, from the eight source bytes and its control byte (Table 20-3a). -/
def pswzByte (src ctl : Nat) : Nat :=
  let b := src / 2 ^ (8 * (ctl % 8)) % 256
  match ctl / 8 % 4 with
  | 0 => b
  | 1 => if b ≥ 128 then 255 else 0
  | 2 => 0
  | _ => revBits 8 b

/-- PSWZ (R460). -/
def execPswz (h : Hdr) (d a : Reg) (b : SrcB) (c : Reg) (s : State) : Host.Outcome State Fault Refusal :=
  aluOp (.pswz h d a b c) s fun e =>
    let src := (e.th.rd a).toNat + (e.th.srcW b).toNat * 2 ^ 32
    let ctl := (e.th.rd c).toNat
    e.th.putNat false d ((List.range 4).foldl (fun acc i =>
      acc + pswzByte src (ctl / 2 ^ (8 * i)) * 2 ^ (8 * i)) 0)

/-! ## Moves -/

/-- SEL (R479). -/
def execSel (h : Hdr) (w64 : Bool) (d a : Reg) (b : SrcB) (pc : BitVec 8) (s : State) :
    Host.Outcome State Fault Refusal :=
  aluOp (.sel h w64 d a b pc) s fun e =>
    e.th.wrW w64 d (if e.th.psrc pc then e.th.rdW w64 a else e.th.srcW64 w64 b)

/-- MOV (R448). -/
def execMov (h : Hdr) (w64 : Bool) (d a : Reg) (s : State) : Host.Outcome State Fault Refusal :=
  aluOp (.mov h w64 d a) s fun e => e.th.wrW w64 d (e.th.rdW w64 a)

/-- MOV.X: an emulation register (R448; its check is one of check 6). -/
def execMovX (h : Hdr) (d : Reg) (n : BitVec 8) (s : State) : Host.Outcome State Fault Refusal :=
  aluOp (.movX h d n) s fun e => e.th.wr d (sget e.th.x n.toNat)

/-- MOVI, short form (R448). -/
def execMoviShort (h : Hdr) (ty : IntTy) (d : Reg) (v : BitVec 8) (s : State) : Host.Outcome State Fault Refusal :=
  aluOp (.moviShort h ty d v) s fun e => e.th.wrW ty.is64 d (e.th.srcB ty (.imm v))

/-- MOVI, long form (R448). -/
def execMoviLong (h : Hdr) (ty : IntTy) (d : Reg) (v : Dword) (s : State) : Host.Outcome State Fault Refusal :=
  aluOp (.moviLong h ty d v) s fun e => e.th.wrW ty.is64 d v

end Sys2Proof.Machine
end

