-- ==== Sys2Proof/Machine/Lanes.lean ====
section
/-! DEFINITION. What the cross-lane instructions compute over the participants of an instance: SHFL (R490), VOTE (R503),
MATCH (R443), ELANE (R402) and REDW (R471, R208 to R210). -/

namespace Sys2Proof.Machine

/-- Participants of an instance: their surroundings, in ascending lane order. -/
abbrev Parts := List Env

/-- The mask of the lanes of some participants. -/
def laneMask (ps : Parts) : Word := ps.foldl (fun m e => m ||| BitVec.ofNat 32 (2 ^ e.lane)) 0

/-- SHFL's effect on a participant (R490). -/
def shflEffect (mode : ShflMode) (w64 : Bool) (d a b : Reg) (ps : Parts) (e : Env) : Thread :=
  let x := (e.th.rd b).toNat
  let j := match mode with
    | .abs => some x
    | .below => if x ≤ e.lane then some (e.lane - x) else none
    | .above => some (e.lane + x)
    | .xor => some (Nat.xor e.lane x)
  let src := match ps.find? fun q => some q.lane == j with
    | some q => q
    | none => e
  e.th.wrW w64 d (src.th.rdW w64 a)

/-- VOTE's effect on a participant (R503). -/
def voteEffect (form : VoteForm) (a : BitVec 8) (ps : Parts) (e : Env) : Thread :=
  let q := fun (x : Env) => x.th.psrc a
  match form with
  | .all p => e.th.setP p.toNat (ps.all q)
  | .any p => e.th.setP p.toNat (ps.any q)
  | .same p => e.th.setP p.toNat (ps.all fun x => q x == q e)
  | .mask d => e.th.wr d (laneMask (ps.filter q))

/-- MATCH's effect on a participant (R443). -/
def matchEffect (w64 same : Bool) (d a : Reg) (ps : Parts) (e : Env) : Thread :=
  let peers := ps.filter fun x => x.th.rdW w64 a == e.th.rdW w64 a
  e.th.wr d (if !same then laneMask peers else if peers.length = ps.length then laneMask ps else 0)

/-- ELANE's effect on a participant (R402). -/
def elaneEffect (form : ElaneForm) (ps : Parts) (e : Env) : Thread :=
  let low := (ps.map (·.lane)).foldl min 31
  match form with
  | .pred p => e.th.setP p.toNat (e.lane == low)
  | .lane d => e.th.wr d (BitVec.ofNat 32 low)

/-! ## REDW -/

/-- The integer type of a REDW type. -/
def RedwTy.int : RedwTy → IntTy
  | .s64 => .s64 | .n64 => .n64 | .s32 => .s32 | _ => .n32

/-- The float format of a REDW type; none for the integer types. -/
def RedwTy.float : RedwTy → Option Fmt
  | .f32 => some .f32 | .f16 => some .f16 | .bf16 => some .bf16 | _ => none

/-- One level of the xor tree: the lower half of the lanes is the first operand (R208). -/
def treeLevel (f : Nat → Nat → FRes) (xs : List Nat) (fl : BitVec 7) : List Nat × BitVec 7 :=
  let rs := List.zipWith f (xs.take (xs.length / 2)) (xs.drop (xs.length / 2))
  (rs.map (·.1), rs.foldl (fun g r => g ||| r.2) fl)

/-- The xor tree over 2^n lanes (R208). -/
def xorTree (f : Nat → Nat → FRes) (n : Nat) (xs : List Nat) (fl : BitVec 7) : FRes :=
  match n with
  | 0 => (xs.headD 0, fl)
  | n + 1 => let (ys, g) := treeLevel f xs fl; xorTree f n ys g

/-- The values of the 32 lanes, with the identity where a lane does not participate. -/
def laneVals (ps : Parts) (f : Env → Nat) (ident : Nat) : List Nat :=
  (List.range 32).map fun l => match ps.find? fun e => e.lane == l with
    | some e => f e
    | none => ident

/-- ord(v) of a value of a format (R210). -/
def ordKey (t : Fmt) (v : Nat) : Nat :=
  let v := v % 2 ^ t.bits
  if (t.val v 0).isNan then 0
  else if v / 2 ^ (t.bits - 1) = 0 then v + 2 ^ (t.bits - 1) else 2 ^ t.bits - 1 - v

/-- Key form of a max-with-index pair (R210). -/
def keyForm (t : Fmt) (v idx : Nat) : Nat := ordKey t v * 2 ^ 32 + (2 ^ 32 - 1 - idx)

/-- The exact integer result of a REDW over a non-empty list of values (R471). -/
def redInt (op : RedwOp) (xs : List Int) (bits : List Nat) : Int :=
  match op with
  | .add => xs.foldl (· + ·) 0
  | .min => xs.foldl min (xs.headD 0)
  | .max => xs.foldl max (xs.headD 0)
  | .and => (bits.foldl Nat.land (bits.headD 0) : Nat)
  | .or => (bits.foldl Nat.lor 0 : Nat)
  | .xor => (bits.foldl Nat.xor 0 : Nat)
  | .maxidx => 0

/-- REDW's effect on a participant (R471). Under `.rd` a lane of +0 and the identity -0.0 give -0 by R407 (DEDUCED, where
R208 calls every value exact with the identity: log entry 19). -/
def redwEffect (ty : RedwTy) (op : RedwOp) (sat : Bool) (rnd : Rnd) (d a b : Reg) (ps : Parts) (e : Env) : Thread :=
  match RedwTy.float ty with
  | none =>
    let it := RedwTy.int ty
    let val := fun (x : Env) => x.th.rdW it.is64 a
    e.th.putInt it.is64 it.signed sat d
      (redInt op (ps.map fun x => IntTy.val it (val x)) (ps.map fun x => (val x).toNat))
  | some t =>
    let val := fun (x : Env) => fbitsOf t (x.th.rd a)
    match op with
    | .maxidx =>
      e.th.wr64 d (BitVec.ofNat 64 ((ps.map fun x => keyForm t (val x) (x.th.rd b).toNat).foldl max 0))
    | .add => e.th.putF d (xorTree (fun x y => fadd' t rnd x false y) 5 (laneVals ps val (t.sign true)) 0)
    | .min => e.th.putF d (xorTree (fun x y => fminmax t false x y) 5 (laneVals ps val t.cnan) 0)
    | _ => e.th.putF d (xorTree (fun x y => fminmax t true x y) 5 (laneVals ps val t.cnan) 0)

/-- What a participant of an instance holds after a cross-lane instruction. -/
def laneEffect (i : Instr) (ps : Parts) (e : Env) : Thread :=
  match i with
  | .shfl _ mode w64 d a b _ => shflEffect mode w64 d a b ps e
  | .vote _ form a _ => voteEffect form a ps e
  | .matchOp _ w64 same d a _ => matchEffect w64 same d a ps e
  | .elane _ form _ => elaneEffect form ps e
  | .redw _ ty op sat rnd d a b _ => redwEffect ty op sat rnd d a b ps e
  | _ => e.th

end Sys2Proof.Machine
end

