-- ==== Sys2Proof/Machine/Converge.lean ====
section
/-! DEFINITION. Convergence points (R54 to R56): arrival, the instance, its execution in one step, and the cross-lane and
matrix instructions, whose arrival it is. -/

namespace Sys2Proof.Machine

/-- A thread as it reads and writes at its instance: no longer waiting. -/
def Thread.leave (t : Thread) : Thread := { t with status := .ready }

/-- The convergence point that a thread waits at. -/
def Thread.conv (t : Thread) : Option ConvWait :=
  match t.status with
  | .conv c => some c
  | _ => none

/-- Op index of a thread's PC (R48): 0 outside an expansion. -/
def Thread.opIndex (t : Thread) : Nat :=
  match t.exp with
  | some x => x.idx
  | none => 0

/-- Two threads stand at one PC (R48, R54). -/
def samePc (a b : Thread) : Bool := a.pc == b.pc && a.opIndex == b.opIndex

/-- Threads of a warp that wait at a PC, with what they wait at. -/
def State.waitersAt (s : State) (warp : Nat) (t : Thread) : List (Nat × ConvWait) :=
  (s.warpThreads warp).filterMap fun e => if samePc e.2 t then e.2.conv.map fun c => (e.1, c) else none

/-- A thread of the warp has exited. -/
def State.warpExited (s : State) (warp : Nat) : Bool := (s.warpThreads warp).any fun e => e.2.status == .exited

/-- Every lane that a mask names has exited or waits in the list (R54). -/
def State.allArrived (s : State) (warp : Nat) (mask : Word) (ws : List (Nat × ConvWait)) : Bool :=
  (List.range 32).all fun l => !mask.getLsbD l || ws.any (fun w => laneOf w.1 == l) ||
    (match aget s.threads (warp * 32 + l) with
      | some t => t.status == .exited
      | none => true)

/-- A thread that waits takes a fault at its instruction: it waits no more. -/
def State.unwait (s : State) (ws : List (Nat × ConvWait)) : State :=
  ws.foldl (fun s w => s.modThread w.1 Thread.leave) s

/-- The waiting threads leave the instance: participants with their results, the others unchanged (R54). -/
def leaveInstance (i : Instr) (ps : Parts) (s : State) (w : Nat × ConvWait) : State :=
  match s.envOf w.1 w.2.pers with
  | none => s
  | some e =>
    let e := { e with th := e.th.leave }
    let t := if w.2.guard then laneEffect i ps e else e.th
    s.setThread w.1 (t.pass e w.2.op w.2.guard none)

/-- The instance executes, in ascending lane order, as one step (R54). -/
def runInstance (i : Instr) (ws : List (Nat × ConvWait)) (s : State) : State :=
  let envs := ws.filterMap fun w => (s.envOf w.1 w.2.pers).map fun e => ({ e with th := e.th.leave }, w.2.guard)
  let ps := (envs.filter (·.2)).map (·.1)
  if Instr.isMatrix i then
    match matrixIssue i ps s with
    | .ok _ s' => ws.foldl (leaveInstance i ps) s'
    | .error f s' =>
      let s' := s'.unwait ws
      s'.faultAll (ws.filterMap fun w => s'.envOf w.1 w.2.pers) (Instr.isLong i) f
  else ws.foldl (leaveInstance i ps) s

/-- The instance that a waiting thread belongs to executes if it is complete (R54). -/
def State.tryInstance (s : State) (tid : Nat) : State :=
  match aget s.threads tid with
  | none => s
  | some t =>
    match t.conv with
    | none => s
    | some c =>
      let ws := (s.waitersAt (warpOf tid) t).filter fun w => w.2.mask == c.mask
      if s.allArrived (warpOf tid) c.mask ws then runInstance c.op ws s else s

/-- The waiting threads of a warp after a lane has exited: at a matrix instruction all of them take ILLEGAL_OPERAND
(R56); elsewhere an instance may have become complete (R54). -/
def State.recheckLane (warp : Nat) (s : State) (lane : Nat) : State :=
  let tid := warp * 32 + lane
  match aget s.threads tid with
  | none => s
  | some t =>
    match t.conv with
    | none => s
    | some c =>
      if Instr.isMatrix c.op then
        let ws := s.waitersAt warp t
        let s' := s.unwait ws
        s'.faultAll (ws.filterMap fun w => s'.envOf w.1 w.2.pers) (Instr.isLong c.op) (opFault .illegalOperand)
      else s.tryInstance tid

def State.recheckWarp (s : State) (warp : Nat) : State := (List.range 32).foldl (State.recheckLane warp) s

/-- Waiting threads of the warp whose masks conflict with an arriving thread's (R55), those whose guard is false among
them. -/
def State.conflicts (s : State) (e : Env) (mask : Word) : List (Nat × ConvWait) :=
  (s.waitersAt e.warp e.th).filter fun w =>
    w.2.mask != mask && mask.getLsbD (laneOf w.1) && w.2.mask.getLsbD e.lane

/-- The arriving thread is turned away (R55, R56); where its guard is false, a mask without its lane is no fault of its
(R151, R347). -/
def arrivalBad (s : State) (e : Env) (i : Instr) (mask : Word) : Bool :=
  if Instr.isMatrix i then mask != 0xFFFFFFFF#32 || s.warpExited e.warp || !e.th.active (Instr.hdr i)
  else e.th.active (Instr.hdr i) && !mask.getLsbD e.lane

/-- A thread arrives at a convergence point (R54 to R56). Of two threads whose masks conflict, each whose guard is true
takes the fault (R55, R151). -/
def arrive (i : Instr) (m : Reg) (s : State) (e : Env) : State :=
  let mask := e.th.mask m
  let f := opFault .illegalOperand
  if arrivalBad s e i mask then s.takeFault e (Instr.isLong i) f
  else if Instr.isMatrix i && !e.th.hasRoom .mxe then s
  else
    let mine := e.th.active (Instr.hdr i)
    let ws := s.conflicts e mask
    let bad := ws.filter fun w => w.2.guard
    let s' := s.unwait bad
    let es := bad.filterMap fun w => s'.envOf w.1 w.2.pers
    if ws.isEmpty || !mine then
      let c : ConvWait := { mask := mask, guard := mine, pers := e.pers, op := i }
      let s' := if es.isEmpty then s' else s'.faultAll es (Instr.isLong i) f
      (s'.modThread e.tid fun t => { t with status := .conv c }).tryInstance e.tid
    else s'.faultAll (e :: es) (Instr.isLong i) f

/-- An instruction that is a convergence point: checks 4 to 6, then the arrival, whatever its guard (R347). -/
def convOp (i : Instr) (m : Reg) (s : State) : Host.Outcome State Fault Refusal :=
  match s.env with
  | none => .refused .noThread
  | some e =>
    match preCheck e i with
    | some f => .next (s.takeFault e (Instr.isLong i) f)
    | none => .next (arrive i m s e)

/-! ## The instructions -/

/-- SHFL (R489, R490). -/
def execShfl (h : Hdr) (mode : ShflMode) (w64 : Bool) (d a b m : Reg) (s : State) : Host.Outcome State Fault Refusal :=
  convOp (.shfl h mode w64 d a b m) m s

/-- VOTE (R502, R503). -/
def execVote (h : Hdr) (form : VoteForm) (a : BitVec 8) (m : Reg) (s : State) : Host.Outcome State Fault Refusal :=
  convOp (.vote h form a m) m s

/-- REDW (R470 to R472). -/
def execRedw (h : Hdr) (ty : RedwTy) (op : RedwOp) (sat : Bool) (rnd : Rnd) (d a b m : Reg) (s : State) :
    Host.Outcome State Fault Refusal :=
  convOp (.redw h ty op sat rnd d a b m) m s

/-- MATCH (R442, R443). -/
def execMatchOp (h : Hdr) (w64 same : Bool) (d a m : Reg) (s : State) : Host.Outcome State Fault Refusal :=
  convOp (.matchOp h w64 same d a m) m s

/-- ELANE (R401, R402). -/
def execElane (h : Hdr) (form : ElaneForm) (m : Reg) (s : State) : Host.Outcome State Fault Refusal :=
  convOp (.elane h form m) m s

/-- MMAP (R215 to R220, R444 to R446). -/
def execMmap (h : Hdr) (d : BitVec 8) (a m : Reg) (s : State) : Host.Outcome State Fault Refusal :=
  convOp (.mmap h d a m) m s

/-- MMAL (R221, R444 to R446). -/
def execMmal (h : Hdr) (d : BitVec 8) (a m : Reg) (s : State) : Host.Outcome State Fault Refusal :=
  convOp (.mmal h d a m) m s

/-- ACCZ (R223, R349 to R352). -/
def execAccz (h : Hdr) (n : BitVec 6) (d : BitVec 8) (m : Reg) (s : State) : Host.Outcome State Fault Refusal :=
  convOp (.accz h n d m) m s

/-- ACCLD (R223, R349 to R352). -/
def execAccld (h : Hdr) (d : BitVec 8) (a m : Reg) (s : State) : Host.Outcome State Fault Refusal :=
  convOp (.accld h d a m) m s

/-- ACCST (R223, R349 to R352). -/
def execAccst (h : Hdr) (d : BitVec 8) (a m : Reg) (s : State) : Host.Outcome State Fault Refusal :=
  convOp (.accst h d a m) m s

end Sys2Proof.Machine
end

