-- ==== Sys2Proof/Machine/Xred.lean ====
section
/-! DEFINITION. Group collectives (R38, R320, R321, R513 to R516): the reductions, contributions, completion on one device
and across devices, XRED and XRED_RESULT_WRITE. -/

namespace Sys2Proof.Machine

/-! ## The reductions (R515, R320, R321) -/

/-- Bytes of an element. -/
def XredTy.size : XredTy → Nat
  | .f16 | .bf16 => 2
  | _ => 4

/-- Float format of an element; that of .f32 for the integer types. -/
def XredTy.fmt : XredTy → Fmt
  | .f16 => .f16 | .bf16 => .bf16 | _ => .f32

/-- Two elements combined, the first operand first (R515). -/
def combine (ty : XredTy) (op : XredOp) (a b : Nat) : FRes :=
  let float := ty != .s32 && ty != .n32
  let sgn := ty == .s32
  let less := decide (intOf 32 sgn b < intOf 32 sgn a)
  match op with
  | .add => if float then fadd' (XredTy.fmt ty) .rn a false b else ((a + b) % 2 ^ 32, 0)
  | .min => if float then fminmax (XredTy.fmt ty) false a b else (if less then b else a, 0)
  | .max => if float then fminmax (XredTy.fmt ty) true a b else (if less then a else b, 0)
  | .and => (Nat.land a b, 0)
  | .or => (Nat.lor a b, 0)
  | .xor => (Nat.xor a b, 0)

/-- One level of a pairwise tree; an odd last entry passes up. -/
def pairLevel (f : Nat → Nat → FRes) (xs : List Nat) : List Nat × BitVec 7 :=
  match xs with
  | a :: b :: t =>
    let (v, g) := f a b
    let (vs, g') := pairLevel f t
    (v :: vs, g ||| g')
  | l => (l, 0)

/-- A pairwise tree; `fuel` is at least its number of levels. -/
def pairTree (f : Nat → Nat → FRes) (xs : List Nat) (fuel : Nat) : FRes :=
  match fuel with
  | 0 => (xs.headD 0, 0)
  | n + 1 =>
    match xs with
    | [] => (0, 0)
    | [a] => (a, 0)
    | xs =>
      let (ys, g) := pairLevel f xs
      let (v, g') := pairTree f ys n
      (v, g ||| g')

/-- .tree: each device's members, then the devices' results (R515). -/
def reduceTree (ty : XredTy) (op : XredOp) (devs : List (List Nat)) : FRes :=
  let rs := (devs.filter fun d => !d.isEmpty).map fun d => pairTree (combine ty op) d d.length
  let (v, g) := pairTree (combine ty op) (rs.map (·.1)) rs.length
  (v, rs.foldl (fun g r => g ||| r.2) g)

/-- The slot tree below a node of 2^level slots from `base`; a slot without data holds −0.0, and so does a subtree without
any (R320). -/
def slotTree (level base : Nat) (xs : List (Nat × Nat)) : FRes :=
  match level with
  | 0 => ((xs.head?.map (·.2)).getD 0x80000000, 0)
  | l + 1 =>
    if xs.isEmpty then (0x80000000, 0)
    else
      let mid := base + 2 ^ l
      let (a, g) := slotTree l base (xs.filter fun x => x.1 < mid)
      let (b, g') := slotTree l mid (xs.filter fun x => mid ≤ x.1)
      let (v, g'') := fadd' .f32 .rn a false b
      (v, g ||| g' ||| g'')

/-- .quant: the exponent, the exact sum and its one rounding (R321). -/
def reduceQuant (xs : List Nat) : FRes :=
  let vs := xs.map fun x => Fmt.f32.val x 0
  if vs.any fun v => match v with
      | .num .. => false
      | _ => true then (Fmt.f32.cnan, flagNV)
  else match blockExp vs with
    | none => (0, 0)
    | some k =>
      let q := k - 38
      let (sum, nx) := vs.foldl (fun (acc : Int × Bool) v => match v with
        | .num neg m e =>
          let (n, x) := quantum .rn neg m e q
          (acc.1 + (if neg then -(n : Int) else n), acc.2 || x)
        | _ => acc) ((0 : Int), false)
      let (c, g) := roundTo .f32 .rn (.num (sum < 0) sum.natAbs q) 0
      (c, g ||| flagIf nx flagNX)

/-- Element j of a buffer. -/
def elemAt (ty : XredTy) (b : List Byte) (j : Nat) : Nat := field b (XredTy.size ty * j) (XredTy.size ty)

/-- The result of a phase whose contributions, by device in ascending rank, agree in type, operation and mode: its bytes
and its flags. -/
def reduce (c : Contrib) (devs : List (List Contrib)) : List Byte × BitVec 7 :=
  (List.range c.count).foldl (fun (acc : List Byte × BitVec 7) j =>
    let (v, g) := match c.mode with
      | .tree => reduceTree c.ty c.op (devs.map fun d => d.map fun x => elemAt c.ty x.data j)
      | .slot => slotTree 12 0 (devs.flatMap fun d => d.map fun x => (x.slot, elemAt c.ty x.data j))
      | .quant => reduceQuant (devs.flatMap fun d => d.map fun x => elemAt c.ty x.data j)
    (acc.1 ++ leBytes (XredTy.size c.ty) v, acc.2 ||| g)) ([], 0)

/-- Contributions that R516 turns away at completion; their scopes are compared as R255 reads them, before the ceiling. -/
def reduceBad (c : Contrib) (devs : List (List Contrib)) : Bool :=
  let all := devs.flatMap id
  all.any (fun x => x.ty != c.ty || x.op != c.op || x.mode != c.mode || x.scope != c.scope || x.count != c.count) ||
    (c.mode == .slot && ((all.map Contrib.slot).eraseDups.length != all.length ||
      devs.zipIdx.any fun d => d.1.any fun x => x.slot * devs.length / 4096 != d.2)) ||
    (c.mode == .quant && decide (2 ^ 24 < all.length))

/-! ## Contributions -/

/-- The collectives of group g of a launch. -/
def Launch.gcoll (l : Launch) (g : Nat) : GColl := (aget l.gcolls g).getD {}

/-- What a thread of a cohort at its XRED contributes, but for the bytes of its buffer. -/
def contribOf (ctx : Ctx) (coh tid : Nat) (t : Thread) (op : Instr) : Option Contrib :=
  match op with
  | .xred _ ty o mode scope a b _ =>
    let vb := (t.rd b).toNat
    some { coh := coh, tid := tid, ty := ty, op := o, mode := mode, scope := ctx.named scope, off := (t.rd a).toNat,
           count := bitsOf vb 9 0 + 1, slot := bitsOf vb 27 16 }
  | _ => none

/-- A cohort's buffer as its contribution reads it: after everything that precedes the XREDs of its threads in their
program orders, and otherwise unordered (R514, Table 12-3). -/
def State.contribData (s : State) (k : Contrib) : List Byte × State :=
  let o := (s.cohThreads k.coh).foldl (fun (o : Ord) e =>
    { o.join e.2.ord.view with must := joinView o.must e.2.ord.must }) {}
  let n := k.count * XredTy.size k.ty
  let (b, _, s) := s.observe o [] (fun _ => none) (spKey k.coh k.off) (sread (s.spOf k.coh) k.off n)
  (b, s)

/-- The thread of a cohort with the lowest logical ID that waits in a phase, with its op. -/
def State.collHead (s : State) (coh g : Nat) : Option (Nat × Thread × Instr) :=
  (s.cohThreads coh).findSome? fun e => match e.2.status with
    | .coll g' _ _ op => if g' = g then some (e.1, e.2, op) else none
    | _ => none

/-- A cohort whose threads have all arrived contributes (R514). -/
def State.contribute (lid g : Nat) (s : State) (coh : Nat) : State :=
  match aget s.launches lid, (aget s.cohorts coh).bind fun c => aget s.ctxs c.cid, s.collHead coh g with
  | some l, some ctx, some (tid, t, op) =>
    let x := l.gcoll g
    if x.contribs.any (fun k => k.coh == coh) || !s.cohArrived coh x.arrived then s
    else match contribOf ctx coh tid t op with
      | none => s
      | some k =>
        let (b, s) := s.contribData k
        s.modLaunch lid fun l =>
          { l with gcolls := aset l.gcolls g { x with contribs := x.contribs ++ [{ k with data := b }] } }
  | _, _, _ => s

/-! ## Completion -/

/-- Threads that wait in the current phase of a launch's collective. -/
def State.collWaiters (s : State) (lid g : Nat) : List (Nat × Nat × Instr) :=
  let mine := (s.launchCohorts lid).map (·.1)
  s.threads.filterMap fun e => match e.2.status with
    | .coll g' _ pers op => if g' = g && mine.contains (cohOf e.1) then some (e.1, pers, op) else none
    | _ => none

/-- A launch's phase ends: the next phase begins, its threads leave with a COL operation each, and with SCOPE_CLAMP where
their op was clamped (R273), and its results wait to be written (R515). -/
def State.collRelease (s : State) (lid g : Nat) (data : List Byte) (flags : BitVec 7) (cs : List Contrib) : State :=
  let ws := s.collWaiters lid g
  let (s, ops) := ws.foldl (fun (acc : State × List (Nat × Nat)) w =>
    let (id, s) := acc.1.freshId
    match s.envOf w.1 w.2.1 with
    | none => acc
    | some e =>
      let e := { e with th := { e.th with status := .ready } }
      let cl := match w.2.2 with
        | .xred _ _ _ _ sc _ _ _ => e.ctx.clamps sc
        | _ => false
      let t : Thread := { e.th.orFlags (if cl then flagClamp else 0) with out := e.th.out ++ [{ cls := .col, id := id }] }
      (s.setThread w.1 (t.pass e w.2.2 true none), acc.2 ++ [(w.1, id)])) (s, [])
  s.modLaunch lid fun l =>
    let x := l.gcoll g
    let d : CollDone := { writes := cs.map fun c => (c.coh, c.off, data), flags := flags, ops := ops }
    { l with gcolls := aset l.gcolls g { phase := x.phase + 1, done := x.done ++ [d] } }

/-- A phase that R516 turns away: every participating thread takes ILLEGAL_OPERAND, and no buffer is written. -/
def State.collFault (s : State) (lid g : Nat) : State :=
  let ws := s.collWaiters lid g
  let s := ws.foldl (fun s w => s.modThread w.1 fun t => { t with status := .ready }) s
  let s := s.modLaunch lid fun l =>
    let x := l.gcoll g
    { l with gcolls := aset l.gcolls g { phase := x.phase + 1, done := x.done } }
  s.faultAll (ws.filterMap fun w => s.envOf w.1 w.2.1) false (opFault .illegalOperand)

/-- The parts of one phase, one launch for each device, in ascending device rank, complete. -/
def State.collEnd (s : State) (g : Nat) (ps : List (Nat × List Contrib)) : State :=
  let devs := ps.map (·.2)
  match devs.flatMap id with
  | [] => s
  | c :: _ =>
    if reduceBad c devs then ps.foldl (fun s p => s.collFault p.1 g) s
    else
      let (data, flags) := reduce c devs
      ps.foldl (fun s p => s.collRelease p.1 g data flags p.2) s

/-- Partitions whose contexts carry a GANGID, ascending: the devices of the set in this module (R514; log entry 16). -/
def State.gangDevices (s : State) (gang : Nat) : List Nat :=
  s.ctxs.foldl (fun acc c => if c.2.con.gangid = gang then insertNat c.2.pid acc else acc) []

/-- The parts of a phase across devices, if every device has handed in its own. -/
def State.collMatched (s : State) (p : CollPart) : Option (List CollPart) :=
  let parts := (s.gangDevices p.gang).map fun d =>
    s.colls.find? fun q => q.gang == p.gang && q.g == p.g && q.k == p.k && q.pid == d
  if parts.all Option.isSome then some (parts.filterMap id) else none

/-- Contributions in the order of the result: by launch-order index (R515). -/
def State.collOrder (s : State) (cs : List Contrib) : List Contrib :=
  sortBy (fun a b => decide (((aget s.cohorts a.coh).map Cohort.index).getD 0 ≤ ((aget s.cohorts b.coh).map Cohort.index).getD 0)) cs

/-- The collective runs across devices: its scope as the context performs it, with a GANGID (R514). -/
def collWide (ctx : Ctx) (c : Contrib) : Bool :=
  (c.scope == .domain || c.scope == .system) && ctx.con.gangid != 0 && ctx.has 10 && decide (6 ≤ ctx.con.ceil)

/-- Every member has contributed or exited: the phase completes, or hands in its part to the devices of its set, as the k-th
phase on g of its context, those at .device counted (R514). -/
def State.collMet (s : State) (lid g : Nat) (l : Launch) : State :=
  let cs := s.collOrder (l.gcoll g).contribs
  match cs.head?, aget s.ctxs l.cid with
  | some c, some ctx =>
    let k := (aget ctx.collPhases g).getD 0
    let s := s.modCtx l.cid fun x => { x with collPhases := aset x.collPhases g (k + 1) }
    if !collWide ctx c then s.collEnd g [(lid, cs)]
    else
      let p : CollPart := { gang := ctx.con.gangid, g := g, k := k, pid := l.pid, cid := l.cid, launch := lid, contribs := cs }
      let s := s.modLaunch lid fun l => { l with gcolls := aset l.gcolls g { l.gcoll g with handed := true } }
      let s := { s with colls := s.colls ++ [p] }
      match s.collMatched p with
      | none => s
      | some ps =>
        State.collEnd { s with colls := s.colls.filter fun q => !(q.gang == p.gang && q.g == p.g && q.k == p.k) } g
          (ps.map fun q => (q.launch, q.contribs))
  | _, _ => s

/-- The current phase of group g of a launch after an arrival or an exit (R514). -/
def State.collCheck (lid : Nat) (s : State) (g : Nat) : State :=
  let s := (s.liveMembers lid g).foldl (State.contribute lid g) s
  match aget s.launches lid with
  | none => s
  | some l =>
    let x := l.gcoll g
    let live := s.liveMembers lid g
    if l.status.isNone && !x.handed && !x.contribs.isEmpty &&
        live.all (fun c => x.contribs.any (fun k => k.coh == c) || (s.cohThreads c).all fun e => e.2.status == .exited) &&
        (aget l.gone g).getD 0 + live.length == l.memberCount g then s.collMet lid g l
    else s

/-! ## The instruction and its result -/

/-- Bits that vB must hold 0 (Table 21-5). -/
def xredBits (mode : XredMode) (vb : Nat) : Bool :=
  bitsOf vb 15 10 == 0 && bitsOf vb 31 28 == 0 && (mode == .slot || bitsOf vb 27 16 == 0)

/-- The checks of XRED at issue (R516). -/
def xredChecks (e : Env) (ty : XredTy) (mode : XredMode) (off vb g : Nat) : M Unit := do
  let n := (bitsOf vb 9 0 + 1) * XredTy.size ty
  if off % 16 ≠ 0 || e.c.isStashAddr off || !xredBits mode vb || 1024 < n || !e.member g then
    throw (opFault .illegalOperand)
  if e.c.scratch < off + n then throw { kind := .lsRange, addr := BitVec.ofNat 64 off }

/-- XRED: the arrival (R513 to R516). -/
def execXred (h : Hdr) (ty : XredTy) (op : XredOp) (mode : XredMode) (scope : Scope) (a b : Reg) (g : BitVec 8)
    (s : State) : Host.Outcome State Fault Refusal :=
  let i := Instr.xred h ty op mode scope a b g
  threadOp i s fun e => do
    let _ ← clampScope e scope
    xredChecks e ty mode (e.th.rd a).toNat (e.th.rd b).toNat g.toNat
    if !e.th.hasRoom .col then return .stay
    let n := g.toNat
    modTh e fun t => { t with status := .coll n (e.l.gcoll n).phase e.pers i }
    modify fun s => State.collCheck e.c.launch (s.modLaunch e.c.launch fun l =>
      let x := l.gcoll n
      { l with gcolls := aset l.gcolls n { x with arrived := e.tid :: x.arrived } }) n
    pure .stay

/-- XRED_RESULT_WRITE: the oldest result of a group that waits is written over the buffers of the resident cohorts, and
the COL operations of their threads retire with the flags (R232, R515, R307). -/
def execXredResultWrite (launch g : Nat) (s : State) : Host.Outcome State Fault Refusal :=
  match aget s.launches launch with
  | none => event s
  | some l =>
    let x := l.gcoll g
    match x.done with
    | [] => event s
    | d :: rest =>
      let here := fun (coh : Nat) => ((aget s.cohorts coh).bind Cohort.core).isSome
      let left := d.writes.filter fun w => (aget s.cohorts w.1).isSome && !here w.1
      let now := d.writes.filter fun w => here w.1
      let (s, wrote) := now.foldl (fun (x : State × Assoc Nat) w =>
        (x.1.writeSp w.1 w.2.1 w.2.2, aset x.2 w.1 x.1.nextId)) (s, [])
      let s := (d.ops.filter fun o => now.any fun w => w.1 == cohOf o.1).foldl (fun s o =>
        s.modThread o.1 fun t => t.finish o.2 none d.flags (aget wrote (cohOf o.1)).toList) s
      let todo := if left.isEmpty then rest else { d with writes := left } :: rest
      event (s.modLaunch launch fun l => { l with gcolls := aset l.gcolls g { l.gcoll g with done := todo } })

end Sys2Proof.Machine
end

