-- ==== Sys2Proof/Machine/Threads.lean ====
section
/-! DEFINITION. THREAD_END (R404, R405) and LOAD_DATA_RETURN (R230, R435). -/

namespace Sys2Proof.Machine

/-- Named barriers that have an open phase. -/
def State.openBars (s : State) (coh : Nat) : List Nat :=
  match aget s.cohorts coh with
  | some c => c.bars.map (·.1)
  | none => []

/-- The group barriers and collectives of a launch test their phases again (R37, R514). -/
def State.groupsCheck (s : State) (lid : Nat) (groups : List Nat) : State :=
  groups.foldl (State.collCheck lid) (groups.foldl (State.grpCheck lid) s)

/-- Every thread of a cohort has exited. -/
def State.allExited (s : State) (coh : Nat) : Bool := (s.cohThreads coh).all fun e => e.2.status == .exited

/-- A cohort whose last thread has ended: its stash is written back, its resources are freed (R405), and it counts as
exited at its groups (R37). -/
def State.releaseCohort (s : State) (coh : Nat) : State :=
  match aget s.cohorts coh with
  | none => s
  | some c =>
    let s := (s.dropCohort coh).fixRotation
    let s := s.modLaunch c.launch fun l =>
      { l with gone := c.groups.foldl (fun m g => aset m g ((aget m g).getD 0 + 1)) l.gone }
    s.groupsCheck c.launch c.groups

/-- What another thread's wait makes of the exit of a thread: convergence points, named barriers, group barriers and
collectives (R54, R56, R371, R37, R514). -/
def State.afterExit (s : State) (tid : Nat) : State :=
  match aget s.cohorts (cohOf tid) with
  | none => s
  | some c =>
    let s := s.recheckWarp (warpOf tid)
    let s := (s.openBars (cohOf tid)).foldl (State.barCheck (cohOf tid)) s
    let s := s.groupsCheck c.launch c.groups
    if s.allExited (cohOf tid) then s.releaseCohort (cohOf tid) else s

/-- What happens before the end of a thread happens before the completion signal of its launch (R75). -/
def State.endsBefore (s : State) (tid : Nat) : State :=
  match aget s.threads tid, aget s.cohorts (cohOf tid) with
  | some t, some c => s.beforeSignal c.launch t.completed
  | _, _ => s

/-- THREAD_END: the thread's state is discarded and it counts as exited (R404, R405). -/
def execThreadEnd (tid : Nat) (s : State) : Host.Outcome State Fault Refusal :=
  match aget s.threads tid with
  | none => event s
  | some t =>
    if t.status = .exiting && ((aget s.cohorts (cohOf tid)).bind Cohort.core).isSome then
      event (((s.endsBefore tid).setThread tid { status := .exited }).afterExit tid)
    else event s

/-- Writes a destination of a returned operation; a register whose value stands substituted for a waiting op has the
value again when that op is over. -/
def Thread.land (t : Thread) (k : RegKey) (v : Dword) : Thread :=
  let u := if t.keep.any fun x => x.1 == k then { t with keep := t.keep.map fun x => if x.1 = k then (k, v) else x }
    else t.setKey k v
  u.lateData [(k, v)]

/-- LOAD_DATA_RETURN: the destinations are written and the operation retires in its order (R230, R233, R435). -/
def execLoadDataReturn (tid id : Nat) (s : State) : Host.Outcome State Fault Refusal :=
  event (s.modThread tid fun t =>
    match t.out.find? fun o => o.cls == .ldc && o.id == id && !o.returned with
    | none => t
    | some o =>
      let t := o.dests.foldl (fun t d => t.land (.r d.1) (d.2.setWidth 64)) t
      let t := o.preds.foldl (fun t d => t.land (.p d.1) (if d.2 then 1 else 0)) t
      t.finish id o.fault)

end Sys2Proof.Machine
end

