-- ==== Sys2Proof/Machine/Faults.lean ====
section
/-! DEFINITION. Fault queues (R284, R293 to R295), firmware events (R329) and uncorrectable errors (R302, R303). -/

namespace Sys2Proof.Machine

/-! ## Firmware events (R329) -/

/-- Key of an address of host memory: firmware reaches rings and records there (log entry 5). -/
def hostKey (a : Nat) : Nat := 4 * 2 ^ 50 + a % 2 ^ 50

/-- The 16 bytes of a completion or event record. -/
def adminRecord (status seq result : Nat) : List Byte := leBytes 2 status ++ leBytes 2 0 ++ leBytes 4 seq ++ leBytes 8 result

/-- Posts an unsolicited event at the PF's ADM_EVADDR, if it is not 0, a release at system scope. -/
def State.postEvent (s : State) (status result : Nat) : State :=
  match aget s.hub.funcs 0 with
  | none => s
  | some f =>
    if f.evaddr = 0 then s
    else
      let n := s.hub.evseq + 1
      State.writeMem { s with hub := { s.hub with evseq := n } } (hostKey f.evaddr.toNat)
        (adminRecord status (n % 2 ^ 32) result) f.view [{ insts := hostInsts, view := f.view }]

/-- CAP_UNMET and FQ_FAULT (Table 16-11). -/
def evCapUnmet : Nat := 0x0100
def evFqFault : Nat := 0x0101

/-! ## Posting -/

/-- The 64 bytes of a record (Table 13-5). -/
def recordBytes (cid : Nat) (p : Post) : List Byte :=
  let f := p.info
  let flag := fun (b : Bool) (n : Nat) => if b then 2 ^ n else 0
  leBytes 4 (FaultKind.code p.kind + 2 ^ 8 * f.cause + flag p.parked 16 + flag f.copy 17) ++
    leBytes 4 (cid + 2 ^ 12 * p.pers + 2 ^ 16 * p.lane + 2 ^ 21 * f.acc) ++
    leBytes 8 (p.pc.toNat + 2 ^ 57 * f.opIdx) ++ leBytes 8 f.addr.toNat ++ leBytes 4 p.lanes.toNat ++
    leBytes 4 (f.cdesc % 2 ^ 21) ++ leBytes 8 p.logid ++ leBytes 8 f.info.toNat ++ leBytes 16 0

/-- The accesses of a post, before the first of which the header is as its context's creation leaves it (Table 14-3), and the
last of which is a release that covers the record: whether there was room, or none where an
access cannot be performed (R294). -/
def postM (w : Who) (ctx : Ctx) (cid : Nat) (p : Post) : M Bool := do
  let base := untag ctx.con.fqbase
  let size := 2 ^ ctx.con.fqlog
  if ctx.posted = 0 then writeVirt w base 7 8 (leBytes 8 0) 1
  let h ← readVirt w base 7 8 1 (readAfter (← get).agentWrites)
  let used := (ctx.posted % 2 ^ 32 + (2 ^ 32 - field h 4 4)) % 2 ^ 32
  if size ≤ used then pure false
  else
    let from_ := (← get).nextId
    writeVirt w (base + BitVec.ofNat 64 (64 + 64 * (ctx.posted % size))) 7 8 (recordBytes cid p) 8
    let v := ((← get).hist.filter fun m => from_ ≤ m.ts).map Msg.ts
    writeVirt w base 7 4 (leBytes 4 ((ctx.posted + 1) % 2 ^ 32)) 1 v [{ insts := agentInsts ctx.pid ctx.pid, view := v }]
    pure true

/-- Where the threads of a posted record stand: parked, on a bin where the kind is BIN_SPILL (R100), or ready after a
PGREQ (R294). -/
def Post.status (p : Post) : TStatus :=
  if !p.parked then .ready
  else if p.kind = .binSpill then
    let ref := p.info.addr.toNat
    .parkedBin (bitsOf ref 10 9) (bitsOf ref 8 0) (p.info.cause == 1)
  else .parked

/-- The record is posted: its threads leave the wait, it can be named by a command, and its page is requested (R284,
R294, R295). -/
def State.posted (s : State) (cid : Nat) (p : Post) : State :=
  let ts := p.tids.filter fun t => ((aget s.threads t).map Thread.status) == some (.posting p.parked)
  let s := ts.foldl (fun s t => s.modThread t fun t => { t with status := if p.replay then .ready else p.status }) s
  let mine := if p.parked && !p.replay then ts else []
  s.modCtx cid fun c =>
    let old := c.parked.map fun e =>
      (e.1, { e.2 with tids := e.2.tids.filter fun t => !mine.contains t, copy := if e.2.copy = p.copy then none else e.2.copy })
    let live := old.filter fun e => !e.2.tids.isEmpty || e.2.copy.isSome
    { c with
      posts := c.posts.drop 1
      parked := if mine.isEmpty && p.copy.isNone then live
        else aset live c.posted { tids := mine, copy := p.copy, watch := p.kind == .watch }
      requests := if p.kind = .notResident then c.requests ++ [(p.page, c.posted)] else c.requests
      posted := c.posted + 1 }

/-- A context whose fault queue cannot be written is stopped (R294). -/
def State.stopContext (s : State) (cid : Nat) : State :=
  ((s.endContext cid stFault).modCtx cid fun c => { c with stopped := true, posts := [], parked := [] }).postEvent evFqFault cid

/-- The record is a PGREQ's. -/
def Post.isRequest (p : Post) : Bool := p.kind == .notResident && !p.parked

/-- A PGREQ posts no record while a request for its page is outstanding (R284): its post is dropped, and its threads go on. -/
def State.dropPost (s : State) (cid : Nat) (p : Post) : State :=
  let s := p.tids.foldl (fun s t => s.modThread t fun t =>
    if t.status = .posting false then { t with status := .ready } else t) s
  s.modCtx cid fun c => { c with posts := c.posts.drop 1 }

/-- FAULT_POST: the oldest waiting record of a context is posted, if there is room (R294); a PGREQ's is not where a record
posted since requests its page (R284). -/
def execFaultPost (cid : Nat) (s : State) : Host.Outcome State Fault Refusal :=
  match aget s.ctxs cid with
  | none => event s
  | some ctx =>
    if s.hub.stopped.contains ctx.pid then event s
    else match ctx.posts with
      | [] => event s
      | p :: _ =>
        let (out, s) : Bool × State := if p.isRequest then s.requested cid ctx p.page else (false, s)
        if out then event (s.dropPost cid p)
        else match tryAgent s (agentOf cid ctx) (postM (agentOf cid ctx) ctx cid p) with
        | (some true, s) => event (s.posted cid p)
        | (some false, s) => event s
        | (none, s) => event (if s.hub.stopped.contains ctx.pid then s else s.stopContext cid)

/-! ## Replay and abort (R295) -/

/-- The unwrapped index of a record that the fault queue still holds. -/
def Ctx.recordAt (c : Ctx) (idx : Nat) : Option Nat :=
  let back := (c.posted % 2 ^ 32 + (2 ^ 32 - idx % 2 ^ 32)) % 2 ^ 32
  if idx < 2 ^ 32 && 0 < back && back ≤ 2 ^ c.con.fqlog && back ≤ c.posted then some (c.posted - back) else none

/-- Replays what a record parks (R46, R248, R288). -/
def State.replay (s : State) (cid n : Nat) : State :=
  match (aget s.ctxs cid).bind fun c => aget c.parked n with
  | none => s
  | some p =>
    let s := p.tids.foldl (fun s t => s.modThread t fun t =>
      if TStatus.isParked t.status then { t with status := .ready, wpSuppress := p.watch } else t) s
    let s : State := match p.copy with
      | none => s
      | some id =>
        { s with
          copies := amod s.copies id fun c => { c with parked := false }
          threads := s.threads.map fun (e : Nat × Thread) =>
            if e.2.status = .parkedCopy id then (e.1, { e.2 with status := .ready }) else e }
    s.modCtx cid fun c => { c with parked := adel c.parked n }

/-- Aborts what a record parks: its launch ends with FAULT (R47, R295). -/
def State.abortRecord (s : State) (cid n : Nat) : State :=
  match (aget s.ctxs cid).bind fun c => aget c.parked n with
  | none => s
  | some p =>
    let cohs := (p.tids.map cohOf) ++ (match p.copy.bind fun id => aget s.copies id with
      | some c => [c.coh]
      | none => [])
    let lids := (cohs.filterMap fun c => (aget s.cohorts c).map Cohort.launch).eraseDups
    (lids.foldl (fun s l => s.endLaunch l stFault) s).modCtx cid fun c => { c with parked := adel c.parked n }

/-! ## Uncorrectable errors (R302) -/

/-- Personality of the page of a thread's PC, as memory holds its leaf now. -/
def State.persNow (s : State) (e : Env) : Nat :=
  match e.th.exp with
  | some x => x.pers
  | none => match s.walk e.who e.th.pc with
    | .leaf pte _ => bitsOf pte 15 10 % 16
    | _ => 0

/-- The surroundings of a thread that could execute now. -/
def State.envNow (s : State) (tid : Nat) : Option Env :=
  match s.envOf tid 0 with
  | none => none
  | some e =>
    if e.th.status = .ready && e.c.core.isSome && s.runs e.l then some { e with pers := s.persNow e } else none

/-- MEMERR at a virtual address (R302). -/
def memErr (acc : Nat) (va : VAddr) : FaultInfo := { kind := .memErr, acc := acc, addr := addrOf va }

/-- The data of a load that reads from an address are lost: its destinations are written with zero, and its WAITC or EXIT
takes the fault. -/
def Thread.loseLoad (t : Thread) (id : Nat) (va : VAddr) : Thread :=
  match t.out.find? fun o => o.cls == .ldc && o.id == id && !o.returned with
  | none => t
  | some o =>
    match o.src.find? fun x => x.2.1 == va with
    | none => t
    | some (acc, a, page) =>
      let t := o.dests.foldl (fun t d => t.land (.r d.1) 0) t
      let t := o.preds.foldl (fun t d => t.land (.p d.1) 0) t
      Thread.finish { t with pend := t.pend.map fun p => if p.cls = .ldc ∧ p.id = id then { p with new := 0 } else p } id
        (some { memErr acc a with page := some page })

/-- The next access of a thread of an ACC to an address meets an uncorrectable error. -/
def State.poison (s : State) (tid acc : Nat) (addr : Dword) : State :=
  s.modThread tid fun t => { t with err := some (acc % 8, addr.setWidth 57) }

/-- UNCORRECTABLE_ERROR (Table 14-6): an access of a thread, a waiting AWAIT's or a copy's reads among them, takes the
MEMERR when it is made, with its own address; a load whose data are on their way loses them. -/
def execUncorrectableError (site : ErrSite) (s : State) : Host.Outcome State Fault Refusal :=
  match site with
  | .atOp tid addr acc => event (s.poison tid acc addr)
  | .atLoad tid id addr => event (s.modThread tid fun t => t.loseLoad id (addr.setWidth 57))
  | .atCopy id addr =>
    event (match aget s.copies id with
      | none => s
      | some c => s.poison c.tid 4 addr)
  | .atPref => event s
  | .noRequester sec => event (if sec < 4 then s.stopPartition (s.pidOf sec) else s)

end Sys2Proof.Machine
end

