-- ==== Sys2Proof/Machine/Guest.lean ====
section
/-! DEFINITION. Guest fetch and decode as an event (R121 to R130, R139), the emulation trap and the fetch of its handler's
line (R136, R137). -/

namespace Sys2Proof.Machine

/-! ## The emulation trap (R136) -/

/-- SYS_EMUINFO (Table 6-11). -/
def emuInfoWord (entry pers len : Nat) (noMatch : Bool) : Dword :=
  BitVec.ofNat 64 (entry + 2 ^ 10 * pers + 2 ^ 14 * (8 * len) + (if noMatch then 2 ^ 21 else 0))

/-- A thread takes an emulation trap; the handler's line is fetched when the thread next issues. -/
def Thread.emulate (t : Thread) (pers entry : Nat) (slots : List Word) (noMatch : Bool) (len word : Nat) (emuh : Dword) :
    Thread :=
  { t with
    x := (List.range 16).foldl (fun m j => sset m j (slots.getD j 0)) []
    emuPc := t.pc, emuNext := t.pc + BitVec.ofNat 57 len, emuWord := BitVec.ofNat 64 word
    emuInfo := emuInfoWord entry pers len noMatch
    handler := true, pc := emuh.setWidth 57, emuEntry := true, wpSuppress := false }

/-- The fetch of the handler's line (R137): it must be an entry address that the thread's registers satisfy. -/
def emuLine (e : Env) (va : VAddr) : M Unit := do
  let p ← fetchPlace e.who va
  fetchRest e.who va 8 p
  let b ← lineText e.who va p
  if pteDesc p.pte = 0 then
    if !lineCrcOk b then throw { kind := .lineCrc, acc := 3, addr := addrOf va }
    if !lineOk b then throw { kind := .lineFormat, acc := 3, addr := addrOf va }
  if !entryOk va (pteDesc p.pte) b e.c.regs then throw (persBad (addrOf va))

/-- A thread that took an emulation trap enters the handler at slot 1 of its line (R137, R146). -/
def State.enterEmu (s : State) (e : Env) : State :=
  match emuLine e e.th.pc s with
  | .ok _ s' => (s.keepDraws s').modThread e.tid fun t => { t with pc := t.pc + 8, emuEntry := false }
  | .error f s' => (s.keepDraws s').takeFault e false f

/-! ## Guest fetch and decode -/

/-- Length in bytes of the guest instruction at a PC, where it can be known (R122, R139). -/
def guestLength (e : Env) (pers : Nat) (pc : VAddr) (p : Place) : M Nat := do
  if pers = 1 then
    let w := leNat (← guestBytes e.who 1 false pc p 8)
    pure (if bitsOf w 63 63 = 1 then 16 else 8)
  else
    let h ← persHeader { w := e.who, pc := pc, p := pers } e.ctx
    if h.lenmode < 3 then pure (2 ^ (h.lenmode + 1))
    else
      let (_, n) ← guestWord e h pc p
      pure n

/-- The surroundings of a thread whose guest instruction does not decode: its length, where no rule gives it, is a free
value (log entry 17). -/
def State.guestEnv (s : State) (e : Env) (pers : Nat) (p : Place) : Env × State :=
  let (len, s) : Nat × State := match guestLength e pers e.th.pc p s with
    | .ok n _ => (n, s)
    | .error _ _ => s.draw
  ({ e with pers := pers, th := { e.th with exp := some { pers := pers, len := len, ops := [] } } }, s)

/-- The expansion of a thread (R131 to R133). -/
def Thread.expand (t : Thread) (pers len : Nat) (ops : List Instr) : Thread :=
  let keys := if ops.length ≤ 1 then [] else mayWrites ops
  { t with exp := some { pers := pers, len := len, ops := ops, undo := keys.map fun k => (k, t.keyVal k), flags0 := t.flags
                         shadow0 := t.shadow } }

/-- The guest instruction at a thread's PC decodes into its expansion, or takes an emulation trap or a fault. -/
def State.decodeAt (s : State) (e : Env) (pers : Nat) (p : Place) : State :=
  let s := s.modThread e.tid fun t => { t with hazards := [] }
  let e := { e with pers := pers }
  match decodeGuest e pers e.th.pc p s with
  | .ok (.ops len ops) s' => (s.keepDraws s').modThread e.tid fun t => t.expand pers len ops
  | .ok (.emu entry slots noMatch len word emuh) s' =>
    let s := s.keepDraws s'
    if e.th.handler then
      let (e', s) := s.guestEnv e pers p
      s.takeFault e' false { kind := .emuNested, addr := addrOf e.th.pc }
    else s.modThread e.tid fun t => t.emulate pers entry slots noMatch len word emuh
  | .error f s' =>
    let (e', s) := (s.keepDraws s').guestEnv e pers p
    s.takeFault e' false f

/-- The thread is to fetch a guest instruction: it stands at an op boundary outside any expansion. -/
def Env.atBoundary (e : Env) : Bool := e.th.exp.isNone && !e.th.emuEntry && e.th.status == .ready && e.c.core.isSome

/-- GUEST_FETCH_DECODE (R121, R122): no effect where the thread's page names personality 0. -/
def execGuestFetchDecode (tid : Nat) (s : State) : Host.Outcome State Fault Refusal :=
  match s.envNow tid with
  | none => event s
  | some e =>
    if !e.atBoundary then event s
    else match fetchPlace e.who e.th.pc s with
      | .error f s' => event ((s.keepDraws s').takeFault e false f)
      | .ok p s' =>
        let s := s.keepDraws s'
        let pers := pteDesc p.pte
        if pers = 0 then event s
        else if 16 ≤ pers then event (s.takeFault e false { kind := .persPte, acc := 3, addr := addrOf e.th.pc })
        else event (s.decodeAt e pers p)

end Sys2Proof.Machine
end

