-- ==== Sys2Proof/Machine/Work.lean ====
section
/-! DEFINITION. Instructions that ask for work or submit it: FETCHW (R85, R415), BINPUSH and BINDRAIN up to the request to
the controller (R98, R99, R108, R381, R382), and LAUNCH (R429 to R432). -/

namespace Sys2Proof.Machine

/-! ## FETCHW -/

/-- Outstanding FETCHW requests of a cohort. -/
def State.requestsOf (s : State) (coh : Nat) : Nat := (s.fetches.filter fun f => f.coh == coh).length

/-- FETCHW (R85, R88, R89, R415). While its launch's walkers are saved a request waits before issue (R90, R91; log entry 38).
The range scoreboard does not hold its zero store (R252). -/
def execFetchw (h : Hdr) (a : Reg) (s : State) : Host.Outcome State Fault Refusal :=
  threadOp (.fetchw h a) s fun e => do
    let va := (e.th.rd a).toNat
    if va % 16 ≠ 0 || e.c.isStashAddr va then throw (opFault .illegalOperand)
    if e.c.scratch < va + 16 then throw (localFault (e.th.rd a) 7)
    let s ← get
    let n := s.requestsOf e.coh
    if e.det && e.l.rc.persist && n ≠ 0 then throw (opFault .illegalOperand)
    if 16 ≤ n || !s.active e.l then return .stay
    storeSp e none (va + 12) (leBytes 4 0)
    modify fun s =>
      let (id, s) := s.freshId
      { s with fetches := s.fetches ++ [{ id := id, tid := e.tid, coh := e.coh, va := va }] }
    pure .done

/-! ## BINPUSH and BINDRAIN -/

/-- A fault of a bin instruction, whose ADDR is the bin reference (R99). -/
def binFault (k : FaultKind) (ref : Nat) (cause : Nat := 0) : FaultInfo :=
  { kind := k, cause := cause, addr := BitVec.ofNat 64 ref }

/-- Section and bin of a bin reference; ILLEGAL_OPERAND where it is none of the thread's partition (R98, R99). -/
def binRef (e : Env) (ref : Nat) : M (Nat × Nat) := do
  let s ← get
  let sec := bitsOf ref 10 9
  if bitsOf ref 31 11 ≠ 0 || s.pidOf sec ≠ e.ctx.pid then throw (binFault .illegalOperand ref)
  pure (sec, bitsOf ref 8 0)

/-- The record in n registers from a: ILLEGAL_OPERAND where they are not all general registers of the thread (R99). -/
def binRecord (e : Env) (a : Reg) (n ref : Nat) : M (List Byte) := do
  match a with
  | .v x => if e.c.regs < x.toNat + n || 255 < x.toNat + n then throw (binFault .illegalOperand ref)
  | .k x => if 8 < x.toNat + n then throw (binFault .illegalOperand ref)
  pure ((e.th.rdMany a n).flatMap fun w => leBytes 4 w.toNat)

/-- A thread sends a request to a bin controller and waits for its answer (R382). -/
def askBin (e : Env) (i : Instr) (q : BinReq) : M Flow := do
  modTh e fun t => { t with status := .binWait q e.pers i }
  pure .stay

/-- BINPUSH: its checks and its request (R99, R382). -/
def execBinpush (h : Hdr) (sz : BitVec 4) (a b : Reg) (s : State) : Host.Outcome State Fault Refusal :=
  threadOp (.binpush h sz a b) s fun e => do
    let ref := (e.th.rd b).toNat
    let (sec, bin) ← binRef e ref
    let data ← binRecord e a (4 * (sz.toNat + 1)) ref
    askBin e (.binpush h sz a b) (.push sec bin data)

/-- BINDRAIN: its checks and its request (R108, R382). -/
def execBindrain (h : Hdr) (close : Bool) (b : Reg) (s : State) : Host.Outcome State Fault Refusal :=
  threadOp (.bindrain h close b) s fun e => do
    let (sec, bin) ← binRef e (e.th.rd b).toNat
    askBin e (.bindrain h close b) (.drain sec bin close)

/-! ## LAUNCH -/

/-- Key of a device-launch queue. -/
def devKey (cid sec : Nat) : Nat := cid * 4 + sec

/-- The device-launch queue of a context in a section. -/
def State.devQueue (s : State) (cid sec : Nat) : List DevRec := (aget s.devq (devKey cid sec)).getD []

/-- A thread's LAUNCH appends a record to a device-launch queue of its context: PRIO at most that of its launch (R430), and
the release at .device that covers its earlier accesses (R432). -/
def State.submit (s : State) (e : Env) (sec : Nat) (b : List Byte) : State :=
  let (v, s) := s.carry e.tid
  let r : DevRec := { bytes := b, prioCap := e.l.rc.prio, ownerQ := e.l.ownerQ, view := v }
  { s with devq := aset s.devq (devKey e.cid sec) (s.devQueue e.cid sec ++ [r]) }

/-- The queue has room (R430). -/
def State.devRoom (s : State) (cid sec : Nat) : Bool := (s.devQueue cid sec).length < Config.deviceLaunchQueueSize

/-- The target section of vB (R429). -/
def launchSection (e : Env) (vb : Nat) : Nat := if bitsOf vb 2 2 = 1 then secOfCore e.core else bitsOf vb 1 0

/-- LAUNCH (R429 to R432). -/
def execLaunch (h : Hdr) (d a b : Reg) (s : State) : Host.Outcome State Fault Refusal :=
  threadOp (.launch h d a b) s fun e => do
    let ra := e.th.rd64 a
    let vb := (e.th.rd b).toNat
    if ra.toNat % 128 ≠ 0 || bitsOf vb 31 3 ≠ 0 then throw (opFault .illegalOperand)
    let sec := launchSection e vb
    let s ← get
    if s.pidOf sec ≠ e.ctx.pid then throw (opFault .illegalOperand)
    let bytes ← readVirt e.who ra 0 16 8 (readSeenM e none)
    let s ← get
    if s.devRoom e.cid sec then
      modify fun s => s.submit e sec bytes
      modTh e fun t => t.wr d 0
      pure .done
    else if e.det then
      modify fun s =>
        let (n, s) := s.freshId
        s.modThread e.tid fun t => { t with status := .devWait sec n bytes e.pers (.launch h d a b) }
      pure .stay
    else
      modTh e fun t => t.wr d 1
      pure .done

/-- Threads that wait for room in a device-launch queue, in order of arrival (R432). -/
def State.devWaiters (s : State) (cid sec : Nat) : List (Nat × Nat) :=
  sortBy (fun a b => a.1 ≤ b.1) (s.threads.filterMap fun e => match e.2.status with
    | .devWait sc n _ _ _ =>
      if sc = sec && (match aget s.cohorts (cohOf e.1) with
          | some c => c.cid == cid
          | none => false) then some (n, e.1) else none
    | _ => none)

/-- The oldest waiting LAUNCH takes the room in its queue. -/
def State.devAdmit (s : State) (cid sec : Nat) : State :=
  match s.devWaiters cid sec with
  | [] => s
  | (_, tid) :: _ =>
    if !s.devRoom cid sec then s
    else match (aget s.threads tid).map Thread.status with
      | some (.devWait _ _ bytes pers op) =>
        match s.envOf tid pers with
        | none => s
        | some e =>
          let d := match op with
            | .launch _ d _ _ => d
            | _ => .v 255
          (s.submit e sec bytes).modThread tid fun t => ({ t with status := .ready }.wr d 0).pass e op true none
      | _ => s

end Sys2Proof.Machine
end

