-- ==== Sys2Proof/Machine/Bins.lean ====
section
/-! DEFINITION. Bins (R93 to R116): acceptance and spill, groups, eligibility and arbitration, fires, drains, deterministic
bins, and the end of an arming. -/

namespace Sys2Proof.Machine

/-! ## Objects -/

/-- Key of a bin. -/
def binKey (sec bin : Nat) : Nat := sec * 512 + bin

def State.modBin (s : State) (k : Nat) (f : Bin → Bin) : State := { s with bins := amod s.bins k f }

/-- The arming of a bin: the bin and its launch. -/
def State.armed (s : State) (k : Nat) : Option (Bin × Launch) :=
  match aget s.bins k with
  | none => none
  | some b => (aget s.launches b.launch).map fun l => (b, l)

/-- The arming is exhausted (R32). -/
def Bin.exhausted (b : Bin) : Bool := 2 ^ 48 ≤ b.fires

/-- Records that the spill ring holds (R96). -/
def LaunchRec.ringCap (r : LaunchRec) : Nat := 2 ^ r.ringlog / r.rsize

/-- Records held on chip. -/
def Bin.onChip (b : Bin) : Nat := (b.recs.filter fun r => r.ring.isNone).length

/-- The bin has room for one record (R99). -/
def Bin.room (b : Bin) (r : LaunchRec) : Bool := decide (b.recs.length < r.quota + r.ringCap)

/-! ## The spill ring (R96) -/

/-- Pointer of a slot of the ring: slot i lies at RINGBASE plus i records; R96 does not say where in the ring a record
lies (DESIGN CHOICE, log entry 39). -/
def ringPtr (r : LaunchRec) (i : Nat) : Dword := r.ringbase + BitVec.ofNat 64 (i * r.rsize)

/-- The first slot from i on, around the ring, that no held record occupies. -/
def nextSlot (cap : Nat) (used : List Nat) (i fuel : Nat) : Nat :=
  match fuel with
  | 0 => i
  | n + 1 => if used.contains i then nextSlot cap used ((i + 1) % cap) n else i

/-- The ring slot for the next record, which a bin with room always has (log entry 39). -/
def Bin.freeSlot (b : Bin) (r : LaunchRec) : Nat :=
  nextSlot r.ringCap (b.recs.filterMap BinRec.ring) (b.ringTail % r.ringCap) b.recs.length

/-- The bytes that the ring holds at a slot; none: the access faults. -/
def State.ringRead (s : State) (l : Launch) (i : Nat) : Option (List Byte) × State :=
  match aget s.ctxs l.cid with
  | none => (none, s)
  | some ctx => s.agentRead (agentOf l.cid ctx) (ringPtr l.rc i) l.rc.rsize s.agentWrites

/-- Writes a record to the ring; false: the access faults. -/
def State.ringWrite (s : State) (l : Launch) (i : Nat) (data : List Byte) : Bool × State :=
  match aget s.ctxs l.cid with
  | none => (false, s)
  | some ctx =>
    match tryAgent s (agentOf l.cid ctx) (writeVirt (agentOf l.cid ctx) (ringPtr l.rc i) 7 16 data (l.rc.rsize / 16)) with
    | (some _, s') => (true, s')
    | (none, s') => (false, s')

/-! ## Groups (R106, R109) -/

/-- Splits a list into pieces of n, the last one possibly shorter. -/
def chunks {α : Type} (n : Nat) (xs : List α) (fuel : Nat) : List (List α) :=
  match fuel with
  | 0 => []
  | f + 1 => if xs.isEmpty then [] else xs.take n :: chunks n (xs.drop n) f

/-- The records of each key in pieces of k, in the order of the list; keys in the order of their first record. -/
def groupsOf (k : Nat) (rs : List BinRec) : List (List BinRec) :=
  ((rs.map BinRec.key).eraseDups).flatMap fun key =>
    let mine := rs.filter fun r => r.key == key
    chunks k mine mine.length

/-- Sequence number of the last record of a group: the order of completion times. -/
def lastSeq (g : List BinRec) : Nat := (g.getLast?.map BinRec.seq).getD 0

/-- Sequence number of the first record of a group. -/
def firstSeq (g : List BinRec) : Nat := (g.head?.map BinRec.seq).getD 0

/-- Complete groups, in ascending completion time (R107). -/
def completeGroups (k : Nat) (rs : List BinRec) : List (List BinRec) :=
  sortBy (fun a b => lastSeq a ≤ lastSeq b) ((groupsOf k rs).filter fun g => g.length == k)

/-- Incomplete groups, in ascending acceptance time of their first record (R109). -/
def partialGroups (k : Nat) (rs : List BinRec) : List (List BinRec) :=
  sortBy (fun a b => firstSeq a ≤ firstSeq b) ((groupsOf k rs).filter fun g => g.length != k)

/-- Takes groups in order as long as each next one fits into the records that are left. -/
def takeFit (n : Nat) (gs : List (List BinRec)) : List (List BinRec) :=
  match gs with
  | [] => []
  | g :: t => if g.length ≤ n then g :: takeFit (n - g.length) t else []

/-- The groups of one fire out of complete and partial ones, which partial ones only join once no complete one is left
(R109). -/
def fireGroups (n : Nat) (full part : List (List BinRec)) (closing : Bool) : List (List BinRec) :=
  let a := takeFit n full
  if a.length = full.length && closing then a ++ takeFit (n - (a.map List.length).foldl (· + ·) 0) part else a

/-! ## Deterministic bins (R113, R114) -/

/-- Order of sort keys (R113); records that tie stand in acceptance order. -/
def keyLe (a b : BinRec) : Bool :=
  if a.key ≠ b.key then a.key < b.key else if a.tag ≠ b.tag then a.tag < b.tag
  else if a.lid ≠ b.lid then a.lid < b.lid else if a.num ≠ b.num then a.num < b.num else a.seq ≤ b.seq

/-- Order of groups by the sort keys of their first records (R114). -/
def groupLe (x y : List BinRec) : Bool :=
  match x, y with
  | a :: _, b :: _ => keyLe a b
  | _, _ => true

/-- The runs of a drain: groups cut into fires, the partial ones last (R114). -/
def planGroups (n : Nat) (full part : List (List BinRec)) (closing : Bool) (fuel : Nat) : List (List Nat) :=
  match fuel with
  | 0 => []
  | f + 1 =>
    let gs := fireGroups n full part closing
    if gs.isEmpty then []
    else
      let a := min full.length gs.length
      (gs.flatMap fun g => g.map BinRec.seq) :: planGroups n (full.drop a) (part.drop (gs.length - a)) closing f

/-- The runs that a drain fires (R114). -/
def planOf (r : LaunchRec) (rs : List BinRec) (closing : Bool) : List (List Nat) :=
  let sorted := sortBy keyLe rs
  if r.gather then
    let gs := sortBy groupLe (groupsOf r.k sorted)
    planGroups r.thresh (gs.filter fun g => g.length == r.k) (gs.filter fun g => g.length != r.k) closing (rs.length + 1)
  else (chunks r.thresh sorted sorted.length).map fun c => c.map BinRec.seq

/-- Groups with a record before the mark that later records completed (R108), as further runs, by sort key (R114). -/
def lateRuns (r : LaunchRec) (b : Bin) : List (List Nat) :=
  match b.mark with
  | none => []
  | some m =>
    if r.gather then
      let gs := (completeGroups r.k b.recs).filter fun g => g.any fun x => x.seq < m
      planGroups r.thresh (sortBy groupLe (gs.map (sortBy keyLe))) [] false (b.recs.length + 1)
    else []

/-! ## Eligibility (R101, R102) -/

/-- Ready records. -/
def Bin.ready (b : Bin) (r : LaunchRec) : List BinRec :=
  if r.gather then (completeGroups r.k b.recs).flatMap id else b.recs

/-- A ready record accepted before the mark is held (R101). -/
def Bin.byDrain (b : Bin) (r : LaunchRec) : Bool :=
  match b.mark with
  | none => false
  | some m => (b.ready r).any fun x => x.seq < m

/-- A ready record has been held for AGE cycles or more; what was accepted before such a record has been held for longer
(R101). -/
def Bin.isAged (b : Bin) (r : LaunchRec) : Bool := b.aged.any fun a => (b.ready r).any fun x => decide (x.seq ≤ a)

/-- The first condition of R101 that holds, as CAUSE; a closing bin fires until it holds no record (R109), a deterministic
one only by a drain (R113). -/
def Bin.cause (b : Bin) (r : LaunchRec) : Option Nat :=
  if b.exhausted then none
  else if r.det then (if b.plan.isEmpty then none else some 2)
  else if r.thresh ≤ (b.ready r).length then some 0
  else if b.isAged r then some 1
  else if b.byDrain r || (b.closing && !b.recs.isEmpty) then some 2
  else none

/-- Eligibility and mark of a bin after a change of it (R101, R108). -/
def State.binEval (s : State) (k : Nat) : State :=
  match s.armed k with
  | none => s
  | some (b, l) =>
    let b := match b.mark with
      | none => b
      | some m => if b.recs.any fun r => r.seq < m then b else { b with mark := none }
    let b := if l.rc.det && b.plan.isEmpty then { b with plan := lateRuns l.rc b } else b
    match b.cause l.rc, b.eligSince with
    | some _, some _ => s.modBin k fun _ => b
    | some _, none => let (n, s) := s.freshId; s.modBin k fun _ => { b with eligSince := some n }
    | none, _ => s.modBin k fun _ => { b with eligSince := none, promoted := false }

/-- Effective priority (R102, R113). -/
def Bin.prio (b : Bin) (r : LaunchRec) : Nat := if b.promoted && !r.det then 7 else r.prio

/-- Bins of a section that are eligible, in arbitration order (R103). -/
def State.arbitration (s : State) (sec : Nat) : List (Nat × Bin × Launch) :=
  sortBy (fun a b =>
      let pa := a.2.1.prio a.2.2.rc
      let pb := b.2.1.prio b.2.2.rc
      let ta := a.2.1.eligSince.getD 0
      let tb := b.2.1.eligSince.getD 0
      if pa ≠ pb then pb < pa else if ta ≠ tb then ta < tb else a.1 ≤ b.1)
    (s.bins.filterMap fun e => if e.1 / 512 = sec then
        match s.armed e.1 with
        | some (b, l) => if s.active l && (b.cause l.rc).isSome then some (e.1, b, l) else none
        | none => none
      else none)

/-- The head of a section (R103). -/
def State.binHead (s : State) (sec : Nat) : Option (Nat × Bin × Launch) := (s.arbitration sec).head?

/-! ## Answers to a push -/

/-- A thread waits for a controller's answer: its request, personality and op. -/
def State.asking (s : State) (tid : Nat) : Option (BinReq × Env × Instr) :=
  match (aget s.threads tid).map Thread.status with
  | some (.binWait q pers op) => (s.envOf tid pers).map fun e => (q, { e with th := { e.th with status := .ready } }, op)
  | _ => none

/-- The controller answers with acceptance: the thread passes its op (R99). -/
def State.pushDone (s : State) (e : Env) (op : Instr) (f : Thread → Thread) : State :=
  s.setThread e.tid ((f e.th).pass e op true none)

/-- The controller answers with a fault (R99). -/
def State.pushFault (s : State) (e : Env) (op : Instr) (f : FaultInfo) : State :=
  (s.modThread e.tid fun t => { t with status := .ready }).takeFault e (Instr.isLong op) f

/-- The BIN_SPILL event of a bin's owning queue: EVCOUNT and EVBIN, in one release (R100, R332). -/
def State.spillEvent (s : State) (l : Launch) (ref : Nat) : State :=
  match l.ownerQ.bind fun q => (aget s.queues q).map fun x => (q, x) with
  | some (k, q) =>
    let n := (q.evcount + 1) % 2 ^ 32
    State.qcbWrite { s with queues := amod s.queues k fun q => { q with evcount := n, evbin := ref } } q 0x4C 8
      (leBytes 4 n ++ leBytes 4 ref)
  | none => s

/-- Accepts a record at the tail of a bin (R96, R99), whose push is a release that covers the pusher's earlier accesses.
A ring access that faults ends the arming (R96, R110); the push itself is answered with acceptance then, which R96 leaves
open (DESIGN CHOICE, log entry 39). -/
def State.accept (s : State) (k : Nat) (b : Bin) (l : Launch) (e : Env) (op : Instr) (data : List Byte) : State :=
  let (v, s) := s.carry e.tid
  let e := { e with th := { e.th with ord := s.ordOf e.tid } }
  let num := (aget e.th.pushes b.launch).getD 0
  let slot := b.freeSlot l.rc
  let toRing := b.recs.any (fun r => r.ring.isSome) || l.rc.quota ≤ b.onChip
  let r : BinRec := { seq := b.nextSeq, data := data, key := field data 0 4, tag := e.l.rc.tag.toNat, lid := e.logId,
                      num := num, ring := if toRing then some slot else none, view := v }
  let (ok, s) := if toRing then s.ringWrite l slot data else (true, s)
  let s := s.pushDone e op fun t => { t with pushes := aset t.pushes b.launch (num + 1) }
  if ok then
    (s.modBin k fun b => { b with
      recs := b.recs ++ [r], nextSeq := b.nextSeq + 1, ringTail := if toRing then (slot + 1) % l.rc.ringCap else b.ringTail }).binEval k
  else s.endLaunch b.launch stFault

/-- A push reaches its controller (R99). -/
def State.pushArrives (s : State) (e : Env) (op : Instr) (sec bin : Nat) (data : List Byte) : State :=
  let k := binKey sec bin
  let ref := sec * 512 + bin
  let fail := fun (s : State) kind cause => s.pushFault e op (binFault kind ref cause)
  match s.armed k with
  | none => fail s .binClosed 0
  | some (b, l) =>
    if l.cid ≠ e.cid || b.closing then fail s .binClosed 0
    else if data.length ≠ l.rc.rsize then fail s .illegalOperand 0
    else if b.exhausted then fail s .binSpill 1
    else if !b.room l.rc then fail (s.spillEvent l ref) .binSpill 0
    else s.accept k b l e op data

/-- A drain reaches its controller (R108). -/
def State.drainArrives (s : State) (e : Env) (op : Instr) (sec bin : Nat) (close : Bool) : State :=
  let k := binKey sec bin
  match s.armed k with
  | none => s.pushFault e op (binFault .binClosed (sec * 512 + bin))
  | some (b, l) =>
    if l.cid ≠ e.cid then s.pushFault e op (binFault .binClosed (sec * 512 + bin))
    else
      let s := s.pushDone e op id
      if b.closing then s
      else (s.modBin k fun b => { b with
        mark := some b.nextSeq, closing := close
        plan := if l.rc.det then planOf l.rc b.recs close else b.plan }).binEval k

/-- The thread's request can reach a controller: its context is scheduled (R112). -/
def Env.scheduled (e : Env) : Bool := e.ctx.scheduled && !e.ctx.stopped

/-- BIN_PUSH_ARRIVAL (R97, R99). -/
def execBinPushArrival (tid : Nat) (s : State) : Host.Outcome State Fault Refusal :=
  match s.asking tid with
  | some (.push sec bin data, e, op) => if e.scheduled then event (s.pushArrives e op sec bin data) else event s
  | _ => event s

/-- BIN_DRAIN_ARRIVAL (R97, R108, R114). -/
def execBinDrainArrival (tid : Nat) (s : State) : Host.Outcome State Fault Refusal :=
  match s.asking tid with
  | some (.drain sec bin close, e, op) => if e.scheduled then event (s.drainArrives e op sec bin close) else event s
  | _ => event s

/-- Threads parked on FULL against a bin. -/
def State.spilled (s : State) (sec bin : Nat) : List Nat :=
  s.threads.filterMap fun e => if e.2.status = .parkedBin sec bin false then some e.1 else none

/-- BIN_SPILL_AUTO_REPLAY: the bin has room for one record, and a parked BINPUSH is replayed (R100). -/
def execBinSpillAutoReplay (sec bin : Nat) (s : State) : Host.Outcome State Fault Refusal :=
  match s.armed (binKey sec bin) with
  | none => event s
  | some (b, l) =>
    let ts := s.spilled sec bin
    if b.room l.rc && !ts.isEmpty then
      let (i, s) := s.pick ts.length
      event (s.unpark [ts.getD i 0])
    else event s

/-- Sequence number of the oldest ready record. -/
def Bin.oldest (b : Bin) (r : LaunchRec) : Option Nat := ((b.ready r).map BinRec.seq).min?

/-- BIN_AGE_EXPIRY: the oldest ready record has reached the age limit (R101). -/
def execBinAgeExpiry (sec bin : Nat) (s : State) : Host.Outcome State Fault Refusal :=
  let k := binKey sec bin
  match s.armed k with
  | none => event s
  | some (b, l) =>
    if s.active l && l.rc.age != 0 && !l.rc.det && !b.isAged l.rc && !(b.ready l.rc).isEmpty then
      event ((s.modBin k fun b => { b with aged := b.oldest l.rc }).binEval k)
    else event s

/-- For how long a bin is eligible before it is promoted (R102). -/
def LaunchRec.promoteAfter (r : LaunchRec) : Nat := if r.age = 0 then 2 ^ 22 else 8 * r.age

/-- A bin of the section that must be promoted first: it became eligible earlier, and its interval is no longer (R102). -/
def State.promotedBefore (s : State) (sec : Nat) (b : Bin) (l : Launch) : Bool :=
  (s.arbitration sec).any fun x => !x.2.1.promoted && !x.2.2.rc.det &&
    decide (x.2.1.eligSince.getD 0 < b.eligSince.getD 0) && decide (x.2.2.rc.promoteAfter ≤ l.rc.promoteAfter)

/-- BIN_PRIORITY_PROMOTION: the bin has been eligible for 8 × AGE cycles (R102); of the bins of a section with one interval,
that which became eligible first is promoted first (R104). -/
def execBinPriorityPromotion (sec bin : Nat) (s : State) : Host.Outcome State Fault Refusal :=
  let k := binKey sec bin
  match s.armed k with
  | none => event s
  | some (b, l) =>
    if s.active l && !l.rc.det && (b.cause l.rc).isSome && !s.promotedBefore sec b l then
      event (s.modBin k fun b => { b with promoted := true })
    else event s

/-! ## Fires -/

/-- Logical core of fire f of a deterministic bin, within its section (R312); 0 for other bins. -/
def fireLogical (l : Launch) (f : Nat) : Nat := if l.rc.det then f % 64 else 0

/-- Cohorts of a launch on a logical core that are due (R312). -/
def State.dueOn (s : State) (lid j : Nat) : Nat :=
  ((s.launchCohorts lid).filter fun c => c.2.logical == j && s.due c.1).length

/-- The core may take the fire: room, and for a deterministic bin its logical core's turn and place (R103, R312). -/
def State.fireCore (s : State) (sec core : Nat) (b : Bin) (l : Launch) : Bool :=
  secOfCore core == sec && s.fits core b.launch l.rc.need (some b.fires) &&
    (!l.rc.det ||
      let j := fireLogical l b.fires
      let home := sec * 64 + j
      decide (s.dueOn b.launch j < l.rc.need.perCore) && (core == home || !s.fits home b.launch l.rc.need (some b.fires)))

/-- A fire is selected in the section. -/
def State.firing (s : State) (sec : Nat) : Option (Nat × Bin) :=
  s.bins.find? fun e => e.1 / 512 == sec && e.2.selected.isSome

/-- BIN_FIRE_SELECT: the head's fire is selected for a core of the section with room (R103, R111). -/
def execBinFireSelect (sec core : Nat) (s : State) : Host.Outcome State Fault Refusal :=
  match s.firing sec, s.binHead sec with
  | none, some (k, b, l) =>
    if s.fireCore sec core b l then event (s.modBin k fun b => { b with selected := some core }) else event s
  | _, _ => event s

/-- The records of a fire in their order in the input area, with its number of groups and PARTIAL (R105, R107, R109,
R114). -/
def Bin.fireRecs (b : Bin) (r : LaunchRec) : List BinRec × Nat × Bool :=
  if r.det then
    let seqs := b.plan.headD []
    let rs := seqs.filterMap fun n => b.recs.find? fun x => x.seq == n
    if r.gather then
      let keys := (groupsOf r.k rs).filter fun g => !g.isEmpty
      (rs, keys.length, keys.any fun g => g.length != r.k)
    else (rs, 0, false)
  else if r.gather then
    let gs := fireGroups r.thresh (completeGroups r.k b.recs) (partialGroups r.k b.recs) b.closing
    (gs.flatMap id, gs.length, gs.any fun g => g.length != r.k)
  else (b.recs.take r.thresh, 0, false)

/-- The bytes of the records of a fire, those in the ring as the ring holds them (R96); none: a ring access faults. -/
def State.fireBytes (s : State) (l : Launch) (rs : List BinRec) : Option (List (List Byte)) × State :=
  match rs with
  | [] => (some [], s)
  | r :: t =>
    let (d, s) := match r.ring with
      | none => (some r.data, s)
      | some i => s.ringRead l i
    match d with
    | none => (none, s)
    | some d =>
      match s.fireBytes l t with
      | (some ds, s) => (some (d :: ds), s)
      | (none, s) => (none, s)

/-- Records move from the head of the ring to the tail of the on-chip part (R96); none: a ring access faults. -/
def State.refillBin (s : State) (k : Nat) (l : Launch) (n : Nat) : Option State :=
  match n with
  | 0 => some s
  | n + 1 =>
    match aget s.bins k with
    | none => some s
    | some b =>
      match b.recs.find? fun r => r.ring.isSome with
      | none => some s
      | some r =>
        if l.rc.quota ≤ b.onChip then some s
        else
          let (d, s) := s.ringRead l (r.ring.getD 0)
          match d with
          | none => none
          | some d =>
            State.refillBin (s.modBin k fun b => { b with recs := b.recs.map fun x =>
              if x.seq = r.seq then { x with data := d, ring := none } else x }) k l n

/-- SYS_BINFIRE (Table 5-3). -/
def binfireWord (count : Nat) (part : Bool) (cause bin sec groups : Nat) : Dword :=
  BitVec.ofNat 64 (count + (if part then 2 ^ 13 else 0) + 2 ^ 14 * cause + 2 ^ 16 * bin + 2 ^ 25 * sec + 2 ^ 32 * groups)

/-- A fire as one step (R105): its records, its cohort, whose threads begin with an acquire of the pushes (R99), the
refill and the fire count. -/
def State.fire (s : State) (k core : Nat) (b : Bin) (l : Launch) : State :=
  let (rs, groups, part) := b.fireRecs l.rc
  let cause := if part then 2 else (b.cause l.rc).getD 2
  match s.fireBytes l rs with
  | (none, s) => s.endLaunch b.launch stFault
  | (some ds, s) =>
    let sp := swrite [] l.rc.inoff (ds.flatMap id)
    let word := binfireWord rs.length part cause (k % 512) (k / 512) groups
    let gone := rs.map BinRec.seq
    let s := s.modBin k fun b => { b with
      recs := b.recs.filter fun r => !gone.contains r.seq
      plan := b.plan.drop 1, promoted := false, eligSince := none, selected := none }
    let s := s.createCohort b.launch core b.fires (fireLogical l b.fires) [0, 0, 0, 0] word sp
      (rs.foldl (fun v r => joinView v r.view) [])
    let s := s.modBin k fun b => { b with fires := b.fires + 1 }
    match s.refillBin k l rs.length with
    | none => s.endLaunch b.launch stFault
    | some s => s.binEval k

/-- BIN_FIRE_COMPLETE: the selected fire of a section completes (R105, R111, R112). -/
def execBinFireComplete (sec : Nat) (s : State) : Host.Outcome State Fault Refusal :=
  match s.firing sec with
  | none => event s
  | some (k, b) =>
    match s.armed k, b.selected with
    | some (_, l), some core => event (s.fire k core b l)
    | _, _ => event s

/-! ## The end of an arming (R110, R32) -/

/-- The status with which an arming ends now, if it does. -/
def State.armingEnds (s : State) (lid : Nat) (b : Bin) : Option Nat :=
  if !b.closing || !s.noCohorts lid || b.selected.isSome then none
  else if b.recs.isEmpty then some stOk
  else if b.exhausted then some stTooLarge
  else none

/-- BIN_ARMING_END: the bin is disarmed and the arming's signal is written (R110). -/
def execBinArmingEnd (launch : Nat) (s : State) : Host.Outcome State Fault Refusal :=
  match aget s.launches launch with
  | none => event s
  | some l =>
    if l.rc.kind ≠ 2 || l.signaled then event s
    else match l.status, s.bins.find? fun b => b.2.launch == launch with
      | some st, _ => event (((s.disarm launch).setStatus launch st).signal launch)
      | none, some (_, b) =>
        match s.armingEnds launch b with
        | none => event s
        | some st => event (((s.disarm launch).setStatus launch st).signal launch)
      | none, none => event s

end Sys2Proof.Machine
end

