-- ==== Sys2Proof/Machine/Sched.lean ====
section
/-! DEFINITION. Residence of cohorts (R26, R41, R46, R91, R271, R304 to R310): the lowest runnable thread of a launch, room
making, save requests, the pre-emption handler, saves, readmission, and the switching of contexts and launches. -/

namespace Sys2Proof.Machine

/-! ## The lowest runnable thread (R40, R41) -/

/-- What holds a launch's lowest-ID runnable thread: a cohort, or one that is not created yet, with its index. -/
inductive Lowest where
  | cohort (coh : Nat)
  | fresh (index : Nat)
  deriving DecidableEq, Repr

/-- Index of the next cohort of a launch that is not created, if there is one (R39). -/
def State.freshIndex (s : State) (lid : Nat) (l : Launch) : Option Nat :=
  if l.rc.kind = 1 then
    if l.rc.persist then (if l.created < l.rc.ncoh then some l.created else none)
    else if l.rc.det then (if l.created < l.rc.space then some l.created else none)
    else s.lowestIndex lid
  else if l.rc.kind = 2 then
    (s.bins.find? fun e => e.2.launch == lid).bind fun e =>
      match s.binHead (e.1 / 512) with
      | some (k, b, _) => if k = e.1 then some b.fires else none
      | none => none
  else none

/-- The cohort was descheduled as replayable and a thread of it is still parked: it does not come back yet (R46). -/
def State.replayWaits (s : State) (coh : Nat) (c : Cohort) : Bool :=
  c.saved && c.core.isNone && c.replayable && (s.cohThreads coh).any fun e => TStatus.isParked e.2.status

/-- Cohorts of a launch with a runnable thread, each with the logical ID of the lowest. A thread counts as runnable while its
cohort is descheduled for pre-emption or to make room (R39), and so not while it is descheduled as replayable (DEDUCED, log
entry 40). -/
def State.runnableOf (s : State) (lid : Nat) : List (Nat × Nat) :=
  ((s.launchCohorts lid).filter fun c => !s.replayWaits c.1 c.2).filterMap fun c =>
    ((s.cohThreads c.1).find? fun e => TStatus.runnable e.2.status).map fun e => (c.2.logId e.1, c.1)

/-- The lowest-ID runnable thread of a launch. -/
def State.lowest (s : State) (lid : Nat) (l : Launch) : Option Lowest :=
  match (sortBy (fun a b => a.1 ≤ b.1) (s.runnableOf lid)).head?, s.freshIndex lid l with
  | some (id, c), some i => if i * 1024 ≤ id then some (.fresh i) else some (.cohort c)
  | some (_, c), none => some (.cohort c)
  | none, some i => some (.fresh i)
  | none, none => none

/-- Cohort whose warp holds the token of a deterministic launch (R313). -/
def Launch.holder (l : Launch) : Option Nat := if l.rc.det then l.token.todo.head?.map (· / 32) else none

/-- The cohort is never descheduled to make room: it holds its launch's lowest-ID runnable thread, or in a deterministic
launch it is due or holds the token (R41, R313). -/
def State.keepsPlace (s : State) (coh : Nat) (c : Cohort) : Bool :=
  match aget s.launches c.launch with
  | none => false
  | some l => s.lowest c.launch l == some (.cohort coh) || (l.rc.det && s.due coh) || l.holder == some coh

/-- Cohorts of a core that may be descheduled, in the order of R41. Runnable cohorts of different launches with equal
priority and equal launch-order index, between which R41 gives no order, stand in the order of their creation (DESIGN
CHOICE, log entry 40). -/
def State.evictable (s : State) (core : Nat) : List Nat :=
  let cs := (s.residents core).filter fun c => !s.keepsPlace c.1 c.2
  let prio := fun (c : Nat × Cohort) => ((aget s.launches c.2.launch).map fun l => l.rc.prio).getD 0
  let idle := cs.filter fun c => !s.cohRunnable c.1
  let busy := cs.filter fun c => s.cohRunnable c.1
  ((sortBy (fun a b => decide (b.2.launch < a.2.launch) ||
      (a.2.launch == b.2.launch && decide (b.2.index ≤ a.2.index))) idle) ++
    (sortBy (fun a b => decide (prio a < prio b) || (prio a == prio b && decide (b.2.index ≤ a.2.index))) busy)).map (·.1)

/-- The shortest prefix of a list of cohorts without which a need fits a core (R41). -/
def State.evictFor (s : State) (core lid : Nat) (n : Need) (own : Option Nat) (out : List Nat) (cs : List Nat) :
    Option (List Nat) :=
  if s.fitsWithout core lid n own out then some out
  else match cs with
    | [] => none
    | c :: t => s.evictFor core lid n own (out ++ [c]) t

/-! ## Save requests (R305) -/

/-- A save request sets PENDING on a resident cohort. -/
def State.requestSave (s : State) (coh : Nat) : State :=
  s.modCohort coh fun c => if c.core.isSome then { c with pending := true, forRoom := false } else c

/-- A save request that makes room (R41). -/
def State.requestRoom (s : State) (coh : Nat) : State :=
  s.modCohort coh fun c => if c.core.isSome && !c.pending then { c with pending := true, forRoom := true } else c

/-- A request that makes room is withdrawn: a thread that waits after PDONE goes on (R41, R306; log entry 40). -/
def State.withdrawSave (s : State) (coh : Nat) : State :=
  match aget s.cohorts coh with
  | none => s
  | some c =>
    if c.pending && c.forRoom then
      State.modCohort
        { s with threads := s.threads.map fun e =>
            if cohOf e.1 = coh ∧ e.2.status = .preWait then (e.1, { e.2 with status := .ready }) else e }
        coh fun c => { c with pending := false, forRoom := false }
    else s

/-- The cohort has a standing save request and no handler: the forced save follows at once (R305). -/
def Cohort.saveNow (c : Cohort) : Bool := c.pending && c.prevec == 0

/-- SAVE_REQUEST (R305). -/
def execSaveRequest (coh : Nat) (s : State) : Host.Outcome State Fault Refusal := event (s.requestSave coh)

/-! ## Saves (R307, R308) -/

/-- The engines hold nothing of the cohort: its loads have returned, its copies have landed or parked, its matrix
instructions are complete, its requests to the pool are answered and its write-backs are performed (R307, R91, R222, R240,
R250). -/
def State.drained (s : State) (coh : Nat) : Bool :=
  let ts := s.cohThreads coh
  ts.all (fun e => e.2.out.all fun o => o.returned || o.cls == .col || (match aget s.copies o.id with
      | some c => c.parked || c.landed
      | none => false)) &&
    s.copies.all (fun c => c.2.coh != coh || c.2.parked || c.2.landed) &&
    (match aget s.cohorts coh with
      | some c => c.mats.isEmpty
      | none => true) &&
    s.fetches.all fun f => f.coh != coh

/-- The thread meets the save condition (R307). -/
def TStatus.settled (t : TStatus) : Bool := t == .preWait || !TStatus.runnable t

/-- The thread waits at an op that it has begun, and resumes there: in guest code the op of a one-op template (R132). -/
def Thread.waits (t : Thread) : Bool :=
  match t.status with
  | .awaiting _ | .ring .. | .coll .. | .conv _ | .token _ | .binWait .. | .devWait .. | .named .. | .grp .. => true
  | _ => false

/-- A thread as it is saved: a running expansion is discarded, one that waits for the token at an op of a template of two
or more ops included (R128, R134); a BACKOFF delay ends, and it is no longer ready (R48). -/
def Thread.save (t : Thread) : Thread :=
  let split := t.exp.any fun x => decide (1 < x.ops.length)
  let t :=
    if t.exp.isNone || (t.waits && !split) then t
    else { t.rollback with status := if t.waits then .ready else t.status, granted := false }
  { t with status := if t.status = .backoff then .ready else t.status, rdy := false, late := 0, yielded := false }

/-- The cohort's state is saved and its core is free: its threads act as at a FENCE, dirty stash lines are written back and
every line is absent (R240, R271, R307). -/
def State.saveCohort (s : State) (coh : Nat) (replayable : Bool) : State :=
  let s : State := match aget s.cohorts coh with
    | some c => (s.fenceCohort coh).writeBack (s.cohPid c) (c.lines.map (·.2))
    | none => s
  let s : State := { s with
    threads := s.threads.map fun e => if cohOf e.1 = coh then (e.1, e.2.save) else e
    issue := s.issue.filter fun t => cohOf t != coh }
  (s.modCohort coh fun c => { c with
    core := none, saved := true, pending := false, forRoom := false, replayable := replayable, lines := [] }).fixRotation

/-- A save request stands on the resident cohort. -/
def State.savePending (s : State) (coh : Nat) : Bool :=
  match aget s.cohorts coh with
  | some c => c.pending && c.core.isSome
  | none => false

/-- The cohort is one that R46 deschedules as replayable: a thread of it is parked, and none is runnable. -/
def State.replayableNow (s : State) (coh : Nat) : Bool :=
  !s.cohRunnable coh && (s.cohThreads coh).any fun e => TStatus.isParked e.2.status

/-- REPLAYABLE_DESCHEDULE: a cohort with a parked thread and none that is runnable is descheduled (R46). -/
def execReplayableDeschedule (coh : Nat) (s : State) : Host.Outcome State Fault Refusal :=
  match aget s.cohorts coh with
  | none => event s
  | some c => event (if c.core.isSome && s.replayableNow coh && s.drained coh then s.saveCohort coh true else s)

/-! ## The pre-emption handler (R304, R305) -/

/-- LIVE index of the SAFE entry that holds an offset, among n entries from a pointer on (R173, R304). -/
def State.findSafe (s : State) (w : Who) (known : List Nat) (ptr : Dword) (off n : Nat) :
    Option Nat × State :=
  match n with
  | 0 => (none, s)
  | n + 1 =>
    match s.agentRead w ptr 16 known with
    | (none, s) => (none, s)
    | (some b, s) => if field b 0 8 = off then (some (field b 8 4), s) else s.findSafe w known (ptr + 16) off n

/-- Address of the LIVE entry of a PC, if it is a safe point, by the directory entries from j on (R304, Table 14-7). -/
def State.liveEntry (s : State) (w : Who) (known : List Nat) (dir : Dword) (pc j n : Nat) :
    Option Dword × State :=
  match n with
  | 0 => (none, s)
  | n + 1 =>
    match s.agentRead w (dir + BitVec.ofNat 64 (32 * j)) 32 known with
    | (none, s) => (none, s)
    | (some b, s) =>
      let base := field b 0 8
      if field b 12 4 ≠ 0 && base ≤ pc && pc < base + field b 8 4 then
        match s.findSafe w known (BitVec.ofNat 64 (field b 16 8)) (pc - base) (field b 12 4) with
        | (some k, s) => (some (BitVec.ofNat 64 (field b 24 8 + 48 * k)), s)
        | (none, s) => s.liveEntry w known dir pc (j + 1) n
      else s.liveEntry w known dir pc (j + 1) n

/-- The LIVE entry of a thread that is to enter the pre-emption handler instead of issuing (R305). -/
def State.safeEntry (s : State) (tid : Nat) : Option Dword × State :=
  match s.envOf tid 0 with
  | none => (none, s)
  | some e =>
    if !e.c.pending || e.c.prevec = 0 || e.th.preActive || e.th.status ≠ .ready || e.c.core.isNone || e.opIdx ≠ 0 ||
        e.ctx.con.codedir = 0 then (none, s)
    else s.liveEntry e.who.noWatch (s.ordOf tid).known e.ctx.con.codedir e.th.pc.toNat 0 16

/-- PREEMPT_HANDLER_ENTRY (R305); the PC is slot 1 of the handler's line (R146). -/
def execPreemptHandlerEntry (tid : Nat) (s : State) : Host.Outcome State Fault Refusal :=
  match s.safeEntry tid with
  | (none, s') => event s'
  | (some live, s') =>
    event (s'.modThread tid fun t =>
      { t.abandon with
        prePc := t.pc, preLive := live, preActive := true, preShadow := t.shadow, shadow := none
        preSuppress := t.wpSuppress, wpSuppress := false
        pc := ((aget s.cohorts (cohOf tid)).map Cohort.prevec).getD 0 + 8 })

/-! ## Readmission (R309) -/

/-- A thread after readmission: one that executed PDONE is ready at its safe point (R306, R309). -/
def Thread.readmit (t : Thread) : Thread := { t with status := if t.status = .preWait then .ready else t.status }

/-- The core may take the cohort: of its partition, with room, and for a deterministic launch the core of its logical core
where that core can hold it (R26, R312). -/
def State.readmitCore (s : State) (coh core : Nat) (c : Cohort) (l : Launch) : Bool :=
  let cores := if l.rc.kind = 2 then (List.range 64).map fun k => l.sec * 64 + k else s.coresOf l.pid
  let home := if l.rc.kind = 2 then l.sec * 64 + c.logical else s.logicalCore l.pid c.logical
  (aget s.cohorts coh).isSome && cores.contains core && s.fits core c.launch c.need (some c.index) &&
    (!l.rc.det || core == home || !s.fits home c.launch c.need (some c.index))

/-- A saved cohort is placed again, its threads acting as at a FENCE (R26, R271, R309). -/
def State.readmit (s : State) (coh core : Nat) : State :=
  let s := s.modCohort coh fun c => { c with saved := false, replayable := false, pending := false, forRoom := false }
  State.fenceCohort
    (State.place { s with threads := s.threads.map fun e => if cohOf e.1 = coh then (e.1, e.2.readmit) else e } coh core) coh

/-- In a deterministic launch the cohort whose warp holds the token is readmitted first (R313). -/
def State.tokenTurn (s : State) (coh : Nat) (l : Launch) : Bool :=
  match l.holder with
  | none => true
  | some h => h == coh || (match aget s.cohorts h with
    | some c => c.core.isSome || c.replayable
    | none => true)

/-- The cohort may come back: its launch is active, and where it was descheduled as replayable no thread of it is parked
(R46). -/
def State.canReturn (s : State) (coh : Nat) (c : Cohort) (l : Launch) : Bool :=
  c.saved && c.core.isNone && s.active l && s.tokenTurn coh l && !s.replayWaits coh c

/-- READMISSION (R26, R46, R309). -/
def execReadmission (coh core : Nat) (s : State) : Host.Outcome State Fault Refusal :=
  match aget s.cohorts coh with
  | none => event s
  | some c =>
    match aget s.launches c.launch with
    | none => event s
    | some l => event (if s.canReturn coh c l && s.readmitCore coh core c l then s.readmit coh core else s)

/-! ## Room (R41) -/

/-- Creates the cohort of an index of a launch on a core, whatever core its walker is bound to (R80). -/
def State.createAt (s : State) (lid core i : Nat) (l : Launch) : State :=
  if l.rc.persist then s.createCohort lid core i 0 (persistCoord i) 0 []
  else (s.takeIndex lid i).createCohort lid core i 0 (l.rc.coord i) 0 []

/-- Cohorts that a deterministic ITER launch creates in all. -/
def LaunchRec.total (r : LaunchRec) : Nat := if r.persist then r.ncoh else r.space

/-- The index of the next cohort of logical core j of a deterministic ITER launch, if it is due (R312). -/
def State.dueIndex (s : State) (lid j : Nat) (l : Launch) : Option Nat :=
  let i := j + (aget l.onCore j).getD 0 * (s.coresOf l.pid).length
  if l.rc.total ≤ i || l.rc.need.perCore ≤ s.dueOn lid j then none else some i

/-- The first due cohort of a deterministic ITER launch that a round waits for (R312, R313). -/
def State.nextDue (s : State) (lid : Nat) (l : Launch) : Option Nat :=
  if l.token.todo.isEmpty then (List.range (s.coresOf l.pid).length).findSome? fun j => s.dueIndex lid j l else none

/-- The cohort that a launch needs room for: that of its lowest-ID runnable thread (R41). In a deterministic launch that is
first the cohort that holds the token, and a fire that is due counts as holding the lowest-ID runnable thread, as does a
cohort that the next round waits for (R313). -/
def State.wanted (s : State) (lid : Nat) (l : Launch) : Option Lowest :=
  let mine := (sortBy (fun a b => a.1 ≤ b.1) (s.runnableOf lid)).head?.map fun c => Lowest.cohort c.2
  if !l.rc.det then s.lowest lid l
  else match l.holder.filter (fun h => ((aget s.cohorts h).map fun c => c.core.isNone) == some true), l.rc.kind with
    | some h, _ => some (.cohort h)
    | none, 2 => ((s.freshIndex lid l).map Lowest.fresh).or mine
    | none, _ => ((s.nextDue lid l).map Lowest.fresh).or mine

/-- What it needs, with its launch-order index; only an active launch makes room. -/
def State.roomNeed (s : State) (lid : Nat) (l : Launch) : Option (Nat × Need) :=
  if !s.active l then none
  else match s.wanted lid l with
  | some (.fresh i) => some (i, l.rc.need)
  | some (.cohort c) =>
    match aget s.cohorts c with
    | some x => if x.core.isNone && s.canReturn c x l then some (x.index, x.need) else none
    | none => none
  | none => none

/-- No launch but one has a target core here. -/
def State.soleRoom (s : State) (core lid : Nat) : Bool := s.launches.all fun l => l.1 == lid || l.2.room.map (·.2) != some core

/-- The room of a launch is held no more, and the save requests that made it are withdrawn. -/
def State.clearRoom (s : State) (lid : Nat) : State :=
  match (aget s.launches lid).bind Launch.room with
  | none => s
  | some (_, k) =>
    let s := s.modLaunch lid fun l => { l with room := none }
    if s.soleRoom k lid then (s.residents k).foldl (fun s c => s.withdrawSave c.1) s else s

/-- The needed cohort takes its place on the core, where that is its place (R312); a fire and a cohort that a round waits for
are created by BIN_FIRE_COMPLETE and TOKEN_VISIT. -/
def State.takeRoom (s : State) (lid core : Nat) (l : Launch) : State :=
  match s.wanted lid l with
  | some (.fresh i) => if l.rc.kind ≠ 1 || l.rc.det then s else (s.clearRoom lid).createAt lid core i l
  | some (.cohort c) =>
    (match aget s.cohorts c with
      | some x => if s.readmitCore c core x l then (s.clearRoom lid).readmit c core else s
      | none => s)
  | none => s

/-- The cohorts of a core that a save request stands on. -/
def State.asked (s : State) (core : Nat) : List Nat := ((s.residents core).filter fun c => c.2.pending).map (·.1)

/-- The core can be the target for the cohort of an index: the cohorts to deschedule there, those that a save request stands
on first (R41). -/
def State.roomAt (s : State) (core lid i : Nat) (n : Need) : Option (List Nat) :=
  s.evictFor core lid n (some i) (s.asked core) ((s.evictable core).filter fun c => !(s.asked core).contains c)

/-- The target chosen for the cohort of an index, as long as it can be one. -/
def State.target (s : State) (lid i : Nat) (n : Need) : Option Nat :=
  ((aget s.launches lid).bind Launch.room).bind fun r =>
    if r.1 = i && (s.roomAt r.2 lid i n).isSome then some r.2 else none

/-- The first cohort in the order of R41 receives a save request, once no other request stands on the core: so the front end
stops as soon as the needed cohort fits. -/
def State.askNext (s : State) (lid core i : Nat) (n : Need) : State :=
  match s.asked core, s.roomAt core lid i n with
  | [], some (c :: _) => s.requestRoom c
  | _, _ => s

/-- Room is made on a core, which becomes the target for the cohort of an index and holds its room. While the target chosen
for that cohort can still be one, no cohort of any other core is descheduled (R41). -/
def State.seekRoom (s : State) (lid core i : Nat) (n : Need) : State :=
  match s.target lid i n with
  | some t => if t = core then s.askNext lid core i n else s
  | none =>
    let s := s.clearRoom lid
    if (s.roomAt core lid i n).isSome then
      (s.modLaunch lid fun l => { l with room := some (i, core) }).askNext lid core i n
    else s

/-- MAKE_ROOM: the target core makes room for the cohort of the launch's lowest-ID runnable thread, which takes its place
once it fits (R41, R80); room for a cohort that the launch needs no more is given up. -/
def execMakeRoom (launch core : Nat) (s : State) : Host.Outcome State Fault Refusal :=
  match aget s.launches launch with
  | none => event s
  | some l =>
    let need := s.roomNeed launch l
    if l.room.any fun r => need.map (·.1) != some r.1 then event (s.clearRoom launch)
    else match need with
      | none => event s
      | some (i, n) =>
        let mine := if l.rc.kind = 2 then secOfCore core == l.sec else (s.coresOf l.pid).contains core
        if !mine || (l.rc.det && (s.nextDue launch l).isSome) then event s
        else if s.fits core launch n (some i) then event (s.takeRoom launch core l)
        else event (s.seekRoom launch core i n)

/-- A launch still makes room on a core. -/
def State.roomMade (s : State) (core : Nat) : Bool :=
  s.launches.any fun l => match l.2.room, s.roomNeed l.1 l.2 with
    | some (i, k), some (j, n) => k == core && i == j && !s.fits core l.1 n (some i)
    | _, _ => false

/-- The cohort's save request still holds: one that makes room does so only while the needed cohort does not fit, and never
for a cohort that keeps its place (R41). -/
def State.mustLeave (s : State) (coh : Nat) (c : Cohort) : Bool :=
  !c.forRoom || (!s.keepsPlace coh c && c.core.any s.roomMade)

/-- Saves a resident cohort under its save request, as replayable where R46 deschedules it so; a request that holds no more
is withdrawn. -/
def State.saveUnder (s : State) (coh : Nat) : State :=
  match aget s.cohorts coh with
  | none => s
  | some c => if s.mustLeave coh c then s.saveCohort coh (s.replayableNow coh) else s.withdrawSave coh

/-- COHORT_SAVE: every thread has settled and the engines have drained (R307). -/
def execCohortSave (coh : Nat) (s : State) : Host.Outcome State Fault Refusal :=
  event (if s.savePending coh && ((s.cohThreads coh).all fun e => TStatus.settled e.2.status) && s.drained coh then
    s.saveUnder coh else s)

/-- FORCED_SAVE: the bound has run out, or the cohort has no handler; every thread is saved as it stands once the engines
have drained (R305, R308). -/
def execForcedSave (coh : Nat) (s : State) : Host.Outcome State Fault Refusal :=
  event (if s.savePending coh && s.drained coh then s.saveUnder coh else s)

/-! ## Switching contexts and launches (R90, R112, R310, R316) -/

/-- The selected fires of a context complete before its bins are saved (R112). -/
def State.completeFires (s : State) (cid : Nat) : State :=
  (s.bins.filter fun e => e.2.selected.isSome).foldl (fun s e =>
    match s.armed e.1 with
    | some (b, l) =>
      (match b.selected with
        | some core => if l.cid = cid then s.fire e.1 core b l else s
        | none => s)
    | none => s) s

/-- The launches of a context. -/
def State.launchesOf (s : State) (cid : Nat) : List Nat :=
  (s.launches.filter fun l => l.2.cid == cid && l.2.status.isNone).map (·.1)

/-- The resident cohorts of a launch receive save requests. -/
def State.saveLaunch (s : State) (lid : Nat) : State :=
  (s.launchCohorts lid).foldl (fun s c => s.requestSave c.1) s

/-- A switch-out of a context (R310): the steps begun on its walkers are completed for all of its launches before any walker
is saved, and none of its pending ranges is loaded then (R90). -/
def State.switchOut (s : State) (cid : Nat) : State :=
  let s := s.completeFires cid
  let s := (s.launchesOf cid).foldl State.answerFetches s
  let s := s.modCtx cid fun c => { c with scheduled := false }
  let s := (s.launchesOf cid).foldl State.saveWalkers s
  ((s.launchesOf cid).foldl State.saveLaunch s).refillAll

/-- TIME_SLICE_EXPIRY (R310). -/
def execTimeSliceExpiry (cid : Nat) (s : State) : Host.Outcome State Fault Refusal :=
  match aget s.ctxs cid with
  | some c => event (if c.scheduled then s.switchOut cid else s)
  | none => event s

/-- LAUNCH_PREEMPTION (R90, R316). -/
def execLaunchPreemption (launch : Nat) (s : State) : Host.Outcome State Fault Refusal :=
  match aget s.launches launch with
  | some l =>
    event (if s.active l then
      let s := (s.answerFetches launch).saveWalkers launch
      ((s.modLaunch launch fun l => { l with preempted := true }).saveLaunch launch).refillAll
    else s)
  | none => event s

/-- Every cohort of a context is saved: its switch-out is complete (R310). -/
def State.switchedOut (s : State) (cid : Nat) : Bool :=
  s.cohorts.all fun c => c.2.cid != cid || c.2.core.isNone

/-- Every cohort of a launch is saved. -/
def State.launchSaved (s : State) (lid : Nat) : Bool := (s.launchCohorts lid).all fun c => c.2.core.isNone

/-- Launches of a context whose pre-emption is complete. -/
def State.preemptedOf (s : State) (cid : Nat) : List Nat :=
  (s.launches.filter fun l => l.2.cid == cid && l.2.preempted && s.launchSaved l.1).map (·.1)

end Sys2Proof.Machine
end

