-- ==== Sys2Proof/Machine/Bundle.lean ====
section
/-! DEFINITION. Bundles: the ready threads of a quarter, the choice of its two PCs, and turns (R48 to R52). -/

namespace Sys2Proof.Machine

/-- A thread that a quarter may issue: its PC as R48 orders it with its CID, its logical ID and its launch. -/
structure Cand where
  tid : Nat
  pc : Nat
  idx : Nat
  cid : Nat
  logId : Nat
  lid : Nat
  deriving DecidableEq, Repr

/-- Same PC and CID. -/
def Cand.at (a b : Cand) : Bool := a.pc == b.pc && a.idx == b.idx && a.cid == b.cid

/-- PCs in the order of R48, then CIDs. -/
def Cand.pcLe (a b : Cand) : Bool :=
  if a.pc ≠ b.pc then a.pc < b.pc else if a.idx ≠ b.idx then a.idx < b.idx else a.cid ≤ b.cid

/-- Gather order: ascending logical ID, the older launch first (R49). -/
def Cand.gatherLe (a b : Cand) : Bool := if a.logId ≠ b.logId then a.logId < b.logId else a.lid ≤ b.lid

/-- The threads of a quarter at an op that can issue; those of a cohort that is to be saved at once issue no more (R305).
-/
def State.cands (s : State) (core q : Nat) : List Cand :=
  s.threads.filterMap fun t =>
    match aget s.cohorts (cohOf t.1), aget s.warps (warpOf t.1) with
    | some c, some w =>
      if t.2.status = .ready && c.core == some core && w.quarter = q && !c.saveNow &&
          ((aget s.launches c.launch).map s.runs) == some true then
        some { tid := t.1, pc := t.2.pc.toNat, idx := (t.2.exp.map Exp.idx).getD 0, cid := c.cid, logId := c.logId t.1,
               lid := c.launch }
      else none
    | _, _ => none

/-- The launch of a thread is deterministic. -/
def State.detThread (s : State) (tid : Nat) : Bool :=
  (((aget s.cohorts (cohOf tid)).bind fun c => aget s.launches c.launch).map fun l => l.rc.det) == some true

/-- A thread's issue gap has passed, its interlocks hold and its unit is free, or they do not yet, which timing decides: a
free choice, that each of them ends in finite time (R48, R53; log entries 2 and 37). A thread that is ready stays so. The
bundles of a deterministic launch are to leave no trace in its results (R319, Table 15-1): its threads are ready as soon as
they can issue. A thread that executed YIELD is not ready in the next cycle (R517). -/
def State.nowReady (s : State) (tid : Nat) : Bool × State :=
  match aget s.threads tid with
  | none => (false, s)
  | some t =>
    if t.yielded then (false, s.setThread tid { t with yielded := false })
    else if t.rdy then (true, s)
    else
      let (x, s) := if Config.patience ≤ t.late || s.detThread tid then (0, s) else s.pick 2
      if x = 0 then (true, s.setThread tid { t with rdy := true })
      else (false, s.setThread tid { t with late := t.late + 1 })

/-- The ready threads among those that can issue (R48). -/
def readyOf (cs : List Cand) (s : State) : List Cand × State :=
  match cs with
  | [] => ([], s)
  | c :: t =>
    let (x, s) := s.nowReady c.tid
    let (r, s) := readyOf t s
    (if x then c :: r else r, s)

/-- A thread that issues is ready no more until its next op is (R48). -/
def Thread.issued (t : Thread) : Thread := { t with rdy := false, late := 0 }

/-- The lowest of a list in an order. -/
def lowestBy (le : Cand → Cand → Bool) (cs : List Cand) : Option Cand := (sortBy le cs).head?

/-- The first sub-bundle: the threads at P1, the turn's thread first (R49). -/
def firstSub (rdy : List Cand) (turn : Option Cand) : List Cand :=
  match turn with
  | some t => (t :: sortBy Cand.gatherLe (rdy.filter fun c => Cand.at c t && c.tid != t.tid)).take 32
  | none => match lowestBy Cand.pcLe rdy with
    | none => []
    | some p => (sortBy Cand.gatherLe (rdy.filter fun c => Cand.at c p)).take 32

/-- The second sub-bundle (R49). -/
def secondSub (rdy s1 : List Cand) : List Cand :=
  match s1 with
  | [] => []
  | p1 :: _ =>
    if 32 ≤ s1.length then []
    else match lowestBy Cand.pcLe (rdy.filter fun c => !Cand.at c p1) with
      | none => []
      | some p2 => (sortBy Cand.gatherLe (rdy.filter fun c => Cand.at c p2)).take (32 - s1.length)

/-- Issues a bundle; whether S2 loses a port to S1 is the implementation's (R50). The ops of its threads take effect in
ascending logical ID, which is the order of the steps of one cycle (R227, R301, R371). -/
def State.issueBundle (s : State) (rdy : List Cand) (turn : Option Cand) : State :=
  let s1 := firstSub rdy turn
  let s2 := secondSub rdy s1
  let (x, s) := if s2.isEmpty || (s1 ++ s2).any (fun c => s.detThread c.tid) then (0, s) else s.pick 2
  { s with issue := (sortBy Cand.gatherLe (s1 ++ if x = 0 then s2 else [])).map Cand.tid, bundle := s.bundle + 1 }

/-- BUNDLE_FORM: an ordinary cycle of a quarter (R49). -/
def execBundleForm (core q : Nat) (s : State) : Host.Outcome State Fault Refusal :=
  let (rdy, s) := readyOf (s.cands core q) s
  event (s.issueBundle rdy none)

/-- The launch that a turn serves, and its lowest-ID ready thread (R52). -/
def turnThread (rdy : List Cand) (rot : List Nat) : Option (Nat × Cand) :=
  match rot with
  | [] => none
  | l :: t =>
    match lowestBy Cand.gatherLe (rdy.filter fun c => c.lid == l) with
    | some c => some (l, c)
    | none => turnThread rdy t

/-- The rotation after it has served a launch (R52). -/
def rotateAfter (rot : List Nat) (l : Nat) : List Nat :=
  match firstIdx (· == l) rot with
  | none => rot
  | some i => rot.drop (i + 1) ++ rot.take (i + 1)

/-- ROTATION_TURN: a turn of a quarter; without a ready thread it is an ordinary cycle (R52). -/
def execRotationTurn (core q : Nat) (s : State) : Host.Outcome State Fault Refusal :=
  let (rdy, s) := readyOf (s.cands core q) s
  let rot := (aget s.rotation (core * 4 + q)).getD []
  match turnThread rdy rot with
  | none => event (s.issueBundle rdy none)
  | some (l, t) =>
    event (State.issueBundle { s with rotation := aset s.rotation (core * 4 + q) (rotateAfter rot l) } rdy (some t))

end Sys2Proof.Machine
end

