-- ==== Sys2Proof/Machine/Launch.lean ====
section
/-! DEFINITION. Acceptance of launch records (R67 to R75, R94, R36) and gang reservation (R334). -/

namespace Sys2Proof.Machine

/-! ## Statuses (Table 4-7) -/

def stBadKind : Nat := 0x0001
def stBadField : Nat := 0x0002
def stBadShape : Nat := 0x0003
def stBadOrder : Nat := 0x0004
def stEntry : Nat := 0x0006
def stGroupStride : Nat := 0x0007
def stGroupEmpty : Nat := 0x0008
def stGroupReserved : Nat := 0x0009
def stGroupOverlap : Nat := 0x000A
def stNoFit : Nat := 0x000B
def stBinArmed : Nat := 0x000C

/-! ## The record (R67 to R72) -/

/-- The fields of 128 bytes. -/
def recordOf (b : List Byte) : LaunchRec :=
  let ctrl := field b 0 4
  let shape := field b 0x28 4
  let binw := field b 0x10 4
  { kind := bitsOf ctrl 3 0, prio := bitsOf ctrl 6 4, det := bitsOf ctrl 7 7 == 1, persist := bitsOf ctrl 8 8 == 1,
    nd := bitsOf ctrl 10 9 + 1, pers := bitsOf ctrl 15 12, order := bitsOf ctrl 19 16, ordparam := field b 4 4,
    entry := BitVec.ofNat 64 (field b 8 8), ext := (List.range 4).map fun d => field b (0x10 + 4 * d) 4,
    grain := field b 0x20 4, ncoh := field b 0x24 4, warps := bitsOf shape 4 0 + 1, regs := 8 * (bitsOf shape 9 5 + 1),
    nbar := bitsOf shape 14 10, stash := bitsOf shape 19 15, scratch := 4096 * bitsOf (field b 0x2C 4) 8 0,
    roles := BitVec.ofNat 64 (field b 0x30 8), gtab := BitVec.ofNat 64 (field b 0x38 8),
    param := BitVec.ofNat 64 (field b 0x40 8), signal := BitVec.ofNat 64 (field b 0x48 8),
    tag := BitVec.ofNat 32 (field b 0x50 4), bin := bitsOf binw 8 0, rsize := 16 * (bitsOf binw 12 9 + 1),
    thresh := bitsOf binw 24 13 + 1, gather := bitsOf binw 25 25 == 1, k := bitsOf binw 29 26 + 1,
    age := field b 0x14 4, quota := bitsOf (field b 0x18 4) 15 0, inoff := bitsOf (field b 0x1C 4) 20 0,
    ringbase := BitVec.ofNat 64 (field b 0x58 8), ringlog := bitsOf (field b 0x60 4) 5 0,
    parts := bitsOf binw 3 0, subs := BitVec.ofNat 64 (field b 0x18 8) }

/-- Bytes [o, o + n) of a record are zero. -/
def zeroAt (b : List Byte) (o n : Nat) : Bool := field b o n == 0

/-- Reserved bits of the common fields of ITER and BIN records (Tables 4-1 to 4-3, R69). -/
def commonReserved (b : List Byte) (r : LaunchRec) : Bool :=
  bitsOf (field b 0 4) 11 11 == 0 && bitsOf (field b 0 4) 31 20 == 0 && zeroAt b 0x54 4 &&
    bitsOf (field b 0x2C 4) 31 9 == 0 && bitsOf (field b 0x28 4) 31 20 == 0 &&
    r.roles.toNat / 2 ^ (2 * r.warps) == 0

/-- Every reserved bit of an ITER record is zero (R70). -/
def iterReserved (b : List Byte) (r : LaunchRec) : Bool :=
  commonReserved b r && ((List.range 4).all fun d => d < r.nd || zeroAt b (0x10 + 4 * d) 4) &&
    (r.persist || zeroAt b 0x24 4) && zeroAt b 0x58 40

/-- Every reserved bit of a BIN record is zero (R68, R71). -/
def binReserved (b : List Byte) (r : LaunchRec) : Bool :=
  commonReserved b r && bitsOf (field b 0 4) 10 8 == 0 && bitsOf (field b 0 4) 19 16 == 0 && zeroAt b 4 4 &&
    zeroAt b 0x38 8 && bitsOf (field b 0x10 4) 31 30 == 0 && (r.gather || bitsOf (field b 0x10 4) 29 26 == 0) &&
    bitsOf (field b 0x18 4) 31 16 == 0 && bitsOf (field b 0x1C 4) 31 21 == 0 && zeroAt b 0x20 8 &&
    bitsOf (field b 0x60 4) 31 6 == 0 && zeroAt b 0x64 28

/-- Every reserved bit of a GANG record is zero (R72). -/
def gangReserved (b : List Byte) : Bool :=
  bitsOf (field b 0 4) 19 7 == 0 && bitsOf (field b 0 4) 31 20 == 0 && zeroAt b 4 12 && bitsOf (field b 0x10 4) 31 4 == 0 &&
    zeroAt b 0x14 4 && zeroAt b 0x20 0x28 && zeroAt b 0x54 0x2C

/-- Pointers of ITER and BIN records are aligned (Table 4-1). -/
def pointersAligned (r : LaunchRec) : Bool :=
  r.entry.toNat % 128 == 0 && r.gtab.toNat % 64 == 0 && r.signal.toNat % 8 == 0

/-- Ranges of an ITER record (R70). -/
def iterRanges (r : LaunchRec) : Bool :=
  r.grain != 0 && (!r.persist || (r.ncoh != 0 && decide (r.ext.getD 3 0 ≤ 2 ^ 24)))

/-- Bytes of a section's bin record store that armings reserve (R94). -/
def State.storeUsed (s : State) (sec : Nat) : Nat :=
  (s.bins.filterMap fun e => if e.1 / 512 = sec then (aget s.launches e.2.launch).map fun l => l.rc.quota * l.rc.rsize
    else none).foldl (· + ·) 0

/-- Ranges of a BIN record, with the checks of R71 and R94 that answer BAD_FIELD. -/
def State.binRanges (s : State) (sec : Nat) (r : LaunchRec) : Bool :=
  r.quota != 0 && decide (12 ≤ r.ringlog) && decide (r.ringlog ≤ 40) && r.inoff % 16 == 0 &&
    r.ringbase.toNat % 4096 == 0 && decide (r.inoff + r.thresh * r.rsize ≤ r.scratch) &&
    (!r.gather || (decide (r.k ≤ r.thresh) && r.thresh % r.k == 0)) &&
    decide (s.storeUsed sec + r.quota * r.rsize ≤ Config.binStoreBytes)

/-- The shape meets Table 2-2 and Table 4-3; a stash needs its feature (R69, Table 8-5a). -/
def shapeOk (r : LaunchRec) (ctx : Ctx) : Bool :=
  decide (r.scratch ≤ 384 * 4096) && decide (r.nbar ≤ 16) && decide (r.stash ≤ 24) &&
    ((List.range r.warps).all fun w => r.role w != 3) && (r.stash == 0 || ctx.has 8)

/-- ORDER, NDIM and ORDPARAM agree (R76). -/
def orderOk (r : LaunchRec) : Bool :=
  if r.order = 0 || r.order = 2 then r.ordparam == 0
  else if r.order = 1 then r.ordparam == 0 && (r.nd == 2 || r.nd == 3)
  else r.order == 3 && r.ordparam != 0 && decide (2 ≤ r.nd)

/-! ## The entry point (R73) -/

/-- The entry point passes R73. An ENTRY with a bit above [56], which no address has and for which the section names no
status, fails it (DESIGN CHOICE, log entry 40). -/
def entryCheck (w : Who) (ctx : Ctx) (r : LaunchRec) : M Bool := do
  let va : VAddr := r.entry.setWidth 57
  let (pers, b) ← targetLine w va
  if pers ≠ r.pers || r.entry.toNat / 2 ^ 57 ≠ 0 then pure false
  else if r.pers = 0 then pure (lineCrcOk b && entryOk va pers b r.regs)
  else if r.pers = 1 then pure true
  else
    let h ← persHeader { w := w, pc := va, p := r.pers } ctx
    pure (match h.top with
      | none => true
      | some t => decide (t < r.regs))

/-! ## Group tables (R34 to R36) -/

/-- The entry of group g in the table's bytes, if it is valid. -/
def groupAt (b : List Byte) (g : Nat) : Option GroupEnt :=
  let o := 64 * g
  if bitsOf (field b (o + 0x30) 4) 0 0 = 0 then none
  else
    let dims := fun base => (List.range 4).map fun d => field b (o + base + 4 * d) 4
    some { lo := dims 0, hi := dims 0x10, stride := dims 0x20 }

/-- The valid groups of a table. -/
def groupsIn (b : List Byte) : Assoc GroupEnt :=
  (List.range 256).filterMap fun g => (groupAt b g).map fun e => (g, e)

/-- Reserved bits of a valid entry are zero. -/
def groupClean (b : List Byte) (g : Nat) : Bool :=
  let o := 64 * g
  bitsOf (field b (o + 0x30) 4) 31 1 == 0 && zeroAt b (o + 0x34) 12

/-- An arithmetic progression inside one dimension: first member, end, step. -/
abbrev Prog := Nat × Nat × Nat

/-- The members of a group in each dimension of a box. -/
def GroupEnt.progs (g : GroupEnt) (box : List Nat) : List Prog :=
  (List.range 4).map fun d => (g.lo.getD d 0, min (g.hi.getD d 0) (box.getD d 1), g.stride.getD d 1)

/-- Inverse of a number modulo m, where they are coprime: Euclid's remainders and the first one's factors. -/
def invLoop (m : Nat) (r0 r1 : Nat) (t0 t1 : Int) (fuel : Nat) : Nat :=
  match fuel with
  | 0 => 0
  | f + 1 =>
    if r1 = 0 then (t0 % (m : Int)).toNat
    else invLoop m r1 (r0 % r1) t1 (t0 - (r0 / r1 : Nat) * t1) f

def invMod (x m : Nat) : Nat := invLoop m x m 1 0 200

/-- The common members of two progressions, if there are any. -/
def Prog.meet (a b : Prog) : Option Prog :=
  let (x, xe, p) := a
  let (y, ye, q) := b
  let g := Nat.gcd p q
  let hi := min xe ye
  if g = 0 || ((y : Int) - x) % (g : Int) ≠ 0 then none
  else
    let m := q / g
    let k := ((((y : Int) - x) / (g : Int) * (invMod (p / g % m) m : Nat)) % (m : Int)).toNat
    let z := x + k * p
    let l := p / g * q
    let z := if z < y then z + ceilDiv (y - z) l * l else z
    if z < hi then some (z, hi, l) else none

/-- The common members of two boxes of progressions. -/
def meetAll (as bs : List Prog) : Option (List Prog) :=
  match as, bs with
  | a :: s, b :: t =>
    match a.meet b, meetAll s t with
    | some m, some r => some (m :: r)
    | _, _ => none
  | _, _ => some []

/-- Some n of the groups have a common member with a box. -/
def shareN (n : Nat) (cur : List Prog) (gs : List (List Prog)) : Bool :=
  match n, gs with
  | 0, _ => true
  | _ + 1, [] => false
  | n + 1, g :: t =>
    (match meetAll cur g with
      | some m => shareN n m t
      | none => false) || shareN (n + 1) cur t

/-- The first condition of R36 that a table breaks; the groups of an empty index space are empty (R75). -/
def groupFault (r : LaunchRec) (b : List Byte) : Option Nat :=
  let gs := groupsIn b
  let box := r.box
  if gs.any fun g => g.2.stride.any (· == 0) then some stGroupStride
  else if gs.any fun g => g.2.count box == 0 || r.space == 0 then some stGroupEmpty
  else if gs.any fun g => !groupClean b g.1 then some stGroupReserved
  else if shareN 5 (box.map fun e => (0, e, 1)) (gs.map fun g => g.2.progs box) then some stGroupOverlap
  else none

/-! ## Acceptance of ITER and BIN records (R74, R94) -/

/-- A read by an agent after the writes of a view, in a computation. -/
def agentReadM (w : Who) (ptr : Dword) (n : Nat) (view : List Nat) : M (Option (List Byte)) := fun s =>
  let (b, s') := s.agentRead w ptr n view
  .ok b s'

/-- A computation of an agent, none where it fails. -/
def attempt {α : Type} (w : Who) (x : M α) : M (Option α) := fun s =>
  let (a, s') := tryAgent s w x
  .ok a s'

/-- The front end's test of an ITER or BIN record in a section, in the order of Table 4-7: the group table that it read,
or the status of the first condition that holds. -/
def testRecord (cid : Nat) (ctx : Ctx) (sec : Nat) (b : List Byte) (r : LaunchRec) (view : List Nat) :
    M (Except Nat (Assoc GroupEnt)) := do
  let w := agentOf cid ctx
  let s ← get
  let fieldsOk := if r.kind = 1 then iterReserved b r && iterRanges r
    else binReserved b r && s.binRanges sec r && ctx.has 4
  if !fieldsOk || !pointersAligned r || (r.det && !ctx.has 5) then return .error stBadField
  let tab ← if r.kind = 1 && r.gtab ≠ 0 then agentReadM w r.gtab 16384 view else pure (some [])
  match tab with
  | none => return .error stBadField
  | some tab =>
    if !shapeOk r ctx then return .error stBadShape
    if r.kind = 1 && !orderOk r then return .error stBadOrder
    if r.kind = 1 && 2 ^ 48 ≤ r.space then return .error stTooLarge
    if (← attempt w (entryCheck w ctx r)) ≠ some true then return .error stEntry
    let gs := if tab.isEmpty then none else groupFault r tab
    match gs with
    | some st => return .error st
    | none =>
      if !needsFit [r.need] then return .error stNoFit
      if r.kind = 2 && (aget s.bins (binKey sec r.bin)).isSome then return .error stBinArmed
      return .ok (if tab.isEmpty then [] else groupsIn tab)

/-- The test as a step of the front end. -/
def State.test (s : State) (cid : Nat) (ctx : Ctx) (sec : Nat) (b : List Byte) (r : LaunchRec) (view : List Nat) :
    Except Nat (Assoc GroupEnt) × State :=
  match testRecord cid ctx sec b r view s with
  | .ok x s' => (x, s')
  | .error _ s' => (.error stBadField, s')

/-- Enters a launch under a new number. -/
def State.addLaunch (s : State) (l : Launch) : Nat × State :=
  let (lid, s) := s.freshId
  (lid, { s with launches := aset s.launches lid l })

/-- Ends a launch that has placed nothing, and makes the store to its signal (R74, R75). -/
def State.refuse (s : State) (lid st : Nat) : State := (s.setStatus lid st).signal lid

/-- An accepted launch starts: an ITER launch receives its walkers, where it has any; a BIN record arms its bin (R77,
R94). -/
def State.start (s : State) (lid : Nat) : State :=
  match aget s.launches lid with
  | none => s
  | some l =>
    if l.rc.kind = 2 then { s with bins := aset s.bins (binKey l.sec l.rc.bin) { launch := lid } }
    else if l.rc.space = 0 then s.refuse lid stOk
    else if l.rc.det then s
    else s.divide lid

/-- Where a record comes from: its owning queue, whether it stood in that queue's ring, and the cap of its PRIO. -/
structure Source where
  owner : Option Nat
  ring : Bool
  cap : Nat
  /-- The writes that its acceptance acquires (Table 12-2). -/
  view : List Nat := []
  deriving DecidableEq, Repr

/-- The PRIO at which a record runs under a cap (Table 16-5, R430). -/
def LaunchRec.capped (r : LaunchRec) (cap : Nat) : LaunchRec := { r with prio := min r.prio cap }

/-- The launch of a record. -/
def Source.launch (src : Source) (cid : Nat) (ctx : Ctx) (sec : Nat) (r : LaunchRec) : Launch :=
  { cid := cid, pid := ctx.pid, sec := sec, rc := r.capped src.cap, ownerQ := src.owner, fromRing := src.ring, view := src.view }

/-- An ITER or BIN record is accepted or rejected. -/
def State.acceptPlain (s : State) (cid sec : Nat) (ctx : Ctx) (src : Source) (b : List Byte) : State :=
  let r := recordOf b
  let (t, s) := s.test cid ctx sec b r src.view
  let l := src.launch cid ctx sec r
  match t with
  | .error st => let (lid, s) := s.addLaunch l; s.refuse lid st
  | .ok gs => let (lid, s) := s.addLaunch { l with groups := gs }; s.start lid

/-! ## GANG records (R72, R334) -/

/-- Partitions that a PARTS field names a section of, ascending: a GANG has a sub-record for each, one that its PARTS names
only in part too (DESIGN CHOICE: the spec gives no count for a GANG that it rejects; log entry 40). -/
def State.partsNamed (s : State) (parts : Nat) : List Nat :=
  [0, 1, 2, 3].filter fun p => s.pidOf p == p && (s.sectionsOf p).any fun n => bitsOf parts n n == 1

/-- PARTS names whole partitions. -/
def State.partsWhole (s : State) (parts : Nat) : Bool :=
  [0, 1, 2, 3].all fun n => bitsOf parts n n == 0 || (s.sectionsOf (s.pidOf n)).all fun m => bitsOf parts m m == 1

/-- The context in which a part runs on a partition (R334). -/
def State.partCtx (s : State) (cid : Nat) (ctx : Ctx) (pid : Nat) : Option (Nat × Ctx) :=
  if pid = ctx.pid then some (cid, ctx)
  else if ctx.con.gangid = 0 then none
  else s.ctxs.find? fun c => c.2.pid == pid && c.2.con.gangid == ctx.con.gangid

/-- The sub-records, 128 bytes each. -/
def subRecords (b : List Byte) (n : Nat) : List (List Byte) := (List.range n).map fun i => (b.drop (128 * i)).take 128

/-- The status with which a sub-record fails before its tests: it is no ITER record, or its part has no context. -/
def State.partFault (s : State) (cid : Nat) (ctx : Ctx) (pid : Nat) (r : LaunchRec) : Option Nat :=
  if r.kind ≠ 1 then some stBadKind
  else if (s.partCtx cid ctx pid).isNone then some stBadField
  else none

/-- Tests the parts; each becomes a launch that waits for the commit, with its status where it is rejected. A part without
a context of its own writes its signal through the submitting one (DESIGN CHOICE, log entry 40). -/
def State.addParts (s : State) (cid : Nat) (ctx : Ctx) (src : Source)
    (ps : List (Nat × List Byte)) : List (Nat × Option Nat) × State :=
  match ps with
  | [] => ([], s)
  | (pid, b) :: t =>
    let (pc, pctx) := (s.partCtx cid ctx pid).getD (cid, ctx)
    let r := recordOf b
    let (res, s) : Except Nat (Assoc GroupEnt) × State := match s.partFault cid ctx pid r with
      | some st => (.error st, s)
      | none => s.test pc pctx pid b r src.view
    let l := { Source.launch { src with ring := false } pc pctx pid r with held := true }
    let (l, st) := match res with
      | .error st => (l, some st)
      | .ok gs => ({ l with groups := gs }, none)
    let (lid, s) := s.addLaunch l
    let (rest, s) := s.addParts cid ctx src t
    ((lid, st) :: rest, s)

/-- Rolls a gang back: its reservation is released, and it and its parts without a status report GANG_ROLLBACK. -/
def State.rollback (s : State) (lid : Nat) : State :=
  let s := match s.hub.gang with
    | some g => if g.launch = lid then { s with hub := { s.hub with gang := none } } else s
    | none => s
  let parts := ((aget s.launches lid).map Launch.parts).getD []
  (parts.foldl (fun s p => s.refuse p stRollback) s).refuse lid stRollback

/-- The sub-records of a GANG with their partitions; none where they cannot be read. -/
def State.gangSubs (s : State) (cid : Nat) (ctx : Ctx) (r : LaunchRec) (view : List Nat) :
    Option (List (Nat × List Byte)) × State :=
  let pids := s.partsNamed r.parts
  let (raw, s) := if r.subs.toNat % 128 = 0 then s.agentRead (agentOf cid ctx) r.subs (128 * pids.length) view
    else (none, s)
  (raw.map fun b => pids.zip (subRecords b pids.length), s)

/-- A GANG record itself meets Table 4-7. -/
def State.gangOk (s : State) (b : List Byte) (r : LaunchRec) : Bool :=
  gangReserved b && r.signal.toNat % 8 == 0 && s.partsWhole r.parts

/-- A GANG record is accepted or rejected: it fails with BAD_FIELD in a context without the feature GANG (R178); else a
rejected one reports GANG_ROLLBACK whichever condition it breaks, and each of its parts its own status or GANG_ROLLBACK
(R75, R334; DEDUCED, log entry 40). -/
def State.acceptGang (s : State) (cid sec : Nat) (ctx : Ctx) (src : Source) (b : List Byte) : State :=
  let r := recordOf b
  if !ctx.has 9 then
    let (lid, s) := s.addLaunch (src.launch cid ctx sec r)
    s.refuse lid stBadField
  else
  let (subs, s) := s.gangSubs cid ctx r src.view
  let (lid, s) := s.addLaunch (src.launch cid ctx sec r)
  let (ps, s) := s.addParts cid ctx src (subs.getD [])
  let s := s.modLaunch lid fun l => { l with parts := ps.map (·.1) }
  if subs.isNone || !s.gangOk b r || ps.any fun p => p.2.isSome then
    State.rollback (ps.foldl (fun s p => match p.2 with
      | some st => s.refuse p.1 st
      | none => s) s) lid
  else s

/-- A record that a front end takes is accepted or rejected (R67, R74); a record of a stopped context ends at once with
FAULT (R294). -/
def State.acceptRecord (s : State) (cid sec : Nat) (src : Source) (b : List Byte) : State :=
  match aget s.ctxs cid with
  | none => s
  | some ctx =>
    let r := recordOf b
    let plain := src.launch cid ctx sec r
    if ctx.stopped then
      let (lid, s) := s.addLaunch plain
      s.refuse lid stFault
    else if r.kind = 1 || r.kind = 2 then s.acceptPlain cid sec ctx src b
    else if r.kind = 3 then s.acceptGang cid sec ctx src b
    else
      let (lid, s) := s.addLaunch plain
      s.refuse lid (if r.signal.toNat % 8 = 0 then stBadKind else stBadField)

/-! ## Reservation and commit -/

/-- The gang that the hub reserves for: the one it has begun, or else the oldest that waits (R334). -/
def State.gangTurn (s : State) : Option GangRes :=
  match s.hub.gang with
  | some g => some g
  | none =>
    (s.launches.find? fun l => l.2.rc.kind == 3 && l.2.status.isNone &&
      (s.partsOf l.2).any Launch.held).map fun l => { launch := l.1, reserved := [] }

/-- The reservation of a part can be made: its initial slots are free, and logical core 0 has room for one cohort. -/
def State.canReserve (s : State) (lid : Nat) (l : Launch) : Bool :=
  (l.ranges0 (s.sectionsOf l.pid)).all (fun r => s.slotFree r.1.sec r.2) &&
    s.fits (s.logicalCore l.pid 0) lid l.rc.need none

/-- Reserves the parts in their order, as far as it goes. -/
def State.reserve (s : State) (g : GangRes) (ps : List Nat) : GangRes :=
  match ps with
  | [] => g
  | p :: t =>
    if g.reserved.contains p then s.reserve g t
    else match aget s.launches p with
      | none => g
      | some l => if s.canReserve p l then s.reserve { g with reserved := g.reserved ++ [p] } t else g

/-- The parts of a committed gang start. -/
def State.commit (s : State) (parts : List Nat) : State :=
  let s := parts.foldl (fun s p => s.modLaunch p fun l => { l with held := false }) { s with hub := { s.hub with gang := none } }
  parts.foldl State.start s

/-- GANG_COMMIT: the hub reserves the parts of one gang, in order of arrival, and commits it once every reservation
stands (R334). A gang of which a part has ended is rolled back. -/
def execGangCommit (s : State) : Host.Outcome State Fault Refusal :=
  match s.gangTurn with
  | none => event s
  | some g =>
    match aget s.launches g.launch with
    | none => event { s with hub := { s.hub with gang := none } }
    | some l =>
      if (s.partsOf l).any fun p => p.status.isSome then event (s.rollback g.launch)
      else
        let g := s.reserve g l.parts
        if g.reserved.length = l.parts.length then event (s.commit l.parts)
        else event { s with hub := { s.hub with gang := some g } }

/-- GANG_RESERVATION_TIMEOUT: the reservation was not complete in time (R334). -/
def execGangReservationTimeout (s : State) : Host.Outcome State Fault Refusal :=
  match s.hub.gang with
  | none => event s
  | some g => event (s.rollback g.launch)

end Sys2Proof.Machine
end

