-- ==== Sys2Proof/Machine/Queues.lean ====
section
/-! DEFINITION. Bound queues and device-launch queues: doorbells, packets, waits, and the rotation of a front end (R331 to
R333, R430). -/

namespace Sys2Proof.Machine

def State.modQueue (s : State) (k : Nat) (f : Queue → Queue) : State := { s with queues := amod s.queues k f }

/-- A read of the front end for a queue, an acquire at system scope; what it acquires comes before what the front end does
for the queue next. -/
def State.acquireFor (s : State) (k : Nat) (q : Queue) (ptr : Dword) (n : Nat) : Option (List Byte) × State :=
  match aget s.ctxs q.cid with
  | none => (none, s)
  | some ctx =>
    match tryAgent s (agentOf q.cid ctx) (acquireUnit (agentOf q.cid ctx) (agentInsts q.sec ctx.pid)
        (joinView q.view s.agentWrites) ptr n) with
    | (some (b, v), s) => (some b, s.modQueue k fun q => { q with view := joinView q.view v })
    | (none, s) => (none, s)

/-- Sets STATE and ERR (Table 16-5). -/
def State.setQState (s : State) (k : Nat) (q : Queue) (st err : Nat) : State :=
  if q.state = st ∧ q.err = err then s
  else (s.modQueue k fun q => { q with state := st, err := err }).qcbWrite q 0x48 4 (leBytes 4 (st + 256 * err))

/-- STATE of a queue that neither waits nor has an error. -/
def Queue.liveState (q : Queue) : Nat := if q.wr = q.rd then 0 else 1

/-- The slot at RDIDX is consumed: RDIDX advances and is stored (R332). -/
def State.consume (s : State) (k : Nat) : State :=
  match aget s.queues k with
  | none => s
  | some q =>
    let q' := { q with rd := (q.rd + 1) % 2 ^ 32 }
    let s := (s.modQueue k fun _ => q').qcbWrite q 0x44 4 (leBytes 4 q'.rd)
    s.setQState k q' q'.liveState 0

/-! ## Doorbells -/

/-- The queue's front end acts: neither has its partition stopped (R303) nor is its function frozen (R341). -/
def State.frontRuns (s : State) (q : Queue) : Bool :=
  (match aget s.ctxs q.cid with
    | some c => !s.hub.stopped.contains c.pid
    | none => false) &&
  (match aget s.hub.funcs q.fn with
    | some f => !f.frozen
    | none => false)

/-- A doorbell reaches a front end: it reads WRIDX, an acquire (R332). -/
def State.doorbell (s : State) (fn sec qn : Nat) : State :=
  match s.queues.find? fun q => q.2.fn == fn && q.2.sec == sec && q.2.qn == qn with
  | none => s
  | some (k, q) =>
    if !s.frontRuns q then s
    else match s.acquireFor k q (q.qcb + 0x40) 4 with
      | (none, s) => s
      | (some b, s) =>
        let s := s.modQueue k fun q => { q with wr := leNat b }
        match aget s.queues k with
        | some q => if q.state = 0 then s.setQState k q q.liveState 0 else s
        | none => s

/-- The function's registers are served: it is not frozen (R341). -/
def State.fnServed (s : State) (fn : Nat) : Bool :=
  match aget s.hub.funcs fn with
  | some f => !f.frozen
  | none => false

/-- QUEUE_DOORBELL: a write of QDB[sec]; a value above 255 is ignored, and a doorbell to a quiesced section is held (R328,
R343). -/
def execQueueDoorbell (fn sec qn : Nat) (s : State) : Host.Outcome State Fault Refusal :=
  if !s.fnServed fn || 256 ≤ qn || 4 ≤ sec then event s
  else if s.hub.qDone.getLsbD sec then
    event { s with hub := { s.hub with heldBells := s.hub.heldBells ++ [(fn, sec, qn)] } }
  else event (s.doorbell fn sec qn)

/-! ## Slots (R331) -/

/-- A slot as the front end reads it: an error, or the packet's OP, BARRIER and bytes. -/
inductive Slot where
  | bad (err : Nat)
  | packet (op : Nat) (barrier : Bool) (bytes : List Byte)
  deriving DecidableEq, Repr

/-- Header bytes that a packet's OP does not use are zero. -/
def headerClean (op : Nat) (b : List Byte) : Bool :=
  bitsOf (field b 0 8) 63 21 == 0 &&
    (if op ≤ 1 then zeroAt b 8 120
     else if op = 2 then bitsOf (field b 0x18 1) 7 2 == 0 && zeroAt b 0x19 103 && field b 8 8 % 8 == 0
     else zeroAt b 0x18 104 && field b 8 8 % 8 == 0)

/-- The checks of a slot's bytes, in the order of R331. -/
def slotOfBytes (rev : Nat) (b : List Byte) : Slot :=
  let w := field b 0 8
  let op := bitsOf w 19 16
  if bitsOf w 15 0 ≠ rev then .bad 1
  else if 4 ≤ op then .bad 2
  else if !headerClean op b then .bad 3
  else if op = 2 && bitsOf (field b 0x18 1) 1 0 = 3 then .bad 5
  else .packet op (bitsOf w 20 20 == 1) b

/-- Reads the slot at RDIDX; bytes 0x80 to 0xFF only for OP 1. -/
def State.slot (s : State) (q : Queue) : Slot × State :=
  match aget s.ctxs q.cid with
  | none => (.bad 4, s)
  | some ctx =>
    let w := agentOf q.cid ctx
    let ptr := q.ringbase + BitVec.ofNat 64 (256 * (q.rd % 2 ^ q.ringlog))
    match s.agentRead w ptr 128 q.view with
    | (none, s) => (.bad 4, s)
    | (some h, s) =>
      if bitsOf (field h 0 8) 19 16 = 1 then
        match s.agentRead w (ptr + 128) 128 q.view with
        | (none, s) => (.bad 4, s)
        | (some r, s) => (slotOfBytes q.rev (h ++ r), s)
      else (slotOfBytes q.rev h, s)

/-- Every launch that the queue accepted from its ring has completed (R331). -/
def State.ringDone (s : State) (k : Nat) : Bool :=
  s.launches.all fun l => l.2.ownerQ != some k || !l.2.fromRing || l.2.signaled

/-! ## The rotation of a front end (R332, R430) -/

/-- The front end serves the context: it is scheduled, its partition runs, and its function is not frozen (R341). -/
def State.served (s : State) (cid : Nat) : Bool :=
  s.hub.phase == .full && (match aget s.ctxs cid with
    | some c => c.scheduled && !s.hub.stopped.contains c.pid && s.fnServed c.fn
    | none => false)

/-- The queue has a slot that the front end can act on. -/
def State.queueReady (s : State) (k : Nat) (q : Queue) : Bool :=
  s.served q.cid && q.state == 1 && q.wr != q.rd && (match (s.slot q).1 with
    | .packet _ true _ => s.ringDone k
    | _ => true)

/-- What a front end can serve: PRIOMAX, when it was served last, whether it is a device-launch queue, and its key. -/
structure Ready where
  prio : Nat
  turn : Nat
  dev : Bool
  key : Nat
  deriving DecidableEq, Repr

/-- Descending PRIOMAX, in rotation within equal PRIOMAX. -/
def Ready.before (a b : Ready) : Bool :=
  if a.prio ≠ b.prio then b.prio < a.prio else if a.turn ≠ b.turn then a.turn < b.turn
  else if a.dev ≠ b.dev then b.dev else a.key ≤ b.key

/-- What the front end of a section serves next. -/
def State.nextServed (s : State) (sec : Nat) : Option Ready :=
  let qs := s.queues.filterMap fun e => if e.2.sec = sec && s.queueReady e.1 e.2 then
      some ({ prio := e.2.priomax, turn := e.2.turn, dev := false, key := e.1 } : Ready) else none
  let ds := s.devq.filterMap fun e => if e.1 % 4 = sec && !e.2.isEmpty && s.served (e.1 / 4) then
      some ({ prio := 7, turn := (aget s.devTurn e.1).getD 0, dev := true, key := e.1 } : Ready) else none
  (sortBy Ready.before (qs ++ ds)).head?

/-- A queue of the front end has been served. -/
def State.touch (s : State) (k : Nat) : State :=
  let (n, s) := s.freshId
  s.modQueue k fun q => { q with turn := n }

/-- A packet of the OP at the queue's RDIDX acts, when it is the queue's turn; a bad slot puts the queue into state 3
(R331). -/
def packet (op : Nat) (k : Nat) (s : State) (act : Queue → List Byte → State → State) : State :=
  match aget s.queues k with
  | none => s
  | some q =>
    if !s.queueReady k q || ((s.nextServed q.sec).map fun r => (r.dev, r.key)) ≠ some (false, k) then s
    else match s.slot q with
      | (.bad err, s) => (s.touch k).setQState k q 3 err
      | (.packet o _ b, s') => if o = op then act q b (s'.touch k) else s

/-- PACKET_NOP. -/
def execPacketNop (queue : Nat) (s : State) : Host.Outcome State Fault Refusal :=
  event (packet 0 queue s fun _ _ s => s.consume queue)

/-- PACKET_LAUNCH: the record at 0x80 is accepted (R67 to R75). -/
def execPacketLaunch (queue : Nat) (s : State) : Host.Outcome State Fault Refusal :=
  event (packet 1 queue s fun q b s =>
    (s.acceptRecord q.cid q.sec { owner := some queue, ring := true, cap := q.priomax, view := q.view } (b.drop 128)).consume queue)

/-- The comparison of a WAIT (R331). -/
def waitHolds (cmp v x : Nat) : Bool := if cmp = 0 then v == x else if cmp = 1 then v != x else decide (x ≤ v)

/-- A read of a WAIT's ADDR, an acquire, and what follows from it: consumed, waiting, or ERR 6. -/
def State.waitRead (s : State) (k : Nat) (q : Queue) (b : List Byte) : State :=
  match s.acquireFor k q (BitVec.ofNat 64 (field b 8 8)) 8 with
  | (none, s) => s.setQState k q 3 6
  | (some v, s) =>
    if waitHolds (bitsOf (field b 0x18 1) 1 0) (leNat v) (field b 0x10 8) then s.consume k
    else s.setQState k q 2 0

/-- PACKET_WAIT. -/
def execPacketWait (queue : Nat) (s : State) : Host.Outcome State Fault Refusal :=
  event (packet 2 queue s fun q b s => s.waitRead queue q b)

/-- QUEUE_WAIT_RESUME: a waiting queue reads its WAIT's ADDR again (R331). -/
def execQueueWaitResume (queue : Nat) (s : State) : Host.Outcome State Fault Refusal :=
  match aget s.queues queue with
  | none => event s
  | some q =>
    if !s.served q.cid || q.state ≠ 2 then event s
    else match s.slot q with
      | (.bad err, s) => event (s.setQState queue q 3 err)
      | (.packet op _ b, s) => if op = 2 then event (s.waitRead queue q b) else event s

/-- PACKET_SIGNAL. -/
def execPacketSignal (queue : Nat) (s : State) : Host.Outcome State Fault Refusal :=
  event (packet 3 queue s fun q b s =>
    match aget s.ctxs q.cid with
    | none => s
    | some ctx =>
      let w := agentOf q.cid ctx
      match tryAgent s w (writeVirt w (BitVec.ofNat 64 (field b 8 8)) 7 8 ((b.drop 0x10).take 8) 1 q.view [q.rel ctx.pid]) with
      | (some _, s) => s.consume queue
      | (none, s) => s.setQState queue q 3 6)

/-! ## Device-launch queues -/

/-- DEVICE_LAUNCH_QUEUE_TAKE: the front end takes the oldest record, and a LAUNCH that waits for room enters its own
(R430, R432). -/
def execDeviceLaunchQueueTake (cid sec : Nat) (s : State) : Host.Outcome State Fault Refusal :=
  let k := devKey cid sec
  if ((s.nextServed sec).map fun r => (r.dev, r.key)) ≠ some (true, k) then event s
  else match s.devQueue cid sec with
    | [] => event s
    | r :: rest =>
      let (n, s) := s.freshId
      let s := { s with devq := if rest.isEmpty then adel s.devq k else aset s.devq k rest, devTurn := aset s.devTurn k n }
      event ((s.acceptRecord cid sec { owner := r.ownerQ, ring := false, cap := r.prioCap, view := r.view } r.bytes).devAdmit cid sec)

/-! ## Busy queues (R333) -/

/-- The queue is busy. -/
def State.queueBusy (s : State) (k : Nat) (q : Queue) : Bool :=
  q.wr != q.rd || q.state == 1 || q.state == 2 || s.launches.any fun l => l.2.ownerQ == some k && !l.2.signaled

/-- A queue is unbound; its launches and armings end with ABORTED (R333). -/
def State.unbind (s : State) (k : Nat) : State :=
  let s := s.launches.foldl (fun s l => if l.2.ownerQ = some k && !l.2.signaled then
      (s.endLaunch l.1 stAborted).signal l.1 else s) s
  { s with queues := adel s.queues k }

/-! ## The restore of a context (R309, R310, R339) -/

/-- A saved thread in AWAIT tests its condition; a wait whose condition holds ends, that for the token included (R339). -/
def State.reawait (s : State) (tid : Nat) (a : AwaitSpec) : State :=
  match s.envOf tid a.pers with
  | none => s
  | some e =>
    let e := { e with th := { e.th with status := .ready } }
    match awaitRead e a s with
    | .ok v s' =>
      if awaitCond a.w64 a.cmp v a.b then
        let s' := s'.modThread tid fun t => { t with status := .ready }
        endOp a.op s' e (awaitEnd e a v s')
      else s'
    | .error _ s' => s.keepDraws s'

/-- The waits of a migrated context are re-evaluated: every AWAIT and every WAIT packet. -/
def State.reevaluate (s : State) (cid : Nat) : State :=
  let ts := s.threads.filterMap fun t => match t.2.status, aget s.cohorts (cohOf t.1) with
    | .awaiting a, some c => if c.cid = cid then some (t.1, a) else none
    | .token (.await a), some c => if c.cid = cid then some (t.1, a) else none
    | _, _ => none
  let s := ts.foldl (fun s t => s.reawait t.1 t.2) s
  (s.queues.filter fun q => q.2.cid == cid && q.2.state == 2).foldl (fun s q =>
    match s.slot q.2 with
    | (.packet 2 _ b, s) => s.waitRead q.1 q.2 b
    | (_, s) => s) s

/-- Every context of the partition that is being switched out is so: then the scheduler loads the next one (R310). -/
def State.partSaved (s : State) (pid : Nat) : Bool :=
  s.ctxs.all fun c => c.2.pid != pid || c.2.scheduled || s.switchedOut c.1

/-- Commands that named records of a context while it was out take effect (R295, R310). -/
def State.applyHeld (s : State) (cid : Nat) : State :=
  match aget s.ctxs cid with
  | none => s
  | some c =>
    c.held.foldl (fun s x => if x.2 then s.abortRecord cid x.1 else s.replay cid x.1) (s.modCtx cid fun c => { c with held := [] })

/-- CONTEXT_RESTORE: the scheduler loads the context and restores its walkers; its bins and queues go on, and its cohorts
are readmitted (R90, R112, R309, R310); a migrated one has its waits re-evaluated first (R339). A context that is
scheduled has its pre-empted launches restored. -/
def execContextRestore (cid : Nat) (s : State) : Host.Outcome State Fault Refusal :=
  match aget s.ctxs cid with
  | none => event s
  | some c =>
    if c.scheduled then
      let ls := s.preemptedOf cid
      let s := { s with launches := s.launches.map fun l => if ls.contains l.1 then (l.1, { l.2 with preempted := false }) else l }
      event (ls.foldl State.restoreWalkers s)
    else if s.partSaved c.pid then
      let s := if c.migrated then s.reevaluate cid else s
      let ls := (s.launchesOf cid).filter fun l => ((aget s.launches l).map Launch.preempted) == some false
      let s := s.modCtx cid fun c => { c with scheduled := true, migrated := false }
      event ((ls.foldl State.restoreWalkers s).applyHeld cid)
    else event s

end Sys2Proof.Machine
end

