-- ==== Sys2Proof/Machine/Predicate.lean ====
section
/-! DEFINITION. Predicate and warp-uniform instructions: PLOP3 and PMOV (R455, R456), WMOV and WALU (R506 to R508). -/

namespace Sys2Proof.Machine

/-- The bit of an 8-bit table that three predicates select (R456). -/
def lutBit (lut : BitVec 8) (a b c : Bool) : Bool :=
  lut.getLsbD ((if a then 4 else 0) + (if b then 2 else 0) + (if c then 1 else 0))

/-- PLOP3 (R455, R456). -/
def execPlop3 (h : Hdr) (d a b : BitVec 8) (c : BitVec 5) (lut : BitVec 8) (s : State) :
    Host.Outcome State Fault Refusal :=
  aluOp (.plop3 h d a b c lut) s fun e =>
    e.th.setP d.toNat (lutBit lut (e.th.psrc a) (e.th.psrc b) (e.th.psrc (c.setWidth 8)))

/-- PMOV.p2r (R456). -/
def execPmovP2r (h : Hdr) (d : Reg) (s : State) : Host.Outcome State Fault Refusal :=
  aluOp (.pmovP2r h d) s fun e => e.th.wr d (e.th.preds.setWidth 32)

/-- PMOV.r2p (R456). -/
def execPmovR2p (h : Hdr) (a b : Reg) (s : State) : Host.Outcome State Fault Refusal :=
  aluOp (.pmovR2p h a b) s fun e =>
    let m : BitVec 15 := (e.th.rd b).setWidth 15
    { e.th with preds := (e.th.preds &&& ~~~m) ||| ((e.th.rd a).setWidth 15 &&& m) }

/-- Writes a warp-uniform register for the executing thread, in the current bundle (R163); an earlier result in flight may
stand instead (R59). -/
def writeW (e : Env) (n : Nat) (v : Dword) : M Unit := fun s =>
  match keyIn e.th.lose (.w n) with
  | none => .ok () (s.modWarp e.warp fun w => w.wr s.bundle n e.lane v)
  | some p => .ok () ((s.modWarp e.warp fun w => w.wr s.bundle n e.lane p).modThread e.tid fun t =>
      { t with lose := t.lose.map fun k => if k.1 = .w n then (k.1, v) else k })

/-- A warp-uniform register as the executing thread reads it (R163, R59). -/
def Env.readW (e : Env) (s : State) (n : Nat) : Dword := (keyIn e.th.keep (.w n)).getD (e.w.rd s.bundle n)

/-- The executing thread's read of a warp-uniform register. -/
def readW (e : Env) (n : Nat) : M Dword := fun s => .ok (e.readW s n) s

/-- WMOV (R506, Table 21-4). -/
def execWmov (h : Hdr) (dir : WmovDir) (d a : Reg) (s : State) : Host.Outcome State Fault Refusal :=
  threadOp (.wmov h dir d a) s fun e => do
    match dir with
    | .toW => writeW e (wNum d) (e.th.rd64 a)
    | .fromW =>
      let v ← readW e (wNum a)
      modTh e fun t => t.wr64 d v
    | .wToW =>
      let v ← readW e (wNum a)
      writeW e (wNum d) v
    | .lo => writeW e (wNum d) ((e.th.rd a).setWidth 64)
    pure .done

/-- The operations of WALU on unsigned 64-bit values (R508). -/
def waluVal (op : WaluOp) (a b : Dword) : Dword :=
  match op with
  | .add => a + b
  | .sub => a - b
  | .and => a &&& b
  | .or => a ||| b
  | .xor => a ^^^ b
  | .shl => a <<< min b.toNat 64
  | .shr => a >>> min b.toNat 64
  | .minu => if a.toNat ≤ b.toNat then a else b
  | .maxu => if a.toNat ≤ b.toNat then b else a

/-- WALU (R507, R508). -/
def execWalu (h : Hdr) (op : WaluOp) (d a : BitVec 8) (b : WaluSrc) (s : State) : Host.Outcome State Fault Refusal :=
  threadOp (.walu h op d a b) s fun e => do
    let x ← readW e a.toNat
    let y ← match b with
      | .reg n => readW e n.toNat
      | .imm n => pure (n.setWidth 64)
    writeW e d.toNat (waluVal op x y)
    pure .done

end Sys2Proof.Machine
end

