-- ==== Sys2Proof/Machine/System.lean ====
section
/-! DEFINITION. System registers: RDSYS (R465, R466), WRSYS (R511, R512), with RAND (R463, R464), FEAT (R411) and WATCH
(R509, R510). -/

namespace Sys2Proof.Machine

/-! ## Reading -/

/-- SYS_IDENT (Table 2-4). -/
def Env.ident (e : Env) : Nat := e.lane + 32 * warpNo e.tid + 1024 * e.w.role + 2 ^ 16 * e.c.index

/-- SYS_GROUPS (Table 2-5). -/
def Cohort.groupsWord (c : Cohort) : Nat :=
  c.groups.getD 0 0 + 2 ^ 8 * c.groups.getD 1 0 + 2 ^ 16 * c.groups.getD 2 0 + 2 ^ 24 * c.groups.getD 3 0 +
    2 ^ 32 * c.groups.length

/-- SYS_CSDEPTH (Table 3-4). -/
def Thread.csdepth (t : Thread) : Nat := t.stack.length + 2 ^ 32 * t.spilled.toNat

/-- The value of a system register as the thread reads it (R466, Tables 7-8, 14-5 and 13-4). -/
def Env.sysReg (e : Env) (srn : Nat) : Dword :=
  let t := e.th
  let n := fun (x : Nat) => (BitVec.ofNat 64 x : Dword)
  match srn with
  | 0x000 => n e.ident
  | 0x001 => n e.logId
  | 0x002 => n (e.c.coord.getD 0 0)
  | 0x003 => n (e.c.coord.getD 1 0)
  | 0x004 => n (e.c.coord.getD 2 0)
  | 0x005 => n (e.c.coord.getD 3 0)
  | 0x006 => n e.c.groupsWord
  | 0x007 => e.c.param
  | 0x008 => e.c.binfire
  | 0x009 => n e.core
  | 0x00A => n e.cid
  | 0x00B => e.ctx.con.persdir
  | 0x100 => t.csp
  | 0x101 => n t.csdepth
  | 0x102 => t.flags.setWidth 64
  | 0x200 => addrOf t.emuPc
  | 0x201 => addrOf t.emuNext
  | 0x202 => t.emuWord
  | 0x203 => t.emuInfo
  | 0x300 => addrOf t.trapVec
  | 0x301 => addrOf t.trapPc
  | 0x302 => addrOf t.trapNext
  | 0x303 => t.trapCause + (if t.tf then n (2 ^ 20) else 0)
  | 0x304 => t.trapAddr
  | 0x305 => t.trapInfo
  | 0x310 => addrOf e.c.prevec
  | 0x311 => addrOf t.prePc
  | 0x312 => t.preLive
  | 0x313 => n ((if e.c.pending then 1 else 0) + (if t.preActive then 2 else 0))
  | 0x314 => e.ctx.con.codedir
  | 0x400 => t.wp0.addr
  | 0x401 => t.wp0.ctl
  | 0x402 => t.wp1.addr
  | 0x403 => t.wp1.ctl
  | _ => 0

/-- Flags of operations that have not retired: a read of SYS_FLAGS returns each operation's or not (R220, R249, R515). -/
def earlyFlags (fs : List (BitVec 7)) : M (BitVec 7) :=
  match fs with
  | [] => pure 0
  | g :: t => do
    let f ← earlyFlags t
    if g = 0 then pure f
    else
      let x ← pickM 2
      pure (if x = 0 then f else f ||| g)

/-- Flags that operations raised which have not retired for the thread. -/
def Env.lateOps (e : Env) : List (BitVec 7) := e.th.out.map OutOp.flags ++ e.c.matFlags e.warp

/-- RDSYS (R465, R466). -/
def execRdsys (h : Hdr) (lo : Bool) (srn : BitVec 12) (d : Reg) (s : State) : Host.Outcome State Fault Refusal :=
  threadOp (.rdsys h lo srn d) s fun e => do
    let f ← if srn = 0x102#12 then earlyFlags e.lateOps else pure 0
    modTh e fun t => t.wrW (!lo) d (e.sysReg srn.toNat ||| f.setWidth 64)
    pure .done

/-! ## Writing -/

/-- A watchpoint's ADDR is aligned to its range (Table 13-4). -/
def wpAligned (addr ctl : Dword) : Bool := addr.toNat % 2 ^ bitsOf ctl.toNat 8 4 == 0

/-- The fields of SYS_WPCTLn in a value: LOGSIZE at most 30, WHO not 3 (R287). -/
def wpCtlOk (ctl : Dword) : Bool := decide (bitsOf ctl.toNat 8 4 ≤ 30) && bitsOf ctl.toNat 10 9 != 3

/-- The writable bits of SYS_WPCTLn and of an ADDR register. -/
def wpCtlBits (v : Dword) : Dword := v &&& 0x7FF#64

def addrBits (v : Dword) : Dword := v &&& 0x01FFFFFFFFFFFFFF#64

/-- The new watchpoint of a write to SYS_WPADDRn or SYS_WPCTLn (R287). -/
def wpWrite (wp : Wp) (isCtl : Bool) (v : Dword) : M Wp :=
  if isCtl then
    if wpCtlOk v then pure { wp with ctl := wpCtlBits v } else throw (opFault .illegalOperand)
  else if wpAligned (addrBits v) wp.ctl then pure { wp with addr := addrBits v }
  else throw (opFault .illegalOperand)

/-- The places of the spills of a flush, oldest first, each checked (R66, R512). -/
def flushPlaces (e : Env) (csp : Dword) (spilled : Word) (n : Nat) : M (List Nat) :=
  match n with
  | 0 => pure []
  | n + 1 => do
    if { e.th with csp := csp, spilled := spilled }.stackFull then throw (opFault .callstack)
    let p ← checkPlace e.who (stackAcc (csp - 8) true)
    let rest ← flushPlaces e (csp - 8) (spilled + 1) n
    pure (p.key :: rest)

/-- Stores the entries of a flush. -/
def flushStores (e : Env) (ks : List Nat) (vs : List Dword) : M Unit :=
  match ks, vs with
  | k :: ks, v :: vs => do
    storeMine e none k (leBytes 8 v.toNat)
    flushStores e ks vs
  | _, _ => pure ()

/-- A write of SYS_CSDEPTH (R66, R512). -/
def writeCsdepth (e : Env) (v : Dword) : M Unit := do
  let sp : Word := v.extractLsb' 32 32
  if v.getLsbD 3 then
    let n := e.th.stack.length
    let ks ← flushPlaces e e.th.csp sp n
    flushStores e ks e.th.stack.reverse
    modTh e fun t => { t with stack := [], csp := t.csp - BitVec.ofNat 64 (8 * n), spilled := sp + BitVec.ofNat 32 n }
  else modTh e fun t => { t with spilled := sp }

/-- A handler vector: bits [6:0] must be zero (R301). -/
def vectorOf (v : Dword) : M VAddr :=
  if v.extractLsb' 0 7 = 0 then pure (v.setWidth 57) else throw (opFault .illegalOperand)

/-- A write of a system register by the executing thread (R512). -/
def writeSys (e : Env) (srn : Nat) (v : Dword) : M Unit := do
  match srn with
  | 0x100 => modTh e fun t => { t with csp := v &&& ~~~(7#64) }
  | 0x101 => writeCsdepth e v
  | 0x102 => modTh e fun t => { t with flags := t.flags &&& ~~~(v.setWidth 7) }
  | 0x201 =>
    if !e.th.handler then throw (opFault .illegalOperand)
    modTh e fun t => { t with emuNext := v.setWidth 57 }
  | 0x300 =>
    let a ← vectorOf v
    modTh e fun t => { t with trapVec := a }
  | 0x302 =>
    if !e.th.tf then throw (opFault .illegalOperand)
    modTh e fun t => { t with trapNext := v.setWidth 57 }
  | 0x310 =>
    let a ← vectorOf v
    modify fun s => s.modCohort e.coh fun c => { c with prevec := a }
  | 0x400 =>
    let w ← wpWrite e.th.wp0 false v
    modTh e fun t => { t with wp0 := w }
  | 0x401 =>
    let w ← wpWrite e.th.wp0 true v
    modTh e fun t => { t with wp0 := w }
  | 0x402 =>
    let w ← wpWrite e.th.wp1 false v
    modTh e fun t => { t with wp1 := w }
  | 0x403 =>
    let w ← wpWrite e.th.wp1 true v
    modTh e fun t => { t with wp1 := w }
  | _ => throw (opFault .illegalOperand)

/-- WRSYS (R511, R512). -/
def execWrsys (h : Hdr) (lo : Bool) (srn : BitVec 12) (a : Reg) (s : State) : Host.Outcome State Fault Refusal :=
  threadOp (.wrsys h lo srn a) s fun e => do
    writeSys e srn.toNat (e.th.rdW (!lo) a)
    pure .done

/-! ## RAND, FEAT, WATCH -/

/-- One round of Philox-4x32 on a counter of four words, with a key (R464). -/
def philoxRound (k0 k1 : Word) (c : Word × Word × Word × Word) : Word × Word × Word × Word :=
  let (c0, c1, c2, c3) := c
  let a : Dword := (0xD2511F53#64) * c0.setWidth 64
  let b : Dword := (0xCD9E8D57#64) * c2.setWidth 64
  (hiWord b ^^^ c1 ^^^ k0, loWord b, hiWord a ^^^ c3 ^^^ k1, loWord a)

/-- n rounds, the key advancing before each but the first (R464). -/
def philox (n : Nat) (k0 k1 : Word) (c : Word × Word × Word × Word) : Word × Word × Word × Word :=
  match n with
  | 0 => c
  | n + 1 => philox n (k0 + 0x9E3779B9#32) (k1 + 0xBB67AE85#32) (philoxRound k0 k1 c)

/-- RAND (R463, R464). -/
def execRand (h : Hdr) (d : Reg) (k : BitVec 8) (stream : BitVec 8) (s : State) : Host.Outcome State Fault Refusal :=
  aluOp (.rand h d k stream) s fun e =>
    let key := e.readW s k.toNat
    let ctr := e.readW s (k.toNat + 1) + BitVec.ofNat 64 e.lane
    let (c0, c1, c2, c3) := philox 10 (loWord key) (hiWord key) (loWord ctr, hiWord ctr, stream.setWidth 32, 0)
    (((e.th.wr d c0).wr (regPlus d 1) c1).wr (regPlus d 2) c2).wr (regPlus d 3) c3

/-- FEAT (R411). -/
def execFeat (h : Hdr) (d : Reg) (s : State) : Host.Outcome State Fault Refusal :=
  aluOp (.feat h d) s fun e => e.th.wr64 d e.ctx.features

/-- WATCH (R509, R510). -/
def execWatch (h : Hdr) (n : BitVec 8) (a b : Reg) (s : State) : Host.Outcome State Fault Refusal :=
  threadOp (.watch h n a b) s fun e => do
    if 2 ≤ n.toNat then throw (opFault .illegalOperand)
    let ptr := e.th.rd64 a
    if !ptrOk ptr then throw { kind := .addrForm, addr := ptr }
    let addr := addrOf (vaOf ptr)
    let ctl : Dword := (e.th.rd b).setWidth 64
    if !wpCtlOk ctl || !wpAligned addr ctl then throw (opFault .illegalOperand)
    let wp : Wp := { addr := addr, ctl := wpCtlBits ctl }
    modTh e fun t => if n = 0 then { t with wp0 := wp } else { t with wp1 := wp }
    pure .done

end Sys2Proof.Machine
end

