-- ==== Sys2Proof/Machine/Admin.lean ====
section
/-! DEFINITION. Admin rings and owner commands (R326 to R330, R333, R334, R336 to R339). -/

namespace Sys2Proof.Machine

/-! ## Statuses (Table 16-11) -/

def adOk : Nat := 0x0000
def adBadDesc : Nat := 0x0001
def adBadRev : Nat := 0x0002
def adBusy : Nat := 0x0003
def adContract : Nat := 0x0004
def adNotReady : Nat := 0x0005
def adBadOpcode : Nat := 0x0006
def adDenied : Nat := 0x0007
def adBadArg : Nat := 0x0008
def adRefused : Nat := 0x0009

/-! ## The admin ring (R327, R328) -/

def State.modFunc (s : State) (fn : Nat) (f : Func → Func) : State :=
  { s with hub := { s.hub with funcs := amod s.hub.funcs fn f } }

/-- The firmware turns to other work first. -/
def State.first (s : State) (i : Instr) : State := { s with agenda := i :: s.agenda }

/-- The completion record of a command, a release at system scope after the writes of a view (R327). -/
def State.complRecord (s : State) (compl status result : Nat) (view : List Nat) : State :=
  s.writeMem (hostKey compl) (adminRecord status 0 result) view [{ insts := hostInsts, view := view }]

/-- The entry at ADM_RDIDX is done: ADM_RDIDX advances (R328). -/
def State.retireEntry (s : State) (fn : Nat) : State :=
  s.modFunc fn fun f => { f with admRd := (f.admRd + 1) % 2 ^ 32, cmd := none, stage := 0 }

/-- A command completes: its record is written, and where it came from the ring, its entry is done. -/
def State.complete (s : State) (fn compl status result : Nat) (view : List Nat) : State :=
  let s := s.complRecord compl status result view
  match aget s.hub.funcs fn with
  | none => s
  | some f => if f.cmd.isSome then s.retireEntry fn else s.modFunc fn fun f => { f with stage := 0 }

/-- Bytes that firmware reads after the writes of a view; it may miss others (R253, R268). -/
def State.firmRead (s : State) (view : List Nat) (key n : Nat) : List Byte × State :=
  let (cur, s) := s.readMem key n
  let (b, _, s) := s.observe { view := view } [] (fun _ => none) key cur
  (b, s)

/-- Firmware reads n 8-byte words as acquires at system scope: the bytes, and the writes that then happen before what it
does next (R328). -/
def State.firmAcquire (s : State) (view : List Nat) (key n : Nat) : List Byte × List Nat × State :=
  match n with
  | 0 => ([], view, s)
  | n + 1 =>
    let (cur, s) := s.readMem key 8
    let (b, o, s) := s.observe { view := view } hostInsts (fun _ => some hostInsts) key cur
    let (t, v, s) := s.firmAcquire (joinView o.view o.must) (key + 8) n
    (b ++ t, v, s)

/-- The writes that the units of the module have made since a number was the next. -/
def State.madeSince (s : State) (from_ : Nat) : List Nat := (s.hist.filter fun m => m.agent && decide (from_ ≤ m.ts)).map Msg.ts

/-- What a command comes to: a status with a result, or a wait, in which its entry stays in the ring. -/
inductive Done where
  | done (status : Nat) (result : Nat := 0)
  | wait
  deriving DecidableEq, Repr

/-- The frame of an owner command of a function that is served; its completion covers the writes that it has made. -/
def command (fn compl : Nat) (s : State) (act : Func → State → Done × State) : Host.Outcome State Fault Refusal :=
  match aget s.hub.funcs fn with
  | none => event s
  | some f =>
    if f.frozen then event s
    else match act f s with
      | (.done st r, s') => event (s'.complete fn compl st r (joinView f.view (s'.madeSince s.nextId)))
      | (.wait, s') => event s'

/-- The command that the bytes of an entry hold (Table 16-4); the places of its arguments are free (log entry 5). -/
def entryCommand (fn : Nat) (b : List Byte) : Option Instr :=
  let a := fun k => Config.adminArg k b
  let c := Config.adminCompl b
  let d := fun k => (BitVec.ofNat 64 (a k) : Dword)
  match field b 0 2 with
  | 0x01 => some (.ctxCreate fn c (a 0))
  | 0x02 => some (.ctxDestroy fn c (a 0))
  | 0x03 => some (.qBind fn c (a 0) (a 1) (a 2))
  | 0x04 => some (.qUnbind fn c (a 0) (a 1))
  | 0x05 => some (.faultReplay fn c (a 0) (a 1))
  | 0x06 => some (.faultAbort fn c (a 0) (a 1))
  | 0x07 => some (.shootdown fn c (a 0) (a 1) (a 2))
  | 0x08 => some (.frameAssign fn c (a 0) (a 1) (a 2))
  | 0x09 => some (.frameRelease fn c (a 0) (a 1) (a 2))
  | 0x0A => some (.watchSet fn c (a 0) (a 1) (a 2) (a 3) (d 4) (d 5))
  | 0x0B => some (.binAbort fn c (a 0) (a 1))
  | 0x0C => some (.migSave fn c (a 0))
  | 0x0D => some (.migRestore fn c (a 0))
  | 0x20 => if fn = 0 then some (.partSet fn c (a 0)) else none
  | 0x21 => if fn = 0 then some (.partReset fn c (a 0)) else none
  | 0x22 => if fn = 0 then some (.gangAssign fn c (a 0) ((List.range (a 1 % 5)).map fun k => a (k + 2)) (a 6 == 1)) else none
  | _ => none

/-- Firmware reads the next entry of a ring, an acquire at system scope, and turns to its command; an entry without one
completes with BAD_OPCODE (R328). Entries are served one at a time, up to ADM_WRIDX as the last doorbell found it. -/
def State.nextEntry (s : State) (fn : Nat) : State :=
  match aget s.hub.funcs fn with
  | none => s
  | some f =>
    if f.frozen || f.admBase = 0 || f.admRd = f.admTo || f.cmd.isSome then s
    else
      let (b, v, s) := s.firmAcquire f.view (hostKey (f.admBase.toNat + 64 * (f.admRd % 2 ^ f.admLog))) 8
      let s := s.modFunc fn fun f => { f with view := v }
      match entryCommand fn b with
      | some i => (s.modFunc fn fun f => { f with cmd := some i }).first i
      | none => (s.complRecord (Config.adminCompl b) adBadOpcode 0 v).retireEntry fn

/-- ADMIN_DOORBELL: a write of 1 to ADM_DB, at which firmware reads ADM_WRIDX and serves the ring (R328). -/
def execAdminDoorbell (fn : Nat) (s : State) : Host.Outcome State Fault Refusal :=
  match aget s.hub.funcs fn with
  | none => event s
  | some f =>
    if f.frozen then event s
    else event ((s.modFunc fn fun f => { f with admTo := f.admWr }).nextEntry fn)

/-- ADM_BASE_WRITE: ignored while the ring is busy; else both indices become 0 (R328). -/
def execAdmBaseWrite (fn : Nat) (v : Dword) (s : State) : Host.Outcome State Fault Refusal :=
  event (s.modFunc fn fun f =>
    if f.admWr = f.admRd then { f with admBase := v, admWr := 0, admRd := 0, admTo := 0, cmd := none } else f)

/-! ## Shared parts of commands -/

/-- The context that a command names: a VF may name its own only (R327). -/
def State.named (s : State) (fn : Nat) (f : Func) (cid : Nat) : Except Nat Ctx :=
  match aget s.ctxs cid with
  | none => .error (if f.isPf then adBadArg else adDenied)
  | some c => if f.isPf || c.fn == fn then .ok c else .error adDenied

/-- A command on a context. -/
def onContext (fn compl cid : Nat) (s : State) (act : Func → Ctx → State → Done × State) : Host.Outcome State Fault Refusal :=
  command fn compl s fun f s =>
    match s.named fn f cid with
    | .error st => (.done st, s)
    | .ok c => act f c s

/-- A section of a partition has a quiesce request: it takes no new binds and contexts (R343). -/
def State.quiescing (s : State) (secs : List Nat) : Bool :=
  secs.any fun n => s.hub.qReq.getLsbD n && !s.hub.qRefused.getLsbD n

/-- Drops TLB entries that a test selects (R279). -/
def State.dropTlb (s : State) (p : Seen → Bool) : State :=
  { s with seen := s.seen.filter fun v => !((v.what == 3 || v.what == 4) && p v) }

/-- The page of a TLB tag, which is its number and its size, meets a virtual range. -/
def tagMeets (tag va len : Nat) : Bool := rangesMeet (tag / 64 * 2 ^ (tag % 64)) (2 ^ (tag % 64)) va len

/-- A stash line was filled from a page that meets the range: the page of its leaf in memory or of one that a TLB may hold
(R238). -/
def State.lineShot (s : State) (w : Who) (l : StashLine) (va len : Nat) : Bool :=
  let a := (vaOf l.va).toNat
  rangesMeet a 128 va len ||
    (match s.walk w (vaOf l.va) with
      | .leaf _ log => tagMeets (pageTag a log) va len
      | _ => false) ||
    s.seen.any fun v => v.what == 3 && v.cid == w.cid && v.addr == pageTag a (v.addr % 64) && tagMeets v.addr va len

/-- Recalls the stash lines of cohorts that a test selects (R238). -/
def State.recallLines (s : State) (p : Cohort → StashLine → Bool) : State :=
  s.cohorts.foldl (fun s c => s.flushLines c.1 (fun n => match aget c.2.lines n with
    | some l => p c.2 l
    | none => false) true) s

/-- A shootdown of a virtual range of a context: every stash line filled from a page of it is recalled, and the TLBs of its
partition drop its leaves and the entries above them (R279, R238, Table 16-4). -/
def State.shoot (s : State) (cid va len : Nat) : State :=
  match aget s.ctxs cid with
  | none => s
  | some ctx =>
    let s := s.recallLines fun c l => c.cid == cid && s.lineShot (agentOf cid ctx) l va len
    s.dropTlb fun v => v.cid == cid && tagMeets v.addr va len

/-- The buffered stores of a context's threads are marked, or tested for the mark: a shootdown waits for them (R327). -/
def State.markStores (s : State) (cids : List Nat) : State :=
  { s with threads := s.threads.map fun t =>
      if ((aget s.cohorts (cohOf t.1)).map fun c => cids.contains c.cid) == some true then
        (t.1, { t.2 with exp := t.2.exp.map fun x => { x with stores := x.stores.map fun b => { b with awaited := !b.scratch } } })
      else t }

def State.storesAwaited (s : State) (cids : List Nat) : Bool :=
  s.threads.any fun t => ((aget s.cohorts (cohOf t.1)).map fun c => cids.contains c.cid) == some true &&
    (((t.2.exp.map Exp.stores).getD []) ++ t.2.commits).any BufStore.awaited

/-- A leaf that a TLB of the partition may hold reaches frames [lo, lo + n). -/
def State.leafReaches (s : State) (pid lo n : Nat) (v : Seen) : Bool :=
  v.what == 3 && s.pidOf (v.cluster / 16) == pid && v.vals.any fun b =>
    let pte := leNat b
    bitsOf pte 51 50 == 0 && rangesMeet (bitsOf pte 51 16) (2 ^ (v.addr % 64) / 2 ^ 16) lo n

/-- Frames of a partition become FREE with zero bytes and tag 0, and no TLB or stash holds them (R336). -/
def State.scrub (s : State) (pid lo n : Nat) : State :=
  let a := pid * 2 ^ 50 + lo * 2 ^ 16
  let z := a + n * 2 ^ 16
  let s := (s.dropTlb fun v => s.leafReaches pid lo n v).dropWrites a (z - a)
  { s with
    mem := s.mem.filter fun c => !(a ≤ c.1 && c.1 < z)
    tags := s.tags.filter fun t => !(a ≤ 32 * t.1 && 32 * t.1 < z)
    cohorts := s.cohorts.map fun c => (c.1, { c.2 with lines := c.2.lines.filter fun l => !(l.2.overlaps a (z - a)) })
    hub := { s.hub with frames := s.hub.frames.filter fun f => !(frameKey pid lo ≤ f.1 && f.1 < frameKey pid (lo + n)) } }

/-- Frames that a context owns or that are on their way from it to FREE, as numbers in its partition. -/
def State.framesOf (s : State) (pid cid : Nat) : List Nat :=
  s.hub.frames.filterMap fun f =>
    if f.1 / 2 ^ 34 = pid && (f.2 == .owned cid || f.2 == .scrubbing cid) then some (f.1 % 2 ^ 34) else none

/-! ## CTX_CREATE and CTX_DESTROY (R326, R337) -/

/-- The contract in 64 bytes. -/
def contractOf (b : List Byte) : Contract :=
  let w := field b 0x30 4
  let d := fun o => (BitVec.ofNat 64 (field b o 8) : Dword)
  { ptroot := field b 0 8, persdir := d 8, fmttab := d 0x10, fqbase := d 0x18, codedir := d 0x20, featmask := d 0x28,
    fqlog := bitsOf w 4 0, ceil := bitsOf w 7 5, scopeTrap := bitsOf w 8 8 == 1, sbCheck := bitsOf w 9 9 == 1,
    textenc := bitsOf w 10 10 == 1, gangid := field b 0x34 2 }

/-- The descriptor meets Table 16-3. A non-zero reserved bit breaks the table, where R326 names no check on reserved bits
as such and R9 has it ignored without one (DESIGN CHOICE, log entry 40). -/
def descOk (b : List Byte) (c : Contract) : Bool :=
  c.ptroot % 4096 == 0 && c.persdir.toNat % 256 == 0 && c.fmttab.toNat % 2048 == 0 && c.fqbase.toNat % 64 == 0 &&
    c.codedir.toNat % 64 == 0 && decide (4 ≤ c.fqlog) && decide (c.fqlog ≤ 16) && decide (4 ≤ c.ceil) &&
    bitsOf (field b 0x30 4) 31 11 == 0 && field b 0x36 2 == 0 && field b 0x38 8 == 0

/-- The header of a new context's fault queue: WRIDX and RDIDX are 0 (R293, Table 14-3). Where it cannot be written yet,
since no frame is the context's, it is so before the first post (log entry 25). -/
def State.fqHeader (s : State) (cid : Nat) (ctx : Ctx) : State :=
  (tryAgent s (agentOf cid ctx) (writeVirt (agentOf cid ctx) (untag ctx.con.fqbase) 7 8 (leBytes 8 0) 1)).2

/-- CTX_CREATE (R326, R334, R345), which the plug-in of a VF admits or refuses (R335). Which free CID it assigns is
firmware's choice. -/
def execCtxCreate (fn compl desc : Nat) (s : State) : Host.Outcome State Fault Refusal :=
  command fn compl s fun f s =>
    if s.hub.phase ≠ .full then (.done adNotReady, s)
    else if s.quiescing (s.sectionsOf f.pid) then (.wait, s)
    else
      let (b, s) := s.firmRead f.view (hostKey desc) 64
      let con := contractOf b
      if !descOk b con || (con.gangid ≠ 0 && !f.gangs.contains con.gangid) then (.done adBadDesc, s)
      else if con.gangid ≠ 0 && s.ctxs.any (fun c => c.2.fn == fn && c.2.con.gangid == con.gangid) then (.done adBusy, s)
      else
        match (if f.isPf then none else Config.admission f.plugin fn b), (List.range 4096).filter fun c => (aget s.ctxs c).isNone with
        | some st, _ => (.done st, s)
        | none, [] => (.done adBusy, s)
        | none, free =>
          let (i, s) := s.pick free.length
          let cid := free.getD i 0
          let ctx : Ctx := { fn := fn, pid := f.pid, con := con }
          (.done adOk cid, State.fqHeader { s with ctxs := aset s.ctxs cid ctx } cid ctx)

/-- Records still in the device-launch queues of a context complete with ABORTED (R432). -/
def State.abortDevq (s : State) (cid : Nat) : State :=
  let mine := s.devq.filter fun q => q.1 / 4 == cid
  let s := { s with devq := s.devq.filter fun q => q.1 / 4 != cid, devTurn := s.devTurn.filter fun q => q.1 / 4 != cid }
  (mine.flatMap fun q => q.2.map fun r => (q.1 % 4, r)).foldl (fun s x =>
    match aget s.ctxs cid with
    | none => s
    | some ctx =>
      let (lid, s) := s.addLaunch
        { cid := cid, pid := ctx.pid, sec := x.1, rc := (recordOf x.2.bytes).capped x.2.prioCap, ownerQ := x.2.ownerQ }
      s.refuse lid stAborted) s

/-- The context is gone: its queues are unbound, its frames free, and nothing tagged with its CID is left (R336, R337). -/
def State.dropContext (s : State) (cid : Nat) (ctx : Ctx) : State :=
  let s := { s with
    queues := s.queues.filter fun q => q.2.cid != cid
    devq := s.devq.filter fun q => q.1 / 4 != cid
    devTurn := s.devTurn.filter fun q => q.1 / 4 != cid
    seen := s.seen.filter fun v => v.cid != cid
    hub := { s.hub with coreWps := s.hub.coreWps.filter fun w => w.2.cid != cid } }
  let s := (s.framesOf ctx.pid cid).foldl (fun s f => s.scrub ctx.pid f 1) s
  { s with ctxs := adel s.ctxs cid }

/-- CTX_DESTROY (Table 16-4). -/
def execCtxDestroy (fn compl cid : Nat) (s : State) : Host.Outcome State Fault Refusal :=
  onContext fn compl cid s fun _ c s =>
    let s := s.launches.foldl (fun s l => if l.2.cid = cid && !l.2.signaled then (s.endLaunch l.1 stAborted).signal l.1 else s) s
    (.done adOk, (s.abortDevq cid).dropContext cid c)

/-! ## Q_BIND and Q_UNBIND (R330, R333) -/

/-- The privileged words of a QCB in which a bit is reserved have it zero, and their fields are in range. -/
def qcbOk (b : List Byte) : Bool :=
  field b 0 8 % 256 == 0 && decide (4 ≤ bitsOf (field b 8 4) 4 0) && decide (bitsOf (field b 8 4) 4 0 ≤ 16) &&
    bitsOf (field b 8 4) 31 8 == 0 && bitsOf (field b 0xC 4) 31 16 == 0

/-- Q_BIND (R330). -/
def execQBind (fn compl cid qcb sec : Nat) (s : State) : Host.Outcome State Fault Refusal :=
  onContext fn compl cid s fun _ c s =>
    if 4 ≤ sec || s.pidOf sec ≠ c.pid then (.done adBadArg, s)
    else if s.quiescing [sec] then (.wait, s)
    else if qcb % 128 ≠ 0 then (.done adBadArg, s)
    else
      let ptr : Dword := BitVec.ofNat 64 qcb
      match s.agentRead (agentOf cid c) ptr 128 s.agentWrites with
      | (none, s) => (.done adBadArg, s)
      | (some b, s) =>
        if !qcbOk b then (.done adBadArg, s)
        else if field b 0xC 2 ≠ 1 then (.done adBadRev, s)
        else
          let used := s.queues.filterMap fun q => if q.2.sec = sec then some q.2.qn else none
          match (List.range 256).find? fun n => !used.contains n with
          | none => (.done adBusy, s)
          | some qn =>
            let (k, s) := s.freshId
            let q : Queue :=
              { fn := fn, cid := cid, sec := sec, qn := qn, qcb := ptr, ringbase := BitVec.ofNat 64 (field b 0 8),
                ringlog := bitsOf (field b 8 4) 4 0, priomax := bitsOf (field b 8 4) 7 5, rev := field b 0xC 2 }
            (.done adOk qn, State.qcbWrite { s with queues := aset s.queues k q } q 0x40 4 (leBytes 64 0))

/-- Q_UNBIND (R333). -/
def execQUnbind (fn compl sec qn : Nat) (s : State) : Host.Outcome State Fault Refusal :=
  command fn compl s fun f s =>
    match s.queues.find? fun q => q.2.sec == sec && q.2.qn == qn with
    | none => (.done (if f.isPf then adBadArg else adDenied), s)
    | some (k, q) => if !f.isPf && q.fn != fn then (.done adDenied, s) else (.done adOk, s.unbind k)

/-! ## Fault commands, shootdown, frames, watchpoints, bins -/

/-- A command on a switched-out context takes effect after its restore (R295, R310). -/
def State.holdCommand (s : State) (cid n : Nat) (abort : Bool) : State :=
  s.modCtx cid fun c => { c with held := c.held ++ [(n, abort)] }

/-- FAULT_REPLAY (R295). -/
def execFaultReplay (fn compl cid idx : Nat) (s : State) : Host.Outcome State Fault Refusal :=
  onContext fn compl cid s fun _ c s =>
    match c.recordAt idx with
    | none => (.done adBadArg, s)
    | some n => (.done adOk, if c.scheduled then s.replay cid n else s.holdCommand cid n false)

/-- FAULT_ABORT (R295). -/
def execFaultAbort (fn compl cid idx : Nat) (s : State) : Host.Outcome State Fault Refusal :=
  onContext fn compl cid s fun _ c s =>
    match c.recordAt idx with
    | none => (.done adBadArg, s)
    | some n => (.done adOk, if c.scheduled then s.abortRecord cid n else s.holdCommand cid n true)

/-- Sets how far a function's waiting command has come. -/
def State.setStage (s : State) (fn n : Nat) : State := s.modFunc fn fun f => { f with stage := n }

/-- A command that begins with shootdowns: they are made once, and what follows comes when every access that used an old
leaf has been performed, for every observer (R327). -/
def State.afterShoot (s : State) (fn : Nat) (f : Func) (cids : List Nat) (shoot : State → State) (then_ : State → Done × State) :
    Done × State :=
  let s := if f.stage = 0 then (shoot s).markStores cids else s
  if s.storesAwaited cids then (.wait, s.setStage fn 1) else then_ s.performAll

/-- SHOOTDOWN (R279, Table 16-4). -/
def execShootdown (fn compl cid va len : Nat) (s : State) : Host.Outcome State Fault Refusal :=
  onContext fn compl cid s fun f _ s =>
    s.afterShoot fn f [cid] (fun s => s.shoot cid va len) fun s => (.done adOk, s)

/-- Frames [frame, frame + n) lie in a partition. -/
def State.framesIn (s : State) (pid frame n : Nat) : Bool := decide (2 ^ 16 * (frame + n) ≤ s.partBytes pid)

/-- FRAME_ASSIGN (R336). -/
def execFrameAssign (fn compl cid frame n : Nat) (s : State) : Host.Outcome State Fault Refusal :=
  onContext fn compl cid s fun _ c s =>
    let ks := (List.range n).map fun i => frameKey c.pid (frame + i)
    if !s.framesIn c.pid frame n then (.done adBadArg, s)
    else if ks.any fun k => (aget s.hub.frames k).isSome then (.done adBusy, s)
    else (.done adOk, { s with hub := { s.hub with frames := ks.foldl (fun m k => aset m k (.owned cid)) s.hub.frames } })

/-- Contexts whose TLB entries reach frames of a partition. -/
def State.reachers (s : State) (pid lo n : Nat) : List Nat :=
  ((s.seen.filter fun v => s.leafReaches pid lo n v).map Seen.cid).eraseDups

/-- The shootdown of every context whose TLB entries reach frames, of the pages that do (R336, step 1). -/
def State.shootFrames (s : State) (pid lo n : Nat) : State :=
  (s.seen.filter fun v => s.leafReaches pid lo n v).foldl (fun s v =>
    s.shoot v.cid (v.addr / 64 * 2 ^ (v.addr % 64)) (2 ^ (v.addr % 64))) s

/-- FRAME_RELEASE (R336): the frames must be the context's. The shootdowns come first, then the frames are SCRUBBING, and
then they are zero and FREE. -/
def execFrameRelease (fn compl cid frame n : Nat) (s : State) : Host.Outcome State Fault Refusal :=
  onContext fn compl cid s fun f c s =>
    let ks := (List.range n).map fun i => frameKey c.pid (frame + i)
    if !s.framesIn c.pid frame n then (.done adBadArg, s)
    else if f.stage = 2 && ks.all (fun k => aget s.hub.frames k == some (.scrubbing cid)) then
      (.done adOk, s.scrub c.pid frame n)
    else if !(ks.all fun k => aget s.hub.frames k == some (.owned cid)) then (.done (if f.isPf then adBadArg else adDenied), s)
    else
      s.afterShoot fn f (cid :: s.reachers c.pid frame n) (fun s => s.shootFrames c.pid frame n) fun s =>
        (.wait, State.setStage { s with hub := { s.hub with
          frames := ks.foldl (fun m k => aset m k (.scrubbing cid)) s.hub.frames } } fn 2)

/-- Cores of the instance of a watchpoint's scope around a core (R287). -/
def State.watchCores (s : State) (pid scope core : Nat) : List Nat :=
  (s.coresOf pid).filter fun c =>
    if scope = 2 then c == core else if scope = 3 then clusterOf c == clusterOf core
    else if scope = 4 then secOfCore c == secOfCore core else true

/-- WATCH_SET (R287): a slot of a core watchpoint, in every core of the scope's instance. -/
def execWatchSet (fn compl cid slot scope core : Nat) (addr ctl : Dword) (s : State) : Host.Outcome State Fault Refusal :=
  onContext fn compl cid s fun _ c s =>
    if 8 ≤ slot || scope < 2 || 5 < scope || !(s.coresOf c.pid).contains core || !wpCtlOk ctl || !wpAligned addr ctl then
      (.done adBadArg, s)
    else
      let wp : CoreWp := { cid := cid, addr := addrBits addr, ctl := wpCtlBits ctl }
      (.done adOk, { s with hub := { s.hub with
        coreWps := (s.watchCores c.pid scope core).foldl (fun m k => aset m (k * 8 + slot) wp) s.hub.coreWps } })

/-- BIN_ABORT (R110). -/
def execBinAbort (fn compl sec bin : Nat) (s : State) : Host.Outcome State Fault Refusal :=
  command fn compl s fun f s =>
    if 4 ≤ sec || 512 ≤ bin then (.done adBadArg, s)
    else match s.armed (binKey sec bin) with
      | none => (.done adBadArg, s)
      | some (b, l) =>
        match s.named fn f l.cid with
        | .error st => (.done st, s)
        | .ok _ => (.done adOk, (s.endLaunch b.launch stAborted).signal b.launch)

/-! ## Migration (R338, R339) -/

/-- The image of a context that is switched out. -/
def State.imageOf (s : State) (cid : Nat) (c : Ctx) : Image :=
  let mine := (s.launches.filter fun l => l.2.cid == cid && !l.2.signaled)
  let cohs := s.cohorts.filter fun x => x.2.cid == cid
  let has := fun k => (aget cohs k).isSome
  { con := c.con, feat := c.features, secs := s.sectionsOf c.pid, ctx := c, queues := s.queues.filter fun q => q.2.cid == cid
    launches := mine, bins := s.bins.filter fun b => (aget mine b.2.launch).isSome, cohorts := cohs
    warps := s.warps.filter fun w => has (w.1 / 32), threads := s.threads.filter fun t => has (cohOf t.1)
    copies := s.copies.filter fun x => has x.2.coh, devq := s.devq.filter fun q => q.1 / 4 == cid }

/-- MIG_SAVE: switches the context out, and writes its image once every cohort is saved; the result is the image's
number. -/
def execMigSave (fn compl cid : Nat) (s : State) : Host.Outcome State Fault Refusal :=
  onContext fn compl cid s fun _ c s =>
    if c.scheduled then (.wait, s.switchOut cid)
    else if !s.switchedOut cid then (.wait, s)
    else
      let (n, s) := s.freshId
      (.done adOk n, { s with hub := { s.hub with images := aset s.hub.images n (s.imageOf cid c) } })

/-- A section of the source as the section of the same place at the destination. -/
def mapSec (src dst : List Nat) (sec : Nat) : Nat :=
  match firstIdx (· == sec) src with
  | none => sec
  | some i => dst.getD i sec

/-- A waiting thread at the destination. -/
def mapStatus (m : Nat → Nat) (t : TStatus) : TStatus :=
  match t with
  | .binWait (.push sec bin d) p i => .binWait (.push (m sec) bin d) p i
  | .binWait (.drain sec bin c) p i => .binWait (.drain (m sec) bin c) p i
  | .devWait sec n b p i => .devWait (m sec) n b p i
  | .parkedBin sec bin x => .parkedBin (m sec) bin x
  | t => t

/-- A launch at the destination. -/
def Launch.moved (l : Launch) (m : Nat → Nat) (cid pid : Nat) : Launch :=
  let ps := fun (rs : List PendRange) => rs.map fun p => { p with sec := m p.sec }
  { l with cid := cid, pid := pid, sec := m l.sec, pend := ps l.pend, saved := ps l.saved }

/-- Writes every entry of a map over another. -/
def overlayMap {α : Type} (base new : Assoc α) : Assoc α := new.foldl (fun m e => aset m e.1 e.2) base

/-- The objects of an image as a context with a new CID, out of which it is scheduled (R309, R339). The objects keep
their numbers: where the source context still stands in the module, they are its no more. A queue keeps its queue number
too, also where another queue of the section has that number: the spec gives none for it then (DESIGN CHOICE, log entry
30). -/
def State.install (s : State) (im : Image) (fn cid pid : Nat) : State :=
  let m := mapSec im.secs (s.sectionsOf pid)
  let devs := im.devq.map fun q => (devKey cid (m (q.1 % 4)), q.2)
  let bins := im.bins.map fun b => (binKey (m (b.1 / 512)) (b.1 % 512), b.2)
  let s := { s with bins := s.bins.filter fun b => (aget im.launches b.2.launch).isNone }
  let s := { s with
    ctxs := aset s.ctxs cid { im.ctx with fn := fn, pid := pid, scheduled := false, migrated := true }
    queues := overlayMap s.queues (im.queues.map fun q => (q.1, { q.2 with fn := fn, cid := cid, sec := m q.2.sec }))
    launches := overlayMap s.launches (im.launches.map fun l => (l.1, l.2.moved m cid pid))
    bins := overlayMap s.bins bins
    cohorts := overlayMap s.cohorts (im.cohorts.map fun c => (c.1, { c.2 with cid := cid, core := none, saved := true }))
    warps := overlayMap s.warps im.warps
    threads := overlayMap s.threads (im.threads.map fun t => (t.1, { t.2 with status := mapStatus m t.2.status }))
    copies := overlayMap s.copies im.copies
    devq := overlayMap s.devq devs }
  s

/-- The bins of an image are free at the destination. -/
def State.binsFree (s : State) (im : Image) (pid : Nat) : Bool :=
  let m := mapSec im.secs (s.sectionsOf pid)
  im.bins.all fun b => match aget s.bins (binKey (m (b.1 / 512)) (b.1 % 512)) with
    | none => true
    | some x => (aget im.launches x.launch).isSome

/-- MIG_RESTORE: CONTRACT where the shape differs, the silicon lacks a feature, or a bin is taken (R338); the context may
carry its GANGID under the conditions of CTX_CREATE (R334). The result is the new CID. -/
def execMigRestore (fn compl image : Nat) (s : State) : Host.Outcome State Fault Refusal :=
  command fn compl s fun f s =>
    match aget s.hub.images image with
    | none => (.done adBadArg, s)
    | some im =>
      if s.hub.phase ≠ .full then (.done adNotReady, s)
      else if im.con.gangid ≠ 0 && !f.gangs.contains im.con.gangid then (.done adBadDesc, s)
      else if im.con.gangid ≠ 0 && s.ctxs.any (fun c => c.2.fn == fn && c.2.con.gangid == im.con.gangid) then (.done adBusy, s)
      else if im.secs.length ≠ (s.sectionsOf f.pid).length || im.feat &&& ~~~(Config.siliconFeatures ||| 1#64) ≠ 0 ||
          !s.binsFree im f.pid then (.done adContract, s)
      else
        let free := (List.range 4096).filter fun c => (aget s.ctxs c).isNone
        match free with
        | [] => (.done adBusy, s)
        | _ =>
          let (i, s) := s.pick free.length
          let cid := free.getD i 0
          let s := s.install im fn cid f.pid
          (.done adOk cid, { s with hub := { s.hub with images := adel s.hub.images image } })

/-! ## Gang sets (R334) -/

/-- GANG_ASSIGN: gives a GANGID to functions of distinct partitions, or withdraws it. -/
def execGangAssign (fn compl gang : Nat) (fns : List Nat) (withdraw : Bool) (s : State) : Host.Outcome State Fault Refusal :=
  command fn compl s fun f s =>
    let fs := fns.filterMap fun n => (aget s.hub.funcs n).map fun x => (n, x)
    let others := s.hub.funcs.filter fun x => x.2.gangs.contains gang && !fns.contains x.1
    let pids := (fs ++ others).map fun x => x.2.pid
    if !f.isPf then (.done adBadOpcode, s)
    else if gang = 0 || 2 ^ 16 ≤ gang || fs.length ≠ fns.length then (.done adBadArg, s)
    else if withdraw then
      (.done adOk, fns.foldl (fun s n => s.modFunc n fun x => { x with gangs := x.gangs.filter (· != gang) }) s)
    else if 4 < fs.length || pids.eraseDups.length ≠ pids.length then (.done adBadArg, s)
    else (.done adOk, fns.foldl (fun s n => s.modFunc n fun x => { x with gangs := insertNat gang x.gangs }) s)

end Sys2Proof.Machine
end

