-- ==== Sys2Proof/Machine/Firmware.lean ====
section
/-! DEFINITION. Partitions and the hub's registers (R342 to R344, Table 16-6), partition reset, and register writes
(Tables 16-6 and 16-10). -/

namespace Sys2Proof.Machine

/-! ## Configurations (R22, R20) -/

/-- PIDs of the sections in a PID field. -/
def pidsOf (cfg : BitVec 8) : List Nat := (List.range 4).map fun n => bitsOf cfg.toNat (2 * n + 1) (2 * n)

/-- The configurations of R22. -/
def configOk (cfg : BitVec 8) : Bool :=
  [[0, 1, 2, 3], [0, 0, 2, 3], [0, 1, 2, 2], [0, 0, 2, 2], [0, 0, 0, 0]].contains (pidsOf cfg)

/-- Sections of the partition of section n in a configuration. -/
def peersIn (cfg : BitVec 8) (n : Nat) : List Nat :=
  (List.range 4).filter fun m => (pidsOf cfg).getD m 0 == (pidsOf cfg).getD n 0

/-- SEC_ILVn and SEC_NETBn of a configuration (R20, Table 16-8). -/
def ilvOf (cfg : BitVec 8) (n : Nat) : BitVec 2 × BitVec 4 :=
  let k := (peersIn cfg n).length
  (if k = 1 then 0 else if k = 2 then 1 else 2, BitVec.ofNat 4 (4 * ((firstIdx (· == n) (peersIn cfg n)).getD 0)))

def netbOf (cfg : BitVec 8) (n : Nat) : BitVec 4 := BitVec.ofNat 4 (((peersIn cfg n).map fun m => 2 ^ m).foldl (· + ·) 0)

/-- The interleave and network registers agree with a configuration. -/
def Hub.agrees (h : Hub) (cfg : BitVec 8) : Bool :=
  (List.range 4).all fun n =>
    (h.ilvNlog.getD n 0, h.ilvFirst.getD n 0) == ilvOf cfg n && h.netb.getD n 0 == netbOf cfg n

/-- Sections whose partition differs between two configurations. -/
def changedSections (a b : BitVec 8) : List Nat := (List.range 4).filter fun n => peersIn a n != peersIn b n

/-! ## Destroying and scrubbing partitions -/

/-- Every launch of a partition ends without a completion signal. -/
def State.silence (s : State) (pid : Nat) : State :=
  let s := s.launches.foldl (fun s l => if l.2.pid = pid then s.endLaunch l.1 stAborted else s) s
  { s with launches := s.launches.map fun l => if l.2.pid = pid then (l.1, { l.2 with signaled := true }) else l }

/-- Every context of a partition is destroyed without a completion signal (R343, R344). -/
def State.destroyContexts (s : State) (pid : Nat) : State :=
  let s := s.silence pid
  (s.ctxs.filter fun c => c.2.pid == pid).foldl (fun s c => s.dropContext c.1 c.2) s

/-- The whole memory of a partition is scrubbed: every byte 0, every tag 0, every frame FREE (R336). -/
def State.scrubAll (s : State) (pid : Nat) : State :=
  let s := s.dropWrites (pid * 2 ^ 50) (2 ^ 50)
  { s with
    mem := s.mem.filter fun c => c.1 / 2 ^ 50 != pid
    tags := s.tags.filter fun t => t.1 * 32 / 2 ^ 50 != pid
    hub := { s.hub with frames := s.hub.frames.filter fun f => f.1 / 2 ^ 34 != pid } }

/-- Doorbells held for sections are discarded. -/
def State.dropBells (s : State) (secs : List Nat) : State :=
  { s with hub := { s.hub with heldBells := s.hub.heldBells.filter fun b => !secs.contains b.2.1 } }

/-- Applies a valid configuration: the contexts of the partitions that change are destroyed, their functions follow the
section that named their partition, and the memory of the new partitions is scrubbed (R343). -/
def State.applyConfig (s : State) (cfg : BitVec 8) : State :=
  let secs := changedSections s.hub.pidNow cfg
  let olds := (secs.map s.pidOf).eraseDups
  let s := olds.foldl State.destroyContexts s
  let halted := (List.range 4).filter fun n => s.hub.stopped.contains (s.pidOf n)
  let s := { s with hub := { s.hub with pidNow := cfg, badcfg := false } }
  let s := { s with hub := { s.hub with
    stopped := halted.foldl (fun m n => insertNat (s.pidOf n) m) []
    funcs := s.hub.funcs.map fun (f : Nat × Func) => (f.1, { f.2 with pid := s.pidOf f.2.pid }) } }
  let s := (olds ++ secs.map s.pidOf).eraseDups.foldl State.scrubAll s
  s.dropBells secs

/-- PARTCFG_COMMIT: the commit is over, applied or with BADCFG (R342, R343). -/
def execPartcfgCommit (s : State) : Host.Outcome State Fault Refusal :=
  let cfg := s.hub.pidReg
  let s := { s with hub := { s.hub with commit := false, busy := false } }
  if configOk cfg && s.hub.agrees cfg then event (s.applyConfig cfg)
  else event { s with hub := { s.hub with badcfg := true } }

/-! ## Quiescing a section (R343) -/

/-- Bit n of a section mask. -/
def secBit (n : Nat) : BitVec 4 := BitVec.ofNat 4 (2 ^ n)

/-- Every cache line of a section is written back and invalidated. -/
def State.flushSection (s : State) (sec : Nat) : State :=
  let s := { s with seen := s.seen.filter fun v => !((v.what == 0 || v.what == 2) && v.cluster / 16 == sec) }
  (s.cohorts.filter fun c => (c.2.core.map secOfCore) == some sec).foldl (fun s c => s.flushLines c.1 (fun _ => true) true) s

/-- A queue that is homed on a section is busy. -/
def State.sectionBusy (s : State) (sec : Nat) : Bool := s.queues.any fun q => q.2.sec == sec && s.queueBusy q.1 q.2

/-- QUIESCE_REQUEST: REQ = 1. -/
def execQuiesceRequest (sec : Nat) (s : State) : Host.Outcome State Fault Refusal :=
  if 4 ≤ sec || s.hub.qReq.getLsbD sec then event s
  else
    let s := { s with hub := { s.hub with qReq := s.hub.qReq ||| secBit sec } }
    if s.sectionBusy sec then event { s with hub := { s.hub with qRefused := s.hub.qRefused ||| secBit sec } }
    else
      let s := s.flushSection sec
      event { s with hub := { s.hub with qDone := s.hub.qDone ||| secBit sec } }

/-- Clears REQ, DONE and REFUSED, and serves the doorbells that were held. -/
def State.releaseSection (s : State) (sec : Nat) : State :=
  let m := ~~~(secBit sec)
  let bells := s.hub.heldBells.filter fun b => b.2.1 == sec
  let s := State.dropBells { s with hub := { s.hub with
    qReq := s.hub.qReq &&& m, qDone := s.hub.qDone &&& m, qRefused := s.hub.qRefused &&& m } } [sec]
  bells.foldl (fun s b => s.doorbell b.1 b.2.1 b.2.2) s

/-- QUIESCE_RELEASE: REQ = 0. -/
def execQuiesceRelease (sec : Nat) (s : State) : Host.Outcome State Fault Refusal :=
  event (if sec < 4 then s.releaseSection sec else s)

/-! ## Shootdown by the hub -/

/-- HUB_SHOOT_GO: the stash lines of the chosen contexts in the chosen sections are recalled, the TLBs there drop their
entries, and DONE is set (R238, Table 16-6). -/
def execHubShootGo (s : State) : Host.Outcome State Fault Refusal :=
  let h := s.hub
  let mine := fun (sec cid : Nat) => h.shSecs.getLsbD sec && (h.shAll || cid == h.shCid.toNat)
  let s := s.recallLines fun c _ => mine (secOfCore (c.core.getD 0)) c.cid
  let s := s.dropTlb fun v => mine (v.cluster / 16) v.cid
  event { s with hub := { s.hub with shGo := false, shDone := true } }

/-! ## PART_SET and PART_RESET (R342 to R344) -/

/-- Sets the registers of a configuration. -/
def Hub.setConfig (h : Hub) (cfg : BitVec 8) : Hub :=
  { h with
    pidReg := cfg
    ilvNlog := (List.range 4).map fun n => (ilvOf cfg n).1
    ilvFirst := (List.range 4).map fun n => (ilvOf cfg n).2
    netb := (List.range 4).map (netbOf cfg) }

/-- PART_SET: the merge or split to a configuration; REFUSED where a queue is busy at the quiesce. -/
def execPartSet (fn compl cfg : Nat) (s : State) : Host.Outcome State Fault Refusal :=
  command fn compl s fun f s =>
    let c : BitVec 8 := BitVec.ofNat 8 cfg
    let secs := changedSections s.hub.pidNow c
    if !f.isPf then (.done adBadOpcode, s)
    else if s.hub.phase ≠ .full then (.done adNotReady, s)
    else if 256 ≤ cfg || !configOk c then (.done adBadArg, s)
    else if secs.any s.sectionBusy then (.done adRefused, s)
    else
      let s := secs.foldl State.flushSection s
      let s := { s with hub := s.hub.setConfig c }
      let s := s.applyConfig c
      let s := s.dropTlb fun v => secs.contains (v.cluster / 16)
      (.done adOk, secs.foldl State.releaseSection s)

/-- Cores of a list of sections. -/
def inSections (secs : List Nat) (core : Nat) : Bool := secs.contains (secOfCore core)

/-- The stash lines of a partition's cohorts are lost without write-back (R344). -/
def State.loseLines (s : State) (pid : Nat) : State :=
  { s with cohorts := s.cohorts.map fun c => if s.cohPid c.2 = pid then (c.1, { c.2 with lines := [] }) else c }

/-- Resets a partition (R344): the registers of Table 16-6 and Table 16-10 that R344 does not exempt take their Reset values
(R8). -/
def State.resetPartition (s : State) (pid : Nat) : State :=
  let secs := s.sectionsOf pid
  let s := ((s.loseLines pid).destroyContexts pid).scrubAll pid
  let m := ~~~(secs.foldl (fun m n => m ||| secBit n) 0#4)
  State.dropBells { s with
    seen := s.seen.filter fun v => !secs.contains (v.cluster / 16)
    hub := { s.hub with
      stopped := s.hub.stopped.filter (· != pid)
      frozenCores := s.hub.frozenCores.filter fun c => !inSections secs c
      frozenEngines := s.hub.frozenEngines.filter fun x => !inSections secs (x / 2)
      shCid := 0, shAll := false, shSecs := 0, shDone := false, shGo := false
      funcs := s.hub.funcs.map fun (f : Nat × Func) => if f.2.pid = pid then (f.1, { f.2 with evaddr := 0 }) else f
      qReq := s.hub.qReq &&& m, qDone := s.hub.qDone &&& m, qRefused := s.hub.qRefused &&& m } } secs

/-- PART_RESET (R344). -/
def execPartReset (fn compl pid : Nat) (s : State) : Host.Outcome State Fault Refusal :=
  command fn compl s fun f s =>
    if !f.isPf then (.done adBadOpcode, s)
    else if 4 ≤ pid || s.pidOf pid ≠ pid then (.done adBadArg, s)
    else (.done adOk, s.resetPartition pid)

/-! ## Register writes (R7) -/

/-- Sets element n of a list. -/
def setAt {α : Type} (l : List α) (n : Nat) (v : α) : List α := l.set n v

/-- A write of HUB_PARTCFG: PID, and COMMIT as W1S. -/
def State.writePartcfg (s : State) (v : Dword) : State :=
  let s := { s with hub := { s.hub with pidReg := v.setWidth 8 } }
  if v.getLsbD 8 then State.first { s with hub := { s.hub with commit := true, busy := true } } .partcfgCommit else s

/-- A write of HUB_SHOOT: CID, ALL, SECS, and GO as W1S, which starts with DONE at 0. -/
def State.writeShoot (s : State) (v : Dword) : State :=
  let s := { s with hub := { s.hub with
    shCid := v.setWidth 12, shAll := v.getLsbD 12, shSecs := v.extractLsb' 13 4 } }
  if v.getLsbD 31 then State.first { s with hub := { s.hub with shDone := false, shGo := true } } .hubShootGo else s

/-- A write of a register of Table 16-6 or 16-10, field by field by its access code. -/
def State.writeReg (s : State) (r : DevReg) (v : Dword) : State :=
  match r with
  | .hubPartcfg => s.writePartcfg v
  | .secQctl n =>
    if 4 ≤ n || v.getLsbD 0 = s.hub.qReq.getLsbD n then s
    else s.first (if v.getLsbD 0 then .quiesceRequest n else .quiesceRelease n)
  | .secIlv n => { s with hub := { s.hub with
      ilvNlog := setAt s.hub.ilvNlog n (v.setWidth 2), ilvFirst := setAt s.hub.ilvFirst n (v.extractLsb' 2 4) } }
  | .secNetb n => { s with hub := { s.hub with netb := setAt s.hub.netb n (v.setWidth 4) } }
  | .hubShoot => s.writeShoot v
  | .admBase fn => s.first (.admBaseWrite fn v)
  | .admLog fn => s.modFunc fn fun f => if f.admWr = f.admRd then { f with admLog := (v.setWidth 4).toNat } else f
  | .admWridx fn => s.modFunc fn fun f => { f with admWr := (v.setWidth 32).toNat }
  | .admRdidx _ => s
  | .admEvaddr fn => s.modFunc fn fun f => if f.isPf then { f with evaddr := v } else f
  | .admDb fn => if v.getLsbD 0 then s.first (.adminDoorbell fn) else s
  | .qdb fn sec => if v.toNat % 2 ^ 32 < 256 then s.first (.queueDoorbell fn sec (v.toNat % 2 ^ 32)) else s

/-! ## Register reads (R7, R9) -/

/-- Puts the low n bits of a value at a bit of a register. -/
def fieldAt (v lo n : Nat) : Nat := v % 2 ^ n * 2 ^ lo

/-- A flag at a bit of a register. -/
def flagAt (b : Bool) (lo : Nat) : Nat := if b then 2 ^ lo else 0

/-- What a read of HUB_PARTCFG returns. -/
def Hub.partcfg (h : Hub) : Nat :=
  h.pidReg.toNat + flagAt h.commit 8 + flagAt h.busy 9 + flagAt h.badcfg 10

/-- What a read of HUB_SHOOT returns. -/
def Hub.shoot (h : Hub) : Nat :=
  h.shCid.toNat + flagAt h.shAll 12 + fieldAt h.shSecs.toNat 13 4 + flagAt h.shDone 30 + flagAt h.shGo 31

/-- What a read of a register of Table 16-6 or 16-10 returns: every field by its access code, a WO field and a reserved one
as zero (R7, R9). -/
def State.readReg (s : State) (r : DevReg) : Dword :=
  let h := s.hub
  let fn := fun (n : Nat) (f : Func → Nat) => ((aget h.funcs n).map f).getD 0
  BitVec.ofNat 64 (match r with
  | .hubPartcfg => h.partcfg
  | .secQctl n => flagAt (h.qReq.getLsbD n) 0 + flagAt (h.qDone.getLsbD n) 1 + flagAt (h.qRefused.getLsbD n) 2
  | .secIlv n => (h.ilvNlog.getD n 0).toNat + fieldAt (h.ilvFirst.getD n 0).toNat 2 4
  | .secNetb n => (h.netb.getD n 0).toNat
  | .hubShoot => h.shoot
  | .admBase n => fn n fun f => f.admBase.toNat
  | .admLog n => fn n fun f => fieldAt f.admLog 0 4
  | .admWridx n => fn n fun f => fieldAt f.admWr 0 32
  | .admRdidx n => fn n fun f => fieldAt f.admRd 0 32
  | .admEvaddr n => fn n fun f => if f.isPf then f.evaddr.toNat else 0
  | .admDb _ => 0
  | .qdb _ _ => 0)

/-- REGISTER_WRITE (R7). -/
def execRegisterWrite (r : DevReg) (v : Dword) (s : State) : Host.Outcome State Fault Refusal := event (s.writeReg r v)

end Sys2Proof.Machine
end

