-- ==== Sys2Proof/Machine/Platform.lean ====
section
/-! DEFINITION. The platform: module reset and start-up (R344 to R346), functions and their security (R322, R323, R335,
R341), host accesses (R253), integrity (R340) and Ximus Link ports (R325). -/

namespace Sys2Proof.Machine

/-! ## Reset and start-up -/

/-- The module after a module reset: host and peer memory, what firmware stores for good, and the migration images stay;
a staged monitor image takes effect (R344, R345, R335). -/
def State.moduleReset (s : State) : State :=
  let v := s.hub.fwStaged.getD s.hub.fwVersion
  { State.reset with
    hub := { State.reset.hub with fwVersion := v, fwStored := max s.hub.fwStored v, images := s.hub.images }
    mem := s.mem.filter fun c => !isLocalKey c.1
    free := s.free, bundle := s.bundle, nextId := s.nextId }

/-- MODULE_RESET (R344, R345). -/
def execModuleReset (s : State) : Host.Outcome State Fault Refusal := event s.moduleReset

/-- SECTIONS_TRAINED: REDUCED becomes FULL, and the partitions take the configuration that HUB_PARTCFG holds (R345); one
that R22 does not allow sets BADCFG and changes nothing. -/
def execSectionsTrained (s : State) : Host.Outcome State Fault Refusal :=
  if s.hub.phase ≠ .reduced then event s
  else
    let s := { s with hub := { s.hub with phase := .full } }
    if s.hub.pidReg = s.hub.pidNow then event s else event (s.first .partcfgCommit)

/-- TRAINING_FAILURE: the module stays in REDUCED (R345). -/
def execTrainingFailure (sec : Nat) (s : State) : Host.Outcome State Fault Refusal :=
  if s.hub.phase ≠ .reduced then event s
  else event { s with hub := { s.hub with phase := .failed, trainFailed := some sec } }

/-- CAP_UNMET: an event to the PF with the module power in mW (R346). -/
def execCapUnmet (mw : Nat) (s : State) : Host.Outcome State Fault Refusal :=
  event (if s.hub.powerCap < mw then s.postEvent evCapUnmet mw else s)

/-- HEAT_FLUX_HIGH: the section withholds every plane step (R346). -/
def execHeatFluxHigh (sec : Nat) (s : State) : Host.Outcome State Fault Refusal :=
  event { s with hub := { s.hub with heat := s.hub.heat ||| secBit sec } }

/-- HEAT_FLUX_LOW: plane steps go on (R346). -/
def execHeatFluxLow (sec : Nat) (s : State) : Host.Outcome State Fault Refusal :=
  event { s with hub := { s.hub with heat := s.hub.heat &&& ~~~(secBit sec) } }

/-! ## Functions (R322, R323, R341) -/

/-- The launches of a function's contexts end. -/
def State.endFunction (s : State) (fn status : Nat) : State :=
  (s.ctxs.filter fun c => c.2.fn == fn).foldl (fun s c => s.endContext c.1 status) s

/-- A change of a VF; the PF has no TDI and is no VF. -/
def State.modVf (s : State) (fn : Nat) (f : Func → Func) : State := s.modFunc fn fun x => if x.isPf then x else f x

/-- A VF is frozen: its launches end with ABORTED and its text key is destroyed (Table 16-7). -/
def State.freezeVf (s : State) (fn : Nat) (error : Bool) : State :=
  match aget s.hub.funcs fn with
  | none => s
  | some f =>
    if f.isPf then s
    else (s.endFunction fn stAborted).modVf fn fun f =>
      { f with frozen := true, textKey := false, tdi := if error then .error else f.tdi }

/-- TDI_LEAVE_RUN: the text key is destroyed (R323). -/
def execTdiLeaveRun (fn : Nat) (s : State) : Host.Outcome State Fault Refusal :=
  event (s.modVf fn fun f => if f.tdi = .run then { f with tdi := .configUnlocked, textKey := false } else f)

/-- IDE_INTEGRITY_FAILURE (Table 16-7). -/
def execIdeIntegrityFailure (fn : Nat) (s : State) : Host.Outcome State Fault Refusal := event (s.freezeVf fn true)

/-- PLUGIN_PMP_BREACH (Table 16-7, R335). -/
def execPluginPmpBreach (fn : Nat) (s : State) : Host.Outcome State Fault Refusal := event (s.freezeVf fn false)

/-- VF_RESET: a frozen VF is no longer frozen (R341). -/
def execVfReset (fn : Nat) (s : State) : Host.Outcome State Fault Refusal :=
  event (s.modVf fn fun f => { f with frozen := false })

/-- TDISP_REQUEST (Table 16-1): lock, start and stop; the text key exists in RUN, a new one in each (R323). A breach of the
protocol leads to ERROR and freezes the VF (R341); a request that does not fit the state changes nothing. -/
def execTdispRequest (fn : Nat) (target : TdiState) (s : State) : Host.Outcome State Fault Refusal :=
  let (key, s) := s.freshId
  match target with
  | .error => event (s.freezeVf fn true)
  | .configLocked => event (s.modVf fn fun f => if f.tdi = .configUnlocked then { f with tdi := .configLocked } else f)
  | .run => event (s.modVf fn fun f => if f.tdi = .configLocked then { f with tdi := .run, textKey := true, keyNo := key } else f)
  | .configUnlocked => event (s.modVf fn fun f => { f with tdi := .configUnlocked, textKey := false })

/-- The VFs go: their contexts end and are destroyed. -/
def State.removeVfs (s : State) : State :=
  let s := (s.ctxs.filter fun c => c.2.fn != 0).foldl (fun s c =>
    let s := s.launches.foldl (fun s l => if l.2.cid = c.1 && !l.2.signaled then (s.endLaunch l.1 stAborted).signal l.1 else s) s
    (s.abortDevq c.1).dropContext c.1 c.2) s
  { s with hub := { s.hub with funcs := s.hub.funcs.filter fun f => f.2.isPf } }

/-- PCIE_CONFIGURATION: SR-IOV enables 1 to 64 VFs, each in one partition with the plug-in version that it pins, of which
at most 8 are loaded, or disables them (R21, R22, R322, R335). An enabling while VFs exist changes nothing: the spec
gives it no effect (DESIGN CHOICE, log entry 29). -/
def execPcieConfiguration (numVfs : Nat) (part plugin : List Nat) (s : State) : Host.Outcome State Fault Refusal :=
  if numVfs = 0 then event s.removeVfs
  else if 64 < numVfs || 1 < s.hub.funcs.length || 8 < (plugin.take numVfs).eraseDups.length then event s
  else
    let vfs := (List.range numVfs).map fun i =>
      (i + 1, ({ isPf := false, pid := s.pidOf (part.getD i 0 % 4), plugin := plugin.getD i 0 } : Func))
    event { s with hub := { s.hub with funcs := s.hub.funcs ++ vfs } }

/-! ## SPDM (Table 16-1) -/

/-- Order of the phases of a session. -/
def SpdmPhase.rank : SpdmPhase → Nat
  | .start => 0 | .versioned => 1 | .capable => 2 | .negotiated => 3 | .exchanged => 4 | .established => 5

/-- A request that a phase admits moves the session on; the answer is free (log entry 13). -/
def spdm (req : Nat) (ok : SpdmPhase → Bool) (to_ : SpdmPhase → SpdmPhase) (s : State) : Host.Outcome State Fault Refusal :=
  let p := s.hub.spdm
  event { s with hub := { s.hub with spdmLast := Config.spdmAnswer req (SpdmPhase.rank p), spdm := if ok p then to_ p else p } }

def execGetVersion (s : State) : Host.Outcome State Fault Refusal := spdm 0 (fun _ => true) (fun _ => .versioned) s

def execGetCapabilities (s : State) : Host.Outcome State Fault Refusal := spdm 1 (· == .versioned) (fun _ => .capable) s

def execNegotiateAlgorithms (s : State) : Host.Outcome State Fault Refusal := spdm 2 (· == .capable) (fun _ => .negotiated) s

def execGetDigests (s : State) : Host.Outcome State Fault Refusal := spdm 3 (fun p => 3 ≤ SpdmPhase.rank p) id s

def execGetCertificate (s : State) : Host.Outcome State Fault Refusal := spdm 4 (fun p => 3 ≤ SpdmPhase.rank p) id s

def execChallenge (s : State) : Host.Outcome State Fault Refusal := spdm 5 (fun p => 3 ≤ SpdmPhase.rank p) id s

def execGetMeasurements (s : State) : Host.Outcome State Fault Refusal := spdm 6 (fun p => 3 ≤ SpdmPhase.rank p) id s

def execKeyExchange (s : State) : Host.Outcome State Fault Refusal := spdm 7 (· == .negotiated) (fun _ => .exchanged) s

def execFinish (s : State) : Host.Outcome State Fault Refusal := spdm 8 (· == .exchanged) (fun _ => .established) s

def execEndSession (s : State) : Host.Outcome State Fault Refusal := spdm 9 (· == .established) (fun _ => .negotiated) s

/-! ## Host accesses, integrity, firmware -/

/-- A read of the host, as an acquire at system scope. -/
def State.hostRead (s : State) (key n : Nat) : State :=
  let (_, s) := s.readMem key n
  let ws := returned key n (s.hist.filter fun m => m.overlaps key n).reverse []
  let o := Ord.read { view := s.host } hostInsts (some hostInsts) ws
  { s with host := joinView o.view o.must }

/-- A write of the host, as a release at system scope after what it has read and written. -/
def State.hostWrite (s : State) (key : Nat) (data : List Byte) : State :=
  let s := s.writeMem key data s.host [{ insts := hostInsts, view := s.host }]
  match s.hist.getLast? with
  | some m => { s with host := joinView s.host [m.ts] }
  | none => s

/-- HOST_REQUESTER_ACCESS: a read or write of device memory over PCIe, which recalls the stash lines in its way (R253,
R238); what order it carries is the host's (log entry 3). A read is of as many bytes as `data` has. -/
def execHostRequesterAccess (write : Bool) (pid addr : Nat) (data : List Byte) (s : State) :
    Host.Outcome State Fault Refusal :=
  if 4 ≤ pid || s.partBytes pid < addr + data.length then .fault .noSuchMemory
  else if write then event (s.hostWrite (pid * 2 ^ 50 + addr) data)
  else event (s.hostRead (pid * 2 ^ 50 + addr) data.length)

/-- Number of a checking stage. -/
def stageNo : CheckStage → Nat
  | .hbmToL2 => 0 | .l2ToL1 => 1 | .flit => 2 | .lineCrc => 3

/-- CORRECTED_ERROR: counted, and no other effect (R340). -/
def execCorrectedError (stage : CheckStage) (s : State) : Host.Outcome State Fault Refusal :=
  let k := stageNo stage
  event { s with hub := { s.hub with corrected := aset s.hub.corrected k ((aget s.hub.corrected k).getD 0 + 1) } }

/-- FIRMWARE_UPDATE: a signed image whose version is not below the stored counter is staged (R335). -/
def execFirmwareUpdate (version : Nat) (signed : Bool) (s : State) : Host.Outcome State Fault Refusal :=
  event (if signed && s.hub.fwStored ≤ version then { s with hub := { s.hub with fwStaged := some version } } else s)

/-! ## Links (R325, R345) -/

def State.modPort (s : State) (port : Nat) (f : Port → Port) : State :=
  { s with hub := { s.hub with ports := s.hub.ports.zipIdx.map fun p => if p.2 = port then f p.1 else p.1 } }

def State.port (s : State) (port : Nat) : Port := s.hub.ports.getD port { state := .down }

/-- FLIT_RECEIVE: a flit that passes its CRC is taken; one that fails is replayed, up to 8 times, after which the link goes
down. -/
def execFlitReceive (port : Nat) (crcOk : Bool) (s : State) : Host.Outcome State Fault Refusal :=
  let p := s.port port
  if p.state ≠ .up then event s
  else if crcOk then event (s.modPort port fun p => { p with replays := 0 })
  else if p.replays < 8 then event (s.modPort port fun p => { p with replays := p.replays + 1 })
  else event (s.first (.linkDown port))

/-- LINK_DOWN: after 8 failed replays. -/
def execLinkDown (port : Nat) (s : State) : Host.Outcome State Fault Refusal :=
  event (s.modPort port fun p => if p.state = .up && 8 ≤ p.replays then { p with state := .down } else p)

/-- LINK_TRAINED (R345). -/
def execLinkTrained (port : Nat) (s : State) : Host.Outcome State Fault Refusal :=
  event (s.modPort port fun p => if p.state = .training then { state := .up } else p)

end Sys2Proof.Machine
end

