-- ==== Sys2Proof/Machine/Stash.lean ====
section
/-! DEFINITION. The stash instructions SMAP, SFLUSH and SINV, and the events of stash lines (R236 to R240, R482, R483,
R493, R494). -/

namespace Sys2Proof.Machine

/-- The checks of SMAP other than the pointer's form (R236). -/
def smapOk (c : Cohort) (m : Nat) (va : Dword) (vb : Nat) : Bool :=
  let st := 128 * bitsOf vb 13 0
  let len := 128 * bitsOf vb 29 16
  va.toNat % 128 == 0 && bitsOf vb 15 14 == 0 && bitsOf vb 31 30 == 0 && decide (st + len ≤ 65536 * c.stash) &&
  c.slots.all fun e => e.1 == m || len == 0 || e.2.len == 0 ||
    (!rangesMeet st len e.2.s e.2.len && !rangesMeet (vaOf va).toNat len (vaOf e.2.va).toNat e.2.len)

/-- Adds a CPY operation of a thread that ends when its write-backs have been performed (R232). -/
def addStashOp (e : Env) : M Unit := modify fun s =>
  let (id, s) := s.freshId
  s.modThread e.tid fun t => { t with out := t.out ++ [{ cls := .cpy, id := id }] }

/-- SMAP (R236, R493, R494). -/
def execSmap (h : Hdr) (m : BitVec 3) (a b : Reg) (s : State) : Host.Outcome State Fault Refusal :=
  threadOp (.smap h m a b) s fun e => do
    let va := e.th.rd64 a
    let vb := (e.th.rd b).toNat
    if !ptrOk va then throw { kind := .addrForm, addr := va }
    let s ← get
    let c := (aget s.cohorts e.coh).getD e.c
    if !smapOk c m.toNat va vb then throw (opFault .illegalOperand)
    match aget c.slots m.toNat with
    | some old =>
      if !e.th.hasRoom .cpy then return .stay
      modify fun s => s.flushLines e.coh (fun l => old.s ≤ 128 * l && 128 * l < old.s + old.len) true
      addStashOp e
    | none => pure ()
    let len := 128 * bitsOf vb 29 16
    let slot : StashSlot := { s := 128 * bitsOf vb 13 0, len := len, va := va }
    modify fun s => s.modCohort e.coh fun c =>
      { c with slots := if len = 0 then adel c.slots m.toNat else aset c.slots m.toNat slot }
    pure .done

/-- The stash range of SFLUSH and SINV, as line numbers; ILLEGAL_OPERAND where it is not one (R483). -/
def stashRange (c : Cohort) (a n : Nat) : M (Nat × Nat) :=
  if a % 128 = 0 && n % 128 = 0 && stashBase ≤ a && a + n ≤ stashBase + 65536 * c.stash then
    pure ((a - stashBase) / 128, (a - stashBase + n) / 128)
  else throw (opFault .illegalOperand)

/-- SFLUSH (R239, R482, R483). -/
def execSflush (h : Hdr) (a b : Reg) (s : State) : Host.Outcome State Fault Refusal :=
  threadOp (.sflush h a b) s fun e => do
    let (lo, hi) ← stashRange e.c (e.th.rd a).toNat (e.th.rd b).toNat
    if !e.th.hasRoom .cpy then return .stay
    modify fun s => s.flushLines e.coh (fun l => lo ≤ l && l < hi) false
    addStashOp e
    pure .done

/-- Lines of a cohort become absent, their dirty bytes discarded: a read returns what memory holds (R239, R272). -/
def State.discardLines (s : State) (coh lo hi : Nat) : State :=
  match aget s.cohorts coh with
  | none => s
  | some c =>
    let out := fun (x : Nat × StashLine) => lo ≤ x.1 && x.1 < hi
    let gone := (c.lines.filter out).flatMap fun x => x.2.fresh
    State.modCohort { s with hist := s.hist.filter fun m => !gone.contains m.ts } coh fun c =>
      { c with lines := c.lines.filter fun x => !out x }

/-- SINV: dirty bytes are discarded (R239, R272, R482, R483). -/
def execSinv (h : Hdr) (a b : Reg) (s : State) : Host.Outcome State Fault Refusal :=
  threadOp (.sinv h a b) s fun e => do
    let (lo, hi) ← stashRange e.c (e.th.rd a).toNat (e.th.rd b).toNat
    modify fun s => s.discardLines e.coh lo hi
    pure .done

/-- STASH_RECALL: a conflicting access of another agent recalls a line (R238). -/
def execStashRecall (coh line : Nat) (write : Bool) (s : State) : Host.Outcome State Fault Refusal :=
  event (s.dropLine coh line write)

/-- STASH_EVICTION: the core writes a line back and makes it absent (R239). -/
def execStashEviction (coh line : Nat) (s : State) : Host.Outcome State Fault Refusal :=
  event (s.dropLine coh line true)

/-- STASH_WRITE_BACK_RETIRE: the write-backs of an SFLUSH or SMAP have been performed (R232, R239). -/
def execStashWriteBackRetire (tid id : Nat) (s : State) : Host.Outcome State Fault Refusal :=
  event (if (aget s.copies id).isSome then s
    else State.reap (s.modThread tid fun t =>
      if t.out.any fun o => o.cls == .cpy && o.id == id then t.finish id none else t) tid)

end Sys2Proof.Machine
end

