-- ==== Sys2Proof/Machine/Token.lean ====
section
/-! DEFINITION. The Serpent of a deterministic launch (R312 to R318): the rounds, the creation of due cohorts, and one
turn of the loop of R315. -/

namespace Sys2Proof.Machine

/-! ## Due cohorts and rounds (R312, R313) -/

/-- Cores of the partition that have room for the cohort of an index of a launch. -/
def State.roomy (s : State) (lid i : Nat) (l : Launch) : List Nat :=
  (s.coresOf l.pid).filter fun c => s.fits c lid l.rc.need (some i)

/-- Creates the next cohort of logical core j on its own core, where that has room, or else on one that has; with no room
anywhere, its own core makes room, or one that can (R312, R313, R41). The answer is whether it was created. -/
def State.createDue (s : State) (lid j i : Nat) (l : Launch) : Bool × State :=
  let home := s.logicalCore l.pid j
  let coord := if l.rc.persist then persistCoord i else l.rc.coord i
  if s.fits home lid l.rc.need (some i) then (true, (s.clearRoom lid).createCohort lid home i j coord 0 [])
  else
    match s.roomy lid i l with
    | [] =>
      let cs := (s.coresOf l.pid).filter fun k => (s.roomAt k lid i l.rc.need).isSome
      let (k, s) : Nat × State := match s.target lid i l.rc.need with
        | some k => (k, s)
        | none =>
          if cs.contains home then (home, s)
          else let (k, s) := s.pick cs.length; (cs.getD k home, s)
      (false, s.seekRoom lid k i l.rc.need)
    | cores =>
      let (k, s) := s.pick cores.length
      (true, (s.clearRoom lid).createCohort lid (cores.getD k home) i j coord 0 [])

/-- Creates the cohorts of logical core j that become due, at most `fuel` of them; the answer is whether all were
created. -/
def State.fillCore (s : State) (lid j fuel : Nat) : Bool × State :=
  match fuel with
  | 0 => (true, s)
  | f + 1 =>
    match aget s.launches lid with
    | none => (true, s)
    | some l =>
      match s.dueIndex lid j l with
      | none => (true, s)
      | some i =>
        match s.createDue lid j i l with
        | (true, s) => s.fillCore lid j f
        | (false, s) => (false, s)

/-- The next drained fire of a deterministic bin is due and not there yet: its cohort is created by the fire (R114, R312).
-/
def State.fireDue (s : State) (lid : Nat) (l : Launch) : Bool :=
  match s.bins.find? fun b => b.2.launch == lid with
  | none => false
  | some (_, b) => (b.cause l.rc).isSome && decide (s.dueOn lid (fireLogical l b.fires) < l.rc.need.perCore)

/-- Every due cohort is there: those of a deterministic ITER launch are created, room being made for one at a time, and those
of a bin are waited for. -/
def State.fillDue (s : State) (lid : Nat) (l : Launch) : Bool × State :=
  if l.rc.kind ≠ 1 then (!s.fireDue lid l, s)
  else (List.range (s.coresOf l.pid).length).foldl (fun (acc : Bool × State) j =>
    if acc.1 then acc.2.fillCore lid j (l.rc.need.perCore) else acc) (true, s)

/-- The member warps of a round: those of the due cohorts, in ascending logical ID (R313). -/
def State.members (s : State) (lid : Nat) : List Nat :=
  let cs := sortBy (fun (a b : Nat × Cohort) => a.2.index ≤ b.2.index) ((s.launchCohorts lid).filter fun c => s.due c.1)
  cs.flatMap fun c => (List.range c.2.warps).map fun w => c.1 * 32 + w

/-- The token comes to the warp at the head of the round, an acquire at device scope of its threads (R315). -/
def State.receive (s : State) (lid : Nat) : State :=
  match (aget s.launches lid).map Launch.token with
  | none => s
  | some k => match k.todo with
    | [] => s
    | w :: _ => (s.warpThreads w).foldl (fun s t => s.joinThread t.1 k.view) s

/-- The token passes from a warp to the rest of the round, a release at device scope of its threads (R315). -/
def State.passToken (s : State) (lid w : Nat) (rest : List Nat) : State :=
  let (v, s) := (s.warpThreads w).foldl (fun (x : List Nat × State) t =>
    let (v, s) := x.2.carry t.1
    (joinView x.1 v, s)) ([], s)
  (s.modLaunch lid fun l => { l with token := { todo := rest, view := joinView l.token.view v } }).receive lid

/-- A round begins once every due cohort is there. -/
def State.beginRound (s : State) (lid : Nat) (l : Launch) : State :=
  match s.fillDue lid l with
  | (false, s) => s
  | (true, s) => (s.modLaunch lid fun l => { l with token := { l.token with todo := s.members lid } }).receive lid

/-! ## A visit (R314, R315) -/

/-- The thread is settled (R314). -/
def TStatus.tokenSettled : TStatus → Bool
  | .exited | .token _ => true
  | _ => false

/-- A ring op that waits for the token can proceed (R314); a broken ring leaves it open (R228). -/
def State.ringCanNow (s : State) (tid r pers : Nat) (op : Instr) : Bool × State :=
  match s.envOf tid pers with
  | none => (false, s)
  | some e =>
    match ringCan e op r s with
    | .ok b s' => (b, s')
    | .error _ s' => (false, s.keepDraws s')

/-- The token op of a thread can proceed (R314); an AWAIT whose read faults can, and takes its fault. -/
def State.tokenCan (s : State) (tid : Nat) (need : TokenNeed) : Bool × State :=
  match aget s.cohorts (cohOf tid) with
  | none => (false, s)
  | some c =>
    match need with
    | .always => (true, s)
    | .ringPost r pers op | .ringTake r pers op => s.ringCanNow tid r pers op
    | .named b phase => (decide (phase < (c.bar b).phase), s)
    | .grp g phase => ((match aget s.launches c.launch with
        | some l => decide (phase < (l.gbar g).phase)
        | none => false), s)
    | .await a =>
      match s.envOf tid a.pers with
      | none => (false, s)
      | some e =>
        match awaitRead e a s with
        | .ok v s' => (awaitCond a.w64 a.cmp v a.b, s.keepDraws s')
        | .error _ s' => (true, s.keepDraws s')

/-- The lowest lane among threads whose token op can proceed. -/
def State.tokenLane (s : State) (ts : List (Nat × Thread)) : Option (Nat × Thread × TokenNeed) × State :=
  match ts with
  | [] => (none, s)
  | (tid, t) :: rest =>
    match t.status with
    | .token need =>
      (match s.tokenCan tid need with
        | (true, s) => (some (tid, t, need), s)
        | (false, s) => s.tokenLane rest)
    | _ => s.tokenLane rest

/-- The token performs the op of a thread: an AWAIT and a departure end at once, and any other op is issued with the
grant (R315). -/
def State.performToken (s : State) (tid : Nat) (t : Thread) (need : TokenNeed) : State :=
  if t.departing then s.modThread tid fun t => { t with status := .ready, departing := false }
  else match need with
    | .await a =>
      match s.envOf tid a.pers with
      | none => s
      | some e =>
        let e := { e with th := { e.th with status := .ready } }
        let s := s.modThread tid fun t => { t with status := .ready }
        let body : M Flow := do
          let v ← awaitRead e a
          if awaitCond a.w64 a.cmp v a.b then awaitEnd e a v else tokenStop e need
        endOp a.op s e (body s)
    | _ => s.modThread tid fun t => { t with status := .ready, granted := true }

/-- One turn of the loop of R315 at the warp that holds the token. A warp whose cohort is not resident waits for its
readmission; one whose cohort is gone is left. -/
def State.visit (s : State) (lid w : Nat) (rest : List Nat) : State :=
  match aget s.cohorts (w / 32) with
  | none => s.passToken lid w rest
  | some c =>
    let ts := s.warpThreads w
    if c.core.isNone || !(ts.all fun e => TStatus.tokenSettled e.2.status) then s
    else match s.tokenLane ts with
      | (some (tid, t, need), s) => s.performToken tid t need
      | (none, s) => s.passToken lid w rest

/-- TOKEN_VISIT: the token of a deterministic launch takes one turn (R313, R315). -/
def execTokenVisit (launch : Nat) (s : State) : Host.Outcome State Fault Refusal :=
  match aget s.launches launch with
  | none => event s
  | some l =>
    if !l.rc.det || !s.active l || l.rc.kind = 3 then event s
    else match l.token.todo with
      | [] => event (s.beginRound launch l)
      | w :: rest => event (s.visit launch w rest)

end Sys2Proof.Machine
end

