-- ==== Sys2Proof/Machine/Dispatch.lean ====
section
/-! DEFINITION. The meaning of each instruction: one arm per constructor of Instr. -/

namespace Sys2Proof.Machine

/-- The effect of one instruction or event. -/
def exec (i : Instr) (s : State) : Host.Outcome State Fault Refusal :=
  match i with
  | .iadd h ty sat d a b => Sys2Proof.Machine.execIadd h ty sat d a b s
  | .isub h ty sat d a b => Sys2Proof.Machine.execIsub h ty sat d a b s
  | .imul h ty sat d a b => Sys2Proof.Machine.execImul h ty sat d a b s
  | .imulh h ty d a b => Sys2Proof.Machine.execImulh h ty d a b s
  | .imad h ty wide sat d a b c => Sys2Proof.Machine.execImad h ty wide sat d a b c s
  | .imin h ty d a b => Sys2Proof.Machine.execImin h ty d a b s
  | .imax h ty d a b => Sys2Proof.Machine.execImax h ty d a b s
  | .iabs h w64 sat d a => Sys2Proof.Machine.execIabs h w64 sat d a s
  | .isetp h ty cmp d a b => Sys2Proof.Machine.execIsetp h ty cmp d a b s
  | .idp4 h asg bsg sat d a b c => Sys2Proof.Machine.execIdp4 h asg bsg sat d a b c s
  | .shl h ty d a b => Sys2Proof.Machine.execShl h ty d a b s
  | .shr h ty d a b => Sys2Proof.Machine.execShr h ty d a b s
  | .shf h w64 right d a b c => Sys2Proof.Machine.execShf h w64 right d a b c s
  | .logt h w64 d a b lut => Sys2Proof.Machine.execLogt h w64 d a b lut s
  | .bfe h ty d a b => Sys2Proof.Machine.execBfe h ty d a b s
  | .bfi h w64 d a b c => Sys2Proof.Machine.execBfi h w64 d a b c s
  | .popc h w64 d a => Sys2Proof.Machine.execPopc h w64 d a s
  | .clz h w64 d a => Sys2Proof.Machine.execClz h w64 d a s
  | .brev h w64 d a => Sys2Proof.Machine.execBrev h w64 d a s
  | .pswz h d a b c => Sys2Proof.Machine.execPswz h d a b c s
  | .lea h ty d a b sh => Sys2Proof.Machine.execLea h ty d a b sh s
  | .sel h w64 d a b pc => Sys2Proof.Machine.execSel h w64 d a b pc s
  | .mov h w64 d a => Sys2Proof.Machine.execMov h w64 d a s
  | .movX h d n => Sys2Proof.Machine.execMovX h d n s
  | .moviShort h ty d v => Sys2Proof.Machine.execMoviShort h ty d v s
  | .moviLong h ty d v => Sys2Proof.Machine.execMoviLong h ty d v s
  | .fadd h ty rnd nb d a b => Sys2Proof.Machine.execFadd h ty rnd nb d a b s
  | .fmul h ty rnd nb d a b => Sys2Proof.Machine.execFmul h ty rnd nb d a b s
  | .ffma h ty rnd nb nc d a b c => Sys2Proof.Machine.execFfma h ty rnd nb nc d a b c s
  | .fmin h ty d a b => Sys2Proof.Machine.execFmin h ty d a b s
  | .fmax h ty d a b => Sys2Proof.Machine.execFmax h ty d a b s
  | .fsetp h ty cmp d a b => Sys2Proof.Machine.execFsetp h ty cmp d a b s
  | .frnd h ty rnd d a => Sys2Proof.Machine.execFrnd h ty rnd d a s
  | .fclass h ty d a => Sys2Proof.Machine.execFclass h ty d a s
  | .padd h bf rnd nb el d a b => Sys2Proof.Machine.execPadd h bf rnd nb el d a b s
  | .pmul h bf rnd nb el d a b => Sys2Proof.Machine.execPmul h bf rnd nb el d a b s
  | .pfma h bf rnd nb nc el d a b c => Sys2Proof.Machine.execPfma h bf rnd nb nc el d a b c s
  | .pminmax h bf isMax el d a b => Sys2Proof.Machine.execPminmax h bf isMax el d a b s
  | .sfn h fn ty d a => Sys2Proof.Machine.execSfn h fn ty d a s
  | .cvt h dt st rnd sat d a x => Sys2Proof.Machine.execCvt h dt st rnd sat d a x s
  | .qnt h ty rnd d a texp => Sys2Proof.Machine.execQnt h ty rnd d a texp s
  | .lmul h d a b => Sys2Proof.Machine.execLmul h d a b s
  | .ladd h rnd nb d a b => Sys2Proof.Machine.execLadd h rnd nb d a b s
  | .shfl h mode w64 d a b m => Sys2Proof.Machine.execShfl h mode w64 d a b m s
  | .vote h form a m => Sys2Proof.Machine.execVote h form a m s
  | .redw h ty op sat rnd d a b m => Sys2Proof.Machine.execRedw h ty op sat rnd d a b m s
  | .matchOp h w64 same d a m => Sys2Proof.Machine.execMatchOp h w64 same d a m s
  | .elane h form m => Sys2Proof.Machine.execElane h form m s
  | .plop3 h d a b c lut => Sys2Proof.Machine.execPlop3 h d a b c lut s
  | .pmovP2r h d => Sys2Proof.Machine.execPmovP2r h d s
  | .pmovR2p h a b => Sys2Proof.Machine.execPmovR2p h a b s
  | .ld h sz sgn acq d a off resid => Sys2Proof.Machine.execLd h sz sgn acq d a off resid s
  | .ldt h ty rnd hi acq d a off resid => Sys2Proof.Machine.execLdt h ty rnd hi acq d a off resid s
  | .ldl h sz sgn acq d a off => Sys2Proof.Machine.execLdl h sz sgn acq d a off s
  | .st h sz rel a off b => Sys2Proof.Machine.execSt h sz rel a off b s
  | .stl h sz rel a off b => Sys2Proof.Machine.execStl h sz rel a off b s
  | .stt h ty rnd hi rel a off b => Sys2Proof.Machine.execStt h ty rnd hi rel a off b s
  | .atom h w64 sgn op ord scope d a off b => Sys2Proof.Machine.execAtom h w64 sgn op ord scope d a off b s
  | .red h w64 sgn op rel a off b => Sys2Proof.Machine.execRed h w64 sgn op rel a off b s
  | .pref h l1 a off => Sys2Proof.Machine.execPref h l1 a off s
  | .pgreq h a off => Sys2Proof.Machine.execPgreq h a off s
  | .smap h m a b => Sys2Proof.Machine.execSmap h m a b s
  | .sflush h a b => Sys2Proof.Machine.execSflush h a b s
  | .sinv h a b => Sys2Proof.Machine.execSinv h a b s
  | .cflush h scope a b => Sys2Proof.Machine.execCflush h scope a b s
  | .acpy h a => Sys2Proof.Machine.execAcpy h a s
  | .acpyt h a => Sys2Proof.Machine.execAcpyt h a s
  | .tagld h d a off => Sys2Proof.Machine.execTagld h d a off s
  | .tagst h a off b => Sys2Proof.Machine.execTagst h a off b s
  | .waitc h cls n => Sys2Proof.Machine.execWaitc h cls n s
  | .fence h scope => Sys2Proof.Machine.execFence h scope s
  | .bar h scope arv b m => Sys2Proof.Machine.execBar h scope arv b m s
  | .barGrp h scope arv g => Sys2Proof.Machine.execBarGrp h scope arv g s
  | .await h loc w64 cmp scope d a b => Sys2Proof.Machine.execAwait h loc w64 cmp scope d a b s
  | .awaitReread tid => Sys2Proof.Machine.execAwaitReread tid s
  | .yieldOp h => Sys2Proof.Machine.execYieldOp h s
  | .backoffImm h n => Sys2Proof.Machine.execBackoffImm h n s
  | .backoffReg h a => Sys2Proof.Machine.execBackoffReg h a s
  | .backoffExpiry tid => Sys2Proof.Machine.execBackoffExpiry tid s
  | .rpost h ring a => Sys2Proof.Machine.execRpost h ring a s
  | .rtake h ring d => Sys2Proof.Machine.execRtake h ring d s
  | .mmap h d a m => Sys2Proof.Machine.execMmap h d a m s
  | .mmal h d a m => Sys2Proof.Machine.execMmal h d a m s
  | .accz h n d m => Sys2Proof.Machine.execAccz h n d m s
  | .accld h d a m => Sys2Proof.Machine.execAccld h d a m s
  | .accst h d a m => Sys2Proof.Machine.execAccst h d a m s
  | .matrixRetire coh => Sys2Proof.Machine.execMatrixRetire coh s
  | .braRel h off => Sys2Proof.Machine.execBraRel h off s
  | .braLong h t => Sys2Proof.Machine.execBraLong h t s
  | .brx h a => Sys2Proof.Machine.execBrx h a s
  | .callRel h off => Sys2Proof.Machine.execCallRel h off s
  | .callLong h t => Sys2Proof.Machine.execCallLong h t s
  | .callx h cls a => Sys2Proof.Machine.execCallx h cls a s
  | .ret h => Sys2Proof.Machine.execRet h s
  | .exit h => Sys2Proof.Machine.execExit h s
  | .threadEnd tid => Sys2Proof.Machine.execThreadEnd tid s
  | .skip h n => Sys2Proof.Machine.execSkip h n s
  | .nop h => Sys2Proof.Machine.execNop h s
  | .trap h n => Sys2Proof.Machine.execTrap h n s
  | .bpt h => Sys2Proof.Machine.execBpt h s
  | .fetchw h a => Sys2Proof.Machine.execFetchw h a s
  | .binpush h sz a b => Sys2Proof.Machine.execBinpush h sz a b s
  | .bindrain h close b => Sys2Proof.Machine.execBindrain h close b s
  | .launch h d a b => Sys2Proof.Machine.execLaunch h d a b s
  | .rdsys h lo srn d => Sys2Proof.Machine.execRdsys h lo srn d s
  | .wrsys h lo srn a => Sys2Proof.Machine.execWrsys h lo srn a s
  | .setctl h ring a => Sys2Proof.Machine.execSetctl h ring a s
  | .rand h d k stream => Sys2Proof.Machine.execRand h d k stream s
  | .feat h d => Sys2Proof.Machine.execFeat h d s
  | .watch h n a b => Sys2Proof.Machine.execWatch h n a b s
  | .gret h => Sys2Proof.Machine.execGret h s
  | .tret h => Sys2Proof.Machine.execTret h s
  | .pdone h => Sys2Proof.Machine.execPdone h s
  | .xred h ty op mode scope a b g => Sys2Proof.Machine.execXred h ty op mode scope a b g s
  | .xredResultWrite launch g => Sys2Proof.Machine.execXredResultWrite launch g s
  | .wmov h dir d a => Sys2Proof.Machine.execWmov h dir d a s
  | .walu h op d a b => Sys2Proof.Machine.execWalu h op d a b s
  | .bundleForm core q => Sys2Proof.Machine.execBundleForm core q s
  | .rotationTurn core q => Sys2Proof.Machine.execRotationTurn core q s
  | .guestFetchDecode tid => Sys2Proof.Machine.execGuestFetchDecode tid s
  | .loadDataReturn tid id => Sys2Proof.Machine.execLoadDataReturn tid id s
  | .copyLand id => Sys2Proof.Machine.execCopyLand id s
  | .copyPark id => Sys2Proof.Machine.execCopyPark id s
  | .copyFaultStop id => Sys2Proof.Machine.execCopyFaultStop id s
  | .walkerEmission core launch => Sys2Proof.Machine.execWalkerEmission core launch s
  | .persistentCohortCreate launch core => Sys2Proof.Machine.execPersistentCohortCreate launch core s
  | .workRequest core launch => Sys2Proof.Machine.execWorkRequest core launch s
  | .split sec slot core => Sys2Proof.Machine.execSplit sec slot core s
  | .withdrawal req => Sys2Proof.Machine.execWithdrawal req s
  | .makeRoom launch core => Sys2Proof.Machine.execMakeRoom launch core s
  | .replayableDeschedule coh => Sys2Proof.Machine.execReplayableDeschedule coh s
  | .readmission coh core => Sys2Proof.Machine.execReadmission coh core s
  | .saveRequest coh => Sys2Proof.Machine.execSaveRequest coh s
  | .preemptHandlerEntry tid => Sys2Proof.Machine.execPreemptHandlerEntry tid s
  | .cohortSave coh => Sys2Proof.Machine.execCohortSave coh s
  | .forcedSave coh => Sys2Proof.Machine.execForcedSave coh s
  | .timeSliceExpiry cid => Sys2Proof.Machine.execTimeSliceExpiry cid s
  | .contextRestore cid => Sys2Proof.Machine.execContextRestore cid s
  | .launchPreemption launch => Sys2Proof.Machine.execLaunchPreemption launch s
  | .queueDoorbell fn sec qn => Sys2Proof.Machine.execQueueDoorbell fn sec qn s
  | .packetNop queue => Sys2Proof.Machine.execPacketNop queue s
  | .packetLaunch queue => Sys2Proof.Machine.execPacketLaunch queue s
  | .packetWait queue => Sys2Proof.Machine.execPacketWait queue s
  | .packetSignal queue => Sys2Proof.Machine.execPacketSignal queue s
  | .queueWaitResume queue => Sys2Proof.Machine.execQueueWaitResume queue s
  | .deviceLaunchQueueTake cid sec => Sys2Proof.Machine.execDeviceLaunchQueueTake cid sec s
  | .gangReservationTimeout => Sys2Proof.Machine.execGangReservationTimeout s
  | .gangCommit => Sys2Proof.Machine.execGangCommit s
  | .completionSignalWrite launch => Sys2Proof.Machine.execCompletionSignalWrite launch s
  | .binPushArrival tid => Sys2Proof.Machine.execBinPushArrival tid s
  | .binDrainArrival tid => Sys2Proof.Machine.execBinDrainArrival tid s
  | .binSpillAutoReplay sec bin => Sys2Proof.Machine.execBinSpillAutoReplay sec bin s
  | .binAgeExpiry sec bin => Sys2Proof.Machine.execBinAgeExpiry sec bin s
  | .binPriorityPromotion sec bin => Sys2Proof.Machine.execBinPriorityPromotion sec bin s
  | .binFireSelect sec core => Sys2Proof.Machine.execBinFireSelect sec core s
  | .binFireComplete sec => Sys2Proof.Machine.execBinFireComplete sec s
  | .binArmingEnd launch => Sys2Proof.Machine.execBinArmingEnd launch s
  | .tokenVisit launch => Sys2Proof.Machine.execTokenVisit launch s
  | .faultPost cid => Sys2Proof.Machine.execFaultPost cid s
  | .uncorrectableError site => Sys2Proof.Machine.execUncorrectableError site s
  | .stashRecall coh line write => Sys2Proof.Machine.execStashRecall coh line write s
  | .stashEviction coh line => Sys2Proof.Machine.execStashEviction coh line s
  | .flitReceive port crcOk => Sys2Proof.Machine.execFlitReceive port crcOk s
  | .linkDown port => Sys2Proof.Machine.execLinkDown port s
  | .adminDoorbell fn => Sys2Proof.Machine.execAdminDoorbell fn s
  | .admBaseWrite fn v => Sys2Proof.Machine.execAdmBaseWrite fn v s
  | .ctxCreate fn compl desc => Sys2Proof.Machine.execCtxCreate fn compl desc s
  | .ctxDestroy fn compl cid => Sys2Proof.Machine.execCtxDestroy fn compl cid s
  | .qBind fn compl cid qcb sec => Sys2Proof.Machine.execQBind fn compl cid qcb sec s
  | .qUnbind fn compl sec qn => Sys2Proof.Machine.execQUnbind fn compl sec qn s
  | .faultReplay fn compl cid idx => Sys2Proof.Machine.execFaultReplay fn compl cid idx s
  | .faultAbort fn compl cid idx => Sys2Proof.Machine.execFaultAbort fn compl cid idx s
  | .shootdown fn compl cid va len => Sys2Proof.Machine.execShootdown fn compl cid va len s
  | .frameAssign fn compl cid frame n => Sys2Proof.Machine.execFrameAssign fn compl cid frame n s
  | .frameRelease fn compl cid frame n => Sys2Proof.Machine.execFrameRelease fn compl cid frame n s
  | .watchSet fn compl cid slot scope core addr ctl => Sys2Proof.Machine.execWatchSet fn compl cid slot scope core addr ctl s
  | .binAbort fn compl sec bin => Sys2Proof.Machine.execBinAbort fn compl sec bin s
  | .migSave fn compl cid => Sys2Proof.Machine.execMigSave fn compl cid s
  | .migRestore fn compl image => Sys2Proof.Machine.execMigRestore fn compl image s
  | .partSet fn compl cfg => Sys2Proof.Machine.execPartSet fn compl cfg s
  | .partReset fn compl pid => Sys2Proof.Machine.execPartReset fn compl pid s
  | .gangAssign fn compl gang fns withdraw => Sys2Proof.Machine.execGangAssign fn compl gang fns withdraw s
  | .partcfgCommit => Sys2Proof.Machine.execPartcfgCommit s
  | .quiesceRequest sec => Sys2Proof.Machine.execQuiesceRequest sec s
  | .quiesceRelease sec => Sys2Proof.Machine.execQuiesceRelease sec s
  | .hubShootGo => Sys2Proof.Machine.execHubShootGo s
  | .registerWrite r v => Sys2Proof.Machine.execRegisterWrite r v s
  | .moduleReset => Sys2Proof.Machine.execModuleReset s
  | .sectionsTrained => Sys2Proof.Machine.execSectionsTrained s
  | .trainingFailure sec => Sys2Proof.Machine.execTrainingFailure sec s
  | .capUnmet mw => Sys2Proof.Machine.execCapUnmet mw s
  | .heatFluxHigh sec => Sys2Proof.Machine.execHeatFluxHigh sec s
  | .heatFluxLow sec => Sys2Proof.Machine.execHeatFluxLow sec s
  | .tdiLeaveRun fn => Sys2Proof.Machine.execTdiLeaveRun fn s
  | .ideIntegrityFailure fn => Sys2Proof.Machine.execIdeIntegrityFailure fn s
  | .pluginPmpBreach fn => Sys2Proof.Machine.execPluginPmpBreach fn s
  | .vfReset fn => Sys2Proof.Machine.execVfReset fn s
  | .getVersion => Sys2Proof.Machine.execGetVersion s
  | .getCapabilities => Sys2Proof.Machine.execGetCapabilities s
  | .negotiateAlgorithms => Sys2Proof.Machine.execNegotiateAlgorithms s
  | .getDigests => Sys2Proof.Machine.execGetDigests s
  | .getCertificate => Sys2Proof.Machine.execGetCertificate s
  | .challenge => Sys2Proof.Machine.execChallenge s
  | .getMeasurements => Sys2Proof.Machine.execGetMeasurements s
  | .keyExchange => Sys2Proof.Machine.execKeyExchange s
  | .finish => Sys2Proof.Machine.execFinish s
  | .endSession => Sys2Proof.Machine.execEndSession s
  | .stashWriteBackRetire tid id => Sys2Proof.Machine.execStashWriteBackRetire tid id s
  | .hostRequesterAccess write pid addr data => Sys2Proof.Machine.execHostRequesterAccess write pid addr data s
  | .pcieConfiguration numVfs part plugin => Sys2Proof.Machine.execPcieConfiguration numVfs part plugin s
  | .tdispRequest fn target => Sys2Proof.Machine.execTdispRequest fn target s
  | .correctedError stage => Sys2Proof.Machine.execCorrectedError stage s
  | .firmwareUpdate version signed => Sys2Proof.Machine.execFirmwareUpdate version signed s
  | .linkTrained port => Sys2Proof.Machine.execLinkTrained port s

end Sys2Proof.Machine
end

