-- ==== Sys2Proof/Machine/Issue.lean ====
section
/-! DEFINITION. The issue of a thread's next op: fetch and decode, the checking scoreboard (R60, R231), the values that
unsettled registers may give (R59, R231), and expansions op by op (R131, R132); and the internal events of the module. -/

namespace Sys2Proof.Machine

/-! ## The checking scoreboard -/

/-- PC of the op whose pending result the register waits for. -/
def Thread.pender (t : Thread) (k : RegKey) : Option VAddr := (t.pend.find? fun p => p.key == k).map Pend.pc

/-- PC of the op whose result in the register is not settled. -/
def Thread.producer (t : Thread) (k : RegKey) : Option VAddr :=
  match t.hazards.find? fun h => h.key == k with
  | some h => some h.pc
  | none => t.pender k

/-- Check 7 of Table 7-7 (R60, R231). A pending guard is found whatever its value, which depends on the time of the
load's return; every other register where the op executes. PREF raises no fault of check 7 (R458). -/
def sbCheck (e : Env) (i : Instr) : Option FaultInfo :=
  match i with
  | .pref .. => none
  | _ =>
  let t := e.th
  let g := Hdr.keys (Instr.hdr i)
  let inShadow := match t.shadow with
    | none => true
    | some (_, g) => g
  let pc := match if inShadow then g.findSome? t.pender else none with
    | some pc => some pc
    | none =>
      if t.active (Instr.hdr i) then (g ++ Instr.srcKeys i ++ Instr.dstKeys i t).findSome? t.producer else none
  pc.map fun pc => pcFault .stallCount pc

/-! ## Unsettled registers without the scoreboard -/

/-- The values that a read of a register may give, its own first. -/
def Env.values (e : Env) (k : RegKey) : List Dword :=
  (e.keyVal k :: ((e.th.hazards.filter fun h => h.key == k).map Hazard.old ++
    (e.th.pend.filter fun p => p.key == k).flatMap fun p => [p.old, p.new])).eraseDups

/-- One of its values stands in for a register that the next op reads (R59, R231). -/
def State.standIn (tid : Nat) (s : State) (k : RegKey) : State :=
  match s.envOf tid 0 with
  | none => s
  | some e =>
    let vs := e.values k
    let (i, s) := s.pick vs.length
    let v := vs.getD i 0
    if i = 0 then s
    else s.modThread tid fun t => match k with
      | .w _ => { t with keep := (k, v) :: t.keep }
      | _ => { t.setKey k v with keep := (k, t.keyVal k) :: t.keep }

/-- The results in flight to a register, any of which may stand over the next op's (R59, R231). -/
def Env.rivals (e : Env) (k : RegKey) : List Dword :=
  (if e.th.hazards.any fun h => h.key == k then [e.keyVal k] else []) ++
    (e.th.pend.filter fun p => p.key == k).map Pend.new

/-- Whose result stands in a register that the next op writes. -/
def State.raceFor (tid : Nat) (s : State) (k : RegKey) : State :=
  match s.envOf tid 0 with
  | none => s
  | some e =>
    let vs := e.rivals k
    let (i, s) := s.pick (vs.length + 1)
    if vs.isEmpty then s
    else s.modThread tid fun t =>
      if i = 0 then { t with win := k :: t.win } else { t with lose := (k, vs.getD (i - 1) 0) :: t.lose }

/-- The choices that the next op of a thread meets: first its guard, then what it reads, then what it writes. -/
def State.unsettled (s : State) (tid : Nat) (i : Instr) : State :=
  let th := fun (s : State) => (aget s.threads tid).getD {}
  let g := Hdr.keys (Instr.hdr i)
  let s := g.foldl (State.standIn tid) s
  let act := (th s).active (Instr.hdr i)
  let s := if act || Instr.isConv i then
      ((Instr.srcKeys i).eraseDups.filter fun k => !g.contains k).foldl (State.standIn tid) s
    else s
  if act then (Instr.dstKeys i (th s)).foldl (State.raceFor tid) s else s

/-! ## One op -/

/-- A thread that did not pass its op, and is to issue it again, has its registers' own values. -/
def Thread.again (t : Thread) : Thread :=
  match t.status with
  | .ready | .token _ => t.unkeep
  | _ => t

/-- A thread's op executes, under the personality that its fetch found. -/
def State.runOp (s : State) (tid pers : Nat) (i : Instr) : Host.Outcome State Fault Refusal :=
  match exec i { s with cur := some { tid := tid, pers := pers } } with
  | .next s' => .next ((State.modThread { s' with cur := none } tid Thread.again).commitStores tid)
  | x => x

/-- A native op: fetch, decode, check 7, and its execution (R159). -/
def State.issueNative (s : State) (e : Env) (p : Place) : Host.Outcome State Fault Refusal :=
  match fetchNative e.who e.th.pc p s with
  | .error f s' => .next ((s.keepDraws s').takeFault e false f)
  | .ok b s' =>
    let s := s.keepDraws s'
    let (w0, w1) := lineWords b (slotOf e.th.pc)
    match decode {} w0 w1 with
    | none => .next (s.takeFault e (w0.getLsbD 63) (pcFault .illegalInstruction e.th.pc))
    | some i =>
      match (preCheck e i).or (if e.ctx.con.sbCheck then sbCheck e i else none) with
      | some f => .next (s.takeFault e (Instr.isLong i) f)
      | none => (if e.ctx.con.sbCheck then s else s.unsettled e.tid i).runOp e.tid 0 i

/-- A register of an op waits for an operation that has not retired (R131, R231). -/
def Thread.blocked (t : Thread) (i : Instr) : Bool :=
  (Hdr.keys (Instr.hdr i) ++ Instr.srcKeys i ++ Instr.dstKeys i t).any fun k =>
    t.pend.any fun p => p.key == k && (t.unretired p.cls).any fun o => o.id == p.id

/-- The op of an expansion at which a thread stands. -/
def State.issueExp (s : State) (tid : Nat) : Host.Outcome State Fault Refusal :=
  match (aget s.threads tid).bind fun t => t.exp.bind fun x => (x.ops[x.idx]?).map fun i => (t, x, i) with
  | none => .next s
  | some (t, x, i) => if t.blocked i then .next s else s.runOp tid x.pers i

/-- A thread issues: it enters its pre-emption handler at a safe point under a save request (R305), enters an emulation
handler (R137), goes on in its expansion, or fetches (R121, R159). A thread that no longer can does nothing. -/
def State.issueThread (s : State) (tid : Nat) : Host.Outcome State Fault Refusal :=
  match s.envOf tid 0 with
  | none => .next s
  | some e =>
    if e.th.status ≠ .ready || e.c.core.isNone || e.c.saveNow || !s.runs e.l then .next s
    else if e.th.emuEntry then .next (s.enterEmu e)
    else match s.safeEntry tid with
      | (some _, _) => exec (.preemptHandlerEntry tid) s
      | (none, s') =>
        let s := s.keepDraws s'
        if e.th.exp.isSome then s.issueExp tid
        else match fetchPlace e.who e.th.pc s with
          | .error f s' => .next ((s.keepDraws s').takeFault e false f)
          | .ok p s' =>
            let s := s.keepDraws s'
            if pteDesc p.pte = 0 then s.issueNative e p
            else match exec (.guestFetchDecode tid) s with
              | .next s => s.issueExp tid
              | x => x

/-- The next thread of the bundles that are formed issues (R51). -/
def State.issueNext (s : State) : Host.Outcome State Fault Refusal :=
  match s.issue with
  | [] => .next s
  | tid :: rest => State.issueThread (State.modThread { s with issue := rest } tid Thread.issued) tid

/-- Launches that faults of the bundle end do so now that all of its threads have issued (R47, R51). -/
def State.endDue (s : State) : State :=
  s.ending.foldl (fun s l => s.endLaunch l.1 l.2) { s with ending := [] }

/-! ## Internal events

What the hardware and the firmware may do of their own accord. An event of the list that is not enabled changes nothing.
The rest of the table's events come from outside: they stand in the agenda. -/

/-- The list, where a condition holds. -/
def whenever (c : Bool) (is : List Instr) : List Instr := if c then is else []

/-- The event in which an outstanding operation of a thread ends by itself. -/
def opEvent (tid : Nat) (o : OutOp) : Option Instr :=
  if o.returned then none
  else match o.cls with
    | .ldc => some (.loadDataReturn tid o.id)
    | .cpy => some (.stashWriteBackRetire tid o.id)
    | _ => none

/-- Events of the state in which a thread stands. -/
def waitEvents (tid : Nat) (st : TStatus) : List Instr :=
  match st with
  | .awaiting _ => [.awaitReread tid]
  | .backoff => [.backoffExpiry tid]
  | .exiting => [.threadEnd tid]
  | .binWait (.push ..) _ _ => [.binPushArrival tid]
  | .binWait (.drain ..) _ _ => [.binDrainArrival tid]
  | _ => []

/-- Events of one thread. -/
def threadEvents (tid : Nat) (t : Thread) : List Instr := waitEvents tid t.status ++ t.out.filterMap (opEvent tid)

/-- Events of one cohort. -/
def State.cohortEvents (s : State) (coh : Nat) (c : Cohort) : List Instr :=
  let back : List Nat := if c.saved then (List.range 256).filter fun k => s.fits k c.launch c.need (some c.index) else []
  let lines : List Nat := if c.core.isSome then c.lines.map (·.1) else []
  whenever (!c.mats.isEmpty) [.matrixRetire coh] ++ whenever c.core.isSome [.replayableDeschedule coh] ++
    lines.map (Instr.stashEviction coh) ++ whenever c.pending [.cohortSave coh, .forcedSave coh] ++
    back.map (Instr.readmission coh)

/-- Bundles and turns of the quarters of a core. -/
def State.bundleEvents (s : State) (core : Nat) : List Instr :=
  let qs : List Nat := (List.range 4).filter fun q => !(s.cands core q).isEmpty
  qs.map (Instr.bundleForm core) ++ qs.map (Instr.rotationTurn core)

/-- A core's request for work, if it makes one and none of its own waits. -/
def State.requestEvent (s : State) (core : Nat) : Option Instr :=
  if s.asksFor core then none else (s.askedLaunch core).map fun l => Instr.workRequest core l.1

/-- Events of one launch. -/
def State.launchEvents (s : State) (lid : Nat) (l : Launch) : List Instr :=
  let cores := s.coresOf l.pid
  let room := fun (k i : Nat) => s.active l && s.fits k lid l.rc.need (some i)
  let emitting : List Nat := ((s.walkers.filter fun w => w.launch == lid && room w.core w.cursor).map Walker.core).eraseDups
  let results : List Nat := (l.gcolls.filter fun g => !g.2.done.isEmpty).map (·.1)
  whenever (!l.signaled) [.completionSignalWrite lid, .binArmingEnd lid, .launchPreemption lid] ++
    whenever l.rc.det [.tokenVisit lid] ++ emitting.map (fun k => Instr.walkerEmission k lid) ++
    whenever l.rc.persist ((cores.filter fun k => room k l.created).map (Instr.persistentCohortCreate lid)) ++
    whenever ((s.roomNeed lid l).isSome || l.room.isSome) (cores.map (Instr.makeRoom lid)) ++ results.map (Instr.xredResultWrite lid)

/-- Splits of a walker for the cores whose requests wait. -/
def State.splitEvents (s : State) (w : Walker) : List Instr :=
  (s.works.filter fun r => r.launch == w.launch).map fun r => Instr.split w.sec w.slot r.core

/-- Events of one context. -/
def ctxEvents (cid : Nat) (c : Ctx) : List Instr :=
  whenever c.scheduled [.timeSliceExpiry cid] ++ whenever (!c.posts.isEmpty) [.faultPost cid] ++
    whenever true [.contextRestore cid]

/-- Events of one queue. -/
def queueEvents (k : Nat) (q : Queue) : List Instr :=
  if q.state = 2 then [.queueWaitResume k]
  else if q.wr = q.rd then []
  else [.packetNop k, .packetLaunch k, .packetWait k, .packetSignal k]

/-- Events of one armed bin. -/
def State.binEvents (s : State) (k : Nat) : List Instr :=
  let sec := k / 512
  let bin := k % 512
  let cores : List Nat := (List.range 64).map fun c => sec * 64 + c
  whenever true [.binAgeExpiry sec bin, .binPriorityPromotion sec bin] ++
    whenever (!(s.spilled sec bin).isEmpty) [.binSpillAutoReplay sec bin] ++
    whenever (s.firing sec).isSome [.binFireComplete sec] ++ cores.map (Instr.binFireSelect sec)

/-- Event of a link port. -/
def portEvent (n : Nat) (p : Port) : List Instr :=
  match p.state with
  | .training => [.linkTrained n]
  | .up => whenever (decide (8 ≤ p.replays)) [.linkDown n]
  | .down => []

/-- Events of the hub, of the links and of the start-up. -/
def State.hubEvents (s : State) : List Instr :=
  whenever (s.hub.phase == .reduced) [.sectionsTrained] ++
    (s.hub.ports.zipIdx.flatMap fun p => portEvent p.2 p.1) ++
    whenever s.gangTurn.isSome [.gangCommit, .gangReservationTimeout]

/-- Events of one copy. -/
def copyEvents (id : Nat) (c : Copy) : List Instr :=
  whenever (!c.parked && !c.landed) [.copyLand id, .copyPark id, .copyFaultStop id]

/-- The device-launch queue of a key is taken from. -/
def devEvent (key : Nat) : Instr := .deviceLaunchQueueTake (key / 4) (key % 4)

/-- Every event that the module may turn to next. -/
def State.events (s : State) : List Instr :=
  let cores : List Nat := if s.launches.isEmpty then [] else List.range 256
  let walks : List Instr := (cores.filterMap s.requestEvent) ++ s.walkers.flatMap s.splitEvents
  let threads : List Instr := s.threads.flatMap fun t => threadEvents t.1 t.2
  let copies : List Instr := s.copies.flatMap fun c => copyEvents c.1 c.2
  let cohorts : List Instr := s.cohorts.flatMap fun c => s.cohortEvents c.1 c.2
  let launches : List Instr := s.launches.flatMap fun l => s.launchEvents l.1 l.2
  let ctxs : List Instr := s.ctxs.flatMap fun c => ctxEvents c.1 c.2
  let queues : List Instr := s.queues.flatMap fun q => queueEvents q.1 q.2
  let bins : List Instr := s.bins.flatMap fun b => s.binEvents b.1
  s.hubEvents ++ threads ++ copies ++ cohorts ++ cores.flatMap s.bundleEvents ++ walks ++ launches ++ ctxs ++ queues ++
    bins ++ s.fetches.map (fun f => Instr.withdrawal f.id) ++ s.devq.map fun d => devEvent d.1

/-- Everything that the module may do next of its own accord. -/
def State.internal (s : State) : List Act :=
  s.events.map Act.event ++ (if s.hist.isEmpty then [] else [.perform]) ++ [.powerCap] ++
    ((s.copies.filter fun c => !c.2.parked && !c.2.landed).map fun c => .advance c.1) ++
    ((s.cohorts.filter fun c => c.2.mats.any fun o => o.done.isNone).map fun c => .matrix c.1) ++
    (s.hub.funcs.filter fun f => f.2.cmd.isSome || f.2.admRd != f.2.admTo).map fun f => .serve f.1

/-- Firmware goes on with an admin ring: with the command that it has begun, or with the next entry (R328). -/
def State.serve (s : State) (fn : Nat) : Host.Outcome State Fault Refusal :=
  match (aget s.hub.funcs fn).bind Func.cmd with
  | some i => exec i s
  | none => .next (s.nextEntry fn)

/-- What the module does. -/
def State.act (s : State) (a : Act) : Host.Outcome State Fault Refusal :=
  match a with
  | .event i => exec i s
  | .perform => .next s.performAll
  | .serve fn => s.serve fn
  | .matrix coh => .next (if s.heated coh then s else s.computeMatrix coh)
  | .advance id => .next (s.advanceCopy id)
  | .powerCap =>
    let (x, s) := s.pick 1600001
    .next { s with hub := { s.hub with powerCap := 1600000 + x } }

/-- What the module may do, that which has been possible for longest first. -/
def State.queued (s : State) : List Act :=
  let now := s.internal.eraseDups
  let kept := s.backlog.filter fun a => now.contains a
  kept ++ now.filter fun a => !kept.contains a

/-- The module does one of them: any, but what has been possible for longest is passed over only so often in a row. So
each is done in finite time that stays possible, and the progress rule holds (R40; log entries 2 and 37). -/
def State.runInternal (s : State) : Host.Outcome State Fault Refusal :=
  let as := s.queued
  let (i, s) := if Config.patience ≤ s.skips then (0, s) else s.pick as.length
  match as[i]? with
  | some a => State.act { s with backlog := as.eraseIdx i, skips := if i = 0 then 0 else s.skips + 1 } a
  | none => .next s

/-- Partitions that a lost write-back stops (R325). -/
def State.stopLost (s : State) : State := s.lost.foldl State.stopPartition { s with lost := [] }

/-- One step: first the stop of a partition that has lost a write, then the oldest event of the agenda, else the next thread
of the bundles that are formed, else the end of the launches that their faults end, else what the module does of its own
accord (log entry 2). -/
def State.turn (s : State) : Host.Outcome State Fault Refusal :=
  if !s.lost.isEmpty then .next s.stopLost
  else match s.agenda with
  | i :: rest => exec i { s with agenda := rest }
  | [] =>
    if !s.issue.isEmpty then s.issueNext
    else if !s.ending.isEmpty then .next s.endDue
    else s.runInternal

end Sys2Proof.Machine
end

