-- ==== Sys2Proof/Machine/Program.lean ====
section
/-! DEFINITION. A program placed from outside: a module in state FULL with one context, its page tables, one launch with
one cohort of one warp on core 0, and one code line with an instruction in slot 1, whose thread in lane 0 issues next
(log entry 8). -/

namespace Sys2Proof.Machine

/-- CID and partition of the placed context. -/
def progCid : Nat := 0
def progPid : Nat := 0

/-- Virtual address of the placed code line; its physical address in the partition is the same. -/
def progLine : Nat := 0x10000

/-- A page-table entry that points to a table, and one that maps the resident 64 KiB page at a physical address for
reads, writes and fetches (Table 13-2). -/
def tableEntry (pa : Nat) : Nat := pa / 256 * 256 + 1
def pageEntry (pa : Nat) : Nat := pa / 65536 * 65536 + 0x3F

/-- Writes a 64-bit word of the placed partition. -/
def putWord (m : Sparse 8) (pa v : Nat) : Sparse 8 := swrite m (progPid * 2 ^ 50 + pa) (leBytes 8 v)

/-- The page tables: the root at 0, and below it one table for each level, down to the page of the code line (R275). -/
def putTables (m : Sparse 8) : Sparse 8 :=
  let m := putWord m 0x0000 (tableEntry 0x1000)
  let m := putWord m 0x1000 (tableEntry 0x2000)
  let m := putWord m 0x2000 (tableEntry 0x3000)
  let m := putWord m 0x3000 (tableEntry 0x4000)
  putWord m (0x4000 + 8 * (progLine / 65536)) (pageEntry progLine)

/-- The 120 bytes of slots 1 to 15: the instruction's words, and zeros. -/
def lineBody (w0 w1 : Nat) : List Byte := leBytes 8 w0 ++ leBytes 8 w1 ++ leBytes 104 0

/-- The header word of the line: START of every slot but the second of a long form, and the CRC (Table 7-1, R148). -/
def lineHead (w0 : Nat) (body : List Byte) : Nat :=
  (if w0 / 2 ^ 63 % 2 = 1 then 0x7FFD else 0x7FFF) + 2 ^ 48 * crc16 body 0xFFFF

/-- The bytes of the line. -/
def lineOf (w0 w1 : Nat) : List Byte := leBytes 8 (lineHead w0 (lineBody w0 w1)) ++ lineBody w0 w1

/-- The role that the instruction asks of its warp: M for a matrix instruction, else V (R30). -/
def progRole (nbits w : Nat) : Nat :=
  match decodeTableWord nbits w with
  | some i => if Instr.isMatrix i then 1 else 2
  | none => 2

/-- The placed cohort: one warp of 256 registers a thread, 64 KiB of scratchpad and 16 named barriers, on core 0. -/
def progCohort (lid : Nat) : Cohort :=
  { launch := lid, cid := progCid, index := 0, coord := [0, 0, 0, 0], groups := [], param := 0, binfire := 0, warps := 1,
    regs := 256, scratch := 65536, nbar := 16, stash := 0, core := some 0 }

/-- The placed launch, whose only index has been emitted. -/
def progLaunch : Launch :=
  { cid := progCid, pid := progPid, sec := 0, ownerQ := none, created := 1
    rc := { ext := [1], regs := 256, scratch := 65536, nbar := 16, entry := BitVec.ofNat 64 progLine } }

/-- The module with an instruction placed: earlier writes to its pages are performed, and no stash line holds a part of
them. -/
def State.placed (s : State) (nbits w : Nat) : State :=
  let s := (s.recall (progPid * 2 ^ 50) 0x20000 true).performAll
  let x := w % 2 ^ nbits
  let lid := s.nextId
  let coh := s.nextId + 1
  let t : Thread := { pc := BitVec.ofNat 57 (progLine + 8) }
  { s with
    hub := { s.hub with
      phase := .full, stopped := [], coreWps := [], frozenCores := [], frozenEngines := []
      frames := aset (aset s.hub.frames (frameKey progPid 0) (.owned progCid)) (frameKey progPid 1) (.owned progCid) }
    mem := swrite (putTables s.mem) (progPid * 2 ^ 50 + progLine) (lineOf (x % 2 ^ 64) (x / 2 ^ 64 % 2 ^ 64))
    seen := []
    ctxs := aset s.ctxs progCid { fn := 0, pid := progPid, con := {} }
    launches := aset s.launches lid progLaunch
    cohorts := aset s.cohorts coh (progCohort lid)
    warps := aset s.warps (coh * 32) { role := progRole nbits w }
    threads := (List.range 32).foldl (fun m k => aset m (coh * 1024 + k) t) s.threads
    rotation := aset s.rotation 0 [lid]
    agenda := [], lost := [], issue := [coh * 1024], nextId := s.nextId + 2 }

end Sys2Proof.Machine
end

