-- ==== Sys2Proof/Safety.lean ====
section
/-! DEFINITION. The terms in which claims about the machine are stated: the invariant that every step keeps, the conditions
under which an op executes, and what it writes and leaves. -/

namespace Sys2Proof.Machine

/-- Physical memory, the memory tags and the tables of threads and cohorts are in their canonical form, so that equal
contents are equal data. -/
structure State.Inv (s : State) : Prop where
  mem : Memory.wf s.mem = true
  tags : Sparse.wf s.tags = true
  threads : rising 0 s.threads = true
  cohorts : rising 0 s.cohorts = true

/-! ## Ops of the executing thread -/

/-- No register of the op that executes has another value than its own: no earlier result is in flight to one (R59,
R231). -/
def Thread.Clear (t : Thread) : Prop := t.keep = [] ∧ t.lose = [] ∧ t.win = []

/-- Instruction i executes for the thread that e describes: checks 4 to 6 of Table 7-7 pass, and its guard and its shadow
are true (R61, R151, R159). -/
structure State.Executes (s : State) (e : Env) (i : Instr) : Prop where
  env : s.env = some e
  checks : preCheck e i = none
  active : e.th.active (Instr.hdr i) = true
  clear : e.th.Clear

/-- The register is there after the op: a general register, or a temporary of an expansion that goes on (R131). -/
def Env.sees (e : Env) (x : Reg) : Prop :=
  match x with
  | .v _ => True
  | .k _ => ∃ y, e.th.exp = some y ∧ y.idx + 1 < y.ops.length

/-- The registers that a result occupies: none for vz (Table 7-5). -/
def regsOf (w64 : Bool) (d : Reg) : List Reg := if d = .v 255 then [] else if w64 then [d, regNext d] else [d]

/-- The op is the last of its expansion. -/
def Env.lastOp (e : Env) : Bool :=
  match e.th.exp with
  | none => false
  | some x => decide (x.ops.length ≤ x.idx + 1)

/-- A thread after an op: with the last op of an expansion the temporaries are gone, and nothing is in flight to one
(R128). -/
def Env.closes (e : Env) (t : Thread) : Thread := if e.lastOp then t.dropTemps else t

/-- The frame of an op that passes: of the thread's registers only `xs` and of its predicates only `ps` can differ, the
flags `fl` are added, and beside the PC, the distances of results in flight, the SKIP shadow, the expansion and its buffered
stores, the suppression of watchpoints and the grant of the token, all else of the thread is as it was. -/
structure Thread.Kept (e : Env) (i : Instr) (v : Thread) (xs : List Reg) (ps : List Nat) (fl : BitVec 7) : Prop where
  regs : ∀ x, x ∉ xs → e.sees x → v.rd x = e.th.rd x
  preds : ∀ n, n ∉ ps → v.p n = e.th.p n
  flags : v.flags = e.th.flags ||| fl
  pc : e.th.exp = none → v.pc = e.seqNext (Instr.isLong i)
  rest : v = { e.closes e.th with
    pc := v.pc, regs := v.regs, preds := v.preds, flags := v.flags, hazards := v.hazards, shadow := v.shadow
    exp := v.exp, commits := v.commits, wpSuppress := v.wpSuppress, granted := v.granted }

/-- State t is s but for the thread `tid`, which is v. -/
structure State.Becomes (s : State) (tid : Nat) (t : State) (v : Thread) : Prop where
  rest : t = { s with threads := t.threads }
  thread : aget t.threads tid = some v
  others : ∀ k, k ≠ tid → aget t.threads k = aget s.threads k

/-- Instruction i answers a next state that differs in the executing thread alone: the register or pair d holds `val`, the
flags `fl` are added, and all else is kept. -/
def State.Writes (s : State) (e : Env) (i : Instr) (w64 : Bool) (d : Reg) (val : Dword) (fl : BitVec 7) : Prop :=
  ∃ t v, exec i s = .next t ∧ s.Becomes e.tid t v ∧
    (e.sees d → v.rdW w64 d = if d = .v 255 then 0 else if w64 then val else (val.setWidth 32).setWidth 64) ∧
    Thread.Kept e i v (regsOf w64 d) [] fl

/-- Instruction i answers a next state that differs in the executing thread alone: predicate d, where it is not pt, is b,
the flags `fl` are added, and all else is kept. -/
def State.WritesPred (s : State) (e : Env) (i : Instr) (d : BitVec 8) (b : Bool) (fl : BitVec 7) : Prop :=
  ∃ t v, exec i s = .next t ∧ s.Becomes e.tid t v ∧ v.p d.toNat = (if d.toNat = 15 then true else b) ∧
    Thread.Kept e i v [] [d.toNat] fl

/-- Instruction i answers a next state that differs in the executing thread alone: each register of `ws` holds its word,
the flags `fl` are added, and all else is kept. -/
def State.WritesMany (s : State) (e : Env) (i : Instr) (ws : List (Reg × Word)) (fl : BitVec 7) : Prop :=
  ∃ t v, exec i s = .next t ∧ s.Becomes e.tid t v ∧ (∀ w, w ∈ ws → e.sees w.1 → v.rd w.1 = w.2) ∧
    Thread.Kept e i v (ws.map (·.1)) [] fl

/-- Instruction i answers a next state in which the executing thread has passed it and nothing else has changed but that
the flags `fl` are added. -/
def State.Passes (s : State) (e : Env) (i : Instr) (fl : BitVec 7) : Prop :=
  ∃ t v, exec i s = .next t ∧ s.Becomes e.tid t v ∧ Thread.Kept e i v [] [] fl

/-- Instruction i answers a next state that differs in the executing thread, which has passed it without a change of its
registers, and in w register n of its warp, into which it writes `val` (R163). -/
def State.WritesWarp (s : State) (e : Env) (i : Instr) (n : Nat) (val : Dword) : Prop :=
  ∃ t v, exec i s = .next t ∧ t = { s with threads := t.threads, warps := t.warps } ∧
    aget t.threads e.tid = some v ∧ Thread.Kept e i v [] [] 0 ∧ aget t.warps e.warp = some (e.w.wr s.bundle n e.lane val) ∧
    (∀ k, k ≠ e.tid → aget t.threads k = aget s.threads k) ∧ ∀ k, k ≠ e.warp → aget t.warps k = aget s.warps k

/-- Number of bits of an operand. -/
def bitsOfW (w64 : Bool) : Nat := if w64 then 64 else 32

/-- Instruction i delivers the exact integer r in the register or pair d (R423): without SAT its low bits, with SAT the
value of the type nearest to it, and then flag SAT where that is another value. -/
def State.Delivers (s : State) (e : Env) (i : Instr) (w64 signed sat : Bool) (d : Reg) (r : Int) : Prop :=
  let lo := tyMin (bitsOfW w64) signed
  let hi := tyMax (bitsOfW w64) signed
  let x := if sat then max lo (min hi r) else r
  s.Writes e i w64 d (BitVec.ofInt 64 x) (if x = r then 0 else flagSAT)

/-- The integer in the low bits of a 64-bit value. -/
def asInt (w64 signed : Bool) (x : Dword) : Int :=
  if w64 then (if signed then x.toInt else x.toNat) else (if signed then (x.setWidth 32).toInt else (x.setWidth 32).toNat)

/-- Byte j of a word, as an integer. -/
def byteInt (signed : Bool) (x : Word) (j : Nat) : Int :=
  if signed then (x.extractLsb' (8 * j) 8).toInt else (x.extractLsb' (8 * j) 8).toNat

/-- A code of a format that is a NaN, and one that is a signalling NaN. -/
def nanCode (t : Fmt) (c : Nat) : Bool := (t.val c 0).isNan
def sigCode (t : Fmt) (c : Nat) : Bool := (t.val c 0).isSig

/-- The flag of an invalid operation, where one holds. -/
def nvIf (c : Bool) : BitVec 7 := if c then flagNV else 0

/-- The integer n is a ÷ 2^k, rounded in a mode (R191). -/
def RoundsTo (rnd : Rnd) (a : Int) (k : Nat) (n : Int) : Prop :=
  match rnd with
  | .rn => 2 * (a - n * 2 ^ k).natAbs ≤ 2 ^ k ∧ (2 * (a - n * 2 ^ k).natAbs = 2 ^ k → n % 2 = 0)
  | .rz => n.natAbs * 2 ^ k ≤ a.natAbs ∧ a.natAbs < (n.natAbs + 1) * 2 ^ k ∧ (0 < n → 0 < a) ∧ (n < 0 → a < 0)
  | .rd => n * 2 ^ k ≤ a ∧ a < (n + 1) * 2 ^ k
  | .ru => (n - 1) * 2 ^ k < a ∧ a ≤ n * 2 ^ k

/-- The value ±m × 2^e in units of 2^g. -/
def inUnits (neg : Bool) (m : Nat) (e g : Int) : Int := (if neg then -1 else 1) * (m * 2 ^ (e - g).toNat : Nat)

/-- Log value of an L6 code, in quarters (R188). -/
def l6Log (c : Nat) : Int := if c % 32 < 16 then (c % 32 : Nat) else (c % 32 : Nat) - 32

/-- Linear magnitude of a log value, in units of 2^-19, by Table 9-2; that of zero stands at -16. -/
def l6Units (k : Int) : Nat :=
  if k ≤ -16 then 0 else [32768, 38968, 46341, 55109].getD (k % 4).toNat 0 * 2 ^ (k / 4 + 4).toNat

/-- Linear value of an L6 code that is no NaN, in those units (R188). -/
def l6Lin (c : Nat) : Int :=
  if c % 64 = 0x10 then 0 else (if c / 32 % 2 = 1 then -1 else 1) * (l6Units (l6Log c) : Nat)

/-- The code and the flags r are those of the value x ≠ 0 in units of 2^-19, encoded in a mode (R198): its magnitude is
rounded among those of the log values -16 to 16, the last of which has overflowed. -/
def L6Encodes (rnd : Rnd) (x : Int) (r : FRes) : Prop :=
  ∃ k : Int, -16 ≤ k ∧ k ≤ 16 ∧
    (let far := fun (j : Int) => ((l6Units j : Int) - x.natAbs).natAbs
     let inward := ∀ j, -16 ≤ j → j ≤ 16 → (l6Units j ≤ x.natAbs ↔ j ≤ k)
     let outward := ∀ j, -16 ≤ j → j < 16 → (l6Units j < x.natAbs ↔ j < k)
     match rnd with
     | .rz => inward
     | .rd => if x < 0 then outward else inward
     | .ru => if x < 0 then inward else outward
     | .rn => ∀ j, -16 ≤ j → j ≤ 16 → far k ≤ far j ∧ (far j = far k → j ≠ k → k % 2 = 0)) ∧
    let s := if x < 0 then 32 else 0
    r = if k = 16 then (s + 15, flagOF ||| flagNX)
      else if k = -16 then (0x10, flagUF ||| flagNX)
      else (s + (k % 32).toNat, if l6Units k = x.natAbs then 0 else if k < -12 then flagUF ||| flagNX else flagNX)

/-! ## Ops on registers alone -/

/-- Ops that read and write registers and predicates of their thread alone, in the float, packed, predicate and system
families. -/
def Instr.onRegisters : Instr → Bool
  | .frnd .. | .fclass .. | .padd .. | .pmul .. | .pfma .. | .pminmax .. | .sfn .. | .lmul .. | .ladd .. | .pmovP2r ..
  | .pmovR2p .. | .rdsys .. | .feat .. | .rand .. => true
  | _ => false

/-- Predicates that such an op can write: those of a PMOV.r2p (R456). -/
def Instr.writtenPreds : Instr → List Nat
  | .pmovR2p .. => List.range 15
  | _ => []

/-! ## Scopes -/

/-- The ceiling of the context clamps an op at this scope (R255, R273). -/
def Env.clamps (e : Env) (sc : Scope) : Bool := e.ctx.clamps sc

def Env.clampsOpt (e : Env) (sc : Option Scope) : Bool :=
  match sc with
  | none => false
  | some sc => e.clamps sc

/-- The scope at which an op that names `sc` acts (R255, R273). -/
def Env.reach (e : Env) (sc : Scope) : Scope :=
  if e.clamps sc then e.ctx.named (if e.ctx.con.ceil = 4 then .sect else if e.ctx.con.ceil = 5 then .device else .domain)
  else e.ctx.named sc

def Env.reachOpt (e : Env) (sc : Option Scope) : Option Scope := sc.map e.reach

/-- Flag SCOPE_CLAMP, where an op was clamped. -/
def clampFlag (c : Bool) : BitVec 7 := if c then flagClamp else 0

/-! ## Convergence points -/

/-- The lane-mask register of a convergence point (R54). -/
def convMask : Instr → Option Reg
  | .shfl _ _ _ _ _ _ m | .vote _ _ _ m | .redw _ _ _ _ _ _ _ _ m | .matchOp _ _ _ _ _ m | .elane _ _ m
  | .mmap _ _ _ m | .mmal _ _ _ m | .accz _ _ _ m | .accld _ _ _ m | .accst _ _ _ m => some m
  | _ => none

/-- What the thread of e waits at when it has arrived at convergence point i with mask register m. -/
def Env.waits (e : Env) (i : Instr) (m : Reg) : ConvWait :=
  { mask := e.th.mask m, guard := e.th.active (Instr.hdr i), pers := e.pers, op := i }

/-- The state in which the thread of e has arrived at convergence point i and waits. -/
def State.arrived (s : State) (e : Env) (i : Instr) (m : Reg) : State :=
  s.modThread e.tid fun t => { t with status := .conv (e.waits i m) }

/-- The thread of e arrives at convergence point i: no check turns it away (R54 to R56). -/
structure State.Arrives (s : State) (e : Env) (i : Instr) (m : Reg) : Prop where
  env : s.env = some e
  mask : convMask i = some m
  checks : preCheck e i = none
  good : arrivalBad s e i (e.th.mask m) = false
  room : Instr.isMatrix i = true → e.th.hasRoom .mxe = true
  alone : s.conflicts e (e.th.mask m) = []
  keys : rising 0 s.threads = true

/-- The waiting threads of the instance that the thread of e belongs to after its arrival (R54). -/
def State.instanceOf (s : State) (e : Env) (i : Instr) (m : Reg) : List (Nat × ConvWait) :=
  ((s.arrived e i m).waitersAt e.warp { e.th with status := .conv (e.waits i m) }).filter fun w => w.2.mask == e.th.mask m

/-- The instance is complete: every lane of its mask has arrived or exited (R54). -/
def State.instanceMet (s : State) (e : Env) (i : Instr) (m : Reg) : Bool :=
  (s.arrived e i m).allArrived e.warp (e.th.mask m) (s.instanceOf e i m)

/-- A thread of the instance, as it executes there. -/
def State.member (s : State) (e : Env) (i : Instr) (m : Reg) (w : Nat × ConvWait) : Option Env :=
  ((s.arrived e i m).envOf w.1 w.2.pers).map fun q => { q with th := q.th.leave }

/-- The participants of the instance: its threads whose guards are true (R54). -/
def State.participants (s : State) (e : Env) (i : Instr) (m : Reg) : List Env :=
  ((s.instanceOf e i m).filter fun w => w.2.guard).filterMap (s.member e i m)

/-! ## Ops that act beyond their thread's registers -/

/-- No stash line of any cohort holds one of n bytes of physical memory (R237). -/
def State.noLines (s : State) (key n : Nat) : Prop := ∀ c ∈ s.cohorts, ∀ l ∈ c.2.lines, l.2.overlaps key n = false

/-- Thread v has passed the op of e and is u otherwise: beside the PC, only the distances of results in flight, the SKIP
shadow, the expansion and its buffered stores, the suppression of watchpoints and the grant of the token can differ. -/
structure Thread.Past (e : Env) (i : Instr) (v u : Thread) : Prop where
  pc : e.th.exp = none → v.pc = e.seqNext (Instr.isLong i)
  temps : ∀ n, e.sees (.k n) → v.rd (.k n) = u.rd (.k n)
  rest : v = { e.closes u with
    pc := v.pc, hazards := v.hazards, shadow := v.shadow, exp := v.exp, commits := v.commits
    wpSuppress := v.wpSuppress, granted := v.granted }

/-- Instruction i answers a next state that is r but for the executing thread, which is u and has passed the op. -/
def State.Ends (s r : State) (e : Env) (i : Instr) (u : Thread) : Prop :=
  ∃ t v, exec i s = .next t ∧ r.Becomes e.tid t v ∧ Thread.Past e i v u

/-- Instruction i answers a next state that is r but for the executing thread, which is u at another PC, outside any
expansion. -/
def State.Jumps (s r : State) (e : Env) (i : Instr) (u : Thread) (pc : VAddr) : Prop :=
  ∃ t v, exec i s = .next t ∧ r.Becomes e.tid t v ∧
    v = { if e.th.exp.isSome then u.dropTemps else u with
      pc := pc, hazards := v.hazards, shadow := v.shadow, exp := none, commits := e.th.commits ++ e.buffered
      wpSuppress := false, granted := false }

/-- Instruction i answers a next state that is r but for the executing thread, which is v. -/
def State.Stands (s r : State) (e : Env) (i : Instr) (v : Thread) : Prop := ∃ t, exec i s = .next t ∧ r.Becomes e.tid t v

/-- The entries of registers and predicates that wait for the operation `id` of class LDC (R231). -/
def Env.pends (e : Env) (id : Nat) (ws : List (Reg × Word)) (ps : List (Nat × Bool)) : List Pend :=
  ((ws.filter fun w => w.1 ≠ .v 255).map fun w =>
    { key := .r w.1, old := (e.th.rd w.1).setWidth 64, new := w.2.setWidth 64, cls := .ldc, id := id, pc := e.th.pc }) ++
  (ps.filter fun q => q.1 < 15).map fun q =>
    { key := .p q.1, old := if e.th.p q.1 then 1 else 0, new := if q.2 then 1 else 0, cls := .ldc, id := id, pc := e.th.pc }

/-- The surroundings of the executing thread, with the order of its accesses as state r has it (R260, R266). -/
def Env.ordered (e : Env) (r : State) : Env := { e with th := { e.th with ord := r.ordOf e.tid } }

/-- The op is a load that brings words to registers and truths to predicates (R231, R435); r is the state once it has read.
Outside a template of two or more ops no register changes, an operation of class LDC is outstanding that will write them,
and they are pending; in one they are written (R132). `src`: ACC, virtual address and mapping page of each access whose data it awaits. -/
def State.Loads (s r : State) (e : Env) (i : Instr) (ws : List (Reg × Word)) (ps : List (Nat × Bool)) (fl : BitVec 7)
    (src : List (Nat × VAddr × Nat) := []) : Prop :=
  if e.multiOp then
    ∃ t v, exec i s = .next t ∧ r.Becomes e.tid t v ∧ Thread.Kept (e.ordered r) i v (ws.map (·.1)) (ps.map (·.1)) fl ∧
      (∀ w ∈ ws, e.sees w.1 → w.1 ≠ .v 255 → v.rd w.1 = w.2) ∧ ∀ q ∈ ps, q.1 < 15 → v.p q.1 = q.2
  else
    State.Ends s { r with nextId := r.nextId + 1 } e i
      { (e.ordered r).th.orFlags fl with
        out := e.th.out ++ [{ cls := .ldc, id := r.nextId, dests := ws, preds := ps, src := src }]
        pend := e.th.pend ++ e.pends r.nextId ws ps }

/-- The op stores in a template of two or more ops: the store joins the buffer of its expansion (R132). -/
def State.Buffers (s r : State) (e : Env) (i : Instr) (w : BufStore) (fl : BitVec 7) : Prop :=
  ∃ t v x, exec i s = .next t ∧ r.Becomes e.tid t v ∧ Thread.Kept (e.ordered r) i v [] [] fl ∧ e.th.exp = some x ∧
    if x.idx + 1 < x.ops.length then ∃ y, v.exp = some y ∧ y.stores = x.stores ++ [w]
    else v.exp = none ∧ v.commits = e.th.commits ++ x.stores ++ [w]

/-- The thread of e with SCOPE_CLAMP, where an op was clamped. -/
def State.marked (s : State) (e : Env) (c : Bool) : State := if c then s.modThread e.tid fun t => t.orFlags flagClamp else s

/-- No write is outstanding at n bytes from a key: what stands there is what every read returns. -/
def State.settledAt (s : State) (key n : Nat) : Prop := ∀ m ∈ s.hist, m.overlaps key n = false

/-- No cohort holds a stash line. -/
def State.noStash (s : State) : Prop := ∀ c ∈ s.cohorts, c.2.lines = []

/-- The thread's next write of n bytes at a key comes last in coherence order: no write is listed there that it need not
follow (R260, R268). -/
def State.lastAt (s : State) (tid key n : Nat) : Prop :=
  ∀ m ∈ s.hist, m.overlaps key n = true → (s.ordOf tid).follows m.ts = true

/-- The op stores to memory (R132, R497): in a template of two or more ops the store joins its buffer, in state r; else it
takes its place in coherence order and is made in state r', the stash lines that hold one of its bytes are recalled
(R238), and no other byte changes. -/
def State.Stores (s r r' : State) (e : Env) (i : Instr) (w : BufStore) (fl : BitVec 7) : Prop :=
  if e.multiOp then s.Buffers r e i w fl
  else
    ∃ x, writeSeenM e w.rel w.key w.bytes r' = .ok () x ∧ s.Ends x e i ((e.ordered x).th.orFlags fl) ∧
      (r'.lastAt e.tid w.key w.bytes.length → sread x.mem w.key w.bytes.length = w.bytes) ∧
      ∀ a, ¬ (w.key ≤ a ∧ a < w.key + w.bytes.length) →
        sget x.mem a = sget (r'.recall w.key w.bytes.length false).mem a ∧ (s.noStash → sget x.mem a = sget s.mem a)

/-- A walk for an accessor has no path but that in memory: no write is outstanding, and its cluster holds no entry of its
context's tables (R268, R279). -/
def State.walksNow (s : State) (w : Who) : Prop :=
  ∀ cl, w.cluster = some cl → s.hist = [] ∧ ∀ v ∈ s.seen, v.what = 3 ∨ v.what = 4 → v.cluster = cl → v.cid ≠ w.cid

/-! ## Bundles -/

/-- s1 and s2 are the sub-bundles of a bundle out of ready threads, where `lead` leads the first (R49): at most 32 threads;
in s1 as many as fit of those at the PC of `lead`, in s2 ones at the lowest other PC, each in ascending order of logical ID
behind the leader. -/
structure Bundle (rdy s1 s2 : List Cand) (lead : Cand) : Prop where
  ready : ∀ c ∈ s1 ++ s2, c ∈ rdy
  size : (s1 ++ s2).length ≤ 32
  leads : s1.head? = some lead
  same : ∀ c ∈ s1, Cand.at c lead = true
  full : s1.length = 32 ∨ ∀ c ∈ rdy, Cand.at c lead = true → c.tid ∈ s1.map Cand.tid
  order : s1.tail.Pairwise fun a b => Cand.gatherLe a b = true
  other : ∀ c ∈ s2, Cand.at c lead = false ∧ ∀ d ∈ rdy, Cand.at d lead = false → Cand.pcLe c d = true
  order2 : s2.Pairwise fun a b => Cand.gatherLe a b = true

/-! ## Cohorts -/

/-- State t is s with a new cohort of the launch l of number `lid`, placed on a core (R29, R31, R80, R229): every thread
starts at the launch's first PC with nothing in its registers, after what the launch's acceptance acquired and the writes
of `view`, and every warp has its role and a quarter. -/
structure State.NewCohort (s t : State) (lid : Nat) (l : Launch) (core index logical : Nat) (coord : List Nat)
    (binfire : Dword) (sp : Sparse 8) (view : List Nat := []) : Prop where
  cohort : ∃ c, aget t.cohorts s.nextId = some c ∧ c =
    { launch := lid, cid := l.cid, index := index, coord := coord
      groups := (l.groups.filter fun g => g.2.has coord).map (·.1), param := l.rc.param, binfire := binfire
      warps := l.rc.warps, regs := l.rc.regs, scratch := l.rc.scratch, nbar := l.rc.nbar, stash := l.rc.stash
      core := some core, logical := logical, sp := sp }
  cohorts : ∀ k, k ≠ s.nextId → aget t.cohorts k = aget s.cohorts k
  threads : ∀ k, k < 32 * l.rc.warps →
    aget t.threads (s.nextId * 1024 + k) = some { pc := l.rc.startPc, ord := { view := joinView l.view view } }
  others : ∀ k, ¬ (s.nextId * 1024 ≤ k ∧ k < s.nextId * 1024 + 32 * l.rc.warps) → aget t.threads k = aget s.threads k
  warps : ∀ w, w < l.rc.warps →
    ∃ q, q < 4 ∧ aget t.warps (s.nextId * 32 + w) = some { role := l.rc.role w, quarter := q }
  others' : ∀ k, ¬ (s.nextId * 32 ≤ k ∧ k < s.nextId * 32 + l.rc.warps) → aget t.warps k = aget s.warps k
  launch : ∃ x, aget t.launches lid = some x ∧ x = { l with created := l.created + 1, onCore := x.onCore }
  launches : ∀ k, k ≠ lid → aget t.launches k = aget s.launches k
  rest : t = { s with
    cohorts := t.cohorts, threads := t.threads, warps := t.warps, launches := t.launches, rotation := t.rotation
    free := t.free, nextId := s.nextId + 1 }

/-- State t is s with the walker of a section's slot replaced, or removed. -/
def State.setWalker (s : State) (w : Walker) (x : Option Walker) : State :=
  { s with walkers := s.walkers.filterMap fun y => if y.sec = w.sec ∧ y.slot = w.slot then x else some y }

/-! ## Firmware -/

/-- Owner command i of function f, of number fn, completes in state r with a status and a result: firmware writes its record,
a release at system scope after what the function's ring has been read with and what the module has written for the
command, and its ring entry is done (R327, R328). -/
def State.Answers (s : State) (f : Func) (i : Instr) (fn compl status result : Nat) (r : State) : Prop :=
  exec i s = .next (r.complete fn compl status result (joinView f.view (r.madeSince s.nextId)))

/-! ## Queues -/

/-- It is the turn of queue k, whose next packet has OP `op` and bytes b; r is the state once the slot is read (R331,
R332). -/
structure State.Serves (s : State) (k : Nat) (q : Queue) (op : Nat) (b : List Byte) (r : State) : Prop where
  queue : aget s.queues k = some q
  ready : s.queueReady k q = true
  turn : ((s.nextServed q.sec).map fun x => (x.dev, x.key)) = some (false, k)
  slot : ∃ barrier, s.slot q = (.packet op barrier b, r)

/-- Queue k stands in state t as q with the fields that f changes; every other queue is as in s. -/
def State.Queued (s t : State) (k : Nat) (q : Queue) : Prop :=
  aget t.queues k = some q ∧ ∀ j, j ≠ k → aget t.queues j = aget s.queues j

/-- A queue whose slot at RDIDX is consumed, by its turn number n (R332). -/
def Queue.consumed (q : Queue) (n : Nat) : Queue :=
  let rd := (q.rd + 1) % 2 ^ 32
  { q with turn := n, rd := rd, state := if q.wr = rd then 0 else 1, err := 0 }

end Sys2Proof.Machine
end

