-- ==== Sys2Proof/Certificates/Slice0/Obligations.lean ====
section
/-! DEFINITION. The statements about the machine, each a proposition. -/

open Sys2Proof Sys2Proof.Machine

/-! ## Integer and bit instructions -/

/-- IADD, ISUB and IMUL deliver the exact sum, difference and product of their operands (R423). IMULH writes the high
half of the exact product, IMAD delivers the exact sum of product and addend, of twice the width in its wide form,
IMIN and IMAX write the lesser and the greater operand, and IABS delivers the absolute value (R423). IDP4 delivers
the addend plus the four byte products (R425). -/
def Obligations.IntegerArithmetic : Prop :=
  (∀ (h : Hdr) (ty : IntTy) (sat : Bool) (d a : Reg) (b : SrcB) (s : State) (e : Env),
     let x := asInt ty.is64 ty.signed (e.th.rdW ty.is64 a)
     let y := asInt ty.is64 ty.signed (e.th.srcB ty b)
     (s.Executes e (.iadd h ty sat d a b) → s.Delivers e (.iadd h ty sat d a b) ty.is64 ty.signed sat d (x + y)) ∧
     (s.Executes e (.isub h ty sat d a b) → s.Delivers e (.isub h ty sat d a b) ty.is64 ty.signed sat d (x - y)) ∧
     (s.Executes e (.imul h ty sat d a b) → s.Delivers e (.imul h ty sat d a b) ty.is64 ty.signed sat d (x * y))) ∧
  ((∀ (h : Hdr) (ty : IntTy) (d a : Reg) (b : SrcB) (s : State) (e : Env),
     let x := asInt ty.is64 ty.signed (e.th.rdW ty.is64 a)
     let y := asInt ty.is64 ty.signed (e.th.srcB ty b)
     (s.Executes e (.imulh h ty d a b) →
       s.Delivers e (.imulh h ty d a b) ty.is64 ty.signed false d (x * y / 2 ^ bitsOfW ty.is64)) ∧
     (s.Executes e (.imin h ty d a b) → s.Delivers e (.imin h ty d a b) ty.is64 ty.signed false d (min x y)) ∧
     (s.Executes e (.imax h ty d a b) → s.Delivers e (.imax h ty d a b) ty.is64 ty.signed false d (max x y))) ∧
   (∀ (h : Hdr) (ty : IntTy) (wide sat : Bool) (d a : Reg) (b : SrcB) (c : Reg) (s : State) (e : Env),
     let w := ty.is64 || wide
     let x := asInt ty.is64 ty.signed (e.th.rdW ty.is64 a)
     let y := asInt ty.is64 ty.signed (e.th.srcB ty b)
     s.Executes e (.imad h ty wide sat d a b c) →
       s.Delivers e (.imad h ty wide sat d a b c) w ty.signed sat d (x * y + asInt w ty.signed (e.th.rdW w c))) ∧
   ∀ (h : Hdr) (w64 sat : Bool) (d a : Reg) (s : State) (e : Env),
     s.Executes e (.iabs h w64 sat d a) →
       s.Delivers e (.iabs h w64 sat d a) w64 true sat d (asInt w64 true (e.th.rdW w64 a)).natAbs) ∧
  (∀ (h : Hdr) (asg bsg sat : Bool) (d a b c : Reg) (s : State) (e : Env),
     s.Executes e (.idp4 h asg bsg sat d a b c) →
       s.Delivers e (.idp4 h asg bsg sat d a b c) false true sat d
         ((e.th.rd c).toInt + byteInt asg (e.th.rd a) 0 * byteInt bsg (e.th.rd b) 0 +
           byteInt asg (e.th.rd a) 1 * byteInt bsg (e.th.rd b) 1 + byteInt asg (e.th.rd a) 2 * byteInt bsg (e.th.rd b) 2 +
           byteInt asg (e.th.rd a) 3 * byteInt bsg (e.th.rd b) 3))

/-- ISETP writes the comparison of its operands, signed or unsigned as the type says, to its predicate (R426). FSETP
writes its comparison, and a signalling NaN operand sets NV (R417, R418); PLOP3 writes the bit of its table that its
three sources select, PMOV.p2r writes the predicates to a register, and PMOV.r2p writes those that its mask selects
(R455, R456). -/
def Obligations.Comparisons : Prop :=
  (∀ (h : Hdr) (ty : IntTy) (cmp : ICmp) (d : BitVec 8) (a : Reg) (b : SrcB) (s : State) (e : Env),
     let x := asInt ty.is64 ty.signed (e.th.rdW ty.is64 a)
     let y := asInt ty.is64 ty.signed (e.th.srcB ty b)
     s.Executes e (.isetp h ty cmp d a b) →
       s.WritesPred e (.isetp h ty cmp d a b) d
         (match cmp with
           | .eq => x = y
           | .ne => x ≠ y
           | .lt => x < y
           | .le => x ≤ y
           | .gt => x > y
           | .ge => x ≥ y) 0) ∧
  ((∀ (h : Hdr) (ty : FTy) (cmp : FCmp) (d : BitVec 8) (a : Reg) (b : SrcB) (s : State) (e : Env),
     let m := FTy.fmt ty
     let x := (e.th.rd a).toNat % 2 ^ m.bits
     let y := (e.th.srcW b).toNat % 2 ^ m.bits
     s.Executes e (.fsetp h ty cmp d a b) →
       s.WritesPred e (.fsetp h ty cmp d a b) d (fcompare m cmp x y).1 (nvIf (sigCode m x || sigCode m y))) ∧
   ∀ (h : Hdr) (d a b : BitVec 8) (c : BitVec 5) (lut : BitVec 8) (s : State) (e : Env),
     s.Executes e (.plop3 h d a b c lut) →
       s.WritesPred e (.plop3 h d a b c lut) d
         (lut.getLsbD (4 * (e.th.psrc a).toNat + 2 * (e.th.psrc b).toNat + (e.th.psrc (c.setWidth 8)).toNat)) 0) ∧
  (∀ (h : Hdr) (d : Reg) (s : State) (e : Env),
     s.Executes e (.pmovP2r h d) → s.Writes e (.pmovP2r h d) false d (e.th.preds.setWidth 64) 0) ∧
  ∀ (h : Hdr) (a b : Reg) (s : State) (e : Env), s.Executes e (.pmovR2p h a b) →
    ∃ t v, exec (.pmovR2p h a b) s = .next t ∧ s.Becomes e.tid t v ∧
      (∀ n, n < 15 → v.p n = if (e.th.rd b).getLsbD n then (e.th.rd a).getLsbD n else e.th.p n) ∧
      Thread.Kept e (.pmovR2p h a b) v [] (List.range 15) 0

/-- SHL and SHR shift by the lesser of the unsigned amount and the width, and SHF shifts its operand pair (R488). BFE
writes the bit field that its control word names, extended as the type says (R378), and BFI replaces that field of its
third operand (R380). Each byte of PSWZ's result comes from the source byte that its control byte names: a copy, its
sign, zero, or its bits reversed (R460). -/
def Obligations.BitOperations : Prop :=
  ((∀ (h : Hdr) (ty : IntTy) (d a : Reg) (b : SrcB) (s : State) (e : Env),
     let x := e.th.rdW ty.is64 a
     let n := min (e.th.srcB32 ty b).toNat (bitsOfW ty.is64)
     (s.Executes e (.shl h ty d a b) → s.Writes e (.shl h ty d a b) ty.is64 d (x <<< n) 0) ∧
     (s.Executes e (.shr h ty d a b) →
       s.Writes e (.shr h ty d a b) ty.is64 d
         (if !ty.signed then x >>> n
          else if ty.is64 then x.sshiftRight n else ((x.setWidth 32).sshiftRight n).setWidth 64) 0)) ∧
   ∀ (h : Hdr) (w64 right : Bool) (d a : Reg) (b : SrcB) (c : Reg) (s : State) (e : Env),
     let w := bitsOfW w64
     let n := min (e.th.srcB32 (if w64 then .n64 else .n32) b).toNat w
     let x := e.th.rdW w64 a
     let z := e.th.rdW w64 c
     s.Executes e (.shf h w64 right d a b c) →
       s.Writes e (.shf h w64 right d a b c) w64 d
         (if right then (z <<< (w - n)) ||| (x >>> n) else (z <<< n) ||| (x >>> (w - n))) 0) ∧
  ((∀ (h : Hdr) (ty : IntTy) (d a : Reg) (b : SrcB) (s : State) (e : Env),
     let w := bitsOfW ty.is64
     let ctl := e.th.srcB32 ty b
     let p := min (ctl.extractLsb' 0 8).toNat w
     let l0 := (ctl.extractLsb' 8 8).toNat
     let l := min (if l0 = 0 then w - p else l0) (w - p)
     let x := e.th.rdW ty.is64 a
     s.Executes e (.bfe h ty d a b) →
       ∃ v : Dword, s.Writes e (.bfe h ty d a b) ty.is64 d v 0 ∧
         ∀ k, k < w → v.getLsbD k = (if k < l then x.getLsbD (p + k) else ty.signed && l != 0 && x.getLsbD (p + l - 1))) ∧
   ∀ (h : Hdr) (w64 : Bool) (d a : Reg) (b : SrcB) (c : Reg) (s : State) (e : Env),
     let w := bitsOfW w64
     let ctl := e.th.srcB32 (if w64 then .n64 else .n32) b
     let p := min (ctl.extractLsb' 0 8).toNat w
     let l0 := (ctl.extractLsb' 8 8).toNat
     let l := min (if l0 = 0 then w - p else l0) (w - p)
     s.Executes e (.bfi h w64 d a b c) →
       ∃ v : Dword, s.Writes e (.bfi h w64 d a b c) w64 d v 0 ∧
         ∀ k, k < w → v.getLsbD k =
           (if p ≤ k ∧ k < p + l then (e.th.rdW w64 a).getLsbD (k - p) else (e.th.rdW w64 c).getLsbD k)) ∧
  (∀ (h : Hdr) (d a : Reg) (b : SrcB) (c : Reg) (s : State) (e : Env),
     let src := joinWords (e.th.rd a) (e.th.srcW b)
     s.Executes e (.pswz h d a b c) →
       ∃ v : Word, s.Writes e (.pswz h d a b c) false d (v.setWidth 64) 0 ∧
         ∀ j, j < 4 →
           let ctl := (e.th.rd c).extractLsb' (8 * j) 8
           let x := src.extractLsb' (8 * (ctl.extractLsb' 0 3).toNat) 8
           ∀ k, k < 8 → v.getLsbD (8 * j + k) = match (ctl.extractLsb' 3 2).toNat with
             | 0 => x.getLsbD k
             | 1 => x.getLsbD 7
             | 2 => false
             | _ => x.getLsbD (7 - k))

/-- Each bit of LOGT's result is the bit of its table that the three operands' bits select (R440); BREV's is the opposite
bit of its operand (R387); POPC's result is the number of 1 bits (R457); CLZ's is the number of zero bits above the
highest 1 (R397). LEA adds its scaled index to a 64-bit base (R438); SEL writes one of its two operands, as its
predicate says (R479). MOV copies its source, MOV.X an emulation register of a thread in handler state, and MOVI writes
its extended value (R448); outside handler state MOV.X fails check 4, whose fault has the op's PC (R159). -/
def Obligations.MovesAndSelects : Prop :=
  ((∀ (h : Hdr) (w64 : Bool) (d a : Reg) (b : SrcB) (lut : BitVec 8) (s : State) (e : Env),
     s.Executes e (.logt h w64 d a b lut) →
       ∃ v : Dword, s.Writes e (.logt h w64 d a b lut) w64 d v 0 ∧
         ∀ k, k < bitsOfW w64 → v.getLsbD k = lut.getLsbD (4 * ((e.th.rdW w64 a).getLsbD k).toNat +
           2 * ((e.th.srcW64 w64 b).getLsbD k).toNat + ((e.th.rdW w64 d).getLsbD k).toNat)) ∧
   ∀ (h : Hdr) (w64 : Bool) (d a : Reg) (s : State) (e : Env),
     let w := bitsOfW w64
     let x := e.th.rdW w64 a
     (s.Executes e (.brev h w64 d a) →
       ∃ v : Dword, s.Writes e (.brev h w64 d a) w64 d v 0 ∧ ∀ k, k < w → v.getLsbD k = x.getLsbD (w - 1 - k)) ∧
     (s.Executes e (.popc h w64 d a) →
       s.Writes e (.popc h w64 d a) w64 d (BitVec.ofNat 64 ((List.range w).countP fun k => x.getLsbD k)) 0) ∧
     (s.Executes e (.clz h w64 d a) →
       ∃ n, n ≤ w ∧ s.Writes e (.clz h w64 d a) w64 d (BitVec.ofNat 64 n) 0 ∧
         (∀ k, w - n ≤ k → k < w → x.getLsbD k = false) ∧ (n < w → x.getLsbD (w - 1 - n) = true))) ∧
  ((∀ (h : Hdr) (ty : IntTy) (d a : Reg) (b : SrcB) (sh : BitVec 6) (s : State) (e : Env),
     let x := e.th.srcB ty b
     let x' := if ty.is64 then x else if ty.signed then (x.setWidth 32).signExtend 64 else (x.setWidth 32).setWidth 64
     s.Executes e (.lea h ty d a b sh) → s.Writes e (.lea h ty d a b sh) true d (e.th.rd64 a + x' <<< sh.toNat) 0) ∧
   ∀ (h : Hdr) (w64 : Bool) (d a : Reg) (b : SrcB) (pc : BitVec 8) (s : State) (e : Env),
     s.Executes e (.sel h w64 d a b pc) →
       s.Writes e (.sel h w64 d a b pc) w64 d (if e.th.psrc pc then e.th.rdW w64 a else e.th.srcW64 w64 b) 0) ∧
  ((∀ (h : Hdr) (w64 : Bool) (d a : Reg) (s : State) (e : Env),
     s.Executes e (.mov h w64 d a) → s.Writes e (.mov h w64 d a) w64 d (e.th.rdW w64 a) 0) ∧
   (∀ (h : Hdr) (d : Reg) (n : BitVec 8) (e : Env), e.th.handler = false →
     preCheck e (.movX h d n) = some { kind := .illegalOperand, addr := e.th.pc.setWidth 64 }) ∧
   (∀ (h : Hdr) (d : Reg) (n : BitVec 8) (s : State) (e : Env),
     s.Executes e (.movX h d n) →
       e.th.handler = true ∧ s.Writes e (.movX h d n) false d ((sget e.th.x n.toNat).setWidth 64) 0) ∧
   (∀ (h : Hdr) (ty : IntTy) (d : Reg) (v : BitVec 8) (s : State) (e : Env),
     s.Executes e (.moviShort h ty d v) →
       s.Writes e (.moviShort h ty d v) ty.is64 d (if ty.signed then v.signExtend 64 else v.setWidth 64) 0) ∧
   ∀ (h : Hdr) (ty : IntTy) (d : Reg) (v : Dword) (s : State) (e : Env),
     s.Executes e (.moviLong h ty d v) → s.Writes e (.moviLong h ty d v) ty.is64 d v 0)

/-! ## Floating-point and packed instructions -/

/-- FADD, FMUL, FFMA, FMIN, FMAX and FRND write a code of their format, zero above its bits, with its flags: the exact
sum, product or product and sum of their operands, rounded once into the format, the lesser or the greater operand,
and the operand rounded to an integral value in the direction of RND, with its sign, unchanged where it is infinite (R407,
R408, R416). FCLASS sets the bit of Table 18-8 (R410). Each 16-bit element of a packed op that EL selects is the result
of the scalar op, and the other is zero without flags (R451). -/
def Obligations.FloatAndPackedArithmetic : Prop :=
  ((∀ (h : Hdr) (ty : FTy) (rnd : Rnd) (nb nc : Bool) (d a : Reg) (b : SrcB) (c : Reg) (s : State) (e : Env),
     let m := FTy.fmt ty
     let x := m.val ((e.th.rd a).toNat % 2 ^ m.bits) 0
     let y := (m.val ((e.th.srcW b).toNat % 2 ^ m.bits) 0).negIf nb
     let z := (m.val ((e.th.rd c).toNat % 2 ^ m.bits) 0).negIf nc
     let rounded := fun (v : Val × BitVec 7) => (BitVec.ofNat 64 (roundTo m rnd v.1 0).1, v.2 ||| (roundTo m rnd v.1 0).2)
     let sum := rounded (addVal x y rnd)
     let product := rounded (mulVal x y)
     let fused := rounded ((addVal (mulVal x y).1 z rnd).1, (mulVal x y).2 ||| (addVal (mulVal x y).1 z rnd).2)
     (s.Executes e (.fadd h ty rnd nb d a b) → s.Writes e (.fadd h ty rnd nb d a b) false d sum.1 sum.2) ∧
     (s.Executes e (.fmul h ty rnd nb d a b) → s.Writes e (.fmul h ty rnd nb d a b) false d product.1 product.2) ∧
     (s.Executes e (.ffma h ty rnd nb nc d a b c) → s.Writes e (.ffma h ty rnd nb nc d a b c) false d fused.1 fused.2)) ∧
   (∀ (h : Hdr) (ty : FTy) (d a : Reg) (b : SrcB) (s : State) (e : Env),
     let m := FTy.fmt ty
     let x := (e.th.rd a).toNat % 2 ^ m.bits
     let y := (e.th.srcW b).toNat % 2 ^ m.bits
     nanCode m x = false → nanCode m y = false →
     (s.Executes e (.fmin h ty d a b) →
       s.Writes e (.fmin h ty d a b) false d (BitVec.ofNat 64 (if (m.val x 0).lt0 (m.val y 0) then x else y)) 0) ∧
     (s.Executes e (.fmax h ty d a b) →
       s.Writes e (.fmax h ty d a b) false d (BitVec.ofNat 64 (if (m.val x 0).lt0 (m.val y 0) then y else x)) 0)) ∧
   ∀ (h : Hdr) (ty : FTy) (rnd : Rnd) (d a : Reg) (s : State) (e : Env),
     let m := FTy.fmt ty
     let x := (e.th.rd a).toNat % 2 ^ m.bits
     s.Executes e (.frnd h ty rnd d a) →
       s.Writes e (.frnd h ty rnd d a) false d (BitVec.ofNat 64 (fround m rnd x).1) (fround m rnd x).2 ∧
       (nanCode m x = false → (fround m rnd x).2 = 0) ∧
       (∀ neg, m.val x 0 = .inf neg → (fround m rnd x).1 = x) ∧
       ∀ neg mm ex, m.val x 0 = .num neg mm ex →
         ∃ n k g, RoundsTo rnd (inUnits neg mm ex (min ex 0)) (-ex).toNat n ∧
           m.val (fround m rnd x).1 0 = .num neg k g ∧ inUnits neg k g (min g 0) = n * 2 ^ (-g).toNat) ∧
  (∀ (h : Hdr) (ty : NumTy) (d a : Reg) (s : State) (e : Env),
     let m := NumTy.fmt ty
     let x := (e.th.rd a).toNat % 2 ^ m.bits
     s.Executes e (.fclass h ty d a) →
       s.Writes e (.fclass h ty d a) false d (BitVec.ofNat 64 (2 ^ fclassBit m x)) 0 ∧
       let neg := 2 ^ (m.bits - 1) ≤ x
       let ex := x / 2 ^ m.fbits % 2 ^ m.ebits
       let fr := x % 2 ^ m.fbits
       fclassBit m x =
         if m = .f4 then (if x = 0 then 6 else if x = 1 then 7 else if x < 8 then 8 else if x = 8 then 10 else if x = 9 then 4 else 3)
         else if m = .l6 then (if x = 0x10 then 6 else if x = 0x30 then 1 else if x < 0x20 then 8 else 3)
         else if ex = 0 then (if fr = 0 then (if neg then 5 else 6) else if neg then 4 else 7)
         else if m = .f8e4 then (if ex = 15 ∧ fr = 7 then 1 else if neg then 3 else 8)
         else if ex = 2 ^ m.ebits - 1 then
           (if fr = 0 then (if neg then 2 else 9) else if fr < 2 ^ (m.fbits - 1) then 0 else 1)
         else if neg then 3 else 8) ∧
  ∀ (h : Hdr) (bf isMax : Bool) (rnd : Rnd) (nb nc : Bool) (el : PackEl) (d a : Reg) (b : SrcB) (c : Reg) (s : State)
     (e : Env),
     let m := if bf then Fmt.bf16 else .f16
     let x := e.th.rd a
     let y := e.th.srcW b
     let z := e.th.rd c
     let lo := fun (v : Word) => (v.extractLsb' 0 16).toNat
     let hi := fun (v : Word) => (v.extractLsb' 16 16).toNat
     let sel := fun (r0 r1 : FRes) => ((if el = .hi then (0, 0) else r0, if el = .lo then (0, 0) else r1) : FRes × FRes)
     let code := fun (r : FRes × FRes) => BitVec.ofNat 64 (r.1.1 + 65536 * r.2.1)
     let flags := fun (r : FRes × FRes) => r.1.2 ||| r.2.2
     let add := sel (fadd' m rnd (lo x) nb (lo y)) (fadd' m rnd (hi x) nb (hi y))
     let mul := sel (fmul' m rnd (lo x) nb (lo y)) (fmul' m rnd (hi x) nb (hi y))
     let fma := sel (ffma' m rnd (lo x) nb (lo y) nc (lo z)) (ffma' m rnd (hi x) nb (hi y) nc (hi z))
     let mm := sel (fminmax m isMax (lo x) (lo y)) (fminmax m isMax (hi x) (hi y))
     (s.Executes e (.padd h bf rnd nb el d a b) →
       s.Writes e (.padd h bf rnd nb el d a b) false d (code add) (flags add)) ∧
     (s.Executes e (.pmul h bf rnd nb el d a b) →
       s.Writes e (.pmul h bf rnd nb el d a b) false d (code mul) (flags mul)) ∧
     (s.Executes e (.pfma h bf rnd nb nc el d a b c) →
       s.Writes e (.pfma h bf rnd nb nc el d a b c) false d (code fma) (flags fma)) ∧
     (s.Executes e (.pminmax h bf isMax el d a b) →
       s.Writes e (.pminmax h bf isMax el d a b) false d (code mm) (flags mm))

/-- FMIN and FMAX return the other operand of a NaN and the canonical NaN of two, FADD, FMUL, FFMA, FRND and SFN the
canonical NaN of any, and a signalling NaN sets NV in each; FCLASS tells a signalling NaN from a quiet one without a
flag (R407, R408, R410, R416, R485). A packed element with a NaN operand is the 16-bit canonical NaN, and an element
of LMUL or LADD with a NaN operand is NaN without a flag (R428, R451). -/
def Obligations.FloatNaNs : Prop :=
  (∀ (h : Hdr) (ty : FTy) (rnd : Rnd) (nb nc : Bool) (d a : Reg) (b : SrcB) (c : Reg) (s : State) (e : Env),
    let m := FTy.fmt ty
    let x := (e.th.rd a).toNat % 2 ^ m.bits
    let y := (e.th.srcW b).toNat % 2 ^ m.bits
    let z := (e.th.rd c).toNat % 2 ^ m.bits
    let canon : Dword := BitVec.ofNat 64 m.cnan
    (∀ i : Instr, i = .fmin h ty d a b ∨ i = .fmax h ty d a b → s.Executes e i →
      (nanCode m x = true → nanCode m y = true → s.Writes e i false d canon (nvIf (sigCode m x || sigCode m y))) ∧
      (nanCode m x = true → nanCode m y = false → s.Writes e i false d (BitVec.ofNat 64 y) (nvIf (sigCode m x))) ∧
      (nanCode m x = false → nanCode m y = true → s.Writes e i false d (BitVec.ofNat 64 x) (nvIf (sigCode m y)))) ∧
    (∀ i : Instr, i = .fadd h ty rnd nb d a b ∨ i = .fmul h ty rnd nb d a b → s.Executes e i →
      nanCode m x = true ∨ nanCode m y = true → s.Writes e i false d canon (nvIf (sigCode m x || sigCode m y))) ∧
    (s.Executes e (.ffma h ty rnd nb nc d a b c) → nanCode m x = true ∨ nanCode m y = true →
      s.Writes e (.ffma h ty rnd nb nc d a b c) false d canon
        (nvIf (sigCode m x || sigCode m y || sigCode m z))) ∧
    (s.Executes e (.frnd h ty rnd d a) → nanCode m x = true →
      s.Writes e (.frnd h ty rnd d a) false d canon (nvIf (sigCode m x))) ∧
    ∀ fn : SfnFn, s.Executes e (.sfn h fn ty d a) → nanCode m x = true →
      s.Writes e (.sfn h fn ty d a) false d canon (nvIf (sigCode m x))) ∧
  (∀ (h : Hdr) (ty : NumTy) (d a : Reg) (s : State) (e : Env),
    let m := NumTy.fmt ty
    let x := (e.th.rd a).toNat % 2 ^ m.bits
    s.Executes e (.fclass h ty d a) → nanCode m x = true →
      s.Writes e (.fclass h ty d a) false d (if sigCode m x then 1 else 2) 0) ∧
  (∀ (h : Hdr) (bf isMax : Bool) (rnd : Rnd) (nb nc : Bool) (d a : Reg) (b : SrcB) (c : Reg) (s : State) (e : Env),
    let m := if bf then Fmt.bf16 else .f16
    let x := ((e.th.rd a).extractLsb' 0 16).toNat
    let y := ((e.th.srcW b).extractLsb' 0 16).toNat
    let z := ((e.th.rd c).extractLsb' 0 16).toNat
    let canon : Dword := BitVec.ofNat 64 m.cnan
    (∀ i : Instr, i = .padd h bf rnd nb .lo d a b ∨ i = .pmul h bf rnd nb .lo d a b → s.Executes e i →
      nanCode m x = true ∨ nanCode m y = true → s.Writes e i false d canon (nvIf (sigCode m x || sigCode m y))) ∧
    (s.Executes e (.pfma h bf rnd nb nc .lo d a b c) → nanCode m x = true ∨ nanCode m y = true →
      s.Writes e (.pfma h bf rnd nb nc .lo d a b c) false d canon (nvIf (sigCode m x || sigCode m y || sigCode m z))) ∧
    (s.Executes e (.pminmax h bf isMax .lo d a b) → nanCode m x = true → nanCode m y = true →
      s.Writes e (.pminmax h bf isMax .lo d a b) false d canon (nvIf (sigCode m x || sigCode m y)))) ∧
  ∀ (h : Hdr) (rnd : Rnd) (nb : Bool) (d a b : Reg) (s : State) (e : Env),
    let el := fun (v : Word) (k : Nat) => (v.extractLsb' (8 * k) 6).toNat
    (∀ k, k < 4 → el (e.th.rd a) k = 0x30 ∨ el (e.th.rd b) k = 0x30) →
    (s.Executes e (.lmul h d a b) → s.Writes e (.lmul h d a b) false d 0x30303030#64 0) ∧
    (s.Executes e (.ladd h rnd nb d a b) → s.Writes e (.ladd h rnd nb d a b) false d 0x30303030#64 0)

/-- SFN writes its function's result (R485). The special operands of Table 21-2 give its results, and so do the exact cases
of .ex2 and .lg2; .rcp and .rsq of another operand are a value within 2^-60 of the exact one, rounded once to nearest.
The other values of the remaining functions are free inside their bounds (log entry 4). An element of LMUL has n = na +
nb, saturated above 15 and zero below -15 (R197), and one of LADD the exact sum of its linear values, encoded by R198
(R428). CVT writes its conversion (R399). -/
def Obligations.SpecialFunctionsAndConversions : Prop :=
  (∀ (h : Hdr) (fn : SfnFn) (ty : FTy) (d a : Reg) (s : State) (e : Env),
    let m := FTy.fmt ty
    let x := (e.th.rd a).toNat % 2 ^ m.bits
    let sg := 2 ^ (m.bits - 1)
    let one := m.bias * 2 ^ m.fbits
    let r := sfnVal fn ty x
    let bad : FRes := (m.cnan, flagNV)
    s.Executes e (.sfn h fn ty d a) →
      s.Writes e (.sfn h fn ty d a) false d (BitVec.ofNat 64 r.1) r.2 ∧
      (x = m.infCode → r = match fn with
        | .rcp | .rsq => (0, 0)
        | .ex2 | .lg2 => (m.infCode, 0)
        | .sin | .cos => bad
        | .tanh | .sigm => (one, 0)) ∧
      (x = sg + m.infCode → r = match fn with
        | .rcp => (sg, 0)
        | .rsq | .lg2 | .sin | .cos => bad
        | .ex2 | .sigm => (0, 0)
        | .tanh => (sg + one, 0)) ∧
      (x % sg = 0 → fn ≠ .sigm → r = match fn with
        | .rcp | .rsq => (x + m.infCode, flagDZ)
        | .lg2 => (sg + m.infCode, flagDZ)
        | .sin | .tanh => (x, 0)
        | _ => (one, 0)) ∧
      ∀ neg mm ex, m.val x 0 = .num neg mm ex → mm ≠ 0 →
        (fn = .rcp → ∃ (k : Nat) (g : Int), r = roundTo m .rn (.num neg k g) 0 ∧ ex + g ≤ 0 ∧
          2 ^ 60 * ((mm * k : Nat) - (2 ^ (-(ex + g)).toNat : Int)).natAbs ≤ 2 ^ (-(ex + g)).toNat) ∧
        (fn = .rsq ∨ fn = .lg2 → neg = true → r = bad) ∧
        (fn = .rsq → neg = false → ∃ (k : Nat) (g : Int), r = roundTo m .rn (.num false k g) 0 ∧ ex + 2 * g ≤ 0 ∧
          2 ^ 60 * ((mm * k * k : Nat) - (2 ^ (-(ex + 2 * g)).toNat : Int)).natAbs ≤ 2 ^ (-(ex + 2 * g)).toNat) ∧
        (∀ j : Nat, fn = .lg2 → neg = false → mm = 2 ^ j →
          r = roundTo m .rn (.num (decide (j + ex < 0)) (j + ex).natAbs 0) 0) ∧
        ∀ n : Int, fn = .ex2 → inUnits neg mm ex (min ex 0) = n * 2 ^ (-ex).toNat → 1 - (m.bias : Int) - m.fbits ≤ n →
          n ≤ m.bias → r = roundTo m .rn (.num false 1 n) 0) ∧
  (∀ (h : Hdr) (d a b : Reg) (s : State) (e : Env),
    let el := fun (v : Word) (k : Nat) => (v.extractLsb' (8 * k) 6).toNat
    let r := fun k => l6mul (el (e.th.rd a) k) (el (e.th.rd b) k)
    s.Executes e (.lmul h d a b) →
      s.Writes e (.lmul h d a b) false d
        (BitVec.ofNat 64 ((r 0).1 + 256 * (r 1).1 + 65536 * (r 2).1 + 16777216 * (r 3).1))
        ((r 0).2 ||| (r 1).2 ||| (r 2).2 ||| (r 3).2) ∧
      ∀ k, k < 4 →
        let x := el (e.th.rd a) k
        let y := el (e.th.rd b) k
        let n := l6Log x + l6Log y
        let sg := if x / 32 = y / 32 then 0 else 32
        r k = if x = 0x30 ∨ y = 0x30 then (0x30, 0)
          else if x = 0x10 ∨ y = 0x10 then (0x10, 0)
          else if 15 < n then (sg + 15, flagOF ||| flagNX)
          else if n < -15 then (0x10, flagUF ||| flagNX)
          else (sg + (n % 32).toNat, 0)) ∧
  (∀ (h : Hdr) (rnd : Rnd) (nb : Bool) (d a b : Reg) (s : State) (e : Env),
    let el := fun (v : Word) (k : Nat) => (v.extractLsb' (8 * k) 6).toNat
    let r := fun k => l6add rnd (el (e.th.rd a) k) (if nb then l6neg (el (e.th.rd b) k) else el (e.th.rd b) k)
    s.Executes e (.ladd h rnd nb d a b) →
      s.Writes e (.ladd h rnd nb d a b) false d
        (BitVec.ofNat 64 ((r 0).1 + 256 * (r 1).1 + 65536 * (r 2).1 + 16777216 * (r 3).1))
        ((r 0).2 ||| (r 1).2 ||| (r 2).2 ||| (r 3).2) ∧
      ∀ k, k < 4 →
        let x := el (e.th.rd a) k
        let y := el (e.th.rd b) k
        let sum := l6Lin x + (if nb then -l6Lin y else l6Lin y)
        (x = 0x30 ∨ y = 0x30 → r k = (0x30, 0)) ∧
        (x ≠ 0x30 → y ≠ 0x30 → if sum = 0 then r k = (0x10, 0) else L6Encodes rnd sum (r k))) ∧
  ∀ (h : Hdr) (dt st : NumTy) (rnd : Rnd) (sat : Bool) (d a : Reg) (x : Option Reg) (s : State) (e : Env),
    let xv := match x with
      | none => 0
      | some r => (e.th.rd r).toNat % 65536
    let r := cvtVal dt st rnd sat (e.th.rdW st.is64 a) xv
    s.Executes e (.cvt h dt st rnd sat d a x) → s.Writes e (.cvt h dt st rnd sat d a x) dt.is64 d r.1 r.2

/-- An integer-to-integer CVT without SAT writes the source modulo 2^w of the destination's type, extended, and with SAT the
nearest value of that type (R399). A float-to-integer CVT writes the operand rounded in RND; a NaN gives 0, and an
infinity or a value outside the range the type's bound, with NV (R195; that the range is tested after the rounding is the
model's choice: log entry 19). An integer and a float of another type are rounded once into a float destination, and a
float of the same type is copied (R399). QNT writes the packed codes of its block and then the scale: each quotient by
the block's power of two and TEXP rounded into the format, or its NaN codes under scale 0xFF (R206, R462). -/
def Obligations.ConversionsToIntegersAndNarrowFormats : Prop :=
  (∀ (h : Hdr) (dt st : NumTy) (rnd : Rnd) (d a : Reg) (x : Option Reg) (s : State) (e : Env),
     dt.isInt = true → st.isInt = true → s.Executes e (.cvt h dt st rnd false d a x) →
     let v := e.th.rdW st.is64 a
     let n := NumTy.intBits st
     let m := NumTy.intBits dt
     ∃ r : Dword, s.Writes e (.cvt h dt st rnd false d a x) dt.is64 d r 0 ∧
       (∀ k, k < m → r.getLsbD k = if k < n then v.getLsbD k else NumTy.isSigned st && v.getLsbD (n - 1)) ∧
       ∀ k, m ≤ k → k < bitsOfW dt.is64 → r.getLsbD k = (NumTy.isSigned dt && r.getLsbD (m - 1))) ∧
  (∀ (h : Hdr) (dt st : NumTy) (rnd : Rnd) (sat : Bool) (d a : Reg) (x : Option Reg) (s : State) (e : Env),
     let i : Instr := .cvt h dt st rnd sat d a x
     let xv := match x with
       | none => 0
       | some r => (e.th.rd r).toNat % 65536
     let src := (e.th.rdW st.is64 a).toNat
     let int : Int := if NumTy.isSigned st then (BitVec.ofNat (NumTy.intBits st) src).toInt
       else (BitVec.ofNat (NumTy.intBits st) src).toNat
     let code := src % 2 ^ (NumTy.fmt st).bits
     let v := (NumTy.fmt st).val code xv
     let lo := tyMin (NumTy.intBits dt) (NumTy.isSigned dt)
     let hi := tyMax (NumTy.intBits dt) (NumTy.isSigned dt)
     let out := fun (n : Int) (f : BitVec 7) => s.Writes e i dt.is64 d (BitVec.ofInt 64 n) f
     let rounded := fun (w : Val) =>
       s.Writes e i dt.is64 d (BitVec.ofNat 64 (roundTo (NumTy.fmt dt) rnd w xv).1) (roundTo (NumTy.fmt dt) rnd w xv).2
     s.Executes e i →
     (dt.isInt = true → st.isInt = true → sat = true →
       out (max lo (min hi int)) (if lo ≤ int ∧ int ≤ hi then 0 else flagSAT)) ∧
     (dt.isInt = true → st.isInt = false →
       (v.isNan = true → out 0 flagNV) ∧ (∀ neg, v = .inf neg → out (if neg then lo else hi) flagNV) ∧
       ∀ neg mm ex, v = .num neg mm ex →
         let y := inUnits neg mm ex (min ex 0)
         ∃ n, RoundsTo rnd y (-ex).toNat n ∧ (n < lo → out lo flagNV) ∧ (hi < n → out hi flagNV) ∧
           (lo ≤ n → n ≤ hi → out n (if n * 2 ^ (-ex).toNat = y then 0 else flagNX))) ∧
     (dt.isInt = false → st.isInt = true → rounded (.num (decide (int < 0)) int.natAbs 0)) ∧
     (dt.isInt = false → st.isInt = false → dt ≠ st ∨ v.isNan = true → rounded v) ∧
     (dt.isInt = false → dt = st → v.isNan = false → s.Writes e i dt.is64 d (BitVec.ofNat 64 code) 0)) ∧
  (∀ (h : Hdr) (ty : QTy) (rnd : Rnd) (d a : Reg) (texp : BitVec 8) (s : State) (e : Env),
     let t := QTy.fmt ty
     let vs := (List.range 16).map fun k => Fmt.f32.val (e.th.rd (regPlus a k)).toNat 0
     let r := quantBlock t rnd texp.toInt 0 vs
     let codes := packCodes t r.2.1
     let n := if ty = .f4 then 2 else 4
     let emax : Int := match ty with
       | .f8e4 => 8
       | .f8e5 => 15
       | .f4 => 2
       | .l6 => 3
     let finite := ∀ v ∈ vs, ∃ neg mm ex, v = .num neg mm ex
     let zero := ∀ v ∈ vs, ∃ neg ex, v = .num neg 0 ex
     let top := fun (k : Int) => (∃ v ∈ vs, ∃ neg mm ex, v = .num neg mm ex ∧ mm ≠ 0 ∧ Nat.log2 mm + ex = k) ∧
       ∀ v ∈ vs, ∀ neg mm ex, v = .num neg mm ex → mm ≠ 0 → Nat.log2 mm + ex ≤ k
     s.Executes e (.qnt h ty rnd d a texp) →
       s.WritesMany e (.qnt h ty rnd d a texp)
         (((List.range n).map fun k => (regPlus d k, BitVec.ofNat 32 (codes / 2 ^ (32 * k)))) ++
           [(regPlus d n, BitVec.ofNat 32 r.1)]) r.2.2 ∧
       (¬ finite → r.1 = 0xFF ∧ r.2.2 = flagNV ∧ r.2.1 = List.replicate 16 (match ty with
         | .f8e4 => 0x7F
         | .f8e5 => 0x7E
         | .f4 => 0
         | .l6 => 0x30)) ∧
       (finite → ∀ x : Int, zero ∧ x = -127 ∨ (∃ k, top k ∧ x = min 127 (max (-127) (k - emax))) →
         let q := fun v => roundTo t rnd (v.shift (-x - texp.toInt)) 0
         r.1 = (x + 127).toNat ∧ r.2.1 = vs.map (fun v => (q v).1) ∧
           ∀ j, r.2.2.getLsbD j = true ↔ ∃ v ∈ vs, (q v).2.getLsbD j = true))

/-! ## System registers, predicates and warp-uniform registers -/

/-- RDSYS reads the register as it stands for the thread (R466): the identity registers of Tables 2-3 to 2-5, SYS_CSP and
SYS_CSDEPTH (Tables 3-3 and 3-4), and the registers of Tables 7-8, 8-5, 13-4 and 14-5. A read of SYS_FLAGS has the
thread's flags, and may have those of operations that have not retired (R220, R249). FEAT writes the context's feature word (R411), and RAND the four words of Philox-4x32-10 (R464). -/
def Obligations.PredicateAndSystemReads : Prop :=
  (∀ (h : Hdr) (lo : Bool) (srn : BitVec 12) (d : Reg) (s : State) (e : Env), s.Executes e (.rdsys h lo srn d) →
     srn ≠ 0x102 →
     ∃ v, s.Writes e (.rdsys h lo srn d) (!lo) d v 0 ∧
       (srn = 0x000 → v = BitVec.ofNat 64
         (e.tid % 32 + 2 ^ 5 * (e.tid / 32 % 32) + 2 ^ 10 * e.w.role + 2 ^ 16 * e.c.index)) ∧
       (srn = 0x001 → v = BitVec.ofNat 64 (e.c.index * 1024 + e.tid % 1024)) ∧ (srn = 0x007 → v = e.c.param) ∧
       (∀ n, n < 4 → srn = 0x002 + BitVec.ofNat 12 n → v = BitVec.ofNat 64 (e.c.coord.getD n 0)) ∧
       (srn = 0x006 → v = BitVec.ofNat 64 (e.c.groups.getD 0 0 + 2 ^ 8 * e.c.groups.getD 1 0 +
         2 ^ 16 * e.c.groups.getD 2 0 + 2 ^ 24 * e.c.groups.getD 3 0 + 2 ^ 32 * e.c.groups.length)) ∧
       (srn = 0x008 → v = e.c.binfire) ∧ (srn = 0x009 → v = BitVec.ofNat 64 e.core) ∧
       (srn = 0x00A → v = BitVec.ofNat 64 e.cid) ∧ (srn = 0x100 → v = e.th.csp) ∧
       (srn = 0x101 → v = BitVec.ofNat 64 (e.th.stack.length + 2 ^ 32 * e.th.spilled.toNat)) ∧
       (srn = 0x00B → v = e.ctx.con.persdir) ∧ (srn = 0x314 → v = e.ctx.con.codedir) ∧ (srn = 0x200 → v = addrOf e.th.emuPc) ∧
       (srn = 0x201 → v = addrOf e.th.emuNext) ∧ (srn = 0x202 → v = e.th.emuWord) ∧ (srn = 0x203 → v = e.th.emuInfo) ∧
       (srn = 0x300 → v = addrOf e.th.trapVec) ∧ (srn = 0x301 → v = addrOf e.th.trapPc) ∧
       (srn = 0x302 → v = addrOf e.th.trapNext) ∧ (srn = 0x303 → e.th.trapCause.toNat < 2 ^ 20 →
         v.getLsbD 20 = e.th.tf ∧ v.extractLsb' 0 20 = e.th.trapCause.extractLsb' 0 20) ∧
       (srn = 0x304 → v = e.th.trapAddr) ∧ (srn = 0x305 → v = e.th.trapInfo) ∧ (srn = 0x310 → v = addrOf e.c.prevec) ∧
       (srn = 0x311 → v = addrOf e.th.prePc) ∧ (srn = 0x312 → v = e.th.preLive) ∧
       (srn = 0x313 → v.getLsbD 0 = e.c.pending ∧ v.getLsbD 1 = e.th.preActive) ∧ (srn = 0x400 → v = e.th.wp0.addr) ∧
       (srn = 0x401 → v = e.th.wp0.ctl) ∧ (srn = 0x402 → v = e.th.wp1.addr) ∧ (srn = 0x403 → v = e.th.wp1.ctl)) ∧
  (∀ (h : Hdr) (lo : Bool) (d : Reg) (s : State) (e : Env), s.Executes e (.rdsys h lo 0x102 d) →
     ∃ t v x, exec (.rdsys h lo 0x102 d) s = .next t ∧ State.Becomes { s with free := t.free } e.tid t v ∧
       (e.sees d → v.rdW (!lo) d = if d = .v 255 then 0 else x) ∧ Thread.Kept e (.rdsys h lo 0x102 d) v (regsOf (!lo) d) [] 0 ∧
       ∀ n, n < 64 → (x.getLsbD n = true → e.th.flags.getLsbD n = true ∨ (∃ o ∈ e.th.out, o.flags.getLsbD n = true) ∨
           ∃ o ∈ e.c.mats, (o.tids.head?.map warpOf) = some e.warp ∧ ∃ w, o.done = some w ∧ w.1.getLsbD n = true) ∧
         (e.th.flags.getLsbD n = true → x.getLsbD n = true)) ∧
  ((∀ (h : Hdr) (d : Reg) (s : State) (e : Env),
     s.Executes e (.feat h d) → s.Writes e (.feat h d) true d e.ctx.features 0) ∧
   ∀ (h : Hdr) (d : Reg) (k stream : BitVec 8) (s : State) (e : Env),
     let key := e.w.rd s.bundle k.toNat
     let ctr := e.w.rd s.bundle (k.toNat + 1) + BitVec.ofNat 64 e.lane
     let r := philox 10 (loWord key) (hiWord key) (loWord ctr, hiWord ctr, stream.setWidth 32, 0)
     s.Executes e (.rand h d k stream) →
       s.WritesMany e (.rand h d k stream)
         [(d, r.1), (regPlus d 1, r.2.1), (regPlus d 2, r.2.2.1), (regPlus d 3, r.2.2.2)] 0)

/-- WRSYS writes the fields of its register that can be written, and WATCH a watchpoint (R160, R287, R301, R510, R512).
-/
def Obligations.SystemRegisterWrites : Prop :=
  (∀ (h : Hdr) (lo : Bool) (srn : BitVec 12) (a : Reg) (s s1 s2 : State) (e : Env),
    let i : Instr := .wrsys h lo srn a
    let v := e.th.rdW (!lo) a
    let sp : Word := v.extractLsb' 32 32
    let wpAt := fun (wp : Wp) (r : BitVec 12) (put : Wp → Thread) =>
      (srn = r → v.toNat % 2 ^ 57 % 2 ^ (wp.ctl.extractLsb' 4 5).toNat = 0 →
        s.Ends s e i (put { wp with addr := (v.setWidth 57).setWidth 64 })) ∧
      (srn = r + 1 → (v.extractLsb' 4 5).toNat ≤ 30 → v.extractLsb' 9 2 ≠ 3#2 →
        s.Ends s e i (put { wp with ctl := (v.setWidth 11).setWidth 64 }))
    s.Executes e i →
    (srn = 0x100 → s.Ends s e i { e.th with csp := v &&& ~~~(7#64) }) ∧
    (srn = 0x101 → v.getLsbD 3 = false → s.Ends s e i { e.th with spilled := sp }) ∧
    (srn = 0x101 → v.getLsbD 3 = true → ∀ ks, flushPlaces e e.th.csp sp e.th.stack.length s = .ok ks s1 →
      flushStores e ks e.th.stack.reverse s1 = .ok () s2 →
      s.Ends s2 e i { (e.ordered s2).th with
        stack := [], csp := e.th.csp - BitVec.ofNat 64 (8 * e.th.stack.length)
        spilled := sp + BitVec.ofNat 32 e.th.stack.length }) ∧
    (srn = 0x102 → s.Ends s e i { e.th with flags := e.th.flags &&& ~~~(v.setWidth 7) }) ∧
    (srn = 0x201 → e.th.handler = true → s.Ends s e i { e.th with emuNext := v.setWidth 57 }) ∧
    (srn = 0x300 → v.extractLsb' 0 7 = 0 → s.Ends s e i { e.th with trapVec := v.setWidth 57 }) ∧
    (srn = 0x302 → e.th.tf = true → s.Ends s e i { e.th with trapNext := v.setWidth 57 }) ∧
    (srn = 0x310 → v.extractLsb' 0 7 = 0 →
      s.Ends (s.modCohort e.coh fun c => { c with prevec := v.setWidth 57 }) e i e.th) ∧
    wpAt e.th.wp0 0x400 (fun wp => { e.th with wp0 := wp }) ∧ wpAt e.th.wp1 0x402 (fun wp => { e.th with wp1 := wp })) ∧
  ∀ (h : Hdr) (n : BitVec 8) (a b : Reg) (s : State) (e : Env),
    let ptr := e.th.rd64 a
    let ctl := e.th.rd b
    let wp : Wp := { addr := (vaOf ptr).setWidth 64, ctl := (ctl.setWidth 11).setWidth 64 }
    s.Executes e (.watch h n a b) → ptrOk ptr = true → (ctl.extractLsb' 4 5).toNat ≤ 30 → ctl.extractLsb' 9 2 ≠ 3#2 →
    (vaOf ptr).toNat % 2 ^ (ctl.extractLsb' 4 5).toNat = 0 →
    (n = 0 → s.Ends s e (.watch h n a b) { e.th with wp0 := wp }) ∧
    (n = 1 → s.Ends s e (.watch h n a b) { e.th with wp1 := wp })

/-- NOP and PREF have no effect but the passing of the op (R449, R458); YIELD keeps its thread from the next bundle of its
quarter beside (R517). FENCE orders the accesses of its thread at the scope at which it is performed, and no memory
changes (R255, R265, R413); it adds SCOPE_CLAMP where the context's ceiling clamps it, and under SCOPE_TRAP it takes a
SCOPE fault there (R273, R414), whose ADDR is 0 (R289; the model's reading: log entry 20). -/
def Obligations.OpsWithoutEffect : Prop :=
  (∀ (h : Hdr) (s : State) (e : Env),
    (s.Executes e (.nop h) → s.Passes e (.nop h) 0) ∧
    (s.Executes e (.yieldOp h) → s.Ends s e (.yieldOp h) { e.th with yielded := true })) ∧
  (∀ (h : Hdr) (l1 : Bool) (a : Reg) (off : MemOff) (s : State) (e : Env),
    s.Executes e (.pref h l1 a off) → s.Passes e (.pref h l1 a off) 0) ∧
  ∀ (h : Hdr) (sc : Scope) (s : State) (e : Env), s.Executes e (.fence h sc) →
    if e.clamps sc && e.ctx.con.scopeTrap then
      exec (.fence h sc) s = .next (s.takeFault e false (opFault .scope))
    else
      let r := s.fenceBy e.tid (e.insts (e.reach sc))
      s.Ends r e (.fence h sc) ((e.ordered r).th.orFlags (clampFlag (e.clamps sc))) ∧
        r = { s with threads := r.threads, fences := r.fences } ∧
        (∀ k, k ≠ e.tid → aget r.threads k = aget s.threads k) ∧
        ∀ n, n ∈ e.th.ord.obs → n ∈ (r.ordOf e.tid).view

/-- The write of w register n of a warp by lane `lane` in bundle b stands, but where a lower lane has written it in that
bundle, and no other w register changes (R163); a read in that bundle gives the value before it (the model's reading:
log entry 35). WMOV and WALU: the w register that they write receives the value, as R163 orders writes; WMOV from a w
register writes a pair (R506, R508). -/
def Obligations.WarpUniformRegisters : Prop :=
  (∀ (w : Warp) (b n lane : Nat) (v : Dword),
     let w' := w.wr b n lane v
     let lower := w.wb = b ∧ ∃ l, aget w.wLane n = some l ∧ l < lane
     (¬ lower → sget w'.w n = v) ∧ (lower → sget w'.w n = sget w.w n) ∧ (∀ m, m ≠ n → sget w'.w m = sget w.w m) ∧
       w'.rd b n = w.rd b n ∧ (w.wb ≠ b → w.rd b n = sget w.w n) ∧ w'.role = w.role ∧ w'.quarter = w.quarter) ∧
  ((∀ (h : Hdr) (d a : Reg) (s : State) (e : Env), s.Executes e (.wmov h .fromW d a) →
     s.Writes e (.wmov h .fromW d a) true d (e.w.rd s.bundle (wNum a)) 0) ∧
   (∀ (h : Hdr) (dir : WmovDir) (d a : Reg) (s : State) (e : Env), dir ≠ .fromW → s.Executes e (.wmov h dir d a) →
     let val := match dir with
       | .toW => e.th.rd64 a
       | .lo => (e.th.rd a).setWidth 64
       | _ => e.w.rd s.bundle (wNum a)
     s.WritesWarp e (.wmov h dir d a) (wNum d) val) ∧
   (∀ (h : Hdr) (op : WaluOp) (d a : BitVec 8) (b : WaluSrc) (e : Env),
     (64 ≤ d.toNat ∨ 64 ≤ a.toNat ∨ ∃ n, b = .reg n ∧ 64 ≤ n.toNat) →
     preCheck e (.walu h op d a b) = some { kind := .illegalOperand, addr := e.th.pc.setWidth 64 }) ∧
   ∀ (h : Hdr) (op : WaluOp) (d a : BitVec 8) (b : WaluSrc) (s : State) (e : Env), s.Executes e (.walu h op d a b) →
     let x := e.w.rd s.bundle a.toNat
     let y : Dword := match b with
       | .reg n => e.w.rd s.bundle n.toNat
       | .imm n => n.setWidth 64
     let val := match op with
       | .add => x + y
       | .sub => x - y
       | .and => x &&& y
       | .or => x ||| y
       | .xor => x ^^^ y
       | .shl => x <<< min y.toNat 64
       | .shr => x >>> min y.toNat 64
       | .minu => if x ≤ y then x else y
       | .maxu => if x ≤ y then y else x
     s.WritesWarp e (.walu h op d a b) d.toNat val)

/-! ## Convergence points and the matrix engine -/

/-- A thread that arrives at a convergence point whose instance is not complete waits there, and nothing else changes;
the last to arrive at SHFL, VOTE, REDW, MATCH or ELANE makes every thread of the instance pass it in one step, each
participant with its result (R54). -/
def Obligations.LaneInstances : Prop :=
  ∀ (i : Instr) (m : Reg) (s : State) (e : Env), s.Arrives e i m →
    (s.instanceMet e i m = false → exec i s = .next (s.arrived e i m)) ∧
    (Instr.isMatrix i = false → s.instanceMet e i m = true →
      ∃ t, exec i s = .next t ∧ t = { s with threads := t.threads } ∧
        (∀ k, k ∉ (s.instanceOf e i m).map (·.1) → aget t.threads k = aget s.threads k) ∧
        ∀ w ∈ s.instanceOf e i m, ∃ q, s.member e i m w = some q ∧
          aget t.threads w.1 = some
            ((if w.2.guard then laneEffect i (s.participants e i m) q else q.th).pass q w.2.op w.2.guard none))

/-- What a participant of SHFL, VOTE, MATCH and ELANE receives (R490, R503, R443, R402). What a participant of REDW
receives (R471): of the integer types the exact result over the participants' values, delivered as R423 gives; of a float
.add, .min and .max the root of the xor tree of R208, whose steps are FADD in RND, FMIN and FMAX, with the flags of all
of them; and of .maxidx the greatest key form (R209, R210). That a lane of +0 under .rd gives -0 with the identity -0 is
the model's reading of R407 (log entry 19). -/
def Obligations.LaneResults : Prop :=
  (∀ (ps : List Env) (e : Env), e ∈ ps → (∀ q ∈ ps, q.lane < 32) →
     (∀ (h : Hdr) (mode : ShflMode) (w64 : Bool) (d a b m : Reg),
       let x := (e.th.rd b).toNat
       let j : Int := match mode with
         | .abs => x
         | .below => e.lane - x
         | .above => e.lane + x
         | .xor => Nat.xor e.lane x
       ∃ val, laneEffect (.shfl h mode w64 d a b m) ps e = e.th.wrW w64 d val ∧
         ((∃ q ∈ ps, q.lane = j ∧ val = q.th.rdW w64 a) ∨ ((∀ q ∈ ps, q.lane ≠ j) ∧ val = e.th.rdW w64 a))) ∧
     (∀ (h : Hdr) (a p : BitVec 8) (d m : Reg),
       laneEffect (.vote h (.all p) a m) ps e = e.th.setP p.toNat (decide (∀ q ∈ ps, q.th.psrc a = true)) ∧
       laneEffect (.vote h (.any p) a m) ps e = e.th.setP p.toNat (decide (∃ q ∈ ps, q.th.psrc a = true)) ∧
       laneEffect (.vote h (.same p) a m) ps e = e.th.setP p.toNat (decide (∀ q ∈ ps, q.th.psrc a = e.th.psrc a)) ∧
       ∃ val, laneEffect (.vote h (.mask d) a m) ps e = e.th.wr d val ∧
         ∀ n, n < 32 → (val.getLsbD n = true ↔ ∃ q ∈ ps, q.lane = n ∧ q.th.psrc a = true)) ∧
     (∀ (h : Hdr) (w64 : Bool) (d a m : Reg),
       (∃ val, laneEffect (.matchOp h w64 false d a m) ps e = e.th.wr d val ∧
         ∀ n, n < 32 → (val.getLsbD n = true ↔ ∃ q ∈ ps, q.lane = n ∧ q.th.rdW w64 a = e.th.rdW w64 a)) ∧
       ∃ val, laneEffect (.matchOp h w64 true d a m) ps e = e.th.wr d val ∧
         ∀ n, n < 32 → (val.getLsbD n = true ↔
           (∀ q ∈ ps, q.th.rdW w64 a = e.th.rdW w64 a) ∧ ∃ q ∈ ps, q.lane = n)) ∧
     ∀ (h : Hdr) (p : BitVec 8) (d m : Reg), ∃ low, (∃ q ∈ ps, q.lane = low) ∧ (∀ q ∈ ps, low ≤ q.lane) ∧
       laneEffect (.elane h (.pred p) m) ps e = e.th.setP p.toNat (decide (e.lane = low)) ∧
       laneEffect (.elane h (.lane d) m) ps e = e.th.wr d (BitVec.ofNat 32 low)) ∧
  (∀ (h : Hdr) (ty : RedwTy) (op : RedwOp) (sat : Bool) (rnd : Rnd) (d a b m : Reg) (ps : List Env),
     (RedwTy.float ty = none → ∀ e ∈ ps,
       let it := RedwTy.int ty
       let vals := ps.map fun q => asInt it.is64 it.signed (q.th.rdW it.is64 a)
       let bits := ps.map fun q => q.th.rdW it.is64 a
       ∃ r : Int, laneEffect (.redw h ty op sat rnd d a b m) ps e = e.th.putInt it.is64 it.signed sat d r ∧
         (op = .add → r = vals.sum) ∧ (op = .min → r ∈ vals ∧ ∀ x ∈ vals, r ≤ x) ∧
         (op = .max → r ∈ vals ∧ ∀ x ∈ vals, x ≤ r) ∧
         ((op = .and ∨ op = .or ∨ op = .xor) → ∃ v : Dword, r = v.toNat ∧ ∀ n, n < 64 →
           (op = .and → (v.getLsbD n = true ↔ ∀ x ∈ bits, x.getLsbD n = true)) ∧
           (op = .or → (v.getLsbD n = true ↔ ∃ x ∈ bits, x.getLsbD n = true)) ∧
           (op = .xor → v.getLsbD n = (bits.countP (fun x => x.getLsbD n) % 2 == 1)))) ∧
     ∀ t : Fmt, RedwTy.float ty = some t → (∀ q ∈ ps, q.lane < 32) → (ps.map Env.lane).Nodup →
       let val := fun (q : Env) => (q.th.rd a).toNat % 2 ^ t.bits
       (op = .maxidx → ps ≠ [] →
         let ord := fun (x : Nat) => if nanCode t x then 0
           else if x < 2 ^ (t.bits - 1) then x + 2 ^ (t.bits - 1) else 2 ^ t.bits - 1 - x
         let key := fun (q : Env) => ord (val q) * 2 ^ 32 + (0xFFFFFFFF - (q.th.rd b).toNat)
         ∃ r : Nat, (∃ q ∈ ps, r = key q) ∧ (∀ q ∈ ps, key q ≤ r) ∧
           ∀ e ∈ ps, laneEffect (.redw h ty op sat rnd d a b m) ps e = e.th.wr64 d (BitVec.ofNat 64 r)) ∧
       (op = .add ∨ op = .min ∨ op = .max →
         let ident := if op = .add then 2 ^ (t.bits - 1) else t.cnan
         let f := fun (x y : Nat) =>
           let sum := addVal (t.val x 0) (t.val y 0) rnd
           let pick := (t.val x 0).lt0 (t.val y 0)
           ((if op = .add then ((roundTo t rnd sum.1 0).1, sum.2 ||| (roundTo t rnd sum.1 0).2)
             else (if nanCode t x && nanCode t y then t.cnan else if nanCode t x then y else if nanCode t y then x
               else if op = .min then (if pick then x else y) else if pick then y else x,
               nvIf (sigCode t x || sigCode t y))) : FRes)
         ∃ (lv : Nat → Nat → Nat) (fl : BitVec 7),
           (∀ q ∈ ps, lv 0 q.lane = val q) ∧ (∀ l, (∀ q ∈ ps, q.lane ≠ l) → lv 0 l = ident) ∧
           (∀ j l, lv (j + 1) l = (f (lv j l) (lv j (l + 16 / 2 ^ j))).1) ∧
           (∀ n, fl.getLsbD n = true ↔
             ∃ j l, j < 5 ∧ l < 16 / 2 ^ j ∧ (f (lv j l) (lv j (l + 16 / 2 ^ j))).2.getLsbD n = true) ∧
           ∀ e ∈ ps, laneEffect (.redw h ty op sat rnd d a b m) ps e = e.th.putF d (lv 5 0, fl)))

/-- The last lane to arrive at MMAP, MMAL, ACCZ, ACCLD or ACCST makes it execute: it takes the next place in the issue order
of its cohort with its parameter block as it stands, every thread of the instance whose guard is true has an outstanding
operation of class MXE, every thread of the instance passes, and nothing else changes (R54, R217, R224). Where every
write of the scratchpad is performed for it, the oldest matrix instruction of a resident cohort changes the accumulator
window, ACCST writes its 4096 bytes (here at a place outside the control blocks of the stage rings), and it retires: its
operation ends in each of its threads, and its flags reach every thread of its warp (R220, R223); one that has been
carried out before retires alike. That matrix instructions retire in issue order is the model's reading (log entry 23).
-/
def Obligations.MatrixIssueAndRetirement : Prop :=
  (∀ (h : Hdr) (i : Instr) (dst : BitVec 8) (cnt : BitVec 6) (a m : Reg) (s : State) (e q : Env) (qs : List Env)
      (k : MatKind) (d n : Nat) (b : List Byte),
     i = .mmap h dst a m ∨ i = .mmal h dst a m ∨ i = .accz h cnt dst m ∨ i = .accld h dst a m ∨ i = .accst h dst a m →
     s.Arrives e i m → s.instanceMet e i m = true → s.participants e i m = q :: qs →
     matrixCheck i (q.th.rd (matrixReg i)).toNat e.c = .ok (k, d, n, b) →
     let o : MatOp := { id := s.nextId, kind := k, dst := d, off := (q.th.rd (matrixReg i)).toNat, count := n, block := b,
                        ord := matrixOrd q (q :: qs) s, tids := (q :: qs).map (·.tid) }
     let put := fun (c : Cohort) => { c with mats := c.mats ++ [o] }
     ∃ t, exec i s = .next t ∧
       t = { s with threads := t.threads, cohorts := amod s.cohorts e.coh put, nextId := s.nextId + 1 } ∧
       (∀ j, j ∉ (s.instanceOf e i m).map (·.1) → aget t.threads j = aget s.threads j) ∧
       ∀ w ∈ s.instanceOf e i m, ∃ p, s.member e i m w = some p ∧
         let u := if w.2.guard then { p.th with out := p.th.out ++ [{ cls := .mxe, id := s.nextId }] } else p.th
         aget t.threads w.1 = some (u.pass { p with c := put p.c, th := u } w.2.op w.2.guard none)) ∧
  (∀ (s : State) (coh : Nat) (c : Cohort) (o : MatOp) (rest : List MatOp), s.heated coh = false →
     aget s.cohorts coh = some c → c.mats = o :: rest → o.done = none → s.hist = [] → o.kind = .accst → 1024 ≤ o.off →
     let out := (matrixRun o c.sp c.acc).2.1
     ∃ t c' wrote, exec (.matrixRetire coh) s = .next t ∧
       t = { s with cohorts := t.cohorts, threads := t.threads, hist := t.hist, nextId := t.nextId } ∧
       aget t.cohorts coh = some c' ∧ c' = { c with sp := c'.sp, mats := rest.map (MatOp.after wrote) } ∧
       (∀ a, sget c'.sp a = if o.off ≤ a ∧ a < o.off + 4096 then out.getD (a - o.off) 0 else sget c.sp a) ∧
       (∀ j, j ≠ coh → aget t.cohorts j = aget s.cohorts j) ∧
       ∀ j, aget t.threads j = (aget s.threads j).map fun v =>
         if o.tids.contains j then v.finish o.id none 0 wrote
         else if (o.tids.head?.map warpOf) = some (warpOf j) then v.lateFlags 0 else v) ∧
  (∀ (s : State) (coh : Nat) (c : Cohort) (o : MatOp) (rest : List MatOp), s.heated coh = false →
     aget s.cohorts coh = some c → c.mats = o :: rest → o.done = none → s.lateUnits coh = [] → o.kind ≠ .accst →
     let r := matrixRun o c.sp c.acc
     ∃ t, exec (.matrixRetire coh) s = .next t ∧ t = { s with cohorts := t.cohorts, threads := t.threads } ∧
       aget t.cohorts coh = some { c with acc := r.1, mats := rest.map (MatOp.after []) } ∧
       (∀ j, j ≠ coh → aget t.cohorts j = aget s.cohorts j) ∧
       ∀ j, aget t.threads j = (aget s.threads j).map fun v =>
         if o.tids.contains j then v.finish o.id none r.2.2
         else if (o.tids.head?.map warpOf) = some (warpOf j) then v.lateFlags r.2.2 else v) ∧
  (∀ (s : State) (coh : Nat) (c : Cohort) (o : MatOp) (rest : List MatOp) (f : BitVec 7) (wrote : List Nat),
     s.heated coh = false → aget s.cohorts coh = some c → c.mats = o :: rest → o.done = some (f, wrote) →
     ∃ t, exec (.matrixRetire coh) s = .next t ∧ t = { s with cohorts := t.cohorts, threads := t.threads } ∧
       aget t.cohorts coh = some { c with mats := rest } ∧ (∀ j, j ≠ coh → aget t.cohorts j = aget s.cohorts j) ∧
       ∀ j, aget t.threads j = (aget s.threads j).map fun v =>
         if o.tids.contains j then v.finish o.id none f wrote
         else if (o.tids.head?.map warpOf) = some (warpOf j) then v.lateFlags f else v)

/-- What matrix instructions compute: ACCZ clears its blocks, ACCLD loads its block from the scratchpad and ACCST gives
its bytes; each element of MMAP's and MMAL's product that is masked becomes FILL, and each other the engine's value
(R218, R219, R221, R223). An MMAP element of integer planes is the dot product of the plane values, plus the accumulator
word under ACC, saturated to 32 bits; one of exponent records adds, block by block from the accumulator word or -0, each
block's dot product scaled and rounded to FP32, or a NaN with NV where a record is 0x8000 (R211 to R213, R218). An MMAL
element adds the exact LNS dot product, scaled by 2^(X - 23) and rounded once, or a NaN where an operand is one (R199,
R221). -/
def Obligations.MatrixResults : Prop :=
  (∀ (o : MatOp) (sp : Sparse 8) (acc : Sparse 32),
     (o.kind = .accz →
       ∀ j, sget (matrixRun o sp acc).1 j = if o.dst ≤ j / 1024 ∧ j / 1024 < o.dst + o.count then 0 else sget acc j) ∧
     (o.kind = .accld → ∀ j, sget (matrixRun o sp acc).1 j =
       if j / 1024 = o.dst then BitVec.ofNat 32 (leNat (sread sp (o.off + 4 * (j % 1024)) 4)) else sget acc j) ∧
     (o.kind = .accst → (matrixRun o sp acc).1 = acc ∧ (matrixRun o sp acc).2.1.length = 4096 ∧
       ∀ j, j < 1024 → leNat (((matrixRun o sp acc).2.1.drop (4 * j)).take 4) = (sget acc (o.dst * 1024 + j)).toNat) ∧
     (o.kind = .mmap → let b := planeBlk o.block
       ∀ m j, m < 32 → j < b.n →
         let w := accIdx (o.dst + j / 32) m (j % 32)
         sget (matrixRun o sp acc).1 w =
           if triMasked b.tri b.diag b.roworg b.colorg m j then BitVec.ofNat 32 b.fill
           else BitVec.ofNat 32 (planeElem b sp m j (sget acc w).toNat).1) ∧
     (o.kind = .mmal → let b := lnsBlk o.block
       ∀ m j, m < 32 → j < 32 * b.nc →
         let w := accIdx (o.dst + j / 32) m (j % 32)
         sget (matrixRun o sp acc).1 w =
           if triMasked b.tri b.diag b.roworg b.colorg m j then BitVec.ofNat 32 b.fill
           else BitVec.ofNat 32 (lnsElem b sp m j (sget acc w).toNat).1)) ∧
  (∀ (b : PlaneBlk) (sp : Sparse 8) (m n : Nat) (word : Word), b.kblk = 3 →
     let r : Int := (List.range b.k).foldl (fun x k => x + b.qa sp m k * b.qb sp k n) 0 + (if b.acc then word.toInt else 0)
     (planeElem b sp m n word.toNat).1 = (BitVec.ofInt 32 (max (-2147483648) (min 2147483647 r))).toNat ∧
     (planeElem b sp m n word.toNat).2 = if -2147483648 ≤ r ∧ r ≤ 2147483647 then 0 else flagSAT) ∧
  (∀ (b : PlaneBlk) (sp : Sparse 8) (m n : Nat) (word : Word), b.kblk < 3 →
     let kb := 16 * 2 ^ b.kblk
     let rec16 := fun (a : Nat) => BitVec.ofNat 16 (leNat (sread sp a 2))
     let ea := fun (i : Nat) => rec16 (b.aexp + 2 * (32 * i + m))
     let eb := fun (i : Nat) => rec16 (b.bexp + 2 * (32 * b.nc * i + n))
     let dot := fun (i : Nat) => (List.range kb).foldl (fun (x : Int) j => x + b.qa sp m (i * kb + j) * b.qb sp (i * kb + j) n) 0
     let t := fun (i : Nat) => (if ea i = 0x8000#16 ∨ eb i = 0x8000#16 then (0x7FC00000, flagNV)
       else roundTo .f32 .rn (.num (decide (dot i < 0)) (dot i).natAbs ((ea i).toInt + (eb i).toInt - b.pa - b.pb + 4)) 0 : FRes)
     ∃ y : Nat → FRes, y 0 = (if b.acc then word.toNat else 0x80000000, 0) ∧
       (∀ i, let sum := addVal (Fmt.f32.val (y i).1 0) (Fmt.f32.val (t i).1 0) .rn
         y (i + 1) = ((roundTo .f32 .rn sum.1 0).1,
           (y i).2 ||| (t i).2 ||| (sum.2 ||| (roundTo .f32 .rn sum.1 0).2))) ∧
       planeElem b sp m n word.toNat = y (1024 * b.kc / kb)) ∧
  (∀ (sgn : Bool) (p : Nat) (bit : Nat → Nat), 0 < p → (∀ i, bit i < 2) →
     planeVal sgn p bit = ((List.range p).map fun i => (bit i * 2 ^ i : Int)).sum - if sgn then bit (p - 1) * 2 ^ p else 0) ∧
  ∀ (b : LnsBlk) (sp : Sparse 8) (m n : Nat) (word : Word),
     let x := fun (k : Nat) => (sget sp (b.abase + m * b.k + k)).toNat % 64
     let y := fun (k : Nat) => (sget sp (b.bbase + n * b.k + k)).toNat % 64
     let nan := ∃ k, k < b.k ∧ (x k = 0x30 ∨ y k = 0x30)
     let term := fun (k : Nat) =>
       let q := l6Log (x k) + l6Log (y k)
       let mag : Int := [32768, 38968, 46341, 55109].getD (q % 4).toNat 0 * 2 ^ (q / 4 + 8).toNat
       if x k = 0x10 ∨ y k = 0x10 then 0 else if x k / 32 = y k / 32 then mag else -mag
     let sum := ((List.range b.k).map term).sum
     let w := if b.acc then word.toNat else 0x80000000
     let add := fun (t : FRes) =>
       let v := addVal (Fmt.f32.val w 0) (Fmt.f32.val t.1 0) .rn
       (((roundTo .f32 .rn v.1 0).1, t.2 ||| (v.2 ||| (roundTo .f32 .rn v.1 0).2)) : FRes)
     (nan → lnsElem b sp m n word.toNat = add (0x7FC00000, 0)) ∧
     (¬ nan → lnsElem b sp m n word.toNat = add (roundTo .f32 .rn (.num (decide (sum < 0)) sum.natAbs (b.x - 23)) 0))

/-! ## Memory -/

/-- An access that passes checks 1 to 6 has a pointer of canonical form, a resident page that grants it, no watchpoint
in its way, the tag of its granule where that is checked, and a frame that its context owns; the checks change
nothing but what orders the accesses of a thread, where a store of that tag is outstanding. A pointer that is
not canonical, an unmapped page, a malformed table and a page that does not grant the access fault in this order (R274,
R278, R282, R285, R286). -/
def Obligations.AccessChecks : Prop :=
  (∀ (w : Who) (x : Access) (s s' : State) (p : Place), checkPlace w x s = .ok p s' →
    let pa := bitsOf p.pte 51 p.log * 2 ^ p.log + (vaOf x.ptr).toNat % 2 ^ p.log
    let tagged := w.tags = true ∧ bitsOf p.pte 7 7 = 1
    s' = { s with free := s'.free, seen := s'.seen, threads := s'.threads } ∧
      (∀ k, ∃ o, aget s'.threads k = (aget s.threads k).map fun u => { u with ord := o }) ∧
      (¬ tagged ∨ s.settledAt (tagKey p.key) 1 → s'.threads = s.threads) ∧
      ptrOk x.ptr = true ∧ (x.rd = true → bitsOf p.pte 2 2 = 1) ∧
      (x.wr = true → bitsOf p.pte 3 3 = 1) ∧ (x.fx = true → bitsOf p.pte 4 4 = 1) ∧ pteRes p.pte = true ∧
      s.watchHit w x (vaOf x.ptr).toNat = none ∧ s.errAt w x = false ∧
      (tagged → ∃ s1, seeTag w x.fx p.key s1 = .ok (tagOf x.ptr) s' ∧ s1 = { s with free := s1.free, seen := s1.seen }) ∧
      (tagged → w.tid = none ∨ s.settledAt (tagKey p.key) 1 → sget s.tags (p.key / 32) = tagOf x.ptr) ∧
      s.physKey w.pid pa = some p.key ∧ (isLocalKey p.key = true → s.framesOwned w.pid w.cid pa x.n = true)) ∧
  ∀ (w : Who) (x : Access) (s : State),
    (ptrOk x.ptr = false → checkPlace w x s = .error (accFault .addrForm x) s) ∧
    (ptrOk x.ptr = true → s.linkDown = false → s.errAt w x = false → s.walksNow w →
      (s.walk w (vaOf x.ptr) = .unmapped → ∃ s', checkPlace w x s = .error (accFault .unmapped x) s') ∧
      (∀ pa, s.walk w (vaOf x.ptr) = .format pa → ∃ s', checkPlace w x s = .error (accFault .ptFormat x pa) s') ∧
      ∀ pte log, s.walk w (vaOf x.ptr) = .leaf pte log →
        (x.rd = true ∧ bitsOf pte 2 2 = 0) ∨ (x.wr = true ∧ bitsOf pte 3 3 = 0) ∨ (x.fx = true ∧ bitsOf pte 4 4 = 0) →
        ∃ s', checkPlace w x s = .error (accFault .perm (x.at_ log)) s')

/-- LD, LDT and TAGLD whose access passes its checks bring the extended bytes, the decoded element and the memory tag to
their registers; a load with a residency predicate brings true on a resident page, and zero and false on another
(R282, R435, R500). LDL brings the bytes of the scratchpad, or of a stash line that is filled where it is absent, to
its registers (R235, R237, R435). The bytes that a load reads are those that stand at its place where no write is
outstanding there (R260). When the data of an operation of class LDC return, its registers and predicates are written
and it retires (R230). -/
def Obligations.LoadsAndReturns : Prop :=
  ((∀ (h : Hdr) (acq : Option Scope) (d a : Reg) (off : MemOff) (resid : BitVec 8) (s s' : State) (e : Env),
     let c := e.clampsOpt acq
     e.ldcFull = false → (c && e.ctx.con.scopeTrap) = false →
     (∀ (sz : MSize) (sgn : Bool),
       let n := mBytes sz
       let x : Access := { ptr := e.th.gptr a off n, n := n, rd := true }
       let i : Instr := .ld h sz sgn acq d a off resid
       s.Executes e i → x.ptr.toNat % n = 0 →
       (∀ p s1, checkPlace e.who x s = .ok p s' → linkNeedM p.key s' = .ok false s1 →
         (e.needsToken && pteDshr p.pte) = false →
         ∃ b r, readMine e (e.reachOpt acq) p.key n (s1.marked e c) = .ok b r ∧
           s.Loads r e i (loadWords sz sgn d b) (residPred resid true) (clampFlag c) [(0, vaOf x.ptr, (x.at_ p.log).page)] ∧
           (s1.settledAt p.key n → b = overlay e.buffered false p.key (s1.peek p.key n))) ∧
       (checkRes e.who x s = .ok none s' → resid.toNat < 15 → e.needsToken = false →
         s.Loads s' e i (zeroWords (loadWords sz sgn d [])) (residPred resid false) 0)) ∧
     ∀ (ty : TTy) (rnd : Rnd) (hi : Bool) (x : Access) (p : Place) (dr : Except FaultInfo (Option Desc)) (ds : Desc)
         (sc : Nat) (src : List Access) (s1 : State),
       let i : Instr := .ldt h ty rnd hi acq d a off resid
       s.Executes e i → elementAccess e (e.th.gptr a off 1) false s = .ok (x, p, dr) s1 →
       (e.needsToken && pteDshr p.pte) = false → loadElement e x p dr hi s1 = .ok (.here ds sc src) s' →
       ∃ b r, readMine e (e.reachOpt acq) p.key ds.fmt.bytes (s'.marked e c) = .ok b r ∧
         let v := roundTo (TTy.fmt ty) rnd (ds.decode (ds.codeIn b hi) sc) 0
         s.Loads r e i [(d, BitVec.ofNat 32 v.1)] (residPred resid true) (clampFlag c ||| v.2)
           ((x :: src).map fun y => (y.acc, vaOf y.ptr, y.page)) ∧
           (s'.settledAt p.key ds.fmt.bytes → b = overlay e.buffered false p.key (s'.peek p.key ds.fmt.bytes))) ∧
   ∀ (h : Hdr) (d a : Reg) (off : MemOff) (s s' : State) (e : Env) (p : Place),
     let ptr := e.th.gptr a off 32
     e.ldcFull = false → s.Executes e (.tagld h d a off) → tagPlace e.who ptr ptr false s = .ok p s' →
     ∃ v r, (if isLocalKey p.key then seeTag e.who false p.key s' = .ok v r else v = 0 ∧ r = s') ∧
       s.Loads r e (.tagld h d a off) (if d = .v 255 then [] else [(d, v.setWidth 32)]) [] 0
         [(0, vaOf (granulePtr ptr), Access.page { ptr := granulePtr ptr, n := 32, log := p.log })] ∧
       (isLocalKey p.key = true → s.settledAt (tagKey p.key) 1 → v = sget s.tags (p.key / 32) ∧ r = s')) ∧
  ((∀ (h : Hdr) (sz : MSize) (sgn : Bool) (acq : Option Scope) (d a : Reg) (off : MemOff) (s : State) (e : Env),
     let n := mBytes sz
     let x := (e.th.lptr a off n).toNat
     let i : Instr := .ldl h sz sgn acq d a off
     let fl := clampFlag (e.clampsOpt acq)
     s.Executes e i → e.ldcFull = false → (e.clampsOpt acq && e.ctx.con.scopeTrap) = false → x % n = 0 →
     (x + n ≤ e.c.scratch → s.held e.coh x n false = false →
       ∃ b r, seeM e (e.reachOpt acq) (spKey e.coh x) (sread e.c.sp x n) s = .ok b r ∧
         s.Loads r e i (loadWords sz sgn d (overlay e.buffered true x b)) [] fl ∧
         (s.settledAt (spKey e.coh x) n → b = sread e.c.sp x n)) ∧
     ∀ o sl l s', e.c.localPlace x n = some (.stash o sl) → stashLine e o n sl false s = .ok l s' →
       let key := l.key + o % 128
       ∃ b r, seeM e (e.reachOpt acq) key ((l.bytes.drop (o % 128)).take n) s' = .ok b r ∧
         s.Loads r e i (loadWords sz sgn d (overlay e.buffered false key b)) [] fl ∧
         (s'.settledAt key n → n ≤ (l.bytes.drop (o % 128)).length → b = (l.bytes.drop (o % 128)).take n)) ∧
   ∀ (tid id : Nat) (s : State) (u : Thread) (o : OutOp), aget s.threads tid = some u → u.keep = [] → u.exp = none →
     (u.out.find? fun o => o.cls == .ldc && o.id == id && !o.returned) = some o →
     ∃ t, exec (.loadDataReturn tid id) s = .next t ∧ s.Becomes tid t ((u.writeDests o).finish id o.fault))

/-- ST, STT and STL store the bytes of their data register, the encoded element and the bytes at their address, and no
other byte of memory; STT of F4 writes the aligned 4-byte unit that holds its element, with the other elements as it
read them (R258, R495 to R497). RED, and ATOM without a destination, complete, with the new value of Table 17-5 at their
place where no write is outstanding there that they need not follow, and TAGST with its tag on the granules that it names,
where that holds of the tag's stores (R359, R467, R500). -/
def Obligations.MemoryStores : Prop :=
  (∀ (h : Hdr) (w64 sgn : Bool) (op : AtomOp) (a b : Reg) (off : MemOff) (s s' s1 : State) (e : Env) (p : Place) (i : Instr),
    let n := if w64 then 8 else 4
    let x : Access := { ptr := e.th.gptr a off n, n := n, rd := true, wr := true, acc := 2 }
    let old := leNat (s1.peek p.key n)
    let cv := (e.th.rdW w64 (regPlus b (if w64 then 2 else 1))).toNat
    (∃ rel, i = .red h w64 sgn op rel a off b ∧ op ≠ .cas ∧ (e.clampsOpt rel && e.ctx.con.scopeTrap) = false) ∨
      (∃ ord sc, i = .atom h w64 sgn op ord sc (.v 255) a off b ∧
        (e.clampsOpt (atomScope ord sc) && e.ctx.con.scopeTrap) = false) →
    s.Executes e i → x.ptr.toNat % n = 0 → e.needsToken = false → checkPlace e.who x s = .ok p s' →
    linkNeedM p.key s' = .ok false s1 →
    ∃ t v, exec i s = .next t ∧ aget t.threads e.tid = some v ∧ (e.th.exp = none → v.pc = e.seqNext (Instr.isLong i)) ∧
      (s1.lastAt e.tid p.key n →
        ∀ new, atomNew w64 sgn op old (e.th.rdW w64 b).toNat cv = some new → sread t.mem p.key n = leBytes n new)) ∧
  (∀ (h : Hdr) (a b : Reg) (off : MemOff) (s s' : State) (e : Env) (ks : List Nat),
    let v := e.th.rd b
    let ptr := e.th.gptr a off 32
    s.Executes e (.tagst h a off b) → v.extractLsb' 4 4 = 0 → v.extractLsb' 16 16 = 0 →
    tagPlaces e.who ptr ((v.extractLsb' 8 8).toNat + 1) ptr s = .ok ks s' →
    ∃ t, exec (.tagst h a off b) s = .next t ∧ t.mem = s'.mem ∧
      ∀ k ∈ ks, isLocalKey k = true → s'.lastAt e.tid (tagKey k) 1 → sget t.tags (k / 32) = v.setWidth 4) ∧
  ∀ (h : Hdr) (rel : Option Scope) (a b : Reg) (off : MemOff) (s s' s2 : State) (e : Env),
    let fl := clampFlag (e.clampsOpt rel)
    (e.clampsOpt rel && e.ctx.con.scopeTrap) = false →
    (∀ (sz : MSize) (p : Place),
      let n := mBytes sz
      let x : Access := { ptr := e.th.gptr a off n, n := n, wr := true, acc := 1 }
      let i : Instr := .st h sz rel a off b
      s.Executes e i → x.ptr.toNat % n = 0 → checkPlace e.who x s = .ok p s' → (e.needsToken && pteDshr p.pte) = false →
      linkNeedM p.key s' = .ok false s2 →
      s.Stores s' s2 e i { scratch := false, key := p.key, bytes := storeBytes e.th sz b, rel := e.reachOpt rel } fl) ∧
    (∀ (ty : TTy) (rnd : Rnd) (hi : Bool) (x : Access) (p : Place) (dr : Except FaultInfo (Option Desc)) (ds : Desc)
        (sc key : Nat) (src : List Access) (bs : List Byte) (s1 s3 s4 : State),
      let i : Instr := .stt h ty rnd hi rel a off b
      let val := (TTy.fmt ty).val ((e.th.rd b).toNat % 2 ^ (TTy.fmt ty).bits) 0
      let r := ds.encode rnd val sc
      s.Executes e i → elementAccess e (e.th.gptr a off 1) true s = .ok (x, p, dr) s1 →
      (e.needsToken && pteDshr p.pte) = false → checkFrom4 e.who x p s1 = .ok true s1 → elementOf x dr hi s1 = .ok ds s3 →
      readScale e.who ds x.ptr 1 e.buffered (readSeenM e none) s3 = .ok (.here sc src) s4 →
      elementBytes e ds p.key hi r.1 s4 = .ok (key, bs) s' → linkNeedM key s' = .ok false s2 →
      (ds.fmt ≠ .f4 → key = p.key ∧ bs = leBytes ds.fmt.bytes r.1) ∧
      (ds.fmt = .f4 → key = p.key - p.key % 4 ∧ bs.length = 4) ∧
      s.Stores s' s2 e i { scratch := false, key := key, bytes := bs, rel := e.reachOpt rel } (fl ||| r.2)) ∧
    ∀ (sz : MSize),
      let n := mBytes sz
      let x := (e.th.lptr a off n).toNat
      let i : Instr := .stl h sz rel a off b
      let bs := storeBytes e.th sz b
      s.Executes e i → x % n = 0 →
      (x + n ≤ e.c.scratch → s.held e.coh x n true = false →
        if e.multiOp then s.Buffers s e i { scratch := true, key := x, bytes := bs, rel := e.reachOpt rel } fl
        else (x < 1024 → s.ringWaiters e.coh (x / 128) = []) →
          ∃ r, storeSp e (e.reachOpt rel) x bs s = .ok () r ∧ s.Ends r e i ((e.ordered r).th.orFlags fl) ∧
            r = { s with
              threads := r.threads, warps := r.warps, cohorts := r.cohorts, hist := r.hist, nextId := r.nextId
              free := r.free } ∧
            ∃ y, aget r.cohorts e.coh = some y ∧ y = { e.c with sp := y.sp, broken := y.broken } ∧
            (1024 ≤ x → y.broken = e.c.broken ∧
              (s.lastAt e.tid (spKey e.coh x) n → sread y.sp x n = bs) ∧
              ∀ k, ¬ (x ≤ k ∧ k < x + n) → sget y.sp k = sget e.c.sp k)) ∧
      ∀ o sl l, e.c.localPlace x n = some (.stash o sl) → stashLine e o n sl true s = .ok l s' →
        if e.multiOp then
          s.Buffers s' e i
            { scratch := false, key := l.key + o % 128, line := some (o / 128), bytes := bs, rel := e.reachOpt rel } fl
        else
          ∃ r, storeLine e (e.reachOpt rel) (o / 128) (o % 128) l bs s' = .ok () r ∧
            s.Ends r e i ((e.ordered r).th.orFlags fl) ∧
            ∀ y, aget r.cohorts e.coh = some y → ∃ l', aget y.lines (o / 128) = some l' ∧ l'.key = l.key ∧
              (∀ k, l'.dirty.getLsbD k = (l.dirty.getLsbD k || decide (o % 128 ≤ k ∧ k < min 128 (o % 128 + n)))) ∧
              (s'.lastAt e.tid (l.key + o % 128) n → (l'.bytes.drop (o % 128)).take n = bs.take (l.bytes.length - o % 128) ∨
                l.bytes.length < o % 128 + n) ∧
              ∀ k, ¬ (o % 128 ≤ k ∧ k < o % 128 + n) → k < l.bytes.length → l'.bytes[k]? = l.bytes[k]?

/-- ATOM and RED make one atomic step at their address: they store the new value of Table 17-5 for the value that
they read, a .cas that does not match stores nothing, and ATOM brings the value read to its register (R359, R360, R467);
that is the newest value where they must follow every write of the place (R260, R269). TAGST
writes its tag to the granules that it names, where no store of that tag is outstanding that it need not see, and to no
other (R260, R500). -/
def Obligations.AtomicsAndTags : Prop :=
  (∀ (h : Hdr) (w64 sgn : Bool) (op : AtomOp) (a b : Reg) (off : MemOff) (s s' s1 : State) (e : Env) (p : Place),
    let n := if w64 then 8 else 4
    let x : Access := { ptr := e.th.gptr a off n, n := n, rd := true, wr := true, acc := 2 }
    let bv := (e.th.rdW w64 b).toNat
    let stores := fun (old : List Byte) (new : Option Nat) (r : State) =>
      (s1.lastAt e.tid p.key n → old = s1.peek p.key n ∧ ∀ v, new = some v → sread r.mem p.key n = leBytes n v) ∧
      ∀ y, ¬ (p.key ≤ y ∧ y < p.key + n) ∨ new = none →
        sget r.mem y = sget (s1.recall p.key n false).mem y ∧ (s.noStash → sget r.mem y = sget s.mem y)
    x.ptr.toNat % n = 0 → e.needsToken = false → checkPlace e.who x s = .ok p s' → linkNeedM p.key s' = .ok false s1 →
    (∀ (ord : AtomOrd) (sc : Scope) (d : Reg),
      let i : Instr := .atom h w64 sgn op ord sc d a off b
      let cv := (e.th.rdW w64 (regPlus b (if w64 then 2 else 1))).toNat
      let f := fun bs => (atomNew w64 sgn op (leNat bs) bv cv).map (leBytes n)
      let sc' := e.reachOpt (atomScope ord sc)
      let fl := clampFlag (e.clampsOpt (atomScope ord sc))
      s.Executes e i → (e.clampsOpt (atomScope ord sc) && e.ctx.con.scopeTrap) = false →
      ∃ old r, rmwM e sc' (atomRel ord sc') p.key n f s1 = .ok old r ∧
        stores old (atomNew w64 sgn op (leNat old) bv cv) r ∧
        (d = .v 255 → s.Ends r e i ((e.ordered r).th.orFlags fl)) ∧
        (d ≠ .v 255 → e.ldcFull = false →
          s.Loads r e i (loadWords (if w64 then .b8 else .b4) false d (leBytes 8 (leNat old))) [] fl
            [(2, vaOf x.ptr, (x.at_ p.log).page)])) ∧
    ∀ (rel : Option Scope),
      let i : Instr := .red h w64 sgn op rel a off b
      let f := fun bs => (atomNew w64 sgn op (leNat bs) bv 0).map (leBytes n)
      s.Executes e i → (e.clampsOpt rel && e.ctx.con.scopeTrap) = false →
      ∃ old r, rmwM e none (e.reachOpt rel) p.key n f s1 = .ok old r ∧
        stores old (atomNew w64 sgn op (leNat old) bv 0) r ∧
        s.Ends r e i ((e.ordered r).th.orFlags (clampFlag (e.clampsOpt rel)))) ∧
  (∀ (w64 sgn : Bool) (old b c : Nat),
    let w := if w64 then 64 else 32
    let v := fun (x : Nat) => intOf w sgn x
    atomNew w64 false .add old b c = some ((old + b) % 2 ^ w) ∧
    (∃ x, atomNew w64 sgn .min old b c = some x ∧ (x = old ∨ x = b) ∧ v x ≤ v old ∧ v x ≤ v b) ∧
    (∃ x, atomNew w64 sgn .max old b c = some x ∧ (x = old ∨ x = b) ∧ v old ≤ v x ∧ v b ≤ v x) ∧
    (∃ x, atomNew w64 sgn .and old b c = some x ∧ ∀ k, x.testBit k = (old.testBit k && b.testBit k)) ∧
    (∃ x, atomNew w64 sgn .or old b c = some x ∧ ∀ k, x.testBit k = (old.testBit k || b.testBit k)) ∧
    (∃ x, atomNew w64 sgn .xor old b c = some x ∧ ∀ k, x.testBit k = (old.testBit k ^^ b.testBit k)) ∧
    atomNew w64 sgn .exch old b c = some b ∧
    atomNew w64 sgn .cas old b c = if old = b then some c else none) ∧
  ∀ (h : Hdr) (a b : Reg) (off : MemOff) (s s' : State) (e : Env) (ks : List Nat),
    let v := e.th.rd b
    let ptr := e.th.gptr a off 32
    s.Executes e (.tagst h a off b) → v.extractLsb' 4 4 = 0 → v.extractLsb' 16 16 = 0 →
    tagPlaces e.who ptr ((v.extractLsb' 8 8).toNat + 1) ptr s = .ok ks s' →
    let r := storeTags e.tid (ks.filter isLocalKey) (v.setWidth 4) s'
    s.Ends r e (.tagst h a off b) (e.ordered r).th ∧
      r = { s' with
        tags := r.tags, threads := r.threads, warps := r.warps, hist := r.hist, nextId := r.nextId, free := r.free } ∧
      (∀ k, k ≠ e.tid → aget r.threads k = aget s'.threads k) ∧
      ∀ g,
        let mine := ∃ k ∈ ks, isLocalKey k = true ∧ k / 32 = g
        (¬ mine → sget r.tags g = sget s.tags g) ∧
        (mine → s'.lastAt e.tid (tagKey (32 * g)) 1 → sget r.tags g = v.setWidth 4)

/-- PGREQ of a resident page passes; of another it posts a record, unless a request for the page is outstanding, and its
thread is not runnable meanwhile (R284, R453, R454). CFLUSH.CODE of a range of no bytes passes; else the
code lines, descriptors, personality-store slots and decoded ops that its clusters hold of the range are gone, and what
the thread's reads no longer return enters those caches no more (R142, R394 to R396). A request counts as outstanding once its record is posted (the
model's reading: log entry 31). -/
def Obligations.PageRequestsAndFlushes : Prop :=
  (∀ (h : Hdr) (a : Reg) (off : BitVec 8) (s s' s2 : State) (e : Env) (p : Place),
    let x : Access := { ptr := e.th.rd64 a + off.signExtend 64, n := 1, acc := 7 }
    let post := { s'.postOf e (accFault .notResident (x.at_ p.log)) false with tids := [e.tid] }
    s.Executes e (.pgreq h a off) → checkTo3 e.who x s = .ok p s' →
    (pteRes p.pte = true → s.Ends s' e (.pgreq h a off) e.th) ∧
    (pteRes p.pte = false → s'.requested e.cid e.ctx post.page = (true, s2) → s.Ends s2 e (.pgreq h a off) e.th) ∧
    (pteRes p.pte = false → s'.requested e.cid e.ctx post.page = (false, s2) →
      s.Ends (s2.queuePost e.cid post) e (.pgreq h a off) { e.th with status := .posting false })) ∧
  ∀ (h : Hdr) (scope : Scope) (a b : Reg) (s : State) (e : Env),
    let asked : Scope := match scope with
      | .warp | .cohort | .core => .cluster
      | .domain | .system => .device
      | x => x
    let n := (e.th.rd b).toNat
    let va := (vaOf (e.th.rd64 a)).toNat
    let sc := e.reach asked
    let cl := e.clamps asked
    let within := fun (u : Seen) => (s.clustersIn e sc).contains u.cluster = true ∧ u.cid = e.cid
    let dir := (vaOf e.ctx.con.persdir).toNat
    s.Executes e (.cflush h scope a b) → ptrOk (e.th.rd64 a) = true → (cl && e.ctx.con.scopeTrap) = false →
    (n = 0 → s.Ends s e (.cflush h scope a b) (e.th.orFlags (clampFlag cl))) ∧
    (n ≠ 0 → ∃ t v, exec (.cflush h scope a b) s = .next t ∧
      State.Becomes { s with seen := t.seen, flushes := t.flushes } e.tid t v ∧
      t.flushes = s.flushes ++ (if s.hist = [] then [] else
        [{ cid := e.cid, clusters := s.clustersIn e sc, va := va, n := n, known := e.th.ord.known }]) ∧
      Thread.Past e (.cflush h scope a b) v (e.th.orFlags (clampFlag cl)) ∧
      (∀ u ∈ t.seen, u ∈ s.seen ∧ (within u →
        let slot := u.addr / 2 ^ 57 % 2 ^ 7
        (u.what = 0 ∨ u.what = 2 ∨ u.what = 5 → u.inRange va n = false) ∧
        (u.what = 1 ∨ u.what = 5 ∨ u.what = 6 → s.slotInRange u.cluster e.cid slot (dir + 16 * slot) va n = false) ∧
        (u.what = 5 ∨ u.what = 6 → rangesMeet (u.addr / 2 ^ 64) 128 va n = false))) ∧
      ∀ u ∈ s.seen, ¬ within u ∨ u.what = 3 ∨ u.what = 4 → u ∈ t.seen)

/-- SMAP maps its slot, SFLUSH cleans and SINV drops the lines of its range, with one operation of class CPY where lines
are written back; a line that is evicted or recalled writes its dirty bytes and no other to memory, and such an
operation retires (R236, R238, R239, R272, R493). -/
def Obligations.StashOperations : Prop :=
  (∀ (h : Hdr) (m : BitVec 3) (a b : Reg) (s : State) (e : Env),
    let va := e.th.rd64 a
    let vb := (e.th.rd b).toNat
    let len := 128 * bitsOf vb 29 16
    let slot : StashSlot := { s := 128 * bitsOf vb 13 0, len := len, va := va }
    let put := fun (c : Cohort) =>
      { c with slots := if len = 0 then adel c.slots m.toNat else aset c.slots m.toNat slot }
    s.Executes e (.smap h m a b) → ptrOk va = true → smapOk e.c m.toNat va vb = true →
    (aget e.c.slots m.toNat = none → s.Ends (s.modCohort e.coh put) e (.smap h m a b) e.th) ∧
    ∀ old, aget e.c.slots m.toNat = some old → e.th.hasRoom .cpy = true →
      let s' := s.flushLines e.coh (fun l => old.s ≤ 128 * l && 128 * l < old.s + old.len) true
      s.Ends (State.modCohort { s' with nextId := s.nextId + 1 } e.coh put) e (.smap h m a b)
        { e.th with out := e.th.out ++ [{ cls := .cpy, id := s.nextId }] }) ∧
  (∀ (h : Hdr) (a b : Reg) (s : State) (e : Env) (lo hi : Nat),
    stashRange e.c (e.th.rd a).toNat (e.th.rd b).toNat s = .ok (lo, hi) s →
    (s.Executes e (.sflush h a b) → e.th.hasRoom .cpy = true →
      s.Ends { s.flushLines e.coh (fun l => lo ≤ l && l < hi) false with nextId := s.nextId + 1 } e (.sflush h a b)
        { e.th with out := e.th.out ++ [{ cls := .cpy, id := s.nextId }] }) ∧
    (s.Executes e (.sinv h a b) →
      s.Ends { s with
          hist := (s.discardLines e.coh lo hi).hist
          cohorts := amod s.cohorts e.coh fun c => { c with lines := c.lines.filter fun x => !(lo ≤ x.1 && x.1 < hi) } } e
        (.sinv h a b) e.th)) ∧
  (∀ (coh line : Nat) (s : State) (c : Cohort) (l : StashLine), aget s.cohorts coh = some c → s.linkDown = false →
    c.lines.filter (fun x => x.1 == line) = [(line, l)] →
    ∀ (i : Instr) (gone : Bool), i = .stashEviction coh line ∧ gone = true ∨ i = .stashRecall coh line gone →
    ∃ t, exec i s = .next t ∧ t = { s with mem := t.mem, cohorts := t.cohorts } ∧
      (∀ k, k ≠ coh → aget t.cohorts k = aget s.cohorts k) ∧
      (∃ ls, aget t.cohorts coh = some { c with lines := ls } ∧
        aget ls line = (if gone then none else some { l with dirty := 0, fresh := [] }) ∧
        ∀ k, k ≠ line → aget ls k = aget c.lines k) ∧
      ∀ a, sget t.mem a = if l.key ≤ a ∧ a < l.key + l.bytes.length ∧ l.dirty.getLsbD (a - l.key) = true then
        l.bytes.getD (a - l.key) 0 else sget s.mem a) ∧
  ∀ (tid id : Nat) (s : State) (u : Thread), aget s.copies id = none → aget s.threads tid = some u →
    (u.out.any fun o => o.cls == .cpy && o.id == id) = true →
    let v := u.finish id none
    let r : State := { s with copies := s.copies.filter fun c => !(c.2.landed && v.retired.contains c.1) }
    ∃ t, exec (.stashWriteBackRetire tid id) s = .next t ∧ (s.hist = [] → r.Becomes tid t v) ∧
      t = { r with threads := t.threads } ∧ (∃ o, aget t.threads tid = some { v with ord := o }) ∧
      ∀ k, k ≠ tid → ∃ o, aget t.threads k = (aget s.threads k).map fun w => { w with ord := o }

/-- ACPY and ACPYT read their descriptor like an LDL and start its copy with an operation of class CPY; a copy whose
accesses are all made lands: it updates its completion object and retires with its flags once every older operation of
its class has retired, and what the threads of its cohort then read and write of the scratchpad follows what it wrote there
(R233, R242, R247, R249, R251, R356). A copy that meets a page that is not resident parks there with what it has written
and posts a record; one that fails otherwise stops, with FAULT in its completion object and the fault for the WAITC or
EXIT that covers it. A copy without conversion brings each word from its place to its place, in its aligned 16-byte units
(R244, R246, R248). Completion objects and words are taken outside the control blocks of the stage rings. -/
def Obligations.Copies : Prop :=
  ((∀ (h : Hdr) (a : Reg) (planes : Bool) (s s1 : State) (e : Env) (b : List Byte),
     let off := (e.th.rd a).toNat
     let i : Instr := if planes then .acpyt h a else .acpy h a
     let o : OutOp := { cls := .cpy, id := s1.nextId }
     let cp : Copy :=
       { id := s1.nextId, tid := e.tid, coh := e.coh, planes := planes, desc := b, descOff := off, pc := e.th.pc,
         pers := e.pers, opIdx := e.opIdx, ord := (s1.ordFor e.tid).forUnit }
     s.Executes e i → off % 64 = 0 → e.c.isStashAddr off = false → s.held e.coh off 64 false = false →
     readCopyDesc e off planes s = .ok b s1 → e.th.hasRoom .cpy = true →
     ((cdescOf b).takesEntry = true → s.entriesUsed e.core < 32) →
     s.Ends { s1 with copies := aset s1.copies s1.nextId cp, nextId := s1.nextId + 1 } e i
       { (e.ordered s1).th with out := e.th.out ++ [o] } ∧
     s1 = { s with free := s1.free, threads := s1.threads } ∧
     (s.settledAt (spKey e.coh off) 64 → b = sread e.c.sp off 64)) ∧
   ∀ (id : Nat) (s s' : State) (c x : Copy) (e : Env) (u : Thread) (k : Cohort), s.runCopy id = some (c, e, none, s') →
     c.id = id → aget s'.copies id = some x → x.id = id → rising 0 s'.copies = true → aget s'.threads x.tid = some u →
     aget s'.cohorts x.coh = some k →
     let d := cdescOf x.desc
     d.nocomp = true ∨ 1024 ≤ d.comp →
     let v := u.finish id none x.flags x.wrote
     ∃ t, exec (.copyLand id) s = .next t ∧
       t = { s' with copies := t.copies, threads := t.threads, cohorts := t.cohorts, hist := t.hist, nextId := t.nextId } ∧
       (∃ o, aget t.threads x.tid = some { v with ord := o }) ∧
       (∀ j, j ≠ x.tid → ∃ o, aget t.threads j = (aget s'.threads j).map fun w => { w with ord := o }) ∧
       (v.retired.contains id = true → ∀ j w, aget t.threads j = some w → cohOf j = x.coh → ∀ m ∈ t.hist, m.ts ∈ x.wrote →
         spKey 0 0 ≤ m.key → w.ord.knows m.ts = true ∧ w.ord.follows m.ts = true) ∧
       aget t.copies id = (if v.retired.contains id then none else some { x with landed := true }) ∧
       (∀ j, j ≠ id → aget t.copies j = (aget s'.copies j).filter fun y => !(y.landed && v.retired.contains j)) ∧
       (∀ j, j ≠ x.coh → aget t.cohorts j = aget s'.cohorts j) ∧
       ∃ y, aget t.cohorts x.coh = some y ∧
         y = { k with sp := if d.nocomp then k.sp else swrite k.sp d.comp (compBytes k.sp d.comp false) }) ∧
  ((∀ (id : Nat) (s s' : State) (c x : Copy) (e : Env) (f : FaultInfo), s.runCopy id = some (c, e, some f, s') →
     c.id = id → aget s'.copies id = some x → x.id = id →
     (f.kind = .notResident → ∃ t, exec (.copyPark id) s = .next t ∧
       aget t.copies id = some { x with parked := true } ∧
       t = { s' with copies := t.copies, ctxs := t.ctxs } ∧
       ∀ ctx, aget s'.ctxs e.cid = some ctx → ctx.stopped = false → ∃ p, aget t.ctxs e.cid =
         some { ctx with posts := addPost ctx.posts p } ∧ p.copy = some id ∧ p.parked = true ∧ p.kind = .notResident ∧
           p.pc = c.pc ∧ p.tids = []) ∧
     (f.kind ≠ .notResident → f.frozen = false → ∀ u k, aget s'.threads x.tid = some u → aget s'.cohorts x.coh = some k →
       rising 0 s'.copies = true →
       let d := cdescOf x.desc
       d.nocomp = true ∨ 1024 ≤ d.comp →
       ∃ t y, exec (.copyFaultStop id) s = .next t ∧
         (∃ o, aget t.threads x.tid = some
           { u.finish id (some { f with copy := true, cdesc := c.descOff }) x.flags x.wrote with ord := o }) ∧
         aget t.cohorts x.coh = some y ∧
         y = { k with sp := if d.nocomp then k.sp else swrite k.sp d.comp (compBytes k.sp d.comp true) } ∧
         ∀ z, aget t.copies id = some z → z = { x with landed := true })) ∧
   (∀ (sp : Sparse 8) (a : Nat) (fault : Bool),
     let b := compBytes sp a fault
     let w := fun (o : Nat) => leNat (sread sp (a + o) 4)
     b.length = 8 ∧ leNat (b.take 4) % 2 = 1 - w 0 % 2 ∧ leNat (b.drop 4) = (w 4 + 1) % 2 ^ 32 ∧
       (fault = true → leNat (b.take 4) / 2 % 2 = 1) ∧ (fault = false → leNat (b.take 4) / 2 % 2 = w 0 / 2 % 2) ∧
       leNat (b.take 4) < 4) ∧
   ∀ (x : CopyEnv) (u : Nat) (s s' : State) (c c' : Cohort),
     rawUnit x u s = .ok () s' → aget s.cohorts x.e.coh = some c → aget s'.cohorts x.e.coh = some c' → s.noStash →
     s.linkDown = false → s.hist = [] → 1024 ≤ x.d.saddr → x.d.saddr % 4 = 0 → x.d.spitch % 4 = 0 →
     let at_ := fun (r o : Nat) => x.d.gaddr + BitVec.ofNat 64 (r * x.d.gpitch + o)
     let asHad := fun (s0 : State) =>
       s0 = { s with free := s0.free, seen := s0.seen, copies := s0.copies, threads := s0.threads }
     (x.d.dir = 0 →
       let word := fun (a : Nat) =>
         a / 16 = x.d.saddr / 16 + u ∧ x.d.saddr ≤ a ∧ (x.d.rowAt a).1 < x.d.rows ∧ (x.d.rowAt a).2 < x.d.rowlen ∧
           (x.d.rowAt a).2 % 4 = 0
       s'.mem = s.mem ∧
         (∀ a, word a → ∃ p s0 s1, asHad s0 ∧
           checkRead x.who (copyAcc (at_ (x.d.rowAt a).1 (x.d.rowAt a).2) 4 false) s0 = .ok p s1 ∧
           sread c'.sp a 4 = sread s.mem p.key 4) ∧
         ∀ y, (∀ a, word a → ¬ (a ≤ y ∧ y < a + 4)) → sget c'.sp y = sget c.sp y) ∧
     (x.d.dir = 1 →
       let per := x.d.rowlen / 16 + 2
       let r := u / per
       let o := (vaOf (at_ r 0)).toNat % 16
       let lo := 16 * (u % per) - o
       let n := min x.d.rowlen (16 * (u % per + 1) - o) - lo
       c'.sp = c.sp ∧ (n = 0 → s'.mem = s.mem) ∧
         (0 < n → ∃ p s0 s1, asHad s0 ∧ checkPlace x.who (copyAcc (at_ r lo) n true) s0 = .ok p s1 ∧
           s'.mem = swrite s.mem p.key (sread c.sp (x.d.saddr + r * x.d.spitch + lo) n))))

/-- The host reads and writes the memory of a partition, past the stash, and none that no partition has (R238, R253,
Table 16-2). That its write is the last in coherence order is the model's reading (log entry 3). The fault of an access to no partition's memory is the model's
(log entry 11). -/
def Obligations.HostAccesses : Prop :=
  ∀ (pid addr : Nat) (data : List Byte) (s : State),
    (pid < 4 → addr + data.length ≤ s.partBytes pid →
      let key := pid * 2 ^ 50 + addr
      (∃ t m, exec (.hostRequesterAccess true pid addr data) s = .next t ∧ sread t.mem key data.length = data ∧
        (∀ a, ¬ (key ≤ a ∧ a < key + data.length) → sget t.mem a = sget (s.recall key data.length false).mem a) ∧
        (s.noStash → ∀ a, ¬ (key ≤ a ∧ a < key + data.length) → sget t.mem a = sget s.mem a) ∧
        t.noLines key data.length ∧ t.hist = s.hist ++ [m] ∧ m.ts = s.nextId ∧ m.key = key ∧ m.new = data ∧
        t = { s with
          mem := t.mem, cohorts := t.cohorts, hist := t.hist, lost := t.lost, free := t.free
          host := joinView s.host [s.nextId], nextId := s.nextId + 1 }) ∧
      ∃ t, exec (.hostRequesterAccess false pid addr data) s = .next t ∧
        t = { s.recall key data.length false with host := t.host } ∧ (s.noStash → t = { s with host := t.host })) ∧
    (4 ≤ pid ∨ s.partBytes pid < addr + data.length → ∀ write,
      exec (.hostRequesterAccess write pid addr data) s = .fault .noSuchMemory)

/-! ## Guards, faults and control flow -/

/-- An instruction that fails one of checks 4 to 6 takes that fault; one whose guard or shadow is false passes and
changes nothing, but for SKIP and the convergence points, which act whatever their guard (R61, R151, R159). Of FRND,
FCLASS, the packed ops, SFN, LMUL, LADD, PMOV, RDSYS, FEAT and RAND, one that executes completes, and leaves every
register and predicate but its destinations, every flag that stood, and all else of the thread and the machine. -/
def Obligations.GuardsAndChecks : Prop :=
  ∀ (i : Instr) (s : State) (e : Env), (encodeFields i).isSome = true → s.env = some e →
    (∀ f, preCheck e i = some f → exec i s = .next (s.takeFault e (Instr.isLong i) f)) ∧
    (preCheck e i = none → e.th.active (Instr.hdr i) = false → e.th.Clear → Instr.isConv i = false →
      (∀ h n, i ≠ .skip h n) → s.Passes e i 0) ∧
    (Instr.onRegisters i = true → s.Executes e i →
      let xs := ((Instr.dsts i).flatMap Opnd.keys).filterMap fun k => match k with
        | .r x => some x
        | _ => none
      ∃ t v fl, exec i s = .next t ∧ State.Becomes { s with free := t.free } e.tid t v ∧
        Thread.Kept e i v xs (Instr.writtenPreds i) fl)

/-- A fault of a kind that parks stops its thread with a record for the fault queue; another one enters the user handler
where the thread has one whose entry line can be entered, and else a record is posted and the launch ends with FAULT: at
once, or where other threads of its bundle are still to perform their ops, after them (R47, R51, R291, R296, R297). The
handler's first op is the slot after its line's header (the model's reading: log entry 10). -/
def Obligations.FaultDelivery : Prop :=
  ∀ (s : State) (e : Env) (long : Bool) (f : FaultInfo), s.env = some e → f.frozen = false →
    let stopped : Thread := { e.th.abandon with status := .posting true, wpSuppress := false, granted := false }
    let posts := fun (r : State) (parked : Bool) (t : State) => aget t.ctxs e.cid = some (if e.ctx.stopped then e.ctx
      else { e.ctx with posts := addPost e.ctx.posts (r.postOf e f parked) })
    let ends := fun (r : State) =>
      (s.issue ≠ [] →
        ∃ t, s.takeFault e long f = t ∧
          State.Becomes { r with ctxs := t.ctxs, ending := s.ending ++ [(e.c.launch, stFault)] } e.tid t stopped ∧
          posts r false t) ∧
      (s.issue = [] → e.l.status = none →
        ∃ t l x, s.takeFault e long f = t ∧ aget t.launches e.c.launch = some l ∧ l.status = some stFault ∧
          l.pend = [] ∧ (∀ c ∈ t.cohorts, c.2.launch ≠ e.c.launch) ∧ aget t.ctxs e.cid = some x ∧
          (e.ctx.stopped = false → ∃ p ∈ x.posts, p.kind = f.kind ∧ p.pc = e.th.pc ∧ p.parked = false))
    let mayHandle := e.th.trapVec ≠ 0 ∧ e.th.tf = false ∧ f.kind ≠ .memErr ∧ f.kind ≠ .binClosed ∧ f.unhandled = false
    (FaultKind.parks f.kind = true → f.copy = false →
      ∃ t, s.takeFault e long f = t ∧ State.Becomes { s with ctxs := t.ctxs } e.tid t stopped ∧ posts s true t) ∧
    (FaultKind.parks f.kind = false ∨ f.copy = true →
      (∀ s', mayHandle → s.handlerOk e = (true, s') →
        ∃ t v, s.takeFault e long f = t ∧ s'.Becomes e.tid t v ∧
          v = { e.th.abandon with
            tf := true, trapPc := e.th.pc, trapNext := if f.copy then e.th.pc else e.seqNext long
            trapCause := trapCauseOf (FaultKind.code f.kind) f.cause f.acc f.copy, trapAddr := f.addr, trapInfo := f.info
            pc := e.th.trapVec + 8, status := .ready, granted := false, emuEntry := false, wpSuppress := false }) ∧
      (∀ s', mayHandle → s.handlerOk e = (false, s') →
        s' = { s with free := s'.free, seen := s'.seen } ∧ ends s') ∧
      (¬ mayHandle → ends s))

/-- BRA and BRX go to their target, where its line can be fetched and, in native code, marks the slot as a target; else
they fault (R385, R386, R388). CALL and CALLX push the PC after them, with a spill of the oldest entry where four
are on chip, and go to their target; RET pops the newest entry, with a refill where none is on chip (R63, R64, R132,
R147, R391, R392, R473). In a template of two or more ops a spill is one of its buffered stores, and a refill sees
those before it. -/
def Obligations.BranchesAndCalls : Prop :=
  (∀ (i : Instr) (target : VAddr) (s s' : State) (e : Env) (pers : Nat) (b : List Byte),
     (∃ h off, i = .braRel h off ∧ target = e.th.pc + off.signExtend 57 * BitVec.ofNat 57 (if 2 ≤ e.pers then 1 else 8)) ∨
       (∃ h, i = .braLong h target) ∨ (∃ h a, i = .brx h a ∧ e.th.rd64 a = target.setWidth 64) →
     s.Executes e i → targetLine e.who target s = .ok (pers, b) s' →
     let good := target.toNat % 8 = 0 ∧ slotOf target ≠ 0 ∧ lineOk b = true ∧ lineTarget b (slotOf target) = true
     (pers ≠ 0 ∨ good → s.Jumps s' e i e.th target) ∧
     (pers = 0 → ¬ good →
       exec i s = .next ((s.keepDraws s').takeFault e (Instr.isLong i) { kind := .branchTarget, addr := target.setWidth 64 }))) ∧
  ((∀ (i : Instr) (target pc : VAddr) (cls : Option Nat) (s s1 : State) (e : Env),
     (∃ h off, i = .callRel h off ∧ cls = none ∧
         target = e.th.pc + off.signExtend 57 * BitVec.ofNat 57 (if 2 ≤ e.pers then 1 else 8)) ∨
       (∃ h, i = .callLong h target ∧ cls = none) ∨
       (∃ h c a, i = .callx h c a ∧ cls = some c.toNat ∧ e.th.rd64 a = target.setWidth 64) →
     s.Executes e i → callTarget e target cls s = .ok pc s1 →
     let back := addrOf (e.seqNext (Instr.isLong i))
     (∃ pers b s', targetLine e.who target s = .ok (pers, b) s' ∧ (pers = 0 → target.toNat % 128 = 0 ∧ lineOk b = true ∧
       lineEntry b = true ∧ lineNeed b ≤ e.c.regs ∧ (∀ c, cls = some c → lineSigClass b = c) ∧ pc = target + 8) ∧
       (pers ≠ 0 → pers < 16 ∧ pc = target)) ∧
     (e.th.stack.length < 4 → s.Jumps s1 e i { e.th with stack := back :: e.th.stack } pc) ∧
     ∀ p s2 s3, 4 ≤ e.th.stack.length → 8 ≤ e.th.csp.toNat → e.th.spilled ≠ 0xFFFFFFFF#32 →
       checkPlace e.who { ptr := e.th.csp - 8, n := 8, wr := true, acc := 6 } s1 = .ok p s2 →
       let spill := leBytes 8 (e.th.stack.getLastD 0).toNat
       let push := fun (u : Thread) =>
         { u with stack := back :: e.th.stack.dropLast, csp := e.th.csp - 8, spilled := e.th.spilled + 1 }
       (e.multiOp = false → linkNeedM p.key s2 = .ok false s3 →
         ∃ r, writeSeenM e none p.key spill s3 = .ok () r ∧ s.Jumps r e i (push (e.ordered r).th) pc ∧
           (s3.lastAt e.tid p.key 8 → sread r.mem p.key 8 = spill)) ∧
       (e.multiOp = true → ∃ t v, exec i s = .next t ∧ s2.Becomes e.tid t v ∧
         v = { push (e.ordered s2).th.dropTemps with
           pc := pc, hazards := v.hazards, shadow := v.shadow, exp := none, wpSuppress := false, granted := false
           commits := e.th.commits ++ e.buffered ++ [{ scratch := false, key := p.key, bytes := spill }] })) ∧
   ∀ (h : Hdr) (s s' : State) (e : Env), s.Executes e (.ret h) →
     (∀ v rest, e.th.stack = v :: rest → v.extractLsb' 57 7 = 0 →
       s.Jumps s e (.ret h) { e.th with stack := rest } (v.setWidth 57)) ∧
     (e.th.stack = [] → e.th.spilled = 0 →
       exec (.ret h) s = .next (s.takeFault e (Instr.isLong (.ret h)) { kind := .callstack })) ∧
     ∀ p, e.th.stack = [] → e.th.spilled ≠ 0 →
       checkRead e.who { ptr := e.th.csp, n := 8, rd := true, acc := 6 } s = .ok p s' →
       ∃ b r, readMine e none p.key 8 s' = .ok b r ∧
         (s'.settledAt p.key 8 → b = overlay e.buffered false p.key (s'.peek p.key 8)) ∧
         let v : Dword := BitVec.ofNat 64 (leNat b)
         (v.extractLsb' 57 7 = 0 →
           s.Jumps r e (.ret h) { (e.ordered r).th with csp := e.th.csp + 8, spilled := e.th.spilled - 1 }
             (v.setWidth 57)))

/-- SKIP passes and shadows the next n ops with its guard (R61, R492). EXIT whose operations have retired ends its
expansion and stands to end; the thread that ends counts as exited, and the last thread of a cohort takes the cohort
with it (R404, R405). A thread that waits at a matrix instruction of the warp takes ILLEGAL_OPERAND (R56), and one at
another convergence point passes it where no lane of its mask is missing now (R54); the phase of a barrier of the cohort,
or of its group, for which no arrival is missing now completes (R37, R371). What the thread and its operations wrote comes
before the completion signal (R75). -/
def Obligations.SkipsAndEnds : Prop :=
  (∀ (h : Hdr) (n : BitVec 3) (s : State) (e : Env), s.env = some e → preCheck e (.skip h n) = none → e.th.Clear →
    ∃ t v, exec (.skip h n) s = .next t ∧ s.Becomes e.tid t v ∧ Thread.Kept e (.skip h n) v [] [] 0 ∧
      v.shadow = some (n.toNat, e.th.guard h)) ∧
  (∀ (h : Hdr) (s : State) (e : Env), s.Executes e (.exit h) → s.coverOf e.th.out = .clear → s.fetching e.tid = false →
    s.Stands s e (.exit h) (if e.needsToken then { e.th with status := .token .always }
      else { if e.th.exp.isSome then e.th.dropTemps else e.th with
        status := .exiting, exp := none, commits := e.th.commits ++ e.buffered })) ∧
  ∀ (tid : Nat) (s : State) (u : Thread) (c : Cohort) (core : Nat), aget s.threads tid = some u → u.status = .exiting →
    aget s.cohorts (cohOf tid) = some c → c.core = some core → rising 0 s.threads = true →
    let done := fun (l : Launch) => { l with endView := joinView l.endView u.completed }
    let s1 := { s.setThread tid { status := .exited } with launches := amod s.launches c.launch done }
    let waiters := ∃ k v, aget s.threads k = some v ∧ warpOf k = warpOf tid ∧ v.conv ≠ none
    (c.bars = [] → c.groups = [] → ¬ waiters →
      (s1.allExited (cohOf tid) = false → ∃ t, exec (.threadEnd tid) s = .next t ∧
        State.Becomes { s with launches := s1.launches } tid t { status := .exited }) ∧
      (s1.allExited (cohOf tid) = true → ∃ t, exec (.threadEnd tid) s = .next t ∧
        aget t.cohorts (cohOf tid) = none ∧ t.threads = s.threads.filter (fun k => cohOf k.1 != cohOf tid) ∧
        t.mem = (s.writeBack (s.cohPid c) (c.lines.map (·.2))).mem ∧ t.launches = s1.launches ∧
        ∀ k, k ≠ cohOf tid → aget t.cohorts k = aget s.cohorts k)) ∧
    (s1.allExited (cohOf tid) = false →
      (∀ (k : Nat) (v : Thread) (w : ConvWait) (q : Env), c.bars = [] → c.groups = [] → aget s.threads k = some v →
        v.conv = some w → k ≠ tid → warpOf k = warpOf tid →
        (∀ j x, aget s.threads j = some x → warpOf j = warpOf tid → j ≠ k → x.conv = none) →
        (s1.modThread k Thread.leave).envOf k w.pers = some q →
        (Instr.isMatrix w.op = true → exec (.threadEnd tid) s = .next
          ((s1.modThread k Thread.leave).takeFault q (Instr.isLong w.op) (opFault .illegalOperand))) ∧
        (Instr.isMatrix w.op = false → s1.allArrived (warpOf tid) w.mask [(k, w)] = true →
          ∃ t, exec (.threadEnd tid) s = .next t ∧
            s1.Becomes k t ((if w.guard then laneEffect w.op [q] q else q.th).pass q w.op w.guard none)) ∧
        (Instr.isMatrix w.op = false → s1.allArrived (warpOf tid) w.mask [(k, w)] = false →
          exec (.threadEnd tid) s = .next s1)) ∧
      (∀ (n : Nat) (x : NBar) (m : Word), c.bars = [(n, x)] → c.groups = [] → ¬ waiters → x.mask = some m →
        let met := s1.barMet (cohOf tid) m x.arrived
        ∃ t, exec (.threadEnd tid) s = .next t ∧ t = { s1 with threads := t.threads, cohorts := t.cohorts } ∧
          aget t.cohorts (cohOf tid) = some { c with bars := if met then [(n, { phase := x.phase + 1 })] else c.bars } ∧
          (∀ k, k ≠ cohOf tid → aget t.cohorts k = aget s.cohorts k) ∧
          ∀ k, aget t.threads k = (aget s1.threads k).map fun y =>
            if met then
              { y with
                status := if cohOf k = cohOf tid ∧ y.status = .named n x.phase then .ready else y.status
                ord := match aget x.rels k with
                  | some r => if y.status = .named n x.phase ∨ y.status = .token (.named n x.phase) then
                      y.ord.acquire r.insts (x.rels.map (·.2)) else y.ord
                  | none => y.ord }
            else y) ∧
      ∀ (g : Nat) (l : Launch), c.bars = [] → c.groups = [g] → ¬ waiters → aget s1.launches c.launch = some l →
        l.status = none → (aget l.groups g).isSome = true → l.gcolls = [] →
        (∀ j x, aget s.threads j = some x → ∀ a b p i, x.status ≠ .coll a b p i) →
        let x := l.gbar g
        x.arrived ≠ [] →
        let met := s1.groupMet c.launch g l x.arrived
        ∃ t, exec (.threadEnd tid) s = .next t ∧ t = { s1 with threads := t.threads, launches := t.launches } ∧
          aget t.launches c.launch =
            some { l with gbars := if met then aset l.gbars g { phase := x.phase + 1 } else l.gbars } ∧
          (∀ k, k ≠ c.launch → aget t.launches k = aget s.launches k) ∧
          ∀ k, aget t.threads k = (aget s1.threads k).map fun y =>
            if met then
              { y with
                status := if ((s.launchCohorts c.launch).map (·.1)).contains (cohOf k) = true ∧
                    y.status = .grp g x.phase then .ready else y.status
                ord := match aget x.rels k with
                  | some r => if y.status = .grp g x.phase ∨ y.status = .token (.grp g x.phase) then
                      y.ord.acquire r.insts (x.rels.map (·.2)) else y.ord
                  | none => y.ord }
            else y)

/-- TRAP and BPT enter the user handler with its saved registers, or fault; TRET, GRET and PDONE restore what their
entry saved (R138, R298, R299, R306). A trap whose handler's line cannot be entered is a fault that no
handler takes (R296). The handler's first op is the slot after its line's header (the model's reading: log entry 10);
the ADDR of TRET, GRET and PDONE outside their handlers is 0 (R289; the model's reading: log entry 20). PDONE reads LIVE
as a plain load (R304). -/
def Obligations.TrapsAndHandlerReturns : Prop :=
  (∀ (i : Instr) (kind code : Nat) (s s' : State) (e : Env),
    (∃ h n, i = .trap h n ∧ kind = 0xF0 ∧ code = n.toNat) ∨ (∃ h, i = .bpt h ∧ kind = 0xF1 ∧ code = 0) → s.Executes e i →
    (e.th.trapVec = 0 ∨ e.th.tf = true →
      exec i s = .next (s.takeFault e (Instr.isLong i) (pcFault .illegalInstruction e.th.pc))) ∧
    (e.th.trapVec ≠ 0 → e.th.tf = false → s.handlerOk e = (true, s') →
      ∃ v, s.Stands s' e i v ∧ v = { e.th.rollback with
        tf := true, trapPc := e.th.pc, trapNext := e.seqNext (Instr.isLong i)
        trapCause := BitVec.ofNat 64 (kind + 256 * code), trapAddr := 0, trapInfo := 0, pc := e.th.trapVec + 8
        status := .ready, granted := false, hazards := v.hazards, emuEntry := false, wpSuppress := false }) ∧
    (e.th.trapVec ≠ 0 → e.th.tf = false → s.handlerOk e = (false, s') →
      exec i s = .next ((s.keepDraws s').takeFault e (Instr.isLong i)
        { pcFault .illegalInstruction e.th.pc with unhandled := true }))) ∧
  (∀ (h : Hdr) (s : State) (e : Env), s.Executes e (.tret h) →
    (e.th.tf = false → exec (.tret h) s = .next (s.takeFault e (Instr.isLong (.tret h)) (opFault .illegalInstruction))) ∧
    (e.th.tf = true → s.Jumps s e (.tret h) { e.th with
      tf := false, trapPc := 0, trapNext := 0, trapCause := 0, trapAddr := 0, trapInfo := 0 } e.th.trapNext)) ∧
  (∀ (h : Hdr) (s : State) (e : Env), s.Executes e (.gret h) →
    (e.th.handler = false → exec (.gret h) s = .next (s.takeFault e (Instr.isLong (.gret h)) (opFault .illegalInstruction))) ∧
    (e.th.handler = true → s.Jumps s e (.gret h) { e.th with
      handler := false, emuPc := 0, emuNext := 0, emuWord := 0, emuInfo := 0, x := [] } e.th.emuNext)) ∧
  ∀ (h : Hdr) (s s' : State) (e : Env) (b : Option (List Byte)), s.Executes e (.pdone h) →
    (e.th.preActive = false →
      exec (.pdone h) s = .next (s.takeFault e (Instr.isLong (.pdone h)) (opFault .illegalInstruction))) ∧
    (e.th.preActive = true → s.agentRead e.who.noWatch e.th.preLive 48 e.th.ord.known = (b, s') →
      ∃ u v : Thread, s.Stands s' e (.pdone h) v ∧
        v = { if e.th.exp.isSome then u.dropTemps else u with
          preActive := false, prePc := 0, preLive := 0, preShadow := none, preSuppress := false
          shadow := e.th.preShadow, pc := e.th.prePc
          status := if e.c.pending then .preWait else e.th.status, hazards := v.hazards, exp := none
          commits := e.th.commits ++ e.buffered, wpSuppress := e.th.preSuppress, granted := false } ∧
        u = { e.th with regs := u.regs, preds := u.preds } ∧
        (b = none → u.regs = e.th.regs ∧ u.preds = e.th.preds) ∧
        ∀ l, b = some l →
          (∀ n : BitVec 8, n ≠ 255 → u.rd (.v n) = if (leNat l).testBit n.toNat then e.th.rd (.v n) else 0) ∧
          ∀ n, n < 15 → u.p n = (e.th.p n && (leNat l).testBit (256 + n)))

/-- A guest instruction becomes its expansion, or traps to its emulation handler with its slots, its PCs and its word; a
page of personality 0 has no guest instruction, and one whose personality is above 15 is a fault (R121, R122, R131
to R133, R136), with ACC 3 (R289; the model's reading: log entry 36). -/
def Obligations.GuestInstructions : Prop :=
  ∀ (tid : Nat) (s s1 : State) (e : Env) (p : Place), s.envNow tid = some e → e.atBoundary = true →
    fetchPlace e.who e.th.pc s = .ok p s1 →
    let i : Instr := .guestFetchDecode tid
    let pers := pteDesc p.pte
    let r := s.keepDraws s1
    let r' := r.modThread tid fun t => { t with hazards := [] }
    let g : Env := { e with pers := pers }
    (pers = 0 → exec i s = .next r) ∧
    (16 ≤ pers →
      exec i s = .next (r.takeFault e false { kind := .persPte, acc := 3, addr := e.th.pc.setWidth 64 })) ∧
    (0 < pers → pers < 16 →
      (∀ len ops s2, decodeGuest g pers e.th.pc p r' = .ok (.ops len ops) s2 →
        ∃ t v x, exec i s = .next t ∧ (r'.keepDraws s2).Becomes tid t v ∧ v = { e.th with hazards := [], exp := some x } ∧
          x = { pers := pers, len := len, ops := ops, undo := x.undo, flags0 := e.th.flags, shadow0 := e.th.shadow } ∧
          (2 ≤ ops.length → x.undo = (mayWrites ops).map fun k => (k, e.th.keyVal k))) ∧
      ∀ entry slots noMatch len word emuh s2,
        decodeGuest g pers e.th.pc p r' = .ok (.emu entry slots noMatch len word emuh) s2 → e.th.handler = false →
        ∃ t v, exec i s = .next t ∧ (r'.keepDraws s2).Becomes tid t v ∧
          (∀ j, j < 16 → sget v.x j = slots.getD j 0) ∧
          v = { e.th with
            hazards := [], x := v.x, emuPc := e.th.pc, emuNext := e.th.pc + BitVec.ofNat 57 len
            emuWord := BitVec.ofNat 64 word, emuInfo := emuInfoWord entry pers len noMatch, handler := true
            pc := emuh.setWidth 57, emuEntry := true, wpSuppress := false })

/-! ## Waits, barriers, rings and collectives -/

/-- WAITC goes on once what it covers has retired, and covers it; AWAIT reads its location, ends where the condition
holds and waits where it does not, and reads again; a thread of a saved cohort leaves the wait where the condition holds,
to execute its AWAIT anew (Table 2-8); BACKOFF delays its thread (R234, R364, R365, R369). The arrival
of a thread at a named barrier or a group barrier joins the open phase; the last one that the phase waits for
completes it, and the threads that wait in it go on, with the releases of the phase that reach them (R37, R265, R371 to
R375). -/
def Obligations.WaitsAndBarriers : Prop :=
  ((∀ (h : Hdr) (cls : CtrClass) (n : BitVec 5) (s : State) (e : Env), s.Executes e (.waitc h cls n) →
     let wrote := (e.th.covered cls n.toNat).foldl (fun v o => joinView v o.wrote) []
     let seen := fun (w : Warp) => { w with covered := joinView w.covered (s.spWrites wrote) }
     (s.coverOf (e.th.covered cls n.toNat) = .clear →
       s.Ends { s with warps := amod s.warps e.warp seen } e (.waitc h cls n) (e.th.cover cls n.toNat)) ∧
     (s.coverOf (e.th.covered cls n.toNat) = .held → exec (.waitc h cls n) s = .next s)) ∧
   (∀ (h : Hdr) (loc w64 : Bool) (cmp : AwaitCmp) (scope : Scope) (d a b : Reg) (s s' : State) (e : Env) (v : Dword),
     let i : Instr := .await h loc w64 cmp scope d a b
     let spec : AwaitSpec :=
       { loc := loc, w64 := w64, cmp := cmp, a := e.th.rdW (!loc) a, b := e.th.rdW w64 b, d := d, op := i, pers := e.pers,
         scope := e.reach scope, clamp := e.clamps scope }
     s.Executes e i → e.needsToken = false → (e.clamps scope && e.ctx.con.scopeTrap) = false →
     awaitRead e spec s = .ok v s' →
     (awaitCond w64 cmp v spec.b = true →
       s.Ends s' e i (((e.ordered s').th.orFlags (clampFlag spec.clamp)).wrW w64 d v)) ∧
     (awaitCond w64 cmp v spec.b = false → s.Stands s' e i { (e.ordered s').th with status := .awaiting spec })) ∧
   (∀ (tid : Nat) (s s' : State) (e : Env) (w : AwaitSpec) (v : Dword), s.envOf tid w.pers = some e →
     e.th.status = .awaiting w → e.c.core.isSome = true → e.th.Clear →
     let u : Thread := { e.th with status := .ready }
     let q := { e with th := u }
     awaitRead q w (s.modThread tid fun t => { t with status := .ready }) = .ok v s' →
     let r := (q.ordered s').th
     ∃ t x, exec (.awaitReread tid) s = .next t ∧ s'.Becomes tid t x ∧
       (awaitCond w.w64 w.cmp v w.b = true → Thread.Past q w.op x ((r.orFlags (clampFlag w.clamp)).wrW w.w64 w.d v)) ∧
       (awaitCond w.w64 w.cmp v w.b = false → x = { r with status := .awaiting w })) ∧
   (∀ (tid : Nat) (s : State) (e : Env) (w : AwaitSpec), s.envOf tid w.pers = some e → e.th.status = .awaiting w →
     e.c.core = none →
     let leaves := fun (s' : State) => ∃ t, exec (.awaitReread tid) s = .next t ∧
       (s.keepDraws s').Becomes tid t { e.th.unkeep with status := .ready }
     (∀ v s', awaitRead e w s = .ok v s' →
       (awaitCond w.w64 w.cmp v w.b = true → leaves s') ∧
       (awaitCond w.w64 w.cmp v w.b = false → exec (.awaitReread tid) s = .next (s.keepDraws s'))) ∧
     ∀ f s', awaitRead e w s = .error f s' → leaves s') ∧
   (∀ (h : Hdr) (n : BitVec 12) (s : State) (e : Env), s.Executes e (.backoffImm h n) →
     s.Ends s e (.backoffImm h n) { e.th with status := .backoff }) ∧
   (∀ (h : Hdr) (a : Reg) (s : State) (e : Env), s.Executes e (.backoffReg h a) →
     s.Ends s e (.backoffReg h a)
       (if (e.th.rd a).setWidth 16 = 0#16 then e.th else { e.th with status := .backoff })) ∧
   ∀ (tid : Nat) (s : State) (u : Thread), aget s.threads tid = some u → u.status = .backoff →
     ∃ t, exec (.backoffExpiry tid) s = .next t ∧ s.Becomes tid t { u with status := .ready }) ∧
  ((∀ (h : Hdr) (scope : Scope) (arv : Bool) (b : BitVec 8) (m : Reg) (s : State) (e : Env),
     let i : Instr := .bar h scope arv b m
     let n := b.toNat
     let x := e.c.bar n
     let wait : TStatus := .named n x.phase
     let met := s.barMet e.coh (barMask e m) (e.tid :: x.arrived)
     let o := e.th.ord.release
     let own : Rel := { insts := e.insts (e.reach scope), view := o.view }
     let rels := aset x.rels e.tid own
     let x1 : NBar := { phase := x.phase + 1 }
     let x2 : NBar := { x with mask := some (barMask e m), arrived := e.tid :: x.arrived, rels := rels }
     s.Executes e i → n < e.c.nbar → x.arrived.contains e.tid = false → e.needsToken = false → e.th.status = .ready →
     barRefused e (barMask e m) x = false → (e.clamps scope && e.ctx.con.scopeTrap) = false →
     ∃ t v, exec i s = .next t ∧ t = { s with threads := t.threads, cohorts := t.cohorts } ∧
       aget t.cohorts e.coh = some { e.c with bars := aset e.c.bars n (if met then x1 else x2) } ∧
       (∀ k, k ≠ e.coh → aget t.cohorts k = aget s.cohorts k) ∧ aget t.threads e.tid = some v ∧
       (let st := if arv then .ready else if e.det then .token (.named n x.phase) else if met then .ready else wait
        Thread.Past e i v { e.th.orFlags (clampFlag (e.clamps scope)) with
           status := st, departing := e.th.departing || (!arv && e.det)
           ord := if met && !arv then o.acquire own.insts (rels.map (·.2)) else o }) ∧
       ∀ k, k ≠ e.tid → aget t.threads k = (aget s.threads k).map fun u =>
         if met then
           { u with
             status := if cohOf k = e.coh ∧ u.status = wait then .ready else u.status
             ord := match aget x.rels k with
               | some r => if u.status = wait ∨ u.status = .token (.named n x.phase) then
                   u.ord.acquire r.insts (rels.map (·.2)) else u.ord
               | none => u.ord }
         else u) ∧
   ∀ (h : Hdr) (scope : Scope) (arv : Bool) (g : BitVec 8) (s : State) (e : Env),
     let i : Instr := .barGrp h scope arv g
     let n := g.toNat
     let x := e.l.gbar n
     let wait : TStatus := .grp n x.phase
     let met := e.l.status.isNone && s.groupMet e.c.launch n e.l (e.tid :: x.arrived)
     let o := e.th.ord.release
     let own : Rel := { insts := e.insts (e.reach scope), view := o.view }
     let rels := aset x.rels e.tid own
     let x1 : GBar := { phase := x.phase + 1 }
     let x2 : GBar := { x with arrived := e.tid :: x.arrived, rels := rels }
     s.Executes e i → e.member n = true → x.arrived.contains e.tid = false → e.needsToken = false →
     e.th.status = .ready → (e.clamps scope && e.ctx.con.scopeTrap) = false →
     ∃ t v, exec i s = .next t ∧ t = { s with threads := t.threads, launches := t.launches } ∧
       aget t.launches e.c.launch = some { e.l with gbars := aset e.l.gbars n (if met then x1 else x2) } ∧
       (∀ k, k ≠ e.c.launch → aget t.launches k = aget s.launches k) ∧ aget t.threads e.tid = some v ∧
       (let st := if arv then .ready else if e.det then .token (.grp n x.phase) else if met then .ready else wait
        Thread.Past e i v { e.th.orFlags (clampFlag (e.clamps scope)) with
           status := st, departing := e.th.departing || (!arv && e.det)
           ord := if met && !arv then o.acquire own.insts (rels.map (·.2)) else o }) ∧
       ∀ k, k ≠ e.tid → aget t.threads k = (aget s.threads k).map fun u =>
         if met then
           { u with
             status := if ((s.launchCohorts e.c.launch).map (·.1)).contains (cohOf k) = true ∧ u.status = wait then .ready
               else u.status
             ord := match aget x.rels k with
               | some r => if u.status = wait ∨ u.status = .token (.grp n x.phase) then
                   u.ord.acquire r.insts (rels.map (·.2)) else u.ord
               | none => u.ord }
         else u)

/-- RPOST posts its word to the next slot, RTAKE takes the oldest, and SETCTL empties the ring and sets its depth, each
where its condition holds and no thread waits on the ring; else RPOST and RTAKE wait (R227, R475, R476, R481). -/
def Obligations.StageRings : Prop :=
  (∀ (i : Instr) (r : Nat) (s : State) (e : Env), r < 8 →
    (∃ (h : Hdr) (k : BitVec 3) (a : Reg), i = .rpost h k a ∧ k.toNat = r ∧ ringLogd e.c.sp r ≤ 4 ∧ e.needsToken = false) ∨
      (∃ (h : Hdr) (k : BitVec 3) (d : Reg), i = .rtake h k d ∧ k.toNat = r ∧ ringLogd e.c.sp r ≤ 4 ∧ e.needsToken = false) ∨
      (∃ (h : Hdr) (k : BitVec 3) (a : Reg), i = .setctl h k a ∧ k.toNat = r ∧ (e.th.rd a).toNat ≤ 4) →
    s.Executes e i → 128 * (r + 1) ≤ e.c.scratch → e.c.broken.contains r = false → s.ringWaiters e.coh r = [] →
    e.th.status = .ready →
    (ringReady i e.c.sp r = true →
      ∃ t v c w, exec i s = .next t ∧
        t = { s with
          threads := t.threads, cohorts := t.cohorts, warps := t.warps, hist := t.hist, nextId := t.nextId } ∧
        aget t.threads e.tid = some v ∧ Thread.Past e i v { ringRegs i r e.th e.c.sp with ord := v.ord } ∧
        aget t.cohorts e.coh = some c ∧ c = { e.c with
          sp := (ringWrites i r e.th e.c.sp).foldl (fun m w => swrite m w.1 w.2) e.c.sp, rings := insertNat r e.c.rings
          broken := match i with
            | .setctl .. => e.c.broken.filter (· != r)
            | _ => e.c.broken } ∧
        aget t.warps e.warp = some w ∧ w = { e.w with taken := w.taken } ∧
        (∀ k, k ≠ e.tid → aget t.threads k = aget s.threads k) ∧ (∀ k, k ≠ e.coh → aget t.cohorts k = aget s.cohorts k) ∧
        ∀ k, k ≠ e.warp → aget t.warps k = aget s.warps k) ∧
    (ringReady i e.c.sp r = false →
      s.Stands (s.modCohort e.coh fun c => { c with rings := insertNat r c.rings }) e i
        { e.th with status := ringWait e i r, granted := false })) ∧
  ∀ (h : Hdr) (k : BitVec 3) (x : Reg) (u : Thread) (sp : Sparse 8),
    let r := k.toNat
    let slot := fun (m : Sparse 8) (n : Nat) => leNat (sread m (128 * r + 64 + 4 * (n % 2 ^ ringLogd sp r)) 4)
    let after := fun (i : Instr) => (ringWrites i r u sp).foldl (fun m w => swrite m w.1 w.2) sp
    let post := after (.rpost h k x)
    let take := after (.rtake h k x)
    let ctl := after (.setctl h k x)
    (ringLogd sp r ≤ 4 → ringPosts post r = (ringPosts sp r + 1) % 2 ^ 32 ∧ ringTakes post r = ringTakes sp r ∧
      ringLogd post r = ringLogd sp r ∧ slot post (ringPosts sp r) = (u.rd x).toNat) ∧
    (ringPosts take r = ringPosts sp r ∧ ringTakes take r = (ringTakes sp r + 1) % 2 ^ 32 ∧
      ringRegs (.rtake h k x) r u sp = u.wr x (BitVec.ofNat 32 (slot sp (ringTakes sp r)))) ∧
    ringPosts ctl r = 0 ∧ ringTakes ctl r = 0 ∧ ringLogd ctl r = (u.rd x).toNat % 8

/-- A thread at XRED waits in the phase of its group's collective, which goes on as far as it can; an integer sum in
.tree mode is the sum of all elements modulo 2^32; the results of a completed phase are written to the buffers of
the resident cohorts, whose operations retire (R514, R515). Groups with members in other modules are outside the
model (log entry 16). -/
def Obligations.Collectives : Prop :=
  (∀ (h : Hdr) (ty : XredTy) (op : XredOp) (mode : XredMode) (scope : Scope) (a b : Reg) (g : BitVec 8) (s : State)
    (e : Env),
    let i : Instr := .xred h ty op mode scope a b g
    let n := g.toNat
    let x := e.l.gcoll n
    let off := (e.th.rd a).toNat
    let bytes := (bitsOf (e.th.rd b).toNat 9 0 + 1) * XredTy.size ty
    s.Executes e i → (e.clamps scope && e.ctx.con.scopeTrap) = false → e.member n = true → off % 16 = 0 →
    e.c.isStashAddr off = false → xredBits mode (e.th.rd b).toNat = true → bytes ≤ 1024 → off + bytes ≤ e.c.scratch →
    e.th.hasRoom .col = true →
    let waits := fun (t : Thread) => { t with status := .coll n x.phase e.pers i }
    let joins := fun (l : Launch) =>
      { l with gcolls := aset l.gcolls n { l.gcoll n with arrived := e.tid :: (l.gcoll n).arrived } }
    exec i s = .next (State.collCheck e.c.launch
      { s with threads := amod s.threads e.tid waits, launches := amod s.launches e.c.launch joins } n)) ∧
  (∀ (ty : XredTy) (devs : List (List Nat)), ty = .s32 ∨ ty = .n32 → (∀ d ∈ devs, ∀ x ∈ d, x < 2 ^ 32) →
    reduceTree ty .add devs = ((devs.flatMap id).sum % 2 ^ 32, 0)) ∧
  ∀ (lid g : Nat) (s : State) (l : Launch) (d : CollDone) (rest : List CollDone), aget s.launches lid = some l →
    (l.gcoll g).done = d :: rest → (d.writes.map (·.1)).Nodup → (d.ops.map (·.1)).Nodup →
    (∀ w ∈ d.writes, 1024 ≤ w.2.1 ∧ ∃ c, aget s.cohorts w.1 = some c ∧ c.core.isSome = true) →
    ∃ t, exec (.xredResultWrite lid g) s = .next t ∧
      t = { s with
        cohorts := t.cohorts, threads := t.threads, launches := t.launches, hist := t.hist, nextId := t.nextId } ∧
      aget t.launches lid = some { l with gcolls := aset l.gcolls g { l.gcoll g with done := rest } } ∧
      (∀ w ∈ d.writes, aget t.cohorts w.1 = (aget s.cohorts w.1).map fun c => { c with sp := swrite c.sp w.2.1 w.2.2 }) ∧
      (∀ k, k ∉ d.writes.map (·.1) → aget t.cohorts k = aget s.cohorts k) ∧
      (∀ o ∈ d.ops, (∃ w ∈ d.writes, w.1 = cohOf o.1) →
        ∃ ts, aget t.threads o.1 = (aget s.threads o.1).map fun u => u.finish o.2 none d.flags [ts]) ∧
      ∀ k, k ∉ d.ops.map (·.1) → aget t.threads k = aget s.threads k

/-! ## Work -/

/-- FETCHW clears its mailbox word and sends a request to the pool; BINPUSH and BINDRAIN send theirs to the controller
of their bin and wait for its answer; LAUNCH appends its record to the device-launch queue and writes 0, or 1 where
the queue is full (R85, R99, R382, R415, R430, R431). -/
def Obligations.WorkSubmission : Prop :=
  (∀ (h : Hdr) (a : Reg) (s : State) (e : Env),
    let va := (e.th.rd a).toNat
    s.Executes e (.fetchw h a) → va % 16 = 0 → e.c.isStashAddr va = false → va + 16 ≤ e.c.scratch →
    s.requestsOf e.coh < 16 → (e.det = true → e.l.rc.persist = true → s.requestsOf e.coh = 0) →
    s.active e.l = true → (va < 1024 → s.ringWaiters e.coh (va / 128) = []) →
    ∃ r, storeSp e none (va + 12) [0, 0, 0, 0] s = .ok () r ∧
      r = { s with threads := r.threads, cohorts := r.cohorts, warps := r.warps, hist := r.hist, nextId := r.nextId, free := r.free } ∧
      (1024 ≤ va → s.lastAt e.tid (spKey e.coh (va + 12)) 4 →
        ∃ c, aget r.cohorts e.coh = some c ∧ sread c.sp (va + 12) 4 = [0, 0, 0, 0]) ∧
      s.Ends { r with
          fetches := s.fetches ++ [{ id := r.nextId, tid := e.tid, coh := e.coh, va := va }], nextId := r.nextId + 1 }
        e (.fetchw h a) (e.ordered r).th) ∧
  (∀ (h : Hdr) (b : Reg) (s : State) (e : Env),
    let ref := e.th.rd b
    let sec := (ref.extractLsb' 9 2).toNat
    let bin := (ref.extractLsb' 0 9).toNat
    ref.extractLsb' 11 21 = 0 → s.pidOf sec = e.ctx.pid →
    (∀ (sz : BitVec 4) (a : Reg), s.Executes e (.binpush h sz a b) →
      (match a with
        | .v x => x.toNat + 4 * (sz.toNat + 1) ≤ min e.c.regs 255
        | .k x => x.toNat + 4 * (sz.toNat + 1) ≤ 8) →
      let data := (List.range (4 * (sz.toNat + 1))).flatMap fun k => leBytes 4 (e.th.rd (regPlus a k)).toNat
      s.Stands s e (.binpush h sz a b)
        { e.th with status := .binWait (.push sec bin data) e.pers (.binpush h sz a b) }) ∧
    ∀ (close : Bool), s.Executes e (.bindrain h close b) →
      s.Stands s e (.bindrain h close b)
        { e.th with status := .binWait (.drain sec bin close) e.pers (.bindrain h close b) }) ∧
  ∀ (h : Hdr) (d a b : Reg) (s s' : State) (e : Env) (bytes : List Byte),
    let i : Instr := .launch h d a b
    let vb := e.th.rd b
    let sec := if vb.getLsbD 2 then e.core / 64 else (vb.extractLsb' 0 2).toNat
    let o := (s'.ordOf e.tid).release
    let r : DevRec := { bytes := bytes, prioCap := e.l.rc.prio, ownerQ := e.l.ownerQ, view := o.view }
    let q := (aget s'.devq (e.cid * 4 + sec)).getD []
    s.Executes e i → (e.th.rd64 a).toNat % 128 = 0 → vb.extractLsb' 3 29 = 0 → s.pidOf sec = e.ctx.pid →
    readVirt e.who (e.th.rd64 a) 0 16 8 (readSeenM e none) s = .ok bytes s' →
    (q.length < 64 →
      s.Ends { s' with devq := aset s'.devq (e.cid * 4 + sec) (q ++ [r]) } e i ({ e.th with ord := o }.wr d 0)) ∧
    (64 ≤ q.length → e.det = false → s.Ends s' e i ((e.ordered s').th.wr d 1)) ∧
    (64 ≤ q.length → e.det = true →
      s.Stands { s' with nextId := s'.nextId + 1 } e i
        { (e.ordered s').th with status := .devWait sec s'.nextId bytes e.pers i })

/-- The index that a walker emits becomes a cohort at its coordinate on the walker's core, and the next persistent
cohort one at its own number; a walker that has emitted its last index is freed. In order 0 the first extent runs
fastest (R31, R76, R79, R80, R229). -/
def Obligations.CohortsOfLaunches : Prop :=
  (∀ (core launch : Nat) (s : State) (l : Launch) (w : Walker), aget s.launches launch = some l →
    ((s.walkersOf launch (secOfCore core)).find? fun w => w.core == core) = some w → s.walked l = true →
    l.rc.persist = false → s.fits core launch l.rc.need (some w.cursor) = true →
    ∃ t, exec (.walkerEmission core launch) s = .next t ∧
      (w.cursor + 1 < w.limit →
        State.NewCohort (s.setWalker w (some { w with cursor := w.cursor + 1 })) t launch l core w.cursor 0
          (l.rc.coord w.cursor) 0 []) ∧
      (w.limit ≤ w.cursor + 1 →
        let r := (s.setWalker w none).refillSlot w.sec w.slot
        ∀ x, aget r.launches launch = some x →
          State.NewCohort r t launch x core w.cursor 0 (l.rc.coord w.cursor) 0 [])) ∧
  (∀ (core launch : Nat) (s : State) (l : Launch), aget s.launches launch = some l → s.walked l = true →
    l.rc.persist = true → l.created < l.rc.ncoh → s.pidOfCore core = l.pid → core < 256 →
    s.fits core launch l.rc.need (some l.created) = true →
    ∃ t, exec (.persistentCohortCreate launch core) s = .next t ∧
      State.NewCohort s t launch l core l.created 0 [l.created, 0, 0, 0] 0 []) ∧
  ∀ (r : LaunchRec) (i : Nat), r.order = 0 → r.nd ≤ 4 → i < r.space →
    let c := r.coord i
    let e := fun d => r.ext.getD d 0
    c.length = 4 ∧ (∀ d, d < r.nd → c.getD d 0 < e d) ∧ (∀ d, r.nd ≤ d → c.getD d 0 = 0) ∧
      i = c.getD 0 0 + e 0 * (c.getD 1 0 + e 1 * (c.getD 2 0 + e 2 * c.getD 3 0))

/-- The split of the walker with the most indices of a section, for the one core of it that asks and finds no pending
range there: none where fewer than 2 × GRAIN are left or no slot is free, and the request waits; else a donor that keeps
the indices below the middle and a new walker, bound to the core, that takes the rest (R81, R82, R83). That the new
walker takes the lowest free slot is the model's choice (log entry 38). -/
def Obligations.WalkerSplits : Prop :=
  (∀ (core launch : Nat) (s : State) (l : Launch) (w : Walker) (i : Instr),
    let sec := secOfCore core
    let x := w.limit - w.cursor
    let g := l.rc.grain
    let mid := w.cursor + g * ((x + (2 * g - 1)) / (2 * g))
    let ask : WorkReq := { core := core, launch := launch }
    s.askedLaunch core = some (launch, l) → aget s.launches launch = some l → l.lowPend sec = none →
    mostLeft (s.walkersOf launch sec) = some w →
    (i = .workRequest core launch ∧ s.works = [] ∨
      i = .split w.sec w.slot core ∧ s.works = [ask] ∧
        (s.walkers.find? fun x => x.sec == w.sec && x.slot == w.slot) = some w) →
    (x < 2 * g → exec i s = .next { s with works := [ask] }) ∧
    (2 * g ≤ x → s.freeSlotsOf sec launch = [] → exec i s = .next { s with works := [ask] }) ∧
    ∀ slot rest, 2 * g ≤ x → s.freeSlotsOf sec launch = slot :: rest →
      exec i s = .next
        { s with
          works := []
          walkers := (s.walkers.map fun y => if y.sec = w.sec ∧ y.slot = w.slot then { y with limit := mid } else y) ++
            [{ sec := sec, slot := slot, launch := launch, cursor := mid, limit := w.limit, core := core }] }) ∧
  ∀ c l g : Nat, 0 < g → 2 * g ≤ l - c →
    let mid := c + g * ((l - c + (2 * g - 1)) / (2 * g))
    c < mid ∧ mid < l ∧ (mid - c) % g = 0 ∧ l - c ≤ 2 * (mid - c) ∧ 2 * (mid - c) < l - c + 2 * g

/-- A core's request for work loads the lowest pending range of its section (R81), into the lowest free slot, which is the
model's choice (log entry 38). A FETCHW request is answered with 16
bytes in its mailbox: READY with the coordinate of an index that is handed out, or DONE where no index is left or
the launch is not persistent. In deterministic mode persistent cohort n receives the indices n, n + NCOH, n + 2 ×
NCOH, and so on (R85 to R89). -/
def Obligations.RangesAndWithdrawals : Prop :=
  ((∀ (core launch : Nat) (s : State) (l : Launch) (p : PendRange) (slot : Nat) (rest : List Nat),
     s.askedLaunch core = some (launch, l) → aget s.launches launch = some l → s.works = [] →
     l.lowPend (secOfCore core) = some p → s.freeSlotsOf (secOfCore core) launch = slot :: rest →
     exec (.workRequest core launch) s = .next
       { s with
         launches := amod s.launches launch fun x => { x with pend := x.pend.filter fun q => q != p }
         walkers := s.walkers ++ [{ sec := p.sec, slot := slot, launch := launch, cursor := p.lo, limit := p.hi, core := core }] }) ∧
   ∀ (sec : Nat) (l : Launch) (p : PendRange), l.lowPend sec = some p →
     p ∈ l.pend ∧ p.sec = sec ∧ ∀ q ∈ l.pend, q.sec = sec → p.lo ≤ q.lo) ∧
  ((∀ (id : Nat) (s : State) (r : FetchReq) (c : Cohort) (l : Launch),
     (s.fetches.find? fun f => f.id == id) = some r → (s.fetches.find? fun f => f.tid == r.tid) = some r →
     aget s.cohorts r.coh = some c → aget s.launches c.launch = some l → c.rings.contains (r.va / 128) = false →
     r.va % 16 = 0 → (l.rc.kind = 1 → l.rc.persist = true → l.rc.det = false → s.active l = true) →
     ∃ t x u, exec (.withdrawal id) s = .next t ∧ (∀ f ∈ t.fetches, f.id ≠ id) ∧
       (∀ f ∈ s.fetches, f.id ≠ id → f ∈ t.fetches) ∧ aget t.cohorts r.coh = some u ∧
       u = { c with sp := u.sp, broken := u.broken } ∧ (∀ k, k ≠ r.coh → aget t.cohorts k = aget s.cohorts k) ∧ sread u.sp r.va 16 = mailbox x ∧
       (∀ a, ¬ (r.va ≤ a ∧ a < r.va + 16) → sget u.sp a = sget c.sp a) ∧ t.threads = s.threads ∧ t.mem = s.mem ∧
       (l.rc.kind ≠ 1 ∨ l.rc.persist = false → x = none) ∧
       (l.rc.kind = 1 → l.rc.persist = true → l.rc.det = true →
         let n := (aget l.served c.index).getD 0
         let i := c.index + n * l.rc.ncoh
         x = (if i < l.rc.space then some (l.rc.coord i) else none) ∧
         ∀ v, aget t.launches c.launch = some v →
           (aget v.served c.index).getD 0 = if i < l.rc.space then n + 1 else n) ∧
       (l.rc.kind = 1 → l.rc.persist = true → l.rc.det = false →
         x = (s.withdraw (c.core.getD 0) c.launch l).1.map l.rc.coord)) ∧
   (∀ (core lid : Nat) (s : State) (l : Launch) (w : Walker),
     ((s.walkersOf lid (secOfCore core)).find? fun w => w.core == core) = some w →
     s.withdraw core lid l = (some w.cursor, s.emit w)) ∧
   ∀ a b c d : Nat, a < 2 ^ 32 → b < 2 ^ 32 → c < 2 ^ 32 → d < 2 ^ 24 →
     let m := mailbox (some [a, b, c, d])
     m.length = 16 ∧ field m 0 4 = a ∧ field m 4 4 = b ∧ field m 8 4 = c ∧ field m 12 3 = d ∧ field m 15 1 = 1 ∧
       field (mailbox none) 15 1 = 2)

/-- A doorbell has its front end read WRIDX, and is held while its section is quiesced; a packet that the front end
serves is consumed, but for a WAIT whose comparison fails, which waits until a later read satisfies it (R328, R331,
R332, R343). What a front end does at words that it cannot read or write is the model's choice (log entry 26). -/
def Obligations.QueuesAndPackets : Prop :=
  (∀ (fn sec qn : Nat) (s : State), s.fnServed fn = true → qn < 256 → sec < 4 →
    let i : Instr := .queueDoorbell fn sec qn
    (s.hub.qDone.getLsbD sec = true →
      exec i s = .next { s with hub := { s.hub with heldBells := s.hub.heldBells ++ [(fn, sec, qn)] } }) ∧
    ∀ k q b r, s.hub.qDone.getLsbD sec = false →
      (s.queues.find? fun q => q.2.fn == fn && q.2.sec == sec && q.2.qn == qn) = some (k, q) →
      aget s.queues k = some q → s.frontRuns q = true → s.acquireFor k q (q.qcb + 0x40) 4 = (some b, r) →
      ∃ t v, exec i s = .next t ∧ s.Queued t k (if q.state = 0 then
        { q with view := v, wr := leNat b, state := if leNat b = q.rd then 0 else 1, err := 0 }
        else { q with view := v, wr := leNat b })) ∧
  (∀ (k : Nat) (s r : State) (q : Queue) (b : List Byte), s.Serves k q 0 b r →
    ∃ t, exec (.packetNop k) s = .next t ∧ t = (r.touch k).consume k ∧ s.Queued t k (q.consumed r.nextId)) ∧
  (∀ (k : Nat) (s r : State) (q : Queue) (b : List Byte), s.Serves k q 1 b r →
    let src : Source := { owner := some k, ring := true, cap := q.priomax, view := q.view }
    ∃ t, exec (.packetLaunch k) s = .next t ∧
      t = ((r.touch k).acceptRecord q.cid q.sec src (b.drop 128)).consume k ∧ s.Queued t k (q.consumed r.nextId)) ∧
  (∀ (k : Nat) (s r r' : State) (q : Queue) (ctx : Ctx) (b v : List Byte), s.Serves k q 3 b r → aget r.ctxs q.cid = some ctx →
    let w := agentOf q.cid ctx
    tryAgent (r.touch k) w (writeVirt w (BitVec.ofNat 64 (field b 8 8)) 7 8 v 1 q.view [q.rel ctx.pid]) = (some (), r') → v = (b.drop 0x10).take 8 →
    ∃ t, exec (.packetSignal k) s = .next t ∧ t = r'.consume k ∧ s.Queued t k (q.consumed r.nextId)) ∧
  (∀ (i : Instr) (k : Nat) (s r r' : State) (q : Queue) (b v : List Byte),
    (i = .packetWait k ∧ s.Serves k q 2 b r ∧ q.state = 1 ∧
        (r.touch k).acquireFor k q (BitVec.ofNat 64 (field b 8 8)) 8 = (some v, r') ∨
      i = .queueWaitResume k ∧ aget s.queues k = some q ∧ s.served q.cid = true ∧ q.state = 2 ∧
        (∃ barrier, s.slot q = (.packet 2 barrier b, r)) ∧
        r.acquireFor k q (BitVec.ofNat 64 (field b 8 8)) 8 = (some v, r')) →
    let n := if q.state = 1 then r.nextId else q.turn
    ∃ t x, exec i s = .next t ∧
      (waitHolds (bitsOf (field b 0x18 1) 1 0) (leNat v) (field b 0x10 8) = true →
        s.Queued t k { q.consumed n with view := x }) ∧
      (waitHolds (bitsOf (field b 0x18 1) 1 0) (leNat v) (field b 0x10 8) = false →
        s.Queued t k { q with view := x, turn := n, state := 2, err := 0 })) ∧
  ∀ v x : Nat, (waitHolds 0 v x = decide (v = x)) ∧ (waitHolds 1 v x = decide (v ≠ x)) ∧ (waitHolds 2 v x = decide (x ≤ v))

/-- A record that a front end takes becomes a launch with a new number: one that the front end's tests refuse has their
status and its signal, and an accepted one starts, with its index space divided among walkers or its bin armed. A
front end takes device-launch records as it takes packets (R67, R74, R77, R94, R430). A GANG record in a context
without the feature GANG reports BAD_FIELD (R178). A launch that has
completed has its signal written once; the gang at the hub is committed once every part has its reservation, and
rolled back where its time runs out, which ends the gang and its parts (R75, R334). How the status of a gang and of
its parts ends is the model's choice (log entry 27). -/
def Obligations.LaunchesAndGangs : Prop :=
  ((∀ (cid sec : Nat) (s r : State) (ctx : Ctx) (src : Source) (b : List Byte) (x : Except Nat (Assoc GroupEnt)),
     aget s.ctxs cid = some ctx → ctx.stopped = false → (recordOf b).kind = 1 ∨ (recordOf b).kind = 2 →
     s.test cid ctx sec b (recordOf b) src.view = (x, r) →
     let rc := (recordOf b).capped src.cap
     let t := s.acceptRecord cid sec src b
     ∃ l, aget t.launches r.nextId = some l ∧ l.rc = rc ∧ l.cid = cid ∧ l.pid = ctx.pid ∧ l.sec = sec ∧
       l.ownerQ = src.owner ∧ l.fromRing = src.ring ∧ l.view = src.view ∧
       (∀ st, x = .error st → l.status = some st ∧ l.signaled = true) ∧
       ∀ gs, x = .ok gs → l.groups = gs ∧
         (rc.kind = 2 → l.status = none ∧ aget t.bins (binKey sec rc.bin) = some { launch := r.nextId }) ∧
         (rc.kind = 1 → rc.space ≠ 0 → l.status = none) ∧
         (rc.kind = 1 → rc.space = 0 → l.status = some stOk ∧ l.signaled = true)) ∧
   (∀ (cid sec : Nat) (s : State) (ctx : Ctx) (src : Source) (b : List Byte), aget s.ctxs cid = some ctx →
     ctx.stopped = false → (recordOf b).kind = 3 → ctx.has 9 = false →
     ∃ l, aget (s.acceptRecord cid sec src b).launches s.nextId = some l ∧ l.status = some stBadField ∧ l.signaled = true) ∧
   (∀ (cid sec : Nat) (s : State) (r : DevRec) (rest : List DevRec),
     ((s.nextServed sec).map fun x => (x.dev, x.key)) = some (true, devKey cid sec) → s.devQueue cid sec = r :: rest →
     let src : Source := { owner := r.ownerQ, ring := false, cap := r.prioCap, view := r.view }
     ∃ t s' : State, exec (.deviceLaunchQueueTake cid sec) s = .next t ∧
       t = (s'.acceptRecord cid sec src r.bytes).devAdmit cid sec ∧ s'.devQueue cid sec = rest ∧
       s' = { s with nextId := s.nextId + 1, devq := s'.devq, devTurn := s'.devTurn } ∧
       ∀ k, k ≠ devKey cid sec → aget s'.devq k = aget s.devq k) ∧
   ∀ (secs : List Nat) (n grain : Nat), 0 < secs.length → 0 < grain →
     let rs := initialRanges secs n grain
     (∀ i, i < n → ∃ r ∈ rs, r.1.lo ≤ i ∧ i < r.1.hi) ∧
     rs.Pairwise (fun a b => a.1.hi ≤ b.1.lo) ∧
     ∀ r ∈ rs, r.1.lo < r.1.hi ∧ r.1.hi ≤ n ∧ r.1.lo % grain = 0 ∧ r.1.sec ∈ secs ∧ r.2 < 32) ∧
  ((∀ (launch st : Nat) (s : State) (l : Launch), aget s.launches launch = some l → l.signaled = false →
     s.completes launch l = some st →
     ∃ t x, exec (.completionSignalWrite launch) s = .next t ∧ t = (s.setStatus launch st).signal launch ∧
       aget t.launches launch = some x ∧ x.signaled = true ∧ x.status = some (l.status.getD st) ∧ x.rc = l.rc ∧
       (l.rc.signal = 0 → t.mem = s.mem) ∧ exec (.completionSignalWrite launch) t = .next t) ∧
   (∀ (s : State) (g : GangRes), s.hub.gang = some g →
     ∃ t, exec .gangReservationTimeout s = .next t ∧ t = s.rollback g.launch ∧ t.hub.gang = none ∧
       ∀ l p x, aget s.launches g.launch = some l → (p = g.launch ∨ p ∈ l.parts) → aget t.launches p = some x →
         x.status.isSome = true ∧ x.signaled = true) ∧
   ∀ (s : State) (g : GangRes) (l : Launch), s.gangTurn = some g → aget s.launches g.launch = some l →
     (((s.partsOf l).any fun p => p.status.isSome) = true → exec .gangCommit s = .next (s.rollback g.launch)) ∧
     (((s.partsOf l).any fun p => p.status.isSome) = false →
     let g' := s.reserve g l.parts
     (g'.reserved.length = l.parts.length →
       ∃ t, exec .gangCommit s = .next t ∧ t = s.commit l.parts ∧ t.hub.gang = none ∧
         ∀ p x, p ∈ l.parts → aget t.launches p = some x → x.held = false) ∧
     (g'.reserved.length ≠ l.parts.length →
       exec .gangCommit s = .next { s with hub := { s.hub with gang := some g' } })))

/-- The controller's answers to a push: BIN_CLOSED, ILLEGAL_OPERAND for a record of another size, BIN_SPILL with cause
EXHAUSTED or, with an event to the owning queue, FULL; or the record joins the tail of the bin, in the spill ring
once the quota is used, and the op is done (R96, R99, R100). A drain marks the records that its bin holds, and
closes the bin where it says so; a parked push is replayed once its bin has room; the age limit makes a bin
eligible, and promotion raises its priority, first that of the bin that became eligible first (R100 to R104, R108). The
slot of the spill ring that a record takes is the model's choice (log entry 39). -/
def Obligations.BinPushesAndDrains : Prop :=
  (∀ (tid sec bin : Nat) (data : List Byte) (s : State) (e : Env) (op : Instr),
     s.asking tid = some (.push sec bin data, e, op) → e.scheduled = true →
     let i : Instr := .binPushArrival tid
     let k := binKey sec bin
     let ref := sec * 512 + bin
     let fails := fun (r : State) (f : FaultKind) (cause : Nat) =>
       exec i s = .next ((r.modThread tid fun t => { t with status := .ready }).takeFault e (Instr.isLong op)
         { kind := f, cause := cause, addr := BitVec.ofNat 64 ref })
     (s.armed k = none → fails s .binClosed 0) ∧
     ∀ b l, s.armed k = some (b, l) →
       (l.cid ≠ e.cid ∨ b.closing = true → fails s .binClosed 0) ∧
       (l.cid = e.cid → b.closing = false →
         (data.length ≠ l.rc.rsize → fails s .illegalOperand 0) ∧
         (data.length = l.rc.rsize → 2 ^ 48 ≤ b.fires → fails s .binSpill 1) ∧
         (data.length = l.rc.rsize → b.fires < 2 ^ 48 → l.rc.quota + 2 ^ l.rc.ringlog / l.rc.rsize ≤ b.recs.length →
           fails (s.spillEvent l ref) .binSpill 0) ∧
         ∀ s1, data.length = l.rc.rsize → b.fires < 2 ^ 48 → b.recs.length < l.rc.quota + 2 ^ l.rc.ringlog / l.rc.rsize →
           let spill := b.recs.any (fun r => r.ring.isSome) || decide (l.rc.quota ≤ b.onChip)
           let slot := b.freeSlot l.rc
           let s0 := (s.carry tid).2
           (if spill then s0.ringWrite l slot data else (true, s0)) = (true, s1) → e.th.Clear →
           let n := (aget e.th.pushes b.launch).getD 0
           let rec' : BinRec :=
             { seq := b.nextSeq, data := data, key := field data 0 4, tag := e.l.rc.tag.toNat, lid := e.logId, num := n
               ring := if spill then some slot else none, view := e.th.ord.release.view }
           ∃ t v x, exec i s = .next t ∧ aget t.threads tid = some v ∧
             Thread.Past e op v
               { e.th with ord := e.th.ord.release, pushes := aset e.th.pushes b.launch (n + 1) } ∧
             (∀ j, j ≠ tid → aget t.threads j = aget s1.threads j) ∧ aget t.bins k = some x ∧ x.recs = b.recs ++ [rec'] ∧
             x.nextSeq = b.nextSeq + 1 ∧
             x.ringTail = (if spill then (slot + 1) % (2 ^ l.rc.ringlog / l.rc.rsize) else b.ringTail) ∧
             x.closing = b.closing ∧ (∀ j, j ≠ k → aget t.bins j = aget s.bins j) ∧
             t = { s1 with threads := t.threads, bins := t.bins, nextId := t.nextId })) ∧
  ((∀ (tid sec bin : Nat) (close : Bool) (s : State) (e : Env) (op : Instr),
     s.asking tid = some (.drain sec bin close, e, op) → e.scheduled = true →
     let i : Instr := .binDrainArrival tid
     let k := binKey sec bin
     (s.armed k = none ∨ (∃ b l, s.armed k = some (b, l) ∧ l.cid ≠ e.cid) →
       exec i s = .next ((s.modThread tid fun t => { t with status := .ready }).takeFault e (Instr.isLong op)
         { kind := .binClosed, addr := BitVec.ofNat 64 (sec * 512 + bin) })) ∧
     ∀ b l, s.armed k = some (b, l) → l.cid = e.cid → e.th.Clear →
       ∃ t v x, exec i s = .next t ∧ aget t.threads tid = some v ∧ Thread.Past e op v e.th ∧
         (∀ j, j ≠ tid → aget t.threads j = aget s.threads j) ∧ aget t.bins k = some x ∧ x.recs = b.recs ∧
         (b.closing = true → x = b) ∧
         (b.closing = false → x.closing = close ∧
           (x.mark = some b.nextSeq ∨ x.mark = none ∧ ∀ r ∈ b.recs, b.nextSeq ≤ r.seq)) ∧
         t = { s with threads := t.threads, bins := t.bins, nextId := t.nextId }) ∧
   (∀ (sec bin : Nat) (s : State) (b : Bin) (l : Launch), s.armed (binKey sec bin) = some (b, l) → b.room l.rc = true →
     s.spilled sec bin ≠ [] →
     ∃ t tid, exec (.binSpillAutoReplay sec bin) s = .next t ∧ tid ∈ s.spilled sec bin ∧
       (∀ u, aget s.threads tid = some u → aget t.threads tid = some { u with status := .ready }) ∧
       (∀ j, j ≠ tid → aget t.threads j = aget s.threads j) ∧
       (∀ c x, aget t.ctxs c = some x → ∀ p ∈ x.parked, tid ∉ p.2.tids) ∧
       t = { s with threads := t.threads, ctxs := t.ctxs, free := t.free }) ∧
   ∀ (sec bin : Nat) (s : State) (b : Bin) (l : Launch),
     let k := binKey sec bin
     s.armed k = some (b, l) → s.active l = true → l.rc.det = false →
     (l.rc.age ≠ 0 → b.ready l.rc ≠ [] → b.isAged l.rc = false → ∃ t x, exec (.binAgeExpiry sec bin) s = .next t ∧ aget t.bins k = some x ∧
       (∃ n, x.aged = some n ∧ (∃ r ∈ b.ready l.rc, r.seq = n) ∧ ∀ r ∈ b.ready l.rc, n ≤ r.seq) ∧ x.recs = b.recs ∧ (b.fires < 2 ^ 48 → x.eligSince.isSome = true) ∧
       t = { s with bins := t.bins, nextId := t.nextId } ∧ ∀ j, j ≠ k → aget t.bins j = aget s.bins j) ∧
     let first := ∃ x ∈ s.arbitration sec, x.2.1.promoted = false ∧ x.2.2.rc.det = false ∧
       x.2.1.eligSince.getD 0 < b.eligSince.getD 0 ∧ x.2.2.rc.promoteAfter ≤ l.rc.promoteAfter
     (first → exec (.binPriorityPromotion sec bin) s = .next s) ∧
     ((b.cause l.rc).isSome = true → ¬ first → ∃ t x, exec (.binPriorityPromotion sec bin) s = .next t ∧
       aget t.bins k = some x ∧ x = { b with promoted := true } ∧ x.prio l.rc = 7 ∧ t = { s with bins := t.bins } ∧
       ∀ j, j ≠ k → aget t.bins j = aget s.bins j))

/-- The head of a section is its eligible bin of highest priority, then the one longest eligible, then the lowest. Its
fire is selected for a core with room; as it completes, its records leave the bin for the input area of a new
cohort, whose SYS_BINFIRE tells their count, cause, bin and groups; and an arming that is closed and empty ends,
with its signal (R102, R103, R105, R110). The records of a fire are those at its completion (the model's choice: log
entry 32). -/
def Obligations.BinFires : Prop :=
  (∀ (sec core k : Nat) (s : State) (b : Bin) (l : Launch), s.binHead sec = some (k, b, l) →
    (∀ x ∈ s.arbitration sec, x.2.1.prio x.2.2.rc ≤ b.prio l.rc ∧
      (x.2.1.prio x.2.2.rc = b.prio l.rc → b.eligSince.getD 0 ≤ x.2.1.eligSince.getD 0 ∧
        (x.2.1.eligSince.getD 0 = b.eligSince.getD 0 → k ≤ x.1))) ∧
    (s.firing sec = none → s.fireCore sec core b l = true →
      ∃ t, exec (.binFireSelect sec core) s = .next t ∧ t = { s with bins := t.bins } ∧
        aget t.bins k = some { b with selected := some core } ∧ ∀ j, j ≠ k → aget t.bins j = aget s.bins j)) ∧
  (∀ (sec core k : Nat) (s s1 : State) (b b' : Bin) (l : Launch) (rs : List BinRec) (groups : Nat) (part : Bool)
    (ds : List (List Byte)),
    s.firing sec = some (k, b) → s.armed k = some (b', l) → b.selected = some core →
    b.fireRecs l.rc = (rs, groups, part) → s.fireBytes l rs = (some ds, s1) → aget s1.launches b.launch = some l →
    let cause := if part then 2 else (b.cause l.rc).getD 2
    let word := binfireWord rs.length part cause (k % 512) (k / 512) groups
    ∃ t s2 t1, exec (.binFireComplete sec) s = .next t ∧ s2 = { s1 with bins := State.bins s2 } ∧
      (∃ x, aget s2.bins k = some x ∧ x.recs = b'.recs.filter fun r => !(rs.map BinRec.seq).contains r.seq) ∧
      (∃ sp, State.NewCohort s2 t1 b.launch l core b.fires (fireLogical l b.fires) [0, 0, 0, 0] word sp
          (rs.foldl (fun v r => joinView v r.view) []) ∧
        sread sp l.rc.inoff (ds.flatMap id).length = ds.flatMap id) ∧
      let t2 := t1.modBin k fun b => { b with fires := b.fires + 1 }
      t = match t2.refillBin k l rs.length with
        | none => t2.endLaunch b.launch stFault
        | some s' => s'.binEval k) ∧
  (∀ (b : Bin) (r : LaunchRec), r.det = false → r.gather = false →
    b.fireRecs r = (b.recs.take r.thresh, 0, false)) ∧
  (∀ (count cause bin sec groups : Nat) (part : Bool), count < 2 ^ 13 → cause < 4 → bin < 512 → sec < 4 → groups < 2 ^ 32 →
    let w := (binfireWord count part cause bin sec groups).toNat
    bitsOf w 12 0 = count ∧ bitsOf w 13 13 = (if part then 1 else 0) ∧ bitsOf w 15 14 = cause ∧ bitsOf w 24 16 = bin ∧
      bitsOf w 26 25 = sec ∧ bitsOf w 63 32 = groups) ∧
  ∀ (launch k st : Nat) (s : State) (l : Launch) (b : Bin), aget s.launches launch = some l → l.rc.kind = 2 →
    l.signaled = false → l.status = none → (s.bins.find? fun b => b.2.launch == launch) = some (k, b) → b.closing = true →
    s.noCohorts launch = true → b.selected = none →
    (b.recs = [] ∧ st = stOk ∨ b.recs ≠ [] ∧ 2 ^ 48 ≤ b.fires ∧ st = stTooLarge) →
    ∃ t x, exec (.binArmingEnd launch) s = .next t ∧ aget t.bins k = none ∧ aget t.launches launch = some x ∧
      x.status = some st ∧ x.signaled = true

/-- The token of a deterministic launch: a round begins with the warps of every due cohort; at a warp whose threads have
all settled, the lowest lane whose op can proceed is granted it, and where none can, the token goes on, with what
happens before it; before that it waits (R313 to R315). An AWAIT that the token grants reads, and ends where its
condition holds (R315, R365). Each turn of the token is one event (the model's choice: log
entry 2). -/
def Obligations.TokenTurns : Prop :=
  ∀ (launch : Nat) (s : State) (l : Launch), aget s.launches launch = some l → l.rc.det = true → s.active l = true →
    l.rc.kind ≠ 3 →
    let i : Instr := .tokenVisit launch
    let moved := fun (r t : State) (from_ : Option Nat) (todo : List Nat) =>
      t = { r with launches := t.launches, threads := t.threads } ∧
      (∀ j, j ≠ launch → aget t.launches j = aget r.launches j) ∧
      ∀ x, aget r.launches launch = some x → ∃ view,
        aget t.launches launch = some { x with token := { todo := todo, view := view } } ∧
        (∀ n ∈ x.token.view, n ∈ view) ∧
        (∀ k u, some (warpOf k) = from_ → aget r.threads k = some u → ∀ n ∈ u.ord.view ++ u.ord.obs, n ∈ view) ∧
        ∀ k, (aget r.threads k = none → aget t.threads k = none) ∧
          ∀ u, aget r.threads k = some u → ∃ o, aget t.threads k = some { u with ord := o } ∧
            (todo.head? = some (warpOf k) → ∀ n ∈ view, n ∈ o.view) ∧
            (todo.head? ≠ some (warpOf k) → from_ ≠ some (warpOf k) → o = u.ord)
    (∀ r, l.token.todo = [] → s.fillDue launch l = (true, r) →
      ∃ t, exec i s = .next t ∧ moved r t none (r.members launch)) ∧
    (∀ r, l.token.todo = [] → s.fillDue launch l = (false, r) → exec i s = .next r) ∧
    ∀ w rest, l.token.todo = w :: rest →
      (aget s.cohorts (w / 32) = none → ∃ t, exec i s = .next t ∧ moved s t (some w) rest) ∧
      ∀ c, aget s.cohorts (w / 32) = some c →
        (c.core = none ∨ (∃ u ∈ s.warpThreads w, TStatus.tokenSettled u.2.status = false) → exec i s = .next s) ∧
        (c.core.isSome = true → (∀ u ∈ s.warpThreads w, TStatus.tokenSettled u.2.status = true) →
          (∀ r, s.tokenLane (s.warpThreads w) = (none, r) → ∃ t, exec i s = .next t ∧ moved r t (some w) rest) ∧
          ∀ tid u need r, s.tokenLane (s.warpThreads w) = (some (tid, u, need), r) → aget r.threads tid = some u →
            (u.departing = true → ∃ t, exec i s = .next t ∧
              r.Becomes tid t { u with status := .ready, departing := false }) ∧
            (u.departing = false → (∀ a, need ≠ .await a) → ∃ t, exec i s = .next t ∧
              r.Becomes tid t { u with status := .ready, granted := true }) ∧
            ∀ a e v s', u.departing = false → need = .await a → r.envOf tid a.pers = some e → e.th.Clear →
              let th := { e.th with status := .ready }
              let q : Env := { e with th := th }
              awaitRead q a (r.modThread tid fun t => { t with status := .ready }) = .ok v s' →
              awaitCond a.w64 a.cmp v a.b = true →
                ∃ t x, exec i s = .next t ∧ s'.Becomes tid t x ∧
                  Thread.Past q a.op x (((q.ordered s').th.orFlags (clampFlag a.clamp)).wrW a.w64 a.d v))

/-! ## Issue and residence -/

/-- A bundle of a quarter holds at most 32 of its ready threads, in two sub-bundles of one PC each, and its threads issue
in ascending logical ID. In an ordinary cycle the lowest thread at the lowest PC leads it; in a turn the lowest ready
thread of the next launch of the rotation that has one, and that launch goes to the end (R48, R49, R52). A ready thread
stays ready, and one that executed YIELD is not ready in the cycle after it (R517); which of the others become ready is free, within a bound (the model's choice: log entries 2 and 37). -/
def Obligations.BundlesAndTurns : Prop :=
  ∀ (core q : Nat) (i : Instr) (s : State), i = .bundleForm core q ∨ i = .rotationTurn core q →
    let key := core * 4 + q
    let rot := (aget s.rotation key).getD []
    ∃ t rdy s1 s2, exec i s = .next t ∧ rdy.Sublist (s.cands core q) ∧
      (∀ c ∈ s.cands core q, ∀ u, aget s.threads c.tid = some u → u.rdy = true → u.yielded = false → c ∈ rdy) ∧
      (rising 0 s.threads = true → ∀ c ∈ s.cands core q, ∀ u v, aget s.threads c.tid = some u → u.yielded = true →
        aget t.threads c.tid = some v → c ∉ rdy ∧ v.yielded = false) ∧
      t = { s with
        issue := (sortBy Cand.gatherLe (s1 ++ s2)).map Cand.tid, bundle := s.bundle + 1, free := t.free
        rotation := t.rotation, threads := t.threads } ∧
      (∀ k u, aget s.threads k = some u → ∃ v, aget t.threads k = some v ∧ v = { u with rdy := v.rdy, late := v.late, yielded := v.yielded } ∧
        (u.rdy = true → u.yielded = false → v.rdy = true) ∧ ((∀ c ∈ s.cands core q, c.tid ≠ k) → v = u)) ∧
      (rdy = [] → s1 = [] ∧ s2 = []) ∧
      ((i = .bundleForm core q ∨ ∀ l ∈ rot, ∀ c ∈ rdy, c.lid ≠ l) → t.rotation = s.rotation ∧
        (rdy ≠ [] → ∃ c, Bundle rdy s1 s2 c ∧ ∀ d ∈ rdy, c.pcLe d = true ∧ (d.at c = true → c.gatherLe d = true))) ∧
      ∀ a l b, i = .rotationTurn core q → rot = a ++ l :: b → (∀ k ∈ a, ∀ c ∈ rdy, c.lid ≠ k) → (∃ c ∈ rdy, c.lid = l) →
        t.rotation = aset s.rotation key (b ++ a ++ [l]) ∧
        ∃ c, Bundle rdy s1 s2 c ∧ c.lid = l ∧ ∀ d ∈ rdy, d.lid = l → c.gatherLe d = true

/-- A save request sets PENDING on a resident cohort. A cohort whose save stands and whose engines have drained is
saved: at COHORT_SAVE once every thread has settled, at FORCED_SAVE as it stands; and a cohort with a parked thread
and no runnable one is descheduled as replayable. A request that made room and holds no more is withdrawn (R41). With a
save its core is free, its dirty stash lines are written back, its threads act as at a FENCE and keep their registers; an
expansion is discarded but where its thread waits at the op of a one-op template (R46, R128, R134, R240, R271, R305, R307,
R308). Under a save request a thread at a safe point enters its pre-emption handler, with its PC, its LIVE entry, its
SKIP shadow and its watchpoint suppression saved (R288, R304, R305). A saved cohort comes back on a core with room,
with its state, a quarter for each warp, and the threads that executed PDONE ready (R26, R306, R309). The pre-emption
handler starts at the slot after its line's header, what a save waits for, and the withdrawal are the model's reading
(log entries 10, 33 and 40). -/
def Obligations.SavesAndReadmissions : Prop :=
  ((∀ (coh : Nat) (s : State) (c : Cohort), aget s.cohorts coh = some c →
     ∃ t, exec (.saveRequest coh) s = .next t ∧ t = { s with cohorts := t.cohorts } ∧
       aget t.cohorts coh = some (if c.core.isSome then { c with pending := true, forRoom := false } else c) ∧
       ∀ k, k ≠ coh → aget t.cohorts k = aget s.cohorts k) ∧
   (∀ (i : Instr) (coh : Nat) (s : State) (c : Cohort) (replayable : Bool), aget s.cohorts coh = some c →
     c.core.isSome = true → s.drained coh = true →
     (replayable = true ↔ (∀ u ∈ s.cohThreads coh, TStatus.runnable u.2.status = false) ∧
       ∃ u ∈ s.cohThreads coh, TStatus.isParked u.2.status = true) →
     (i = .cohortSave coh ∧ c.pending = true ∧ s.mustLeave coh c = true ∧
         (∀ u ∈ s.cohThreads coh, TStatus.settled u.2.status = true) ∨
       i = .forcedSave coh ∧ c.pending = true ∧ s.mustLeave coh c = true ∨
       i = .replayableDeschedule coh ∧ replayable = true) →
     ∃ t, exec i s = .next t ∧
       aget t.cohorts coh =
         some { c with
           core := none, saved := true, pending := false, forRoom := false, replayable := replayable, lines := [] } ∧
       (∀ k, k ≠ coh → aget t.cohorts k = aget s.cohorts k) ∧
       (∀ k u, aget s.threads k = some u → cohOf k = coh → ∃ o, aget t.threads k = some (Thread.save { u with ord := o })) ∧
       (∀ k, cohOf k ≠ coh → aget t.threads k = aget s.threads k) ∧
       (∀ k ∈ t.issue, cohOf k ≠ coh) ∧
       t.mem = (s.writeBack (s.cohPid c) (c.lines.map (·.2))).mem ∧
       t = { s with
         mem := t.mem, threads := t.threads, issue := t.issue, cohorts := t.cohorts, rotation := t.rotation
         fences := t.fences, lost := t.lost, free := t.free }) ∧
   (∀ (i : Instr) (coh : Nat) (s : State) (c : Cohort), aget s.cohorts coh = some c → c.core.isSome = true →
     s.drained coh = true → c.pending = true → s.mustLeave coh c = false →
     (i = .cohortSave coh ∧ (∀ u ∈ s.cohThreads coh, TStatus.settled u.2.status = true) ∨ i = .forcedSave coh) →
     ∃ t, exec i s = .next t ∧ t = { s with cohorts := t.cohorts, threads := t.threads } ∧
       aget t.cohorts coh = some { c with pending := false, forRoom := false } ∧
       (∀ k, k ≠ coh → aget t.cohorts k = aget s.cohorts k) ∧
       (∀ k, cohOf k ≠ coh → aget t.threads k = aget s.threads k) ∧
       ∀ k u, cohOf k = coh → aget s.threads k = some u →
         aget t.threads k = some { u with status := if u.status = .preWait then .ready else u.status }) ∧
   ∀ u : Thread,
     let split := ∃ x, u.exp = some x ∧ 1 < x.ops.length
     (u.exp = none ∨ u.waits = true ∧ ¬ split → u.save =
       { u with status := if u.status = .backoff then .ready else u.status, rdy := false, late := 0, yielded := false }) ∧
     (u.waits = false ∨ split → u.save.exp = none) ∧ (u.waits = true → split → u.save.status = .ready)) ∧
  (∀ (tid : Nat) (s s1 : State) (e : Env) (live : Dword), s.envOf tid 0 = some e → s.safeEntry tid = (some live, s1) →
     aget s1.threads tid = some e.th →
     e.c.pending = true ∧ e.c.prevec ≠ 0 ∧ e.th.preActive = false ∧ e.th.status = .ready ∧ e.c.core.isSome = true ∧
     ∃ t, exec (.preemptHandlerEntry tid) s = .next t ∧
       s1.Becomes tid t { e.th.abandon with
         prePc := e.th.pc, preLive := live, preActive := true, preShadow := e.th.shadow, shadow := none
         preSuppress := e.th.wpSuppress, wpSuppress := false
         pc := ((aget s1.cohorts (cohOf tid)).map Cohort.prevec).getD 0 + 8 }) ∧
  (∀ (coh core : Nat) (s : State) (c : Cohort) (l : Launch), aget s.cohorts coh = some c → aget s.launches c.launch = some l →
     s.canReturn coh c l = true → s.readmitCore coh core c l = true →
     ∃ t, exec (.readmission coh core) s = .next t ∧
       aget t.cohorts coh =
         some { c with saved := false, replayable := false, pending := false, forRoom := false, core := some core } ∧
       (∀ k, k ≠ coh → aget t.cohorts k = aget s.cohorts k) ∧
       (∀ k u, aget s.threads k = some u → cohOf k = coh → ∃ o, aget t.threads k =
         some { u with status := if u.status = .preWait then .ready else u.status, ord := o }) ∧
       (∀ k, cohOf k ≠ coh → aget t.threads k = aget s.threads k) ∧
       (∀ w x, w < c.warps → aget s.warps (coh * 32 + w) = some x →
         ∃ q, q < 4 ∧ aget t.warps (coh * 32 + w) = some { x with quarter := q }) ∧
       (∀ k, ¬ (coh * 32 ≤ k ∧ k < coh * 32 + c.warps) → aget t.warps k = aget s.warps k) ∧
       t = { s with
         cohorts := t.cohorts, threads := t.threads, warps := t.warps, rotation := t.rotation, fences := t.fences
         free := t.free })

/-- A target core makes room for the cohort of a launch's lowest runnable thread, which takes its place where it fits.
Else the first cohort in the order of R41 of those without which it fits receives a save request, one at a time, and
never one that holds its own launch's lowest runnable thread. While one core is the target and can still be it, no other
core is asked; room for a cohort that is not needed any more is given up, with the requests that made it (R41, R80,
R313). A request that makes room holds only while the needed cohort does not fit (R41). That room is made by one event
for one launch, that it is held, and which core becomes the target, are the model's choice (log entries 33 and 40). -/
def Obligations.RoomMaking : Prop :=
  (∀ (launch core : Nat) (s : State) (l : Launch), aget s.launches launch = some l →
    let i : Instr := .makeRoom launch core
    let need := s.roomNeed launch l
    let r := s.clearRoom launch
    let ask := fun (x : State) (cs : List Nat) => if x.asked core = [] then
        (match cs with
          | [] => x
          | c :: _ => x.requestRoom c)
      else x
    ((∃ k, l.room = some k ∧ need.map (·.1) ≠ some k.1) → exec i s = .next r) ∧
    ∀ idx n, need = some (idx, n) → (∀ k, l.room = some k → k.1 = idx) →
      (if l.rc.kind = 2 then secOfCore core = l.sec else s.pidOfCore core = l.pid ∧ core < 256) →
      (l.rc.det = true → s.nextDue launch l = none) →
      (s.fits core launch n (some idx) = true →
        (∀ c x, s.wanted launch l = some (.cohort c) → aget s.cohorts c = some x →
          exec i s = .next (if s.readmitCore c core x l then r.readmit c core else s)) ∧
        (∀ k, s.wanted launch l = some (.fresh k) → l.rc.kind ≠ 1 ∨ l.rc.det = true → exec i s = .next s) ∧
        ∀ k, s.wanted launch l = some (.fresh k) → l.rc.kind = 1 → l.rc.det = false →
          (l.rc.persist = true → ∃ t y, exec i s = .next t ∧ y = { l with room := none } ∧
            State.NewCohort r t launch y core k 0 [k, 0, 0, 0] 0 []) ∧
          (l.rc.persist = false → ∃ t, exec i s = .next t ∧ ∀ x, aget (r.takeIndex launch k).launches launch = some x →
            State.NewCohort (r.takeIndex launch k) t launch x core k 0 (l.rc.coord k) 0 [])) ∧
      (s.fits core launch n (some idx) = false →
        (∀ k, l.room = some (idx, k) → (s.roomAt k launch idx n).isSome = true →
          (k ≠ core → exec i s = .next s) ∧ (k = core → exec i s = .next (ask s ((s.roomAt core launch idx n).getD [])))) ∧
        ((∀ k, l.room = some (idx, k) → s.roomAt k launch idx n = none) →
          let x := r.modLaunch launch fun y => { y with room := some (idx, core) }
          (r.roomAt core launch idx n = none → exec i s = .next r) ∧
          ((r.roomAt core launch idx n).isSome = true → exec i s = .next (ask x ((x.roomAt core launch idx n).getD [])))))) ∧
  (∀ (core launch idx : Nat) (s : State) (n : Need) (cs : List Nat), s.roomAt core launch idx n = some cs →
    let others := (s.evictable core).filter fun c => !(s.asked core).contains c
    s.fitsWithout core launch n (some idx) cs = true ∧ ∃ new out, cs = s.asked core ++ new ∧ others = new ++ out ∧
      ∀ m, m < new.length → s.fitsWithout core launch n (some idx) (s.asked core ++ new.take m) = false) ∧
  (∀ (launch : Nat) (s : State) (l : Launch) (k : Nat × Nat), aget s.launches launch = some l → l.room = some k →
    rising 0 s.cohorts = true →
    let r := s.clearRoom launch
    aget r.launches launch = some { l with room := none } ∧ (∀ j, j ≠ launch → aget r.launches j = aget s.launches j) ∧
      r = { s with launches := r.launches, cohorts := r.cohorts, threads := r.threads } ∧
      ∀ j c, aget s.cohorts j = some c → aget r.cohorts j = some
        (if c.core = some k.2 ∧ c.pending = true ∧ c.forRoom = true ∧
            (∀ e ∈ s.launches, e.1 ≠ launch → e.2.room.map (·.2) ≠ some k.2) then { c with pending := false, forRoom := false }
          else c)) ∧
  (∀ (coh core : Nat) (s : State) (c : Cohort), c.core = some core → (s.mustLeave coh c = true ↔
    c.forRoom = false ∨ s.keepsPlace coh c = false ∧ ∃ e ∈ s.launches, ∃ idx n, e.2.room = some (idx, core) ∧
      s.roomNeed e.1 e.2 = some (idx, n) ∧ s.fits core e.1 n (some idx) = false)) ∧
  ∀ (core : Nat) (s : State) (k : Nat), k ∈ s.evictable core →
    ∃ c, (k, c) ∈ s.cohorts ∧ c.core = some core ∧
      ∀ l, aget s.launches c.launch = some l →
        s.lowest c.launch l ≠ some (.cohort k) ∧ (l.rc.det = true → s.due k = false) ∧ l.holder ≠ some k

/-- A time slice that ends switches its context out: the context is not scheduled, and its resident cohorts are to be
saved; the same for a launch that is pre-empted. Once every cohort of the contexts that leave a partition is saved, a
context that is switched out is restored: it is scheduled, its walkers wait for their slots no longer, and the
replays and aborts that came meanwhile take effect (R90, R295, R310, R316). The events in which firmware switches are
the model's choice (log entry 33). -/
def Obligations.ContextSwitches : Prop :=
  (∀ (cid : Nat) (s : State) (c : Ctx), aget s.ctxs cid = some c → c.scheduled = true →
    (∀ b ∈ s.bins, b.2.selected = none) → s.fetches = [] → s.Inv →
    ∃ t, exec (.timeSliceExpiry cid) s = .next t ∧ aget t.ctxs cid = some { c with scheduled := false } ∧
      (∀ k, k ≠ cid → aget t.ctxs k = aget s.ctxs k) ∧ t.threads = s.threads ∧ t.mem = s.mem ∧
      ∀ k x, aget s.cohorts k = some x → aget t.cohorts k =
        some (if (s.launchesOf cid).contains x.launch = true ∧ x.core.isSome = true then
            { x with pending := true, forRoom := false }
          else x)) ∧
  (∀ (launch : Nat) (s : State) (l : Launch), aget s.launches launch = some l → s.active l = true → s.fetches = [] →
    s.Inv →
    ∃ t x, exec (.launchPreemption launch) s = .next t ∧ aget t.launches launch = some x ∧ x.preempted = true ∧
      t.threads = s.threads ∧ t.mem = s.mem ∧
      (∀ w ∈ s.walkers, w.launch = launch → ({ sec := w.sec, lo := w.cursor, hi := w.limit } : PendRange) ∈ x.saved) ∧
      ∀ k y, aget s.cohorts k = some y → aget t.cohorts k =
        some (if y.launch = launch ∧ y.core.isSome = true then { y with pending := true, forRoom := false } else y)) ∧
  (∀ (cid : Nat) (s : State) (c : Ctx), aget s.ctxs cid = some c → c.scheduled = false → c.migrated = false →
    (s.partSaved c.pid = false → exec (.contextRestore cid) s = .next s) ∧
    (s.partSaved c.pid = true →
      ∃ r t : State, exec (.contextRestore cid) s = .next t ∧ t = r.applyHeld cid ∧
        aget r.ctxs cid = some { c with scheduled := true } ∧ (∀ k, k ≠ cid → aget r.ctxs k = aget s.ctxs k) ∧
        r.cohorts = s.cohorts ∧ r.threads = s.threads ∧ r.mem = s.mem ∧
        (∀ l x, l ∈ s.launchesOf cid → (aget s.launches l).map Launch.preempted = some false →
          aget r.launches l = some x → x.saved = []) ∧
        (c.held = [] → t = { r with ctxs := t.ctxs } ∧ ∀ k, aget t.ctxs k = aget r.ctxs k))) ∧
  ∀ (cid : Nat) (s : State) (c : Ctx), aget s.ctxs cid = some c → c.scheduled = true →
    ∃ t, exec (.contextRestore cid) s = .next t ∧ t.ctxs = s.ctxs ∧ t.cohorts = s.cohorts ∧ t.threads = s.threads ∧
      ∀ l x, l ∈ s.preemptedOf cid → aget t.launches l = some x → x.preempted = false ∧ x.saved = []

/-! ## Fault queues, firmware, the hub and the platform -/

/-- The oldest record of a context is posted where its fault queue has room: what it parks is parked until a command
names it, and the others go on; a PGREQ's is not posted while a request for its page is outstanding; without room it
waits, and a context whose queue cannot be written is stopped (R100, R284, R294, R295). An error that no check corrects ends in MEMERR for the op, the waiting AWAIT or the copy whose access
meets it, at that access's own address; in zeros and a fault at the WAITC for a load; in a partition stop where no
thread asked; and in nothing for a prefetch; a corrected one is only counted (R302, R303, R340). Which access meets an
error is free (the model's choice: log entry 31). -/
def Obligations.FaultPostsAndMemoryErrors : Prop :=
  (∀ (cid : Nat) (s s1 r : State) (ctx : Ctx) (p : Post) (rest : List Post) (out : Bool), aget s.ctxs cid = some ctx →
     s.hub.stopped.contains ctx.pid = false → ctx.posts = p :: rest →
     (if p.kind = .notResident ∧ p.parked = false then s.requested cid ctx p.page else (false, s)) = (out, s1) →
     let w := agentOf cid ctx
     let i : Instr := .faultPost cid
     (out = true → ∃ t, exec i s = .next t ∧ t = { s1 with threads := t.threads, ctxs := t.ctxs } ∧
       (∀ y, aget s1.ctxs cid = some y → aget t.ctxs cid = some { y with posts := y.posts.drop 1 }) ∧
       (∀ k, k ≠ cid → aget t.ctxs k = aget s1.ctxs k) ∧
       ∀ k u, aget s1.threads k = some u → aget t.threads k =
         some (if p.tids.contains k = true ∧ u.status = .posting false then { u with status := .ready } else u)) ∧
     (out = false → tryAgent s1 w (postM w ctx cid p) = (some true, r) → aget r.ctxs cid = some ctx →
       ∃ t x, exec i s = .next t ∧ aget t.ctxs cid = some x ∧ x.posts = rest ∧ x.posted = ctx.posted + 1 ∧
         (∀ k, k ≠ cid → aget t.ctxs k = aget r.ctxs k) ∧
         (∀ k u, aget r.threads k = some u → aget t.threads k =
           some (if p.tids.contains k = true ∧ u.status = .posting p.parked then
             { u with status := if p.replay then .ready else p.status }
           else u)) ∧
         (p.parked = false → p.status = .ready) ∧
         (p.parked = true → p.kind ≠ .binSpill → p.status = .parked) ∧
         (∀ y, p.parked = true → p.replay = false → aget ctx.parked ctx.posted = none → aget x.parked ctx.posted = some y →
           (∀ k ∈ y.tids, k ∈ p.tids) ∧ y.copy = p.copy ∧ y.watch = decide (p.kind = .watch)) ∧
         t = { r with threads := t.threads, ctxs := t.ctxs }) ∧
     (out = false → tryAgent s1 w (postM w ctx cid p) = (some false, r) → exec i s = .next r) ∧
     (out = false → tryAgent s1 w (postM w ctx cid p) = (none, r) → r.hub.stopped.contains ctx.pid = false →
       exec i s = .next (r.stopContext cid))) ∧
  ((∀ (tid acc : Nat) (addr : Dword) (s : State) (u : Thread), aget s.threads tid = some u → acc < 8 →
     ∃ t, exec (.uncorrectableError (.atOp tid addr acc)) s = .next t ∧
       s.Becomes tid t { u with err := some (acc, addr.setWidth 57) }) ∧
   (∀ (id : Nat) (addr : Dword) (s : State) (c : Copy) (u : Thread), aget s.copies id = some c →
     aget s.threads c.tid = some u →
     ∃ t, exec (.uncorrectableError (.atCopy id addr)) s = .next t ∧
       s.Becomes c.tid t { u with err := some (4, addr.setWidth 57) }) ∧
   (∀ (w : Who) (a : Access) (s : State) (tid : Nat) (u : Thread) (at_ : VAddr), w.tid = some tid →
     aget s.threads tid = some u → u.err = some (a.acc, at_) → ptrOk a.ptr = true →
     (∀ p ∈ s.hub.ports, p.state ≠ .down) →
     (a.fx = false → (at_ - vaOf a.ptr).toNat < a.n) → (a.fx = true → at_ &&& ~~~127#57 = vaOf a.ptr &&& ~~~127#57) →
     checkTo3 w a s = .error (accFault .memErr a) s) ∧
   (∀ (tid id acc page : Nat) (a : VAddr) (addr : Dword) (s : State) (u : Thread) (o : OutOp), aget s.threads tid = some u → u.keep = [] →
     u.out.filter (fun x => x.id == id) = [o] → o.cls = .ldc → o.returned = false →
     o.src.find? (fun x => x.2.1 == addr.setWidth 57) = some (acc, a, page) →
     let va : Dword := (addr.setWidth 57).setWidth 64
     ∃ t v, exec (.uncorrectableError (.atLoad tid id addr)) s = .next t ∧ s.Becomes tid t v ∧
       (∀ d ∈ o.dests, (∀ n, d.1 ≠ .k n) → v.rd d.1 = 0) ∧ (∀ d ∈ o.preds, d.1 < 15 → v.p d.1 = false) ∧
       (∀ x ∈ v.out, x.id = id →
         x.returned = true ∧ x.fault = some { kind := .memErr, acc := acc, addr := va, page := some page }) ∧
       (∀ n, .v n ∉ o.dests.map (·.1) → v.rd (.v n) = u.rd (.v n)) ∧ v.pc = u.pc ∧ v.status = u.status) ∧
   (∀ s : State, exec (.uncorrectableError .atPref) s = .next s) ∧
   (∀ (sec : Nat) (s : State), sec < 4 →
     ∃ t, exec (.uncorrectableError (.noRequester sec)) s = .next t ∧ t.hub.stopped.contains (s.pidOf sec) = true ∧
       ∀ k l, aget t.launches k = some l → l.pid = s.pidOf sec → l.signaled = true ∧ l.status.isSome = true) ∧
   ∀ (stage : CheckStage) (s : State), ∃ t, exec (.correctedError stage) s = .next t ∧
     t = { s with hub := { s.hub with corrected := t.hub.corrected } } ∧
     (aget t.hub.corrected (stageNo stage)).getD 0 = (aget s.hub.corrected (stageNo stage)).getD 0 + 1 ∧
     ∀ k, k ≠ stageNo stage → aget t.hub.corrected k = aget s.hub.corrected k)

/-- A doorbell of an admin ring has firmware read ADM_WRIDX and serve the ring entry by entry, each read as an acquire: an
entry with a command has it executed, one without answers BAD_OPCODE; an answer is a record of 16 bytes, a release at
system scope, with which the entry is done. A write of ADM_BASE to an idle ring sets it and clears its indices (R327,
R328). Q_BIND checks the control block that it names, and binds it as an idle queue under the lowest free number of its
section; Q_UNBIND ends the queue's launches and takes it away (R330, R333). The places of a command's arguments in its
entry and the order of a command's checks are the model's choice (log entries 5 and 25). -/
def Obligations.AdminRingsAndQueueCommands : Prop :=
  ((∀ (fn : Nat) (s : State) (f : Func), aget s.hub.funcs fn = some f → f.frozen = false →
     let g := { f with admTo := f.admWr }
     let s0 := s.modFunc fn fun f => { f with admTo := f.admWr }
     (f.admBase = 0 ∨ f.admRd = f.admWr ∨ f.cmd.isSome = true → exec (.adminDoorbell fn) s = .next s0) ∧
     ∀ b v r, f.admBase ≠ 0 → f.admRd ≠ f.admWr → f.cmd = none →
       s0.firmAcquire f.view (hostKey (f.admBase.toNat + 64 * (f.admRd % 2 ^ f.admLog))) 8 = (b, v, r) →
       ∃ t, exec (.adminDoorbell fn) s = .next t ∧ (∀ k, k ≠ fn → aget t.hub.funcs k = aget s.hub.funcs k) ∧
         (∀ i, entryCommand fn b = some i →
           t = { r with agenda := i :: r.agenda, hub := { r.hub with funcs := t.hub.funcs } } ∧
           aget t.hub.funcs fn = some { g with view := v, cmd := some i }) ∧
         (entryCommand fn b = none → sread t.mem (hostKey (Config.adminCompl b)) 16 = adminRecord 0x0006 0 0 ∧
           aget t.hub.funcs fn =
             some { g with view := v, admRd := (f.admRd + 1) % 2 ^ 32, cmd := none, stage := 0 })) ∧
   (∀ (fn compl status result : Nat) (s : State) (f : Func) (view : List Nat), aget s.hub.funcs fn = some f →
     status < 2 ^ 16 →
     let t := s.complete fn compl status result view
     sread t.mem (hostKey compl) 16 = adminRecord status 0 result ∧ leNat ((adminRecord status 0 result).take 2) = status ∧
     (∀ k, k ≠ fn → aget t.hub.funcs k = aget s.hub.funcs k) ∧ t.agenda = s.agenda ∧
     aget t.hub.funcs fn = some (if f.cmd.isSome then { f with admRd := (f.admRd + 1) % 2 ^ 32, cmd := none, stage := 0 }
       else { f with stage := 0 }) ∧
     ∃ m ∈ t.hist, m.key = hostKey compl ∧ m.new = adminRecord status 0 result ∧
       ∃ r, m.rels = [r] ∧ r.insts = hostInsts ∧ ∀ n ∈ view, n ∈ r.view) ∧
   ∀ (fn : Nat) (v : Dword) (s : State) (f : Func), aget s.hub.funcs fn = some f →
     ∃ t, exec (.admBaseWrite fn v) s = .next t ∧ t = { s with hub := { s.hub with funcs := t.hub.funcs } } ∧
       aget t.hub.funcs fn =
         some (if f.admRd = f.admWr then { f with admBase := v, admWr := 0, admRd := 0, admTo := 0, cmd := none } else f) ∧
       ∀ k, k ≠ fn → aget t.hub.funcs k = aget s.hub.funcs k) ∧
  ((∀ (fn compl cid qcb sec : Nat) (s r : State) (f : Func) (c : Ctx) (b : List Byte), aget s.hub.funcs fn = some f →
     f.frozen = false → s.named fn f cid = .ok c → sec < 4 → s.pidOf sec = c.pid → s.quiescing [sec] = false →
     qcb % 128 = 0 → s.agentRead (agentOf cid c) (BitVec.ofNat 64 qcb) 128 s.agentWrites = (some b, r) →
     let i : Instr := .qBind fn compl cid qcb sec
     let used := fun n => s.queues.any fun q => q.2.sec == sec && q.2.qn == n
     (qcbOk b = false → s.Answers f i fn compl 0x0008 0 r) ∧
     (qcbOk b = true → field b 0xC 2 ≠ 1 → s.Answers f i fn compl 0x0002 0 r) ∧
     ∀ n, qcbOk b = true → field b 0xC 2 = 1 → n < 256 → used n = false → (∀ m, m < n → used m = true) →
       ∃ t q, s.Answers f i fn compl 0 n t ∧ s.Queued t r.nextId q ∧ q =
         { fn := fn, cid := cid, sec := sec, qn := n, qcb := BitVec.ofNat 64 qcb, ringbase := BitVec.ofNat 64 (field b 0 8)
           ringlog := field b 8 4 % 32, priomax := field b 8 4 / 32 % 8, rev := 1 }) ∧
   ∀ (fn compl sec qn k : Nat) (s : State) (f : Func) (q : Queue), aget s.hub.funcs fn = some f → f.frozen = false →
     (s.queues.find? fun q => q.2.sec == sec && q.2.qn == qn) = some (k, q) →
     (f.isPf = false → q.fn ≠ fn → s.Answers f (.qUnbind fn compl sec qn) fn compl 0x0007 0 s) ∧
     (f.isPf = true ∨ q.fn = fn → ∃ t, s.Answers f (.qUnbind fn compl sec qn) fn compl 0 0 t ∧
       aget t.queues k = none ∧ (∀ j, j ≠ k → aget t.queues j = aget s.queues j) ∧
       ∀ j l, aget t.launches j = some l → l.ownerQ = some k → l.signaled = true))

/-- Contexts: CTX_CREATE makes one of the contract of its descriptor under a CID that none has, where the module is FULL,
the descriptor is in order, its GANGID is the function's and free, and the plug-in of a virtual function admits it; its
fault queue's header is 0 (R293, R326, R334, R335). CTX_DESTROY ends its launches and leaves nothing of it (R337); a
context moves as an image (R338, R339, R345). The order of the checks, which CID is given, what the plug-in decides,
and the image as one object are the model's choice (log entries 25, 30 and 41). -/
def Obligations.ContextCommands : Prop :=
  (∀ (fn compl desc : Nat) (s : State) (f : Func), aget s.hub.funcs fn = some f → f.frozen = false →
    let i : Instr := .ctxCreate fn compl desc
    let x := s.firmRead f.view (hostKey desc) 64
    let con := contractOf x.1
    let given := con.gangid = 0 ∨ f.gangs.contains con.gangid = true
    let held := con.gangid ≠ 0 ∧ ∃ c ∈ x.2.ctxs, c.2.fn = fn ∧ c.2.con.gangid = con.gangid
    let ready := s.hub.phase = .full ∧ s.quiescing (s.sectionsOf f.pid) = false
    (s.hub.phase ≠ .full → s.Answers f i fn compl 0x0005 0 s) ∧
    (s.hub.phase = .full → s.quiescing (s.sectionsOf f.pid) = true → exec i s = .next s) ∧
    (ready → descOk x.1 con = false ∨ ¬ given → s.Answers f i fn compl 0x0001 0 x.2) ∧
    (ready → descOk x.1 con = true → given → held → s.Answers f i fn compl 0x0003 0 x.2) ∧
    (∀ st, ready → descOk x.1 con = true → given → ¬ held → f.isPf = false → Config.admission f.plugin fn x.1 = some st →
      s.Answers f i fn compl st 0 x.2) ∧
    (ready → descOk x.1 con = true → given → ¬ held → f.isPf = true ∨ Config.admission f.plugin fn x.1 = none →
      (∃ c, c < 4096 ∧ aget x.2.ctxs c = none) →
      let ctx : Ctx := { fn := fn, pid := f.pid, con := con }
      ∃ (r : State) (cid : Nat), s.Answers f i fn compl 0 cid (r.fqHeader cid ctx) ∧ cid < 4096 ∧
        aget x.2.ctxs cid = none ∧ aget r.ctxs cid = some ctx ∧ (∀ k, k ≠ cid → aget r.ctxs k = aget x.2.ctxs k) ∧
        r = { x.2 with ctxs := r.ctxs, free := r.free })) ∧
  (∀ (fn compl cid : Nat) (s : State) (f : Func) (c : Ctx), aget s.hub.funcs fn = some f → f.frozen = false →
    s.named fn f cid = .ok c →
    ∃ r, s.Answers f (.ctxDestroy fn compl cid) fn compl 0 0 r ∧ aget r.ctxs cid = none ∧
      (∀ k, k ≠ cid → aget r.ctxs k = aget s.ctxs k) ∧ (∀ q ∈ r.queues, q.2.cid ≠ cid) ∧ (∀ v ∈ r.seen, v.cid ≠ cid) ∧
      (∀ q ∈ r.devq, q.1 / 4 ≠ cid) ∧ (∀ w ∈ r.hub.coreWps, w.2.cid ≠ cid) ∧
      ∀ k l, aget r.launches k = some l → l.cid = cid → l.signaled = true) ∧
  (∀ (fn compl cid : Nat) (s : State) (f : Func), aget s.hub.funcs fn = some f → f.frozen = false → f.isPf = false →
    (∀ c, aget s.ctxs cid = some c → c.fn ≠ fn) →
    s.Answers f (.ctxDestroy fn compl cid) fn compl 0x0007 0 s) ∧
  (∀ (fn compl cid : Nat) (s : State) (f : Func) (c : Ctx), aget s.hub.funcs fn = some f → f.frozen = false →
    s.named fn f cid = .ok c →
    let i : Instr := .migSave fn compl cid
    (c.scheduled = true → exec i s = .next (s.switchOut cid)) ∧
    (c.scheduled = false → s.switchedOut cid = false → exec i s = .next s) ∧
    (c.scheduled = false → s.switchedOut cid = true →
      ∃ r im, s.Answers f i fn compl 0 s.nextId r ∧ aget r.hub.images s.nextId = some im ∧
        im.con = c.con ∧ im.ctx = c ∧ (∀ q ∈ im.queues, q.2.cid = cid) ∧ (∀ x ∈ im.cohorts, x.2.cid = cid) ∧
        (∀ t ∈ s.threads, (∃ x, aget (s.cohorts.filter fun y => y.2.cid == cid) (cohOf t.1) = some x) → t ∈ im.threads) ∧
        r = { s with nextId := s.nextId + 1, hub := { s.hub with images := r.hub.images } })) ∧
  ∀ (fn compl image : Nat) (s : State) (f : Func) (im : Image), aget s.hub.funcs fn = some f → f.frozen = false →
    aget s.hub.images image = some im → s.hub.phase = .full →
    let i : Instr := .migRestore fn compl image
    let given := im.con.gangid = 0 ∨ f.gangs.contains im.con.gangid = true
    let held := im.con.gangid ≠ 0 ∧ ∃ c ∈ s.ctxs, c.2.fn = fn ∧ c.2.con.gangid = im.con.gangid
    let fits := im.secs.length = (s.sectionsOf f.pid).length ∧ im.feat &&& ~~~(Config.siliconFeatures ||| 1#64) = 0 ∧
      s.binsFree im f.pid = true
    (¬ given → s.Answers f i fn compl 0x0001 0 s) ∧
    (given → held → s.Answers f i fn compl 0x0003 0 s) ∧
    (given → ¬ held → ¬ fits → s.Answers f i fn compl 0x0004 0 s) ∧
    (given → ¬ held → fits → (∃ c, c < 4096 ∧ aget s.ctxs c = none) →
      ∃ r cid, s.Answers f i fn compl 0 cid r ∧ aget s.ctxs cid = none ∧
        aget r.ctxs cid = some { im.ctx with fn := fn, pid := f.pid, scheduled := false, migrated := true } ∧
        aget r.hub.images image = none ∧
        ∀ k c, (im.cohorts.filter fun x => x.1 == k) = [(k, c)] →
          aget r.cohorts k = some { c with cid := cid, core := none, saved := true })

/-- FAULT_REPLAY makes the threads that a record parks ready, with their watchpoints suppressed once where it is a WATCH
record, and FAULT_ABORT ends their launches with FAULT; on a context that is switched out both wait for its restore
(R47, R288, R295, R310). BIN_ABORT ends an arming with ABORTED (R110). SHOOTDOWN recalls the stash lines of a range
and empties the TLBs of it, and completes once the buffered stores that used an old leaf, and every other write, have
been performed for every observer (R238, R279, R327). FRAME_ASSIGN gives free frames to a context; FRAME_RELEASE shoots them down, scrubs them, and leaves
them free, with zero bytes and tags; WATCH_SET sets a core watchpoint in the cores around one; and GANG_ASSIGN gives
and takes a gang's number (R287, R334, R336). The order of the checks is the model's choice (log entry 25). -/
def Obligations.OtherOwnerCommands : Prop :=
  ((∀ (fn compl cid idx n : Nat) (s : State) (f : Func) (c : Ctx) (p : Parked), aget s.hub.funcs fn = some f →
     f.frozen = false → s.named fn f cid = .ok c → c.scheduled = true → c.recordAt idx = some n →
     aget c.parked n = some p →
     (∃ r, s.Answers f (.faultReplay fn compl cid idx) fn compl 0 0 r ∧
       (∀ k u, aget s.threads k = some u → p.copy = none → aget r.threads k =
         some (if p.tids.contains k = true ∧ TStatus.isParked u.status = true then
           { u with status := .ready, wpSuppress := p.watch } else u)) ∧
       (∀ id x, p.copy = some id → aget s.copies id = some x → aget r.copies id = some { x with parked := false }) ∧
       (∀ x, aget r.ctxs cid = some x → aget x.parked n = none) ∧
       r = { s with threads := r.threads, copies := r.copies, ctxs := r.ctxs }) ∧
     ∃ r, s.Answers f (.faultAbort fn compl cid idx) fn compl 0 0 r ∧
       (∀ k x, k ∈ p.tids → aget s.cohorts (cohOf k) = some x → ∀ l, aget r.launches x.launch = some l →
         l.status.isSome = true ∧ ∀ l0, aget s.launches x.launch = some l0 → l0.status = none →
           l.held = false → l.status = some stFault) ∧
       ∀ x, aget r.ctxs cid = some x → aget x.parked n = none) ∧
   (∀ (fn compl cid idx n : Nat) (s : State) (f : Func) (c : Ctx), aget s.hub.funcs fn = some f → f.frozen = false →
     s.named fn f cid = .ok c → c.scheduled = false → c.recordAt idx = some n →
     ∀ (i : Instr) (abort : Bool),
       i = .faultReplay fn compl cid idx ∧ abort = false ∨ i = .faultAbort fn compl cid idx ∧ abort = true →
       ∃ r, s.Answers f i fn compl 0 0 r ∧ r = { s with ctxs := r.ctxs } ∧
         aget r.ctxs cid = some { c with held := c.held ++ [(n, abort)] } ∧ ∀ k, k ≠ cid → aget r.ctxs k = aget s.ctxs k) ∧
   (∀ (fn compl cid idx : Nat) (s : State) (f : Func) (c : Ctx), aget s.hub.funcs fn = some f → f.frozen = false →
     s.named fn f cid = .ok c → c.recordAt idx = none →
     s.Answers f (.faultReplay fn compl cid idx) fn compl 0x0008 0 s ∧
     s.Answers f (.faultAbort fn compl cid idx) fn compl 0x0008 0 s) ∧
   (∀ (fn compl sec bin : Nat) (s : State) (f : Func) (c : Ctx) (b : Bin) (l : Launch), aget s.hub.funcs fn = some f →
     f.frozen = false → sec < 4 → bin < 512 → s.armed (binKey sec bin) = some (b, l) → s.named fn f l.cid = .ok c →
     l.status = none → l.signaled = false →
     ∃ r x, s.Answers f (.binAbort fn compl sec bin) fn compl 0 0 r ∧
       aget r.launches b.launch = some x ∧ x.status = some stAborted ∧ x.signaled = true) ∧
   ∀ (fn compl cid va len : Nat) (s : State) (f : Func) (c : Ctx), aget s.hub.funcs fn = some f → f.frozen = false →
     s.named fn f cid = .ok c →
     let i : Instr := .shootdown fn compl cid va len
     let shot := fun (v : Seen) => (v.what = 3 ∨ v.what = 4) ∧ v.cid = cid ∧ tagMeets v.addr va len = true
     (f.stage = 0 → ∃ r : State, (∀ v, v ∈ r.seen ↔ v ∈ s.seen ∧ ¬ shot v) ∧
       (∀ k x m l, aget r.cohorts k = some x → x.cid = cid → aget x.lines m = some l →
         rangesMeet (vaOf l.va).toNat 128 va len = false) ∧
       (s.Inv → ∀ k x, aget s.cohorts k = some x → x.cid ≠ cid → aget r.cohorts k = some x) ∧
       (r.storesAwaited [cid] = true → exec i s = .next (r.setStage fn 1)) ∧
       (r.storesAwaited [cid] = false → s.Answers f i fn compl 0 0 r.performAll)) ∧
     (f.stage ≠ 0 →
       (s.storesAwaited [cid] = true → exec i s = .next (s.setStage fn 1)) ∧
       (s.storesAwaited [cid] = false → s.Answers f i fn compl 0 0 s.performAll))) ∧
  ((∀ (fn compl cid frame n : Nat) (s : State) (f : Func) (c : Ctx), aget s.hub.funcs fn = some f → f.frozen = false →
     s.named fn f cid = .ok c → 2 ^ 16 * (frame + n) ≤ s.partBytes c.pid →
     let k := fun j => frameKey c.pid (frame + j)
     ((∀ j, j < n → aget s.hub.frames (k j) = none) →
       ∃ r, s.Answers f (.frameAssign fn compl cid frame n) fn compl 0 0 r ∧
         (∀ j, j < n → aget r.hub.frames (k j) = some (.owned cid)) ∧
         (∀ x, (∀ j, j < n → x ≠ k j) → aget r.hub.frames x = aget s.hub.frames x) ∧
         r = { s with hub := { s.hub with frames := r.hub.frames } }) ∧
     ((∃ j, j < n ∧ (aget s.hub.frames (k j)).isSome = true) →
       s.Answers f (.frameAssign fn compl cid frame n) fn compl 0x0003 0 s) ∧
     (0 < n → (∀ j, j < n → aget s.hub.frames (k j) = some (.owned cid)) →
       let i : Instr := .frameRelease fn compl cid frame n
       let cids := cid :: s.reachers c.pid frame n
       let r := if f.stage = 0 then (s.shootFrames c.pid frame n).markStores cids else s
       (r.storesAwaited cids = true → exec i s = .next (r.setStage fn 1)) ∧
       (r.storesAwaited cids = false →
         ∃ t, exec i s = .next t ∧ (∀ j, j < n → aget t.hub.frames (k j) = some (.scrubbing cid)) ∧
           (∀ x, (∀ j, j < n → x ≠ k j) → aget t.hub.frames x = aget s.hub.frames x) ∧
           aget t.hub.funcs fn = some { f with stage := 2 } ∧ t.mem = r.mem ∧ t.tags = r.tags ∧ t.hist = [])) ∧
     (f.stage = 2 → (∀ j, j < n → aget s.hub.frames (k j) = some (.scrubbing cid)) →
       ∃ r, s.Answers f (.frameRelease fn compl cid frame n) fn compl 0 0 r ∧
         (∀ j, j < n → aget r.hub.frames (k j) = none) ∧
         (∀ a, c.pid * 2 ^ 50 + frame * 2 ^ 16 ≤ a → a < c.pid * 2 ^ 50 + (frame + n) * 2 ^ 16 →
           sget r.mem a = 0 ∧ sget r.tags (a / 32) = 0) ∧
         (s.Inv → ∀ a, ¬ (c.pid * 2 ^ 50 + frame * 2 ^ 16 ≤ a ∧ a < c.pid * 2 ^ 50 + (frame + n) * 2 ^ 16) →
           sget r.mem a = sget s.mem a))) ∧
   (∀ (fn compl cid slot scope core : Nat) (addr ctl : Dword) (s : State) (f : Func) (c : Ctx),
     aget s.hub.funcs fn = some f → f.frozen = false → s.named fn f cid = .ok c → slot < 8 → 2 ≤ scope → scope ≤ 5 →
     core < 256 → s.pidOfCore core = c.pid → wpCtlOk ctl = true → wpAligned addr ctl = true →
     ∃ r, s.Answers f (.watchSet fn compl cid slot scope core addr ctl) fn compl 0 0 r ∧
       (∀ j, j < 256 → aget r.hub.coreWps (j * 8 + slot) =
         if s.pidOfCore j = c.pid ∧ (scope = 2 → j = core) ∧ (scope = 3 → j / 4 = core / 4) ∧ (scope = 4 → j / 64 = core / 64)
         then some { cid := cid, addr := addrBits addr, ctl := wpCtlBits ctl }
         else aget s.hub.coreWps (j * 8 + slot)) ∧
       r = { s with hub := { s.hub with coreWps := r.hub.coreWps } }) ∧
   ∀ (fn compl gang : Nat) (fns : List Nat) (withdraw : Bool) (s : State) (f : Func), aget s.hub.funcs fn = some f →
     f.frozen = false → 0 < gang → gang < 2 ^ 16 → (∀ n ∈ fns, (aget s.hub.funcs n).isSome = true) →
     let i : Instr := .gangAssign fn compl gang fns withdraw
     let fs := fns.filterMap fun n => aget s.hub.funcs n
     let others := (s.hub.funcs.filter fun x => x.2.gangs.contains gang && !fns.contains x.1).map (·.2)
     let distinct := ((fs ++ others).map Func.pid).Nodup
     (f.isPf = false → s.Answers f i fn compl 0x0006 0 s) ∧
     (f.isPf = true → withdraw = false → ¬ (fs.length ≤ 4 ∧ distinct) → s.Answers f i fn compl 0x0008 0 s) ∧
     (f.isPf = true → withdraw = true ∨ fs.length ≤ 4 ∧ distinct →
       ∃ r, s.Answers f i fn compl 0 0 r ∧
         (∀ n ∈ fns, ∀ x, aget r.hub.funcs n = some x → x.gangs.contains gang = !withdraw) ∧
         (∀ n, n ∉ fns → aget r.hub.funcs n = aget s.hub.funcs n) ∧
         r = { s with hub := { s.hub with funcs := r.hub.funcs } }))

/-- A commit applies a configuration that is allowed and with which the interleave and network registers agree, and sets
BADCFG else. PART_SET writes all of them and applies it; PART_RESET empties a partition; both leave no context, byte
or tag in the partitions that they touch, and PART_RESET brings the hub's shootdown registers and the event addresses of
its functions to their reset values (R8, R20, R22, R336, R342 to R344). A section with a busy queue refuses to be
quiesced; another one is flushed and done. A release clears both answers. The hub's shootdown recalls the stash lines
and empties the TLBs of its sections (R238, R279, R343, Table 16-6). How the steps of a change of partitions follow each
other is the model's choice (log entry 28). -/
def Obligations.PartitionsAndQuiesce : Prop :=
  ((∀ s : State,
     (configOk s.hub.pidReg = true → s.hub.agrees s.hub.pidReg = true →
       ∃ t, exec .partcfgCommit s = .next t ∧ t.hub.pidNow = s.hub.pidReg ∧ t.hub.badcfg = false ∧
         t.hub.commit = false ∧ t.hub.busy = false ∧
         (∀ n, n < 4 → peersIn s.hub.pidNow n ≠ peersIn s.hub.pidReg n →
           (∀ a, a / 2 ^ 50 = t.pidOf n → sget t.mem a = 0) ∧ (∀ a, a * 32 / 2 ^ 50 = t.pidOf n → sget t.tags a = 0) ∧
           (∀ f ∈ t.hub.frames, f.1 / 2 ^ 34 ≠ t.pidOf n) ∧
           ∀ c x, aget s.ctxs c = some x → x.pid = s.pidOf n → aget t.ctxs c = none)) ∧
     ((configOk s.hub.pidReg = true → s.hub.agrees s.hub.pidReg = false) →
       exec .partcfgCommit s =
         .next { s with hub := { s.hub with commit := false, busy := false, badcfg := true } })) ∧
   (∀ (fn compl cfg : Nat) (s : State) (f : Func), aget s.hub.funcs fn = some f → f.frozen = false → f.isPf = true →
     let i : Instr := .partSet fn compl cfg
     let c : BitVec 8 := BitVec.ofNat 8 cfg
     (s.hub.phase ≠ .full → s.Answers f i fn compl 0x0005 0 s) ∧
     (s.hub.phase = .full → 256 ≤ cfg ∨ configOk c = false → s.Answers f i fn compl 0x0008 0 s) ∧
     (s.hub.phase = .full → cfg < 256 → configOk c = true → (changedSections s.hub.pidNow c).any s.sectionBusy = true →
       s.Answers f i fn compl 0x0009 0 s) ∧
     (s.hub.phase = .full → cfg < 256 → configOk c = true → (changedSections s.hub.pidNow c).any s.sectionBusy = false →
       ∃ r, s.Answers f i fn compl 0 0 r ∧ r.hub.pidNow = c ∧ r.hub.pidReg = c ∧
         r.hub.agrees c = true ∧ r.hub.badcfg = false)) ∧
   (∀ (fn compl pid : Nat) (s : State) (f : Func), aget s.hub.funcs fn = some f → f.frozen = false → f.isPf = true →
     pid < 4 → s.pidOf pid = pid →
     ∃ r, s.Answers f (.partReset fn compl pid) fn compl 0 0 r ∧
       (∀ a, a / 2 ^ 50 = pid → sget r.mem a = 0) ∧ (∀ a, a * 32 / 2 ^ 50 = pid → sget r.tags a = 0) ∧
       (∀ c x, aget s.ctxs c = some x → x.pid = pid → aget r.ctxs c = none) ∧
       (∀ c x, aget s.ctxs c = some x → (∀ y ∈ s.ctxs, y.1 = c → y.2.pid ≠ pid) → aget r.ctxs c = some x) ∧ pid ∉ r.hub.stopped ∧
       (∀ k ∈ r.hub.frozenCores, k < 256 → s.pidOf (k / 64) ≠ pid) ∧ r.hub.pidNow = s.hub.pidNow ∧
       r.hub.shCid = 0 ∧ r.hub.shAll = false ∧ r.hub.shSecs = 0 ∧ r.hub.shDone = false ∧ r.hub.shGo = false ∧
       (∀ n g, aget r.hub.funcs n = some g → g.pid = pid → g.evaddr = 0) ∧
       ∀ n, n < 4 → s.pidOf n = pid → r.hub.qReq.getLsbD n = false ∧ r.hub.qDone.getLsbD n = false ∧
         r.hub.qRefused.getLsbD n = false) ∧
   ∀ (fn compl x : Nat) (s : State) (f : Func), aget s.hub.funcs fn = some f → f.frozen = false → f.isPf = false →
     s.Answers f (.partSet fn compl x) fn compl 0x0006 0 s ∧
     s.Answers f (.partReset fn compl x) fn compl 0x0006 0 s) ∧
  ((∀ (sec : Nat) (s : State), sec < 4 → s.hub.qReq.getLsbD sec = false →
     ∃ t, exec (.quiesceRequest sec) s = .next t ∧ t.hub.qReq.getLsbD sec = true ∧
       t.hub.qRefused.getLsbD sec = (s.hub.qRefused.getLsbD sec || s.sectionBusy sec) ∧
       t.hub.qDone.getLsbD sec = (s.hub.qDone.getLsbD sec || !s.sectionBusy sec) ∧
       (∀ n, n ≠ sec → t.hub.qReq.getLsbD n = s.hub.qReq.getLsbD n ∧ t.hub.qDone.getLsbD n = s.hub.qDone.getLsbD n ∧
         t.hub.qRefused.getLsbD n = s.hub.qRefused.getLsbD n) ∧
       t.threads = s.threads ∧ t.queues = s.queues ∧
       (s.sectionBusy sec = false → ∀ c ∈ t.cohorts, c.2.core.map secOfCore = some sec → s.Inv → c.2.lines = [])) ∧
   (∀ (sec : Nat) (s : State), sec < 4 → (∀ b ∈ s.hub.heldBells, b.2.1 ≠ sec) →
     ∃ t, exec (.quiesceRelease sec) s = .next t ∧
       t = { s with hub := { s.hub with qReq := t.hub.qReq, qDone := t.hub.qDone, qRefused := t.hub.qRefused } } ∧
       ∀ n, n < 4 → t.hub.qReq.getLsbD n = (s.hub.qReq.getLsbD n && decide (n ≠ sec)) ∧
         t.hub.qDone.getLsbD n = (s.hub.qDone.getLsbD n && decide (n ≠ sec)) ∧
         t.hub.qRefused.getLsbD n = (s.hub.qRefused.getLsbD n && decide (n ≠ sec))) ∧
   ∀ s : State,
     let chosen := fun (sec cid : Nat) => s.hub.shSecs.getLsbD sec = true ∧ (s.hub.shAll = true ∨ cid = s.hub.shCid.toNat)
     ∃ t, exec .hubShootGo s = .next t ∧
       t = { s with
         mem := t.mem, cohorts := t.cohorts, lost := t.lost, free := t.free, seen := t.seen
         hub := { s.hub with shGo := false, shDone := true } } ∧
       (∀ v, v ∈ t.seen ↔ v ∈ s.seen ∧ ¬ ((v.what = 3 ∨ v.what = 4) ∧ chosen (v.cluster / 16) v.cid)) ∧
       (∀ k c core, aget t.cohorts k = some c → c.core = some core → chosen (secOfCore core) c.cid → c.lines = []) ∧
       (s.Inv → ∀ k c core, aget s.cohorts k = some c → c.core = some core → ¬ chosen (secOfCore core) c.cid →
         aget t.cohorts k = some c))

/-- A read of a register of Table 16-6 or 16-10 returns each field's value, and zero for a write-only field and for every
reserved bit (R7, R9). A register write changes each field by its access code: R/W fields take their bits, W1S fields
start an event where they are 1, and read-only fields and ADM_RDIDX keep their value (R7, R9, R328). -/
def Obligations.RegisterWrites : Prop :=
  (∀ (s : State) (k : Nat), k < 64 →
    let bit := fun (r : DevReg) => (s.readReg r).getLsbD k
    (bit .hubPartcfg = if k < 8 then s.hub.pidReg.getLsbD k else if k = 8 then s.hub.commit else if k = 9 then s.hub.busy
      else if k = 10 then s.hub.badcfg else false) ∧
    (bit .hubShoot = if k < 12 then s.hub.shCid.getLsbD k else if k = 12 then s.hub.shAll
      else if k < 17 then s.hub.shSecs.getLsbD (k - 13) else if k = 30 then s.hub.shDone
      else if k = 31 then s.hub.shGo else false) ∧
    (∀ n, n < 4 →
      (bit (.secQctl n) = if k = 0 then s.hub.qReq.getLsbD n else if k = 1 then s.hub.qDone.getLsbD n
        else if k = 2 then s.hub.qRefused.getLsbD n else false) ∧
      (bit (.secIlv n) = if k < 2 then (s.hub.ilvNlog.getD n 0).getLsbD k
        else if k < 6 then (s.hub.ilvFirst.getD n 0).getLsbD (k - 2) else false) ∧
      (bit (.secNetb n) = if k < 4 then (s.hub.netb.getD n 0).getLsbD k else false)) ∧
    ∀ fn f, aget s.hub.funcs fn = some f →
      bit (.admBase fn) = f.admBase.getLsbD k ∧
      (bit (.admLog fn) = if k < 4 then f.admLog.testBit k else false) ∧
      (bit (.admWridx fn) = if k < 32 then f.admWr.testBit k else false) ∧
      (bit (.admRdidx fn) = if k < 32 then f.admRd.testBit k else false) ∧
      (bit (.admEvaddr fn) = if f.isPf then f.evaddr.getLsbD k else false) ∧
      bit (.admDb fn) = false ∧ ∀ sec, bit (.qdb fn sec) = false) ∧
  ∀ (v : Dword) (s : State),
    let writes := fun (r : DevReg) (t : State) => exec (.registerWrite r v) s = .next t
    (∃ t, writes .hubPartcfg t ∧ t.hub = { s.hub with
        pidReg := v.extractLsb' 0 8, commit := s.hub.commit || v.getLsbD 8, busy := s.hub.busy || v.getLsbD 8 } ∧
      t = { s with hub := t.hub, agenda := if v.getLsbD 8 then .partcfgCommit :: s.agenda else s.agenda }) ∧
    (∀ n, n < 4 → writes (.secQctl n) (if v.getLsbD 0 = s.hub.qReq.getLsbD n then s
      else { s with agenda := (if v.getLsbD 0 then .quiesceRequest n else .quiesceRelease n) :: s.agenda })) ∧
    (∀ n, n < s.hub.ilvNlog.length → n < s.hub.ilvFirst.length → ∃ t, writes (.secIlv n) t ∧
      t.hub.ilvNlog[n]? = some (v.extractLsb' 0 2) ∧ t.hub.ilvFirst[n]? = some (v.extractLsb' 2 4) ∧
      (∀ m, m ≠ n → t.hub.ilvNlog[m]? = s.hub.ilvNlog[m]? ∧ t.hub.ilvFirst[m]? = s.hub.ilvFirst[m]?) ∧
      t = { s with hub := { s.hub with ilvNlog := t.hub.ilvNlog, ilvFirst := t.hub.ilvFirst } }) ∧
    (∀ n, n < s.hub.netb.length → ∃ t, writes (.secNetb n) t ∧ t.hub.netb[n]? = some (v.extractLsb' 0 4) ∧
      (∀ m, m ≠ n → t.hub.netb[m]? = s.hub.netb[m]?) ∧ t = { s with hub := { s.hub with netb := t.hub.netb } }) ∧
    (∃ t, writes .hubShoot t ∧ t.hub = { s.hub with
        shCid := v.extractLsb' 0 12, shAll := v.getLsbD 12, shSecs := v.extractLsb' 13 4
        shDone := s.hub.shDone && !v.getLsbD 31, shGo := s.hub.shGo || v.getLsbD 31 } ∧
      t = { s with hub := t.hub, agenda := if v.getLsbD 31 then .hubShootGo :: s.agenda else s.agenda }) ∧
    (∀ fn, writes (.admBase fn) { s with agenda := .admBaseWrite fn v :: s.agenda }) ∧
    (∀ fn f, aget s.hub.funcs fn = some f →
      (∃ t, writes (.admLog fn) t ∧ aget t.hub.funcs fn =
        some (if f.admRd = f.admWr then { f with admLog := v.toNat % 16 } else f)) ∧
      (∃ t, writes (.admWridx fn) t ∧ aget t.hub.funcs fn = some { f with admWr := v.toNat % 2 ^ 32 }) ∧
      (∃ t, writes (.admEvaddr fn) t ∧ aget t.hub.funcs fn = some (if f.isPf then { f with evaddr := v } else f)) ∧
      writes (.admRdidx fn) s ∧
      writes (.admDb fn) (if v.getLsbD 0 then { s with agenda := .adminDoorbell fn :: s.agenda } else s)) ∧
    ∀ fn sec, let n := v.toNat % 2 ^ 32
      writes (.qdb fn sec) (if n < 256 then { s with agenda := .queueDoorbell fn sec n :: s.agenda } else s)

/-- A failure of integrity or a breach of memory protection freezes a virtual function, ends its launches and destroys
its text key; a reset of the function lifts the freeze; the interface states follow lock, start and stop, with the
text key in RUN alone (R322, R323, R335, R341). SR-IOV gives the PF 1 to 64 virtual functions, each in a partition
with its plug-in version, of which at most 8 are loaded, or takes them away (R21, R322, R335). A security session
moves by its requests, in the order that the model takes (log entry 13): version, capabilities, algorithms, key
exchange, finish, end; the requests for certificates and measurements leave its phase (Table 16-1). The interface
states' moves and what a reset of a function lifts are the model's reading (log entries 6 and 29). -/
def Obligations.FunctionsAndSessions : Prop :=
  ((∀ (fn : Nat) (s : State) (f : Func) (i : Instr) (err : Bool), aget s.hub.funcs fn = some f → f.isPf = false →
     (i = .ideIntegrityFailure fn ∧ err = true ∨ i = .pluginPmpBreach fn ∧ err = false ∨
       i = .tdispRequest fn .error ∧ err = true) →
     ∃ t, exec i s = .next t ∧
       aget t.hub.funcs fn = some { f with frozen := true, textKey := false, tdi := if err then .error else f.tdi } ∧
       (∀ k, k ≠ fn → aget t.hub.funcs k = aget s.hub.funcs k) ∧
       ∀ c x k l, aget s.ctxs c = some x → x.fn = fn → aget t.launches k = some l → l.cid = c → l.status.isSome = true) ∧
   ∀ (fn : Nat) (s : State) (f : Func), aget s.hub.funcs fn = some f → f.isPf = false →
     let ends := fun (i : Instr) (g : Func) =>
       ∃ t, exec i s = .next t ∧ t = { s with hub := { s.hub with funcs := t.hub.funcs }, nextId := t.nextId } ∧
         aget t.hub.funcs fn = some g ∧ ∀ k, k ≠ fn → aget t.hub.funcs k = aget s.hub.funcs k
     ends (.vfReset fn) { f with frozen := false } ∧
     (f.tdi = .run → ends (.tdiLeaveRun fn) { f with tdi := .configUnlocked, textKey := false }) ∧
     (f.tdi = .configUnlocked → ends (.tdispRequest fn .configLocked) { f with tdi := .configLocked }) ∧
     (f.tdi = .configLocked →
       ends (.tdispRequest fn .run) { f with tdi := .run, textKey := true, keyNo := s.nextId }) ∧
     (f.tdi ≠ .configLocked → ends (.tdispRequest fn .run) f) ∧
     ends (.tdispRequest fn .configUnlocked) { f with tdi := .configUnlocked, textKey := false }) ∧
  ((∀ (n : Nat) (part plugin : List Nat) (s : State) (pf : Func), 0 < n → n ≤ 64 → s.hub.funcs = [(0, pf)] →
     (plugin.take n).eraseDups.length ≤ 8 →
     ∃ t, exec (.pcieConfiguration n part plugin) s = .next t ∧ aget t.hub.funcs 0 = some pf ∧
       (∀ k, 1 ≤ k → k ≤ n → aget t.hub.funcs k = some
         { isPf := false, pid := s.pidOf (part.getD (k - 1) 0 % 4), plugin := plugin.getD (k - 1) 0 }) ∧
       (∀ k, n < k → aget t.hub.funcs k = none) ∧ t = { s with hub := { s.hub with funcs := t.hub.funcs } }) ∧
   (∀ (part plugin : List Nat) (s : State), ∃ t, exec (.pcieConfiguration 0 part plugin) s = .next t ∧
     (∀ f ∈ t.hub.funcs, f.2.isPf = true) ∧ ∀ c x, aget s.ctxs c = some x → x.fn ≠ 0 → aget t.ctxs c = none) ∧
   ∀ (n : Nat) (part plugin : List Nat) (s : State), 64 < n → exec (.pcieConfiguration n part plugin) s = .next s) ∧
  (∀ s : State,
     let ends := fun (i : Instr) (p : SpdmPhase) =>
       ∃ t, exec i s = .next t ∧ t.hub.spdm = p ∧ t = { s with hub := { s.hub with spdm := p, spdmLast := t.hub.spdmLast } }
     let p := s.hub.spdm
     ends .getVersion .versioned ∧
     ends .getCapabilities (if p = .versioned then .capable else p) ∧
     ends .negotiateAlgorithms (if p = .capable then .negotiated else p) ∧
     ends .getDigests p ∧ ends .getCertificate p ∧ ends .challenge p ∧ ends .getMeasurements p ∧
     ends .keyExchange (if p = .negotiated then .exchanged else p) ∧
     ends .finish (if p = .exchanged then .established else p) ∧
     ends .endSession (if p = .established then .negotiated else p))

/-- A port takes a flit that passes its check, has one that fails sent again, and goes down after 8 such replays; a port
that has trained is up (R325, R345). A module reset brings every register, object and byte of HBM back to its reset
state and keeps host memory, the stored firmware counter, the images and nothing else; with every section trained
the module is FULL, and a failure of training leaves it out of service (R335, R344, R345). Power and heat: an unmet
cap is an event to the PF with the power in mW, and a section under heat withholds its plane steps, so that no
matrix instruction of its cohorts retires, until the heat is gone; firmware sets a cap of 1,600 to 3,200 W (R329,
R346). When it sets which cap, the counters and what
of the module outlasts a reset are the model's choice where the spec is silent (log entries 12 and 29). -/
def Obligations.LinksPowerAndStart : Prop :=
  (∀ (n : Nat) (s : State) (p : Port), s.hub.ports[n]? = some p →
     let ends := fun (i : Instr) (q : Port) =>
       ∃ t, exec i s = .next t ∧ t = { s with hub := { s.hub with ports := t.hub.ports } } ∧
         t.hub.ports[n]? = some q ∧ ∀ m, m ≠ n → t.hub.ports[m]? = s.hub.ports[m]?
     (p.state = .up → ends (.flitReceive n true) { p with replays := 0 }) ∧
     (p.state = .up → p.replays < 8 → ends (.flitReceive n false) { p with replays := p.replays + 1 }) ∧
     (p.state = .up → 8 ≤ p.replays →
       exec (.flitReceive n false) s = .next { s with agenda := .linkDown n :: s.agenda } ∧
       ends (.linkDown n) { p with state := .down }) ∧
     (p.state = .training → ends (.linkTrained n) { state := .up, replays := 0 })) ∧
  ((∀ s : State, ∃ t, exec .moduleReset s = .next t ∧ t.hub.phase = .reduced ∧ t.ctxs = [] ∧ t.queues = [] ∧
     t.launches = [] ∧ t.cohorts = [] ∧ t.threads = [] ∧ t.tags = [] ∧ t.hub.pidReg = 0xE4#8 ∧ t.hub.stopped = [] ∧
     t.hub.frozenCores = [] ∧ aget t.hub.funcs 0 = some { isPf := true, pid := 0 } ∧ t.hub.images = s.hub.images ∧
     t.hub.fwVersion = s.hub.fwStaged.getD s.hub.fwVersion ∧ t.hub.fwStored = max s.hub.fwStored t.hub.fwVersion ∧
     (s.Inv → ∀ a, sget t.mem a = if isLocalKey a then 0 else sget s.mem a)) ∧
   (∀ s : State, s.hub.phase = .reduced →
     let full := { s with hub := { s.hub with phase := .full } }
     exec .sectionsTrained s =
       .next (if s.hub.pidReg = s.hub.pidNow then full else { full with agenda := .partcfgCommit :: s.agenda })) ∧
   (∀ (sec : Nat) (s : State), s.hub.phase = .reduced → ∃ t, exec (.trainingFailure sec) s = .next t ∧
     t = { s with hub := { s.hub with phase := .failed, trainFailed := some sec } } ∧
     exec .sectionsTrained t = .next t) ∧
   (∀ (version : Nat) (s : State), s.hub.fwStored ≤ version →
     exec (.firmwareUpdate version true) s = .next { s with hub := { s.hub with fwStaged := some version } }) ∧
   ∀ (version : Nat) (signed : Bool) (s : State), signed = false ∨ version < s.hub.fwStored →
     exec (.firmwareUpdate version signed) s = .next s) ∧
  ((∀ (mw : Nat) (s : State) (f : Func), aget s.hub.funcs 0 = some f → f.evaddr ≠ 0 → s.hub.powerCap < mw →
     let r := { s with hub := { s.hub with evseq := s.hub.evseq + 1 } }
     ∃ t, exec (.capUnmet mw) s = .next t ∧
       t = r.writeMem (hostKey f.evaddr.toNat) (adminRecord 0x0100 ((s.hub.evseq + 1) % 2 ^ 32) mw) f.view
         [{ insts := hostInsts, view := f.view }]) ∧
   (∀ s : State, ∃ t x, s.act .powerCap = .next t ∧ 1600000 ≤ x ∧ x ≤ 3200000 ∧
     t = { s with hub := { s.hub with powerCap := x }, free := t.free }) ∧
   (∀ (mw : Nat) (s : State), mw ≤ s.hub.powerCap → exec (.capUnmet mw) s = .next s) ∧
   (∀ (coh core : Nat) (s : State) (c : Cohort), aget s.cohorts coh = some c → c.core = some core →
     s.hub.heat.getLsbD (secOfCore core) = true → exec (.matrixRetire coh) s = .next s) ∧
   ∀ (sec : Nat) (s : State), sec < 4 →
     ∃ t u, exec (.heatFluxHigh sec) s = .next t ∧ t = { s with hub := { s.hub with heat := t.hub.heat } } ∧
       exec (.heatFluxLow sec) s = .next u ∧ u = { s with hub := { s.hub with heat := u.hub.heat } } ∧
       ∀ n, n < 4 → t.hub.heat.getLsbD n = (s.hub.heat.getLsbD n || decide (n = sec)) ∧
         u.hub.heat.getLsbD n = (s.hub.heat.getLsbD n && decide (n ≠ sec)))

/-! ## The machine as a whole -/

/-- Right after reset the module is REDUCED, has no context, queue, launch or thread, one section in each partition,
zero in every byte and tag of memory and in every register whose Reset value is 0 (R8, R344, R345, Table 16-6). That
host memory and a peer's read as zero, and the values of what the spec gives no reset value, are the model's choice
(log entries 9 and 12). -/
def Obligations.ResetState : Prop :=
  let s := State.reset
  s.hub.phase = .reduced ∧ s.ctxs = [] ∧ s.queues = [] ∧ s.launches = [] ∧ s.cohorts = [] ∧ s.warps = [] ∧ s.threads = [] ∧
  s.walkers = [] ∧ s.bins = [] ∧ s.copies = [] ∧ s.issue = [] ∧ s.agenda = [] ∧ s.hist = [] ∧
  s.hub.commit = false ∧ s.hub.busy = false ∧ s.hub.shGo = false ∧
  (∀ a, sget s.mem a = 0) ∧ (∀ a, sget s.tags a = 0) ∧
  s.hub.pidReg = 0xE4#8 ∧ s.hub.badcfg = false ∧ (∀ n, n < 4 → s.pidOf n = n) ∧ s.hub.qReq = 0 ∧ s.hub.qDone = 0 ∧
  s.hub.qRefused = 0 ∧ s.hub.shCid = 0 ∧ s.hub.shAll = false ∧ s.hub.shSecs = 0 ∧ s.hub.shDone = false ∧ (∀ n, n < 4 → s.hub.netb[n]? = some (secBit n)) ∧
  (∀ n, n < 4 → s.hub.ilvNlog[n]? = some 0 ∧ s.hub.ilvFirst[n]? = some 0) ∧
  s.hub.frames = [] ∧ s.hub.frozenCores = [] ∧ s.hub.stopped = [] ∧
  aget s.hub.funcs 0 = some { isPf := true, pid := 0 } ∧ (∀ n, n < 16 → (s.port n).state = .training)

/-- The state after reset has the invariant. -/
def Obligations.ResetKeepsForm : Prop := State.reset.Inv

/-- Every step from every state whose memory, tags and tables of threads and cohorts are in their canonical form leaves
them in it. -/
def Obligations.StepKeepsForm : Prop := ∀ s t : State, s.Inv → step s = .next t → t.Inv

/-- Decoding and encoding agree: the words of every well-formed instruction of native code decode to it, whatever
follows a short one, and words that decode are the words of their instruction alone (R151, R157, R159). -/
def Obligations.DecodingAndEncodingAgree : Prop :=
  (∀ i : Instr, i.isEvent = false → i.native = true → i.wellFormed = true →
    if i.isLong then ∃ w0 w1, encode i = [w0, w1] ∧ decode {} w0 w1 = some i
    else ∃ w0, encode i = [w0] ∧ ∀ w1, decode {} w0 w1 = some i) ∧
  ∀ (w0 w1 : Dword) (i : Instr), decode {} w0 w1 = some i →
    i.isEvent = false ∧ i.native = true ∧ i.wellFormed = true ∧ encode i = if i.isLong then [w0, w1] else [w0]

/-- Words that the reference entries give decode to their instructions. -/
def Obligations.WordsOfTheReference : Prop :=
  let h : Hdr := { guard := 15, ginv := false, stall := 0, yld := false }
  decode {} 0x0690_1020_37F8_3CC1 0 = some (.st h .b4 (some .device) (.v 6) (.short 2) (.v 4)) ∧
  decode {} 0x0068_27F8_1810_3C0B 0 = some (.shl h .n32 (.v 2) (.v 3) (.imm 4)) ∧
  decode {} 0x8020_07F8_2018_3C0F 0x0C04 = some (.bfe h .s32 (.v 3) (.v 4) (.long 0x0C04)) ∧
  decode {} 0x0080_1810_0830_3C42 0 = some (.ffma h .f32 .rn false false (.v 6) (.v 1) (.reg (.v 2)) (.v 3)) ∧
  decode {} 0x0880_0028_2010_3C45 0 = some (.fsetp h .f32 .lt 2 (.v 4) (.reg (.v 5))) ∧
  decode {} 0x3C04_0090_0818_3C90 0 = some (.plop3 h 3 1 0x12 15 0x80) ∧
  decode {} 0x2698_0030_27F8_3CC7 0 = some (.red h true false .max (some .device) (.v 4) (.short 0) (.v 6)) ∧
  decode {} 0x0000_1830_27F8_3CCA 0 = some (.smap h 3 (.v 4) (.v 6)) ∧
  decode {} 0x0318_07FF_FFF8_3D05 0 = some (.backoffImm h 99) ∧
  decode {} 0x0018_0000_37F8_3D83 0 = some (.callx h 3 (.v 6)) ∧
  decode {} 0x0000_07F8_2010_3E0A 0 = some (.wmov h .toW (.v 2) (.v 4)) ∧
  decode {} 0x0428_1848_47F8_3E09 0 = some (.xred h .f32 .add .tree .device (.v 8) (.v 9) 3)

/-- What a step runs: the stop of a partition that has lost a write; else the oldest event of the agenda; else the next
thread of the bundles that are formed, whose op is the one that its expansion stands at or the one that the words at
its PC decode to, where the checks before it pass; else the end of the launches that faults of the bundle end; else one
of the internal events, in which what has been possible for longest is not passed over for ever. Around the op, its
thread is named as the one that executes, and the stores of an expansion that ends enter memory (R40, R51, R60, R131,
R132, R159). The agenda, the choice among internal events and its bound are the model's own (log entries 1, 2 and
37). -/
def Obligations.StepRunsDecoded : Prop :=
  (∀ s : State, s.lost ≠ [] → step s = .next s.stopLost) ∧
  (∀ (s : State) (i : Instr) (rest : List Instr), s.lost = [] → s.agenda = i :: rest →
    step s = exec i { s with agenda := rest }) ∧
  (∀ (s : State) (tid : Nat) (rest : List Nat) (e : Env) (s1 : State),
    let r := State.modThread { s with issue := rest } tid Thread.issued
    s.lost = [] → s.agenda = [] → s.issue = tid :: rest → r.envOf tid 0 = some e → e.th.status = .ready →
    e.c.core.isSome = true → e.c.saveNow = false → r.runs e.l = true → e.th.emuEntry = false →
    r.safeEntry tid = (none, s1) →
    let after := fun (o : Host.Outcome State Fault Refusal) => (match o with
      | .next t => .next ((State.modThread { t with cur := none } tid Thread.again).commitStores tid)
      | x => x : Host.Outcome State Fault Refusal)
    (∀ p s2 b s3,
      let s4 := ((r.keepDraws s1).keepDraws s2).keepDraws s3
      let w := lineWords b (slotOf e.th.pc)
      e.th.exp = none → fetchPlace e.who e.th.pc (r.keepDraws s1) = .ok p s2 → pteDesc p.pte = 0 →
      fetchNative e.who e.th.pc p ((r.keepDraws s1).keepDraws s2) = .ok b s3 →
      (decode {} w.1 w.2 = none → step s = .next (s4.takeFault e (w.1.getLsbD 63)
        { kind := .illegalInstruction, addr := e.th.pc.setWidth 64 })) ∧
      ∀ i, decode {} w.1 w.2 = some i →
      (∀ f, preCheck e i = some f → step s = .next (s4.takeFault e (Instr.isLong i) f)) ∧
      (preCheck e i = none → e.ctx.con.sbCheck = true →
        (∀ f, sbCheck e i = some f → step s = .next (s4.takeFault e (Instr.isLong i) f)) ∧
        (sbCheck e i = none → step s = after (exec i { s4 with cur := some { tid := tid, pers := 0 } }))) ∧
      (preCheck e i = none → e.ctx.con.sbCheck = false →
        step s = after (exec i { s4.unsettled tid i with cur := some { tid := tid, pers := 0 } }))) ∧
    ∀ t x i, aget r.threads tid = some t → t.exp = some x → x.ops[x.idx]? = some i → t.blocked i = false →
      step s = after (exec i { r.keepDraws s1 with cur := some { tid := tid, pers := x.pers } })) ∧
  (∀ s : State, s.lost = [] → s.agenda = [] → s.issue = [] → s.ending ≠ [] → step s = .next s.endDue) ∧
  ∀ s : State, s.lost = [] → s.agenda = [] → s.issue = [] → s.ending = [] →
    (∀ a, a ∈ s.queued ↔ a ∈ s.internal) ∧
    ∃ j a n, s.queued[j]? = some a ∧ (Config.patience ≤ s.skips → j = 0) ∧
      step s = State.act { s with
        free := n, backlog := s.queued.eraseIdx j, skips := if j = 0 then 0 else s.skips + 1 } a
end

