-- ==== Sys2Proof/Laws/Encode.lean ====
section
/-! SUPPORT. Laws of the encoder and the decoder: fields survive packing, and every code reads back. -/

namespace Sys2Proof

theorem getLsbD_append_hi {v w : Nat} (x : BitVec v) (y : BitVec w) (i : Nat) (h : w ≤ i) :
    (x ++ y).getLsbD i = x.getLsbD (i - w) := by
  rw [BitVec.getLsbD_append, if_neg (by omega)]

theorem getLsbD_append_lo {v w : Nat} (x : BitVec v) (y : BitVec w) (i : Nat) (h : i < w) :
    (x ++ y).getLsbD i = y.getLsbD i := by
  rw [BitVec.getLsbD_append, if_pos h]

/-! ## Words and MOD -/

/-- The fields of a word are those that it was packed from. -/
@[simp] theorem Fields.unpack_pack (f : Fields) : Fields.unpack f.pack = f := by
  obtain ⟨opc, ⟨g, gi, st, y⟩, d, a, b, c, m, l⟩ := f
  simp only [Fields.unpack, Fields.pack, Fields.mk.injEq, Hdr.mk.injEq]
  refine ⟨?_, ⟨?_, ?_, ?_, ?_⟩, ?_, ?_, ?_, ?_, ?_, ?_⟩ <;>
  (repeat (first
    | erw [BitVec.extractLsb'_append_eq_of_le (by decide)]
    | erw [getLsbD_append_hi _ _ _ (by decide)]))
  all_goals (try erw [BitVec.extractLsb'_append_eq_of_add_le (by decide)])
  all_goals (try erw [getLsbD_append_lo _ _ _ (by decide)])
  all_goals simp

section

variable (bi : Bool) (ty : BitVec 4) (rnd : BitVec 2) (opx : BitVec 5)

theorem aluMod_bi : (aluMod bi ty rnd opx).getLsbD 0 = bi := by
  unfold aluMod
  erw [getLsbD_append_lo _ _ _ (by decide)]
  simp

theorem aluMod_bi' : (aluMod bi ty rnd opx)[0] = bi := aluMod_bi bi ty rnd opx

theorem aluMod_ty : (aluMod bi ty rnd opx).extractLsb' 1 4 = ty := by
  unfold aluMod
  erw [BitVec.extractLsb'_append_eq_of_le (by decide), BitVec.extractLsb'_append_eq_of_add_le (by decide)]
  simp

theorem aluMod_rnd : (aluMod bi ty rnd opx).extractLsb' 5 2 = rnd := by
  unfold aluMod
  erw [BitVec.extractLsb'_append_eq_of_le (by decide), BitVec.extractLsb'_append_eq_of_le (by decide),
    BitVec.extractLsb'_append_eq_of_add_le (by decide)]
  simp

theorem aluMod_opx : (aluMod bi ty rnd opx).extractLsb' 7 5 = opx := by
  unfold aluMod
  erw [BitVec.extractLsb'_append_eq_of_le (by decide), BitVec.extractLsb'_append_eq_of_le (by decide),
    BitVec.extractLsb'_append_eq_of_le (by decide)]
  simp

end

section

variable (size : BitVec 3) (sgn : Bool) (scope : BitVec 3) (ord : BitVec 2) (opx : BitVec 3)

theorem memMod_size : (memMod size sgn scope ord opx).extractLsb' 0 3 = size := by
  unfold memMod
  erw [BitVec.extractLsb'_append_eq_of_add_le (by decide)]
  simp

theorem memMod_sgn : (memMod size sgn scope ord opx).getLsbD 3 = sgn := by
  unfold memMod
  erw [getLsbD_append_hi _ _ _ (by decide), getLsbD_append_lo _ _ _ (by decide)]
  simp

theorem memMod_sgn' : (memMod size sgn scope ord opx)[3] = sgn := memMod_sgn size sgn scope ord opx

theorem memMod_scope : (memMod size sgn scope ord opx).extractLsb' 4 3 = scope := by
  unfold memMod
  erw [BitVec.extractLsb'_append_eq_of_le (by decide), BitVec.extractLsb'_append_eq_of_le (by decide),
    BitVec.extractLsb'_append_eq_of_add_le (by decide)]
  simp

theorem memMod_ord : (memMod size sgn scope ord opx).extractLsb' 7 2 = ord := by
  unfold memMod
  erw [BitVec.extractLsb'_append_eq_of_le (by decide), BitVec.extractLsb'_append_eq_of_le (by decide),
    BitVec.extractLsb'_append_eq_of_le (by decide), BitVec.extractLsb'_append_eq_of_add_le (by decide)]
  simp

theorem memMod_opx : (memMod size sgn scope ord opx).extractLsb' 9 3 = opx := by
  unfold memMod
  erw [BitVec.extractLsb'_append_eq_of_le (by decide), BitVec.extractLsb'_append_eq_of_le (by decide),
    BitVec.extractLsb'_append_eq_of_le (by decide), BitVec.extractLsb'_append_eq_of_le (by decide)]
  simp

end

/-! ## Codes -/

@[simp] theorem IntTy.ofCode_code (x : IntTy) : IntTy.ofCode x.code = x := by cases x <;> rfl
@[simp] theorem NumTy.ofCode_code (x : NumTy) : NumTy.ofCode x.code = x := by cases x <;> rfl
@[simp] theorem FTy.ofCode_code (x : FTy) : FTy.ofCode x.code = x := by cases x <;> rfl
@[simp] theorem Rnd.ofCode_code (x : Rnd) : Rnd.ofCode x.code = x := by cases x <;> rfl
@[simp] theorem Scope.ofCode_code (x : Scope) : Scope.ofCode x.code = x := by cases x <;> rfl
@[simp] theorem ICmp.ofCode_code (x : ICmp) : ICmp.ofCode x.code = x := by cases x <;> rfl
@[simp] theorem FCmp.ofCode_code (x : FCmp) : FCmp.ofCode x.code = x := by cases x <;> rfl
@[simp] theorem PackEl.ofCode_code (x : PackEl) : PackEl.ofCode x.code = x := by cases x <;> rfl
@[simp] theorem SfnFn.ofCode_code (x : SfnFn) : SfnFn.ofCode x.code = x := by cases x <;> rfl
@[simp] theorem QTy.ofCode_code (x : QTy) : QTy.ofCode x.code = x := by cases x <;> rfl
@[simp] theorem ShflMode.ofCode_code (x : ShflMode) : ShflMode.ofCode x.code = x := by cases x <;> rfl
@[simp] theorem RedwOp.ofCode_code (x : RedwOp) : RedwOp.ofCode x.code = x := by cases x <;> rfl
@[simp] theorem RedwTy.ofCode_code (x : RedwTy) : RedwTy.ofCode x.code = x := by cases x <;> rfl
@[simp] theorem MSize.ofCode_code (x : MSize) : MSize.ofCode x.code = x := by cases x <;> rfl
@[simp] theorem TTy.ofCode_code (x : TTy) : TTy.ofCode x.code.1 x.code.2 = x := by cases x <;> rfl
@[simp] theorem AtomOp.ofCode_code (x : AtomOp) : AtomOp.ofCode x.code = x := by cases x <;> rfl
@[simp] theorem AtomOrd.ofCode_code (x : AtomOrd) : AtomOrd.ofCode x.code = x := by cases x <;> rfl
@[simp] theorem AwaitCmp.ofCode_code (x : AwaitCmp) : AwaitCmp.ofCode x.code = x := by cases x <;> rfl
@[simp] theorem CtrClass.ofCode_code (x : CtrClass) : CtrClass.ofCode x.code = x := by cases x <;> rfl
@[simp] theorem WaluOp.ofCode_code (x : WaluOp) : WaluOp.ofCode x.code = x := by cases x <;> rfl
@[simp] theorem WmovDir.ofCode_code (x : WmovDir) : WmovDir.ofCode x.code = x := by cases x <;> rfl
@[simp] theorem XredOp.ofCode_code (x : XredOp) : XredOp.ofCode x.code = x := by cases x <;> rfl
@[simp] theorem XredTy.ofCode_code (x : XredTy) : XredTy.ofCode x.code = x := by cases x <;> rfl
@[simp] theorem XredMode.ofCode_code (x : XredMode) : XredMode.ofCode x.code = x := by cases x <;> rfl

@[simp] theorem w64Code_eq (w : Bool) : decide (w64Code w = 7#4) = w := by cases w <;> rfl
@[simp] theorem s64Code_eq (w : Bool) : decide (s64Code w = 3#4) = w := by cases w <;> rfl
@[simp] theorem packCode_eq (b : Bool) : decide (packCode b = 10#4) = b := by cases b <;> rfl

@[simp] theorem ordParse_code (s : Option Scope) : ordParse (ordCode s) (scopeCode s) = s := by
  cases s with
  | none => rfl
  | some s => cases s <;> rfl

/-! ## Operands -/

theorem Reg.ofCode_code (r : Reg) (h : r.native = true) : Reg.ofCode false r.code = r := by
  cases r with
  | v n => rfl
  | k n => cases h

theorem Reg.code_ne (r : Reg) (h : r.native = true) (n : ¬r = .v 255#8) : ¬r.code = 255#8 := by
  cases r with
  | v m => exact fun e => n (congrArg Reg.v e)
  | k m => cases h

/-- A source B reads back: in the ops whose SC carries its immediate, and where it is no immediate. -/
theorem SrcB.parse_alu (b : SrcB) (h : b.native = true) : SrcB.parse false b.bi b.isLong b.sb b.sc b.w1 = b := by
  cases b with
  | reg r => exact congrArg SrcB.reg (Reg.ofCode_code r h)
  | imm v => rfl
  | long v => rfl

theorem SrcB.parse_noImm (b : SrcB) (c : BitVec 8) (w : Nat) (h : b.native = true) (k : b.ok false w = true) :
    SrcB.parse false b.bi b.isLong b.sb c b.w1 = b := by
  cases b with
  | reg r => exact congrArg SrcB.reg (Reg.ofCode_code r h)
  | imm v => cases k
  | long v => rfl

@[simp] theorem MemOff.parse_code (o : MemOff) : MemOff.parse o.isLong o.sc o.w1 = o := by
  cases o with
  | short v => rfl
  | long v => simp [MemOff.parse, MemOff.isLong, MemOff.w1]

/-! ## Bits of small fields -/

theorem bit0_4 (a : Bool) : (0#4 ++ BitVec.ofBool a)[0] = a := by cases a <;> decide
theorem bit0_3 (a b : Bool) : (0#3 ++ BitVec.ofBool a ++ BitVec.ofBool b)[0] = b := by cases a <;> cases b <;> decide
theorem bit1_3 (a b : Bool) : (0#3 ++ BitVec.ofBool a ++ BitVec.ofBool b)[1] = a := by cases a <;> cases b <;> decide
theorem bit0_2 (a b c : Bool) : (0#2 ++ BitVec.ofBool a ++ BitVec.ofBool b ++ BitVec.ofBool c)[0] = c := by
  cases a <;> cases b <;> cases c <;> decide
theorem bit1_2 (a b c : Bool) : (0#2 ++ BitVec.ofBool a ++ BitVec.ofBool b ++ BitVec.ofBool c)[1] = b := by
  cases a <;> cases b <;> cases c <;> decide
theorem bit2_2 (a b c : Bool) : (0#2 ++ BitVec.ofBool a ++ BitVec.ofBool b ++ BitVec.ofBool c)[2] = a := by
  cases a <;> cases b <;> cases c <;> decide
theorem bit0_w3 (a : Bool) : (0#2 ++ BitVec.ofBool a)[0] = a := by cases a <;> decide
theorem bit0_w12 (a : Bool) : (0#11 ++ BitVec.ofBool a)[0] = a := by cases a <;> decide

theorem low6_8 (x : BitVec 6) : (0#2 ++ x).extractLsb' 0 6 = x := by
  rw [BitVec.extractLsb'_append_eq_of_add_le (by decide)]; simp
theorem low3_8 (x : BitVec 3) : (0#5 ++ x).extractLsb' 0 3 = x := by
  rw [BitVec.extractLsb'_append_eq_of_add_le (by decide)]; simp
theorem low5_8 (x : BitVec 5) : (0#3 ++ x).extractLsb' 0 5 = x := by
  rw [BitVec.extractLsb'_append_eq_of_add_le (by decide)]; simp
theorem low2_12 (x : BitVec 2) : (0#10 ++ x).extractLsb' 0 2 = x := by
  rw [BitVec.extractLsb'_append_eq_of_add_le (by decide)]; simp
theorem low3_12 (x : BitVec 3) : (0#9 ++ x).extractLsb' 0 3 = x := by
  rw [BitVec.extractLsb'_append_eq_of_add_le (by decide)]; simp
theorem low6_12 (x : BitVec 6) : (0#6 ++ x).extractLsb' 0 6 = x := by
  rw [BitVec.extractLsb'_append_eq_of_add_le (by decide)]; simp
theorem low8_12 (x : BitVec 8) : (0#4 ++ x).extractLsb' 0 8 = x := by
  rw [BitVec.extractLsb'_append_eq_of_add_le (by decide)]; simp
theorem low4_12 (x : BitVec 4) : (0#8 ++ x).extractLsb' 0 4 = x := by
  rw [BitVec.extractLsb'_append_eq_of_add_le (by decide)]; simp

/-! ## OPX and MOD of single instructions -/

section

variable (e : BitVec 2) (a b : Bool)

theorem packOpx_bit0 : (0#1 ++ e ++ BitVec.ofBool a ++ BitVec.ofBool b)[0] = b := by revert e a b; decide
theorem packOpx_bit1 : (0#1 ++ e ++ BitVec.ofBool a ++ BitVec.ofBool b)[1] = a := by revert e a b; decide
theorem packOpx_el : (0#1 ++ e ++ BitVec.ofBool a ++ BitVec.ofBool b).extractLsb' 2 2 = e := by revert e a b; decide
theorem packOpx0_bit0 : (0#1 ++ e ++ 0#1 ++ BitVec.ofBool b)[0] = b := by revert e b; decide
theorem packOpx0_el : (0#1 ++ e ++ 0#1 ++ BitVec.ofBool b).extractLsb' 2 2 = e := by revert e b; decide

end

theorem redwOpx_op (s : Bool) (o : BitVec 3) : (0#1 ++ BitVec.ofBool s ++ o).extractLsb' 0 3 = o := by revert s o; decide
theorem redwOpx_sat (s : Bool) (o : BitVec 3) : (0#1 ++ BitVec.ofBool s ++ o)[3] = s := by revert s o; decide
theorem cvtOpx_ty (s : Bool) (t : BitVec 4) : (BitVec.ofBool s ++ t).extractLsb' 0 4 = t := by revert s t; decide
theorem cvtOpx_sat (s : Bool) (t : BitVec 4) : (BitVec.ofBool s ++ t)[4] = s := by revert s t; decide
theorem tOpx_rnd (r : Rnd) (h : Bool) : (tOpx r h).extractLsb' 1 2 = r.code := by cases r <;> cases h <;> decide
theorem tOpx_hi (r : Rnd) (h : Bool) : (tOpx r h)[0] = h := by cases r <;> cases h <;> decide
theorem barMod_grp (s : BitVec 3) (a : Bool) (g : BitVec 1) : (0#7 ++ s ++ BitVec.ofBool a ++ g)[0] = g[0] := by
  revert s a g; decide
theorem barMod_arv (s : BitVec 3) (a : Bool) (g : BitVec 1) : (0#7 ++ s ++ BitVec.ofBool a ++ g)[1] = a := by
  revert s a g; decide
theorem barMod_scope (s : BitVec 3) (a : Bool) (g : BitVec 1) :
    (0#7 ++ s ++ BitVec.ofBool a ++ g).extractLsb' 2 3 = s := by
  revert s a g; decide

section

variable (s c : BitVec 3) (w l : Bool)

theorem awaitMod_loc : (0#4 ++ s ++ c ++ BitVec.ofBool w ++ BitVec.ofBool l)[0] = l := by revert s c w l; decide
theorem awaitMod_w64 : (0#4 ++ s ++ c ++ BitVec.ofBool w ++ BitVec.ofBool l)[1] = w := by revert s c w l; decide
theorem awaitMod_cmp : (0#4 ++ s ++ c ++ BitVec.ofBool w ++ BitVec.ofBool l).extractLsb' 2 3 = c := by
  revert s c w l; decide
theorem awaitMod_scope : (0#4 ++ s ++ c ++ BitVec.ofBool w ++ BitVec.ofBool l).extractLsb' 5 3 = s := by
  revert s c w l; decide

end

theorem sysMod_lo (l : Bool) (x : BitVec 4) : (0#7 ++ BitVec.ofBool l ++ x)[4] = l := by revert l x; decide
theorem sysMod_hi (l : Bool) (x : BitVec 4) : (0#7 ++ BitVec.ofBool l ++ x).extractLsb' 0 4 = x := by revert l x; decide
theorem waluMod_op (o : BitVec 4) : (1#8 ++ o).extractLsb' 0 4 = o := by revert o; decide
theorem waluMod_imm (o : BitVec 4) : (1#8 ++ o)[4] = true := by revert o; decide
theorem waluMod_reg (o : BitVec 4) : (0#8 ++ o)[4] = false := by revert o; decide

section

variable (m : XredMode) (t : XredTy) (o : XredOp) (s : Scope)

theorem xredMod_scope : (0#1 ++ m.code ++ t.code ++ o.code ++ s.code).extractLsb' 0 3 = s.code := by
  cases m <;> cases t <;> cases o <;> cases s <;> rfl
theorem xredMod_op : (0#1 ++ m.code ++ t.code ++ o.code ++ s.code).extractLsb' 3 3 = o.code := by
  cases m <;> cases t <;> cases o <;> cases s <;> rfl
theorem xredMod_ty : (0#1 ++ m.code ++ t.code ++ o.code ++ s.code).extractLsb' 6 3 = t.code := by
  cases m <;> cases t <;> cases o <;> cases s <;> rfl
theorem xredMod_mode : (0#1 ++ m.code ++ t.code ++ o.code ++ s.code).extractLsb' 9 2 = m.code := by
  cases m <;> cases t <;> cases o <;> cases s <;> rfl

end

/-- The 24-bit offset of a branch is put together from its three fields. -/
theorem branchOff (x : BitVec 24) : x.extractLsb' 16 8 ++ x.extractLsb' 8 8 ++ x.extractLsb' 0 8 = x := by
  apply BitVec.eq_of_toNat_eq
  simp only [BitVec.toNat_append, BitVec.extractLsb'_toNat]
  rw [← Nat.shiftLeft_add_eq_or_of_lt (Nat.mod_lt _ (by decide)), ← Nat.shiftLeft_add_eq_or_of_lt (Nat.mod_lt _ (by decide))]
  have := x.isLt
  simp only [Nat.shiftLeft_eq, Nat.shiftRight_eq_div_pow]
  omega

theorem srnField (x : BitVec 12) : x.extractLsb' 8 4 ++ x.extractLsb' 0 8 = x := by
  apply BitVec.eq_of_toNat_eq
  simp only [BitVec.toNat_append, BitVec.extractLsb'_toNat]
  rw [← Nat.shiftLeft_add_eq_or_of_lt (Nat.mod_lt _ (by decide))]
  have := x.isLt
  simp only [Nat.shiftLeft_eq, Nat.shiftRight_eq_div_pow]
  omega

end Sys2Proof
end

