-- ==== Sys2Proof/Laws/Maps.lean ====
section
/-! SUPPORT. Laws of the maps that State is made of: what a lookup answers after a write, and that every operation keeps
the canonical form. -/

namespace Sys2Proof.Machine

/-! ## Values under keys -/

@[simp] theorem sget_nil {n : Nat} (k : Nat) : sget ([] : Sparse n) k = 0 := rfl

theorem rising_mono {α : Type} {lo hi : Nat} {m : List (Nat × α)} (h : lo ≤ hi) (r : rising hi m = true) :
    rising lo m = true := by
  cases m with
  | nil => rfl
  | cons e t => simp only [rising, Bool.and_eq_true, decide_eq_true_eq] at r ⊢; exact ⟨by omega, r.2⟩

/-- A key below every listed one reads 0. -/
theorem sget_below {n : Nat} {m : Sparse n} {lo k : Nat} (r : rising lo m = true) (h : k < lo) : sget m k = 0 := by
  induction m generalizing lo with
  | nil => rfl
  | cons e t ih =>
    simp only [rising, Bool.and_eq_true, decide_eq_true_eq] at r
    rw [sget, if_neg (by omega)]
    exact ih r.2 (by omega)

theorem sget_sput {n : Nat} (m : Sparse n) (j k : Nat) (v : BitVec n) :
    sget (sput m k v) j = if j = k then v else sget m j := by
  induction m with
  | nil => by_cases h : j = k <;> simp [sput, sget, h, eq_comm]
  | cons e t ih =>
    obtain ⟨i, u⟩ := e
    rw [sput]
    split
    · by_cases h : j = k <;> simp [sget, h, eq_comm]
    · split
      · next h2 =>
        subst h2
        by_cases h : j = k <;> simp [sget, h, eq_comm]
      · next h2 =>
        rw [sget, ih, sget]
        by_cases h : j = k
        · simp [h, Ne.symm h2]
        · simp [h]

theorem sget_drop {n : Nat} (m : Sparse n) (j k : Nat) :
    sget (m.filter fun e => e.1 != k) j = if j = k then 0 else sget m j := by
  induction m with
  | nil => simp
  | cons e t ih =>
    obtain ⟨i, u⟩ := e
    by_cases h : i = k
    · subst h
      by_cases hj : j = i <;> simp_all [sget, eq_comm]
    · rw [List.filter_cons_of_pos (by simpa using h), sget, ih, sget]
      by_cases hj : j = k
      · subst hj; simp [h]
      · simp [hj]

/-- A read after a write. -/
theorem sget_sset {n : Nat} (m : Sparse n) (j k : Nat) (v : BitVec n) :
    sget (sset m k v) j = if j = k then v else sget m j := by
  rw [sset]
  split
  · next h => rw [sget_drop, h]
  · exact sget_sput m j k v

@[simp] theorem sget_sset_same {n : Nat} (m : Sparse n) (k : Nat) (v : BitVec n) : sget (sset m k v) k = v := by
  rw [sget_sset, if_pos rfl]

theorem sget_sset_other {n : Nat} (m : Sparse n) {j k : Nat} (v : BitVec n) (h : j ≠ k) :
    sget (sset m k v) j = sget m j := by
  rw [sget_sset, if_neg h]

/-! ## The canonical form -/

theorem rising_filter {α : Type} {m : List (Nat × α)} {lo : Nat} (p : Nat × α → Bool) (r : rising lo m = true) :
    rising lo (m.filter p) = true := by
  induction m generalizing lo with
  | nil => rfl
  | cons e t ih =>
    simp only [rising, Bool.and_eq_true, decide_eq_true_eq] at r
    by_cases h : p e = true
    · simp [List.filter, h, rising, r.1, ih r.2]
    · simpa [List.filter, h] using rising_mono (by omega) (ih r.2)

theorem rising_sput {n : Nat} {m : Sparse n} {lo k : Nat} (v : BitVec n) (r : rising lo m = true) (h : lo ≤ k) :
    rising lo (sput m k v) = true := by
  induction m generalizing lo with
  | nil => simp [sput, rising, h]
  | cons e t ih =>
    simp only [rising, Bool.and_eq_true, decide_eq_true_eq] at r
    by_cases h1 : k < e.1
    · simp [sput, rising, h1, r.2, h]
    · by_cases h2 : k = e.1
      · simp [sput, rising, h2, r.1, r.2]
      · simp [sput, rising, h1, h2, r.1, ih r.2 (by omega)]

theorem rising_sset {n : Nat} {m : Sparse n} {lo k : Nat} (v : BitVec n) (r : rising lo m = true) (h : lo ≤ k) :
    rising lo (sset m k v) = true := by
  rw [sset]
  split
  · exact rising_filter _ r
  · exact rising_sput v r h

/-- An entry after a write is one before or the one written. -/
theorem mem_sput {n : Nat} {m : Sparse n} {k : Nat} {v : BitVec n} {e : Nat × BitVec n} (h : e ∈ sput m k v) :
    e ∈ m ∨ e = (k, v) := by
  induction m with
  | nil => exact .inr (by simpa [sput] using h)
  | cons f t ih =>
    rw [sput] at h
    split_ifs at h <;> simp only [List.mem_cons] at h ⊢ <;> tauto

theorem mem_sset {n : Nat} {m : Sparse n} {k : Nat} {v : BitVec n} {e : Nat × BitVec n} (h : e ∈ sset m k v) :
    e ∈ m ∨ (e = (k, v) ∧ v ≠ 0) := by
  rw [sset] at h
  split at h
  · exact .inl (List.mem_of_mem_filter h)
  · next hv =>
    rcases mem_sput h with h | h
    · exact .inl h
    · exact .inr ⟨h, hv⟩

theorem nonzero_sset {n : Nat} {m : Sparse n} (k : Nat) (v : BitVec n) (r : (m.all fun e => e.2 != 0) = true) :
    ((sset m k v).all fun e => e.2 != 0) = true := by
  simp only [List.all_eq_true, bne_iff_ne] at r ⊢
  intro e he
  rcases mem_sset he with h | h
  · exact r e h
  · rw [h.1]; exact h.2

/-- A write keeps the canonical form. -/
theorem wf_sset {n : Nat} {m : Sparse n} (k : Nat) (v : BitVec n) (h : m.wf = true) : Sparse.wf (sset m k v) = true := by
  simp only [Sparse.wf, Bool.and_eq_true] at h ⊢
  exact ⟨rising_sset v h.1 (Nat.zero_le k), nonzero_sset k v h.2⟩

theorem wf_rising {n : Nat} {m : Sparse n} (h : m.wf = true) : rising 0 m = true := by
  simp only [Sparse.wf, Bool.and_eq_true] at h
  exact h.1

/-- A write of bytes keeps the canonical form. -/
theorem wf_swrite {m : Sparse 8} (a : Nat) (bs : List Byte) (h : m.wf = true) : Sparse.wf (swrite m a bs) = true := by
  induction bs generalizing m a with
  | nil => exact h
  | cons b t ih => exact ih (a + 1) (wf_sset a b h)

/-- Removing entries keeps the canonical form. -/
theorem wf_filter {n : Nat} {m : Sparse n} (p : Nat × BitVec n → Bool) (h : m.wf = true) :
    Sparse.wf (m.filter p) = true := by
  simp only [Sparse.wf, Bool.and_eq_true] at h ⊢
  refine ⟨rising_filter p h.1, ?_⟩
  have := h.2
  simp only [List.all_eq_true, List.mem_filter] at this ⊢
  exact fun e he => this e he.1

/-- Equal reads and canonical forms make equal maps. -/
theorem sparse_ext {n : Nat} {a b : Sparse n} (ha : a.wf = true) (hb : b.wf = true)
    (h : ∀ k, sget a k = sget b k) : a = b := by
  simp only [Sparse.wf, Bool.and_eq_true] at ha hb
  have aux : ∀ (lo : Nat) (a b : Sparse n), rising lo a = true → (a.all fun e => e.2 != 0) = true →
      rising lo b = true → (b.all fun e => e.2 != 0) = true → (∀ k, sget a k = sget b k) → a = b := by
    intro lo a
    induction a generalizing lo with
    | nil =>
      intro b _ _ rb nb h
      cases b with
      | nil => rfl
      | cons f u =>
        have := h f.1
        simp [sget] at this nb
        exact absurd this.symm nb.1
    | cons e t ih =>
      intro b ra na rb nb h
      cases b with
      | nil =>
        have := h e.1
        simp [sget] at this na
        exact absurd this na.1
      | cons f u =>
        simp only [rising, Bool.and_eq_true, decide_eq_true_eq] at ra rb
        simp only [List.all_cons, Bool.and_eq_true, bne_iff_ne] at na nb
        have he := h e.1
        have hf := h f.1
        have hef : e.1 = f.1 := by
          rcases Nat.lt_trichotomy e.1 f.1 with hl | hl | hl
          · rw [sget, if_pos rfl, sget, if_neg (by omega), sget_below rb.2 (by omega)] at he
            exact absurd he na.1
          · exact hl
          · rw [sget, if_neg (by omega), sget_below ra.2 (by omega), sget, if_pos rfl] at hf
            exact absurd hf.symm nb.1
        have hv : e.2 = f.2 := by
          rw [sget, if_pos rfl, sget, if_pos hef.symm] at he; exact he
        have ht : t = u := by
          refine ih (e.1 + 1) u ra.2 na.2 (by rw [hef]; exact rb.2) nb.2 fun k => ?_
          by_cases hk : k < e.1 + 1
          · rw [sget_below ra.2 hk, sget_below rb.2 (by omega)]
          · have := h k
            rwa [sget, if_neg (by omega), sget, if_neg (by omega)] at this
        cases e; cases f; simp_all
  exact aux 0 a b ha.1 ha.2 hb.1 hb.2 h

/-! ## Bytes -/

/-- An address outside the bytes written reads as before. -/
theorem sget_swrite_out {m : Sparse 8} {a k : Nat} {bs : List Byte}
    (o : k < a ∨ a + bs.length ≤ k) : sget (swrite m a bs) k = sget m k := by
  induction bs generalizing m a with
  | nil => rfl
  | cons b t ih =>
    simp only [List.length_cons] at o
    rw [swrite, ih (by omega), sget_sset_other m b (by omega)]

/-- An address among the bytes written reads the byte written there. -/
theorem sget_swrite_in {m : Sparse 8} {a i : Nat} {bs : List Byte} (hi : i < bs.length) :
    sget (swrite m a bs) (a + i) = bs[i] := by
  induction bs generalizing m a i with
  | nil => exact absurd hi (Nat.not_lt_zero i)
  | cons b t ih =>
    cases i with
    | zero => rw [swrite, sget_swrite_out (by omega)]; exact sget_sset_same m a b
    | succ i =>
      have := ih (m := sset m a b) (a := a + 1) (i := i) (by simpa using hi)
      rw [swrite, show a + (i + 1) = a + 1 + i by omega, this]
      rfl

@[simp] theorem sread_length (m : Sparse 8) (a n : Nat) : (sread m a n).length = n := by
  induction n generalizing a with
  | zero => rfl
  | succ n ih => simp [sread, ih]

/-- A read of the bytes written gives them. -/
theorem sread_swrite {m : Sparse 8} {a : Nat} {bs : List Byte} :
    sread (swrite m a bs) a bs.length = bs := by
  have aux : ∀ (n i : Nat), i + n = bs.length → sread (swrite m a bs) (a + i) n = bs.drop i := by
    intro n
    induction n with
    | zero => intro i hi; simp [sread, List.drop_eq_nil_of_le (show bs.length ≤ i by omega)]
    | succ n ih =>
      intro i hi
      rw [sread, show a + i + 1 = a + (i + 1) by omega, ih (i + 1) (by omega), sget_swrite_in (by omega)]
      exact (List.drop_eq_getElem_cons (show i < bs.length by omega)).symm
  simpa using aux bs.length 0 (by omega)

theorem sread_congr {m m' : Sparse 8} {a n : Nat} (h : ∀ k, a ≤ k → k < a + n → sget m k = sget m' k) :
    sread m a n = sread m' a n := by
  induction n generalizing a with
  | zero => rfl
  | succ n ih => rw [sread, sread, h a (by omega) (by omega), ih fun k h1 h2 => h k (by omega) (by omega)]

/-! ## Records under keys -/

@[simp] theorem aget_nil {α : Type} (k : Nat) : aget ([] : Assoc α) k = none := rfl

theorem aget_below {α : Type} {m : Assoc α} {lo k : Nat} (r : rising lo m = true) (h : k < lo) : aget m k = none := by
  induction m generalizing lo with
  | nil => rfl
  | cons e t ih =>
    simp only [rising, Bool.and_eq_true, decide_eq_true_eq] at r
    rw [aget, if_neg (by omega)]
    exact ih r.2 (by omega)

@[simp] theorem aget_aset_same {α : Type} (m : Assoc α) (k : Nat) (v : α) : aget (aset m k v) k = some v := by
  induction m with
  | nil => simp [aset, aget]
  | cons e t ih =>
    by_cases h1 : k < e.1
    · simp [aset, aget, h1]
    · by_cases h2 : k = e.1
      · simp [aset, aget, h2]
      · simp [aset, aget, h1, h2, Ne.symm h2, ih]

theorem aget_aset_other {α : Type} (m : Assoc α) {j k : Nat} (v : α) (h : j ≠ k) : aget (aset m k v) j = aget m j := by
  induction m with
  | nil => simp [aset, aget, Ne.symm h]
  | cons e t ih =>
    by_cases h1 : k < e.1
    · simp [aset, aget, h1, Ne.symm h]
    · by_cases h2 : k = e.1
      · subst h2; simp [aset, aget, Ne.symm h]
      · obtain ⟨i, u⟩ := e
        rw [aset, if_neg h1, if_neg h2, aget, aget, ih]

theorem aget_amod_same {α : Type} (m : Assoc α) (k : Nat) (f : α → α) : aget (amod m k f) k = (aget m k).map f := by
  induction m with
  | nil => rfl
  | cons e t ih =>
    simp only [amod, List.map_cons] at ih ⊢
    by_cases h : e.1 = k
    · simp [aget, h]
    · simp [aget, h, ih]

theorem aget_amod_other {α : Type} (m : Assoc α) {j k : Nat} (f : α → α) (h : j ≠ k) :
    aget (amod m k f) j = aget m j := by
  induction m with
  | nil => rfl
  | cons e t ih =>
    simp only [amod, List.map_cons] at ih ⊢
    by_cases h2 : e.1 = k
    · simp [aget, h2, Ne.symm h, ih]
    · by_cases h3 : e.1 = j <;> simp_all [aget]

theorem rising_aset {α : Type} {m : Assoc α} {lo k : Nat} (v : α) (r : rising lo m = true) (h : lo ≤ k) :
    rising lo (aset m k v) = true := by
  induction m generalizing lo with
  | nil => simp [aset, rising, h]
  | cons e t ih =>
    simp only [rising, Bool.and_eq_true, decide_eq_true_eq] at r
    by_cases h1 : k < e.1
    · simp [aset, rising, h1, r.2, h]
    · by_cases h2 : k = e.1
      · simp [aset, rising, h2, r.1, r.2]
      · simp [aset, rising, h1, h2, r.1, ih r.2 (by omega)]

end Sys2Proof.Machine
end

