-- ==== Sys2Proof/Laws/State.lean ====
section
/-! SUPPORT. Laws of State and Thread as records: for each update, what each field holds after it. -/

namespace Sys2Proof.Machine

/-! ## Updates of State -/

@[simp] theorem State.setThread_hub (s : State) (tid : Nat) (t : Thread) : (s.setThread tid t).hub = s.hub := rfl
@[simp] theorem State.setThread_mem (s : State) (tid : Nat) (t : Thread) : (s.setThread tid t).mem = s.mem := rfl
@[simp] theorem State.setThread_tags (s : State) (tid : Nat) (t : Thread) : (s.setThread tid t).tags = s.tags := rfl
@[simp] theorem State.setThread_seen (s : State) (tid : Nat) (t : Thread) : (s.setThread tid t).seen = s.seen := rfl
@[simp] theorem State.setThread_flushes (s : State) (tid : Nat) (t : Thread) : (s.setThread tid t).flushes = s.flushes := rfl
@[simp] theorem State.setThread_hist (s : State) (tid : Nat) (t : Thread) : (s.setThread tid t).hist = s.hist := rfl
@[simp] theorem State.setThread_fences (s : State) (tid : Nat) (t : Thread) : (s.setThread tid t).fences = s.fences := rfl
@[simp] theorem State.setThread_ctxs (s : State) (tid : Nat) (t : Thread) : (s.setThread tid t).ctxs = s.ctxs := rfl
@[simp] theorem State.setThread_queues (s : State) (tid : Nat) (t : Thread) : (s.setThread tid t).queues = s.queues := rfl
@[simp] theorem State.setThread_launches (s : State) (tid : Nat) (t : Thread) : (s.setThread tid t).launches = s.launches := rfl
@[simp] theorem State.setThread_walkers (s : State) (tid : Nat) (t : Thread) : (s.setThread tid t).walkers = s.walkers := rfl
@[simp] theorem State.setThread_fetches (s : State) (tid : Nat) (t : Thread) : (s.setThread tid t).fetches = s.fetches := rfl
@[simp] theorem State.setThread_works (s : State) (tid : Nat) (t : Thread) : (s.setThread tid t).works = s.works := rfl
@[simp] theorem State.setThread_bins (s : State) (tid : Nat) (t : Thread) : (s.setThread tid t).bins = s.bins := rfl
@[simp] theorem State.setThread_cohorts (s : State) (tid : Nat) (t : Thread) : (s.setThread tid t).cohorts = s.cohorts := rfl
@[simp] theorem State.setThread_warps (s : State) (tid : Nat) (t : Thread) : (s.setThread tid t).warps = s.warps := rfl
@[simp] theorem State.setThread_threads (s : State) (tid : Nat) (t : Thread) : (s.setThread tid t).threads = aset s.threads tid t := rfl
@[simp] theorem State.setThread_copies (s : State) (tid : Nat) (t : Thread) : (s.setThread tid t).copies = s.copies := rfl
@[simp] theorem State.setThread_colls (s : State) (tid : Nat) (t : Thread) : (s.setThread tid t).colls = s.colls := rfl
@[simp] theorem State.setThread_devq (s : State) (tid : Nat) (t : Thread) : (s.setThread tid t).devq = s.devq := rfl
@[simp] theorem State.setThread_devTurn (s : State) (tid : Nat) (t : Thread) : (s.setThread tid t).devTurn = s.devTurn := rfl
@[simp] theorem State.setThread_rotation (s : State) (tid : Nat) (t : Thread) : (s.setThread tid t).rotation = s.rotation := rfl
@[simp] theorem State.setThread_agenda (s : State) (tid : Nat) (t : Thread) : (s.setThread tid t).agenda = s.agenda := rfl
@[simp] theorem State.setThread_issue (s : State) (tid : Nat) (t : Thread) : (s.setThread tid t).issue = s.issue := rfl
@[simp] theorem State.setThread_ending (s : State) (tid : Nat) (t : Thread) : (s.setThread tid t).ending = s.ending := rfl
@[simp] theorem State.setThread_backlog (s : State) (tid : Nat) (t : Thread) : (s.setThread tid t).backlog = s.backlog := rfl
@[simp] theorem State.setThread_skips (s : State) (tid : Nat) (t : Thread) : (s.setThread tid t).skips = s.skips := rfl
@[simp] theorem State.setThread_host (s : State) (tid : Nat) (t : Thread) : (s.setThread tid t).host = s.host := rfl
@[simp] theorem State.setThread_lost (s : State) (tid : Nat) (t : Thread) : (s.setThread tid t).lost = s.lost := rfl
@[simp] theorem State.setThread_cur (s : State) (tid : Nat) (t : Thread) : (s.setThread tid t).cur = s.cur := rfl
@[simp] theorem State.setThread_free (s : State) (tid : Nat) (t : Thread) : (s.setThread tid t).free = s.free := rfl
@[simp] theorem State.setThread_bundle (s : State) (tid : Nat) (t : Thread) : (s.setThread tid t).bundle = s.bundle := rfl
@[simp] theorem State.setThread_nextId (s : State) (tid : Nat) (t : Thread) : (s.setThread tid t).nextId = s.nextId := rfl

@[simp] theorem State.modThread_hub (s : State) (tid : Nat) (f : Thread → Thread) : (s.modThread tid f).hub = s.hub := rfl
@[simp] theorem State.modThread_mem (s : State) (tid : Nat) (f : Thread → Thread) : (s.modThread tid f).mem = s.mem := rfl
@[simp] theorem State.modThread_tags (s : State) (tid : Nat) (f : Thread → Thread) : (s.modThread tid f).tags = s.tags := rfl
@[simp] theorem State.modThread_seen (s : State) (tid : Nat) (f : Thread → Thread) : (s.modThread tid f).seen = s.seen := rfl
@[simp] theorem State.modThread_flushes (s : State) (tid : Nat) (f : Thread → Thread) : (s.modThread tid f).flushes = s.flushes := rfl
@[simp] theorem State.modThread_hist (s : State) (tid : Nat) (f : Thread → Thread) : (s.modThread tid f).hist = s.hist := rfl
@[simp] theorem State.modThread_fences (s : State) (tid : Nat) (f : Thread → Thread) : (s.modThread tid f).fences = s.fences := rfl
@[simp] theorem State.modThread_ctxs (s : State) (tid : Nat) (f : Thread → Thread) : (s.modThread tid f).ctxs = s.ctxs := rfl
@[simp] theorem State.modThread_queues (s : State) (tid : Nat) (f : Thread → Thread) : (s.modThread tid f).queues = s.queues := rfl
@[simp] theorem State.modThread_launches (s : State) (tid : Nat) (f : Thread → Thread) : (s.modThread tid f).launches = s.launches := rfl
@[simp] theorem State.modThread_walkers (s : State) (tid : Nat) (f : Thread → Thread) : (s.modThread tid f).walkers = s.walkers := rfl
@[simp] theorem State.modThread_fetches (s : State) (tid : Nat) (f : Thread → Thread) : (s.modThread tid f).fetches = s.fetches := rfl
@[simp] theorem State.modThread_works (s : State) (tid : Nat) (f : Thread → Thread) : (s.modThread tid f).works = s.works := rfl
@[simp] theorem State.modThread_bins (s : State) (tid : Nat) (f : Thread → Thread) : (s.modThread tid f).bins = s.bins := rfl
@[simp] theorem State.modThread_cohorts (s : State) (tid : Nat) (f : Thread → Thread) : (s.modThread tid f).cohorts = s.cohorts := rfl
@[simp] theorem State.modThread_warps (s : State) (tid : Nat) (f : Thread → Thread) : (s.modThread tid f).warps = s.warps := rfl
@[simp] theorem State.modThread_threads (s : State) (tid : Nat) (f : Thread → Thread) : (s.modThread tid f).threads = amod s.threads tid f := rfl
@[simp] theorem State.modThread_copies (s : State) (tid : Nat) (f : Thread → Thread) : (s.modThread tid f).copies = s.copies := rfl
@[simp] theorem State.modThread_colls (s : State) (tid : Nat) (f : Thread → Thread) : (s.modThread tid f).colls = s.colls := rfl
@[simp] theorem State.modThread_devq (s : State) (tid : Nat) (f : Thread → Thread) : (s.modThread tid f).devq = s.devq := rfl
@[simp] theorem State.modThread_devTurn (s : State) (tid : Nat) (f : Thread → Thread) : (s.modThread tid f).devTurn = s.devTurn := rfl
@[simp] theorem State.modThread_rotation (s : State) (tid : Nat) (f : Thread → Thread) : (s.modThread tid f).rotation = s.rotation := rfl
@[simp] theorem State.modThread_agenda (s : State) (tid : Nat) (f : Thread → Thread) : (s.modThread tid f).agenda = s.agenda := rfl
@[simp] theorem State.modThread_issue (s : State) (tid : Nat) (f : Thread → Thread) : (s.modThread tid f).issue = s.issue := rfl
@[simp] theorem State.modThread_ending (s : State) (tid : Nat) (f : Thread → Thread) : (s.modThread tid f).ending = s.ending := rfl
@[simp] theorem State.modThread_backlog (s : State) (tid : Nat) (f : Thread → Thread) : (s.modThread tid f).backlog = s.backlog := rfl
@[simp] theorem State.modThread_skips (s : State) (tid : Nat) (f : Thread → Thread) : (s.modThread tid f).skips = s.skips := rfl
@[simp] theorem State.modThread_host (s : State) (tid : Nat) (f : Thread → Thread) : (s.modThread tid f).host = s.host := rfl
@[simp] theorem State.modThread_lost (s : State) (tid : Nat) (f : Thread → Thread) : (s.modThread tid f).lost = s.lost := rfl
@[simp] theorem State.modThread_cur (s : State) (tid : Nat) (f : Thread → Thread) : (s.modThread tid f).cur = s.cur := rfl
@[simp] theorem State.modThread_free (s : State) (tid : Nat) (f : Thread → Thread) : (s.modThread tid f).free = s.free := rfl
@[simp] theorem State.modThread_bundle (s : State) (tid : Nat) (f : Thread → Thread) : (s.modThread tid f).bundle = s.bundle := rfl
@[simp] theorem State.modThread_nextId (s : State) (tid : Nat) (f : Thread → Thread) : (s.modThread tid f).nextId = s.nextId := rfl

@[simp] theorem State.modCohort_hub (s : State) (coh : Nat) (f : Cohort → Cohort) : (s.modCohort coh f).hub = s.hub := rfl
@[simp] theorem State.modCohort_mem (s : State) (coh : Nat) (f : Cohort → Cohort) : (s.modCohort coh f).mem = s.mem := rfl
@[simp] theorem State.modCohort_tags (s : State) (coh : Nat) (f : Cohort → Cohort) : (s.modCohort coh f).tags = s.tags := rfl
@[simp] theorem State.modCohort_seen (s : State) (coh : Nat) (f : Cohort → Cohort) : (s.modCohort coh f).seen = s.seen := rfl
@[simp] theorem State.modCohort_flushes (s : State) (coh : Nat) (f : Cohort → Cohort) : (s.modCohort coh f).flushes = s.flushes := rfl
@[simp] theorem State.modCohort_hist (s : State) (coh : Nat) (f : Cohort → Cohort) : (s.modCohort coh f).hist = s.hist := rfl
@[simp] theorem State.modCohort_fences (s : State) (coh : Nat) (f : Cohort → Cohort) : (s.modCohort coh f).fences = s.fences := rfl
@[simp] theorem State.modCohort_ctxs (s : State) (coh : Nat) (f : Cohort → Cohort) : (s.modCohort coh f).ctxs = s.ctxs := rfl
@[simp] theorem State.modCohort_queues (s : State) (coh : Nat) (f : Cohort → Cohort) : (s.modCohort coh f).queues = s.queues := rfl
@[simp] theorem State.modCohort_launches (s : State) (coh : Nat) (f : Cohort → Cohort) : (s.modCohort coh f).launches = s.launches := rfl
@[simp] theorem State.modCohort_walkers (s : State) (coh : Nat) (f : Cohort → Cohort) : (s.modCohort coh f).walkers = s.walkers := rfl
@[simp] theorem State.modCohort_fetches (s : State) (coh : Nat) (f : Cohort → Cohort) : (s.modCohort coh f).fetches = s.fetches := rfl
@[simp] theorem State.modCohort_works (s : State) (coh : Nat) (f : Cohort → Cohort) : (s.modCohort coh f).works = s.works := rfl
@[simp] theorem State.modCohort_bins (s : State) (coh : Nat) (f : Cohort → Cohort) : (s.modCohort coh f).bins = s.bins := rfl
@[simp] theorem State.modCohort_cohorts (s : State) (coh : Nat) (f : Cohort → Cohort) : (s.modCohort coh f).cohorts = amod s.cohorts coh f := rfl
@[simp] theorem State.modCohort_warps (s : State) (coh : Nat) (f : Cohort → Cohort) : (s.modCohort coh f).warps = s.warps := rfl
@[simp] theorem State.modCohort_threads (s : State) (coh : Nat) (f : Cohort → Cohort) : (s.modCohort coh f).threads = s.threads := rfl
@[simp] theorem State.modCohort_copies (s : State) (coh : Nat) (f : Cohort → Cohort) : (s.modCohort coh f).copies = s.copies := rfl
@[simp] theorem State.modCohort_colls (s : State) (coh : Nat) (f : Cohort → Cohort) : (s.modCohort coh f).colls = s.colls := rfl
@[simp] theorem State.modCohort_devq (s : State) (coh : Nat) (f : Cohort → Cohort) : (s.modCohort coh f).devq = s.devq := rfl
@[simp] theorem State.modCohort_devTurn (s : State) (coh : Nat) (f : Cohort → Cohort) : (s.modCohort coh f).devTurn = s.devTurn := rfl
@[simp] theorem State.modCohort_rotation (s : State) (coh : Nat) (f : Cohort → Cohort) : (s.modCohort coh f).rotation = s.rotation := rfl
@[simp] theorem State.modCohort_agenda (s : State) (coh : Nat) (f : Cohort → Cohort) : (s.modCohort coh f).agenda = s.agenda := rfl
@[simp] theorem State.modCohort_issue (s : State) (coh : Nat) (f : Cohort → Cohort) : (s.modCohort coh f).issue = s.issue := rfl
@[simp] theorem State.modCohort_ending (s : State) (coh : Nat) (f : Cohort → Cohort) : (s.modCohort coh f).ending = s.ending := rfl
@[simp] theorem State.modCohort_backlog (s : State) (coh : Nat) (f : Cohort → Cohort) : (s.modCohort coh f).backlog = s.backlog := rfl
@[simp] theorem State.modCohort_skips (s : State) (coh : Nat) (f : Cohort → Cohort) : (s.modCohort coh f).skips = s.skips := rfl
@[simp] theorem State.modCohort_host (s : State) (coh : Nat) (f : Cohort → Cohort) : (s.modCohort coh f).host = s.host := rfl
@[simp] theorem State.modCohort_lost (s : State) (coh : Nat) (f : Cohort → Cohort) : (s.modCohort coh f).lost = s.lost := rfl
@[simp] theorem State.modCohort_cur (s : State) (coh : Nat) (f : Cohort → Cohort) : (s.modCohort coh f).cur = s.cur := rfl
@[simp] theorem State.modCohort_free (s : State) (coh : Nat) (f : Cohort → Cohort) : (s.modCohort coh f).free = s.free := rfl
@[simp] theorem State.modCohort_bundle (s : State) (coh : Nat) (f : Cohort → Cohort) : (s.modCohort coh f).bundle = s.bundle := rfl
@[simp] theorem State.modCohort_nextId (s : State) (coh : Nat) (f : Cohort → Cohort) : (s.modCohort coh f).nextId = s.nextId := rfl

@[simp] theorem State.modWarp_hub (s : State) (w : Nat) (f : Warp → Warp) : (s.modWarp w f).hub = s.hub := rfl
@[simp] theorem State.modWarp_mem (s : State) (w : Nat) (f : Warp → Warp) : (s.modWarp w f).mem = s.mem := rfl
@[simp] theorem State.modWarp_tags (s : State) (w : Nat) (f : Warp → Warp) : (s.modWarp w f).tags = s.tags := rfl
@[simp] theorem State.modWarp_seen (s : State) (w : Nat) (f : Warp → Warp) : (s.modWarp w f).seen = s.seen := rfl
@[simp] theorem State.modWarp_flushes (s : State) (w : Nat) (f : Warp → Warp) : (s.modWarp w f).flushes = s.flushes := rfl
@[simp] theorem State.modWarp_hist (s : State) (w : Nat) (f : Warp → Warp) : (s.modWarp w f).hist = s.hist := rfl
@[simp] theorem State.modWarp_fences (s : State) (w : Nat) (f : Warp → Warp) : (s.modWarp w f).fences = s.fences := rfl
@[simp] theorem State.modWarp_ctxs (s : State) (w : Nat) (f : Warp → Warp) : (s.modWarp w f).ctxs = s.ctxs := rfl
@[simp] theorem State.modWarp_queues (s : State) (w : Nat) (f : Warp → Warp) : (s.modWarp w f).queues = s.queues := rfl
@[simp] theorem State.modWarp_launches (s : State) (w : Nat) (f : Warp → Warp) : (s.modWarp w f).launches = s.launches := rfl
@[simp] theorem State.modWarp_walkers (s : State) (w : Nat) (f : Warp → Warp) : (s.modWarp w f).walkers = s.walkers := rfl
@[simp] theorem State.modWarp_fetches (s : State) (w : Nat) (f : Warp → Warp) : (s.modWarp w f).fetches = s.fetches := rfl
@[simp] theorem State.modWarp_works (s : State) (w : Nat) (f : Warp → Warp) : (s.modWarp w f).works = s.works := rfl
@[simp] theorem State.modWarp_bins (s : State) (w : Nat) (f : Warp → Warp) : (s.modWarp w f).bins = s.bins := rfl
@[simp] theorem State.modWarp_cohorts (s : State) (w : Nat) (f : Warp → Warp) : (s.modWarp w f).cohorts = s.cohorts := rfl
@[simp] theorem State.modWarp_warps (s : State) (w : Nat) (f : Warp → Warp) : (s.modWarp w f).warps = amod s.warps w f := rfl
@[simp] theorem State.modWarp_threads (s : State) (w : Nat) (f : Warp → Warp) : (s.modWarp w f).threads = s.threads := rfl
@[simp] theorem State.modWarp_copies (s : State) (w : Nat) (f : Warp → Warp) : (s.modWarp w f).copies = s.copies := rfl
@[simp] theorem State.modWarp_colls (s : State) (w : Nat) (f : Warp → Warp) : (s.modWarp w f).colls = s.colls := rfl
@[simp] theorem State.modWarp_devq (s : State) (w : Nat) (f : Warp → Warp) : (s.modWarp w f).devq = s.devq := rfl
@[simp] theorem State.modWarp_devTurn (s : State) (w : Nat) (f : Warp → Warp) : (s.modWarp w f).devTurn = s.devTurn := rfl
@[simp] theorem State.modWarp_rotation (s : State) (w : Nat) (f : Warp → Warp) : (s.modWarp w f).rotation = s.rotation := rfl
@[simp] theorem State.modWarp_agenda (s : State) (w : Nat) (f : Warp → Warp) : (s.modWarp w f).agenda = s.agenda := rfl
@[simp] theorem State.modWarp_issue (s : State) (w : Nat) (f : Warp → Warp) : (s.modWarp w f).issue = s.issue := rfl
@[simp] theorem State.modWarp_ending (s : State) (w : Nat) (f : Warp → Warp) : (s.modWarp w f).ending = s.ending := rfl
@[simp] theorem State.modWarp_backlog (s : State) (w : Nat) (f : Warp → Warp) : (s.modWarp w f).backlog = s.backlog := rfl
@[simp] theorem State.modWarp_skips (s : State) (w : Nat) (f : Warp → Warp) : (s.modWarp w f).skips = s.skips := rfl
@[simp] theorem State.modWarp_host (s : State) (w : Nat) (f : Warp → Warp) : (s.modWarp w f).host = s.host := rfl
@[simp] theorem State.modWarp_lost (s : State) (w : Nat) (f : Warp → Warp) : (s.modWarp w f).lost = s.lost := rfl
@[simp] theorem State.modWarp_cur (s : State) (w : Nat) (f : Warp → Warp) : (s.modWarp w f).cur = s.cur := rfl
@[simp] theorem State.modWarp_free (s : State) (w : Nat) (f : Warp → Warp) : (s.modWarp w f).free = s.free := rfl
@[simp] theorem State.modWarp_bundle (s : State) (w : Nat) (f : Warp → Warp) : (s.modWarp w f).bundle = s.bundle := rfl
@[simp] theorem State.modWarp_nextId (s : State) (w : Nat) (f : Warp → Warp) : (s.modWarp w f).nextId = s.nextId := rfl

@[simp] theorem State.modLaunch_hub (s : State) (l : Nat) (f : Launch → Launch) : (s.modLaunch l f).hub = s.hub := rfl
@[simp] theorem State.modLaunch_mem (s : State) (l : Nat) (f : Launch → Launch) : (s.modLaunch l f).mem = s.mem := rfl
@[simp] theorem State.modLaunch_tags (s : State) (l : Nat) (f : Launch → Launch) : (s.modLaunch l f).tags = s.tags := rfl
@[simp] theorem State.modLaunch_seen (s : State) (l : Nat) (f : Launch → Launch) : (s.modLaunch l f).seen = s.seen := rfl
@[simp] theorem State.modLaunch_flushes (s : State) (l : Nat) (f : Launch → Launch) : (s.modLaunch l f).flushes = s.flushes := rfl
@[simp] theorem State.modLaunch_hist (s : State) (l : Nat) (f : Launch → Launch) : (s.modLaunch l f).hist = s.hist := rfl
@[simp] theorem State.modLaunch_fences (s : State) (l : Nat) (f : Launch → Launch) : (s.modLaunch l f).fences = s.fences := rfl
@[simp] theorem State.modLaunch_ctxs (s : State) (l : Nat) (f : Launch → Launch) : (s.modLaunch l f).ctxs = s.ctxs := rfl
@[simp] theorem State.modLaunch_queues (s : State) (l : Nat) (f : Launch → Launch) : (s.modLaunch l f).queues = s.queues := rfl
@[simp] theorem State.modLaunch_launches (s : State) (l : Nat) (f : Launch → Launch) : (s.modLaunch l f).launches = amod s.launches l f := rfl
@[simp] theorem State.modLaunch_walkers (s : State) (l : Nat) (f : Launch → Launch) : (s.modLaunch l f).walkers = s.walkers := rfl
@[simp] theorem State.modLaunch_fetches (s : State) (l : Nat) (f : Launch → Launch) : (s.modLaunch l f).fetches = s.fetches := rfl
@[simp] theorem State.modLaunch_works (s : State) (l : Nat) (f : Launch → Launch) : (s.modLaunch l f).works = s.works := rfl
@[simp] theorem State.modLaunch_bins (s : State) (l : Nat) (f : Launch → Launch) : (s.modLaunch l f).bins = s.bins := rfl
@[simp] theorem State.modLaunch_cohorts (s : State) (l : Nat) (f : Launch → Launch) : (s.modLaunch l f).cohorts = s.cohorts := rfl
@[simp] theorem State.modLaunch_warps (s : State) (l : Nat) (f : Launch → Launch) : (s.modLaunch l f).warps = s.warps := rfl
@[simp] theorem State.modLaunch_threads (s : State) (l : Nat) (f : Launch → Launch) : (s.modLaunch l f).threads = s.threads := rfl
@[simp] theorem State.modLaunch_copies (s : State) (l : Nat) (f : Launch → Launch) : (s.modLaunch l f).copies = s.copies := rfl
@[simp] theorem State.modLaunch_colls (s : State) (l : Nat) (f : Launch → Launch) : (s.modLaunch l f).colls = s.colls := rfl
@[simp] theorem State.modLaunch_devq (s : State) (l : Nat) (f : Launch → Launch) : (s.modLaunch l f).devq = s.devq := rfl
@[simp] theorem State.modLaunch_devTurn (s : State) (l : Nat) (f : Launch → Launch) : (s.modLaunch l f).devTurn = s.devTurn := rfl
@[simp] theorem State.modLaunch_rotation (s : State) (l : Nat) (f : Launch → Launch) : (s.modLaunch l f).rotation = s.rotation := rfl
@[simp] theorem State.modLaunch_agenda (s : State) (l : Nat) (f : Launch → Launch) : (s.modLaunch l f).agenda = s.agenda := rfl
@[simp] theorem State.modLaunch_issue (s : State) (l : Nat) (f : Launch → Launch) : (s.modLaunch l f).issue = s.issue := rfl
@[simp] theorem State.modLaunch_ending (s : State) (l : Nat) (f : Launch → Launch) : (s.modLaunch l f).ending = s.ending := rfl
@[simp] theorem State.modLaunch_backlog (s : State) (l : Nat) (f : Launch → Launch) : (s.modLaunch l f).backlog = s.backlog := rfl
@[simp] theorem State.modLaunch_skips (s : State) (l : Nat) (f : Launch → Launch) : (s.modLaunch l f).skips = s.skips := rfl
@[simp] theorem State.modLaunch_host (s : State) (l : Nat) (f : Launch → Launch) : (s.modLaunch l f).host = s.host := rfl
@[simp] theorem State.modLaunch_lost (s : State) (l : Nat) (f : Launch → Launch) : (s.modLaunch l f).lost = s.lost := rfl
@[simp] theorem State.modLaunch_cur (s : State) (l : Nat) (f : Launch → Launch) : (s.modLaunch l f).cur = s.cur := rfl
@[simp] theorem State.modLaunch_free (s : State) (l : Nat) (f : Launch → Launch) : (s.modLaunch l f).free = s.free := rfl
@[simp] theorem State.modLaunch_bundle (s : State) (l : Nat) (f : Launch → Launch) : (s.modLaunch l f).bundle = s.bundle := rfl
@[simp] theorem State.modLaunch_nextId (s : State) (l : Nat) (f : Launch → Launch) : (s.modLaunch l f).nextId = s.nextId := rfl

@[simp] theorem State.modCtx_hub (s : State) (cid : Nat) (f : Ctx → Ctx) : (s.modCtx cid f).hub = s.hub := rfl
@[simp] theorem State.modCtx_mem (s : State) (cid : Nat) (f : Ctx → Ctx) : (s.modCtx cid f).mem = s.mem := rfl
@[simp] theorem State.modCtx_tags (s : State) (cid : Nat) (f : Ctx → Ctx) : (s.modCtx cid f).tags = s.tags := rfl
@[simp] theorem State.modCtx_seen (s : State) (cid : Nat) (f : Ctx → Ctx) : (s.modCtx cid f).seen = s.seen := rfl
@[simp] theorem State.modCtx_flushes (s : State) (cid : Nat) (f : Ctx → Ctx) : (s.modCtx cid f).flushes = s.flushes := rfl
@[simp] theorem State.modCtx_hist (s : State) (cid : Nat) (f : Ctx → Ctx) : (s.modCtx cid f).hist = s.hist := rfl
@[simp] theorem State.modCtx_fences (s : State) (cid : Nat) (f : Ctx → Ctx) : (s.modCtx cid f).fences = s.fences := rfl
@[simp] theorem State.modCtx_ctxs (s : State) (cid : Nat) (f : Ctx → Ctx) : (s.modCtx cid f).ctxs = amod s.ctxs cid f := rfl
@[simp] theorem State.modCtx_queues (s : State) (cid : Nat) (f : Ctx → Ctx) : (s.modCtx cid f).queues = s.queues := rfl
@[simp] theorem State.modCtx_launches (s : State) (cid : Nat) (f : Ctx → Ctx) : (s.modCtx cid f).launches = s.launches := rfl
@[simp] theorem State.modCtx_walkers (s : State) (cid : Nat) (f : Ctx → Ctx) : (s.modCtx cid f).walkers = s.walkers := rfl
@[simp] theorem State.modCtx_fetches (s : State) (cid : Nat) (f : Ctx → Ctx) : (s.modCtx cid f).fetches = s.fetches := rfl
@[simp] theorem State.modCtx_works (s : State) (cid : Nat) (f : Ctx → Ctx) : (s.modCtx cid f).works = s.works := rfl
@[simp] theorem State.modCtx_bins (s : State) (cid : Nat) (f : Ctx → Ctx) : (s.modCtx cid f).bins = s.bins := rfl
@[simp] theorem State.modCtx_cohorts (s : State) (cid : Nat) (f : Ctx → Ctx) : (s.modCtx cid f).cohorts = s.cohorts := rfl
@[simp] theorem State.modCtx_warps (s : State) (cid : Nat) (f : Ctx → Ctx) : (s.modCtx cid f).warps = s.warps := rfl
@[simp] theorem State.modCtx_threads (s : State) (cid : Nat) (f : Ctx → Ctx) : (s.modCtx cid f).threads = s.threads := rfl
@[simp] theorem State.modCtx_copies (s : State) (cid : Nat) (f : Ctx → Ctx) : (s.modCtx cid f).copies = s.copies := rfl
@[simp] theorem State.modCtx_colls (s : State) (cid : Nat) (f : Ctx → Ctx) : (s.modCtx cid f).colls = s.colls := rfl
@[simp] theorem State.modCtx_devq (s : State) (cid : Nat) (f : Ctx → Ctx) : (s.modCtx cid f).devq = s.devq := rfl
@[simp] theorem State.modCtx_devTurn (s : State) (cid : Nat) (f : Ctx → Ctx) : (s.modCtx cid f).devTurn = s.devTurn := rfl
@[simp] theorem State.modCtx_rotation (s : State) (cid : Nat) (f : Ctx → Ctx) : (s.modCtx cid f).rotation = s.rotation := rfl
@[simp] theorem State.modCtx_agenda (s : State) (cid : Nat) (f : Ctx → Ctx) : (s.modCtx cid f).agenda = s.agenda := rfl
@[simp] theorem State.modCtx_issue (s : State) (cid : Nat) (f : Ctx → Ctx) : (s.modCtx cid f).issue = s.issue := rfl
@[simp] theorem State.modCtx_ending (s : State) (cid : Nat) (f : Ctx → Ctx) : (s.modCtx cid f).ending = s.ending := rfl
@[simp] theorem State.modCtx_backlog (s : State) (cid : Nat) (f : Ctx → Ctx) : (s.modCtx cid f).backlog = s.backlog := rfl
@[simp] theorem State.modCtx_skips (s : State) (cid : Nat) (f : Ctx → Ctx) : (s.modCtx cid f).skips = s.skips := rfl
@[simp] theorem State.modCtx_host (s : State) (cid : Nat) (f : Ctx → Ctx) : (s.modCtx cid f).host = s.host := rfl
@[simp] theorem State.modCtx_lost (s : State) (cid : Nat) (f : Ctx → Ctx) : (s.modCtx cid f).lost = s.lost := rfl
@[simp] theorem State.modCtx_cur (s : State) (cid : Nat) (f : Ctx → Ctx) : (s.modCtx cid f).cur = s.cur := rfl
@[simp] theorem State.modCtx_free (s : State) (cid : Nat) (f : Ctx → Ctx) : (s.modCtx cid f).free = s.free := rfl
@[simp] theorem State.modCtx_bundle (s : State) (cid : Nat) (f : Ctx → Ctx) : (s.modCtx cid f).bundle = s.bundle := rfl
@[simp] theorem State.modCtx_nextId (s : State) (cid : Nat) (f : Ctx → Ctx) : (s.modCtx cid f).nextId = s.nextId := rfl

@[simp] theorem State.freshId_hub (s : State) : s.freshId.2.hub = s.hub := rfl
@[simp] theorem State.freshId_mem (s : State) : s.freshId.2.mem = s.mem := rfl
@[simp] theorem State.freshId_tags (s : State) : s.freshId.2.tags = s.tags := rfl
@[simp] theorem State.freshId_seen (s : State) : s.freshId.2.seen = s.seen := rfl
@[simp] theorem State.freshId_flushes (s : State) : s.freshId.2.flushes = s.flushes := rfl
@[simp] theorem State.freshId_hist (s : State) : s.freshId.2.hist = s.hist := rfl
@[simp] theorem State.freshId_fences (s : State) : s.freshId.2.fences = s.fences := rfl
@[simp] theorem State.freshId_ctxs (s : State) : s.freshId.2.ctxs = s.ctxs := rfl
@[simp] theorem State.freshId_queues (s : State) : s.freshId.2.queues = s.queues := rfl
@[simp] theorem State.freshId_launches (s : State) : s.freshId.2.launches = s.launches := rfl
@[simp] theorem State.freshId_walkers (s : State) : s.freshId.2.walkers = s.walkers := rfl
@[simp] theorem State.freshId_fetches (s : State) : s.freshId.2.fetches = s.fetches := rfl
@[simp] theorem State.freshId_works (s : State) : s.freshId.2.works = s.works := rfl
@[simp] theorem State.freshId_bins (s : State) : s.freshId.2.bins = s.bins := rfl
@[simp] theorem State.freshId_cohorts (s : State) : s.freshId.2.cohorts = s.cohorts := rfl
@[simp] theorem State.freshId_warps (s : State) : s.freshId.2.warps = s.warps := rfl
@[simp] theorem State.freshId_threads (s : State) : s.freshId.2.threads = s.threads := rfl
@[simp] theorem State.freshId_copies (s : State) : s.freshId.2.copies = s.copies := rfl
@[simp] theorem State.freshId_colls (s : State) : s.freshId.2.colls = s.colls := rfl
@[simp] theorem State.freshId_devq (s : State) : s.freshId.2.devq = s.devq := rfl
@[simp] theorem State.freshId_devTurn (s : State) : s.freshId.2.devTurn = s.devTurn := rfl
@[simp] theorem State.freshId_rotation (s : State) : s.freshId.2.rotation = s.rotation := rfl
@[simp] theorem State.freshId_agenda (s : State) : s.freshId.2.agenda = s.agenda := rfl
@[simp] theorem State.freshId_issue (s : State) : s.freshId.2.issue = s.issue := rfl
@[simp] theorem State.freshId_ending (s : State) : s.freshId.2.ending = s.ending := rfl
@[simp] theorem State.freshId_backlog (s : State) : s.freshId.2.backlog = s.backlog := rfl
@[simp] theorem State.freshId_skips (s : State) : s.freshId.2.skips = s.skips := rfl
@[simp] theorem State.freshId_host (s : State) : s.freshId.2.host = s.host := rfl
@[simp] theorem State.freshId_lost (s : State) : s.freshId.2.lost = s.lost := rfl
@[simp] theorem State.freshId_cur (s : State) : s.freshId.2.cur = s.cur := rfl
@[simp] theorem State.freshId_free (s : State) : s.freshId.2.free = s.free := rfl
@[simp] theorem State.freshId_bundle (s : State) : s.freshId.2.bundle = s.bundle := rfl

@[simp] theorem State.pick_hub (s : State) (n : Nat) : (s.pick n).2.hub = s.hub := by
  unfold State.pick; split <;> rfl
@[simp] theorem State.pick_mem (s : State) (n : Nat) : (s.pick n).2.mem = s.mem := by
  unfold State.pick; split <;> rfl
@[simp] theorem State.pick_tags (s : State) (n : Nat) : (s.pick n).2.tags = s.tags := by
  unfold State.pick; split <;> rfl
@[simp] theorem State.pick_seen (s : State) (n : Nat) : (s.pick n).2.seen = s.seen := by
  unfold State.pick; split <;> rfl
@[simp] theorem State.pick_flushes (s : State) (n : Nat) : (s.pick n).2.flushes = s.flushes := by
  unfold State.pick; split <;> rfl
@[simp] theorem State.pick_hist (s : State) (n : Nat) : (s.pick n).2.hist = s.hist := by
  unfold State.pick; split <;> rfl
@[simp] theorem State.pick_fences (s : State) (n : Nat) : (s.pick n).2.fences = s.fences := by
  unfold State.pick; split <;> rfl
@[simp] theorem State.pick_ctxs (s : State) (n : Nat) : (s.pick n).2.ctxs = s.ctxs := by
  unfold State.pick; split <;> rfl
@[simp] theorem State.pick_queues (s : State) (n : Nat) : (s.pick n).2.queues = s.queues := by
  unfold State.pick; split <;> rfl
@[simp] theorem State.pick_launches (s : State) (n : Nat) : (s.pick n).2.launches = s.launches := by
  unfold State.pick; split <;> rfl
@[simp] theorem State.pick_walkers (s : State) (n : Nat) : (s.pick n).2.walkers = s.walkers := by
  unfold State.pick; split <;> rfl
@[simp] theorem State.pick_fetches (s : State) (n : Nat) : (s.pick n).2.fetches = s.fetches := by
  unfold State.pick; split <;> rfl
@[simp] theorem State.pick_works (s : State) (n : Nat) : (s.pick n).2.works = s.works := by
  unfold State.pick; split <;> rfl
@[simp] theorem State.pick_bins (s : State) (n : Nat) : (s.pick n).2.bins = s.bins := by
  unfold State.pick; split <;> rfl
@[simp] theorem State.pick_cohorts (s : State) (n : Nat) : (s.pick n).2.cohorts = s.cohorts := by
  unfold State.pick; split <;> rfl
@[simp] theorem State.pick_warps (s : State) (n : Nat) : (s.pick n).2.warps = s.warps := by
  unfold State.pick; split <;> rfl
@[simp] theorem State.pick_threads (s : State) (n : Nat) : (s.pick n).2.threads = s.threads := by
  unfold State.pick; split <;> rfl
@[simp] theorem State.pick_copies (s : State) (n : Nat) : (s.pick n).2.copies = s.copies := by
  unfold State.pick; split <;> rfl
@[simp] theorem State.pick_colls (s : State) (n : Nat) : (s.pick n).2.colls = s.colls := by
  unfold State.pick; split <;> rfl
@[simp] theorem State.pick_devq (s : State) (n : Nat) : (s.pick n).2.devq = s.devq := by
  unfold State.pick; split <;> rfl
@[simp] theorem State.pick_devTurn (s : State) (n : Nat) : (s.pick n).2.devTurn = s.devTurn := by
  unfold State.pick; split <;> rfl
@[simp] theorem State.pick_rotation (s : State) (n : Nat) : (s.pick n).2.rotation = s.rotation := by
  unfold State.pick; split <;> rfl
@[simp] theorem State.pick_agenda (s : State) (n : Nat) : (s.pick n).2.agenda = s.agenda := by
  unfold State.pick; split <;> rfl
@[simp] theorem State.pick_issue (s : State) (n : Nat) : (s.pick n).2.issue = s.issue := by
  unfold State.pick; split <;> rfl
@[simp] theorem State.pick_ending (s : State) (n : Nat) : (s.pick n).2.ending = s.ending := by
  unfold State.pick; split <;> rfl
@[simp] theorem State.pick_backlog (s : State) (n : Nat) : (s.pick n).2.backlog = s.backlog := by
  unfold State.pick; split <;> rfl
@[simp] theorem State.pick_skips (s : State) (n : Nat) : (s.pick n).2.skips = s.skips := by
  unfold State.pick; split <;> rfl
@[simp] theorem State.pick_host (s : State) (n : Nat) : (s.pick n).2.host = s.host := by
  unfold State.pick; split <;> rfl
@[simp] theorem State.pick_lost (s : State) (n : Nat) : (s.pick n).2.lost = s.lost := by
  unfold State.pick; split <;> rfl
@[simp] theorem State.pick_cur (s : State) (n : Nat) : (s.pick n).2.cur = s.cur := by
  unfold State.pick; split <;> rfl
@[simp] theorem State.pick_bundle (s : State) (n : Nat) : (s.pick n).2.bundle = s.bundle := by
  unfold State.pick; split <;> rfl
@[simp] theorem State.pick_nextId (s : State) (n : Nat) : (s.pick n).2.nextId = s.nextId := by
  unfold State.pick; split <;> rfl
@[simp] theorem State.draw_hub (s : State) : s.draw.2.hub = s.hub := rfl
@[simp] theorem State.draw_mem (s : State) : s.draw.2.mem = s.mem := rfl
@[simp] theorem State.draw_tags (s : State) : s.draw.2.tags = s.tags := rfl
@[simp] theorem State.draw_seen (s : State) : s.draw.2.seen = s.seen := rfl
@[simp] theorem State.draw_flushes (s : State) : s.draw.2.flushes = s.flushes := rfl
@[simp] theorem State.draw_hist (s : State) : s.draw.2.hist = s.hist := rfl
@[simp] theorem State.draw_fences (s : State) : s.draw.2.fences = s.fences := rfl
@[simp] theorem State.draw_ctxs (s : State) : s.draw.2.ctxs = s.ctxs := rfl
@[simp] theorem State.draw_queues (s : State) : s.draw.2.queues = s.queues := rfl
@[simp] theorem State.draw_launches (s : State) : s.draw.2.launches = s.launches := rfl
@[simp] theorem State.draw_walkers (s : State) : s.draw.2.walkers = s.walkers := rfl
@[simp] theorem State.draw_fetches (s : State) : s.draw.2.fetches = s.fetches := rfl
@[simp] theorem State.draw_works (s : State) : s.draw.2.works = s.works := rfl
@[simp] theorem State.draw_bins (s : State) : s.draw.2.bins = s.bins := rfl
@[simp] theorem State.draw_cohorts (s : State) : s.draw.2.cohorts = s.cohorts := rfl
@[simp] theorem State.draw_warps (s : State) : s.draw.2.warps = s.warps := rfl
@[simp] theorem State.draw_threads (s : State) : s.draw.2.threads = s.threads := rfl
@[simp] theorem State.draw_copies (s : State) : s.draw.2.copies = s.copies := rfl
@[simp] theorem State.draw_colls (s : State) : s.draw.2.colls = s.colls := rfl
@[simp] theorem State.draw_devq (s : State) : s.draw.2.devq = s.devq := rfl
@[simp] theorem State.draw_devTurn (s : State) : s.draw.2.devTurn = s.devTurn := rfl
@[simp] theorem State.draw_rotation (s : State) : s.draw.2.rotation = s.rotation := rfl
@[simp] theorem State.draw_agenda (s : State) : s.draw.2.agenda = s.agenda := rfl
@[simp] theorem State.draw_issue (s : State) : s.draw.2.issue = s.issue := rfl
@[simp] theorem State.draw_ending (s : State) : s.draw.2.ending = s.ending := rfl
@[simp] theorem State.draw_backlog (s : State) : s.draw.2.backlog = s.backlog := rfl
@[simp] theorem State.draw_skips (s : State) : s.draw.2.skips = s.skips := rfl
@[simp] theorem State.draw_host (s : State) : s.draw.2.host = s.host := rfl
@[simp] theorem State.draw_lost (s : State) : s.draw.2.lost = s.lost := rfl
@[simp] theorem State.draw_cur (s : State) : s.draw.2.cur = s.cur := rfl
@[simp] theorem State.draw_bundle (s : State) : s.draw.2.bundle = s.bundle := rfl
@[simp] theorem State.draw_nextId (s : State) : s.draw.2.nextId = s.nextId := rfl
@[simp] theorem State.keepDraws_hub (s t : State) : (s.keepDraws t).hub = s.hub := rfl
@[simp] theorem State.keepDraws_mem (s t : State) : (s.keepDraws t).mem = s.mem := rfl
@[simp] theorem State.keepDraws_tags (s t : State) : (s.keepDraws t).tags = s.tags := rfl
@[simp] theorem State.keepDraws_flushes (s t : State) : (s.keepDraws t).flushes = s.flushes := rfl
@[simp] theorem State.keepDraws_hist (s t : State) : (s.keepDraws t).hist = s.hist := rfl
@[simp] theorem State.keepDraws_fences (s t : State) : (s.keepDraws t).fences = s.fences := rfl
@[simp] theorem State.keepDraws_ctxs (s t : State) : (s.keepDraws t).ctxs = s.ctxs := rfl
@[simp] theorem State.keepDraws_queues (s t : State) : (s.keepDraws t).queues = s.queues := rfl
@[simp] theorem State.keepDraws_launches (s t : State) : (s.keepDraws t).launches = s.launches := rfl
@[simp] theorem State.keepDraws_walkers (s t : State) : (s.keepDraws t).walkers = s.walkers := rfl
@[simp] theorem State.keepDraws_fetches (s t : State) : (s.keepDraws t).fetches = s.fetches := rfl
@[simp] theorem State.keepDraws_works (s t : State) : (s.keepDraws t).works = s.works := rfl
@[simp] theorem State.keepDraws_bins (s t : State) : (s.keepDraws t).bins = s.bins := rfl
@[simp] theorem State.keepDraws_cohorts (s t : State) : (s.keepDraws t).cohorts = s.cohorts := rfl
@[simp] theorem State.keepDraws_warps (s t : State) : (s.keepDraws t).warps = s.warps := rfl
@[simp] theorem State.keepDraws_threads (s t : State) : (s.keepDraws t).threads = s.threads := rfl
@[simp] theorem State.keepDraws_copies (s t : State) : (s.keepDraws t).copies = s.copies := rfl
@[simp] theorem State.keepDraws_colls (s t : State) : (s.keepDraws t).colls = s.colls := rfl
@[simp] theorem State.keepDraws_devq (s t : State) : (s.keepDraws t).devq = s.devq := rfl
@[simp] theorem State.keepDraws_devTurn (s t : State) : (s.keepDraws t).devTurn = s.devTurn := rfl
@[simp] theorem State.keepDraws_rotation (s t : State) : (s.keepDraws t).rotation = s.rotation := rfl
@[simp] theorem State.keepDraws_agenda (s t : State) : (s.keepDraws t).agenda = s.agenda := rfl
@[simp] theorem State.keepDraws_issue (s t : State) : (s.keepDraws t).issue = s.issue := rfl
@[simp] theorem State.keepDraws_ending (s t : State) : (s.keepDraws t).ending = s.ending := rfl
@[simp] theorem State.keepDraws_backlog (s t : State) : (s.keepDraws t).backlog = s.backlog := rfl
@[simp] theorem State.keepDraws_skips (s t : State) : (s.keepDraws t).skips = s.skips := rfl
@[simp] theorem State.keepDraws_host (s t : State) : (s.keepDraws t).host = s.host := rfl
@[simp] theorem State.keepDraws_lost (s t : State) : (s.keepDraws t).lost = s.lost := rfl
@[simp] theorem State.keepDraws_cur (s t : State) : (s.keepDraws t).cur = s.cur := rfl
@[simp] theorem State.keepDraws_bundle (s t : State) : (s.keepDraws t).bundle = s.bundle := rfl
@[simp] theorem State.keepDraws_nextId (s t : State) : (s.keepDraws t).nextId = s.nextId := rfl

/-! ## Updates of Thread -/

@[simp] theorem Thread.orFlags_pc (t : Thread) (f : BitVec 7) : (t.orFlags f).pc = t.pc := rfl
@[simp] theorem Thread.orFlags_regs (t : Thread) (f : BitVec 7) : (t.orFlags f).regs = t.regs := rfl
@[simp] theorem Thread.orFlags_preds (t : Thread) (f : BitVec 7) : (t.orFlags f).preds = t.preds := rfl
@[simp] theorem Thread.orFlags_flags (t : Thread) (f : BitVec 7) : (t.orFlags f).flags = t.flags ||| f := rfl
@[simp] theorem Thread.orFlags_stack (t : Thread) (f : BitVec 7) : (t.orFlags f).stack = t.stack := rfl
@[simp] theorem Thread.orFlags_csp (t : Thread) (f : BitVec 7) : (t.orFlags f).csp = t.csp := rfl
@[simp] theorem Thread.orFlags_spilled (t : Thread) (f : BitVec 7) : (t.orFlags f).spilled = t.spilled := rfl
@[simp] theorem Thread.orFlags_shadow (t : Thread) (f : BitVec 7) : (t.orFlags f).shadow = t.shadow := rfl
@[simp] theorem Thread.orFlags_hazards (t : Thread) (f : BitVec 7) : (t.orFlags f).hazards = t.hazards := rfl
@[simp] theorem Thread.orFlags_out (t : Thread) (f : BitVec 7) : (t.orFlags f).out = t.out := rfl
@[simp] theorem Thread.orFlags_pend (t : Thread) (f : BitVec 7) : (t.orFlags f).pend = t.pend := rfl
@[simp] theorem Thread.orFlags_handler (t : Thread) (f : BitVec 7) : (t.orFlags f).handler = t.handler := rfl
@[simp] theorem Thread.orFlags_x (t : Thread) (f : BitVec 7) : (t.orFlags f).x = t.x := rfl
@[simp] theorem Thread.orFlags_emuPc (t : Thread) (f : BitVec 7) : (t.orFlags f).emuPc = t.emuPc := rfl
@[simp] theorem Thread.orFlags_emuNext (t : Thread) (f : BitVec 7) : (t.orFlags f).emuNext = t.emuNext := rfl
@[simp] theorem Thread.orFlags_emuWord (t : Thread) (f : BitVec 7) : (t.orFlags f).emuWord = t.emuWord := rfl
@[simp] theorem Thread.orFlags_emuInfo (t : Thread) (f : BitVec 7) : (t.orFlags f).emuInfo = t.emuInfo := rfl
@[simp] theorem Thread.orFlags_tf (t : Thread) (f : BitVec 7) : (t.orFlags f).tf = t.tf := rfl
@[simp] theorem Thread.orFlags_trapVec (t : Thread) (f : BitVec 7) : (t.orFlags f).trapVec = t.trapVec := rfl
@[simp] theorem Thread.orFlags_trapPc (t : Thread) (f : BitVec 7) : (t.orFlags f).trapPc = t.trapPc := rfl
@[simp] theorem Thread.orFlags_trapNext (t : Thread) (f : BitVec 7) : (t.orFlags f).trapNext = t.trapNext := rfl
@[simp] theorem Thread.orFlags_trapCause (t : Thread) (f : BitVec 7) : (t.orFlags f).trapCause = t.trapCause := rfl
@[simp] theorem Thread.orFlags_trapAddr (t : Thread) (f : BitVec 7) : (t.orFlags f).trapAddr = t.trapAddr := rfl
@[simp] theorem Thread.orFlags_trapInfo (t : Thread) (f : BitVec 7) : (t.orFlags f).trapInfo = t.trapInfo := rfl
@[simp] theorem Thread.orFlags_preActive (t : Thread) (f : BitVec 7) : (t.orFlags f).preActive = t.preActive := rfl
@[simp] theorem Thread.orFlags_prePc (t : Thread) (f : BitVec 7) : (t.orFlags f).prePc = t.prePc := rfl
@[simp] theorem Thread.orFlags_preLive (t : Thread) (f : BitVec 7) : (t.orFlags f).preLive = t.preLive := rfl
@[simp] theorem Thread.orFlags_preShadow (t : Thread) (f : BitVec 7) : (t.orFlags f).preShadow = t.preShadow := rfl
@[simp] theorem Thread.orFlags_preSuppress (t : Thread) (f : BitVec 7) : (t.orFlags f).preSuppress = t.preSuppress := rfl
@[simp] theorem Thread.orFlags_wp0 (t : Thread) (f : BitVec 7) : (t.orFlags f).wp0 = t.wp0 := rfl
@[simp] theorem Thread.orFlags_wp1 (t : Thread) (f : BitVec 7) : (t.orFlags f).wp1 = t.wp1 := rfl
@[simp] theorem Thread.orFlags_wpSuppress (t : Thread) (f : BitVec 7) : (t.orFlags f).wpSuppress = t.wpSuppress := rfl
@[simp] theorem Thread.orFlags_exp (t : Thread) (f : BitVec 7) : (t.orFlags f).exp = t.exp := rfl
@[simp] theorem Thread.orFlags_commits (t : Thread) (f : BitVec 7) : (t.orFlags f).commits = t.commits := rfl
@[simp] theorem Thread.orFlags_keep (t : Thread) (f : BitVec 7) : (t.orFlags f).keep = t.keep := rfl
@[simp] theorem Thread.orFlags_lose (t : Thread) (f : BitVec 7) : (t.orFlags f).lose = t.lose := rfl
@[simp] theorem Thread.orFlags_win (t : Thread) (f : BitVec 7) : (t.orFlags f).win = t.win := rfl
@[simp] theorem Thread.orFlags_emuEntry (t : Thread) (f : BitVec 7) : (t.orFlags f).emuEntry = t.emuEntry := rfl
@[simp] theorem Thread.orFlags_status (t : Thread) (f : BitVec 7) : (t.orFlags f).status = t.status := rfl
@[simp] theorem Thread.orFlags_granted (t : Thread) (f : BitVec 7) : (t.orFlags f).granted = t.granted := rfl
@[simp] theorem Thread.orFlags_departing (t : Thread) (f : BitVec 7) : (t.orFlags f).departing = t.departing := rfl
@[simp] theorem Thread.orFlags_pushes (t : Thread) (f : BitVec 7) : (t.orFlags f).pushes = t.pushes := rfl
@[simp] theorem Thread.orFlags_ord (t : Thread) (f : BitVec 7) : (t.orFlags f).ord = t.ord := rfl
@[simp] theorem Thread.orFlags_err (t : Thread) (f : BitVec 7) : (t.orFlags f).err = t.err := rfl
@[simp] theorem Thread.orFlags_rdy (t : Thread) (f : BitVec 7) : (t.orFlags f).rdy = t.rdy := rfl
@[simp] theorem Thread.orFlags_late (t : Thread) (f : BitVec 7) : (t.orFlags f).late = t.late := rfl
@[simp] theorem Thread.orFlags_yielded (t : Thread) (f : BitVec 7) : (t.orFlags f).yielded = t.yielded := rfl

@[simp] theorem Thread.setP_pc (t : Thread) (n : Nat) (b : Bool) : (t.setP n b).pc = t.pc := by
  unfold Thread.setP; split <;> rfl
@[simp] theorem Thread.setP_regs (t : Thread) (n : Nat) (b : Bool) : (t.setP n b).regs = t.regs := by
  unfold Thread.setP; split <;> rfl
@[simp] theorem Thread.setP_flags (t : Thread) (n : Nat) (b : Bool) : (t.setP n b).flags = t.flags := by
  unfold Thread.setP; split <;> rfl
@[simp] theorem Thread.setP_stack (t : Thread) (n : Nat) (b : Bool) : (t.setP n b).stack = t.stack := by
  unfold Thread.setP; split <;> rfl
@[simp] theorem Thread.setP_csp (t : Thread) (n : Nat) (b : Bool) : (t.setP n b).csp = t.csp := by
  unfold Thread.setP; split <;> rfl
@[simp] theorem Thread.setP_spilled (t : Thread) (n : Nat) (b : Bool) : (t.setP n b).spilled = t.spilled := by
  unfold Thread.setP; split <;> rfl
@[simp] theorem Thread.setP_shadow (t : Thread) (n : Nat) (b : Bool) : (t.setP n b).shadow = t.shadow := by
  unfold Thread.setP; split <;> rfl
@[simp] theorem Thread.setP_hazards (t : Thread) (n : Nat) (b : Bool) : (t.setP n b).hazards = t.hazards := by
  unfold Thread.setP; split <;> rfl
@[simp] theorem Thread.setP_out (t : Thread) (n : Nat) (b : Bool) : (t.setP n b).out = t.out := by
  unfold Thread.setP; split <;> rfl
@[simp] theorem Thread.setP_pend (t : Thread) (n : Nat) (b : Bool) : (t.setP n b).pend = t.pend := by
  unfold Thread.setP; split <;> rfl
@[simp] theorem Thread.setP_handler (t : Thread) (n : Nat) (b : Bool) : (t.setP n b).handler = t.handler := by
  unfold Thread.setP; split <;> rfl
@[simp] theorem Thread.setP_x (t : Thread) (n : Nat) (b : Bool) : (t.setP n b).x = t.x := by
  unfold Thread.setP; split <;> rfl
@[simp] theorem Thread.setP_emuPc (t : Thread) (n : Nat) (b : Bool) : (t.setP n b).emuPc = t.emuPc := by
  unfold Thread.setP; split <;> rfl
@[simp] theorem Thread.setP_emuNext (t : Thread) (n : Nat) (b : Bool) : (t.setP n b).emuNext = t.emuNext := by
  unfold Thread.setP; split <;> rfl
@[simp] theorem Thread.setP_emuWord (t : Thread) (n : Nat) (b : Bool) : (t.setP n b).emuWord = t.emuWord := by
  unfold Thread.setP; split <;> rfl
@[simp] theorem Thread.setP_emuInfo (t : Thread) (n : Nat) (b : Bool) : (t.setP n b).emuInfo = t.emuInfo := by
  unfold Thread.setP; split <;> rfl
@[simp] theorem Thread.setP_tf (t : Thread) (n : Nat) (b : Bool) : (t.setP n b).tf = t.tf := by
  unfold Thread.setP; split <;> rfl
@[simp] theorem Thread.setP_trapVec (t : Thread) (n : Nat) (b : Bool) : (t.setP n b).trapVec = t.trapVec := by
  unfold Thread.setP; split <;> rfl
@[simp] theorem Thread.setP_trapPc (t : Thread) (n : Nat) (b : Bool) : (t.setP n b).trapPc = t.trapPc := by
  unfold Thread.setP; split <;> rfl
@[simp] theorem Thread.setP_trapNext (t : Thread) (n : Nat) (b : Bool) : (t.setP n b).trapNext = t.trapNext := by
  unfold Thread.setP; split <;> rfl
@[simp] theorem Thread.setP_trapCause (t : Thread) (n : Nat) (b : Bool) : (t.setP n b).trapCause = t.trapCause := by
  unfold Thread.setP; split <;> rfl
@[simp] theorem Thread.setP_trapAddr (t : Thread) (n : Nat) (b : Bool) : (t.setP n b).trapAddr = t.trapAddr := by
  unfold Thread.setP; split <;> rfl
@[simp] theorem Thread.setP_trapInfo (t : Thread) (n : Nat) (b : Bool) : (t.setP n b).trapInfo = t.trapInfo := by
  unfold Thread.setP; split <;> rfl
@[simp] theorem Thread.setP_preActive (t : Thread) (n : Nat) (b : Bool) : (t.setP n b).preActive = t.preActive := by
  unfold Thread.setP; split <;> rfl
@[simp] theorem Thread.setP_prePc (t : Thread) (n : Nat) (b : Bool) : (t.setP n b).prePc = t.prePc := by
  unfold Thread.setP; split <;> rfl
@[simp] theorem Thread.setP_preLive (t : Thread) (n : Nat) (b : Bool) : (t.setP n b).preLive = t.preLive := by
  unfold Thread.setP; split <;> rfl
@[simp] theorem Thread.setP_preShadow (t : Thread) (n : Nat) (b : Bool) : (t.setP n b).preShadow = t.preShadow := by
  unfold Thread.setP; split <;> rfl
@[simp] theorem Thread.setP_preSuppress (t : Thread) (n : Nat) (b : Bool) : (t.setP n b).preSuppress = t.preSuppress := by
  unfold Thread.setP; split <;> rfl
@[simp] theorem Thread.setP_wp0 (t : Thread) (n : Nat) (b : Bool) : (t.setP n b).wp0 = t.wp0 := by
  unfold Thread.setP; split <;> rfl
@[simp] theorem Thread.setP_wp1 (t : Thread) (n : Nat) (b : Bool) : (t.setP n b).wp1 = t.wp1 := by
  unfold Thread.setP; split <;> rfl
@[simp] theorem Thread.setP_wpSuppress (t : Thread) (n : Nat) (b : Bool) : (t.setP n b).wpSuppress = t.wpSuppress := by
  unfold Thread.setP; split <;> rfl
@[simp] theorem Thread.setP_exp (t : Thread) (n : Nat) (b : Bool) : (t.setP n b).exp = t.exp := by
  unfold Thread.setP; split <;> rfl
@[simp] theorem Thread.setP_commits (t : Thread) (n : Nat) (b : Bool) : (t.setP n b).commits = t.commits := by
  unfold Thread.setP; split <;> rfl
@[simp] theorem Thread.setP_keep (t : Thread) (n : Nat) (b : Bool) : (t.setP n b).keep = t.keep := by
  unfold Thread.setP; split <;> rfl
@[simp] theorem Thread.setP_lose (t : Thread) (n : Nat) (b : Bool) : (t.setP n b).lose = t.lose := by
  unfold Thread.setP; split <;> rfl
@[simp] theorem Thread.setP_win (t : Thread) (n : Nat) (b : Bool) : (t.setP n b).win = t.win := by
  unfold Thread.setP; split <;> rfl
@[simp] theorem Thread.setP_emuEntry (t : Thread) (n : Nat) (b : Bool) : (t.setP n b).emuEntry = t.emuEntry := by
  unfold Thread.setP; split <;> rfl
@[simp] theorem Thread.setP_status (t : Thread) (n : Nat) (b : Bool) : (t.setP n b).status = t.status := by
  unfold Thread.setP; split <;> rfl
@[simp] theorem Thread.setP_granted (t : Thread) (n : Nat) (b : Bool) : (t.setP n b).granted = t.granted := by
  unfold Thread.setP; split <;> rfl
@[simp] theorem Thread.setP_departing (t : Thread) (n : Nat) (b : Bool) : (t.setP n b).departing = t.departing := by
  unfold Thread.setP; split <;> rfl
@[simp] theorem Thread.setP_pushes (t : Thread) (n : Nat) (b : Bool) : (t.setP n b).pushes = t.pushes := by
  unfold Thread.setP; split <;> rfl
@[simp] theorem Thread.setP_ord (t : Thread) (n : Nat) (b : Bool) : (t.setP n b).ord = t.ord := by
  unfold Thread.setP; split <;> rfl
@[simp] theorem Thread.setP_err (t : Thread) (n : Nat) (b : Bool) : (t.setP n b).err = t.err := by
  unfold Thread.setP; split <;> rfl
@[simp] theorem Thread.setP_rdy (t : Thread) (n : Nat) (b : Bool) : (t.setP n b).rdy = t.rdy := by
  unfold Thread.setP; split <;> rfl
@[simp] theorem Thread.setP_late (t : Thread) (n : Nat) (b : Bool) : (t.setP n b).late = t.late := by
  unfold Thread.setP; split <;> rfl
@[simp] theorem Thread.setP_yielded (t : Thread) (n : Nat) (b : Bool) : (t.setP n b).yielded = t.yielded := by
  unfold Thread.setP; split <;> rfl

@[simp] theorem Thread.wr_pc (t : Thread) (r : Reg) (v : Word) : (t.wr r v).pc = t.pc := by
  unfold Thread.wr; split <;> (try split) <;> rfl
@[simp] theorem Thread.wr_preds (t : Thread) (r : Reg) (v : Word) : (t.wr r v).preds = t.preds := by
  unfold Thread.wr; split <;> (try split) <;> rfl
@[simp] theorem Thread.wr_flags (t : Thread) (r : Reg) (v : Word) : (t.wr r v).flags = t.flags := by
  unfold Thread.wr; split <;> (try split) <;> rfl
@[simp] theorem Thread.wr_stack (t : Thread) (r : Reg) (v : Word) : (t.wr r v).stack = t.stack := by
  unfold Thread.wr; split <;> (try split) <;> rfl
@[simp] theorem Thread.wr_csp (t : Thread) (r : Reg) (v : Word) : (t.wr r v).csp = t.csp := by
  unfold Thread.wr; split <;> (try split) <;> rfl
@[simp] theorem Thread.wr_spilled (t : Thread) (r : Reg) (v : Word) : (t.wr r v).spilled = t.spilled := by
  unfold Thread.wr; split <;> (try split) <;> rfl
@[simp] theorem Thread.wr_shadow (t : Thread) (r : Reg) (v : Word) : (t.wr r v).shadow = t.shadow := by
  unfold Thread.wr; split <;> (try split) <;> rfl
@[simp] theorem Thread.wr_hazards (t : Thread) (r : Reg) (v : Word) : (t.wr r v).hazards = t.hazards := by
  unfold Thread.wr; split <;> (try split) <;> rfl
@[simp] theorem Thread.wr_out (t : Thread) (r : Reg) (v : Word) : (t.wr r v).out = t.out := by
  unfold Thread.wr; split <;> (try split) <;> rfl
@[simp] theorem Thread.wr_pend (t : Thread) (r : Reg) (v : Word) : (t.wr r v).pend = t.pend := by
  unfold Thread.wr; split <;> (try split) <;> rfl
@[simp] theorem Thread.wr_handler (t : Thread) (r : Reg) (v : Word) : (t.wr r v).handler = t.handler := by
  unfold Thread.wr; split <;> (try split) <;> rfl
@[simp] theorem Thread.wr_x (t : Thread) (r : Reg) (v : Word) : (t.wr r v).x = t.x := by
  unfold Thread.wr; split <;> (try split) <;> rfl
@[simp] theorem Thread.wr_emuPc (t : Thread) (r : Reg) (v : Word) : (t.wr r v).emuPc = t.emuPc := by
  unfold Thread.wr; split <;> (try split) <;> rfl
@[simp] theorem Thread.wr_emuNext (t : Thread) (r : Reg) (v : Word) : (t.wr r v).emuNext = t.emuNext := by
  unfold Thread.wr; split <;> (try split) <;> rfl
@[simp] theorem Thread.wr_emuWord (t : Thread) (r : Reg) (v : Word) : (t.wr r v).emuWord = t.emuWord := by
  unfold Thread.wr; split <;> (try split) <;> rfl
@[simp] theorem Thread.wr_emuInfo (t : Thread) (r : Reg) (v : Word) : (t.wr r v).emuInfo = t.emuInfo := by
  unfold Thread.wr; split <;> (try split) <;> rfl
@[simp] theorem Thread.wr_tf (t : Thread) (r : Reg) (v : Word) : (t.wr r v).tf = t.tf := by
  unfold Thread.wr; split <;> (try split) <;> rfl
@[simp] theorem Thread.wr_trapVec (t : Thread) (r : Reg) (v : Word) : (t.wr r v).trapVec = t.trapVec := by
  unfold Thread.wr; split <;> (try split) <;> rfl
@[simp] theorem Thread.wr_trapPc (t : Thread) (r : Reg) (v : Word) : (t.wr r v).trapPc = t.trapPc := by
  unfold Thread.wr; split <;> (try split) <;> rfl
@[simp] theorem Thread.wr_trapNext (t : Thread) (r : Reg) (v : Word) : (t.wr r v).trapNext = t.trapNext := by
  unfold Thread.wr; split <;> (try split) <;> rfl
@[simp] theorem Thread.wr_trapCause (t : Thread) (r : Reg) (v : Word) : (t.wr r v).trapCause = t.trapCause := by
  unfold Thread.wr; split <;> (try split) <;> rfl
@[simp] theorem Thread.wr_trapAddr (t : Thread) (r : Reg) (v : Word) : (t.wr r v).trapAddr = t.trapAddr := by
  unfold Thread.wr; split <;> (try split) <;> rfl
@[simp] theorem Thread.wr_trapInfo (t : Thread) (r : Reg) (v : Word) : (t.wr r v).trapInfo = t.trapInfo := by
  unfold Thread.wr; split <;> (try split) <;> rfl
@[simp] theorem Thread.wr_preActive (t : Thread) (r : Reg) (v : Word) : (t.wr r v).preActive = t.preActive := by
  unfold Thread.wr; split <;> (try split) <;> rfl
@[simp] theorem Thread.wr_prePc (t : Thread) (r : Reg) (v : Word) : (t.wr r v).prePc = t.prePc := by
  unfold Thread.wr; split <;> (try split) <;> rfl
@[simp] theorem Thread.wr_preLive (t : Thread) (r : Reg) (v : Word) : (t.wr r v).preLive = t.preLive := by
  unfold Thread.wr; split <;> (try split) <;> rfl
@[simp] theorem Thread.wr_preShadow (t : Thread) (r : Reg) (v : Word) : (t.wr r v).preShadow = t.preShadow := by
  unfold Thread.wr; split <;> (try split) <;> rfl
@[simp] theorem Thread.wr_preSuppress (t : Thread) (r : Reg) (v : Word) : (t.wr r v).preSuppress = t.preSuppress := by
  unfold Thread.wr; split <;> (try split) <;> rfl
@[simp] theorem Thread.wr_wp0 (t : Thread) (r : Reg) (v : Word) : (t.wr r v).wp0 = t.wp0 := by
  unfold Thread.wr; split <;> (try split) <;> rfl
@[simp] theorem Thread.wr_wp1 (t : Thread) (r : Reg) (v : Word) : (t.wr r v).wp1 = t.wp1 := by
  unfold Thread.wr; split <;> (try split) <;> rfl
@[simp] theorem Thread.wr_wpSuppress (t : Thread) (r : Reg) (v : Word) : (t.wr r v).wpSuppress = t.wpSuppress := by
  unfold Thread.wr; split <;> (try split) <;> rfl
@[simp] theorem Thread.wr_commits (t : Thread) (r : Reg) (v : Word) : (t.wr r v).commits = t.commits := by
  unfold Thread.wr; split <;> (try split) <;> rfl
@[simp] theorem Thread.wr_keep (t : Thread) (r : Reg) (v : Word) : (t.wr r v).keep = t.keep := by
  unfold Thread.wr; split <;> (try split) <;> rfl
@[simp] theorem Thread.wr_lose (t : Thread) (r : Reg) (v : Word) : (t.wr r v).lose = t.lose := by
  unfold Thread.wr; split <;> (try split) <;> rfl
@[simp] theorem Thread.wr_win (t : Thread) (r : Reg) (v : Word) : (t.wr r v).win = t.win := by
  unfold Thread.wr; split <;> (try split) <;> rfl
@[simp] theorem Thread.wr_emuEntry (t : Thread) (r : Reg) (v : Word) : (t.wr r v).emuEntry = t.emuEntry := by
  unfold Thread.wr; split <;> (try split) <;> rfl
@[simp] theorem Thread.wr_status (t : Thread) (r : Reg) (v : Word) : (t.wr r v).status = t.status := by
  unfold Thread.wr; split <;> (try split) <;> rfl
@[simp] theorem Thread.wr_granted (t : Thread) (r : Reg) (v : Word) : (t.wr r v).granted = t.granted := by
  unfold Thread.wr; split <;> (try split) <;> rfl
@[simp] theorem Thread.wr_departing (t : Thread) (r : Reg) (v : Word) : (t.wr r v).departing = t.departing := by
  unfold Thread.wr; split <;> (try split) <;> rfl
@[simp] theorem Thread.wr_pushes (t : Thread) (r : Reg) (v : Word) : (t.wr r v).pushes = t.pushes := by
  unfold Thread.wr; split <;> (try split) <;> rfl
@[simp] theorem Thread.wr_ord (t : Thread) (r : Reg) (v : Word) : (t.wr r v).ord = t.ord := by
  unfold Thread.wr; split <;> (try split) <;> rfl
@[simp] theorem Thread.wr_err (t : Thread) (r : Reg) (v : Word) : (t.wr r v).err = t.err := by
  unfold Thread.wr; split <;> (try split) <;> rfl
@[simp] theorem Thread.wr_rdy (t : Thread) (r : Reg) (v : Word) : (t.wr r v).rdy = t.rdy := by
  unfold Thread.wr; split <;> (try split) <;> rfl
@[simp] theorem Thread.wr_late (t : Thread) (r : Reg) (v : Word) : (t.wr r v).late = t.late := by
  unfold Thread.wr; split <;> (try split) <;> rfl
@[simp] theorem Thread.wr_yielded (t : Thread) (r : Reg) (v : Word) : (t.wr r v).yielded = t.yielded := by
  unfold Thread.wr; split <;> (try split) <;> rfl

@[simp] theorem Thread.wr64_pc (t : Thread) (r : Reg) (v : Dword) : (t.wr64 r v).pc = t.pc := by
  unfold Thread.wr64; split <;> simp
@[simp] theorem Thread.wr64_preds (t : Thread) (r : Reg) (v : Dword) : (t.wr64 r v).preds = t.preds := by
  unfold Thread.wr64; split <;> simp
@[simp] theorem Thread.wr64_flags (t : Thread) (r : Reg) (v : Dword) : (t.wr64 r v).flags = t.flags := by
  unfold Thread.wr64; split <;> simp
@[simp] theorem Thread.wr64_stack (t : Thread) (r : Reg) (v : Dword) : (t.wr64 r v).stack = t.stack := by
  unfold Thread.wr64; split <;> simp
@[simp] theorem Thread.wr64_csp (t : Thread) (r : Reg) (v : Dword) : (t.wr64 r v).csp = t.csp := by
  unfold Thread.wr64; split <;> simp
@[simp] theorem Thread.wr64_spilled (t : Thread) (r : Reg) (v : Dword) : (t.wr64 r v).spilled = t.spilled := by
  unfold Thread.wr64; split <;> simp
@[simp] theorem Thread.wr64_shadow (t : Thread) (r : Reg) (v : Dword) : (t.wr64 r v).shadow = t.shadow := by
  unfold Thread.wr64; split <;> simp
@[simp] theorem Thread.wr64_hazards (t : Thread) (r : Reg) (v : Dword) : (t.wr64 r v).hazards = t.hazards := by
  unfold Thread.wr64; split <;> simp
@[simp] theorem Thread.wr64_out (t : Thread) (r : Reg) (v : Dword) : (t.wr64 r v).out = t.out := by
  unfold Thread.wr64; split <;> simp
@[simp] theorem Thread.wr64_pend (t : Thread) (r : Reg) (v : Dword) : (t.wr64 r v).pend = t.pend := by
  unfold Thread.wr64; split <;> simp
@[simp] theorem Thread.wr64_handler (t : Thread) (r : Reg) (v : Dword) : (t.wr64 r v).handler = t.handler := by
  unfold Thread.wr64; split <;> simp
@[simp] theorem Thread.wr64_x (t : Thread) (r : Reg) (v : Dword) : (t.wr64 r v).x = t.x := by
  unfold Thread.wr64; split <;> simp
@[simp] theorem Thread.wr64_emuPc (t : Thread) (r : Reg) (v : Dword) : (t.wr64 r v).emuPc = t.emuPc := by
  unfold Thread.wr64; split <;> simp
@[simp] theorem Thread.wr64_emuNext (t : Thread) (r : Reg) (v : Dword) : (t.wr64 r v).emuNext = t.emuNext := by
  unfold Thread.wr64; split <;> simp
@[simp] theorem Thread.wr64_emuWord (t : Thread) (r : Reg) (v : Dword) : (t.wr64 r v).emuWord = t.emuWord := by
  unfold Thread.wr64; split <;> simp
@[simp] theorem Thread.wr64_emuInfo (t : Thread) (r : Reg) (v : Dword) : (t.wr64 r v).emuInfo = t.emuInfo := by
  unfold Thread.wr64; split <;> simp
@[simp] theorem Thread.wr64_tf (t : Thread) (r : Reg) (v : Dword) : (t.wr64 r v).tf = t.tf := by
  unfold Thread.wr64; split <;> simp
@[simp] theorem Thread.wr64_trapVec (t : Thread) (r : Reg) (v : Dword) : (t.wr64 r v).trapVec = t.trapVec := by
  unfold Thread.wr64; split <;> simp
@[simp] theorem Thread.wr64_trapPc (t : Thread) (r : Reg) (v : Dword) : (t.wr64 r v).trapPc = t.trapPc := by
  unfold Thread.wr64; split <;> simp
@[simp] theorem Thread.wr64_trapNext (t : Thread) (r : Reg) (v : Dword) : (t.wr64 r v).trapNext = t.trapNext := by
  unfold Thread.wr64; split <;> simp
@[simp] theorem Thread.wr64_trapCause (t : Thread) (r : Reg) (v : Dword) : (t.wr64 r v).trapCause = t.trapCause := by
  unfold Thread.wr64; split <;> simp
@[simp] theorem Thread.wr64_trapAddr (t : Thread) (r : Reg) (v : Dword) : (t.wr64 r v).trapAddr = t.trapAddr := by
  unfold Thread.wr64; split <;> simp
@[simp] theorem Thread.wr64_trapInfo (t : Thread) (r : Reg) (v : Dword) : (t.wr64 r v).trapInfo = t.trapInfo := by
  unfold Thread.wr64; split <;> simp
@[simp] theorem Thread.wr64_preActive (t : Thread) (r : Reg) (v : Dword) : (t.wr64 r v).preActive = t.preActive := by
  unfold Thread.wr64; split <;> simp
@[simp] theorem Thread.wr64_prePc (t : Thread) (r : Reg) (v : Dword) : (t.wr64 r v).prePc = t.prePc := by
  unfold Thread.wr64; split <;> simp
@[simp] theorem Thread.wr64_preLive (t : Thread) (r : Reg) (v : Dword) : (t.wr64 r v).preLive = t.preLive := by
  unfold Thread.wr64; split <;> simp
@[simp] theorem Thread.wr64_preShadow (t : Thread) (r : Reg) (v : Dword) : (t.wr64 r v).preShadow = t.preShadow := by
  unfold Thread.wr64; split <;> simp
@[simp] theorem Thread.wr64_preSuppress (t : Thread) (r : Reg) (v : Dword) : (t.wr64 r v).preSuppress = t.preSuppress := by
  unfold Thread.wr64; split <;> simp
@[simp] theorem Thread.wr64_wp0 (t : Thread) (r : Reg) (v : Dword) : (t.wr64 r v).wp0 = t.wp0 := by
  unfold Thread.wr64; split <;> simp
@[simp] theorem Thread.wr64_wp1 (t : Thread) (r : Reg) (v : Dword) : (t.wr64 r v).wp1 = t.wp1 := by
  unfold Thread.wr64; split <;> simp
@[simp] theorem Thread.wr64_wpSuppress (t : Thread) (r : Reg) (v : Dword) : (t.wr64 r v).wpSuppress = t.wpSuppress := by
  unfold Thread.wr64; split <;> simp
@[simp] theorem Thread.wr64_commits (t : Thread) (r : Reg) (v : Dword) : (t.wr64 r v).commits = t.commits := by
  unfold Thread.wr64; split <;> simp
@[simp] theorem Thread.wr64_keep (t : Thread) (r : Reg) (v : Dword) : (t.wr64 r v).keep = t.keep := by
  unfold Thread.wr64; split <;> simp
@[simp] theorem Thread.wr64_lose (t : Thread) (r : Reg) (v : Dword) : (t.wr64 r v).lose = t.lose := by
  unfold Thread.wr64; split <;> simp
@[simp] theorem Thread.wr64_win (t : Thread) (r : Reg) (v : Dword) : (t.wr64 r v).win = t.win := by
  unfold Thread.wr64; split <;> simp
@[simp] theorem Thread.wr64_emuEntry (t : Thread) (r : Reg) (v : Dword) : (t.wr64 r v).emuEntry = t.emuEntry := by
  unfold Thread.wr64; split <;> simp
@[simp] theorem Thread.wr64_status (t : Thread) (r : Reg) (v : Dword) : (t.wr64 r v).status = t.status := by
  unfold Thread.wr64; split <;> simp
@[simp] theorem Thread.wr64_granted (t : Thread) (r : Reg) (v : Dword) : (t.wr64 r v).granted = t.granted := by
  unfold Thread.wr64; split <;> simp
@[simp] theorem Thread.wr64_departing (t : Thread) (r : Reg) (v : Dword) : (t.wr64 r v).departing = t.departing := by
  unfold Thread.wr64; split <;> simp
@[simp] theorem Thread.wr64_pushes (t : Thread) (r : Reg) (v : Dword) : (t.wr64 r v).pushes = t.pushes := by
  unfold Thread.wr64; split <;> simp
@[simp] theorem Thread.wr64_ord (t : Thread) (r : Reg) (v : Dword) : (t.wr64 r v).ord = t.ord := by
  unfold Thread.wr64; split <;> simp
@[simp] theorem Thread.wr64_err (t : Thread) (r : Reg) (v : Dword) : (t.wr64 r v).err = t.err := by
  unfold Thread.wr64; split <;> simp
@[simp] theorem Thread.wr64_rdy (t : Thread) (r : Reg) (v : Dword) : (t.wr64 r v).rdy = t.rdy := by
  unfold Thread.wr64; split <;> simp
@[simp] theorem Thread.wr64_late (t : Thread) (r : Reg) (v : Dword) : (t.wr64 r v).late = t.late := by
  unfold Thread.wr64; split <;> simp
@[simp] theorem Thread.wr64_yielded (t : Thread) (r : Reg) (v : Dword) : (t.wr64 r v).yielded = t.yielded := by
  unfold Thread.wr64; split <;> simp

@[simp] theorem Thread.wrW_pc (t : Thread) (w : Bool) (r : Reg) (v : Dword) : (t.wrW w r v).pc = t.pc := by
  unfold Thread.wrW; split <;> simp
@[simp] theorem Thread.wrW_preds (t : Thread) (w : Bool) (r : Reg) (v : Dword) : (t.wrW w r v).preds = t.preds := by
  unfold Thread.wrW; split <;> simp
@[simp] theorem Thread.wrW_flags (t : Thread) (w : Bool) (r : Reg) (v : Dword) : (t.wrW w r v).flags = t.flags := by
  unfold Thread.wrW; split <;> simp
@[simp] theorem Thread.wrW_stack (t : Thread) (w : Bool) (r : Reg) (v : Dword) : (t.wrW w r v).stack = t.stack := by
  unfold Thread.wrW; split <;> simp
@[simp] theorem Thread.wrW_csp (t : Thread) (w : Bool) (r : Reg) (v : Dword) : (t.wrW w r v).csp = t.csp := by
  unfold Thread.wrW; split <;> simp
@[simp] theorem Thread.wrW_spilled (t : Thread) (w : Bool) (r : Reg) (v : Dword) : (t.wrW w r v).spilled = t.spilled := by
  unfold Thread.wrW; split <;> simp
@[simp] theorem Thread.wrW_shadow (t : Thread) (w : Bool) (r : Reg) (v : Dword) : (t.wrW w r v).shadow = t.shadow := by
  unfold Thread.wrW; split <;> simp
@[simp] theorem Thread.wrW_hazards (t : Thread) (w : Bool) (r : Reg) (v : Dword) : (t.wrW w r v).hazards = t.hazards := by
  unfold Thread.wrW; split <;> simp
@[simp] theorem Thread.wrW_out (t : Thread) (w : Bool) (r : Reg) (v : Dword) : (t.wrW w r v).out = t.out := by
  unfold Thread.wrW; split <;> simp
@[simp] theorem Thread.wrW_pend (t : Thread) (w : Bool) (r : Reg) (v : Dword) : (t.wrW w r v).pend = t.pend := by
  unfold Thread.wrW; split <;> simp
@[simp] theorem Thread.wrW_handler (t : Thread) (w : Bool) (r : Reg) (v : Dword) : (t.wrW w r v).handler = t.handler := by
  unfold Thread.wrW; split <;> simp
@[simp] theorem Thread.wrW_x (t : Thread) (w : Bool) (r : Reg) (v : Dword) : (t.wrW w r v).x = t.x := by
  unfold Thread.wrW; split <;> simp
@[simp] theorem Thread.wrW_emuPc (t : Thread) (w : Bool) (r : Reg) (v : Dword) : (t.wrW w r v).emuPc = t.emuPc := by
  unfold Thread.wrW; split <;> simp
@[simp] theorem Thread.wrW_emuNext (t : Thread) (w : Bool) (r : Reg) (v : Dword) : (t.wrW w r v).emuNext = t.emuNext := by
  unfold Thread.wrW; split <;> simp
@[simp] theorem Thread.wrW_emuWord (t : Thread) (w : Bool) (r : Reg) (v : Dword) : (t.wrW w r v).emuWord = t.emuWord := by
  unfold Thread.wrW; split <;> simp
@[simp] theorem Thread.wrW_emuInfo (t : Thread) (w : Bool) (r : Reg) (v : Dword) : (t.wrW w r v).emuInfo = t.emuInfo := by
  unfold Thread.wrW; split <;> simp
@[simp] theorem Thread.wrW_tf (t : Thread) (w : Bool) (r : Reg) (v : Dword) : (t.wrW w r v).tf = t.tf := by
  unfold Thread.wrW; split <;> simp
@[simp] theorem Thread.wrW_trapVec (t : Thread) (w : Bool) (r : Reg) (v : Dword) : (t.wrW w r v).trapVec = t.trapVec := by
  unfold Thread.wrW; split <;> simp
@[simp] theorem Thread.wrW_trapPc (t : Thread) (w : Bool) (r : Reg) (v : Dword) : (t.wrW w r v).trapPc = t.trapPc := by
  unfold Thread.wrW; split <;> simp
@[simp] theorem Thread.wrW_trapNext (t : Thread) (w : Bool) (r : Reg) (v : Dword) : (t.wrW w r v).trapNext = t.trapNext := by
  unfold Thread.wrW; split <;> simp
@[simp] theorem Thread.wrW_trapCause (t : Thread) (w : Bool) (r : Reg) (v : Dword) : (t.wrW w r v).trapCause = t.trapCause := by
  unfold Thread.wrW; split <;> simp
@[simp] theorem Thread.wrW_trapAddr (t : Thread) (w : Bool) (r : Reg) (v : Dword) : (t.wrW w r v).trapAddr = t.trapAddr := by
  unfold Thread.wrW; split <;> simp
@[simp] theorem Thread.wrW_trapInfo (t : Thread) (w : Bool) (r : Reg) (v : Dword) : (t.wrW w r v).trapInfo = t.trapInfo := by
  unfold Thread.wrW; split <;> simp
@[simp] theorem Thread.wrW_preActive (t : Thread) (w : Bool) (r : Reg) (v : Dword) : (t.wrW w r v).preActive = t.preActive := by
  unfold Thread.wrW; split <;> simp
@[simp] theorem Thread.wrW_prePc (t : Thread) (w : Bool) (r : Reg) (v : Dword) : (t.wrW w r v).prePc = t.prePc := by
  unfold Thread.wrW; split <;> simp
@[simp] theorem Thread.wrW_preLive (t : Thread) (w : Bool) (r : Reg) (v : Dword) : (t.wrW w r v).preLive = t.preLive := by
  unfold Thread.wrW; split <;> simp
@[simp] theorem Thread.wrW_preShadow (t : Thread) (w : Bool) (r : Reg) (v : Dword) : (t.wrW w r v).preShadow = t.preShadow := by
  unfold Thread.wrW; split <;> simp
@[simp] theorem Thread.wrW_preSuppress (t : Thread) (w : Bool) (r : Reg) (v : Dword) : (t.wrW w r v).preSuppress = t.preSuppress := by
  unfold Thread.wrW; split <;> simp
@[simp] theorem Thread.wrW_wp0 (t : Thread) (w : Bool) (r : Reg) (v : Dword) : (t.wrW w r v).wp0 = t.wp0 := by
  unfold Thread.wrW; split <;> simp
@[simp] theorem Thread.wrW_wp1 (t : Thread) (w : Bool) (r : Reg) (v : Dword) : (t.wrW w r v).wp1 = t.wp1 := by
  unfold Thread.wrW; split <;> simp
@[simp] theorem Thread.wrW_wpSuppress (t : Thread) (w : Bool) (r : Reg) (v : Dword) : (t.wrW w r v).wpSuppress = t.wpSuppress := by
  unfold Thread.wrW; split <;> simp
@[simp] theorem Thread.wrW_commits (t : Thread) (w : Bool) (r : Reg) (v : Dword) : (t.wrW w r v).commits = t.commits := by
  unfold Thread.wrW; split <;> simp
@[simp] theorem Thread.wrW_keep (t : Thread) (w : Bool) (r : Reg) (v : Dword) : (t.wrW w r v).keep = t.keep := by
  unfold Thread.wrW; split <;> simp
@[simp] theorem Thread.wrW_lose (t : Thread) (w : Bool) (r : Reg) (v : Dword) : (t.wrW w r v).lose = t.lose := by
  unfold Thread.wrW; split <;> simp
@[simp] theorem Thread.wrW_win (t : Thread) (w : Bool) (r : Reg) (v : Dword) : (t.wrW w r v).win = t.win := by
  unfold Thread.wrW; split <;> simp
@[simp] theorem Thread.wrW_emuEntry (t : Thread) (w : Bool) (r : Reg) (v : Dword) : (t.wrW w r v).emuEntry = t.emuEntry := by
  unfold Thread.wrW; split <;> simp
@[simp] theorem Thread.wrW_status (t : Thread) (w : Bool) (r : Reg) (v : Dword) : (t.wrW w r v).status = t.status := by
  unfold Thread.wrW; split <;> simp
@[simp] theorem Thread.wrW_granted (t : Thread) (w : Bool) (r : Reg) (v : Dword) : (t.wrW w r v).granted = t.granted := by
  unfold Thread.wrW; split <;> simp
@[simp] theorem Thread.wrW_departing (t : Thread) (w : Bool) (r : Reg) (v : Dword) : (t.wrW w r v).departing = t.departing := by
  unfold Thread.wrW; split <;> simp
@[simp] theorem Thread.wrW_pushes (t : Thread) (w : Bool) (r : Reg) (v : Dword) : (t.wrW w r v).pushes = t.pushes := by
  unfold Thread.wrW; split <;> simp
@[simp] theorem Thread.wrW_ord (t : Thread) (w : Bool) (r : Reg) (v : Dword) : (t.wrW w r v).ord = t.ord := by
  unfold Thread.wrW; split <;> simp
@[simp] theorem Thread.wrW_err (t : Thread) (w : Bool) (r : Reg) (v : Dword) : (t.wrW w r v).err = t.err := by
  unfold Thread.wrW; split <;> simp
@[simp] theorem Thread.wrW_rdy (t : Thread) (w : Bool) (r : Reg) (v : Dword) : (t.wrW w r v).rdy = t.rdy := by
  unfold Thread.wrW; split <;> simp
@[simp] theorem Thread.wrW_late (t : Thread) (w : Bool) (r : Reg) (v : Dword) : (t.wrW w r v).late = t.late := by
  unfold Thread.wrW; split <;> simp
@[simp] theorem Thread.wrW_yielded (t : Thread) (w : Bool) (r : Reg) (v : Dword) : (t.wrW w r v).yielded = t.yielded := by
  unfold Thread.wrW; split <;> simp

@[simp] theorem Thread.setKey_pc (t : Thread) (k : RegKey) (v : Dword) : (t.setKey k v).pc = t.pc := by
  unfold Thread.setKey; split <;> simp
@[simp] theorem Thread.setKey_flags (t : Thread) (k : RegKey) (v : Dword) : (t.setKey k v).flags = t.flags := by
  unfold Thread.setKey; split <;> simp
@[simp] theorem Thread.setKey_stack (t : Thread) (k : RegKey) (v : Dword) : (t.setKey k v).stack = t.stack := by
  unfold Thread.setKey; split <;> simp
@[simp] theorem Thread.setKey_csp (t : Thread) (k : RegKey) (v : Dword) : (t.setKey k v).csp = t.csp := by
  unfold Thread.setKey; split <;> simp
@[simp] theorem Thread.setKey_spilled (t : Thread) (k : RegKey) (v : Dword) : (t.setKey k v).spilled = t.spilled := by
  unfold Thread.setKey; split <;> simp
@[simp] theorem Thread.setKey_shadow (t : Thread) (k : RegKey) (v : Dword) : (t.setKey k v).shadow = t.shadow := by
  unfold Thread.setKey; split <;> simp
@[simp] theorem Thread.setKey_hazards (t : Thread) (k : RegKey) (v : Dword) : (t.setKey k v).hazards = t.hazards := by
  unfold Thread.setKey; split <;> simp
@[simp] theorem Thread.setKey_out (t : Thread) (k : RegKey) (v : Dword) : (t.setKey k v).out = t.out := by
  unfold Thread.setKey; split <;> simp
@[simp] theorem Thread.setKey_pend (t : Thread) (k : RegKey) (v : Dword) : (t.setKey k v).pend = t.pend := by
  unfold Thread.setKey; split <;> simp
@[simp] theorem Thread.setKey_handler (t : Thread) (k : RegKey) (v : Dword) : (t.setKey k v).handler = t.handler := by
  unfold Thread.setKey; split <;> simp
@[simp] theorem Thread.setKey_x (t : Thread) (k : RegKey) (v : Dword) : (t.setKey k v).x = t.x := by
  unfold Thread.setKey; split <;> simp
@[simp] theorem Thread.setKey_emuPc (t : Thread) (k : RegKey) (v : Dword) : (t.setKey k v).emuPc = t.emuPc := by
  unfold Thread.setKey; split <;> simp
@[simp] theorem Thread.setKey_emuNext (t : Thread) (k : RegKey) (v : Dword) : (t.setKey k v).emuNext = t.emuNext := by
  unfold Thread.setKey; split <;> simp
@[simp] theorem Thread.setKey_emuWord (t : Thread) (k : RegKey) (v : Dword) : (t.setKey k v).emuWord = t.emuWord := by
  unfold Thread.setKey; split <;> simp
@[simp] theorem Thread.setKey_emuInfo (t : Thread) (k : RegKey) (v : Dword) : (t.setKey k v).emuInfo = t.emuInfo := by
  unfold Thread.setKey; split <;> simp
@[simp] theorem Thread.setKey_tf (t : Thread) (k : RegKey) (v : Dword) : (t.setKey k v).tf = t.tf := by
  unfold Thread.setKey; split <;> simp
@[simp] theorem Thread.setKey_trapVec (t : Thread) (k : RegKey) (v : Dword) : (t.setKey k v).trapVec = t.trapVec := by
  unfold Thread.setKey; split <;> simp
@[simp] theorem Thread.setKey_trapPc (t : Thread) (k : RegKey) (v : Dword) : (t.setKey k v).trapPc = t.trapPc := by
  unfold Thread.setKey; split <;> simp
@[simp] theorem Thread.setKey_trapNext (t : Thread) (k : RegKey) (v : Dword) : (t.setKey k v).trapNext = t.trapNext := by
  unfold Thread.setKey; split <;> simp
@[simp] theorem Thread.setKey_trapCause (t : Thread) (k : RegKey) (v : Dword) : (t.setKey k v).trapCause = t.trapCause := by
  unfold Thread.setKey; split <;> simp
@[simp] theorem Thread.setKey_trapAddr (t : Thread) (k : RegKey) (v : Dword) : (t.setKey k v).trapAddr = t.trapAddr := by
  unfold Thread.setKey; split <;> simp
@[simp] theorem Thread.setKey_trapInfo (t : Thread) (k : RegKey) (v : Dword) : (t.setKey k v).trapInfo = t.trapInfo := by
  unfold Thread.setKey; split <;> simp
@[simp] theorem Thread.setKey_preActive (t : Thread) (k : RegKey) (v : Dword) : (t.setKey k v).preActive = t.preActive := by
  unfold Thread.setKey; split <;> simp
@[simp] theorem Thread.setKey_prePc (t : Thread) (k : RegKey) (v : Dword) : (t.setKey k v).prePc = t.prePc := by
  unfold Thread.setKey; split <;> simp
@[simp] theorem Thread.setKey_preLive (t : Thread) (k : RegKey) (v : Dword) : (t.setKey k v).preLive = t.preLive := by
  unfold Thread.setKey; split <;> simp
@[simp] theorem Thread.setKey_preShadow (t : Thread) (k : RegKey) (v : Dword) : (t.setKey k v).preShadow = t.preShadow := by
  unfold Thread.setKey; split <;> simp
@[simp] theorem Thread.setKey_preSuppress (t : Thread) (k : RegKey) (v : Dword) : (t.setKey k v).preSuppress = t.preSuppress := by
  unfold Thread.setKey; split <;> simp
@[simp] theorem Thread.setKey_wp0 (t : Thread) (k : RegKey) (v : Dword) : (t.setKey k v).wp0 = t.wp0 := by
  unfold Thread.setKey; split <;> simp
@[simp] theorem Thread.setKey_wp1 (t : Thread) (k : RegKey) (v : Dword) : (t.setKey k v).wp1 = t.wp1 := by
  unfold Thread.setKey; split <;> simp
@[simp] theorem Thread.setKey_wpSuppress (t : Thread) (k : RegKey) (v : Dword) : (t.setKey k v).wpSuppress = t.wpSuppress := by
  unfold Thread.setKey; split <;> simp
@[simp] theorem Thread.setKey_commits (t : Thread) (k : RegKey) (v : Dword) : (t.setKey k v).commits = t.commits := by
  unfold Thread.setKey; split <;> simp
@[simp] theorem Thread.setKey_keep (t : Thread) (k : RegKey) (v : Dword) : (t.setKey k v).keep = t.keep := by
  unfold Thread.setKey; split <;> simp
@[simp] theorem Thread.setKey_lose (t : Thread) (k : RegKey) (v : Dword) : (t.setKey k v).lose = t.lose := by
  unfold Thread.setKey; split <;> simp
@[simp] theorem Thread.setKey_win (t : Thread) (k : RegKey) (v : Dword) : (t.setKey k v).win = t.win := by
  unfold Thread.setKey; split <;> simp
@[simp] theorem Thread.setKey_emuEntry (t : Thread) (k : RegKey) (v : Dword) : (t.setKey k v).emuEntry = t.emuEntry := by
  unfold Thread.setKey; split <;> simp
@[simp] theorem Thread.setKey_status (t : Thread) (k : RegKey) (v : Dword) : (t.setKey k v).status = t.status := by
  unfold Thread.setKey; split <;> simp
@[simp] theorem Thread.setKey_granted (t : Thread) (k : RegKey) (v : Dword) : (t.setKey k v).granted = t.granted := by
  unfold Thread.setKey; split <;> simp
@[simp] theorem Thread.setKey_departing (t : Thread) (k : RegKey) (v : Dword) : (t.setKey k v).departing = t.departing := by
  unfold Thread.setKey; split <;> simp
@[simp] theorem Thread.setKey_pushes (t : Thread) (k : RegKey) (v : Dword) : (t.setKey k v).pushes = t.pushes := by
  unfold Thread.setKey; split <;> simp
@[simp] theorem Thread.setKey_ord (t : Thread) (k : RegKey) (v : Dword) : (t.setKey k v).ord = t.ord := by
  unfold Thread.setKey; split <;> simp
@[simp] theorem Thread.setKey_err (t : Thread) (k : RegKey) (v : Dword) : (t.setKey k v).err = t.err := by
  unfold Thread.setKey; split <;> simp
@[simp] theorem Thread.setKey_rdy (t : Thread) (k : RegKey) (v : Dword) : (t.setKey k v).rdy = t.rdy := by
  unfold Thread.setKey; split <;> simp
@[simp] theorem Thread.setKey_late (t : Thread) (k : RegKey) (v : Dword) : (t.setKey k v).late = t.late := by
  unfold Thread.setKey; split <;> simp
@[simp] theorem Thread.setKey_yielded (t : Thread) (k : RegKey) (v : Dword) : (t.setKey k v).yielded = t.yielded := by
  unfold Thread.setKey; split <;> simp

@[simp] theorem Thread.restore_pc (t : Thread) (ks : List RegKey) : (t.restore ks).pc = t.pc := by
  have aux : ∀ (l : List (RegKey × Dword)) (u : Thread),
      (l.foldl (fun t k => if ks.contains k.1 then t else t.setKey k.1 k.2) u).pc = u.pc := by
    intro l
    induction l with
    | nil => intro u; rfl
    | cons k l ih => intro u; rw [List.foldl_cons, ih]; split <;> simp
  exact aux t.keep t
@[simp] theorem Thread.restore_flags (t : Thread) (ks : List RegKey) : (t.restore ks).flags = t.flags := by
  have aux : ∀ (l : List (RegKey × Dword)) (u : Thread),
      (l.foldl (fun t k => if ks.contains k.1 then t else t.setKey k.1 k.2) u).flags = u.flags := by
    intro l
    induction l with
    | nil => intro u; rfl
    | cons k l ih => intro u; rw [List.foldl_cons, ih]; split <;> simp
  exact aux t.keep t
@[simp] theorem Thread.restore_stack (t : Thread) (ks : List RegKey) : (t.restore ks).stack = t.stack := by
  have aux : ∀ (l : List (RegKey × Dword)) (u : Thread),
      (l.foldl (fun t k => if ks.contains k.1 then t else t.setKey k.1 k.2) u).stack = u.stack := by
    intro l
    induction l with
    | nil => intro u; rfl
    | cons k l ih => intro u; rw [List.foldl_cons, ih]; split <;> simp
  exact aux t.keep t
@[simp] theorem Thread.restore_csp (t : Thread) (ks : List RegKey) : (t.restore ks).csp = t.csp := by
  have aux : ∀ (l : List (RegKey × Dword)) (u : Thread),
      (l.foldl (fun t k => if ks.contains k.1 then t else t.setKey k.1 k.2) u).csp = u.csp := by
    intro l
    induction l with
    | nil => intro u; rfl
    | cons k l ih => intro u; rw [List.foldl_cons, ih]; split <;> simp
  exact aux t.keep t
@[simp] theorem Thread.restore_spilled (t : Thread) (ks : List RegKey) : (t.restore ks).spilled = t.spilled := by
  have aux : ∀ (l : List (RegKey × Dword)) (u : Thread),
      (l.foldl (fun t k => if ks.contains k.1 then t else t.setKey k.1 k.2) u).spilled = u.spilled := by
    intro l
    induction l with
    | nil => intro u; rfl
    | cons k l ih => intro u; rw [List.foldl_cons, ih]; split <;> simp
  exact aux t.keep t
@[simp] theorem Thread.restore_shadow (t : Thread) (ks : List RegKey) : (t.restore ks).shadow = t.shadow := by
  have aux : ∀ (l : List (RegKey × Dword)) (u : Thread),
      (l.foldl (fun t k => if ks.contains k.1 then t else t.setKey k.1 k.2) u).shadow = u.shadow := by
    intro l
    induction l with
    | nil => intro u; rfl
    | cons k l ih => intro u; rw [List.foldl_cons, ih]; split <;> simp
  exact aux t.keep t
@[simp] theorem Thread.restore_hazards (t : Thread) (ks : List RegKey) : (t.restore ks).hazards = t.hazards := by
  have aux : ∀ (l : List (RegKey × Dword)) (u : Thread),
      (l.foldl (fun t k => if ks.contains k.1 then t else t.setKey k.1 k.2) u).hazards = u.hazards := by
    intro l
    induction l with
    | nil => intro u; rfl
    | cons k l ih => intro u; rw [List.foldl_cons, ih]; split <;> simp
  exact aux t.keep t
@[simp] theorem Thread.restore_out (t : Thread) (ks : List RegKey) : (t.restore ks).out = t.out := by
  have aux : ∀ (l : List (RegKey × Dword)) (u : Thread),
      (l.foldl (fun t k => if ks.contains k.1 then t else t.setKey k.1 k.2) u).out = u.out := by
    intro l
    induction l with
    | nil => intro u; rfl
    | cons k l ih => intro u; rw [List.foldl_cons, ih]; split <;> simp
  exact aux t.keep t
@[simp] theorem Thread.restore_pend (t : Thread) (ks : List RegKey) : (t.restore ks).pend = t.pend := by
  have aux : ∀ (l : List (RegKey × Dword)) (u : Thread),
      (l.foldl (fun t k => if ks.contains k.1 then t else t.setKey k.1 k.2) u).pend = u.pend := by
    intro l
    induction l with
    | nil => intro u; rfl
    | cons k l ih => intro u; rw [List.foldl_cons, ih]; split <;> simp
  exact aux t.keep t
@[simp] theorem Thread.restore_handler (t : Thread) (ks : List RegKey) : (t.restore ks).handler = t.handler := by
  have aux : ∀ (l : List (RegKey × Dword)) (u : Thread),
      (l.foldl (fun t k => if ks.contains k.1 then t else t.setKey k.1 k.2) u).handler = u.handler := by
    intro l
    induction l with
    | nil => intro u; rfl
    | cons k l ih => intro u; rw [List.foldl_cons, ih]; split <;> simp
  exact aux t.keep t
@[simp] theorem Thread.restore_x (t : Thread) (ks : List RegKey) : (t.restore ks).x = t.x := by
  have aux : ∀ (l : List (RegKey × Dword)) (u : Thread),
      (l.foldl (fun t k => if ks.contains k.1 then t else t.setKey k.1 k.2) u).x = u.x := by
    intro l
    induction l with
    | nil => intro u; rfl
    | cons k l ih => intro u; rw [List.foldl_cons, ih]; split <;> simp
  exact aux t.keep t
@[simp] theorem Thread.restore_emuPc (t : Thread) (ks : List RegKey) : (t.restore ks).emuPc = t.emuPc := by
  have aux : ∀ (l : List (RegKey × Dword)) (u : Thread),
      (l.foldl (fun t k => if ks.contains k.1 then t else t.setKey k.1 k.2) u).emuPc = u.emuPc := by
    intro l
    induction l with
    | nil => intro u; rfl
    | cons k l ih => intro u; rw [List.foldl_cons, ih]; split <;> simp
  exact aux t.keep t
@[simp] theorem Thread.restore_emuNext (t : Thread) (ks : List RegKey) : (t.restore ks).emuNext = t.emuNext := by
  have aux : ∀ (l : List (RegKey × Dword)) (u : Thread),
      (l.foldl (fun t k => if ks.contains k.1 then t else t.setKey k.1 k.2) u).emuNext = u.emuNext := by
    intro l
    induction l with
    | nil => intro u; rfl
    | cons k l ih => intro u; rw [List.foldl_cons, ih]; split <;> simp
  exact aux t.keep t
@[simp] theorem Thread.restore_emuWord (t : Thread) (ks : List RegKey) : (t.restore ks).emuWord = t.emuWord := by
  have aux : ∀ (l : List (RegKey × Dword)) (u : Thread),
      (l.foldl (fun t k => if ks.contains k.1 then t else t.setKey k.1 k.2) u).emuWord = u.emuWord := by
    intro l
    induction l with
    | nil => intro u; rfl
    | cons k l ih => intro u; rw [List.foldl_cons, ih]; split <;> simp
  exact aux t.keep t
@[simp] theorem Thread.restore_emuInfo (t : Thread) (ks : List RegKey) : (t.restore ks).emuInfo = t.emuInfo := by
  have aux : ∀ (l : List (RegKey × Dword)) (u : Thread),
      (l.foldl (fun t k => if ks.contains k.1 then t else t.setKey k.1 k.2) u).emuInfo = u.emuInfo := by
    intro l
    induction l with
    | nil => intro u; rfl
    | cons k l ih => intro u; rw [List.foldl_cons, ih]; split <;> simp
  exact aux t.keep t
@[simp] theorem Thread.restore_tf (t : Thread) (ks : List RegKey) : (t.restore ks).tf = t.tf := by
  have aux : ∀ (l : List (RegKey × Dword)) (u : Thread),
      (l.foldl (fun t k => if ks.contains k.1 then t else t.setKey k.1 k.2) u).tf = u.tf := by
    intro l
    induction l with
    | nil => intro u; rfl
    | cons k l ih => intro u; rw [List.foldl_cons, ih]; split <;> simp
  exact aux t.keep t
@[simp] theorem Thread.restore_trapVec (t : Thread) (ks : List RegKey) : (t.restore ks).trapVec = t.trapVec := by
  have aux : ∀ (l : List (RegKey × Dword)) (u : Thread),
      (l.foldl (fun t k => if ks.contains k.1 then t else t.setKey k.1 k.2) u).trapVec = u.trapVec := by
    intro l
    induction l with
    | nil => intro u; rfl
    | cons k l ih => intro u; rw [List.foldl_cons, ih]; split <;> simp
  exact aux t.keep t
@[simp] theorem Thread.restore_trapPc (t : Thread) (ks : List RegKey) : (t.restore ks).trapPc = t.trapPc := by
  have aux : ∀ (l : List (RegKey × Dword)) (u : Thread),
      (l.foldl (fun t k => if ks.contains k.1 then t else t.setKey k.1 k.2) u).trapPc = u.trapPc := by
    intro l
    induction l with
    | nil => intro u; rfl
    | cons k l ih => intro u; rw [List.foldl_cons, ih]; split <;> simp
  exact aux t.keep t
@[simp] theorem Thread.restore_trapNext (t : Thread) (ks : List RegKey) : (t.restore ks).trapNext = t.trapNext := by
  have aux : ∀ (l : List (RegKey × Dword)) (u : Thread),
      (l.foldl (fun t k => if ks.contains k.1 then t else t.setKey k.1 k.2) u).trapNext = u.trapNext := by
    intro l
    induction l with
    | nil => intro u; rfl
    | cons k l ih => intro u; rw [List.foldl_cons, ih]; split <;> simp
  exact aux t.keep t
@[simp] theorem Thread.restore_trapCause (t : Thread) (ks : List RegKey) : (t.restore ks).trapCause = t.trapCause := by
  have aux : ∀ (l : List (RegKey × Dword)) (u : Thread),
      (l.foldl (fun t k => if ks.contains k.1 then t else t.setKey k.1 k.2) u).trapCause = u.trapCause := by
    intro l
    induction l with
    | nil => intro u; rfl
    | cons k l ih => intro u; rw [List.foldl_cons, ih]; split <;> simp
  exact aux t.keep t
@[simp] theorem Thread.restore_trapAddr (t : Thread) (ks : List RegKey) : (t.restore ks).trapAddr = t.trapAddr := by
  have aux : ∀ (l : List (RegKey × Dword)) (u : Thread),
      (l.foldl (fun t k => if ks.contains k.1 then t else t.setKey k.1 k.2) u).trapAddr = u.trapAddr := by
    intro l
    induction l with
    | nil => intro u; rfl
    | cons k l ih => intro u; rw [List.foldl_cons, ih]; split <;> simp
  exact aux t.keep t
@[simp] theorem Thread.restore_trapInfo (t : Thread) (ks : List RegKey) : (t.restore ks).trapInfo = t.trapInfo := by
  have aux : ∀ (l : List (RegKey × Dword)) (u : Thread),
      (l.foldl (fun t k => if ks.contains k.1 then t else t.setKey k.1 k.2) u).trapInfo = u.trapInfo := by
    intro l
    induction l with
    | nil => intro u; rfl
    | cons k l ih => intro u; rw [List.foldl_cons, ih]; split <;> simp
  exact aux t.keep t
@[simp] theorem Thread.restore_preActive (t : Thread) (ks : List RegKey) : (t.restore ks).preActive = t.preActive := by
  have aux : ∀ (l : List (RegKey × Dword)) (u : Thread),
      (l.foldl (fun t k => if ks.contains k.1 then t else t.setKey k.1 k.2) u).preActive = u.preActive := by
    intro l
    induction l with
    | nil => intro u; rfl
    | cons k l ih => intro u; rw [List.foldl_cons, ih]; split <;> simp
  exact aux t.keep t
@[simp] theorem Thread.restore_prePc (t : Thread) (ks : List RegKey) : (t.restore ks).prePc = t.prePc := by
  have aux : ∀ (l : List (RegKey × Dword)) (u : Thread),
      (l.foldl (fun t k => if ks.contains k.1 then t else t.setKey k.1 k.2) u).prePc = u.prePc := by
    intro l
    induction l with
    | nil => intro u; rfl
    | cons k l ih => intro u; rw [List.foldl_cons, ih]; split <;> simp
  exact aux t.keep t
@[simp] theorem Thread.restore_preLive (t : Thread) (ks : List RegKey) : (t.restore ks).preLive = t.preLive := by
  have aux : ∀ (l : List (RegKey × Dword)) (u : Thread),
      (l.foldl (fun t k => if ks.contains k.1 then t else t.setKey k.1 k.2) u).preLive = u.preLive := by
    intro l
    induction l with
    | nil => intro u; rfl
    | cons k l ih => intro u; rw [List.foldl_cons, ih]; split <;> simp
  exact aux t.keep t
@[simp] theorem Thread.restore_preShadow (t : Thread) (ks : List RegKey) : (t.restore ks).preShadow = t.preShadow := by
  have aux : ∀ (l : List (RegKey × Dword)) (u : Thread),
      (l.foldl (fun t k => if ks.contains k.1 then t else t.setKey k.1 k.2) u).preShadow = u.preShadow := by
    intro l
    induction l with
    | nil => intro u; rfl
    | cons k l ih => intro u; rw [List.foldl_cons, ih]; split <;> simp
  exact aux t.keep t
@[simp] theorem Thread.restore_preSuppress (t : Thread) (ks : List RegKey) : (t.restore ks).preSuppress = t.preSuppress := by
  have aux : ∀ (l : List (RegKey × Dword)) (u : Thread),
      (l.foldl (fun t k => if ks.contains k.1 then t else t.setKey k.1 k.2) u).preSuppress = u.preSuppress := by
    intro l
    induction l with
    | nil => intro u; rfl
    | cons k l ih => intro u; rw [List.foldl_cons, ih]; split <;> simp
  exact aux t.keep t
@[simp] theorem Thread.restore_wp0 (t : Thread) (ks : List RegKey) : (t.restore ks).wp0 = t.wp0 := by
  have aux : ∀ (l : List (RegKey × Dword)) (u : Thread),
      (l.foldl (fun t k => if ks.contains k.1 then t else t.setKey k.1 k.2) u).wp0 = u.wp0 := by
    intro l
    induction l with
    | nil => intro u; rfl
    | cons k l ih => intro u; rw [List.foldl_cons, ih]; split <;> simp
  exact aux t.keep t
@[simp] theorem Thread.restore_wp1 (t : Thread) (ks : List RegKey) : (t.restore ks).wp1 = t.wp1 := by
  have aux : ∀ (l : List (RegKey × Dword)) (u : Thread),
      (l.foldl (fun t k => if ks.contains k.1 then t else t.setKey k.1 k.2) u).wp1 = u.wp1 := by
    intro l
    induction l with
    | nil => intro u; rfl
    | cons k l ih => intro u; rw [List.foldl_cons, ih]; split <;> simp
  exact aux t.keep t
@[simp] theorem Thread.restore_wpSuppress (t : Thread) (ks : List RegKey) : (t.restore ks).wpSuppress = t.wpSuppress := by
  have aux : ∀ (l : List (RegKey × Dword)) (u : Thread),
      (l.foldl (fun t k => if ks.contains k.1 then t else t.setKey k.1 k.2) u).wpSuppress = u.wpSuppress := by
    intro l
    induction l with
    | nil => intro u; rfl
    | cons k l ih => intro u; rw [List.foldl_cons, ih]; split <;> simp
  exact aux t.keep t
@[simp] theorem Thread.restore_commits (t : Thread) (ks : List RegKey) : (t.restore ks).commits = t.commits := by
  have aux : ∀ (l : List (RegKey × Dword)) (u : Thread),
      (l.foldl (fun t k => if ks.contains k.1 then t else t.setKey k.1 k.2) u).commits = u.commits := by
    intro l
    induction l with
    | nil => intro u; rfl
    | cons k l ih => intro u; rw [List.foldl_cons, ih]; split <;> simp
  exact aux t.keep t
@[simp] theorem Thread.restore_emuEntry (t : Thread) (ks : List RegKey) : (t.restore ks).emuEntry = t.emuEntry := by
  have aux : ∀ (l : List (RegKey × Dword)) (u : Thread),
      (l.foldl (fun t k => if ks.contains k.1 then t else t.setKey k.1 k.2) u).emuEntry = u.emuEntry := by
    intro l
    induction l with
    | nil => intro u; rfl
    | cons k l ih => intro u; rw [List.foldl_cons, ih]; split <;> simp
  exact aux t.keep t
@[simp] theorem Thread.restore_status (t : Thread) (ks : List RegKey) : (t.restore ks).status = t.status := by
  have aux : ∀ (l : List (RegKey × Dword)) (u : Thread),
      (l.foldl (fun t k => if ks.contains k.1 then t else t.setKey k.1 k.2) u).status = u.status := by
    intro l
    induction l with
    | nil => intro u; rfl
    | cons k l ih => intro u; rw [List.foldl_cons, ih]; split <;> simp
  exact aux t.keep t
@[simp] theorem Thread.restore_granted (t : Thread) (ks : List RegKey) : (t.restore ks).granted = t.granted := by
  have aux : ∀ (l : List (RegKey × Dword)) (u : Thread),
      (l.foldl (fun t k => if ks.contains k.1 then t else t.setKey k.1 k.2) u).granted = u.granted := by
    intro l
    induction l with
    | nil => intro u; rfl
    | cons k l ih => intro u; rw [List.foldl_cons, ih]; split <;> simp
  exact aux t.keep t
@[simp] theorem Thread.restore_departing (t : Thread) (ks : List RegKey) : (t.restore ks).departing = t.departing := by
  have aux : ∀ (l : List (RegKey × Dword)) (u : Thread),
      (l.foldl (fun t k => if ks.contains k.1 then t else t.setKey k.1 k.2) u).departing = u.departing := by
    intro l
    induction l with
    | nil => intro u; rfl
    | cons k l ih => intro u; rw [List.foldl_cons, ih]; split <;> simp
  exact aux t.keep t
@[simp] theorem Thread.restore_pushes (t : Thread) (ks : List RegKey) : (t.restore ks).pushes = t.pushes := by
  have aux : ∀ (l : List (RegKey × Dword)) (u : Thread),
      (l.foldl (fun t k => if ks.contains k.1 then t else t.setKey k.1 k.2) u).pushes = u.pushes := by
    intro l
    induction l with
    | nil => intro u; rfl
    | cons k l ih => intro u; rw [List.foldl_cons, ih]; split <;> simp
  exact aux t.keep t
@[simp] theorem Thread.restore_ord (t : Thread) (ks : List RegKey) : (t.restore ks).ord = t.ord := by
  have aux : ∀ (l : List (RegKey × Dword)) (u : Thread),
      (l.foldl (fun t k => if ks.contains k.1 then t else t.setKey k.1 k.2) u).ord = u.ord := by
    intro l
    induction l with
    | nil => intro u; rfl
    | cons k l ih => intro u; rw [List.foldl_cons, ih]; split <;> simp
  exact aux t.keep t
@[simp] theorem Thread.restore_err (t : Thread) (ks : List RegKey) : (t.restore ks).err = t.err := by
  have aux : ∀ (l : List (RegKey × Dword)) (u : Thread),
      (l.foldl (fun t k => if ks.contains k.1 then t else t.setKey k.1 k.2) u).err = u.err := by
    intro l
    induction l with
    | nil => intro u; rfl
    | cons k l ih => intro u; rw [List.foldl_cons, ih]; split <;> simp
  exact aux t.keep t
@[simp] theorem Thread.restore_rdy (t : Thread) (ks : List RegKey) : (t.restore ks).rdy = t.rdy := by
  have aux : ∀ (l : List (RegKey × Dword)) (u : Thread),
      (l.foldl (fun t k => if ks.contains k.1 then t else t.setKey k.1 k.2) u).rdy = u.rdy := by
    intro l
    induction l with
    | nil => intro u; rfl
    | cons k l ih => intro u; rw [List.foldl_cons, ih]; split <;> simp
  exact aux t.keep t
@[simp] theorem Thread.restore_late (t : Thread) (ks : List RegKey) : (t.restore ks).late = t.late := by
  have aux : ∀ (l : List (RegKey × Dword)) (u : Thread),
      (l.foldl (fun t k => if ks.contains k.1 then t else t.setKey k.1 k.2) u).late = u.late := by
    intro l
    induction l with
    | nil => intro u; rfl
    | cons k l ih => intro u; rw [List.foldl_cons, ih]; split <;> simp
  exact aux t.keep t
@[simp] theorem Thread.restore_yielded (t : Thread) (ks : List RegKey) : (t.restore ks).yielded = t.yielded := by
  have aux : ∀ (l : List (RegKey × Dword)) (u : Thread),
      (l.foldl (fun t k => if ks.contains k.1 then t else t.setKey k.1 k.2) u).yielded = u.yielded := by
    intro l
    induction l with
    | nil => intro u; rfl
    | cons k l ih => intro u; rw [List.foldl_cons, ih]; split <;> simp
  exact aux t.keep t

@[simp] theorem Thread.unkeep_pc (t : Thread) : t.unkeep.pc = t.pc := Thread.restore_pc t []
@[simp] theorem Thread.unkeep_flags (t : Thread) : t.unkeep.flags = t.flags := Thread.restore_flags t []
@[simp] theorem Thread.unkeep_stack (t : Thread) : t.unkeep.stack = t.stack := Thread.restore_stack t []
@[simp] theorem Thread.unkeep_csp (t : Thread) : t.unkeep.csp = t.csp := Thread.restore_csp t []
@[simp] theorem Thread.unkeep_spilled (t : Thread) : t.unkeep.spilled = t.spilled := Thread.restore_spilled t []
@[simp] theorem Thread.unkeep_shadow (t : Thread) : t.unkeep.shadow = t.shadow := Thread.restore_shadow t []
@[simp] theorem Thread.unkeep_hazards (t : Thread) : t.unkeep.hazards = t.hazards := Thread.restore_hazards t []
@[simp] theorem Thread.unkeep_out (t : Thread) : t.unkeep.out = t.out := Thread.restore_out t []
@[simp] theorem Thread.unkeep_pend (t : Thread) : t.unkeep.pend = t.pend := Thread.restore_pend t []
@[simp] theorem Thread.unkeep_handler (t : Thread) : t.unkeep.handler = t.handler := Thread.restore_handler t []
@[simp] theorem Thread.unkeep_x (t : Thread) : t.unkeep.x = t.x := Thread.restore_x t []
@[simp] theorem Thread.unkeep_emuPc (t : Thread) : t.unkeep.emuPc = t.emuPc := Thread.restore_emuPc t []
@[simp] theorem Thread.unkeep_emuNext (t : Thread) : t.unkeep.emuNext = t.emuNext := Thread.restore_emuNext t []
@[simp] theorem Thread.unkeep_emuWord (t : Thread) : t.unkeep.emuWord = t.emuWord := Thread.restore_emuWord t []
@[simp] theorem Thread.unkeep_emuInfo (t : Thread) : t.unkeep.emuInfo = t.emuInfo := Thread.restore_emuInfo t []
@[simp] theorem Thread.unkeep_tf (t : Thread) : t.unkeep.tf = t.tf := Thread.restore_tf t []
@[simp] theorem Thread.unkeep_trapVec (t : Thread) : t.unkeep.trapVec = t.trapVec := Thread.restore_trapVec t []
@[simp] theorem Thread.unkeep_trapPc (t : Thread) : t.unkeep.trapPc = t.trapPc := Thread.restore_trapPc t []
@[simp] theorem Thread.unkeep_trapNext (t : Thread) : t.unkeep.trapNext = t.trapNext := Thread.restore_trapNext t []
@[simp] theorem Thread.unkeep_trapCause (t : Thread) : t.unkeep.trapCause = t.trapCause := Thread.restore_trapCause t []
@[simp] theorem Thread.unkeep_trapAddr (t : Thread) : t.unkeep.trapAddr = t.trapAddr := Thread.restore_trapAddr t []
@[simp] theorem Thread.unkeep_trapInfo (t : Thread) : t.unkeep.trapInfo = t.trapInfo := Thread.restore_trapInfo t []
@[simp] theorem Thread.unkeep_preActive (t : Thread) : t.unkeep.preActive = t.preActive := Thread.restore_preActive t []
@[simp] theorem Thread.unkeep_prePc (t : Thread) : t.unkeep.prePc = t.prePc := Thread.restore_prePc t []
@[simp] theorem Thread.unkeep_preLive (t : Thread) : t.unkeep.preLive = t.preLive := Thread.restore_preLive t []
@[simp] theorem Thread.unkeep_preShadow (t : Thread) : t.unkeep.preShadow = t.preShadow := Thread.restore_preShadow t []
@[simp] theorem Thread.unkeep_preSuppress (t : Thread) : t.unkeep.preSuppress = t.preSuppress := Thread.restore_preSuppress t []
@[simp] theorem Thread.unkeep_wp0 (t : Thread) : t.unkeep.wp0 = t.wp0 := Thread.restore_wp0 t []
@[simp] theorem Thread.unkeep_wp1 (t : Thread) : t.unkeep.wp1 = t.wp1 := Thread.restore_wp1 t []
@[simp] theorem Thread.unkeep_wpSuppress (t : Thread) : t.unkeep.wpSuppress = t.wpSuppress := Thread.restore_wpSuppress t []
@[simp] theorem Thread.unkeep_commits (t : Thread) : t.unkeep.commits = t.commits := Thread.restore_commits t []
@[simp] theorem Thread.unkeep_emuEntry (t : Thread) : t.unkeep.emuEntry = t.emuEntry := Thread.restore_emuEntry t []
@[simp] theorem Thread.unkeep_status (t : Thread) : t.unkeep.status = t.status := Thread.restore_status t []
@[simp] theorem Thread.unkeep_granted (t : Thread) : t.unkeep.granted = t.granted := Thread.restore_granted t []
@[simp] theorem Thread.unkeep_departing (t : Thread) : t.unkeep.departing = t.departing := Thread.restore_departing t []
@[simp] theorem Thread.unkeep_pushes (t : Thread) : t.unkeep.pushes = t.pushes := Thread.restore_pushes t []
@[simp] theorem Thread.unkeep_ord (t : Thread) : t.unkeep.ord = t.ord := Thread.restore_ord t []
@[simp] theorem Thread.unkeep_err (t : Thread) : t.unkeep.err = t.err := Thread.restore_err t []
@[simp] theorem Thread.unkeep_rdy (t : Thread) : t.unkeep.rdy = t.rdy := Thread.restore_rdy t []
@[simp] theorem Thread.unkeep_late (t : Thread) : t.unkeep.late = t.late := Thread.restore_late t []
@[simp] theorem Thread.unkeep_yielded (t : Thread) : t.unkeep.yielded = t.yielded := Thread.restore_yielded t []

@[simp] theorem Thread.settle_pc (t : Thread) (e : Env) (ks : List RegKey) (l : Bool) :
    (t.settle e ks l).1.pc = t.pc := by
  have aux : ∀ (l : List (RegKey × Dword)) (u : Thread), (l.foldl (fun t k => t.setKey k.1 k.2) u).pc = u.pc := by
    intro l
    induction l with
    | nil => intro u; rfl
    | cons k l ih => intro u; rw [List.foldl_cons, ih]; simp
  unfold Thread.settle; split <;> simp [aux]
@[simp] theorem Thread.settle_flags (t : Thread) (e : Env) (ks : List RegKey) (l : Bool) :
    (t.settle e ks l).1.flags = t.flags := by
  have aux : ∀ (l : List (RegKey × Dword)) (u : Thread), (l.foldl (fun t k => t.setKey k.1 k.2) u).flags = u.flags := by
    intro l
    induction l with
    | nil => intro u; rfl
    | cons k l ih => intro u; rw [List.foldl_cons, ih]; simp
  unfold Thread.settle; split <;> simp [aux]
@[simp] theorem Thread.settle_stack (t : Thread) (e : Env) (ks : List RegKey) (l : Bool) :
    (t.settle e ks l).1.stack = t.stack := by
  have aux : ∀ (l : List (RegKey × Dword)) (u : Thread), (l.foldl (fun t k => t.setKey k.1 k.2) u).stack = u.stack := by
    intro l
    induction l with
    | nil => intro u; rfl
    | cons k l ih => intro u; rw [List.foldl_cons, ih]; simp
  unfold Thread.settle; split <;> simp [aux]
@[simp] theorem Thread.settle_csp (t : Thread) (e : Env) (ks : List RegKey) (l : Bool) :
    (t.settle e ks l).1.csp = t.csp := by
  have aux : ∀ (l : List (RegKey × Dword)) (u : Thread), (l.foldl (fun t k => t.setKey k.1 k.2) u).csp = u.csp := by
    intro l
    induction l with
    | nil => intro u; rfl
    | cons k l ih => intro u; rw [List.foldl_cons, ih]; simp
  unfold Thread.settle; split <;> simp [aux]
@[simp] theorem Thread.settle_spilled (t : Thread) (e : Env) (ks : List RegKey) (l : Bool) :
    (t.settle e ks l).1.spilled = t.spilled := by
  have aux : ∀ (l : List (RegKey × Dword)) (u : Thread), (l.foldl (fun t k => t.setKey k.1 k.2) u).spilled = u.spilled := by
    intro l
    induction l with
    | nil => intro u; rfl
    | cons k l ih => intro u; rw [List.foldl_cons, ih]; simp
  unfold Thread.settle; split <;> simp [aux]
@[simp] theorem Thread.settle_shadow (t : Thread) (e : Env) (ks : List RegKey) (l : Bool) :
    (t.settle e ks l).1.shadow = t.shadow := by
  have aux : ∀ (l : List (RegKey × Dword)) (u : Thread), (l.foldl (fun t k => t.setKey k.1 k.2) u).shadow = u.shadow := by
    intro l
    induction l with
    | nil => intro u; rfl
    | cons k l ih => intro u; rw [List.foldl_cons, ih]; simp
  unfold Thread.settle; split <;> simp [aux]
@[simp] theorem Thread.settle_hazards (t : Thread) (e : Env) (ks : List RegKey) (l : Bool) :
    (t.settle e ks l).1.hazards = t.hazards := by
  have aux : ∀ (l : List (RegKey × Dword)) (u : Thread), (l.foldl (fun t k => t.setKey k.1 k.2) u).hazards = u.hazards := by
    intro l
    induction l with
    | nil => intro u; rfl
    | cons k l ih => intro u; rw [List.foldl_cons, ih]; simp
  unfold Thread.settle; split <;> simp [aux]
@[simp] theorem Thread.settle_handler (t : Thread) (e : Env) (ks : List RegKey) (l : Bool) :
    (t.settle e ks l).1.handler = t.handler := by
  have aux : ∀ (l : List (RegKey × Dword)) (u : Thread), (l.foldl (fun t k => t.setKey k.1 k.2) u).handler = u.handler := by
    intro l
    induction l with
    | nil => intro u; rfl
    | cons k l ih => intro u; rw [List.foldl_cons, ih]; simp
  unfold Thread.settle; split <;> simp [aux]
@[simp] theorem Thread.settle_x (t : Thread) (e : Env) (ks : List RegKey) (l : Bool) :
    (t.settle e ks l).1.x = t.x := by
  have aux : ∀ (l : List (RegKey × Dword)) (u : Thread), (l.foldl (fun t k => t.setKey k.1 k.2) u).x = u.x := by
    intro l
    induction l with
    | nil => intro u; rfl
    | cons k l ih => intro u; rw [List.foldl_cons, ih]; simp
  unfold Thread.settle; split <;> simp [aux]
@[simp] theorem Thread.settle_emuPc (t : Thread) (e : Env) (ks : List RegKey) (l : Bool) :
    (t.settle e ks l).1.emuPc = t.emuPc := by
  have aux : ∀ (l : List (RegKey × Dword)) (u : Thread), (l.foldl (fun t k => t.setKey k.1 k.2) u).emuPc = u.emuPc := by
    intro l
    induction l with
    | nil => intro u; rfl
    | cons k l ih => intro u; rw [List.foldl_cons, ih]; simp
  unfold Thread.settle; split <;> simp [aux]
@[simp] theorem Thread.settle_emuNext (t : Thread) (e : Env) (ks : List RegKey) (l : Bool) :
    (t.settle e ks l).1.emuNext = t.emuNext := by
  have aux : ∀ (l : List (RegKey × Dword)) (u : Thread), (l.foldl (fun t k => t.setKey k.1 k.2) u).emuNext = u.emuNext := by
    intro l
    induction l with
    | nil => intro u; rfl
    | cons k l ih => intro u; rw [List.foldl_cons, ih]; simp
  unfold Thread.settle; split <;> simp [aux]
@[simp] theorem Thread.settle_emuWord (t : Thread) (e : Env) (ks : List RegKey) (l : Bool) :
    (t.settle e ks l).1.emuWord = t.emuWord := by
  have aux : ∀ (l : List (RegKey × Dword)) (u : Thread), (l.foldl (fun t k => t.setKey k.1 k.2) u).emuWord = u.emuWord := by
    intro l
    induction l with
    | nil => intro u; rfl
    | cons k l ih => intro u; rw [List.foldl_cons, ih]; simp
  unfold Thread.settle; split <;> simp [aux]
@[simp] theorem Thread.settle_emuInfo (t : Thread) (e : Env) (ks : List RegKey) (l : Bool) :
    (t.settle e ks l).1.emuInfo = t.emuInfo := by
  have aux : ∀ (l : List (RegKey × Dword)) (u : Thread), (l.foldl (fun t k => t.setKey k.1 k.2) u).emuInfo = u.emuInfo := by
    intro l
    induction l with
    | nil => intro u; rfl
    | cons k l ih => intro u; rw [List.foldl_cons, ih]; simp
  unfold Thread.settle; split <;> simp [aux]
@[simp] theorem Thread.settle_tf (t : Thread) (e : Env) (ks : List RegKey) (l : Bool) :
    (t.settle e ks l).1.tf = t.tf := by
  have aux : ∀ (l : List (RegKey × Dword)) (u : Thread), (l.foldl (fun t k => t.setKey k.1 k.2) u).tf = u.tf := by
    intro l
    induction l with
    | nil => intro u; rfl
    | cons k l ih => intro u; rw [List.foldl_cons, ih]; simp
  unfold Thread.settle; split <;> simp [aux]
@[simp] theorem Thread.settle_trapVec (t : Thread) (e : Env) (ks : List RegKey) (l : Bool) :
    (t.settle e ks l).1.trapVec = t.trapVec := by
  have aux : ∀ (l : List (RegKey × Dword)) (u : Thread), (l.foldl (fun t k => t.setKey k.1 k.2) u).trapVec = u.trapVec := by
    intro l
    induction l with
    | nil => intro u; rfl
    | cons k l ih => intro u; rw [List.foldl_cons, ih]; simp
  unfold Thread.settle; split <;> simp [aux]
@[simp] theorem Thread.settle_trapPc (t : Thread) (e : Env) (ks : List RegKey) (l : Bool) :
    (t.settle e ks l).1.trapPc = t.trapPc := by
  have aux : ∀ (l : List (RegKey × Dword)) (u : Thread), (l.foldl (fun t k => t.setKey k.1 k.2) u).trapPc = u.trapPc := by
    intro l
    induction l with
    | nil => intro u; rfl
    | cons k l ih => intro u; rw [List.foldl_cons, ih]; simp
  unfold Thread.settle; split <;> simp [aux]
@[simp] theorem Thread.settle_trapNext (t : Thread) (e : Env) (ks : List RegKey) (l : Bool) :
    (t.settle e ks l).1.trapNext = t.trapNext := by
  have aux : ∀ (l : List (RegKey × Dword)) (u : Thread), (l.foldl (fun t k => t.setKey k.1 k.2) u).trapNext = u.trapNext := by
    intro l
    induction l with
    | nil => intro u; rfl
    | cons k l ih => intro u; rw [List.foldl_cons, ih]; simp
  unfold Thread.settle; split <;> simp [aux]
@[simp] theorem Thread.settle_trapCause (t : Thread) (e : Env) (ks : List RegKey) (l : Bool) :
    (t.settle e ks l).1.trapCause = t.trapCause := by
  have aux : ∀ (l : List (RegKey × Dword)) (u : Thread), (l.foldl (fun t k => t.setKey k.1 k.2) u).trapCause = u.trapCause := by
    intro l
    induction l with
    | nil => intro u; rfl
    | cons k l ih => intro u; rw [List.foldl_cons, ih]; simp
  unfold Thread.settle; split <;> simp [aux]
@[simp] theorem Thread.settle_trapAddr (t : Thread) (e : Env) (ks : List RegKey) (l : Bool) :
    (t.settle e ks l).1.trapAddr = t.trapAddr := by
  have aux : ∀ (l : List (RegKey × Dword)) (u : Thread), (l.foldl (fun t k => t.setKey k.1 k.2) u).trapAddr = u.trapAddr := by
    intro l
    induction l with
    | nil => intro u; rfl
    | cons k l ih => intro u; rw [List.foldl_cons, ih]; simp
  unfold Thread.settle; split <;> simp [aux]
@[simp] theorem Thread.settle_trapInfo (t : Thread) (e : Env) (ks : List RegKey) (l : Bool) :
    (t.settle e ks l).1.trapInfo = t.trapInfo := by
  have aux : ∀ (l : List (RegKey × Dword)) (u : Thread), (l.foldl (fun t k => t.setKey k.1 k.2) u).trapInfo = u.trapInfo := by
    intro l
    induction l with
    | nil => intro u; rfl
    | cons k l ih => intro u; rw [List.foldl_cons, ih]; simp
  unfold Thread.settle; split <;> simp [aux]
@[simp] theorem Thread.settle_preActive (t : Thread) (e : Env) (ks : List RegKey) (l : Bool) :
    (t.settle e ks l).1.preActive = t.preActive := by
  have aux : ∀ (l : List (RegKey × Dword)) (u : Thread), (l.foldl (fun t k => t.setKey k.1 k.2) u).preActive = u.preActive := by
    intro l
    induction l with
    | nil => intro u; rfl
    | cons k l ih => intro u; rw [List.foldl_cons, ih]; simp
  unfold Thread.settle; split <;> simp [aux]
@[simp] theorem Thread.settle_prePc (t : Thread) (e : Env) (ks : List RegKey) (l : Bool) :
    (t.settle e ks l).1.prePc = t.prePc := by
  have aux : ∀ (l : List (RegKey × Dword)) (u : Thread), (l.foldl (fun t k => t.setKey k.1 k.2) u).prePc = u.prePc := by
    intro l
    induction l with
    | nil => intro u; rfl
    | cons k l ih => intro u; rw [List.foldl_cons, ih]; simp
  unfold Thread.settle; split <;> simp [aux]
@[simp] theorem Thread.settle_preLive (t : Thread) (e : Env) (ks : List RegKey) (l : Bool) :
    (t.settle e ks l).1.preLive = t.preLive := by
  have aux : ∀ (l : List (RegKey × Dword)) (u : Thread), (l.foldl (fun t k => t.setKey k.1 k.2) u).preLive = u.preLive := by
    intro l
    induction l with
    | nil => intro u; rfl
    | cons k l ih => intro u; rw [List.foldl_cons, ih]; simp
  unfold Thread.settle; split <;> simp [aux]
@[simp] theorem Thread.settle_preShadow (t : Thread) (e : Env) (ks : List RegKey) (l : Bool) :
    (t.settle e ks l).1.preShadow = t.preShadow := by
  have aux : ∀ (l : List (RegKey × Dword)) (u : Thread), (l.foldl (fun t k => t.setKey k.1 k.2) u).preShadow = u.preShadow := by
    intro l
    induction l with
    | nil => intro u; rfl
    | cons k l ih => intro u; rw [List.foldl_cons, ih]; simp
  unfold Thread.settle; split <;> simp [aux]
@[simp] theorem Thread.settle_preSuppress (t : Thread) (e : Env) (ks : List RegKey) (l : Bool) :
    (t.settle e ks l).1.preSuppress = t.preSuppress := by
  have aux : ∀ (l : List (RegKey × Dword)) (u : Thread), (l.foldl (fun t k => t.setKey k.1 k.2) u).preSuppress = u.preSuppress := by
    intro l
    induction l with
    | nil => intro u; rfl
    | cons k l ih => intro u; rw [List.foldl_cons, ih]; simp
  unfold Thread.settle; split <;> simp [aux]
@[simp] theorem Thread.settle_wp0 (t : Thread) (e : Env) (ks : List RegKey) (l : Bool) :
    (t.settle e ks l).1.wp0 = t.wp0 := by
  have aux : ∀ (l : List (RegKey × Dword)) (u : Thread), (l.foldl (fun t k => t.setKey k.1 k.2) u).wp0 = u.wp0 := by
    intro l
    induction l with
    | nil => intro u; rfl
    | cons k l ih => intro u; rw [List.foldl_cons, ih]; simp
  unfold Thread.settle; split <;> simp [aux]
@[simp] theorem Thread.settle_wp1 (t : Thread) (e : Env) (ks : List RegKey) (l : Bool) :
    (t.settle e ks l).1.wp1 = t.wp1 := by
  have aux : ∀ (l : List (RegKey × Dword)) (u : Thread), (l.foldl (fun t k => t.setKey k.1 k.2) u).wp1 = u.wp1 := by
    intro l
    induction l with
    | nil => intro u; rfl
    | cons k l ih => intro u; rw [List.foldl_cons, ih]; simp
  unfold Thread.settle; split <;> simp [aux]
@[simp] theorem Thread.settle_wpSuppress (t : Thread) (e : Env) (ks : List RegKey) (l : Bool) :
    (t.settle e ks l).1.wpSuppress = t.wpSuppress := by
  have aux : ∀ (l : List (RegKey × Dword)) (u : Thread), (l.foldl (fun t k => t.setKey k.1 k.2) u).wpSuppress = u.wpSuppress := by
    intro l
    induction l with
    | nil => intro u; rfl
    | cons k l ih => intro u; rw [List.foldl_cons, ih]; simp
  unfold Thread.settle; split <;> simp [aux]
@[simp] theorem Thread.settle_commits (t : Thread) (e : Env) (ks : List RegKey) (l : Bool) :
    (t.settle e ks l).1.commits = t.commits := by
  have aux : ∀ (l : List (RegKey × Dword)) (u : Thread), (l.foldl (fun t k => t.setKey k.1 k.2) u).commits = u.commits := by
    intro l
    induction l with
    | nil => intro u; rfl
    | cons k l ih => intro u; rw [List.foldl_cons, ih]; simp
  unfold Thread.settle; split <;> simp [aux]
@[simp] theorem Thread.settle_emuEntry (t : Thread) (e : Env) (ks : List RegKey) (l : Bool) :
    (t.settle e ks l).1.emuEntry = t.emuEntry := by
  have aux : ∀ (l : List (RegKey × Dword)) (u : Thread), (l.foldl (fun t k => t.setKey k.1 k.2) u).emuEntry = u.emuEntry := by
    intro l
    induction l with
    | nil => intro u; rfl
    | cons k l ih => intro u; rw [List.foldl_cons, ih]; simp
  unfold Thread.settle; split <;> simp [aux]
@[simp] theorem Thread.settle_status (t : Thread) (e : Env) (ks : List RegKey) (l : Bool) :
    (t.settle e ks l).1.status = t.status := by
  have aux : ∀ (l : List (RegKey × Dword)) (u : Thread), (l.foldl (fun t k => t.setKey k.1 k.2) u).status = u.status := by
    intro l
    induction l with
    | nil => intro u; rfl
    | cons k l ih => intro u; rw [List.foldl_cons, ih]; simp
  unfold Thread.settle; split <;> simp [aux]
@[simp] theorem Thread.settle_granted (t : Thread) (e : Env) (ks : List RegKey) (l : Bool) :
    (t.settle e ks l).1.granted = t.granted := by
  have aux : ∀ (l : List (RegKey × Dword)) (u : Thread), (l.foldl (fun t k => t.setKey k.1 k.2) u).granted = u.granted := by
    intro l
    induction l with
    | nil => intro u; rfl
    | cons k l ih => intro u; rw [List.foldl_cons, ih]; simp
  unfold Thread.settle; split <;> simp [aux]
@[simp] theorem Thread.settle_departing (t : Thread) (e : Env) (ks : List RegKey) (l : Bool) :
    (t.settle e ks l).1.departing = t.departing := by
  have aux : ∀ (l : List (RegKey × Dword)) (u : Thread), (l.foldl (fun t k => t.setKey k.1 k.2) u).departing = u.departing := by
    intro l
    induction l with
    | nil => intro u; rfl
    | cons k l ih => intro u; rw [List.foldl_cons, ih]; simp
  unfold Thread.settle; split <;> simp [aux]
@[simp] theorem Thread.settle_pushes (t : Thread) (e : Env) (ks : List RegKey) (l : Bool) :
    (t.settle e ks l).1.pushes = t.pushes := by
  have aux : ∀ (l : List (RegKey × Dword)) (u : Thread), (l.foldl (fun t k => t.setKey k.1 k.2) u).pushes = u.pushes := by
    intro l
    induction l with
    | nil => intro u; rfl
    | cons k l ih => intro u; rw [List.foldl_cons, ih]; simp
  unfold Thread.settle; split <;> simp [aux]
@[simp] theorem Thread.settle_ord (t : Thread) (e : Env) (ks : List RegKey) (l : Bool) :
    (t.settle e ks l).1.ord = t.ord := by
  have aux : ∀ (l : List (RegKey × Dword)) (u : Thread), (l.foldl (fun t k => t.setKey k.1 k.2) u).ord = u.ord := by
    intro l
    induction l with
    | nil => intro u; rfl
    | cons k l ih => intro u; rw [List.foldl_cons, ih]; simp
  unfold Thread.settle; split <;> simp [aux]
@[simp] theorem Thread.settle_err (t : Thread) (e : Env) (ks : List RegKey) (l : Bool) :
    (t.settle e ks l).1.err = t.err := by
  have aux : ∀ (l : List (RegKey × Dword)) (u : Thread), (l.foldl (fun t k => t.setKey k.1 k.2) u).err = u.err := by
    intro l
    induction l with
    | nil => intro u; rfl
    | cons k l ih => intro u; rw [List.foldl_cons, ih]; simp
  unfold Thread.settle; split <;> simp [aux]
@[simp] theorem Thread.settle_rdy (t : Thread) (e : Env) (ks : List RegKey) (l : Bool) :
    (t.settle e ks l).1.rdy = t.rdy := by
  have aux : ∀ (l : List (RegKey × Dword)) (u : Thread), (l.foldl (fun t k => t.setKey k.1 k.2) u).rdy = u.rdy := by
    intro l
    induction l with
    | nil => intro u; rfl
    | cons k l ih => intro u; rw [List.foldl_cons, ih]; simp
  unfold Thread.settle; split <;> simp [aux]
@[simp] theorem Thread.settle_late (t : Thread) (e : Env) (ks : List RegKey) (l : Bool) :
    (t.settle e ks l).1.late = t.late := by
  have aux : ∀ (l : List (RegKey × Dword)) (u : Thread), (l.foldl (fun t k => t.setKey k.1 k.2) u).late = u.late := by
    intro l
    induction l with
    | nil => intro u; rfl
    | cons k l ih => intro u; rw [List.foldl_cons, ih]; simp
  unfold Thread.settle; split <;> simp [aux]
@[simp] theorem Thread.settle_yielded (t : Thread) (e : Env) (ks : List RegKey) (l : Bool) :
    (t.settle e ks l).1.yielded = t.yielded := by
  have aux : ∀ (l : List (RegKey × Dword)) (u : Thread), (l.foldl (fun t k => t.setKey k.1 k.2) u).yielded = u.yielded := by
    intro l
    induction l with
    | nil => intro u; rfl
    | cons k l ih => intro u; rw [List.foldl_cons, ih]; simp
  unfold Thread.settle; split <;> simp [aux]

@[simp] theorem Thread.endExp_pc (t : Thread) : t.endExp.pc = t.pc := by
  unfold Thread.endExp; split <;> rfl
@[simp] theorem Thread.endExp_regs (t : Thread) : t.endExp.regs = t.regs := by
  unfold Thread.endExp; split <;> rfl
@[simp] theorem Thread.endExp_preds (t : Thread) : t.endExp.preds = t.preds := by
  unfold Thread.endExp; split <;> rfl
@[simp] theorem Thread.endExp_flags (t : Thread) : t.endExp.flags = t.flags := by
  unfold Thread.endExp; split <;> rfl
@[simp] theorem Thread.endExp_stack (t : Thread) : t.endExp.stack = t.stack := by
  unfold Thread.endExp; split <;> rfl
@[simp] theorem Thread.endExp_csp (t : Thread) : t.endExp.csp = t.csp := by
  unfold Thread.endExp; split <;> rfl
@[simp] theorem Thread.endExp_spilled (t : Thread) : t.endExp.spilled = t.spilled := by
  unfold Thread.endExp; split <;> rfl
@[simp] theorem Thread.endExp_shadow (t : Thread) : t.endExp.shadow = t.shadow := by
  unfold Thread.endExp; split <;> rfl
@[simp] theorem Thread.endExp_handler (t : Thread) : t.endExp.handler = t.handler := by
  unfold Thread.endExp; split <;> rfl
@[simp] theorem Thread.endExp_x (t : Thread) : t.endExp.x = t.x := by
  unfold Thread.endExp; split <;> rfl
@[simp] theorem Thread.endExp_emuPc (t : Thread) : t.endExp.emuPc = t.emuPc := by
  unfold Thread.endExp; split <;> rfl
@[simp] theorem Thread.endExp_emuNext (t : Thread) : t.endExp.emuNext = t.emuNext := by
  unfold Thread.endExp; split <;> rfl
@[simp] theorem Thread.endExp_emuWord (t : Thread) : t.endExp.emuWord = t.emuWord := by
  unfold Thread.endExp; split <;> rfl
@[simp] theorem Thread.endExp_emuInfo (t : Thread) : t.endExp.emuInfo = t.emuInfo := by
  unfold Thread.endExp; split <;> rfl
@[simp] theorem Thread.endExp_tf (t : Thread) : t.endExp.tf = t.tf := by
  unfold Thread.endExp; split <;> rfl
@[simp] theorem Thread.endExp_trapVec (t : Thread) : t.endExp.trapVec = t.trapVec := by
  unfold Thread.endExp; split <;> rfl
@[simp] theorem Thread.endExp_trapPc (t : Thread) : t.endExp.trapPc = t.trapPc := by
  unfold Thread.endExp; split <;> rfl
@[simp] theorem Thread.endExp_trapNext (t : Thread) : t.endExp.trapNext = t.trapNext := by
  unfold Thread.endExp; split <;> rfl
@[simp] theorem Thread.endExp_trapCause (t : Thread) : t.endExp.trapCause = t.trapCause := by
  unfold Thread.endExp; split <;> rfl
@[simp] theorem Thread.endExp_trapAddr (t : Thread) : t.endExp.trapAddr = t.trapAddr := by
  unfold Thread.endExp; split <;> rfl
@[simp] theorem Thread.endExp_trapInfo (t : Thread) : t.endExp.trapInfo = t.trapInfo := by
  unfold Thread.endExp; split <;> rfl
@[simp] theorem Thread.endExp_preActive (t : Thread) : t.endExp.preActive = t.preActive := by
  unfold Thread.endExp; split <;> rfl
@[simp] theorem Thread.endExp_prePc (t : Thread) : t.endExp.prePc = t.prePc := by
  unfold Thread.endExp; split <;> rfl
@[simp] theorem Thread.endExp_preLive (t : Thread) : t.endExp.preLive = t.preLive := by
  unfold Thread.endExp; split <;> rfl
@[simp] theorem Thread.endExp_preShadow (t : Thread) : t.endExp.preShadow = t.preShadow := by
  unfold Thread.endExp; split <;> rfl
@[simp] theorem Thread.endExp_preSuppress (t : Thread) : t.endExp.preSuppress = t.preSuppress := by
  unfold Thread.endExp; split <;> rfl
@[simp] theorem Thread.endExp_wp0 (t : Thread) : t.endExp.wp0 = t.wp0 := by
  unfold Thread.endExp; split <;> rfl
@[simp] theorem Thread.endExp_wp1 (t : Thread) : t.endExp.wp1 = t.wp1 := by
  unfold Thread.endExp; split <;> rfl
@[simp] theorem Thread.endExp_wpSuppress (t : Thread) : t.endExp.wpSuppress = t.wpSuppress := by
  unfold Thread.endExp; split <;> rfl
@[simp] theorem Thread.endExp_keep (t : Thread) : t.endExp.keep = t.keep := by
  unfold Thread.endExp; split <;> rfl
@[simp] theorem Thread.endExp_lose (t : Thread) : t.endExp.lose = t.lose := by
  unfold Thread.endExp; split <;> rfl
@[simp] theorem Thread.endExp_win (t : Thread) : t.endExp.win = t.win := by
  unfold Thread.endExp; split <;> rfl
@[simp] theorem Thread.endExp_emuEntry (t : Thread) : t.endExp.emuEntry = t.emuEntry := by
  unfold Thread.endExp; split <;> rfl
@[simp] theorem Thread.endExp_status (t : Thread) : t.endExp.status = t.status := by
  unfold Thread.endExp; split <;> rfl
@[simp] theorem Thread.endExp_granted (t : Thread) : t.endExp.granted = t.granted := by
  unfold Thread.endExp; split <;> rfl
@[simp] theorem Thread.endExp_departing (t : Thread) : t.endExp.departing = t.departing := by
  unfold Thread.endExp; split <;> rfl
@[simp] theorem Thread.endExp_pushes (t : Thread) : t.endExp.pushes = t.pushes := by
  unfold Thread.endExp; split <;> rfl
@[simp] theorem Thread.endExp_ord (t : Thread) : t.endExp.ord = t.ord := by
  unfold Thread.endExp; split <;> rfl
@[simp] theorem Thread.endExp_err (t : Thread) : t.endExp.err = t.err := by
  unfold Thread.endExp; split <;> rfl
@[simp] theorem Thread.endExp_rdy (t : Thread) : t.endExp.rdy = t.rdy := by
  unfold Thread.endExp; split <;> rfl
@[simp] theorem Thread.endExp_late (t : Thread) : t.endExp.late = t.late := by
  unfold Thread.endExp; split <;> rfl
@[simp] theorem Thread.endExp_yielded (t : Thread) : t.endExp.yielded = t.yielded := by
  unfold Thread.endExp; split <;> rfl

@[simp] theorem Thread.pass_flags (t : Thread) (e : Env) (i : Instr) (a : Bool) (pc : Option VAddr) :
    (t.pass e i a pc).flags = t.flags := by
  unfold Thread.pass
  dsimp only
  split
  · simp
  · split <;> simp
  · simp
@[simp] theorem Thread.pass_stack (t : Thread) (e : Env) (i : Instr) (a : Bool) (pc : Option VAddr) :
    (t.pass e i a pc).stack = t.stack := by
  unfold Thread.pass
  dsimp only
  split
  · simp
  · split <;> simp
  · simp
@[simp] theorem Thread.pass_csp (t : Thread) (e : Env) (i : Instr) (a : Bool) (pc : Option VAddr) :
    (t.pass e i a pc).csp = t.csp := by
  unfold Thread.pass
  dsimp only
  split
  · simp
  · split <;> simp
  · simp
@[simp] theorem Thread.pass_spilled (t : Thread) (e : Env) (i : Instr) (a : Bool) (pc : Option VAddr) :
    (t.pass e i a pc).spilled = t.spilled := by
  unfold Thread.pass
  dsimp only
  split
  · simp
  · split <;> simp
  · simp
@[simp] theorem Thread.pass_handler (t : Thread) (e : Env) (i : Instr) (a : Bool) (pc : Option VAddr) :
    (t.pass e i a pc).handler = t.handler := by
  unfold Thread.pass
  dsimp only
  split
  · simp
  · split <;> simp
  · simp
@[simp] theorem Thread.pass_x (t : Thread) (e : Env) (i : Instr) (a : Bool) (pc : Option VAddr) :
    (t.pass e i a pc).x = t.x := by
  unfold Thread.pass
  dsimp only
  split
  · simp
  · split <;> simp
  · simp
@[simp] theorem Thread.pass_emuPc (t : Thread) (e : Env) (i : Instr) (a : Bool) (pc : Option VAddr) :
    (t.pass e i a pc).emuPc = t.emuPc := by
  unfold Thread.pass
  dsimp only
  split
  · simp
  · split <;> simp
  · simp
@[simp] theorem Thread.pass_emuNext (t : Thread) (e : Env) (i : Instr) (a : Bool) (pc : Option VAddr) :
    (t.pass e i a pc).emuNext = t.emuNext := by
  unfold Thread.pass
  dsimp only
  split
  · simp
  · split <;> simp
  · simp
@[simp] theorem Thread.pass_emuWord (t : Thread) (e : Env) (i : Instr) (a : Bool) (pc : Option VAddr) :
    (t.pass e i a pc).emuWord = t.emuWord := by
  unfold Thread.pass
  dsimp only
  split
  · simp
  · split <;> simp
  · simp
@[simp] theorem Thread.pass_emuInfo (t : Thread) (e : Env) (i : Instr) (a : Bool) (pc : Option VAddr) :
    (t.pass e i a pc).emuInfo = t.emuInfo := by
  unfold Thread.pass
  dsimp only
  split
  · simp
  · split <;> simp
  · simp
@[simp] theorem Thread.pass_tf (t : Thread) (e : Env) (i : Instr) (a : Bool) (pc : Option VAddr) :
    (t.pass e i a pc).tf = t.tf := by
  unfold Thread.pass
  dsimp only
  split
  · simp
  · split <;> simp
  · simp
@[simp] theorem Thread.pass_trapVec (t : Thread) (e : Env) (i : Instr) (a : Bool) (pc : Option VAddr) :
    (t.pass e i a pc).trapVec = t.trapVec := by
  unfold Thread.pass
  dsimp only
  split
  · simp
  · split <;> simp
  · simp
@[simp] theorem Thread.pass_trapPc (t : Thread) (e : Env) (i : Instr) (a : Bool) (pc : Option VAddr) :
    (t.pass e i a pc).trapPc = t.trapPc := by
  unfold Thread.pass
  dsimp only
  split
  · simp
  · split <;> simp
  · simp
@[simp] theorem Thread.pass_trapNext (t : Thread) (e : Env) (i : Instr) (a : Bool) (pc : Option VAddr) :
    (t.pass e i a pc).trapNext = t.trapNext := by
  unfold Thread.pass
  dsimp only
  split
  · simp
  · split <;> simp
  · simp
@[simp] theorem Thread.pass_trapCause (t : Thread) (e : Env) (i : Instr) (a : Bool) (pc : Option VAddr) :
    (t.pass e i a pc).trapCause = t.trapCause := by
  unfold Thread.pass
  dsimp only
  split
  · simp
  · split <;> simp
  · simp
@[simp] theorem Thread.pass_trapAddr (t : Thread) (e : Env) (i : Instr) (a : Bool) (pc : Option VAddr) :
    (t.pass e i a pc).trapAddr = t.trapAddr := by
  unfold Thread.pass
  dsimp only
  split
  · simp
  · split <;> simp
  · simp
@[simp] theorem Thread.pass_trapInfo (t : Thread) (e : Env) (i : Instr) (a : Bool) (pc : Option VAddr) :
    (t.pass e i a pc).trapInfo = t.trapInfo := by
  unfold Thread.pass
  dsimp only
  split
  · simp
  · split <;> simp
  · simp
@[simp] theorem Thread.pass_preActive (t : Thread) (e : Env) (i : Instr) (a : Bool) (pc : Option VAddr) :
    (t.pass e i a pc).preActive = t.preActive := by
  unfold Thread.pass
  dsimp only
  split
  · simp
  · split <;> simp
  · simp
@[simp] theorem Thread.pass_prePc (t : Thread) (e : Env) (i : Instr) (a : Bool) (pc : Option VAddr) :
    (t.pass e i a pc).prePc = t.prePc := by
  unfold Thread.pass
  dsimp only
  split
  · simp
  · split <;> simp
  · simp
@[simp] theorem Thread.pass_preLive (t : Thread) (e : Env) (i : Instr) (a : Bool) (pc : Option VAddr) :
    (t.pass e i a pc).preLive = t.preLive := by
  unfold Thread.pass
  dsimp only
  split
  · simp
  · split <;> simp
  · simp
@[simp] theorem Thread.pass_preShadow (t : Thread) (e : Env) (i : Instr) (a : Bool) (pc : Option VAddr) :
    (t.pass e i a pc).preShadow = t.preShadow := by
  unfold Thread.pass
  dsimp only
  split
  · simp
  · split <;> simp
  · simp
@[simp] theorem Thread.pass_preSuppress (t : Thread) (e : Env) (i : Instr) (a : Bool) (pc : Option VAddr) :
    (t.pass e i a pc).preSuppress = t.preSuppress := by
  unfold Thread.pass
  dsimp only
  split
  · simp
  · split <;> simp
  · simp
@[simp] theorem Thread.pass_wp0 (t : Thread) (e : Env) (i : Instr) (a : Bool) (pc : Option VAddr) :
    (t.pass e i a pc).wp0 = t.wp0 := by
  unfold Thread.pass
  dsimp only
  split
  · simp
  · split <;> simp
  · simp
@[simp] theorem Thread.pass_wp1 (t : Thread) (e : Env) (i : Instr) (a : Bool) (pc : Option VAddr) :
    (t.pass e i a pc).wp1 = t.wp1 := by
  unfold Thread.pass
  dsimp only
  split
  · simp
  · split <;> simp
  · simp
@[simp] theorem Thread.pass_emuEntry (t : Thread) (e : Env) (i : Instr) (a : Bool) (pc : Option VAddr) :
    (t.pass e i a pc).emuEntry = t.emuEntry := by
  unfold Thread.pass
  dsimp only
  split
  · simp
  · split <;> simp
  · simp
@[simp] theorem Thread.pass_status (t : Thread) (e : Env) (i : Instr) (a : Bool) (pc : Option VAddr) :
    (t.pass e i a pc).status = t.status := by
  unfold Thread.pass
  dsimp only
  split
  · simp
  · split <;> simp
  · simp
@[simp] theorem Thread.pass_departing (t : Thread) (e : Env) (i : Instr) (a : Bool) (pc : Option VAddr) :
    (t.pass e i a pc).departing = t.departing := by
  unfold Thread.pass
  dsimp only
  split
  · simp
  · split <;> simp
  · simp
@[simp] theorem Thread.pass_pushes (t : Thread) (e : Env) (i : Instr) (a : Bool) (pc : Option VAddr) :
    (t.pass e i a pc).pushes = t.pushes := by
  unfold Thread.pass
  dsimp only
  split
  · simp
  · split <;> simp
  · simp
@[simp] theorem Thread.pass_ord (t : Thread) (e : Env) (i : Instr) (a : Bool) (pc : Option VAddr) :
    (t.pass e i a pc).ord = t.ord := by
  unfold Thread.pass
  dsimp only
  split
  · simp
  · split <;> simp
  · simp
@[simp] theorem Thread.pass_err (t : Thread) (e : Env) (i : Instr) (a : Bool) (pc : Option VAddr) :
    (t.pass e i a pc).err = t.err := by
  unfold Thread.pass
  dsimp only
  split
  · simp
  · split <;> simp
  · simp
@[simp] theorem Thread.pass_rdy (t : Thread) (e : Env) (i : Instr) (a : Bool) (pc : Option VAddr) :
    (t.pass e i a pc).rdy = t.rdy := by
  unfold Thread.pass
  dsimp only
  split
  · simp
  · split <;> simp
  · simp
@[simp] theorem Thread.pass_late (t : Thread) (e : Env) (i : Instr) (a : Bool) (pc : Option VAddr) :
    (t.pass e i a pc).late = t.late := by
  unfold Thread.pass
  dsimp only
  split
  · simp
  · split <;> simp
  · simp
@[simp] theorem Thread.pass_yielded (t : Thread) (e : Env) (i : Instr) (a : Bool) (pc : Option VAddr) :
    (t.pass e i a pc).yielded = t.yielded := by
  unfold Thread.pass
  dsimp only
  split
  · simp
  · split <;> simp
  · simp

end Sys2Proof.Machine
end

