-- ==== Sys2Proof/Laws/Ops.lean ====
section
/-! SUPPORT. What the shared operations of thread instructions can do: reads after writes of registers and predicates,
the passing of an op, and the frame of an op that changes the executing thread alone. -/

namespace Sys2Proof.Machine

/-! ## Registers -/

theorem Thread.rd_v (t : Thread) (n : BitVec 8) : t.rd (.v n) = if n = 255 then 0 else sget t.regs n.toNat := rfl

@[simp] theorem Thread.rd_vz (t : Thread) : t.rd (.v 255) = 0 := rfl

/-- A register that a write does not name reads as before. -/
theorem Thread.rd_wr_other (t : Thread) {r x : Reg} (v : Word) (h : x ≠ r) : (t.wr r v).rd x = t.rd x := by
  cases r with
  | v n =>
    cases x with
    | v m =>
      have hm : m.toNat ≠ n.toNat := fun hh => h (by rw [BitVec.eq_of_toNat_eq hh])
      unfold Thread.wr
      by_cases hn : n = 255#8
      · simp [hn]
      · simp [hn, Thread.rd, sget_sset_other _ _ hm]
    | k m =>
      unfold Thread.wr
      by_cases hn : n = 255#8 <;> simp [hn, Thread.rd]
  | k n =>
    cases x with
    | v m => rfl
    | k m =>
      have hm : m.toNat ≠ n.toNat := fun hh => h (by rw [BitVec.eq_of_toNat_eq hh])
      unfold Thread.wr Thread.rd
      cases ht : t.exp with
      | none => rfl
      | some y => simp [sget_sset_other _ _ hm]

/-- A register is there to be written: not vz, and a temporary only within an expansion. -/
def Thread.holds (t : Thread) (r : Reg) : Bool :=
  match r with
  | .v n => n != 255
  | .k _ => t.exp.isSome

/-- A register that holds values reads as written. -/
theorem Thread.rd_wr_same (t : Thread) (r : Reg) (v : Word) (h : t.holds r = true) : (t.wr r v).rd r = v := by
  cases r with
  | v n =>
    simp only [Thread.holds, bne_iff_ne] at h
    have h' : ¬ n = 255#8 := h
    simp [Thread.wr, Thread.rd, h']
  | k n =>
    simp only [Thread.holds] at h
    unfold Thread.wr Thread.rd
    cases ht : t.exp with
    | none => rw [ht] at h; exact absurd h (by decide)
    | some y => simp

theorem Thread.holds_wr (t : Thread) (r x : Reg) (v : Word) : (t.wr r v).holds x = t.holds x := by
  cases x with
  | v m => rfl
  | k m =>
    cases r with
    | v n => unfold Thread.wr; by_cases hn : n = 255#8 <;> simp [hn, Thread.holds]
    | k n => simp [Thread.wr, Thread.holds]

theorem regNext_ne (r : Reg) : regNext r ≠ r := by
  cases r with
  | v n => simp [regNext]
  | k n => simp [regNext]

theorem joinWords_split (v : Dword) : joinWords (loWord v) (hiWord v) = v := by
  apply BitVec.eq_of_getLsbD_eq
  intro i hi
  unfold joinWords loWord hiWord
  erw [BitVec.getLsbD_append]
  split
  · next h => simp [h]
  · next h => simp [show i - 32 < 32 by omega, show 32 + (i - 32) = i by omega]

/-- A pair reads as written. -/
theorem Thread.rd64_wr64 (t : Thread) (r : Reg) (v : Dword) (h : r ≠ .v 255) (h1 : t.holds r = true)
    (h2 : t.holds (regNext r) = true) : (t.wr64 r v).rd64 r = v := by
  unfold Thread.rd64 Thread.wr64
  rw [if_neg h, if_neg h, Thread.rd_wr_other _ _ (Ne.symm (regNext_ne r)), Thread.rd_wr_same _ _ _ h1,
    Thread.rd_wr_same _ _ _ (by rw [Thread.holds_wr]; exact h2)]
  exact joinWords_split v

/-- A register outside a result reads as before. -/
theorem Thread.rd_wrW_other (t : Thread) (w64 : Bool) {d x : Reg} (v : Dword) (h : x ∉ regsOf w64 d) :
    (t.wrW w64 d v).rd x = t.rd x := by
  unfold Thread.wrW
  by_cases hd : d = .v 255
  · subst hd; cases w64 <;> rfl
  · cases w64 with
    | false =>
      simp only [regsOf, if_neg hd, Bool.false_eq_true, if_false, List.mem_cons, List.not_mem_nil, or_false] at h ⊢
      exact Thread.rd_wr_other t _ h
    | true =>
      simp only [regsOf, if_neg hd, if_true, List.mem_cons, List.not_mem_nil, or_false, not_or] at h ⊢
      unfold Thread.wr64
      rw [if_neg hd, Thread.rd_wr_other _ _ h.2, Thread.rd_wr_other _ _ h.1]

/-! ## Predicates -/

theorem Thread.p_setP_same (t : Thread) (n : Nat) (b : Bool) : (t.setP n b).p n = if n < 15 then b else t.p n := by
  unfold Thread.setP Thread.p
  by_cases h : n ≥ 15
  · simp [h, show ¬ n < 15 by omega]
  · have h1 : n < 15 := by omega
    have h2 : n ≠ 15 := by omega
    have hb : (BitVec.ofNat 15 (2 ^ n))[n] = true := by
      rw [BitVec.getElem_eq_testBit_toNat, BitVec.toNat_ofNat,
        Nat.mod_eq_of_lt (Nat.pow_lt_pow_right (by omega) h1)]
      exact Nat.testBit_two_pow_self
    generalize BitVec.ofNat 15 (2 ^ n) = x at hb ⊢
    cases b <;> simp [h, h1, h2, hb]

theorem Thread.p_setP_other (t : Thread) {n m : Nat} (b : Bool) (h : m ≠ n) : (t.setP n b).p m = t.p m := by
  unfold Thread.setP Thread.p
  by_cases hn : n ≥ 15
  · simp [hn]
  · by_cases hm : m = 15
    · simp [hm]
    · by_cases hm2 : m < 15
      · have hb : (BitVec.ofNat 15 (2 ^ n))[m] = false := by
          rw [BitVec.getElem_eq_testBit_toNat, BitVec.toNat_ofNat,
            Nat.mod_eq_of_lt (Nat.pow_lt_pow_right (by omega) (by omega : n < 15))]
          exact Nat.testBit_two_pow_of_ne (Ne.symm h)
        generalize BitVec.ofNat 15 (2 ^ n) = x at hb ⊢
        cases b <;> simp [hn, hm, hm2, hb]
      · cases b <;> simp [hn, hm, BitVec.getLsbD_of_ge _ _ (show 15 ≤ m by omega)]

/-! ## The passing of an op -/

/-- An op of a clear thread settles without a change. -/
theorem Thread.settle_clear {u : Thread} {e : Env} (hu : u.Clear) (he : e.th.Clear) (ks : List RegKey) :
    u.settle e ks false = (u, ks.map fun k => (k, e.keyVal k)) := by
  obtain ⟨h1, h2, h3⟩ := hu
  obtain ⟨h4, h5, h6⟩ := he
  have hd : ∀ o : OutOp, OutOp.drop [] o = o := by
    intro o
    unfold OutOp.drop
    split
    · rfl
    · simp
  have hr : u.restore ks = u := by
    unfold Thread.restore
    rw [h1, List.foldl_nil]
    cases u
    simp_all
  have hm : ∀ os : List OutOp, os.map (OutOp.drop []) = os := by
    intro os
    rw [show OutOp.drop [] = id from funext hd, List.map_id]
  unfold Thread.settle
  simp only [h5, h6, List.filter_nil, hr, keyIn, List.find?_nil, Option.map_none, List.foldl_nil, Bool.false_eq_true,
    if_false, hm, List.map_nil, List.append_nil, List.contains_nil, List.map_id']

/-- A thread that an op of e has changed in registers, predicates and flags only. -/
structure Thread.Changed (t u : Thread) : Prop where
  rest : u = { t with regs := u.regs, preds := u.preds, flags := u.flags, exp := u.exp }
  exp : u.exp.map (fun x => { x with temps := [] }) = t.exp.map (fun x => { x with temps := [] })

theorem Thread.Changed.refl (t : Thread) : t.Changed t := ⟨rfl, rfl⟩

theorem Thread.Changed.trans {a b c : Thread} (h : a.Changed b) (g : b.Changed c) : a.Changed c := by
  refine ⟨?_, g.exp.trans h.exp⟩
  have h1 := h.rest
  have h2 := g.rest
  rw [h1] at h2
  exact h2

theorem Thread.Changed.wr {a b : Thread} (h : a.Changed b) (r : Reg) (v : Word) : a.Changed (b.wr r v) := by
  refine h.trans ?_
  cases r with
  | v n => by_cases hn : n = 255#8 <;> exact ⟨by simp [Thread.wr, hn], by simp [Thread.wr, hn]⟩
  | k n => exact ⟨rfl, by cases hb : b.exp <;> simp [Thread.wr, hb]⟩

theorem Thread.Changed.wr64 {a b : Thread} (h : a.Changed b) (r : Reg) (v : Dword) : a.Changed (b.wr64 r v) := by
  unfold Thread.wr64
  split
  · exact h
  · exact (h.wr _ _).wr _ _

theorem Thread.Changed.wrW {a b : Thread} (h : a.Changed b) (w : Bool) (r : Reg) (v : Dword) : a.Changed (b.wrW w r v) := by
  unfold Thread.wrW
  split
  · exact h.wr64 r v
  · exact h.wr r _

theorem Thread.Changed.setP {a b : Thread} (h : a.Changed b) (n : Nat) (v : Bool) : a.Changed (b.setP n v) := by
  refine h.trans ?_
  unfold Thread.setP
  split <;> exact ⟨rfl, rfl⟩

theorem Thread.Changed.orFlags {a b : Thread} (h : a.Changed b) (f : BitVec 7) : a.Changed (b.orFlags f) :=
  h.trans ⟨rfl, rfl⟩

theorem Thread.rest_trans {t u v : Thread}
    (h1 : v = { u with
      pc := v.pc, hazards := v.hazards, shadow := v.shadow, exp := v.exp, commits := v.commits
      wpSuppress := v.wpSuppress, granted := v.granted })
    (h2 : u = { t with regs := u.regs, preds := u.preds, flags := u.flags, exp := u.exp }) :
    v = { t with
      pc := v.pc, regs := v.regs, preds := v.preds, flags := v.flags, hazards := v.hazards, shadow := v.shadow
      exp := v.exp, commits := v.commits, wpSuppress := v.wpSuppress, granted := v.granted } := by
  cases t
  cases u
  cases v
  simp only [Thread.mk.injEq, true_and] at h1 h2 ⊢
  simp only [h1, h2, and_self]

theorem Env.closes_changed {e : Env} {t u : Thread}
    (h : u = { t with regs := u.regs, preds := u.preds, flags := u.flags, exp := u.exp }) :
    e.closes u = { e.closes t with
      regs := (e.closes u).regs, preds := (e.closes u).preds, flags := (e.closes u).flags, exp := (e.closes u).exp } := by
  cases t
  cases u
  simp only [Thread.mk.injEq, true_and] at h
  unfold Env.closes
  split <;> simp [Thread.dropTemps, h]

/-- What an op that passes keeps, and that the registers there after it read as its thread left them. -/
theorem Thread.pass_kept {e : Env} {i : Instr} {u : Thread} {xs : List Reg} {ps : List Nat} {fl : BitVec 7}
    (hl : (Instr.isLdc i && !e.multiOp) = false) (he : e.th.Clear) (hc : e.th.Changed u)
    (hr : ∀ x, x ∉ xs → u.rd x = e.th.rd x) (hp : ∀ n, n ∉ ps → u.p n = e.th.p n) (hf : u.flags = e.th.flags ||| fl) :
    Thread.Kept e i (u.pass e i true none) xs ps fl ∧
      (∀ x, e.sees x → (u.pass e i true none).rd x = u.rd x) ∧ (∀ n, (u.pass e i true none).p n = u.p n) := by
  have hu : u.Clear := by
    have := hc.rest
    unfold Thread.Clear at he ⊢
    rw [this]; exact he
  have hs := Thread.settle_clear hu he (Instr.dstKeys i e.th)
  have key : (∀ x, e.sees x → (u.pass e i true none).rd x = u.rd x) ∧ (∀ n, (u.pass e i true none).p n = u.p n) ∧
      (e.th.exp = none → (u.pass e i true none).pc = e.seqNext (Instr.isLong i)) ∧
      (u.pass e i true none) = { e.closes u with
        pc := (u.pass e i true none).pc, hazards := (u.pass e i true none).hazards
        shadow := (u.pass e i true none).shadow, exp := (u.pass e i true none).exp
        commits := (u.pass e i true none).commits, wpSuppress := (u.pass e i true none).wpSuppress
        granted := (u.pass e i true none).granted } := by
    unfold Thread.pass
    simp only [Bool.true_and, hl, if_true, hs]
    cases hx : u.exp with
    | none =>
      refine ⟨fun x hx' => ?_, fun n => rfl, fun _ => rfl, ?_⟩
      · cases x with
        | v n => rfl
        | k n => unfold Thread.rd; simp [hx]
      · have hn : e.th.exp = none := by
          have := hc.exp
          rw [hx] at this
          cases hz : e.th.exp with
          | none => rfl
          | some z => rw [hz] at this; simp at this
        unfold Env.closes Env.lastOp
        rw [hn]
        cases u; simp only at hx; subst hx; rfl
    | some y =>
      have hey : ∃ z, e.th.exp = some z ∧ z.idx = y.idx ∧ z.ops = y.ops := by
        have := hc.exp
        rw [hx] at this
        cases hz : e.th.exp with
        | none => rw [hz] at this; simp at this
        | some z =>
          rw [hz] at this
          simp only [Option.map_some, Option.some.injEq, Exp.mk.injEq] at this
          exact ⟨z, rfl, this.2.2.2.1.symm, this.2.2.1.symm⟩
      obtain ⟨z, hz1, hz2, hz3⟩ := hey
      by_cases hi : y.idx + 1 < y.ops.length
      · simp only [hi, if_true]
        refine ⟨fun x hx' => ?_, fun n => rfl, fun hn => ?_, ?_⟩
        · cases x with
          | v n => rfl
          | k n => unfold Thread.rd; simp [hx]
        · rw [hz1] at hn; exact absurd hn (by simp)
        · unfold Env.closes Env.lastOp
          rw [hz1]
          simp only [hz2, hz3, show ¬ y.ops.length ≤ y.idx + 1 by omega, decide_false, Bool.false_eq_true, if_false]
      · simp only [hi, if_false]
        refine ⟨fun x hx' => ?_, fun n => ?_, fun hn => ?_, ?_⟩
        · cases x with
          | v n => rfl
          | k n =>
            obtain ⟨y', h1, h2⟩ := hx'
            rw [hz1] at h1
            injection h1 with h1
            subst h1
            rw [hz2, hz3] at h2
            exact absurd h2 hi
        · simp [Thread.p]
        · rw [hz1] at hn; exact absurd hn (by simp)
        · unfold Env.closes Env.lastOp Thread.endExp
          rw [hz1]
          simp only [hz2, hz3, show y.ops.length ≤ y.idx + 1 by omega, decide_true, if_true]
          rfl
  refine ⟨⟨fun x h1 h2 => ?_, fun n h1 => ?_, ?_, key.2.2.1, ?_⟩, key.1, key.2.1⟩
  · rw [key.1 x h2, hr x h1]
  · rw [key.2.1 n, hp n h1]
  · rw [Thread.pass_flags, hf]
  · exact Thread.rest_trans key.2.2.2 (Env.closes_changed hc.rest)

/-! ## Ops that change the executing thread alone -/

/-- An op that executes answers the thread it changes, passed. -/
theorem aluOp_next {s : State} {e : Env} {i : Instr} (h : s.Executes e i) (f : Env → Thread) :
    aluOp i s f = .next (s.setThread e.tid ((f e).pass e i true none)) := by
  unfold aluOp guarded
  simp only [h.env, h.checks, h.active, if_true]

theorem State.becomes_set (s : State) (tid : Nat) (v : Thread) : s.Becomes tid (s.setThread tid v) v :=
  ⟨rfl, aget_aset_same _ _ _, fun _ h => aget_aset_other _ _ h⟩

theorem State.becomes_mod {s : State} {tid : Nat} {u : Thread} (f : Thread → Thread) (h : aget s.threads tid = some u) :
    s.Becomes tid (s.modThread tid f) (f u) :=
  ⟨rfl, by simp [State.modThread, aget_amod_same, h], fun _ hk => aget_amod_other _ _ hk⟩

/-- A fault of checks 4 to 6 is the whole effect of an op (R159). -/
theorem guarded_fault {s : State} {e : Env} {i : Instr} {f : FaultInfo} (he : s.env = some e) (hf : preCheck e i = some f)
    (act : Env → State) : guarded i s act = .next (s.takeFault e (Instr.isLong i) f) := by
  unfold guarded
  simp only [he, hf]

/-- An op whose guard or shadow is false passes without an effect (R61, R151). -/
theorem guarded_false {s : State} {e : Env} {i : Instr} (he : s.env = some e) (hf : preCheck e i = none)
    (ha : e.th.active (Instr.hdr i) = false) (act : Env → State) :
    guarded i s act = .next (s.setThread e.tid (e.th.pass e i false none)) := by
  unfold guarded
  simp only [he, hf, ha, Bool.false_eq_true, if_false]

/-- An op that executes answers what its body comes to. -/
theorem threadOp_next {s : State} {e : Env} {i : Instr} (h : s.Executes e i) (body : Env → M Flow) :
    threadOp i s body = .next (endOp i s e (body e s)) := by
  unfold threadOp guarded
  simp only [h.env, h.checks, h.active, if_true]

/-- What the surroundings of the executing thread are. -/
theorem State.env_some {s : State} {e : Env} (h : s.env = some e) :
    aget s.threads e.tid = some e.th ∧ aget s.cohorts e.coh = some e.c ∧ aget s.warps e.warp = some e.w ∧
      aget s.launches e.c.launch = some e.l ∧ aget s.ctxs e.cid = some e.ctx ∧ e.coh = cohOf e.tid ∧
      e.warp = warpOf e.tid ∧ e.lane = laneOf e.tid ∧ e.cid = e.c.cid := by
  unfold State.env State.envOf at h
  repeat' split at h
  all_goals cases h
  exact ⟨‹_›, ‹_›, ‹_›, ‹_›, ‹_›, rfl, rfl, rfl, rfl⟩

/-- Checks that pass find every destination encodable (check 6 of Table 7-7). -/
theorem ok_of_checks {e : Env} {i : Instr} {o : Opnd} (h : preCheck e i = none) (ho : o ∈ Instr.dsts i) :
    o.ok e.c.regs e.th.handler (e.ctx.has 7) = true := by
  by_contra hn
  have bad : ((Instr.srcs i ++ Instr.dsts i).any fun o => !o.ok e.c.regs e.th.handler (e.ctx.has 7)) = true :=
    List.any_eq_true.mpr ⟨o, List.mem_append_right _ ho, by simpa using hn⟩
  simp only [preCheck, bad, if_true] at h
  split_ifs at h

/-- A result in a register or pair that the checks have found encodable is held where it is seen. -/
theorem holds_of_ok {e : Env} {w64 : Bool} {d : Reg} (h : (Opnd.wd w64 d).ok e.c.regs e.th.handler (e.ctx.has 7) = true)
    (hs : e.sees d) (hd : d ≠ .v 255) :
    e.th.holds d = true ∧ (w64 = true → e.th.holds (regNext d) = true) := by
  cases d with
  | v n =>
    have hn : n ≠ 255#8 := fun hh => hd (by rw [hh]; rfl)
    refine ⟨by simpa [Thread.holds] using hn, fun hw => ?_⟩
    subst hw
    have h' : n = 255#8 ∨ ((n.toNat % 2 = 0 ∧ n.toNat ≤ 252) ∧ n.toNat + 1 < e.c.regs) := by
      simpa [Opnd.wd, Opnd.ok] using h
    rcases h' with h' | h'
    · exact absurd h' hn
    · simp only [regNext, Thread.holds, bne_iff_ne, ne_eq]
      intro hh
      have : (n + 1#8).toNat = 255 := congrArg BitVec.toNat hh
      rw [BitVec.toNat_add] at this
      have h1 : (1#8).toNat = 1 := rfl
      omega
  | k n =>
    obtain ⟨y, hy, _⟩ := hs
    exact ⟨by simp [Thread.holds, hy], fun _ => by simp [regNext, Thread.holds, hy]⟩

/-- An op of one register or pair result. -/
theorem aluOp_writes {s : State} {e : Env} {i : Instr} {w64 : Bool} {d : Reg} {val : Dword} {fl : BitVec 7}
    {f : Env → Thread} (hx : exec i s = aluOp i s f) (h : s.Executes e i) (hl : Instr.isLdc i = false)
    (hd : Opnd.wd w64 d ∈ Instr.dsts i) (hf : f e = (e.th.wrW w64 d val).orFlags fl) : s.Writes e i w64 d val fl := by
  have hok := ok_of_checks h.checks hd
  have key := Thread.pass_kept (i := i) (u := f e) (xs := regsOf w64 d) (ps := []) (fl := fl) (by simp [hl]) h.clear
    (by rw [hf]; exact ((Thread.Changed.refl e.th).wrW w64 d val).orFlags fl)
    (fun x hx => by rw [hf]; exact Thread.rd_wrW_other e.th w64 val hx)
    (fun n _ => by rw [hf]; unfold Thread.orFlags Thread.p; simp)
    (by rw [hf]; simp [Thread.orFlags])
  refine ⟨_, _, by rw [hx]; exact aluOp_next h f, s.becomes_set _ _, fun hs => ?_, key.1⟩
  have hr : ∀ x, e.sees x → ((f e).pass e i true none).rd x = (e.th.wrW w64 d val).rd x := by
    intro x hx
    rw [key.2.1 x hx, hf]
    rfl
  have hn : e.sees (regNext d) := by
    cases d with
    | v n => exact True.intro
    | k n => exact hs
  by_cases hz : d = .v 255
  · subst hz
    cases w64 <;> rfl
  · obtain ⟨h1, h2⟩ := holds_of_ok hok hs hz
    rw [if_neg hz]
    cases w64 with
    | false =>
      unfold Thread.rdW
      simp only [Bool.false_eq_true, if_false]
      rw [hr d hs]
      unfold Thread.wrW
      simp only [Bool.false_eq_true, if_false]
      rw [Thread.rd_wr_same _ _ _ h1]
    | true =>
      have := Thread.rd64_wr64 e.th d val hz h1 (h2 rfl)
      unfold Thread.rdW
      simp only [if_true]
      unfold Thread.rd64 at this ⊢
      rw [if_neg hz] at this ⊢
      rw [hr d hs, hr _ hn]
      exact this

/-- An op without a result. -/
theorem aluOp_passes {s : State} {e : Env} {i : Instr} {fl : BitVec 7} {f : Env → Thread} (hx : exec i s = aluOp i s f)
    (h : s.Executes e i) (hl : Instr.isLdc i = false) (hf : f e = e.th.orFlags fl) : s.Passes e i fl := by
  have key := Thread.pass_kept (i := i) (u := f e) (xs := []) (ps := []) (fl := fl) (by simp [hl]) h.clear
    (by rw [hf]; exact (Thread.Changed.refl e.th).orFlags fl) (fun x _ => by rw [hf]; rfl) (fun n _ => by rw [hf]; rfl)
    (by rw [hf]; rfl)
  exact ⟨_, _, by rw [hx]; exact aluOp_next h f, s.becomes_set _ _, key.1⟩

/-- An op of one predicate result. -/
theorem aluOp_writesPred {s : State} {e : Env} {i : Instr} {d : BitVec 8} {b : Bool} {fl : BitVec 7}
    {f : Env → Thread} (hx : exec i s = aluOp i s f) (h : s.Executes e i) (hl : Instr.isLdc i = false)
    (hd : Opnd.pdst d ∈ Instr.dsts i) (hf : f e = (e.th.setP d.toNat b).orFlags fl) : s.WritesPred e i d b fl := by
  have hok : d.toNat < 16 := by simpa [Opnd.ok] using ok_of_checks h.checks hd
  have hr : ∀ x, (e.th.setP d.toNat b).rd x = e.th.rd x := by
    intro x; unfold Thread.setP; split <;> rfl
  have key := Thread.pass_kept (i := i) (u := f e) (xs := []) (ps := [d.toNat]) (fl := fl) (by simp [hl]) h.clear
    (by rw [hf]; exact ((Thread.Changed.refl e.th).setP d.toNat b).orFlags fl)
    (fun x _ => by rw [hf]; exact hr x)
    (fun n hn => by rw [hf]; exact Thread.p_setP_other e.th b (by simpa using hn))
    (by rw [hf]; simp [Thread.orFlags])
  refine ⟨_, _, by rw [hx]; exact aluOp_next h f, s.becomes_set _ _, ?_, key.1⟩
  rw [key.2.2 d.toNat, hf]
  have := Thread.p_setP_same e.th d.toNat b
  have e15 : e.th.p 15 = true := rfl
  split
  · next h15 => rw [h15]; rfl
  · next h15 => rw [if_pos (by omega)] at this; exact this

end Sys2Proof.Machine
end

