-- ==== Sys2Proof/Laws/Integer.lean ====
section
/-! SUPPORT. What the shared operations of integer instructions deliver. -/

namespace Sys2Proof.Machine

@[simp] theorem Thread.orFlags_zero (t : Thread) : t.orFlags 0#7 = t := by simp [Thread.orFlags]

/-- The integer that an operand of a type holds, in bit-vector terms. -/
theorem intVal_asInt (ty : IntTy) (x : Dword) : IntTy.val ty x = asInt ty.is64 ty.signed x := by
  cases ty <;> simp [IntTy.val, intOf, asInt, IntTy.width, IntTy.is64, IntTy.signed, sextInt, BitVec.toInt_eq_toNat_cond] <;> omega

/-- An integer result under SAT is the nearest value of the type. -/
theorem satInt_eq (w : Nat) (sg sat : Bool) (r : Int) (hlh : tyMin w sg ≤ tyMax w sg) :
    satInt w sg sat r =
      (BitVec.ofInt 64 (if sat then max (tyMin w sg) (min (tyMax w sg) r) else r),
       if (if sat then max (tyMin w sg) (min (tyMax w sg) r) else r) = r then 0 else flagSAT) := by
  unfold satInt
  generalize tyMin w sg = lo at *
  generalize tyMax w sg = hi at *
  cases sat with
  | false => simp
  | true =>
    by_cases h1 : r < lo
    · have : max lo (min hi r) = lo := by omega
      simp [h1, this, show lo ≠ r by omega]
    · by_cases h2 : hi < r
      · have : max lo (min hi r) = hi := by omega
        simp [h1, h2, this, show hi ≠ r by omega]
      · have : max lo (min hi r) = r := by omega
        simp [h1, h2, this]

/-- What an exact result writes. -/
theorem putInt_eq (t : Thread) (w64 sg sat : Bool) (d : Reg) (r : Int) :
    let lo := tyMin (bitsOfW w64) sg
    let hi := tyMax (bitsOfW w64) sg
    let x := if sat then max lo (min hi r) else r
    t.putInt w64 sg sat d r = (t.wrW w64 d (BitVec.ofInt 64 x)).orFlags (if x = r then 0 else flagSAT) := by
  intro lo hi x
  have hlh : lo ≤ hi := by cases w64 <;> cases sg <;> decide
  unfold Thread.putInt
  rw [show (if w64 = true then 64 else 32) = bitsOfW w64 from rfl, satInt_eq _ _ _ _ hlh]

/-- An op that writes an exact result delivers it (R423). -/
theorem aluOp_delivers {s : State} {e : Env} {i : Instr} {w64 sg sat : Bool} {d : Reg} {r : Int} {f : Env → Thread}
    (hx : exec i s = aluOp i s f) (h : s.Executes e i) (hl : Instr.isLdc i = false)
    (hd : Opnd.wd w64 d ∈ Instr.dsts i) (hf : f e = e.th.putInt w64 sg sat d r) : s.Delivers e i w64 sg sat d r :=
  aluOp_writes hx h hl hd (by rw [hf]; exact putInt_eq e.th w64 sg sat d r)

end Sys2Proof.Machine
end

