-- ==== Sys2Proof/Laws/Memory.lean ====
section
/-! SUPPORT. Laws of physical memory: the operations on it keep its canonical form, and what they leave elsewhere. -/

namespace Sys2Proof.Machine

/-! ## Writing lines back -/

theorem wf_writeDirty {m : Sparse 8} (key : Nat) (bs : List Byte) (d : BitVec 128) (i : Nat) (h : m.wf = true) :
    Sparse.wf (writeDirty m key bs d i) = true := by
  induction bs generalizing m i with
  | nil => exact h
  | cons b t ih =>
    rw [writeDirty]
    split
    · exact ih (i + 1) (wf_sset (key + i) b h)
    · exact ih (i + 1) h

/-- Lines that are written back keep the canonical form. -/
theorem State.writeBack_wf (s : State) (pid : Nat) (ls : List StashLine) (h : Memory.wf s.mem = true) :
    Memory.wf (s.writeBack pid ls).mem = true := by
  unfold State.writeBack
  induction ls generalizing s with
  | nil => exact h
  | cons l t ih =>
    rw [List.foldl_cons]
    apply ih
    dsimp only
    split
    · split
      · exact (State.pick_mem s 2).symm ▸ h
      · exact wf_writeDirty l.key l.bytes l.dirty 0 ((State.pick_mem s 2).symm ▸ h)
    · exact wf_writeDirty l.key l.bytes l.dirty 0 h

/-- A line is written back within its 128 bytes. -/
theorem sget_writeDirty_out {m : Sparse 8} {key k : Nat} {bs : List Byte} (d : BitVec 128) (i : Nat)
    (o : k < key + i ∨ key + i + bs.length ≤ k) : sget (writeDirty m key bs d i) k = sget m k := by
  induction bs generalizing m i with
  | nil => rfl
  | cons b t ih =>
    simp only [List.length_cons] at o
    rw [writeDirty]
    split
    · rw [ih (i + 1) (by omega), sget_sset_other m b (by omega)]
    · exact ih (i + 1) (by omega)

/-! ## The recall of stash lines -/

/-- Where no line overlaps the bytes, there is nothing to recall. -/
theorem State.recall_none (s : State) (key n : Nat) (w : Bool) (h : s.noLines key n) : s.recall key n w = s := by
  unfold State.recall
  rw [if_neg]
  simp only [List.any_eq_true, not_exists, not_and, Bool.not_eq_true]
  exact h

theorem State.recall_wf (s : State) (key n : Nat) (w : Bool) (h : Memory.wf s.mem = true) :
    Memory.wf (s.recall key n w).mem = true := by
  unfold State.recall
  dsimp only
  split
  · have aux : ∀ (cs : Assoc Cohort) (u : State), Memory.wf u.mem = true →
        Memory.wf (cs.foldl (fun u c => u.writeBack (u.cohPid c.2)
          ((c.2.lines.filter fun e : Nat × StashLine => e.2.overlaps key n).map (·.2))) u).mem = true := by
      intro cs
      induction cs with
      | nil => exact fun _ h => h
      | cons c t ih => exact fun u h => ih _ (u.writeBack_wf _ _ h)
    exact aux s.cohorts s h
  · exact h

/-- After a recall for a write, no line overlaps the bytes. -/
theorem State.recall_noLines (s : State) (key n : Nat) : (s.recall key n true).noLines key n := by
  unfold State.recall
  dsimp only
  split
  · intro c hc l hl
    simp only [List.mem_map, if_true] at hc
    obtain ⟨d, _, rfl⟩ := hc
    simpa using (List.mem_filter.mp hl).2
  · next h =>
    intro c hc l hl
    simp only [List.any_eq_true, not_exists, not_and, Bool.not_eq_true] at h
    exact h c hc l hl

theorem State.readMem_wf (s : State) (key n : Nat) (h : Memory.wf s.mem = true) :
    Memory.wf (s.readMem key n).2.mem = true := s.recall_wf key n false h

theorem State.setMem_wf (s : State) (key : Nat) (bs : List Byte) (h : Memory.wf s.mem = true) :
    Memory.wf (s.setMem key bs).mem = true := wf_swrite key bs (s.recall_wf key bs.length true h)

/-- The write that takes its place in coherence order changes the order and the next number alone. -/
theorem State.logMsg_state (s : State) (key : Nat) (old new : List Byte) (view : List Nat) (own carried : List Rel)
    (rmw agent : Bool) : (s.logMsg key old new view own carried rmw agent).2 =
      { s with hist := (s.logMsg key old new view own carried rmw agent).2.hist, nextId := s.nextId + 1 } := rfl

theorem State.writeMem_wf (s : State) (key : Nat) (bs : List Byte) (view : List Nat) (rels : List Rel)
    (h : Memory.wf s.mem = true) : Memory.wf (s.writeMem key bs view rels).mem = true :=
  State.setMem_wf _ key bs (s.recall_wf key bs.length false h)

/-- A read of the bytes just written gives them. -/
theorem State.readMem_setMem (s : State) (key : Nat) (bs : List Byte) :
    ((s.setMem key bs).readMem key bs.length).1 = bs := by
  have hn : (s.setMem key bs).noLines key bs.length := s.recall_noLines key bs.length
  unfold State.readMem
  rw [State.recall_none _ _ _ _ hn]
  exact sread_swrite

theorem State.readMem_writeMem (s : State) (key : Nat) (bs : List Byte) (view : List Nat) (rels : List Rel) :
    ((s.writeMem key bs view rels).readMem key bs.length).1 = bs := State.readMem_setMem _ key bs

/-- Where no stash line holds the bytes, a write changes memory among them only. -/
theorem State.setMem_out (s : State) (key k : Nat) (bs : List Byte)
    (hl : s.noLines key bs.length) (o : k < key ∨ key + bs.length ≤ k) :
    sget (s.setMem key bs).mem k = sget s.mem k := by
  unfold State.setMem
  rw [State.recall_none _ _ _ _ hl]
  exact sget_swrite_out o

theorem State.writeMem_out (s : State) (key k : Nat) (bs : List Byte) (view : List Nat) (rels : List Rel)
    (hl : s.noLines key bs.length) (o : k < key ∨ key + bs.length ≤ k) :
    sget (s.writeMem key bs view rels).mem k = sget s.mem k := by
  have h : s.readMem key bs.length = (sread s.mem key bs.length, s) := by
    unfold State.readMem; rw [State.recall_none _ _ _ _ hl]
  unfold State.writeMem
  rw [h]
  exact State.setMem_out _ key k bs hl o

/-! ## Cohorts that leave -/

theorem State.dropCohort_wf (s : State) (coh : Nat) (h : Memory.wf s.mem = true) :
    Memory.wf (s.dropCohort coh).mem = true := by
  unfold State.dropCohort
  dsimp only
  split
  · exact s.writeBack_wf _ _ h
  · exact h

/-- Reset memory lists nothing. -/
theorem reset_mem_wf : Memory.wf State.reset.mem = true := rfl

end Sys2Proof.Machine
end

