-- ==== Sys2Proof/Laws/PerInstr.lean ====
section
/-! SUPPORT. Statements made of every instruction, one lemma for each constructor: the decoder reads back the fields that
the encoder gives a well-formed native instruction. -/

set_option linter.unusedSimpArgs false
set_option Elab.async false

namespace Sys2Proof.Laws.F

/-- The fields and WORD1 of a well-formed instruction of native code parse to the instruction. -/
def Statement (i : Instr) : Prop :=
  i.native = true → i.wellFormed = true → ∀ f w1, encodeFields i = some (f, w1) → parse {} f w1 = some i

theorem iadd (h : Hdr) (ty : IntTy) (sat : Bool) (d a : Reg) (b : SrcB) : Statement (.iadd h ty sat d a b) := by
  intro hn hw f w1 hf
  simp only [encodeFields, encAlu, encAluC, encAluN, encMem, encPlain, Option.some.injEq, Prod.mk.injEq] at hf
  obtain ⟨rfl, rfl⟩ := hf
  simp_all [Instr.native, Instr.wellFormed, parse, parseAlu, parseMem, parseCtl, aluMod_bi', aluMod_ty, aluMod_rnd,
    aluMod_opx, memMod_size, memMod_sgn', memMod_scope, memMod_ord, memMod_opx, Reg.ofCode_code, SrcB.parse_alu,
    bit0_4, bit0_3, bit1_3]

theorem isub (h : Hdr) (ty : IntTy) (sat : Bool) (d a : Reg) (b : SrcB) : Statement (.isub h ty sat d a b) := by
  intro hn hw f w1 hf
  simp only [encodeFields, encAlu, encAluC, encAluN, encMem, encPlain, Option.some.injEq, Prod.mk.injEq] at hf
  obtain ⟨rfl, rfl⟩ := hf
  simp_all [Instr.native, Instr.wellFormed, parse, parseAlu, parseMem, parseCtl, aluMod_bi', aluMod_ty, aluMod_rnd,
    aluMod_opx, memMod_size, memMod_sgn', memMod_scope, memMod_ord, memMod_opx, Reg.ofCode_code, SrcB.parse_alu,
    bit0_4, bit0_3, bit1_3]

theorem imul (h : Hdr) (ty : IntTy) (sat : Bool) (d a : Reg) (b : SrcB) : Statement (.imul h ty sat d a b) := by
  intro hn hw f w1 hf
  simp only [encodeFields, encAlu, encAluC, encAluN, encMem, encPlain, Option.some.injEq, Prod.mk.injEq] at hf
  obtain ⟨rfl, rfl⟩ := hf
  simp_all [Instr.native, Instr.wellFormed, parse, parseAlu, parseMem, parseCtl, aluMod_bi', aluMod_ty, aluMod_rnd,
    aluMod_opx, memMod_size, memMod_sgn', memMod_scope, memMod_ord, memMod_opx, Reg.ofCode_code, SrcB.parse_alu,
    bit0_4, bit0_3, bit1_3]

theorem imulh (h : Hdr) (ty : IntTy) (d a : Reg) (b : SrcB) : Statement (.imulh h ty d a b) := by
  intro hn hw f w1 hf
  simp only [encodeFields, encAlu, encAluC, encAluN, encMem, encPlain, Option.some.injEq, Prod.mk.injEq] at hf
  obtain ⟨rfl, rfl⟩ := hf
  simp_all [Instr.native, Instr.wellFormed, parse, parseAlu, parseMem, parseCtl, aluMod_bi', aluMod_ty, aluMod_rnd,
    aluMod_opx, memMod_size, memMod_sgn', memMod_scope, memMod_ord, memMod_opx, Reg.ofCode_code, SrcB.parse_alu,
    bit0_4, bit0_3, bit1_3]

theorem imad (h : Hdr) (ty : IntTy) (wide sat : Bool) (d a : Reg) (b : SrcB) (c : Reg) : Statement (.imad h ty wide sat d a b c) := by
  intro hn hw f w1 hf
  simp only [encodeFields, encAlu, encAluC, encAluN, encMem, encPlain, Option.some.injEq, Prod.mk.injEq] at hf
  obtain ⟨rfl, rfl⟩ := hf
  simp only [Instr.native, Instr.wellFormed, Bool.and_eq_true] at hn hw
  have hp := fun c => SrcB.parse_noImm b c _ hn.1.2 hw.1
  simp_all [Instr.native, Instr.wellFormed, parse, parseAlu, parseMem, parseCtl, aluMod_bi', aluMod_ty, aluMod_rnd,
    aluMod_opx, memMod_size, memMod_sgn', memMod_scope, memMod_ord, memMod_opx, Reg.ofCode_code, SrcB.parse_alu,
    hp, bit0_4, bit0_3, bit1_3]

theorem imin (h : Hdr) (ty : IntTy) (d a : Reg) (b : SrcB) : Statement (.imin h ty d a b) := by
  intro hn hw f w1 hf
  simp only [encodeFields, encAlu, encAluC, encAluN, encMem, encPlain, Option.some.injEq, Prod.mk.injEq] at hf
  obtain ⟨rfl, rfl⟩ := hf
  simp_all [Instr.native, Instr.wellFormed, parse, parseAlu, parseMem, parseCtl, aluMod_bi', aluMod_ty, aluMod_rnd,
    aluMod_opx, memMod_size, memMod_sgn', memMod_scope, memMod_ord, memMod_opx, Reg.ofCode_code, SrcB.parse_alu,
    bit0_4, bit0_3, bit1_3]

theorem imax (h : Hdr) (ty : IntTy) (d a : Reg) (b : SrcB) : Statement (.imax h ty d a b) := by
  intro hn hw f w1 hf
  simp only [encodeFields, encAlu, encAluC, encAluN, encMem, encPlain, Option.some.injEq, Prod.mk.injEq] at hf
  obtain ⟨rfl, rfl⟩ := hf
  simp_all [Instr.native, Instr.wellFormed, parse, parseAlu, parseMem, parseCtl, aluMod_bi', aluMod_ty, aluMod_rnd,
    aluMod_opx, memMod_size, memMod_sgn', memMod_scope, memMod_ord, memMod_opx, Reg.ofCode_code, SrcB.parse_alu,
    bit0_4, bit0_3, bit1_3]

theorem iabs (h : Hdr) (w64 sat : Bool) (d a : Reg) : Statement (.iabs h w64 sat d a) := by
  intro hn hw f w1 hf
  simp only [encodeFields, encAlu, encAluC, encAluN, encMem, encPlain, Option.some.injEq, Prod.mk.injEq] at hf
  obtain ⟨rfl, rfl⟩ := hf
  simp_all [Instr.native, Instr.wellFormed, parse, parseAlu, parseMem, parseCtl, aluMod_bi', aluMod_ty, aluMod_rnd,
    aluMod_opx, memMod_size, memMod_sgn', memMod_scope, memMod_ord, memMod_opx, Reg.ofCode_code, SrcB.parse_alu,
    bit0_4, bit0_3, bit1_3]

theorem isetp (h : Hdr) (ty : IntTy) (cmp : ICmp) (d : BitVec 8) (a : Reg) (b : SrcB) : Statement (.isetp h ty cmp d a b) := by
  intro hn hw f w1 hf
  simp only [encodeFields, encAlu, encAluC, encAluN, encMem, encPlain, Option.some.injEq, Prod.mk.injEq] at hf
  obtain ⟨rfl, rfl⟩ := hf
  simp_all [Instr.native, Instr.wellFormed, parse, parseAlu, parseMem, parseCtl, aluMod_bi', aluMod_ty, aluMod_rnd,
    aluMod_opx, memMod_size, memMod_sgn', memMod_scope, memMod_ord, memMod_opx, Reg.ofCode_code, SrcB.parse_alu,
    bit0_4, bit0_3, bit1_3]

theorem idp4 (h : Hdr) (asg bsg sat : Bool) (d a b c : Reg) : Statement (.idp4 h asg bsg sat d a b c) := by
  intro hn hw f w1 hf
  simp only [encodeFields, encAlu, encAluC, encAluN, encMem, encPlain, Option.some.injEq, Prod.mk.injEq] at hf
  obtain ⟨rfl, rfl⟩ := hf
  simp_all [Instr.native, Instr.wellFormed, parse, parseAlu, parseMem, parseCtl, aluMod_bi', aluMod_ty, aluMod_rnd,
    aluMod_opx, memMod_size, memMod_sgn', memMod_scope, memMod_ord, memMod_opx, Reg.ofCode_code, SrcB.parse_alu,
    bit0_2, bit1_2, bit2_2]

theorem shl (h : Hdr) (ty : IntTy) (d a : Reg) (b : SrcB) : Statement (.shl h ty d a b) := by
  intro hn hw f w1 hf
  simp only [encodeFields, encAlu, encAluC, encAluN, encMem, encPlain, Option.some.injEq, Prod.mk.injEq] at hf
  obtain ⟨rfl, rfl⟩ := hf
  simp_all [Instr.native, Instr.wellFormed, parse, parseAlu, parseMem, parseCtl, aluMod_bi', aluMod_ty, aluMod_rnd,
    aluMod_opx, memMod_size, memMod_sgn', memMod_scope, memMod_ord, memMod_opx, Reg.ofCode_code, SrcB.parse_alu,
    bit0_4, bit0_3, bit1_3]

theorem shr (h : Hdr) (ty : IntTy) (d a : Reg) (b : SrcB) : Statement (.shr h ty d a b) := by
  intro hn hw f w1 hf
  simp only [encodeFields, encAlu, encAluC, encAluN, encMem, encPlain, Option.some.injEq, Prod.mk.injEq] at hf
  obtain ⟨rfl, rfl⟩ := hf
  simp_all [Instr.native, Instr.wellFormed, parse, parseAlu, parseMem, parseCtl, aluMod_bi', aluMod_ty, aluMod_rnd,
    aluMod_opx, memMod_size, memMod_sgn', memMod_scope, memMod_ord, memMod_opx, Reg.ofCode_code, SrcB.parse_alu,
    bit0_4, bit0_3, bit1_3]

theorem shf (h : Hdr) (w64 right : Bool) (d a : Reg) (b : SrcB) (c : Reg) : Statement (.shf h w64 right d a b c) := by
  intro hn hw f w1 hf
  simp only [encodeFields, encAlu, encAluC, encAluN, encMem, encPlain, Option.some.injEq, Prod.mk.injEq] at hf
  obtain ⟨rfl, rfl⟩ := hf
  simp only [Instr.native, Instr.wellFormed, Bool.and_eq_true] at hn hw
  have hp := fun c => SrcB.parse_noImm b c _ hn.1.2 hw
  simp_all [Instr.native, Instr.wellFormed, parse, parseAlu, parseMem, parseCtl, aluMod_bi', aluMod_ty, aluMod_rnd,
    aluMod_opx, memMod_size, memMod_sgn', memMod_scope, memMod_ord, memMod_opx, Reg.ofCode_code, SrcB.parse_alu,
    hp, bit0_4, bit0_3, bit1_3]

theorem logt (h : Hdr) (w64 : Bool) (d a : Reg) (b : SrcB) (lut : BitVec 8) : Statement (.logt h w64 d a b lut) := by
  intro hn hw f w1 hf
  simp only [encodeFields, encAlu, encAluC, encAluN, encMem, encPlain, Option.some.injEq, Prod.mk.injEq] at hf
  obtain ⟨rfl, rfl⟩ := hf
  simp only [Instr.native, Instr.wellFormed, Bool.and_eq_true] at hn hw
  have hp := fun c => SrcB.parse_noImm b c _ hn.2 hw
  simp_all [Instr.native, Instr.wellFormed, parse, parseAlu, parseMem, parseCtl, aluMod_bi', aluMod_ty, aluMod_rnd,
    aluMod_opx, memMod_size, memMod_sgn', memMod_scope, memMod_ord, memMod_opx, Reg.ofCode_code, SrcB.parse_alu,
    hp, bit0_4, bit0_3, bit1_3]

theorem bfe (h : Hdr) (ty : IntTy) (d a : Reg) (b : SrcB) : Statement (.bfe h ty d a b) := by
  intro hn hw f w1 hf
  simp only [encodeFields, encAlu, encAluC, encAluN, encMem, encPlain, Option.some.injEq, Prod.mk.injEq] at hf
  obtain ⟨rfl, rfl⟩ := hf
  simp_all [Instr.native, Instr.wellFormed, parse, parseAlu, parseMem, parseCtl, aluMod_bi', aluMod_ty, aluMod_rnd,
    aluMod_opx, memMod_size, memMod_sgn', memMod_scope, memMod_ord, memMod_opx, Reg.ofCode_code, SrcB.parse_alu,
    bit0_4, bit0_3, bit1_3]

theorem bfi (h : Hdr) (w64 : Bool) (d a : Reg) (b : SrcB) (c : Reg) : Statement (.bfi h w64 d a b c) := by
  intro hn hw f w1 hf
  simp only [encodeFields, encAlu, encAluC, encAluN, encMem, encPlain, Option.some.injEq, Prod.mk.injEq] at hf
  obtain ⟨rfl, rfl⟩ := hf
  simp only [Instr.native, Instr.wellFormed, Bool.and_eq_true] at hn hw
  have hp := fun c => SrcB.parse_noImm b c _ hn.1.2 hw
  simp_all [Instr.native, Instr.wellFormed, parse, parseAlu, parseMem, parseCtl, aluMod_bi', aluMod_ty, aluMod_rnd,
    aluMod_opx, memMod_size, memMod_sgn', memMod_scope, memMod_ord, memMod_opx, Reg.ofCode_code, SrcB.parse_alu,
    hp, bit0_4, bit0_3, bit1_3]

theorem popc (h : Hdr) (w64 : Bool) (d a : Reg) : Statement (.popc h w64 d a) := by
  intro hn hw f w1 hf
  simp only [encodeFields, encAlu, encAluC, encAluN, encMem, encPlain, Option.some.injEq, Prod.mk.injEq] at hf
  obtain ⟨rfl, rfl⟩ := hf
  simp_all [Instr.native, Instr.wellFormed, parse, parseAlu, parseMem, parseCtl, aluMod_bi', aluMod_ty, aluMod_rnd,
    aluMod_opx, memMod_size, memMod_sgn', memMod_scope, memMod_ord, memMod_opx, Reg.ofCode_code, SrcB.parse_alu,
    bit0_4, bit0_3, bit1_3]

theorem clz (h : Hdr) (w64 : Bool) (d a : Reg) : Statement (.clz h w64 d a) := by
  intro hn hw f w1 hf
  simp only [encodeFields, encAlu, encAluC, encAluN, encMem, encPlain, Option.some.injEq, Prod.mk.injEq] at hf
  obtain ⟨rfl, rfl⟩ := hf
  simp_all [Instr.native, Instr.wellFormed, parse, parseAlu, parseMem, parseCtl, aluMod_bi', aluMod_ty, aluMod_rnd,
    aluMod_opx, memMod_size, memMod_sgn', memMod_scope, memMod_ord, memMod_opx, Reg.ofCode_code, SrcB.parse_alu,
    bit0_4, bit0_3, bit1_3]

theorem brev (h : Hdr) (w64 : Bool) (d a : Reg) : Statement (.brev h w64 d a) := by
  intro hn hw f w1 hf
  simp only [encodeFields, encAlu, encAluC, encAluN, encMem, encPlain, Option.some.injEq, Prod.mk.injEq] at hf
  obtain ⟨rfl, rfl⟩ := hf
  simp_all [Instr.native, Instr.wellFormed, parse, parseAlu, parseMem, parseCtl, aluMod_bi', aluMod_ty, aluMod_rnd,
    aluMod_opx, memMod_size, memMod_sgn', memMod_scope, memMod_ord, memMod_opx, Reg.ofCode_code, SrcB.parse_alu,
    bit0_4, bit0_3, bit1_3]

theorem pswz (h : Hdr) (d a : Reg) (b : SrcB) (c : Reg) : Statement (.pswz h d a b c) := by
  intro hn hw f w1 hf
  simp only [encodeFields, encAlu, encAluC, encAluN, encMem, encPlain, Option.some.injEq, Prod.mk.injEq] at hf
  obtain ⟨rfl, rfl⟩ := hf
  simp only [Instr.native, Instr.wellFormed, Bool.and_eq_true] at hn hw
  have hp := fun c => SrcB.parse_noImm b c _ hn.1.2 hw
  simp_all [Instr.native, Instr.wellFormed, parse, parseAlu, parseMem, parseCtl, aluMod_bi', aluMod_ty, aluMod_rnd,
    aluMod_opx, memMod_size, memMod_sgn', memMod_scope, memMod_ord, memMod_opx, Reg.ofCode_code, SrcB.parse_alu,
    hp, bit0_4, bit0_3, bit1_3]

theorem lea (h : Hdr) (ty : IntTy) (d a : Reg) (b : SrcB) (sh : BitVec 6) : Statement (.lea h ty d a b sh) := by
  intro hn hw f w1 hf
  simp only [encodeFields, encAlu, encAluC, encAluN, encMem, encPlain, Option.some.injEq, Prod.mk.injEq] at hf
  obtain ⟨rfl, rfl⟩ := hf
  simp only [Instr.native, Instr.wellFormed, Bool.and_eq_true] at hn hw
  have hp := fun c => SrcB.parse_noImm b c _ hn.2 hw
  simp_all [Instr.native, Instr.wellFormed, parse, parseAlu, parseMem, parseCtl, aluMod_bi', aluMod_ty, aluMod_rnd,
    aluMod_opx, memMod_size, memMod_sgn', memMod_scope, memMod_ord, memMod_opx, Reg.ofCode_code, SrcB.parse_alu,
    hp, low6_8]

theorem sel (h : Hdr) (w64 : Bool) (d a : Reg) (b : SrcB) (pc : BitVec 8) : Statement (.sel h w64 d a b pc) := by
  intro hn hw f w1 hf
  simp only [encodeFields, encAlu, encAluC, encAluN, encMem, encPlain, Option.some.injEq, Prod.mk.injEq] at hf
  obtain ⟨rfl, rfl⟩ := hf
  simp only [Instr.native, Instr.wellFormed, Bool.and_eq_true] at hn hw
  have hp := fun c => SrcB.parse_noImm b c _ hn.2 hw
  simp_all [Instr.native, Instr.wellFormed, parse, parseAlu, parseMem, parseCtl, aluMod_bi', aluMod_ty, aluMod_rnd,
    aluMod_opx, memMod_size, memMod_sgn', memMod_scope, memMod_ord, memMod_opx, Reg.ofCode_code, SrcB.parse_alu,
    hp, bit0_4, bit0_3, bit1_3]

theorem mov (h : Hdr) (w64 : Bool) (d a : Reg) : Statement (.mov h w64 d a) := by
  intro hn hw f w1 hf
  simp only [encodeFields, encAlu, encAluC, encAluN, encMem, encPlain, Option.some.injEq, Prod.mk.injEq] at hf
  obtain ⟨rfl, rfl⟩ := hf
  simp_all [Instr.native, Instr.wellFormed, parse, parseAlu, parseMem, parseCtl, aluMod_bi', aluMod_ty, aluMod_rnd,
    aluMod_opx, memMod_size, memMod_sgn', memMod_scope, memMod_ord, memMod_opx, Reg.ofCode_code, SrcB.parse_alu,
    bit0_4, bit0_3, bit1_3]

theorem movX (h : Hdr) (d : Reg) (n : BitVec 8) : Statement (.movX h d n) := by
  intro hn hw f w1 hf
  simp only [encodeFields, encAlu, encAluC, encAluN, encMem, encPlain, Option.some.injEq, Prod.mk.injEq] at hf
  obtain ⟨rfl, rfl⟩ := hf
  simp_all [Instr.native, Instr.wellFormed, parse, parseAlu, parseMem, parseCtl, aluMod_bi', aluMod_ty, aluMod_rnd,
    aluMod_opx, memMod_size, memMod_sgn', memMod_scope, memMod_ord, memMod_opx, Reg.ofCode_code, SrcB.parse_alu,
    bit0_4, bit0_3, bit1_3]

theorem moviShort (h : Hdr) (ty : IntTy) (d : Reg) (v : BitVec 8) : Statement (.moviShort h ty d v) := by
  intro hn hw f w1 hf
  simp only [encodeFields, encAlu, encAluC, encAluN, encMem, encPlain, Option.some.injEq, Prod.mk.injEq] at hf
  obtain ⟨rfl, rfl⟩ := hf
  simp_all [Instr.native, Instr.wellFormed, parse, parseAlu, parseMem, parseCtl, aluMod_bi', aluMod_ty, aluMod_rnd,
    aluMod_opx, memMod_size, memMod_sgn', memMod_scope, memMod_ord, memMod_opx, Reg.ofCode_code, SrcB.parse_alu,
    SrcB.bi, SrcB.sc]

theorem moviLong (h : Hdr) (ty : IntTy) (d : Reg) (v : Dword) : Statement (.moviLong h ty d v) := by
  intro hn hw f w1 hf
  simp only [encodeFields, encAlu, encAluC, encAluN, encMem, encPlain, Option.some.injEq, Prod.mk.injEq] at hf
  obtain ⟨rfl, rfl⟩ := hf
  simp_all [Instr.native, Instr.wellFormed, parse, parseAlu, parseMem, parseCtl, aluMod_bi', aluMod_ty, aluMod_rnd,
    aluMod_opx, memMod_size, memMod_sgn', memMod_scope, memMod_ord, memMod_opx, Reg.ofCode_code, SrcB.parse_alu,
    SrcB.bi, SrcB.w1]

theorem fadd (h : Hdr) (ty : FTy) (rnd : Rnd) (nb : Bool) (d a : Reg) (b : SrcB) : Statement (.fadd h ty rnd nb d a b) := by
  intro hn hw f w1 hf
  simp only [encodeFields, encAlu, encAluC, encAluN, encMem, encPlain, Option.some.injEq, Prod.mk.injEq] at hf
  obtain ⟨rfl, rfl⟩ := hf
  simp_all [Instr.native, Instr.wellFormed, parse, parseAlu, parseMem, parseCtl, aluMod_bi', aluMod_ty, aluMod_rnd,
    aluMod_opx, memMod_size, memMod_sgn', memMod_scope, memMod_ord, memMod_opx, Reg.ofCode_code, SrcB.parse_alu,
    bit0_4, bit0_3, bit1_3]

theorem fmul (h : Hdr) (ty : FTy) (rnd : Rnd) (nb : Bool) (d a : Reg) (b : SrcB) : Statement (.fmul h ty rnd nb d a b) := by
  intro hn hw f w1 hf
  simp only [encodeFields, encAlu, encAluC, encAluN, encMem, encPlain, Option.some.injEq, Prod.mk.injEq] at hf
  obtain ⟨rfl, rfl⟩ := hf
  simp_all [Instr.native, Instr.wellFormed, parse, parseAlu, parseMem, parseCtl, aluMod_bi', aluMod_ty, aluMod_rnd,
    aluMod_opx, memMod_size, memMod_sgn', memMod_scope, memMod_ord, memMod_opx, Reg.ofCode_code, SrcB.parse_alu,
    bit0_4, bit0_3, bit1_3]

theorem ffma (h : Hdr) (ty : FTy) (rnd : Rnd) (nb nc : Bool) (d a : Reg) (b : SrcB) (c : Reg) : Statement (.ffma h ty rnd nb nc d a b c) := by
  intro hn hw f w1 hf
  simp only [encodeFields, encAlu, encAluC, encAluN, encMem, encPlain, Option.some.injEq, Prod.mk.injEq] at hf
  obtain ⟨rfl, rfl⟩ := hf
  simp only [Instr.native, Instr.wellFormed, Bool.and_eq_true] at hn hw
  have hp := fun c => SrcB.parse_noImm b c _ hn.1.2 hw
  simp_all [Instr.native, Instr.wellFormed, parse, parseAlu, parseMem, parseCtl, aluMod_bi', aluMod_ty, aluMod_rnd,
    aluMod_opx, memMod_size, memMod_sgn', memMod_scope, memMod_ord, memMod_opx, Reg.ofCode_code, SrcB.parse_alu,
    hp, bit0_4, bit0_3, bit1_3]

theorem fmin (h : Hdr) (ty : FTy) (d a : Reg) (b : SrcB) : Statement (.fmin h ty d a b) := by
  intro hn hw f w1 hf
  simp only [encodeFields, encAlu, encAluC, encAluN, encMem, encPlain, Option.some.injEq, Prod.mk.injEq] at hf
  obtain ⟨rfl, rfl⟩ := hf
  simp_all [Instr.native, Instr.wellFormed, parse, parseAlu, parseMem, parseCtl, aluMod_bi', aluMod_ty, aluMod_rnd,
    aluMod_opx, memMod_size, memMod_sgn', memMod_scope, memMod_ord, memMod_opx, Reg.ofCode_code, SrcB.parse_alu,
    bit0_4, bit0_3, bit1_3]

theorem fmax (h : Hdr) (ty : FTy) (d a : Reg) (b : SrcB) : Statement (.fmax h ty d a b) := by
  intro hn hw f w1 hf
  simp only [encodeFields, encAlu, encAluC, encAluN, encMem, encPlain, Option.some.injEq, Prod.mk.injEq] at hf
  obtain ⟨rfl, rfl⟩ := hf
  simp_all [Instr.native, Instr.wellFormed, parse, parseAlu, parseMem, parseCtl, aluMod_bi', aluMod_ty, aluMod_rnd,
    aluMod_opx, memMod_size, memMod_sgn', memMod_scope, memMod_ord, memMod_opx, Reg.ofCode_code, SrcB.parse_alu,
    bit0_4, bit0_3, bit1_3]

theorem fsetp (h : Hdr) (ty : FTy) (cmp : FCmp) (d : BitVec 8) (a : Reg) (b : SrcB) : Statement (.fsetp h ty cmp d a b) := by
  intro hn hw f w1 hf
  simp only [encodeFields, encAlu, encAluC, encAluN, encMem, encPlain, Option.some.injEq, Prod.mk.injEq] at hf
  obtain ⟨rfl, rfl⟩ := hf
  simp_all [Instr.native, Instr.wellFormed, parse, parseAlu, parseMem, parseCtl, aluMod_bi', aluMod_ty, aluMod_rnd,
    aluMod_opx, memMod_size, memMod_sgn', memMod_scope, memMod_ord, memMod_opx, Reg.ofCode_code, SrcB.parse_alu,
    bit0_4, bit0_3, bit1_3]

theorem frnd (h : Hdr) (ty : FTy) (rnd : Rnd) (d a : Reg) : Statement (.frnd h ty rnd d a) := by
  intro hn hw f w1 hf
  simp only [encodeFields, encAlu, encAluC, encAluN, encMem, encPlain, Option.some.injEq, Prod.mk.injEq] at hf
  obtain ⟨rfl, rfl⟩ := hf
  simp_all [Instr.native, Instr.wellFormed, parse, parseAlu, parseMem, parseCtl, aluMod_bi', aluMod_ty, aluMod_rnd,
    aluMod_opx, memMod_size, memMod_sgn', memMod_scope, memMod_ord, memMod_opx, Reg.ofCode_code, SrcB.parse_alu,
    bit0_4, bit0_3, bit1_3]

theorem fclass (h : Hdr) (ty : NumTy) (d a : Reg) : Statement (.fclass h ty d a) := by
  intro hn hw f w1 hf
  simp only [encodeFields, encAlu, encAluC, encAluN, encMem, encPlain, Option.some.injEq, Prod.mk.injEq] at hf
  obtain ⟨rfl, rfl⟩ := hf
  simp_all [Instr.native, Instr.wellFormed, parse, parseAlu, parseMem, parseCtl, aluMod_bi', aluMod_ty, aluMod_rnd,
    aluMod_opx, memMod_size, memMod_sgn', memMod_scope, memMod_ord, memMod_opx, Reg.ofCode_code, SrcB.parse_alu,
    bit0_4, bit0_3, bit1_3]

theorem padd (h : Hdr) (bf : Bool) (rnd : Rnd) (nb : Bool) (el : PackEl) (d a : Reg) (b : SrcB) : Statement (.padd h bf rnd nb el d a b) := by
  intro hn hw f w1 hf
  simp only [encodeFields, encAlu, encAluC, encAluN, encMem, encPlain, Option.some.injEq, Prod.mk.injEq] at hf
  obtain ⟨rfl, rfl⟩ := hf
  simp_all [Instr.native, Instr.wellFormed, parse, parseAlu, parseMem, parseCtl, aluMod_bi', aluMod_ty, aluMod_rnd,
    aluMod_opx, memMod_size, memMod_sgn', memMod_scope, memMod_ord, memMod_opx, Reg.ofCode_code, SrcB.parse_alu,
    packOpx0_bit0, packOpx0_el]

theorem pmul (h : Hdr) (bf : Bool) (rnd : Rnd) (nb : Bool) (el : PackEl) (d a : Reg) (b : SrcB) : Statement (.pmul h bf rnd nb el d a b) := by
  intro hn hw f w1 hf
  simp only [encodeFields, encAlu, encAluC, encAluN, encMem, encPlain, Option.some.injEq, Prod.mk.injEq] at hf
  obtain ⟨rfl, rfl⟩ := hf
  simp_all [Instr.native, Instr.wellFormed, parse, parseAlu, parseMem, parseCtl, aluMod_bi', aluMod_ty, aluMod_rnd,
    aluMod_opx, memMod_size, memMod_sgn', memMod_scope, memMod_ord, memMod_opx, Reg.ofCode_code, SrcB.parse_alu,
    packOpx0_bit0, packOpx0_el]

theorem pfma (h : Hdr) (bf : Bool) (rnd : Rnd) (nb nc : Bool) (el : PackEl) (d a : Reg) (b : SrcB) (c : Reg) : Statement (.pfma h bf rnd nb nc el d a b c) := by
  intro hn hw f w1 hf
  simp only [encodeFields, encAlu, encAluC, encAluN, encMem, encPlain, Option.some.injEq, Prod.mk.injEq] at hf
  obtain ⟨rfl, rfl⟩ := hf
  simp only [Instr.native, Instr.wellFormed, Bool.and_eq_true] at hn hw
  have hp := fun c => SrcB.parse_noImm b c _ hn.1.2 hw
  simp_all [Instr.native, Instr.wellFormed, parse, parseAlu, parseMem, parseCtl, aluMod_bi', aluMod_ty, aluMod_rnd,
    aluMod_opx, memMod_size, memMod_sgn', memMod_scope, memMod_ord, memMod_opx, Reg.ofCode_code, SrcB.parse_alu,
    hp, packOpx_bit0, packOpx_bit1, packOpx_el]

theorem pminmax (h : Hdr) (bf isMax : Bool) (el : PackEl) (d a : Reg) (b : SrcB) : Statement (.pminmax h bf isMax el d a b) := by
  intro hn hw f w1 hf
  simp only [encodeFields, encAlu, encAluC, encAluN, encMem, encPlain, Option.some.injEq, Prod.mk.injEq] at hf
  obtain ⟨rfl, rfl⟩ := hf
  simp_all [Instr.native, Instr.wellFormed, parse, parseAlu, parseMem, parseCtl, aluMod_bi', aluMod_ty, aluMod_rnd,
    aluMod_opx, memMod_size, memMod_sgn', memMod_scope, memMod_ord, memMod_opx, Reg.ofCode_code, SrcB.parse_alu,
    packOpx0_bit0, packOpx0_el]

theorem sfn (h : Hdr) (fn : SfnFn) (ty : FTy) (d a : Reg) : Statement (.sfn h fn ty d a) := by
  intro hn hw f w1 hf
  simp only [encodeFields, encAlu, encAluC, encAluN, encMem, encPlain, Option.some.injEq, Prod.mk.injEq] at hf
  obtain ⟨rfl, rfl⟩ := hf
  simp_all [Instr.native, Instr.wellFormed, parse, parseAlu, parseMem, parseCtl, aluMod_bi', aluMod_ty, aluMod_rnd,
    aluMod_opx, memMod_size, memMod_sgn', memMod_scope, memMod_ord, memMod_opx, Reg.ofCode_code, SrcB.parse_alu,
    bit0_4, bit0_3, bit1_3]

theorem cvt (h : Hdr) (dt st : NumTy) (rnd : Rnd) (sat : Bool) (d a : Reg) (x : Option Reg) : Statement (.cvt h dt st rnd sat d a x) := by
  cases x
  · intro hn hw f w1 hf
    simp only [encodeFields, encAlu, encAluC, encAluN, encMem, encPlain, Option.some.injEq, Prod.mk.injEq] at hf
    obtain ⟨rfl, rfl⟩ := hf
    simp_all [Instr.native, Instr.wellFormed, parse, parseAlu, parseMem, parseCtl, aluMod_bi', aluMod_ty, aluMod_rnd,
      aluMod_opx, memMod_size, memMod_sgn', memMod_scope, memMod_ord, memMod_opx, Reg.ofCode_code, SrcB.parse_alu,
      cvtOpx_ty, cvtOpx_sat]
  · intro hn hw f w1 hf
    simp only [encodeFields, encAlu, encAluC, encAluN, encMem, encPlain, Option.some.injEq, Prod.mk.injEq] at hf
    obtain ⟨rfl, rfl⟩ := hf
    simp_all [Instr.native, Instr.wellFormed, parse, parseAlu, parseMem, parseCtl, aluMod_bi', aluMod_ty, aluMod_rnd,
      aluMod_opx, memMod_size, memMod_sgn', memMod_scope, memMod_ord, memMod_opx, Reg.ofCode_code, SrcB.parse_alu,
      cvtOpx_ty, cvtOpx_sat]

theorem qnt (h : Hdr) (ty : QTy) (rnd : Rnd) (d a : Reg) (texp : BitVec 8) : Statement (.qnt h ty rnd d a texp) := by
  intro hn hw f w1 hf
  simp only [encodeFields, encAlu, encAluC, encAluN, encMem, encPlain, Option.some.injEq, Prod.mk.injEq] at hf
  obtain ⟨rfl, rfl⟩ := hf
  simp_all [Instr.native, Instr.wellFormed, parse, parseAlu, parseMem, parseCtl, aluMod_bi', aluMod_ty, aluMod_rnd,
    aluMod_opx, memMod_size, memMod_sgn', memMod_scope, memMod_ord, memMod_opx, Reg.ofCode_code, SrcB.parse_alu,
    bit0_4, bit0_3, bit1_3]

theorem lmul (h : Hdr) (d a b : Reg) : Statement (.lmul h d a b) := by
  intro hn hw f w1 hf
  simp only [encodeFields, encAlu, encAluC, encAluN, encMem, encPlain, Option.some.injEq, Prod.mk.injEq] at hf
  obtain ⟨rfl, rfl⟩ := hf
  simp_all [Instr.native, Instr.wellFormed, parse, parseAlu, parseMem, parseCtl, aluMod_bi', aluMod_ty, aluMod_rnd,
    aluMod_opx, memMod_size, memMod_sgn', memMod_scope, memMod_ord, memMod_opx, Reg.ofCode_code, SrcB.parse_alu,
    bit0_4, bit0_3, bit1_3]

theorem ladd (h : Hdr) (rnd : Rnd) (nb : Bool) (d a b : Reg) : Statement (.ladd h rnd nb d a b) := by
  intro hn hw f w1 hf
  simp only [encodeFields, encAlu, encAluC, encAluN, encMem, encPlain, Option.some.injEq, Prod.mk.injEq] at hf
  obtain ⟨rfl, rfl⟩ := hf
  simp_all [Instr.native, Instr.wellFormed, parse, parseAlu, parseMem, parseCtl, aluMod_bi', aluMod_ty, aluMod_rnd,
    aluMod_opx, memMod_size, memMod_sgn', memMod_scope, memMod_ord, memMod_opx, Reg.ofCode_code, SrcB.parse_alu,
    bit0_4, bit0_3, bit1_3]

theorem shfl (h : Hdr) (mode : ShflMode) (w64 : Bool) (d a b m : Reg) : Statement (.shfl h mode w64 d a b m) := by
  intro hn hw f w1 hf
  simp only [encodeFields, encAlu, encAluC, encAluN, encMem, encPlain, Option.some.injEq, Prod.mk.injEq] at hf
  obtain ⟨rfl, rfl⟩ := hf
  simp_all [Instr.native, Instr.wellFormed, parse, parseAlu, parseMem, parseCtl, aluMod_bi', aluMod_ty, aluMod_rnd,
    aluMod_opx, memMod_size, memMod_sgn', memMod_scope, memMod_ord, memMod_opx, Reg.ofCode_code, SrcB.parse_alu,
    bit0_4, bit0_3, bit1_3]

theorem vote (h : Hdr) (form : VoteForm) (a : BitVec 8) (m : Reg) : Statement (.vote h form a m) := by
  cases form
  · intro hn hw f w1 hf
    simp only [encodeFields, encAlu, encAluC, encAluN, encMem, encPlain, Option.some.injEq, Prod.mk.injEq] at hf
    obtain ⟨rfl, rfl⟩ := hf
    simp_all [Instr.native, Instr.wellFormed, parse, parseAlu, parseMem, parseCtl, aluMod_bi', aluMod_ty, aluMod_rnd,
      aluMod_opx, memMod_size, memMod_sgn', memMod_scope, memMod_ord, memMod_opx, Reg.ofCode_code, SrcB.parse_alu,
      bit0_4, bit0_3, bit1_3]
  · intro hn hw f w1 hf
    simp only [encodeFields, encAlu, encAluC, encAluN, encMem, encPlain, Option.some.injEq, Prod.mk.injEq] at hf
    obtain ⟨rfl, rfl⟩ := hf
    simp_all [Instr.native, Instr.wellFormed, parse, parseAlu, parseMem, parseCtl, aluMod_bi', aluMod_ty, aluMod_rnd,
      aluMod_opx, memMod_size, memMod_sgn', memMod_scope, memMod_ord, memMod_opx, Reg.ofCode_code, SrcB.parse_alu,
      bit0_4, bit0_3, bit1_3]
  · intro hn hw f w1 hf
    simp only [encodeFields, encAlu, encAluC, encAluN, encMem, encPlain, Option.some.injEq, Prod.mk.injEq] at hf
    obtain ⟨rfl, rfl⟩ := hf
    simp_all [Instr.native, Instr.wellFormed, parse, parseAlu, parseMem, parseCtl, aluMod_bi', aluMod_ty, aluMod_rnd,
      aluMod_opx, memMod_size, memMod_sgn', memMod_scope, memMod_ord, memMod_opx, Reg.ofCode_code, SrcB.parse_alu,
      bit0_4, bit0_3, bit1_3]
  · intro hn hw f w1 hf
    simp only [encodeFields, encAlu, encAluC, encAluN, encMem, encPlain, Option.some.injEq, Prod.mk.injEq] at hf
    obtain ⟨rfl, rfl⟩ := hf
    simp_all [Instr.native, Instr.wellFormed, parse, parseAlu, parseMem, parseCtl, aluMod_bi', aluMod_ty, aluMod_rnd,
      aluMod_opx, memMod_size, memMod_sgn', memMod_scope, memMod_ord, memMod_opx, Reg.ofCode_code, SrcB.parse_alu,
      bit0_4, bit0_3, bit1_3]

theorem redw (h : Hdr) (ty : RedwTy) (op : RedwOp) (sat : Bool) (rnd : Rnd) (d a b m : Reg) : Statement (.redw h ty op sat rnd d a b m) := by
  intro hn hw f w1 hf
  simp only [encodeFields, encAlu, encAluC, encAluN, encMem, encPlain, Option.some.injEq, Prod.mk.injEq] at hf
  obtain ⟨rfl, rfl⟩ := hf
  simp_all [Instr.native, Instr.wellFormed, parse, parseAlu, parseMem, parseCtl, aluMod_bi', aluMod_ty, aluMod_rnd,
    aluMod_opx, memMod_size, memMod_sgn', memMod_scope, memMod_ord, memMod_opx, Reg.ofCode_code, SrcB.parse_alu,
    redwOpx_op, redwOpx_sat]

theorem matchOp (h : Hdr) (w64 same : Bool) (d a m : Reg) : Statement (.matchOp h w64 same d a m) := by
  intro hn hw f w1 hf
  simp only [encodeFields, encAlu, encAluC, encAluN, encMem, encPlain, Option.some.injEq, Prod.mk.injEq] at hf
  obtain ⟨rfl, rfl⟩ := hf
  simp_all [Instr.native, Instr.wellFormed, parse, parseAlu, parseMem, parseCtl, aluMod_bi', aluMod_ty, aluMod_rnd,
    aluMod_opx, memMod_size, memMod_sgn', memMod_scope, memMod_ord, memMod_opx, Reg.ofCode_code, SrcB.parse_alu,
    bit0_4, bit0_3, bit1_3]

theorem elane (h : Hdr) (form : ElaneForm) (m : Reg) : Statement (.elane h form m) := by
  cases form
  · intro hn hw f w1 hf
    simp only [encodeFields, encAlu, encAluC, encAluN, encMem, encPlain, Option.some.injEq, Prod.mk.injEq] at hf
    obtain ⟨rfl, rfl⟩ := hf
    simp_all [Instr.native, Instr.wellFormed, parse, parseAlu, parseMem, parseCtl, aluMod_bi', aluMod_ty, aluMod_rnd,
      aluMod_opx, memMod_size, memMod_sgn', memMod_scope, memMod_ord, memMod_opx, Reg.ofCode_code, SrcB.parse_alu,
      bit0_4, bit0_3, bit1_3]
  · intro hn hw f w1 hf
    simp only [encodeFields, encAlu, encAluC, encAluN, encMem, encPlain, Option.some.injEq, Prod.mk.injEq] at hf
    obtain ⟨rfl, rfl⟩ := hf
    simp_all [Instr.native, Instr.wellFormed, parse, parseAlu, parseMem, parseCtl, aluMod_bi', aluMod_ty, aluMod_rnd,
      aluMod_opx, memMod_size, memMod_sgn', memMod_scope, memMod_ord, memMod_opx, Reg.ofCode_code, SrcB.parse_alu,
      bit0_4, bit0_3, bit1_3]

theorem plop3 (h : Hdr) (d a b : BitVec 8) (c : BitVec 5) (lut : BitVec 8) : Statement (.plop3 h d a b c lut) := by
  intro hn hw f w1 hf
  simp only [encodeFields, encAlu, encAluC, encAluN, encMem, encPlain, Option.some.injEq, Prod.mk.injEq] at hf
  obtain ⟨rfl, rfl⟩ := hf
  simp_all [Instr.native, Instr.wellFormed, parse, parseAlu, parseMem, parseCtl, aluMod_bi', aluMod_ty, aluMod_rnd,
    aluMod_opx, memMod_size, memMod_sgn', memMod_scope, memMod_ord, memMod_opx, Reg.ofCode_code, SrcB.parse_alu,
    bit0_4, bit0_3, bit1_3]

theorem pmovP2r (h : Hdr) (d : Reg) : Statement (.pmovP2r h d) := by
  intro hn hw f w1 hf
  simp only [encodeFields, encAlu, encAluC, encAluN, encMem, encPlain, Option.some.injEq, Prod.mk.injEq] at hf
  obtain ⟨rfl, rfl⟩ := hf
  simp_all [Instr.native, Instr.wellFormed, parse, parseAlu, parseMem, parseCtl, aluMod_bi', aluMod_ty, aluMod_rnd,
    aluMod_opx, memMod_size, memMod_sgn', memMod_scope, memMod_ord, memMod_opx, Reg.ofCode_code, SrcB.parse_alu,
    bit0_4, bit0_3, bit1_3]

theorem pmovR2p (h : Hdr) (a b : Reg) : Statement (.pmovR2p h a b) := by
  intro hn hw f w1 hf
  simp only [encodeFields, encAlu, encAluC, encAluN, encMem, encPlain, Option.some.injEq, Prod.mk.injEq] at hf
  obtain ⟨rfl, rfl⟩ := hf
  simp_all [Instr.native, Instr.wellFormed, parse, parseAlu, parseMem, parseCtl, aluMod_bi', aluMod_ty, aluMod_rnd,
    aluMod_opx, memMod_size, memMod_sgn', memMod_scope, memMod_ord, memMod_opx, Reg.ofCode_code, SrcB.parse_alu,
    bit0_4, bit0_3, bit1_3]

theorem ld (h : Hdr) (sz : MSize) (sgn : Bool) (acq : Option Scope) (d a : Reg) (off : MemOff) (resid : BitVec 8) : Statement (.ld h sz sgn acq d a off resid) := by
  intro hn hw f w1 hf
  simp only [encodeFields, encAlu, encAluC, encAluN, encMem, encPlain, Option.some.injEq, Prod.mk.injEq] at hf
  obtain ⟨rfl, rfl⟩ := hf
  simp_all [Instr.native, Instr.wellFormed, parse, parseAlu, parseMem, parseCtl, aluMod_bi', aluMod_ty, aluMod_rnd,
    aluMod_opx, memMod_size, memMod_sgn', memMod_scope, memMod_ord, memMod_opx, Reg.ofCode_code, SrcB.parse_alu,
    bit0_4, bit0_3, bit1_3]

theorem ldt (h : Hdr) (ty : TTy) (rnd : Rnd) (hi : Bool) (acq : Option Scope) (d a : Reg) (off : MemOff) (resid : BitVec 8) : Statement (.ldt h ty rnd hi acq d a off resid) := by
  intro hn hw f w1 hf
  simp only [encodeFields, encAlu, encAluC, encAluN, encMem, encPlain, Option.some.injEq, Prod.mk.injEq] at hf
  obtain ⟨rfl, rfl⟩ := hf
  simp_all [Instr.native, Instr.wellFormed, parse, parseAlu, parseMem, parseCtl, aluMod_bi', aluMod_ty, aluMod_rnd,
    aluMod_opx, memMod_size, memMod_sgn', memMod_scope, memMod_ord, memMod_opx, Reg.ofCode_code, SrcB.parse_alu,
    tOpx_rnd, tOpx_hi]

theorem ldl (h : Hdr) (sz : MSize) (sgn : Bool) (acq : Option Scope) (d a : Reg) (off : MemOff) : Statement (.ldl h sz sgn acq d a off) := by
  intro hn hw f w1 hf
  simp only [encodeFields, encAlu, encAluC, encAluN, encMem, encPlain, Option.some.injEq, Prod.mk.injEq] at hf
  obtain ⟨rfl, rfl⟩ := hf
  simp_all [Instr.native, Instr.wellFormed, parse, parseAlu, parseMem, parseCtl, aluMod_bi', aluMod_ty, aluMod_rnd,
    aluMod_opx, memMod_size, memMod_sgn', memMod_scope, memMod_ord, memMod_opx, Reg.ofCode_code, SrcB.parse_alu,
    bit0_4, bit0_3, bit1_3]

theorem st (h : Hdr) (sz : MSize) (rel : Option Scope) (a : Reg) (off : MemOff) (b : Reg) : Statement (.st h sz rel a off b) := by
  intro hn hw f w1 hf
  simp only [encodeFields, encAlu, encAluC, encAluN, encMem, encPlain, Option.some.injEq, Prod.mk.injEq] at hf
  obtain ⟨rfl, rfl⟩ := hf
  simp_all [Instr.native, Instr.wellFormed, parse, parseAlu, parseMem, parseCtl, aluMod_bi', aluMod_ty, aluMod_rnd,
    aluMod_opx, memMod_size, memMod_sgn', memMod_scope, memMod_ord, memMod_opx, Reg.ofCode_code, SrcB.parse_alu,
    bit0_4, bit0_3, bit1_3]

theorem stl (h : Hdr) (sz : MSize) (rel : Option Scope) (a : Reg) (off : MemOff) (b : Reg) : Statement (.stl h sz rel a off b) := by
  intro hn hw f w1 hf
  simp only [encodeFields, encAlu, encAluC, encAluN, encMem, encPlain, Option.some.injEq, Prod.mk.injEq] at hf
  obtain ⟨rfl, rfl⟩ := hf
  simp_all [Instr.native, Instr.wellFormed, parse, parseAlu, parseMem, parseCtl, aluMod_bi', aluMod_ty, aluMod_rnd,
    aluMod_opx, memMod_size, memMod_sgn', memMod_scope, memMod_ord, memMod_opx, Reg.ofCode_code, SrcB.parse_alu,
    bit0_4, bit0_3, bit1_3]

theorem stt (h : Hdr) (ty : TTy) (rnd : Rnd) (hi : Bool) (rel : Option Scope) (a : Reg) (off : MemOff) (b : Reg) : Statement (.stt h ty rnd hi rel a off b) := by
  intro hn hw f w1 hf
  simp only [encodeFields, encAlu, encAluC, encAluN, encMem, encPlain, Option.some.injEq, Prod.mk.injEq] at hf
  obtain ⟨rfl, rfl⟩ := hf
  simp_all [Instr.native, Instr.wellFormed, parse, parseAlu, parseMem, parseCtl, aluMod_bi', aluMod_ty, aluMod_rnd,
    aluMod_opx, memMod_size, memMod_sgn', memMod_scope, memMod_ord, memMod_opx, Reg.ofCode_code, SrcB.parse_alu,
    tOpx_rnd, tOpx_hi]

theorem atom (h : Hdr) (w64 sgn : Bool) (op : AtomOp) (ord : AtomOrd) (scope : Scope) (d a : Reg) (off : MemOff) (b : Reg) : Statement (.atom h w64 sgn op ord scope d a off b) := by
  intro hn hw f w1 hf
  simp only [encodeFields, encAlu, encAluC, encAluN, encMem, encPlain, Option.some.injEq, Prod.mk.injEq] at hf
  obtain ⟨rfl, rfl⟩ := hf
  simp_all [Instr.native, Instr.wellFormed, parse, parseAlu, parseMem, parseCtl, aluMod_bi', aluMod_ty, aluMod_rnd,
    aluMod_opx, memMod_size, memMod_sgn', memMod_scope, memMod_ord, memMod_opx, Reg.ofCode_code, SrcB.parse_alu,
    bit0_4, bit0_3, bit1_3]

theorem red (h : Hdr) (w64 sgn : Bool) (op : AtomOp) (rel : Option Scope) (a : Reg) (off : MemOff) (b : Reg) : Statement (.red h w64 sgn op rel a off b) := by
  intro hn hw f w1 hf
  simp only [encodeFields, encAlu, encAluC, encAluN, encMem, encPlain, Option.some.injEq, Prod.mk.injEq] at hf
  obtain ⟨rfl, rfl⟩ := hf
  simp_all [Instr.native, Instr.wellFormed, parse, parseAlu, parseMem, parseCtl, aluMod_bi', aluMod_ty, aluMod_rnd,
    aluMod_opx, memMod_size, memMod_sgn', memMod_scope, memMod_ord, memMod_opx, Reg.ofCode_code, SrcB.parse_alu,
    bit0_4, bit0_3, bit1_3]

theorem pref (h : Hdr) (l1 : Bool) (a : Reg) (off : MemOff) : Statement (.pref h l1 a off) := by
  intro hn hw f w1 hf
  simp only [encodeFields, encAlu, encAluC, encAluN, encMem, encPlain, Option.some.injEq, Prod.mk.injEq] at hf
  obtain ⟨rfl, rfl⟩ := hf
  simp_all [Instr.native, Instr.wellFormed, parse, parseAlu, parseMem, parseCtl, aluMod_bi', aluMod_ty, aluMod_rnd,
    aluMod_opx, memMod_size, memMod_sgn', memMod_scope, memMod_ord, memMod_opx, Reg.ofCode_code, SrcB.parse_alu,
    bit0_w3]

theorem pgreq (h : Hdr) (a : Reg) (off : BitVec 8) : Statement (.pgreq h a off) := by
  intro hn hw f w1 hf
  simp only [encodeFields, encAlu, encAluC, encAluN, encMem, encPlain, Option.some.injEq, Prod.mk.injEq] at hf
  obtain ⟨rfl, rfl⟩ := hf
  simp_all [Instr.native, Instr.wellFormed, parse, parseAlu, parseMem, parseCtl, aluMod_bi', aluMod_ty, aluMod_rnd,
    aluMod_opx, memMod_size, memMod_sgn', memMod_scope, memMod_ord, memMod_opx, Reg.ofCode_code, SrcB.parse_alu,
    bit0_4, bit0_3, bit1_3]

theorem smap (h : Hdr) (m : BitVec 3) (a b : Reg) : Statement (.smap h m a b) := by
  intro hn hw f w1 hf
  simp only [encodeFields, encAlu, encAluC, encAluN, encMem, encPlain, Option.some.injEq, Prod.mk.injEq] at hf
  obtain ⟨rfl, rfl⟩ := hf
  simp_all [Instr.native, Instr.wellFormed, parse, parseAlu, parseMem, parseCtl, aluMod_bi', aluMod_ty, aluMod_rnd,
    aluMod_opx, memMod_size, memMod_sgn', memMod_scope, memMod_ord, memMod_opx, Reg.ofCode_code, SrcB.parse_alu,
    low3_8]

theorem sflush (h : Hdr) (a b : Reg) : Statement (.sflush h a b) := by
  intro hn hw f w1 hf
  simp only [encodeFields, encAlu, encAluC, encAluN, encMem, encPlain, Option.some.injEq, Prod.mk.injEq] at hf
  obtain ⟨rfl, rfl⟩ := hf
  simp_all [Instr.native, Instr.wellFormed, parse, parseAlu, parseMem, parseCtl, aluMod_bi', aluMod_ty, aluMod_rnd,
    aluMod_opx, memMod_size, memMod_sgn', memMod_scope, memMod_ord, memMod_opx, Reg.ofCode_code, SrcB.parse_alu,
    bit0_4, bit0_3, bit1_3]

theorem sinv (h : Hdr) (a b : Reg) : Statement (.sinv h a b) := by
  intro hn hw f w1 hf
  simp only [encodeFields, encAlu, encAluC, encAluN, encMem, encPlain, Option.some.injEq, Prod.mk.injEq] at hf
  obtain ⟨rfl, rfl⟩ := hf
  simp_all [Instr.native, Instr.wellFormed, parse, parseAlu, parseMem, parseCtl, aluMod_bi', aluMod_ty, aluMod_rnd,
    aluMod_opx, memMod_size, memMod_sgn', memMod_scope, memMod_ord, memMod_opx, Reg.ofCode_code, SrcB.parse_alu,
    bit0_4, bit0_3, bit1_3]

theorem cflush (h : Hdr) (scope : Scope) (a b : Reg) : Statement (.cflush h scope a b) := by
  intro hn hw f w1 hf
  simp only [encodeFields, encAlu, encAluC, encAluN, encMem, encPlain, Option.some.injEq, Prod.mk.injEq] at hf
  obtain ⟨rfl, rfl⟩ := hf
  simp_all [Instr.native, Instr.wellFormed, parse, parseAlu, parseMem, parseCtl, aluMod_bi', aluMod_ty, aluMod_rnd,
    aluMod_opx, memMod_size, memMod_sgn', memMod_scope, memMod_ord, memMod_opx, Reg.ofCode_code, SrcB.parse_alu,
    bit0_4, bit0_3, bit1_3]

theorem acpy (h : Hdr) (a : Reg) : Statement (.acpy h a) := by
  intro hn hw f w1 hf
  simp only [encodeFields, encAlu, encAluC, encAluN, encMem, encPlain, Option.some.injEq, Prod.mk.injEq] at hf
  obtain ⟨rfl, rfl⟩ := hf
  simp_all [Instr.native, Instr.wellFormed, parse, parseAlu, parseMem, parseCtl, aluMod_bi', aluMod_ty, aluMod_rnd,
    aluMod_opx, memMod_size, memMod_sgn', memMod_scope, memMod_ord, memMod_opx, Reg.ofCode_code, SrcB.parse_alu,
    bit0_4, bit0_3, bit1_3]

theorem acpyt (h : Hdr) (a : Reg) : Statement (.acpyt h a) := by
  intro hn hw f w1 hf
  simp only [encodeFields, encAlu, encAluC, encAluN, encMem, encPlain, Option.some.injEq, Prod.mk.injEq] at hf
  obtain ⟨rfl, rfl⟩ := hf
  simp_all [Instr.native, Instr.wellFormed, parse, parseAlu, parseMem, parseCtl, aluMod_bi', aluMod_ty, aluMod_rnd,
    aluMod_opx, memMod_size, memMod_sgn', memMod_scope, memMod_ord, memMod_opx, Reg.ofCode_code, SrcB.parse_alu,
    bit0_4, bit0_3, bit1_3]

theorem tagld (h : Hdr) (d a : Reg) (off : MemOff) : Statement (.tagld h d a off) := by
  intro hn hw f w1 hf
  simp only [encodeFields, encAlu, encAluC, encAluN, encMem, encPlain, Option.some.injEq, Prod.mk.injEq] at hf
  obtain ⟨rfl, rfl⟩ := hf
  simp_all [Instr.native, Instr.wellFormed, parse, parseAlu, parseMem, parseCtl, aluMod_bi', aluMod_ty, aluMod_rnd,
    aluMod_opx, memMod_size, memMod_sgn', memMod_scope, memMod_ord, memMod_opx, Reg.ofCode_code, SrcB.parse_alu,
    bit0_4, bit0_3, bit1_3]

theorem tagst (h : Hdr) (a : Reg) (off : MemOff) (b : Reg) : Statement (.tagst h a off b) := by
  intro hn hw f w1 hf
  simp only [encodeFields, encAlu, encAluC, encAluN, encMem, encPlain, Option.some.injEq, Prod.mk.injEq] at hf
  obtain ⟨rfl, rfl⟩ := hf
  simp_all [Instr.native, Instr.wellFormed, parse, parseAlu, parseMem, parseCtl, aluMod_bi', aluMod_ty, aluMod_rnd,
    aluMod_opx, memMod_size, memMod_sgn', memMod_scope, memMod_ord, memMod_opx, Reg.ofCode_code, SrcB.parse_alu,
    bit0_4, bit0_3, bit1_3]

theorem waitc (h : Hdr) (cls : CtrClass) (n : BitVec 5) : Statement (.waitc h cls n) := by
  intro hn hw f w1 hf
  simp only [encodeFields, encAlu, encAluC, encAluN, encMem, encPlain, Option.some.injEq, Prod.mk.injEq] at hf
  obtain ⟨rfl, rfl⟩ := hf
  simp_all [Instr.native, Instr.wellFormed, parse, parseAlu, parseMem, parseCtl, aluMod_bi', aluMod_ty, aluMod_rnd,
    aluMod_opx, memMod_size, memMod_sgn', memMod_scope, memMod_ord, memMod_opx, Reg.ofCode_code, SrcB.parse_alu,
    low5_8, low2_12]

theorem fence (h : Hdr) (scope : Scope) : Statement (.fence h scope) := by
  intro hn hw f w1 hf
  simp only [encodeFields, encAlu, encAluC, encAluN, encMem, encPlain, Option.some.injEq, Prod.mk.injEq] at hf
  obtain ⟨rfl, rfl⟩ := hf
  simp_all [Instr.native, Instr.wellFormed, parse, parseAlu, parseMem, parseCtl, aluMod_bi', aluMod_ty, aluMod_rnd,
    aluMod_opx, memMod_size, memMod_sgn', memMod_scope, memMod_ord, memMod_opx, Reg.ofCode_code, SrcB.parse_alu,
    low3_12]

theorem bar (h : Hdr) (scope : Scope) (arv : Bool) (b : BitVec 8) (m : Reg) : Statement (.bar h scope arv b m) := by
  intro hn hw f w1 hf
  simp only [encodeFields, encAlu, encAluC, encAluN, encMem, encPlain, Option.some.injEq, Prod.mk.injEq] at hf
  obtain ⟨rfl, rfl⟩ := hf
  simp_all [Instr.native, Instr.wellFormed, parse, parseAlu, parseMem, parseCtl, aluMod_bi', aluMod_ty, aluMod_rnd,
    aluMod_opx, memMod_size, memMod_sgn', memMod_scope, memMod_ord, memMod_opx, Reg.ofCode_code, SrcB.parse_alu,
    barMod_grp, barMod_arv, barMod_scope]

theorem barGrp (h : Hdr) (scope : Scope) (arv : Bool) (g : BitVec 8) : Statement (.barGrp h scope arv g) := by
  intro hn hw f w1 hf
  simp only [encodeFields, encAlu, encAluC, encAluN, encMem, encPlain, Option.some.injEq, Prod.mk.injEq] at hf
  obtain ⟨rfl, rfl⟩ := hf
  simp_all [Instr.native, Instr.wellFormed, parse, parseAlu, parseMem, parseCtl, aluMod_bi', aluMod_ty, aluMod_rnd,
    aluMod_opx, memMod_size, memMod_sgn', memMod_scope, memMod_ord, memMod_opx, Reg.ofCode_code, SrcB.parse_alu,
    barMod_grp, barMod_arv, barMod_scope]

theorem await (h : Hdr) (loc w64 : Bool) (cmp : AwaitCmp) (scope : Scope) (d a b : Reg) : Statement (.await h loc w64 cmp scope d a b) := by
  intro hn hw f w1 hf
  simp only [encodeFields, encAlu, encAluC, encAluN, encMem, encPlain, Option.some.injEq, Prod.mk.injEq] at hf
  obtain ⟨rfl, rfl⟩ := hf
  simp_all [Instr.native, Instr.wellFormed, parse, parseAlu, parseMem, parseCtl, aluMod_bi', aluMod_ty, aluMod_rnd,
    aluMod_opx, memMod_size, memMod_sgn', memMod_scope, memMod_ord, memMod_opx, Reg.ofCode_code, SrcB.parse_alu,
    awaitMod_loc, awaitMod_w64, awaitMod_cmp, awaitMod_scope]

theorem awaitReread (tid : Nat) : Statement (.awaitReread tid) := by
  intro _ _ f w1 h
  cases h

theorem yieldOp (h : Hdr) : Statement (.yieldOp h) := by
  intro hn hw f w1 hf
  simp only [encodeFields, encAlu, encAluC, encAluN, encMem, encPlain, Option.some.injEq, Prod.mk.injEq] at hf
  obtain ⟨rfl, rfl⟩ := hf
  simp_all [Instr.native, Instr.wellFormed, parse, parseAlu, parseMem, parseCtl, aluMod_bi', aluMod_ty, aluMod_rnd,
    aluMod_opx, memMod_size, memMod_sgn', memMod_scope, memMod_ord, memMod_opx, Reg.ofCode_code, SrcB.parse_alu,
    bit0_4, bit0_3, bit1_3]

theorem backoffImm (h : Hdr) (n : BitVec 12) : Statement (.backoffImm h n) := by
  intro hn hw f w1 hf
  simp only [encodeFields, encAlu, encAluC, encAluN, encMem, encPlain, Option.some.injEq, Prod.mk.injEq] at hf
  obtain ⟨rfl, rfl⟩ := hf
  simp_all [Instr.native, Instr.wellFormed, parse, parseAlu, parseMem, parseCtl, aluMod_bi', aluMod_ty, aluMod_rnd,
    aluMod_opx, memMod_size, memMod_sgn', memMod_scope, memMod_ord, memMod_opx, Reg.ofCode_code, SrcB.parse_alu,
    bit0_4, bit0_3, bit1_3]

theorem backoffReg (h : Hdr) (a : Reg) : Statement (.backoffReg h a) := by
  intro hn hw f w1 hf
  simp only [encodeFields, encAlu, encAluC, encAluN, encMem, encPlain, Option.some.injEq, Prod.mk.injEq] at hf
  obtain ⟨rfl, rfl⟩ := hf
  simp_all [Instr.native, Instr.wellFormed, parse, parseAlu, parseMem, parseCtl, aluMod_bi', aluMod_ty, aluMod_rnd,
    aluMod_opx, memMod_size, memMod_sgn', memMod_scope, memMod_ord, memMod_opx, Reg.ofCode_code, SrcB.parse_alu,
    Reg.code_ne]

theorem backoffExpiry (tid : Nat) : Statement (.backoffExpiry tid) := by
  intro _ _ f w1 h
  cases h

theorem rpost (h : Hdr) (ring : BitVec 3) (a : Reg) : Statement (.rpost h ring a) := by
  intro hn hw f w1 hf
  simp only [encodeFields, encAlu, encAluC, encAluN, encMem, encPlain, Option.some.injEq, Prod.mk.injEq] at hf
  obtain ⟨rfl, rfl⟩ := hf
  simp_all [Instr.native, Instr.wellFormed, parse, parseAlu, parseMem, parseCtl, aluMod_bi', aluMod_ty, aluMod_rnd,
    aluMod_opx, memMod_size, memMod_sgn', memMod_scope, memMod_ord, memMod_opx, Reg.ofCode_code, SrcB.parse_alu,
    low3_8]

theorem rtake (h : Hdr) (ring : BitVec 3) (d : Reg) : Statement (.rtake h ring d) := by
  intro hn hw f w1 hf
  simp only [encodeFields, encAlu, encAluC, encAluN, encMem, encPlain, Option.some.injEq, Prod.mk.injEq] at hf
  obtain ⟨rfl, rfl⟩ := hf
  simp_all [Instr.native, Instr.wellFormed, parse, parseAlu, parseMem, parseCtl, aluMod_bi', aluMod_ty, aluMod_rnd,
    aluMod_opx, memMod_size, memMod_sgn', memMod_scope, memMod_ord, memMod_opx, Reg.ofCode_code, SrcB.parse_alu,
    low3_8]

theorem mmap (h : Hdr) (d : BitVec 8) (a m : Reg) : Statement (.mmap h d a m) := by
  intro hn hw f w1 hf
  simp only [encodeFields, encAlu, encAluC, encAluN, encMem, encPlain, Option.some.injEq, Prod.mk.injEq] at hf
  obtain ⟨rfl, rfl⟩ := hf
  simp_all [Instr.native, Instr.wellFormed, parse, parseAlu, parseMem, parseCtl, aluMod_bi', aluMod_ty, aluMod_rnd,
    aluMod_opx, memMod_size, memMod_sgn', memMod_scope, memMod_ord, memMod_opx, Reg.ofCode_code, SrcB.parse_alu,
    bit0_4, bit0_3, bit1_3]

theorem mmal (h : Hdr) (d : BitVec 8) (a m : Reg) : Statement (.mmal h d a m) := by
  intro hn hw f w1 hf
  simp only [encodeFields, encAlu, encAluC, encAluN, encMem, encPlain, Option.some.injEq, Prod.mk.injEq] at hf
  obtain ⟨rfl, rfl⟩ := hf
  simp_all [Instr.native, Instr.wellFormed, parse, parseAlu, parseMem, parseCtl, aluMod_bi', aluMod_ty, aluMod_rnd,
    aluMod_opx, memMod_size, memMod_sgn', memMod_scope, memMod_ord, memMod_opx, Reg.ofCode_code, SrcB.parse_alu,
    bit0_4, bit0_3, bit1_3]

theorem accz (h : Hdr) (n : BitVec 6) (d : BitVec 8) (m : Reg) : Statement (.accz h n d m) := by
  intro hn hw f w1 hf
  simp only [encodeFields, encAlu, encAluC, encAluN, encMem, encPlain, Option.some.injEq, Prod.mk.injEq] at hf
  obtain ⟨rfl, rfl⟩ := hf
  simp_all [Instr.native, Instr.wellFormed, parse, parseAlu, parseMem, parseCtl, aluMod_bi', aluMod_ty, aluMod_rnd,
    aluMod_opx, memMod_size, memMod_sgn', memMod_scope, memMod_ord, memMod_opx, Reg.ofCode_code, SrcB.parse_alu,
    low6_12]

theorem accld (h : Hdr) (d : BitVec 8) (a m : Reg) : Statement (.accld h d a m) := by
  intro hn hw f w1 hf
  simp only [encodeFields, encAlu, encAluC, encAluN, encMem, encPlain, Option.some.injEq, Prod.mk.injEq] at hf
  obtain ⟨rfl, rfl⟩ := hf
  simp_all [Instr.native, Instr.wellFormed, parse, parseAlu, parseMem, parseCtl, aluMod_bi', aluMod_ty, aluMod_rnd,
    aluMod_opx, memMod_size, memMod_sgn', memMod_scope, memMod_ord, memMod_opx, Reg.ofCode_code, SrcB.parse_alu,
    bit0_4, bit0_3, bit1_3]

theorem accst (h : Hdr) (d : BitVec 8) (a m : Reg) : Statement (.accst h d a m) := by
  intro hn hw f w1 hf
  simp only [encodeFields, encAlu, encAluC, encAluN, encMem, encPlain, Option.some.injEq, Prod.mk.injEq] at hf
  obtain ⟨rfl, rfl⟩ := hf
  simp_all [Instr.native, Instr.wellFormed, parse, parseAlu, parseMem, parseCtl, aluMod_bi', aluMod_ty, aluMod_rnd,
    aluMod_opx, memMod_size, memMod_sgn', memMod_scope, memMod_ord, memMod_opx, Reg.ofCode_code, SrcB.parse_alu,
    bit0_4, bit0_3, bit1_3]

theorem matrixRetire (coh : Nat) : Statement (.matrixRetire coh) := by
  intro _ _ f w1 h
  cases h

theorem braRel (h : Hdr) (off : BitVec 24) : Statement (.braRel h off) := by
  intro hn hw f w1 hf
  simp only [encodeFields, encAlu, encAluC, encAluN, encMem, encPlain, Option.some.injEq, Prod.mk.injEq] at hf
  obtain ⟨rfl, rfl⟩ := hf
  simp_all [Instr.native, Instr.wellFormed, parse, parseAlu, parseMem, parseCtl, aluMod_bi', aluMod_ty, aluMod_rnd,
    aluMod_opx, memMod_size, memMod_sgn', memMod_scope, memMod_ord, memMod_opx, Reg.ofCode_code, SrcB.parse_alu,
    branchOff]

theorem braLong (h : Hdr) (t : VAddr) : Statement (.braLong h t) := by
  intro hn hw f w1 hf
  simp only [encodeFields, encAlu, encAluC, encAluN, encMem, encPlain, Option.some.injEq, Prod.mk.injEq] at hf
  obtain ⟨rfl, rfl⟩ := hf
  simp_all [Instr.native, Instr.wellFormed, parse, parseAlu, parseMem, parseCtl, aluMod_bi', aluMod_ty, aluMod_rnd,
    aluMod_opx, memMod_size, memMod_sgn', memMod_scope, memMod_ord, memMod_opx, Reg.ofCode_code, SrcB.parse_alu,
    bit0_4, bit0_3, bit1_3]

theorem brx (h : Hdr) (a : Reg) : Statement (.brx h a) := by
  intro hn hw f w1 hf
  simp only [encodeFields, encAlu, encAluC, encAluN, encMem, encPlain, Option.some.injEq, Prod.mk.injEq] at hf
  obtain ⟨rfl, rfl⟩ := hf
  simp_all [Instr.native, Instr.wellFormed, parse, parseAlu, parseMem, parseCtl, aluMod_bi', aluMod_ty, aluMod_rnd,
    aluMod_opx, memMod_size, memMod_sgn', memMod_scope, memMod_ord, memMod_opx, Reg.ofCode_code, SrcB.parse_alu,
    bit0_4, bit0_3, bit1_3]

theorem callRel (h : Hdr) (off : BitVec 24) : Statement (.callRel h off) := by
  intro hn hw f w1 hf
  simp only [encodeFields, encAlu, encAluC, encAluN, encMem, encPlain, Option.some.injEq, Prod.mk.injEq] at hf
  obtain ⟨rfl, rfl⟩ := hf
  simp_all [Instr.native, Instr.wellFormed, parse, parseAlu, parseMem, parseCtl, aluMod_bi', aluMod_ty, aluMod_rnd,
    aluMod_opx, memMod_size, memMod_sgn', memMod_scope, memMod_ord, memMod_opx, Reg.ofCode_code, SrcB.parse_alu,
    branchOff]

theorem callLong (h : Hdr) (t : VAddr) : Statement (.callLong h t) := by
  intro hn hw f w1 hf
  simp only [encodeFields, encAlu, encAluC, encAluN, encMem, encPlain, Option.some.injEq, Prod.mk.injEq] at hf
  obtain ⟨rfl, rfl⟩ := hf
  simp_all [Instr.native, Instr.wellFormed, parse, parseAlu, parseMem, parseCtl, aluMod_bi', aluMod_ty, aluMod_rnd,
    aluMod_opx, memMod_size, memMod_sgn', memMod_scope, memMod_ord, memMod_opx, Reg.ofCode_code, SrcB.parse_alu,
    bit0_4, bit0_3, bit1_3]

theorem callx (h : Hdr) (cls : BitVec 8) (a : Reg) : Statement (.callx h cls a) := by
  intro hn hw f w1 hf
  simp only [encodeFields, encAlu, encAluC, encAluN, encMem, encPlain, Option.some.injEq, Prod.mk.injEq] at hf
  obtain ⟨rfl, rfl⟩ := hf
  simp_all [Instr.native, Instr.wellFormed, parse, parseAlu, parseMem, parseCtl, aluMod_bi', aluMod_ty, aluMod_rnd,
    aluMod_opx, memMod_size, memMod_sgn', memMod_scope, memMod_ord, memMod_opx, Reg.ofCode_code, SrcB.parse_alu,
    low8_12]

theorem ret (h : Hdr) : Statement (.ret h) := by
  intro hn hw f w1 hf
  simp only [encodeFields, encAlu, encAluC, encAluN, encMem, encPlain, Option.some.injEq, Prod.mk.injEq] at hf
  obtain ⟨rfl, rfl⟩ := hf
  simp_all [Instr.native, Instr.wellFormed, parse, parseAlu, parseMem, parseCtl, aluMod_bi', aluMod_ty, aluMod_rnd,
    aluMod_opx, memMod_size, memMod_sgn', memMod_scope, memMod_ord, memMod_opx, Reg.ofCode_code, SrcB.parse_alu,
    bit0_4, bit0_3, bit1_3]

theorem exit (h : Hdr) : Statement (.exit h) := by
  intro hn hw f w1 hf
  simp only [encodeFields, encAlu, encAluC, encAluN, encMem, encPlain, Option.some.injEq, Prod.mk.injEq] at hf
  obtain ⟨rfl, rfl⟩ := hf
  simp_all [Instr.native, Instr.wellFormed, parse, parseAlu, parseMem, parseCtl, aluMod_bi', aluMod_ty, aluMod_rnd,
    aluMod_opx, memMod_size, memMod_sgn', memMod_scope, memMod_ord, memMod_opx, Reg.ofCode_code, SrcB.parse_alu,
    bit0_4, bit0_3, bit1_3]

theorem threadEnd (tid : Nat) : Statement (.threadEnd tid) := by
  intro _ _ f w1 h
  cases h

theorem skip (h : Hdr) (n : BitVec 3) : Statement (.skip h n) := by
  intro hn hw f w1 hf
  simp only [encodeFields, encAlu, encAluC, encAluN, encMem, encPlain, Option.some.injEq, Prod.mk.injEq] at hf
  obtain ⟨rfl, rfl⟩ := hf
  simp_all [Instr.native, Instr.wellFormed, parse, parseAlu, parseMem, parseCtl, aluMod_bi', aluMod_ty, aluMod_rnd,
    aluMod_opx, memMod_size, memMod_sgn', memMod_scope, memMod_ord, memMod_opx, Reg.ofCode_code, SrcB.parse_alu,
    low3_12]

theorem nop (h : Hdr) : Statement (.nop h) := by
  intro hn hw f w1 hf
  simp only [encodeFields, encAlu, encAluC, encAluN, encMem, encPlain, Option.some.injEq, Prod.mk.injEq] at hf
  obtain ⟨rfl, rfl⟩ := hf
  simp_all [Instr.native, Instr.wellFormed, parse, parseAlu, parseMem, parseCtl, aluMod_bi', aluMod_ty, aluMod_rnd,
    aluMod_opx, memMod_size, memMod_sgn', memMod_scope, memMod_ord, memMod_opx, Reg.ofCode_code, SrcB.parse_alu,
    bit0_4, bit0_3, bit1_3]

theorem trap (h : Hdr) (n : BitVec 8) : Statement (.trap h n) := by
  intro hn hw f w1 hf
  simp only [encodeFields, encAlu, encAluC, encAluN, encMem, encPlain, Option.some.injEq, Prod.mk.injEq] at hf
  obtain ⟨rfl, rfl⟩ := hf
  simp_all [Instr.native, Instr.wellFormed, parse, parseAlu, parseMem, parseCtl, aluMod_bi', aluMod_ty, aluMod_rnd,
    aluMod_opx, memMod_size, memMod_sgn', memMod_scope, memMod_ord, memMod_opx, Reg.ofCode_code, SrcB.parse_alu,
    low8_12]

theorem bpt (h : Hdr) : Statement (.bpt h) := by
  intro hn hw f w1 hf
  simp only [encodeFields, encAlu, encAluC, encAluN, encMem, encPlain, Option.some.injEq, Prod.mk.injEq] at hf
  obtain ⟨rfl, rfl⟩ := hf
  simp_all [Instr.native, Instr.wellFormed, parse, parseAlu, parseMem, parseCtl, aluMod_bi', aluMod_ty, aluMod_rnd,
    aluMod_opx, memMod_size, memMod_sgn', memMod_scope, memMod_ord, memMod_opx, Reg.ofCode_code, SrcB.parse_alu,
    bit0_4, bit0_3, bit1_3]

theorem fetchw (h : Hdr) (a : Reg) : Statement (.fetchw h a) := by
  intro hn hw f w1 hf
  simp only [encodeFields, encAlu, encAluC, encAluN, encMem, encPlain, Option.some.injEq, Prod.mk.injEq] at hf
  obtain ⟨rfl, rfl⟩ := hf
  simp_all [Instr.native, Instr.wellFormed, parse, parseAlu, parseMem, parseCtl, aluMod_bi', aluMod_ty, aluMod_rnd,
    aluMod_opx, memMod_size, memMod_sgn', memMod_scope, memMod_ord, memMod_opx, Reg.ofCode_code, SrcB.parse_alu,
    bit0_4, bit0_3, bit1_3]

theorem binpush (h : Hdr) (sz : BitVec 4) (a b : Reg) : Statement (.binpush h sz a b) := by
  intro hn hw f w1 hf
  simp only [encodeFields, encAlu, encAluC, encAluN, encMem, encPlain, Option.some.injEq, Prod.mk.injEq] at hf
  obtain ⟨rfl, rfl⟩ := hf
  simp_all [Instr.native, Instr.wellFormed, parse, parseAlu, parseMem, parseCtl, aluMod_bi', aluMod_ty, aluMod_rnd,
    aluMod_opx, memMod_size, memMod_sgn', memMod_scope, memMod_ord, memMod_opx, Reg.ofCode_code, SrcB.parse_alu,
    low4_12]

theorem bindrain (h : Hdr) (close : Bool) (b : Reg) : Statement (.bindrain h close b) := by
  intro hn hw f w1 hf
  simp only [encodeFields, encAlu, encAluC, encAluN, encMem, encPlain, Option.some.injEq, Prod.mk.injEq] at hf
  obtain ⟨rfl, rfl⟩ := hf
  simp_all [Instr.native, Instr.wellFormed, parse, parseAlu, parseMem, parseCtl, aluMod_bi', aluMod_ty, aluMod_rnd,
    aluMod_opx, memMod_size, memMod_sgn', memMod_scope, memMod_ord, memMod_opx, Reg.ofCode_code, SrcB.parse_alu,
    bit0_w12]

theorem launch (h : Hdr) (d a b : Reg) : Statement (.launch h d a b) := by
  intro hn hw f w1 hf
  simp only [encodeFields, encAlu, encAluC, encAluN, encMem, encPlain, Option.some.injEq, Prod.mk.injEq] at hf
  obtain ⟨rfl, rfl⟩ := hf
  simp_all [Instr.native, Instr.wellFormed, parse, parseAlu, parseMem, parseCtl, aluMod_bi', aluMod_ty, aluMod_rnd,
    aluMod_opx, memMod_size, memMod_sgn', memMod_scope, memMod_ord, memMod_opx, Reg.ofCode_code, SrcB.parse_alu,
    bit0_4, bit0_3, bit1_3]

theorem rdsys (h : Hdr) (lo : Bool) (srn : BitVec 12) (d : Reg) : Statement (.rdsys h lo srn d) := by
  intro hn hw f w1 hf
  simp only [encodeFields, encAlu, encAluC, encAluN, encMem, encPlain, Option.some.injEq, Prod.mk.injEq] at hf
  obtain ⟨rfl, rfl⟩ := hf
  simp_all [Instr.native, Instr.wellFormed, parse, parseAlu, parseMem, parseCtl, aluMod_bi', aluMod_ty, aluMod_rnd,
    aluMod_opx, memMod_size, memMod_sgn', memMod_scope, memMod_ord, memMod_opx, Reg.ofCode_code, SrcB.parse_alu,
    sysMod_lo, sysMod_hi, srnField]

theorem wrsys (h : Hdr) (lo : Bool) (srn : BitVec 12) (a : Reg) : Statement (.wrsys h lo srn a) := by
  intro hn hw f w1 hf
  simp only [encodeFields, encAlu, encAluC, encAluN, encMem, encPlain, Option.some.injEq, Prod.mk.injEq] at hf
  obtain ⟨rfl, rfl⟩ := hf
  simp_all [Instr.native, Instr.wellFormed, parse, parseAlu, parseMem, parseCtl, aluMod_bi', aluMod_ty, aluMod_rnd,
    aluMod_opx, memMod_size, memMod_sgn', memMod_scope, memMod_ord, memMod_opx, Reg.ofCode_code, SrcB.parse_alu,
    sysMod_lo, sysMod_hi, srnField]

theorem setctl (h : Hdr) (ring : BitVec 3) (a : Reg) : Statement (.setctl h ring a) := by
  intro hn hw f w1 hf
  simp only [encodeFields, encAlu, encAluC, encAluN, encMem, encPlain, Option.some.injEq, Prod.mk.injEq] at hf
  obtain ⟨rfl, rfl⟩ := hf
  simp_all [Instr.native, Instr.wellFormed, parse, parseAlu, parseMem, parseCtl, aluMod_bi', aluMod_ty, aluMod_rnd,
    aluMod_opx, memMod_size, memMod_sgn', memMod_scope, memMod_ord, memMod_opx, Reg.ofCode_code, SrcB.parse_alu,
    low3_8]

theorem rand (h : Hdr) (d : Reg) (k : BitVec 8) (stream : BitVec 8) : Statement (.rand h d k stream) := by
  intro hn hw f w1 hf
  simp only [encodeFields, encAlu, encAluC, encAluN, encMem, encPlain, Option.some.injEq, Prod.mk.injEq] at hf
  obtain ⟨rfl, rfl⟩ := hf
  simp_all [Instr.native, Instr.wellFormed, parse, parseAlu, parseMem, parseCtl, aluMod_bi', aluMod_ty, aluMod_rnd,
    aluMod_opx, memMod_size, memMod_sgn', memMod_scope, memMod_ord, memMod_opx, Reg.ofCode_code, SrcB.parse_alu,
    bit0_4, bit0_3, bit1_3]

theorem feat (h : Hdr) (d : Reg) : Statement (.feat h d) := by
  intro hn hw f w1 hf
  simp only [encodeFields, encAlu, encAluC, encAluN, encMem, encPlain, Option.some.injEq, Prod.mk.injEq] at hf
  obtain ⟨rfl, rfl⟩ := hf
  simp_all [Instr.native, Instr.wellFormed, parse, parseAlu, parseMem, parseCtl, aluMod_bi', aluMod_ty, aluMod_rnd,
    aluMod_opx, memMod_size, memMod_sgn', memMod_scope, memMod_ord, memMod_opx, Reg.ofCode_code, SrcB.parse_alu,
    bit0_4, bit0_3, bit1_3]

theorem watch (h : Hdr) (n : BitVec 8) (a b : Reg) : Statement (.watch h n a b) := by
  intro hn hw f w1 hf
  simp only [encodeFields, encAlu, encAluC, encAluN, encMem, encPlain, Option.some.injEq, Prod.mk.injEq] at hf
  obtain ⟨rfl, rfl⟩ := hf
  simp_all [Instr.native, Instr.wellFormed, parse, parseAlu, parseMem, parseCtl, aluMod_bi', aluMod_ty, aluMod_rnd,
    aluMod_opx, memMod_size, memMod_sgn', memMod_scope, memMod_ord, memMod_opx, Reg.ofCode_code, SrcB.parse_alu,
    bit0_4, bit0_3, bit1_3]

theorem gret (h : Hdr) : Statement (.gret h) := by
  intro hn hw f w1 hf
  simp only [encodeFields, encAlu, encAluC, encAluN, encMem, encPlain, Option.some.injEq, Prod.mk.injEq] at hf
  obtain ⟨rfl, rfl⟩ := hf
  simp_all [Instr.native, Instr.wellFormed, parse, parseAlu, parseMem, parseCtl, aluMod_bi', aluMod_ty, aluMod_rnd,
    aluMod_opx, memMod_size, memMod_sgn', memMod_scope, memMod_ord, memMod_opx, Reg.ofCode_code, SrcB.parse_alu,
    bit0_4, bit0_3, bit1_3]

theorem tret (h : Hdr) : Statement (.tret h) := by
  intro hn hw f w1 hf
  simp only [encodeFields, encAlu, encAluC, encAluN, encMem, encPlain, Option.some.injEq, Prod.mk.injEq] at hf
  obtain ⟨rfl, rfl⟩ := hf
  simp_all [Instr.native, Instr.wellFormed, parse, parseAlu, parseMem, parseCtl, aluMod_bi', aluMod_ty, aluMod_rnd,
    aluMod_opx, memMod_size, memMod_sgn', memMod_scope, memMod_ord, memMod_opx, Reg.ofCode_code, SrcB.parse_alu,
    bit0_4, bit0_3, bit1_3]

theorem pdone (h : Hdr) : Statement (.pdone h) := by
  intro hn hw f w1 hf
  simp only [encodeFields, encAlu, encAluC, encAluN, encMem, encPlain, Option.some.injEq, Prod.mk.injEq] at hf
  obtain ⟨rfl, rfl⟩ := hf
  simp_all [Instr.native, Instr.wellFormed, parse, parseAlu, parseMem, parseCtl, aluMod_bi', aluMod_ty, aluMod_rnd,
    aluMod_opx, memMod_size, memMod_sgn', memMod_scope, memMod_ord, memMod_opx, Reg.ofCode_code, SrcB.parse_alu,
    bit0_4, bit0_3, bit1_3]

theorem xred (h : Hdr) (ty : XredTy) (op : XredOp) (mode : XredMode) (scope : Scope) (a b : Reg) (g : BitVec 8) : Statement (.xred h ty op mode scope a b g) := by
  intro hn hw f w1 hf
  simp only [encodeFields, encAlu, encAluC, encAluN, encMem, encPlain, Option.some.injEq, Prod.mk.injEq] at hf
  obtain ⟨rfl, rfl⟩ := hf
  simp_all [Instr.native, Instr.wellFormed, parse, parseAlu, parseMem, parseCtl, aluMod_bi', aluMod_ty, aluMod_rnd,
    aluMod_opx, memMod_size, memMod_sgn', memMod_scope, memMod_ord, memMod_opx, Reg.ofCode_code, SrcB.parse_alu,
    xredMod_scope, xredMod_op, xredMod_ty, xredMod_mode]

theorem xredResultWrite (launch g : Nat) : Statement (.xredResultWrite launch g) := by
  intro _ _ f w1 h
  cases h

theorem wmov (h : Hdr) (dir : WmovDir) (d a : Reg) : Statement (.wmov h dir d a) := by
  intro hn hw f w1 hf
  simp only [encodeFields, encAlu, encAluC, encAluN, encMem, encPlain, Option.some.injEq, Prod.mk.injEq] at hf
  obtain ⟨rfl, rfl⟩ := hf
  simp_all [Instr.native, Instr.wellFormed, parse, parseAlu, parseMem, parseCtl, aluMod_bi', aluMod_ty, aluMod_rnd,
    aluMod_opx, memMod_size, memMod_sgn', memMod_scope, memMod_ord, memMod_opx, Reg.ofCode_code, SrcB.parse_alu,
    low2_12]

theorem walu (h : Hdr) (op : WaluOp) (d a : BitVec 8) (b : WaluSrc) : Statement (.walu h op d a b) := by
  cases b
  · intro hn hw f w1 hf
    simp only [encodeFields, encAlu, encAluC, encAluN, encMem, encPlain, Option.some.injEq, Prod.mk.injEq] at hf
    obtain ⟨rfl, rfl⟩ := hf
    simp_all [Instr.native, Instr.wellFormed, parse, parseAlu, parseMem, parseCtl, aluMod_bi', aluMod_ty, aluMod_rnd,
      aluMod_opx, memMod_size, memMod_sgn', memMod_scope, memMod_ord, memMod_opx, Reg.ofCode_code, SrcB.parse_alu,
      low4_12, waluMod_op, waluMod_imm, waluMod_reg]
  · intro hn hw f w1 hf
    simp only [encodeFields, encAlu, encAluC, encAluN, encMem, encPlain, Option.some.injEq, Prod.mk.injEq] at hf
    obtain ⟨rfl, rfl⟩ := hf
    simp_all [Instr.native, Instr.wellFormed, parse, parseAlu, parseMem, parseCtl, aluMod_bi', aluMod_ty, aluMod_rnd,
      aluMod_opx, memMod_size, memMod_sgn', memMod_scope, memMod_ord, memMod_opx, Reg.ofCode_code, SrcB.parse_alu,
      low4_12, waluMod_op, waluMod_imm, waluMod_reg]

theorem bundleForm (core q : Nat) : Statement (.bundleForm core q) := by
  intro _ _ f w1 h
  cases h

theorem rotationTurn (core q : Nat) : Statement (.rotationTurn core q) := by
  intro _ _ f w1 h
  cases h

theorem guestFetchDecode (tid : Nat) : Statement (.guestFetchDecode tid) := by
  intro _ _ f w1 h
  cases h

theorem loadDataReturn (tid id : Nat) : Statement (.loadDataReturn tid id) := by
  intro _ _ f w1 h
  cases h

theorem copyLand (id : Nat) : Statement (.copyLand id) := by
  intro _ _ f w1 h
  cases h

theorem copyPark (id : Nat) : Statement (.copyPark id) := by
  intro _ _ f w1 h
  cases h

theorem copyFaultStop (id : Nat) : Statement (.copyFaultStop id) := by
  intro _ _ f w1 h
  cases h

theorem walkerEmission (core launch : Nat) : Statement (.walkerEmission core launch) := by
  intro _ _ f w1 h
  cases h

theorem persistentCohortCreate (launch core : Nat) : Statement (.persistentCohortCreate launch core) := by
  intro _ _ f w1 h
  cases h

theorem workRequest (core launch : Nat) : Statement (.workRequest core launch) := by
  intro _ _ f w1 h
  cases h

theorem split (sec slot core : Nat) : Statement (.split sec slot core) := by
  intro _ _ f w1 h
  cases h

theorem withdrawal (req : Nat) : Statement (.withdrawal req) := by
  intro _ _ f w1 h
  cases h

theorem makeRoom (launch core : Nat) : Statement (.makeRoom launch core) := by
  intro _ _ f w1 h
  cases h

theorem replayableDeschedule (coh : Nat) : Statement (.replayableDeschedule coh) := by
  intro _ _ f w1 h
  cases h

theorem readmission (coh core : Nat) : Statement (.readmission coh core) := by
  intro _ _ f w1 h
  cases h

theorem saveRequest (coh : Nat) : Statement (.saveRequest coh) := by
  intro _ _ f w1 h
  cases h

theorem preemptHandlerEntry (tid : Nat) : Statement (.preemptHandlerEntry tid) := by
  intro _ _ f w1 h
  cases h

theorem cohortSave (coh : Nat) : Statement (.cohortSave coh) := by
  intro _ _ f w1 h
  cases h

theorem forcedSave (coh : Nat) : Statement (.forcedSave coh) := by
  intro _ _ f w1 h
  cases h

theorem timeSliceExpiry (cid : Nat) : Statement (.timeSliceExpiry cid) := by
  intro _ _ f w1 h
  cases h

theorem contextRestore (cid : Nat) : Statement (.contextRestore cid) := by
  intro _ _ f w1 h
  cases h

theorem launchPreemption (launch : Nat) : Statement (.launchPreemption launch) := by
  intro _ _ f w1 h
  cases h

theorem queueDoorbell (fn sec qn : Nat) : Statement (.queueDoorbell fn sec qn) := by
  intro _ _ f w1 h
  cases h

theorem packetNop (queue : Nat) : Statement (.packetNop queue) := by
  intro _ _ f w1 h
  cases h

theorem packetLaunch (queue : Nat) : Statement (.packetLaunch queue) := by
  intro _ _ f w1 h
  cases h

theorem packetWait (queue : Nat) : Statement (.packetWait queue) := by
  intro _ _ f w1 h
  cases h

theorem packetSignal (queue : Nat) : Statement (.packetSignal queue) := by
  intro _ _ f w1 h
  cases h

theorem queueWaitResume (queue : Nat) : Statement (.queueWaitResume queue) := by
  intro _ _ f w1 h
  cases h

theorem deviceLaunchQueueTake (cid sec : Nat) : Statement (.deviceLaunchQueueTake cid sec) := by
  intro _ _ f w1 h
  cases h

theorem gangReservationTimeout : Statement (.gangReservationTimeout) := by
  intro _ _ f w1 h
  cases h

theorem gangCommit : Statement (.gangCommit) := by
  intro _ _ f w1 h
  cases h

theorem completionSignalWrite (launch : Nat) : Statement (.completionSignalWrite launch) := by
  intro _ _ f w1 h
  cases h

theorem binPushArrival (tid : Nat) : Statement (.binPushArrival tid) := by
  intro _ _ f w1 h
  cases h

theorem binDrainArrival (tid : Nat) : Statement (.binDrainArrival tid) := by
  intro _ _ f w1 h
  cases h

theorem binSpillAutoReplay (sec bin : Nat) : Statement (.binSpillAutoReplay sec bin) := by
  intro _ _ f w1 h
  cases h

theorem binAgeExpiry (sec bin : Nat) : Statement (.binAgeExpiry sec bin) := by
  intro _ _ f w1 h
  cases h

theorem binPriorityPromotion (sec bin : Nat) : Statement (.binPriorityPromotion sec bin) := by
  intro _ _ f w1 h
  cases h

theorem binFireSelect (sec core : Nat) : Statement (.binFireSelect sec core) := by
  intro _ _ f w1 h
  cases h

theorem binFireComplete (sec : Nat) : Statement (.binFireComplete sec) := by
  intro _ _ f w1 h
  cases h

theorem binArmingEnd (launch : Nat) : Statement (.binArmingEnd launch) := by
  intro _ _ f w1 h
  cases h

theorem tokenVisit (launch : Nat) : Statement (.tokenVisit launch) := by
  intro _ _ f w1 h
  cases h

theorem faultPost (cid : Nat) : Statement (.faultPost cid) := by
  intro _ _ f w1 h
  cases h

theorem uncorrectableError (site : ErrSite) : Statement (.uncorrectableError site) := by
  intro _ _ f w1 h
  cases h

theorem stashRecall (coh line : Nat) (write : Bool) : Statement (.stashRecall coh line write) := by
  intro _ _ f w1 h
  cases h

theorem stashEviction (coh line : Nat) : Statement (.stashEviction coh line) := by
  intro _ _ f w1 h
  cases h

theorem flitReceive (port : Nat) (crcOk : Bool) : Statement (.flitReceive port crcOk) := by
  intro _ _ f w1 h
  cases h

theorem linkDown (port : Nat) : Statement (.linkDown port) := by
  intro _ _ f w1 h
  cases h

theorem adminDoorbell (fn : Nat) : Statement (.adminDoorbell fn) := by
  intro _ _ f w1 h
  cases h

theorem admBaseWrite (fn : Nat) (v : Dword) : Statement (.admBaseWrite fn v) := by
  intro _ _ f w1 h
  cases h

theorem ctxCreate (fn compl desc : Nat) : Statement (.ctxCreate fn compl desc) := by
  intro _ _ f w1 h
  cases h

theorem ctxDestroy (fn compl cid : Nat) : Statement (.ctxDestroy fn compl cid) := by
  intro _ _ f w1 h
  cases h

theorem qBind (fn compl cid qcb sec : Nat) : Statement (.qBind fn compl cid qcb sec) := by
  intro _ _ f w1 h
  cases h

theorem qUnbind (fn compl sec qn : Nat) : Statement (.qUnbind fn compl sec qn) := by
  intro _ _ f w1 h
  cases h

theorem faultReplay (fn compl cid idx : Nat) : Statement (.faultReplay fn compl cid idx) := by
  intro _ _ f w1 h
  cases h

theorem faultAbort (fn compl cid idx : Nat) : Statement (.faultAbort fn compl cid idx) := by
  intro _ _ f w1 h
  cases h

theorem shootdown (fn compl cid va len : Nat) : Statement (.shootdown fn compl cid va len) := by
  intro _ _ f w1 h
  cases h

theorem frameAssign (fn compl cid frame n : Nat) : Statement (.frameAssign fn compl cid frame n) := by
  intro _ _ f w1 h
  cases h

theorem frameRelease (fn compl cid frame n : Nat) : Statement (.frameRelease fn compl cid frame n) := by
  intro _ _ f w1 h
  cases h

theorem watchSet (fn compl cid slot scope core : Nat) (addr ctl : Dword) : Statement (.watchSet fn compl cid slot scope core addr ctl) := by
  intro _ _ f w1 h
  cases h

theorem binAbort (fn compl sec bin : Nat) : Statement (.binAbort fn compl sec bin) := by
  intro _ _ f w1 h
  cases h

theorem migSave (fn compl cid : Nat) : Statement (.migSave fn compl cid) := by
  intro _ _ f w1 h
  cases h

theorem migRestore (fn compl image : Nat) : Statement (.migRestore fn compl image) := by
  intro _ _ f w1 h
  cases h

theorem partSet (fn compl cfg : Nat) : Statement (.partSet fn compl cfg) := by
  intro _ _ f w1 h
  cases h

theorem partReset (fn compl pid : Nat) : Statement (.partReset fn compl pid) := by
  intro _ _ f w1 h
  cases h

theorem gangAssign (fn compl gang : Nat) (fns : List Nat) (withdraw : Bool) : Statement (.gangAssign fn compl gang fns withdraw) := by
  intro _ _ f w1 h
  cases h

theorem partcfgCommit : Statement (.partcfgCommit) := by
  intro _ _ f w1 h
  cases h

theorem quiesceRequest (sec : Nat) : Statement (.quiesceRequest sec) := by
  intro _ _ f w1 h
  cases h

theorem quiesceRelease (sec : Nat) : Statement (.quiesceRelease sec) := by
  intro _ _ f w1 h
  cases h

theorem hubShootGo : Statement (.hubShootGo) := by
  intro _ _ f w1 h
  cases h

theorem registerWrite (r : DevReg) (v : Dword) : Statement (.registerWrite r v) := by
  intro _ _ f w1 h
  cases h

theorem moduleReset : Statement (.moduleReset) := by
  intro _ _ f w1 h
  cases h

theorem sectionsTrained : Statement (.sectionsTrained) := by
  intro _ _ f w1 h
  cases h

theorem trainingFailure (sec : Nat) : Statement (.trainingFailure sec) := by
  intro _ _ f w1 h
  cases h

theorem capUnmet (mw : Nat) : Statement (.capUnmet mw) := by
  intro _ _ f w1 h
  cases h

theorem heatFluxHigh (sec : Nat) : Statement (.heatFluxHigh sec) := by
  intro _ _ f w1 h
  cases h

theorem heatFluxLow (sec : Nat) : Statement (.heatFluxLow sec) := by
  intro _ _ f w1 h
  cases h

theorem tdiLeaveRun (fn : Nat) : Statement (.tdiLeaveRun fn) := by
  intro _ _ f w1 h
  cases h

theorem ideIntegrityFailure (fn : Nat) : Statement (.ideIntegrityFailure fn) := by
  intro _ _ f w1 h
  cases h

theorem pluginPmpBreach (fn : Nat) : Statement (.pluginPmpBreach fn) := by
  intro _ _ f w1 h
  cases h

theorem vfReset (fn : Nat) : Statement (.vfReset fn) := by
  intro _ _ f w1 h
  cases h

theorem getVersion : Statement (.getVersion) := by
  intro _ _ f w1 h
  cases h

theorem getCapabilities : Statement (.getCapabilities) := by
  intro _ _ f w1 h
  cases h

theorem negotiateAlgorithms : Statement (.negotiateAlgorithms) := by
  intro _ _ f w1 h
  cases h

theorem getDigests : Statement (.getDigests) := by
  intro _ _ f w1 h
  cases h

theorem getCertificate : Statement (.getCertificate) := by
  intro _ _ f w1 h
  cases h

theorem challenge : Statement (.challenge) := by
  intro _ _ f w1 h
  cases h

theorem getMeasurements : Statement (.getMeasurements) := by
  intro _ _ f w1 h
  cases h

theorem keyExchange : Statement (.keyExchange) := by
  intro _ _ f w1 h
  cases h

theorem finish : Statement (.finish) := by
  intro _ _ f w1 h
  cases h

theorem endSession : Statement (.endSession) := by
  intro _ _ f w1 h
  cases h

theorem stashWriteBackRetire (tid id : Nat) : Statement (.stashWriteBackRetire tid id) := by
  intro _ _ f w1 h
  cases h

theorem hostRequesterAccess (write : Bool) (pid addr : Nat) (data : List Byte) : Statement (.hostRequesterAccess write pid addr data) := by
  intro _ _ f w1 h
  cases h

theorem pcieConfiguration (numVfs : Nat) (part plugin : List Nat) : Statement (.pcieConfiguration numVfs part plugin) := by
  intro _ _ f w1 h
  cases h

theorem tdispRequest (fn : Nat) (target : TdiState) : Statement (.tdispRequest fn target) := by
  intro _ _ f w1 h
  cases h

theorem correctedError (stage : CheckStage) : Statement (.correctedError stage) := by
  intro _ _ f w1 h
  cases h

theorem firmwareUpdate (version : Nat) (signed : Bool) : Statement (.firmwareUpdate version signed) := by
  intro _ _ f w1 h
  cases h

theorem linkTrained (port : Nat) : Statement (.linkTrained port) := by
  intro _ _ f w1 h
  cases h

end Sys2Proof.Laws.F
end

