-- ==== Sys2Proof/Laws/Thread.lean ====
section
/-! SUPPORT. What the parts of the bodies of thread instructions come to: the scope ceiling, a change of the executing
thread, and the end of an op. -/

namespace Sys2Proof.Machine

/-- What the scope ceiling makes of an op (R255, R273). -/
theorem clampScope_eq (e : Env) (sc : Scope) (s : State) :
    clampScope e sc s = if e.clamps sc && e.ctx.con.scopeTrap then .error (opFault .scope) s
      else .ok (e.reach sc, e.clamps sc) s := by
  unfold clampScope Env.reach Env.clamps
  cases h : e.ctx.clamps sc
  · rfl
  · cases h2 : e.ctx.con.scopeTrap <;> rfl

/-- What the optional ceiling of an acquire or release makes of an op. -/
theorem clampOpt_eq (e : Env) (sc : Option Scope) (s : State) :
    clampOpt e sc s = if e.clampsOpt sc && e.ctx.con.scopeTrap then .error (opFault .scope) s
      else .ok (e.reachOpt sc, e.clampsOpt sc) s := by
  cases sc with
  | none => rfl
  | some sc =>
    unfold clampOpt Env.clampsOpt
    dsimp only
    show (EStateM.bind (clampScope e sc) fun r => pure (some r.1, r.2)) s = _
    unfold EStateM.bind
    rw [clampScope_eq]
    by_cases hc : (e.clamps sc && e.ctx.con.scopeTrap) = true
    · simp only [hc, if_true]
    · simp only [hc]
      rfl

/-- A body that runs to another after a step that ends well. -/
theorem bind_ok {α β : Type} {x : M α} {f : α → M β} {s s' : State} {a : α} (h : x s = .ok a s') :
    (x >>= f) s = f a s' := by
  show EStateM.bind x f s = _
  unfold EStateM.bind
  rw [h]

theorem bind_error {α β : Type} {x : M α} {f : α → M β} {s s' : State} {a : FaultInfo} (h : x s = .error a s') :
    (x >>= f) s = .error a s' := by
  show EStateM.bind x f s = _
  unfold EStateM.bind
  rw [h]

@[simp] theorem pure_ok {α : Type} (a : α) (s : State) : (pure a : M α) s = .ok a s := rfl

@[simp] theorem throw_error {α : Type} (f : FaultInfo) (s : State) : (throw f : M α) s = .error f s := rfl

@[simp] theorem get_ok (s : State) : (get : M State) s = .ok s s := rfl

@[simp] theorem set_ok (s t : State) : (set t : M PUnit) s = .ok ⟨⟩ t := rfl

@[simp] theorem modify_ok (f : State → State) (s : State) : (modify f : M PUnit) s = .ok ⟨⟩ (f s) := rfl

@[simp] theorem modTh_ok (e : Env) (f : Thread → Thread) (s : State) : modTh e f s = .ok () (s.modThread e.tid f) := rfl

theorem setClamp_ok (e : Env) (c : Bool) (s : State) :
    setClamp e c s = .ok () (if c then s.modThread e.tid fun t => t.orFlags flagClamp else s) := by
  cases c <;> rfl

/-- The end of an op that is done: its thread passes it. -/
theorem endOp_done (i : Instr) (s s' : State) (e : Env) :
    endOp i s e (.ok .done s') = s'.modThread e.tid fun t => t.pass e i true none := rfl

theorem endOp_goto (i : Instr) (s s' : State) (e : Env) (pc : VAddr) :
    endOp i s e (.ok (.goto pc) s') = s'.modThread e.tid fun t => t.pass e i true (some pc) := rfl

theorem endOp_stay (i : Instr) (s s' : State) (e : Env) : endOp i s e (.ok .stay s') = s' := rfl

theorem endOp_error (i : Instr) (s s' : State) (e : Env) (f : FaultInfo) :
    endOp i s e (.error f s') = (s.keepDraws s').takeFault e (Instr.isLong i) f := rfl

@[simp] theorem State.keepDraws_self (s : State) : s.keepDraws s = s := rfl

theorem amod_amod {α : Type} (m : Assoc α) (k : Nat) (f g : α → α) : amod (amod m k f) k g = amod m k fun x => g (f x) := by
  unfold amod
  rw [List.map_map]
  congr 1
  funext e
  by_cases h : e.1 = k <;> simp [h]

theorem State.modThread_modThread (s : State) (tid : Nat) (f g : Thread → Thread) :
    (s.modThread tid f).modThread tid g = s.modThread tid fun t => g (f t) := by
  unfold State.modThread
  simp [amod_amod]

end Sys2Proof.Machine
end

