-- ==== Sys2Proof/Tests/Slice0.lean ====
section
/-! SUPPORT. Tests: ill-formed terms, words of the reference, single steps, and for each statement of
Sys2Proof/Certificates/Slice0/Obligations.lean concrete states and operands that meet its hypotheses. -/

namespace Sys2Proof.Tests

open Sys2Proof.Machine

set_option Elab.async false

/-! ## Scenes: a module with one placed cohort, whose thread in lane 0 executes -/

/-- A header without a guard. -/
def hd : Hdr := { guard := 15, ginv := false, stall := 0, yld := false }

/-- The scene: NOP's word is in the code line of the placed thread. -/
def scene : State := { State.placed State.reset 64 0x07F83D87 with cur := some { tid := 2048, pers := 0 }, issue := [] }

/-- The scene with another thread in lane 0, cohort, warp, launch or context. -/
def sceneT (f : Thread → Thread) : State := { scene with threads := amod scene.threads 2048 f }
def sceneC (f : Cohort → Cohort) : State := { scene with cohorts := amod scene.cohorts 2 f }
def sceneM : State := { scene with warps := amod scene.warps 64 fun w => { w with role := 1 } }

/-- The thread of e can execute i. -/
def runs (e : Env) (i : Instr) : Bool :=
  decide (preCheck e i = none) && e.th.active (Instr.hdr i) && e.th.keep.isEmpty && e.th.lose.isEmpty && e.th.win.isEmpty

/-- A concrete state and an environment in which i executes, and in which x holds. -/
theorem executes {s : State} {i : Instr} {x : Env → Bool}
    (h : (match s.env with
      | some e => runs e i && x e
      | none => false) = true) : ∃ e, s.Executes e i ∧ x e = true := by
  cases h' : s.env with
  | none => simp [h'] at h
  | some e =>
    simp only [h', runs, Bool.and_eq_true, decide_eq_true_eq, List.isEmpty_iff] at h
    exact ⟨e, ⟨h', h.1.1.1.1.1, h.1.1.1.1.2, h.1.1.1.2, h.1.1.2, h.1.2⟩, h.2⟩

/-- The same of every instruction of a list. -/
def allRun (s : State) (is : List Instr) : Bool :=
  match s.env with
  | some e => is.all (runs e)
  | none => false

theorem executes_all {s : State} {is : List Instr} (h : allRun s is = true) : ∀ i ∈ is, ∃ e, s.Executes e i := by
  intro i hi
  cases h' : s.env with
  | none => simp [allRun, h'] at h
  | some e =>
    simp only [allRun, h', List.all_eq_true] at h
    have := h i hi
    simp only [runs, Bool.and_eq_true, decide_eq_true_eq, List.isEmpty_iff] at this
    exact ⟨e, h', this.1.1.1.1, this.1.1.1.2, this.1.1.2, this.1.2, this.2⟩

def v (n : Nat) : Reg := .v (BitVec.ofNat 8 n)

/-- The environment of the executing thread satisfies f. -/
def envIs (s : State) (f : Env → Bool) : Bool := s.env.any f

/-- The result of a computation that succeeds. -/
def fine {α : Type} (x : EStateM.Result FaultInfo State α) : Bool :=
  match x with
  | .ok _ _ => true
  | .error _ _ => false

/-- The scene with v1 a signalling NaN, v2 a quiet NaN, v3 = 1.5, v4 the mask of lane 0, four NaNs of L6 in v6, and a NaN of
F16 and of BF16 in v7. -/
def sceneN : State := sceneT fun t => { t with
  regs := [(1, 0x7FA00000), (2, 0x7FC00000), (3, 0x3FC00000), (4, 1), (6, 0x30303030), (7, 0x7FC1)] }

/-! ## Hypotheses that concrete states meet: integer, float, packed, predicate and system instructions -/

theorem test_witness_IntegerArithmetic : ∀ i ∈ [Instr.iadd hd .s32 false (v 1) (v 2) (.imm 3),
    .isub hd .n64 true (v 2) (v 4) (.reg (v 6)), .imul hd .s64 false (v 2) (v 4) (.long 7), .imulh hd .n32 (v 1) (v 2) (.imm 3),
    .imin hd .s32 (v 1) (v 2) (.imm 3), .imax hd .s64 (v 2) (v 4) (.imm 3),
    .imad hd .s32 true false (v 2) (v 4) (.reg (v 5)) (v 6), .iabs hd true true (v 2) (v 4),
    .idp4 hd true false true (v 1) (v 2) (v 3) (v 4)], ∃ e, scene.Executes e i := executes_all (by decide +kernel)

theorem test_witness_Comparisons : ∀ i ∈ [Instr.isetp hd .n32 .lt 15 (v 2) (.imm 3), .isetp hd .s64 .ge 0 (v 2) (.reg (v 4)),
    .fsetp hd .f32 .lt 2 (v 1) (.reg (v 2)), .plop3 hd 14 1 0x12 15 0x80, .pmovP2r hd (v 1), .pmovR2p hd (v 1) (v 2)],
    ∃ e, sceneN.Executes e i := executes_all (by decide +kernel)

theorem test_witness_BitOperations : ∀ i ∈ [Instr.shl hd .n64 (v 2) (v 4) (.imm 255), .shr hd .s32 (v 1) (v 2) (.imm 32),
    .shf hd true true (v 2) (v 4) (.long 64) (v 6), .bfe hd .s64 (v 2) (v 4) (.long 0x4000),
    .bfi hd false (v 1) (v 2) (.long 0xFFFF) (v 3), .pswz hd (v 1) (v 2) (.reg (v 3)) (v 4)],
    ∃ e, scene.Executes e i := executes_all (by decide +kernel)

/-- The thread in handler state, with TF, a trap vector and a pre-emption handler active. -/
def sceneH : State := sceneT fun t =>
  { t with handler := true, tf := true, preActive := true, x := [(3, 7)], regs := [(4, 0x7F), (8, 0x10080)] }

theorem test_witness_MovesAndSelects : (∀ i ∈ [Instr.logt hd false (v 1) (v 2) (.reg (v 3)) 0x96, .brev hd true (v 2) (v 4),
    .popc hd true (v 2) (v 4), .clz hd false (v 1) (v 255), .lea hd .s32 (v 2) (v 4) (.reg (v 6)) 63,
    .sel hd true (v 2) (v 4) (.reg (v 6)) 0x1E, .mov hd true (v 252) (v 255), .movX hd (v 1) 15, .moviShort hd .s64 (v 2) 0x80,
    .moviLong hd .n64 (v 2) (2 ^ 63)], ∃ e, sceneH.Executes e i) ∧ ∃ e, scene.Executes e (.nop hd) ∧ (!e.th.handler) = true :=
  by
  refine ⟨executes_all ?_, executes ?_⟩ <;> decide +kernel

theorem test_witness_FloatAndPackedArithmetic : ∀ i ∈ [Instr.fadd hd .f32 .rn false (v 1) (v 2) (.reg (v 3)),
    .fmul hd .f16 .rz true (v 1) (v 2) (.long 0x3C00), .ffma hd .bf16 .ru true true (v 1) (v 2) (.reg (v 3)) (v 4),
    .fmin hd .f32 (v 1) (v 2) (.reg (v 3)), .fmax hd .f32 (v 1) (v 2) (.reg (v 3)), .frnd hd .f32 .rd (v 1) (v 3),
    .fclass hd .l6 (v 1) (v 2), .padd hd true .rn true .lo (v 1) (v 2) (.reg (v 3)),
    .pmul hd false .rn false .hi (v 1) (v 2) (.reg (v 3)), .pfma hd false .rn true true .both (v 1) (v 2) (.reg (v 3)) (v 4),
    .pminmax hd true true .both (v 1) (v 2) (.reg (v 3))], ∃ e, sceneN.Executes e i := executes_all (by decide +kernel)

theorem test_witness_FloatNaNs : (∀ i ∈ [Instr.ffma hd .f32 .rn false true (v 5) (v 1) (.reg (v 2)) (v 3),
    .fmin hd .f32 (v 5) (v 1) (.reg (v 2)), .fmax hd .f32 (v 5) (v 1) (.reg (v 3)), .fmin hd .f32 (v 5) (v 3) (.reg (v 1)),
    .fadd hd .f32 .rn true (v 5) (v 1) (.reg (v 3)), .fmul hd .f32 .rz false (v 5) (v 3) (.reg (v 2)),
    .frnd hd .f32 .rn (v 5) (v 1), .sfn hd .sin .f32 (v 5) (v 2), .fclass hd .f32 (v 5) (v 1),
    .padd hd true .rn false .lo (v 5) (v 7) (.reg (v 3)), .pmul hd false .rn true .lo (v 5) (v 3) (.reg (v 7)),
    .pfma hd true .rn false false .lo (v 5) (v 7) (.reg (v 3)) (v 3), .pminmax hd false true .lo (v 5) (v 7) (.reg (v 7)),
    .lmul hd (v 5) (v 6) (v 3), .ladd hd .rn true (v 5) (v 3) (v 6)], ∃ e, sceneN.Executes e i) ∧
    envIs sceneN (fun e => nanCode .f32 (e.th.rd (v 1)).toNat && nanCode .f32 (e.th.rd (v 2)).toNat &&
      !nanCode .f32 (e.th.rd (v 3)).toNat && sigCode .f32 (e.th.rd (v 1)).toNat && !sigCode .f32 (e.th.rd (v 2)).toNat &&
      nanCode .bf16 ((e.th.rd (v 7)).extractLsb' 0 16).toNat && nanCode .f16 ((e.th.rd (v 7)).extractLsb' 0 16).toNat &&
      (List.range 4).all fun k => ((e.th.rd (v 6)).extractLsb' (8 * k) 6).toNat == 0x30) = true :=
  by
  refine ⟨executes_all ?_, ?_⟩ <;> decide +kernel

theorem test_witness_SpecialFunctionsAndConversions : (∀ i ∈ [Instr.sfn hd .lg2 .f32 (v 5) (v 1), .lmul hd (v 5) (v 1) (v 2),
    .ladd hd .rn true (v 5) (v 1) (v 2), .cvt hd .f8e4 .f32 .rn false (v 5) (v 1) none,
    .cvt hd .f4 .f32 .rn false (v 5) (v 1) (some (v 2))], ∃ e, sceneN.Executes e i) ∧
    ∃ e, sceneN.Executes e (.sfn hd .rcp .f32 (v 5) (v 1)) ∧ nanCode .f32 (e.th.rd (v 1)).toNat = true :=
  by
  refine ⟨executes_all ?_, executes ?_⟩ <;> decide +kernel

theorem test_witness_ConversionsToIntegersAndNarrowFormats : ∀ i ∈ [Instr.cvt hd .s8 .n64 .rn false (v 1) (v 2) none,
    .cvt hd .n64 .s16 .rn false (v 2) (v 1) none, .qnt hd .f4 .rn (v 40) (v 16) 0x80, .qnt hd .l6 .rn (v 40) (v 16) 0],
    ∃ e, scene.Executes e i := executes_all (by decide +kernel)

theorem test_witness_PredicateAndSystemReads : ∀ i ∈ [Instr.pmovP2r hd (v 1), .pmovR2p hd (v 1) (v 2), .feat hd (v 2),
    .rand hd (v 4) 62 0] ++ [0x001, 0x007, 0x008, 0x009, 0x00A, 0x100, 0x101, 0x102, 0x200, 0x201, 0x202, 0x203, 0x300,
    0x301, 0x302, 0x303, 0x304, 0x305, 0x310, 0x311, 0x312, 0x313, 0x400, 0x401, 0x402, 0x403].map fun n =>
      Instr.rdsys hd false n (v 2), ∃ e, sceneH.Executes e i := executes_all (by decide +kernel)

theorem test_witness_SystemRegisterWrites : (∀ i ∈ ([0x100, 0x101, 0x102, 0x201, 0x300, 0x302, 0x310, 0x400, 0x401, 0x402,
    0x403].map fun n => Instr.wrsys hd true n (v 1)) ++ [.watch hd 0 (v 8) (v 1), .watch hd 1 (v 8) (v 1)],
    ∃ e, sceneH.Executes e i ∧ (e.th.handler && e.th.tf && ptrOk (e.th.rd64 (v 8))) = true) ∧
    ∃ e, (sceneT fun t => { t with stack := [1], csp := 0x10088, regs := [(1, 8)] }).Executes e (.wrsys hd true 0x101 (v 1)) ∧
      (match flushPlaces e e.th.csp 0 1 scene with
        | .ok ks s => fine (flushStores e ks e.th.stack.reverse s)
        | .error _ _ => false) = true :=
  ⟨fun i hi => by
    have h : ∀ i ∈ _, _ := executes_all (s := sceneH) (is := ([0x100, 0x101, 0x102, 0x201, 0x300, 0x302, 0x310, 0x400,
      0x401, 0x402, 0x403].map fun n => Instr.wrsys hd true n (v 1)) ++ [.watch hd 0 (v 8) (v 1), .watch hd 1 (v 8) (v 1)])
      (by decide +kernel)
    obtain ⟨e, he⟩ := h i hi
    refine ⟨e, he, ?_⟩
    have := he.env
    have h2 : (sceneH.env.map fun e => e.th.handler && e.th.tf && ptrOk (e.th.rd64 (v 8))) = some true := by decide +kernel
    rw [this] at h2
    exact Option.some.inj h2, executes (by decide +kernel)⟩

theorem test_witness_OpsWithoutEffect : (∀ i ∈ [Instr.nop hd, .yieldOp hd, .pref hd true (v 2) (.short 0), .fence hd .system],
    ∃ e, scene.Executes e i) ∧ ∃ e, ({ scene with ctxs := amod scene.ctxs 0 fun c => { c with con := { c.con with
      ceil := 4, scopeTrap := true } } } : State).Executes e (.fence hd .device) ∧ (e.clamps .device && e.ctx.con.scopeTrap) =
      true := by
  refine ⟨executes_all ?_, executes ?_⟩ <;> decide +kernel

theorem test_witness_WarpUniformRegisters : (∀ i ∈ [Instr.wmov hd .fromW (v 2) (v 63), .wmov hd .toW (v 63) (v 2),
    .wmov hd .lo (v 0) (v 1), .wmov hd .wToW (v 1) (v 2), .walu hd .shl 1 2 (.imm 64), .walu hd .maxu 63 0 (.reg 1)],
    ∃ e, scene.Executes e i) ∧ ∃ w : Warp, w.wb = 5 ∧ aget w.wLane 3 = some 0 :=
  ⟨executes_all (by decide +kernel), { wb := 5, wLane := [(3, 0)] }, rfl, rfl⟩

/-! ## Convergence points and the matrix engine -/

/-- The thread of e arrives at convergence point i, and f holds. -/
def arrives (s : State) (i : Instr) (m : Reg) (f : Env → Bool) : Bool :=
  match s.env with
  | none => false
  | some e =>
    decide (convMask i = some m) && decide (preCheck e i = none) && !arrivalBad s e i (e.th.mask m) &&
      (!Instr.isMatrix i || e.th.hasRoom .mxe) && (s.conflicts e (e.th.mask m)).isEmpty && rising 0 s.threads && f e

theorem arrives_of {s : State} {i : Instr} {m : Reg} {f : Env → Bool} (h : arrives s i m f = true) :
    ∃ e, s.Arrives e i m ∧ f e = true := by
  cases h' : s.env with
  | none => simp [arrives, h'] at h
  | some e =>
    simp only [arrives, h', Bool.and_eq_true, decide_eq_true_eq, Bool.not_eq_true', Bool.or_eq_true,
      List.isEmpty_iff] at h
    refine ⟨e, ⟨h', h.1.1.1.1.1.1, h.1.1.1.1.1.2, h.1.1.1.1.2, fun hm => ?_, h.1.1.2, h.1.2⟩, h.2⟩
    rcases h.1.1.1.2 with h0 | h0
    · rw [hm] at h0; cases h0
    · exact h0

/-- The cross-lane instructions, on the threads of mask m. -/
def laneOps (m : Reg) : List Instr :=
  [.shfl hd .abs false (v 1) (v 2) (v 3) m, .vote hd (.all 1) 2 m, .redw hd .n32 .add false .rn (v 1) (v 2) (v 255) m,
    .matchOp hd false false (v 1) (v 2) m, .elane hd (.pred 1) m]

/-- Alone in its mask lane 0 completes the instance; of a full mask it waits for the other lanes. -/
theorem test_witness_LaneInstances : (∀ i ∈ laneOps (v 4),
    ∃ e, sceneN.Arrives e i (v 4) ∧ (sceneN.instanceMet e i (v 4) && !Instr.isMatrix i) = true) ∧
    ∀ i ∈ laneOps (v 255), ∃ e, sceneN.Arrives e i (v 255) ∧ (!sceneN.instanceMet e i (v 255)) = true := by
  have h : ((laneOps (v 4)).all fun i => arrives sceneN i (v 4) fun e => sceneN.instanceMet e i (v 4) && !Instr.isMatrix i) =
    true := by decide +kernel
  have h2 : ((laneOps (v 255)).all fun i => arrives sceneN i (v 255) fun e => !sceneN.instanceMet e i (v 255)) = true := by
    decide +kernel
  exact ⟨fun i hi => arrives_of (List.all_eq_true.mp h i hi), fun i hi => arrives_of (List.all_eq_true.mp h2 i hi)⟩

theorem test_witness_LaneResults : (∃ (e : Env), scene.env = some e ∧ e ∈ [e] ∧ ∀ q ∈ [e], q.lane < 32) ∧
    RedwTy.float .n64 = none ∧ RedwTy.float .f16 ≠ none := by
  refine ⟨?_, by decide, by decide⟩
  have h : (scene.env.map fun e => decide (e.lane < 32)) = some true := by decide +kernel
  cases h' : scene.env with
  | none => simp [h'] at h
  | some e => exact ⟨e, rfl, by simp, by simpa [h'] using h⟩

/-- An M warp whose other lanes wait at i. -/
def sceneMat (i : Instr) : State :=
  { sceneM with threads := sceneM.threads.map fun t => if t.1 = 2048 then t else
      (t.1, { t.2 with status := .conv { mask := 0xFFFFFFFF#32, guard := true, pers := 0, op := i } }) }

def matOps : List Instr :=
  [.mmap hd 63 (v 8) (v 255), .mmal hd 0 (v 8) (v 255), .accz hd 63 0 (v 255), .accld hd 63 (v 8) (v 255),
    .accst hd 0 (v 8) (v 255)]

/-- The scene's cohort with a matrix instruction that has executed. -/
def sceneR (k : MatKind) : State := sceneC fun c =>
  { c with mats := [{ id := 9, kind := k, dst := 0, off := 1024, count := 1, block := [], tids := [2048] }] }

theorem test_witness_MatrixIssueAndRetirement : (∀ i ∈ matOps, ∃ e, (sceneMat i).Arrives e i (v 255) ∧
    (Instr.isMatrix i && (sceneMat i).instanceMet e i (v 255) && (match (sceneMat i).participants e i (v 255) with
      | q :: _ => (match matrixCheck i (q.th.rd (matrixReg i)).toNat e.c with
        | .ok _ => true
        | .error _ => false)
      | [] => false) && ((sceneMat i).instanceOf e i (v 255)).all fun w => match (sceneMat i).member e i (v 255) w with
        | some x => x.th.keep.isEmpty && x.th.lose.isEmpty && x.th.win.isEmpty
        | none => true) = true) ∧
    ∀ k ∈ [MatKind.accz, .accst], (sceneR k).heated 2 = false ∧ (sceneR k).hist = [] ∧ (sceneR k).lateUnits 2 = [] ∧
      (aget (sceneR k).cohorts 2).any (fun c => c.mats.any fun o => o.kind == k && decide (1024 ≤ o.off) && o.done.isNone &&
        ({ o with done := some (flagNX, [5]) } : MatOp).done == some (flagNX, [5])) = true := by
  have h : (matOps.all fun i => arrives (sceneMat i) i (v 255) fun e =>
      Instr.isMatrix i && (sceneMat i).instanceMet e i (v 255) && (match (sceneMat i).participants e i (v 255) with
      | q :: _ => (match matrixCheck i (q.th.rd (matrixReg i)).toNat e.c with
        | .ok _ => true
        | .error _ => false)
      | [] => false) && ((sceneMat i).instanceOf e i (v 255)).all fun w => match (sceneMat i).member e i (v 255) w with
        | some x => x.th.keep.isEmpty && x.th.lose.isEmpty && x.th.win.isEmpty
        | none => true) = true := by decide +kernel
  exact ⟨fun i hi => arrives_of (List.all_eq_true.mp h i hi), by decide +kernel⟩

theorem test_witness_MatrixResults : (∀ k : MatKind, ∃ o : MatOp, o.kind = k) ∧ ∃ b : PlaneBlk, b.kblk = 3 :=
  ⟨fun k => ⟨{ id := 0, kind := k, dst := 0, off := 0, count := 1, block := [], tids := [] }, rfl⟩,
    planeBlk (leBytes 48 0x60000), by decide⟩

/-! ## Memory: a page at 0x20000 with a leaf of one's choice, whose descriptor 1 says F16 -/

/-- The leaf of a resident page at 0x20000 that grants reads and writes (Table 13-2). -/
def pteRW : Nat := 0x2002F

def sceneP (pte : Nat) : State :=
  { sceneT (fun t => { t with regs := [(2, 0x80000000), (4, 0x20000), (6, 0x30000), (8, 1), (9, 0x80), (10, 0x200000)] }) with
    mem := swrite (putWord scene.mem 0x4010 pte) 0x10820 (leBytes 32 (9 + 2 ^ 63))
    hub := { scene.hub with frames := aset scene.hub.frames (frameKey 0 2) (.owned 0) }
    ctxs := amod scene.ctxs 0 fun c => { c with con := { c.con with fmttab := 0x10800 } } }

/-- A load from, and a store to, an address. -/
def rdAt (p : Dword) : Access := { ptr := p, n := 4, rd := true }
def wrAt (p : Dword) : Access := { ptr := p, n := 4, wr := true, acc := 1 }

theorem test_witness_AccessChecks :
    envIs (sceneP pteRW) (fun e => fine (checkPlace e.who (rdAt 0x20000) (sceneP pteRW)) && !ptrOk (0x1000000000000000 : Dword) &&
      decide ((sceneP pteRW).walk e.who 0x30000 = .unmapped) &&
      decide ((sceneP pteRW).versions 3 0 0 3 = [])) = true ∧
    envIs (sceneP (pteRW + 2 ^ 52)) (fun e => match (sceneP (pteRW + 2 ^ 52)).walk e.who 0x20000 with
      | .format _ => true
      | _ => false) = true ∧
    envIs (sceneP (pteRW - 8)) (fun e => match (sceneP (pteRW - 8)).walk e.who 0x20000 with
      | .leaf p _ => bitsOf p 3 3 == 0
      | _ => false) = true := by and_intros <;> decide +kernel

/-- A cohort with one stash step, whose slot 0 maps 256 bytes from 0x20000. -/
def sceneS : State := { sceneP pteRW with cohorts := amod scene.cohorts 2 fun c =>
  { c with stash := 1, slots := [(0, { s := 0, len := 256, va := 0x20000 })] } }

/-- The thread has an operation of class LDC outstanding. -/
def sceneL : State := sceneT fun t => { t with out := [{ cls := .ldc, id := 7, dests := [(v 1, 5)], preds := [(3, true)], src := [(0, 0x20000, 0x20000)] }] }

theorem test_witness_LoadsAndReturns :
    (∃ e, (sceneP pteRW).Executes e (.ld hd .b4 false none (v 1) (v 4) (.short 255) 3) ∧ (!e.ldcFull && !e.needsToken &&
      (match checkPlace e.who (rdAt 0x203FC) (sceneP pteRW) with
        | .ok p s1 => (match linkNeedM p.key s1 with
          | .ok b s2 => !b && fine (readMine e none p.key 4 s2)
          | _ => false)
        | _ => false)) = true) ∧
    (∃ e, (sceneP (pteRW - 32)).Executes e (.ld hd .b4 false none (v 1) (v 4) (.short 0) 14) ∧
      (match checkRes e.who (rdAt 0x20000) (sceneP (pteRW - 32)) with
        | .ok none _ => true
        | _ => false) = true) ∧
    (∃ e, (sceneP (pteRW + 1024)).Executes e (.ldt hd .f32 .rn false none (v 1) (v 4) (.short 0) 15) ∧
      (match elementAccess e 0x20000 false (sceneP (pteRW + 1024)) with
        | .ok (x, p, dr) s1 => (match loadElement e x p dr false s1 with
          | .ok (.here _ _ _) _ => true
          | _ => false)
        | _ => false) = true) ∧
    (∃ e, (sceneP pteRW).Executes e (.tagld hd (v 1) (v 4) (.short 0)) ∧
      fine (tagPlace e.who 0x20000 0x20000 false (sceneP pteRW)) = true) ∧
    (∃ e, (sceneP pteRW).Executes e (.ldl hd .b16 false none (v 12) (v 9) (.short 0)) ∧
      (!(sceneP pteRW).held e.coh 0x80 16 false && decide (0x80 + 16 ≤ e.c.scratch)) = true) ∧
    (∃ e, sceneS.Executes e (.ldl hd .b4 false none (v 1) (v 10) (.short 0)) ∧
      (e.buffered.isEmpty && match e.c.localPlace 0x200000 4 with
        | some (.stash o sl) => fine (stashLine e o 4 sl false sceneS)
        | _ => false) = true) ∧
    ((aget sceneL.threads 2048).map fun u => decide (u.keep = []) && u.exp.isNone && (u.out.find? fun o =>
      o.cls == .ldc && o.id == 7 && !o.returned).isSome) = some true :=
  by
  refine ⟨executes ?_, executes ?_, executes ?_, executes ?_, executes ?_, executes ?_, ?_⟩ <;> decide +kernel

/-- The thread in the second of three ops of an expansion (R132). -/
def sceneX (s : State) : State := { s with threads := amod s.threads 2048 fun t =>
  { t with exp := some { pers := 1, len := 8, ops := [.nop hd, .nop hd, .nop hd], idx := 1 } } }

theorem test_witness_MemoryStores :
    (∀ s ∈ [sceneP pteRW, sceneX (sceneP pteRW)],
      ∃ e, s.Executes e (.st hd .b4 none (v 4) (.short 0) (v 8)) ∧ (!e.needsToken &&
      match checkPlace e.who (wrAt 0x20000) s with
        | .ok p s' => (match linkNeedM p.key s' with
          | .ok b _ => !b
          | _ => false)
        | _ => false) = true) ∧
    (∃ e, (sceneP (pteRW + 1024)).Executes e (.stt hd .f32 .rn false none (v 4) (.short 0) (v 8)) ∧
      (match elementAccess e 0x20000 true (sceneP (pteRW + 1024)) with
        | .ok (x, p, dr) s1 => (match checkFrom4 e.who x p s1, elementOf x dr false s1 with
          | .ok true s2, .ok ds s3 => decide (s2 = s1) &&
            (match readScale e.who ds x.ptr 1 e.buffered (readSeenM e none) s3 with
              | .ok (.here _ _) s4 => (match elementBytes e ds p.key false 0x3C00 s4 with
                | .ok kb s' => (match linkNeedM kb.1 s' with
                  | .ok b _ => !b
                  | _ => false)
                | _ => false)
              | _ => false)
          | _, _ => false)
        | _ => false) = true) ∧
    (∃ e, (sceneP pteRW).Executes e (.stl hd .b8 none (v 9) (.short 1) (v 12)) ∧ (!e.multiOp &&
      !(sceneP pteRW).held e.coh 0x88 8 true && decide (0x88 + 8 ≤ e.c.scratch) &&
      ((sceneP pteRW).ringWaiters e.coh 1).isEmpty) = true) ∧
    (∀ i ∈ [Instr.red hd false false .add none (v 4) (.short 0) (v 8), .tagst hd (v 4) (.short 0) (v 8),
      .atom hd false false .cas .plain .warp (v 255) (v 4) (.short 0) (v 8)], ∃ e, (sceneP pteRW).Executes e i) ∧
    ∃ e, sceneS.Executes e (.stl hd .b4 none (v 10) (.short 0) (v 8)) ∧ (match e.c.localPlace 0x200000 4 with
        | some (.stash o sl) => fine (stashLine e o 4 sl true sceneS)
        | _ => false) = true := by
  refine ⟨?_, executes ?_, executes ?_, executes_all ?_, executes ?_⟩
  · intro s hs
    rcases List.mem_cons.mp hs with rfl | hs
    · exact executes (by decide +kernel)
    · cases List.mem_singleton.mp hs
      exact executes (by decide +kernel)
  all_goals decide +kernel

theorem test_witness_AtomicsAndTags :
    (∀ i ∈ [Instr.atom hd false false .cas .plain .warp (v 1) (v 4) (.short 0) (v 8),
      .atom hd true true .min .acqrel .device (v 255) (v 4) (.short 0) (v 12),
      .red hd false false .add (some .system) (v 4) (.short 0) (v 8), .tagst hd (v 4) (.short 0) (v 8)],
      ∃ e, (sceneP pteRW).Executes e i) ∧
    envIs (sceneP pteRW) (fun e => !e.needsToken && !e.ldcFull && !e.clamps .system &&
      fine (checkRead e.who { ptr := 0x20000, n := 4, rd := true, wr := true, acc := 2 } (sceneP pteRW)) &&
      fine (tagPlaces e.who 0x20000 1 0x20000 (sceneP pteRW)) && decide ((e.th.rd (v 8)).toNat = 1)) = true :=
  by
  refine ⟨executes_all ?_, ?_⟩ <;> decide +kernel

/-- A page that is not resident, for which a request is outstanding. -/
def sceneAsked : State := { sceneP (pteRW - 32) with
  ctxs := amod (sceneP (pteRW - 32)).ctxs 0 fun c => { c with requests := [(0x20000, 0)], posted := 1 } }

theorem test_witness_PageRequestsAndFlushes :
    (∀ p ∈ [pteRW, pteRW - 32], ∃ e, (sceneP p).Executes e (.pgreq hd (v 4) 0) ∧
      (match checkTo3 e.who { ptr := 0x20000, n := 1, acc := 7 } (sceneP p) with
        | .ok q s' => decide (pteRes q.pte = decide (p = pteRW)) && !(s'.requested e.cid e.ctx 0x20000).1
        | _ => false) = true) ∧
    (∃ e, sceneAsked.Executes e (.pgreq hd (v 4) 0) ∧ (match checkTo3 e.who { ptr := 0x20000, n := 1, acc := 7 } sceneAsked with
      | .ok q s' => !pteRes q.pte && (s'.requested e.cid e.ctx 0x20000).1
      | _ => false) = true) ∧
    ∃ e, (sceneP pteRW).Executes e (.cflush hd .device (v 4) (v 8)) ∧ (ptrOk (e.th.rd64 (v 4)) &&
      !e.clamps .device && (e.th.rd (v 8)).toNat != 0 && (e.th.rd (v 1)).toNat == 0) = true :=
  ⟨by
    intro p hp
    rcases List.mem_cons.mp hp with rfl | hp
    · exact executes (by decide +kernel)
    · cases List.mem_singleton.mp hp
      exact executes (by decide +kernel),
    executes (by decide +kernel), executes (by decide +kernel)⟩

/-! ## Stash, copies and the host -/

/-- The stash with line 0 present and dirty in its first byte, and an operation of class CPY outstanding. -/
def sceneSL : State := { sceneS with
  cohorts := amod sceneS.cohorts 2 fun c =>
    { c with lines := [(0, { key := 0x20000, va := 0x20000, bytes := leBytes 128 7, dirty := 1 })] }
  threads := amod sceneS.threads 2048 fun t =>
    { t with out := [{ cls := .cpy, id := 7 }], regs := [(4, 0x20100), (8, 0x10002), (10, 0x200000), (12, 0x100)] } }

theorem test_witness_StashOperations :
    (∀ i ∈ [Instr.smap hd 1 (v 4) (v 8), .smap hd 0 (v 4) (v 8), .sflush hd (v 10) (v 12), .sinv hd (v 10) (v 12)],
      ∃ e, sceneSL.Executes e i) ∧
    envIs sceneSL (fun e => ptrOk (e.th.rd64 (v 4)) && smapOk e.c 1 0x20100 0x10002 && smapOk e.c 0 0x20100 0x10002 &&
      e.th.hasRoom .cpy && (aget e.c.slots 1).isNone && (aget e.c.slots 0).isSome &&
      fine (stashRange e.c 0x200000 0x100 sceneSL) && (e.c.lines.filter fun x => x.1 == 0).length == 1 &&
      (aget sceneSL.copies 7).isNone && !sceneSL.linkDown && e.th.out.any fun o => o.cls == .cpy && o.id == 7) = true :=
  by
  refine ⟨executes_all ?_, ?_⟩ <;> decide +kernel

/-- A raw copy of one word between a global address and scratchpad offset 0x400, with a completion object or none; and a copy
of one tile row of planes. -/
def rawDesc (dir gaddr : Nat) (comp : Nat := 2 ^ 31) : List Byte :=
  leBytes 4 dir ++ leBytes 4 1 ++ leBytes 8 gaddr ++ leBytes 8 0 ++ leBytes 4 0 ++ leBytes 4 4 ++ leBytes 4 0x400 ++
    leBytes 4 4 ++ leBytes 4 0 ++ leBytes 4 comp ++ leBytes 16 0
def planesDesc : List Byte :=
  leBytes 4 0x40C ++ leBytes 4 32 ++ leBytes 8 0x20000 ++ leBytes 8 0 ++ leBytes 4 64 ++ leBytes 4 64 ++ leBytes 4 0x1000 ++
    leBytes 4 0 ++ leBytes 4 0x8000 ++ leBytes 4 0x80000000 ++ leBytes 16 0

/-- The scene with a copy in flight, whose descriptor is at 0; and with descriptors at 0 and 0x40 and no copy. -/
def sceneY (pte dir gaddr : Nat) (comp : Nat := 2 ^ 31) : State :=
  { sceneP pte with copies := [(7, { id := 7, tid := 2048, coh := 2, planes := false, desc := rawDesc dir gaddr comp
                                     descOff := 0, pc := 0x10008 })] }
def sceneZ : State := { sceneP pteRW with
  cohorts := amod scene.cohorts 2 fun c => { c with sp := swrite [] 0 (rawDesc 0 0x20000 0x800 ++ planesDesc) }
  threads := amod scene.threads 2048 fun t => { t with regs := [(1, 0x40)] } }

/-- Copy 7 runs without a fault, or to a fault of this kind. -/
def runsTo (s : State) (k : Option FaultKind) : Bool :=
  match s.runCopy 7 with
  | some (c, _, r, s') => decide (r.map (·.kind) = k) && !(r.any fun x => x.frozen) && decide (c.id = 7) && rising 0 s'.copies &&
      (aget s'.copies 7).any (fun x => x.id == 7) && (aget s'.threads c.tid).isSome && (aget s'.cohorts c.coh).isSome
  | none => false

theorem test_witness_Copies :
    (∀ i ∈ [Instr.acpy hd (v 2), .acpyt hd (v 1)], ∃ e, sceneZ.Executes e i) ∧
    envIs sceneZ (fun e => [(0, false), (0x40, true)].all fun x => !sceneZ.held e.coh x.1 64 false && e.th.hasRoom .cpy &&
      decide (sceneZ.entriesUsed e.core < 32) && fine (readCopyDesc e x.1 x.2 sceneZ)) = true ∧
    runsTo (sceneY pteRW 0 0x20000) none = true ∧ runsTo (sceneY (pteRW - 32) 0 0x20000) (some .notResident) = true ∧
    runsTo (sceneY pteRW 0 0x30000) (some .unmapped) = true ∧
    (∀ d ∈ [0, 1], envIs (sceneP pteRW) (fun e =>
      fine (rawUnit { id := 7, e := e, d := cdescOf (rawDesc d 0x20000) } 0 (sceneP pteRW))) = true) ∧
    (cdescOf (rawDesc 0 0)).nocomp = true ∧ (cdescOf (rawDesc 0 0 0x800)).comp = 0x800 ∧
    runsTo (sceneY pteRW 0 0x20000 0x800) none = true ∧ runsTo (sceneY pteRW 0 0x30000 0x800) (some .unmapped) = true ∧
    (sceneP pteRW).noStash ∧ (sceneP pteRW).linkDown = false ∧
    (sceneP pteRW).hist = [] := by
  refine ⟨executes_all ?_, ?_, ?_, ?_, ?_, ?_, ?_, ?_, ?_, ?_, ?_, ?_, ?_⟩
  case refine_11 => unfold State.noStash; decide +kernel
  all_goals decide +kernel

theorem test_witness_HostAccesses : 0xC00000000 - 1 + [5#8].length ≤ scene.partBytes 0 ∧
    scene.partBytes 3 < 2 ^ 40 + [5#8].length ∧ scene.noStash :=
  by
  refine ⟨?_, ?_, ?_⟩ <;> (try unfold State.noStash) <;> decide +kernel

/-! ## Guards, faults and control flow -/

theorem test_witness_GuardsAndChecks :
    ([Instr.walu hd .add 64 0 (.imm 1), .iadd { hd with guard := 0 } .s32 false (v 1) (v 2) (.imm 3)].all fun i =>
      (encodeFields i).isSome) = true ∧
    envIs scene (fun e => (preCheck e (.walu hd .add 64 0 (.imm 1))).isSome &&
      decide (preCheck e (.iadd { hd with guard := 0 } .s32 false (v 1) (v 2) (.imm 3)) = none) &&
      !e.th.active { hd with guard := 0 } && e.th.keep.isEmpty && e.th.lose.isEmpty && e.th.win.isEmpty) = true :=
  by and_intros <;> decide +kernel

/-- The header of a line whose every slot is a target and which is an entry of signature class 3 and register need 8. -/
def entryHead : Nat := lineHead 0x07F83D87 (lineBody 0x07F83D87 0) + 0x7FFF * 2 ^ 15 + 2 ^ 30 + 3 * 2 ^ 32 + 2 ^ 40

/-- The scene whose code line is such a line, with a thread that f changes. -/
def sceneE (f : Thread → Thread) : State :=
  { sceneT f with mem := swrite (sceneP pteRW).mem 0x10000 (leBytes 8 entryHead), hub := (sceneP pteRW).hub }

theorem test_witness_FaultDelivery :
    envIs scene (fun e => e.l.status.isNone && decide (e.th.trapVec = 0) && FaultKind.parks .notResident &&
      !FaultKind.parks .illegalOperand) = true ∧ scene.issue = [] ∧
    envIs { scene with issue := [2049] } (fun e => decide (e.th.trapVec = 0)) = true ∧
    envIs (sceneE fun t => { t with trapVec := 0x10000 }) (fun e => decide (e.th.trapVec ≠ 0) && !e.th.tf &&
      ((sceneE fun t => { t with trapVec := 0x10000 }).handlerOk e).1) = true ∧
    envIs (sceneT fun t => { t with trapVec := 0x10000 }) (fun e => decide (e.th.trapVec ≠ 0) && !e.th.tf && e.l.status.isNone &&
      !e.ctx.stopped && !((sceneT fun t => { t with trapVec := 0x10000 }).handlerOk e).1) = true := by
  and_intros <;> decide +kernel

/-- A thread with four return entries on chip and a stack at 0x20088; and one with one entry spilled there. -/
def sceneE1 : State := sceneE id

def sceneB : State := sceneE fun t => { t with stack := [1, 2, 3, 4], csp := 0x20088, regs := [(4, 0x10008), (6, 0x10000)] }
def sceneBX : State := sceneE fun t => { t with
  stack := [1, 2, 3, 4], csp := 0x20088, regs := [(6, 0x10000)]
  exp := some { pers := 2, len := 4, ops := [.nop hd, .callx hd 3 (v 6)], idx := 1 } }
def sceneB1 : State := sceneE fun t => { t with csp := 0x20080, spilled := 1 }

theorem test_witness_BranchesAndCalls :
    (∀ i ∈ [Instr.braRel hd 0x800000, .braLong hd 0x10008, .brx hd (v 4), .callRel hd 0, .callLong hd 0x10000,
      .callx hd 3 (v 6), .ret hd], ∃ e, sceneB.Executes e i) ∧
    envIs sceneB (fun e => (match targetLine e.who 0x10008 sceneB with
        | .ok (pers, b) _ => decide (pers = 0) && lineOk b && lineTarget b 1
        | .error _ _ => false) && (match targetLine e.who 0x10008 scene with
        | .ok (pers, b) _ => decide (pers = 0) && !lineTarget b 1
        | .error _ _ => false) && match callTarget e 0x10000 (some 3) sceneB with
        | .ok _ s1 => (match checkPlace e.who { ptr := e.th.csp - 8, n := 8, wr := true, acc := 6 } s1 with
          | .ok p s2 => fine (linkNeedM p.key s2)
          | .error _ _ => false)
        | .error _ _ => false) = true ∧
    (∃ e, scene.Executes e (.ret hd) ∧ (e.th.stack.isEmpty && decide (e.th.spilled = 0)) = true) ∧
    (∃ e, sceneB1.Executes e (.ret hd) ∧ (e.th.stack.isEmpty && decide (e.th.spilled ≠ 0) &&
      fine (checkRead e.who { ptr := e.th.csp, n := 8, rd := true, acc := 6 } sceneB1) &&
      (sceneB1.peek 0x20080 8).all (· == 0)) = true) ∧
    ∃ e, sceneBX.Executes e (.callx hd 3 (v 6)) ∧ (e.multiOp && match callTarget e 0x10000 (some 3) sceneBX with
      | .ok _ s1 => fine (checkPlace e.who { ptr := e.th.csp - 8, n := 8, wr := true, acc := 6 } s1)
      | .error _ _ => false) = true :=
  by
  refine ⟨executes_all ?_, ?_, executes ?_, executes ?_, executes ?_⟩ <;> decide +kernel

/-- Lane 0 stands to end, lane 1 stands at a, lane 2 at b, and the other lanes have exited; and what its end leaves. -/
def sceneEnd (a b : TStatus) (f : Cohort → Cohort) : State := { sceneC f with
  threads := scene.threads.map fun t => (t.1, { t.2 with status :=
    if t.1 = 2048 then .exiting else if t.1 = 2049 then a else if t.1 = 2050 then b else .exited }) }
def ended (s : State) : State := { s.setThread 2048 { status := .exited } with
  launches := amod s.launches 1 fun l =>
    { l with endView := joinView l.endView (((aget s.threads 2048).map Thread.completed).getD []) } }

/-- A wait of lane 1 for lanes 0 to 2 at i; and a phase that lane 1 has arrived at. -/
def convAt (i : Instr) : ConvWait := { mask := 7, guard := true, pers := 0, op := i }
def barHeld : NBar := { mask := some 1, arrived := [2049] }

/-- The same of a member of group 3, in whose phase lane 1 has arrived. -/
def sceneEndGr (b : TStatus) : State :=
  let s := sceneEnd .ready b fun c => { c with groups := [3] }
  { s with launches := amod s.launches 1 fun l =>
    { l with
      rc := { l.rc with ext := [1] }, groups := [(3, { lo := [0, 0, 0, 0], hi := [1, 1, 1, 1], stride := [1, 1, 1, 1] })]
      gbars := [(3, { arrived := [2049] })] } }

theorem test_witness_SkipsAndEnds :
    (∃ e, scene.Executes e (.skip hd 7)) ∧
    (∃ e, scene.Executes e (.exit hd) ∧ (decide (scene.coverOf e.th.out = .clear) && !scene.fetching e.tid) = true) ∧
    (∀ rest ∈ [TStatus.ready, .exited], let s := sceneEnd rest .exited id
      rising 0 s.threads = true ∧ ((ended s).allExited 2 = decide (rest = .exited)) ∧
      ((aget s.cohorts 2).map fun c => c.core.isSome && c.bars.isEmpty && c.groups.isEmpty) = some true ∧
      (s.threads.all fun t => t.2.conv.isNone) = true) ∧
    (∀ x ∈ [(Instr.vote hd (.all 1) 2 (v 4), TStatus.exited), (.vote hd (.all 1) 2 (v 4), .ready),
        (.accz hd 63 0 (v 255), .exited)], let s := sceneEnd (.conv (convAt x.1)) x.2 id
      ((aget s.threads 2049).any (fun u => u.conv == some (convAt x.1)) && !(ended s).allExited 2 &&
        (((ended s).modThread 2049 Thread.leave).envOf 2049 0).isSome &&
        (ended s).allArrived 64 7 [(2049, convAt x.1)] == decide (x.2 = .exited)) = true) ∧
    (∀ st ∈ [TStatus.exited, .ready], let s := sceneEnd .ready st fun c => { c with bars := [(3, barHeld)] }
      ((ended s).allExited 2 = false ∧ (ended s).barMet 2 1 [2049] = decide (st = .exited))) ∧
    ∀ st ∈ [TStatus.exited, .ready], (aget (ended (sceneEndGr st)).launches 1).any (fun l =>
      l.status.isNone && (aget l.groups 3).isSome && l.gcolls.isEmpty && (l.gbar 3).arrived == [2049] &&
        (ended (sceneEndGr st)).groupMet 1 3 l [2049] == decide (st = .exited)) = true :=
  ⟨(executes (x := fun _ => true) (by decide +kernel)).imp fun _ h => h.1, executes (by decide +kernel), by decide +kernel,
    by decide +kernel, by decide +kernel, by decide +kernel⟩

/-- A pre-emption handler whose LIVE entry is at an address. -/
def sceneLive (live : Nat) : State :=
  { sceneP pteRW with
    threads := amod scene.threads 2048 fun t => { t with preActive := true, preLive := BitVec.ofNat 64 live } }

theorem test_witness_TrapsAndHandlerReturns :
    (∀ i ∈ [Instr.trap hd 255, .bpt hd, .tret hd, .gret hd, .pdone hd], (∃ e, scene.Executes e i ∧
      (decide (e.th.trapVec = 0) && !e.th.tf && !e.th.handler && !e.th.preActive) = true) ∧
      ∃ e, (sceneE fun t => { t with trapVec := 0x10000, handler := true, preActive := true }).Executes e i) ∧
    envIs (sceneE fun t => { t with trapVec := 0x10000 }) (fun e =>
      ((sceneE fun t => { t with trapVec := 0x10000 }).handlerOk e).1) = true ∧
    (∃ e, (sceneT fun t => { t with trapVec := 0x10000 }).Executes e (.bpt hd) ∧ (decide (e.th.trapVec ≠ 0) && !e.th.tf &&
      !((sceneT fun t => { t with trapVec := 0x10000 }).handlerOk e).1) = true) ∧
    (∀ x ∈ [(0x20000, true), (0x40000, false)], ∃ e, (sceneLive x.1).Executes e (.pdone hd) ∧ (e.th.preActive &&
      ((sceneLive x.1).agentRead e.who.noWatch e.th.preLive 48 e.th.ord.known).1.isSome == x.2) = true) ∧
    (∃ e, sceneH.Executes e (.tret hd) ∧ e.th.tf = true) :=
  ⟨by
    intro i hi
    have h1 : ∀ i ∈ _, ∃ e, scene.Executes e i := executes_all (is := [Instr.trap hd 255, .bpt hd, .tret hd, .gret hd, .pdone hd])
      (by decide +kernel)
    have h2 : ∀ i ∈ _, ∃ e, (sceneE fun t => { t with trapVec := 0x10000, handler := true, preActive := true }).Executes e i :=
      executes_all (is := [Instr.trap hd 255, .bpt hd, .tret hd, .gret hd, .pdone hd]) (by decide +kernel)
    obtain ⟨e, he⟩ := h1 i hi
    have h3 : (scene.env.map fun e => decide (e.th.trapVec = 0) && !e.th.tf && !e.th.handler && !e.th.preActive) = some true := by
      decide +kernel
    rw [he.env] at h3
    exact ⟨⟨e, he, Option.some.inj h3⟩, h2 i hi⟩, by decide +kernel, executes (by decide +kernel),
    by
      intro x hx
      rcases List.mem_cons.mp hx with rfl | hx
      · exact executes (by decide +kernel)
      · cases List.mem_singleton.mp hx
        exact executes (by decide +kernel),
    executes (by decide +kernel)⟩

/-- The code page with a personality number, and personality 2 without an entry, whose words take an emulation trap. -/
def sceneG (pers : Nat) : State :=
  let dir := leBytes 32 0 ++ leBytes 8 0x20100 ++ leBytes 4 64 ++ leBytes 4 1
  let table := leBytes 4 1 ++ leBytes 4 0 ++ leBytes 4 1 ++ leBytes 4 0 ++ leBytes 8 0x10000 ++ leBytes 16 0 ++ leBytes 4 1 ++
    leBytes 20 0
  { sceneP pteRW with
    mem := putWord (swrite (swrite (sceneP pteRW).mem 0x20000 dir) 0x20100 table) 0x4008 (pageEntry progLine + pers * 1024)
    threads := scene.threads
    ctxs := amod (sceneP pteRW).ctxs 0 fun c => { c with con := { c.con with persdir := 0x20000 } } }

/-- What the thread's guest instruction decodes to. -/
def guestIs (pers : Nat) (f : GuestDec → Bool) : Bool :=
  match (sceneG pers).envNow 2048 with
  | none => false
  | some e => e.atBoundary && match fetchPlace e.who e.th.pc (sceneG pers) with
    | .error _ _ => false
    | .ok p s1 =>
      let r := ((sceneG pers).keepDraws s1).modThread 2048 fun t => { t with hazards := [] }
      let g : Env := { e with pers := pers }
      decide (pteDesc p.pte = pers) && match decodeGuest g pers e.th.pc p r with
        | .ok d _ => f d
        | .error _ _ => false

theorem test_witness_GuestInstructions :
    guestIs 1 (fun d => match d with
      | .ops _ _ => true
      | _ => false) = true ∧
    guestIs 2 (fun d => match d with
      | .emu _ _ _ _ _ _ => true
      | _ => false) = true ∧
    (∀ n ∈ [0, 16], ((sceneG n).envNow 2048).any fun e => e.atBoundary && match fetchPlace e.who e.th.pc (sceneG n) with
      | .ok p _ => decide (pteDesc p.pte = n)
      | .error _ _ => false) :=
  by and_intros <;> decide +kernel

/-! ## Waits, barriers, rings, collectives and work -/

/-- A member of group 3, in handler-free code; and the thread in the state st. -/
def sceneGr : State := { scene with
  launches := amod scene.launches 1 fun l => { l with groups := [(3, { lo := [0], hi := [1], stride := [1] })] }
  cohorts := amod scene.cohorts 2 fun c => { c with groups := [3] } }
def sceneSt (st : TStatus) : State := sceneT fun t => { t with status := st }

/-- An AWAIT of scratchpad word 0. -/
def awaitOp (c : AwaitCmp) : Instr := .await hd true false c .cohort (v 1) (v 2) (v 3)
def awaitSpec (c : AwaitCmp) : AwaitSpec :=
  { loc := true, w64 := false, cmp := c, a := 0, b := 0, d := v 1, op := awaitOp c, pers := 0, scope := .cohort, clamp := false }

/-- What the AWAIT of a thread of a cohort without a core meets: its condition, or an access that fails. -/
def sceneOut (a : AwaitSpec) : Option (Option Bool × Env) :=
  let s : State := { sceneSt (.awaiting a) with cohorts := amod scene.cohorts 2 fun c => { c with core := none, saved := true } }
  (s.envOf 2048 0).map fun e => (match awaitRead e a s with
    | .ok x _ => some (awaitCond a.w64 a.cmp x a.b)
    | .error _ _ => none, e)

theorem test_witness_WaitsAndBarriers :
    (∃ e, sceneL.Executes e (.waitc hd .ldc 0) ∧ sceneL.coverOf (e.th.covered .ldc 0) = .held) ∧
    (∃ e, sceneL.Executes e (.waitc hd .ldc 1) ∧ sceneL.coverOf (e.th.covered .ldc 1) = .clear) ∧
    (∀ c ∈ [AwaitCmp.eq, .ne], ∃ e, scene.Executes e (awaitOp c) ∧ (!e.needsToken && !e.clamps .cohort &&
      match awaitRead e (awaitSpec c) scene with
        | .ok x _ => awaitCond false c x 0 == decide (c = .eq)
        | .error _ _ => false) = true) ∧
    (∀ c ∈ [AwaitCmp.eq, .ne], ((sceneSt (.awaiting (awaitSpec c))).envOf 2048 0).any (fun e => e.c.core.isSome &&
      e.th.keep.isEmpty && e.th.lose.isEmpty && e.th.win.isEmpty && fine (awaitRead e (awaitSpec c) scene))) ∧
    (∀ c ∈ [AwaitCmp.eq, .ne], (sceneOut (awaitSpec c)).any (fun x => x.1 == some (c == .eq))) ∧
    (sceneOut { awaitSpec .eq with a := 0x30000 }).any (fun x => x.1 == none) ∧
    (∀ i ∈ [Instr.backoffImm hd 0, .backoffReg hd (v 3)], ∃ e, sceneN.Executes e i) ∧
    (∃ e, sceneGr.Executes e (.bar hd .cohort false 15 (v 255)) ∧ (decide (15 < e.c.nbar) &&
      !(e.c.bar 15).arrived.contains e.tid && !e.needsToken && decide (e.th.status = .ready) &&
      !barRefused e (barMask e (v 255)) (e.c.bar 15)) = true) ∧
    ∃ e, sceneGr.Executes e (.barGrp hd .device true 3) ∧ (e.member 3 && !(e.l.gbar 3).arrived.contains e.tid) = true :=
  ⟨(executes (x := fun e => decide (sceneL.coverOf (e.th.covered .ldc 0) = .held)) (by decide +kernel)).imp fun _ h =>
      ⟨h.1, of_decide_eq_true h.2⟩,
    (executes (x := fun e => decide (sceneL.coverOf (e.th.covered .ldc 1) = .clear)) (by decide +kernel)).imp fun _ h =>
      ⟨h.1, of_decide_eq_true h.2⟩,
    by
      intro c hc
      rcases List.mem_cons.mp hc with rfl | hc
      · exact executes (by decide +kernel)
      · cases List.mem_singleton.mp hc
        exact executes (by decide +kernel),
    by decide +kernel, by decide +kernel, by decide +kernel, executes_all (by decide +kernel), executes (by decide +kernel),
    executes (by decide +kernel)⟩

theorem test_witness_StageRings : (∀ i ∈ [Instr.rpost hd 7 (v 1), .rtake hd 7 (v 1), .setctl hd 7 (v 1)],
    ∃ e, scene.Executes e i) ∧
    envIs scene (fun e => decide (ringLogd e.c.sp 7 ≤ 4) && !e.needsToken && decide (128 * 8 ≤ e.c.scratch) &&
      e.c.broken.isEmpty && (scene.ringWaiters e.coh 7).isEmpty && decide ((e.th.rd (v 1)).toNat ≤ 4) &&
      ringReady (.rpost hd 7 (v 1)) e.c.sp 7 && !ringReady (.rtake hd 7 (v 1)) e.c.sp 7) = true :=
  by
  refine ⟨executes_all ?_, ?_⟩ <;> decide +kernel

theorem test_witness_Collectives :
    (∃ e, sceneGr.Executes e (.xred hd .f32 .add .tree .device (v 8) (v 9) 3) ∧ (!e.clamps .device && e.member 3 &&
      !e.c.isStashAddr 0 && xredBits .tree 0 && e.th.hasRoom .col) = true) ∧
    ((sceneGr.launches.map fun l => ({ l.2 with
      gcolls := [(3, { done := [{ writes := [(2, 1024, [1#8])], flags := 0, ops := [(2048, 7)] }] })] } : Launch)).all fun l =>
      (l.gcoll 3).done.all fun d => decide ((d.writes.map (·.1)).Nodup) && decide ((d.ops.map (·.1)).Nodup) &&
        d.writes.all fun w => decide (1024 ≤ w.2.1) && (aget sceneGr.cohorts w.1).any fun c => c.core.isSome) = true :=
  by
  refine ⟨executes ?_, ?_⟩ <;> decide +kernel

/-- The thread with a record's address in v4:v5, whose launch is deterministic or not, and n records in the queue. -/
def sceneD (det : Bool) (n : Nat) : State := { sceneP pteRW with
  launches := amod scene.launches 1 fun l => { l with rc := { l.rc with det := det } }
  devq := [(0, List.replicate n { bytes := [], prioCap := 0, ownerQ := none })] }

theorem test_witness_WorkSubmission :
    (∃ e, scene.Executes e (.fetchw hd (v 1)) ∧ (!e.c.isStashAddr 0 && decide (16 ≤ e.c.scratch) && !e.det &&
      decide (scene.requestsOf e.coh < 16) && scene.active e.l && (scene.ringWaiters e.coh 0).isEmpty) = true) ∧
    (∀ i ∈ [Instr.binpush hd 15 (v 16) (v 1), .bindrain hd true (v 1)], ∃ e, scene.Executes e i) ∧
    scene.pidOf 0 = 0 ∧
    (∀ x ∈ [(true, 63), (false, 64), (true, 64)], (∃ e, (sceneD x.1 x.2).Executes e (.launch hd (v 1) (v 4) (v 7)) ∧
      (e.det == x.1 && fine (readVirt e.who (e.th.rd64 (v 4)) 0 16 8 (readSeenM e none) (sceneD x.1 x.2))) = true)) :=
  ⟨executes (by decide +kernel), executes_all (by decide +kernel), by decide +kernel, by
    intro x hx
    rcases List.mem_cons.mp hx with rfl | hx
    · exact executes (by decide +kernel)
    rcases List.mem_cons.mp hx with rfl | hx
    · exact executes (by decide +kernel)
    · cases List.mem_singleton.mp hx
      exact executes (by decide +kernel)⟩

/-- Launch 20 of 100 indices with GRAIN 4, with walkers. -/
def launch20 : Launch := { cid := 0, pid := 0, sec := 0, ownerQ := none, rc := { ext := [100], grain := 4 } }
def sceneW (l : Launch) (ws : List Walker) : State := { scene with launches := aset scene.launches 20 l, walkers := ws }
def walkerAt (slot cursor limit : Nat) : Walker :=
  { sec := 0, slot := slot, launch := 20, cursor := cursor, limit := limit, core := 5 }

theorem test_witness_CohortsOfLaunches :
    (∀ hi ∈ [11, 12], let s := sceneW launch20 [walkerAt 0 10 hi];
      (((s.walkersOf 20 0).find? fun w => w.core == 5).isSome && s.walked launch20 && !launch20.rc.persist &&
        s.fits 5 20 launch20.rc.need (some 10)) = true) ∧
    (let l : Launch := { launch20 with rc := { launch20.rc with persist := true, ncoh := 1 } };
      ((sceneW l []).walked l && decide (l.created < l.rc.ncoh) && decide ((sceneW l []).pidOfCore 5 = l.pid) &&
        (sceneW l []).fits 5 20 l.rc.need (some l.created)) = true) ∧ 99 < launch20.rc.space :=
  by and_intros <;> decide +kernel

theorem test_witness_WalkerSplits :
    ∀ x ∈ [([walkerAt 0 10 17], true), ([walkerAt 0 10 18], true), ((List.range 32).map fun k => walkerAt k 10 18, false)],
      let s := sceneW launch20 x.1;
      ((s.askedLaunch 6 == some (20, launch20)) && (launch20.lowPend 0).isNone &&
        (mostLeft (s.walkersOf 20 0) == some (walkerAt 0 10 ((x.1.headD (walkerAt 0 0 0)).limit))) &&
        ((s.walkers.find? fun w => w.sec == 0 && w.slot == 0) == x.1.head?) &&
        ((s.freeSlotsOf 0 20).isEmpty == !x.2) && s.works.isEmpty &&
        (({ s with works := [{ core := 6, launch := 20 }] } : State).askedLaunch 6 == some (20, launch20))) = true := by
  decide +kernel

/-- A request of the placed thread at the pool, whose launch is of the given form. -/
def sceneF (persist det : Bool) : State := { scene with
  launches := amod scene.launches 1 fun l => { l with rc := { l.rc with persist := persist, det := det, ncoh := 1 } }
  fetches := [{ id := 7, tid := 2048, coh := 2, va := 0x100 }] }

theorem test_witness_RangesAndWithdrawals :
    (let l : Launch := { launch20 with pend := [{ sec := 0, lo := 40, hi := 60 }, { sec := 0, lo := 20, hi := 40 }] };
      ((sceneW l []).askedLaunch 6 == some (20, l)) = true ∧ (sceneW l []).works = [] ∧ l.lowPend 0 = some { sec := 0, lo := 20, hi := 40 } ∧
        ((sceneW l []).freeSlotsOf 0 20).isEmpty = false) ∧
    (∀ s ∈ [sceneF false false, sceneF true true, sceneF true false], (s.fetches.any fun f => f.id == 7 &&
      (aget s.cohorts f.coh).any fun c => (aget s.launches c.launch).any fun l => s.active l && !c.rings.contains 2) = true) ∧
    (((sceneW launch20 [walkerAt 0 10 12]).walkersOf 20 0).find? fun w => w.core == 5) = some (walkerAt 0 10 12) :=
  by and_intros <;> decide +kernel

/-! ## Queues, launches and bins -/

/-- Bytes of a structure from its fields: offset, length and value. -/
def bytesOf (n : Nat) (fs : List (Nat × Nat × Nat)) : List Byte :=
  sread (fs.foldl (fun m f => swrite m f.1 (leBytes f.2.1 f.2.2)) []) 0 n

/-- A queue of the scene, in a state, with the packet at 0x21000 (Tables 16-4 and 16-5). -/
def queueIn (st : Nat) : Queue :=
  { fn := 0, cid := 0, sec := 0, qn := 4, qcb := 0x20000, ringbase := 0x21000, ringlog := 0, priomax := 0, rev := 1, wr := 1
    state := st }
def sceneQ (st op x : Nat) : State := { sceneP pteRW with
  mem := swrite (sceneP pteRW).mem 0x21000
    (bytesOf 128 ([(0, 4, 1 + op * 2 ^ 16)] ++ if 2 ≤ op then [(8, 8, 0x20200), (0x10, 8, x)] else []))
  queues := [(30, queueIn st)] }

/-- The queue is served, with a packet of this OP. -/
def serves (s : State) (op : Nat) : Bool :=
  (aget s.queues 30).any fun q => s.queueReady 30 q && ((s.nextServed 0).map fun r => (r.dev, r.key)) == some (false, 30) &&
    match (s.slot q).1 with
      | .packet o _ _ => o == op
      | .bad _ => false

theorem test_witness_QueuesAndPackets :
    ((sceneQ 0 0 0).fnServed 0 && ((sceneQ 0 0 0).queues.find? fun q => q.2.fn == 0 && q.2.sec == 0 && q.2.qn == 4).isSome &&
      (sceneQ 0 0 0).frontRuns (queueIn 0) && ((sceneQ 0 0 0).acquireFor 30 (queueIn 0) 0x20040 4).1.isSome &&
      !(sceneQ 0 0 0).hub.qDone.getLsbD 0) = true ∧
    ({ scene with hub := { scene.hub with qDone := 8 } } : State).hub.qDone.getLsbD 3 = true ∧
    (∀ op ∈ [0, 1, 2, 3], serves (sceneQ 1 op 0) op = true) ∧
    (∀ x ∈ [0, 1], (aget (sceneQ 2 2 x).ctxs 0).any (fun ctx => (sceneQ 2 2 x).served 0 &&
      (match ((sceneQ 2 2 x).slot (queueIn 2)).1 with
        | .packet o _ _ => o == 2
        | .bad _ => false) && (match ((sceneQ 2 2 x).slot (queueIn 2)).2.acquireFor 30 (queueIn 2) 0x20200 8 with
        | (some b, _) => waitHolds 0 (leNat b) x == decide (x = 0)
        | _ => false) && (tryAgent (((sceneQ 1 3 0).slot (queueIn 1)).2.touch 30) (agentOf 0 ctx) (writeVirt (agentOf 0 ctx)
          0x20200 7 8 (leBytes 8 5) 1 [] [(queueIn 1).rel ctx.pid])).1.isSome) = true) :=
  by and_intros <;> decide +kernel

/-- Launch records (Tables 4-1, 4-2 and 4-4): an index space of n with a GRAIN, and an arming of bin 0. -/
def iterRec (n grain : Nat) : List Byte := bytesOf 128 [(0, 4, 1), (8, 8, 0x10000), (0x10, 4, n), (0x20, 4, grain)]
def binRec : List Byte :=
  bytesOf 128 [(0, 4, 2), (8, 8, 0x10000), (0x18, 4, 1), (0x2C, 4, 1), (0x60, 4, 12)]

/-- The front end's tests of a record answer. -/
def tests (b : List Byte) : Option Bool :=
  (aget (sceneE id).ctxs 0).map fun ctx => match ((sceneE id).test 0 ctx 0 b (recordOf b) []).1 with
    | .ok _ => true
    | .error _ => false

/-- A gang of one part at the hub. -/
def sceneGang (warps : Nat) : State :=
  let gang : Launch := { cid := 0, pid := 0, sec := 0, ownerQ := none, rc := { kind := 3 }, parts := [21] }
  let part : Launch := { launch20 with pid := 1, sec := 1, held := true, rc := { launch20.rc with regs := 256, warps := warps } }
  { scene with
    launches := aset (aset scene.launches 20 gang) 21 part, hub := { scene.hub with gang := some { launch := 20, reserved := [] } } }

theorem test_witness_LaunchesAndGangs :
    tests (iterRec 100 4) = some true ∧ tests (iterRec 0 1) = some true ∧ tests (iterRec 100 0) = some false ∧
    tests binRec = some true ∧ (recordOf (bytesOf 128 [(0, 4, 3)])).kind = 3 ∧
    ({ fn := 0, pid := 0, con := { featmask := 0x200 } } : Ctx).has 9 = false ∧
    (({ scene with devq := [(0, [{ bytes := iterRec 1 1, prioCap := 7, ownerQ := none }])] } : State).nextServed 0).map
      (fun x => (x.dev, x.key)) = some (true, devKey 0 0) ∧
    (sceneW { launch20 with status := some 5 } []).completes 20 { launch20 with status := some 5 } = some 5 ∧
    (sceneW { launch20 with pend := [] } []).completes 20 launch20 = some stOk ∧
    (∀ x ∈ [(32, 0), (1, 1)], (sceneGang x.1).gangTurn.any fun g =>
      (aget (sceneGang x.1).launches g.launch).any fun l =>
        !((sceneGang x.1).partsOf l).any (fun p => p.status.isSome) &&
          decide (((sceneGang x.1).reserve g l.parts).reserved.length = x.2)) :=
  by and_intros <;> decide +kernel

/-- The placed thread asks the controller of bin 3, armed by launch 20 with one record of QUOTA 1 and a ring of 4096 bytes
at a page that can be written. -/
def armLaunch (ringbase : Nat) : Launch := { launch20 with rc := { launch20.rc with
  kind := 2, bin := 3, age := 5, quota := 1, thresh := 2, ringbase := BitVec.ofNat 64 ringbase, scratch := 4096 } }
def recAt (n : Nat) : BinRec := { seq := n, data := leBytes 16 n, key := n, tag := 0, lid := 0, num := n }
def sceneBin (q : BinReq) (b : Bin) : State := { sceneP pteRW with
  threads := amod scene.threads 2048 fun t => { t with status := .binWait q 0 (.bindrain hd false (v 1)) }
  launches := aset scene.launches 20 (armLaunch 0x20000), bins := [(3, b)] }
def push16 : BinReq := .push 0 3 (leBytes 16 9)

/-- Bin 3, eligible since 5, beside bin 2, eligible since n. -/
def sceneBins (n : Nat) : State :=
  let s := sceneBin push16 { launch := 20, recs := [recAt 0], aged := some 0, eligSince := some 5 }
  { s with
    launches := aset s.launches 21 { armLaunch 0x20000 with rc := { (armLaunch 0x20000).rc with bin := 2 } }
    bins := aset s.bins 2 { launch := 21, recs := [recAt 0], aged := some 0, eligSince := some n } }

/-- The thread's request is at the controller, and the bin and its launch satisfy f. -/
def binAsk (s : State) (f : Env → Bin → Launch → Bool) : Bool :=
  (s.asking 2048).any fun x => x.2.1.scheduled && x.2.1.th.keep.isEmpty && x.2.1.th.lose.isEmpty && x.2.1.th.win.isEmpty &&
    (s.armed 3).any fun y => f x.2.1 y.1 y.2

theorem test_witness_BinPushesAndDrains :
    (∀ b ∈ [({ launch := 20 } : Bin), { launch := 20, recs := [recAt 0] }], binAsk (sceneBin push16 b) (fun e b l =>
      decide (l.cid = e.cid) && !b.closing && decide (l.rc.rsize = 16) && decide (b.fires < 2 ^ 48) &&
      decide (b.recs.length < l.rc.quota + 2 ^ l.rc.ringlog / l.rc.rsize) &&
      (b.recs.isEmpty || (((sceneBin push16 b).carry 2048).2.ringWrite l (b.freeSlot l.rc) (leBytes 16 9)).1)) = true) ∧
    binAsk (sceneBin push16 { launch := 20, recs := (List.range 257).map recAt }) (fun _ b l =>
      decide (l.rc.quota + 2 ^ l.rc.ringlog / l.rc.rsize ≤ b.recs.length)) = true ∧
    binAsk (sceneBin push16 { launch := 20, fires := 2 ^ 48 }) (fun _ b _ => decide (2 ^ 48 ≤ b.fires)) = true ∧
    binAsk (sceneBin push16 { launch := 20, closing := true }) (fun _ b _ => b.closing) = true ∧
    binAsk (sceneBin (.drain 0 3 true) { launch := 20, recs := [recAt 0] }) (fun e b l => decide (l.cid = e.cid) && !b.closing) =
      true ∧
    (let s : State := { sceneBin push16 { launch := 20 } with
        threads := amod scene.threads 2048 fun t => { t with status := .parkedBin 0 3 false } };
      ((s.armed 3).any fun x => x.1.room x.2.rc && !(s.spilled 0 3).isEmpty) = true) ∧
    (∀ aged ∈ [none, some 0], let s := sceneBin push16 { launch := 20, recs := [recAt 0], aged := aged };
      ((s.armed 3).any fun x => s.active x.2 && !x.2.rc.det && decide (x.2.rc.age ≠ 0) && !(x.1.ready x.2.rc).isEmpty &&
        x.1.isAged x.2.rc == aged.isSome && (x.1.cause x.2.rc).isSome == aged.isSome) = true) ∧
    (∀ y ∈ [(1, true), (5, false), (9, false)], let s := sceneBins y.1;
      (s.armed 3).any (fun x => s.active x.2 && !x.2.rc.det && (x.1.cause x.2.rc).isSome &&
        ((s.arbitration 0).any fun z => !z.2.1.promoted && !z.2.2.rc.det &&
          decide (z.2.1.eligSince.getD 0 < x.1.eligSince.getD 0) &&
          decide (z.2.2.rc.promoteAfter ≤ x.2.rc.promoteAfter)) == y.2) = true) :=
  by and_intros <;> decide +kernel

theorem test_witness_BinFires :
    (let s := sceneBin push16 { launch := 20, recs := [recAt 0, recAt 1] };
      ((s.binHead 0).any fun x => (s.firing 0).isNone && s.fireCore 0 5 x.2.1 x.2.2) = true) ∧
    (let s := sceneBin push16 { launch := 20, recs := [recAt 0, recAt 1], selected := some 5 };
      ((s.firing 0).any fun x => (s.armed x.1).any fun y => match s.fireBytes y.2 (x.2.fireRecs y.2.rc).1 with
        | (some _, s1) => (aget s1.launches x.2.launch).isSome
        | _ => false) = true) ∧
    (let s := sceneBin push16 { launch := 20, closing := true };
      ((aget s.launches 20).any fun l => decide (l.rc.kind = 2) && !l.signaled && l.status.isNone && s.noCohorts 20 &&
        (s.bins.find? fun b => b.2.launch == 20).isSome) = true) :=
  by and_intros <;> decide +kernel

/-- A deterministic launch with the placed cohort, whose lanes have all settled at st, and whose token stands at its warp. -/
def sceneTok (st : TStatus) (todo : List Nat) : State := { scene with
  launches := amod scene.launches 1 fun l => { l with rc := { l.rc with det := true, kind := 2 }, token := { todo := todo } }
  threads := scene.threads.map fun t => (t.1, { t.2 with status := st, departing := t.1 % 2 == 1 }) }

/-- The next round waits for a fire that is not complete. -/
def sceneNotDue : State := { sceneTok .exited [] with bins := [(3, { launch := 1, plan := [[0]] })] }

/-- The token grants the AWAIT of lane 0, whose condition holds. -/
def tokenAwaits : Bool :=
  let s := sceneTok (.token (.await (awaitSpec .eq))) [64]
  match s.tokenLane (s.warpThreads 64) with
  | (some (tid, u, .await a), r) =>
    !u.departing && (r.envOf tid a.pers).any fun e => e.th.keep.isEmpty && e.th.lose.isEmpty && e.th.win.isEmpty &&
      match awaitRead { e with th := { e.th with status := .ready } } a (r.modThread tid fun t => { t with status := .ready }) with
      | .ok x _ => awaitCond a.w64 a.cmp x a.b
      | .error _ _ => false
  | _ => false

theorem test_witness_TokenTurns :
    (∀ x ∈ [[], [64], [3200]], (aget (sceneTok .exited x).launches 1).any fun l => l.rc.det && (sceneTok .exited x).active l &&
      decide (l.rc.kind ≠ 3) && decide (l.token.todo = x)) ∧
    (aget (sceneTok .exited []).launches 1).any (fun l => ((sceneTok .exited []).fillDue 1 l).1) = true ∧
    (aget (sceneNotDue.launches) 1).any (fun l => !(sceneNotDue.fillDue 1 l).1) = true ∧
    tokenAwaits = true ∧
    ((sceneTok .exited [3200]).cohorts.all fun c => c.1 != 100) = true ∧
    (∀ x ∈ [(TStatus.exited, 0), (.token .always, 1), (.token (.ringTake 0 0 (.rtake hd 0 (v 1))), 0)],
      let s := sceneTok x.1 [64]
      ((s.warpThreads 64).all fun u => TStatus.tokenSettled u.2.status) = true ∧
        ((s.tokenLane (s.warpThreads 64)).1.isSome == (x.2 == 1)) = true) ∧
    ((sceneTok .ready [64]).warpThreads 64).any (fun u => !TStatus.tokenSettled u.2.status) = true :=
  by and_intros <;> decide +kernel

/-! ## Residence, firmware, the hub and the platform -/

/-- The state has the invariant. -/
theorem inv_of {s : State}
    (h : (Memory.wf s.mem && Sparse.wf s.tags && rising 0 s.threads && rising 0 s.cohorts) = true) : s.Inv := by
  simp only [Bool.and_eq_true] at h
  exact ⟨h.1.1.1, h.1.1.2, h.1.2, h.2⟩

theorem test_witness_BundlesAndTurns : (∃ i core q, i = Instr.bundleForm core q) ∧ (scene.rotation.any fun r => r.1 == 0 &&
    !r.2.isEmpty) = true ∧ (scene.cands 0 0).length = 32 ∧
    (((sceneT fun t => { t with yielded := true }).cands 0 0).any fun c => c.tid == 2048) = true :=
  ⟨⟨_, 0, 0, rfl⟩, by decide +kernel, by decide +kernel, by decide +kernel⟩

/-- The cohort with a save request, whose lane 0 stands at st and whose other lanes have exited; and that cohort saved. -/
def sceneSave (st : TStatus) : State := { scene with
  cohorts := amod scene.cohorts 2 fun c => { c with pending := true }
  threads := scene.threads.map fun t => (t.1, { t.2 with status := if t.1 = 2048 then st else .exited }) }
def sceneSaved : State := { sceneSave .preWait with
  cohorts := amod scene.cohorts 2 fun c => { c with core := none, saved := true } }

/-- A safe point at the thread's PC, in a directory at 0x20000 (Table 14-7). -/
def sceneSafe : State := { sceneP pteRW with
  mem := swrite (swrite (sceneP pteRW).mem 0x20000
    (bytesOf 32 [(0, 8, 0x10000), (8, 4, 128), (12, 4, 1), (16, 8, 0x20100), (24, 8, 0x20200)])) 0x20100 (bytesOf 16 [(0, 8, 8)])
  cohorts := amod scene.cohorts 2 fun c => { c with pending := true, prevec := 0x10000 }
  ctxs := amod (sceneP pteRW).ctxs 0 fun c => { c with con := { c.con with codedir := 0x20000 } } }

/-- The cohort's request only makes room, for launch 20, whose target is core 0 and whose need is n. -/
def sceneForRoom (n : LaunchRec) : State := { sceneSave .parked with
  cohorts := amod scene.cohorts 2 fun c => { c with pending := true, forRoom := true }
  launches := aset scene.launches 20 { launch20 with rc := n, room := some (10, 0) }, walkers := [walkerAt 0 10 50] }

/-- A thread that waits at the second op of a template of n ops. -/
def splitWait (n : Nat) : Thread :=
  { status := .token .always, exp := some { pers := 1, len := 8, ops := List.replicate n (.nop hd), idx := 1 } }

theorem test_witness_SavesAndReadmissions :
    (∀ st ∈ [TStatus.preWait, .parked, .backoff], (sceneSave st).drained 2 = true ∧
      ((sceneSave st).cohThreads 2).all (fun u => TStatus.settled u.2.status) = decide (st ≠ .backoff) ∧
      ((sceneSave st).cohThreads 2).all (fun u => !TStatus.runnable u.2.status) = decide (st = .parked) ∧
      ((sceneSave st).cohThreads 2).any (fun u => TStatus.isParked u.2.status) = decide (st = .parked) ∧
      ((aget (sceneSave st).cohorts 2).any fun c => c.core.isSome && c.pending && (sceneSave st).mustLeave 2 c) = true) ∧
    (∀ x ∈ [(launch20.rc, false), ({ launch20.rc with scratch := 384 * 4096 }, true)],
      ((aget (sceneForRoom x.1).cohorts 2).any fun c => c.core == some 0 && c.pending && (sceneForRoom x.1).drained 2 &&
        (sceneForRoom x.1).mustLeave 2 c == x.2) = true) ∧
    (∀ n ∈ [1, 2], (splitWait n).waits = true ∧ ((splitWait n).exp.any fun x => decide (1 < x.ops.length)) = decide (n = 2)) ∧
    ((sceneSafe.envOf 2048 0).any fun e => match sceneSafe.safeEntry 2048 with
      | (some live, s1) => decide (live = 0x20200) && decide (aget s1.threads 2048 = some e.th)
      | _ => false) = true ∧
    ((aget sceneSaved.cohorts 2).any fun c => (aget sceneSaved.launches c.launch).any fun l =>
      sceneSaved.canReturn 2 c l && sceneSaved.readmitCore 2 5 c l) = true :=
  by and_intros <;> decide +kernel

/-- Launch 20 needs all of a core; f is what stands in its way on core 0. -/
def needAll : Launch := { launch20 with rc := { launch20.rc with scratch := 384 * 4096 } }
def sceneRoom (l : Launch) (st : TStatus) : State := { sceneSave st with
  launches := aset scene.launches 20 l, walkers := [walkerAt 0 10 50] }

/-- The launch needs a cohort that f describes. -/
def needs (s : State) (lid : Nat) (f : Launch → Nat → Need → Lowest → Bool) : Bool :=
  (aget s.launches lid).any fun l => (s.roomNeed lid l).any fun n => (s.wanted lid l).any (f l n.1 n.2)

theorem test_witness_RoomMaking :
    (∀ x ∈ [(launch20, 5, true), ({ launch20 with rc := { launch20.rc with persist := true, ncoh := 4 } }, 5, true),
      (needAll, 0, false), ({ needAll with room := some (10, 5) }, 0, false)], let s := sceneRoom x.1 .ready;
      needs s 20 (fun l i n k => decide (s.pidOfCore x.2.1 = l.pid) && !l.rc.det && l.room.all (fun r => r.1 == i) &&
        s.fits x.2.1 20 n (some i) == x.2.2 && decide (k = .fresh i)) = true) ∧
    (let s := sceneRoom { launch20 with room := some (99, 5) } .ready;
      needs s 20 (fun l i _ _ => l.room.any fun r => r.1 != i)) = true ∧
    (∀ x ∈ [(TStatus.ready, true), (.ready, false), (.parked, true), (.parked, false)],
      ∀ r ∈ [none, some (10, 0)],
      let s : State := { sceneRoom { needAll with room := r } x.1 with
        cohorts := amod scene.cohorts 2 fun c => { c with pending := x.2 } };
      needs s 20 (fun _ i n _ => (s.roomAt 0 20 i n).isSome == (x.2 || decide (x.1 = .parked)) &&
        (s.asked 0).isEmpty == !x.2) = true) ∧
    (let s := sceneRoom { needAll with room := some (10, 5) } .parked;
      needs s 20 fun _ i n _ => (s.roomAt 5 20 i n).isSome) = true ∧
    (let s : State := { sceneSaved with threads := scene.threads };
      needs s 1 fun l i n k => s.fits 5 1 n (some i) && decide (k = .cohort 2) &&
        (aget s.cohorts 2).any fun c => s.readmitCore 2 5 c l) = true ∧
    (let s := sceneBin push16 { launch := 20, recs := [recAt 0, recAt 1] };
      needs s 20 fun l i n k => decide (l.rc.kind = 2) && s.fits 5 20 n (some i) && decide (k = .fresh i)) = true ∧
    2 ∈ (sceneRoom needAll .parked).evictable 0 ∧ rising 0 (sceneRoom needAll .ready).cohorts = true := by
  and_intros <;> decide +kernel

theorem test_witness_ContextSwitches : scene.Inv ∧ scene.fetches = [] ∧ (scene.bins.all fun b => b.2.selected.isNone) = true ∧
    (aget scene.ctxs 0).any (fun c => c.scheduled) = true ∧
    (aget scene.launches 1).any (fun l => scene.active l) = true ∧
    (let s : State := { sceneSaved with ctxs := amod scene.ctxs 0 fun c => { c with scheduled := false } };
      s.partSaved 0 = true ∧ (aget s.ctxs 0).any (fun c => !c.scheduled && !c.migrated && c.held.isEmpty) = true) ∧
    (let s : State := { scene with ctxs := amod scene.ctxs 0 fun c => { c with scheduled := false } };
      s.partSaved 0 = false ∧ (aget s.ctxs 0).any (fun c => !c.scheduled && !c.migrated) = true) ∧
    1 ∈ ({ sceneSaved with launches := amod scene.launches 1 fun l => { l with preempted := true } } : State).preemptedOf 0 :=
  by
  refine ⟨inv_of ?_, ?_, ?_, ?_, ?_, ?_, ?_⟩ <;> decide +kernel

/-- A record that waits to be posted to a fault queue at an address, after n records. -/
def scenePost (fq n : Nat) : State := { sceneP pteRW with
  ctxs := amod (sceneP pteRW).ctxs 0 fun c => { c with
    con := { c.con with fqbase := BitVec.ofNat 64 fq }, posted := n
    posts := [{ kind := .notResident, info := { kind := .notResident }, parked := true, pers := 0, lane := 0, pc := 0x10008
                lanes := 1, logid := 0, tids := [2048], warp := 64, bundle := 0, page := 0x20000 }] }
  threads := amod scene.threads 2048 fun t => { t with status := .posting true } }

/-- The record of a PGREQ waits, with a request for its page outstanding or none. -/
def sceneReq (out : Bool) : State := { scenePost 0x20000 1 with
  ctxs := amod (scenePost 0x20000 1).ctxs 0 fun c => { c with
    posts := c.posts.map fun p => { p with parked := false }, requests := if out then [(0x20000, 0)] else [] } }

theorem test_witness_FaultPostsAndMemoryErrors :
    (∀ x ∈ [(0x20000, 0, some true), (0x20000, 16, some false), (0x30000, 0, none)],
      ((aget (scenePost x.1 x.2.1).ctxs 0).any fun ctx => match ctx.posts with
        | p :: _ => !(scenePost x.1 x.2.1).hub.stopped.contains ctx.pid &&
          decide ((tryAgent (scenePost x.1 x.2.1) (agentOf 0 ctx) (postM (agentOf 0 ctx) ctx 0 p)).1 = x.2.2) &&
          !(tryAgent (scenePost x.1 x.2.1) (agentOf 0 ctx) (postM (agentOf 0 ctx) ctx 0 p)).2.hub.stopped.contains ctx.pid &&
          decide (aget (tryAgent (scenePost x.1 x.2.1) (agentOf 0 ctx) (postM (agentOf 0 ctx) ctx 0 p)).2.ctxs 0 = some ctx)
        | [] => false) = true) ∧
    (∀ out ∈ [true, false], ((aget (sceneReq out).ctxs 0).any fun ctx => ctx.posts.any fun p =>
      p.kind == .notResident && !p.parked && ((sceneReq out).requested 0 ctx p.page).1 == out) = true) ∧
    (aget scene.threads 2048).isSome = true ∧
    envIs (sceneT fun t => { t with err := some (0, 0x20002) }) (fun e =>
      (sceneT fun t => { t with err := some (0, 0x20002) }).errAt e.who (rdAt 0x20000) && decide (e.who.tid = some 2048)) = true ∧
    (∀ p ∈ scene.hub.ports, p.state ≠ .down) ∧
    ((aget sceneL.threads 2048).any fun u => u.keep.isEmpty && match u.out.filter fun x => x.id == 7 with
      | [o] => o.cls == .ldc && !o.returned && o.src.find? (fun x => x.2.1 == 0x20000) == some (0, 0x20000, 0x20000)
      | _ => false) = true ∧
    ((aget (sceneY pteRW 0 0x20000).copies 7).any fun c => (aget (sceneY pteRW 0 0x20000).threads c.tid).isSome) = true := by
  and_intros <;> decide +kernel

/-- The scene with an admin ring of two entries in host memory at 0x1000, of which one is new, with an opcode in it; function
1 is a VF of the same partition. -/
def sceneAdm (opc : Nat) : State := { sceneP pteRW with
  mem := swrite (sceneP pteRW).mem (hostKey 0x1000) (bytesOf 64 [(0, 2, opc)])
  hub := { (sceneP pteRW).hub with funcs := [(0, { isPf := true, pid := 0, admBase := 0x1000, admLog := 1, admWr := 1 }),
    (1, { isPf := false, pid := 0 })] } }

/-- The scene with a queue control block at 0x20000 (Table 16-5). -/
def sceneQcb (ringlog rev : Nat) : State := { sceneP pteRW with
  mem := swrite (sceneP pteRW).mem 0x20000 (bytesOf 128 [(0, 8, 0x21000), (8, 4, ringlog), (12, 2, rev)]) }

theorem test_witness_AdminRingsAndQueueCommands :
    (∀ x ∈ [(1, true), (0x3F, false)], (aget (sceneAdm x.1).hub.funcs 0).any fun f => !f.frozen && decide (f.admBase ≠ 0) &&
      decide (f.admRd ≠ f.admWr) && f.cmd.isNone &&
      ((entryCommand 0 (((sceneAdm x.1).modFunc 0 fun f => { f with admTo := f.admWr }).firmAcquire f.view (hostKey 0x1000) 8).1).isSome
        == x.2)) ∧
    (aget (sceneAdm 1).hub.funcs 1).any (fun f => decide (f.admRd = f.admWr)) = true ∧
    (∀ x ∈ [(3, 1, false), (4, 2, true), (16, 1, true)], (aget (sceneQcb x.1 x.2.1).ctxs 0).any fun c =>
      decide ((sceneQcb x.1 x.2.1).pidOf 0 = c.pid) && !(sceneQcb x.1 x.2.1).quiescing [0] &&
        match ((sceneQcb x.1 x.2.1).agentRead (agentOf 0 c) 0x20000 128 (sceneQcb x.1 x.2.1).agentWrites).1 with
          | some b => (qcbOk b == x.2.2) && decide (field b 0xC 2 = x.2.1)
          | none => false) ∧
    (aget (sceneQ 1 0 0).hub.funcs 0).any (fun f => f.isPf && !f.frozen) = true ∧
    ((sceneQ 1 0 0).queues.find? fun q => q.2.sec == 0 && q.2.qn == 4).isSome = true :=
  by and_intros <;> decide +kernel

/-- Images of the context: one that fits partition 0, and one of a partition of two sections. -/
def imageOf (n : Nat) : Image :=
  { con := {}, feat := 0, secs := List.range n, ctx := { fn := 0, pid := 0, con := {} }, queues := [], launches := [], bins := []
    cohorts := [], warps := [], threads := [], copies := [], devq := [] }

theorem test_witness_ContextCommands :
    State.reset.hub.phase ≠ .full ∧ (({ scene with hub := { scene.hub with qReq := 1 } } : State).quiescing
      (scene.sectionsOf 0)) = true ∧
    (∀ x ∈ [(3, false), (4, true)], (descOk (bytesOf 64 [(0x30, 4, x.1 + 7 * 2 ^ 5)])
      (contractOf (bytesOf 64 [(0x30, 4, x.1 + 7 * 2 ^ 5)])) == x.2) = true) ∧
    (contractOf (bytesOf 64 [(0x30, 4, 0xE4)])).gangid = 0 ∧ aget scene.ctxs 4095 = none ∧
    (contractOf (bytesOf 64 [(0x30, 4, 0xE4), (0x34, 2, 9)])).gangid = 9 ∧
    ({ isPf := true, pid := 0, gangs := [9] } : Func).gangs.contains 9 = true ∧
    (∃ c ∈ ({ scene with ctxs := [(3, { fn := 0, pid := 0, con := { gangid := 9 } })] } : State).ctxs,
      c.2.fn = 0 ∧ c.2.con.gangid = 9) ∧
    ((aget (sceneAdm 1).hub.funcs 1).any fun f => (match (sceneAdm 1).named 1 f 0 with
      | .ok _ => false
      | .error _ => true) && (aget (sceneAdm 1).ctxs 0).all fun c => c.fn != 1) = true ∧
    ((aget scene.hub.funcs 0).any fun f => match scene.named 0 f 0 with
      | .ok c => c.scheduled && !scene.switchedOut 0 && sceneSaved.switchedOut 0
      | .error _ => false) = true ∧
    (∀ n ∈ [1, 2], ((imageOf n).secs.length == (scene.sectionsOf 0).length && scene.binsFree (imageOf n) 0) = decide (n = 1)) ∧
    (imageOf 1).con.gangid = 0 := by
  refine ⟨?_, ?_, ?_, ?_, ?_, ?_, ?_, ⟨_, List.mem_singleton.mpr rfl, rfl, rfl⟩, ?_, ?_, ?_, ?_⟩ <;> decide +kernel

/-- The thread is parked by record 0 of the context. -/
def scenePark : State := { sceneSt .parked with
  ctxs := amod scene.ctxs 0 fun c => { c with posted := 1, parked := [(0, { tids := [2048], copy := none, watch := true })] } }

/-- An expansion with a buffered store that a shootdown waits for, and a frame that is SCRUBBING. -/
def sceneAwait : State := sceneT fun t => { t with exp := some { pers := 1, len := 8, ops := [.nop hd, .nop hd], idx := 1
                                                                 stores := [{ scratch := false, key := 0x20000, bytes := [1#8]
                                                                              awaited := true }] } }
def sceneScrub : State := { scene with hub := { scene.hub with frames := aset scene.hub.frames (frameKey 0 5) (.scrubbing 0) } }

theorem test_witness_OtherOwnerCommands :
    ((aget scenePark.ctxs 0).any fun c => decide (c.recordAt 0 = some 0) && (aget c.parked 0).isSome && c.scheduled &&
      decide (c.recordAt 1 = none)) = true ∧
    ((aget scenePark.ctxs 0).any fun c => decide (({ c with scheduled := false } : Ctx).recordAt 0 = some 0)) = true ∧
    (∀ s ∈ [0, 1, 2], ({ isPf := true, pid := 0, stage := s } : Func).stage = s) ∧
    (sceneX (sceneP pteRW)).storesAwaited [0] = false ∧ sceneAwait.storesAwaited [0] = true ∧
    aget sceneScrub.hub.frames (frameKey 0 5) = some (.scrubbing 0) ∧
    (let s := sceneBin push16 { launch := 20 };
      ((s.armed 3).any fun x => x.2.status.isNone && !x.2.signaled && match s.named 0 { isPf := true, pid := 0 } x.2.cid with
        | .ok _ => true
        | .error _ => false) = true) ∧
    2 ^ 16 * (5 + 2) ≤ scene.partBytes 0 ∧ aget scene.hub.frames (frameKey 0 5) = none ∧ aget scene.hub.frames (frameKey 0 6) = none ∧
    aget scene.hub.frames (frameKey 0 0) = some (.owned 0) ∧ aget scene.hub.frames (frameKey 0 1) = some (.owned 0) ∧
    scene.pidOfCore 63 = 0 ∧ wpCtlOk 0x1E7 = true ∧ wpAligned 0x40000000 0x1E7 = true ∧
    (∀ n ∈ [0, 1], (aget (sceneAdm 1).hub.funcs n).isSome) ∧
    ((((sceneAdm 1).hub.funcs.map (·.2)).map Func.pid).Nodup ↔ False) :=
  by and_intros <;> decide +kernel

theorem test_witness_PartitionsAndQuiesce :
    (configOk scene.hub.pidReg && scene.hub.agrees scene.hub.pidReg) = true ∧
    ({ scene.hub with pidReg := 0xA0 } : Hub).agrees 0xA0 = false ∧ configOk 0xA0 = true ∧ configOk 0x00 = true ∧
    configOk 0x1B = false ∧ (changedSections scene.hub.pidNow 0xA0).any scene.sectionBusy = false ∧
    (changedSections (sceneQ 1 0 0).hub.pidNow 0xA0).any (sceneQ 1 0 0).sectionBusy = true ∧ (∀ n, n < 4 → scene.pidOf n = n) ∧
    (aget (sceneAdm 1).hub.funcs 1).any (fun f => !f.isPf && !f.frozen) = true ∧ scene.hub.qReq.getLsbD 3 = false ∧
    (sceneQ 1 0 0).sectionBusy 0 = true ∧ scene.hub.heldBells = [] ∧ scene.Inv :=
  by
  refine ⟨?_, ?_, ?_, ?_, ?_, ?_, ?_, ?_, ?_, ?_, ?_, ?_, inv_of ?_⟩ <;> decide +kernel

theorem test_witness_RegisterWrites : (aget (sceneAdm 1).hub.funcs 0).any (fun f => f.isPf && decide (f.admRd ≠ f.admWr)) = true ∧
    (aget (sceneAdm 1).hub.funcs 1).any (fun f => !f.isPf && decide (f.admRd = f.admWr)) = true ∧
    3 < scene.hub.netb.length ∧ 3 < scene.hub.ilvNlog.length ∧ 3 < scene.hub.ilvFirst.length :=
  by and_intros <;> decide +kernel

theorem test_witness_FunctionsAndSessions : (aget (sceneAdm 1).hub.funcs 1).any (fun f => !f.isPf) = true ∧
    State.reset.hub.funcs = [(0, { isPf := true, pid := 0 })] ∧ (([1, 2, 3, 4, 5, 6, 7, 8, 1] : List Nat).take 64).eraseDups.length ≤ 8 :=
  by and_intros <;> decide +kernel

theorem test_witness_LinksPowerAndStart : State.reset.hub.phase = .reduced ∧ State.reset.hub.pidReg = State.reset.hub.pidNow ∧
    (∀ p ∈ [({ state := .up, replays := 7 } : Port), { state := .up, replays := 8 }, { state := .training }],
      ({ scene.hub with ports := [p] } : Hub).ports[0]? = some p) ∧ scene.hub.powerCap < 3200001 ∧
    (aget ({ (sceneAdm 1).hub with funcs := [(0, { isPf := true, pid := 0, evaddr := 0x2000 })] } : Hub).funcs 0).any
      (fun f => decide (f.evaddr ≠ 0)) = true ∧
    (aget scene.cohorts 2).any (fun c => decide (c.core = some 0)) = true ∧ ((1 : BitVec 4).getLsbD (secOfCore 0)) = true ∧
    State.reset.hub.fwStored ≤ 1 :=
  by and_intros <;> decide +kernel

/-! ## The machine as a whole -/

/-- The state in which a word is placed. -/
def at_ (w : Nat) : State := State.placed State.reset 64 w

theorem test_witness_StepKeepsForm : (at_ 0x07F83D87).Inv ∧ (match step (at_ 0x07F83D87) with
    | .next _ => true
    | _ => false) = true := by
  refine ⟨inv_of ?_, ?_⟩ <;> decide +kernel

theorem test_witness_DecodingAndEncodingAgree :
    (∀ i ∈ [Instr.nop hd, .bfe hd .s32 (v 3) (v 4) (.long 0x0C04)], i.isEvent = false ∧ i.native = true ∧ i.wellFormed = true) ∧
    decode {} 0x8020_07F8_2018_3C0F 0x0C04 = some (.bfe hd .s32 (v 3) (v 4) (.long 0x0C04)) ∧ decode {} 0x07F8_3D87 0 = some (.nop hd) :=
  by and_intros <;> decide

/-- Before the fetch of a placed word (R51, R159). -/
def fetched (s : State) (f : Env → Option Instr → Bool) : Bool :=
  let r := State.modThread { s with issue := [] } 2048 Thread.issued
  (r.envOf 2048 0).any fun e => decide (e.th.status = .ready) && e.c.core.isSome && !e.c.saveNow && r.runs e.l &&
    !e.th.emuEntry &&
    match r.safeEntry 2048 with
      | (none, s1) => (match fetchPlace e.who e.th.pc (r.keepDraws s1) with
        | .ok p s2 => decide (pteDesc p.pte = 0) && e.th.exp.isNone &&
          match fetchNative e.who e.th.pc p ((r.keepDraws s1).keepDraws s2) with
            | .ok b _ => f e (decode {} (lineWords b (slotOf e.th.pc)).1 (lineWords b (slotOf e.th.pc)).2)
            | .error _ _ => false
        | .error _ _ => false)
      | _ => false

/-- The placed word in a context with the checking scoreboard, whose thread has a result in flight to v3 (R60). -/
def checked (w : Nat) : State := { at_ w with
  ctxs := amod (at_ w).ctxs 0 fun c => { c with con := { c.con with sbCheck := true } }
  threads := amod (at_ w).threads 2048 fun t => { t with hazards := [{ key := .r (v 3), old := 0, left := 2, pc := 0x10008 }] } }

theorem test_witness_StepRunsDecoded :
    (at_ 0x07F83D87).issue = [2048] ∧ (at_ 0x07F83D87).agenda = [] ∧ (at_ 0x07F83D87).lost = [] ∧
    fetched (at_ 0) (fun _ i => i.isNone) = true ∧
    fetched (at_ 0x0081_07F8_0A00_3E0B) (fun e i => i.any fun i => (preCheck e i).isSome) = true ∧
    fetched (at_ 0x07F83D87) (fun e i => i.any fun i => (preCheck e i).isNone && !e.ctx.con.sbCheck) = true ∧
    fetched (checked 0x0068_27F8_1810_3C0B) (fun e i => i.any fun i => (preCheck e i).isNone && (sbCheck e i).isSome) = true ∧
    fetched (checked 0x07F83D87) (fun e i => i.any fun i => (preCheck e i).isNone && (sbCheck e i).isNone) = true ∧
    ((aget (sceneX scene).threads 2048).any fun t => t.exp.any fun x => x.ops[x.idx]?.any fun i => !t.blocked i) = true ∧
    scene.agenda = [] ∧ scene.issue = [] ∧ scene.ending = [] ∧
    ({ scene with ending := [(1, stFault)] } : State).ending ≠ [] ∧ ({ scene with lost := [0] } : State).lost ≠ [] := by
  and_intros <;> decide +kernel

/-! ## Well-formedness: one term that each check refuses (R153) -/

theorem test_illFormed :
    (∀ i ∈ [Instr.iadd hd .s32 false (v 1) (v 2) (.long (2 ^ 32)), .imulh hd .n32 (v 1) (v 2) (.long (2 ^ 32)),
      .imad hd .s64 true false (v 2) (v 4) (.reg (v 6)) (v 8), .imad hd .s32 false false (v 1) (v 2) (.imm 1) (v 3),
      .shl hd .s32 (v 1) (v 2) (.long (2 ^ 32)), .shf hd false false (v 1) (v 2) (.imm 1) (v 3), .logt hd false (v 1) (v 2) (.imm 1) 0,
      .bfe hd .s64 (v 2) (v 4) (.long (2 ^ 32)), .bfi hd true (v 2) (v 4) (.imm 1) (v 6), .pswz hd (v 1) (v 2) (.imm 1) (v 3),
      .lea hd .s32 (v 2) (v 4) (.imm 1) 0, .sel hd false (v 1) (v 2) (.imm 1) 0, .moviLong hd .n32 (v 1) (2 ^ 32),
      .fadd hd .f16 .rn false (v 1) (v 2) (.long (2 ^ 16)), .ffma hd .f32 .rn false false (v 1) (v 2) (.imm 1) (v 3),
      .fmin hd .f32 (v 1) (v 2) (.imm 1), .fsetp hd .f32 .lt 1 (v 1) (.imm 1), .fclass hd .s32 (v 1) (v 2),
      .padd hd false .rn false .both (v 1) (v 2) (.imm 1), .pfma hd false .rn false false .both (v 1) (v 2) (.imm 1) (v 3),
      .pminmax hd false false .both (v 1) (v 2) (.imm 1), .cvt hd .f4 .f32 .rn false (v 1) (v 2) none,
      .cvt hd .s32 .s16 .rz false (v 1) (v 2) none, .cvt hd .s32 .f32 .rn true (v 1) (v 2) none,
      .redw hd .s32 .and false .rn (v 1) (v 2) (v 255) (v 255), .redw hd .s32 .maxidx false .rn (v 2) (v 4) (v 6) (v 255),
      .redw hd .f32 .add true .rn (v 1) (v 2) (v 255) (v 255), .redw hd .f32 .min false .rz (v 1) (v 2) (v 255) (v 255),
      .redw hd .f32 .add false .rn (v 1) (v 2) (v 3) (v 255), .ld hd .b4 true none (v 1) (v 2) (.short 0) 15,
      .ldl hd .b8 true none (v 2) (v 4) (.short 0), .atom hd true true .add .plain .warp (v 2) (v 4) (.short 0) (v 6),
      .atom hd false true .cas .plain .warp (v 1) (v 2) (.short 0) (v 4),
      .atom hd false false .add .plain .device (v 1) (v 2) (.short 0) (v 4),
      .red hd false false .exch none (v 2) (.short 0) (v 4), .red hd false false .cas none (v 2) (.short 0) (v 4),
      .backoffReg hd (v 255), .skip hd 0, .xred hd .f32 .and .tree .device (v 1) (v 2) 0, .xred hd .f32 .add .tree .cluster (v 1) (v 2) 0,
      .xred hd .n32 .add .slot .device (v 1) (v 2) 0], i.wellFormed = false) ∧
    (Instr.iadd hd .s32 false (.k 7) (v 2) (.imm 3)).native = false := by and_intros <;> decide

/-! ## Decoding: words written out from the reference entries (spec files 17 to 21) -/

theorem test_decode_alu :
    decode {} 0x0060_07F8_4828_3C17 0 = some (.mov hd false (v 5) (v 9)) ∧
    decode {} 0x0460_07F8_1810_3C17 0 = some (.movX hd (v 2) 3) ∧
    decode {} 0x002F_FFFF_F838_3C18 0 = some (.moviShort hd .s32 (v 7) 0xFF) ∧
    decode {} 0x0060_2010_0818_3C16 0 = some (.sel hd false (v 3) (v 1) (.reg (v 2)) 4) ∧
    decode {} 0x0090_0010_0818_3C50 0 = some (.padd hd false .rn false .both (v 3) (v 1) (.reg (v 2))) ∧
    decode {} 0x0480_07F8_0810_3C58 0 = some (.sfn hd .rsq .f32 (v 2) (v 1)) ∧
    decode {} 0x20B0_07F8_0810_3C60 0 = some (.cvt hd .f8e4 .f32 .rn false (v 2) (v 1) none) ∧
    decode {} 0x00D0_07F8_8140_3C61 0 = some (.qnt hd .f4 .rn (v 40) (v 16) 0) := by decide

theorem test_decode_lanes_and_matrix :
    decode {} 0x0067_FFF8_2028_3C80 0 = some (.shfl hd .abs false (v 5) (v 4) (v 255) (v 255)) ∧
    decode {} 0x0C07_FFF8_1030_3C81 0 = some (.vote hd (.mask (v 6)) 2 (v 255)) ∧
    decode {} 0x1897_F949_4160_3C82 0 = some (.redw hd .f16 .maxidx false .rn (v 44) (v 40) (v 41) (v 255)) ∧
    decode {} 0x0067_FFF8_2018_3C83 0 = some (.matchOp hd false false (v 3) (v 4) (v 255)) ∧
    decode {} 0x0007_FFFF_F808_3C84 0 = some (.elane hd (.pred 1) (v 255)) ∧
    decode {} 0x0007_FFF8_4000_3D40 0 = some (.mmap hd 0 (v 8) (v 255)) ∧
    decode {} 0x0007_FFF8_4040_3D41 0 = some (.mmal hd 8 (v 8) (v 255)) := by decide

theorem test_decode_memory_and_sync :
    decode {} 0x0000_0048_47F8_3CCB 0 = some (.sflush hd (v 8) (v 9)) ∧
    decode {} 0x0000_0048_47F8_3CCC 0 = some (.sinv hd (v 8) (v 9)) ∧
    decode {} 0x0280_0030_27F8_3CCD 0 = some (.cflush hd .device (v 4) (v 6)) ∧
    decode {} 0x0000_0030_27F8_3CD1 0 = some (.tagst hd (v 4) (.short 0) (v 6)) ∧
    decode {} 0x0008_07FF_FFF8_3D00 0 = some (.waitc hd .cpy 0) ∧
    decode {} 0x0028_07FF_FFF8_3D01 0 = some (.fence hd .device) ∧
    decode {} 0x0020_07FF_FFF8_3D02 0 = some (.bar hd .cohort false 0 (v 255)) ∧
    decode {} 0x0000_0FF8_4FF8_3D06 0 = some (.rpost hd 1 (v 9)) ∧
    decode {} 0x0000_0FFF_F848_3D07 0 = some (.rtake hd 1 (v 9)) := by decide

theorem test_decode_control_and_system :
    decode {} 0x0028_0000_07F8_3D88 0 = some (.trap hd 5) ∧ decode {} 0x07F8_3D87 0 = some (.nop hd) ∧
    decode {} 0x0000_07F8_1FF8_3DC0 0 = some (.fetchw hd (v 3)) ∧
    decode {} 0x0000_07FF_F820_3E00 0 = some (.rdsys hd false 0 (v 4)) ∧
    decode {} 0x0080_4FFF_F830_3E00 0 = some (.rdsys hd true 9 (v 6)) ∧
    decode {} 0x0008_17F8_27F8_3E01 0 = some (.wrsys hd false 0x102 (v 4)) ∧
    decode {} 0x0000_17F8_2FF8_3E02 0 = some (.setctl hd 2 (v 5)) ∧
    decode {} 0x0000_07FF_F810_3E04 0 = some (.feat hd (v 2)) ∧
    decode {} 0x0000_0030_27F8_3E05 0 = some (.watch hd 0 (v 4) (v 6)) ∧
    decode {} 0x0000_07FF_FFF8_3E07 0 = some (.tret hd) ∧
    decode {} 0x0081_07F8_0808_3E0B 0 = some (.walu hd .add 1 1 (.imm 32)) ∧ decode {} 0 0 = none := by decide

/-! ## One step, with results from the rules of the spec -/

/-- The state after i satisfies f. -/
def after (s : State) (i : Instr) (f : State → Thread → Bool) : Bool :=
  match exec i s with
  | .next t => (aget t.threads 2048).any (f t)
  | _ => false

/-- R423: a saturating sum above the range is the greatest value, with SAT; R377: BFE.s32 of 12 bits from bit 4. -/
theorem test_exec_integer :
    after (sceneT fun t => { t with regs := [(1, 0x7FFFFFFF)] }) (.iadd hd .s32 true (v 1) (v 1) (.imm 1))
      (fun _ t => t.rd (v 1) == 0x7FFFFFFF && t.flags == flagSAT) = true ∧
    after (sceneT fun t => { t with regs := [(4, 0x8000)] }) (.bfe hd .s32 (v 3) (v 4) (.long 0x0C04))
      (fun _ t => t.rd (v 3) == 0xFFFFF800) = true := by and_intros <;> decide +kernel

/-- R488: a shift by more than the width gives 0 for .n and the sign for .s. -/
theorem test_exec_shift :
    after (sceneT fun t => { t with regs := [(1, 0x80000001)] }) (.shl hd .n32 (v 2) (v 1) (.imm 255))
      (fun _ t => t.rd (v 2) == 0) = true ∧
    after (sceneT fun t => { t with regs := [(1, 0x80000001)] }) (.shr hd .s32 (v 2) (v 1) (.imm 33))
      (fun _ t => t.rd (v 2) == 0xFFFFFFFF) = true := by and_intros <;> decide +kernel

/-- 1.5 + 1.5 = 3.0 exactly, without a flag; 1.0 / 0 is not asked: the sum of infinities of opposite sign is NaN with NV. -/
theorem test_exec_float :
    after sceneN (.fadd hd .f32 .rn false (v 5) (v 3) (.reg (v 3))) (fun _ t => t.rd (v 5) == 0x40400000 && t.flags == 0) = true ∧
    after (sceneT fun t => { t with regs := [(1, 0x7F800000)] }) (.fadd hd .f32 .rn true (v 5) (v 1) (.reg (v 1)))
      (fun _ t => nanCode .f32 (t.rd (v 5)).toNat && t.flags == flagNV) = true := by and_intros <;> decide +kernel

/-- R4, R497: a store writes its bytes, least significant first; R359: RED.add adds to them. -/
theorem test_exec_memory :
    after (sceneP pteRW) (.st hd .b4 none (v 4) (.short 1) (v 6)) (fun s _ => sread s.mem 0x20003 6 == [0, 0, 0, 3, 0, 0]) = true ∧
    after (sceneP pteRW) (.red hd false false .add none (v 4) (.short 0) (v 9)) (fun s _ => sread s.mem 0x20000 4 == [0x80, 0, 0, 0])
      = true := by and_intros <;> decide +kernel

/-- R282: a load through a page that is not mapped ends in a record for the fault queue, and the thread waits. -/
theorem test_exec_unmapped :
    after (sceneP pteRW) (.ld hd .b4 false none (v 1) (v 6) (.short 0) 15) (fun s t => t.status == .posting true &&
      (aget s.ctxs 0).any fun c => c.posts.any fun p => p.kind == .unmapped && p.info.addr == 0x30000) = true := by decide +kernel

/-- R298, R47: TRAP without a user handler ends the launch with FAULT, and its cohorts are gone. -/
theorem test_exec_trap : (match exec (.trap hd 5) scene with
    | .next s => (aget s.launches 1).any (fun l => l.status == some stFault) && s.cohorts.isEmpty
    | _ => false) = true := by decide +kernel

/-- R391, R63: CALL goes to slot 1 of the entry line and pushes the PC after it; R404: EXIT ends a thread. -/
theorem test_exec_call_exit :
    after sceneE1 (.callLong hd 0x10000) (fun _ t => t.pc == 0x10008 && t.stack == [0x10018]) = true ∧
    after scene (.exit hd) (fun _ t => t.status == .exiting) = true := by and_intros <;> decide +kernel

/-- Big-endian bytes of a number. -/
def bigEndian (n k : Nat) : List Nat := (List.range k).map fun i => n / 256 ^ (k - 1 - i) % 256

/-- FIPS 197, C.3: the inverse cipher of AES-256. -/
theorem test_aes_block :
    aesDecrypt (roundKeys (List.range 32)) (bigEndian 0x8EA2B7CA516745BFEAFC49904B496089 16) = (List.range 16).map (17 * ·) := by
  decide +kernel

/-- IEEE 1619, vector 10: the first two blocks of data unit 255. -/
theorem test_aes_xts :
    xtsDecrypt (bigEndian 0x27182818284590452353602874713526624977572470936999595749669676273141592653589793238462643383279502884197169399375105820974944592 64) 255
      ((bigEndian 0x1C3B3A102F770386E4836C99E370CF9BEA00803F5E482357A4AE12D414A3E63B 32).map (BitVec.ofNat 8)) =
      (List.range 32).map (BitVec.ofNat 8) := by
  decide +kernel

/-- Table 21-2: √2 lies between 0x3FB504F3 and its successor, log2 1.5 at 0x3F15C01A.4, and log2 3 at 0x3E57 in FP16; the
results may lie 2 ulp, 4 units of 2^−24, and 1 ulp away. -/
theorem test_sfn_bounds :
    sfnRange .ex2 .f32 false 1 (-1) = (0x3FB504F2, 0x3FB504F5) ∧
    sfnRange .lg2 .f32 false 3 (-1) = (0x3F15C017, 0x3F15C01E) ∧
    sfnRange .lg2 .f16 false 3 0 = (0x3E57, 0x3E58) := by
  decide +kernel

/-- One step of a placed word: MOVI.s32 v7, -1 writes v7, and the PC goes to the next slot. -/
theorem test_step_movi : (match step (at_ 0x002F_FFFF_F838_3C18) with
    | .next s => (aget s.threads 2048).any fun t => t.rd (v 7) == 0xFFFFFFFF && t.pc == 0x10010
    | _ => false) = true := by decide +kernel

end Sys2Proof.Tests
end

section
/-! SUPPORT. The state after reset has the values of Table 16-6 and R345 and is in its canonical form. -/

namespace Sys2Proof.Machine

/-- Table 16-6: the Reset value 0xE4 of PID puts each section in the partition of its own number. -/
theorem State.pidOf_reset : ∀ n, n < 4 → State.reset.pidOf n = n := by decide

/-- Table 16-6: after reset a section's network mask holds the section alone. -/
theorem State.netb_reset : ∀ n, n < 4 → State.reset.hub.netb[n]? = some (secBit n) := by decide

/-- Table 16-6: after reset no section interleaves. -/
theorem State.ilv_reset :
    ∀ n, n < 4 → State.reset.hub.ilvNlog[n]? = some 0 ∧ State.reset.hub.ilvFirst[n]? = some 0 := by decide

/-- R345: after reset every port trains. -/
theorem State.port_reset : ∀ n, n < 16 → (State.reset.port n).state = .training := by decide

/-- After reset no byte, tag, thread or cohort is listed, so each of these tables is in its canonical form. -/
theorem State.inv_reset : State.reset.Inv := { mem := rfl, tags := rfl, threads := rfl, cohorts := rfl }

/-- Settles O56: the tables of State.Inv are empty after reset. -/
theorem resetKeepsForm : Obligations.ResetKeepsForm := State.inv_reset

/-- Settles O55: no table lists anything, no byte or tag is listed, and the registers hold their Reset values. -/
theorem resetState : Obligations.ResetState := by
  unfold Obligations.ResetState
  intro s
  refine ⟨rfl, rfl, rfl, rfl, rfl, rfl, rfl, rfl, rfl, rfl, rfl, rfl, rfl, rfl, rfl, rfl, ?mem, ?tags, rfl, rfl, ?pid,
    rfl, rfl, rfl, rfl, rfl, rfl, rfl, ?netb, ?ilv, rfl, rfl, rfl, rfl, ?ports⟩
  case mem => exact sget_nil
  case tags => exact sget_nil
  case pid => exact State.pidOf_reset
  case netb => exact State.netb_reset
  case ilv => exact State.ilv_reset
  case ports => exact State.port_reset

end Sys2Proof.Machine
end

section
/-! SUPPORT. Register reads and writes (R7, R9): the bits of a number that is put together from fields, what a read
of each register returns, and what a write of each register does. -/

namespace Sys2Proof.Machine

/-! ## Bits of a number put together from fields -/

theorem testBit_fieldAt_zero (v n k : Nat) : (fieldAt v 0 n).testBit k = if k < n then v.testBit k else false := by
  by_cases h : k < n <;> simp [fieldAt, h]

theorem flagAt_eq_fieldAt (b : Bool) (lo : Nat) : flagAt b lo = fieldAt b.toNat lo 1 := by
  cases b <;> simp [flagAt, fieldAt]

theorem add_fieldAt_lt {x lo : Nat} (hx : x < 2 ^ lo) (v n : Nat) : x + fieldAt v lo n < 2 ^ (lo + n) := by
  have hv : v % 2 ^ n + 1 ≤ 2 ^ n := Nat.mod_lt v (Nat.two_pow_pos n)
  calc x + fieldAt v lo n < (v % 2 ^ n + 1) * 2 ^ lo := by rw [fieldAt, Nat.add_one_mul]; omega
    _ ≤ 2 ^ n * 2 ^ lo := Nat.mul_le_mul_right _ hv
    _ = 2 ^ (lo + n) := by rw [Nat.pow_add, Nat.mul_comm]

theorem add_flagAt_lt {x lo : Nat} (hx : x < 2 ^ lo) (b : Bool) : x + flagAt b lo < 2 ^ (lo + 1) := by
  rw [flagAt_eq_fieldAt]
  exact add_fieldAt_lt hx b.toNat 1

theorem flagAt_zero_lt (b : Bool) : flagAt b 0 < 2 ^ 1 := by cases b <;> decide

theorem testBit_flagAt_zero (b : Bool) (k : Nat) : (flagAt b 0).testBit k = if k = 0 then b else false := by
  rw [flagAt_eq_fieldAt, testBit_fieldAt_zero]
  cases b <;> by_cases h : k = 0 <;> simp [h]

/-- A field above a number is read back from its bits, and the bits below are the number's. -/
theorem testBit_add_fieldAt {x lo : Nat} (hx : x < 2 ^ lo) (v n k : Nat) :
    (x + fieldAt v lo n).testBit k =
      if k < lo then x.testBit k else if k < lo + n then v.testBit (k - lo) else false := by
  rw [fieldAt, Nat.add_comm, Nat.mul_comm, Nat.testBit_two_pow_mul_add _ hx, Nat.testBit_mod_two_pow]
  split_ifs
  · rfl
  · rw [decide_eq_true (by omega), Bool.true_and]
  · rw [decide_eq_false (by omega), Bool.false_and]

/-- A flag above a number is read back from its bit, and the bits below are the number's. -/
theorem testBit_add_flagAt {x lo : Nat} (hx : x < 2 ^ lo) (b : Bool) (k : Nat) :
    (x + flagAt b lo).testBit k = if k < lo then x.testBit k else if k = lo then b else false := by
  rw [flagAt_eq_fieldAt, testBit_add_fieldAt hx]
  by_cases h : k = lo
  · cases b <;> simp [h]
  · rw [if_neg h]
    split_ifs
    · rfl
    · omega
    · rfl

/-! ## What a read returns -/

theorem getLsbD_ofNat_64 {k : Nat} (hk : k < 64) (x : Nat) : (BitVec.ofNat 64 x).getLsbD k = x.testBit k := by
  rw [BitVec.getLsbD_ofNat, decide_eq_true hk, Bool.true_and]

theorem State.getLsbD_readReg_hubPartcfg (s : State) {k : Nat} (hk : k < 64) :
    (s.readReg .hubPartcfg).getLsbD k = if k < 8 then s.hub.pidReg.getLsbD k else if k = 8 then s.hub.commit
      else if k = 9 then s.hub.busy else if k = 10 then s.hub.badcfg else false := by
  have pid := s.hub.pidReg.isLt
  have commit := add_flagAt_lt pid s.hub.commit
  have busy := add_flagAt_lt commit s.hub.busy
  rw [readReg, getLsbD_ofNat_64 hk, Hub.partcfg, testBit_add_flagAt busy, testBit_add_flagAt commit,
    testBit_add_flagAt pid, BitVec.testBit_toNat]
  grind

theorem State.getLsbD_readReg_hubShoot (s : State) {k : Nat} (hk : k < 64) :
    (s.readReg .hubShoot).getLsbD k = if k < 12 then s.hub.shCid.getLsbD k else if k = 12 then s.hub.shAll
      else if k < 17 then s.hub.shSecs.getLsbD (k - 13) else if k = 30 then s.hub.shDone
      else if k = 31 then s.hub.shGo else false := by
  have cid := s.hub.shCid.isLt
  have all := add_flagAt_lt cid s.hub.shAll
  have secs := add_fieldAt_lt all s.hub.shSecs.toNat 4
  have low := Nat.lt_trans secs (Nat.pow_lt_pow_right (by decide) (show 12 + 1 + 4 < 30 by decide))
  have done := add_flagAt_lt low s.hub.shDone
  rw [readReg, getLsbD_ofNat_64 hk, Hub.shoot, testBit_add_flagAt done, testBit_add_flagAt low,
    testBit_add_fieldAt all, testBit_add_flagAt cid, BitVec.testBit_toNat, BitVec.testBit_toNat]
  grind

theorem State.getLsbD_readReg_secQctl (s : State) (n : Nat) {k : Nat} (hk : k < 64) :
    (s.readReg (.secQctl n)).getLsbD k = if k = 0 then s.hub.qReq.getLsbD n else if k = 1 then s.hub.qDone.getLsbD n
      else if k = 2 then s.hub.qRefused.getLsbD n else false := by
  have req := flagAt_zero_lt (s.hub.qReq.getLsbD n)
  have done := add_flagAt_lt req (s.hub.qDone.getLsbD n)
  rw [readReg, getLsbD_ofNat_64 hk, testBit_add_flagAt done, testBit_add_flagAt req, testBit_flagAt_zero]
  grind

theorem State.getLsbD_readReg_secIlv (s : State) (n : Nat) {k : Nat} (hk : k < 64) :
    (s.readReg (.secIlv n)).getLsbD k = if k < 2 then (s.hub.ilvNlog.getD n 0).getLsbD k
      else if k < 6 then (s.hub.ilvFirst.getD n 0).getLsbD (k - 2) else false := by
  rw [readReg, getLsbD_ofNat_64 hk, testBit_add_fieldAt (BitVec.isLt _), BitVec.testBit_toNat, BitVec.testBit_toNat]

theorem State.getLsbD_readReg_secNetb (s : State) (n : Nat) {k : Nat} (hk : k < 64) :
    (s.readReg (.secNetb n)).getLsbD k = if k < 4 then (s.hub.netb.getD n 0).getLsbD k else false := by
  rw [readReg, getLsbD_ofNat_64 hk, BitVec.testBit_toNat]
  split
  · rfl
  · exact BitVec.getLsbD_of_ge _ _ (by omega)

theorem State.readReg_admBase {s : State} {fn : Nat} {f : Func} (hf : aget s.hub.funcs fn = some f) :
    s.readReg (.admBase fn) = f.admBase := by
  simp [readReg, hf]

theorem State.getLsbD_readReg_admEvaddr {s : State} {fn : Nat} {f : Func} (hf : aget s.hub.funcs fn = some f)
    (k : Nat) : (s.readReg (.admEvaddr fn)).getLsbD k = if f.isPf then f.evaddr.getLsbD k else false := by
  cases h : f.isPf <;> simp [readReg, hf, h]

theorem State.getLsbD_readReg_admLog {s : State} {fn k : Nat} {f : Func} (hf : aget s.hub.funcs fn = some f)
    (hk : k < 64) : (s.readReg (.admLog fn)).getLsbD k = if k < 4 then f.admLog.testBit k else false := by
  simp only [readReg, hf, Option.map_some, Option.getD_some, getLsbD_ofNat_64 hk, testBit_fieldAt_zero]

theorem State.getLsbD_readReg_admWridx {s : State} {fn k : Nat} {f : Func} (hf : aget s.hub.funcs fn = some f)
    (hk : k < 64) : (s.readReg (.admWridx fn)).getLsbD k = if k < 32 then f.admWr.testBit k else false := by
  simp only [readReg, hf, Option.map_some, Option.getD_some, getLsbD_ofNat_64 hk, testBit_fieldAt_zero]

theorem State.getLsbD_readReg_admRdidx {s : State} {fn k : Nat} {f : Func} (hf : aget s.hub.funcs fn = some f)
    (hk : k < 64) : (s.readReg (.admRdidx fn)).getLsbD k = if k < 32 then f.admRd.testBit k else false := by
  simp only [readReg, hf, Option.map_some, Option.getD_some, getLsbD_ofNat_64 hk, testBit_fieldAt_zero]

/-- Table 16-10: the doorbells are write-only. -/
theorem State.getLsbD_readReg_admDb (s : State) (fn k : Nat) : (s.readReg (.admDb fn)).getLsbD k = false :=
  BitVec.getLsbD_zero

theorem State.getLsbD_readReg_qdb (s : State) (fn k sec : Nat) : (s.readReg (.qdb fn sec)).getLsbD k = false :=
  BitVec.getLsbD_zero

/-! ## What a write does -/

theorem exec_registerWrite (r : DevReg) (v : Dword) (s : State) :
    exec (.registerWrite r v) s = .next (s.writeReg r v) := rfl

/-- HUB_PARTCFG: PID takes its bits; COMMIT, where it is written as 1, reads 1 as BUSY does and starts the commit. -/
theorem State.writeReg_hubPartcfg (s : State) (v : Dword) : s.writeReg .hubPartcfg v = { s with
    hub := { s.hub with
      pidReg := v.extractLsb' 0 8, commit := s.hub.commit || v.getLsbD 8, busy := s.hub.busy || v.getLsbD 8 }
    agenda := if v.getLsbD 8 then .partcfgCommit :: s.agenda else s.agenda } := by
  have pid : v.setWidth 8 = v.extractLsb' 0 8 := BitVec.setWidth_eq_extractLsb' (by decide)
  rw [writeReg, writePartcfg, pid]
  cases v.getLsbD 8 <;> simp only [first, Bool.or_false, Bool.or_true, if_true, if_false, Bool.false_eq_true]

/-- HUB_SHOOT: CID, ALL and SECS take their bits; GO, where it is written as 1, reads 1 with DONE at 0 and starts the
shootdown. -/
theorem State.writeReg_hubShoot (s : State) (v : Dword) : s.writeReg .hubShoot v = { s with
    hub := { s.hub with
      shCid := v.extractLsb' 0 12, shAll := v.getLsbD 12, shSecs := v.extractLsb' 13 4
      shDone := s.hub.shDone && !v.getLsbD 31, shGo := s.hub.shGo || v.getLsbD 31 }
    agenda := if v.getLsbD 31 then .hubShootGo :: s.agenda else s.agenda } := by
  have cid : v.setWidth 12 = v.extractLsb' 0 12 := BitVec.setWidth_eq_extractLsb' (by decide)
  rw [writeReg, writeShoot, cid]
  cases v.getLsbD 31 <;>
    simp only [first, Bool.or_false, Bool.or_true, Bool.not_false, Bool.not_true, Bool.and_true, Bool.and_false,
      if_true, if_false, Bool.false_eq_true]

/-- SEC_QCTL: a change of REQ requests or releases the quiesce; DONE and REFUSED are read-only. -/
theorem State.writeReg_secQctl {n : Nat} (hn : n < 4) (s : State) (v : Dword) :
    s.writeReg (.secQctl n) v = if v.getLsbD 0 = s.hub.qReq.getLsbD n then s
      else { s with agenda := (if v.getLsbD 0 then .quiesceRequest n else .quiesceRelease n) :: s.agenda } := by
  simp [writeReg, first, Nat.not_le.mpr hn]

theorem getElem?_setAt_same {α : Type} {l : List α} {n : Nat} (hn : n < l.length) (v : α) :
    (setAt l n v)[n]? = some v := List.getElem?_set_self hn

theorem getElem?_setAt_other {α : Type} {n m : Nat} (h : m ≠ n) (l : List α) (v : α) : (setAt l n v)[m]? = l[m]? :=
  List.getElem?_set_ne h.symm

/-- SEC_ILV: NLOG and FIRST take their bits. -/
theorem State.writeReg_secIlv (s : State) (n : Nat) (v : Dword) : s.writeReg (.secIlv n) v = { s with
    hub := { s.hub with
      ilvNlog := setAt s.hub.ilvNlog n (v.extractLsb' 0 2)
      ilvFirst := setAt s.hub.ilvFirst n (v.extractLsb' 2 4) } } := by
  rw [writeReg, BitVec.setWidth_eq_extractLsb' (by decide)]

/-- SEC_NETB: its one field takes its bits. -/
theorem State.writeReg_secNetb (s : State) (n : Nat) (v : Dword) : s.writeReg (.secNetb n) v = { s with
    hub := { s.hub with netb := setAt s.hub.netb n (v.extractLsb' 0 4) } } := by
  rw [writeReg, BitVec.setWidth_eq_extractLsb' (by decide)]

theorem State.aget_funcs_modFunc {s : State} {fn : Nat} {f : Func} (hf : aget s.hub.funcs fn = some f)
    (g : Func → Func) : aget (s.modFunc fn g).hub.funcs fn = some (g f) := by
  rw [modFunc, aget_amod_same, hf, Option.map_some]

/-- R328: ADM_LOG takes its bits only where ADM_RDIDX = ADM_WRIDX. -/
theorem State.aget_funcs_writeReg_admLog {s : State} {fn : Nat} {f : Func} (hf : aget s.hub.funcs fn = some f)
    (v : Dword) : aget (s.writeReg (.admLog fn) v).hub.funcs fn =
      some (if f.admRd = f.admWr then { f with admLog := v.toNat % 16 } else f) := by
  rw [writeReg, aget_funcs_modFunc hf, BitVec.toNat_setWidth]
  simp only [eq_comm]

theorem State.aget_funcs_writeReg_admWridx {s : State} {fn : Nat} {f : Func} (hf : aget s.hub.funcs fn = some f)
    (v : Dword) : aget (s.writeReg (.admWridx fn) v).hub.funcs fn = some { f with admWr := v.toNat % 2 ^ 32 } := by
  rw [writeReg, aget_funcs_modFunc hf, BitVec.toNat_setWidth]

/-- ADM_EVADDR is the PF's alone. -/
theorem State.aget_funcs_writeReg_admEvaddr {s : State} {fn : Nat} {f : Func} (hf : aget s.hub.funcs fn = some f)
    (v : Dword) : aget (s.writeReg (.admEvaddr fn) v).hub.funcs fn =
      some (if f.isPf then { f with evaddr := v } else f) := by
  rw [writeReg, aget_funcs_modFunc hf]

/-! ## The statement -/

/-- Settles O52: the reads bit by bit, the writes register by register. -/
theorem registerWrites : Obligations.RegisterWrites := by
  unfold Obligations.RegisterWrites
  refine ⟨fun s k hk => ?reads, fun v s => ⟨?partcfg, fun n hn => ?qctl, fun n hlog hfirst => ?ilv,
    fun n hn => ?netb, ?shoot, fun fn => ?base, fun fn f hf => ?ring, fun fn sec => ?qdb⟩⟩
  case reads =>
    intro bit
    exact ⟨s.getLsbD_readReg_hubPartcfg hk, s.getLsbD_readReg_hubShoot hk,
      fun n _ => ⟨s.getLsbD_readReg_secQctl n hk, s.getLsbD_readReg_secIlv n hk, s.getLsbD_readReg_secNetb n hk⟩,
      fun fn f hf => ⟨congrArg (·.getLsbD k) (State.readReg_admBase hf), State.getLsbD_readReg_admLog hf hk,
        State.getLsbD_readReg_admWridx hf hk, State.getLsbD_readReg_admRdidx hf hk,
        State.getLsbD_readReg_admEvaddr hf k, s.getLsbD_readReg_admDb fn k, s.getLsbD_readReg_qdb fn k⟩⟩
  case partcfg => exact ⟨_, (exec_registerWrite ..).trans (by rw [State.writeReg_hubPartcfg]), rfl, rfl⟩
  case shoot => exact ⟨_, (exec_registerWrite ..).trans (by rw [State.writeReg_hubShoot]), rfl, rfl⟩
  case qctl => exact (exec_registerWrite ..).trans (by rw [State.writeReg_secQctl hn])
  case ilv =>
    exact ⟨_, (exec_registerWrite ..).trans (by rw [State.writeReg_secIlv]), getElem?_setAt_same hlog _,
      getElem?_setAt_same hfirst _, fun m hm => ⟨getElem?_setAt_other hm .., getElem?_setAt_other hm ..⟩, rfl⟩
  case netb =>
    exact ⟨_, (exec_registerWrite ..).trans (by rw [State.writeReg_secNetb]), getElem?_setAt_same hn _,
      fun m hm => getElem?_setAt_other hm .., rfl⟩
  case base => exact exec_registerWrite ..
  case ring =>
    exact ⟨⟨_, exec_registerWrite .., State.aget_funcs_writeReg_admLog hf v⟩,
      ⟨_, exec_registerWrite .., State.aget_funcs_writeReg_admWridx hf v⟩,
      ⟨_, exec_registerWrite .., State.aget_funcs_writeReg_admEvaddr hf v⟩,
      exec_registerWrite .., exec_registerWrite ..⟩
  case qdb => exact exec_registerWrite ..

end Sys2Proof.Machine
end

section
/-! SUPPORT. More laws of records under keys: maps over the entries, removal, and updates of a range of keys. -/

namespace Sys2Proof.Machine

theorem mem_of_aget {α : Type} {m : Assoc α} {k : Nat} {v : α} (h : aget m k = some v) : (k, v) ∈ m := by
  induction m with
  | nil => cases h
  | cons e t ih =>
    rw [aget] at h
    split at h
    · next he => cases h; rw [← he]; exact List.mem_cons_self
    · exact List.mem_cons_of_mem _ (ih h)

theorem aget_isSome_of_mem {α : Type} {m : Assoc α} {e : Nat × α} (h : e ∈ m) : (aget m e.1).isSome = true := by
  induction m with
  | nil => cases h
  | cons f t ih =>
    rw [aget]
    split
    · rfl
    · next hne =>
      rcases List.mem_cons.mp h with rfl | h
      · exact absurd rfl hne
      · exact ih h

/-- In the canonical form every entry is the one under its key. -/
theorem aget_of_mem {α : Type} {m : Assoc α} {lo : Nat} {e : Nat × α} (r : rising lo m = true) (h : e ∈ m) :
    aget m e.1 = some e.2 := by
  induction m generalizing lo with
  | nil => cases h
  | cons f t ih =>
    simp only [rising, Bool.and_eq_true, decide_eq_true_eq] at r
    rcases List.mem_cons.mp h with rfl | h
    · rw [aget, if_pos rfl]
    · have hlt : f.1 < e.1 := by
        by_contra hn
        have := aget_isSome_of_mem h
        rw [aget_below r.2 (by omega)] at this
        cases this
      rw [aget, if_neg (by omega), ih r.2 h]

/-- A map over the entries that keeps their keys. -/
theorem aget_map {α β : Type} (m : Assoc α) (g : Nat × α → Nat × β) (hg : ∀ e, (g e).1 = e.1) (k : Nat) :
    aget (m.map g) k = (aget m k).map fun v => (g (k, v)).2 := by
  induction m with
  | nil => rfl
  | cons e t ih =>
    rw [List.map_cons, aget, aget, hg, ih]
    split
    · next he => rw [← he]; rfl
    · rfl

/-- A map over the values. -/
theorem aget_mapVal {α β : Type} (m : Assoc α) (f : α → β) (k : Nat) :
    aget (m.map fun e => (e.1, f e.2)) k = (aget m k).map f :=
  aget_map m (fun e => (e.1, f e.2)) (fun _ => rfl) k

/-- A map over the values of some entries. -/
theorem aget_mapIf {α : Type} (m : Assoc α) (p : Nat × α → Prop) [DecidablePred p] (f : α → α) (k : Nat) :
    aget (m.map fun e => if p e then (e.1, f e.2) else e) k = (aget m k).map fun v => if p (k, v) then f v else v := by
  rw [aget_map]
  · congr 1
    funext v
    split <;> rfl
  · intro e
    split <;> rfl

/-- A record after one under some key has changed. -/
theorem aget_amod {α : Type} (m : Assoc α) (j k : Nat) (f : α → α) :
    aget (amod m k f) j = (aget m j).map fun v => if j = k then f v else v := by
  by_cases h : j = k
  · subst h
    simp only [aget_amod_same, if_true]
  · simp only [aget_amod_other m f h, if_neg h, Option.map_id']

/-- What is left where entries are removed by their keys. -/
theorem aget_filter {α : Type} (m : Assoc α) (p : Nat → Bool) (k : Nat) :
    aget (m.filter fun e => p e.1) k = if p k then aget m k else none := by
  induction m with
  | nil => simp
  | cons e t ih =>
    by_cases he : e.1 = k
    · subst he
      cases hp : p e.1 <;> simp [hp, aget, ih]
    · cases hp : p e.1 <;> simp [hp, aget, ih, he]

theorem aget_adel_same {α : Type} (m : Assoc α) (k : Nat) : aget (adel m k) k = none := by
  rw [adel, aget_filter m (· != k)]
  simp

theorem aget_adel_other {α : Type} (m : Assoc α) {j k : Nat} (h : j ≠ k) : aget (adel m k) j = aget m j := by
  rw [adel, aget_filter m (· != k)]
  simp [h]

/-- The records of n keys from b on are changed. -/
theorem aget_foldl_amod {α : Type} (m : Assoc α) (b n : Nat) (f : Nat → α → α) (k : Nat) :
    aget ((List.range n).foldl (fun m w => amod m (b + w) (f w)) m) k =
      (aget m k).map fun v => if b ≤ k ∧ k < b + n then f (k - b) v else v := by
  induction n with
  | zero =>
    have h : ¬ (b ≤ k ∧ k < b + 0) := by omega
    simp only [if_neg h, Option.map_id']
    rfl
  | succ n ih =>
    rw [List.range_succ, List.foldl_append, List.foldl_cons, List.foldl_nil, aget_amod, ih, Option.map_map]
    congr 1
    funext v
    rcases Nat.lt_trichotomy k (b + n) with h | h | h
    · simp only [Function.comp, if_neg (show ¬ k = b + n by omega), show (k < b + (n + 1)) = (k < b + n) from
        propext ⟨fun _ => h, fun _ => by omega⟩]
    · subst h
      simp
    · simp only [Function.comp, if_neg (show ¬ k = b + n by omega), if_neg (show ¬ (b ≤ k ∧ k < b + n) by omega),
        if_neg (show ¬ (b ≤ k ∧ k < b + (n + 1)) by omega)]

/-- Records are put under n keys from b on. -/
theorem aget_foldl_aset {α : Type} (m : Assoc α) (b n : Nat) (f : Nat → α) (k : Nat) :
    aget ((List.range n).foldl (fun m w => aset m (b + w) (f w)) m) k =
      if b ≤ k ∧ k < b + n then some (f (k - b)) else aget m k := by
  induction n with
  | zero => rw [if_neg (by omega)]; rfl
  | succ n ih =>
    rw [List.range_succ, List.foldl_append, List.foldl_cons, List.foldl_nil]
    by_cases h : k = b + n
    · subst h
      rw [aget_aset_same, if_pos (by omega), Nat.add_sub_cancel_left]
    · rw [aget_aset_other _ _ h, ih]
      by_cases h2 : b ≤ k ∧ k < b + n
      · rw [if_pos h2, if_pos (by omega)]
      · rw [if_neg h2, if_neg (by omega)]

end Sys2Proof.Machine
end

section
/-! SUPPORT. What a step does (R40, R51, R159): its parts in their order, the issue of a thread that is free to go on, and
the choice among internal events. -/

namespace Sys2Proof.Machine

/-! ## The parts of a step -/

theorem step_of_lost {s : State} (hl : s.lost ≠ []) : step s = .next s.stopLost := by
  have h : (!s.lost.isEmpty) = true := by simpa using hl
  rw [step, State.turn, if_pos h]

theorem step_of_agenda {s : State} {i : Instr} {rest : List Instr} (hl : s.lost = []) (ha : s.agenda = i :: rest) :
    step s = exec i { s with agenda := rest } := by
  simp only [step, State.turn, hl, ha, List.isEmpty_nil, Bool.not_true, Bool.false_eq_true, if_false]

theorem step_of_issue {s : State} {tid : Nat} {rest : List Nat} (hl : s.lost = []) (ha : s.agenda = [])
    (hi : s.issue = tid :: rest) :
    step s = State.issueThread (State.modThread { s with issue := rest } tid Thread.issued) tid := by
  simp only [step, State.turn, State.issueNext, hl, ha, hi, List.isEmpty_nil, List.isEmpty_cons, Bool.not_true,
    Bool.not_false, Bool.false_eq_true, if_false, if_true]

theorem step_of_ending {s : State} (hl : s.lost = []) (ha : s.agenda = []) (hi : s.issue = []) (he : s.ending ≠ []) :
    step s = .next s.endDue := by
  have h : (!s.ending.isEmpty) = true := by simpa using he
  simp only [step, State.turn, hl, ha, hi, h, List.isEmpty_nil, Bool.not_true, Bool.false_eq_true, if_false, if_true]

theorem step_of_idle {s : State} (hl : s.lost = []) (ha : s.agenda = []) (hi : s.issue = []) (he : s.ending = []) :
    step s = s.runInternal := by
  simp only [step, State.turn, hl, ha, hi, he, List.isEmpty_nil, Bool.not_true, Bool.false_eq_true, if_false]

/-! ## The issue of a thread -/

/-- The thread of e issues in state r, no pre-emption handler before it: s1 is the state once its safe-point table is read
(R137, R159, R305). -/
structure State.MayIssue (r : State) (tid : Nat) (e : Env) (s1 : State) : Prop where
  env : r.envOf tid 0 = some e
  ready : e.th.status = .ready
  resident : e.c.core.isSome = true
  unsaved : e.c.saveNow = false
  runs : r.runs e.l = true
  native : e.th.emuEntry = false
  unsafePoint : r.safeEntry tid = (none, s1)

/-- What the surroundings of a thread are. -/
theorem State.envOf_some {s : State} {tid pers : Nat} {e : Env} (h : s.envOf tid pers = some e) :
    e.tid = tid ∧ aget s.threads tid = some e.th ∧ aget s.cohorts (cohOf tid) = some e.c ∧
      aget s.launches e.c.launch = some e.l ∧ aget s.ctxs e.cid = some e.ctx ∧ e.cid = e.c.cid := by
  unfold State.envOf at h
  repeat' split at h
  all_goals cases h
  exact ⟨rfl, ‹_›, ‹_›, ‹_›, ‹_›, rfl⟩

/-- A thread in an expansion goes on in it (R131, R132). -/
theorem State.issueThread_exp {r s1 : State} {tid : Nat} {e : Env} (h : r.MayIssue tid e s1) (hx : e.th.exp.isSome = true) :
    r.issueThread tid = (r.keepDraws s1).issueExp tid := by
  have hc : e.c.core.isNone = false := by rw [← Option.not_isSome, h.resident]; rfl
  simp only [State.issueThread, h.env, h.ready, hc, h.unsaved, h.runs, h.native, h.unsafePoint, hx, ne_eq,
    not_true_eq_false, decide_false, Bool.not_true, Bool.or_false, Bool.false_eq_true, if_false, if_true]

/-- A thread outside any expansion, at a page of native code, issues what it fetches there (R159). -/
theorem State.issueThread_native {r s1 s2 : State} {tid : Nat} {e : Env} {p : Place} (h : r.MayIssue tid e s1)
    (hx : e.th.exp = none) (hp : fetchPlace e.who e.th.pc (r.keepDraws s1) = .ok p s2) (hd : pteDesc p.pte = 0) :
    r.issueThread tid = ((r.keepDraws s1).keepDraws s2).issueNative e p := by
  have hc : e.c.core.isNone = false := by rw [← Option.not_isSome, h.resident]; rfl
  simp only [State.issueThread, h.env, h.ready, hc, h.unsaved, h.runs, h.native, h.unsafePoint, hx, hp, hd, ne_eq,
    not_true_eq_false, decide_false, Bool.not_true, Bool.or_false, Bool.false_eq_true, if_false, if_true,
    Option.isSome_none]

/-- The op that an expansion stands at executes, unless a register of it waits (R131). -/
theorem State.issueExp_runs {s : State} {tid : Nat} {t : Thread} {x : Exp} {i : Instr} (ht : aget s.threads tid = some t)
    (hx : t.exp = some x) (hi : x.ops[x.idx]? = some i) (hb : t.blocked i = false) :
    s.issueExp tid = s.runOp tid x.pers i := by
  simp only [State.issueExp, ht, hx, hi, hb, Option.bind_some, Option.map_some, Bool.false_eq_true, if_false]

section native
variable {s s' : State} {e : Env} {p : Place} {b : List Byte}

/-- Words that decode to nothing are ILLEGAL_INSTRUCTION. -/
theorem State.issueNative_illegal (hf : fetchNative e.who e.th.pc p s = .ok b s')
    (hd : decode {} (lineWords b (slotOf e.th.pc)).1 (lineWords b (slotOf e.th.pc)).2 = none) :
    s.issueNative e p = .next ((s.keepDraws s').takeFault e ((lineWords b (slotOf e.th.pc)).1.getLsbD 63)
      (pcFault .illegalInstruction e.th.pc)) := by
  simp only [State.issueNative, hf, hd]

/-- Words that decode are an op: it faults where a check before it does. -/
theorem State.issueNative_faults {i : Instr} {f : FaultInfo} (hf : fetchNative e.who e.th.pc p s = .ok b s')
    (hd : decode {} (lineWords b (slotOf e.th.pc)).1 (lineWords b (slotOf e.th.pc)).2 = some i)
    (hc : (preCheck e i).or (if e.ctx.con.sbCheck then sbCheck e i else none) = some f) :
    s.issueNative e p = .next ((s.keepDraws s').takeFault e (Instr.isLong i) f) := by
  simp only [State.issueNative, hf, hd, hc]

/-- It executes where the checks before it pass; without the scoreboard its registers may not be settled (R59). -/
theorem State.issueNative_runs {i : Instr} (hf : fetchNative e.who e.th.pc p s = .ok b s')
    (hd : decode {} (lineWords b (slotOf e.th.pc)).1 (lineWords b (slotOf e.th.pc)).2 = some i)
    (hc : (preCheck e i).or (if e.ctx.con.sbCheck then sbCheck e i else none) = none) :
    s.issueNative e p =
      (if e.ctx.con.sbCheck then s.keepDraws s' else (s.keepDraws s').unsettled e.tid i).runOp e.tid 0 i := by
  simp only [State.issueNative, hf, hd, hc]

end native

/-! ## Internal events -/

/-- What was listed before and still is, and then the rest, is what is listed now. -/
theorem mem_kept_append_new {α : Type} [BEq α] [LawfulBEq α] (old now : List α) (a : α) :
    a ∈ (let kept := old.filter fun x => now.contains x; kept ++ now.filter fun x => !kept.contains x) ↔ a ∈ now := by
  by_cases h : a ∈ old <;> simp [h]

/-- The queue of internal events holds those that are possible (log entry 37). -/
theorem State.mem_queued (s : State) (a : Act) : a ∈ s.queued ↔ a ∈ s.internal :=
  (mem_kept_append_new s.backlog s.internal.eraseDups a).trans List.mem_eraseDups

theorem State.powerCap_mem_internal (s : State) : Act.powerCap ∈ s.internal := by
  simp [State.internal]

theorem State.queued_length_pos (s : State) : 0 < s.queued.length :=
  List.length_pos_of_mem ((s.mem_queued _).mpr s.powerCap_mem_internal)

theorem State.pick_fst_lt (s : State) {n : Nat} (hn : 0 < n) : (s.pick n).1 < n := by
  unfold State.pick
  split
  · exact hn
  · exact Nat.mod_lt _ hn

/-- A free choice changes the counter of free values alone. -/
theorem State.pick_state (s : State) (n : Nat) : (s.pick n).2 = { s with free := (s.pick n).2.free } := by
  unfold State.pick
  split <;> rfl

/-- The module does one of its internal events: the first, where that has been passed over as often as it may be (R40). -/
theorem State.runInternal_acts (s : State) : ∃ j a n, s.queued[j]? = some a ∧ (Config.patience ≤ s.skips → j = 0) ∧
    s.runInternal = State.act { s with
      free := n, backlog := s.queued.eraseIdx j, skips := if j = 0 then 0 else s.skips + 1 } a := by
  have hpos := s.queued_length_pos
  by_cases hp : Config.patience ≤ s.skips
  · refine ⟨0, s.queued[0], s.free, List.getElem?_eq_getElem hpos, fun _ => rfl, ?_⟩
    simp only [State.runInternal, if_pos hp, List.getElem?_eq_getElem hpos]
  · have hlt := s.pick_fst_lt hpos
    refine ⟨(s.pick s.queued.length).1, s.queued[(s.pick s.queued.length).1], (s.pick s.queued.length).2.free,
      List.getElem?_eq_getElem hlt, fun h => absurd h hp, ?_⟩
    simp only [State.runInternal, if_neg hp, List.getElem?_eq_getElem hlt]
    rw [State.pick_state]

/-! ## The statement -/

/-- Settles O60, part by part of a step. -/
theorem stepRunsDecoded : Obligations.StepRunsDecoded := by
  unfold Obligations.StepRunsDecoded
  refine ⟨fun s => step_of_lost, fun s i rest => step_of_agenda, ?issue, fun s => step_of_ending, ?idle⟩
  case issue =>
    intro s tid rest e s1 r hl ha hi henv hready hres hsave hruns hemu hsafe after
    have h : r.MayIssue tid e s1 := ⟨henv, hready, hres, hsave, hruns, hemu, hsafe⟩
    obtain ⟨htid, hth, -, -, -, -⟩ := State.envOf_some henv
    have hstep : step s = r.issueThread tid := step_of_issue hl ha hi
    have hrun : ∀ (x : State) (pers : Nat) (i : Instr),
        x.runOp tid pers i = after (exec i { x with cur := some { tid := tid, pers := pers } }) := by
      intro x pers i
      unfold State.runOp
      cases exec i { x with cur := some { tid := tid, pers := pers } } <;> rfl
    refine ⟨?native, ?expansion⟩
    case native =>
      intro p s2 b s3 s4 w hexp hplace hdesc hfetch
      rw [hstep, State.issueThread_native h hexp hplace hdesc]
      refine ⟨State.issueNative_illegal hfetch, fun i hd => ⟨fun f hf => ?_, fun hpre hsb => ⟨fun f hf => ?_, fun hf => ?_⟩,
        fun hpre hsb => ?_⟩⟩
      · exact State.issueNative_faults hfetch hd (by rw [hf, Option.some_or])
      · exact State.issueNative_faults hfetch hd (by rw [hpre, Option.none_or, if_pos hsb, hf])
      · rw [State.issueNative_runs hfetch hd (by rw [hpre, Option.none_or, if_pos hsb, hf]), if_pos hsb, htid]
        exact hrun ..
      · have hsb' : ¬ e.ctx.con.sbCheck = true := by rw [hsb]; exact Bool.false_ne_true
        rw [State.issueNative_runs hfetch hd (by rw [hpre, Option.none_or, if_neg hsb']), if_neg hsb', htid]
        exact hrun ..
    case expansion =>
      intro t x i ht hx hop hb
      have hexp : e.th.exp.isSome = true := by
        rw [Option.some.inj (hth.symm.trans ht), hx]; rfl
      rw [hstep, State.issueThread_exp h hexp, State.issueExp_runs (s := r.keepDraws s1) ht hx hop hb]
      exact hrun ..
  case idle =>
    intro s hl ha hi he
    rw [step_of_idle hl ha hi he]
    exact ⟨s.mem_queued, s.runInternal_acts⟩

end Sys2Proof.Machine
end

section
/-! SUPPORT. The creation and the placement of cohorts (R26, R29, R31, R80), and the first traversal order (R76). -/

namespace Sys2Proof.Machine

/-! ## Placement -/

/-- The choice of quarters draws free values alone. -/
theorem chooseQuarters_state (free : List Nat) (n : Nat) (s : State) :
    (chooseQuarters free n s).2 = { s with free := (chooseQuarters free n s).2.free } := by
  induction n generalizing free s with
  | zero => rfl
  | succ n ih =>
    simp only [chooseQuarters]
    rw [ih, State.pick_state]

/-- A quarter is one of the four of its core. -/
theorem chooseQuarters_lt (free : List Nat) (n : Nat) (s : State) (w : Nat) :
    (chooseQuarters free n s).1.getD w 0 < 4 := by
  induction n generalizing free s w with
  | zero => simp [chooseQuarters]
  | succ n ih =>
    simp only [chooseQuarters]
    cases w with
    | succ w => exact ih ..
    | zero =>
      rw [List.getD_cons_zero, List.getD_eq_getElem?_getD]
      generalize (s.pick ((List.range 4).filter fun q => free.getD q 0 != 0).length).1 = i
      cases h : ((List.range 4).filter fun q => free.getD q 0 != 0)[i]? with
      | none => decide
      | some q =>
        have := List.mem_of_getElem? h
        simp only [List.mem_filter, List.mem_range] at this
        exact this.1

/-- Changes of warps, one after another, are one change of the table of warps. -/
theorem State.foldl_modWarp (s : State) (l : List Nat) (key : Nat → Nat) (f : Nat → Warp → Warp) :
    l.foldl (fun s w => s.modWarp (key w) (f w)) s =
      { s with warps := l.foldl (fun m w => amod m (key w) (f w)) s.warps } := by
  induction l generalizing s with
  | nil => rfl
  | cons w t ih => rw [List.foldl_cons, ih]; rfl

/-- The quarters that a cohort placed on a core takes. -/
def State.quartersAt (s : State) (core : Nat) (c : Cohort) : List Nat :=
  (chooseQuarters (s.freeSlots core) c.warps s).1

/-- What a cohort's placement changes (R26, R52). -/
theorem State.place_eq {s : State} {coh : Nat} {c : Cohort} (core : Nat) (hc : aget s.cohorts coh = some c) :
    s.place coh core = { s with
      cohorts := amod s.cohorts coh fun c => { c with core := some core }
      warps := (List.range c.warps).foldl (fun m w => amod m (coh * 32 + w) fun x =>
        { x with quarter := (s.quartersAt core c).getD w 0 }) s.warps
      rotation := (s.place coh core).rotation, free := (s.place coh core).free } := by
  simp only [State.place, hc, State.foldl_modWarp _ _ fun w => coh * 32 + w]
  rw [chooseQuarters_state]
  rfl

/-- A warp of a placed cohort has a quarter, and is otherwise as it was. -/
theorem State.place_warps {s : State} {coh : Nat} {c : Cohort} (core : Nat) (hc : aget s.cohorts coh = some c)
    {w : Nat} {x : Warp} (hw : w < c.warps) (hx : aget s.warps (coh * 32 + w) = some x) :
    ∃ q, q < 4 ∧ aget (s.place coh core).warps (coh * 32 + w) = some { x with quarter := q } := by
  refine ⟨(s.quartersAt core c).getD w 0, chooseQuarters_lt .., ?_⟩
  rw [place_eq core hc, aget_foldl_amod s.warps (coh * 32) c.warps fun w x =>
    { x with quarter := (s.quartersAt core c).getD w 0 }, hx, Option.map_some, if_pos (by omega), Nat.add_sub_cancel_left]

/-- Other warps keep their quarters. -/
theorem State.place_warps_other {s : State} {coh : Nat} {c : Cohort} (core : Nat) (hc : aget s.cohorts coh = some c)
    {k : Nat} (hk : ¬ (coh * 32 ≤ k ∧ k < coh * 32 + c.warps)) :
    aget (s.place coh core).warps k = aget s.warps k := by
  rw [place_eq core hc, aget_foldl_amod s.warps (coh * 32) c.warps fun w x =>
    { x with quarter := (s.quartersAt core c).getD w 0 }]
  simp only [if_neg hk, Option.map_id']

/-! ## Creation -/

/-- The cohort that a launch creates, before it has a core (R29, R31). -/
def Launch.newCohort (l : Launch) (lid index logical : Nat) (coord : List Nat) (binfire : Dword) (sp : Sparse 8) : Cohort :=
  { launch := lid, cid := l.cid, index := index, coord := coord
    groups := (l.groups.filter fun g => g.2.has coord).map (·.1), param := l.rc.param, binfire := binfire
    warps := l.rc.warps, regs := l.rc.regs, scratch := l.rc.scratch, nbar := l.rc.nbar, stash := l.rc.stash
    core := none, logical := logical, sp := sp }

/-- The state with a cohort's records, warps and threads put in place. -/
def State.withCohort (s : State) (l : Launch) (c : Cohort) (view : List Nat) : State :=
  { s with
    nextId := s.nextId + 1, cohorts := aset s.cohorts s.nextId c
    warps := (List.range l.rc.warps).foldl (fun m w => aset m (s.nextId * 32 + w) ({ role := l.rc.role w } : Warp)) s.warps
    threads := (List.range (32 * l.rc.warps)).foldl (fun m k => aset m (s.nextId * 1024 + k)
      ({ pc := l.rc.startPc, ord := { view := joinView l.view view } } : Thread)) s.threads }

theorem State.createCohort_eq {s : State} {lid : Nat} {l : Launch} (hl : aget s.launches lid = some l)
    (core index logical : Nat) (coord : List Nat) (binfire : Dword) (sp : Sparse 8) (view : List Nat) :
    s.createCohort lid core index logical coord binfire sp view =
      ((s.withCohort l (l.newCohort lid index logical coord binfire sp) view).place s.nextId core).modLaunch lid fun l =>
        { l with created := l.created + 1, onCore := aset l.onCore logical ((aget l.onCore logical).getD 0 + 1) } := by
  simp only [State.createCohort, hl]
  rfl

/-- A created cohort is new in the sense of State.NewCohort (R29, R31, R80, R229). -/
theorem State.newCohort_createCohort {s : State} {lid : Nat} {l : Launch} (hl : aget s.launches lid = some l)
    (core index logical : Nat) (coord : List Nat) (binfire : Dword) (sp : Sparse 8) (view : List Nat) :
    s.NewCohort (s.createCohort lid core index logical coord binfire sp view) lid l core index logical coord binfire sp
      view := by
  have hnew : aget (s.withCohort l (l.newCohort lid index logical coord binfire sp) view).cohorts s.nextId =
      some (l.newCohort lid index logical coord binfire sp) := aget_aset_same ..
  have hplace := State.place_eq core hnew
  rw [createCohort_eq hl]
  constructor
  case cohort =>
    refine ⟨_, ?_, rfl⟩
    rw [modLaunch_cohorts, hplace, aget_amod_same, hnew]
    rfl
  case cohorts =>
    intro k hk
    rw [modLaunch_cohorts, hplace, aget_amod_other _ _ hk]
    exact aget_aset_other _ _ hk
  case threads =>
    intro k hk
    rw [modLaunch_threads, hplace]
    refine (aget_foldl_aset s.threads (s.nextId * 1024) (32 * l.rc.warps) (fun _ => _) _).trans ?_
    rw [if_pos (by omega)]
  case others =>
    intro k hk
    rw [modLaunch_threads, hplace]
    refine (aget_foldl_aset s.threads (s.nextId * 1024) (32 * l.rc.warps) (fun _ => _) _).trans ?_
    rw [if_neg hk]
  case warps =>
    intro w hw
    refine State.place_warps (x := { role := l.rc.role w }) core hnew hw ?_
    refine (aget_foldl_aset s.warps (s.nextId * 32) l.rc.warps (fun w => ({ role := l.rc.role w } : Warp)) _).trans ?_
    rw [if_pos (by omega), Nat.add_sub_cancel_left]
  case others' =>
    intro k hk
    rw [modLaunch_warps, State.place_warps_other core hnew hk]
    refine (aget_foldl_aset s.warps (s.nextId * 32) l.rc.warps (fun w => ({ role := l.rc.role w } : Warp)) _).trans ?_
    rw [if_neg hk]
  case launch =>
    refine ⟨{ l with
      created := l.created + 1, onCore := aset l.onCore logical ((aget l.onCore logical).getD 0 + 1) }, ?_, rfl⟩
    rw [modLaunch_launches, hplace, aget_amod_same]
    exact congrArg (Option.map _) hl
  case launches =>
    intro k hk
    rw [modLaunch_launches, hplace, aget_amod_other _ _ hk]
    rfl
  case rest =>
    rw [hplace]
    rfl

/-! ## Emission -/

/-- A walker that has indices left moves on; one that has none frees its slot, which is loaded again (R78, R79). -/
theorem State.emit_eq (s : State) (w : Walker) :
    s.emit w = if w.cursor + 1 < w.limit then s.setWalker w (some { w with cursor := w.cursor + 1 })
      else (s.setWalker w none).refillSlot w.sec w.slot := by
  unfold State.emit State.setWalker
  split <;> simp only [*, if_true, if_false]

theorem exec_walkerEmission (core launch : Nat) (s : State) :
    exec (.walkerEmission core launch) s = execWalkerEmission core launch s := rfl

theorem exec_persistentCohortCreate (launch core : Nat) (s : State) :
    exec (.persistentCohortCreate launch core) s = execPersistentCohortCreate launch core s := rfl

theorem State.mem_coresOf {s : State} {pid core : Nat} : core ∈ s.coresOf pid ↔ core < 256 ∧ s.pidOfCore core = pid := by
  simp [State.coresOf]

/-! ## The first traversal order -/

theorem digits_length (es : List Nat) (i : Nat) : (digits es i).length = es.length := by
  induction es generalizing i with
  | nil => rfl
  | cons e t ih => rw [digits, List.length_cons, ih, List.length_cons]

/-- A product by the extents has the first factors' value as a factor. -/
theorem foldl_mul (es : List Nat) (a : Nat) : es.foldl (· * ·) a = a * es.foldl (· * ·) 1 := by
  induction es generalizing a with
  | nil => simp
  | cons e t ih => rw [List.foldl_cons, List.foldl_cons, ih, ih (1 * e), Nat.one_mul, Nat.mul_assoc]

/-- Each digit of an index of the space is below its extent. -/
theorem digits_lt {es : List Nat} {i d : Nat} (hi : i < es.foldl (· * ·) 1) (hd : d < es.length) :
    (digits es i).getD d 0 < es.getD d 0 := by
  induction es generalizing i d with
  | nil => cases hd
  | cons e t ih =>
    rw [List.foldl_cons, Nat.one_mul, foldl_mul] at hi
    cases d with
    | zero => exact Nat.mod_lt _ (Nat.pos_of_mul_pos_right (Nat.zero_lt_of_lt hi))
    | succ d => exact ih (Nat.div_lt_of_lt_mul hi) (Nat.lt_of_succ_lt_succ hd)

/-- An index of the space from its digits, each with the product of the extents before it as its weight. -/
theorem eq_sum_digits {es : List Nat} {i : Nat} (hi : i < es.foldl (· * ·) 1) :
    i = ((digits es i).zip es).foldr (fun d x => d.1 + d.2 * x) 0 := by
  induction es generalizing i with
  | nil => exact Nat.lt_one_iff.mp hi
  | cons e t ih =>
    rw [List.foldl_cons, Nat.one_mul, foldl_mul] at hi
    rw [digits, List.zip_cons_cons, List.foldr_cons, ← ih (Nat.div_lt_of_lt_mul hi)]
    exact (Nat.mod_add_div i e).symm

theorem LaunchRec.exts_length (r : LaunchRec) : r.exts.length = r.nd := by simp [LaunchRec.exts]

theorem LaunchRec.exts_getD (r : LaunchRec) {d : Nat} (hd : d < r.nd) : r.exts.getD d 0 = r.ext.getD d 0 := by
  simp [LaunchRec.exts, List.getD_eq_getElem?_getD, hd]

/-- The coordinates of an index in order 0 are its digits, and 0 beyond the dimensions in use (R76). -/
theorem LaunchRec.coord_getD {r : LaunchRec} (ho : r.order = 0) (hn : r.nd ≤ 4) (i d : Nat) :
    (r.coord i).getD d 0 = (digits r.exts i).getD d 0 := by
  have hlen : (digits r.exts i).length ≤ 4 := by rw [digits_length, exts_length]; exact hn
  have hp : r.coord i = (digits r.exts i ++ [0, 0, 0, 0]).take 4 := by simp only [LaunchRec.coord, LaunchRec.point, ho]
  rw [hp]
  generalize digits r.exts i = ds at hlen
  match ds, hlen with
  | [], _ => match d with
    | 0 | 1 | 2 | 3 => rfl
    | _ + 4 => rfl
  | [_], _ => match d with
    | 0 | 1 | 2 | 3 => rfl
    | _ + 4 => rfl
  | [_, _], _ => match d with
    | 0 | 1 | 2 | 3 => rfl
    | _ + 4 => rfl
  | [_, _, _], _ => match d with
    | 0 | 1 | 2 | 3 => rfl
    | _ + 4 => rfl
  | [_, _, _, _], _ => match d with
    | 0 | 1 | 2 | 3 => rfl
    | _ + 4 => rfl

theorem LaunchRec.coord_length {r : LaunchRec} (i : Nat) : (r.coord i).length = 4 := by
  rw [LaunchRec.coord, List.length_take, List.length_append]
  exact Nat.min_eq_left (Nat.le_add_left 4 _)

/-! ## The statement -/

/-- Settles O35: the emission and the creation by the cohort that they create, order 0 by the digits of the index. -/
theorem cohortsOfLaunches : Obligations.CohortsOfLaunches := by
  unfold Obligations.CohortsOfLaunches
  refine ⟨fun core launch s l w hl hw hwalked hpers hfits => ?emission,
    fun core launch s l hl hwalked hpers hcreated hpid hcore hfits => ?persistent, fun r i ho hn hi => ?order⟩
  case emission =>
    have hx : exec (.walkerEmission core launch) s =
        .next ((s.emit w).createCohort launch core w.cursor 0 (l.rc.coord w.cursor) 0 []) := by
      simp only [exec_walkerEmission, execWalkerEmission, hl, hw, hwalked, hpers, hfits, event, Bool.not_false,
        Bool.and_true, if_true]
    refine ⟨_, hx, fun hlt => ?_, fun hge x hlx => ?_⟩
    · rw [State.emit_eq, if_pos hlt]
      exact State.newCohort_createCohort (s := s.setWalker w _) hl ..
    · rw [State.emit_eq, if_neg (by omega)]
      exact State.newCohort_createCohort hlx ..
  case persistent =>
    have hmem : (s.coresOf l.pid).contains core = true := List.contains_iff_mem.mpr (State.mem_coresOf.mpr ⟨hcore, hpid⟩)
    have hx : exec (.persistentCohortCreate launch core) s =
        .next (s.createCohort launch core l.created 0 (persistCoord l.created) 0 []) := by
      simp only [exec_persistentCohortCreate, execPersistentCohortCreate, hl, hwalked, hpers, hcreated, hmem, hfits, event,
        decide_true, Bool.and_true, if_true]
    exact ⟨_, hx, State.newCohort_createCohort hl ..⟩
  case order =>
    intro c e
    refine ⟨LaunchRec.coord_length i, fun d hd => ?_, fun d hd => ?_, ?_⟩
    · rw [LaunchRec.coord_getD ho hn]
      exact (digits_lt hi (by rw [r.exts_length]; exact hd)).trans_eq (r.exts_getD hd)
    · rw [LaunchRec.coord_getD ho hn, List.getD_eq_default _ _ (by rw [digits_length, r.exts_length]; exact hd)]
    · simp only [c, LaunchRec.coord_getD ho hn]
      have hsum := eq_sum_digits hi
      simp only [LaunchRec.exts] at hsum ⊢
      generalize r.nd = n at hn hsum
      interval_cases n <;> simpa [List.range_succ, digits, e] using hsum

end Sys2Proof.Machine
end

section
/-! SUPPORT. A fault whose user handler cannot be entered, over a dirty stash line (R238, R296): the read of the handler's
line recalls the stash line, so that more than the free choices and the cached versions of the state differ after it. -/

namespace Sys2Proof.Machine

/-- The state that the refutation starts from, before its stash line: a NOP placed at the line 0x10000, whose thread in
lane 0 executes and has that line, which has no ENTRY, as its trap vector. -/
def vectorScene : State :=
  let s := State.placed State.reset 64 0x07F83D87
  { s with
    cur := some { tid := 2048, pers := 0 }, issue := []
    threads := amod s.threads 2048 fun t => { t with trapVec := 0x10000 } }

/-- The stash line of the cohort over the handler's line: its bytes are those of memory, and one of them is dirty. -/
def vectorLine : StashLine :=
  { key := 0x10000, va := 0x10000, bytes := sread vectorScene.mem 0x10000 128, dirty := 1 }

/-- The scene with the stash line. -/
def recallScene : State :=
  { vectorScene with cohorts := amod vectorScene.cohorts 2 fun c => { c with lines := [(0, vectorLine)] } }

/-- The conditions of R296 on the thread hold, but the line is no entry; and its read has recalled the stash line. -/
def Env.readsAndFails (e : Env) (s : State) : Bool :=
  decide (e.th.trapVec ≠ 0) && !e.th.tf && !(s.handlerOk e).1 && decide ((s.handlerOk e).2.cohorts ≠ s.cohorts)

theorem recallScene_reads : (recallScene.env.any fun e => e.readsAndFails recallScene) = true := by decide +kernel

/-- The statement has every handler line that cannot be entered leave the cohorts as they are. -/
theorem cohorts_kept_of_faultDelivery (h : Obligations.FaultDelivery) {s : State} {e : Env} (he : s.env = some e)
    (hvec : e.th.trapVec ≠ 0) (htf : e.th.tf = false) (hfail : (s.handlerOk e).1 = false) :
    (s.handlerOk e).2.cohorts = s.cohorts := by
  unfold Obligations.FaultDelivery at h
  obtain ⟨-, hother⟩ := h s e false { kind := .illegalInstruction } he rfl
  obtain ⟨-, hfails, -⟩ := hother (.inl rfl)
  obtain ⟨hsame, -⟩ := hfails (s.handlerOk e).2 ⟨hvec, htf, by decide, by decide, rfl⟩ (Prod.ext hfail rfl)
  rw [hsame]

/-- Refutes O26: where the user handler's line can be read but not entered, the statement has nothing but the free choices
and the cached versions differ before the launch ends; the read has also recalled the stash lines over that line. -/
theorem not_faultDelivery : ¬ Obligations.FaultDelivery := by
  intro h
  obtain ⟨e, he, hx⟩ := (Option.any_eq_true _ _).mp recallScene_reads
  simp only [Env.readsAndFails, Bool.and_eq_true, decide_eq_true_eq, Bool.not_eq_true'] at hx
  obtain ⟨⟨⟨hvec, htf⟩, hfail⟩, hrecall⟩ := hx
  exact hrecall (cohorts_kept_of_faultDelivery h he hvec htf hfail)

end Sys2Proof.Machine
end

section
/-! SUPPORT. The shared parts of saves and readmissions: the fences of a cohort's threads (R271), the write-back of stash
lines (R239, R240), and what reads for an agent may change. -/

namespace Sys2Proof.Machine

/-! ## Fences -/

/-- State t is s but for the table of fences and the orders of the threads of a cohort. -/
structure State.Fenced (coh : Nat) (s t : State) : Prop where
  rest : t = { s with threads := t.threads, fences := t.fences }
  others : ∀ k, cohOf k ≠ coh → aget t.threads k = aget s.threads k
  thread : ∀ k u, aget s.threads k = some u → ∃ o, aget t.threads k = some { u with ord := o }

theorem State.Fenced.refl (coh : Nat) (s : State) : s.Fenced coh s := ⟨rfl, fun _ _ => rfl, fun _ u h => ⟨u.ord, h⟩⟩

theorem State.Fenced.trans {coh : Nat} {a b c : State} (h : a.Fenced coh b) (g : b.Fenced coh c) : a.Fenced coh c := by
  refine ⟨?_, fun k hk => (g.others k hk).trans (h.others k hk), fun k u hu => ?_⟩
  · rw [g.rest, h.rest]
  · obtain ⟨o, ho⟩ := h.thread k u hu
    obtain ⟨o', ho'⟩ := g.thread k _ ho
    exact ⟨o', ho'⟩

theorem State.fenceBy_threads (s : State) (tid : Nat) (insts : List Nat) :
    (s.fenceBy tid insts).threads = amod s.threads tid fun t =>
      { t with ord := (s.fenceOrder ((s.ordOf tid).fence insts) insts).1 } := rfl

theorem State.fenceBy_fenced (s : State) {coh tid : Nat} (h : cohOf tid = coh) (insts : List Nat) :
    s.Fenced coh (s.fenceBy tid insts) := by
  refine ⟨rfl, fun k hk => ?_, fun k u hu => ?_⟩
  · have hne : k ≠ tid := fun hk' => hk (by rw [hk', h])
    rw [fenceBy_threads, aget_amod_other _ _ hne]
  · rw [fenceBy_threads, aget_amod, hu, Option.map_some]
    split
    · exact ⟨_, rfl⟩
    · exact ⟨u.ord, rfl⟩

/-- The threads of a cohort act as at a FENCE (R271). -/
theorem State.fenceCohort_fenced (s : State) (coh : Nat) : s.Fenced coh (s.fenceCohort coh) := by
  unfold State.fenceCohort
  split
  · exact .refl coh s
  · refine List.foldlRecOn (motive := s.Fenced coh) _ _ (.refl coh s) fun t ht e he => ht.trans (t.fenceBy_fenced ?_ _)
    simpa using (List.mem_filter.mp he).2

/-! ## Write-back of stash lines -/

theorem State.writeBack_cons (s : State) (pid : Nat) (l : StashLine) (ls : List StashLine) :
    s.writeBack pid (l :: ls) = (s.writeBack pid [l]).writeBack pid ls := rfl

/-- A line that is written back is lost or in memory. -/
theorem State.writeBack_one (s : State) (pid : Nat) (l : StashLine) :
    s.writeBack pid [l] = { s with
      mem := (s.writeBack pid [l]).mem, lost := (s.writeBack pid [l]).lost, free := (s.writeBack pid [l]).free } := by
  simp only [State.writeBack, List.foldl_cons, List.foldl_nil]
  split_ifs <;> rfl

/-- Written back lines change memory, where they are not lost (R239, R325). -/
theorem State.writeBack_state (s : State) (pid : Nat) (ls : List StashLine) :
    s.writeBack pid ls = { s with
      mem := (s.writeBack pid ls).mem, lost := (s.writeBack pid ls).lost, free := (s.writeBack pid ls).free } := by
  induction ls generalizing s with
  | nil => rfl
  | cons l t ih =>
    rw [writeBack_cons, ih, writeBack_one]

/-- Fences leave a write-back what it is. -/
theorem State.writeBack_withThreads (s : State) (pid : Nat) (ls : List StashLine) (ts : Assoc Thread)
    (fs : Assoc (List Nat)) : State.writeBack { s with threads := ts, fences := fs } pid ls =
      { s.writeBack pid ls with threads := ts, fences := fs } := by
  induction ls generalizing s with
  | nil => rfl
  | cons l t ih =>
    have one : State.writeBack { s with threads := ts, fences := fs } pid [l] =
        { s.writeBack pid [l] with threads := ts, fences := fs } := by
      have down : State.linkDown { s with threads := ts, fences := fs } = s.linkDown := rfl
      have pick : State.pick { s with threads := ts, fences := fs } 2 =
          ((s.pick 2).1, { (s.pick 2).2 with threads := ts, fences := fs }) := rfl
      simp only [State.writeBack, List.foldl_cons, List.foldl_nil, down, pick]
      split_ifs <;> rfl
    rw [writeBack_cons, writeBack_cons s, one, ih]

end Sys2Proof.Machine
end

section
/-! SUPPORT. Reads for an agent: they draw free values, note cached versions and recall stash lines (R238, R279), and so
leave the launches, and of each cohort all but its stash lines, as they are. -/

namespace Sys2Proof.Machine

/-- A cohort without its stash lines. -/
def Cohort.bare (c : Cohort) : Cohort := { c with lines := [] }

/-- State t has the launches of s, and the cohorts of s but for their stash lines. -/
structure State.Looked (s t : State) : Prop where
  launches : t.launches = s.launches
  cohorts : ∀ k, (aget t.cohorts k).map Cohort.bare = (aget s.cohorts k).map Cohort.bare

theorem State.Looked.refl (s : State) : s.Looked s := ⟨rfl, fun _ => rfl⟩

theorem State.Looked.trans {a b c : State} (h : a.Looked b) (g : b.Looked c) : a.Looked c :=
  ⟨g.launches.trans h.launches, fun k => (g.cohorts k).trans (h.cohorts k)⟩

theorem State.Looked.of_eq {s t : State} (hl : t.launches = s.launches) (hc : t.cohorts = s.cohorts) : s.Looked t :=
  ⟨hl, fun _ => by rw [hc]⟩

theorem State.pick_looked (s : State) (n : Nat) : s.Looked (s.pick n).2 := .of_eq (s.pick_launches n) (s.pick_cohorts n)

/-! ## Caches -/

theorem State.note_looked (s : State) (what cluster cid addr : Nat) (v : List Byte) :
    s.Looked (s.note what cluster cid addr v) := by
  unfold State.note
  dsimp only
  split_ifs <;> exact .of_eq rfl rfl

theorem State.boundSeen_looked (s : State) (what : List Nat) (cluster n : Nat) (grp : Seen → Nat) :
    s.Looked (s.boundSeen what cluster n grp) := by
  unfold State.boundSeen
  dsimp only
  split_ifs
  · exact .refl s
  · split
    · exact s.pick_looked _
    · exact (s.pick_looked _).trans (.of_eq rfl rfl)

theorem State.noteUsed_looked (s : State) (cl cid va : Nat) (r : Walked × List (Nat × Nat)) :
    s.Looked (s.noteUsed cl cid va r) := by
  unfold State.noteUsed
  have h : s.Looked (r.2.foldl (fun s x => s.note 4 cl cid x.1 (leBytes 8 x.2)) s) :=
    List.foldlRecOn (motive := s.Looked) _ _ (.refl s) fun t ht x _ => ht.trans (t.note_looked ..)
  dsimp only
  split
  · split_ifs
    · exact (h.trans (State.note_looked ..)).trans (State.boundSeen_looked ..)
    · exact h
  · exact h

/-! ## The order of accesses -/

theorem chooseSeen_looked (o : Ord) (ms seen : List Msg) (s : State) : s.Looked (chooseSeen o ms seen s).2.2 := by
  induction ms generalizing seen s with
  | nil => exact .refl s
  | cons m t ih =>
    rw [chooseSeen]
    split_ifs
    · exact ih ..
    · dsimp only
      split_ifs
      · exact (s.pick_looked 2).trans (ih ..)
      · exact (s.pick_looked 2).trans (ih ..)

theorem State.observe_looked (s : State) (o : Ord) (own : List Nat) (acq : List Byte → Option (List Nat)) (key : Nat)
    (cur : List Byte) : s.Looked (s.observe o own acq key cur).2.2 := chooseSeen_looked ..

/-! ## The recall of stash lines -/

theorem State.writeBack_looked (s : State) (pid : Nat) (ls : List StashLine) : s.Looked (s.writeBack pid ls) := by
  rw [writeBack_state]
  exact .of_eq rfl rfl

theorem State.mapCohorts_looked (s : State) {g : Nat × Cohort → Nat × Cohort} (hk : ∀ e, (g e).1 = e.1)
    (hb : ∀ e, (g e).2.bare = e.2.bare) : s.Looked { s with cohorts := s.cohorts.map g } := by
  refine ⟨rfl, fun k => ?_⟩
  rw [aget_map _ g hk, Option.map_map]
  exact congrArg (Option.map · _) (funext fun v => hb (k, v))

theorem State.recall_looked (s : State) (key n : Nat) (write : Bool) : s.Looked (s.recall key n write) := by
  have h : s.Looked (s.cohorts.foldl (fun s c => s.writeBack (s.cohPid c.2)
      ((c.2.lines.filter fun e : Nat × StashLine => e.2.overlaps key n).map (·.2))) s) :=
    List.foldlRecOn (motive := s.Looked) _ _ (.refl s) fun t ht c _ => ht.trans (t.writeBack_looked ..)
  unfold State.recall
  extract_lets hit
  split
  · refine State.Looked.trans h (State.mapCohorts_looked _ ?_ ?_) <;> exact fun _ => rfl
  · exact .refl s

/-! ## Computations -/

/-- Where the computation ends well, it has only looked. -/
structure Looks {α : Type} (x : M α) : Prop where
  looked : ∀ (s t : State) (a : α), x s = .ok a t → s.Looked t

theorem looks_pure {α : Type} (a : α) : Looks (pure a : M α) := ⟨fun s _ _ h => by cases h; exact .refl s⟩

theorem looks_throw {α : Type} (f : FaultInfo) : Looks (throw f : M α) := ⟨fun _ _ _ h => by cases h⟩

theorem looks_get : Looks (get : M State) := ⟨fun s _ _ h => by cases h; exact .refl s⟩

theorem Looks.bind {α β : Type} {x : M α} {f : α → M β} (hx : Looks x) (hf : ∀ a, Looks (f a)) : Looks (x >>= f) := by
  refine ⟨fun s t b h => ?_⟩
  cases hxs : x s with
  | ok a s' =>
    rw [bind_ok hxs] at h
    exact (hx.looked s s' a hxs).trans ((hf a).looked s' t b h)
  | error f' s' =>
    rw [bind_error hxs] at h
    cases h

/-- A check that throws where a condition holds, before the rest. -/
theorem looks_ite_throw {α : Type} {c : Prop} [Decidable c] {f : FaultInfo} {rest : PUnit → M α}
    (h : ∀ r, Looks (rest r)) : Looks (if c then throw f >>= rest else rest ⟨⟩) := by
  split
  · exact (looks_throw f).bind h
  · exact h ⟨⟩

/-- A computation that always ends well. -/
theorem looks_of_ok {α : Type} {x : M α} {f : State → α} {g : State → State} (h : ∀ s, x s = .ok (f s) (g s))
    (hg : ∀ s : State, s.Looked (g s)) : Looks x := by
  refine ⟨fun s t a hx => ?_⟩
  rw [h s] at hx
  cases hx
  exact hg s

theorem readMemM_looks (key n : Nat) : Looks (readMemM key n) := looks_of_ok (fun _ => rfl) fun s => s.recall_looked key n false

theorem walkM_looks (w : Who) (va : VAddr) : Looks (walkM w va) := by
  refine ⟨fun s t a h => ?_⟩
  unfold walkM at h
  split at h
  · cases h
    exact .refl s
  · cases h
    exact (s.pick_looked _).trans (State.noteUsed_looked ..)

theorem linkNeedM_looks (key : Nat) : Looks (linkNeedM key) := by
  refine ⟨fun s t a h => ?_⟩
  unfold linkNeedM at h
  split at h
  · cases h
    exact s.pick_looked 2
  · cases h
    exact .refl s

theorem linkNeedWalk_looks (w : Who) (va : VAddr) : Looks (linkNeedWalk w va) := by
  refine ⟨fun s t a h => ?_⟩
  unfold linkNeedWalk at h
  split at h
  · cases h
    exact s.pick_looked 2
  · cases h
    exact .refl s

theorem walkFor_looks (w : Who) (a : Access) : Looks (walkFor w a) := by
  unfold walkFor
  refine looks_ite_throw fun _ => ?_
  refine (linkNeedWalk_looks ..).bind fun _ => looks_get.bind fun _ => ?_
  exact looks_ite_throw fun _ => walkM_looks ..

theorem State.setOrd_looked (s : State) (tid : Nat) (o : Ord) : s.Looked (s.setOrd tid o) := .of_eq rfl rfl

theorem placeOf_looks (w : Who) (a : Access) (r : Walked) : Looks (placeOf w a r) := by
  cases r with
  | unmapped => exact looks_throw _
  | format pa => exact looks_throw _
  | leaf pte log =>
    refine looks_ite_throw fun _ => looks_get.bind fun s => ?_
    dsimp only
    split
    · exact looks_ite_throw fun _ => looks_pure _
    · exact looks_throw _

theorem checkTo3_looks (w : Who) (a : Access) : Looks (checkTo3 w a) :=
  (walkFor_looks ..).bind fun _ => placeOf_looks ..

theorem checkWatch_looks (w : Who) (a : Access) : Looks (checkWatch w a) := by
  refine looks_get.bind fun s => ?_
  split
  · exact looks_throw _
  · exact looks_pure _

theorem seeTag_looks (w : Who) (fx : Bool) (key : Nat) : Looks (seeTag w fx key) := by
  refine ⟨fun s t a h => ?_⟩
  unfold seeTag at h
  dsimp only at h
  split at h
  · cases h
    exact .refl s
  · split at h
    · cases h
      split
      · exact (s.observe_looked _ [] (fun _ => none) _ _).trans (State.setOrd_looked ..)
      · exact s.observe_looked _ [] (fun _ => none) _ _
    · cases h
      exact .refl s

theorem checkTag_looks (w : Who) (a : Access) (p : Place) : Looks (checkTag w a p) := by
  unfold checkTag
  split
  · refine (seeTag_looks ..).bind fun t => ?_
    split
    · exact looks_throw _
    · exact looks_pure _
  · exact looks_pure _

theorem checkFrom4_looks (w : Who) (a : Access) (p : Place) : Looks (checkFrom4 w a p) := by
  refine (checkWatch_looks ..).bind fun _ => ?_
  split
  · exact (checkTag_looks ..).bind fun _ => looks_pure _
  · exact looks_pure _

theorem checkPlace_looks (w : Who) (a : Access) : Looks (checkPlace w a) := by
  refine (checkTo3_looks ..).bind fun p => (checkFrom4_looks ..).bind fun b => ?_
  split
  · exact looks_pure _
  · exact looks_throw _

theorem checkRead_looks (w : Who) (a : Access) : Looks (checkRead w a) :=
  (checkPlace_looks ..).bind fun _ => (linkNeedM_looks _).bind fun _ => looks_ite_throw fun _ => looks_pure _

theorem readAfter_looks (view : List Nat) (key n : Nat) : Looks (readAfter view key n) :=
  (readMemM_looks ..).bind fun _ => looks_of_ok (fun _ => rfl) fun s =>
    s.observe_looked _ [] (fun _ => none) _ _

theorem readVirt_looks (w : Who) (acc unit units : Nat) {rd : Nat → Nat → M (List Byte)} (hr : ∀ k n, Looks (rd k n))
    (ptr : Dword) : Looks (readVirt w ptr acc unit units rd) := by
  induction units generalizing ptr with
  | zero => exact looks_pure _
  | succ u ih => exact (checkRead_looks ..).bind fun _ => (hr ..).bind fun _ => (ih _).bind fun _ => looks_pure _

end Sys2Proof.Machine
end

section
/-! SUPPORT. Save requests, saves, pre-emption handlers and readmissions of cohorts (R41, R46, R304 to R309). -/

namespace Sys2Proof.Machine

theorem State.mem_cohThreads {s : State} {coh : Nat} {e : Nat × Thread} :
    e ∈ s.cohThreads coh ↔ e ∈ s.threads ∧ cohOf e.1 = coh := by
  simp [State.cohThreads]

/-! ## What the events are -/

theorem exec_saveRequest (coh : Nat) (s : State) : exec (.saveRequest coh) s = .next (s.requestSave coh) := rfl

theorem exec_cohortSave (coh : Nat) (s : State) : exec (.cohortSave coh) s =
    .next (if s.savePending coh && ((s.cohThreads coh).all fun e => TStatus.settled e.2.status) && s.drained coh then
      s.saveUnder coh else s) := rfl

theorem exec_forcedSave (coh : Nat) (s : State) : exec (.forcedSave coh) s =
    .next (if s.savePending coh && s.drained coh then s.saveUnder coh else s) := rfl

theorem exec_replayableDeschedule (coh : Nat) (s : State) :
    exec (.replayableDeschedule coh) s = execReplayableDeschedule coh s := rfl

theorem exec_preemptHandlerEntry (tid : Nat) (s : State) :
    exec (.preemptHandlerEntry tid) s = execPreemptHandlerEntry tid s := rfl

theorem exec_readmission (coh core : Nat) (s : State) : exec (.readmission coh core) s = execReadmission coh core s := rfl

/-! ## Saves -/

/-- The conditions of R46 for a descheduling as replayable. -/
theorem State.replayableNow_iff (s : State) (coh : Nat) :
    s.replayableNow coh = true ↔ (∀ u ∈ s.cohThreads coh, TStatus.runnable u.2.status = false) ∧
      ∃ u ∈ s.cohThreads coh, TStatus.isParked u.2.status = true := by
  simp [State.replayableNow, State.cohRunnable]

/-- What a save leaves of the state (R240, R271, R307). -/
theorem State.saveCohort_eq {s : State} {coh : Nat} {c : Cohort} (replayable : Bool) (hc : aget s.cohorts coh = some c) :
    s.saveCohort coh replayable = { s with
      mem := (s.writeBack (s.cohPid c) (c.lines.map (·.2))).mem
      lost := (s.writeBack (s.cohPid c) (c.lines.map (·.2))).lost
      free := (s.writeBack (s.cohPid c) (c.lines.map (·.2))).free
      threads := (s.fenceCohort coh).threads.map fun e => if cohOf e.1 = coh then (e.1, e.2.save) else e
      fences := (s.fenceCohort coh).fences
      issue := s.issue.filter fun t => cohOf t != coh
      cohorts := amod s.cohorts coh fun c => { c with
        core := none, saved := true, pending := false, forRoom := false, replayable := replayable, lines := [] }
      rotation := (s.saveCohort coh replayable).rotation } := by
  simp only [State.saveCohort, hc]
  rw [(s.fenceCohort_fenced coh).rest, State.writeBack_withThreads, State.writeBack_state]
  rfl

/-- A save request that stands on a cohort comes to a save (R305, R307). -/
theorem State.saveUnder_leaves {s : State} {coh : Nat} {c : Cohort} (hc : aget s.cohorts coh = some c)
    (hm : s.mustLeave coh c = true) : s.saveUnder coh = s.saveCohort coh (s.replayableNow coh) := by
  simp only [State.saveUnder, hc, hm, if_true]

/-- One that holds no more is withdrawn (R41). -/
theorem State.saveUnder_stays {s : State} {coh : Nat} {c : Cohort} (hc : aget s.cohorts coh = some c)
    (hm : s.mustLeave coh c = false) : s.saveUnder coh = s.withdrawSave coh := by
  simp only [State.saveUnder, hc, hm, Bool.false_eq_true, if_false]

/-- Only a request that makes room can cease to hold. -/
theorem State.forRoom_of_stays {s : State} {coh : Nat} {c : Cohort} (hm : s.mustLeave coh c = false) : c.forRoom = true := by
  cases h : c.forRoom
  · simp [State.mustLeave, h] at hm
  · rfl

theorem State.savePending_eq {s : State} {coh : Nat} {c : Cohort} (hc : aget s.cohorts coh = some c) :
    s.savePending coh = (c.pending && c.core.isSome) := by
  simp only [State.savePending, hc]

/-- A save event of a cohort whose engines have drained and whose request stands does what the request calls for. -/
theorem exec_save {i : Instr} {coh : Nat} {s : State} {c : Cohort} (hc : aget s.cohorts coh = some c)
    (hcore : c.core.isSome = true) (hd : s.drained coh = true) (hp : c.pending = true)
    (hi : i = .cohortSave coh ∧ (∀ u ∈ s.cohThreads coh, TStatus.settled u.2.status = true) ∨ i = .forcedSave coh) :
    exec i s = .next (s.saveUnder coh) := by
  have hs : s.savePending coh = true := by rw [State.savePending_eq hc, hp, hcore]; rfl
  rcases hi with ⟨rfl, hset⟩ | rfl
  · have hall : ((s.cohThreads coh).all fun e => TStatus.settled e.2.status) = true := List.all_eq_true.mpr hset
    rw [exec_cohortSave, hs, hall, hd]
    rfl
  · rw [exec_forcedSave, hs, hd]
    rfl

/-- REPLAYABLE_DESCHEDULE saves a cohort that R46 deschedules. -/
theorem exec_replayableDeschedule_saves {coh : Nat} {s : State} {c : Cohort} (hc : aget s.cohorts coh = some c)
    (hcore : c.core.isSome = true) (hd : s.drained coh = true) (hr : s.replayableNow coh = true) :
    exec (.replayableDeschedule coh) s = .next (s.saveCohort coh true) := by
  simp only [exec_replayableDeschedule, execReplayableDeschedule, hc, hcore, hr, hd, event, Bool.and_true, if_true]

/-- The threads of a saved cohort act as at a FENCE and are saved (R271, R307). -/
theorem State.saveCohort_thread {s : State} {coh : Nat} {c : Cohort} (replayable : Bool) (hc : aget s.cohorts coh = some c)
    {k : Nat} {u : Thread} (hu : aget s.threads k = some u) (hk : cohOf k = coh) :
    ∃ o, aget (s.saveCohort coh replayable).threads k = some (Thread.save { u with ord := o }) := by
  obtain ⟨o, ho⟩ := (s.fenceCohort_fenced coh).thread k u hu
  refine ⟨o, ?_⟩
  rw [saveCohort_eq replayable hc, aget_mapIf _ (fun e => cohOf e.1 = coh), ho, Option.map_some, if_pos hk]

theorem State.saveCohort_thread_other {s : State} {coh : Nat} {c : Cohort} (replayable : Bool)
    (hc : aget s.cohorts coh = some c) {k : Nat} (hk : cohOf k ≠ coh) :
    aget (s.saveCohort coh replayable).threads k = aget s.threads k := by
  rw [saveCohort_eq replayable hc, aget_mapIf _ (fun e => cohOf e.1 = coh), (s.fenceCohort_fenced coh).others k hk]
  simp only [if_neg hk, Option.map_id']

/-- What a withdrawn request leaves (R41, R306). -/
theorem State.withdrawSave_eq {s : State} {coh : Nat} {c : Cohort} (hc : aget s.cohorts coh = some c)
    (hp : c.pending = true) (hr : c.forRoom = true) : s.withdrawSave coh = { s with
      threads := s.threads.map fun e =>
        if cohOf e.1 = coh ∧ e.2.status = .preWait then (e.1, { e.2 with status := .ready }) else e
      cohorts := amod s.cohorts coh fun c => { c with pending := false, forRoom := false } } := by
  simp only [State.withdrawSave, hc, hp, hr, Bool.and_true, if_true]
  rfl

/-- A thread of its cohort that waits after PDONE goes on (R306). -/
theorem State.withdrawSave_thread {s : State} {coh : Nat} {c : Cohort} (hc : aget s.cohorts coh = some c)
    (hp : c.pending = true) (hr : c.forRoom = true) (k : Nat) : aget (s.withdrawSave coh).threads k =
      (aget s.threads k).map fun u => if cohOf k = coh then u.readmit else u := by
  rw [withdrawSave_eq hc hp hr]
  refine (aget_mapIf s.threads (fun e => cohOf e.1 = coh ∧ e.2.status = .preWait)
    (fun u => { u with status := .ready }) k).trans ?_
  congr 1
  funext u
  by_cases hk : cohOf k = coh <;> by_cases hw : u.status = .preWait <;> simp [hk, hw, Thread.readmit]

/-! ## Saved threads -/

/-- The thread stands in a template of two or more ops. -/
def Thread.split (u : Thread) : Prop := ∃ x, u.exp = some x ∧ 1 < x.ops.length

theorem Thread.split_iff (u : Thread) : (u.exp.any fun x => decide (1 < x.ops.length)) = true ↔ u.split := by
  simp [Thread.split, Option.any_eq_true]

theorem Thread.rollback_exp (u : Thread) : u.rollback.exp = none := by
  unfold Thread.rollback
  split
  · assumption
  · rfl

/-- The expansion that a save keeps: none, or that of a thread that waits at the op of a one-op template (R134). -/
theorem Thread.save_kept {u : Thread} (h : u.exp = none ∨ u.waits = true ∧ ¬ u.split) :
    u.save = { u with
      status := if u.status = .backoff then .ready else u.status, rdy := false, late := 0, yielded := false } := by
  have hk : (u.exp.isNone || (u.waits && !u.exp.any fun x => decide (1 < x.ops.length))) = true := by
    rcases h with h | ⟨hw, hs⟩
    · rw [h]; rfl
    · rw [hw, Bool.eq_false_iff.mpr (mt u.split_iff.mp hs)]
      simp
  simp only [Thread.save, hk, if_true]

/-- Any other expansion is discarded (R128). -/
theorem Thread.save_discards {u : Thread} (h : u.waits = false ∨ u.split) : u.save.exp = none := by
  cases hx : u.exp with
  | none => rw [save_kept (.inl hx)]; exact hx
  | some x =>
    have hk : ¬ (u.exp.isNone || (u.waits && !u.exp.any fun x => decide (1 < x.ops.length))) = true := by
      have hsome : u.exp.isNone = false := by rw [hx]; rfl
      rcases h with h | h
      · rw [h, hsome]
        exact Bool.false_ne_true
      · rw [u.split_iff.mpr h, hsome, Bool.not_true, Bool.and_false]
        exact Bool.false_ne_true
    simp only [Thread.save, hk]
    exact u.rollback_exp

/-- A thread that waited in it executes its guest instruction again (R134). -/
theorem Thread.save_ready {u : Thread} (hw : u.waits = true) (hs : u.split) : u.save.status = .ready := by
  have hx : u.exp.isNone = false := by
    obtain ⟨x, hx, -⟩ := hs
    rw [hx]; rfl
  simp [Thread.save, hx, hw, u.split_iff.mpr hs]

/-! ## The pre-emption handler -/

theorem tryAgent_looked {α : Type} {w : Who} {x : M α} (s : State) (hw : w.tid.isSome = true) (hx : Looks x) :
    s.Looked (tryAgent s w x).2 := by
  have hn : w.tid.isNone = false := by rw [← Option.not_isSome, hw]; rfl
  unfold tryAgent
  split
  · next h => exact hx.looked _ _ _ h
  · simp only [hn, Bool.and_false, Bool.false_eq_true, if_false]
    exact .of_eq rfl rfl

theorem State.agentRead_looked {w : Who} (s : State) (hw : w.tid.isSome = true) (ptr : Dword) (n : Nat)
    (view : List Nat) : s.Looked (s.agentRead w ptr n view).2 :=
  tryAgent_looked s hw (readVirt_looks w 7 8 (n / 8) (fun _ _ => readAfter_looks ..) ptr)

theorem State.findSafe_looked {w : Who} (s : State) (hw : w.tid.isSome = true) (known : List Nat) (ptr : Dword)
    (off n : Nat) : s.Looked (s.findSafe w known ptr off n).2 := by
  induction n generalizing s ptr with
  | zero => exact .refl s
  | succ n ih =>
    have h := s.agentRead_looked hw ptr 16 known
    unfold State.findSafe
    split
    · next hr => rw [hr] at h; exact h
    · next hr =>
      rw [hr] at h
      split
      · exact h
      · exact h.trans (ih ..)

theorem State.liveEntry_looked {w : Who} (s : State) (hw : w.tid.isSome = true) (known : List Nat) (dir : Dword)
    (pc j n : Nat) : s.Looked (s.liveEntry w known dir pc j n).2 := by
  induction n generalizing s j with
  | zero => exact .refl s
  | succ n ih =>
    have h := s.agentRead_looked hw (dir + BitVec.ofNat 64 (32 * j)) 32 known
    unfold State.liveEntry
    split
    · next hr => rw [hr] at h; exact h
    · next b s' hr =>
      rw [hr] at h
      dsimp only
      split
      · have hf := s'.findSafe_looked hw known (BitVec.ofNat 64 (field b 16 8)) (pc - field b 0 8) (field b 12 4)
        split
        · next hs => rw [hs] at hf; exact h.trans hf
        · next hs => rw [hs] at hf; exact (h.trans hf).trans (ih ..)
      · exact h.trans (ih ..)

/-- A thread that is to enter its pre-emption handler stands at a safe point under a save request (R305), and its SAFE
table has only been looked at. -/
theorem State.safeEntry_some {s s1 : State} {tid : Nat} {e : Env} {live : Dword} (he : s.envOf tid 0 = some e)
    (h : s.safeEntry tid = (some live, s1)) :
    e.c.pending = true ∧ e.c.prevec ≠ 0 ∧ e.th.preActive = false ∧ e.th.status = .ready ∧ e.c.core.isSome = true ∧
      s.Looked s1 := by
  simp only [State.safeEntry, he] at h
  split at h
  · cases h
  · next hn =>
    simp only [Bool.or_eq_true, Bool.not_eq_true', decide_eq_true_eq, not_or, Bool.not_eq_false, ne_eq,
      Decidable.not_not] at hn
    obtain ⟨⟨⟨⟨⟨⟨hp, hv⟩, ha⟩, hs⟩, hc⟩, -⟩, -⟩ := hn
    refine ⟨hp, hv, Bool.eq_false_iff.mpr ha, hs, ?_, ?_⟩
    · rw [← Option.not_isNone, Bool.not_eq_true']
      exact Bool.eq_false_iff.mpr hc
    · have hl := s.liveEntry_looked (w := e.who.noWatch) rfl (s.ordOf tid).known e.ctx.con.codedir e.th.pc.toNat 0 16
      rw [h] at hl
      exact hl

theorem State.Looked.prevec {s t : State} (h : s.Looked t) (k : Nat) :
    (aget t.cohorts k).map Cohort.prevec = (aget s.cohorts k).map Cohort.prevec := by
  have hb : Cohort.prevec = Cohort.prevec ∘ Cohort.bare := rfl
  rw [hb, ← Option.map_map, ← Option.map_map, h.cohorts k]

/-! ## Readmission -/

/-- A cohort's flags after its readmission is decided, before its placement. -/
def Cohort.back (c : Cohort) : Cohort :=
  { c with saved := false, replayable := false, pending := false, forRoom := false }

/-- The state in which a readmitted cohort is placed. -/
def State.returning (s : State) (coh : Nat) : State :=
  { s with
    cohorts := amod s.cohorts coh Cohort.back
    threads := s.threads.map fun e => if cohOf e.1 = coh then (e.1, e.2.readmit) else e }

theorem State.readmit_eq (s : State) (coh core : Nat) :
    s.readmit coh core = ((s.returning coh).place coh core).fenceCohort coh := rfl

theorem State.returning_cohort {s : State} {coh : Nat} {c : Cohort} (hc : aget s.cohorts coh = some c) :
    aget (s.returning coh).cohorts coh = some c.back := by
  rw [State.returning, aget_amod_same, hc, Option.map_some]

/-- A readmitted cohort is on the core (R309). -/
theorem State.readmit_cohorts {s : State} {coh : Nat} {c : Cohort} (core : Nat) (hc : aget s.cohorts coh = some c)
    (k : Nat) : aget (s.readmit coh core).cohorts k =
      (aget s.cohorts k).map fun c => if k = coh then { c.back with core := some core } else c := by
  rw [readmit_eq, (State.fenceCohort_fenced ..).rest, State.place_eq core (returning_cohort hc), aget_amod,
    State.returning, aget_amod, Option.map_map]
  congr 1
  funext x
  by_cases h : k = coh <;> simp [h]

theorem State.place_threads {s : State} {coh : Nat} {c : Cohort} (core : Nat) (hc : aget s.cohorts coh = some c) :
    (s.place coh core).threads = s.threads := by rw [place_eq core hc]

theorem State.readmit_thread {s : State} {coh : Nat} {c : Cohort} (core : Nat) (hc : aget s.cohorts coh = some c)
    {k : Nat} {u : Thread} (hu : aget s.threads k = some u) (hk : cohOf k = coh) :
    ∃ o, aget (s.readmit coh core).threads k = some { u.readmit with ord := o } := by
  refine (State.fenceCohort_fenced ((s.returning coh).place coh core) coh).thread k u.readmit ?_
  rw [place_threads core (returning_cohort hc), State.returning, aget_mapIf _ (fun e => cohOf e.1 = coh), hu,
    Option.map_some, if_pos hk]

theorem State.readmit_thread_other {s : State} {coh : Nat} {c : Cohort} (core : Nat) (hc : aget s.cohorts coh = some c)
    {k : Nat} (hk : cohOf k ≠ coh) : aget (s.readmit coh core).threads k = aget s.threads k := by
  rw [readmit_eq, (State.fenceCohort_fenced _ coh).others k hk, place_threads core (returning_cohort hc), State.returning,
    aget_mapIf _ (fun e => cohOf e.1 = coh)]
  simp only [if_neg hk, Option.map_id']

theorem State.fenceCohort_warps (s : State) (coh : Nat) : (s.fenceCohort coh).warps = s.warps := by
  rw [(s.fenceCohort_fenced coh).rest]

/-- What a readmission can change. -/
theorem State.readmit_state {s : State} {coh : Nat} {c : Cohort} (core : Nat) (hc : aget s.cohorts coh = some c) :
    s.readmit coh core = { s with
      cohorts := (s.readmit coh core).cohorts, threads := (s.readmit coh core).threads
      warps := (s.readmit coh core).warps, rotation := (s.readmit coh core).rotation
      fences := (s.readmit coh core).fences, free := (s.readmit coh core).free } := by
  rw [readmit_eq, (State.fenceCohort_fenced ..).rest, State.place_eq core (returning_cohort hc)]
  rfl

/-! ## The statement -/

/-- What SAVE_REQUEST does (R305). -/
theorem State.requestSave_pending {s : State} {coh : Nat} {c : Cohort} (hc : aget s.cohorts coh = some c) :
    aget (s.requestSave coh).cohorts coh =
      some (if c.core.isSome then { c with pending := true, forRoom := false } else c) := by
  rw [requestSave, modCohort_cohorts, aget_amod_same, hc, Option.map_some]

theorem State.requestSave_other (s : State) {coh k : Nat} (hk : k ≠ coh) :
    aget (s.requestSave coh).cohorts k = aget s.cohorts k := by
  rw [requestSave, modCohort_cohorts, aget_amod_other _ _ hk]

/-- Settles O44: requests, saves, withdrawn requests, saved threads, the entry of the pre-emption handler, and
readmission. -/
theorem savesAndReadmissions : Obligations.SavesAndReadmissions := by
  unfold Obligations.SavesAndReadmissions
  refine ⟨⟨fun coh s c hc => ?request, fun i coh s c replayable hc hcore hd hr hi => ?save,
    fun i coh s c hc hcore hd hp hm hi => ?withdraw, ?thread⟩, fun tid s s1 e live he hs hth => ?preempt,
    fun coh core s c l hc hl hcan hcore => ?readmit⟩
  case request =>
    exact ⟨_, exec_saveRequest coh s, rfl, s.requestSave_pending hc, fun k hk => s.requestSave_other hk⟩
  case save =>
    have hx : exec i s = .next (s.saveCohort coh replayable) := by
      have hr' : s.replayableNow coh = replayable :=
        Bool.eq_iff_iff.mpr ((s.replayableNow_iff coh).trans hr.symm)
      rcases hi with ⟨rfl, hp, hm, hset⟩ | ⟨rfl, hp, hm⟩ | ⟨rfl, hrep⟩
      · rw [exec_save hc hcore hd hp (.inl ⟨rfl, hset⟩), State.saveUnder_leaves hc hm, hr']
      · rw [exec_save hc hcore hd hp (.inr rfl), State.saveUnder_leaves hc hm, hr']
      · rw [exec_replayableDeschedule_saves hc hcore hd (hr'.trans hrep), hrep]
    refine ⟨_, hx, ?_, fun k hk => ?_, fun k u hu hk => State.saveCohort_thread replayable hc hu hk,
      fun k hk => State.saveCohort_thread_other replayable hc hk, fun k hk => ?_, ?_, ?_⟩
    · rw [State.saveCohort_eq replayable hc, aget_amod_same, hc, Option.map_some]
    · rw [State.saveCohort_eq replayable hc, aget_amod_other _ _ hk]
    · rw [State.saveCohort_eq replayable hc] at hk
      simpa using (List.mem_filter.mp hk).2
    · rw [State.saveCohort_eq replayable hc]
    · rw [State.saveCohort_eq replayable hc]
  case withdraw =>
    have hx : exec i s = .next (s.withdrawSave coh) := by
      rw [exec_save hc hcore hd hp hi, State.saveUnder_stays hc hm]
    have hroom := State.forRoom_of_stays hm
    have heq := State.withdrawSave_eq hc hp hroom
    refine ⟨_, hx, ?_, ?_, fun k hk => ?_, fun k hk => ?_, fun k u hk hu => ?_⟩
    · rw [heq]
    · rw [heq, aget_amod_same, hc, Option.map_some]
    · rw [heq, aget_amod_other _ _ hk]
    · rw [State.withdrawSave_thread hc hp hroom]
      simp only [if_neg hk, Option.map_id']
    · rw [State.withdrawSave_thread hc hp hroom, hu, Option.map_some, if_pos hk]
      rfl
  case thread =>
    exact fun u => ⟨Thread.save_kept, Thread.save_discards, Thread.save_ready⟩
  case preempt =>
    obtain ⟨hp, hv, ha, hst, hcore, hlook⟩ := State.safeEntry_some he hs
    have hx := exec_preemptHandlerEntry tid s
    simp only [execPreemptHandlerEntry, hs, event] at hx
    refine ⟨hp, hv, ha, hst, hcore, _, hx, ?_⟩
    rw [hlook.prevec]
    exact State.becomes_mod _ hth
  case readmit =>
    have hx : exec (.readmission coh core) s = .next (s.readmit coh core) := by
      simp only [exec_readmission, execReadmission, hc, hl, hcan, hcore, event, Bool.and_true, if_true]
    refine ⟨_, hx, ?_, fun k hk => ?_, fun k u hu hk => ?_, fun k hk => State.readmit_thread_other core hc hk,
      fun w x hw hwx => ?_, fun k hk => ?_, State.readmit_state core hc⟩
    · rw [State.readmit_cohorts core hc, hc, Option.map_some, if_pos rfl]
      rfl
    · rw [State.readmit_cohorts core hc]
      simp only [if_neg hk, Option.map_id']
    · exact State.readmit_thread core hc hu hk
    · rw [State.readmit_eq, State.fenceCohort_warps]
      exact State.place_warps core (State.returning_cohort hc) hw hwx
    · rw [State.readmit_eq, State.fenceCohort_warps]
      exact State.place_warps_other core (State.returning_cohort hc) hk

end Sys2Proof.Machine
end

section
/-! SUPPORT. Room for the lowest runnable thread of a launch (R41, R80, R313). -/

namespace Sys2Proof.Machine

theorem exec_makeRoom (launch core : Nat) (s : State) : exec (.makeRoom launch core) s = execMakeRoom launch core s := rfl

/-! ## Room that is given up -/

theorem State.mem_residents {s : State} {core : Nat} {e : Nat × Cohort} :
    e ∈ s.residents core ↔ e ∈ s.cohorts ∧ e.2.core = some core := by
  simp [State.residents]

/-- A withdrawn request changes cohorts and threads alone. -/
theorem State.withdrawSave_state (s : State) (coh : Nat) : s.withdrawSave coh =
    { s with cohorts := (s.withdrawSave coh).cohorts, threads := (s.withdrawSave coh).threads } := by
  unfold State.withdrawSave
  split
  · rfl
  · split <;> rfl

/-- A cohort without a request that makes room. -/
def Cohort.unasked (c : Cohort) : Cohort :=
  if c.pending = true ∧ c.forRoom = true then { c with pending := false, forRoom := false } else c

theorem Cohort.unasked_unasked (c : Cohort) : c.unasked.unasked = c.unasked := by
  unfold Cohort.unasked
  split <;> simp_all

theorem State.withdrawSave_cohort (s : State) (coh k : Nat) : aget (s.withdrawSave coh).cohorts k =
    (aget s.cohorts k).map fun c => if k = coh then c.unasked else c := by
  cases hc : aget s.cohorts coh with
  | none =>
    have h : s.withdrawSave coh = s := by simp only [State.withdrawSave, hc]
    rw [h]
    by_cases hk : k = coh
    · rw [hk, hc]; rfl
    · simp only [if_neg hk, Option.map_id']
  | some c =>
    by_cases hr : c.pending = true ∧ c.forRoom = true
    · rw [withdrawSave_eq hc hr.1 hr.2, aget_amod]
      by_cases hk : k = coh
      · rw [hk, hc]
        simp [Cohort.unasked, hr]
      · simp only [if_neg hk]
    · have h : s.withdrawSave coh = s := by
        simp only [State.withdrawSave, hc, Bool.and_eq_true, if_neg hr]
      rw [h]
      by_cases hk : k = coh
      · rw [hk, hc]
        simp [Cohort.unasked, hr]
      · simp only [if_neg hk, Option.map_id']

/-- Withdrawals of the requests of some cohorts. -/
def State.withdrawAll (s : State) (cs : List (Nat × Cohort)) : State := cs.foldl (fun s c => s.withdrawSave c.1) s

theorem State.withdrawAll_state (s : State) (cs : List (Nat × Cohort)) : s.withdrawAll cs =
    { s with cohorts := (s.withdrawAll cs).cohorts, threads := (s.withdrawAll cs).threads } := by
  induction cs generalizing s with
  | nil => rfl
  | cons c t ih =>
    have h : s.withdrawAll (c :: t) = (s.withdrawSave c.1).withdrawAll t := rfl
    rw [h, ih, s.withdrawSave_state c.1]

theorem State.withdrawAll_cohort (s : State) (cs : List (Nat × Cohort)) (k : Nat) :
    aget (s.withdrawAll cs).cohorts k =
      (aget s.cohorts k).map fun c => if k ∈ cs.map (·.1) then c.unasked else c := by
  induction cs generalizing s with
  | nil => simp [State.withdrawAll]
  | cons c t ih =>
    have h : s.withdrawAll (c :: t) = (s.withdrawSave c.1).withdrawAll t := rfl
    rw [h, ih, withdrawSave_cohort, Option.map_map]
    congr 1
    funext x
    simp only [Function.comp, List.map_cons, List.mem_cons]
    obtain rfl | h1 := eq_or_ne k c.1
    · by_cases h2 : c.1 ∈ t.map (·.1) <;> simp [h2, Cohort.unasked_unasked]
    · simp only [h1, false_or, if_false]

/-- The state in which a launch has no target core. -/
def State.roomless (s : State) (lid : Nat) : State := s.modLaunch lid fun l => { l with room := none }

theorem State.clearRoom_none {s : State} {lid : Nat} {l : Launch} (hl : aget s.launches lid = some l)
    (hr : l.room = none) : s.clearRoom lid = s := by
  simp only [State.clearRoom, hl, Option.bind_some, hr]

theorem State.clearRoom_some {s : State} {lid : Nat} {l : Launch} {k : Nat × Nat} (hl : aget s.launches lid = some l)
    (hr : l.room = some k) : s.clearRoom lid =
      if (s.roomless lid).soleRoom k.2 lid then (s.roomless lid).withdrawAll ((s.roomless lid).residents k.2)
      else s.roomless lid := by
  simp only [State.clearRoom, hl, Option.bind_some, hr]
  rfl

/-- Room that is given up changes the launch, and with the withdrawn requests cohorts and threads, alone. -/
theorem State.clearRoom_state {s : State} {lid : Nat} {l : Launch} {k : Nat × Nat} (hl : aget s.launches lid = some l)
    (hr : l.room = some k) : s.clearRoom lid = { s.roomless lid with
      cohorts := (s.clearRoom lid).cohorts, threads := (s.clearRoom lid).threads } := by
  rw [clearRoom_some hl hr]
  split
  · rw [withdrawAll_state]
  · rfl

/-- After it the launch has no target core. -/
theorem State.clearRoom_launch {s : State} {lid : Nat} {l : Launch} (hl : aget s.launches lid = some l) :
    aget (s.clearRoom lid).launches lid = some { l with room := none } := by
  cases hr : l.room with
  | none =>
    rw [clearRoom_none hl hr, hl, ← hr]
  | some k =>
    rw [clearRoom_state hl hr, State.roomless, modLaunch_launches, aget_amod_same, hl, Option.map_some]

theorem State.clearRoom_launch_other {s : State} {lid : Nat} {l : Launch} {k : Nat × Nat}
    (hl : aget s.launches lid = some l) (hr : l.room = some k) {j : Nat} (hj : j ≠ lid) :
    aget (s.clearRoom lid).launches j = aget s.launches j := by
  rw [clearRoom_state hl hr, State.roomless, modLaunch_launches, aget_amod_other _ _ hj]

/-- A core is the target of one launch alone, if of any. -/
theorem State.soleRoom_roomless (s : State) (core lid : Nat) : (s.roomless lid).soleRoom core lid = true ↔
    ∀ e ∈ s.launches, e.1 ≠ lid → e.2.room.map (·.2) ≠ some core := by
  simp only [State.soleRoom, State.roomless, State.modLaunch, amod, List.all_eq_true, List.mem_map,
    forall_exists_index, and_imp, forall_apply_eq_imp_iff₂, Bool.or_eq_true, beq_iff_eq, bne_iff_ne]
  refine forall₂_congr fun e _ => ?_
  by_cases h : e.1 = lid <;> simp [h]

/-- The requests that made the room are withdrawn, where no other launch has its target core there (R41). -/
theorem State.clearRoom_cohort {s : State} {lid : Nat} {l : Launch} {k : Nat × Nat} (hl : aget s.launches lid = some l)
    (hr : l.room = some k) (hs : rising 0 s.cohorts = true) {j : Nat} {c : Cohort} (hc : aget s.cohorts j = some c) :
    aget (s.clearRoom lid).cohorts j =
      some (if c.core = some k.2 ∧ (∀ e ∈ s.launches, e.1 ≠ lid → e.2.room.map (·.2) ≠ some k.2) then c.unasked else c) := by
  have hmem : j ∈ ((s.roomless lid).residents k.2).map (·.1) ↔ c.core = some k.2 := by
    simp only [List.mem_map, mem_residents]
    constructor
    · rintro ⟨e, ⟨he, hcore⟩, rfl⟩
      rw [← Option.some.inj ((aget_of_mem hs he).symm.trans hc)]
      exact hcore
    · exact fun h => ⟨(j, c), ⟨mem_of_aget hc, h⟩, rfl⟩
  rw [clearRoom_some hl hr]
  by_cases hsole : (s.roomless lid).soleRoom k.2 lid = true
  · rw [if_pos hsole, withdrawAll_cohort]
    have hc' : aget (s.roomless lid).cohorts j = some c := hc
    simp only [hc', Option.map_some, hmem, and_iff_left ((s.soleRoom_roomless ..).mp hsole)]
  · rw [if_neg hsole]
    simp only [mt (s.soleRoom_roomless ..).mpr hsole, and_false, if_false]
    exact hc

/-! ## The choice of cohorts to deschedule -/

/-- The cohorts to deschedule are the first of a list without which the need fits (R41). -/
theorem State.evictFor_some {s : State} {core lid : Nat} {n : Need} {own : Option Nat} {out cs r : List Nat}
    (h : s.evictFor core lid n own out cs = some r) : s.fitsWithout core lid n own r = true ∧
      ∃ new rest, r = out ++ new ∧ cs = new ++ rest ∧
        ∀ m, m < new.length → s.fitsWithout core lid n own (out ++ new.take m) = false := by
  induction cs generalizing out with
  | nil =>
    unfold State.evictFor at h
    split at h
    · next hf =>
      cases h
      exact ⟨hf, [], [], (List.append_nil _).symm, rfl, fun m hm => absurd hm (Nat.not_lt_zero m)⟩
    · cases h
  | cons c t ih =>
    unfold State.evictFor at h
    split at h
    · next hf =>
      cases h
      exact ⟨hf, [], c :: t, (List.append_nil _).symm, rfl, fun m hm => absurd hm (Nat.not_lt_zero m)⟩
    · next hn =>
      obtain ⟨hf, new, rest, rfl, rfl, hmin⟩ := ih h
      refine ⟨hf, c :: new, rest, by simp, rfl, fun m hm => ?_⟩
      cases m with
      | zero => simpa using hn
      | succ m => simpa using hmin m (Nat.lt_of_succ_lt_succ hm)

theorem mem_insertBy {α : Type} {le : α → α → Bool} {x y : α} {l : List α} : y ∈ insertBy le x l ↔ y = x ∨ y ∈ l := by
  induction l with
  | nil => simp [insertBy]
  | cons z t ih =>
    rw [insertBy]
    split
    · simp
    · simp [ih, or_left_comm]

theorem mem_sortBy {α : Type} {le : α → α → Bool} {y : α} {l : List α} : y ∈ sortBy le l ↔ y ∈ l := by
  induction l with
  | nil => rfl
  | cons x t ih => rw [sortBy, mem_insertBy, ih, List.mem_cons]

/-- A cohort that may be descheduled is resident on the core and does not keep its place (R41). -/
theorem State.mem_evictable {s : State} {core k : Nat} (h : k ∈ s.evictable core) :
    ∃ c, (k, c) ∈ s.cohorts ∧ c.core = some core ∧ s.keepsPlace k c = false := by
  simp only [State.evictable, List.mem_map, List.mem_append, mem_sortBy, List.mem_filter, mem_residents,
    Bool.not_eq_true'] at h
  obtain ⟨⟨k', c⟩, ⟨⟨⟨hmem, hcore⟩, hk⟩, -⟩ | ⟨⟨⟨hmem, hcore⟩, hk⟩, -⟩, rfl⟩ := h
  · exact ⟨c, hmem, hcore, hk⟩
  · exact ⟨c, hmem, hcore, hk⟩

/-- A cohort that does not keep its place holds neither its launch's lowest runnable thread nor, in a deterministic launch,
the token, and is not due there (R41, R313). -/
theorem State.of_keepsPlace_false {s : State} {coh : Nat} {c : Cohort} {l : Launch} (hk : s.keepsPlace coh c = false)
    (hl : aget s.launches c.launch = some l) : s.lowest c.launch l ≠ some (.cohort coh) ∧
      (l.rc.det = true → s.due coh = false) ∧ l.holder ≠ some coh := by
  simpa [State.keepsPlace, hl, and_assoc] using hk

/-! ## Requests that hold -/

/-- A launch still makes room on a core (R41). -/
theorem State.roomMade_iff (s : State) (core : Nat) : s.roomMade core = true ↔
    ∃ e ∈ s.launches, ∃ idx n, e.2.room = some (idx, core) ∧ s.roomNeed e.1 e.2 = some (idx, n) ∧
      s.fits core e.1 n (some idx) = false := by
  rw [State.roomMade, List.any_eq_true]
  refine exists_congr fun e => and_congr_right fun _ => ?_
  cases hr : e.2.room with
  | none => simp
  | some r =>
    cases hn : s.roomNeed e.1 e.2 with
    | none => simp
    | some n =>
      obtain ⟨i, k⟩ := r
      obtain ⟨j, n⟩ := n
      simp only [Bool.and_eq_true, beq_iff_eq, Bool.not_eq_true', Option.some.injEq, Prod.mk.injEq]
      constructor
      · rintro ⟨⟨rfl, rfl⟩, hf⟩
        exact ⟨i, n, ⟨rfl, rfl⟩, ⟨rfl, rfl⟩, hf⟩
      · rintro ⟨idx, n', ⟨rfl, rfl⟩, ⟨rfl, rfl⟩, hf⟩
        exact ⟨⟨rfl, rfl⟩, hf⟩

/-- A request that makes room holds while the needed cohort does not fit, another one always (R41). -/
theorem State.mustLeave_iff {s : State} {coh core : Nat} {c : Cohort} (hc : c.core = some core) :
    s.mustLeave coh c = true ↔ c.forRoom = false ∨ s.keepsPlace coh c = false ∧ s.roomMade core = true := by
  simp [State.mustLeave, hc]

/-! ## The making of room -/

section makeRoom
variable {launch core : Nat} {s : State} {l : Launch} {idx : Nat} {n : Need}

/-- Room for a cohort that is not needed any more is given up. -/
theorem exec_makeRoom_clears (hl : aget s.launches launch = some l)
    (h : ∃ k, l.room = some k ∧ (s.roomNeed launch l).map (·.1) ≠ some k.1) :
    exec (.makeRoom launch core) s = .next (s.clearRoom launch) := by
  obtain ⟨k, hk, hne⟩ := h
  have hany : (l.room.any fun r => (s.roomNeed launch l).map (·.1) != some r.1) = true := by
    rw [hk]
    exact bne_iff_ne.mpr hne
  simp only [exec_makeRoom, execMakeRoom, hl, hany, event, if_true]

/-- The launch needs room, has none held for another cohort, and can make it on this core (R41, R80, R313). -/
structure State.MakesRoom (s : State) (launch core : Nat) (l : Launch) (idx : Nat) (n : Need) : Prop where
  found : aget s.launches launch = some l
  need : s.roomNeed launch l = some (idx, n)
  own : ∀ k, l.room = some k → k.1 = idx
  mine : if l.rc.kind = 2 then secOfCore core = l.sec else s.pidOfCore core = l.pid ∧ core < 256
  round : l.rc.det = true → s.nextDue launch l = none

/-- The needed cohort takes its place where it fits; else room is sought. -/
theorem State.MakesRoom.exec (h : s.MakesRoom launch core l idx n) : exec (.makeRoom launch core) s =
    .next (if s.fits core launch n (some idx) then s.takeRoom launch core l else s.seekRoom launch core idx n) := by
  obtain ⟨hl, hneed, hown, hmine, hround⟩ := h
  have hany : (l.room.any fun r => (s.roomNeed launch l).map (·.1) != some r.1) = false := by
    cases hr : l.room with
    | none => rfl
    | some k => simp [hneed, hown k hr]
  have hm : (if l.rc.kind = 2 then secOfCore core == l.sec else (s.coresOf l.pid).contains core) = true := by
    split
    · next hk => rw [if_pos hk] at hmine; exact beq_iff_eq.mpr hmine
    · next hk =>
      rw [if_neg hk] at hmine
      exact List.contains_iff_mem.mpr (mem_coresOf.mpr hmine.symm)
  have hd : (l.rc.det && (s.nextDue launch l).isSome) = false := by
    cases hdet : l.rc.det with
    | false => rfl
    | true => rw [hround hdet]; rfl
  rw [hneed] at hany
  simp only [exec_makeRoom, execMakeRoom, hl, hneed, hany, hm, hd, event, Bool.not_true, Bool.or_false, Bool.false_eq_true,
    if_false]
  split <;> rfl

theorem State.takeRoom_cohort {c : Nat} {x : Cohort} (hw : s.wanted launch l = some (.cohort c))
    (hx : aget s.cohorts c = some x) : s.takeRoom launch core l =
      if s.readmitCore c core x l then (s.clearRoom launch).readmit c core else s := by
  simp only [State.takeRoom, hw, hx]

/-- Fires and the cohorts of rounds are created elsewhere (R313). -/
theorem State.takeRoom_fresh_other {k : Nat} (hw : s.wanted launch l = some (.fresh k))
    (h : l.rc.kind ≠ 1 ∨ l.rc.det = true) : s.takeRoom launch core l = s := by
  have hb : (decide (l.rc.kind ≠ 1) || l.rc.det) = true := by simpa using h
  simp only [State.takeRoom, hw, hb, if_true]

theorem State.takeRoom_fresh {k : Nat} (hw : s.wanted launch l = some (.fresh k)) (hk : l.rc.kind = 1)
    (hd : l.rc.det = false) : s.takeRoom launch core l = (s.clearRoom launch).createAt launch core k l := by
  simp [State.takeRoom, hw, hk, hd]

/-- While the chosen target can still be one, no other core is asked (R41). -/
theorem State.seekRoom_target {k : Nat} (hl : aget s.launches launch = some l) (hr : l.room = some (idx, k))
    (hk : (s.roomAt k launch idx n).isSome = true) : s.seekRoom launch core idx n =
      if k = core then s.askNext launch core idx n else s := by
  have ht : s.target launch idx n = some k := by
    simp only [State.target, hl, hr, hk, Option.bind_some, Bool.and_true, decide_true, if_true]
  simp only [State.seekRoom, ht]

/-- Where no target can be one any more, the core becomes it if it can be one. -/
theorem State.seekRoom_new (hl : aget s.launches launch = some l)
    (hr : ∀ k, l.room = some (idx, k) → s.roomAt k launch idx n = none) : s.seekRoom launch core idx n =
      if ((s.clearRoom launch).roomAt core launch idx n).isSome then
        ((s.clearRoom launch).modLaunch launch fun y => { y with room := some (idx, core) }).askNext launch core idx n
      else s.clearRoom launch := by
  have ht : s.target launch idx n = none := by
    cases hroom : l.room with
    | none => simp only [State.target, hl, hroom, Option.bind_some, Option.bind_none]
    | some r =>
      obtain ⟨i, k⟩ := r
      by_cases hi : i = idx
      · simp [State.target, hl, hroom, hr k (hi ▸ hroom)]
      · simp [State.target, hl, hroom, hi]
  simp only [State.seekRoom, ht]

end makeRoom

/-! ## The statement -/

/-- Settles O45: the making of room, the choice of cohorts, room that is given up, requests that hold, and the cohorts
that may be descheduled. -/
theorem roomMaking : Obligations.RoomMaking := by
  unfold Obligations.RoomMaking
  refine ⟨fun launch core s l hl => ?make, fun core launch idx s n cs h => ?choice, fun launch s l k hl hr hs => ?clear,
    fun coh core s c hc => ?holds, fun core s k hk => ?evictable⟩
  case make =>
    intro i need r ask
    refine ⟨fun h => exec_makeRoom_clears hl h, fun idx n hneed hown hmine hround => ?_⟩
    have hm : s.MakesRoom launch core l idx n := ⟨hl, hneed, hown, hmine, hround⟩
    refine ⟨fun hfits => ?fits, fun hfits => ?seeks⟩
    case fits =>
      have hx : exec i s = .next (s.takeRoom launch core l) := by rw [hm.exec, if_pos hfits]
      refine ⟨fun c x hw hc => ?_, fun k hw hk => ?_, fun k hw hk hd => ⟨fun hp => ?_, fun hp => ?_⟩⟩
      · rw [hx, State.takeRoom_cohort hw hc]
      · rw [hx, State.takeRoom_fresh_other hw hk]
      · refine ⟨_, _, hx, rfl, ?_⟩
        rw [State.takeRoom_fresh hw hk hd, State.createAt, if_pos hp]
        exact State.newCohort_createCohort (State.clearRoom_launch hl) ..
      · refine ⟨_, hx, fun x hlx => ?_⟩
        rw [State.takeRoom_fresh hw hk hd, State.createAt, if_neg (by rw [hp]; exact Bool.false_ne_true)]
        exact State.newCohort_createCohort hlx ..
    case seeks =>
      have hx : exec i s = .next (s.seekRoom launch core idx n) := by
        rw [hm.exec, if_neg (by rw [hfits]; exact Bool.false_ne_true)]
      have hask : ∀ x : State, x.askNext launch core idx n = ask x ((x.roomAt core launch idx n).getD []) := by
        intro x
        simp only [State.askNext, ask]
        cases x.asked core with
        | cons => rfl
        | nil =>
          rcases x.roomAt core launch idx n with _ | _ | ⟨c, cs⟩ <;> rfl
      refine ⟨fun k hk hroom => ⟨fun hne => ?_, fun heq => ?_⟩, fun hnone => ⟨fun hroom => ?_, fun hroom => ?_⟩⟩
      · rw [hx, State.seekRoom_target hl hk hroom, if_neg hne]
      · rw [hx, State.seekRoom_target hl hk hroom, if_pos heq, hask]
      · rw [hx, State.seekRoom_new hl hnone, hroom, Option.isSome_none, if_neg Bool.false_ne_true]
      · rw [hx, State.seekRoom_new hl hnone, if_pos hroom, hask]
  case choice =>
    intro others
    obtain ⟨hf, new, rest, hcs, hothers, hmin⟩ := State.evictFor_some h
    exact ⟨hf, new, rest, hcs, hothers, hmin⟩
  case clear =>
    intro r
    refine ⟨State.clearRoom_launch hl, fun j hj => State.clearRoom_launch_other hl hr hj, ?_, fun j c hc => ?_⟩
    · simp only [r]
      rw [State.clearRoom_state hl hr]
      rfl
    · rw [State.clearRoom_cohort hl hr hs hc]
      by_cases h : c.pending = true ∧ c.forRoom = true
      · simp only [Cohort.unasked, h.1, h.2, true_and, and_self, if_true]
      · rw [Cohort.unasked, if_neg h, ite_self, if_neg fun hx => h ⟨hx.2.1, hx.2.2.1⟩]
  case holds =>
    rw [State.mustLeave_iff hc, State.roomMade_iff]
  case evictable =>
    obtain ⟨c, hmem, hcore, hkeeps⟩ := State.mem_evictable hk
    exact ⟨c, hmem, hcore, fun l hl => State.of_keepsPlace_false hkeeps hl⟩

end Sys2Proof.Machine
end

section
/-! SUPPORT. What the end of a launch leaves of the launches: held ones stay held, a status stays, and a launch without one
gets that of the end or, as a held part of a gang, GANG_ROLLBACK (R110, R303, R334). -/

namespace Sys2Proof.Machine

/-- l' is l as an end with a status can leave it. -/
structure Launch.EndsBy (st : Nat) (l l' : Launch) : Prop where
  held : l'.held = l.held
  signaled : l.signaled = true → l'.signaled = true
  status : l'.status = l.status ∨ l.status = none ∧ (l'.status = some st ∨ l.held = true ∧ l'.status = some stRollback)

theorem Launch.EndsBy.of_eq {st : Nat} {l l' : Launch} (hh : l'.held = l.held) (hs : l'.signaled = l.signaled)
    (ht : l'.status = l.status) : l.EndsBy st l' := ⟨hh, fun h => hs.trans h, .inl ht⟩

theorem Launch.EndsBy.refl (st : Nat) (l : Launch) : l.EndsBy st l := .of_eq rfl rfl rfl

theorem Launch.EndsBy.trans {st : Nat} {a b c : Launch} (h : a.EndsBy st b) (g : b.EndsBy st c) : a.EndsBy st c := by
  refine ⟨g.held.trans h.held, fun hs => g.signaled (h.signaled hs), ?_⟩
  rcases g.status with g1 | ⟨gn, g2⟩
  · rw [g1]
    exact h.status
  · rcases h.status with h1 | ⟨-, h1 | ⟨-, h1⟩⟩
    · rw [h.held] at g2
      exact .inr ⟨h1.symm.trans gn, g2⟩
    · rw [gn] at h1
      cases h1
    · rw [gn] at h1
      cases h1

theorem Launch.EndsBy.keeps {st n : Nat} {l l' : Launch} (h : l.EndsBy st l') (hn : l.status = some n) :
    l'.status = some n := by
  rcases h.status with h1 | ⟨h1, -⟩
  · exact h1.trans hn
  · rw [hn] at h1
    cases h1

/-- Every launch of t is the one of s as ends with a status can leave it. -/
structure State.Ending (st : Nat) (s t : State) : Prop where
  rel : ∀ k, Option.Rel (Launch.EndsBy st) (aget s.launches k) (aget t.launches k)

theorem Launch.EndsBy.rel_trans {st : Nat} {a b c : Option Launch} (h : Option.Rel (Launch.EndsBy st) a b)
    (g : Option.Rel (Launch.EndsBy st) b c) : Option.Rel (Launch.EndsBy st) a c := by
  cases h with
  | none => exact g
  | some he =>
    cases g with
    | some ge => exact .some (he.trans ge)

theorem rel_map {α : Type} {R : α → α → Prop} {o : Option α} {f : α → α} (h : ∀ a, o = some a → R a (f a)) :
    Option.Rel R o (o.map f) := by
  cases o with
  | none => exact .none
  | some a => exact .some (h a rfl)

section
variable {st : Nat} {s t : State}

theorem State.Ending.of_map {f : Nat → Launch → Launch} (hf : ∀ k l, aget s.launches k = some l → l.EndsBy st (f k l))
    (h : ∀ k, aget t.launches k = (aget s.launches k).map (f k)) : State.Ending st s t :=
  ⟨fun k => by rw [h k]; exact rel_map (hf k)⟩

theorem State.Ending.of_eq (h : t.launches = s.launches) : State.Ending st s t :=
  .of_map (f := fun _ => id) (fun _ l _ => .refl st l) fun _ => by rw [h, Option.map_id_fun, id]

theorem State.Ending.refl (st : Nat) (s : State) : State.Ending st s s := .of_eq rfl

theorem State.Ending.get (h : State.Ending st s t) {k : Nat} {l : Launch} (hl : aget s.launches k = some l) :
    ∃ l', aget t.launches k = some l' ∧ l.EndsBy st l' := by
  have hk := h.rel k
  rw [hl] at hk
  generalize aget t.launches k = o at hk ⊢
  cases hk with
  | some he => exact ⟨_, rfl, he⟩

theorem State.Ending.of_get (h : State.Ending st s t) {k : Nat} {l' : Launch} (hl : aget t.launches k = some l') :
    ∃ l, aget s.launches k = some l ∧ l.EndsBy st l' := by
  have hk := h.rel k
  rw [hl] at hk
  generalize aget s.launches k = o at hk ⊢
  cases hk with
  | some he => exact ⟨_, rfl, he⟩

theorem State.Ending.trans {u : State} (h : State.Ending st s t) (g : State.Ending st t u) : State.Ending st s u :=
  ⟨fun k => Launch.EndsBy.rel_trans (h.rel k) (g.rel k)⟩

theorem State.Looked.ending (h : s.Looked t) : State.Ending st s t := .of_eq h.launches

/-- One launch is changed. -/
theorem State.Ending.of_amod {lid : Nat} {f : Launch → Launch} (hf : ∀ l, aget s.launches lid = some l → l.EndsBy st (f l))
    (h : t.launches = amod s.launches lid f) : State.Ending st s t := by
  refine .of_map (f := fun k l => if k = lid then f l else l) (fun k l hl => ?_) fun k => by rw [h, aget_amod]
  split
  · next hk => exact hf l (hk ▸ hl)
  · exact .refl st l

/-- A fold of steps that ends with a status can make. -/
theorem State.Ending.foldl {α : Type} (xs : List α) (g : State → α → State) (s : State)
    (hg : ∀ (t : State) (x : α), State.Ending st t (g t x)) : State.Ending st s (xs.foldl g s) :=
  List.foldlRecOn (motive := State.Ending st s) xs g (.refl st s) fun t ht x _ => ht.trans (hg t x)

end

/-! ## Freed slots -/

theorem State.loadRange_ending (st : Nat) (s : State) (lid : Nat) (p : PendRange) (slot core : Nat) :
    State.Ending st s (s.loadRange lid p slot core) :=
  .of_amod (f := fun l => { l with pend := l.pend.filter fun q => q != p }) (fun _ _ => .of_eq rfl rfl rfl) rfl

theorem State.refillSlot_ending (st : Nat) (s : State) (sec slot : Nat) : State.Ending st s (s.refillSlot sec slot) := by
  unfold State.refillSlot
  split
  · exact .refl st s
  · split_ifs
    · split
      · next r _ =>
        exact (State.Ending.of_eq (s := s) (t := { s with works := s.works.filter fun x => x != r }) rfl).trans
          (State.loadRange_ending ..)
      · exact s.loadRange_ending st ..
    · exact .refl st s

theorem State.refillAll_ending (st : Nat) (s : State) : State.Ending st s s.refillAll := by
  unfold State.refillAll
  split
  · exact .refl st s
  · exact .foldl _ _ s fun t k => t.refillSlot_ending st ..

/-! ## The end of a launch -/

theorem State.dropCohort_launches (s : State) (coh : Nat) : (s.dropCohort coh).launches = s.launches := by
  unfold State.dropCohort
  split
  · rw [State.writeBack_state]
  · rfl

theorem State.disarm_launches (s : State) (lid : Nat) : (s.disarm lid).launches = s.launches := by
  unfold State.disarm
  split <;> rfl

theorem State.dropGang_ending (st : Nat) (s : State) (lid : Nat) (l : Launch) : State.Ending st s (s.dropGang lid l) := by
  unfold State.dropGang
  split
  · exact .refl st s
  · refine .of_map (f := fun k x => if l.parts.contains k && x.held && x.status.isNone then
      { x with status := some stRollback } else x) (fun k x _ => ?_) fun k =>
        aget_mapIf s.launches (fun e => (l.parts.contains e.1 && e.2.held && e.2.status.isNone) = true)
          (fun x => { x with status := some stRollback }) k
    split
    · next h =>
      simp only [Bool.and_eq_true, Option.isNone_iff_eq_none] at h
      exact ⟨rfl, id, .inr ⟨h.2, .inr ⟨h.1.2, rfl⟩⟩⟩
    · exact .refl st x

/-- What stops with a launch: its cohorts, its arming, and before its commit its gang. -/
def State.haltLaunch (s : State) (lid : Nat) (l : Launch) : State :=
  (((s.launchCohorts lid).foldl (fun s c => (s.beforeSignal lid (s.completedBy c.1)).dropCohort c.1) s).disarm lid).dropGang
    lid l

/-- A launch gets its status, with nothing of it left to run. -/
def State.markEnded (s : State) (lid status : Nat) : State :=
  { s with
    walkers := s.walkers.filter fun w => w.launch != lid
    works := s.works.filter fun r => r.launch != lid
    colls := s.colls.filter fun c => c.launch != lid
    launches := amod s.launches lid fun l => { l with pend := [], saved := [], status := some status } }

theorem State.endLaunch_ended {s : State} {lid status : Nat} {l : Launch} (hl : aget s.launches lid = some l)
    (h : l.status.isSome = true) : s.endLaunch lid status = s := by
  simp only [State.endLaunch, hl, h, if_true]

theorem State.endLaunch_running {s : State} {lid status : Nat} {l : Launch} (hl : aget s.launches lid = some l)
    (h : l.status = none) :
    s.endLaunch lid status = ((s.haltLaunch lid l).markEnded lid status).fixRotation.refillAll := by
  simp only [State.endLaunch, hl, h, Option.isSome_none, Bool.false_eq_true, if_false]
  rfl

theorem State.haltLaunch_ending (st : Nat) (s : State) (lid : Nat) (l : Launch) :
    State.Ending st s (s.haltLaunch lid l) := by
  have h : State.Ending st s ((s.launchCohorts lid).foldl
      (fun s c => (s.beforeSignal lid (s.completedBy c.1)).dropCohort c.1) s) :=
    .foldl _ _ s fun t c => (State.Ending.of_amod (lid := lid)
      (f := fun l => { l with endView := joinView l.endView (t.completedBy c.1) }) (fun _ _ => .of_eq rfl rfl rfl) rfl).trans
        (.of_eq (dropCohort_launches ..))
  exact (h.trans (.of_eq (disarm_launches ..))).trans (dropGang_ending ..)

theorem State.rest_ending (st : Nat) (s : State) : State.Ending st s s.fixRotation.refillAll :=
  (State.Ending.of_eq (s := s) (t := s.fixRotation) rfl).trans (refillAll_ending ..)

/-- The halted launch gets the status, also where as a part of its own gang it has GANG_ROLLBACK by now. -/
theorem State.markEnded_status {s : State} {lid : Nat} {l : Launch} (status : Nat) (hl : aget s.launches lid = some l) :
    aget (s.markEnded lid status).launches lid = some { l with pend := [], saved := [], status := some status } := by
  rw [markEnded, aget_amod_same, hl, Option.map_some]

/-- A launch that ends without a status before gets that of the end. -/
theorem State.endLaunch_status {s : State} {lid status : Nat} {l : Launch} (hl : aget s.launches lid = some l)
    (h : l.status = none) :
    ∃ l', aget (s.endLaunch lid status).launches lid = some l' ∧ l.EndsBy status l' ∧ l'.status = some status := by
  obtain ⟨l1, hl1, he1⟩ := (s.haltLaunch_ending status lid l).get hl
  obtain ⟨l2, hl2, he2⟩ := (State.rest_ending status _).get (State.markEnded_status status hl1)
  have hs : l2.status = some status := he2.keeps rfl
  exact ⟨l2, by rw [endLaunch_running hl h, hl2], ⟨he2.held.trans he1.held, fun x => he2.signaled (he1.signaled x),
    .inr ⟨h, .inl hs⟩⟩, hs⟩

theorem State.endLaunch_ending (s : State) (lid status : Nat) : State.Ending status s (s.endLaunch lid status) := by
  cases hl : aget s.launches lid with
  | none =>
    rw [State.endLaunch, hl]
    exact .refl status s
  | some l =>
    cases h : l.status with
    | some n =>
      rw [endLaunch_ended hl (by rw [h]; rfl)]
      exact .refl status s
    | none =>
      refine ⟨fun k => ?_⟩
      obtain rfl | hk := eq_or_ne k lid
      · obtain ⟨l2, hl2, he, -⟩ := State.endLaunch_status (status := status) hl h
        rw [hl, hl2]
        exact .some he
      · have hm : aget ((s.haltLaunch lid l).markEnded lid status).launches k = aget (s.haltLaunch lid l).launches k := by
          rw [State.markEnded, aget_amod_other _ _ hk]
        rw [endLaunch_running hl h]
        exact Launch.EndsBy.rel_trans ((s.haltLaunch_ending status lid l).rel k) (hm ▸ (State.rest_ending status _).rel k)

/-! ## A partition stop -/

theorem State.stopPartition_ending (s : State) (pid : Nat) : State.Ending stFault s (s.stopPartition pid) := by
  have h : State.Ending stFault s (s.launches.foldl (fun s l => if l.2.pid == pid then s.endLaunch l.1 stFault else s) s) := by
    refine .foldl _ _ s fun t l => ?_
    split
    · exact t.endLaunch_ending ..
    · exact .refl _ t
  refine h.trans (.of_map (f := fun _ l => if l.pid = pid then { l with signaled := true } else l) (fun k l _ => ?_)
    fun k => aget_mapIf _ (fun e : Nat × Launch => e.2.pid = pid) (fun l => { l with signaled := true }) k)
  split
  · exact ⟨rfl, fun _ => rfl, .inl rfl⟩
  · exact .refl _ l

/-! ## Writes for an agent, which may stop a partition -/

theorem State.writeMem_launches (s : State) (key : Nat) (bs : List Byte) (view : List Nat) (rels : List Rel) :
    (s.writeMem key bs view rels).launches = s.launches :=
  (State.recall_looked _ key bs.length true).launches.trans (s.recall_looked key bs.length false).launches

/-- Where the computation ends well, launches are left as ends with FAULT can leave them. -/
structure Ends {α : Type} (x : M α) : Prop where
  ending : ∀ (s t : State) (a : α), x s = .ok a t → State.Ending stFault s t

theorem Looks.ends {α : Type} {x : M α} (h : Looks x) : Ends x := ⟨fun s t a hx => (h.looked s t a hx).ending⟩

theorem Ends.bind {α β : Type} {x : M α} {f : α → M β} (hx : Ends x) (hf : ∀ a, Ends (f a)) : Ends (x >>= f) := by
  refine ⟨fun s t b h => ?_⟩
  cases hxs : x s with
  | ok a s' =>
    rw [bind_ok hxs] at h
    exact (hx.ending s s' a hxs).trans ((hf a).ending s' t b h)
  | error f' s' =>
    rw [bind_error hxs] at h
    cases h

theorem storeM_ends (w : Who) (key : Nat) (bs : List Byte) (view : List Nat) (rels : List Rel) :
    Ends (storeM w key bs view rels) := by
  refine (linkNeedM_looks key).ends.bind fun b => ?_
  cases b with
  | true => exact ⟨fun s t a h => by cases h; exact s.stopPartition_ending w.pid⟩
  | false => exact ⟨fun s t a h => by cases h; exact .of_eq (s.writeMem_launches ..)⟩

theorem writeVirt_ends (w : Who) (acc unit units : Nat) (view : List Nat) (rels : List Rel) (ptr : Dword) (bs : List Byte) :
    Ends (writeVirt w ptr acc unit bs units view rels) := by
  induction units generalizing ptr bs with
  | zero => exact (looks_pure _).ends
  | succ u ih => exact (checkPlace_looks ..).ends.bind fun _ => (storeM_ends ..).bind fun _ => ih ..

theorem tryAgent_ending {α : Type} {x : M α} (s : State) (w : Who) (hx : Ends x) :
    State.Ending stFault s (tryAgent s w x).2 := by
  unfold tryAgent
  split
  · next h => exact hx.ending _ _ _ h
  · next f s' _ =>
    have h : State.Ending stFault s { s with free := s'.free, seen := s'.seen } := .of_eq rfl
    dsimp only
    split
    · exact h.trans (State.stopPartition_ending ..)
    · exact h

/-! ## The completion signal -/

/-- A launch is signaled, and what its end comes after comes before what its front end does next. -/
def State.signaling (s : State) (lid : Nat) (l : Launch) : State :=
  let s' := s.modLaunch lid fun l => { l with signaled := true }
  match l.ownerQ with
  | some q => { s' with queues := amod s'.queues q fun q => { q with view := joinView q.view l.endView } }
  | none => s'

theorem State.signaling_launch {s : State} {lid : Nat} {l : Launch} (hl : aget s.launches lid = some l) :
    aget (s.signaling lid l).launches lid = some { l with signaled := true } := by
  have h : (s.signaling lid l).launches = amod s.launches lid fun l => { l with signaled := true } := by
    unfold State.signaling
    split <;> rfl
  rw [h, aget_amod_same, hl, Option.map_some]

/-- The signal of a launch that has ended: at most one store, of an agent. -/
theorem State.signal_ending {s : State} {lid st : Nat} {l : Launch} (hl : aget s.launches lid = some l)
    (hs : l.status = some st) (hn : l.signaled = false) : State.Ending stFault (s.signaling lid l) (s.signal lid) := by
  simp only [State.signal, hl, hs, hn, Bool.false_eq_true, if_false]
  split
  · split_ifs
    · exact .refl _ (s.signaling lid l)
    · exact .refl _ (s.signaling lid l)
    · exact tryAgent_ending (s.signaling lid l) _ (writeVirt_ends ..)
  · exact .refl _ (s.signaling lid l)
  · next h => cases h

theorem State.signal_signaled {s : State} {lid : Nat} {l : Launch} (hl : aget s.launches lid = some l)
    (h : l.signaled = true) : s.signal lid = s ∨ s.signal lid = s.signaling lid l := by
  simp only [State.signal, hl, h, if_true]
  split
  · exact .inl rfl
  · exact .inr rfl
  · exact .inl rfl

/-- A launch that has ended is signaled, and keeps its status (R75). -/
theorem State.signal_launch {s : State} {lid st : Nat} {l : Launch} (hl : aget s.launches lid = some l)
    (hs : l.status = some st) :
    ∃ x, aget (s.signal lid).launches lid = some x ∧ x.status = some st ∧ x.signaled = true := by
  cases hn : l.signaled with
  | true =>
    rcases State.signal_signaled hl hn with h | h
    · rw [h]
      exact ⟨l, hl, hs, hn⟩
    · rw [h]
      exact ⟨_, State.signaling_launch hl, hs, rfl⟩
  | false =>
    obtain ⟨x, hx, he⟩ := (State.signal_ending hl hs hn).get (State.signaling_launch hl)
    exact ⟨x, hx, he.keeps hs, he.signaled rfl⟩

end Sys2Proof.Machine
end

section
/-! SUPPORT. The frame of an owner command, and what commands do to records, stash lines, frames, watchpoints and gangs
(R295, R327, R334, R336). -/

namespace Sys2Proof.Machine

/-! ## Lists of keys -/

/-- Records under a list of keys are changed, by what a second time changes nothing more. -/
theorem aget_foldl_amod_list {α : Type} (m : Assoc α) (ks : List Nat) {f : α → α} (hf : ∀ v, f (f v) = f v) (k : Nat) :
    aget (ks.foldl (fun m j => amod m j f) m) k = (aget m k).map fun v => if k ∈ ks then f v else v := by
  induction ks generalizing m with
  | nil => simp
  | cons j t ih =>
    rw [List.foldl_cons, ih, aget_amod, Option.map_map]
    congr 1
    funext v
    by_cases h : k = j
    · subst h
      simp only [Function.comp, if_true, hf, ite_self, List.mem_cons_self]
    · simp only [Function.comp, h, if_false, List.mem_cons, false_or]

/-- One record is put under a list of keys. -/
theorem aget_foldl_aset_list {α β : Type} (m : Assoc α) (xs : List β) (key : β → Nat) (v : α) (k : Nat) :
    aget (xs.foldl (fun m x => aset m (key x) v) m) k = if ∃ x ∈ xs, key x = k then some v else aget m k := by
  induction xs generalizing m with
  | nil => simp
  | cons x t ih =>
    rw [List.foldl_cons, ih]
    by_cases h : ∃ x ∈ t, key x = k
    · rw [if_pos h, if_pos (by simpa using .inr h)]
    · rw [if_neg h]
      by_cases hx : key x = k
      · rw [if_pos ⟨x, List.mem_cons_self, hx⟩, ← hx, aget_aset_same]
      · rw [aget_aset_other _ _ (Ne.symm hx), if_neg (by simpa [hx] using h)]

/-- What is left of a sparse map where entries are removed by their keys. -/
theorem sget_filter {n : Nat} (m : Sparse n) (p : Nat → Bool) (k : Nat) :
    sget (m.filter fun e => p e.1) k = if p k then sget m k else 0 := by
  induction m with
  | nil => simp
  | cons e t ih =>
    by_cases he : e.1 = k
    · subst he
      cases hp : p e.1 <;> simp [hp, sget, ih]
    · cases hp : p e.1 <;> simp [hp, sget, ih, he]

theorem nodup_eraseDups : ∀ l : List Nat, l.eraseDups.Nodup
  | [] => List.nodup_nil
  | a :: t => by
    rw [List.eraseDups_cons, List.nodup_cons]
    exact ⟨by simp [List.mem_eraseDups], nodup_eraseDups _⟩
termination_by l => l.length
decreasing_by exact Nat.lt_succ_of_le (List.length_filter_le ..)

theorem length_eraseDups_eq_iff (l : List Nat) : l.eraseDups.length = l.length ↔ l.Nodup := by
  have h : l.eraseDups.length = l.dedup.length :=
    ((List.perm_ext_iff_of_nodup (nodup_eraseDups l) l.nodup_dedup).mpr fun a => by
      rw [List.mem_eraseDups, List.mem_dedup]).length_eq
  rw [h, ← List.dedup_eq_self]
  exact ⟨fun h => l.dedup_sublist.eq_of_length h, congrArg List.length⟩

theorem mem_insertNat {x y : Nat} {l : List Nat} : y ∈ insertNat x l ↔ y = x ∨ y ∈ l := by
  induction l with
  | nil => simp [insertNat]
  | cons z t ih =>
    rw [insertNat]
    split_ifs with h1 h2
    · rw [List.mem_cons]
    · simp [h2]
    · rw [List.mem_cons, ih, List.mem_cons, or_left_comm]

theorem insertNat_insertNat (x : Nat) (l : List Nat) : insertNat x (insertNat x l) = insertNat x l := by
  induction l with
  | nil => simp [insertNat]
  | cons z t ih =>
    rw [insertNat]
    split_ifs with h1 h2
    · simp [insertNat]
    · simp [insertNat, h2]
    · rw [insertNat, if_neg h1, if_neg h2, ih]

/-! ## The frame of a command -/

theorem State.named_ok {s : State} {fn cid : Nat} {f : Func} {c : Ctx} (h : s.named fn f cid = .ok c) :
    aget s.ctxs cid = some c := by
  unfold State.named at h
  split at h
  · cases h
  · next hc =>
    split at h
    · cases h
      exact hc
    · cases h

section command
variable {fn compl cid st res : Nat} {s r : State} {f : Func} {c : Ctx} {i : Instr}
variable (hf : aget s.hub.funcs fn = some f) (hz : f.frozen = false)
include hf hz

theorem answers_command {act : Func → State → Done × State} (hi : exec i s = command fn compl s act)
    (h : act f s = (.done st res, r)) : s.Answers f i fn compl st res r := by
  rw [State.Answers, hi]
  simp only [command, hf, hz, h, Bool.false_eq_true, if_false, event]

variable (hn : s.named fn f cid = .ok c)
include hn

theorem answers_onContext {act : Func → Ctx → State → Done × State} (hi : exec i s = onContext fn compl cid s act)
    (h : act f c s = (.done st res, r)) : s.Answers f i fn compl st res r :=
  answers_command hf hz hi (by simp only [hn, h])

theorem onContext_waits {act : Func → Ctx → State → Done × State} (hi : exec i s = onContext fn compl cid s act)
    (h : act f c s = (.wait, r)) : exec i s = .next r := by
  rw [hi]
  simp only [onContext, command, hf, hz, hn, h, Bool.false_eq_true, if_false, event]

end command

/-! ## Records of the fault queue (R295) -/

/-- A thread that is replayed. -/
def Thread.replayed (u : Thread) (watch : Bool) : Thread :=
  if TStatus.isParked u.status then { u with status := .ready, wpSuppress := watch } else u

theorem Thread.replayed_replayed (u : Thread) (watch : Bool) : (u.replayed watch).replayed watch = u.replayed watch := by
  by_cases h : TStatus.isParked u.status = true
  · rw [Thread.replayed, Thread.replayed, if_pos h]
    rfl
  · rw [Thread.replayed, Thread.replayed, if_neg h, if_neg h]

theorem State.foldl_modThread (s : State) (ks : List Nat) (g : Thread → Thread) :
    ks.foldl (fun s t => s.modThread t g) s = { s with threads := ks.foldl (fun m t => amod m t g) s.threads } := by
  induction ks generalizing s with
  | nil => rfl
  | cons k t ih => rw [List.foldl_cons, ih]; rfl

section record
variable {s : State} {cid n : Nat} {c : Ctx} {p : Parked}
variable (hc : aget s.ctxs cid = some c) (hp : aget c.parked n = some p)
include hc hp

/-- Replay in a state changes threads and copies, and the record parks nothing more. -/
theorem State.replay_state : s.replay cid n = { s with
    threads := (s.replay cid n).threads, copies := (s.replay cid n).copies
    ctxs := amod s.ctxs cid fun c => { c with parked := adel c.parked n } } := by
  simp only [State.replay, hc, Option.bind_some, hp, State.foldl_modThread]
  cases p.copy <;> rfl

theorem State.replay_threads (hcopy : p.copy = none) :
    (s.replay cid n).threads = p.tids.foldl (fun m t => amod m t fun u => u.replayed p.watch) s.threads := by
  simp only [State.replay, hc, Option.bind_some, hp, State.foldl_modThread, hcopy]
  rfl

theorem State.replay_copies {id : Nat} (hcopy : p.copy = some id) :
    (s.replay cid n).copies = amod s.copies id fun c => { c with parked := false } := by
  simp only [State.replay, hc, Option.bind_some, hp, State.foldl_modThread, hcopy]
  rfl

end record

/-- Launches of the threads and the copy that a record parks. -/
def State.parkedLaunches (s : State) (p : Parked) : List Nat :=
  let cohs := (p.tids.map cohOf) ++ (match p.copy.bind fun id => aget s.copies id with
    | some c => [c.coh]
    | none => [])
  (cohs.filterMap fun c => (aget s.cohorts c).map Cohort.launch).eraseDups

theorem State.mem_parkedLaunches {s : State} {p : Parked} {k : Nat} {x : Cohort} (hk : k ∈ p.tids)
    (hx : aget s.cohorts (cohOf k) = some x) : x.launch ∈ s.parkedLaunches p := by
  rw [State.parkedLaunches, List.mem_eraseDups, List.mem_filterMap]
  exact ⟨cohOf k, List.mem_append_left _ (List.mem_map_of_mem hk), by rw [hx, Option.map_some]⟩

/-- Launches of a list end with FAULT. -/
def State.endFaulted (s : State) (lids : List Nat) : State := lids.foldl (fun s l => s.endLaunch l stFault) s

theorem State.endFaulted_ending (s : State) (lids : List Nat) : State.Ending stFault s (s.endFaulted lids) :=
  .foldl _ _ s fun t l => t.endLaunch_ending l stFault

/-- Every launch of the list has a status then. -/
theorem State.endFaulted_ended (s : State) {lids : List Nat} {lid : Nat} (h : lid ∈ lids) {l : Launch}
    (hl : aget (s.endFaulted lids).launches lid = some l) : l.status.isSome = true := by
  induction lids generalizing s with
  | nil => cases h
  | cons j t ih =>
    have he : s.endFaulted (j :: t) = (s.endLaunch j stFault).endFaulted t := rfl
    rw [he] at hl
    by_cases ht : lid ∈ t
    · exact ih _ ht hl
    · obtain rfl : lid = j := (List.mem_cons.mp h).resolve_right ht
      obtain ⟨l1, hl1, he1⟩ := ((s.endLaunch lid stFault).endFaulted_ending t).of_get hl
      obtain ⟨l0, hl0, he0⟩ := (s.endLaunch_ending lid stFault).of_get hl1
      cases hs : l0.status with
      | some n => rw [he1.keeps (he0.keeps hs)]; rfl
      | none =>
        obtain ⟨l', hl', -, hs'⟩ := State.endLaunch_status (status := stFault) hl0 hs
        rw [hl1] at hl'
        cases hl'
        rw [he1.keeps hs']
        rfl

theorem State.abortRecord_eq {s : State} {cid n : Nat} {c : Ctx} {p : Parked} (hc : aget s.ctxs cid = some c)
    (hp : aget c.parked n = some p) : s.abortRecord cid n =
      (s.endFaulted (s.parkedLaunches p)).modCtx cid fun c => { c with parked := adel c.parked n } := by
  simp only [State.abortRecord, hc, Option.bind_some, hp]
  rfl

/-- A launch that nothing held and that had not ended gets FAULT, or keeps being without a status. -/
theorem Launch.EndsBy.faulted {l l' : Launch} (h : l.EndsBy stFault l') (hs : l.status = none) (hh : l'.held = false)
    (he : l'.status.isSome = true) : l'.status = some stFault := by
  rcases h.status with h1 | ⟨-, h1 | ⟨h1, -⟩⟩
  · rw [h1, hs] at he
    cases he
  · exact h1
  · rw [← h.held, hh] at h1
    cases h1

/-! ## The recall of lines (R238) -/

/-- A cohort without some lines. -/
def Cohort.without (c : Cohort) (sel : Nat → Bool) : Cohort := { c with lines := c.lines.filter fun e => !sel e.1 }

/-- The lines that a test selects. -/
def Cohort.selected (c : Cohort) (p : Cohort → StashLine → Bool) (n : Nat) : Bool :=
  match aget c.lines n with
  | some l => p c l
  | none => false

theorem Cohort.without_none (c : Cohort) : c.without (fun _ => false) = c := by
  simp [Cohort.without]

theorem Cohort.without_without (c : Cohort) (p q : Nat → Bool) :
    (c.without p).without q = c.without fun n => p n || q n := by
  simp only [Cohort.without, List.filter_filter, Bool.not_or, Bool.and_comm]

theorem Cohort.without_line {c : Cohort} {sel : Nat → Bool} {m : Nat} {l : StashLine}
    (h : aget (c.without sel).lines m = some l) : sel m = false ∧ aget c.lines m = some l := by
  rw [Cohort.without, aget_filter c.lines (fun n => !sel n)] at h
  cases hm : sel m with
  | true => rw [hm] at h; cases h
  | false => rw [hm] at h; exact ⟨rfl, h⟩

theorem State.flushLines_some {s : State} {coh : Nat} {c : Cohort} (hc : aget s.cohorts coh = some c) (sel : Nat → Bool) :
    s.flushLines coh sel true =
      (s.writeBack (s.cohPid c) ((c.lines.filter fun e => sel e.1).map (·.2))).modCohort coh fun c => c.without sel := by
  simp only [State.flushLines, hc, if_true]
  rfl

theorem State.flushLines_none {s : State} {coh : Nat} (hc : aget s.cohorts coh = none) (sel : Nat → Bool) :
    s.flushLines coh sel true = s := by
  simp only [State.flushLines, hc]

/-- Lines that leave a stash change it and memory, or are lost. -/
theorem State.flushLines_state (s : State) (coh : Nat) (sel : Nat → Bool) : s.flushLines coh sel true = { s with
    mem := (s.flushLines coh sel true).mem, lost := (s.flushLines coh sel true).lost
    free := (s.flushLines coh sel true).free, cohorts := (s.flushLines coh sel true).cohorts } := by
  cases hc : aget s.cohorts coh with
  | none => rw [flushLines_none hc]
  | some c =>
    rw [flushLines_some hc, writeBack_state]
    rfl

theorem State.flushLines_cohort (s : State) (coh : Nat) (sel : Nat → Bool) (k : Nat) :
    aget (s.flushLines coh sel true).cohorts k =
      (aget s.cohorts k).map fun c => if k = coh then c.without sel else c := by
  cases hc : aget s.cohorts coh with
  | none =>
    rw [flushLines_none hc]
    by_cases hk : k = coh
    · rw [hk, hc]; rfl
    · simp only [if_neg hk, Option.map_id']
  | some c =>
    rw [flushLines_some hc, writeBack_state, modCohort_cohorts, aget_amod]

/-- The lines of cohorts that a test selects leave the stashes. -/
def State.flushAll (s : State) (p : Cohort → StashLine → Bool) (xs : List (Nat × Cohort)) : State :=
  xs.foldl (fun s c => s.flushLines c.1 (c.2.selected p) true) s

theorem State.recallLines_eq (s : State) (p : Cohort → StashLine → Bool) : s.recallLines p = s.flushAll p s.cohorts := rfl

theorem State.flushAll_state (s : State) (p : Cohort → StashLine → Bool) (xs : List (Nat × Cohort)) :
    s.flushAll p xs = { s with
      mem := (s.flushAll p xs).mem, lost := (s.flushAll p xs).lost
      free := (s.flushAll p xs).free, cohorts := (s.flushAll p xs).cohorts } := by
  induction xs generalizing s with
  | nil => rfl
  | cons x t ih =>
    have h : s.flushAll p (x :: t) = (s.flushLines x.1 (x.2.selected p) true).flushAll p t := rfl
    rw [h, ih, flushLines_state]

theorem State.flushAll_cohort (s : State) (p : Cohort → StashLine → Bool) (xs : List (Nat × Cohort)) (k : Nat) :
    aget (s.flushAll p xs).cohorts k =
      (aget s.cohorts k).map fun c => c.without fun n => xs.any fun x => x.1 == k && x.2.selected p n := by
  induction xs generalizing s with
  | nil => simp only [List.any_nil, Cohort.without_none, Option.map_id']; rfl
  | cons x t ih =>
    have h : s.flushAll p (x :: t) = (s.flushLines x.1 (x.2.selected p) true).flushAll p t := rfl
    rw [h, ih, flushLines_cohort, Option.map_map]
    congr 1
    funext c
    obtain rfl | hk := eq_or_ne k x.1
    · simp [Cohort.without_without]
    · have hx : (x.1 == k) = false := beq_eq_false_iff_ne.mpr hk.symm
      simp [hk, hx]

/-! ## Shootdowns (R279, R327) -/

theorem State.shoot_eq {s : State} {cid : Nat} {c : Ctx} (hc : aget s.ctxs cid = some c) (va len : Nat) :
    s.shoot cid va len =
      (s.recallLines fun x l => x.cid == cid && s.lineShot (agentOf cid c) l va len).dropTlb
        fun v => v.cid == cid && tagMeets v.addr va len := by
  simp only [State.shoot, hc]

theorem State.shoot_hub (s : State) (cid va len : Nat) : (s.shoot cid va len).hub = s.hub := by
  cases hc : aget s.ctxs cid with
  | none => simp only [State.shoot, hc]
  | some c =>
    rw [shoot_eq hc, recallLines_eq, flushAll_state]
    rfl

theorem State.shootFrames_hub (s : State) (pid lo n : Nat) : (s.shootFrames pid lo n).hub = s.hub :=
  List.foldlRecOn (motive := fun t : State => t.hub = s.hub) _ _ rfl fun t ht _ _ => (t.shoot_hub ..).trans ht

theorem State.mem_shoot_seen {s : State} {cid : Nat} {c : Ctx} (hc : aget s.ctxs cid = some c) (va len : Nat) (v : Seen) :
    v ∈ (s.shoot cid va len).seen ↔
      v ∈ s.seen ∧ ¬ ((v.what = 3 ∨ v.what = 4) ∧ v.cid = cid ∧ tagMeets v.addr va len = true) := by
  rw [shoot_eq hc, recallLines_eq, flushAll_state, State.dropTlb]
  simp only [List.mem_filter, Bool.not_eq_true', Bool.and_eq_false_iff, Bool.or_eq_false_iff, beq_eq_false_iff_ne,
    not_and_or, not_or, Bool.not_eq_true, ne_eq]

theorem State.shoot_cohort {s : State} {cid : Nat} {c : Ctx} (hc : aget s.ctxs cid = some c) (va len k : Nat) :
    aget (s.shoot cid va len).cohorts k = (aget s.cohorts k).map fun x => x.without fun n => s.cohorts.any fun y =>
      y.1 == k && y.2.selected (fun x l => x.cid == cid && s.lineShot (agentOf cid c) l va len) n := by
  rw [shoot_eq hc, State.dropTlb, recallLines_eq]
  exact s.flushAll_cohort ..

/-- No line of the context over the range is left. -/
theorem State.shoot_lines {s : State} {cid : Nat} {c : Ctx} (hc : aget s.ctxs cid = some c) {va len k m : Nat} {x : Cohort}
    {l : StashLine} (hx : aget (s.shoot cid va len).cohorts k = some x) (hcid : x.cid = cid)
    (hl : aget x.lines m = some l) : rangesMeet (vaOf l.va).toNat 128 va len = false := by
  rw [shoot_cohort hc, Option.map_eq_some_iff] at hx
  obtain ⟨y, hy, rfl⟩ := hx
  obtain ⟨hsel, hly⟩ := Cohort.without_line hl
  rw [List.any_eq_false] at hsel
  have h := hsel _ (mem_of_aget hy)
  have hcid' : y.cid = cid := hcid
  simp only [beq_self_eq_true, Bool.true_and, Cohort.selected, hly, hcid', Bool.not_eq_true, State.lineShot,
    Bool.or_eq_false_iff] at h
  exact h.1.1

/-- The cohorts of other contexts keep their lines. -/
theorem State.shoot_cohort_other {s : State} {cid : Nat} {c : Ctx} (hc : aget s.ctxs cid = some c)
    (hr : rising 0 s.cohorts = true) {va len k : Nat} {x : Cohort} (hx : aget s.cohorts k = some x) (hcid : x.cid ≠ cid) :
    aget (s.shoot cid va len).cohorts k = some x := by
  have h : (fun n => s.cohorts.any fun y => y.1 == k &&
      y.2.selected (fun x l => x.cid == cid && s.lineShot (agentOf cid c) l va len) n) = fun _ => false := by
    funext n
    rw [List.any_eq_false]
    intro y hy
    by_cases hk : y.1 = k
    · have he : y.2 = x := Option.some.inj ((aget_of_mem hr hy).symm.trans (hk ▸ hx))
      rw [he, Cohort.selected]
      split <;> simp [hcid]
    · simp [hk]
  rw [shoot_cohort hc, hx, Option.map_some, h, Cohort.without_none]

end Sys2Proof.Machine
end

section
/-! SUPPORT. The other owner commands (R47, R110, R287, R295, R327, R334, R336). -/

namespace Sys2Proof.Machine

/-! ## The commands -/

theorem exec_faultReplay (fn compl cid idx : Nat) (s : State) :
    exec (.faultReplay fn compl cid idx) s = execFaultReplay fn compl cid idx s := rfl

theorem exec_faultAbort (fn compl cid idx : Nat) (s : State) :
    exec (.faultAbort fn compl cid idx) s = execFaultAbort fn compl cid idx s := rfl

theorem exec_binAbort (fn compl sec bin : Nat) (s : State) :
    exec (.binAbort fn compl sec bin) s = execBinAbort fn compl sec bin s := rfl

theorem exec_shootdown (fn compl cid va len : Nat) (s : State) :
    exec (.shootdown fn compl cid va len) s = execShootdown fn compl cid va len s := rfl

theorem exec_frameAssign (fn compl cid frame n : Nat) (s : State) :
    exec (.frameAssign fn compl cid frame n) s = execFrameAssign fn compl cid frame n s := rfl

theorem exec_frameRelease (fn compl cid frame n : Nat) (s : State) :
    exec (.frameRelease fn compl cid frame n) s = execFrameRelease fn compl cid frame n s := rfl

theorem exec_watchSet (fn compl cid slot scope core : Nat) (addr ctl : Dword) (s : State) :
    exec (.watchSet fn compl cid slot scope core addr ctl) s = execWatchSet fn compl cid slot scope core addr ctl s := rfl

theorem exec_gangAssign (fn compl gang : Nat) (fns : List Nat) (withdraw : Bool) (s : State) :
    exec (.gangAssign fn compl gang fns withdraw) s = execGangAssign fn compl gang fns withdraw s := rfl

/-! ## Records -/

section record
variable {fn compl cid idx n : Nat} {s : State} {f : Func} {c : Ctx}
variable (hf : aget s.hub.funcs fn = some f) (hz : f.frozen = false) (hn : s.named fn f cid = .ok c)
include hf hz hn

theorem answers_faultReplay (hr : c.recordAt idx = some n) : s.Answers f (.faultReplay fn compl cid idx) fn compl 0 0
    (if c.scheduled then s.replay cid n else s.holdCommand cid n false) :=
  answers_onContext hf hz hn (exec_faultReplay ..) (by simp only [hr, adOk])

theorem answers_faultAbort (hr : c.recordAt idx = some n) : s.Answers f (.faultAbort fn compl cid idx) fn compl 0 0
    (if c.scheduled then s.abortRecord cid n else s.holdCommand cid n true) :=
  answers_onContext hf hz hn (exec_faultAbort ..) (by simp only [hr, adOk])

theorem answers_noRecord (hr : c.recordAt idx = none) :
    s.Answers f (.faultReplay fn compl cid idx) fn compl 0x0008 0 s ∧
      s.Answers f (.faultAbort fn compl cid idx) fn compl 0x0008 0 s :=
  ⟨answers_onContext hf hz hn (exec_faultReplay ..) (by simp only [hr, adBadArg]),
    answers_onContext hf hz hn (exec_faultAbort ..) (by simp only [hr, adBadArg])⟩

end record

/-- What a replayed record parked is ready. -/
theorem State.replay_thread {s : State} {cid n k : Nat} {c : Ctx} {p : Parked} {u : Thread} (hc : aget s.ctxs cid = some c)
    (hp : aget c.parked n = some p) (hcopy : p.copy = none) (hu : aget s.threads k = some u) :
    aget (s.replay cid n).threads k = some (if p.tids.contains k = true ∧ TStatus.isParked u.status = true then
      { u with status := .ready, wpSuppress := p.watch } else u) := by
  rw [replay_threads hc hp hcopy, aget_foldl_amod_list s.threads p.tids fun v => v.replayed_replayed p.watch, hu,
    Option.map_some]
  by_cases h : k ∈ p.tids <;> simp [h, Thread.replayed]

/-- A record that parks nothing more. -/
theorem parked_adel {m : Assoc Ctx} {cid n : Nat} {x : Ctx}
    (h : aget (amod m cid fun c => { c with parked := adel c.parked n }) cid = some x) : aget x.parked n = none := by
  rw [aget_amod_same, Option.map_eq_some_iff] at h
  obtain ⟨y, -, rfl⟩ := h
  exact aget_adel_same ..

/-- The launches of the threads that an aborted record parks end with FAULT, unless they have ended before. -/
theorem State.abortRecord_launch {s : State} {cid n k : Nat} {c : Ctx} {p : Parked} {x : Cohort} {l : Launch}
    (hc : aget s.ctxs cid = some c) (hp : aget c.parked n = some p) (hk : k ∈ p.tids)
    (hx : aget s.cohorts (cohOf k) = some x) (hl : aget (s.abortRecord cid n).launches x.launch = some l) :
    l.status.isSome = true ∧ ∀ l0, aget s.launches x.launch = some l0 → l0.status = none → l.held = false →
      l.status = some stFault := by
  rw [abortRecord_eq hc hp, modCtx_launches] at hl
  have he : l.status.isSome = true := s.endFaulted_ended (mem_parkedLaunches hk hx) hl
  refine ⟨he, fun l0 hl0 hs hh => ?_⟩
  obtain ⟨l', hl', hend⟩ := (s.endFaulted_ending (s.parkedLaunches p)).of_get hl
  rw [hl0] at hl'
  cases hl'
  exact hend.faulted hs hh he

/-! ## Bins -/

theorem answers_binAbort {fn compl sec bin : Nat} {s : State} {f : Func} {c : Ctx} {b : Bin} {l : Launch}
    (hf : aget s.hub.funcs fn = some f) (hz : f.frozen = false) (hs : sec < 4) (hb : bin < 512)
    (ha : s.armed (binKey sec bin) = some (b, l)) (hn : s.named fn f l.cid = .ok c) :
    s.Answers f (.binAbort fn compl sec bin) fn compl 0 0 ((s.endLaunch b.launch stAborted).signal b.launch) := by
  have h1 : ¬ 4 ≤ sec := by omega
  have h2 : ¬ 512 ≤ bin := by omega
  refine answers_command hf hz (exec_binAbort ..) ?_
  simp only [h1, h2, ha, hn, decide_false, Bool.or_self, Bool.false_eq_true, if_false, adOk]

theorem State.launch_of_armed {s : State} {k : Nat} {b : Bin} {l : Launch} (h : s.armed k = some (b, l)) :
    aget s.launches b.launch = some l := by
  unfold State.armed at h
  split at h
  · cases h
  · rw [Option.map_eq_some_iff] at h
    obtain ⟨l', hl, heq⟩ := h
    cases heq
    exact hl

/-! ## Commands with shootdowns -/

/-- The state in which a command with shootdowns waits: they are made once. -/
def State.shot (s : State) (f : Func) (cids : List Nat) (shoot : State → State) : State :=
  if f.stage = 0 then (shoot s).markStores cids else s

theorem State.afterShoot_waits {s : State} {fn : Nat} {f : Func} {cids : List Nat} {shoot : State → State}
    {next : State → Done × State} (h : (s.shot f cids shoot).storesAwaited cids = true) :
    s.afterShoot fn f cids shoot next = (.wait, (s.shot f cids shoot).setStage fn 1) := if_pos h

theorem State.afterShoot_done {s : State} {fn : Nat} {f : Func} {cids : List Nat} {shoot : State → State}
    {next : State → Done × State} (h : (s.shot f cids shoot).storesAwaited cids = false) :
    s.afterShoot fn f cids shoot next = next (s.shot f cids shoot).performAll :=
  if_neg (by rw [State.shot] at h; rw [h]; exact Bool.false_ne_true)

section shootdown
variable {fn compl cid va len : Nat} {s r : State} {f : Func} {c : Ctx}
variable (hf : aget s.hub.funcs fn = some f) (hz : f.frozen = false) (hn : s.named fn f cid = .ok c)
variable (hr : s.shot f [cid] (fun s => s.shoot cid va len) = r)
include hf hz hn hr

theorem exec_shootdown_waits (h : r.storesAwaited [cid] = true) :
    exec (.shootdown fn compl cid va len) s = .next (r.setStage fn 1) := by
  subst hr
  exact onContext_waits hf hz hn (exec_shootdown ..) (State.afterShoot_waits h)

theorem answers_shootdown (h : r.storesAwaited [cid] = false) :
    s.Answers f (.shootdown fn compl cid va len) fn compl 0 0 r.performAll := by
  subst hr
  exact answers_onContext hf hz hn (exec_shootdown ..) (State.afterShoot_done h)

end shootdown

/-! ## Frames (R336) -/

section frames
variable {fn compl cid frame n : Nat} {s : State} {f : Func} {c : Ctx}

/-- Keys of frames of a partition. -/
def frameKeys (pid frame n : Nat) : List Nat := (List.range n).map fun i => frameKey pid (frame + i)

theorem mem_frameKeys {pid x : Nat} : x ∈ frameKeys pid frame n ↔ ∃ j, j < n ∧ frameKey pid (frame + j) = x := by
  simp [frameKeys]

theorem all_frameKeys {m : Assoc FrameState} {pid : Nat} {x : FrameState} :
    ((frameKeys pid frame n).all fun k => aget m k == some x) = true ↔
      ∀ j, j < n → aget m (frameKey pid (frame + j)) = some x := by
  simp [frameKeys]

/-- Frames are put into a state. -/
def State.setFrames (s : State) (ks : List Nat) (x : FrameState) : State :=
  { s with hub := { s.hub with frames := ks.foldl (fun m k => aset m k x) s.hub.frames } }

theorem State.setFrames_at (s : State) (pid : Nat) (x : FrameState) {j : Nat} (hj : j < n) :
    aget (s.setFrames (frameKeys pid frame n) x).hub.frames (frameKey pid (frame + j)) = some x := by
  rw [State.setFrames, aget_foldl_aset_list _ _ (fun k => k), if_pos ⟨_, mem_frameKeys.mpr ⟨j, hj, rfl⟩, rfl⟩]

theorem State.setFrames_other (s : State) {pid k : Nat} (x : FrameState) (h : ∀ j, j < n → k ≠ frameKey pid (frame + j)) :
    aget (s.setFrames (frameKeys pid frame n) x).hub.frames k = aget s.hub.frames k := by
  rw [State.setFrames, aget_foldl_aset_list _ _ (fun k => k), if_neg]
  rintro ⟨y, hy, rfl⟩
  obtain ⟨j, hj, he⟩ := mem_frameKeys.mp hy
  exact h j hj he.symm

variable (hf : aget s.hub.funcs fn = some f) (hz : f.frozen = false) (hn : s.named fn f cid = .ok c)
variable (hin : 2 ^ 16 * (frame + n) ≤ s.partBytes c.pid)
include hf hz hn hin

theorem answers_frameAssign (h : ∀ j, j < n → aget s.hub.frames (frameKey c.pid (frame + j)) = none) :
    s.Answers f (.frameAssign fn compl cid frame n) fn compl 0 0 (s.setFrames (frameKeys c.pid frame n) (.owned cid)) := by
  have hfree : ((frameKeys c.pid frame n).any fun k => (aget s.hub.frames k).isSome) = false := by
    rw [List.any_eq_false]
    intro k hk
    obtain ⟨j, hj, rfl⟩ := mem_frameKeys.mp hk
    simp [h j hj]
  refine answers_onContext hf hz hn (exec_frameAssign ..) ?_
  have hin' : s.framesIn c.pid frame n = true := decide_eq_true hin
  rw [frameKeys] at hfree
  simp only [hin', hfree, Bool.not_true, Bool.false_eq_true, if_false]
  rfl

theorem answers_frameAssign_busy (h : ∃ j, j < n ∧ (aget s.hub.frames (frameKey c.pid (frame + j))).isSome = true) :
    s.Answers f (.frameAssign fn compl cid frame n) fn compl 0x0003 0 s := by
  obtain ⟨j, hj, hsome⟩ := h
  have hbusy : ((frameKeys c.pid frame n).any fun k => (aget s.hub.frames k).isSome) = true :=
    List.any_eq_true.mpr ⟨_, mem_frameKeys.mpr ⟨j, hj, rfl⟩, hsome⟩
  refine answers_onContext hf hz hn (exec_frameAssign ..) ?_
  have hin' : s.framesIn c.pid frame n = true := decide_eq_true hin
  rw [frameKeys] at hbusy
  simp only [hin', hbusy, Bool.not_true, Bool.false_eq_true, if_false, if_true, adBusy]

theorem answers_frameRelease_scrubbed (hst : f.stage = 2)
    (h : ∀ j, j < n → aget s.hub.frames (frameKey c.pid (frame + j)) = some (.scrubbing cid)) :
    s.Answers f (.frameRelease fn compl cid frame n) fn compl 0 0 (s.scrub c.pid frame n) := by
  have hall : ((frameKeys c.pid frame n).all fun k => aget s.hub.frames k == some (.scrubbing cid)) = true :=
    all_frameKeys.mpr h
  refine answers_onContext hf hz hn (exec_frameRelease ..) ?_
  have hin' : s.framesIn c.pid frame n = true := decide_eq_true hin
  rw [frameKeys] at hall
  simp only [hin', hall, hst, Bool.not_true, Bool.false_eq_true, if_false, decide_true, Bool.and_self, if_true, adOk]

section release
variable (hpos : 0 < n) (hown : ∀ j, j < n → aget s.hub.frames (frameKey c.pid (frame + j)) = some (.owned cid))
include hpos hown

/-- The release of frames that the context owns begins with the shootdowns. -/
theorem exec_frameRelease_of {r : State} (ho : s.afterShoot fn f (cid :: s.reachers c.pid frame n)
      (fun s => s.shootFrames c.pid frame n)
      (fun s => (.wait, (s.setFrames (frameKeys c.pid frame n) (.scrubbing cid)).setStage fn 2)) = (.wait, r)) :
    exec (.frameRelease fn compl cid frame n) s = .next r := by
  have hall : ((frameKeys c.pid frame n).all fun k => aget s.hub.frames k == some (.owned cid)) = true :=
    all_frameKeys.mpr hown
  have hnone : ((frameKeys c.pid frame n).all fun k => aget s.hub.frames k == some (.scrubbing cid)) = false := by
    rw [Bool.eq_false_iff]
    intro hs
    have h0 := (all_frameKeys.mp hs) 0 hpos
    rw [hown 0 hpos] at h0
    cases h0
  refine onContext_waits hf hz hn (exec_frameRelease ..) ?_
  have hin' : s.framesIn c.pid frame n = true := decide_eq_true hin
  rw [frameKeys] at hall hnone
  simp only [hin', hall, hnone, Bool.not_true, Bool.false_eq_true, if_false, Bool.and_false]
  exact ho

variable {r : State} (hr : s.shot f (cid :: s.reachers c.pid frame n) (fun s => s.shootFrames c.pid frame n) = r)
include hr

theorem exec_frameRelease_waits (h : r.storesAwaited (cid :: s.reachers c.pid frame n) = true) :
    exec (.frameRelease fn compl cid frame n) s = .next (r.setStage fn 1) := by
  subst hr
  exact exec_frameRelease_of hf hz hn hin hpos hown (State.afterShoot_waits h)

theorem exec_frameRelease_scrubs (h : r.storesAwaited (cid :: s.reachers c.pid frame n) = false) :
    exec (.frameRelease fn compl cid frame n) s =
      .next ((r.performAll.setFrames (frameKeys c.pid frame n) (.scrubbing cid)).setStage fn 2) := by
  subst hr
  exact exec_frameRelease_of hf hz hn hin hpos hown (State.afterShoot_done h)

end release

end frames

theorem State.shot_frames_hub (s : State) (f : Func) (cids : List Nat) (pid frame n : Nat) :
    (s.shot f cids fun s => s.shootFrames pid frame n).hub = s.hub := by
  unfold State.shot
  split
  · exact s.shootFrames_hub ..
  · rfl

/-- Scrubbed frames are FREE: the keys of a partition's frames are in their order. -/
theorem State.scrub_frame (s : State) (pid lo n : Nat) {j : Nat} (hj : j < n) :
    aget (s.scrub pid lo n).hub.frames (frameKey pid (lo + j)) = none := by
  have h : aget (s.scrub pid lo n).hub.frames (frameKey pid (lo + j)) = _ :=
    aget_filter s.hub.frames (fun k => !(decide (frameKey pid lo ≤ k) && decide (k < frameKey pid (lo + n)))) _
  have h1 : frameKey pid lo ≤ frameKey pid (lo + j) := by unfold frameKey; omega
  have h2 : frameKey pid (lo + j) < frameKey pid (lo + n) := by unfold frameKey; omega
  rw [h, decide_eq_true h1, decide_eq_true h2]
  rfl

theorem State.scrub_mem (s : State) (pid lo n a : Nat) : sget (s.scrub pid lo n).mem a =
    if pid * 2 ^ 50 + lo * 2 ^ 16 ≤ a ∧ a < pid * 2 ^ 50 + (lo + n) * 2 ^ 16 then 0 else sget s.mem a := by
  have h : sget (s.scrub pid lo n).mem a = _ := sget_filter s.mem (fun k => !(decide (pid * 2 ^ 50 + lo * 2 ^ 16 ≤ k) &&
    decide (k < pid * 2 ^ 50 + lo * 2 ^ 16 + n * 2 ^ 16))) a
  rw [h, Nat.add_mul, ← Nat.add_assoc]
  by_cases hin : pid * 2 ^ 50 + lo * 2 ^ 16 ≤ a ∧ a < pid * 2 ^ 50 + lo * 2 ^ 16 + n * 2 ^ 16
  · rw [if_pos hin, decide_eq_true hin.1, decide_eq_true hin.2]
    rfl
  · rw [if_neg hin, if_pos]
    simp only [Bool.not_eq_true', Bool.and_eq_false_iff, decide_eq_false_iff_not]
    exact not_and_or.mp hin

theorem State.scrub_tag (s : State) (pid lo n : Nat) {a : Nat} (h1 : pid * 2 ^ 50 + lo * 2 ^ 16 ≤ a)
    (h2 : a < pid * 2 ^ 50 + (lo + n) * 2 ^ 16) : sget (s.scrub pid lo n).tags (a / 32) = 0 := by
  have h : sget (s.scrub pid lo n).tags (a / 32) = _ := sget_filter s.tags (fun k =>
    !(decide (pid * 2 ^ 50 + lo * 2 ^ 16 ≤ 32 * k) && decide (32 * k < pid * 2 ^ 50 + lo * 2 ^ 16 + n * 2 ^ 16))) (a / 32)
  have h3 : pid * 2 ^ 50 + lo * 2 ^ 16 ≤ 32 * (a / 32) := by omega
  have h4 : 32 * (a / 32) < pid * 2 ^ 50 + lo * 2 ^ 16 + n * 2 ^ 16 := by omega
  rw [h, decide_eq_true h3, decide_eq_true h4]
  rfl

/-! ## Watchpoints (R287) -/

/-- A core watchpoint is set in some cores. -/
def State.setWatch (s : State) (cores : List Nat) (slot : Nat) (wp : CoreWp) : State :=
  { s with hub := { s.hub with coreWps := cores.foldl (fun m k => aset m (k * 8 + slot) wp) s.hub.coreWps } }

theorem State.mem_watchCores {s : State} {pid scope core j : Nat} : j ∈ s.watchCores pid scope core ↔
    (j < 256 ∧ s.pidOfCore j = pid) ∧ (scope = 2 → j = core) ∧ (scope = 3 → j / 4 = core / 4) ∧
      (scope = 4 → j / 64 = core / 64) := by
  rw [State.watchCores, List.mem_filter, mem_coresOf]
  refine and_congr_right fun _ => ?_
  split_ifs with h2 h3 h4
  · simp [h2]
  · simp [h3, clusterOf]
  · simp [h4, secOfCore]
  · simp [h2, h3, h4]

theorem State.setWatch_core {s : State} {pid scope core slot j : Nat} {wp : CoreWp} (hj : j < 256) :
    aget (s.setWatch (s.watchCores pid scope core) slot wp).hub.coreWps (j * 8 + slot) =
      if s.pidOfCore j = pid ∧ (scope = 2 → j = core) ∧ (scope = 3 → j / 4 = core / 4) ∧ (scope = 4 → j / 64 = core / 64)
      then some wp else aget s.hub.coreWps (j * 8 + slot) := by
  rw [State.setWatch, aget_foldl_aset_list _ _ (fun k => k * 8 + slot)]
  refine if_congr ?_ rfl rfl
  have hk : (∃ x ∈ s.watchCores pid scope core, x * 8 + slot = j * 8 + slot) ↔ j ∈ s.watchCores pid scope core :=
    ⟨fun ⟨x, hx, he⟩ => (show x = j by omega) ▸ hx, fun h => ⟨j, h, rfl⟩⟩
  rw [hk, mem_watchCores, and_iff_right hj]

theorem answers_watchSet {fn compl cid slot scope core : Nat} {addr ctl : Dword} {s : State} {f : Func} {c : Ctx}
    (hf : aget s.hub.funcs fn = some f) (hz : f.frozen = false) (hn : s.named fn f cid = .ok c) (hslot : slot < 8)
    (hlo : 2 ≤ scope) (hhi : scope ≤ 5) (hcore : core < 256) (hpid : s.pidOfCore core = c.pid) (hctl : wpCtlOk ctl = true)
    (hal : wpAligned addr ctl = true) : s.Answers f (.watchSet fn compl cid slot scope core addr ctl) fn compl 0 0
      (s.setWatch (s.watchCores c.pid scope core) slot { cid := cid, addr := addrBits addr, ctl := wpCtlBits ctl }) := by
  refine answers_onContext hf hz hn (exec_watchSet ..) ?_
  have h1 : ¬ 8 ≤ slot := by omega
  have h2 : ¬ scope < 2 := by omega
  have h3 : ¬ 5 < scope := by omega
  have h4 : (s.coresOf c.pid).contains core = true := List.contains_iff_mem.mpr (State.mem_coresOf.mpr ⟨hcore, hpid⟩)
  simp only [h1, h2, h3, h4, hctl, hal, decide_false, Bool.not_true, Bool.or_self, Bool.false_eq_true, if_false]
  rfl

/-! ## Gangs (R334) -/

/-- The functions named and the others that have a gang's number. -/
def State.gangMembers (s : State) (gang : Nat) (fns : List Nat) : List Func :=
  (fns.filterMap fun n => aget s.hub.funcs n) ++
    (s.hub.funcs.filter fun x => x.2.gangs.contains gang && !fns.contains x.1).map (·.2)

/-- The functions are changed. -/
def State.modFuncs (s : State) (fns : List Nat) (g : Func → Func) : State := fns.foldl (fun s n => s.modFunc n g) s

theorem State.modFuncs_eq (s : State) (fns : List Nat) (g : Func → Func) : s.modFuncs fns g =
    { s with hub := { s.hub with funcs := fns.foldl (fun m n => amod m n g) s.hub.funcs } } := by
  induction fns generalizing s with
  | nil => rfl
  | cons n t ih =>
    have h : s.modFuncs (n :: t) g = (s.modFunc n g).modFuncs t g := rfl
    rw [h, ih]
    rfl

/-- A function with a gang's number, or without it. -/
def Func.inGang (f : Func) (gang : Nat) (withdraw : Bool) : Func :=
  if withdraw then { f with gangs := f.gangs.filter (· != gang) } else { f with gangs := insertNat gang f.gangs }

theorem Func.inGang_inGang (f : Func) (gang : Nat) (withdraw : Bool) :
    (f.inGang gang withdraw).inGang gang withdraw = f.inGang gang withdraw := by
  cases withdraw <;> simp [Func.inGang, insertNat_insertNat]

theorem Func.inGang_contains (f : Func) (gang : Nat) (withdraw : Bool) :
    (f.inGang gang withdraw).gangs.contains gang = !withdraw := by
  cases withdraw with
  | true => simp [Func.inGang]
  | false => simp [Func.inGang, mem_insertNat]

section gang
variable {fn compl gang : Nat} {fns : List Nat} {withdraw : Bool} {s : State} {f : Func}
variable (hf : aget s.hub.funcs fn = some f) (hz : f.frozen = false)
include hf hz

theorem answers_gangAssign_vf (h : f.isPf = false) :
    s.Answers f (.gangAssign fn compl gang fns withdraw) fn compl 0x0006 0 s := by
  refine answers_command hf hz (exec_gangAssign ..) ?_
  simp only [h, Bool.not_false, if_true, adBadOpcode]

omit hf hz in
/-- The functions named with their numbers, and the others of the gang with theirs. -/
theorem State.pids_gangMembers (s : State) (gang : Nat) (fns : List Nat) :
    ((fns.filterMap fun n => (aget s.hub.funcs n).map fun x => (n, x)) ++
      s.hub.funcs.filter fun x => x.2.gangs.contains gang && !fns.contains x.1).map (fun x => x.2.pid) =
      (s.gangMembers gang fns).map Func.pid := by
  simp [State.gangMembers, List.map_filterMap, Function.comp_def]

variable (hlo : 0 < gang) (hhi : gang < 2 ^ 16) (hfns : ∀ n ∈ fns, (aget s.hub.funcs n).isSome = true) (h : f.isPf = true)
include hlo hhi hfns h

theorem answers_gangAssign {st : Nat} {r : State}
    (hr : (if withdraw then (.done adOk, s.modFuncs fns fun x => x.inGang gang true)
      else if 4 < fns.length ∨ ¬ ((s.gangMembers gang fns).map Func.pid).Nodup then (.done adBadArg, s)
      else (.done adOk, s.modFuncs fns fun x => x.inGang gang false) : Done × State) = (.done st, r)) :
    s.Answers f (.gangAssign fn compl gang fns withdraw) fn compl st 0 r := by
  have hlen : (fns.filterMap fun n => (aget s.hub.funcs n).map fun x => (n, x)).length = fns.length :=
    List.filterMap_length_eq_length.mpr fun n hn => by rw [Option.isSome_map]; exact hfns n hn
  have h0 : ¬ gang = 0 := by omega
  have h1 : ¬ 2 ^ 16 ≤ gang := by omega
  refine answers_command hf hz (exec_gangAssign ..) ?_
  simp only [State.pids_gangMembers, hlen, h, h0, h1, ne_eq, length_eraseDups_eq_iff, Bool.not_true, Bool.false_eq_true,
    if_false, not_true_eq_false, decide_false, Bool.or_self, Bool.or_eq_true, decide_eq_true_eq]
  exact hr

end gang

/-! ## The statement -/

/-- Settles O50: commands on records, bins, virtual ranges, frames, watchpoints and gangs. -/
theorem otherOwnerCommands : Obligations.OtherOwnerCommands := by
  unfold Obligations.OtherOwnerCommands
  refine ⟨⟨?records, ?held, ?unknown, ?bin, ?shootdown⟩, ?frames, ?watch, ?gang⟩
  case records =>
    intro fn compl cid idx n s f c p hf hz hn hs hr hp
    have hc := State.named_ok hn
    have hreplay := answers_faultReplay (compl := compl) hf hz hn hr
    have habort := answers_faultAbort (compl := compl) hf hz hn hr
    rw [hs] at hreplay habort
    refine ⟨⟨_, hreplay, fun k u hu hcopy => State.replay_thread hc hp hcopy hu, fun id x hcopy hx => ?_, fun x hx => ?_, ?_⟩,
      _, habort, fun k x hk hx l hl => State.abortRecord_launch hc hp hk hx hl, fun x hx => ?_⟩
    · rw [if_pos rfl, State.replay_copies hc hp hcopy, aget_amod_same, hx, Option.map_some]
    · rw [if_pos rfl, State.replay_state hc hp] at hx
      exact parked_adel hx
    · rw [if_pos rfl, State.replay_state hc hp]
    · rw [if_pos rfl, State.abortRecord_eq hc hp] at hx
      exact parked_adel hx
  case held =>
    intro fn compl cid idx n s f c hf hz hn hs hr i abort hi
    have hc := State.named_ok hn
    refine ⟨s.holdCommand cid n abort, ?_, rfl, ?_, fun k hk => ?_⟩
    · rcases hi with ⟨rfl, rfl⟩ | ⟨rfl, rfl⟩
      · have h := answers_faultReplay (compl := compl) hf hz hn hr
        rwa [hs, if_neg Bool.false_ne_true] at h
      · have h := answers_faultAbort (compl := compl) hf hz hn hr
        rwa [hs, if_neg Bool.false_ne_true] at h
    · rw [State.holdCommand, State.modCtx_ctxs, aget_amod_same, hc, Option.map_some]
    · rw [State.holdCommand, State.modCtx_ctxs, aget_amod_other _ _ hk]
  case unknown =>
    exact fun fn compl cid idx s f c hf hz hn hr => answers_noRecord hf hz hn hr
  case bin =>
    intro fn compl sec bin s f c b l hf hz hsec hbin ha hn hs _
    obtain ⟨l1, hl1, -, hst⟩ := State.endLaunch_status (status := stAborted) (State.launch_of_armed ha) hs
    obtain ⟨x, hx, hxs, hsig⟩ := State.signal_launch hl1 hst
    exact ⟨_, x, answers_binAbort hf hz hsec hbin ha hn, hx, hxs, hsig⟩
  case shootdown =>
    intro fn compl cid va len s f c hf hz hn i shot
    have hc := State.named_ok hn
    refine ⟨fun hst => ?_, fun hst => ?_⟩
    · have hr : s.shot f [cid] (fun s => s.shoot cid va len) = (s.shoot cid va len).markStores [cid] := if_pos hst
      exact ⟨(s.shoot cid va len).markStores [cid], fun v => State.mem_shoot_seen hc va len v,
        fun k x m l hx hcid hl => State.shoot_lines hc hx hcid hl,
        fun hinv k x hx hcid => State.shoot_cohort_other hc hinv.cohorts hx hcid,
        fun h => exec_shootdown_waits hf hz hn hr h, fun h => answers_shootdown hf hz hn hr h⟩
    · have hr : s.shot f [cid] (fun s => s.shoot cid va len) = s := if_neg hst
      exact ⟨fun h => exec_shootdown_waits hf hz hn hr h, fun h => answers_shootdown hf hz hn hr h⟩
  case frames =>
    intro fn compl cid frame n s f c hf hz hn hin k
    refine ⟨fun hfree => ?_, fun hbusy => answers_frameAssign_busy hf hz hn hin hbusy, fun hpos hown => ?_,
      fun hst hall => ?_⟩
    · exact ⟨_, answers_frameAssign hf hz hn hin hfree, fun j hj => s.setFrames_at c.pid _ hj,
        fun x hx => s.setFrames_other _ hx, rfl⟩
    · intro i cids r
      have hr : s.shot f cids (fun s => s.shootFrames c.pid frame n) = r := rfl
      have hhub : r.performAll.hub = s.hub := s.shot_frames_hub f cids c.pid frame n
      refine ⟨fun h => exec_frameRelease_waits hf hz hn hin hpos hown hr h, fun h =>
        ⟨_, exec_frameRelease_scrubs hf hz hn hin hpos hown hr h, fun j hj => r.performAll.setFrames_at c.pid _ hj,
          fun x hx => (r.performAll.setFrames_other _ hx).trans (by rw [hhub]), ?_, rfl, rfl, rfl⟩⟩
      refine State.aget_funcs_modFunc (s := r.performAll.setFrames (frameKeys c.pid frame n) (.scrubbing cid)) ?_ _
      rw [State.setFrames, hhub]
      exact hf
    · refine ⟨_, answers_frameRelease_scrubbed hf hz hn hin hst hall, fun j hj => s.scrub_frame c.pid frame n hj,
        fun a h1 h2 => ⟨?_, s.scrub_tag c.pid frame n h1 h2⟩, fun _ a ha => ?_⟩
      · rw [State.scrub_mem, if_pos ⟨h1, h2⟩]
      · rw [State.scrub_mem, if_neg ha]
  case watch =>
    intro fn compl cid slot scope core addr ctl s f c hf hz hn hslot hlo hhi hcore hpid hctl hal
    exact ⟨_, answers_watchSet hf hz hn hslot hlo hhi hcore hpid hctl hal, fun j hj => State.setWatch_core hj, rfl⟩
  case gang =>
    intro fn compl gang fns withdraw s f hf hz hlo hhi hfns i fs others distinct
    have hlen : fs.length = fns.length := List.filterMap_length_eq_length.mpr hfns
    refine ⟨fun h => answers_gangAssign_vf hf hz h, fun h hw hbad => ?_, fun h hok => ?_⟩
    · refine answers_gangAssign hf hz hlo hhi hfns h ?_
      have hb : 4 < fns.length ∨ ¬ ((s.gangMembers gang fns).map Func.pid).Nodup := by
        rcases not_and_or.mp hbad with h4 | hd
        · exact .inl (by omega)
        · exact .inr hd
      rw [hw, if_neg Bool.false_ne_true, if_pos hb]
      rfl
    · refine ⟨s.modFuncs fns fun x => x.inGang gang withdraw, answers_gangAssign hf hz hlo hhi hfns h ?_, fun n hn x hx => ?_,
        fun n hn => ?_, ?_⟩
      · cases withdraw with
        | true => rfl
        | false =>
          obtain ⟨h4, hd⟩ := hok.resolve_left Bool.false_ne_true
          have hg : ¬ (4 < fns.length ∨ ¬ ((s.gangMembers gang fns).map Func.pid).Nodup) := by
            rintro (h5 | h5)
            · omega
            · exact h5 hd
          rw [if_neg Bool.false_ne_true, if_neg hg]
          rfl
      · rw [State.modFuncs_eq, aget_foldl_amod_list _ _ fun v => v.inGang_inGang gang withdraw,
          Option.map_eq_some_iff] at hx
        obtain ⟨y, -, rfl⟩ := hx
        rw [if_pos hn, Func.inGang_contains]
      · rw [State.modFuncs_eq, aget_foldl_amod_list _ _ fun v => v.inGang_inGang gang withdraw]
        simp only [if_neg hn, Option.map_id']
      · rw [State.modFuncs_eq]

end Sys2Proof.Machine
end

section
/-! SUPPORT. Bundles and rotation turns (R48, R49, R52): the orders of the candidates, which threads are ready, the
sub-bundles that a leader gathers, and the rotation. -/

namespace Sys2Proof.Machine

/-! ## Sorting by an order of candidates -/

theorem sortBy_eq_insertionSort {α : Type} (le : α → α → Bool) (l : List α) :
    sortBy le l = l.insertionSort fun a b => le a b = true := by
  have ins : ∀ (x : α) (l : List α), insertBy le x l = l.orderedInsert (fun a b => le a b = true) x := by
    intro x l
    induction l with
    | nil => rfl
    | cons y t ih => rw [insertBy, ih, List.orderedInsert_cons]
  induction l with
  | nil => rfl
  | cons x t ih => rw [sortBy, ins, ih, List.insertionSort_cons]

/-- A relation that sorts: every two elements compare, and it is transitive. -/
structure Sorts {α : Type} (le : α → α → Bool) : Prop where
  total : ∀ a b, le a b = true ∨ le b a = true
  trans : ∀ a b c, le a b = true → le b c = true → le a c = true

theorem Sorts.refl {α : Type} {le : α → α → Bool} (h : Sorts le) (a : α) : le a a = true := (h.total a a).elim id id

theorem Sorts.pairwise_sortBy {α : Type} {le : α → α → Bool} (h : Sorts le) (l : List α) :
    (sortBy le l).Pairwise fun a b => le a b = true := by
  rw [sortBy_eq_insertionSort]
  have : Std.Total fun a b => le a b = true := ⟨h.total⟩
  have : IsTrans α fun a b => le a b = true := ⟨h.trans⟩
  exact List.pairwise_insertionSort _ l

theorem Cand.sorts_pcLe : Sorts Cand.pcLe := by
  constructor
  · intro a b
    unfold Cand.pcLe
    split_ifs <;> simp only [decide_eq_true_eq] <;> omega
  · intro a b c
    unfold Cand.pcLe
    split_ifs <;> simp only [decide_eq_true_eq] <;> omega

theorem Cand.sorts_gatherLe : Sorts Cand.gatherLe := by
  constructor
  · intro a b
    unfold Cand.gatherLe
    split_ifs <;> simp only [decide_eq_true_eq] <;> omega
  · intro a b c
    unfold Cand.gatherLe
    split_ifs <;> simp only [decide_eq_true_eq] <;> omega

/-- The lowest of a list is one of it, and no other is lower. -/
theorem lowestBy_some {le : Cand → Cand → Bool} (h : Sorts le) {cs : List Cand} {p : Cand} (hp : lowestBy le cs = some p) :
    p ∈ cs ∧ ∀ d ∈ cs, le p d = true := by
  obtain ⟨t, ht⟩ := List.head?_eq_some_iff.mp hp
  have hs := h.pairwise_sortBy cs
  rw [ht, List.pairwise_cons] at hs
  refine ⟨mem_sortBy.mp (ht ▸ List.mem_cons_self), fun d hd => ?_⟩
  rcases List.mem_cons.mp (ht ▸ mem_sortBy.mpr hd) with rfl | hd
  · exact h.refl d
  · exact hs.1 d hd

theorem lowestBy_none {le : Cand → Cand → Bool} {cs : List Cand} : lowestBy le cs = none ↔ cs = [] := by
  rw [lowestBy, List.head?_eq_none_iff, List.eq_nil_iff_forall_not_mem, List.eq_nil_iff_forall_not_mem]
  simp only [mem_sortBy]

/-! ## One PC -/

theorem Cand.at_iff {a b : Cand} : a.at b = true ↔ a.pc = b.pc ∧ a.idx = b.idx ∧ a.cid = b.cid := by
  simp only [Cand.at, Bool.and_eq_true, beq_iff_eq, and_assoc]

theorem Cand.at_refl (a : Cand) : a.at a = true := Cand.at_iff.mpr ⟨rfl, rfl, rfl⟩

theorem Cand.at_symm {a b : Cand} (h : a.at b = true) : b.at a = true := by
  obtain ⟨h1, h2, h3⟩ := Cand.at_iff.mp h
  exact Cand.at_iff.mpr ⟨h1.symm, h2.symm, h3.symm⟩

theorem Cand.at_trans {a b c : Cand} (h : a.at b = true) (g : b.at c = true) : a.at c = true := by
  obtain ⟨h1, h2, h3⟩ := Cand.at_iff.mp h
  obtain ⟨g1, g2, g3⟩ := Cand.at_iff.mp g
  exact Cand.at_iff.mpr ⟨h1.trans g1, h2.trans g2, h3.trans g3⟩

/-- Threads at one PC stand alike in the order of PCs. -/
theorem Cand.pcLe_of_at {a b c : Cand} (h : a.at b = true) (hb : b.pcLe c = true) : a.pcLe c = true := by
  obtain ⟨h1, h2, h3⟩ := Cand.at_iff.mp h
  unfold Cand.pcLe at hb ⊢
  rwa [h1, h2, h3]

/-! ## Sub-bundles -/

theorem length_secondSub {rdy s1 : List Cand} (h : s1.length ≤ 32) : (s1 ++ secondSub rdy s1).length ≤ 32 := by
  rw [List.length_append]
  unfold secondSub
  split
  · simp
  · next p1 t =>
    split_ifs
    · simpa using h
    · split
      · simpa using h
      · next p2 _ =>
        have := List.length_take_le (32 - (p1 :: t).length) (sortBy Cand.gatherLe (rdy.filter fun c => Cand.at c p2))
        omega

/-- The second sub-bundle gathers ready threads at the lowest PC but that of the first, in gather order (R49). -/
theorem mem_secondSub {rdy s1 : List Cand} {lead c : Cand} (hl : s1.head? = some lead) (hc : c ∈ secondSub rdy s1) :
    c ∈ rdy ∧ c.at lead = false ∧ ∀ d ∈ rdy, d.at lead = false → c.pcLe d = true := by
  obtain ⟨t, rfl⟩ := List.head?_eq_some_iff.mp hl
  unfold secondSub at hc
  split at hc
  · cases hc
  · next p1 t' heq =>
    cases heq
    split_ifs at hc
    · cases hc
    · split at hc
      · cases hc
      · next p2 h2 =>
        obtain ⟨hp2, hlow⟩ := lowestBy_some Cand.sorts_pcLe h2
        obtain ⟨hcr, hat⟩ := List.mem_filter.mp (mem_sortBy.mp (List.mem_of_mem_take hc))
        obtain ⟨-, hne⟩ := List.mem_filter.mp hp2
        refine ⟨hcr, ?_, fun d hd hn => ?_⟩
        · by_contra hcl
          rw [Cand.at_trans (Cand.at_symm hat) (by simpa using hcl)] at hne
          cases hne
        · exact Cand.pcLe_of_at hat (hlow d (List.mem_filter.mpr ⟨hd, by simp [hn]⟩))

theorem pairwise_secondSub (rdy s1 : List Cand) : (secondSub rdy s1).Pairwise fun a b => Cand.gatherLe a b = true := by
  unfold secondSub
  split
  · exact List.Pairwise.nil
  · split_ifs
    · exact List.Pairwise.nil
    · split
      · exact List.Pairwise.nil
      · exact (Cand.sorts_gatherLe.pairwise_sortBy _).take

/-- A leader with what it gathers at its PC, in gather order, and a second sub-bundle or none are a bundle (R49, R50). -/
theorem bundle_of_lead {rdy rest s2 : List Cand} {lead : Cand} (hr : ∀ c ∈ lead :: rest, c ∈ rdy ∧ c.at lead = true)
    (hf : ∀ c ∈ rdy, c.at lead = true → c.tid ∈ (lead :: rest).map Cand.tid)
    (ho : rest.Pairwise fun a b => Cand.gatherLe a b = true)
    (h2 : s2 = secondSub rdy ((lead :: rest).take 32) ∨ s2 = []) : Bundle rdy ((lead :: rest).take 32) s2 lead := by
  have hlead : ((lead :: rest).take 32).head? = some lead := rfl
  have hlen : ((lead :: rest).take 32).length ≤ 32 := List.length_take_le ..
  have hmem : ∀ c ∈ s2, c ∈ secondSub rdy ((lead :: rest).take 32) := by
    rcases h2 with rfl | rfl
    · exact fun c hc => hc
    · exact fun c hc => nomatch hc
  constructor
  case ready =>
    intro c hc
    rcases List.mem_append.mp hc with hc | hc
    · exact (hr c (List.mem_of_mem_take hc)).1
    · exact (mem_secondSub hlead (hmem c hc)).1
  case size =>
    rcases h2 with rfl | rfl
    · exact length_secondSub hlen
    · rwa [List.append_nil]
  case leads => exact hlead
  case same => exact fun c hc => (hr c (List.mem_of_mem_take hc)).2
  case full =>
    by_cases h : 32 ≤ (lead :: rest).length
    · exact .inl (List.length_take_of_le h)
    · rw [List.take_of_length_le (by omega)]
      exact .inr hf
  case order => exact ho.take
  case other => exact fun c hc => (mem_secondSub hlead (hmem c hc)).2
  case order2 =>
    rcases h2 with rfl | rfl
    · exact pairwise_secondSub _ _
    · exact List.Pairwise.nil

/-- In an ordinary cycle the lowest thread at the lowest PC leads the bundle (R49). -/
theorem bundle_ordinary {rdy s2 : List Cand} (hne : rdy ≠ [])
    (h2 : s2 = secondSub rdy (firstSub rdy none) ∨ s2 = []) :
    ∃ c, Bundle rdy (firstSub rdy none) s2 c ∧ ∀ d ∈ rdy, c.pcLe d = true ∧ (d.at c = true → c.gatherLe d = true) := by
  obtain ⟨p, hp⟩ := Option.ne_none_iff_exists'.mp (mt (lowestBy_none (le := Cand.pcLe)).mp hne)
  obtain ⟨hpr, hlow⟩ := lowestBy_some Cand.sorts_pcLe hp
  have hfirst : firstSub rdy none = (sortBy Cand.gatherLe (rdy.filter fun c => Cand.at c p)).take 32 := by
    simp only [firstSub, hp]
  have hmem : ∀ c, c ∈ sortBy Cand.gatherLe (rdy.filter fun c => Cand.at c p) ↔ c ∈ rdy ∧ c.at p = true := by
    intro c
    rw [mem_sortBy, List.mem_filter]
  have hsort := Cand.sorts_gatherLe.pairwise_sortBy (rdy.filter fun c => Cand.at c p)
  rw [hfirst] at h2 ⊢
  generalize sortBy Cand.gatherLe (rdy.filter fun c => Cand.at c p) = gathered at h2 hmem hsort ⊢
  cases gathered with
  | nil => exact nomatch (hmem p).mpr ⟨hpr, p.at_refl⟩
  | cons lead rest =>
    obtain ⟨hlr, hlp⟩ := (hmem lead).mp List.mem_cons_self
    have at_p : ∀ {c : Cand}, c.at lead = true → c.at p = true := fun h => Cand.at_trans h hlp
    obtain ⟨hle, hrest⟩ := List.pairwise_cons.mp hsort
    refine ⟨lead, bundle_of_lead (fun c hc => ?_) (fun c hc h => ?_) hrest h2, fun d hd => ⟨?_, fun h => ?_⟩⟩
    · obtain ⟨hcr, hcp⟩ := (hmem c).mp hc
      exact ⟨hcr, Cand.at_trans hcp (Cand.at_symm hlp)⟩
    · exact List.mem_map_of_mem ((hmem c).mpr ⟨hc, at_p h⟩)
    · exact Cand.pcLe_of_at hlp (hlow d hd)
    · rcases List.mem_cons.mp ((hmem d).mpr ⟨hd, at_p h⟩) with rfl | h
      · exact Cand.sorts_gatherLe.refl d
      · exact hle d h

/-- In a turn the thread of the turn leads the bundle (R52). -/
theorem bundle_turn {rdy s2 : List Cand} {lead : Cand} (hl : lead ∈ rdy)
    (h2 : s2 = secondSub rdy (firstSub rdy (some lead)) ∨ s2 = []) : Bundle rdy (firstSub rdy (some lead)) s2 lead := by
  refine bundle_of_lead (fun c hc => ?_) (fun c hc h => ?_) (Cand.sorts_gatherLe.pairwise_sortBy _) h2
  · rcases List.mem_cons.mp hc with rfl | hc
    · exact ⟨hl, c.at_refl⟩
    · obtain ⟨hcr, hcp⟩ := List.mem_filter.mp (mem_sortBy.mp hc)
      exact ⟨hcr, (Bool.and_eq_true_iff.mp hcp).1⟩
  · by_cases ht : c.tid = lead.tid
    · rw [ht]
      exact List.mem_map_of_mem List.mem_cons_self
    · exact List.mem_map_of_mem (List.mem_cons_of_mem _
        (mem_sortBy.mpr (List.mem_filter.mpr ⟨hc, by simp [h, ht]⟩)))

/-- A free choice that is made only where a condition does not hold changes the counter of free values alone. -/
theorem State.pickUnless_state (s : State) (n : Nat) (c : Bool) :
    (if c then (0, s) else s.pick n).2 = { s with free := (if c then (0, s) else s.pick n).2.free } := by
  cases c
  · exact s.pick_state n
  · rfl

/-- What is issued is the first sub-bundle and the second, or none in its place (R50), in gather order. -/
theorem State.issueBundle_eq (s : State) (rdy : List Cand) (turn : Option Cand) :
    ∃ s2, (s2 = secondSub rdy (firstSub rdy turn) ∨ s2 = []) ∧ s.issueBundle rdy turn = { s with
      issue := (sortBy Cand.gatherLe (firstSub rdy turn ++ s2)).map Cand.tid, bundle := s.bundle + 1
      free := (s.issueBundle rdy turn).free } := by
  have key : ∀ p : Nat × State, p.2 = { s with free := p.2.free } → ∃ s2,
      (s2 = secondSub rdy (firstSub rdy turn) ∨ s2 = []) ∧
      ({ p.2 with
        issue := (sortBy Cand.gatherLe (firstSub rdy turn ++ if p.1 = 0 then secondSub rdy (firstSub rdy turn) else [])).map
          Cand.tid
        bundle := p.2.bundle + 1 } : State) = { s with
      issue := (sortBy Cand.gatherLe (firstSub rdy turn ++ s2)).map Cand.tid, bundle := s.bundle + 1, free := p.2.free } := by
    intro p hp
    by_cases hx : p.1 = 0
    · exact ⟨_, .inl rfl, by rw [hp, if_pos hx]⟩
    · exact ⟨_, .inr rfl, by rw [hp, if_neg hx]⟩
  exact key _ (s.pickUnless_state 2 ((secondSub rdy (firstSub rdy turn)).isEmpty ||
    (firstSub rdy turn ++ secondSub rdy (firstSub rdy turn)).any fun c => s.detThread c.tid))

/-! ## Which threads are ready -/

/-- A thread that a quarter has looked at: it may have become ready, and it stands in the cycle after a YIELD no more. -/
structure Thread.Looked (u v : Thread) : Prop where
  rest : v = { u with rdy := v.rdy, late := v.late, yielded := v.yielded }
  rdy : u.rdy = true → v.rdy = true
  yielded : u.yielded = false → v.yielded = false

theorem Thread.Looked.refl (u : Thread) : u.Looked u := ⟨rfl, id, id⟩

theorem Thread.Looked.trans {a b c : Thread} (h : a.Looked b) (g : b.Looked c) : a.Looked c := by
  refine ⟨?_, g.rdy ∘ h.rdy, g.yielded ∘ h.yielded⟩
  have hc := g.rest
  rw [h.rest] at hc
  exact hc

/-- What the look at one thread answers, and what it makes of the thread (R48, R517). -/
structure State.LooksAt (s : State) (tid : Nat) (ready : Bool) (t : State) : Prop where
  rest : t = { s with free := t.free, threads := t.threads }
  others : ∀ k, k ≠ tid → aget t.threads k = aget s.threads k
  thread : ∀ u, aget s.threads tid = some u → ∃ v, aget t.threads tid = some v ∧ u.Looked v ∧ v.yielded = false ∧
    (u.yielded = true → ready = false) ∧ (u.rdy = true → u.yielded = false → ready = true)

theorem State.LooksAt.of_set {s r : State} {tid : Nat} {u v : Thread} {b : Bool} (hu : aget s.threads tid = some u)
    (hr : r = { s with free := r.free }) (hl : u.Looked v) (hy : v.yielded = false) (h1 : u.yielded = true → b = false)
    (h2 : u.rdy = true → u.yielded = false → b = true) : s.LooksAt tid b (r.setThread tid v) := by
  have ht : r.threads = s.threads := by rw [hr]
  refine ⟨by rw [hr]; rfl, fun k hk => ?_, fun u' hu' => ⟨v, aget_aset_same .., ?_⟩⟩
  · rw [State.setThread_threads, ht, aget_aset_other _ _ hk]
  · cases hu.symm.trans hu'
    exact ⟨hl, hy, h1, h2⟩

/-- The look at a thread that is not ready yet: it becomes so, or waits on, by a free choice (log entries 2 and 37). -/
theorem State.LooksAt.of_pick {s : State} {tid : Nat} {u : Thread} {p : Nat × State} (hu : aget s.threads tid = some u)
    (hy : u.yielded = false) (hr : u.rdy = false) (hp : p.2 = { s with free := p.2.free }) :
    s.LooksAt tid
      (if p.1 = 0 then (true, p.2.setThread tid { u with rdy := true })
        else (false, p.2.setThread tid { u with late := u.late + 1 })).1
      (if p.1 = 0 then (true, p.2.setThread tid { u with rdy := true })
        else (false, p.2.setThread tid { u with late := u.late + 1 })).2 := by
  split_ifs
  · exact .of_set hu hp ⟨rfl, fun _ => rfl, id⟩ hy (fun h => nomatch hy.symm.trans h) fun _ _ => rfl
  · exact .of_set hu hp ⟨rfl, id, id⟩ hy (fun _ => rfl) fun h => nomatch hr.symm.trans h

theorem State.nowReady_looksAt (s : State) (tid : Nat) : s.LooksAt tid (s.nowReady tid).1 (s.nowReady tid).2 := by
  unfold State.nowReady
  cases hu : aget s.threads tid with
  | none => exact ⟨rfl, fun _ _ => rfl, fun u hu' => nomatch hu.symm.trans hu'⟩
  | some u =>
    by_cases hy : u.yielded = true
    · simp only [if_pos hy]
      exact .of_set hu rfl ⟨rfl, id, fun _ => rfl⟩ rfl (fun _ => rfl) fun _ h => nomatch hy.symm.trans h
    · have hn : u.yielded = false := by simpa using hy
      by_cases hr : u.rdy = true
      · simp only [if_neg hy, if_pos hr]
        refine ⟨rfl, fun _ _ => rfl, fun u' hu' => ?_⟩
        cases hu.symm.trans hu'
        exact ⟨u, hu, .refl u, hn, fun h => absurd h hy, fun _ _ => rfl⟩
      · simp only [if_neg hy, if_neg hr]
        exact State.LooksAt.of_pick hu hn (by simpa using hr) (s.pickUnless_state 2 _)

theorem readyOf_cons (c : Cand) (cs : List Cand) (s : State) : readyOf (c :: cs) s =
    ((if (s.nowReady c.tid).1 then c :: (readyOf cs (s.nowReady c.tid).2).1 else (readyOf cs (s.nowReady c.tid).2).1),
      (readyOf cs (s.nowReady c.tid).2).2) := rfl

theorem readyOf_sublist (cs : List Cand) (s : State) : (readyOf cs s).1.Sublist cs := by
  induction cs generalizing s with
  | nil => exact List.Sublist.slnil
  | cons c cs ih =>
    rw [readyOf_cons]
    split
    · exact (ih _).cons_cons c
    · exact (ih _).cons c

theorem readyOf_state (cs : List Cand) (s : State) :
    (readyOf cs s).2 = { s with free := (readyOf cs s).2.free, threads := (readyOf cs s).2.threads } := by
  induction cs generalizing s with
  | nil => rfl
  | cons c cs ih =>
    rw [readyOf_cons]
    have h := ih (s.nowReady c.tid).2
    rw [(s.nowReady_looksAt c.tid).rest] at h ⊢
    exact h

/-- What the looks at a quarter's threads make of a thread. -/
theorem readyOf_thread {cs : List Cand} {s : State} {k : Nat} {u : Thread} (hu : aget s.threads k = some u) :
    ∃ v, aget (readyOf cs s).2.threads k = some v ∧ u.Looked v ∧ ((∀ c ∈ cs, c.tid ≠ k) → v = u) := by
  induction cs generalizing s u with
  | nil => exact ⟨u, hu, .refl u, fun _ => rfl⟩
  | cons c cs ih =>
    have h := s.nowReady_looksAt c.tid
    rw [readyOf_cons]
    by_cases hk : k = c.tid
    · subst hk
      obtain ⟨u', hu', hl, -, -, -⟩ := h.thread u hu
      obtain ⟨v, hv, hl', -⟩ := ih hu'
      exact ⟨v, hv, hl.trans hl', fun hne => absurd rfl (hne c List.mem_cons_self)⟩
    · obtain ⟨v, hv, hl, he⟩ := ih ((h.others k hk).trans hu)
      exact ⟨v, hv, hl, fun hne => he fun d hd => hne d (List.mem_cons_of_mem _ hd)⟩

/-- A thread that is ready stays ready (R48). -/
theorem mem_readyOf {cs : List Cand} {s : State} {c : Cand} {u : Thread} (hc : c ∈ cs) (hu : aget s.threads c.tid = some u)
    (hr : u.rdy = true) (hy : u.yielded = false) : c ∈ (readyOf cs s).1 := by
  induction cs generalizing s u with
  | nil => cases hc
  | cons d cs ih =>
    have h := s.nowReady_looksAt d.tid
    rw [readyOf_cons]
    rcases List.mem_cons.mp hc with rfl | hc
    · obtain ⟨-, -, -, -, -, hready⟩ := h.thread u hu
      rw [hready hr hy, if_pos rfl]
      exact List.mem_cons_self
    · have hin : c ∈ (readyOf cs (s.nowReady d.tid).2).1 := by
        by_cases hk : c.tid = d.tid
        · obtain ⟨v, hv, hl, hyv, -, -⟩ := h.thread u (hk ▸ hu)
          exact ih hc (hk ▸ hv) (hl.rdy hr) hyv
        · exact ih hc ((h.others _ hk).trans hu) hr hy
      split
      · exact List.mem_cons_of_mem _ hin
      · exact hin

/-- A thread that executed YIELD is not ready in the cycle after it (R517). -/
theorem not_mem_readyOf {cs : List Cand} {s : State} {c : Cand} {u v : Thread} (hd : (cs.map Cand.tid).Nodup) (hc : c ∈ cs)
    (hu : aget s.threads c.tid = some u) (hy : u.yielded = true) (hv : aget (readyOf cs s).2.threads c.tid = some v) :
    c ∉ (readyOf cs s).1 ∧ v.yielded = false := by
  induction cs generalizing s u with
  | nil => cases hc
  | cons d cs ih =>
    have h := s.nowReady_looksAt d.tid
    rw [List.map_cons, List.nodup_cons] at hd
    rw [readyOf_cons] at hv ⊢
    rcases List.mem_cons.mp hc with rfl | hc
    · obtain ⟨u', hu', -, hy', hready, -⟩ := h.thread u hu
      obtain ⟨v', hv', hl, -⟩ := readyOf_thread (cs := cs) hu'
      cases hv'.symm.trans hv
      rw [hready hy, if_neg Bool.false_ne_true]
      exact ⟨fun hin => hd.1 (List.mem_map_of_mem ((readyOf_sublist cs _).subset hin)), hl.yielded hy'⟩
    · have hk : c.tid ≠ d.tid := fun he => hd.1 (he ▸ List.mem_map_of_mem hc)
      obtain ⟨hin, hyv⟩ := ih hd.2 hc ((h.others _ hk).trans hu) hy hv
      refine ⟨?_, hyv⟩
      split
      · rintro (_ | ⟨_, hin'⟩)
        · exact hk rfl
        · exact hin hin'
      · exact hin

/-- The keys of a map in canonical form rise. -/
theorem pairwise_of_rising {α : Type} {m : Assoc α} {lo : Nat} (r : rising lo m = true) :
    m.Pairwise (fun a b => a.1 < b.1) ∧ ∀ e ∈ m, lo ≤ e.1 := by
  induction m generalizing lo with
  | nil => exact ⟨List.Pairwise.nil, fun _ h => nomatch h⟩
  | cons e t ih =>
    simp only [rising, Bool.and_eq_true, decide_eq_true_eq] at r
    obtain ⟨hp, hb⟩ := ih r.2
    refine ⟨List.pairwise_cons.mpr ⟨fun f hf => hb f hf, hp⟩, fun f hf => ?_⟩
    rcases List.mem_cons.mp hf with rfl | hf
    · exact r.1
    · have := hb f hf
      omega

/-- A candidate's thread is an entry of the table of threads. -/
theorem State.cands_nodup {s : State} (r : rising 0 s.threads = true) (core q : Nat) :
    ((s.cands core q).map Cand.tid).Nodup := by
  rw [List.nodup_iff_pairwise_ne, List.pairwise_map, State.cands, List.pairwise_filterMap]
  refine (pairwise_of_rising r).1.imp fun {a b} hab c hc d hd => ?_
  have hc' : c.tid = a.1 := by
    repeat' split at hc
    all_goals cases hc
    rfl
  have hd' : d.tid = b.1 := by
    repeat' split at hd
    all_goals cases hd
    rfl
  omega

/-! ## Turns -/

/-- The turn serves the first launch of the rotation that has a ready thread, and its lowest one leads (R52). -/
theorem turnThread_some {rdy : List Cand} {a b : List Nat} {l : Nat} (ha : ∀ k ∈ a, ∀ c ∈ rdy, c.lid ≠ k)
    (hl : ∃ c ∈ rdy, c.lid = l) : ∃ c, turnThread rdy (a ++ l :: b) = some (l, c) ∧ c ∈ rdy ∧ c.lid = l ∧
      ∀ d ∈ rdy, d.lid = l → c.gatherLe d = true := by
  induction a with
  | nil =>
    obtain ⟨d, hd, hdl⟩ := hl
    have hne : rdy.filter (fun c => c.lid == l) ≠ [] :=
      List.ne_nil_of_mem (List.mem_filter.mpr ⟨hd, by simpa using hdl⟩)
    obtain ⟨c, hc⟩ := Option.ne_none_iff_exists'.mp (mt (lowestBy_none (le := Cand.gatherLe)).mp hne)
    obtain ⟨hmem, hlow⟩ := lowestBy_some Cand.sorts_gatherLe hc
    obtain ⟨hcr, hcl⟩ := List.mem_filter.mp hmem
    refine ⟨c, ?_, hcr, by simpa using hcl, fun d hd hdl => hlow d (List.mem_filter.mpr ⟨hd, by simpa using hdl⟩)⟩
    simp only [List.nil_append, turnThread, hc]
  | cons k a ih =>
    have hk : rdy.filter (fun c => c.lid == k) = [] :=
      List.filter_eq_nil_iff.mpr fun c hc => by simpa using ha k List.mem_cons_self c hc
    rw [List.cons_append, turnThread, hk]
    exact ih fun j hj => ha j (List.mem_cons_of_mem _ hj)

theorem turnThread_none {rdy : List Cand} {rot : List Nat} (h : ∀ l ∈ rot, ∀ c ∈ rdy, c.lid ≠ l) :
    turnThread rdy rot = none := by
  induction rot with
  | nil => rfl
  | cons l t ih =>
    have hl : rdy.filter (fun c => c.lid == l) = [] :=
      List.filter_eq_nil_iff.mpr fun c hc => by simpa using h l List.mem_cons_self c hc
    rw [turnThread, hl]
    exact ih fun j hj => h j (List.mem_cons_of_mem _ hj)

theorem mem_of_turnThread {rdy : List Cand} {rot : List Nat} {l : Nat} {c : Cand} (h : turnThread rdy rot = some (l, c)) :
    l ∈ rot ∧ c ∈ rdy ∧ c.lid = l := by
  induction rot with
  | nil => cases h
  | cons k t ih =>
    rw [turnThread] at h
    split at h
    · next d hd =>
      cases h
      obtain ⟨hmem, -⟩ := lowestBy_some Cand.sorts_gatherLe hd
      obtain ⟨hcr, hcl⟩ := List.mem_filter.mp hmem
      exact ⟨List.mem_cons_self, hcr, by simpa using hcl⟩
    · obtain ⟨h1, h2⟩ := ih h
      exact ⟨List.mem_cons_of_mem _ h1, h2⟩

theorem firstIdx_append {a b : List Nat} {l : Nat} (h : l ∉ a) : firstIdx (· == l) (a ++ l :: b) = some a.length := by
  induction a with
  | nil => simp [firstIdx]
  | cons k a ih =>
    rw [List.mem_cons, not_or] at h
    rw [List.cons_append, firstIdx, ih h.2, if_neg (by simpa using Ne.symm h.1)]
    rfl

/-- A launch that has been served goes to the end of the rotation (R52). -/
theorem rotateAfter_append {a b : List Nat} {l : Nat} (h : l ∉ a) : rotateAfter (a ++ l :: b) l = b ++ a ++ [l] := by
  have hsplit : a ++ l :: b = (a ++ [l]) ++ b := by simp
  have hlen : a.length + 1 = (a ++ [l]).length := by simp
  rw [rotateAfter, firstIdx_append h]
  simp only
  rw [hsplit, hlen, List.drop_left, List.take_left, List.append_assoc]

/-! ## The statement -/

/-- The state in which a quarter's ready threads issue in a bundle, whoever leads it. -/
theorem State.issues_ready (s : State) (core q : Nat) (rot : Assoc (List Nat)) (turn : Option Cand) :
    let r := readyOf (s.cands core q) s
    ∃ s2, (s2 = secondSub r.1 (firstSub r.1 turn) ∨ s2 = []) ∧ ∃ t,
      State.issueBundle { r.2 with rotation := rot } r.1 turn = t ∧ t.threads = r.2.threads ∧ t.rotation = rot ∧
      t = { s with
        issue := (sortBy Cand.gatherLe (firstSub r.1 turn ++ s2)).map Cand.tid, bundle := s.bundle + 1, free := t.free
        rotation := t.rotation, threads := t.threads } := by
  intro r
  obtain ⟨s2, h2, ht⟩ := State.issueBundle_eq { r.2 with rotation := rot } r.1 turn
  have hr : r.2 = _ := readyOf_state (s.cands core q) s
  refine ⟨s2, h2, _, rfl, by rw [ht], by rw [ht], ?_⟩
  rw [ht]
  dsimp only
  rw [hr]

/-- What the ready threads of a quarter are, and what becomes of its threads, in a state that has the looks' threads. -/
theorem State.readyOf_spec (s t : State) (core q : Nat) (ht : t.threads = (readyOf (s.cands core q) s).2.threads) :
    let rdy := (readyOf (s.cands core q) s).1
    rdy.Sublist (s.cands core q) ∧
    (∀ c ∈ s.cands core q, ∀ u, aget s.threads c.tid = some u → u.rdy = true → u.yielded = false → c ∈ rdy) ∧
    (rising 0 s.threads = true → ∀ c ∈ s.cands core q, ∀ u v, aget s.threads c.tid = some u → u.yielded = true →
      aget t.threads c.tid = some v → c ∉ rdy ∧ v.yielded = false) ∧
    ∀ k u, aget s.threads k = some u → ∃ v, aget t.threads k = some v ∧
      v = { u with rdy := v.rdy, late := v.late, yielded := v.yielded } ∧
      (u.rdy = true → u.yielded = false → v.rdy = true) ∧ ((∀ c ∈ s.cands core q, c.tid ≠ k) → v = u) := by
  refine ⟨readyOf_sublist .., fun c hc u hu hr hy => mem_readyOf hc hu hr hy, fun hrise c hc u v hu hy hv => ?_,
    fun k u hu => ?_⟩
  · exact not_mem_readyOf (s.cands_nodup hrise core q) hc hu hy (ht ▸ hv)
  · obtain ⟨v, hv, hl, hv'⟩ := readyOf_thread (cs := s.cands core q) hu
    exact ⟨v, ht ▸ hv, hl.rest, fun hr _ => hl.rdy hr, hv'⟩

theorem exec_bundleForm (core q : Nat) (s : State) : exec (.bundleForm core q) s =
    .next (State.issueBundle (readyOf (s.cands core q) s).2 (readyOf (s.cands core q) s).1 none) := rfl

theorem exec_rotationTurn (core q : Nat) (s : State) : exec (.rotationTurn core q) s = execRotationTurn core q s := rfl

theorem exec_rotationTurn_ordinary {core q : Nat} {s : State}
    (h : turnThread (readyOf (s.cands core q) s).1 ((aget s.rotation (core * 4 + q)).getD []) = none) :
    exec (.rotationTurn core q) s =
      .next (State.issueBundle (readyOf (s.cands core q) s).2 (readyOf (s.cands core q) s).1 none) := by
  have hr : (readyOf (s.cands core q) s).2.rotation = s.rotation := by rw [readyOf_state]
  rw [exec_rotationTurn, execRotationTurn]
  simp only [hr, h]
  rfl

theorem exec_rotationTurn_serves {core q : Nat} {s : State} {l : Nat} {c : Cand}
    (h : turnThread (readyOf (s.cands core q) s).1 ((aget s.rotation (core * 4 + q)).getD []) = some (l, c)) :
    exec (.rotationTurn core q) s = .next (State.issueBundle { (readyOf (s.cands core q) s).2 with
      rotation := aset s.rotation (core * 4 + q) (rotateAfter ((aget s.rotation (core * 4 + q)).getD []) l) }
      (readyOf (s.cands core q) s).1 (some c)) := by
  have hr : (readyOf (s.cands core q) s).2.rotation = s.rotation := by rw [readyOf_state]
  rw [exec_rotationTurn, execRotationTurn]
  simp only [hr, h]
  rfl

/-- Settles O43: an ordinary cycle and a turn without a ready thread gather from the lowest PC, any other turn behind the
thread of its launch. -/
theorem bundlesAndTurns : Obligations.BundlesAndTurns := by
  unfold Obligations.BundlesAndTurns
  intro core q i s hi key rot
  have hrot : (readyOf (s.cands core q) s).2.rotation = s.rotation := by rw [readyOf_state]
  have ordinary : turnThread (readyOf (s.cands core q) s).1 rot = none ∨ i = .bundleForm core q → exec i s =
      .next (State.issueBundle (readyOf (s.cands core q) s).2 (readyOf (s.cands core q) s).1 none) := by
    intro h
    rcases hi with rfl | rfl
    · exact exec_bundleForm core q s
    · exact exec_rotationTurn_ordinary (h.resolve_right nofun)
  by_cases hturn : turnThread (readyOf (s.cands core q) s).1 rot = none ∨ i = .bundleForm core q
  · obtain ⟨s2, h2, t, hx, hth, hro, ht⟩ := s.issues_ready core q s.rotation none
    obtain ⟨h3, h4, h5, h6⟩ := s.readyOf_spec t core q hth
    refine ⟨t, _, _, s2, by rw [ordinary hturn, ← hx, ← hrot], h3, h4, h5, ht, h6, fun hnil => ?_, fun _ =>
      ⟨hro, fun hne => bundle_ordinary hne h2⟩, fun a l b hi' hr ha hl => ?_⟩
    · rw [hnil] at h2 ⊢
      exact ⟨rfl, h2.elim id id⟩
    · obtain ⟨c, hc, -⟩ := turnThread_some (b := b) ha hl
      rcases hturn with hn | hb
      · rw [hr, hc] at hn
        cases hn
      · rw [hb] at hi'
        cases hi'
  · obtain ⟨hsome, hni⟩ := not_or.mp hturn
    obtain ⟨⟨l, c⟩, hlc⟩ := Option.ne_none_iff_exists'.mp hsome
    obtain ⟨hlr, hcr, hcl⟩ := mem_of_turnThread hlc
    obtain ⟨s2, h2, t, hx, hth, hro, ht⟩ := s.issues_ready core q (aset s.rotation key (rotateAfter rot l)) (some c)
    obtain ⟨h3, h4, h5, h6⟩ := s.readyOf_spec t core q hth
    have hexec : exec i s = .next t := by
      rw [hi.resolve_left hni, exec_rotationTurn_serves hlc, ← hx]
    refine ⟨t, _, _, s2, hexec, h3, h4, h5, ht, h6, fun hnil => ?_, fun h => ?_, fun a l' b hi' hr ha hl => ?_⟩
    · rw [hnil] at hcr
      cases hcr
    · rcases h with h | h
      · exact absurd h hni
      · exact absurd hcl (h l hlr c hcr)
    · obtain ⟨c', hc', hcr', hcl', hlow⟩ := turnThread_some (b := b) ha hl
      rw [hr, hc'] at hlc
      cases hlc
      have hla : l ∉ a := fun hin => ha l hin c hcr hcl
      exact ⟨by rw [hro, hr, rotateAfter_append hla], c, bundle_turn hcr h2, hcl, hlow⟩

end Sys2Proof.Machine
end

section
/-! SUPPORT. The frame of every native instruction (R61, R151, R159), an op that does not execute, and the ops that read
and write registers alone. -/

namespace Sys2Proof.Machine

/-! ## The frame of an instruction -/

/-- A convergence point is executed through its arrival (R54, R347). -/
theorem exec_of_isConv {i : Instr} (h : Instr.isConv i = true) (s : State) :
    ∃ m, convMask i = some m ∧ exec i s = convOp i m s := by
  cases i
  case shfl | vote | redw | matchOp | elane | mmap | mmal | accz | accld | accst => exact ⟨_, rfl, rfl⟩
  all_goals exact Bool.noConfusion h

/-- Every native instruction but SKIP and the convergence points makes the checks, and tests its guard and its shadow (R61,
R151, R159). -/
theorem exec_guarded {i : Instr} (hn : (encodeFields i).isSome = true) (hc : Instr.isConv i = false)
    (hs : ∀ h n, i ≠ .skip h n) (s : State) : ∃ act, exec i s = guarded i s act := by
  cases i
  case shfl | vote | redw | matchOp | elane | mmap | mmal | accz | accld | accst => exact Bool.noConfusion hc
  case skip h n => exact absurd rfl (hs h n)
  case iadd | isub | imul | imulh | imad | imin | imax | iabs | isetp | idp4 | shl | shr | shf | logt | bfe | bfi | popc
      | clz | brev | pswz | lea | sel | mov | movX | moviShort | moviLong | fadd | fmul | ffma | fmin | fmax | fsetp | frnd
      | fclass | padd | pmul | pfma | pminmax | sfn | cvt | qnt | lmul | ladd | plop3 | pmovP2r | pmovR2p | ld | ldt | ldl
      | st | stl | stt | atom | red | pref | pgreq | smap | sflush | sinv | cflush | acpy | acpyt | tagld | tagst | waitc
      | fence | bar | barGrp | await | yieldOp | backoffImm | backoffReg | rpost | rtake | braRel | braLong | brx | callRel
      | callLong | callx | ret | exit | nop | trap | bpt | fetchw | binpush | bindrain | launch | rdsys | wrsys | setctl
      | rand | feat | watch | gret | tret | pdone | xred | wmov | walu => exact ⟨_, rfl⟩
  all_goals exact Bool.noConfusion hn

theorem exec_skip (h : Hdr) (n : BitVec 3) (s : State) : exec (.skip h n) s = execSkip h n s := rfl

/-- A fault of checks 4 to 6 is the whole effect of an instruction (R159). -/
theorem exec_preCheck {i : Instr} {s : State} {e : Env} {f : FaultInfo} (hn : (encodeFields i).isSome = true)
    (he : s.env = some e) (hf : preCheck e i = some f) : exec i s = .next (s.takeFault e (Instr.isLong i) f) := by
  by_cases hc : Instr.isConv i = true
  · obtain ⟨m, -, hx⟩ := exec_of_isConv hc s
    simp only [hx, convOp, he, hf]
  · by_cases hs : ∃ h n, i = .skip h n
    · obtain ⟨h, n, rfl⟩ := hs
      simp only [exec_skip, execSkip, he, hf]
      rfl
    · obtain ⟨act, hx⟩ := exec_guarded hn (by simpa using hc) (fun h n heq => hs ⟨h, n, heq⟩) s
      rw [hx, guarded_fault he hf]

/-! ## An op that does not execute -/

theorem hazardsAfter_nil (e : Env) {i j : Instr} (h : Instr.hdr j = Instr.hdr i) :
    hazardsAfter e i [] = hazardsAfter e j [] := by
  simp only [hazardsAfter, h, List.map_nil, List.append_nil, ite_self]

/-- An op that does not execute passes as one of its header and length without a result does. -/
theorem Thread.pass_false {e : Env} {i j : Instr} {u : Thread} (hu : u.Clear) (he : e.th.Clear)
    (hd : Instr.dstKeys j e.th = []) (hl : Instr.isLdc j = false) (hh : Instr.hdr j = Instr.hdr i)
    (hlong : Instr.isLong j = Instr.isLong i) : u.pass e i false none = u.pass e j true none := by
  unfold Thread.pass
  simp only [hl, hd, hlong, Bool.false_and, Bool.and_false, Bool.false_eq_true, if_false, if_true,
    Thread.settle_clear hu he, List.map_nil, hazardsAfter_nil e hh]

/-- The op without a result that has the header and the length of another. -/
def Instr.idle (i : Instr) : Instr := if Instr.isLong i then .braLong (Instr.hdr i) 0 else .nop (Instr.hdr i)

theorem Instr.idle_plain (i : Instr) (t : Thread) : Instr.dstKeys (Instr.idle i) t = [] ∧ Instr.isLdc (Instr.idle i) = false ∧
    Instr.hdr (Instr.idle i) = Instr.hdr i ∧ Instr.isLong (Instr.idle i) = Instr.isLong i := by
  unfold Instr.idle
  split
  · next h => exact ⟨rfl, rfl, rfl, h.symm⟩
  · next h => exact ⟨rfl, rfl, rfl, ((Bool.not_eq_true _).mp h).symm⟩

/-- What an op keeps whose guard or shadow is false. -/
theorem Thread.pass_false_kept {e : Env} (i : Instr) (he : e.th.Clear) :
    Thread.Kept e i (e.th.pass e i false none) [] [] 0 := by
  obtain ⟨hd, hl, hh, hlong⟩ := Instr.idle_plain i e.th
  have hk := (Thread.pass_kept (i := Instr.idle i) (u := e.th) (xs := []) (ps := []) (fl := 0) (by simp [hl]) he
    (.refl _) (fun _ _ => rfl) (fun _ _ => rfl) (by simp)).1
  rw [Thread.pass_false he he hd hl hh hlong]
  exact ⟨hk.regs, hk.preds, hk.flags, hlong ▸ hk.pc, hk.rest⟩

/-! ## Ops on registers alone -/

theorem Thread.Kept.mono {e : Env} {i : Instr} {v : Thread} {xs ys : List Reg} {ps qs : List Nat} {fl : BitVec 7}
    (h : Thread.Kept e i v xs ps fl) (hx : ∀ x ∈ xs, x ∈ ys) (hp : ∀ n ∈ ps, n ∈ qs) : Thread.Kept e i v ys qs fl :=
  ⟨fun x hn hs => h.regs x (fun hm => hn (hx x hm)) hs, fun n hn => h.preds n fun hm => hn (hp n hm), h.flags, h.pc, h.rest⟩

/-- Instruction i answers a next state that differs, but for free choices, in the executing thread alone, which keeps every
register but its destinations, every predicate that the op cannot write and every flag. -/
def State.KeepsOthers (s : State) (e : Env) (i : Instr) : Prop :=
  ∃ t v xs fl, exec i s = .next t ∧ State.Becomes { s with free := t.free } e.tid t v ∧
    Thread.Kept e i v xs (Instr.writtenPreds i) fl ∧ ∀ x ∈ xs, RegKey.r x ∈ (Instr.dsts i).flatMap Opnd.keys

theorem regPlus_zero (d : Reg) : regPlus d 0 = d := by cases d <;> simp [regPlus]

theorem regPlus_one (d : Reg) : regPlus d 1 = regNext d := by cases d <;> rfl

/-- The registers of a result are those that its operand names. -/
theorem key_of_mem_regsOf {w64 : Bool} {d x : Reg} (h : x ∈ regsOf w64 d) : RegKey.r x ∈ (Opnd.wd w64 d).keys := by
  unfold regsOf at h
  by_cases hd : d = .v 255
  · rw [if_pos hd] at h
    cases h
  · cases w64
    · simpa [hd, Opnd.wd, Opnd.keys, regPlus_zero] using h
    · simpa [hd, Opnd.wd, Opnd.keys, regPlus_zero, regPlus_one, List.range_succ] using h

theorem State.KeepsOthers.of_writes {s : State} {e : Env} {i : Instr} {w64 : Bool} {d : Reg} {val : Dword} {fl : BitVec 7}
    (h : s.Writes e i w64 d val fl) (hd : Opnd.wd w64 d ∈ Instr.dsts i) : s.KeepsOthers e i := by
  obtain ⟨t, v, hx, hb, -, hk⟩ := h
  refine ⟨t, v, _, _, hx, ?_, hk.mono (fun _ => id) fun _ hn => (nomatch hn), fun x hm =>
    List.mem_flatMap.mpr ⟨_, hd, key_of_mem_regsOf hm⟩⟩
  have hfree : ({ s with free := t.free } : State) = s := by rw [hb.rest]
  rwa [hfree]

theorem Thread.wrW_word (t : Thread) (d : Reg) (v : Word) : t.wrW false d (v.setWidth 64) = t.wr d v := by
  rw [Thread.wrW, if_neg Bool.false_ne_true, BitVec.setWidth_setWidth_of_le v (by decide), BitVec.setWidth_eq]

/-- A float or packed op writes its code and its flags. -/
theorem State.KeepsOthers.of_putF {s : State} {e : Env} {i : Instr} {d : Reg} {f : Env → Thread} {r : FRes}
    (hx : exec i s = aluOp i s f) (h : s.Executes e i) (hl : Instr.isLdc i = false) (hd : Opnd.r d ∈ Instr.dsts i)
    (hf : f e = e.th.putF d r) : s.KeepsOthers e i :=
  .of_writes (w64 := false) (aluOp_writes hx h hl hd
    (val := (BitVec.ofNat 32 r.1).setWidth 64) (fl := r.2) (by rw [hf, Thread.wrW_word]; rfl)) hd

theorem State.KeepsOthers.of_wrW {s : State} {e : Env} {i : Instr} {w64 : Bool} {d : Reg} {f : Env → Thread} {val : Dword}
    (hx : exec i s = aluOp i s f) (h : s.Executes e i) (hl : Instr.isLdc i = false) (hd : Opnd.wd w64 d ∈ Instr.dsts i)
    (hf : f e = e.th.wrW w64 d val) : s.KeepsOthers e i :=
  .of_writes (aluOp_writes hx h hl hd (val := val) (fl := 0#7)
    (hf.trans (Thread.orFlags_zero _).symm)) hd

/-- PMOV.r2p changes predicates alone (R456). -/
theorem keepsOthers_pmovR2p {s : State} {e : Env} (h : Hdr) (a b : Reg) (hx : s.Executes e (.pmovR2p h a b)) :
    s.KeepsOthers e (.pmovR2p h a b) := by
  let m : BitVec 15 := (e.th.rd b).setWidth 15
  have hk := (Thread.pass_kept (i := .pmovR2p h a b) (xs := []) (ps := List.range 15) (fl := 0)
    (u := { e.th with preds := (e.th.preds &&& ~~~m) ||| ((e.th.rd a).setWidth 15 &&& m) }) rfl hx.clear ⟨rfl, rfl⟩
    (fun _ _ => rfl) (fun n hn => ?_) (by simp)).1
  · exact ⟨_, _, [], 0, aluOp_next hx _, s.becomes_set _ _, hk, fun _ hm => (nomatch hm)⟩
  · have hn : 15 ≤ n := by simpa using hn
    simp only [Thread.p]
    split
    · rfl
    · rw [BitVec.getLsbD_of_ge _ _ hn, BitVec.getLsbD_of_ge _ _ hn]

/-- The registers that RAND writes: the last may be vz (R463). -/
def quadRegs (d : Reg) : List Reg := ((List.range 4).map (regPlus d)).filter (· ≠ .v 255)

/-- Four registers from d on with new values. -/
def Thread.wr4 (t : Thread) (d : Reg) (c : Word × Word × Word × Word) : Thread :=
  (((t.wr d c.1).wr (regPlus d 1) c.2.1).wr (regPlus d 2) c.2.2.1).wr (regPlus d 3) c.2.2.2

theorem Thread.rd_wr4_other (t : Thread) {d x : Reg} (c : Word × Word × Word × Word) (hx : x ∉ quadRegs d) :
    (t.wr4 d c).rd x = t.rd x := by
  have rd_wr : ∀ (t : Thread) (n : Nat) (v : Word), n < 4 → (t.wr (regPlus d n) v).rd x = t.rd x := by
    intro t n v hn
    by_cases hz : regPlus d n = .v 255
    · rw [hz]
      rfl
    · refine Thread.rd_wr_other t v fun he => hx ?_
      exact List.mem_filter.mpr ⟨List.mem_map.mpr ⟨n, List.mem_range.mpr hn, he.symm⟩, by simpa [he] using hz⟩
  have h0 := rd_wr t 0 c.1 (by decide)
  rw [regPlus_zero] at h0
  rw [Thread.wr4, rd_wr _ 3 _ (by decide), rd_wr _ 2 _ (by decide), rd_wr _ 1 _ (by decide), h0]

/-- RAND writes its four registers alone (R463). -/
theorem keepsOthers_rand {s : State} {e : Env} (h : Hdr) (d : Reg) (k stream : BitVec 8)
    (hx : s.Executes e (.rand h d k stream)) : s.KeepsOthers e (.rand h d k stream) := by
  have hd : d ≠ .v 255 := by
    rintro rfl
    have hok := ok_of_checks (o := .quadR (.v 255)) hx.checks List.mem_cons_self
    simp [Opnd.ok] at hok
  have changed : ∀ c, e.th.Changed (e.th.wr4 d c) := fun c => ((((Thread.Changed.refl e.th).wr _ _).wr _ _).wr _ _).wr _ _
  refine ⟨_, _, quadRegs d, 0, aluOp_next hx fun e => e.th.wr4 d (philox 10 (loWord (e.readW s k.toNat))
    (hiWord (e.readW s k.toNat)) (loWord (e.readW s (k.toNat + 1) + BitVec.ofNat 64 e.lane),
    hiWord (e.readW s (k.toNat + 1) + BitVec.ofNat 64 e.lane), stream.setWidth 32, 0)), s.becomes_set _ _,
    (Thread.pass_kept rfl hx.clear (changed _) (fun x hm => Thread.rd_wr4_other _ _ hm) (fun n _ => ?_) ?_).1,
    fun x hm => ?_⟩
  · simp [Thread.wr4, Thread.p]
  · simp [Thread.wr4]
  · obtain ⟨hm, hz⟩ := List.mem_filter.mp hm
    obtain ⟨n, hn, rfl⟩ := List.mem_map.mp hm
    simp only [Instr.dsts, List.flatMap_cons, List.flatMap_nil, List.append_nil, Opnd.keys, if_neg hd, List.mem_filter,
      List.mem_map, bne_iff_ne, ne_eq, RegKey.r.injEq]
    exact ⟨⟨n, hn, rfl⟩, by simpa using hz⟩

/-- The flags of operations that have not retired are read or not, by free choices (R220, R249). -/
theorem earlyFlags_ok (fs : List (BitVec 7)) (s : State) :
    ∃ f r, earlyFlags fs s = .ok f r ∧ r = { s with free := r.free } := by
  induction fs with
  | nil => exact ⟨0, s, rfl, rfl⟩
  | cons g t ih =>
    obtain ⟨f, r, hf, hr⟩ := ih
    rw [earlyFlags, bind_ok hf]
    by_cases hg : g = 0
    · rw [if_pos hg]
      exact ⟨f, r, rfl, hr⟩
    · rw [if_neg hg, bind_ok (show pickM 2 r = .ok (r.pick 2).1 (r.pick 2).2 from rfl)]
      refine ⟨_, (r.pick 2).2, rfl, ?_⟩
      rw [State.pick_state, hr]

/-- RDSYS writes its destination alone (R466). -/
theorem keepsOthers_rdsys {s : State} {e : Env} (h : Hdr) (lo : Bool) (srn : BitVec 12) (d : Reg)
    (hx : s.Executes e (.rdsys h lo srn d)) : s.KeepsOthers e (.rdsys h lo srn d) := by
  obtain ⟨f, r, hf, hr⟩ : ∃ f r, (if srn = 0x102#12 then earlyFlags e.lateOps else pure 0 : M (BitVec 7)) s = .ok f r ∧
      r = { s with free := r.free } := by
    split
    · exact earlyFlags_ok ..
    · exact ⟨0, s, rfl, rfl⟩
  obtain ⟨hth, -⟩ := State.env_some hx.env
  have hk := (Thread.pass_kept (i := .rdsys h lo srn d) (u := e.th.wrW (!lo) d (e.sysReg srn.toNat ||| f.setWidth 64))
    (xs := regsOf (!lo) d) (ps := []) (fl := 0) rfl hx.clear ((Thread.Changed.refl e.th).wrW _ _ _)
    (fun x hm => Thread.rd_wrW_other _ _ _ hm) (fun n _ => by simp [Thread.p]) (by simp)).1
  let g : Thread → Thread := fun t => t.wrW (!lo) d (e.sysReg srn.toNat ||| f.setWidth 64)
  have hb := r.becomes_mod (fun t => (g t).pass e (.rdsys h lo srn d) true none) (tid := e.tid) (u := e.th)
    (by rw [hr]; exact hth)
  have hend : endOp (.rdsys h lo srn d) s e ((modTh e g >>= fun _ => pure Flow.done) r) =
      r.modThread e.tid fun t => (g t).pass e (.rdsys h lo srn d) true none := by
    rw [bind_ok (modTh_ok ..), pure_ok, endOp_done, State.modThread_modThread]
  refine ⟨_, _, _, 0, ?_, by rwa [State.modThread_free, ← hr], hk, fun x hm =>
    List.mem_flatMap.mpr ⟨_, List.mem_cons_self, key_of_mem_regsOf hm⟩⟩
  rw [show exec (.rdsys h lo srn d) s = execRdsys h lo srn d s from rfl, execRdsys, threadOp_next hx]
  split at hf
  · next hs => rw [if_pos hs, bind_ok hf]; exact congrArg Host.Outcome.next hend
  · next hs => rw [if_neg hs, bind_ok hf]; exact congrArg Host.Outcome.next hend

/-- The ops on registers alone, one by one. -/
theorem keepsOthers_of_onRegisters {s : State} {e : Env} {i : Instr} (hi : Instr.onRegisters i = true)
    (h : s.Executes e i) : s.KeepsOthers e i := by
  cases i
  case frnd | padd | pmul | pfma | pminmax | sfn | lmul | ladd => exact .of_putF rfl h rfl List.mem_cons_self rfl
  case fclass | pmovP2r => exact .of_wrW (w64 := false) rfl h rfl List.mem_cons_self (Thread.wrW_word ..).symm
  case feat => exact .of_wrW (w64 := true) rfl h rfl List.mem_cons_self rfl
  case pmovR2p => exact keepsOthers_pmovR2p _ _ _ h
  case rdsys => exact keepsOthers_rdsys _ _ _ _ h
  case rand => exact keepsOthers_rand _ _ _ _ h
  all_goals exact Bool.noConfusion hi

/-- Settles O25: checks 4 to 6 stand in the frame of every native instruction, and an op that does not execute passes as a
NOP does. -/
theorem guardsAndChecks : Obligations.GuardsAndChecks := by
  unfold Obligations.GuardsAndChecks
  intro i s e hn he
  refine ⟨fun f hf => exec_preCheck hn he hf, fun hp ha hcl hc hs => ?_, fun hi hx => ?_⟩
  · obtain ⟨act, hact⟩ := exec_guarded hn hc hs s
    exact ⟨_, _, by rw [hact, guarded_false he hp ha], s.becomes_set _ _, Thread.pass_false_kept i hcl⟩
  · obtain ⟨t, v, xs, fl, hex, hb, hk, hkeys⟩ := keepsOthers_of_onRegisters hi hx
    exact ⟨t, v, fl, hex, hb, hk.mono (fun x hm => List.mem_filterMap.mpr ⟨_, hkeys x hm, rfl⟩) fun _ => id⟩

end Sys2Proof.Machine
end

section
/-! SUPPORT. Convergence points (R54): the arrival of a thread, the instance that it belongs to, and the step in which the
threads of an instance pass it. -/

namespace Sys2Proof.Machine

/-! ## The surroundings of the threads of one warp -/

theorem rising_map {α : Type} {m : List (Nat × α)} {g : Nat × α → Nat × α} (hg : ∀ e, (g e).1 = e.1) (lo : Nat) :
    rising lo (m.map g) = rising lo m := by
  induction m generalizing lo with
  | nil => rfl
  | cons e t ih => simp only [List.map_cons, rising, hg, ih]

theorem rising_amod {α : Type} {m : Assoc α} {lo : Nat} (k : Nat) (f : α → α) (r : rising lo m = true) :
    rising lo (amod m k f) = true := by
  rw [amod, rising_map, r]
  intro e
  split <;> rfl

/-- The threads of a warp are of one cohort. -/
theorem cohOf_of_warpOf {j k : Nat} (h : warpOf j = warpOf k) : cohOf j = cohOf k := by
  unfold warpOf at h
  unfold cohOf
  omega

/-- The surroundings of a thread depend on the table of threads at its entry alone. -/
theorem State.envOf_congr {s r : State} {tid : Nat} (hr : r = { s with threads := r.threads })
    (ht : aget r.threads tid = aget s.threads tid) (pers : Nat) : r.envOf tid pers = s.envOf tid pers := by
  unfold State.envOf
  rw [ht, hr]

/-- A thread of the warp of e has the surroundings of e, in any state with its launch and its context. -/
theorem State.envOf_of_warp {s r : State} {e : Env} (he : s.env = some e)
    (hr : r = { s with threads := r.threads, cohorts := r.cohorts, nextId := r.nextId }) {c : Cohort}
    (hc : aget r.cohorts e.coh = some c) (hl : c.launch = e.c.launch) (hx : c.cid = e.c.cid) {tid : Nat} {t : Thread}
    (hw : warpOf tid = e.warp) (ht : aget r.threads tid = some t) (pers : Nat) :
    r.envOf tid pers =
      some { e with tid := tid, th := t, c := c, lane := laneOf tid, pers := pers, bundle := s.bundle } := by
  obtain ⟨-, -, hw', hl', hx', hcoh, hwarp, -, hcid⟩ := State.env_some he
  have hcoh' : cohOf tid = e.coh := (cohOf_of_warpOf (hw.trans hwarp)).trans hcoh.symm
  rw [State.envOf, ht, hcoh', hc, hr]
  simp only [hw, hw', hl, hl', hx, ← hcid, hx']

/-! ## The threads of an instance pass it -/

theorem leaveInstance_state (i : Instr) (ps : Parts) (s : State) (w : Nat × ConvWait) :
    leaveInstance i ps s w = { s with threads := (leaveInstance i ps s w).threads } := by
  unfold leaveInstance
  split <;> rfl

theorem leaveInstance_other (i : Instr) (ps : Parts) (s : State) {w : Nat × ConvWait} {k : Nat} (h : k ≠ w.1) :
    aget (leaveInstance i ps s w).threads k = aget s.threads k := by
  unfold leaveInstance
  split
  · rfl
  · exact aget_aset_other _ _ h

/-- A thread of an instance as it stands when it has passed: with the result of its op, where its guard is true. -/
def Env.left (e : Env) (i : Instr) (ps : Parts) (c : ConvWait) : Thread :=
  (if c.guard then laneEffect i ps e else e.th).pass e c.op c.guard none

theorem leaveInstance_self (i : Instr) (ps : Parts) {s : State} {w : Nat × ConvWait} {q : Env}
    (h : s.envOf w.1 w.2.pers = some q) :
    aget (leaveInstance i ps s w).threads w.1 = some (Env.left { q with th := q.th.leave } i ps w.2) := by
  unfold leaveInstance
  rw [h]
  exact aget_aset_same ..

/-- The threads of an instance pass it one by one, each from the state before (R54). -/
theorem leaveInstances (i : Instr) (ps : Parts) {ws : List (Nat × ConvWait)} (hn : (ws.map (·.1)).Nodup) (s : State) :
    let t := ws.foldl (leaveInstance i ps) s
    t = { s with threads := t.threads } ∧ (∀ k, k ∉ ws.map (·.1) → aget t.threads k = aget s.threads k) ∧
      ∀ w ∈ ws, ∀ q, s.envOf w.1 w.2.pers = some q →
        aget t.threads w.1 = some (Env.left { q with th := q.th.leave } i ps w.2) := by
  induction ws generalizing s with
  | nil => exact ⟨rfl, fun _ _ => rfl, fun _ h => nomatch h⟩
  | cons x t ih =>
    obtain ⟨hx, ht⟩ := List.nodup_cons.mp (List.map_cons ▸ hn)
    obtain ⟨hs, ho, hm⟩ := ih ht (leaveInstance i ps s x)
    have h1 := leaveInstance_state i ps s x
    simp only [List.foldl_cons, List.map_cons, List.mem_cons, not_or]
    refine ⟨hs.trans (by rw [h1]), fun k hk => (ho k hk.2).trans (leaveInstance_other i ps s hk.1), ?_⟩
    rintro w (rfl | hw) q hq
    · rw [ho _ hx, leaveInstance_self i ps hq]
    · have hne : w.1 ≠ x.1 := fun h => hx (h ▸ List.mem_map_of_mem hw)
      exact hm w hw q ((State.envOf_congr h1 (leaveInstance_other i ps s hne) _).trans hq)

/-! ## The arrival -/

section
variable {s : State} {e : Env} {i : Instr} {m : Reg}

theorem State.arrived_state (s : State) (e : Env) (i : Instr) (m : Reg) :
    s.arrived e i m = { s with threads := (s.arrived e i m).threads } := rfl

theorem State.arrived_other (s : State) (e : Env) (i : Instr) (m : Reg) {k : Nat} (h : k ≠ e.tid) :
    aget (s.arrived e i m).threads k = aget s.threads k := by
  rw [State.arrived, State.modThread_threads, aget_amod_other _ _ h]

theorem State.rising_arrived (e : Env) (i : Instr) (m : Reg) (h : rising 0 s.threads = true) :
    rising 0 (s.arrived e i m).threads = true := by
  rw [State.arrived, State.modThread_threads]
  exact rising_amod _ _ h

theorem State.Arrives.thread (h : s.Arrives e i m) :
    aget (s.arrived e i m).threads e.tid = some { e.th with status := .conv (e.waits i m) } := by
  obtain ⟨ht, -⟩ := State.env_some h.env
  rw [State.arrived, State.modThread_threads, aget_amod_same, ht]
  rfl

/-- An arrival that no check turns away makes the thread wait, and its instance execute where it is complete (R54). -/
theorem State.Arrives.exec_eq (h : s.Arrives e i m) : exec i s = .next ((s.arrived e i m).tryInstance e.tid) := by
  have hi : Instr.isConv i = true := by
    have hm := h.mask
    cases i
    case shfl | vote | redw | matchOp | elane | mmap | mmal | accz | accld | accst => rfl
    all_goals exact absurd hm (by simp [convMask])
  obtain ⟨m', hm, hx⟩ := exec_of_isConv hi s
  obtain rfl : m = m' := Option.some.inj (h.mask.symm.trans hm)
  have hroom : (Instr.isMatrix i && !e.th.hasRoom .mxe) = false := by
    cases hi : Instr.isMatrix i
    · rfl
    · simp [h.room hi]
  simp only [hx, convOp, h.env, h.checks, arrive, h.good, hroom, h.alone]
  rfl

/-- What the threads that wait at an instance are: the threads of the warp that wait at its PC with its mask. -/
theorem State.mem_instanceOf {w : Nat × ConvWait} :
    w ∈ s.instanceOf e i m ↔ ∃ t, (w.1, t) ∈ (s.arrived e i m).threads ∧ warpOf w.1 = e.warp ∧
      samePc t { e.th with status := .conv (e.waits i m) } = true ∧ t.conv = some w.2 ∧ w.2.mask = e.th.mask m := by
  obtain ⟨k, c⟩ := w
  simp only [State.instanceOf, State.waitersAt, State.warpThreads, List.mem_filter, List.mem_filterMap, beq_iff_eq]
  constructor
  · rintro ⟨⟨⟨j, t⟩, ⟨hj, hw⟩, hc⟩, hm⟩
    split at hc
    · next hs =>
      obtain ⟨c', hc', heq⟩ := Option.map_eq_some_iff.mp hc
      cases heq
      exact ⟨t, hj, hw, hs, hc', hm⟩
    · cases hc
  · rintro ⟨t, hj, hw, hs, hc, hm⟩
    exact ⟨⟨(k, t), ⟨hj, hw⟩, by rw [if_pos hs, hc]; rfl⟩, hm⟩

theorem State.Arrives.own_mem (h : s.Arrives e i m) : (e.tid, e.waits i m) ∈ s.instanceOf e i m := by
  obtain ⟨-, -, -, -, -, -, hw, -⟩ := State.env_some h.env
  exact State.mem_instanceOf.mpr ⟨_, mem_of_aget h.thread, hw.symm, by simp [samePc], rfl, rfl⟩

/-- No thread waits twice at an instance. -/
theorem State.Arrives.nodup (h : s.Arrives e i m) : ((s.instanceOf e i m).map (·.1)).Nodup := by
  have hp := (pairwise_of_rising (State.rising_arrived e i m h.keys)).1
  refine List.Pairwise.map _ (R := fun a b => a.1 < b.1) (fun _ _ hab => Nat.ne_of_lt hab) (List.Pairwise.filter _ ?_)
  refine List.Pairwise.filterMap _ (R := fun a b => a.1 < b.1) (fun a b hab c hc d hd => ?_) (hp.filter _)
  split at hc <;> split at hd
  · obtain ⟨_, -, rfl⟩ := Option.map_eq_some_iff.mp hc
    obtain ⟨_, -, rfl⟩ := Option.map_eq_some_iff.mp hd
    exact hab
  · cases hd
  · cases hc
  · cases hc

/-- The thread that arrived, and every thread of its instance, has its surroundings. -/
theorem State.Arrives.envOf (h : s.Arrives e i m) {w : Nat × ConvWait} (hw : w ∈ s.instanceOf e i m) :
    ∃ t, aget (s.arrived e i m).threads w.1 = some t ∧ warpOf w.1 = e.warp ∧ (s.arrived e i m).envOf w.1 w.2.pers =
      some { e with tid := w.1, th := t, lane := laneOf w.1, pers := w.2.pers, bundle := s.bundle } := by
  obtain ⟨t, ht, hwarp, -⟩ := State.mem_instanceOf.mp hw
  have hget := aget_of_mem (State.rising_arrived e i m h.keys) ht
  obtain ⟨-, hc, -⟩ := State.env_some h.env
  exact ⟨t, hget, hwarp, State.envOf_of_warp (r := s.arrived e i m) h.env rfl hc rfl rfl hwarp hget _⟩

/-! ## The instance of an arriving thread -/

/-- The instance of the thread that arrived executes where no lane of its mask is missing (R54). -/
theorem State.Arrives.tryInstance (h : s.Arrives e i m) : (s.arrived e i m).tryInstance e.tid =
    if s.instanceMet e i m then runInstance i (s.instanceOf e i m) (s.arrived e i m) else s.arrived e i m := by
  obtain ⟨-, -, -, -, -, -, hw, -⟩ := State.env_some h.env
  simp only [State.tryInstance, h.thread, Thread.conv, ← hw]
  rfl

/-- The participants are the threads of the instance whose guards are true, as they execute there. -/
theorem participants_eq (f : Nat × ConvWait → Option Env) (ws : List (Nat × ConvWait)) :
    ((ws.filterMap fun w => (f w).map fun e => (({ e with th := e.th.leave } : Env), w.2.guard)).filter (·.2)).map (·.1) =
      (ws.filter fun w => w.2.guard).filterMap fun w => (f w).map fun e => { e with th := e.th.leave } := by
  induction ws with
  | nil => rfl
  | cons w t ih =>
    cases hf : f w <;> cases hg : w.2.guard <;> simp [hf, hg, ih]

theorem State.runInstance_lanes (hi : Instr.isMatrix i = false) :
    runInstance i (s.instanceOf e i m) (s.arrived e i m) =
      (s.instanceOf e i m).foldl (leaveInstance i (s.participants e i m)) (s.arrived e i m) := by
  simp only [runInstance, hi, Bool.false_eq_true, if_false,
    participants_eq fun w => (s.arrived e i m).envOf w.1 w.2.pers]
  rfl

end

/-- Settles O13: the instance executes thread by thread, and no thread's step reads what another's has written. -/
theorem laneInstances : Obligations.LaneInstances := by
  unfold Obligations.LaneInstances
  intro i m s e h
  refine ⟨fun hmet => ?_, fun hi hmet => ?_⟩
  · rw [h.exec_eq, h.tryInstance, if_neg (by simp [hmet])]
  · obtain ⟨hst, hother, hleft⟩ := leaveInstances i (s.participants e i m) h.nodup (s.arrived e i m)
    refine ⟨_, by rw [h.exec_eq, h.tryInstance, if_pos hmet, State.runInstance_lanes hi], hst, fun k hk => ?_,
      fun w hw => ?_⟩
    · have hne : k ≠ e.tid := fun hk' => hk (hk' ▸ List.mem_map_of_mem h.own_mem)
      rw [hother k hk, State.arrived_other _ _ _ _ hne]
    · obtain ⟨t, -, -, hq⟩ := h.envOf hw
      exact ⟨_, by rw [State.member, hq]; rfl, hleft w hw _ hq⟩

end Sys2Proof.Machine
end

section
/-! SUPPORT. The issue of a matrix instruction (R54, R217, R224): its place in the issue order of its cohort, and the threads
of its instance. -/

namespace Sys2Proof.Machine

/-! ## What orders the accesses of a matrix instruction -/

theorem State.ordFor_congr {s r : State} (hr : r = { s with threads := r.threads, nextId := r.nextId }) {tid : Nat}
    (ht : (aget r.threads tid).map Thread.ord = (aget s.threads tid).map Thread.ord) : r.ordFor tid = s.ordFor tid := by
  unfold State.ordFor State.inDet State.ordOf
  rw [ht, hr]

theorem State.ord_arrived (s : State) (e : Env) (i : Instr) (m : Reg) (tid : Nat) :
    (aget (s.arrived e i m).threads tid).map Thread.ord = (aget s.threads tid).map Thread.ord := by
  rw [State.arrived, State.modThread_threads, aget_amod]
  cases aget s.threads tid with
  | none => rfl
  | some t =>
    simp only [Option.map_some]
    split <;> rfl

/-- The order of a matrix instruction is that of its threads before the last of them arrived. -/
theorem matrixOrd_arrived (q : Env) (ps : List Env) (s : State) (e : Env) (i : Instr) (m : Reg) :
    matrixOrd q ps (s.arrived e i m).freshId.2 = matrixOrd q ps s := by
  have h : ∀ tid, (s.arrived e i m).freshId.2.ordFor tid = s.ordFor tid := fun tid =>
    State.ordFor_congr rfl (s.ord_arrived e i m tid)
  simp only [matrixOrd, h]
  rfl

/-! ## The place in issue order -/

/-- Matrix instruction o takes its place in the issue order of a cohort, and an operation of each of its threads is
outstanding (R217, R224). -/
def State.issueMatrix (s : State) (coh : Nat) (o : MatOp) : State :=
  { s with
    cohorts := amod s.cohorts coh fun c => { c with mats := c.mats ++ [o] }
    nextId := s.nextId + 1
    threads := o.tids.foldl (fun m j => amod m j fun t =>
      { t with out := t.out ++ [{ cls := .mxe, id := o.id }] }) s.threads }

theorem State.foldl_modThread_tids (s : State) (ps : List Env) (f : Thread → Thread) :
    ps.foldl (fun s p => s.modThread p.tid f) s =
      { s with threads := (ps.map (·.tid)).foldl (fun m j => amod m j f) s.threads } := by
  rw [← State.foldl_modThread, List.foldl_map]

theorem aget_foldl_amod_nodup {α : Type} (m : Assoc α) {ks : List Nat} (hn : ks.Nodup) (f : α → α) (k : Nat) :
    aget (ks.foldl (fun m j => amod m j f) m) k = (aget m k).map fun v => if k ∈ ks then f v else v := by
  induction ks generalizing m with
  | nil => simp
  | cons j t ih =>
    obtain ⟨hj, ht⟩ := List.nodup_cons.mp hn
    rw [List.foldl_cons, ih _ ht, aget_amod, Option.map_map]
    congr 1
    funext v
    by_cases hk : k = j
    · subst hk
      simp [hj]
    · simp [hk]

/-- A matrix instruction whose checks pass is issued (R217). -/
theorem matrixIssue_ok {i : Instr} {q : Env} {qs : List Env} {r : State} {k : MatKind} {d n : Nat} {b : List Byte}
    (hc : aget r.cohorts q.coh = some q.c) (h : matrixCheck i (q.th.rd (matrixReg i)).toNat q.c = .ok (k, d, n, b)) :
    matrixIssue i (q :: qs) r = .ok () (r.issueMatrix q.coh
      { id := r.nextId, kind := k, dst := d, off := (q.th.rd (matrixReg i)).toNat, count := n, block := b
        ord := matrixOrd q (q :: qs) r.freshId.2, tids := (q :: qs).map (·.tid) }) := by
  simp only [matrixIssue, hc, Option.getD_some, h, State.foldl_modThread_tids]
  rfl

/-! ## The instance -/

section
variable {s : State} {e : Env} {i : Instr} {m : Reg}

/-- A thread of the instance of the thread of e, as it executes there. -/
theorem State.Arrives.member (h : s.Arrives e i m) {w : Nat × ConvWait} (hw : w ∈ s.instanceOf e i m) :
    ∃ t, aget (s.arrived e i m).threads w.1 = some t ∧ s.member e i m w =
      some { e with tid := w.1, th := t.leave, lane := laneOf w.1, pers := w.2.pers, bundle := s.bundle } := by
  obtain ⟨t, ht, -, hq⟩ := h.envOf hw
  exact ⟨t, ht, by rw [State.member, hq]; rfl⟩

theorem State.Arrives.mem_participants (h : s.Arrives e i m) {p : Env} (hp : p ∈ s.participants e i m) :
    ∃ w ∈ s.instanceOf e i m, w.2.guard = true ∧ p.tid = w.1 ∧ p.coh = e.coh ∧ p.c = e.c := by
  obtain ⟨w, hw, hm⟩ := List.mem_filterMap.mp hp
  obtain ⟨hw, hg⟩ := List.mem_filter.mp hw
  obtain ⟨t, -, hq⟩ := h.member hw
  cases hq.symm.trans hm
  exact ⟨w, hw, hg, rfl, rfl, rfl⟩

/-- The participants are the threads of the instance whose guards are true. -/
theorem State.Arrives.tids_participants (h : s.Arrives e i m) :
    (s.participants e i m).map (·.tid) = ((s.instanceOf e i m).filter fun w => w.2.guard).map (·.1) := by
  unfold State.participants
  have hmem : ∀ w ∈ (s.instanceOf e i m).filter (fun w => w.2.guard), (s.member e i m w).map (·.tid) = some w.1 :=
    fun w hw => by
      obtain ⟨t, -, hq⟩ := h.member (List.mem_filter.mp hw).1
      rw [hq]
      rfl
  rw [List.map_filterMap, List.filterMap_congr hmem, ← List.filterMap_eq_map']

theorem State.Arrives.mem_tids (h : s.Arrives e i m) {w : Nat × ConvWait} (hw : w ∈ s.instanceOf e i m) :
    w.1 ∈ (s.participants e i m).map (·.tid) ↔ w.2.guard = true := by
  rw [h.tids_participants, List.mem_map]
  constructor
  · rintro ⟨w', hw', heq⟩
    obtain ⟨hw', hg⟩ := List.mem_filter.mp hw'
    exact List.inj_on_of_nodup_map h.nodup hw' hw heq ▸ hg
  · exact fun hg => ⟨w, List.mem_filter.mpr ⟨hw, hg⟩, rfl⟩

theorem State.Arrives.nodup_tids (h : s.Arrives e i m) : ((s.participants e i m).map (·.tid)).Nodup :=
  h.tids_participants ▸ h.nodup.sublist (List.filter_sublist.map _)

/-- The instance of a matrix instruction executes: the instruction is issued, and then every thread passes. -/
theorem State.Arrives.runInstance_matrix (h : s.Arrives e i m) (hi : Instr.isMatrix i = true) {q : Env} {qs : List Env}
    (hps : s.participants e i m = q :: qs) {k : MatKind} {d n : Nat} {b : List Byte}
    (hc : matrixCheck i (q.th.rd (matrixReg i)).toNat e.c = .ok (k, d, n, b)) :
    runInstance i (s.instanceOf e i m) (s.arrived e i m) =
      (s.instanceOf e i m).foldl (leaveInstance i (q :: qs)) ((s.arrived e i m).issueMatrix e.coh
        { id := s.nextId, kind := k, dst := d, off := (q.th.rd (matrixReg i)).toNat, count := n, block := b
          ord := matrixOrd q (q :: qs) s, tids := (q :: qs).map (·.tid) }) := by
  obtain ⟨-, -, -, -, hcoh, hqc⟩ := h.mem_participants (hps ▸ List.mem_cons_self : q ∈ s.participants e i m)
  obtain ⟨-, hcc, -⟩ := State.env_some h.env
  have hq : aget (s.arrived e i m).cohorts q.coh = some q.c := by
    rw [hcoh, hqc]
    exact hcc
  have hps' := hps
  rw [State.participants] at hps'
  simp only [runInstance, hi, if_true, participants_eq fun w => (s.arrived e i m).envOf w.1 w.2.pers]
  rw [show (((s.instanceOf e i m).filter fun w => w.2.guard).filterMap fun w =>
    ((s.arrived e i m).envOf w.1 w.2.pers).map fun e => ({ e with th := e.th.leave } : Env)) = q :: qs from hps',
    matrixIssue_ok hq (hqc ▸ hc), hcoh, matrixOrd_arrived]
  rfl

theorem laneEffect_matrix (hi : Instr.isMatrix i = true) (ps : Parts) (e : Env) : laneEffect i ps e = e.th := by
  cases i
  case mmap | mmal | accz | accld | accst => rfl
  all_goals exact Bool.noConfusion hi

/-- The last lane to arrive at a matrix instruction makes it execute (R54, R217, R224). -/
theorem State.Arrives.issues (h : s.Arrives e i m) (hi : Instr.isMatrix i = true) (hmet : s.instanceMet e i m = true)
    {q : Env} {qs : List Env} (hps : s.participants e i m = q :: qs) {k : MatKind} {d n : Nat} {b : List Byte}
    (hc : matrixCheck i (q.th.rd (matrixReg i)).toNat e.c = .ok (k, d, n, b)) :
    let o : MatOp := { id := s.nextId, kind := k, dst := d, off := (q.th.rd (matrixReg i)).toNat, count := n, block := b,
                       ord := matrixOrd q (q :: qs) s, tids := (q :: qs).map (·.tid) }
    let put := fun (c : Cohort) => { c with mats := c.mats ++ [o] }
    ∃ t, exec i s = .next t ∧
      t = { s with threads := t.threads, cohorts := amod s.cohorts e.coh put, nextId := s.nextId + 1 } ∧
      (∀ j, j ∉ (s.instanceOf e i m).map (·.1) → aget t.threads j = aget s.threads j) ∧
      ∀ w ∈ s.instanceOf e i m, ∃ p, s.member e i m w = some p ∧
        let u := if w.2.guard then { p.th with out := p.th.out ++ [{ cls := .mxe, id := s.nextId }] } else p.th
        aget t.threads w.1 = some (u.pass { p with c := put p.c, th := u } w.2.op w.2.guard none) := by
  intro o put
  let r := (s.arrived e i m).issueMatrix e.coh o
  have hget : ∀ j, aget r.threads j = (aget (s.arrived e i m).threads j).map fun v =>
      if j ∈ (q :: qs).map (·.tid) then { v with out := v.out ++ [{ cls := .mxe, id := s.nextId }] } else v :=
    aget_foldl_amod_nodup _ (show ((q :: qs).map (·.tid)).Nodup from hps ▸ h.nodup_tids) _
  obtain ⟨hst, hother, hleft⟩ := leaveInstances i (q :: qs) h.nodup r
  refine ⟨_, by rw [h.exec_eq, h.tryInstance, if_pos hmet, h.runInstance_matrix hi hps hc], hst, fun j hj => ?_,
    fun w hw => ?_⟩
  · have hne : j ≠ e.tid := fun hj' => hj (hj' ▸ List.mem_map_of_mem h.own_mem)
    have hno : j ∉ (q :: qs).map (·.tid) := by
      rw [← hps, h.tids_participants]
      exact fun hm => hj ((List.filter_sublist.map _).subset hm)
    rw [hother j hj, hget, State.arrived_other _ _ _ _ hne]
    simp only [if_neg hno, Option.map_id']
  · obtain ⟨t, ht, hwarp, -⟩ := h.envOf hw
    obtain ⟨t', ht', hm⟩ := h.member hw
    obtain rfl : t = t' := Option.some.inj (ht.symm.trans ht')
    obtain ⟨-, hcc, -⟩ := State.env_some h.env
    have hput : aget r.cohorts e.coh = some (put e.c) := by
      rw [show r.cohorts = amod s.cohorts e.coh put from rfl, aget_amod_same, hcc]
      rfl
    have hq := State.envOf_of_warp (r := r) h.env rfl hput rfl rfl hwarp (by rw [hget, ht]; rfl) w.2.pers
    refine ⟨_, hm, (hleft w hw _ hq).trans ?_⟩
    simp only [Env.left, laneEffect_matrix hi, ← hps, h.mem_tids hw]
    cases w.2.guard <;> rfl

end

end Sys2Proof.Machine
end

section
/-! SUPPORT. The retirement of a matrix instruction (R220, R223 to R225): it is carried out, where it has not been, and its
operation ends in its threads. -/

namespace Sys2Proof.Machine

/-! ## Writes of a unit over bytes that no other write has reached -/

theorem firstIdx_none {α : Type} {p : α → Bool} {l : List α} (h : ∀ x ∈ l, p x = false) : firstIdx p l = none := by
  induction l with
  | nil => rfl
  | cons x t ih =>
    rw [firstIdx, h x List.mem_cons_self, ih fun y hy => h y (List.mem_cons_of_mem _ hy)]
    rfl

/-- A write over bytes that no other outstanding write overlaps comes last, without a free choice (R268). -/
theorem State.placeWrite_alone {s : State} {key : Nat} {bs : List Byte} (h : s.writesAt key bs.length = []) (o : Ord)
    (own : List Rel) (cur : List Byte) : ∃ o' m, s.placeWrite o own key cur bs =
      (bs, o', { s with hist := s.hist ++ [m], nextId := s.nextId + 1 }) ∧ m.key = key ∧ m.new = bs := by
  have hpick : s.pick (slotsAmong []).length = (0, s) := rfl
  have hidx : firstIdx (fun x : Msg => ([] : List Msg).any fun y => y.ts == x.ts) s.hist = none :=
    firstIdx_none fun _ _ => rfl
  have hmap : (s.hist.map fun x => (([] : List Msg).find? fun y => y.ts == x.ts).getD x) = s.hist := List.map_id _
  unfold State.placeWrite
  rw [h]
  simp only [passable, List.takeWhile_nil, hpick, State.placeAt, State.freshId, List.take_nil, List.reverse_nil, redo, hidx,
    hmap, Option.getD_none, List.take_length, List.drop_length]
  exact ⟨_, _, rfl, rfl, rfl⟩

/-- Bytes that reach no control block of a stage ring are stored and nothing more (R227). -/
theorem State.putSp_above_rings (s : State) (coh : Nat) {a : Nat} (ha : 1024 ≤ a) (bs : List Byte) :
    s.putSp coh a bs = s.setSp coh a bs := by
  have hno : ((List.range 8).filter fun r => decide (128 * r < a + bs.length) && decide (a < 128 * (r + 1))) = [] := by
    refine List.filter_eq_nil_iff.mpr fun r hr => ?_
    have := List.mem_range.mp hr
    simp only [Bool.and_eq_true, decide_eq_true_eq, not_and]
    omega
  unfold State.putSp
  rw [hno]
  rfl

/-! ## The bytes of ACCST -/

/-- The state t, in which a cohort holds n of the bytes that ACCST writes from an offset on, from a state s without
outstanding writes: all its writes lie below the next byte. -/
structure State.HoldsAccst (s t : State) (coh off n : Nat) (out : List Byte) (c : Cohort) : Prop where
  rest : t = { s with cohorts := t.cohorts, hist := t.hist, nextId := t.nextId }
  below : ∀ m ∈ t.hist, m.key + m.new.length ≤ spKey coh (off + n)
  bytes : ∃ sp, aget t.cohorts coh = some { c with sp := sp } ∧
    ∀ a, sget sp a = if off ≤ a ∧ a < off + n then out.getD (a - off) 0 else sget c.sp a
  others : ∀ j, j ≠ coh → aget t.cohorts j = aget s.cohorts j

/-- ACCST writes its next sixteen bytes. -/
theorem State.HoldsAccst.next {s t : State} {coh off n : Nat} {out : List Byte} {c : Cohort}
    (h : s.HoldsAccst t coh off n out c) (ho : 1024 ≤ off) (hn : n + 16 ≤ out.length) (o : Ord) (cur : List Byte) :
    let x := t.placeWrite o [] (spKey coh (off + n)) cur ((out.drop n).take 16)
    s.HoldsAccst (x.2.2.putSp coh (off + n) x.1) coh off (n + 16) out c := by
  obtain ⟨sp, hc, hsp⟩ := h.bytes
  have hlen : ((out.drop n).take 16).length = 16 := by simp; omega
  have hno : t.writesAt (spKey coh (off + n)) ((out.drop n).take 16).length = [] := by
    refine List.reverse_eq_nil_iff.mpr (List.filter_eq_nil_iff.mpr fun m hm => ?_)
    have := h.below m hm
    simp only [Msg.overlaps, Bool.and_eq_true, decide_eq_true_eq, not_and]
    omega
  obtain ⟨o', m, hx, hkey, hnew⟩ := State.placeWrite_alone hno o [] cur
  simp only [hx, State.putSp_above_rings _ _ (by omega : 1024 ≤ off + n)]
  refine ⟨?_, fun m' hm' => ?_, ⟨swrite sp (off + n) ((out.drop n).take 16), ?_, fun a => ?_⟩, fun j hj => ?_⟩
  · simp only [State.setSp, State.modCohort]
    rw [h.rest]
  · rcases List.mem_append.mp hm' with hm' | hm'
    · have := h.below m' hm'
      simp only [spKey] at this ⊢
      omega
    · rw [List.mem_singleton.mp hm', hkey, hnew, hlen]
      simp only [spKey]
      omega
  · simp only [State.setSp, State.modCohort, aget_amod_same, hc, Option.map_some]
  · by_cases ha : off + n ≤ a ∧ a < off + (n + 16)
    · obtain ⟨k, rfl⟩ := Nat.exists_eq_add_of_le ha.1
      rw [sget_swrite_in (by omega), if_pos (by omega), List.getElem_take, List.getElem_drop,
        List.getD_eq_getElem _ _ (by omega)]
      congr 1
      omega
    · rw [sget_swrite_out (by omega), hsp]
      by_cases h1 : off ≤ a ∧ a < off + n
      · rw [if_pos h1, if_pos (by omega)]
      · rw [if_neg h1, if_neg (by omega)]
  · simp only [State.setSp, State.modCohort, aget_amod_other _ _ hj, h.others j hj]

theorem accstUnits_holds {s : State} {coh off : Nat} {out : List Byte} {c : Cohort} (hh : s.hist = [])
    (hc : aget s.cohorts coh = some c) (ho : 1024 ≤ off) (o : Ord) {n : Nat} (hn : 16 * n ≤ out.length) :
    s.HoldsAccst (accstUnits coh off out (List.range n) o s).2 coh off (16 * n) out c := by
  induction n with
  | zero =>
    refine ⟨rfl, fun m hm => ?_, ⟨c.sp, hc, fun a => (if_neg (by omega)).symm⟩, fun _ _ => rfl⟩
    rw [show (accstUnits coh off out (List.range 0) o s).2.hist = s.hist from rfl, hh] at hm
    cases hm
  | succ n ih =>
    have h := (ih (by omega)).next ho (by omega) (accstUnits coh off out (List.range n) o s).1
      (sread ((accstUnits coh off out (List.range n) o s).2.spOf coh) (off + 16 * n) 16)
    rw [show 16 * (n + 1) = 16 * n + 16 by omega]
    unfold accstUnits at h ⊢
    rw [List.range_succ, List.foldl_append]
    exact h

/-! ## A matrix instruction is carried out -/

theorem leBytes_length (n v : Nat) : (leBytes n v).length = n := by
  induction n generalizing v with
  | zero => rfl
  | succ n ih => rw [leBytes, List.length_cons, ih]

theorem matrixRun_accst {o : MatOp} (h : o.kind = .accst) (sp : Sparse 8) (acc : Sparse 32) :
    (matrixRun o sp acc).1 = acc ∧ (matrixRun o sp acc).2.1.length = 4096 ∧ (matrixRun o sp acc).2.2 = 0 := by
  unfold matrixRun
  rw [h]
  refine ⟨rfl, ?_, rfl⟩
  simp only [List.length_flatMap, leBytes_length, List.map_const', List.sum_replicate, List.length_range]
  rfl

theorem matrixRun_no_bytes {o : MatOp} (h : o.kind ≠ .accst) (sp : Sparse 8) (acc : Sparse 32) :
    (matrixRun o sp acc).2.1 = [] := by
  unfold matrixRun
  cases hk : o.kind
  case accst => exact absurd hk h
  all_goals rfl

section
variable {s : State} {coh : Nat} {c : Cohort} {o : MatOp} {rest : List MatOp}

/-- The state in which ACCST has written its bytes for the oldest matrix instruction o, and its order then. -/
def State.accstOf (s : State) (coh : Nat) (c : Cohort) (o : MatOp) : Ord × State :=
  let r := matrixRun o c.sp c.acc
  accstUnits coh o.off r.2.1 (List.range (r.2.1.length / 16)) o.ord (s.modCohort coh fun c => { c with acc := r.1 })

/-- The writes that the oldest matrix instruction makes. -/
def State.wroteBy (s : State) (coh : Nat) (c : Cohort) (o : MatOp) : List Nat :=
  (s.accstOf coh c o).1.view.filter fun x => !o.ord.view.contains x

/-- The oldest matrix instruction is carried out, where no write of the scratchpad is outstanding (R223 to R225). -/
theorem State.computeMatrix_eq (hc : aget s.cohorts coh = some c) (hm : c.mats = o :: rest) (hd : o.done = none)
    (hu : s.lateUnits coh = []) : s.computeMatrix coh = (s.accstOf coh c o).2.modCohort coh fun c' => { c' with
      mats := (c'.mats.takeWhile fun o => o.done.isSome) ++
        { o with done := some ((matrixRun o c.sp c.acc).2.2, s.wroteBy coh c o) } ::
          rest.map (MatOp.after (s.wroteBy coh c o)) } := by
  have hdrop : (c.mats.dropWhile fun o => o.done.isSome) = o :: rest := by
    rw [hm, List.dropWhile_cons, hd]
    rfl
  have hmix : mixUnits coh [] o.ord c.sp s = (c.sp, s) := rfl
  simp only [State.computeMatrix, hc, hdrop, hu, hmix, State.accstOf, State.wroteBy]

/-- A matrix instruction that has been carried out retires (R220). -/
theorem State.retireMatrix_done (hc : aget s.cohorts coh = some c) (hm : c.mats = o :: rest) {f : BitVec 7}
    {wrote : List Nat} (hd : o.done = some (f, wrote)) :
    let t := s.retireMatrix coh
    t = { s with cohorts := t.cohorts, threads := t.threads } ∧ aget t.cohorts coh = some { c with mats := rest } ∧
      (∀ j, j ≠ coh → aget t.cohorts j = aget s.cohorts j) ∧
      ∀ j, aget t.threads j = (aget s.threads j).map fun v =>
        if o.tids.contains j then v.finish o.id none f wrote
        else if (o.tids.head?.map warpOf) = some (warpOf j) then v.lateFlags f else v := by
  simp only [State.retireMatrix, hc, Option.map_some, hm, hd, Option.getD_some, State.modCohort]
  refine ⟨trivial, by rw [aget_amod_same, hc]; rfl, fun j hj => aget_amod_other _ _ hj, fun j => ?_⟩
  rw [aget_map]
  · congr 1
    funext v
    simp only [beq_iff_eq]
    split
    · rfl
    · split <;> rfl
  · intro e
    simp only [beq_iff_eq]
    split
    · rfl
    · split <;> rfl

/-! ## The oldest matrix instruction of a resident cohort -/

theorem State.oldestDone_eq (hc : aget s.cohorts coh = some c) (hm : c.mats = o :: rest) :
    s.oldestDone coh = o.done.isSome := by
  rw [State.oldestDone, hc, Option.bind_some, hm]
  rfl

/-- One that has been carried out before retires. -/
theorem exec_matrixRetire_done (hh : s.heated coh = false) (hc : aget s.cohorts coh = some c) (hm : c.mats = o :: rest)
    {f : BitVec 7} {wrote : List Nat} (hd : o.done = some (f, wrote)) :
    exec (.matrixRetire coh) s = .next (s.retireMatrix coh) := by
  rw [show exec (.matrixRetire coh) s = execMatrixRetire coh s from rfl, execMatrixRetire, hh,
    State.oldestDone_eq hc hm, hd]
  rfl

/-- One that has not been is carried out and retires. -/
theorem exec_matrixRetire (hh : s.heated coh = false) (hc : aget s.cohorts coh = some c) (hm : c.mats = o :: rest)
    (hd : o.done = none) : exec (.matrixRetire coh) s = .next ((s.computeMatrix coh).retireMatrix coh) := by
  rw [show exec (.matrixRetire coh) s = execMatrixRetire coh s from rfl, execMatrixRetire, hh,
    State.oldestDone_eq hc hm, hd]
  rfl

/-- An ACCST is carried out where no write is outstanding (R223, R225). -/
theorem State.computeMatrix_accst (hc : aget s.cohorts coh = some c) (hm : c.mats = o :: rest) (hd : o.done = none)
    (hh : s.hist = []) (hk : o.kind = .accst) (ho : 1024 ≤ o.off) :
    let t := s.computeMatrix coh
    let wrote := s.wroteBy coh c o
    t = { s with cohorts := t.cohorts, hist := t.hist, nextId := t.nextId } ∧
      (∃ sp, aget t.cohorts coh = some { c with
          sp := sp, mats := { o with done := some (0, wrote) } :: rest.map (MatOp.after wrote) } ∧
        ∀ a, sget sp a = if o.off ≤ a ∧ a < o.off + 4096 then ((matrixRun o c.sp c.acc).2.1).getD (a - o.off) 0
          else sget c.sp a) ∧
      ∀ j, j ≠ coh → aget t.cohorts j = aget s.cohorts j := by
  intro t wrote
  obtain ⟨hacc, hlen, hfl⟩ := matrixRun_accst hk c.sp c.acc
  have hc' : aget (s.modCohort coh fun c' => { c' with acc := (matrixRun o c.sp c.acc).1 }).cohorts coh = some c := by
    rw [State.modCohort, aget_amod_same, hc, hacc]
    rfl
  have h := accstUnits_holds (s := s.modCohort coh _) (n := 256) (out := (matrixRun o c.sp c.acc).2.1) hh hc' ho o.ord
    (by omega)
  rw [show accstUnits coh o.off (matrixRun o c.sp c.acc).2.1 (List.range 256) o.ord _ = s.accstOf coh c o by
    rw [State.accstOf, hlen]] at h
  obtain ⟨sp, hget, hsp⟩ := h.bytes
  have ht : t = _ := State.computeMatrix_eq hc hm hd (by rw [State.lateUnits, hh]; rfl)
  have htake : (c.mats.takeWhile fun o => o.done.isSome) = [] := by
    rw [hm, List.takeWhile_cons, hd]
    rfl
  refine ⟨?_, ⟨sp, ?_, hsp⟩, fun j hj => ?_⟩
  · rw [ht, h.rest]
    rfl
  · rw [ht, State.modCohort, aget_amod_same, hget, Option.map_some]
    simp only [htake, hfl, List.nil_append]
    rfl
  · rw [ht, State.modCohort, aget_amod_other _ _ hj, h.others j hj, State.modCohort, aget_amod_other _ _ hj]

/-- A matrix instruction other than ACCST is carried out where no write of the scratchpad is outstanding (R223). -/
theorem State.computeMatrix_plain (hc : aget s.cohorts coh = some c) (hm : c.mats = o :: rest) (hd : o.done = none)
    (hu : s.lateUnits coh = []) (hk : o.kind ≠ .accst) :
    let t := s.computeMatrix coh
    let r := matrixRun o c.sp c.acc
    t = { s with cohorts := t.cohorts } ∧
      aget t.cohorts coh = some { c with
        acc := r.1, mats := { o with done := some (r.2.2, []) } :: rest.map (MatOp.after []) } ∧
      ∀ j, j ≠ coh → aget t.cohorts j = aget s.cohorts j := by
  intro t r
  have hno : s.accstOf coh c o = (o.ord, s.modCohort coh fun c => { c with acc := r.1 }) := by
    rw [State.accstOf, matrixRun_no_bytes hk]
    rfl
  have hw : s.wroteBy coh c o = [] := by
    rw [State.wroteBy, hno]
    exact List.filter_eq_nil_iff.mpr fun x hx => by simp [hx]
  have htake : (c.mats.takeWhile fun o => o.done.isSome) = [] := by
    rw [hm, List.takeWhile_cons, hd]
    rfl
  have ht : t = _ := State.computeMatrix_eq hc hm hd hu
  rw [hw, hno] at ht
  refine ⟨by rw [ht]; rfl, ?_, fun j hj => ?_⟩
  · rw [ht]
    simp only [State.modCohort, aget_amod_same, hc, Option.map_some, htake, List.nil_append]
    rfl
  · rw [ht]
    simp only [State.modCohort, aget_amod_other _ _ hj]

end

/-- Settles O15: the instance issues the instruction before its threads pass, and the oldest one of a cohort is carried out
unit by unit and leaves the issue order. -/
theorem matrixIssueAndRetirement : Obligations.MatrixIssueAndRetirement := by
  unfold Obligations.MatrixIssueAndRetirement
  refine ⟨fun h i dst cnt a m s e q qs k d n b hi harr hmet hps hchk => ?_, fun s coh c o rest hh hc hm hd hhist hk ho => ?_,
    fun s coh c o rest hh hc hm hd hu hk => ?_, fun s coh c o rest f wrote hh hc hm hd => ?_⟩
  · refine harr.issues ?_ hmet hps hchk
    rcases hi with rfl | rfl | rfl | rfl | rfl <;> rfl
  · obtain ⟨hst, ⟨sp, hget, hsp⟩, hoth⟩ := State.computeMatrix_accst hc hm hd hhist hk ho
    obtain ⟨hst', hget', hoth', hth⟩ := State.retireMatrix_done hget rfl rfl
    refine ⟨_, _, _, exec_matrixRetire hh hc hm hd, ?_, hget', rfl, hsp, fun j hj => (hoth' j hj).trans (hoth j hj),
      fun j => (hth j).trans ?_⟩
    · rw [hst', hst]
    · rw [hst]
  · obtain ⟨hst, hget, hoth⟩ := State.computeMatrix_plain hc hm hd hu hk
    obtain ⟨hst', hget', hoth', hth⟩ := State.retireMatrix_done hget rfl rfl
    refine ⟨_, exec_matrixRetire hh hc hm hd, ?_, hget', fun j hj => (hoth' j hj).trans (hoth j hj),
      fun j => (hth j).trans ?_⟩
    · rw [hst', hst]
    · rw [hst]
  · obtain ⟨hst, hget, hoth, hth⟩ := State.retireMatrix_done hc hm hd
    exact ⟨_, exec_matrixRetire_done hh hc hm hd, hst, hget, hoth, hth⟩

end Sys2Proof.Machine
end

section
/-! SUPPORT. The read of the line of a user handler (R296) changes no thread and no cohort but in its stash lines. -/

namespace Sys2Proof.Machine

/-- State t has the threads and the launches of s, and the cohorts of s but for their stash lines. -/
structure State.Peeked (s t : State) : Prop where
  looked : s.Looked t
  threads : t.threads = s.threads

theorem State.Peeked.refl (s : State) : s.Peeked s := ⟨.refl s, rfl⟩

theorem State.Peeked.trans {a b c : State} (h : a.Peeked b) (g : b.Peeked c) : a.Peeked c :=
  ⟨h.looked.trans g.looked, g.threads.trans h.threads⟩

/-! ## State -/

theorem State.pick_peeked (s : State) (n : Nat) : s.Peeked (s.pick n).2 := ⟨s.pick_looked n, s.pick_threads n⟩

theorem State.note_peeked (s : State) (what cluster cid addr : Nat) (v : List Byte) :
    s.Peeked (s.note what cluster cid addr v) := by
  refine ⟨s.note_looked .., ?_⟩
  unfold State.note
  dsimp only
  split_ifs <;> rfl

theorem State.boundSeen_peeked (s : State) (what : List Nat) (cluster n : Nat) (grp : Seen → Nat) :
    s.Peeked (s.boundSeen what cluster n grp) := by
  refine ⟨s.boundSeen_looked .., ?_⟩
  unfold State.boundSeen
  dsimp only
  split_ifs
  · rfl
  · split <;> rw [State.pick_state]

theorem State.foldl_peeked {α : Type} {f : State → α → State} (hf : ∀ (s : State) (x : α), s.Peeked (f s x)) (xs : List α)
    (s : State) : s.Peeked (xs.foldl f s) :=
  List.foldlRecOn (motive := s.Peeked) xs f (.refl s) fun t ht x _ => ht.trans (hf t x)

theorem State.noteUsed_peeked (s : State) (cl cid va : Nat) (r : Walked × List (Nat × Nat)) :
    s.Peeked (s.noteUsed cl cid va r) := by
  have h := State.foldl_peeked (fun s (x : Nat × Nat) => s.note_peeked 4 cl cid x.1 (leBytes 8 x.2)) r.2 s
  unfold State.noteUsed
  dsimp only
  split
  · split_ifs
    · exact (h.trans (State.note_peeked ..)).trans (State.boundSeen_peeked ..)
    · exact h
  · exact h

theorem chooseSeen_peeked (o : Ord) (ms seen : List Msg) (s : State) : s.Peeked (chooseSeen o ms seen s).2.2 := by
  induction ms generalizing seen s with
  | nil => exact .refl s
  | cons m t ih =>
    rw [chooseSeen]
    split_ifs
    · exact ih ..
    · dsimp only
      split_ifs
      · exact (s.pick_peeked 2).trans (ih ..)
      · exact (s.pick_peeked 2).trans (ih ..)

theorem State.recall_peeked (s : State) (key n : Nat) (write : Bool) : s.Peeked (s.recall key n write) := by
  refine ⟨s.recall_looked .., ?_⟩
  have h : (s.cohorts.foldl (fun s c => s.writeBack (s.cohPid c.2)
      ((c.2.lines.filter fun e : Nat × StashLine => e.2.overlaps key n).map (·.2))) s).threads = s.threads :=
    List.foldlRecOn (motive := fun t : State => t.threads = s.threads) _ _ rfl fun t ht c _ => by
      rw [State.writeBack_state]
      exact ht
  unfold State.recall
  extract_lets hit
  split
  · exact h
  · rfl

/-! ## Computations -/

/-- Where the computation ends well, it has left the threads and the cohorts but for stash lines. -/
structure Peeks {α : Type} (x : M α) : Prop where
  peeked : ∀ (s t : State) (a : α), x s = .ok a t → s.Peeked t

theorem peeks_pure {α : Type} (a : α) : Peeks (pure a : M α) := ⟨fun s _ _ h => by cases h; exact .refl s⟩

theorem peeks_throw {α : Type} (f : FaultInfo) : Peeks (throw f : M α) := ⟨fun _ _ _ h => by cases h⟩

theorem peeks_get : Peeks (get : M State) := ⟨fun s _ _ h => by cases h; exact .refl s⟩

theorem Peeks.bind {α β : Type} {x : M α} {f : α → M β} (hx : Peeks x) (hf : ∀ a, Peeks (f a)) : Peeks (x >>= f) := by
  refine ⟨fun s t b h => ?_⟩
  cases hxs : x s with
  | ok a s' =>
    rw [bind_ok hxs] at h
    exact (hx.peeked s s' a hxs).trans ((hf a).peeked s' t b h)
  | error f' s' =>
    rw [bind_error hxs] at h
    cases h

/-- A check that throws where a condition holds, before the rest. -/
theorem peeks_ite_throw {α : Type} {c : Prop} [Decidable c] {f : FaultInfo} {rest : PUnit → M α}
    (h : ∀ r, Peeks (rest r)) : Peeks (if c then throw f >>= rest else rest ⟨⟩) := by
  split
  · exact (peeks_throw f).bind h
  · exact h ⟨⟩

/-- A computation that always ends well. -/
theorem peeks_of_ok {α : Type} {x : M α} {f : State → α} {g : State → State} (h : ∀ s, x s = .ok (f s) (g s))
    (hg : ∀ s : State, s.Peeked (g s)) : Peeks x := by
  refine ⟨fun s t a hx => ?_⟩
  rw [h s] at hx
  cases hx
  exact hg s

/-- A free choice, where there is one. -/
theorem peeks_of_pick {α : Type} {x : M α} (h : ∀ s, (∃ a n, x s = .ok a (s.pick n).2) ∨ ∃ a, x s = .ok a s) :
    Peeks x := by
  refine ⟨fun s t a hx => ?_⟩
  obtain ⟨b, n, hb⟩ | ⟨b, hb⟩ := h s
  · cases hb.symm.trans hx
    exact s.pick_peeked n
  · cases hb.symm.trans hx
    exact .refl s

theorem readMemM_peeks (key n : Nat) : Peeks (readMemM key n) :=
  peeks_of_ok (fun _ => rfl) fun s => s.recall_peeked key n false

theorem walkM_peeks (w : Who) (va : VAddr) : Peeks (walkM w va) := by
  refine ⟨fun s t a h => ?_⟩
  unfold walkM at h
  split at h
  · cases h
    exact .refl s
  · cases h
    exact (s.pick_peeked _).trans (State.noteUsed_peeked ..)

theorem linkNeedM_peeks (key : Nat) : Peeks (linkNeedM key) := by
  refine peeks_of_pick fun s => ?_
  unfold linkNeedM
  split
  · exact .inl ⟨_, 2, rfl⟩
  · exact .inr ⟨_, rfl⟩

theorem linkNeedWalk_peeks (w : Who) (va : VAddr) : Peeks (linkNeedWalk w va) := by
  refine peeks_of_pick fun s => ?_
  unfold linkNeedWalk
  split
  · exact .inl ⟨_, 2, rfl⟩
  · exact .inr ⟨_, rfl⟩

theorem walkFor_peeks (w : Who) (a : Access) : Peeks (walkFor w a) := by
  unfold walkFor
  refine peeks_ite_throw fun _ => (linkNeedWalk_peeks ..).bind fun _ => peeks_get.bind fun _ => ?_
  exact peeks_ite_throw fun _ => walkM_peeks ..

theorem placeOf_peeks (w : Who) (a : Access) (r : Walked) : Peeks (placeOf w a r) := by
  cases r with
  | unmapped => exact peeks_throw _
  | format pa => exact peeks_throw _
  | leaf pte log =>
    refine peeks_ite_throw fun _ => peeks_get.bind fun s => ?_
    dsimp only
    split
    · exact peeks_ite_throw fun _ => peeks_pure _
    · exact peeks_throw _

theorem checkWatch_peeks (w : Who) (a : Access) : Peeks (checkWatch w a) := by
  refine peeks_get.bind fun s => ?_
  split
  · exact peeks_throw _
  · exact peeks_pure _

/-- The tag of a granule, read for an accessor whose accesses order no later ones (R281). -/
theorem seeTag_peeks {w : Who} (hw : w.own = false) (fx : Bool) (key : Nat) : Peeks (seeTag w fx key) := by
  refine ⟨fun s t a h => ?_⟩
  unfold seeTag at h
  simp only [hw, Bool.and_false, Bool.false_and, Bool.false_eq_true, if_false] at h
  split at h
  · cases h
    exact .refl s
  · split at h
    · cases h
      exact chooseSeen_peeked ..
    · cases h
      exact .refl s

theorem checkTag_peeks {w : Who} (hw : w.own = false) (a : Access) (p : Place) : Peeks (checkTag w a p) := by
  unfold checkTag
  split
  · refine (seeTag_peeks hw ..).bind fun t => ?_
    split
    · exact peeks_throw _
    · exact peeks_pure _
  · exact peeks_pure _

theorem fetchTags_peeks {w : Who} (hw : w.own = false) (a : Access) (p : Place) (g key : Nat) :
    Peeks (fetchTags w a p g key) := by
  induction g generalizing key with
  | zero => exact peeks_pure _
  | succ g ih => exact (checkTag_peeks hw ..).bind fun _ => ih _

theorem fetchRest_peeks {w : Who} (hw : w.own = false) (va : VAddr) (n : Nat) (p : Place) : Peeks (fetchRest w va n p) :=
  (checkWatch_peeks ..).bind fun _ => peeks_ite_throw fun _ => (linkNeedM_peeks _).bind fun _ =>
    peeks_ite_throw fun _ => fetchTags_peeks hw ..

theorem readPieces_peeks (w : Who) (ps : List (Nat × List Byte)) : Peeks (readPieces w ps) := by
  refine peeks_of_pick fun s => ?_
  unfold readPieces
  split
  · exact .inr ⟨_, rfl⟩
  · exact .inl ⟨_, _, rfl⟩

theorem cached_peeks (names : List (Nat × Nat)) (cluster cid : Nat) (keep : Bool) (cur : List Byte) :
    Peeks (cached names cluster cid keep cur) := by
  refine peeks_of_ok (fun _ => rfl) fun s => State.Peeked.trans ?_ (State.pick_peeked _ _)
  split
  · exact State.foldl_peeked (fun s (k : Nat × Nat) => s.note_peeked k.1 cluster cid k.2 cur) names s
  · exact .refl s

theorem lineText_peeks (w : Who) (va : VAddr) (p : Place) (guest : Option (VAddr × Nat)) :
    Peeks (lineText w va p guest) := by
  refine (readMemM_peeks ..).bind fun _ => (readPieces_peeks ..).bind fun r => peeks_get.bind fun s =>
    peeks_ite_throw fun _ => ?_
  dsimp only
  split
  · exact peeks_pure _
  · refine (cached_peeks ..).bind fun _ => Peeks.bind (peeks_of_ok (fun _ => rfl) fun s => ?_) fun _ => peeks_pure _
    exact (s.boundSeen_peeked ..).trans (State.boundSeen_peeked ..)

theorem targetLine_peeks (w : Who) (va : VAddr) : Peeks (targetLine w va) :=
  ((walkFor_peeks ..).bind fun _ => placeOf_peeks ..).bind fun _ => (fetchRest_peeks rfl ..).bind fun _ =>
    (lineText_peeks ..).bind fun _ => peeks_pure _

/-- Whether a handler's line can be entered is read without any other change (R296). -/
theorem State.handlerOk_peeked (s : State) (e : Env) : s.Peeked (s.handlerOk e).2 := by
  have h : s.Peeked (tryM s (targetLine e.who e.th.trapVec)).2 := by
    unfold tryM
    split
    · next hx => exact (targetLine_peeks ..).peeked _ _ _ hx
    · exact ⟨.of_eq rfl rfl, rfl⟩
  unfold State.handlerOk
  split <;> next hx => rwa [hx] at h

end Sys2Proof.Machine
end

section
/-! SUPPORT. A launch that ends leaves none of its cohorts and none of their threads (R47). -/

namespace Sys2Proof.Machine

/-- State s holds neither a cohort nor a thread of it. -/
structure State.Without (s : State) (coh : Nat) : Prop where
  cohort : aget s.cohorts coh = none
  threads : ∀ e ∈ s.threads, cohOf e.1 ≠ coh

section
variable {s t : State} {coh : Nat}

theorem State.Without.of_eq (h : s.Without coh) (hc : t.cohorts = s.cohorts) (ht : t.threads = s.threads) :
    t.Without coh := ⟨hc ▸ h.cohort, ht ▸ h.threads⟩

theorem State.Without.no_thread (h : s.Without coh) {k : Nat} (hk : cohOf k = coh) : aget s.threads k = none := by
  cases ht : aget s.threads k with
  | none => rfl
  | some t => exact absurd hk (h.threads _ (mem_of_aget ht))

/-! ## What drops cohorts and what does not -/

theorem State.dropCohort_cohorts (s : State) (coh : Nat) : (s.dropCohort coh).cohorts = adel s.cohorts coh := by
  unfold State.dropCohort
  split
  · rw [State.writeBack_state]
  · rfl

theorem State.dropCohort_threads (s : State) (coh : Nat) :
    (s.dropCohort coh).threads = s.threads.filter fun e => cohOf e.1 != coh := by
  unfold State.dropCohort
  split
  · rw [State.writeBack_state]
  · rfl

theorem State.without_dropCohort (s : State) (coh : Nat) : (s.dropCohort coh).Without coh := by
  refine ⟨by rw [State.dropCohort_cohorts, aget_adel_same], fun e he => ?_⟩
  rw [State.dropCohort_threads, List.mem_filter] at he
  simpa using he.2

theorem State.Without.dropCohort (h : s.Without coh) (k : Nat) : (s.dropCohort k).Without coh := by
  refine ⟨?_, fun e he => ?_⟩
  · rw [State.dropCohort_cohorts]
    by_cases hk : coh = k
    · rw [hk, aget_adel_same]
    · rw [aget_adel_other _ hk, h.cohort]
  · rw [State.dropCohort_threads] at he
    exact h.threads e (List.mem_filter.mp he).1

theorem State.Without.disarm (h : s.Without coh) (lid : Nat) : (s.disarm lid).Without coh := by
  unfold State.disarm
  split
  · exact h
  · refine ⟨h.cohort, fun e he => ?_⟩
    obtain ⟨f, hf, rfl⟩ := List.mem_map.mp he
    have := h.threads f hf
    split <;> exact this

theorem State.Without.dropGang (h : s.Without coh) (lid : Nat) (l : Launch) : (s.dropGang lid l).Without coh := by
  unfold State.dropGang
  split
  · exact h
  · exact h.of_eq rfl rfl

theorem State.Without.refillSlot (h : s.Without coh) (sec slot : Nat) : (s.refillSlot sec slot).Without coh := by
  unfold State.refillSlot
  split
  · exact h
  · split_ifs
    · split <;> exact h.of_eq rfl rfl
    · exact h

theorem State.Without.refillAll (h : s.Without coh) : s.refillAll.Without coh := by
  unfold State.refillAll
  split
  · exact h
  · exact List.foldlRecOn (motive := fun t : State => t.Without coh) _ _ h fun t ht k _ => ht.refillSlot ..

/-! ## The end of a launch -/

/-- The cohorts of a launch are dropped one by one. -/
theorem State.without_dropCohorts (lid : Nat) (cs : List (Nat × Cohort)) (h : coh ∈ cs.map (·.1) ∨ s.Without coh) :
    (cs.foldl (fun s c => (s.beforeSignal lid (s.completedBy c.1)).dropCohort c.1) s).Without coh := by
  induction cs generalizing s with
  | nil => exact h.resolve_left (List.not_mem_nil)
  | cons x t ih =>
    refine ih ?_
    rcases h with h | h
    · rcases List.mem_cons.mp (List.map_cons ▸ h) with rfl | h
      · exact .inr (State.without_dropCohort ..)
      · exact .inl h
    · exact .inr ((h.of_eq (t := s.beforeSignal lid (s.completedBy x.1)) rfl rfl).dropCohort _)

/-- A launch that ends takes its cohorts with it (R47). -/
theorem State.endLaunch_without {lid : Nat} {l : Launch} {c : Cohort} (status : Nat) (hl : aget s.launches lid = some l)
    (hs : l.status = none) (hc : aget s.cohorts coh = some c) (hlid : c.launch = lid) :
    (s.endLaunch lid status).Without coh := by
  have hmem : coh ∈ (s.launchCohorts lid).map (·.1) :=
    List.mem_map.mpr ⟨_, List.mem_filter.mpr ⟨mem_of_aget hc, by simp [hlid]⟩, rfl⟩
  have h : (s.haltLaunch lid l).Without coh := ((State.without_dropCohorts lid _ (.inl hmem)).disarm _).dropGang _ _
  rw [State.endLaunch_running hl hs]
  exact State.Without.refillAll (h.of_eq rfl rfl)

end

end Sys2Proof.Machine
end

section
/-! SUPPORT. What the exit of a thread makes of the convergence point at which another thread of its warp waits (R54, R56,
R404). -/

namespace Sys2Proof.Machine

/-! ## Folds in which one element counts -/

theorem foldl_unchanged {α β : Type} {f : β → α → β} {b : β} {xs : List α} (h : ∀ x ∈ xs, f b x = b) : xs.foldl f b = b :=
  List.foldlRecOn (motive := (· = b)) xs f rfl fun c hc x hx => by rw [hc, h x hx]

/-- Where one element alone changes the state, and the others change nothing before or after it, a fold is that one step. -/
theorem foldl_one {α β : Type} {f : β → α → β} {b : β} {x : α} {xs : List α} (hx : x ∈ xs) (hn : xs.Nodup)
    (h1 : ∀ y ∈ xs, y ≠ x → f b y = b) (h2 : ∀ y ∈ xs, y ≠ x → f (f b x) y = f b x) : xs.foldl f b = f b x := by
  obtain ⟨as, bs, rfl⟩ := List.append_of_mem hx
  obtain ⟨-, hb, hd⟩ := List.nodup_append.mp hn
  have hxb : x ∉ bs := (List.nodup_cons.mp hb).1
  rw [List.foldl_append, List.foldl_cons, foldl_unchanged fun y hy => h1 y (List.mem_append_left _ hy)
      (hd y hy x List.mem_cons_self),
    foldl_unchanged fun y hy => h2 y (List.mem_append_right _ (List.mem_cons_of_mem _ hy)) fun he => hxb (he ▸ hy)]

theorem filterMap_one {α β : Type} {g : α → Option β} {x : α} {y : β} {xs : List α} (hx : x ∈ xs) (hn : xs.Nodup)
    (hg : g x = some y) (ho : ∀ z ∈ xs, z ≠ x → g z = none) : xs.filterMap g = [y] := by
  obtain ⟨as, bs, rfl⟩ := List.append_of_mem hx
  obtain ⟨-, hb, hd⟩ := List.nodup_append.mp hn
  have hxb : x ∉ bs := (List.nodup_cons.mp hb).1
  have ha : as.filterMap g = [] := List.filterMap_eq_nil_iff.mpr fun z hz =>
    ho z (List.mem_append_left _ hz) (hd z hz x List.mem_cons_self)
  have hb : bs.filterMap g = [] := List.filterMap_eq_nil_iff.mpr fun z hz =>
    ho z (List.mem_append_right _ (List.mem_cons_of_mem _ hz)) fun he => hxb (he ▸ hz)
  rw [List.filterMap_append, List.filterMap_cons, hg, ha, hb]
  rfl

/-! ## The waiting threads of a warp -/

/-- No thread of the warp waits at a convergence point, but perhaps thread k. -/
def State.WaitsAlone (s : State) (warp k : Nat) : Prop :=
  ∀ j x, aget s.threads j = some x → warpOf j = warp → j ≠ k → x.conv = none

/-- No thread of the warp waits at a convergence point. -/
def State.NoWaiter (s : State) (warp : Nat) : Prop := ∀ j x, aget s.threads j = some x → warpOf j = warp → x.conv = none

theorem warpOf_lane {warp lane : Nat} (h : lane < 32) : warpOf (warp * 32 + lane) = warp := by
  unfold warpOf
  omega

theorem warp_lane (k : Nat) : warpOf k * 32 + laneOf k = k := by
  unfold warpOf laneOf
  omega

section
variable {s : State} {warp k : Nat} {v : Thread} {w : ConvWait}

theorem State.recheckLane_quiet {lane : Nat} (h : ∀ t, aget s.threads (warp * 32 + lane) = some t → t.conv = none) :
    State.recheckLane warp s lane = s := by
  unfold State.recheckLane
  dsimp only
  split
  · rfl
  · next t ht => rw [h t ht]

/-- Without waiting threads nothing comes of an exit. -/
theorem State.recheckWarp_quiet (h : s.NoWaiter warp) : s.recheckWarp warp = s :=
  foldl_unchanged fun _ hl => State.recheckLane_quiet fun t ht => h _ t ht (warpOf_lane (List.mem_range.mp hl))

/-- Where one thread of the warp waits, and it alone may wait afterwards, the warp is tested at its lane. -/
theorem State.recheckWarp_one (h : s.WaitsAlone (warpOf k) k)
    (hr : (State.recheckLane (warpOf k) s (laneOf k)).WaitsAlone (warpOf k) k) :
    s.recheckWarp (warpOf k) = State.recheckLane (warpOf k) s (laneOf k) := by
  have quiet : ∀ r : State, r.WaitsAlone (warpOf k) k → ∀ l ∈ List.range 32, l ≠ laneOf k →
      State.recheckLane (warpOf k) r l = r := fun r hr l hl hne =>
    State.recheckLane_quiet fun t ht => hr _ t ht (warpOf_lane (List.mem_range.mp hl)) fun he => hne (by
      have := List.mem_range.mp hl
      rw [← he, laneOf]
      omega)
  exact foldl_one (List.mem_range.mpr (Nat.mod_lt _ (by decide))) List.nodup_range (quiet _ h) (quiet _ hr)

/-- The waiting threads at the PC of the one that waits. -/
theorem State.waitersAt_one (r : rising 0 s.threads = true) (hk : aget s.threads k = some v) (hv : v.conv = some w)
    (h : s.WaitsAlone (warpOf k) k) : s.waitersAt (warpOf k) v = [(k, w)] := by
  have hn : s.threads.Nodup := (pairwise_of_rising r).1.imp fun hab he => Nat.ne_of_lt hab (congrArg _ he)
  refine filterMap_one (x := (k, v)) (List.mem_filter.mpr ⟨mem_of_aget hk, by simp⟩) (hn.filter _) ?_ fun z hz hne => ?_
  · rw [if_pos (by simp [samePc]), hv]
    rfl
  · obtain ⟨hz, hw⟩ := List.mem_filter.mp hz
    have hget := aget_of_mem r hz
    have hzk : z.1 ≠ k := fun he => hne (Prod.ext he (Option.some.inj (hget.symm.trans (he ▸ hk))))
    split
    · rw [h _ _ hget (by simpa using hw) hzk]
      rfl
    · rfl

theorem State.faultAll_one (s : State) (q : Env) (long : Bool) (f : FaultInfo) :
    s.faultAll [q] long f = s.takeFault q long f := by
  unfold State.faultAll State.takeFault
  rw [List.foldl_cons, List.foldl_nil]
  cases s.raise q long f with
  | mk t ends => cases ends <;> rfl

theorem State.envOf_modThread (s : State) (k pers : Nat) (f : Thread → Thread) :
    (s.modThread k f).envOf k pers = (s.envOf k pers).map fun e => { e with th := f e.th } := by
  simp only [State.envOf, State.modThread_threads, State.modThread_cohorts, State.modThread_warps,
    State.modThread_launches, State.modThread_ctxs, State.modThread_bundle, aget_amod_same]
  cases aget s.threads k with
  | none => rfl
  | some t =>
    cases aget s.cohorts (cohOf k) with
    | none => rfl
    | some c =>
      cases aget s.warps (warpOf k) with
      | none => rfl
      | some w =>
        dsimp only [Option.map_some]
        cases aget s.launches c.launch with
        | none => rfl
        | some l => cases aget s.ctxs c.cid <;> rfl

/-- The one thread of a warp that waits, at a matrix instruction, takes ILLEGAL_OPERAND (R56). -/
theorem State.recheckLane_matrix (r : rising 0 s.threads = true) (hk : aget s.threads k = some v) (hv : v.conv = some w)
    (h : s.WaitsAlone (warpOf k) k) (hm : Instr.isMatrix w.op = true) {q : Env}
    (hq : (s.modThread k Thread.leave).envOf k w.pers = some q) :
    State.recheckLane (warpOf k) s (laneOf k) =
      (s.modThread k Thread.leave).takeFault q (Instr.isLong w.op) (opFault .illegalOperand) := by
  have hun : s.unwait [(k, w)] = s.modThread k Thread.leave := rfl
  simp only [State.recheckLane, warp_lane, hk, hv, hm, if_true, State.waitersAt_one r hk hv h, hun, List.filterMap_cons,
    List.filterMap_nil, hq, State.faultAll_one]

/-- The one thread of a warp that waits elsewhere passes where no lane of its mask is missing (R54). -/
theorem State.recheckLane_lanes (r : rising 0 s.threads = true) (hk : aget s.threads k = some v) (hv : v.conv = some w)
    (h : s.WaitsAlone (warpOf k) k) (hm : Instr.isMatrix w.op = false) :
    State.recheckLane (warpOf k) s (laneOf k) =
      if s.allArrived (warpOf k) w.mask [(k, w)] then runInstance w.op [(k, w)] s else s := by
  have hself : ([(k, w)].filter fun x : Nat × ConvWait => x.2.mask == w.mask) = [(k, w)] := by simp
  simp only [State.recheckLane, warp_lane, hk, hv, hm, Bool.false_eq_true, if_false, State.tryInstance,
    State.waitersAt_one r hk hv h, hself]

/-- An instance of one thread executes. -/
theorem State.runInstance_one (hm : Instr.isMatrix w.op = false) {q : Env}
    (hq : (s.modThread k Thread.leave).envOf k w.pers = some q) :
    s.Becomes k (runInstance w.op [(k, w)] s) (q.left w.op [q] w) := by
  rw [State.envOf_modThread] at hq
  obtain ⟨q0, hq0, rfl⟩ := Option.map_eq_some_iff.mp hq
  have hrun : runInstance w.op [(k, w)] s =
      leaveInstance w.op (if w.guard then [{ q0 with th := q0.th.leave }] else []) s (k, w) := by
    simp only [runInstance, hm, List.filterMap_cons, List.filterMap_nil, hq0]
    cases w.guard <;> rfl
  rw [hrun]
  refine ⟨leaveInstance_state .., ?_, fun j hj => leaveInstance_other _ _ _ hj⟩
  rw [leaveInstance_self (w := (k, w)) _ _ hq0]
  cases hg : w.guard <;> simp [Env.left, hg]

end

end Sys2Proof.Machine
end

section
/-! SUPPORT. The exit of a thread (R404, R405): the state in which it has exited, and what follows where another thread of
its warp waits at a convergence point. -/

namespace Sys2Proof.Machine

/-! ## Threads that have not exited -/

section
variable {s t : State} {coh k : Nat} {v : Thread}

theorem State.allExited_of_live (hk : aget s.threads k = some v) (hv : v.status ≠ .exited) : s.allExited (cohOf k) = false := by
  refine List.all_eq_false.mpr ⟨(k, v), List.mem_filter.mpr ⟨mem_of_aget hk, by simp⟩, by simpa using hv⟩

theorem State.live_of_allExited (r : rising 0 s.threads = true) (h : s.allExited coh = false) :
    ∃ k v, aget s.threads k = some v ∧ cohOf k = coh ∧ v.status ≠ .exited := by
  obtain ⟨e, he, hne⟩ := List.all_eq_false.mp h
  obtain ⟨he, hc⟩ := List.mem_filter.mp he
  exact ⟨e.1, e.2, aget_of_mem r he, by simpa using hc, by simpa using hne⟩

theorem State.openBars_of_none (h : aget s.cohorts coh = none) : s.openBars coh = [] := by rw [State.openBars, h]

theorem State.openBars_of_some {c : Cohort} (h : aget s.cohorts coh = some c) : s.openBars coh = c.bars.map (·.1) := by
  rw [State.openBars, h]

theorem State.openBars_of_nil {c : Cohort} (h : aget s.cohorts coh = some c) (hb : c.bars = []) : s.openBars coh = [] := by
  rw [State.openBars_of_some h, hb]
  rfl

theorem State.groupsCheck_nil (s : State) (lid : Nat) : s.groupsCheck lid [] = s := rfl

/-- Reads change no barrier. -/
theorem State.Looked.openBars (h : s.Looked t) (coh : Nat) : t.openBars coh = s.openBars coh := by
  have hk := h.cohorts coh
  unfold State.openBars
  cases ht : aget t.cohorts coh with
  | none =>
    cases hs : aget s.cohorts coh with
    | none => rfl
    | some d => rw [ht, hs] at hk; cases hk
  | some c =>
    cases hs : aget s.cohorts coh with
    | none => rw [ht, hs] at hk; cases hk
    | some d =>
      rw [ht, hs] at hk
      exact congrArg (fun c : Cohort => c.bars.map (·.1)) (Option.some.inj hk)

end

/-! ## After the exit -/

/-- Nothing more comes of the exit of thread tid: no barrier of its cohort is open, and a thread of the cohort is left or
the cohort has gone. -/
structure State.Calm (s : State) (coh : Nat) : Prop where
  bars : s.openBars coh = []
  left : s.allExited coh = false ∨ aget s.cohorts coh = none

theorem State.afterExit_eq {s : State} {tid : Nat} {c : Cohort} (hc : aget s.cohorts (cohOf tid) = some c) :
    s.afterExit tid =
      let t := (((s.recheckWarp (warpOf tid)).openBars (cohOf tid)).foldl (State.barCheck (cohOf tid))
        (s.recheckWarp (warpOf tid))).groupsCheck c.launch c.groups
      if t.allExited (cohOf tid) then t.releaseCohort (cohOf tid) else t := by
  simp only [State.afterExit, hc]

theorem State.afterExit_calm {s : State} {tid : Nat} {c : Cohort} (hc : aget s.cohorts (cohOf tid) = some c)
    (hg : c.groups = []) (h : (s.recheckWarp (warpOf tid)).Calm (cohOf tid)) :
    s.afterExit tid = s.recheckWarp (warpOf tid) := by
  rw [State.afterExit_eq hc, h.bars, hg, List.foldl_nil, State.groupsCheck_nil]
  dsimp only
  rcases h.left with hl | hl
  · rw [hl]
    rfl
  · have hrel : (s.recheckWarp (warpOf tid)).releaseCohort (cohOf tid) = s.recheckWarp (warpOf tid) := by
      rw [State.releaseCohort, hl]
    rw [hrel, ite_self]

/-! ## A fault of the thread that waits -/

/-- Whether the user handler takes a fault of a thread, after the read of its line where R296 asks for it. -/
def State.tryHandler (s : State) (e : Env) (f : FaultInfo) : Bool × State :=
  if e.th.trapVec ≠ 0 && !e.th.tf && f.kind ≠ .memErr && f.kind ≠ .binClosed && !f.unhandled then s.handlerOk e
  else (false, s)

/-- A thread takes ILLEGAL_OPERAND: it enters its handler, or its record is posted and its launch ends (R47, R291). -/
theorem State.takeFault_illegalOperand (s : State) (q : Env) (long : Bool) : ∃ t, s.Peeked t ∧
    ((∃ g : Thread → Thread, (∀ v, (g v).status = .ready) ∧
        s.takeFault q long (opFault .illegalOperand) = t.modThread q.tid g) ∨
      ∃ p, s.takeFault q long (opFault .illegalOperand) =
        ((t.queuePost q.cid p).modThread q.tid Thread.halt).endByFault q.c.launch) := by
  let f := opFault .illegalOperand
  have hk : FaultKind.parks f.kind = false := rfl
  have hf : f.frozen = false := rfl
  have hp : s.Peeked (s.tryHandler q f).2 := by
    unfold State.tryHandler
    split
    · exact s.handlerOk_peeked q
    · exact .refl s
  unfold State.takeFault State.raise
  rw [hk, hf, if_neg Bool.false_ne_true, Bool.false_and, if_neg Bool.false_ne_true, ← State.tryHandler]
  generalize s.tryHandler q f = x at hp
  obtain ⟨ok, t⟩ := x
  cases ok
  · exact ⟨t, hp, .inr ⟨_, rfl⟩⟩
  · exact ⟨t, hp, .inl ⟨_, fun _ => rfl, rfl⟩⟩

/-- Thread k is changed to one that neither waits nor has exited. -/
theorem State.calm_modThread {s : State} {k : Nat} {v : Thread} {f : Thread → Thread} (hk : aget s.threads k = some v)
    (hf : (f v).status ≠ .exited) (hb : s.openBars (cohOf k) = []) : (s.modThread k f).Calm (cohOf k) :=
  ⟨hb, .inl (State.allExited_of_live (v := f v) (by rw [State.modThread_threads, aget_amod_same, hk]; rfl) hf)⟩

theorem State.WaitsAlone.modThread {s : State} {warp k : Nat} (h : s.WaitsAlone warp k) (f : Thread → Thread) :
    (s.modThread k f).WaitsAlone warp k := fun j x hj hw hne =>
  h j x (by rwa [State.modThread_threads, aget_amod_other _ _ hne] at hj) hw hne

/-- A thread that takes ILLEGAL_OPERAND leaves nothing to do at its warp and in its cohort. -/
theorem State.takeFault_calm {s : State} {k pers : Nat} {v : Thread} {q : Env} (long : Bool)
    (hk : aget s.threads k = some v) (hq : s.envOf k pers = some q) (hb : s.openBars (cohOf k) = [])
    (hw : s.WaitsAlone (warpOf k) k) :
    (s.takeFault q long (opFault .illegalOperand)).WaitsAlone (warpOf k) k ∧
      (s.takeFault q long (opFault .illegalOperand)).Calm (cohOf k) := by
  obtain ⟨hqt, -, hqc, hql, -, -⟩ := State.envOf_some hq
  obtain ⟨t, ht, ⟨g, hg, hx⟩ | ⟨p, hx⟩⟩ := s.takeFault_illegalOperand q long
  · have hwt : t.WaitsAlone (warpOf k) k := fun j x hj => hw j x (ht.threads ▸ hj)
    rw [hx, hqt]
    exact ⟨hwt.modThread g, State.calm_modThread (ht.threads ▸ hk) (by rw [hg]; nofun) ((ht.looked.openBars _).trans hb)⟩
  · let r := (t.queuePost q.cid p).modThread k Thread.halt
    have hwr : r.WaitsAlone (warpOf k) k :=
      State.WaitsAlone.modThread (s := t.queuePost q.cid p) (fun j x hj => hw j x (ht.threads ▸ hj)) _
    have hr : r.Calm (cohOf k) := State.calm_modThread (s := t.queuePost q.cid p) (v := v) (ht.threads ▸ hk)
      (by rw [Thread.halt]; nofun) ((ht.looked.openBars _).trans hb)
    have hlr : aget r.launches q.c.launch = some q.l := by
      rw [show r.launches = t.launches from rfl, ht.looked.launches, hql]
    obtain ⟨c, hc, hcl⟩ : ∃ c, aget r.cohorts (cohOf k) = some c ∧ c.launch = q.c.launch := by
      obtain ⟨c, hc, hcb⟩ := Option.map_eq_some_iff.mp ((ht.looked.cohorts (cohOf k)).trans (by rw [hqc]; rfl))
      have hl : c.bare.launch = q.c.bare.launch := congrArg _ hcb
      exact ⟨c, hc, hl⟩
    rw [hx, hqt, State.endByFault]
    split
    · cases hs : q.l.status with
      | some n =>
        rw [show r.endLaunch q.c.launch stFault = r from State.endLaunch_ended hlr (by rw [hs]; rfl)]
        exact ⟨hwr, hr⟩
      | none =>
        have hgone := State.endLaunch_without stFault hlr hs hc hcl
        refine ⟨fun j x hj hjw _ => ?_, State.openBars_of_none hgone.cohort, .inr hgone.cohort⟩
        cases (hgone.no_thread (cohOf_of_warpOf hjw)).symm.trans hj
    · exact ⟨hwr, hr.bars, hr.left⟩

/-! ## A thread that passes its convergence point -/

theorem Thread.Changed.putInt {a b : Thread} (h : a.Changed b) (w64 signed sat : Bool) (d : Reg) (r : Int) :
    a.Changed (b.putInt w64 signed sat d r) := (h.wrW ..).orFlags _

theorem Thread.Changed.putF {a b : Thread} (h : a.Changed b) (d : Reg) (r : FRes) : a.Changed (b.putF d r) :=
  (h.wr ..).orFlags _

/-- A cross-lane instruction changes registers, predicates and flags of a participant only. -/
theorem laneEffect_changed (i : Instr) (ps : Parts) (e : Env) : e.th.Changed (laneEffect i ps e) := by
  have h := Thread.Changed.refl e.th
  cases i
  case shfl => exact h.wrW ..
  case vote h' form a m =>
    cases form
    case mask => exact h.wr ..
    all_goals exact h.setP ..
  case matchOp => exact h.wr ..
  case elane h' form m =>
    cases form
    case pred => exact h.setP ..
    case lane => exact h.wr ..
  case redw h' ty op sat rnd d a b m =>
    simp only [laneEffect, redwEffect]
    split
    · exact h.putInt ..
    · split
      · exact h.wr64 ..
      all_goals exact h.putF ..
  all_goals exact h

theorem Env.left_status (e : Env) (i : Instr) (ps : Parts) (c : ConvWait) : (e.left i ps c).status = e.th.status := by
  unfold Env.left
  rw [Thread.pass_status]
  split
  · rw [(laneEffect_changed i ps e).rest]
  · rfl

end Sys2Proof.Machine
end

section
/-! SUPPORT. The end of a thread at the barriers of its cohort and its groups (R37, R371), and the end of a cohort (R405). -/

namespace Sys2Proof.Machine

/-! ## The phase of a barrier completes -/

/-- The order of a thread k that waits in a phase, once it departs with the acquire that its arrival names. -/
def Thread.phaseOrd (y : Thread) (rels : Assoc Rel) (waits : List TStatus) (k : Nat) : Ord :=
  match aget rels k with
  | some r => if waits.contains y.status then y.ord.acquire r.insts (rels.map (·.2)) else y.ord
  | none => y.ord

theorem State.aget_acquirePhase (s : State) (rels : Assoc Rel) (waits : List TStatus) (k : Nat) :
    aget (s.acquirePhase rels waits).threads k =
      (aget s.threads k).map fun y => { y with ord := y.phaseOrd rels waits k } := by
  unfold State.acquirePhase
  rw [aget_map]
  · congr 1
    funext y
    unfold Thread.phaseOrd
    cases aget rels k with
    | none => rfl
    | some r =>
      dsimp only
      split <;> rfl
  · intro e
    cases aget rels e.1 with
    | none => rfl
    | some r =>
      dsimp only
      split <;> rfl

theorem State.aget_releaseIn (s : State) (coh : Nat) (wait : TStatus) (k : Nat) :
    aget (s.releaseIn coh wait).threads k = (aget s.threads k).map fun y =>
      { y with status := if cohOf k = coh ∧ y.status = wait then .ready else y.status } := by
  rw [State.releaseIn, aget_mapIf s.threads (fun e => cohOf e.1 = coh ∧ e.2.status = wait)
    (fun y => { y with status := .ready })]
  congr 1
  funext y
  split <;> rfl

theorem State.aget_releaseOf (s : State) (lid : Nat) (wait : TStatus) (k : Nat) :
    aget (s.releaseOf lid wait).threads k = (aget s.threads k).map fun y =>
      { y with status := if ((s.launchCohorts lid).map (·.1)).contains (cohOf k) = true ∧ y.status = wait then .ready
                         else y.status } := by
  rw [State.releaseOf, aget_mapIf s.threads
    (fun e => (((s.launchCohorts lid).map (·.1)).contains (cohOf e.1) && e.2.status == wait) = true)
    (fun y => { y with status := .ready })]
  congr 1
  funext y
  simp only [Bool.and_eq_true, beq_iff_eq]
  split <;> rfl

/-- Where statuses only become ready, a cohort with a thread left has one left. -/
theorem State.live_of_released {s t : State} {coh : Nat} (r : rising 0 s.threads = true) (h : s.allExited coh = false)
    {f : Nat → Thread → Thread} (ht : ∀ k, aget t.threads k = (aget s.threads k).map (f k))
    (hf : ∀ k y, y.status ≠ .exited → (f k y).status ≠ .exited) : t.allExited coh = false := by
  obtain ⟨k, v, hk, rfl, hv⟩ := State.live_of_allExited r h
  exact State.allExited_of_live (v := f k v) (by rw [ht, hk]; rfl) (hf k v hv)

/-! ## Named barriers -/

section
variable {s : State} {coh : Nat} {c : Cohort} {n : Nat} {x : NBar} {m : Word}

/-- The state in which the phase of named barrier n, whose record is x, has completed. -/
def State.barDone (s : State) (coh n : Nat) (x : NBar) : State :=
  ((s.acquirePhase x.rels [.named n x.phase, .token (.named n x.phase)]).modCohort coh fun c =>
    { c with bars := aset c.bars n { phase := x.phase + 1 } }).releaseIn coh (.named n x.phase)

theorem State.barDone_cohorts (s : State) (coh n : Nat) (x : NBar) : (s.barDone coh n x).cohorts =
    amod s.cohorts coh fun c => { c with bars := aset c.bars n { phase := x.phase + 1 } } := rfl

theorem State.barCheck_eq (hc : aget s.cohorts coh = some c) (hx : c.bar n = x) (hm : x.mask = some m) :
    State.barCheck coh s n = if s.barMet coh m x.arrived then s.barDone coh n x else s := by
  simp only [State.barCheck, hc, hx, hm]
  rfl

theorem State.aget_barDone (s : State) (coh n : Nat) (x : NBar) (k : Nat) :
    aget (s.barDone coh n x).threads k = (aget s.threads k).map fun y => { y with
      status := if cohOf k = coh ∧ y.status = .named n x.phase then .ready else y.status
      ord := y.phaseOrd x.rels [.named n x.phase, .token (.named n x.phase)] k } := by
  rw [State.barDone, State.aget_releaseIn]
  change (aget (s.acquirePhase _ _).threads k).map _ = _
  rw [State.aget_acquirePhase, Option.map_map]
  rfl

end

/-! ## Group barriers -/

section
variable {s : State} {lid g : Nat} {l : Launch}

/-- The state in which the phase of the barrier of group g, whose record is x, has completed. -/
def State.grpDone (s : State) (lid g : Nat) (x : GBar) : State :=
  ((s.acquirePhase x.rels [.grp g x.phase, .token (.grp g x.phase)]).modLaunch lid fun l =>
    { l with gbars := aset l.gbars g { phase := x.phase + 1 } }).releaseOf lid (.grp g x.phase)

theorem State.grpDone_launches (s : State) (lid g : Nat) (x : GBar) : (s.grpDone lid g x).launches =
    amod s.launches lid fun l => { l with gbars := aset l.gbars g { phase := x.phase + 1 } } := rfl

theorem State.grpCheck_eq (hl : aget s.launches lid = some l) (hs : l.status = none) (hg : (aget l.groups g).isSome = true)
    (hx : (l.gbar g).arrived ≠ []) :
    State.grpCheck lid s g = if s.groupMet lid g l (l.gbar g).arrived then s.grpDone lid g (l.gbar g) else s := by
  have he : (l.gbar g).arrived.isEmpty = false := by simpa using hx
  simp only [State.grpCheck, hl, hs, hg, he, Option.isNone_none, Bool.not_false, Bool.true_and]
  rfl

theorem State.aget_grpDone (s : State) (lid g : Nat) (x : GBar) (k : Nat) :
    aget (s.grpDone lid g x).threads k = (aget s.threads k).map fun y => { y with
      status := if ((s.launchCohorts lid).map (·.1)).contains (cohOf k) = true ∧ y.status = .grp g x.phase then .ready
                else y.status
      ord := y.phaseOrd x.rels [.grp g x.phase, .token (.grp g x.phase)] k } := by
  rw [State.grpDone, State.aget_releaseOf]
  change (aget (s.acquirePhase _ _).threads k).map _ = _
  rw [State.aget_acquirePhase, Option.map_map]
  rfl

/-- No thread waits at an XRED. -/
def State.NoColl (s : State) : Prop := ∀ j y, aget s.threads j = some y → ∀ a b p i, y.status ≠ .coll a b p i

/-- Without a thread that waits at an XRED no cohort contributes. -/
theorem State.contribute_none (r : rising 0 s.threads = true) (h : s.NoColl) (coh : Nat) :
    State.contribute lid g s coh = s := by
  have hh : s.collHead coh g = none := by
    refine List.findSome?_eq_none_iff.mpr fun e he => ?_
    have hst := h e.1 e.2 (aget_of_mem r (List.mem_filter.mp he).1)
    split
    · next heq => exact absurd heq (hst _ _ _ _)
    · rfl
  unfold State.contribute
  rw [hh]
  split
  · next heq => cases heq
  · rfl

/-- Without a collective that has begun there is nothing to test. -/
theorem State.collCheck_none (r : rising 0 s.threads = true) (h : s.NoColl) (hl : aget s.launches lid = some l)
    (hg : l.gcolls = []) : State.collCheck lid s g = s := by
  have hx : (l.gcoll g).contribs = [] := by rw [Launch.gcoll, hg]; rfl
  unfold State.collCheck
  rw [foldl_unchanged fun c _ => State.contribute_none r h c]
  simp only [hl, hx, List.isEmpty_nil, Bool.not_true, Bool.and_false, Bool.false_and, Bool.false_eq_true, if_false]

theorem State.rising_acquirePhase (rels : Assoc Rel) (waits : List TStatus) (r : rising 0 s.threads = true) :
    rising 0 (s.acquirePhase rels waits).threads = true := by
  rw [State.acquirePhase, rising_map, r]
  intro e
  cases aget rels e.1 with
  | none => rfl
  | some own =>
    dsimp only
    split <;> rfl

theorem State.rising_grpDone (x : GBar) (r : rising 0 s.threads = true) :
    rising 0 (s.grpDone lid g x).threads = true := by
  rw [State.grpDone, State.releaseOf, rising_map]
  · exact State.rising_acquirePhase _ _ r
  · intro e
    split <;> rfl

/-- A phase that completes leaves no thread at an XRED that was at none. -/
theorem State.NoColl.grpDone (h : s.NoColl) (x : GBar) : (s.grpDone lid g x).NoColl := by
  intro j y hj a b p i
  rw [State.aget_grpDone] at hj
  obtain ⟨y', hy', rfl⟩ := Option.map_eq_some_iff.mp hj
  dsimp only
  split
  · nofun
  · exact h j y' hy' a b p i

end

end Sys2Proof.Machine
end

section
/-! SUPPORT. SKIP, EXIT and THREAD_END (R61, R404, R405, R492). -/

namespace Sys2Proof.Machine

/-! ## SKIP and EXIT -/

/-- A SKIP shadow is among what an op may leave. -/
theorem Thread.Kept.withShadow {e : Env} {i : Instr} {v : Thread} {xs : List Reg} {ps : List Nat} {fl : BitVec 7}
    (h : Thread.Kept e i v xs ps fl) (sh : Option (Nat × Bool)) : Thread.Kept e i { v with shadow := sh } xs ps fl :=
  ⟨h.regs, h.preds, h.flags, h.pc, congrArg (fun u : Thread => { u with shadow := sh }) h.rest⟩

/-- SKIP passes whatever its guard (R492). -/
theorem skip_kept {e : Env} (h : Hdr) (n : BitVec 3) (hcl : e.th.Clear) (g : Bool) :
    Thread.Kept e (.skip h n) (e.th.pass e (.skip h n) g none) [] [] 0 := by
  cases g
  · exact Thread.pass_false_kept _ hcl
  · exact (Thread.pass_kept rfl hcl (.refl _) (fun _ _ => rfl) (fun _ _ => rfl) (by simp)).1

theorem exec_skip_passes {h : Hdr} {n : BitVec 3} {s : State} {e : Env} (he : s.env = some e)
    (hp : preCheck e (.skip h n) = none) : exec (.skip h n) s = .next (s.setThread e.tid
      { e.th.pass e (.skip h n) (e.th.guard h) none with shadow := some (n.toNat, e.th.guard h) }) := by
  simp only [exec_skip, execSkip, he, hp]

/-- The thread of EXIT has ended its expansion, and stands to end. -/
theorem Thread.endExp_exiting (e : Env) : { e.th.endExp with status := .exiting } =
    ({ if e.th.exp.isSome then e.th.dropTemps else e.th with
        status := .exiting, exp := none, commits := e.th.commits ++ e.buffered } : Thread) := by
  cases hx : e.th.exp with
  | none => simp [Thread.endExp, hx, Env.buffered]
  | some x => simp [Thread.endExp, hx, Env.buffered, Thread.dropTemps]

/-- EXIT whose operations have retired stands to end, or takes its turn for the token (R404). -/
theorem exec_exit {h : Hdr} {s : State} {e : Env} (hx : s.Executes e (.exit h)) (hc : s.coverOf e.th.out = .clear)
    (hf : s.fetching e.tid = false) : exec (.exit h) s = .next (s.modThread e.tid fun t =>
      if e.needsToken then { t with status := .token .always } else { t.endExp with status := .exiting }) := by
  rw [show exec (.exit h) s = execExit h s from rfl, execExit, guarded]
  simp only [hx.env, hx.checks, hx.active, if_true, hc, hf, Bool.false_eq_true, if_false]
  split <;> rfl

/-! ## The thread has exited -/

theorem filter_aset {α : Type} (m : Assoc α) (k : Nat) (v : α) {p : Nat × α → Bool} (hp : ∀ u, p (k, u) = false) :
    (aset m k v).filter p = m.filter p := by
  induction m with
  | nil => simp [aset, hp]
  | cons e t ih =>
    rw [aset]
    split_ifs with h1 h2
    · simp [hp]
    · have he : p e = false := by
        rw [← hp e.2, h2]
      simp [hp, he]
    · rw [List.filter_cons, List.filter_cons, ih]

/-- The state in which thread tid, which was u, has exited, and what it did comes before the completion signal (R75). -/
def State.exitOf (s : State) (tid : Nat) (u : Thread) (c : Cohort) : State :=
  { s.setThread tid { status := .exited } with
    launches := amod s.launches c.launch fun l => { l with endView := joinView l.endView u.completed } }

section
variable {s : State} {tid : Nat} {u : Thread} {c : Cohort} {core : Nat}

theorem exec_threadEnd (hu : aget s.threads tid = some u) (hst : u.status = .exiting)
    (hc : aget s.cohorts (cohOf tid) = some c) (hcore : c.core = some core) :
    exec (.threadEnd tid) s = .next ((s.exitOf tid u c).afterExit tid) := by
  rw [show exec (.threadEnd tid) s = execThreadEnd tid s from rfl]
  simp only [execThreadEnd, hu, hst, hc, Option.bind_some, hcore, State.endsBefore]
  rfl

theorem State.exitOf_self (s : State) (tid : Nat) (u : Thread) (c : Cohort) :
    aget (s.exitOf tid u c).threads tid = some { status := .exited } := aget_aset_same ..

theorem State.exitOf_other (s : State) {tid : Nat} (u : Thread) (c : Cohort) {k : Nat} (h : k ≠ tid) :
    aget (s.exitOf tid u c).threads k = aget s.threads k := aget_aset_other _ _ h

theorem State.rising_exitOf (h : rising 0 s.threads = true) : rising 0 (s.exitOf tid u c).threads = true :=
  rising_aset _ h (Nat.zero_le _)

/-- The thread that has exited waits no more. -/
theorem State.waitsAlone_exitOf {k : Nat}
    (h : ∀ j x, aget s.threads j = some x → warpOf j = warpOf tid → j ≠ k → x.conv = none) :
    (s.exitOf tid u c).WaitsAlone (warpOf tid) k := fun j x hj hw hne => by
  by_cases hjt : j = tid
  · rw [hjt, State.exitOf_self] at hj
    cases hj
    rfl
  · rw [State.exitOf_other _ _ _ hjt] at hj
    exact h j x hj hw hne

theorem State.noWaiter_exitOf (h : ¬ ∃ k v, aget s.threads k = some v ∧ warpOf k = warpOf tid ∧ v.conv ≠ none) :
    (s.exitOf tid u c).NoWaiter (warpOf tid) := fun j x hj hw => by
  by_cases hjt : j = tid
  · rw [hjt, State.exitOf_self] at hj
    cases hj
    rfl
  · rw [State.exitOf_other _ _ _ hjt] at hj
    by_contra hne
    exact h ⟨j, x, hj, hw, hne⟩

theorem State.noColl_exitOf (h : s.NoColl) : (s.exitOf tid u c).NoColl := fun j y hj a b p i he => by
  by_cases hjt : j = tid
  · rw [hjt, State.exitOf_self] at hj
    rw [← Option.some.inj hj] at he
    cases he
  · rw [State.exitOf_other _ _ _ hjt] at hj
    exact h j y hj a b p i he

end

/-! ## No thread waits -/

section
variable {s : State} {tid : Nat} {c : Cohort}

/-- Without a barrier, a group or a waiting thread nothing comes of the exit while a thread of the cohort is left. -/
theorem State.afterExit_none (hc : aget s.cohorts (cohOf tid) = some c) (hb : c.bars = []) (hg : c.groups = [])
    (hw : s.NoWaiter (warpOf tid)) (hl : s.allExited (cohOf tid) = false) : s.afterExit tid = s := by
  have hq := State.recheckWarp_quiet hw
  rw [State.afterExit_calm hc hg, hq]
  rw [hq]
  exact ⟨State.openBars_of_nil hc hb, .inl hl⟩

/-- The last thread of a cohort takes the cohort with it (R405). -/
theorem State.afterExit_last (hc : aget s.cohorts (cohOf tid) = some c) (hb : c.bars = []) (hg : c.groups = [])
    (hw : s.NoWaiter (warpOf tid)) (hl : s.allExited (cohOf tid) = true) :
    s.afterExit tid = s.releaseCohort (cohOf tid) := by
  have hbars : s.openBars (cohOf tid) = [] := State.openBars_of_nil hc hb
  rw [State.afterExit_eq hc, State.recheckWarp_quiet hw, hbars, hg, List.foldl_nil, State.groupsCheck_nil]
  dsimp only
  rw [hl]
  rfl

/-- A cohort of no group is released: it and its threads go, its stash is written back, and all other cohorts stand. -/
theorem State.releaseCohort_spec {coh : Nat} (hc : aget s.cohorts coh = some c) (hg : c.groups = []) :
    let t := s.releaseCohort coh
    aget t.cohorts coh = none ∧ t.threads = s.threads.filter (fun k => cohOf k.1 != coh) ∧
      t.mem = (s.writeBack (s.cohPid c) (c.lines.map (·.2))).mem ∧ t.launches = s.launches ∧
      ∀ k, k ≠ coh → aget t.cohorts k = aget s.cohorts k := by
  have ht : s.releaseCohort coh = (s.dropCohort coh).fixRotation.modLaunch c.launch fun l => l := by
    simp only [State.releaseCohort, hc, hg]
    rfl
  have hcoh : (s.releaseCohort coh).cohorts = adel s.cohorts coh := by
    rw [ht]
    exact s.dropCohort_cohorts coh
  refine ⟨?_, ?_, ?_, ?_, fun k hk => ?_⟩
  · rw [hcoh, aget_adel_same]
  · rw [ht]
    exact s.dropCohort_threads coh
  · rw [ht]
    change (s.dropCohort coh).mem = _
    rw [State.dropCohort, hc]
  · rw [ht]
    change amod (s.dropCohort coh).launches c.launch (fun l => l) = _
    rw [State.dropCohort_launches, amod]
    simp
  · rw [hcoh, aget_adel_other _ hk]

/-- Threads and launches leave a write-back what it is. -/
theorem State.writeBack_withLaunches (s : State) (pid : Nat) (ls : List StashLine) (ts : Assoc Thread) (js : Assoc Launch) :
    State.writeBack { s with threads := ts, launches := js } pid ls =
      { s.writeBack pid ls with threads := ts, launches := js } := by
  induction ls generalizing s with
  | nil => rfl
  | cons l t ih =>
    have one : State.writeBack { s with threads := ts, launches := js } pid [l] =
        { s.writeBack pid [l] with threads := ts, launches := js } := by
      have down : State.linkDown { s with threads := ts, launches := js } = s.linkDown := rfl
      have pick : State.pick { s with threads := ts, launches := js } 2 =
          ((s.pick 2).1, { (s.pick 2).2 with threads := ts, launches := js }) := rfl
      simp only [State.writeBack, List.foldl_cons, List.foldl_nil, down, pick]
      split_ifs <;> rfl
    rw [writeBack_cons, writeBack_cons s, one, ih]

end

/-! ## One thread waits at a convergence point -/

section
variable {s : State} {tid k : Nat} {c : Cohort} {v : Thread} {w : ConvWait} {q : Env}
variable (hc : aget s.cohorts (cohOf tid) = some c) (hb : c.bars = []) (hg : c.groups = [])
variable (r : rising 0 s.threads = true) (hk : aget s.threads k = some v) (hv : v.conv = some w)
variable (hkw : warpOf k = warpOf tid) (ha : s.WaitsAlone (warpOf k) k)
include hc hb hg r hk hv hkw ha

/-- At a matrix instruction it takes ILLEGAL_OPERAND (R56). -/
theorem State.afterExit_matrix (hm : Instr.isMatrix w.op = true)
    (hq : (s.modThread k Thread.leave).envOf k w.pers = some q) : s.afterExit tid =
      (s.modThread k Thread.leave).takeFault q (Instr.isLong w.op) (opFault .illegalOperand) := by
  have hcoh : cohOf k = cohOf tid := cohOf_of_warpOf hkw
  have hbars : (s.modThread k Thread.leave).openBars (cohOf k) = [] := by
    rw [hcoh]
    exact State.openBars_of_nil hc hb
  have hk' : aget (s.modThread k Thread.leave).threads k = some v.leave := by
    rw [State.modThread_threads, aget_amod_same, hk]
    rfl
  obtain ⟨halone, hcalm⟩ := State.takeFault_calm (Instr.isLong w.op) hk' hq hbars (ha.modThread _)
  have hl := State.recheckLane_matrix r hk hv ha hm hq
  have hx := (State.recheckWarp_one ha (hl ▸ halone)).trans hl
  rw [State.afterExit_calm hc hg, ← hkw, hx]
  rw [← hkw, hx, ← hcoh]
  exact hcalm

/-- Elsewhere it passes where no lane of its mask is missing (R54). -/
theorem State.afterExit_passes (hm : Instr.isMatrix w.op = false)
    (hq : (s.modThread k Thread.leave).envOf k w.pers = some q) (hall : s.allArrived (warpOf tid) w.mask [(k, w)] = true) :
    s.afterExit tid = runInstance w.op [(k, w)] s := by
  have hcoh : cohOf k = cohOf tid := cohOf_of_warpOf hkw
  have hbec := State.runInstance_one hm hq
  have hst : (q.left w.op [q] w).status = .ready := by
    rw [Env.left_status]
    obtain ⟨q0, -, rfl⟩ := Option.map_eq_some_iff.mp ((State.envOf_modThread ..).symm.trans hq)
    rfl
  have hl := State.recheckLane_lanes r hk hv ha hm
  rw [hkw, if_pos hall] at hl
  have halone : (runInstance w.op [(k, w)] s).WaitsAlone (warpOf k) k := fun j x hj hw hne =>
    ha j x (hbec.others j hne ▸ hj) hw hne
  have hx := (State.recheckWarp_one ha (by rw [hkw, hl, ← hkw]; exact halone)).trans (by rw [hkw, hl])
  rw [hkw] at hx
  rw [State.afterExit_calm hc hg, hx]
  rw [hx]
  refine ⟨?_, .inl ?_⟩
  · rw [hbec.rest]
    exact State.openBars_of_nil hc hb
  · rw [← hcoh]
    exact State.allExited_of_live hbec.thread (by rw [hst]; nofun)

/-- Where a lane of its mask is missing it waits on (R54). -/
theorem State.afterExit_waits (hm : Instr.isMatrix w.op = false)
    (hall : s.allArrived (warpOf tid) w.mask [(k, w)] = false) (hl : s.allExited (cohOf tid) = false) :
    s.afterExit tid = s := by
  have hl' := State.recheckLane_lanes r hk hv ha hm
  rw [hkw, hall, if_neg Bool.false_ne_true] at hl'
  have hx := (State.recheckWarp_one ha (by rw [hkw, hl', ← hkw]; exact ha)).trans (by rw [hkw, hl'])
  rw [hkw] at hx
  rw [State.afterExit_calm hc hg, hx]
  rw [hx]
  exact ⟨State.openBars_of_nil hc hb, .inl hl⟩

end

/-! ## A barrier is open -/

section
variable {s : State} {tid : Nat} {c : Cohort}
variable (hc : aget s.cohorts (cohOf tid) = some c) (hw : s.NoWaiter (warpOf tid))
variable (hl : s.allExited (cohOf tid) = false)
include hc hw hl

/-- The phase of the one open barrier of the cohort completes, where no arrival is missing (R371). -/
theorem State.afterExit_bar (r : rising 0 s.threads = true) {n : Nat} {x : NBar} {m : Word} (hb : c.bars = [(n, x)])
    (hg : c.groups = []) (hm : x.mask = some m) :
    s.afterExit tid = if s.barMet (cohOf tid) m x.arrived then s.barDone (cohOf tid) n x else s := by
  have hbar : c.bar n = x := by simp [Cohort.bar, hb, aget]
  have hlive : (if s.barMet (cohOf tid) m x.arrived then s.barDone (cohOf tid) n x else s).allExited (cohOf tid) = false := by
    split
    · refine State.live_of_released r hl (State.aget_barDone s _ n x) fun k y hy => ?_
      dsimp only
      split
      · nofun
      · exact hy
    · exact hl
  rw [State.afterExit_eq hc, State.recheckWarp_quiet hw, State.openBars_of_some hc, hb, hg, State.groupsCheck_nil]
  simp only [List.map_cons, List.map_nil, List.foldl_cons, List.foldl_nil]
  rw [State.barCheck_eq hc hbar hm, hlive]
  rfl

/-- The phase of the one group barrier completes, where no arrival is missing (R37). -/
theorem State.afterExit_grp (r : rising 0 s.threads = true) {g : Nat} {l : Launch} (hb : c.bars = []) (hg : c.groups = [g])
    (hlid : aget s.launches c.launch = some l) (hs : l.status = none) (hgr : (aget l.groups g).isSome = true)
    (hcs : l.gcolls = []) (hno : s.NoColl) (hx : (l.gbar g).arrived ≠ []) :
    s.afterExit tid =
      if s.groupMet c.launch g l (l.gbar g).arrived then s.grpDone c.launch g (l.gbar g) else s := by
  have hcoll : State.collCheck c.launch
      (if s.groupMet c.launch g l (l.gbar g).arrived then s.grpDone c.launch g (l.gbar g) else s) g =
        if s.groupMet c.launch g l (l.gbar g).arrived then s.grpDone c.launch g (l.gbar g) else s := by
    split
    · refine State.collCheck_none (l := { l with gbars := aset l.gbars g { phase := (l.gbar g).phase + 1 } })
        (State.rising_grpDone _ r) (hno.grpDone _) ?_ hcs
      rw [State.grpDone_launches, aget_amod_same, hlid]
      rfl
    · exact State.collCheck_none r hno hlid hcs
  have hlive : (if s.groupMet c.launch g l (l.gbar g).arrived then s.grpDone c.launch g (l.gbar g) else s).allExited
      (cohOf tid) = false := by
    split
    · refine State.live_of_released r hl (State.aget_grpDone s _ g _) fun k y hy => ?_
      dsimp only
      split
      · nofun
      · exact hy
    · exact hl
  rw [State.afterExit_eq hc, State.recheckWarp_quiet hw, State.openBars_of_some hc, hb, hg]
  simp only [State.groupsCheck, List.map_nil, List.foldl_cons, List.foldl_nil]
  rw [State.grpCheck_eq hlid hs hgr hx, hcoll, hlive]
  rfl

end

/-- Settles O28: the exit of a thread changes its own entry and what was written before its end, and then each of the
things that other threads may wait for is tested once. -/
theorem skipsAndEnds : Obligations.SkipsAndEnds := by
  unfold Obligations.SkipsAndEnds
  refine ⟨fun h n s e he hp hcl => ?_, fun h s e hx hcov hf => ?_, fun tid s u c core hu hst hc hcore hr => ?_⟩
  · exact ⟨_, _, exec_skip_passes he hp, s.becomes_set _ _, (skip_kept h n hcl _).withShadow _, rfl⟩
  · obtain ⟨hth, -⟩ := State.env_some hx.env
    refine ⟨_, exec_exit hx hcov hf, ?_⟩
    have hb := s.becomes_mod (fun t => if e.needsToken then { t with status := .token .always }
      else { t.endExp with status := .exiting }) hth
    rwa [Thread.endExp_exiting] at hb
  intro done s1 waiters
  have hexec : exec (.threadEnd tid) s = .next (s1.afterExit tid) := exec_threadEnd hu hst hc hcore
  have hr1 : rising 0 s1.threads = true := State.rising_exitOf hr
  have hc1 : aget s1.cohorts (cohOf tid) = some c := hc
  have hnw : ¬ waiters → s1.NoWaiter (warpOf tid) := State.noWaiter_exitOf
  refine ⟨fun hb hg hw => ⟨fun hl => ?_, fun hl => ?_⟩, fun hl => ⟨fun k v w q hb hg hk hv hkt hkw ha hq => ?_,
    fun n x m hb hg hw hm => ?_, fun g l hb hg hw hlid hs hgr hcs hno => ?_⟩⟩
  · refine ⟨s1, by rw [hexec, State.afterExit_none hc1 hb hg (hnw hw) hl], rfl, State.exitOf_self .., fun k hk => ?_⟩
    exact State.exitOf_other _ _ _ hk
  · obtain ⟨hcoh, hth, hmem, hla, hoth⟩ := State.releaseCohort_spec hc1 hg
    have hwb := congrArg State.mem
      (s.writeBack_withLaunches (s.cohPid c) (c.lines.map (·.2)) s1.threads s1.launches)
    refine ⟨_, by rw [hexec, State.afterExit_last hc1 hb hg (hnw hw) hl], hcoh, hth.trans ?_, hmem.trans hwb, hla, hoth⟩
    exact filter_aset _ _ _ fun _ => by simp
  · have hk1 : aget s1.threads k = some v := (State.exitOf_other _ _ _ hkt).trans hk
    have ha1 : s1.WaitsAlone (warpOf k) k := hkw ▸ State.waitsAlone_exitOf ha
    refine ⟨fun hm => ?_, fun hm hall => ?_, fun hm hall => ?_⟩
    · rw [hexec, State.afterExit_matrix hc1 hb hg hr1 hk1 hv hkw ha1 hm hq]
    · exact ⟨_, by rw [hexec, State.afterExit_passes hc1 hb hg hr1 hk1 hv hkw ha1 hm hq hall],
        State.runInstance_one hm hq⟩
    · rw [hexec, State.afterExit_waits hc1 hb hg hr1 hk1 hv hkw ha1 hm hall hl]
  · intro met
    have hx : exec (.threadEnd tid) s = .next (if met then s1.barDone (cohOf tid) n x else s1) := by
      rw [hexec, State.afterExit_bar hc1 (hnw hw) hl hr1 hb hg hm]
    clear_value met
    cases met
    · exact ⟨_, hx, rfl, hc, fun _ _ => rfl, fun _ => by simp⟩
    · refine ⟨_, hx, rfl, ?_, fun k hk => ?_, fun k => (State.aget_barDone ..).trans ?_⟩
      · rw [if_pos rfl, State.barDone_cohorts, aget_amod_same, hc1, Option.map_some, hb]
        simp [aset]
      · exact (congrArg (aget · k) (s1.barDone_cohorts (cohOf tid) n x)).trans (aget_amod_other _ _ hk)
      · congr 1
        funext y
        unfold Thread.phaseOrd
        cases aget x.rels k <;> simp
  · intro x hx met
    have hex : exec (.threadEnd tid) s = .next (if met then s1.grpDone c.launch g x else s1) := by
      rw [hexec, State.afterExit_grp hc1 (hnw hw) hl hr1 hb hg hlid hs hgr hcs (State.noColl_exitOf hno) hx]
    have hoth : ∀ k, k ≠ c.launch → aget s1.launches k = aget s.launches k := fun k hk => aget_amod_other _ _ hk
    clear_value met
    cases met
    · exact ⟨_, hex, rfl, hlid, hoth, fun _ => by simp⟩
    · refine ⟨_, hex, rfl, ?_, fun k hk => ?_, fun k => (State.aget_grpDone ..).trans ?_⟩
      · rw [if_pos rfl, State.grpDone_launches, aget_amod_same, hlid]
        rfl
      · exact (congrArg (aget · k) (s1.grpDone_launches c.launch g x)).trans
          ((aget_amod_other _ _ hk).trans (hoth k hk))
      · congr 1
        funext y
        rw [show s1.launchCohorts c.launch = s.launchCohorts c.launch from rfl]
        unfold Thread.phaseOrd
        cases aget x.rels k <;> simp

end Sys2Proof.Machine
end

section
/-! SUPPORT. Requests of idle cores for work, and the splits and range loads that serve them (R81 to R83). -/

namespace Sys2Proof.Machine

theorem exec_workRequest (core launch : Nat) (s : State) :
    exec (.workRequest core launch) s = execWorkRequest core launch s := rfl

theorem exec_split (sec slot core : Nat) (s : State) : exec (.split sec slot core) s = execSplit sec slot core s := rfl

/-! ## Walkers -/

theorem State.mem_walkersOf {s : State} {lid sec : Nat} {w : Walker} :
    w ∈ s.walkersOf lid sec ↔ w ∈ s.walkers ∧ w.launch = lid ∧ w.sec = sec := by
  simp [State.walkersOf, mem_sortBy]

theorem mostLeft_mem {ws : List Walker} {w : Walker} (h : mostLeft ws = some w) : w ∈ ws :=
  mem_sortBy.mp (List.mem_of_head? h)

/-- The middle of a split of x indices from c on (R82). -/
theorem splitMid_eq (w : Walker) (g : Nat) :
    splitMid w g = w.cursor + g * ((w.limit - w.cursor + (2 * g - 1)) / (2 * g)) := by
  unfold splitMid ceilDiv
  obtain rfl | hg := Nat.eq_zero_or_pos g
  · simp
  · rw [Nat.add_sub_assoc (by omega)]

/-- A split leaves both halves some indices, the first a whole number of grains and at least half of them (R82). -/
theorem split_bounds {c l g : Nat} (hg : 0 < g) (hx : 2 * g ≤ l - c) :
    let mid := c + g * ((l - c + (2 * g - 1)) / (2 * g))
    c < mid ∧ mid < l ∧ (mid - c) % g = 0 ∧ l - c ≤ 2 * (mid - c) ∧ 2 * (mid - c) < l - c + 2 * g := by
  intro mid
  have hdiv := Nat.div_add_mod (l - c + (2 * g - 1)) (2 * g)
  have hmod := Nat.mod_lt (l - c + (2 * g - 1)) (show 0 < 2 * g by omega)
  have hhalf : mid - c = g * ((l - c + (2 * g - 1)) / (2 * g)) := Nat.add_sub_cancel_left ..
  rw [Nat.mul_assoc, ← hhalf] at hdiv
  refine ⟨?_, ?_, by rw [hhalf, Nat.mul_mod_right], ?_, ?_⟩ <;> omega

/-! ## Requests -/

/-- The launch that an idle core asks for stands in the table, and the core's request for it stands (R81). -/
theorem State.askedLaunch_some {s : State} {core lid : Nat} {l : Launch} (h : s.askedLaunch core = some (lid, l)) :
    s.walked l = true ∧ l.pid = s.pidOf (secOfCore core) ∧ s.idleFor core lid l = true := by
  have hmine : (lid, l) ∈ s.launches.filter fun l =>
      s.walked l.2 && l.2.pid == s.pidOf (secOfCore core) && s.idleFor core l.1 l.2 := by
    unfold State.askedLaunch at h
    dsimp only at h
    split at h
    · next hs =>
      cases h
      exact (List.mem_filter.mp (mem_sortBy.mp (hs ▸ List.mem_cons_self))).1
    · exact (List.mem_filter.mp (mem_sortBy.mp (List.mem_of_head? h))).1
  simp only [List.mem_filter, Bool.and_eq_true, beq_iff_eq] at hmine
  exact ⟨hmine.2.1.1, hmine.2.1.2, hmine.2.2⟩

theorem State.workStands_asked {s : State} {core lid : Nat} {l : Launch} (h : s.askedLaunch core = some (lid, l))
    (hl : aget s.launches lid = some l) : s.workStands { core := core, launch := lid } = true := by
  obtain ⟨hw, hp, hi⟩ := State.askedLaunch_some h
  simp only [State.workStands, hl, hw, hp, hi, beq_self_eq_true, Bool.and_self]

/-- Requests change nothing of what makes a request stand. -/
theorem State.workStands_withWorks (s : State) (ws : List WorkReq) (r : WorkReq) :
    State.workStands { s with works := ws } r = s.workStands r := rfl

/-- A section with one request, which stands, serves it if it can; else it waits (R81, R83). -/
theorem State.serveSection_one {s : State} {r : WorkReq} {l : Launch} (hr : s.workStands r = true)
    (hl : aget s.launches r.launch = some l) :
    State.serveSection { s with works := [r] } (secOfCore r.core) =
      (State.serveWork { s with works := [] } r.core r.launch l).getD { s with works := [r] } := by
  have hf : [r].filter (State.workStands { s with works := [r] }) = [r] := by
    rw [List.filter_cons_of_pos (by rw [workStands_withWorks, hr]), List.filter_nil]
  have hn : [r].filter (fun x => x != r) = [] := by simp
  simp only [State.serveSection, hf, beq_self_eq_true, List.filter_cons_of_pos, List.filter_nil, State.serveFirst, hl,
    Option.bind_some, hn]
  cases State.serveWork { s with works := [] } r.core r.launch l <;> rfl

section request
variable {core launch : Nat} {s : State} {l : Launch}
variable (ha : s.askedLaunch core = some (launch, l)) (hl : aget s.launches launch = some l)
include ha hl

/-- WORK_REQUEST of a core, where no request waits. -/
theorem exec_workRequest_serves (hw : s.works = []) : exec (.workRequest core launch) s =
    .next ((State.serveWork { s with works := [] } core launch l).getD
      { s with works := [{ core := core, launch := launch }] }) := by
  have hn : s.asksFor core = false := by simp only [State.asksFor, hw, List.any_nil]
  have hs := State.serveSection_one (State.workStands_asked ha hl) hl
  simp only [exec_workRequest, execWorkRequest, ha, hn, hw, List.nil_append, decide_true, Bool.not_false, Bool.and_self,
    if_true, event]
  exact congrArg _ hs

/-- SPLIT of the walker of the section that has the most indices left, for the one core that waits. -/
theorem exec_split_serves {w : Walker} (hm : mostLeft (s.walkersOf launch (secOfCore core)) = some w)
    (hw : s.works = [{ core := core, launch := launch }])
    (hf : (s.walkers.find? fun x => x.sec == w.sec && x.slot == w.slot) = some w) :
    exec (.split w.sec w.slot core) s = .next ((State.serveWork { s with works := [] } core launch l).getD
      { s with works := [{ core := core, launch := launch }] }) := by
  obtain ⟨-, hlid, hsec⟩ := State.mem_walkersOf.mp (mostLeft_mem hm)
  have hs := State.serveSection_one (State.workStands_asked ha hl) hl
  have he : { s with works := [{ core := core, launch := launch }] } = s := by rw [← hw]
  rw [he] at hs ⊢
  rw [hsec] at hf ⊢
  simp only [exec_split, execSplit, hf, hw, List.find?_cons, beq_self_eq_true, hl, hlid, if_true, hm, decide_true,
    Bool.and_self, event]
  exact congrArg _ hs

end request

/-! ## The service of a request -/

/-- A pending range of the section is loaded where a slot is free (R81). -/
theorem State.serveWork_range {s : State} {core lid slot : Nat} {l : Launch} {p : PendRange} {rest : List Nat}
    (hp : l.lowPend (secOfCore core) = some p) (hf : s.freeSlotsOf (secOfCore core) lid = slot :: rest) :
    s.serveWork core lid l = some (s.loadRange lid p slot core) := by
  simp only [State.serveWork, hp, hf]

/-- Without one, the walker with the most indices of the section is split, if it can be (R81, R82). -/
theorem State.serveWork_split {s : State} {core lid : Nat} {l : Launch} {w : Walker}
    (hp : l.lowPend (secOfCore core) = none) (hm : mostLeft (s.walkersOf lid (secOfCore core)) = some w) :
    s.serveWork core lid l = (s.freeSlotsOf (secOfCore core) lid).head?.bind fun slot =>
      if 2 * l.rc.grain ≤ w.limit - w.cursor then some (s.splitWalker w l.rc.grain (secOfCore core) slot core) else none := by
  have hne : (s.walkersOf lid (secOfCore core)).isEmpty = false :=
    List.isEmpty_eq_false_iff_exists_mem.mpr ⟨w, mostLeft_mem hm⟩
  simp only [State.serveWork, hp, hne, Bool.false_eq_true, if_false, State.localSplit, hm]
  cases s.freeSlotsOf (secOfCore core) lid <;> simp [splitOk]

/-! ## The statement -/

/-- Settles O36: the core's request is the only one of its section, and the service of it comes to a split or to a wait. -/
theorem walkerSplits : Obligations.WalkerSplits := by
  unfold Obligations.WalkerSplits
  refine ⟨fun core launch s l w i => ?_, fun c l g => split_bounds⟩
  intro sec x g mid ask ha hl hp hm hi
  have hserve : exec i s = .next ((State.serveWork { s with works := [] } core launch l).getD { s with works := [ask] }) := by
    rcases hi with ⟨rfl, hw⟩ | ⟨rfl, hw, hf⟩
    · exact exec_workRequest_serves ha hl hw
    · exact exec_split_serves ha hl hm hw hf
  rw [hserve, State.serveWork_split (s := { s with works := [] }) hp hm]
  have hfree : State.freeSlotsOf { s with works := [] } (secOfCore core) launch = s.freeSlotsOf sec launch := rfl
  rw [hfree]
  refine ⟨fun hx => ?few, fun _ hslot => ?noSlot, fun slot rest hx hslot => ?splits⟩
  case few =>
    have hn : ¬ 2 * l.rc.grain ≤ w.limit - w.cursor := Nat.not_le.mpr hx
    simp only [if_neg hn]
    cases (s.freeSlotsOf sec launch).head? <;> rfl
  case noSlot => rw [hslot]; rfl
  case splits =>
    obtain ⟨-, hlid, -⟩ := State.mem_walkersOf.mp (mostLeft_mem hm)
    have hy : 2 * l.rc.grain ≤ w.limit - w.cursor := hx
    rw [hslot, List.head?_cons, Option.bind_some, if_pos hy, Option.getD_some, State.splitWalker, hlid, splitMid_eq]

end Sys2Proof.Machine
end

section
/-! SUPPORT. Bytes that the module's units and threads put into a scratchpad (R227, R228, R253). -/

namespace Sys2Proof.Machine

/-! ## Stage rings -/

/-- Bytes inside one aligned 128-byte unit reach the control block of one stage ring at most (Table 10-6). -/
theorem State.putSp_unit (s : State) (coh : Nat) {a : Nat} {bs : List Byte} (hpos : 0 < bs.length)
    (hfit : a % 128 + bs.length ≤ 128) : s.putSp coh a bs =
      if a < 1024 then (s.setSp coh a bs).ringStore coh (a / 128) a bs.length (s.spOf coh) else s.setSp coh a bs := by
  split
  · next ha =>
    have hone : ((List.range 8).filter fun r => decide (128 * r < a + bs.length) && decide (a < 128 * (r + 1))) =
        (List.range 8).filter fun r => r == a / 128 := by
      refine List.filter_congr fun r _ => ?_
      rw [Bool.eq_iff_iff]
      simp only [Bool.and_eq_true, decide_eq_true_eq, beq_iff_eq]
      omega
    have hring : ∀ q, q < 8 → (List.range 8).filter (fun r => r == q) = [q] := by decide
    unfold State.putSp
    rw [hone, hring _ (by omega)]
    rfl
  · next ha => exact State.putSp_above_rings s coh (Nat.not_lt.mp ha) bs

/-- A store to the control block of a ring that the cohort does not use can break the ring and no more (R228). -/
theorem State.ringStore_unused {s : State} {coh r : Nat} {c : Cohort} (hc : aget s.cohorts coh = some c)
    (hr : c.rings.contains r = false) (a n : Nat) (before : Sparse 8) :
    ∃ f : List Nat → List Nat, s.ringStore coh r a n before = s.modCohort coh fun c => { c with broken := f c.broken } := by
  have hid : s = s.modCohort coh fun c => { c with broken := id c.broken } := by
    simp [State.modCohort, amod]
  simp only [State.ringStore, hc, hr, Bool.not_false, if_true]
  split
  · exact ⟨insertNat r, rfl⟩
  · exact ⟨id, hid⟩

/-- State t is s with bytes of a cohort's scratchpad written, and with stage rings of the cohort broken or not. -/
structure State.Puts (s t : State) (coh a : Nat) (bs : List Byte) : Prop where
  rest : t = { s with cohorts := t.cohorts }
  cohort : ∀ c, aget s.cohorts coh = some c → ∃ b, aget t.cohorts coh = some { c with sp := swrite c.sp a bs, broken := b }
  others : ∀ k, k ≠ coh → aget t.cohorts k = aget s.cohorts k

theorem State.putSp_unused {s : State} {coh a : Nat} {c : Cohort} {bs : List Byte} (hc : aget s.cohorts coh = some c)
    (hr : c.rings.contains (a / 128) = false) (hpos : 0 < bs.length) (hfit : a % 128 + bs.length ≤ 128) :
    s.Puts (s.putSp coh a bs) coh a bs := by
  have hset : aget (s.setSp coh a bs).cohorts coh = some { c with sp := swrite c.sp a bs } := by
    rw [State.setSp, modCohort_cohorts, aget_amod_same, hc, Option.map_some]
  rw [State.putSp_unit s coh hpos hfit]
  split
  · obtain ⟨f, hf⟩ := State.ringStore_unused hset hr a bs.length (s.spOf coh)
    rw [hf]
    refine ⟨rfl, fun x hx => ⟨f x.broken, ?_⟩, fun k hk => ?_⟩
    · cases hc.symm.trans hx
      rw [modCohort_cohorts, aget_amod_same, hset, Option.map_some]
    · rw [modCohort_cohorts, aget_amod_other _ _ hk, State.setSp, modCohort_cohorts, aget_amod_other _ _ hk]
  · refine ⟨rfl, fun x hx => ⟨x.broken, ?_⟩, fun k hk => ?_⟩
    · cases hc.symm.trans hx
      rw [hset]
    · rw [State.setSp, modCohort_cohorts, aget_amod_other _ _ hk]

end Sys2Proof.Machine
end

section
/-! SUPPORT. The pool of walkers: what its operations change, range loads (R81), and answers to FETCHW (R85 to R89). -/

namespace Sys2Proof.Machine

theorem exec_withdrawal (id : Nat) (s : State) : exec (.withdrawal id) s = execWithdrawal id s := rfl

/-! ## What the pool changes -/

/-- State t is s but for walkers, requests for work, launches and free choices. -/
structure State.Pooled (s t : State) : Prop where
  rest : t = { s with launches := t.launches, walkers := t.walkers, works := t.works, free := t.free }

theorem State.Pooled.refl (s : State) : s.Pooled s := ⟨rfl⟩

theorem State.Pooled.trans {a b c : State} (h : a.Pooled b) (g : b.Pooled c) : a.Pooled c := by
  refine ⟨?_⟩
  rw [g.rest, h.rest]

theorem State.Pooled.foldl {α : Type} {f : State → α → State} (hf : ∀ (s : State) (x : α), s.Pooled (f s x)) (xs : List α)
    (s : State) : s.Pooled (xs.foldl f s) :=
  List.foldlRecOn (motive := s.Pooled) xs f (.refl s) fun t ht x _ => ht.trans (hf t x)

theorem State.loadRange_pooled (s : State) (lid : Nat) (p : PendRange) (slot core : Nat) :
    s.Pooled (s.loadRange lid p slot core) := ⟨rfl⟩

theorem State.refillSlot_pooled (s : State) (sec slot : Nat) : s.Pooled (s.refillSlot sec slot) := by
  unfold State.refillSlot
  split
  · exact .refl s
  · split_ifs
    · split <;> exact ⟨rfl⟩
    · exact .refl s

theorem State.emit_pooled (s : State) (w : Walker) : s.Pooled (s.emit w) := by
  rw [State.emit_eq]
  split
  · exact ⟨rfl⟩
  · exact State.Pooled.trans (b := s.setWalker w none) ⟨rfl⟩ (State.refillSlot_pooled ..)

theorem State.localSplit_pooled {s t : State} {core lid grain : Nat} (h : s.localSplit core lid grain = some t) :
    s.Pooled t := by
  unfold State.localSplit at h
  dsimp only at h
  split at h
  · split at h
    · cases h
      exact ⟨rfl⟩
    · cases h
  · cases h

/-- A withdrawal of an index stays in the pool (R86). -/
theorem State.withdraw_pooled (s : State) (core lid : Nat) (l : Launch) : s.Pooled (s.withdraw core lid l).2 := by
  unfold State.withdraw
  dsimp only
  split
  · exact s.emit_pooled _
  split
  · split
    · exact ⟨rfl⟩
    · exact (s.loadRange_pooled ..).trans (State.emit_pooled ..)
  split
  · next hs =>
    split
    · exact (State.localSplit_pooled hs).trans (State.emit_pooled ..)
    · exact State.localSplit_pooled hs
  split
  · exact s.emit_pooled _
  split
  · exact ⟨rfl⟩
  split
  · exact s.emit_pooled _
  · exact .refl s

theorem State.withdraw_walker {s : State} {core lid : Nat} {w : Walker} (l : Launch)
    (h : ((s.walkersOf lid (secOfCore core)).find? fun w => w.core == core) = some w) :
    s.withdraw core lid l = (some w.cursor, s.emit w) := by
  simp only [State.withdraw, h]

/-! ## Pending ranges -/

theorem sorts_lo : Sorts fun a b : PendRange => decide (a.lo ≤ b.lo) :=
  ⟨fun a b => by simp only [decide_eq_true_eq]; omega, fun a b c => by simp only [decide_eq_true_eq]; omega⟩

/-- The lowest pending range of a section (R81). -/
theorem Launch.lowPend_some {l : Launch} {sec : Nat} {p : PendRange} (h : l.lowPend sec = some p) :
    p ∈ l.pend ∧ p.sec = sec ∧ ∀ q ∈ l.pend, q.sec = sec → p.lo ≤ q.lo := by
  obtain ⟨t, ht⟩ := List.head?_eq_some_iff.mp h
  have hs := sorts_lo.pairwise_sortBy (l.pend.filter fun p => p.sec == sec)
  rw [ht, List.pairwise_cons] at hs
  have hmem : ∀ q, q ∈ p :: t ↔ q ∈ l.pend ∧ q.sec = sec := fun q => by rw [← ht]; simp [mem_sortBy]
  obtain ⟨hp, hsec⟩ := (hmem p).mp List.mem_cons_self
  refine ⟨hp, hsec, fun q hq hqs => ?_⟩
  rcases List.mem_cons.mp ((hmem q).mpr ⟨hq, hqs⟩) with rfl | hqt
  · exact Nat.le_refl _
  · exact of_decide_eq_true (hs.1 q hqt)

/-! ## Mailboxes (Table 4-12) -/

theorem leNat_leBytes (n v : Nat) : leNat (leBytes n v) = v % 256 ^ n := by
  induction n generalizing v with
  | zero => rw [pow_zero, Nat.mod_one]; rfl
  | succ n ih =>
    rw [leBytes, leNat, ih, BitVec.toNat_ofNat, Nat.mod_mod_of_dvd _ (by decide : 2 ^ 8 ∣ 256), pow_succ' 256 n,
      Nat.mod_mul]
    rfl

theorem mailbox_length (x : Option (List Nat)) : (mailbox x).length = 16 := by
  cases x <;> simp [mailbox, leBytes_length]

/-- The fields of an answer that is READY (Table 4-12). -/
theorem mailbox_ready {a b c d : Nat} (ha : a < 2 ^ 32) (hb : b < 2 ^ 32) (hc : c < 2 ^ 32) (hd : d < 2 ^ 24) :
    let m := mailbox (some [a, b, c, d])
    field m 0 4 = a ∧ field m 4 4 = b ∧ field m 8 4 = c ∧ field m 12 3 = d ∧ field m 15 1 = 1 := by
  intro m
  have hword : ∀ {n v o : Nat}, v < 256 ^ n → field m o n = leNat (leBytes n v) → field m o n = v := fun h hf => by
    rw [hf, leNat_leBytes, Nat.mod_eq_of_lt h]
  exact ⟨hword ha rfl, hword hb rfl, hword hc rfl, hword hd rfl, rfl⟩

/-! ## Answers to FETCHW -/

/-- State t is s with request r answered: it has left the pool, and the answer stands in its mailbox (R87). -/
structure State.Answered (s t : State) (r : FetchReq) (x : Option (List Nat)) : Prop where
  rest : t = { s with
    fetches := s.fetches.filter fun f => f.id != r.id, cohorts := t.cohorts, hist := t.hist, nextId := t.nextId }
  cohort : ∀ c, aget s.cohorts r.coh = some c →
    ∃ b, aget t.cohorts r.coh = some { c with sp := swrite c.sp r.va (mailbox x), broken := b }
  others : ∀ k, k ≠ r.coh → aget t.cohorts k = aget s.cohorts k

theorem State.answer_answered {s : State} {r : FetchReq} {c : Cohort} (hc : aget s.cohorts r.coh = some c)
    (hr : c.rings.contains (r.va / 128) = false) (hva : r.va % 16 = 0) (x : Option (List Nat)) :
    s.Answered (s.answer r x) r x := by
  have hlog := State.logMsg_state { s with fetches := s.fetches.filter fun f => f.id != r.id } (spKey r.coh r.va)
    (sread (s.spOf r.coh) r.va (mailbox x).length) (mailbox x) [] [] [] false true
  have hans : s.answer r x = State.putSp (State.logMsg { s with fetches := s.fetches.filter fun f => f.id != r.id }
    (spKey r.coh r.va) (sread (s.spOf r.coh) r.va (mailbox x).length) (mailbox x) [] [] [] false true).2 r.coh r.va
      (mailbox x) := rfl
  rw [hans]
  generalize (State.logMsg { s with fetches := s.fetches.filter fun f => f.id != r.id }
    (spKey r.coh r.va) (sread (s.spOf r.coh) r.va (mailbox x).length) (mailbox x) [] [] [] false true).2 = y at hlog ⊢
  have hcoh : y.cohorts = s.cohorts := by rw [hlog]
  have hp : y.Puts (y.putSp r.coh r.va (mailbox x)) r.coh r.va (mailbox x) :=
    State.putSp_unused (hcoh ▸ hc) hr (by rw [mailbox_length]; decide) (by rw [mailbox_length]; omega)
  refine ⟨?_, fun c hc => hp.cohort c (hcoh ▸ hc), fun k hk => (hp.others k hk).trans (by rw [hcoh])⟩
  rw [hp.rest, hlog]

/-- What of a served request its answer alone determines (R85, R87). -/
theorem State.Answered.served {s s' t : State} {r : FetchReq} {x : Option (List Nat)} {c : Cohort} (hs : s.Pooled s')
    (h : s'.Answered t r x) (hc : aget s.cohorts r.coh = some c) : ∃ u : Cohort,
      (∀ f ∈ t.fetches, f.id ≠ r.id) ∧ (∀ f ∈ s.fetches, f.id ≠ r.id → f ∈ t.fetches) ∧
      aget t.cohorts r.coh = some u ∧ u = { c with sp := u.sp, broken := u.broken } ∧
      (∀ k, k ≠ r.coh → aget t.cohorts k = aget s.cohorts k) ∧ sread u.sp r.va 16 = mailbox x ∧
      (∀ a, ¬ (r.va ≤ a ∧ a < r.va + 16) → sget u.sp a = sget c.sp a) ∧ t.threads = s.threads ∧ t.mem = s.mem := by
  have hcoh : s'.cohorts = s.cohorts := by rw [hs.rest]
  have hf : t.fetches = s.fetches.filter fun f => f.id != r.id := by rw [h.rest, hs.rest]
  have hlen := mailbox_length x
  obtain ⟨b, hu⟩ := h.cohort c (hcoh ▸ hc)
  refine ⟨_, fun f hft => ?_, fun f hfs hne => ?_, hu, rfl, fun k hk => (h.others k hk).trans (by rw [hcoh]), ?_,
    fun a ha => sget_swrite_out (by omega), by rw [h.rest, hs.rest], by rw [h.rest, hs.rest]⟩
  · rw [hf, List.mem_filter, bne_iff_ne] at hft
    exact hft.2
  · rw [hf, List.mem_filter, bne_iff_ne]
    exact ⟨hfs, hne⟩
  · rw [← hlen]
    exact sread_swrite

/-- The answer x that request r of a cohort c of launch l receives, and the state s' of the pool in which it receives it
(R86, R88, R89). -/
structure State.Assigns (s s' : State) (c : Cohort) (l : Launch) (x : Option (List Nat)) : Prop where
  pool : s.Pooled s'
  plain : l.rc.kind ≠ 1 ∨ l.rc.persist = false → x = none
  det : l.rc.kind = 1 → l.rc.persist = true → l.rc.det = true →
    let n := (aget l.served c.index).getD 0
    let i := c.index + n * l.rc.ncoh
    x = (if i < l.rc.space then some (l.rc.coord i) else none) ∧
    ∀ v, aget s'.launches c.launch = some v → (aget v.served c.index).getD 0 = if i < l.rc.space then n + 1 else n
  free : l.rc.kind = 1 → l.rc.persist = true → l.rc.det = false →
    x = (s.withdraw (c.core.getD 0) c.launch l).1.map l.rc.coord

theorem State.serveFetch_assigns {s : State} {r : FetchReq} {c : Cohort} {l : Launch} (hc : aget s.cohorts r.coh = some c)
    (hl : aget s.launches c.launch = some l)
    (ha : l.rc.kind = 1 → l.rc.persist = true → l.rc.det = false → s.active l = true) :
    ∃ s' x, s.serveFetch r = s'.answer r x ∧ s.Assigns s' c l x := by
  by_cases hplain : l.rc.kind ≠ 1 ∨ l.rc.persist = false
  · have hb : (decide (l.rc.kind ≠ 1) || !l.rc.persist) = true := by simpa using hplain
    refine ⟨s, none, by simp only [State.serveFetch, hc, hl, hb, if_true], .refl s, fun _ => rfl, fun hk hp => ?_,
      fun hk hp => ?_⟩ <;> exact absurd hplain (by simp [hk, hp])
  have hb : (decide (l.rc.kind ≠ 1) || !l.rc.persist) = false := by simpa using hplain
  obtain ⟨hk, hp⟩ : l.rc.kind = 1 ∧ l.rc.persist = true := by simpa using hplain
  simp only [State.serveFetch, hc, hl, hb, Bool.false_eq_true, if_false]
  cases hd : l.rc.det with
  | true =>
    simp only [if_true]
    split
    · next hi =>
      refine ⟨_, _, rfl, ⟨rfl⟩, fun h => absurd h hplain, fun _ _ _ => ⟨(if_pos hi).symm, fun v hv => ?_⟩,
        fun _ _ h => by rw [hd] at h; cases h⟩
      rw [modLaunch_launches, aget_amod_same, hl] at hv
      cases hv
      rw [aget_aset_same, if_pos hi, Option.getD_some]
    · next hi =>
      refine ⟨s, none, rfl, .refl s, fun _ => rfl, fun _ _ _ => ⟨(if_neg hi).symm, fun v hv => ?_⟩,
        fun _ _ h => by rw [hd] at h; cases h⟩
      cases hl.symm.trans hv
      rw [if_neg hi]
  | false =>
    simp only [Bool.false_eq_true, if_false, ha hk hp hd, Bool.not_true]
    exact ⟨_, _, rfl, s.withdraw_pooled .., fun h => absurd h hplain, fun _ _ h => (by rw [hd] at h; cases h),
      fun _ _ _ => rfl⟩

/-! ## The statement -/

/-- Settles O37: the range that a request loads, the answer to a FETCHW by the way in which its index is found, and the
fields of its mailbox. -/
theorem rangesAndWithdrawals : Obligations.RangesAndWithdrawals := by
  unfold Obligations.RangesAndWithdrawals
  refine ⟨⟨fun core launch s l p slot rest ha hl hw hp hf => ?load, fun sec l p hp => Launch.lowPend_some hp⟩,
    fun id s r c l hid htid hc hl hr hva hact => ?answer, fun core lid s l w hw => State.withdraw_walker l hw,
    fun a b c d ha hb hc hd => ?fields⟩
  case load =>
    rw [exec_workRequest_serves ha hl hw, State.serveWork_range (s := { s with works := [] }) hp hf, Option.getD_some, ← hw]
    rfl
  case fields =>
    obtain ⟨h0, h4, h8, h12, h15⟩ := mailbox_ready ha hb hc hd
    exact ⟨mailbox_length _, h0, h4, h8, h12, h15, rfl⟩
  case answer =>
    obtain rfl : r.id = id := by simpa using List.find?_some hid
    have hx : exec (.withdrawal r.id) s = .next (s.serveFetch r) := by
      simp only [exec_withdrawal, execWithdrawal, hid, htid, if_true, event]
    obtain ⟨s', x, hserve, hassigns⟩ := State.serveFetch_assigns hc hl hact
    have hans : s'.Answered (s'.answer r x) r x :=
      State.answer_answered (by rw [hassigns.pool.rest]; exact hc) hr hva x
    obtain ⟨u, hnone, hkept, hu, hrest, hothers, hmail, hout, hthreads, hmem⟩ := hans.served hassigns.pool hc
    rw [hx, hserve]
    exact ⟨_, x, u, rfl, hnone, hkept, hu, hrest, hothers, hmail, hout, hthreads, hmem, hassigns.plain, fun hk hp hd =>
      ⟨(hassigns.det hk hp hd).1, fun v hv => (hassigns.det hk hp hd).2 v (by rw [← hv, hans.rest])⟩, hassigns.free⟩

end Sys2Proof.Machine
end

section
/-! SUPPORT. The frame of the reads and checks of an access (R260, R274 to R281): beside the orders of threads and what
recalls and caches change, the state is as it was. -/

namespace Sys2Proof.Machine

/-- State t is s but for memory and stash lines where lines were recalled, free values, cached versions, and the orders of
threads' later accesses. -/
structure State.Observed (s t : State) : Prop where
  rest : t = { s with
    mem := t.mem, lost := t.lost, free := t.free, seen := t.seen, cohorts := t.cohorts, threads := t.threads }
  thread : ∀ k u, aget s.threads k = some u → ∃ o, aget t.threads k = some { u with ord := o }

theorem State.Observed.of_rest {s t : State} (h : t = { s with
    mem := t.mem, lost := t.lost, free := t.free, seen := t.seen, cohorts := t.cohorts }) : s.Observed t := by
  refine ⟨?_, fun k u hu => ⟨u.ord, ?_⟩⟩ <;> rw [h]
  exact hu

theorem State.Observed.refl (s : State) : s.Observed s := .of_rest rfl

theorem State.Observed.trans {a b c : State} (h : a.Observed b) (g : b.Observed c) : a.Observed c := by
  refine ⟨?_, fun k u hu => ?_⟩
  · rw [g.rest, h.rest]
  · obtain ⟨o, ho⟩ := h.thread k u hu
    obtain ⟨p, hp⟩ := g.thread k _ ho
    exact ⟨p, hp⟩

theorem State.Observed.foldl {α : Type} {f : State → α → State} (hf : ∀ (s : State) (x : α), s.Observed (f s x))
    (xs : List α) (s : State) : s.Observed (xs.foldl f s) :=
  List.foldlRecOn (motive := s.Observed) xs f (.refl s) fun t ht x _ => ht.trans (hf t x)

/-- The executing thread keeps all but its order. -/
theorem State.Observed.executing {s t : State} (h : s.Observed t) {k : Nat} {u : Thread} (hu : aget s.threads k = some u) :
    aget t.threads k = some { u with ord := t.ordOf k } := by
  obtain ⟨o, ho⟩ := h.thread k u hu
  rw [State.ordOf, ho]
  rfl

/-! ## State -/

theorem State.pick_observed (s : State) (n : Nat) : s.Observed (s.pick n).2 := .of_rest (by rw [State.pick_state])

theorem State.note_observed (s : State) (what cluster cid addr : Nat) (v : List Byte) :
    s.Observed (s.note what cluster cid addr v) := by
  unfold State.note
  dsimp only
  split_ifs <;> exact .of_rest rfl

theorem State.boundSeen_observed (s : State) (what : List Nat) (cluster n : Nat) (grp : Seen → Nat) :
    s.Observed (s.boundSeen what cluster n grp) := by
  unfold State.boundSeen
  dsimp only
  split_ifs
  · exact .refl s
  · split
    · exact s.pick_observed _
    · exact (s.pick_observed _).trans (.of_rest rfl)

theorem State.noteUsed_observed (s : State) (cl cid va : Nat) (r : Walked × List (Nat × Nat)) :
    s.Observed (s.noteUsed cl cid va r) := by
  have h := State.Observed.foldl (fun s (x : Nat × Nat) => s.note_observed 4 cl cid x.1 (leBytes 8 x.2)) r.2 s
  unfold State.noteUsed
  dsimp only
  split
  · split_ifs
    · exact (h.trans (State.note_observed ..)).trans (State.boundSeen_observed ..)
    · exact h
  · exact h

theorem chooseSeen_observed (o : Ord) (ms seen : List Msg) (s : State) : s.Observed (chooseSeen o ms seen s).2.2 := by
  induction ms generalizing seen s with
  | nil => exact .refl s
  | cons m t ih =>
    rw [chooseSeen]
    split_ifs
    · exact ih ..
    · dsimp only
      split_ifs <;> exact (s.pick_observed 2).trans (ih ..)

theorem State.recall_observed (s : State) (key n : Nat) (write : Bool) : s.Observed (s.recall key n write) := by
  unfold State.recall
  extract_lets hit
  split
  · refine State.Observed.trans (State.Observed.foldl (fun t c => ?_) s.cohorts s) (.of_rest rfl)
    rw [State.writeBack_state]
    exact .of_rest rfl
  · exact .refl s

theorem State.setOrd_observed (s : State) (tid : Nat) (o : Ord) : s.Observed (s.setOrd tid o) := by
  refine ⟨rfl, fun k u hu => ⟨if k = tid then o else u.ord, ?_⟩⟩
  rw [State.setOrd, modThread_threads, aget_amod, hu, Option.map_some]
  split <;> rfl

/-! ## Computations -/

/-- Where the computation ends well, it has only observed. -/
structure Observes {α : Type} (x : M α) : Prop where
  observed : ∀ (s t : State) (a : α), x s = .ok a t → s.Observed t

theorem observes_pure {α : Type} (a : α) : Observes (pure a : M α) := ⟨fun s _ _ h => by cases h; exact .refl s⟩

theorem observes_throw {α : Type} (f : FaultInfo) : Observes (throw f : M α) := ⟨fun _ _ _ h => by cases h⟩

theorem observes_get : Observes (get : M State) := ⟨fun s _ _ h => by cases h; exact .refl s⟩

theorem Observes.bind {α β : Type} {x : M α} {f : α → M β} (hx : Observes x) (hf : ∀ a, Observes (f a)) :
    Observes (x >>= f) := by
  refine ⟨fun s t b h => ?_⟩
  cases hxs : x s with
  | ok a s' =>
    rw [bind_ok hxs] at h
    exact (hx.observed s s' a hxs).trans ((hf a).observed s' t b h)
  | error f' s' =>
    rw [bind_error hxs] at h
    cases h

/-- A check that throws where a condition holds, before the rest. -/
theorem observes_ite_throw {α : Type} {c : Prop} [Decidable c] {f : FaultInfo} {rest : PUnit → M α}
    (h : ∀ r, Observes (rest r)) : Observes (if c then throw f >>= rest else rest ⟨⟩) := by
  split
  · exact (observes_throw f).bind h
  · exact h ⟨⟩

/-- A free choice, where there is one. -/
theorem observes_of_pick {α : Type} {x : M α} (h : ∀ s, (∃ a n, x s = .ok a (s.pick n).2) ∨ ∃ a, x s = .ok a s) :
    Observes x := by
  refine ⟨fun s t a hx => ?_⟩
  obtain ⟨b, n, hb⟩ | ⟨b, hb⟩ := h s
  · cases hb.symm.trans hx
    exact s.pick_observed n
  · cases hb.symm.trans hx
    exact .refl s

theorem readMemM_observes (key n : Nat) : Observes (readMemM key n) :=
  ⟨fun s t a h => by cases h; exact s.recall_observed key n false⟩

theorem walkM_observes (w : Who) (va : VAddr) : Observes (walkM w va) := by
  refine ⟨fun s t a h => ?_⟩
  unfold walkM at h
  split at h
  · cases h
    exact .refl s
  · cases h
    exact (s.pick_observed _).trans (State.noteUsed_observed ..)

theorem linkNeedM_observes (key : Nat) : Observes (linkNeedM key) := by
  refine observes_of_pick fun s => ?_
  unfold linkNeedM
  split
  · exact .inl ⟨_, 2, rfl⟩
  · exact .inr ⟨_, rfl⟩

theorem linkNeedWalk_observes (w : Who) (va : VAddr) : Observes (linkNeedWalk w va) := by
  refine observes_of_pick fun s => ?_
  unfold linkNeedWalk
  split
  · exact .inl ⟨_, 2, rfl⟩
  · exact .inr ⟨_, rfl⟩

theorem walkFor_observes (w : Who) (a : Access) : Observes (walkFor w a) := by
  unfold walkFor
  refine observes_ite_throw fun _ => (linkNeedWalk_observes ..).bind fun _ => observes_get.bind fun _ => ?_
  exact observes_ite_throw fun _ => walkM_observes ..

theorem placeOf_observes (w : Who) (a : Access) (r : Walked) : Observes (placeOf w a r) := by
  cases r with
  | unmapped => exact observes_throw _
  | format pa => exact observes_throw _
  | leaf pte log =>
    refine observes_ite_throw fun _ => observes_get.bind fun s => ?_
    dsimp only
    split
    · exact observes_ite_throw fun _ => observes_pure _
    · exact observes_throw _

theorem checkWatch_observes (w : Who) (a : Access) : Observes (checkWatch w a) := by
  refine observes_get.bind fun s => ?_
  split
  · exact observes_throw _
  · exact observes_pure _

theorem seeTag_observes (w : Who) (fx : Bool) (key : Nat) : Observes (seeTag w fx key) := by
  refine ⟨fun s t a h => ?_⟩
  unfold seeTag at h
  dsimp only at h
  split at h
  · cases h
    exact .refl s
  · split at h
    · cases h
      split
      · exact (chooseSeen_observed ..).trans (State.setOrd_observed ..)
      · exact chooseSeen_observed ..
    · cases h
      exact .refl s

theorem checkTag_observes (w : Who) (a : Access) (p : Place) : Observes (checkTag w a p) := by
  unfold checkTag
  split
  · refine (seeTag_observes ..).bind fun t => ?_
    split
    · exact observes_throw _
    · exact observes_pure _
  · exact observes_pure _

theorem checkFrom4_observes (w : Who) (a : Access) (p : Place) : Observes (checkFrom4 w a p) := by
  refine (checkWatch_observes ..).bind fun _ => ?_
  split
  · exact (checkTag_observes ..).bind fun _ => observes_pure _
  · exact observes_pure _

/-- The checks of an access. -/
theorem checkPlace_observes (w : Who) (a : Access) : Observes (checkPlace w a) := by
  refine ((walkFor_observes ..).bind fun _ => placeOf_observes ..).bind fun p => (checkFrom4_observes ..).bind fun b => ?_
  split
  · exact observes_pure _
  · exact observes_throw _

theorem checkRead_observes (w : Who) (a : Access) : Observes (checkRead w a) :=
  (checkPlace_observes ..).bind fun _ => (linkNeedM_observes _).bind fun _ => observes_ite_throw fun _ => observes_pure _

/-- A read of physical memory by a thread. -/
theorem readSeenM_observes (e : Env) (acq : Option Scope) (key n : Nat) : Observes (readSeenM e acq key n) :=
  (readMemM_observes ..).bind fun _ => ⟨fun s t a h => by
    cases h
    exact (chooseSeen_observed ..).trans (State.setOrd_observed ..)⟩

theorem readVirt_observes (w : Who) (acc unit units : Nat) {rd : Nat → Nat → M (List Byte)}
    (hr : ∀ k n, Observes (rd k n)) (ptr : Dword) : Observes (readVirt w ptr acc unit units rd) := by
  induction units generalizing ptr with
  | zero => exact observes_pure _
  | succ u ih => exact (checkRead_observes ..).bind fun _ => (hr ..).bind fun _ => (ih _).bind fun _ => observes_pure _

end Sys2Proof.Machine
end

section
/-! SUPPORT. How an op ends whose thread has accessed memory (R128, R260): its thread has passed it, in the order that its
accesses left. -/

namespace Sys2Proof.Machine

/-- An op of a thread whose order alone its accesses have changed, beside registers, predicates and flags, passes. -/
theorem Thread.pass_past {e : Env} {i : Instr} {u : Thread} {o : Ord} (hl : Instr.isLdc i = false) (he : e.th.Clear)
    (hc : Thread.Changed { e.th with ord := o } u) : Thread.Past e i (u.pass e i true none) u := by
  have hu : u.Clear := by
    have := hc.rest
    unfold Thread.Clear at he ⊢
    rw [this]
    exact he
  have hs := Thread.settle_clear hu he (Instr.dstKeys i e.th)
  have hexp : u.exp.map (fun x => { x with temps := [] }) = e.th.exp.map fun x => { x with temps := [] } := hc.exp
  unfold Thread.pass
  simp only [Bool.true_and, hl, Bool.false_and, if_true, hs]
  cases hx : u.exp with
  | none =>
    have hn : e.th.exp = none := by
      rw [hx, Option.map_none] at hexp
      exact Option.map_eq_none_iff.mp hexp.symm
    refine ⟨fun _ => rfl, fun n hn' => ?_, ?_⟩
    · obtain ⟨y, hy, -⟩ := hn'
      rw [hn] at hy
      cases hy
    · simp only [Env.closes, Env.lastOp, hn, Bool.false_eq_true, if_false]
  | some y =>
    obtain ⟨z, hz, hidx, hops⟩ : ∃ z, e.th.exp = some z ∧ z.idx = y.idx ∧ z.ops = y.ops := by
      rw [hx, Option.map_some] at hexp
      obtain ⟨z, hz, hzy⟩ := Option.map_eq_some_iff.mp hexp.symm
      simp only [Exp.mk.injEq] at hzy
      exact ⟨z, hz, hzy.2.2.2.1, hzy.2.2.1⟩
    have hne : e.th.exp ≠ none := by rw [hz]; exact Option.some_ne_none z
    by_cases hi : y.idx + 1 < y.ops.length
    · have hlast : e.lastOp = false := by simp only [Env.lastOp, hz, hidx, hops]; exact decide_eq_false (by omega)
      simp only [hi, if_true]
      refine ⟨fun h => absurd h hne, fun n _ => ?_, ?_⟩
      · simp only [Thread.rd, hx]
      · simp only [Env.closes, hlast, Bool.false_eq_true, if_false]
    · have hlast : e.lastOp = true := by simp only [Env.lastOp, hz, hidx, hops]; exact decide_eq_true (by omega)
      simp only [hi, if_false]
      refine ⟨fun h => absurd h hne, fun n hn => ?_, ?_⟩
      · obtain ⟨x, hx', hlt⟩ := hn
        rw [hz] at hx'
        cases hx'
        rw [hidx, hops] at hlt
        exact absurd hlt hi
      · simp only [Env.closes, hlast, if_true, Thread.endExp]
        rfl

/-- An op that is done in a state that is r but for its thread, which is u. -/
theorem State.ends_of_done {s r r' : State} {e : Env} {i : Instr} {u : Thread} {o : Ord} {body : Env → M Flow}
    (hx : exec i s = threadOp i s body) (h : s.Executes e i) (hl : Instr.isLdc i = false)
    (hb : body e s = .ok .done r') (hr : r.Becomes e.tid r' u) (hc : Thread.Changed { e.th with ord := o } u) :
    s.Ends r e i u := by
  have hm := State.becomes_mod (fun t => t.pass e i true none) hr.thread
  refine ⟨_, _, by rw [hx, threadOp_next h, hb, endOp_done], ⟨?_, hm.thread, fun k hk => (hm.others k hk).trans (hr.others k hk)⟩,
    Thread.pass_past hl h.clear hc⟩
  rw [hm.rest, hr.rest]

/-- An op that leaves its thread standing. -/
theorem State.stands_of_stay {s r r' : State} {e : Env} {i : Instr} {v : Thread} {body : Env → M Flow}
    (hx : exec i s = threadOp i s body) (h : s.Executes e i) (hb : body e s = .ok .stay r') (hr : r.Becomes e.tid r' v) :
    s.Stands r e i v := ⟨r', by rw [hx, threadOp_next h, hb, endOp_stay], hr⟩

end Sys2Proof.Machine
end

section
/-! SUPPORT. A store of a thread to its cohort's scratchpad (R226, R252, R260). -/

namespace Sys2Proof.Machine

theorem patch_length (bs : List Byte) (key : Nat) (m : List Byte) (mkey : Nat) : (patch bs key m mkey).length = bs.length := by
  simp [patch]

theorem redo_length (key : Nat) (bs : List Byte) (ms : List Msg) : (redo key bs ms).1.length = bs.length := by
  induction ms generalizing bs with
  | nil => rfl
  | cons m t ih => rw [redo, ih, patch_length]

/-- A write that takes its place in coherence order changes the list of writes, numbers and free choices alone. -/
theorem State.placeWrite_state (s : State) (o : Ord) (own : List Rel) (key : Nat) (cur bs : List Byte) :
    let x := s.placeWrite o own key cur bs
    x.2.2 = { s with hist := x.2.2.hist, nextId := x.2.2.nextId, free := x.2.2.free } ∧ x.1.length = bs.length := by
  refine ⟨?_, redo_length ..⟩
  unfold State.placeWrite State.placeAt
  dsimp only
  rw [State.pick_state]
  rfl

/-- What stands there in the end is what is written, where no listed write stands later. -/
theorem State.placeWrite_last {s : State} {o : Ord} {key : Nat} {bs : List Byte}
    (h : ∀ m ∈ s.hist, m.overlaps key bs.length = true → o.follows m.ts = true) (own : List Rel) (cur : List Byte) :
    (s.placeWrite o own key cur bs).1 = bs := by
  have hp : passable o (s.writesAt key bs.length) = [] := by
    rw [passable, List.takeWhile_eq_nil_iff]
    intro hlt
    obtain ⟨hm, hov⟩ : (s.writesAt key bs.length).get ⟨0, hlt⟩ ∈ s.hist ∧
        Msg.overlaps ((s.writesAt key bs.length).get ⟨0, hlt⟩) key bs.length = true :=
      List.mem_filter.mp (List.mem_reverse.mp (List.get_mem _ _))
    simpa using h _ hm hov
  unfold State.placeWrite State.placeAt
  rw [hp]
  rfl

theorem mem_joinView {a b : List Nat} {x : Nat} : x ∈ joinView a b ↔ x ∈ a ∨ x ∈ b := by
  induction b generalizing a with
  | nil => simp [joinView]
  | cons y t ih =>
    have h : joinView a (y :: t) = joinView (insertNat y a) t := rfl
    rw [h, ih, mem_insertNat, List.mem_cons, or_comm (a := x = y), or_assoc]

/-- The order of a deterministic launch adds to what a thread's writes follow (R315). -/
theorem State.follows_ordFor {s : State} {tid ts : Nat} (h : (s.ordOf tid).follows ts = true) :
    (s.ordFor tid).follows ts = true := by
  unfold State.ordFor
  dsimp only
  split
  · simp only [Ord.follows, Bool.or_eq_true, List.contains_iff_mem, mem_joinView] at h ⊢
    tauto
  · exact h

/-- Without a thread that waits on the ring, a store to its control block changes free choices, and of cohorts the
scratchpad and the set of broken rings. -/
theorem State.ringStore_quiet {s : State} {coh r : Nat} (h : s.ringWaiters coh r = []) (a n : Nat) (before : Sparse 8) :
    s.ringStore coh r a n before = { s with
      cohorts := (s.ringStore coh r a n before).cohorts, free := (s.ringStore coh r a n before).free } := by
  have hwake : ∀ t : State, t.threads = s.threads → t.ringWake coh r = t := by
    intro t ht
    have hw : t.ringWaiters coh r = [] := by
      simp only [State.ringWaiters, State.cohThreads, ht] at h ⊢
      exact h
    rw [State.ringWake, hw]
    rfl
  cases hc : aget s.cohorts coh with
  | none => simp only [State.ringStore, hc]
  | some c =>
    simp only [State.ringStore, hc]
    generalize hb : (_ && _ : Bool) = b
    cases b
    · simp only [Bool.false_eq_true, if_false]
      split
      · rfl
      · rw [hwake _ rfl]
    · simp only [if_true]
      split
      · rfl
      · rw [hwake]
        · rfl
        · rfl

end Sys2Proof.Machine
end

section
/-! SUPPORT. FETCHW's zero store and request (R85, R415). -/

namespace Sys2Proof.Machine

theorem exec_fetchw (h : Hdr) (a : Reg) (s : State) : exec (.fetchw h a) s = execFetchw h a s := rfl

/-- Only the order of one thread's accesses is changed: the same threads wait on a ring. -/
theorem State.ringWaiters_of_ord {s t : State} {k : Nat} {o : Ord}
    (h : t.threads = amod s.threads k fun u => { u with ord := o }) (coh r : Nat) :
    t.ringWaiters coh r = s.ringWaiters coh r := by
  unfold State.ringWaiters State.cohThreads
  rw [h, amod, List.filter_map, List.filter_map, List.map_map, List.filter_filter, List.filter_filter]
  have hkey : ∀ e : Nat × Thread, (if e.1 = k then (e.1, { e.2 with ord := o }) else e).1 = e.1 := fun e => by split <;> rfl
  have hst : ∀ e : Nat × Thread, (if e.1 = k then (e.1, { e.2 with ord := o }) else e).2.status = e.2.status :=
    fun e => by split <;> rfl
  simp only [Function.comp_def, hkey, hst]

/-- State t is s with bytes of its cohort's scratchpad stored by thread tid, whose later accesses its order o governs. -/
structure State.StoresSp (s t : State) (tid : Nat) : Prop where
  rest : t = { s with
    threads := t.threads, cohorts := t.cohorts, warps := t.warps, hist := t.hist, nextId := t.nextId, free := t.free }
  threads : ∃ o, t.threads = amod s.threads tid fun u => { u with ord := o }

theorem State.StoresSp.thread {s t : State} {tid : Nat} {u : Thread} (h : s.StoresSp t tid) (hu : aget s.threads tid = some u) :
    aget t.threads tid = some { u with ord := t.ordOf tid } := by
  obtain ⟨o, ho⟩ := h.threads
  have ht : aget t.threads tid = some { u with ord := o } := by rw [ho, aget_amod_same, hu]; rfl
  rw [State.ordOf, ht]
  rfl

/-- A write of a thread in coherence order, before its bytes are in the scratchpad. -/
theorem placeM_ok (s : State) (e : Env) (key : Nat) (cur bs : List Byte) :
    ∃ fin y, placeM e none key cur bs s = .ok fin y ∧ fin.length = bs.length ∧ s.StoresSp y e.tid ∧
      y.cohorts = s.cohorts ∧ (s.lastAt e.tid key bs.length → fin = bs) := by
  have hp := State.placeWrite_state s (s.ordFor e.tid) [] key cur bs
  have hm : ∀ (t : State) (ts : Nat), t.noteMade e.tid ts = { t with warps := (t.noteMade e.tid ts).warps } := fun t ts => by
    unfold State.noteMade
    split <;> rfl
  let o := (s.placeWrite (s.ordFor e.tid) [] key cur bs).2.1
  let x := (s.placeWrite (s.ordFor e.tid) [] key cur bs).2.2
  have hx : x = { s with hist := x.hist, nextId := x.nextId, free := x.free } := hp.1
  refine ⟨_, (x.setOrd e.tid o).noteMade e.tid s.nextId, rfl, hp.2, ⟨?_, o, ?_⟩, ?_, fun hl =>
    State.placeWrite_last (fun m hm ho => State.follows_ordFor (hl m hm ho)) [] cur⟩
  · rw [hm, State.setOrd, State.modThread, hx]
  · rw [hm, State.setOrd, State.modThread, hx]
  · rw [hm, State.setOrd, State.modThread, hx]

/-- A store of a thread inside one 16-byte unit. -/
theorem storeSp_ok (s : State) (e : Env) {a : Nat} {bs : List Byte} (hpos : 0 < bs.length) (hfit : a % 128 + bs.length ≤ 128)
    (hw : a < 1024 → s.ringWaiters e.coh (a / 128) = []) :
    ∃ r, storeSp e none a bs s = .ok () r ∧ s.StoresSp r e.tid ∧
      (1024 ≤ a → s.lastAt e.tid (spKey e.coh a) bs.length → ∀ c, aget s.cohorts e.coh = some c →
        ∃ c, aget r.cohorts e.coh = some c ∧ sread c.sp a bs.length = bs) := by
  obtain ⟨fin, y, hy, hlen, hst, hcoh, hlast⟩ := placeM_ok s e (spKey e.coh a) (sread (s.spOf e.coh) a bs.length) bs
  refine ⟨y.putSp e.coh a fin, ?_, ?_, fun ha hl c hc => ?_⟩
  · unfold storeSp
    rw [bind_ok (get_ok s), bind_ok hy, modify_ok]
  · rw [State.putSp_unit y e.coh (by omega) (by omega)]
    split
    · next ha =>
      have hq := State.ringStore_quiet (s := y.setSp e.coh a fin) (coh := e.coh) (r := a / 128)
        ((State.ringWaiters_of_ord hst.threads.choose_spec e.coh (a / 128)).trans (hw ha)) a fin.length (y.spOf e.coh)
      rw [hq]
      refine ⟨?_, hst.threads⟩
      rw [State.setSp, State.modCohort, hst.rest]
    · refine ⟨?_, hst.threads⟩
      rw [State.setSp, State.modCohort, hst.rest]
  · obtain rfl := hlast hl
    refine ⟨{ c with sp := swrite c.sp a fin }, ?_, sread_swrite⟩
    rw [State.putSp_above_rings y e.coh ha, State.setSp, State.modCohort_cohorts, hcoh, aget_amod_same, hc, Option.map_some]

/-- FETCHW once its store is made: its request waits in the pool. -/
theorem execFetchw_requests {h : Hdr} {a : Reg} {s r : State} {e : Env} (hx : s.Executes e (.fetchw h a))
    (hva : (e.th.rd a).toNat % 16 = 0) (hst : e.c.isStashAddr (e.th.rd a).toNat = false)
    (hsc : (e.th.rd a).toNat + 16 ≤ e.c.scratch) (hn : s.requestsOf e.coh < 16)
    (hdet : e.det = true → e.l.rc.persist = true → s.requestsOf e.coh = 0) (hact : s.active e.l = true)
    (hr : storeSp e none ((e.th.rd a).toNat + 12) [0, 0, 0, 0] s = .ok () r) (hs : s.StoresSp r e.tid) :
    s.Ends { r with
      fetches := s.fetches ++ [{ id := r.nextId, tid := e.tid, coh := e.coh, va := (e.th.rd a).toNat }]
      nextId := r.nextId + 1 } e (.fetchw h a) (e.ordered r).th := by
  obtain ⟨hth, -⟩ := State.env_some hx.env
  have hd : (e.det && e.l.rc.persist && decide (s.requestsOf e.coh ≠ 0)) = false := by
    by_contra hne
    simp only [Bool.not_eq_false, Bool.and_eq_true, decide_eq_true_eq] at hne
    exact hne.2 (hdet hne.1.1 hne.1.2)
  have hf : r.fetches = s.fetches := by rw [hs.rest]
  refine State.ends_of_done (exec_fetchw h a s) hx rfl (r' := { r with
      fetches := s.fetches ++ [{ id := r.nextId, tid := e.tid, coh := e.coh, va := (e.th.rd a).toNat }]
      nextId := r.nextId + 1 }) ?_ ⟨rfl, hs.thread hth, fun _ _ => rfl⟩ (.refl _)
  have hz : leBytes 4 0 = [0, 0, 0, 0] := rfl
  simp only [hva, hst, ne_eq, not_true, decide_false, Bool.or_false, Bool.false_eq_true, if_false, Nat.not_lt.mpr hsc,
    bind_ok (get_ok s), hd, Nat.not_le.mpr hn, hact, Bool.not_true, hz, bind_ok hr, bind_ok (modify_ok _ r), pure_ok,
    State.freshId, hf]

end Sys2Proof.Machine
end

section
/-! SUPPORT. The requests of BINPUSH, BINDRAIN (R99, R108, R382) and LAUNCH (R429 to R432). -/

namespace Sys2Proof.Machine

theorem exec_binpush (h : Hdr) (sz : BitVec 4) (a b : Reg) (s : State) :
    exec (.binpush h sz a b) s = execBinpush h sz a b s := rfl

theorem exec_bindrain (h : Hdr) (close : Bool) (b : Reg) (s : State) :
    exec (.bindrain h close b) s = execBindrain h close b s := rfl

theorem exec_launch (h : Hdr) (d a b : Reg) (s : State) : exec (.launch h d a b) s = execLaunch h d a b s := rfl

/-- The n bits from bit lo of a word, as a number. -/
theorem bitsOf_toNat (x : Word) (lo n : Nat) : bitsOf x.toNat (lo + n) lo = (x.extractLsb' lo (n + 1)).toNat := by
  rw [bitsOf, BitVec.extractLsb'_toNat, Nat.shiftRight_eq_div_pow, Nat.add_sub_cancel_left]

/-! ## Bin instructions -/

theorem binRef_ok {s : State} {e : Env} {ref : Word} (hz : ref.extractLsb' 11 21 = 0)
    (hp : s.pidOf (ref.extractLsb' 9 2).toNat = e.ctx.pid) :
    binRef e ref.toNat s = .ok ((ref.extractLsb' 9 2).toNat, (ref.extractLsb' 0 9).toNat) s := by
  have h31 : bitsOf ref.toNat 31 11 = 0 := by
    rw [bitsOf_toNat ref 11 20, hz]
    rfl
  unfold binRef
  rw [bind_ok (get_ok s)]
  simp only [h31, bitsOf_toNat ref 9 1, bitsOf_toNat ref 0 8, hp, ne_eq, not_true, decide_false, Bool.or_self,
    Bool.false_eq_true, if_false]
  rfl

theorem binRecord_ok {s : State} {e : Env} {a : Reg} {n : Nat} (ref : Nat)
    (h : match a with
      | .v x => x.toNat + n ≤ min e.c.regs 255
      | .k x => x.toNat + n ≤ 8) :
    binRecord e a n ref s = .ok ((List.range n).flatMap fun k => leBytes 4 (e.th.rd (regPlus a k)).toNat) s := by
  have hdata : (e.th.rdMany a n).flatMap (fun w => leBytes 4 w.toNat) =
      (List.range n).flatMap fun k => leBytes 4 (e.th.rd (regPlus a k)).toNat := by
    rw [Thread.rdMany, List.flatMap_map]
  cases a with
  | v x =>
    have hfit : (decide (e.c.regs < x.toNat + n) || decide (255 < x.toNat + n)) = false := by
      simp only [Bool.or_eq_false_iff, decide_eq_false_iff_not]
      dsimp only at h
      omega
    simp only [binRecord, hfit, Bool.false_eq_true, if_false, hdata, pure_ok]
  | k x => simp only [binRecord, Nat.not_lt.mpr h, if_false, hdata, pure_ok]

/-- The thread waits for the answer to its request. -/
theorem askBin_ok {s : State} {e : Env} (i : Instr) (q : BinReq) (h : aget s.threads e.tid = some e.th) :
    ∃ r, askBin e i q s = .ok .stay r ∧ s.Becomes e.tid r { e.th with status := .binWait q e.pers i } :=
  ⟨_, rfl, State.becomes_mod _ h⟩

theorem execBinpush_asks {h : Hdr} {sz : BitVec 4} {a b : Reg} {s : State} {e : Env}
    (hfit : match a with
      | .v x => x.toNat + 4 * (sz.toNat + 1) ≤ min e.c.regs 255
      | .k x => x.toNat + 4 * (sz.toNat + 1) ≤ 8)
    (hx : s.Executes e (.binpush h sz a b)) (hz : (e.th.rd b).extractLsb' 11 21 = 0)
    (hp : s.pidOf ((e.th.rd b).extractLsb' 9 2).toNat = e.ctx.pid) :
    let q : BinReq := .push ((e.th.rd b).extractLsb' 9 2).toNat ((e.th.rd b).extractLsb' 0 9).toNat
      ((List.range (4 * (sz.toNat + 1))).flatMap fun k => leBytes 4 (e.th.rd (regPlus a k)).toNat)
    s.Stands s e (.binpush h sz a b) { e.th with status := .binWait q e.pers (.binpush h sz a b) } := by
  intro q
  obtain ⟨r, hr, hbec⟩ := askBin_ok (.binpush h sz a b) q (State.env_some hx.env).1
  refine State.stands_of_stay (exec_binpush h sz a b s) hx ?_ hbec
  exact (bind_ok (binRef_ok hz hp)).trans ((bind_ok (binRecord_ok _ hfit)).trans hr)

theorem execBindrain_asks {h : Hdr} {close : Bool} {b : Reg} {s : State} {e : Env} (hx : s.Executes e (.bindrain h close b))
    (hz : (e.th.rd b).extractLsb' 11 21 = 0) (hp : s.pidOf ((e.th.rd b).extractLsb' 9 2).toNat = e.ctx.pid) :
    let q : BinReq := .drain ((e.th.rd b).extractLsb' 9 2).toNat ((e.th.rd b).extractLsb' 0 9).toNat close
    s.Stands s e (.bindrain h close b) { e.th with status := .binWait q e.pers (.bindrain h close b) } := by
  intro q
  obtain ⟨r, hr, hbec⟩ := askBin_ok (.bindrain h close b) q (State.env_some hx.env).1
  refine State.stands_of_stay (exec_bindrain h close b s) hx ?_ hbec
  exact (bind_ok (binRef_ok hz hp)).trans hr

/-! ## LAUNCH -/

/-- The target section of vB (R429). -/
theorem launchSection_eq (e : Env) (vb : Word) :
    launchSection e vb.toNat = if vb.getLsbD 2 then e.core / 64 else (vb.extractLsb' 0 2).toNat := by
  have hbit : (bitsOf vb.toNat 2 2 = 1) = (vb.getLsbD 2 = true) := by
    rw [bitsOf, BitVec.getLsbD, Nat.testBit_eq_decide_div_mod_eq, decide_eq_true_eq]
    rfl
  simp only [launchSection, hbit, bitsOf_toNat vb 0 1, secOfCore]

/-- A device-launch record joins its queue, and the thread's later accesses follow its release (R430, R432). -/
theorem State.submit_eq (s : State) (e : Env) (sec : Nat) (b : List Byte) :
    s.submit e sec b = { s with
      threads := (s.setOrd e.tid (s.ordOf e.tid).release).threads
      devq := aset s.devq (e.cid * 4 + sec) ((aget s.devq (e.cid * 4 + sec)).getD [] ++
        [{ bytes := b, prioCap := e.l.rc.prio, ownerQ := e.l.ownerQ, view := (s.ordOf e.tid).release.view }]) } := rfl

section
variable {h : Hdr} {d a b : Reg} {s s' : State} {e : Env} {bytes : List Byte} {sec : Nat}

/-- What LAUNCH has found when it looks at its queue: an aligned record, read for the thread, and a target section of the
thread's partition (R429). -/
structure State.Launches (s s' : State) (e : Env) (a b : Reg) (bytes : List Byte) (sec : Nat) : Prop where
  aligned : (e.th.rd64 a).toNat % 128 = 0
  reserved : (e.th.rd b).extractLsb' 3 29 = 0
  target : launchSection e (e.th.rd b).toNat = sec
  partition : s.pidOf sec = e.ctx.pid
  record : readVirt e.who (e.th.rd64 a) 0 16 8 (readSeenM e none) s = .ok bytes s'

theorem State.Launches.observed (hl : s.Launches s' e a b bytes sec) : s.Observed s' :=
  (readVirt_observes e.who 0 16 8 (readSeenM_observes e none) _).observed _ _ _ hl.record

/-- The executing thread once the record is read. -/
theorem State.Launches.thread (hl : s.Launches s' e a b bytes sec) (hx : s.Executes e (.launch h d a b)) :
    aget s'.threads e.tid = some (e.ordered s').th :=
  hl.observed.executing (State.env_some hx.env).1

theorem State.Launches.reserved_zero (hl : s.Launches s' e a b bytes sec) : bitsOf (e.th.rd b).toNat 31 3 = 0 := by
  rw [bitsOf_toNat _ 3 28, hl.reserved]
  rfl

theorem execLaunch_submits (hl : s.Launches s' e a b bytes sec) (hx : s.Executes e (.launch h d a b))
    (hroom : s'.devRoom e.cid sec = true) :
    let o := (s'.ordOf e.tid).release
    let r : DevRec := { bytes := bytes, prioCap := e.l.rc.prio, ownerQ := e.l.ownerQ, view := o.view }
    s.Ends { s' with devq := aset s'.devq (e.cid * 4 + sec) ((aget s'.devq (e.cid * 4 + sec)).getD [] ++ [r]) } e
      (.launch h d a b) ({ e.th with ord := o }.wr d 0) := by
  intro o r
  have hth : aget (s'.submit e sec bytes).threads e.tid = some { e.th with ord := o } := by
    rw [State.submit_eq, State.setOrd, State.modThread_threads, aget_amod_same, hl.thread hx]
    rfl
  have hm := State.becomes_mod (fun t => t.wr d 0) hth
  refine State.ends_of_done (exec_launch h d a b s) hx rfl (r' := (s'.submit e sec bytes).modThread e.tid fun t => t.wr d 0)
    ?_ ⟨?_, hm.thread, fun k hk => ?_⟩ (o := o) ((Thread.Changed.refl _).wr d 0)
  · simp only [hl.aligned, hl.reserved_zero, hl.target, hl.partition, hroom, bind_ok (get_ok s), bind_ok hl.record,
      bind_ok (get_ok s'), bind_ok (modify_ok _ s'), bind_ok (modTh_ok e _ _), ne_eq, not_true, decide_false, Bool.or_self,
      Bool.false_eq_true, if_false, if_true, pure_ok]
  · rw [hm.rest, State.submit_eq]
  · rw [hm.others k hk, State.submit_eq, State.setOrd, State.modThread_threads, aget_amod_other _ _ hk]

theorem execLaunch_refuses (hl : s.Launches s' e a b bytes sec) (hx : s.Executes e (.launch h d a b))
    (hroom : s'.devRoom e.cid sec = false) (hdet : e.det = false) :
    s.Ends s' e (.launch h d a b) ((e.ordered s').th.wr d 1) := by
  refine State.ends_of_done (exec_launch h d a b s) hx rfl (r' := s'.modThread e.tid fun t => t.wr d 1)
    ?_ (State.becomes_mod _ (hl.thread hx)) ((Thread.Changed.refl _).wr d 1)
  simp only [hl.aligned, hl.reserved_zero, hl.target, hl.partition, hroom, hdet, bind_ok (get_ok s), bind_ok hl.record,
    bind_ok (get_ok s'), bind_ok (modTh_ok e _ _), ne_eq, not_true, decide_false, Bool.or_self,
    Bool.false_eq_true, if_false, pure_ok]

theorem execLaunch_waits (hl : s.Launches s' e a b bytes sec) (hx : s.Executes e (.launch h d a b))
    (hroom : s'.devRoom e.cid sec = false) (hdet : e.det = true) :
    s.Stands { s' with nextId := s'.nextId + 1 } e (.launch h d a b)
      { (e.ordered s').th with status := .devWait sec s'.nextId bytes e.pers (.launch h d a b) } := by
  refine State.stands_of_stay (exec_launch h d a b s) hx ?_
    (State.becomes_mod (s := { s' with nextId := s'.nextId + 1 })
      (fun t => { t with status := .devWait sec s'.nextId bytes e.pers (.launch h d a b) }) (hl.thread hx))
  simp only [hl.aligned, hl.reserved_zero, hl.target, hl.partition, hroom, hdet, bind_ok (get_ok s), bind_ok hl.record,
    bind_ok (get_ok s'), bind_ok (modify_ok _ s'), ne_eq, not_true, decide_false, Bool.or_self,
    Bool.false_eq_true, if_false, if_true, pure_ok, State.freshId]

end

/-! ## The statement -/

/-- Settles O34: FETCHW by its store and its request, BINPUSH and BINDRAIN by the request that each waits for, LAUNCH by the
room in its queue. -/
theorem workSubmission : Obligations.WorkSubmission := by
  unfold Obligations.WorkSubmission
  refine ⟨?fetchw, ?bins, ?launch⟩
  case fetchw =>
    intro h a s e va hx hva hst hsc hn hdet hact hw
    have hring : va + 12 < 1024 → s.ringWaiters e.coh ((va + 12) / 128) = [] := fun hlt => by
      have hdiv : (va + 12) / 128 = va / 128 := by omega
      rw [hdiv]
      exact hw (by omega)
    obtain ⟨t, ht, hs, hsp⟩ := storeSp_ok s e (a := va + 12) (bs := [0, 0, 0, 0]) (by decide)
      (show (va + 12) % 128 + 4 ≤ 128 by omega) hring
    obtain ⟨-, hc, -⟩ := State.env_some hx.env
    exact ⟨t, ht, hs.rest, fun hlo hl => hsp (by omega) hl e.c hc, execFetchw_requests hx hva hst hsc hn hdet hact ht hs⟩
  case bins =>
    intro h b s e ref sec bin hz hp
    exact ⟨fun sz a hx hfit => execBinpush_asks hfit hx hz hp, fun close hx => execBindrain_asks hx hz hp⟩
  case launch =>
    intro h d a b s s' e bytes i vb sec o r q hx ha hb hp hr
    have hl : s.Launches s' e a b bytes sec := ⟨ha, hb, launchSection_eq e vb, hp, hr⟩
    exact ⟨fun hq => execLaunch_submits hl hx (decide_eq_true hq), fun hq hdet =>
      execLaunch_refuses hl hx (decide_eq_false (Nat.not_lt.mpr hq)) hdet, fun hq hdet =>
      execLaunch_waits hl hx (decide_eq_false (Nat.not_lt.mpr hq)) hdet⟩

end Sys2Proof.Machine
end

section
/-! SUPPORT. Contexts and launches that are switched out and restored (R90, R310, R316): what a save request, a save of
walkers and their restoration leave of launches and cohorts. -/

namespace Sys2Proof.Machine

theorem exec_timeSliceExpiry (cid : Nat) (s : State) : exec (.timeSliceExpiry cid) s = execTimeSliceExpiry cid s := rfl

theorem exec_launchPreemption (launch : Nat) (s : State) :
    exec (.launchPreemption launch) s = execLaunchPreemption launch s := rfl

theorem exec_contextRestore (cid : Nat) (s : State) : exec (.contextRestore cid) s = execContextRestore cid s := rfl

/-! ## Steps that a switch-out completes first -/

theorem State.completeFires_none {s : State} (h : ∀ b ∈ s.bins, b.2.selected = none) (cid : Nat) : s.completeFires cid = s := by
  have hb : s.bins.filter (fun e => e.2.selected.isSome) = [] := by
    rw [List.filter_eq_nil_iff]
    intro b hm
    simp [h b hm]
  rw [State.completeFires, hb]
  rfl

theorem State.answerFetches_none {s : State} (h : s.fetches = []) (lid : Nat) : s.answerFetches lid = s := by
  rw [State.answerFetches, h]
  rfl

theorem State.foldl_answerFetches_none {s : State} (h : s.fetches = []) (lids : List Nat) :
    lids.foldl State.answerFetches s = s := by
  induction lids with
  | nil => rfl
  | cons l t ih => rw [List.foldl_cons, State.answerFetches_none h, ih]

/-! ## Save requests -/

/-- A cohort as a save request leaves it (R305). -/
def Cohort.asked (c : Cohort) : Cohort := if c.core.isSome then { c with pending := true, forRoom := false } else c

theorem Cohort.asked_asked (c : Cohort) : c.asked.asked = c.asked := by
  cases h : c.core.isSome <;> simp [Cohort.asked, h]

theorem Cohort.asked_launch (c : Cohort) : c.asked.launch = c.launch := by
  unfold Cohort.asked
  split <;> rfl

theorem State.foldl_requestSave (cs : List (Nat × Cohort)) (s : State) :
    cs.foldl (fun s c => s.requestSave c.1) s =
      { s with cohorts := (cs.map (·.1)).foldl (fun m k => amod m k Cohort.asked) s.cohorts } := by
  induction cs generalizing s with
  | nil => rfl
  | cons c t ih => rw [List.foldl_cons, ih]; rfl

theorem State.mem_launchCohorts {s : State} (hr : rising 0 s.cohorts = true) {k : Nat} {c : Cohort}
    (hc : aget s.cohorts k = some c) (lid : Nat) : k ∈ (s.launchCohorts lid).map (·.1) ↔ c.launch = lid := by
  rw [State.launchCohorts, List.mem_map]
  constructor
  · rintro ⟨e, he, rfl⟩
    obtain ⟨hm, hl⟩ := List.mem_filter.mp he
    cases hc.symm.trans (aget_of_mem hr hm)
    exact beq_iff_eq.mp hl
  · intro h
    exact ⟨(k, c), List.mem_filter.mpr ⟨mem_of_aget hc, beq_iff_eq.mpr h⟩, rfl⟩

/-- State t is s with the cohorts of some launches asked to save. -/
structure State.Asks (s t : State) (lids : List Nat) : Prop where
  rest : t = { s with cohorts := t.cohorts }
  rising : rising 0 t.cohorts = true
  cohorts : ∀ k, aget t.cohorts k = (aget s.cohorts k).map fun c => if c.launch ∈ lids then c.asked else c

theorem State.saveLaunch_asks {s : State} (hr : rising 0 s.cohorts = true) (lid : Nat) : s.Asks (s.saveLaunch lid) [lid] := by
  rw [State.saveLaunch, State.foldl_requestSave]
  refine ⟨rfl, ?_, fun k => ?_⟩
  · exact List.foldlRecOn (motive := fun m : Assoc Cohort => Machine.rising 0 m = true) _ _ hr
      fun m hm j _ => rising_amod j _ hm
  · show aget (List.foldl _ _ _) k = _
    rw [aget_foldl_amod_list _ _ Cohort.asked_asked]
    cases hc : aget s.cohorts k with
    | none => rfl
    | some c => simp only [Option.map_some, State.mem_launchCohorts hr hc, List.mem_singleton]

/-- Save requests to the resident cohorts of several launches. -/
theorem State.foldl_saveLaunch_asks {s : State} (hr : rising 0 s.cohorts = true) (lids : List Nat) :
    s.Asks (lids.foldl State.saveLaunch s) lids := by
  induction lids generalizing s with
  | nil => exact ⟨rfl, hr, fun k => by simp⟩
  | cons lid t ih =>
    have h1 := State.saveLaunch_asks hr lid
    have h2 := ih h1.rising
    refine ⟨?_, h2.rising, fun k => ?_⟩
    · rw [List.foldl_cons, h2.rest, h1.rest]
    · rw [List.foldl_cons, h2.cohorts, h1.cohorts, Option.map_map]
      refine Option.map_congr fun c _ => ?_
      simp only [Function.comp_apply, List.mem_cons]
      by_cases hl : c.launch = lid <;> by_cases ht : c.launch ∈ t <;>
        simp [hl, ht, Cohort.asked_launch, Cohort.asked_asked]

/-! ## Ranges of launches -/

theorem State.saveWalkers_pooled (s : State) (lid : Nat) : s.Pooled (s.saveWalkers lid) := ⟨rfl⟩

/-- A save of walkers leaves which launches of a context run. -/
theorem State.saveWalkers_launchesOf (s : State) (lid cid : Nat) : (s.saveWalkers lid).launchesOf cid = s.launchesOf cid := by
  have hl : (s.saveWalkers lid).launches = amod s.launches lid fun l => { l with
      saved := l.saved ++ (s.walkers.filter fun w => w.launch == lid).map fun w =>
        { sec := w.sec, lo := w.cursor, hi := w.limit } } := rfl
  unfold State.launchesOf
  rw [hl, amod, List.filter_map, List.map_map]
  congr 1
  · funext e
    simp only [Function.comp_apply]
    split <;> rfl
  · congr 1
    funext e
    simp only [Function.comp_apply]
    split <;> rfl

theorem State.foldl_saveWalkers (lids : List Nat) (s : State) (cid : Nat) :
    s.Pooled (lids.foldl State.saveWalkers s) ∧ (lids.foldl State.saveWalkers s).launchesOf cid = s.launchesOf cid :=
  List.foldlRecOn (motive := fun t => s.Pooled t ∧ t.launchesOf cid = s.launchesOf cid) lids State.saveWalkers
    ⟨.refl s, rfl⟩ fun t ht lid _ => ⟨ht.1.trans (t.saveWalkers_pooled lid), (t.saveWalkers_launchesOf lid cid).trans ht.2⟩

/-- State t is s but for the pool, and its launches differ in pending ranges alone. -/
structure State.Refills (s t : State) : Prop where
  pool : s.Pooled t
  launches : ∀ k, (aget t.launches k).map (fun l => { l with pend := [] }) =
    (aget s.launches k).map fun l => { l with pend := [] }

theorem State.Refills.refl (s : State) : s.Refills s := ⟨.refl s, fun _ => rfl⟩

theorem State.Refills.trans {a b c : State} (h : a.Refills b) (g : b.Refills c) : a.Refills c :=
  ⟨h.pool.trans g.pool, fun k => (g.launches k).trans (h.launches k)⟩

/-- A field of a launch that is not its pending ranges is kept. -/
theorem State.Refills.field {s t : State} (h : s.Refills t) {β : Type} {f : Launch → β}
    (hf : ∀ l : Launch, f { l with pend := [] } = f l) (k : Nat) : (aget t.launches k).map f = (aget s.launches k).map f := by
  have hg : f ∘ (fun l : Launch => { l with pend := [] }) = f := funext hf
  rw [← hg, ← Option.map_map, ← Option.map_map, h.launches k]

theorem State.loadRange_refills (s : State) (lid : Nat) (p : PendRange) (slot core : Nat) :
    s.Refills (s.loadRange lid p slot core) := by
  refine ⟨⟨rfl⟩, fun k => ?_⟩
  rw [State.loadRange, State.modLaunch, aget_amod, Option.map_map]
  refine Option.map_congr fun l _ => ?_
  simp only [Function.comp_apply]
  split <;> rfl

theorem State.refillSlot_refills (s : State) (sec slot : Nat) : s.Refills (s.refillSlot sec slot) := by
  unfold State.refillSlot
  split
  · exact .refl s
  · split_ifs
    · split
      · next r _ =>
        exact .trans (b := { s with works := s.works.filter fun x => x != r }) ⟨⟨rfl⟩, fun _ => rfl⟩
          (State.loadRange_refills ..)
      · exact State.loadRange_refills ..
    · exact .refl s

theorem State.refillAll_refills (s : State) : s.Refills s.refillAll := by
  unfold State.refillAll
  split_ifs
  · exact .refl s
  · exact List.foldlRecOn (motive := s.Refills) _ _ (.refl s) fun t ht k _ => ht.trans (t.refillSlot_refills ..)

/-! ## Restored walkers -/

/-- State t is s but for the pool, and of launch lid the saved ranges of ps are restored, which can be pending. -/
structure State.Unsaves (s t : State) (lid : Nat) (ps : List PendRange) : Prop where
  pool : s.Pooled t
  preempted : ∀ k, (aget t.launches k).map Launch.preempted = (aget s.launches k).map Launch.preempted
  saved : ∀ k, (aget t.launches k).map Launch.saved =
    (aget s.launches k).map fun l => if k = lid then l.saved.filter fun p => !ps.contains p else l.saved

theorem State.Unsaves.refl (s : State) (lid : Nat) : s.Unsaves s lid [] :=
  ⟨.refl s, fun _ => rfl, fun k => Option.map_congr fun l _ => by simp⟩

theorem State.Unsaves.trans {a b c : State} {lid : Nat} {ps qs : List PendRange} (h : a.Unsaves b lid ps)
    (g : b.Unsaves c lid qs) : a.Unsaves c lid (ps ++ qs) := by
  refine ⟨h.pool.trans g.pool, fun k => (g.preempted k).trans (h.preempted k), fun k => ?_⟩
  have hg := g.saved k
  have hh := h.saved k
  by_cases hk : k = lid
  · simp only [hk, if_true] at hg hh ⊢
    rw [hg, show (fun l : Launch => l.saved.filter fun p => !qs.contains p) =
      (fun ps => ps.filter fun p => !qs.contains p) ∘ Launch.saved from rfl, ← Option.map_map, hh, Option.map_map]
    refine Option.map_congr fun l _ => ?_
    simp [List.filter_filter, Bool.and_comm]
  · simp only [hk, if_false] at hg hh ⊢
    exact hg.trans hh

/-- A saved range becomes pending. -/
theorem State.unsave_one (s : State) (lid : Nat) (p : PendRange) :
    s.Unsaves (s.modLaunch lid fun l => { l with saved := l.saved.filter (· != p), pend := l.pend ++ [p] }) lid [p] := by
  refine ⟨⟨rfl⟩, fun k => ?_, fun k => ?_⟩ <;> rw [State.modLaunch, aget_amod, Option.map_map] <;>
    refine Option.map_congr fun l _ => ?_ <;> simp only [Function.comp_apply]
  · split <;> rfl
  · split
    · refine List.filter_congr fun q _ => ?_
      rw [Bool.eq_iff_iff]
      simp
    · rfl

theorem State.Unsaves.refill {s t u : State} {lid : Nat} {ps : List PendRange} (h : s.Unsaves t lid ps) (g : t.Refills u) :
    s.Unsaves u lid ps :=
  ⟨h.pool.trans g.pool, fun k => (g.field (fun _ => rfl) k).trans (h.preempted k),
    fun k => (g.field (fun _ => rfl) k).trans (h.saved k)⟩

/-- One saved walker is restored: into a free slot of its section, or else its range waits (R90). -/
def State.restoreOne (s : State) (lid : Nat) (p : PendRange) : State :=
  let s := s.modLaunch lid fun l => { l with saved := l.saved.filter (· != p), pend := l.pend ++ [p] }
  match s.freeSlotsOf p.sec lid with
  | [] => s
  | slot :: _ =>
    let (c, s) := s.pick 64
    s.loadRange lid p slot (p.sec * 64 + c)

theorem State.restoreOne_unsaves (s : State) (lid : Nat) (p : PendRange) : s.Unsaves (s.restoreOne lid p) lid [p] := by
  unfold State.restoreOne
  dsimp only
  split
  · exact s.unsave_one lid p
  · refine (s.unsave_one lid p).refill (.trans (b := (State.pick _ 64).2) ⟨⟨?_⟩, fun k => ?_⟩ (State.loadRange_refills ..))
    · rw [State.pick_state]
    · rw [State.pick_state]

theorem State.foldl_restoreOne (s : State) (lid : Nat) (ps : List PendRange) :
    s.Unsaves (ps.foldl (fun s p => s.restoreOne lid p) s) lid ps := by
  induction ps generalizing s with
  | nil => exact .refl s lid
  | cons p t ih => exact (s.restoreOne_unsaves lid p).trans (ih _)

theorem State.restoreWalkers_eq (s : State) (lid : Nat) : s.restoreWalkers lid =
    match aget s.launches lid with
    | none => s
    | some l => l.saved.foldl (fun s p => s.restoreOne lid p) s := rfl

/-- State t is s but for the pool, with no saved range left of some launches. -/
structure State.Restores (s t : State) (lids : List Nat) : Prop where
  pool : s.Pooled t
  preempted : ∀ k, (aget t.launches k).map Launch.preempted = (aget s.launches k).map Launch.preempted
  saved : ∀ k, (aget t.launches k).map Launch.saved = (aget s.launches k).map fun l => if k ∈ lids then [] else l.saved

theorem State.restoreWalkers_restores (s : State) (lid : Nat) : s.Restores (s.restoreWalkers lid) [lid] := by
  rw [State.restoreWalkers_eq]
  cases hl : aget s.launches lid with
  | none =>
    refine ⟨.refl s, fun _ => rfl, fun k => Option.map_congr fun l hk => ?_⟩
    rw [if_neg]
    rintro hm
    rw [List.mem_singleton.mp hm, hl] at hk
    cases hk
  | some l =>
    have h := s.foldl_restoreOne lid l.saved
    refine ⟨h.pool, h.preempted, fun k => (h.saved k).trans (Option.map_congr fun x hk => ?_)⟩
    simp only [List.mem_singleton]
    split
    · next hlid =>
      subst hlid
      cases hl.symm.trans hk
      simp [List.filter_eq_nil_iff]
    · rfl

theorem State.foldl_restoreWalkers (s : State) (lids : List Nat) : s.Restores (lids.foldl State.restoreWalkers s) lids := by
  induction lids generalizing s with
  | nil => exact ⟨.refl s, fun _ => rfl, fun k => by simp⟩
  | cons lid t ih =>
    have h := s.restoreWalkers_restores lid
    have g := ih (s.restoreWalkers lid)
    refine ⟨h.pool.trans g.pool, fun k => (g.preempted k).trans (h.preempted k), fun k => ?_⟩
    have hg := g.saved k
    have hh := h.saved k
    by_cases ht : k ∈ t
    · simp only [ht, if_true, List.mem_cons, or_true] at hg ⊢
      have hsome := congrArg Option.isSome (h.saved k)
      simp only [Option.isSome_map] at hsome
      rw [List.foldl_cons, hg]
      cases ha : aget (s.restoreWalkers lid).launches k <;> cases hb : aget s.launches k <;> simp_all
    · simp only [ht, if_false, List.mem_cons, or_false, List.not_mem_nil] at hg hh ⊢
      exact hg.trans hh

/-- What stands of a launch whose walkers are restored. -/
theorem State.Restores.launch {s t : State} {lids : List Nat} (h : s.Restores t lids) {k : Nat} {x : Launch} (hk : k ∈ lids)
    (hx : aget t.launches k = some x) : x.saved = [] ∧ (aget s.launches k).map Launch.preempted = some x.preempted := by
  have hs := h.saved k
  have hp := h.preempted k
  rw [hx] at hs hp
  obtain ⟨l, -, hl⟩ := Option.map_eq_some_iff.mp hs.symm
  rw [if_pos hk] at hl
  exact ⟨hl.symm, hp.symm⟩

/-! ## Switches -/

/-- A time slice that ends (R310). -/
theorem execTimeSliceExpiry_switches {cid : Nat} {s : State} {c : Ctx} (hc : aget s.ctxs cid = some c)
    (hs : c.scheduled = true) (hb : ∀ b ∈ s.bins, b.2.selected = none) (hf : s.fetches = [])
    (hr : rising 0 s.cohorts = true) :
    ∃ r q, (s.modCtx cid fun c => { c with scheduled := false }).Pooled r ∧ r.Asks q (s.launchesOf cid) ∧
      exec (.timeSliceExpiry cid) s = .next q.refillAll := by
  let m := s.modCtx cid fun c => { c with scheduled := false }
  obtain ⟨hpool, hof⟩ := State.foldl_saveWalkers (s.launchesOf cid) m cid
  have hcoh : ((s.launchesOf cid).foldl State.saveWalkers m).cohorts = s.cohorts := by rw [hpool.rest]; rfl
  refine ⟨_, _, hpool, State.foldl_saveLaunch_asks (by rw [hcoh]; exact hr) _, ?_⟩
  have hm : m.launchesOf cid = s.launchesOf cid := rfl
  simp only [exec_timeSliceExpiry, execTimeSliceExpiry, hc, hs, if_true, event, State.switchOut,
    State.completeFires_none hb, State.foldl_answerFetches_none hf]
  rw [hm] at hof
  rw [hm, hof]

/-- A launch that is pre-empted (R90, R316). -/
theorem execLaunchPreemption_switches {lid : Nat} {s : State} {l : Launch} (hl : aget s.launches lid = some l)
    (ha : s.active l = true) (hf : s.fetches = []) (hr : rising 0 s.cohorts = true) :
    ∃ q, ((s.saveWalkers lid).modLaunch lid fun l => { l with preempted := true }).Asks q [lid] ∧
      exec (.launchPreemption lid) s = .next q.refillAll := by
  refine ⟨_, State.saveLaunch_asks (s := (s.saveWalkers lid).modLaunch lid fun l => { l with preempted := true }) hr lid,
    ?_⟩
  simp only [exec_launchPreemption, execLaunchPreemption, hl, ha, if_true, event, State.answerFetches_none hf]

theorem Cohort.asked_if (x : Cohort) (p : Prop) [Decidable p] : (if p then x.asked else x) =
    if p ∧ x.core.isSome = true then { x with pending := true, forRoom := false } else x := by
  by_cases hp : p <;> cases hx : x.core.isSome <;> simp [Cohort.asked, hp, hx]

/-- A context that is switched out, with every context that leaves its partition, is restored (R90, R310). -/
theorem execContextRestore_restores {cid : Nat} {s : State} {c : Ctx} (hc : aget s.ctxs cid = some c)
    (hs : c.scheduled = false) (hm : c.migrated = false) (hp : s.partSaved c.pid = true) :
    ∃ r, (s.modCtx cid fun c => { c with scheduled := true, migrated := false }).Restores r
        ((s.launchesOf cid).filter fun l => ((aget s.launches l).map Launch.preempted) == some false) ∧
      exec (.contextRestore cid) s = .next (r.applyHeld cid) := by
  refine ⟨_, State.foldl_restoreWalkers _ _, ?_⟩
  simp only [exec_contextRestore, execContextRestore, hc, hs, hm, hp, Bool.false_eq_true, if_false, if_true, event]

/-- A launch of a scheduled context whose pre-emption is complete is restored (R90). -/
theorem execContextRestore_resumes {cid : Nat} {s : State} {c : Ctx} (hc : aget s.ctxs cid = some c)
    (hs : c.scheduled = true) :
    ∃ t, State.Restores { s with launches := s.launches.map fun l =>
        if (s.preemptedOf cid).contains l.1 then (l.1, { l.2 with preempted := false }) else l } t (s.preemptedOf cid) ∧
      exec (.contextRestore cid) s = .next t := by
  refine ⟨_, State.foldl_restoreWalkers _ _, ?_⟩
  simp only [exec_contextRestore, execContextRestore, hc, hs, if_true, event]

/-- Without held commands a restored context is as it was (R295). -/
theorem State.applyHeld_none {s : State} {cid : Nat} {c : Ctx} (hc : aget s.ctxs cid = some c) (hh : c.held = []) :
    s.applyHeld cid = { s with ctxs := (s.applyHeld cid).ctxs } ∧ ∀ k, aget (s.applyHeld cid).ctxs k = aget s.ctxs k := by
  have ht : s.applyHeld cid = s.modCtx cid fun c => { c with held := [] } := by
    simp only [State.applyHeld, hc, hh, List.foldl_nil]
  rw [ht]
  refine ⟨rfl, fun k => ?_⟩
  rw [State.modCtx, aget_amod]
  by_cases hk : k = cid
  · subst hk
    simp only [hc, Option.map_some, if_true]
    rw [← hh]
  · simp [hk]

/-- Settles O46: the slice that ends, the launch that is pre-empted, the context that is restored, and the restored
launches of a scheduled one. -/
theorem contextSwitches : Obligations.ContextSwitches := by
  unfold Obligations.ContextSwitches
  refine ⟨fun cid s c hc hs hb hf hi => ?slice, fun lid s l hl ha hf hi => ?preempt, fun cid s c hc hs hm =>
    ⟨fun hp => ?waits, fun hp => ?restore⟩, fun cid s c hc hs => ?resume⟩
  case slice =>
    obtain ⟨r, q, hr, hq, hx⟩ := execTimeSliceExpiry_switches hc hs hb hf hi.cohorts
    have hg := q.refillAll_refills.pool.rest
    have hctxs : q.refillAll.ctxs = amod s.ctxs cid fun c => { c with scheduled := false } := by
      rw [hg, hq.rest, hr.rest]
      rfl
    refine ⟨_, hx, by rw [hctxs, aget_amod_same, hc]; rfl, fun k hk => by rw [hctxs, aget_amod_other _ _ hk],
      by rw [hg, hq.rest, hr.rest]; rfl, by rw [hg, hq.rest, hr.rest]; rfl, fun k x hk => ?_⟩
    have hcoh : r.cohorts = s.cohorts := by rw [hr.rest]; rfl
    have hqc : q.refillAll.cohorts = q.cohorts := by rw [hg]
    rw [hqc, hq.cohorts, hcoh, hk, Option.map_some, Cohort.asked_if]
    simp only [List.contains_iff_mem]
  case preempt =>
    obtain ⟨q, hq, hx⟩ := execLaunchPreemption_switches hl ha hf hi.cohorts
    have hg := q.refillAll_refills
    have hgr := hg.pool.rest
    have hql : aget q.launches lid = some { l with
        saved := l.saved ++ (s.walkers.filter fun w => w.launch == lid).map fun w =>
          { sec := w.sec, lo := w.cursor, hi := w.limit }
        preempted := true } := by
      rw [hq.rest]
      simp only [State.saveWalkers, State.modLaunch, aget_amod_same, hl, Option.map_some]
    have hpre := hg.field (f := Launch.preempted) (fun _ => rfl) lid
    have hsav := hg.field (f := Launch.saved) (fun _ => rfl) lid
    rw [hql, Option.map_some] at hpre hsav
    obtain ⟨x, hxl, hxp⟩ := Option.map_eq_some_iff.mp hpre
    rw [hxl, Option.map_some, Option.some.injEq] at hsav
    refine ⟨_, x, hx, hxl, hxp, by rw [hgr, hq.rest]; rfl, by rw [hgr, hq.rest]; rfl, fun w hw hwl => ?_, fun k y hk => ?_⟩
    · rw [hsav]
      exact List.mem_append_right _ (List.mem_map.mpr ⟨w, List.mem_filter.mpr ⟨hw, beq_iff_eq.mpr hwl⟩, rfl⟩)
    · have hqc : q.refillAll.cohorts = q.cohorts := by rw [hgr]
      rw [hqc, hq.cohorts]
      show (aget s.cohorts k).map _ = _
      rw [hk, Option.map_some, Cohort.asked_if]
      simp only [List.mem_singleton]
  case waits =>
    simp only [exec_contextRestore, execContextRestore, hc, hs, hp, Bool.false_eq_true, if_false, event]
  case restore =>
    obtain ⟨r, hr, hx⟩ := execContextRestore_restores hc hs hm hp
    have hrest := hr.pool.rest
    have hctxs : r.ctxs = amod s.ctxs cid fun c => { c with scheduled := true, migrated := false } := by
      rw [hrest]
      rfl
    have hrc : aget r.ctxs cid = some { c with scheduled := true } := by
      rw [hctxs, aget_amod_same, hc, Option.map_some, ← hm]
    refine ⟨r, _, hx, rfl, hrc, fun k hk => by rw [hctxs, aget_amod_other _ _ hk], by rw [hrest]; rfl, by rw [hrest]; rfl,
      by rw [hrest]; rfl, fun l x hm hp hl => ?_, fun hh => State.applyHeld_none hrc hh⟩
    exact (hr.launch (List.mem_filter.mpr ⟨hm, beq_iff_eq.mpr hp⟩) hl).1
  case resume =>
    obtain ⟨t, ht, hx⟩ := execContextRestore_resumes hc hs
    refine ⟨t, hx, by rw [ht.pool.rest], by rw [ht.pool.rest], by rw [ht.pool.rest], fun l x hm hl => ?_⟩
    obtain ⟨hsaved, hpre⟩ := ht.launch hm hl
    refine ⟨?_, hsaved⟩
    have hmap := aget_mapIf s.launches (fun e => (s.preemptedOf cid).contains e.1 = true)
      (fun l => { l with preempted := false }) l
    have hall := (congrArg (Option.map Launch.preempted) hmap).symm.trans hpre
    rw [Option.map_map] at hall
    obtain ⟨y, -, hy⟩ := Option.map_eq_some_iff.mp hall
    simp only [Function.comp_apply, List.contains_iff_mem, hm, if_true] at hy
    exact hy.symm

end Sys2Proof.Machine
end

section
/-! SUPPORT. What the ends of launches, signals and starts leave of a launch's record, and of the hub's reservation for a
gang (R75, R303, R334). -/

namespace Sys2Proof.Machine

/-- l' is l but for its ranges, its end, and the writes that happen before its signal. -/
def Launch.Alike (l l' : Launch) : Prop :=
  l' = { l with
    pend := l'.pend, saved := l'.saved, status := l'.status, signaled := l'.signaled, endView := l'.endView }

theorem Launch.Alike.refl (l : Launch) : l.Alike l := rfl

theorem Launch.Alike.trans {a b c : Launch} (h : a.Alike b) (g : b.Alike c) : a.Alike c := by
  unfold Launch.Alike at *
  rw [g, h]

/-- Every launch of t is alike to that of s, and the hub begins no reservation. -/
structure State.Records (s t : State) : Prop where
  rel : ∀ k, Option.Rel Launch.Alike (aget s.launches k) (aget t.launches k)
  gang : s.hub.gang = none → t.hub.gang = none

section
variable {s t : State}

theorem State.Records.of_map {f : Nat → Launch → Launch} (hf : ∀ (k : Nat) (l : Launch), l.Alike (f k l))
    (h : ∀ k, aget t.launches k = (aget s.launches k).map (f k)) (hg : t.hub = s.hub) : s.Records t :=
  ⟨fun k => by rw [h k]; exact rel_map fun l _ => hf k l, fun h => by rw [hg, h]⟩

theorem State.Records.of_eq (h : t.launches = s.launches) (hg : t.hub = s.hub) : s.Records t :=
  .of_map (f := fun _ => id) (fun _ => .refl) (fun _ => by rw [h, Option.map_id_fun, id]) hg

theorem State.Records.refl (s : State) : s.Records s := .of_eq rfl rfl

theorem State.Records.trans {u : State} (h : s.Records t) (g : t.Records u) : s.Records u := by
  refine ⟨fun k => ?_, fun hs => g.gang (h.gang hs)⟩
  have hk := h.rel k
  have gk := g.rel k
  generalize aget s.launches k = n at hk ⊢
  generalize aget t.launches k = o at hk gk
  generalize aget u.launches k = p at gk ⊢
  cases hk with
  | none => exact gk
  | some he =>
    cases gk with
    | some ge => exact .some (he.trans ge)

theorem State.Records.get (h : s.Records t) {k : Nat} {l : Launch} (hl : aget s.launches k = some l) :
    ∃ l', aget t.launches k = some l' ∧ l.Alike l' := by
  have hk := h.rel k
  rw [hl] at hk
  generalize aget t.launches k = o at hk ⊢
  cases hk with
  | some he => exact ⟨_, rfl, he⟩

theorem State.Records.of_get (h : s.Records t) {k : Nat} {l' : Launch} (hl : aget t.launches k = some l') :
    ∃ l, aget s.launches k = some l ∧ l.Alike l' := by
  have hk := h.rel k
  rw [hl] at hk
  generalize aget s.launches k = o at hk ⊢
  cases hk with
  | some he => exact ⟨_, rfl, he⟩

/-- One launch is changed. -/
theorem State.Records.of_amod {lid : Nat} {f : Launch → Launch} (hf : ∀ l : Launch, l.Alike (f l))
    (h : t.launches = amod s.launches lid f) (hg : t.hub = s.hub) : s.Records t := by
  refine .of_map (f := fun k l => if k = lid then f l else l) (fun k l => ?_) (fun k => by rw [h, aget_amod]) hg
  split
  · exact hf l
  · exact .refl l

theorem State.Records.foldl {α : Type} {g : State → α → State} (hg : ∀ (t : State) (x : α), t.Records (g t x)) (xs : List α)
    (s : State) : s.Records (xs.foldl g s) :=
  List.foldlRecOn (motive := s.Records) xs g (.refl s) fun t ht x _ => ht.trans (hg t x)

theorem State.Observed.records (h : s.Observed t) : s.Records t := .of_eq (by rw [h.rest]) (by rw [h.rest])

theorem State.Refills.records (h : s.Refills t) : s.Records t := by
  refine ⟨fun k => ?_, fun hs => by rw [h.pool.rest, hs]⟩
  have hk := h.launches k
  generalize aget s.launches k = o at hk ⊢
  generalize aget t.launches k = o' at hk ⊢
  cases o with
  | none =>
    rw [Option.map_none, Option.map_eq_none_iff] at hk
    subst hk
    exact .none
  | some l =>
    rw [Option.map_some, Option.map_eq_some_iff] at hk
    obtain ⟨l', rfl, hl⟩ := hk
    refine .some ?_
    cases l
    cases l'
    simp only [Launch.mk.injEq] at hl
    simp only [Launch.Alike, hl]

end

/-! ## The end of a launch -/

theorem State.dropCohort_records (s : State) (coh : Nat) : s.Records (s.dropCohort coh) := by
  refine .of_eq (s.dropCohort_launches coh) ?_
  unfold State.dropCohort
  split
  · rw [State.writeBack_state]
  · rfl

theorem State.disarm_records (s : State) (lid : Nat) : s.Records (s.disarm lid) := by
  refine .of_eq (s.disarm_launches lid) ?_
  unfold State.disarm
  split <;> rfl

theorem State.dropGang_records (s : State) (lid : Nat) (l : Launch) : s.Records (s.dropGang lid l) := by
  unfold State.dropGang
  split
  · exact .refl s
  · refine ⟨fun k => ?_, fun hg => by simp only [hg]⟩
    show Option.Rel _ _ (aget (s.launches.map fun p =>
      if l.parts.contains p.1 && p.2.held && p.2.status.isNone then (p.1, { p.2 with status := some stRollback }) else p) k)
    rw [aget_mapIf s.launches (fun e => (l.parts.contains e.1 && e.2.held && e.2.status.isNone) = true)
      (fun x => { x with status := some stRollback }) k]
    refine rel_map fun x _ => ?_
    split <;> exact .refl _

theorem State.haltLaunch_records (s : State) (lid : Nat) (l : Launch) : s.Records (s.haltLaunch lid l) := by
  refine ((State.Records.foldl (fun t c => ?_) (s.launchCohorts lid) s).trans (State.disarm_records ..)).trans
    (State.dropGang_records ..)
  exact (State.Records.of_amod (t := t.beforeSignal lid (t.completedBy c.1)) (lid := lid)
    (f := fun l => { l with endView := joinView l.endView (t.completedBy c.1) }) (fun _ => rfl) rfl rfl).trans
      (State.dropCohort_records ..)

theorem State.markEnded_records (s : State) (lid status : Nat) : s.Records (s.markEnded lid status) :=
  .of_amod (f := fun l => { l with pend := [], saved := [], status := some status }) (fun _ => rfl) rfl rfl

theorem State.endLaunch_records (s : State) (lid status : Nat) : s.Records (s.endLaunch lid status) := by
  cases hl : aget s.launches lid with
  | none =>
    rw [State.endLaunch, hl]
    exact .refl s
  | some l =>
    cases h : l.status with
    | some n =>
      rw [State.endLaunch_ended hl (by rw [h]; rfl)]
      exact .refl s
    | none =>
      rw [State.endLaunch_running hl h]
      have hfix := State.Records.of_eq (s := (s.haltLaunch lid l).markEnded lid status)
        (t := ((s.haltLaunch lid l).markEnded lid status).fixRotation) rfl rfl
      exact (((s.haltLaunch_records lid l).trans (State.markEnded_records ..)).trans hfix).trans
        (State.refillAll_refills _).records

theorem State.stopPartition_records (s : State) (pid : Nat) : s.Records (s.stopPartition pid) := by
  have h : s.Records (s.launches.foldl (fun s l => if l.2.pid == pid then s.endLaunch l.1 stFault else s) s) := by
    refine .foldl (fun t l => ?_) _ _
    split
    · exact t.endLaunch_records ..
    · exact .refl t
  refine h.trans ⟨fun k => ?_, id⟩
  show Option.Rel _ _ (aget (List.map (fun l : Nat × Launch => if l.2.pid = pid then (l.1, { l.2 with signaled := true }) else l)
    _) k)
  rw [aget_mapIf _ (fun e : Nat × Launch => e.2.pid = pid) (fun l => { l with signaled := true }) k]
  refine rel_map fun x _ => ?_
  split <;> exact .refl _

/-! ## Stores of agents -/

/-- Where the computation ends well, launches are as they were but for their ends. -/
structure Recorded {α : Type} (x : M α) : Prop where
  records : ∀ (s t : State) (a : α), x s = .ok a t → s.Records t

theorem Observes.recorded {α : Type} {x : M α} (h : Observes x) : Recorded x := ⟨fun s t a hx => (h.observed s t a hx).records⟩

theorem Recorded.bind {α β : Type} {x : M α} {f : α → M β} (hx : Recorded x) (hf : ∀ a, Recorded (f a)) :
    Recorded (x >>= f) := by
  refine ⟨fun s t b h => ?_⟩
  cases hxs : x s with
  | ok a s' =>
    rw [bind_ok hxs] at h
    exact (hx.records s s' a hxs).trans ((hf a).records s' t b h)
  | error f' s' =>
    rw [bind_error hxs] at h
    cases h

theorem State.writeMem_records (s : State) (key : Nat) (bs : List Byte) (view : List Nat) (rels : List Rel) :
    s.Records (s.writeMem key bs view rels) := by
  have hrd := (s.recall_observed key bs.length false).records
  have hlog := State.logMsg_state (s.readMem key bs.length).2 key (s.readMem key bs.length).1 bs view rels [] false true
  refine hrd.trans ((State.Records.of_eq (t := ((s.readMem key bs.length).2.logMsg key (s.readMem key bs.length).1 bs view
    rels [] false true).2) (by rw [hlog]; rfl) (by rw [hlog]; rfl)).trans ?_)
  exact (State.recall_observed _ key bs.length true).records.trans (.of_eq rfl rfl)

theorem storeM_recorded (w : Who) (key : Nat) (bs : List Byte) (view : List Nat) (rels : List Rel) :
    Recorded (storeM w key bs view rels) := by
  refine (linkNeedM_observes key).recorded.bind fun b => ?_
  cases b with
  | true => exact ⟨fun s t a h => by cases h; exact s.stopPartition_records w.pid⟩
  | false => exact ⟨fun s t a h => by cases h; exact s.writeMem_records ..⟩

theorem writeVirt_recorded (w : Who) (acc unit units : Nat) (view : List Nat) (rels : List Rel) (ptr : Dword)
    (bs : List Byte) : Recorded (writeVirt w ptr acc unit bs units view rels) := by
  induction units generalizing ptr bs with
  | zero => exact (observes_pure _).recorded
  | succ u ih => exact (checkPlace_observes ..).recorded.bind fun _ => (storeM_recorded ..).bind fun _ => ih ..

theorem tryAgent_records {α : Type} {x : M α} (s : State) (w : Who) (hx : Recorded x) : s.Records (tryAgent s w x).2 := by
  unfold tryAgent
  split
  · next h => exact hx.records _ _ _ h
  · next f s' _ =>
    have h : s.Records { s with free := s'.free, seen := s'.seen } := .of_eq rfl rfl
    dsimp only
    split
    · exact h.trans (State.stopPartition_records ..)
    · exact h

/-! ## Statuses, signals and starts -/

theorem State.signaling_records (s : State) (lid : Nat) (l : Launch) : s.Records (s.signaling lid l) := by
  unfold State.signaling
  split <;> exact .of_amod (f := fun l => { l with signaled := true }) (fun _ => rfl) rfl rfl

theorem State.signal_records (s : State) (lid : Nat) : s.Records (s.signal lid) := by
  cases hl : aget s.launches lid with
  | none =>
    simp only [State.signal, hl]
    exact .refl s
  | some l =>
    have h := s.signaling_records lid l
    simp only [State.signal, hl]
    split
    · split_ifs
      · exact .refl s
      · exact h
      · exact h
      · exact h.trans (tryAgent_records (s.signaling lid l) _ (writeVirt_recorded ..))
    · exact h
    · exact .refl s

/-- The state in which a launch has a status, before freed slots load ranges. -/
def State.closed (s : State) (lid st : Nat) : State :=
  State.modLaunch { s with
      walkers := s.walkers.filter fun w => w.launch != lid
      works := s.works.filter fun r => r.launch != lid } lid fun l =>
    { l with status := some (l.status.getD st), pend := [], saved := [] }

theorem State.setStatus_closed (s : State) (lid st : Nat) : s.setStatus lid st = (s.closed lid st).refillAll := rfl

theorem State.closed_records (s : State) (lid st : Nat) : s.Records (s.closed lid st) :=
  .of_amod (f := fun l => { l with status := some (l.status.getD st), pend := [], saved := [] }) (fun _ => rfl) rfl rfl

theorem State.setStatus_records (s : State) (lid st : Nat) : s.Records (s.setStatus lid st) :=
  (s.closed_records lid st).trans (State.refillAll_refills _).records

theorem State.refuse_records (s : State) (lid st : Nat) : s.Records (s.refuse lid st) :=
  (s.setStatus_records lid st).trans (State.signal_records ..)

theorem State.divide_refills (s : State) (lid : Nat) : s.Refills (s.divide lid) := by
  unfold State.divide
  split
  · exact .refl s
  · refine List.foldlRecOn (motive := s.Refills) _ _ (.refl s) fun t ht r _ => ht.trans ?_
    have h : t.Refills (t.modLaunch lid fun l => { l with pend := l.pend ++ [r.1] }) := by
      refine ⟨⟨rfl⟩, fun k => ?_⟩
      rw [State.modLaunch, aget_amod, Option.map_map]
      refine Option.map_congr fun l _ => ?_
      simp only [Function.comp_apply]
      split <;> rfl
    dsimp only
    split
    · exact h.trans (State.loadRange_refills ..)
    · exact h

theorem State.start_records (s : State) (lid : Nat) : s.Records (s.start lid) := by
  unfold State.start
  split
  · exact .refl s
  · split_ifs
    · exact .of_eq rfl rfl
    · exact s.refuse_records ..
    · exact .refl s
    · exact (s.divide_refills lid).records

/-- A launch that has been given a status and its signal keeps the status that it had (R75). -/
theorem State.refuse_launch {s : State} {lid : Nat} {l : Launch} (hl : aget s.launches lid = some l) (st : Nat) :
    ∃ x, aget (s.refuse lid st).launches lid = some x ∧ l.Alike x ∧ x.status = some (l.status.getD st) ∧
      x.signaled = true := by
  have hm : aget (s.closed lid st).launches lid =
      some { l with status := some (l.status.getD st), pend := [], saved := [] } := by
    rw [State.closed, State.modLaunch, aget_amod_same, hl, Option.map_some]
  have hf := (State.refillAll_refills (s.closed lid st)).field (f := Launch.status) (fun _ => rfl) lid
  rw [hm, Option.map_some] at hf
  obtain ⟨y, hy, hys⟩ := Option.map_eq_some_iff.mp hf
  obtain ⟨x, hx, hxs, hsig⟩ := State.signal_launch (s := s.setStatus lid st) hy hys
  obtain ⟨x', hx', ha⟩ := (s.refuse_records lid st).get hl
  cases hx.symm.trans hx'
  exact ⟨x, hx, ha, hxs, hsig⟩

end Sys2Proof.Machine
end

section
/-! SUPPORT. Acceptance, completion and gangs (R67 to R77, R94, R334, R430). -/

namespace Sys2Proof.Machine

theorem exec_completionSignalWrite (launch : Nat) (s : State) :
    exec (.completionSignalWrite launch) s = execCompletionSignalWrite launch s := rfl

theorem exec_gangReservationTimeout (s : State) : exec .gangReservationTimeout s = execGangReservationTimeout s := rfl

theorem exec_gangCommit (s : State) : exec .gangCommit s = execGangCommit s := rfl

theorem exec_deviceLaunchQueueTake (cid sec : Nat) (s : State) :
    exec (.deviceLaunchQueueTake cid sec) s = execDeviceLaunchQueueTake cid sec s := rfl

/-! ## Acceptance -/

/-- What of a launch is of the record that it was accepted from. -/
theorem Launch.Alike.record {l x : Launch} (h : l.Alike x) : x.rc = l.rc ∧ x.cid = l.cid ∧ x.pid = l.pid ∧ x.sec = l.sec ∧
    x.ownerQ = l.ownerQ ∧ x.fromRing = l.fromRing ∧ x.view = l.view ∧ x.groups = l.groups ∧ x.held = l.held := by
  rw [h]
  exact ⟨rfl, rfl, rfl, rfl, rfl, rfl, rfl, rfl, rfl⟩

/-- A launch stands in the table under its number. -/
theorem State.addLaunch_launch (s : State) (l : Launch) : aget (s.addLaunch l).2.launches s.nextId = some l :=
  aget_aset_same ..

/-- How an accepted launch starts (R77, R94). -/
theorem State.start_launch {s : State} {lid : Nat} {l : Launch} (hl : aget s.launches lid = some l) (hs : l.status = none) :
    ∃ x, aget (s.start lid).launches lid = some x ∧ l.Alike x ∧
      (l.rc.kind = 2 → x.status = none ∧ aget (s.start lid).bins (binKey l.sec l.rc.bin) = some { launch := lid }) ∧
      (l.rc.kind ≠ 2 → l.rc.space ≠ 0 → x.status = none) ∧
      (l.rc.kind ≠ 2 → l.rc.space = 0 → x.status = some stOk ∧ x.signaled = true) := by
  by_cases hk : l.rc.kind = 2
  · have hstart : s.start lid = { s with bins := aset s.bins (binKey l.sec l.rc.bin) { launch := lid } } := by
      simp only [State.start, hl, hk, if_true]
    rw [hstart]
    exact ⟨l, hl, .refl l, fun _ => ⟨hs, aget_aset_same ..⟩, fun h => absurd hk h, fun h => absurd hk h⟩
  by_cases hsp : l.rc.space = 0
  · have hstart : s.start lid = s.refuse lid stOk := by simp only [State.start, hl, hk, hsp, if_false, if_true]
    obtain ⟨x, hx, ha, hst, hsig⟩ := State.refuse_launch hl stOk
    rw [hstart]
    rw [hs] at hst
    exact ⟨x, hx, ha, fun h => absurd h hk, fun _ h => absurd hsp h, fun _ _ => ⟨hst, hsig⟩⟩
  · have hr : s.Refills (s.start lid) := by
      simp only [State.start, hl, hk, hsp, if_false]
      split
      · exact .refl s
      · exact s.divide_refills lid
    obtain ⟨x, hx, ha⟩ := hr.records.get hl
    have hst := hr.field (f := Launch.status) (fun _ => rfl) lid
    rw [hx, hl, Option.map_some, Option.map_some, Option.some.injEq] at hst
    exact ⟨x, hx, ha, fun h => absurd h hk, fun _ _ => hst.trans hs, fun _ h => absurd h hsp⟩

theorem State.acceptRecord_plain {s : State} {cid sec : Nat} {ctx : Ctx} {src : Source} {b : List Byte}
    (hc : aget s.ctxs cid = some ctx) (hs : ctx.stopped = false) (hk : (recordOf b).kind = 1 ∨ (recordOf b).kind = 2) :
    s.acceptRecord cid sec src b = s.acceptPlain cid sec ctx src b := by
  have hb : (decide ((recordOf b).kind = 1) || decide ((recordOf b).kind = 2)) = true := by simpa using hk
  simp only [State.acceptRecord, hc, hs, Bool.false_eq_true, if_false, hb, if_true]

section
variable {s r : State} {cid sec : Nat} {ctx : Ctx} {src : Source} {b : List Byte}

/-- A record that the front end's tests refuse (R74). -/
theorem State.acceptPlain_error {st : Nat} (ht : s.test cid ctx sec b (recordOf b) src.view = (.error st, r)) :
    s.acceptPlain cid sec ctx src b =
      (r.addLaunch (src.launch cid ctx sec (recordOf b))).2.refuse r.nextId st := by
  simp only [State.acceptPlain, ht]
  rfl

/-- An accepted record (R74). -/
theorem State.acceptPlain_ok {gs : Assoc GroupEnt} (ht : s.test cid ctx sec b (recordOf b) src.view = (.ok gs, r)) :
    s.acceptPlain cid sec ctx src b =
      (r.addLaunch { src.launch cid ctx sec (recordOf b) with groups := gs }).2.start r.nextId := by
  simp only [State.acceptPlain, ht]
  rfl

/-- A GANG record in a context without the feature GANG (R178). -/
theorem State.acceptRecord_gangless (hc : aget s.ctxs cid = some ctx) (hs : ctx.stopped = false)
    (hk : (recordOf b).kind = 3) (hg : ctx.has 9 = false) : s.acceptRecord cid sec src b =
      (s.addLaunch (src.launch cid ctx sec (recordOf b))).2.refuse s.nextId stBadField := by
  simp only [State.acceptRecord, hc, hs, Bool.false_eq_true, if_false, hk, if_true, State.acceptGang, hg, Bool.not_false]
  rfl

end

/-! ## Device-launch records -/

/-- The front end has taken the oldest record of a device-launch queue (R430). -/
def State.devTaken (s : State) (cid sec : Nat) (rest : List DevRec) : State :=
  { s with
    nextId := s.nextId + 1
    devq := if rest.isEmpty then adel s.devq (devKey cid sec) else aset s.devq (devKey cid sec) rest
    devTurn := aset s.devTurn (devKey cid sec) s.nextId }

theorem State.devTaken_queue (s : State) (cid sec : Nat) (rest : List DevRec) :
    (s.devTaken cid sec rest).devQueue cid sec = rest := by
  unfold State.devQueue State.devTaken
  dsimp only
  cases rest with
  | nil => rw [List.isEmpty_nil, if_pos rfl, aget_adel_same, Option.getD_none]
  | cons r t => rw [List.isEmpty_cons, if_neg Bool.false_ne_true, aget_aset_same, Option.getD_some]

theorem State.devTaken_others (s : State) (cid sec : Nat) (rest : List DevRec) {k : Nat} (hk : k ≠ devKey cid sec) :
    aget (s.devTaken cid sec rest).devq k = aget s.devq k := by
  unfold State.devTaken
  dsimp only
  split
  · exact aget_adel_other _ hk
  · exact aget_aset_other _ _ hk

theorem execDeviceLaunchQueueTake_accepts {s : State} {cid sec : Nat} {r : DevRec} {rest : List DevRec}
    (hn : ((s.nextServed sec).map fun x => (x.dev, x.key)) = some (true, devKey cid sec))
    (hq : s.devQueue cid sec = r :: rest) : exec (.deviceLaunchQueueTake cid sec) s =
      .next (((s.devTaken cid sec rest).acceptRecord cid sec
        { owner := r.ownerQ, ring := false, cap := r.prioCap, view := r.view } r.bytes).devAdmit cid sec) := by
  simp only [exec_deviceLaunchQueueTake, execDeviceLaunchQueueTake, hn, ne_eq, not_true, if_false, hq, event]
  rfl

/-! ## The initial division of an index space (R77) -/

theorem le_mul_ceilDiv (n : Nat) {m : Nat} (hm : 0 < m) : n ≤ m * ceilDiv n m := by
  have h := Nat.lt_div_mul_add hm (a := n + m - 1)
  rw [Nat.mul_comm] at h
  unfold ceilDiv
  omega

/-- The length of the initial ranges (R77). -/
def rangeLen (m n grain : Nat) : Nat := roundUp (ceilDiv n m) grain

theorem le_mul_rangeLen (n : Nat) {m grain : Nat} (hm : 0 < m) (hg : 0 < grain) : n ≤ m * rangeLen m n grain := by
  have h : ceilDiv n m ≤ rangeLen m n grain := by
    rw [rangeLen, roundUp, Nat.mul_comm]
    exact le_mul_ceilDiv _ hg
  exact (le_mul_ceilDiv n hm).trans (Nat.mul_le_mul_left m h)

theorem grain_dvd_rangeLen (m n grain : Nat) : grain ∣ rangeLen m n grain := Nat.dvd_mul_left ..

theorem mem_initialRanges {secs : List Nat} {n grain : Nat} {r : PendRange × Nat} :
    r ∈ initialRanges secs n grain ↔ ∃ j, j < 32 * secs.length ∧
      min n (j * rangeLen (32 * secs.length) n grain) < min n ((j + 1) * rangeLen (32 * secs.length) n grain) ∧
      r = ({ sec := secs.getD (j / 32) 0, lo := min n (j * rangeLen (32 * secs.length) n grain),
             hi := min n ((j + 1) * rangeLen (32 * secs.length) n grain) }, j % 32) := by
  unfold initialRanges rangeLen
  simp only [List.mem_filterMap, List.mem_range, Option.ite_none_right_eq_some, Option.some.injEq]
  exact exists_congr fun j => and_congr_right fun _ => and_congr_right fun _ => eq_comm

theorem initialRanges_pairwise (secs : List Nat) (n grain : Nat) :
    (initialRanges secs n grain).Pairwise fun a b => a.1.hi ≤ b.1.lo := by
  unfold initialRanges
  refine (List.pairwise_lt_range (n := 32 * secs.length)).filterMap _ fun j k hjk a ha b hb => ?_
  simp only [Option.ite_none_right_eq_some, Option.some.injEq] at ha hb
  obtain ⟨-, rfl⟩ := ha
  obtain ⟨-, rfl⟩ := hb
  exact min_le_min_left n (Nat.mul_le_mul_right _ hjk)

theorem initialRanges_cover {secs : List Nat} {n grain i : Nat} (hs : 0 < secs.length) (hg : 0 < grain) (hi : i < n) :
    ∃ r ∈ initialRanges secs n grain, r.1.lo ≤ i ∧ i < r.1.hi := by
  have hn := le_mul_rangeLen n (m := 32 * secs.length) (grain := grain) (by omega) hg
  generalize hlen : rangeLen (32 * secs.length) n grain = len at hn
  have hpos : 0 < len := Nat.pos_of_ne_zero fun h => by rw [h] at hn; omega
  have hlo : i / len * len ≤ i := Nat.div_mul_le_self i len
  have hhi : i < (i / len + 1) * len := by rw [Nat.mul_comm]; exact Nat.lt_mul_div_succ i hpos
  refine ⟨_, mem_initialRanges.mpr ⟨i / len, ?_, ?_, rfl⟩, ?_, ?_⟩
  · exact Nat.div_lt_of_lt_mul (by rw [Nat.mul_comm]; omega)
  all_goals simp only [hlen]; omega

/-! ## Completion -/

/-- The signal of a launch without a pointer writes nothing (R75). -/
theorem State.signal_unaddressed {s : State} {lid : Nat} {l : Launch} (hl : aget s.launches lid = some l)
    (hz : l.rc.signal = 0) : (s.signal lid).mem = s.mem := by
  have hm : (s.signaling lid l).mem = s.mem := by
    unfold State.signaling
    split <;> rfl
  simp only [State.signal, hl, hz, decide_true, Bool.true_or, if_true]
  split
  · split_ifs
    · rfl
    · exact hm
    · exact hm
  · exact hm
  · rfl

/-- The launch under a number, if there is one, has ended, and its signal is written. -/
def State.Over (s : State) (lid : Nat) : Prop :=
  ∀ x, aget s.launches lid = some x → x.status.isSome = true ∧ x.signaled = true

theorem State.refuse_over (s : State) (lid st : Nat) : (s.refuse lid st).Over lid := by
  intro x hx
  obtain ⟨l, hl, -⟩ := (s.refuse_records lid st).of_get hx
  obtain ⟨y, hy, -, hst, hsig⟩ := State.refuse_launch hl st
  cases hx.symm.trans hy
  exact ⟨by rw [hst]; rfl, hsig⟩

theorem State.Ending.over {st : Nat} {s t : State} (h : State.Ending st s t) {p : Nat} (hp : s.Over p) : t.Over p := by
  intro x hx
  obtain ⟨l, hl, he⟩ := h.of_get hx
  obtain ⟨hst, hsig⟩ := hp l hl
  obtain ⟨n, hn⟩ := Option.isSome_iff_exists.mp hst
  exact ⟨by rw [he.keeps hn]; rfl, he.signaled hsig⟩

theorem State.closed_ending (s : State) (lid st : Nat) : State.Ending st s (s.closed lid st) := by
  refine .of_amod (lid := lid) (f := fun l => { l with status := some (l.status.getD st), pend := [], saved := [] })
    (fun l _ => ⟨rfl, id, ?_⟩) rfl
  cases hs : l.status with
  | none => exact .inr ⟨rfl, .inl rfl⟩
  | some n => exact .inl rfl

theorem State.signaling_ending (st : Nat) (s : State) (lid : Nat) (l : Launch) : State.Ending st s (s.signaling lid l) := by
  refine .of_amod (lid := lid) (f := fun l => { l with signaled := true }) (fun l _ => ⟨rfl, fun _ => rfl, .inl rfl⟩) ?_
  unfold State.signaling
  split <;> rfl

theorem State.Over.signal {s : State} {p : Nat} (hp : s.Over p) (q : Nat) : (s.signal q).Over p := by
  cases hl : aget s.launches q with
  | none => simpa only [State.signal, hl] using hp
  | some l =>
    cases hn : l.signaled with
    | true =>
      rcases State.signal_signaled hl hn with h | h <;> rw [h]
      · exact hp
      · exact (s.signaling_ending stFault q l).over hp
    | false =>
      cases hs : l.status with
      | none => simpa only [State.signal, hl, hs] using hp
      | some st => exact (State.signal_ending hl hs hn).over ((s.signaling_ending stFault q l).over hp)

/-- A launch that is over stays so while another is refused. -/
theorem State.Over.refuse {s : State} {p : Nat} (hp : s.Over p) (q st : Nat) : (s.refuse q st).Over p :=
  State.Over.signal ((State.refillAll_ending st _).over ((s.closed_ending q st).over hp)) q

/-- A rollback ends the reservation, the gang and its parts (R334). -/
theorem State.rollback_eq {s : State} {g : GangRes} (hg : s.hub.gang = some g) : s.rollback g.launch =
    ((((aget s.launches g.launch).map Launch.parts).getD []).foldl (fun (s : State) p => s.refuse p stRollback)
      { s with hub := { s.hub with gang := none } }).refuse g.launch stRollback := by
  simp only [State.rollback, hg, if_true]

theorem State.foldl_refuse_over (ps : List Nat) (s : State) {p : Nat} (h : p ∈ ps ∨ s.Over p) :
    (ps.foldl (fun s p => s.refuse p stRollback) s).Over p := by
  induction ps generalizing s with
  | nil => exact h.resolve_left (List.not_mem_nil)
  | cons q t ih =>
    refine ih _ ?_
    rcases h with h | h
    · rcases List.mem_cons.mp h with rfl | h
      · exact .inr (s.refuse_over p stRollback)
      · exact .inl h
    · exact .inr (h.refuse q stRollback)

/-! ## Commit -/

theorem State.foldl_modLaunch (ps : List Nat) (f : Launch → Launch) (s : State) :
    ps.foldl (fun s p => s.modLaunch p f) s = { s with launches := ps.foldl (fun m p => amod m p f) s.launches } := by
  induction ps generalizing s with
  | nil => rfl
  | cons p t ih => rw [List.foldl_cons, ih]; rfl

/-- The parts of a committed gang wait no longer, and the hub reserves for none (R334). -/
theorem State.commit_starts (s : State) (ps : List Nat) : (s.commit ps).hub.gang = none ∧
    ∀ p x, p ∈ ps → aget (s.commit ps).launches p = some x → x.held = false := by
  unfold State.commit
  rw [State.foldl_modLaunch]
  dsimp only
  generalize hy : ({ s with
    hub := { s.hub with gang := none }
    launches := ps.foldl (fun m p => amod m p fun l => { l with held := false }) s.launches } : State) = y
  have h := State.Records.foldl (fun t p => t.start_records p) ps y
  refine ⟨h.gang (by rw [← hy]), fun p x hp hx => ?_⟩
  obtain ⟨l, hl, ha⟩ := h.of_get hx
  obtain ⟨-, -, -, -, -, -, -, -, hheld⟩ := ha.record
  rw [← hy] at hl
  dsimp only at hl
  rw [aget_foldl_amod_list s.launches ps (f := fun l => { l with held := false }) (fun _ => rfl)] at hl
  obtain ⟨l0, -, hl0⟩ := Option.map_eq_some_iff.mp hl
  rw [if_pos hp] at hl0
  rw [hheld, ← hl0]

end Sys2Proof.Machine
end

section
/-! SUPPORT. The statement of acceptance, completion and gangs, clause by clause (R67 to R77, R94, R178, R334, R430). -/

namespace Sys2Proof.Machine

/-- What becomes of an ITER or BIN record that a front end takes (R67, R74, R77, R94). -/
theorem State.acceptRecord_launch {cid sec : Nat} {s r : State} {ctx : Ctx} {src : Source} {b : List Byte}
    {x : Except Nat (Assoc GroupEnt)} (hc : aget s.ctxs cid = some ctx) (hs : ctx.stopped = false)
    (hk : (recordOf b).kind = 1 ∨ (recordOf b).kind = 2) (ht : s.test cid ctx sec b (recordOf b) src.view = (x, r)) :
    let rc := (recordOf b).capped src.cap
    let t := s.acceptRecord cid sec src b
    ∃ l, aget t.launches r.nextId = some l ∧ l.rc = rc ∧ l.cid = cid ∧ l.pid = ctx.pid ∧ l.sec = sec ∧
      l.ownerQ = src.owner ∧ l.fromRing = src.ring ∧ l.view = src.view ∧
      (∀ st, x = .error st → l.status = some st ∧ l.signaled = true) ∧
      ∀ gs, x = .ok gs → l.groups = gs ∧
        (rc.kind = 2 → l.status = none ∧ aget t.bins (binKey sec rc.bin) = some { launch := r.nextId }) ∧
        (rc.kind = 1 → rc.space ≠ 0 → l.status = none) ∧
        (rc.kind = 1 → rc.space = 0 → l.status = some stOk ∧ l.signaled = true) := by
  intro rc t
  have hplain : t = s.acceptPlain cid sec ctx src b := State.acceptRecord_plain hc hs hk
  cases x with
  | error st =>
    obtain ⟨y, hy, ha, hst, hsig⟩ :=
      State.refuse_launch (r.addLaunch_launch (src.launch cid ctx sec (recordOf b))) st
    obtain ⟨hrc, hcid, hpid, hsec, hown, hring, hview, -, -⟩ := ha.record
    rw [hplain, State.acceptPlain_error ht]
    refine ⟨y, hy, hrc, hcid, hpid, hsec, hown, hring, hview, fun n hn => ?_, fun gs hgs => by cases hgs⟩
    cases hn
    exact ⟨hst, hsig⟩
  | ok gs =>
    obtain ⟨y, hy, ha, hbin, hrun, hend⟩ :=
      State.start_launch (r.addLaunch_launch { src.launch cid ctx sec (recordOf b) with groups := gs }) rfl
    obtain ⟨hrc, hcid, hpid, hsec, hown, hring, hview, hgroups, -⟩ := ha.record
    rw [hplain, State.acceptPlain_ok ht]
    refine ⟨y, hy, hrc, hcid, hpid, hsec, hown, hring, hview, fun n hn => (by cases hn), fun gs' hgs => ?_⟩
    cases hgs
    have hne : rc.kind = 1 → rc.kind ≠ 2 := fun h => by rw [h]; decide
    exact ⟨hgroups, hbin, fun h => hrun (hne h), fun h => hend (hne h)⟩

/-- The initial ranges of an index space are whole grains of it, in order, each in a section and a slot (R77). -/
theorem initialRanges_bounds {secs : List Nat} {n grain : Nat} {r : PendRange × Nat}
    (hr : r ∈ initialRanges secs n grain) :
    r.1.lo < r.1.hi ∧ r.1.hi ≤ n ∧ r.1.lo % grain = 0 ∧ r.1.sec ∈ secs ∧ r.2 < 32 := by
  obtain ⟨j, hj, hlt, rfl⟩ := mem_initialRanges.mp hr
  have hlo : min n (j * rangeLen (32 * secs.length) n grain) = j * rangeLen (32 * secs.length) n grain :=
    min_eq_right (Nat.le_of_not_lt fun h => by omega)
  refine ⟨hlt, Nat.min_le_left .., ?_, ?_, Nat.mod_lt _ (by decide)⟩
  · dsimp only
    rw [hlo]
    exact Nat.mod_eq_zero_of_dvd ((grain_dvd_rangeLen ..).mul_left j)
  · dsimp only
    rw [List.getD_eq_getElem _ _ (by omega)]
    exact List.getElem_mem _

/-- The completion of a launch: its status and, once, its signal (R75). -/
theorem execCompletionSignalWrite_completes {launch st : Nat} {s : State} {l : Launch}
    (hl : aget s.launches launch = some l) (hn : l.signaled = false) (hc : s.completes launch l = some st) :
    exec (.completionSignalWrite launch) s = .next ((s.setStatus launch st).signal launch) := by
  simp only [exec_completionSignalWrite, execCompletionSignalWrite, hl, hn, Bool.false_eq_true, if_false, hc, event]

theorem execCompletionSignalWrite_again {launch : Nat} {s : State} {l : Launch} (hl : aget s.launches launch = some l)
    (hn : l.signaled = true) : exec (.completionSignalWrite launch) s = .next s := by
  simp only [exec_completionSignalWrite, execCompletionSignalWrite, hl, hn, if_true, event]

theorem State.setStatus_mem (s : State) (lid st : Nat) : (s.setStatus lid st).mem = s.mem := by
  rw [State.setStatus_closed, (State.refillAll_refills _).pool.rest]
  rfl

/-- A gang's reservation that times out is rolled back: the gang and its parts end (R334). -/
theorem State.rollback_ends {s : State} {g : GangRes} (hg : s.hub.gang = some g) : (s.rollback g.launch).hub.gang = none ∧
    ∀ l p, aget s.launches g.launch = some l → (p = g.launch ∨ p ∈ l.parts) → (s.rollback g.launch).Over p := by
  rw [State.rollback_eq hg]
  refine ⟨?_, fun l p hl hp => ?_⟩
  · exact (State.refuse_records ..).gang
      ((State.Records.foldl (fun t p => t.refuse_records p stRollback) _ { s with hub := { s.hub with gang := none } }).gang rfl)
  · rcases hp with rfl | hp
    · exact State.refuse_over _ _ _
    · refine State.Over.refuse (State.foldl_refuse_over _ _ (.inl ?_)) _ _
      rw [hl]
      exact hp

/-- Settles O39: acceptance by the front end's tests, the ranges of an index space, completion, and the gang that is rolled
back or committed. -/
theorem launchesAndGangs : Obligations.LaunchesAndGangs := by
  unfold Obligations.LaunchesAndGangs
  refine ⟨⟨?accept, ?gangless, ?device, ?ranges⟩, ?complete, ?timeout, ?commit⟩
  case accept => exact fun cid sec s r ctx src b x hc hs hk ht => State.acceptRecord_launch hc hs hk ht
  case gangless =>
    intro cid sec s ctx src b hc hs hk hg
    obtain ⟨y, hy, -, hst, hsig⟩ :=
      State.refuse_launch (s.addLaunch_launch (src.launch cid ctx sec (recordOf b))) stBadField
    rw [State.acceptRecord_gangless hc hs hk hg]
    exact ⟨y, hy, hst, hsig⟩
  case device =>
    intro cid sec s r rest hn hq src
    exact ⟨_, s.devTaken cid sec rest, execDeviceLaunchQueueTake_accepts hn hq, rfl, s.devTaken_queue .., rfl,
      fun k hk => s.devTaken_others cid sec rest hk⟩
  case ranges =>
    intro secs n grain hs hg rs
    exact ⟨fun i hi => initialRanges_cover hs hg hi, initialRanges_pairwise .., fun r hr => initialRanges_bounds hr⟩
  case complete =>
    intro launch st s l hl hn hc
    obtain ⟨x, hx, ha, hst, hsig⟩ := State.refuse_launch hl st
    refine ⟨_, x, execCompletionSignalWrite_completes hl hn hc, rfl, hx, hsig, hst, ha.record.1, fun hz => ?_,
      execCompletionSignalWrite_again hx hsig⟩
    obtain ⟨y, hy, hay⟩ := (s.setStatus_records launch st).get hl
    rw [State.signal_unaddressed hy (by rw [hay.record.1, hz]), State.setStatus_mem]
  case timeout =>
    intro s g hg
    obtain ⟨hgang, hover⟩ := State.rollback_ends hg
    refine ⟨_, ?_, rfl, hgang, fun l p x hl hp hx => hover l p hl hp x hx⟩
    simp only [exec_gangReservationTimeout, execGangReservationTimeout, hg, event]
  case commit =>
    intro s g l hg hl
    refine ⟨fun ha => ?_, fun ha => ⟨fun hall => ⟨s.commit l.parts, ?_, rfl, s.commit_starts l.parts⟩, fun hall => ?_⟩⟩
    · simp only [exec_gangCommit, execGangCommit, hg, hl, ha, if_true, event]
    · simp only [exec_gangCommit, execGangCommit, hg, hl, ha, Bool.false_eq_true, if_false, hall, if_true, event]
    · simp only [exec_gangCommit, execGangCommit, hg, hl, ha, Bool.false_eq_true, if_false, hall, event]

end Sys2Proof.Machine
end

section
/-! SUPPORT. What the controllers of bins leave of the table of bins: their reads of spill rings leave it, and the ends of
launches only take bins from it (R96, R110). -/

namespace Sys2Proof.Machine

/-! ## Armings -/

theorem State.armed_iff {s : State} {k : Nat} {b : Bin} {l : Launch} :
    s.armed k = some (b, l) ↔ aget s.bins k = some b ∧ aget s.launches b.launch = some l := by
  unfold State.armed
  cases hb : aget s.bins k with
  | none => simp
  | some c =>
    simp only [Option.map_eq_some_iff, Prod.mk.injEq, Option.some.injEq]
    constructor
    · rintro ⟨x, hx, rfl, rfl⟩
      exact ⟨rfl, hx⟩
    · rintro ⟨rfl, hx⟩
      exact ⟨l, hx, rfl, rfl⟩

theorem State.modBin_same {s : State} {k : Nat} {b : Bin} (f : Bin → Bin) (hb : aget s.bins k = some b) :
    aget (s.modBin k f).bins k = some (f b) := by rw [State.modBin, aget_amod_same, hb, Option.map_some]

theorem State.modBin_other (s : State) {j k : Nat} (f : Bin → Bin) (h : j ≠ k) :
    aget (s.modBin k f).bins j = aget s.bins j := aget_amod_other _ _ h

/-! ## Reads of the spill ring -/

theorem readAfter_observes (view : List Nat) (key n : Nat) : Observes (readAfter view key n) :=
  (readMemM_observes ..).bind fun _ => ⟨fun s t a h => by
    cases h
    exact chooseSeen_observed ..⟩

theorem tryAgent_some {α : Type} {s t : State} {w : Who} {x : M α} {a : α} (h : tryAgent s w x = (some a, t)) :
    x s = .ok a t := by
  unfold tryAgent at h
  split at h
  · next hx =>
    cases h
    exact hx
  · cases h

theorem State.agentRead_observed {s t : State} {w : Who} {ptr : Dword} {n : Nat} {view : List Nat} {b : List Byte}
    (h : s.agentRead w ptr n view = (some b, t)) : s.Observed t :=
  (readVirt_observes w 7 8 (n / 8) (readAfter_observes view) ptr).observed _ _ _ (tryAgent_some h)

theorem State.ringRead_observed {s t : State} {l : Launch} {i : Nat} {b : List Byte}
    (h : s.ringRead l i = (some b, t)) : s.Observed t := by
  unfold State.ringRead at h
  split at h
  · cases h
  · exact State.agentRead_observed h

/-- The bytes of a fire's records are read (R96). -/
theorem State.fireBytes_observed {s t : State} {l : Launch} {rs : List BinRec} {ds : List (List Byte)}
    (h : s.fireBytes l rs = (some ds, t)) : s.Observed t := by
  induction rs generalizing s ds with
  | nil =>
    cases h
    exact .refl _
  | cons r rs ih =>
    have hread : ∀ {d s'}, (match r.ring with
        | none => (some r.data, s)
        | some i => s.ringRead l i) = (some d, s') → s.Observed s' := by
      intro d s' hd
      cases hr : r.ring with
      | none =>
        rw [hr] at hd
        cases hd
        exact .refl _
      | some i =>
        rw [hr] at hd
        exact State.ringRead_observed hd
    rw [State.fireBytes] at h
    dsimp only at h
    split at h
    · cases h
    · next d hd =>
      split at h
      · next ds' s'' hrest =>
        cases h
        exact (hread (Prod.ext hd rfl)).trans (ih hrest)
      · cases h

/-! ## Ends of launches -/

/-- No bin is armed in t that was not armed in s. -/
structure State.Disarms (s t : State) : Prop where
  free : ∀ k, aget s.bins k = none → aget t.bins k = none

theorem State.Disarms.of_eq {s t : State} (h : t.bins = s.bins) : s.Disarms t := ⟨fun k hk => by rw [h, hk]⟩

theorem State.Disarms.refl (s : State) : s.Disarms s := .of_eq rfl

theorem State.Disarms.trans {s t u : State} (h : s.Disarms t) (g : t.Disarms u) : s.Disarms u :=
  ⟨fun k hk => g.free k (h.free k hk)⟩

theorem State.Disarms.foldl {α : Type} {g : State → α → State} (hg : ∀ (t : State) (x : α), t.Disarms (g t x)) (xs : List α)
    (s : State) : s.Disarms (xs.foldl g s) :=
  List.foldlRecOn (motive := s.Disarms) xs g (.refl s) fun t ht x _ => ht.trans (hg t x)

theorem State.Observed.disarms {s t : State} (h : s.Observed t) : s.Disarms t := .of_eq (by rw [h.rest])

theorem State.refillAll_bins (s : State) : s.refillAll.bins = s.bins := by rw [(State.refillAll_refills s).pool.rest]

theorem State.dropCohort_bins (s : State) (coh : Nat) : (s.dropCohort coh).bins = s.bins := by
  unfold State.dropCohort
  split
  · rw [State.writeBack_state]
  · rfl

theorem State.disarm_bins {s : State} {lid k : Nat} {b : Bin}
    (h : (s.bins.find? fun e => e.2.launch == lid) = some (k, b)) : (s.disarm lid).bins = adel s.bins k := by
  unfold State.disarm
  rw [h]
  rfl

theorem State.disarm_disarms (s : State) (lid : Nat) : s.Disarms (s.disarm lid) := by
  cases h : s.bins.find? fun e => e.2.launch == lid with
  | none =>
    unfold State.disarm
    rw [h]
    exact .refl s
  | some e =>
    obtain ⟨k, b⟩ := e
    refine ⟨fun j hj => ?_⟩
    rw [State.disarm_bins h]
    by_cases hk : j = k
    · rw [hk, aget_adel_same]
    · rw [aget_adel_other _ hk, hj]

theorem State.dropGang_bins (s : State) (lid : Nat) (l : Launch) : (s.dropGang lid l).bins = s.bins := by
  unfold State.dropGang
  split <;> rfl

theorem State.haltLaunch_disarms (s : State) (lid : Nat) (l : Launch) : s.Disarms (s.haltLaunch lid l) := by
  refine ((State.Disarms.foldl (fun t c => ?_) (s.launchCohorts lid) s).trans (State.disarm_disarms ..)).trans
    (.of_eq (State.dropGang_bins ..))
  exact .of_eq (State.dropCohort_bins ..)

theorem State.endLaunch_disarms (s : State) (lid status : Nat) : s.Disarms (s.endLaunch lid status) := by
  cases hl : aget s.launches lid with
  | none =>
    rw [State.endLaunch, hl]
    exact .refl s
  | some l =>
    cases h : l.status with
    | some n =>
      rw [State.endLaunch_ended hl (by rw [h]; rfl)]
      exact .refl s
    | none =>
      rw [State.endLaunch_running hl h]
      exact (s.haltLaunch_disarms lid l).trans (.of_eq (State.refillAll_bins _))

theorem State.stopPartition_disarms (s : State) (pid : Nat) : s.Disarms (s.stopPartition pid) := by
  refine (State.Disarms.foldl (fun t l => ?_) s.launches s :
    s.Disarms (s.launches.foldl (fun s l => if l.2.pid == pid then s.endLaunch l.1 stFault else s) s)).trans (.of_eq rfl)
  split
  · exact t.endLaunch_disarms ..
  · exact .refl t

/-! ## Stores of agents -/

theorem State.writeMem_bins (s : State) (key : Nat) (bs : List Byte) (view : List Nat) (rels : List Rel) :
    (s.writeMem key bs view rels).bins = s.bins := by
  show (State.recall _ key bs.length true).bins = s.bins
  rw [(State.recall_observed ..).rest, State.logMsg_state]
  show (s.recall key bs.length false).bins = s.bins
  rw [(State.recall_observed ..).rest]

/-- Where the computation ends well, bins are at most disarmed. -/
structure Disarming {α : Type} (x : M α) : Prop where
  disarms : ∀ (s t : State) (a : α), x s = .ok a t → s.Disarms t

theorem Observes.disarming {α : Type} {x : M α} (h : Observes x) : Disarming x :=
  ⟨fun s t a hx => (h.observed s t a hx).disarms⟩

theorem Disarming.bind {α β : Type} {x : M α} {f : α → M β} (hx : Disarming x) (hf : ∀ a, Disarming (f a)) :
    Disarming (x >>= f) := by
  refine ⟨fun s t b h => ?_⟩
  cases hxs : x s with
  | ok a s' =>
    rw [bind_ok hxs] at h
    exact (hx.disarms s s' a hxs).trans ((hf a).disarms s' t b h)
  | error f' s' =>
    rw [bind_error hxs] at h
    cases h

theorem storeM_disarming (w : Who) (key : Nat) (bs : List Byte) (view : List Nat) (rels : List Rel) :
    Disarming (storeM w key bs view rels) := by
  refine (linkNeedM_observes key).disarming.bind fun b => ?_
  cases b with
  | true => exact ⟨fun s t a h => by cases h; exact s.stopPartition_disarms w.pid⟩
  | false => exact ⟨fun s t a h => by cases h; exact .of_eq (s.writeMem_bins ..)⟩

theorem writeVirt_disarming (w : Who) (acc unit units : Nat) (view : List Nat) (rels : List Rel) (ptr : Dword)
    (bs : List Byte) : Disarming (writeVirt w ptr acc unit bs units view rels) := by
  induction units generalizing ptr bs with
  | zero => exact (observes_pure _).disarming
  | succ u ih => exact (checkPlace_observes ..).disarming.bind fun _ => (storeM_disarming ..).bind fun _ => ih ..

theorem tryAgent_disarms {α : Type} {x : M α} (s : State) (w : Who) (hx : Disarming x) : s.Disarms (tryAgent s w x).2 := by
  unfold tryAgent
  split
  · next h => exact hx.disarms _ _ _ h
  · next f s' _ =>
    have h : s.Disarms { s with free := s'.free, seen := s'.seen } := .of_eq rfl
    dsimp only
    split
    · exact h.trans (State.stopPartition_disarms ..)
    · exact h

theorem State.signaling_bins (s : State) (lid : Nat) (l : Launch) : (s.signaling lid l).bins = s.bins := by
  unfold State.signaling
  split <;> rfl

theorem State.signal_disarms (s : State) (lid : Nat) : s.Disarms (s.signal lid) := by
  cases hl : aget s.launches lid with
  | none =>
    simp only [State.signal, hl]
    exact .refl s
  | some l =>
    have h : s.Disarms (s.signaling lid l) := .of_eq (s.signaling_bins lid l)
    simp only [State.signal, hl]
    split
    · split_ifs
      · exact .refl s
      · exact h
      · exact h
      · exact h.trans (tryAgent_disarms (s.signaling lid l) _ (writeVirt_disarming ..))
    · exact h
    · exact .refl s

theorem State.setStatus_bins (s : State) (lid st : Nat) : (s.setStatus lid st).bins = s.bins := by
  rw [State.setStatus_closed, State.refillAll_bins]
  rfl

end Sys2Proof.Machine
end

section
/-! SUPPORT. The arbitration of a section's bins, their fires and the ends of their armings (R102 to R110). -/

namespace Sys2Proof.Machine

theorem exec_binFireSelect (sec core : Nat) (s : State) : exec (.binFireSelect sec core) s = execBinFireSelect sec core s := rfl

theorem exec_binFireComplete (sec : Nat) (s : State) : exec (.binFireComplete sec) s = execBinFireComplete sec s := rfl

theorem exec_binArmingEnd (launch : Nat) (s : State) : exec (.binArmingEnd launch) s = execBinArmingEnd launch s := rfl

/-! ## Arbitration (R103) -/

/-- The order of eligible bins: priority, then the time at which they became eligible, then their number. -/
def binFirst (a b : Nat × Bin × Launch) : Bool :=
  if a.2.1.prio a.2.2.rc ≠ b.2.1.prio b.2.2.rc then b.2.1.prio b.2.2.rc < a.2.1.prio a.2.2.rc
  else if a.2.1.eligSince.getD 0 ≠ b.2.1.eligSince.getD 0 then a.2.1.eligSince.getD 0 < b.2.1.eligSince.getD 0
  else a.1 ≤ b.1

/-- The bin with its launch, where it is eligible in a section. -/
def State.contender (s : State) (sec : Nat) (e : Nat × Bin) : Option (Nat × Bin × Launch) :=
  if e.1 / 512 = sec then
    match s.armed e.1 with
    | some (b, l) => if s.active l && (b.cause l.rc).isSome then some (e.1, b, l) else none
    | none => none
  else none

theorem State.arbitration_eq (s : State) (sec : Nat) :
    s.arbitration sec = sortBy binFirst (s.bins.filterMap (s.contender sec)) := rfl

theorem binFirst_iff {a b : Nat × Bin × Launch} : binFirst a b = true ↔ b.2.1.prio b.2.2.rc ≤ a.2.1.prio a.2.2.rc ∧
    (b.2.1.prio b.2.2.rc = a.2.1.prio a.2.2.rc → a.2.1.eligSince.getD 0 ≤ b.2.1.eligSince.getD 0 ∧
      (b.2.1.eligSince.getD 0 = a.2.1.eligSince.getD 0 → a.1 ≤ b.1)) := by
  unfold binFirst
  split_ifs <;> simp only [decide_eq_true_eq] <;> omega

theorem sorts_binFirst : Sorts binFirst where
  total a b := by simp only [binFirst_iff]; omega
  trans a b c := by simp only [binFirst_iff]; omega

theorem Sorts.head_le {α : Type} {le : α → α → Bool} (h : Sorts le) {l : List α} {a : α}
    (ha : (sortBy le l).head? = some a) : ∀ x ∈ sortBy le l, le a x = true := by
  intro x hx
  have hp := h.pairwise_sortBy l
  obtain ⟨t, ht⟩ := List.head?_eq_some_iff.mp ha
  rw [ht] at hp hx
  rcases List.mem_cons.mp hx with rfl | hx
  · exact h.refl x
  · exact (List.pairwise_cons.mp hp).1 x hx

/-- The head of a section is an armed bin of it. -/
theorem State.armed_of_binHead {s : State} {sec k : Nat} {b : Bin} {l : Launch} (h : s.binHead sec = some (k, b, l)) :
    s.armed k = some (b, l) := by
  have hmem : (k, b, l) ∈ s.arbitration sec := List.mem_of_mem_head? (by rw [← State.binHead, h]; rfl)
  rw [State.arbitration_eq, mem_sortBy] at hmem
  obtain ⟨e, -, he⟩ := List.mem_filterMap.mp hmem
  unfold State.contender at he
  split_ifs at he
  split at he
  · next hb =>
    split_ifs at he
    cases he
    exact hb
  · cases he

/-! ## Fires (R105) -/

/-- A bin once the fire of some of its records begins. -/
def Bin.fired (b : Bin) (rs : List BinRec) : Bin :=
  { b with
    recs := b.recs.filter fun r => !(rs.map BinRec.seq).contains r.seq
    plan := b.plan.drop 1, promoted := false, eligSince := none, selected := none }

/-- The scratchpad of the cohort of a fire: its records from the start of the input area. -/
def fireInput (l : Launch) (ds : List (List Byte)) : Sparse 8 := swrite [] l.rc.inoff (ds.flatMap id)

theorem sread_fireInput (l : Launch) (ds : List (List Byte)) :
    sread (fireInput l ds) l.rc.inoff (ds.flatMap id).length = ds.flatMap id := sread_swrite

/-- A fire is complete: the bin is refilled from its spill ring, whose fault ends the arming, and is eligible or not anew. -/
theorem execBinFireComplete_fires {sec core k : Nat} {s s1 : State} {b b' : Bin} {l : Launch} {rs : List BinRec}
    {groups : Nat} {part : Bool} {ds : List (List Byte)} (hf : s.firing sec = some (k, b)) (ha : s.armed k = some (b', l))
    (hc : b.selected = some core) (hr : b.fireRecs l.rc = (rs, groups, part)) (hb : s.fireBytes l rs = (some ds, s1)) :
    let t := ((s1.modBin k fun b => b.fired rs).createCohort b.launch core b.fires (fireLogical l b.fires) [0, 0, 0, 0]
      (binfireWord rs.length part (if part then 2 else (b.cause l.rc).getD 2) (k % 512) (k / 512) groups) (fireInput l ds)
      (rs.foldl (fun v r => joinView v r.view) [])).modBin k fun b => { b with fires := b.fires + 1 }
    exec (.binFireComplete sec) s = .next (match t.refillBin k l rs.length with
      | none => t.endLaunch b.launch stFault
      | some s' => s'.binEval k) := by
  intro t
  simp only [exec_binFireComplete, execBinFireComplete, hf, ha, hc, event, State.fire, hr, hb]
  rfl

/-- Table 5-3: the fields of SYS_BINFIRE. -/
theorem binfireWord_fields {count cause bin sec groups : Nat} (part : Bool) (hcount : count < 2 ^ 13) (hcause : cause < 4)
    (hbin : bin < 512) (hsec : sec < 4) (hgroups : groups < 2 ^ 32) :
    let w := (binfireWord count part cause bin sec groups).toNat
    bitsOf w 12 0 = count ∧ bitsOf w 13 13 = (if part then 1 else 0) ∧ bitsOf w 15 14 = cause ∧ bitsOf w 24 16 = bin ∧
      bitsOf w 26 25 = sec ∧ bitsOf w 63 32 = groups := by
  intro w
  have hw : w = count + (if part then 2 ^ 13 else 0) + 2 ^ 14 * cause + 2 ^ 16 * bin + 2 ^ 25 * sec + 2 ^ 32 * groups := by
    simp only [w, binfireWord, BitVec.toNat_ofNat]
    refine Nat.mod_eq_of_lt ?_
    split <;> omega
  rw [hw]
  unfold bitsOf
  cases part <;> simp only [Bool.false_eq_true, if_false, if_true] <;> omega

/-! ## The end of an arming (R110) -/

theorem execBinArmingEnd_ends {launch k st : Nat} {s : State} {l : Launch} {b : Bin} (hl : aget s.launches launch = some l)
    (hk : l.rc.kind = 2) (hn : l.signaled = false) (hs : l.status = none)
    (hf : (s.bins.find? fun b => b.2.launch == launch) = some (k, b)) (he : s.armingEnds launch b = some st) :
    exec (.binArmingEnd launch) s = .next (((s.disarm launch).setStatus launch st).signal launch) := by
  simp only [exec_binArmingEnd, execBinArmingEnd, hl, hk, hn, hs, hf, he, event, ne_eq, not_true_eq_false, decide_false,
    Bool.or_self, Bool.false_eq_true, if_false]

theorem State.armingEnds_some {s : State} {lid st : Nat} {b : Bin} (hc : b.closing = true) (hn : s.noCohorts lid = true)
    (hs : b.selected = none) (h : b.recs = [] ∧ st = stOk ∨ b.recs ≠ [] ∧ 2 ^ 48 ≤ b.fires ∧ st = stTooLarge) :
    s.armingEnds lid b = some st := by
  rcases h with ⟨hr, rfl⟩ | ⟨hr, hx, rfl⟩ <;> simp_all [State.armingEnds, Bin.exhausted]

/-- Settles O41: the order in which a section's bins fire, the fire from its selection to its cohort, and the disarmed bin. -/
theorem binFires : Obligations.BinFires := by
  unfold Obligations.BinFires
  refine ⟨?select, ?complete, fun b r hd hg => ?plain, ?word, ?ends⟩
  case select =>
    intro sec core k s b l h
    refine ⟨fun x hx => binFirst_iff.mp (sorts_binFirst.head_le h x hx), fun hf hc =>
      ⟨s.modBin k fun b => { b with selected := some core }, ?_, rfl,
        State.modBin_same _ (State.armed_iff.mp (State.armed_of_binHead h)).1, fun j hj => s.modBin_other _ hj⟩⟩
    simp only [exec_binFireSelect, execBinFireSelect, hf, h, hc, if_true, event]
  case complete =>
    intro sec core k s s1 b b' l rs groups part ds hf ha hc hr hb hl cause word
    have hbin : aget s1.bins k = some b' := by
      rw [(State.fireBytes_observed hb).rest]
      exact (State.armed_iff.mp ha).1
    exact ⟨_, s1.modBin k fun b => b.fired rs, _, execBinFireComplete_fires hf ha hc hr hb, rfl,
      ⟨_, State.modBin_same _ hbin, rfl⟩,
      ⟨fireInput l ds, State.newCohort_createCohort (s := s1.modBin k fun b => b.fired rs) hl .., sread_fireInput l ds⟩, rfl⟩
  case plain =>
    simp only [Bin.fireRecs, hd, hg, Bool.false_eq_true, if_false]
  case word =>
    intro count cause bin sec groups part hcount hcause hbin hsec hgroups
    exact binfireWord_fields part hcount hcause hbin hsec hgroups
  case ends =>
    intro launch k st s l b hl hk hn hs hf hc hcoh hsel hst
    have hdis : aget (s.disarm launch).launches launch = some l := by rw [State.disarm_launches, hl]
    obtain ⟨y, hy, -, hyst, hysig⟩ := State.refuse_launch hdis st
    refine ⟨_, y, execBinArmingEnd_ends hl hk hn hs hf (State.armingEnds_some hc hcoh hsel hst),
      (State.signal_disarms ..).free k ?_, hy, by rw [hyst, hs]; rfl, hysig⟩
    rw [State.setStatus_bins, State.disarm_bins hf, aget_adel_same]

end Sys2Proof.Machine
end

section
/-! SUPPORT. Posts to a fault queue (R284, R294): what a post's end changes in its context and in the threads that it names. -/

namespace Sys2Proof.Machine

theorem exec_faultPost (cid : Nat) (s : State) : exec (.faultPost cid) s = execFaultPost cid s := rfl

/-! ## The oldest record of a context -/

/-- Whether a record is a PGREQ's whose page is requested already: the answer, and the state once its queue is read. -/
def State.postOutstanding (s : State) (cid : Nat) (ctx : Ctx) (p : Post) : Bool × State :=
  if p.kind = .notResident ∧ p.parked = false then s.requested cid ctx p.page else (false, s)

theorem State.postOutstanding_eq (s : State) (cid : Nat) (ctx : Ctx) (p : Post) : s.postOutstanding cid ctx p =
    if p.isRequest then s.requested cid ctx p.page else (false, s) := by
  simp [State.postOutstanding, Post.isRequest]

section oldest
variable {cid : Nat} {s s1 r : State} {ctx : Ctx} {p : Post} {rest : List Post}
variable (hc : aget s.ctxs cid = some ctx) (hs : s.hub.stopped.contains ctx.pid = false) (hp : ctx.posts = p :: rest)
include hc hs hp

theorem execFaultPost_drops (hq : s.postOutstanding cid ctx p = (true, s1)) :
    exec (.faultPost cid) s = .next (s1.dropPost cid p) := by
  rw [State.postOutstanding_eq] at hq
  simp only [exec_faultPost, execFaultPost, hc, hs, hp, hq, Bool.false_eq_true, if_false, if_true, event]

variable (hq : s.postOutstanding cid ctx p = (false, s1))
include hq

theorem execFaultPost_posts (ht : tryAgent s1 (agentOf cid ctx) (postM (agentOf cid ctx) ctx cid p) = (some true, r)) :
    exec (.faultPost cid) s = .next (r.posted cid p) := by
  rw [State.postOutstanding_eq] at hq
  simp only [exec_faultPost, execFaultPost, hc, hs, hp, hq, ht, Bool.false_eq_true, if_false, event]

theorem execFaultPost_waits (ht : tryAgent s1 (agentOf cid ctx) (postM (agentOf cid ctx) ctx cid p) = (some false, r)) :
    exec (.faultPost cid) s = .next r := by
  rw [State.postOutstanding_eq] at hq
  simp only [exec_faultPost, execFaultPost, hc, hs, hp, hq, ht, Bool.false_eq_true, if_false, event]

theorem execFaultPost_stops (ht : tryAgent s1 (agentOf cid ctx) (postM (agentOf cid ctx) ctx cid p) = (none, r))
    (hr : r.hub.stopped.contains ctx.pid = false) : exec (.faultPost cid) s = .next (r.stopContext cid) := by
  rw [State.postOutstanding_eq] at hq
  simp only [exec_faultPost, execFaultPost, hc, hs, hp, hq, ht, hr, Bool.false_eq_true, if_false, event]

end oldest

/-! ## A post that is dropped -/

/-- A thread whose PGREQ's record waits goes on. -/
def Thread.unposted (u : Thread) : Thread := if u.status = .posting false then { u with status := .ready } else u

theorem Thread.unposted_unposted (u : Thread) : u.unposted.unposted = u.unposted := by
  by_cases h : u.status = .posting false <;> simp [Thread.unposted, h]

theorem State.dropPost_eq (s : State) (cid : Nat) (p : Post) : s.dropPost cid p = { s with
    threads := p.tids.foldl (fun m t => amod m t Thread.unposted) s.threads
    ctxs := amod s.ctxs cid fun c => { c with posts := c.posts.drop 1 } } := by
  simp only [State.dropPost]
  rw [State.foldl_modThread]
  rfl

theorem State.dropPost_thread {s : State} (cid : Nat) (p : Post) {k : Nat} {u : Thread} (hu : aget s.threads k = some u) :
    aget (s.dropPost cid p).threads k =
      some (if p.tids.contains k = true ∧ u.status = .posting false then { u with status := .ready } else u) := by
  rw [dropPost_eq, aget_foldl_amod_list _ _ Thread.unposted_unposted, hu, Option.map_some, Thread.unposted]
  simp only [List.contains_iff_mem, ite_and]

/-! ## A post that is made -/

/-- The threads that a posted record still finds waiting. -/
def State.postWaiters (s : State) (p : Post) : List Nat :=
  p.tids.filter fun t => ((aget s.threads t).map Thread.status) == some (.posting p.parked)

/-- What the records of a context park once another record parks some threads and a copy. -/
def liveParked (m : Assoc Parked) (ts : List Nat) (copy : Option Nat) : Assoc Parked :=
  (m.map fun e =>
    (e.1, { e.2 with
      tids := e.2.tids.filter fun t => !ts.contains t, copy := if e.2.copy = copy then none else e.2.copy })).filter
    fun e => !e.2.tids.isEmpty || e.2.copy.isSome

/-- The context of a posted record, which parks the threads `mine`. -/
def Ctx.noted (c : Ctx) (p : Post) (mine : List Nat) : Ctx :=
  { c with
    posts := c.posts.drop 1
    parked := if mine.isEmpty && p.copy.isNone then liveParked c.parked mine p.copy
      else aset (liveParked c.parked mine p.copy) c.posted { tids := mine, copy := p.copy, watch := p.kind == .watch }
    requests := if p.kind = .notResident then c.requests ++ [(p.page, c.posted)] else c.requests
    posted := c.posted + 1 }

/-- A thread once the record that names it is posted. -/
def Thread.posted (u : Thread) (p : Post) : Thread := { u with status := if p.replay then .ready else p.status }

theorem Thread.posted_posted (u : Thread) (p : Post) : (u.posted p).posted p = u.posted p := rfl

theorem State.posted_eq (s : State) (cid : Nat) (p : Post) : s.posted cid p = { s with
    threads := (s.postWaiters p).foldl (fun m t => amod m t fun u => u.posted p) s.threads
    ctxs := amod s.ctxs cid fun c => c.noted p (if p.parked && !p.replay then s.postWaiters p else []) } := by
  simp only [State.posted]
  rw [State.foldl_modThread]
  rfl

theorem State.posted_thread {s : State} (cid : Nat) (p : Post) {k : Nat} {u : Thread} (hu : aget s.threads k = some u) :
    aget (s.posted cid p).threads k = some (if p.tids.contains k = true ∧ u.status = .posting p.parked then
      u.posted p else u) := by
  rw [posted_eq, aget_foldl_amod_list _ _ (fun u => u.posted_posted p), hu, Option.map_some]
  simp only [State.postWaiters, List.mem_filter, hu, Option.map_some, beq_iff_eq, Option.some.injEq, List.contains_iff_mem]

theorem State.posted_ctx {s : State} {cid : Nat} {ctx : Ctx} (p : Post) (hc : aget s.ctxs cid = some ctx) :
    aget (s.posted cid p).ctxs cid = some (ctx.noted p (if p.parked && !p.replay then s.postWaiters p else [])) := by
  rw [posted_eq, aget_amod_same, hc, Option.map_some]

theorem State.posted_ctx_other (s : State) {cid k : Nat} (p : Post) (hk : k ≠ cid) :
    aget (s.posted cid p).ctxs k = aget s.ctxs k := by rw [posted_eq, aget_amod_other _ _ hk]

theorem aget_liveParked {m : Assoc Parked} {n : Nat} (ts : List Nat) (copy : Option Nat) (h : aget m n = none) :
    aget (liveParked m ts copy) n = none := by
  cases hx : aget (liveParked m ts copy) n with
  | none => rfl
  | some x =>
    obtain ⟨e, he, heq⟩ := List.mem_map.mp (List.mem_filter.mp (mem_of_aget hx)).1
    obtain ⟨rfl, -⟩ := Prod.ext_iff.mp heq
    have := aget_isSome_of_mem he
    rw [h] at this
    cases this

/-- Under the number of a new record stands what it parks (R295). -/
theorem Ctx.noted_parked {c : Ctx} {p : Post} {mine : List Nat} {y : Parked} (hn : aget c.parked c.posted = none)
    (hy : aget (c.noted p mine).parked c.posted = some y) :
    y = { tids := mine, copy := p.copy, watch := p.kind == .watch } := by
  unfold Ctx.noted at hy
  dsimp only at hy
  split at hy
  · rw [aget_liveParked _ _ hn] at hy
    cases hy
  · rw [aget_aset_same] at hy
    exact (Option.some.inj hy).symm

theorem Post.status_request {p : Post} (h : p.parked = false) : p.status = .ready := by simp [Post.status, h]

theorem Post.status_parked {p : Post} (h : p.parked = true) (hk : p.kind ≠ .binSpill) : p.status = .parked := by
  simp [Post.status, h, hk]

end Sys2Proof.Machine
end

section
/-! SUPPORT. Memory errors (R302, R303, R340): the access that meets an error, the load whose data are lost, the stop of a
partition, and the count of corrected errors. -/

namespace Sys2Proof.Machine

theorem exec_uncorrectableError (site : ErrSite) (s : State) :
    exec (.uncorrectableError site) s = execUncorrectableError site s := rfl

theorem exec_correctedError (stage : CheckStage) (s : State) :
    exec (.correctedError stage) s = execCorrectedError stage s := rfl

/-! ## At an access -/

theorem State.errAt_of {s : State} {w : Who} {a : Access} {tid : Nat} {u : Thread} {at_ : VAddr} (hw : w.tid = some tid)
    (hu : aget s.threads tid = some u) (he : u.err = some (a.acc, at_))
    (hd : a.fx = false → (at_ - vaOf a.ptr).toNat < a.n)
    (hf : a.fx = true → at_ &&& ~~~127#57 = vaOf a.ptr &&& ~~~127#57) : s.errAt w a = true := by
  unfold State.errAt
  simp only [hw, Option.bind_some, hu, he, beq_self_eq_true, Bool.true_and]
  cases hx : a.fx with
  | false => simpa using hd hx
  | true => simpa using hf hx

/-- With no port down, no walk needs a link that is down (R325). -/
theorem linkNeedWalk_up {s : State} (h : ∀ p ∈ s.hub.ports, p.state ≠ .down) (w : Who) (va : VAddr) :
    linkNeedWalk w va s = .ok false s := by
  have hd : (s.hub.ports.any fun p => p.state == .down) = false := by simpa using h
  simp only [linkNeedWalk, hd, Bool.false_and, Bool.false_eq_true, if_false]

/-- The access that meets the error takes MEMERR before its walk (R302). -/
theorem checkTo3_memErr {s : State} {w : Who} {a : Access} (hp : ptrOk a.ptr = true)
    (hl : ∀ p ∈ s.hub.ports, p.state ≠ .down) (he : s.errAt w a = true) :
    checkTo3 w a s = .error (accFault .memErr a) s := by
  have hwalk : walkFor w a s = .error (accFault .memErr a) s := by
    unfold walkFor
    simp only [hp, Bool.not_true, Bool.false_eq_true, if_false]
    rw [bind_ok (linkNeedWalk_up hl w _), bind_ok (show (get : M State) s = .ok s s from rfl)]
    simp only [he, Bool.or_true, if_true]
    rfl
  exact bind_error hwalk

/-! ## At a load -/

section load
variable {u : Thread} {id acc page : Nat} {va a : VAddr} {o : OutOp}

/-- The destinations of a load, written with zero. -/
def Thread.zeroed (u : Thread) (o : OutOp) : Thread :=
  o.preds.foldl (fun t d => t.land (.p d.1) 0) (o.dests.foldl (fun t d => t.land (.r d.1) 0) u)

/-- The thread once the data of a load are lost. -/
def Thread.lost (u : Thread) (id acc page : Nat) (a : VAddr) (o : OutOp) : Thread :=
  Thread.finish { u.zeroed o with
    pend := (u.zeroed o).pend.map fun p => if p.cls = .ldc ∧ p.id = id then { p with new := 0 } else p } id
    (some { memErr acc a with page := some page })

/-- The only operation of its number is the load whose data are lost. -/
theorem Thread.loseLoad_eq (ho : u.out.filter (fun x => x.id == id) = [o]) (hl : o.cls = .ldc) (hr : o.returned = false)
    (hs : o.src.find? (fun x => x.2.1 == va) = some (acc, a, page)) : u.loseLoad id va = u.lost id acc page a o := by
  have hfind : (u.out.find? fun o => o.cls == .ldc && o.id == id && !o.returned) = some o := by
    have hf : (u.out.filter fun x => x.id == id).find? (fun o => o.cls == .ldc && !o.returned) = some o := by
      simp [ho, hl, hr]
    rw [List.find?_filter] at hf
    rw [← hf]
    congr 1
    funext x
    rw [Bool.decide_and, Bool.decide_eq_true, Bool.decide_eq_true, Bool.and_comm (x.cls == .ldc), Bool.and_assoc]
  unfold Thread.loseLoad
  simp only [hfind, hs]
  rfl

end load

/-- Thread v is t with zero in the registers `rs` and false in the predicates `ps`, as data that land leave it. -/
structure Thread.ZeroedBy (t v : Thread) (rs : List Reg) (ps : List Nat) : Prop where
  keep : t.keep = [] → v.keep = []
  pc : v.pc = t.pc
  status : v.status = t.status
  regs : t.keep = [] → ∀ n, v.rd (.v n) = if .v n ∈ rs then 0 else t.rd (.v n)
  preds : t.keep = [] → ∀ n, v.p n = if n ∈ ps ∧ n < 15 then false else t.p n

theorem Thread.ZeroedBy.refl (t : Thread) : t.ZeroedBy t [] [] := ⟨id, rfl, rfl, fun _ _ => by simp, fun _ _ => by simp⟩

theorem Thread.ZeroedBy.trans {t v w : Thread} {rs rs' : List Reg} {ps ps' : List Nat} (h : t.ZeroedBy v rs ps)
    (g : v.ZeroedBy w rs' ps') : t.ZeroedBy w (rs ++ rs') (ps ++ ps') := by
  refine ⟨fun hk => g.keep (h.keep hk), g.pc.trans h.pc, g.status.trans h.status, fun hk n => ?_, fun hk n => ?_⟩
  · rw [g.regs (h.keep hk), h.regs hk]
    by_cases h1 : Reg.v n ∈ rs <;> by_cases h2 : Reg.v n ∈ rs' <;> simp [h1, h2]
  · rw [g.preds (h.keep hk), h.preds hk]
    by_cases h1 : n ∈ ps <;> by_cases h2 : n ∈ ps' <;> simp [h1, h2]

/-- Data that land in a register of which no op has a substituted value are written to it. -/
theorem Thread.land_unkept {t : Thread} (h : t.keep = []) (k : RegKey) (v : Dword) :
    t.land k v = (t.setKey k v).lateData [(k, v)] := by
  simp only [Thread.land, h, List.any_nil, Bool.false_eq_true, if_false]

theorem Thread.land_pc (t : Thread) (k : RegKey) (v : Dword) : (t.land k v).pc = t.pc := by
  unfold Thread.land
  split
  · rfl
  · exact Thread.setKey_pc t k v

theorem Thread.land_status (t : Thread) (k : RegKey) (v : Dword) : (t.land k v).status = t.status := by
  unfold Thread.land
  split
  · rfl
  · exact Thread.setKey_status t k v

theorem Thread.land_keep {t : Thread} (h : t.keep = []) (k : RegKey) (v : Dword) : (t.land k v).keep = [] := by
  rw [land_unkept h]
  exact (Thread.setKey_keep t k v).trans h

theorem Thread.land_reg_zero (t : Thread) (r : Reg) : t.ZeroedBy (t.land (.r r) 0) [r] [] := by
  refine ⟨fun h => land_keep h _ _, land_pc .., land_status .., fun h n => ?_, fun h n => ?_⟩
  · simp only [land_unkept h, List.mem_singleton]
    show (t.wr r 0).rd (.v n) = _
    by_cases hr : Reg.v n = r
    · subst hr
      rw [if_pos rfl]
      by_cases hn : n = 255
      · simp [Thread.rd, hn]
      · exact Thread.rd_wr_same t (.v n) 0 (by simpa [Thread.holds] using hn)
    · rw [if_neg hr, Thread.rd_wr_other t 0 hr]
  · rw [land_unkept h]
    show (t.wr r 0).p n = _
    simp only [List.not_mem_nil, false_and, if_false]
    unfold Thread.p
    rw [Thread.wr_preds]

theorem Thread.land_pred_zero (t : Thread) (m : Nat) : t.ZeroedBy (t.land (.p m) 0) [] [m] := by
  refine ⟨fun h => land_keep h _ _, land_pc .., land_status .., fun h n => ?_, fun h n => ?_⟩
  · rw [land_unkept h]
    show (t.setP m false).rd (.v n) = _
    unfold Thread.setP
    split <;> simp [Thread.rd]
  · simp only [land_unkept h, List.mem_singleton]
    show (t.setP m false).p n = _
    by_cases hn : n = m
    · subst hn
      simp [Thread.p_setP_same]
    · simp [Thread.p_setP_other t false hn, hn]

theorem Thread.foldl_land_regs (ds : List (Reg × Word)) (t : Thread) :
    t.ZeroedBy (ds.foldl (fun t d => t.land (.r d.1) 0) t) (ds.map (·.1)) [] := by
  induction ds generalizing t with
  | nil => exact .refl t
  | cons d ds ih => exact (t.land_reg_zero d.1).trans (ih _)

theorem Thread.foldl_land_preds (ds : List (Nat × Bool)) (t : Thread) :
    t.ZeroedBy (ds.foldl (fun t d => t.land (.p d.1) 0) t) [] (ds.map (·.1)) := by
  induction ds generalizing t with
  | nil => exact .refl t
  | cons d ds ih => exact (t.land_pred_zero d.1).trans (ih _)

/-- The data of a load that are lost read zero (R302). -/
theorem Thread.zeroed_zeroedBy (u : Thread) (o : OutOp) :
    u.ZeroedBy (u.zeroed o) (o.dests.map (·.1)) (o.preds.map (·.1)) := by
  have h := (Thread.foldl_land_regs o.dests u).trans (Thread.foldl_land_preds o.preds _)
  rw [List.append_nil, List.nil_append] at h
  exact h

/-- An operation that is finished has returned with its fault. -/
theorem Thread.mem_finish_out {t : Thread} {id : Nat} {f : Option FaultInfo} {x : OutOp} (hx : x ∈ (t.finish id f).out)
    (hi : x.id = id) : x.returned = true ∧ x.fault = f := by
  obtain ⟨y, hy, rfl⟩ := List.mem_map.mp hx
  have hdone : y.id = id → y.returned = true ∧ y.fault = f := by
    obtain ⟨z, -, rfl⟩ := List.mem_map.mp hy
    split_ifs with h
    · exact fun _ => ⟨rfl, rfl⟩
    · exact fun h' => absurd h' h
  split_ifs at hi ⊢ <;> exact hdone hi

/-! ## Where no thread asked -/

/-- The launch under a number, if there is one, has its status. -/
def State.Decided (s : State) (lid : Nat) : Prop := ∀ x, aget s.launches lid = some x → x.status.isSome = true

theorem State.Ending.decided {st : Nat} {s t : State} (h : State.Ending st s t) {lid : Nat} (hd : s.Decided lid) :
    t.Decided lid := by
  intro x hx
  obtain ⟨l, hl, he⟩ := h.of_get hx
  obtain ⟨n, hn⟩ := Option.isSome_iff_exists.mp (hd l hl)
  rw [he.keeps hn]
  rfl

theorem State.endLaunch_decided (s : State) (lid st : Nat) : (s.endLaunch lid st).Decided lid := by
  intro x hx
  obtain ⟨l, hl, he⟩ := (s.endLaunch_ending lid st).of_get hx
  cases hs : l.status with
  | some n =>
    rw [he.keeps hs]
    rfl
  | none =>
    obtain ⟨y, hy, -, hst⟩ := State.endLaunch_status (status := st) hl hs
    cases hx.symm.trans hy
    rw [hst]
    rfl

/-- The launches of a partition end, one after the other. -/
def State.endAll (s : State) (pid : Nat) (ls : Assoc Launch) : State :=
  ls.foldl (fun s l => if l.2.pid == pid then s.endLaunch l.1 stFault else s) s

theorem State.endAll_decided (ls : Assoc Launch) (s : State) {pid k : Nat}
    (h : (∃ l, (k, l) ∈ ls ∧ l.pid = pid) ∨ s.Decided k) : (s.endAll pid ls).Decided k := by
  induction ls generalizing s with
  | nil => exact h.resolve_left fun ⟨_, hl, _⟩ => List.not_mem_nil hl
  | cons e t ih =>
    refine ih _ ?_
    rcases h with ⟨l, hl, hpid⟩ | h
    · rcases List.mem_cons.mp hl with rfl | hl
      · refine .inr ?_
        beta_reduce
        rw [if_pos (by simpa using hpid)]
        exact s.endLaunch_decided _ _
      · exact .inl ⟨l, hl, hpid⟩
    · refine .inr ?_
      beta_reduce
      split
      · exact (s.endLaunch_ending ..).decided h
      · exact h

theorem State.endAll_records (ls : Assoc Launch) (s : State) (pid : Nat) : s.Records (s.endAll pid ls) := by
  refine .foldl (fun t l => ?_) ls s
  split
  · exact t.endLaunch_records ..
  · exact .refl t

/-- A partition stop ends the partition's launches without a signal of its own (R303). -/
theorem State.stopPartition_launch {s : State} {pid k : Nat} {l : Launch}
    (hl : aget (s.stopPartition pid).launches k = some l) (hp : l.pid = pid) :
    l.signaled = true ∧ l.status.isSome = true := by
  have hmap : aget (s.stopPartition pid).launches k =
      (aget (s.endAll pid s.launches).launches k).map
        fun l => if l.pid = pid then { l with signaled := true } else l :=
    aget_mapIf _ (fun e : Nat × Launch => e.2.pid = pid) (fun l => { l with signaled := true }) k
  obtain ⟨y, hy, rfl⟩ := Option.map_eq_some_iff.mp (hmap.symm.trans hl)
  have hpid : y.pid = pid := by
    split_ifs at hp with h
    · exact h
    · exact hp
  obtain ⟨l0, hl0, ha⟩ := (s.endAll_records s.launches pid).of_get hy
  have hdec := State.endAll_decided s.launches s (.inl ⟨l0, mem_of_aget hl0, ha.record.2.2.1.symm.trans hpid⟩) y hy
  rw [if_pos hpid]
  exact ⟨rfl, hdec⟩

theorem State.stopPartition_stopped (s : State) (pid : Nat) : (s.stopPartition pid).hub.stopped.contains pid = true :=
  List.contains_iff_mem.mpr (mem_insertNat.mpr (.inl rfl))

/-! ## The statement -/

/-- Settles O47: the end of the oldest record's post by whether its page is requested and whether its queue has room, and
each site of an uncorrectable error. -/
theorem faultPostsAndMemoryErrors : Obligations.FaultPostsAndMemoryErrors := by
  unfold Obligations.FaultPostsAndMemoryErrors
  refine ⟨?posts, ?atOp, ?atCopy, ?atAccess, ?atLoad, fun s => rfl, ?unasked, ?corrected⟩
  case posts =>
    intro cid s s1 r ctx p rest out hc hs hp hq w i
    refine ⟨fun ho => ?_, fun ho ht hr => ?_, fun ho ht => ?_, fun ho ht hr => ?_⟩ <;> subst ho
    · refine ⟨_, execFaultPost_drops hc hs hp hq, by rw [State.dropPost_eq], fun y hy => ?_, fun k hk => ?_,
        fun k u hu => State.dropPost_thread cid p hu⟩
      · rw [State.dropPost_eq, aget_amod_same, hy, Option.map_some]
      · rw [State.dropPost_eq, aget_amod_other _ _ hk]
    · refine ⟨_, _, execFaultPost_posts hc hs hp hq ht, State.posted_ctx p hr, ?_, rfl, fun k hk => r.posted_ctx_other p hk,
        fun k u hu => State.posted_thread cid p hu, Post.status_request, Post.status_parked,
        fun y hpk hrep hn hy => ?_, by rw [State.posted_eq]⟩
      · simp only [Ctx.noted, hp, List.drop_succ_cons, List.drop_zero]
      · rw [Ctx.noted_parked hn hy]
        refine ⟨fun k hk => ?_, rfl, rfl⟩
        simp only [hpk, hrep, Bool.not_false, Bool.and_self, if_true] at hk
        exact List.mem_of_mem_filter hk
    · exact execFaultPost_waits hc hs hp hq ht
    · exact execFaultPost_stops hc hs hp hq ht hr
  case atOp =>
    intro tid acc addr s u hu hacc
    refine ⟨s.poison tid acc addr, rfl, ?_⟩
    rw [State.poison, Nat.mod_eq_of_lt hacc]
    exact State.becomes_mod (fun t => { t with err := some (acc, addr.setWidth 57) }) hu
  case atCopy =>
    intro id addr s c u hc hu
    refine ⟨s.poison c.tid 4 addr, ?_, State.becomes_mod (fun t => { t with err := some (4, addr.setWidth 57) }) hu⟩
    simp only [exec_uncorrectableError, execUncorrectableError, hc, event]
  case atAccess =>
    intro w a s tid u at_ hw hu he hp hl hd hf
    exact checkTo3_memErr hp hl (State.errAt_of hw hu he hd hf)
  case atLoad =>
    intro tid id acc page a addr s u o hu hk ho hcls hret hs va
    have hz := u.zeroed_zeroedBy o
    have ha : a = addr.setWidth 57 := by simpa using List.find?_some hs
    have h := State.becomes_mod (fun t => t.loseLoad id (addr.setWidth 57)) hu
    simp only [Thread.loseLoad_eq ho hcls hret hs] at h
    refine ⟨_, _, rfl, h, fun d hd hn => ?_, fun d hd hlt => ?_, fun x hx hi => ?_, fun n hn => ?_, hz.pc, hz.status⟩
    · obtain ⟨r, x⟩ := d
      cases r with
      | k n => exact absurd rfl (hn n)
      | v n => exact (hz.regs hk n).trans (if_pos (List.mem_map_of_mem hd))
    · exact (hz.preds hk d.1).trans (if_pos ⟨List.mem_map_of_mem hd, hlt⟩)
    · subst ha
      exact Thread.mem_finish_out hx hi
    · exact (hz.regs hk n).trans (if_neg hn)
  case unasked =>
    intro sec s hsec
    refine ⟨s.stopPartition (s.pidOf sec), ?_, s.stopPartition_stopped _, fun k l hl hp => s.stopPartition_launch hl hp⟩
    simp only [exec_uncorrectableError, execUncorrectableError, if_pos hsec, event]
  case corrected =>
    intro stage s
    refine ⟨_, rfl, rfl, ?_, fun k hk => aget_aset_other _ _ hk⟩
    rw [aget_aset_same]
    rfl

end Sys2Proof.Machine
end

section
/-! SUPPORT. A read by a unit for a thread (R304) changes no thread and no cohort but in its stash lines. -/

namespace Sys2Proof.Machine

theorem checkFrom4_peeks {w : Who} (hw : w.own = false) (a : Access) (p : Place) : Peeks (checkFrom4 w a p) := by
  refine (checkWatch_peeks ..).bind fun _ => ?_
  split
  · exact (checkTag_peeks hw ..).bind fun _ => peeks_pure _
  · exact peeks_pure _

theorem checkPlace_peeks {w : Who} (hw : w.own = false) (a : Access) : Peeks (checkPlace w a) := by
  refine ((walkFor_peeks ..).bind fun _ => placeOf_peeks ..).bind fun p => (checkFrom4_peeks hw ..).bind fun b => ?_
  split
  · exact peeks_pure _
  · exact peeks_throw _

theorem checkRead_peeks {w : Who} (hw : w.own = false) (a : Access) : Peeks (checkRead w a) :=
  (checkPlace_peeks hw _).bind fun _ => (linkNeedM_peeks _).bind fun _ => peeks_ite_throw fun _ => peeks_pure _

theorem readAfter_peeks (view : List Nat) (key n : Nat) : Peeks (readAfter view key n) :=
  (readMemM_peeks ..).bind fun _ => peeks_of_ok (fun _ => rfl) fun _ => chooseSeen_peeked ..

theorem readVirt_peeks {w : Who} (hw : w.own = false) (acc unit units : Nat) {rd : Nat → Nat → M (List Byte)}
    (hr : ∀ k n, Peeks (rd k n)) (ptr : Dword) : Peeks (readVirt w ptr acc unit units rd) := by
  induction units generalizing ptr with
  | zero => exact peeks_pure _
  | succ u ih => exact (checkRead_peeks hw _).bind fun _ => (hr ..).bind fun _ => (ih _).bind fun _ => peeks_pure _

/-- Where the read fails, free values and cached versions alone are left. -/
theorem State.agentRead_peeked {w : Who} (s : State) (ht : w.tid.isNone = false) (hw : w.own = false) (ptr : Dword)
    (n : Nat) (view : List Nat) : s.Peeked (s.agentRead w ptr n view).2 := by
  unfold State.agentRead tryAgent
  split
  · next h => exact (readVirt_peeks hw 7 8 (n / 8) (readAfter_peeks view) ptr).peeked _ _ _ h
  · simp only [ht, Bool.and_false, Bool.false_eq_true, if_false]
    exact ⟨.of_eq rfl rfl, rfl⟩

end Sys2Proof.Machine
end

section
/-! SUPPORT. How an op ends that faults or that transfers control (R132, R159). -/

namespace Sys2Proof.Machine

/-- Without a substituted register there is nothing to give back. -/
theorem Thread.unkeep_clear {u : Thread} (h : u.Clear) : u.unkeep = u := by
  obtain ⟨hkeep, hlose, hwin⟩ := h
  unfold Thread.unkeep Thread.restore
  rw [hkeep, List.foldl_nil]
  cases u
  simp_all

/-- A thread changed again differs from the first state in that thread alone. -/
theorem State.Becomes.modThread {s r : State} {tid : Nat} {u : Thread} (h : s.Becomes tid r u) (f : Thread → Thread) :
    s.Becomes tid (r.modThread tid f) (f u) := by
  have hm := State.becomes_mod f h.thread
  exact ⟨by rw [hm.rest, h.rest], hm.thread, fun k hk => (hm.others k hk).trans (h.others k hk)⟩

/-- An op whose body faults takes the fault with no other effect. -/
theorem exec_throws {s s' : State} {e : Env} {i : Instr} {f : FaultInfo} {body : Env → M Flow}
    (hx : exec i s = threadOp i s body) (h : s.Executes e i) (hb : body e s = .error f s') :
    exec i s = .next ((s.keepDraws s').takeFault e (Instr.isLong i) f) := by
  rw [hx, threadOp_next h, hb, endOp_error]

/-- A clear thread that transfers control leaves its expansion, whose buffered stores commit (R128, R132). -/
theorem Thread.pass_goto {e : Env} {i : Instr} {u : Thread} (pc : VAddr) (hl : Instr.isLdc i = false)
    (he : e.th.Clear) (hu : u.Clear) (hx : u.exp = e.th.exp) :
    u.pass e i true (some pc) = { if e.th.exp.isSome then u.dropTemps else u with
      pc := pc, hazards := (u.pass e i true (some pc)).hazards, shadow := (u.pass e i true (some pc)).shadow, exp := none
      commits := u.commits ++ e.buffered, wpSuppress := false, granted := false } := by
  unfold Thread.pass
  simp only [Bool.true_and, hl, Bool.false_and, if_true, Thread.settle_clear hu he, Thread.endExp, Env.buffered, ← hx]
  cases u.exp with
  | none => simp only [Option.isSome_none, Bool.false_eq_true, if_false, Option.map_none, Option.getD_none, List.append_nil]
  | some x => rfl

/-- An op that transfers control in a state that is r but for its thread, which is u. -/
theorem State.jumps_of_goto {s r r' : State} {e : Env} {i : Instr} {u : Thread} {pc : VAddr} {body : Env → M Flow}
    (hx : exec i s = threadOp i s body) (h : s.Executes e i) (hl : Instr.isLdc i = false)
    (hb : body e s = .ok (.goto pc) r') (hr : r.Becomes e.tid r' u) (hu : u.Clear) (he : u.exp = e.th.exp)
    (hc : u.commits = e.th.commits) : s.Jumps r e i u pc :=
  ⟨_, _, by rw [hx, threadOp_next h, hb, endOp_goto], hr.modThread _, by
    rw [← hc]
    exact Thread.pass_goto pc hl h.clear hu he⟩

end Sys2Proof.Machine
end

section
/-! SUPPORT. Traps and returns from handlers (R138, R298, R299, R306), and the statement about them. -/

namespace Sys2Proof.Machine

/-! ## TRAP and BPT -/

/-- The two traps, each with its KIND and CODE (Table 14-5). -/
theorem exec_userTrap {i : Instr} {kind code : Nat}
    (hi : (∃ h n, i = .trap h n ∧ kind = 0xF0 ∧ code = n.toNat) ∨ (∃ h, i = .bpt h ∧ kind = 0xF1 ∧ code = 0)) (s : State) :
    exec i s = threadOp i s fun e => userTrap e i kind code := by
  rcases hi with ⟨h, n, rfl, rfl, rfl⟩ | ⟨h, rfl, rfl, rfl⟩ <;> rfl

/-- Without a handler, or inside it, a trap is a fault (R298). -/
theorem userTrap_refused {e : Env} (h : e.th.trapVec = 0 ∨ e.th.tf = true) (i : Instr) (kind code : Nat) (s : State) :
    userTrap e i kind code s = .error (pcFault .illegalInstruction e.th.pc) s :=
  if_pos (by simpa using h)

/-- What a trap does is decided by the read of the handler's line (R296). -/
theorem userTrap_asks {e : Env} {i : Instr} {kind code : Nat} {s s' : State} {ok : Bool} (hv : e.th.trapVec ≠ 0)
    (ht : e.th.tf = false) (ho : s.handlerOk e = (ok, s')) :
    userTrap e i kind code s = if ok then .ok .stay (s'.modThread e.tid fun t =>
        { t.enterHandler (e.seqNext (Instr.isLong i)) (trapCauseOf kind code 0 false) 0 0 with
          hazards := hazardsAfter e i [], wpSuppress := false })
      else .error { pcFault .illegalInstruction e.th.pc with unhandled := true } s' := by
  simp only [userTrap, hv, ht, decide_false, Bool.or_self, Bool.false_eq_true, if_false, ho]
  cases ok <;> rfl

/-! ## GRET, TRET and PDONE -/

theorem exec_gret (h : Hdr) (s : State) : exec (.gret h) s = execGret h s := rfl

theorem exec_tret (h : Hdr) (s : State) : exec (.tret h) s = execTret h s := rfl

theorem exec_pdone (h : Hdr) (s : State) : exec (.pdone h) s = execPdone h s := rfl

/-- Outside its handler a return is a fault whose ADDR is 0 (R289). -/
theorem return_refused {α : Type} {flag : Bool} (hf : flag = false) (rest : PUnit → M α) (s : State) :
    (if (!flag) = true then throw (opFault .illegalInstruction) >>= rest else rest ⟨⟩) s =
      .error (opFault .illegalInstruction) s := by
  rw [hf]
  rfl

/-- Inside its handler it goes on. -/
theorem return_accepted {α : Type} {flag : Bool} (hf : flag = true) (rest : PUnit → M α) (s : State) :
    (if (!flag) = true then throw (opFault .illegalInstruction) >>= rest else rest ⟨⟩) s = rest ⟨⟩ s := by
  rw [hf]
  rfl

/-- The thread with the registers and predicates that a LIVE entry names, where it can be read, or else with all (R306). -/
def Thread.keptBy (t : Thread) (b : Option (List Byte)) : Thread :=
  match b with
  | some l => t.keepLive (leNat l)
  | none => t

/-- The thread outside the state of its pre-emption handler (R305, R306). -/
def Thread.leavePre (t : Thread) : Thread :=
  { t with preActive := false, prePc := 0, preLive := 0, preShadow := none, preSuppress := false }

theorem Thread.keptBy_rest (t : Thread) (b : Option (List Byte)) :
    t.keptBy b = { t with regs := (t.keptBy b).regs, preds := (t.keptBy b).preds } := by
  cases b <;> rfl

theorem bitsOf_bit (x k : Nat) : (bitsOf x k k == 1) = x.testBit k := by
  rw [bitsOf, Nat.sub_self, Nat.testBit_eq_decide_div_mod_eq]
  rfl

/-- Bits 0 to 254 of a LIVE entry name the general registers (Table 8-4). -/
theorem Thread.rd_keepLive (t : Thread) (live : Nat) {n : BitVec 8} (hn : n ≠ 255) :
    (t.keepLive live).rd (.v n) = if live.testBit n.toNat then t.rd (.v n) else 0 := by
  simp only [Thread.rd_v, if_neg hn, Thread.keepLive, bitsOf_bit, sget_filter t.regs live.testBit]

/-- Its bits from 256 on name the predicates (Table 8-4). -/
theorem Thread.p_keepLive (t : Thread) (live : Nat) {n : Nat} (hn : n < 15) :
    (t.keepLive live).p n = (t.p n && live.testBit (256 + n)) := by
  simp only [Thread.p, if_neg (show n ≠ 15 by omega), Thread.keepLive, BitVec.getLsbD_and, BitVec.getLsbD_ofNat, hn,
    decide_true, Bool.true_and, Nat.testBit_div_two_pow, Nat.add_comm n]

/-- The thread back at its safe point, where it waits for a save that is still requested (R306). -/
def Env.returns (e : Env) (h : Hdr) (t : Thread) : Thread :=
  { t.pass e (.pdone h) true (some e.th.prePc) with
    shadow := e.th.preShadow, wpSuppress := e.th.preSuppress, status := if e.c.pending then .preWait else t.status }

/-- PDONE in a pre-emption handler reads the LIVE entry and returns its thread (R304, R306). -/
theorem exec_pdone_returns {h : Hdr} {s s' : State} {e : Env} {b : Option (List Byte)} (hx : s.Executes e (.pdone h))
    (hp : e.th.preActive = true) (hr : s.agentRead e.who.noWatch e.th.preLive 48 e.th.ord.known = (b, s')) :
    s.Stands s' e (.pdone h) (e.returns h (e.th.keptBy b).leavePre) := by
  have ht : aget s.threads e.tid = some e.th := (State.env_some hx.env).1
  have ho : s.ordOf e.tid = e.th.ord := by rw [State.ordOf, ht]; rfl
  have hpeek : s.Peeked s' := by
    have hpeek := s.agentRead_peeked (w := e.who.noWatch) rfl rfl e.th.preLive 48 e.th.ord.known
    rwa [hr] at hpeek
  have ht' : aget s'.threads e.tid = some e.th := by rw [hpeek.threads, ht]
  have hb := (State.becomes_mod (fun t => (t.unkeep.keptBy b).leavePre) ht').modThread (e.returns h)
  rw [Thread.unkeep_clear hx.clear] at hb
  refine State.stands_of_stay (exec_pdone h s) hx ((return_accepted hp ..).trans ((bind_ok (get_ok s)).trans ?_)) hb
  dsimp only
  rw [ho, hr]
  cases b <;> rfl

/-- What it leaves of the thread. -/
theorem Env.returns_eq {e : Env} (h : Hdr) (b : Option (List Byte)) (he : e.th.Clear) :
    let v := e.returns h (e.th.keptBy b).leavePre
    v = { if e.th.exp.isSome then (e.th.keptBy b).dropTemps else e.th.keptBy b with
      preActive := false, prePc := 0, preLive := 0, preShadow := none, preSuppress := false
      shadow := e.th.preShadow, pc := e.th.prePc
      status := if e.c.pending then .preWait else e.th.status, hazards := v.hazards, exp := none
      commits := e.th.commits ++ e.buffered, wpSuppress := e.th.preSuppress, granted := false } := by
  have hu : (e.th.keptBy b).leavePre.Clear := by rw [Thread.keptBy_rest]; exact he
  have hx : (e.th.keptBy b).leavePre.exp = e.th.exp := by rw [Thread.keptBy_rest]; rfl
  have hc : (e.th.keptBy b).leavePre.commits = e.th.commits := by rw [Thread.keptBy_rest]; rfl
  have hs : (e.th.keptBy b).leavePre.status = e.th.status := by rw [Thread.keptBy_rest]; rfl
  have hp := Thread.pass_goto (i := .pdone h) e.th.prePc rfl he hu hx
  rw [hc] at hp
  unfold Env.returns
  rw [hp, hs]
  cases e.th.exp.isSome <;> rfl

/-! ## The statement -/

/-- Settles O29: the two traps by what becomes of the handler's line, the returns by whether their handler is active, and
what PDONE leaves of the registers by the bits of its LIVE entry. -/
theorem trapsAndHandlerReturns : Obligations.TrapsAndHandlerReturns := by
  unfold Obligations.TrapsAndHandlerReturns
  refine ⟨?trap, ?tret, ?gret, ?pdone⟩
  case trap =>
    intro i kind code s s' e hi hx
    refine ⟨fun hn => ?refused, fun hv ht ho => ?enters, fun hv ht ho => ?unhandled⟩
    case refused => exact exec_throws (exec_userTrap hi s) hx (userTrap_refused hn ..)
    case unhandled => exact exec_throws (exec_userTrap hi s) hx (userTrap_asks hv ht ho)
    case enters =>
      have hpeek : s.Peeked s' := by
        have hpeek := s.handlerOk_peeked e
        rwa [ho] at hpeek
      have hth : aget s'.threads e.tid = some e.th := by rw [hpeek.threads, (State.env_some hx.env).1]
      refine ⟨_, State.stands_of_stay (exec_userTrap hi s) hx (userTrap_asks hv ht ho) (State.becomes_mod _ hth), ?_⟩
      rw [Thread.enterHandler, Thread.abandon, Thread.unkeep_clear hx.clear]
      rfl
  case tret =>
    intro h s e hx
    refine ⟨fun hf => exec_throws (exec_tret h s) hx (return_refused hf ..), fun hf => ?_⟩
    exact State.jumps_of_goto (exec_tret h s) hx rfl (return_accepted hf ..)
      (State.becomes_mod Thread.leaveHandler (State.env_some hx.env).1) hx.clear rfl rfl
  case gret =>
    intro h s e hx
    refine ⟨fun hf => exec_throws (exec_gret h s) hx (return_refused hf ..), fun hf => ?_⟩
    exact State.jumps_of_goto (exec_gret h s) hx rfl (return_accepted hf ..)
      (State.becomes_mod Thread.leaveEmu (State.env_some hx.env).1) hx.clear rfl rfl
  case pdone =>
    intro h s s' e b hx
    refine ⟨fun hf => exec_throws (exec_pdone h s) hx (return_refused hf ..), fun hf hr => ?_⟩
    refine ⟨e.th.keptBy b, _, exec_pdone_returns hx hf hr, Env.returns_eq h b hx.clear, e.th.keptBy_rest b,
      fun hb => ?unread, fun l hb => ?read⟩
    case unread => subst hb; exact ⟨rfl, rfl⟩
    case read => subst hb; exact ⟨fun n hn => e.th.rd_keepLive _ hn, fun n hn => e.th.p_keepLive _ hn⟩

end Sys2Proof.Machine
end

section
/-! SUPPORT. Guest fetch and decode (R121, R122, R131 to R136), and the statement about it. -/

namespace Sys2Proof.Machine

theorem exec_guestFetchDecode (tid : Nat) (s : State) :
    exec (.guestFetchDecode tid) s = execGuestFetchDecode tid s := rfl

/-- The surroundings of a thread that could execute now. -/
theorem State.envNow_some {s : State} {tid : Nat} {e : Env} (h : s.envNow tid = some e) :
    e.tid = tid ∧ aget s.threads tid = some e.th := by
  unfold State.envNow at h
  split at h
  · cases h
  · next q hq =>
    obtain ⟨htid, hth, -⟩ := State.envOf_some hq
    split at h
    · cases h
      exact ⟨htid, hth⟩
    · cases h

/-- A guest instruction whose page's leaf is found: native code is left alone, and a personality above 15 is a fault
(R121). -/
theorem exec_guestFetchDecode_placed {tid : Nat} {s s1 : State} {e : Env} {p : Place} (he : s.envNow tid = some e)
    (hb : e.atBoundary = true) (hp : fetchPlace e.who e.th.pc s = .ok p s1) :
    exec (.guestFetchDecode tid) s = .next (
      if pteDesc p.pte = 0 then s.keepDraws s1
      else if 16 ≤ pteDesc p.pte then
        (s.keepDraws s1).takeFault e false { kind := .persPte, acc := 3, addr := addrOf e.th.pc }
      else (s.keepDraws s1).decodeAt e (pteDesc p.pte) p) := by
  simp only [exec_guestFetchDecode, execGuestFetchDecode, he, hb, hp, event, Bool.not_true, Bool.false_eq_true, if_false]
  split_ifs <;> rfl

/-- The slots of an emulation trap stand in x0 to x15 (R136). -/
theorem sget_foldl_slots (slots : List Word) (js : List Nat) (m : Sparse 32) (k : Nat) :
    sget (js.foldl (fun m j => sset m j (slots.getD j 0)) m) k = if k ∈ js then slots.getD k 0 else sget m k := by
  induction js generalizing m with
  | nil => rfl
  | cons j t ih =>
    rw [List.foldl_cons, ih]
    by_cases hk : k = j
    · subst hk
      simp
    · simp [hk, sget_sset_other _ _ hk]

theorem Thread.sget_emulate (t : Thread) (pers entry : Nat) (slots : List Word) (noMatch : Bool) (len word : Nat)
    (emuh : Dword) {j : Nat} (hj : j < 16) :
    sget (t.emulate pers entry slots noMatch len word emuh).x j = slots.getD j 0 := by
  rw [Thread.emulate, sget_foldl_slots, if_pos (List.mem_range.mpr hj)]

/-- The expansion of a template of two or more ops notes the values that a rollback gives back (R133). -/
theorem Thread.undo_expand {t : Thread} {pers len : Nat} {ops : List Instr} {x : Exp}
    (hx : (t.expand pers len ops).exp = some x) (h : 2 ≤ ops.length) :
    x.undo = (mayWrites ops).map fun k => (k, t.keyVal k) := by
  cases hx
  simp only [if_neg (show ¬ ops.length ≤ 1 by omega)]

section decoded

variable {s s2 : State} {e : Env} {pers len : Nat} {p : Place}

/-- A guest instruction that decodes to ops becomes their expansion (R131). -/
theorem State.decodeAt_ops {ops : List Instr}
    (hd : decodeGuest { e with pers := pers } pers e.th.pc p (s.modThread e.tid fun t => { t with hazards := [] }) =
      .ok (.ops len ops) s2) :
    s.decodeAt e pers p = ((s.modThread e.tid fun t => { t with hazards := [] }).keepDraws s2).modThread e.tid
      fun t => t.expand pers len ops := by
  simp only [State.decodeAt, hd]

/-- One that decodes to an emulation trap takes it, outside the handler (R136). -/
theorem State.decodeAt_emu {entry word : Nat} {slots : List Word} {noMatch : Bool} {emuh : Dword}
    (hd : decodeGuest { e with pers := pers } pers e.th.pc p (s.modThread e.tid fun t => { t with hazards := [] }) =
      .ok (.emu entry slots noMatch len word emuh) s2) (hn : e.th.handler = false) :
    s.decodeAt e pers p = ((s.modThread e.tid fun t => { t with hazards := [] }).keepDraws s2).modThread e.tid
      fun t => t.emulate pers entry slots noMatch len word emuh := by
  simp only [State.decodeAt, hd, hn, Bool.false_eq_true, if_false]

end decoded

/-- Settles O30: the personality of the page, and then what its instruction decodes to. -/
theorem guestInstructions : Obligations.GuestInstructions := by
  unfold Obligations.GuestInstructions
  intro tid s s1 e p he hb hp
  have hx := exec_guestFetchDecode_placed he hb hp
  obtain ⟨rfl, hth⟩ := State.envNow_some he
  intro i pers r r' g
  refine ⟨fun h0 => ?native, fun h16 => ?above, fun h0 h16 => ?guest⟩
  case native => rw [hx, if_pos h0]
  case above => rw [hx, if_neg (show pers ≠ 0 by omega), if_pos h16]; rfl
  case guest =>
    rw [if_neg (show pers ≠ 0 by omega), if_neg (show ¬ 16 ≤ pers by omega)] at hx
    have hr : aget r'.threads e.tid = some { e.th with hazards := [] } :=
      (State.becomes_mod (s := r) (fun t => { t with hazards := [] }) hth).thread
    refine ⟨fun len ops s2 hd => ?ops, fun entry slots noMatch len word emuh s2 hd hn => ?emu⟩
    case ops =>
      exact ⟨_, _, _, hx.trans (congrArg _ (State.decodeAt_ops hd)), State.becomes_mod (s := r'.keepDraws s2) _ hr, rfl,
        rfl, Thread.undo_expand rfl⟩
    case emu =>
      exact ⟨_, _, hx.trans (congrArg _ (State.decodeAt_emu hd hn)), State.becomes_mod (s := r'.keepDraws s2) _ hr,
        fun j hj => Thread.sget_emulate (hj := hj) .., rfl⟩

end Sys2Proof.Machine
end

section
/-! SUPPORT. Decoding against encoding (R151, R153, R157): which terms have fields, that the decoder reads native registers
alone, which instructions read the word after theirs, and when words decode to an instruction. -/

namespace Sys2Proof

/-! ## Fields -/

open Laws.F in
/-- The decoder reads back what the encoder gives, by the lemma of each constructor; an event has no fields. -/
theorem parse_encodeFields (i : Instr) : Statement i := by
  cases i with
  | iadd => apply iadd | isub => apply isub | imul => apply imul | imulh => apply imulh | imad => apply imad
  | imin => apply imin | imax => apply imax | iabs => apply iabs | isetp => apply isetp | idp4 => apply idp4
  | shl => apply shl | shr => apply shr | shf => apply shf | logt => apply logt | bfe => apply bfe | bfi => apply bfi
  | popc => apply popc | clz => apply clz | brev => apply brev | pswz => apply pswz | lea => apply lea | sel => apply sel
  | mov => apply mov | movX => apply movX | moviShort => apply moviShort | moviLong => apply moviLong
  | fadd => apply fadd | fmul => apply fmul | ffma => apply ffma | fmin => apply fmin | fmax => apply fmax
  | fsetp => apply fsetp | frnd => apply frnd | fclass => apply fclass | padd => apply padd | pmul => apply pmul
  | pfma => apply pfma | pminmax => apply pminmax | sfn => apply sfn | cvt => apply cvt | qnt => apply qnt
  | lmul => apply lmul | ladd => apply ladd | shfl => apply shfl | vote => apply vote | redw => apply redw
  | matchOp => apply matchOp | elane => apply elane | plop3 => apply plop3 | pmovP2r => apply pmovP2r
  | pmovR2p => apply pmovR2p | ld => apply ld | ldt => apply ldt | ldl => apply ldl | st => apply st | stl => apply stl
  | stt => apply stt | atom => apply atom | red => apply red | pref => apply pref | pgreq => apply pgreq
  | smap => apply smap | sflush => apply sflush | sinv => apply sinv | cflush => apply cflush | acpy => apply acpy
  | acpyt => apply acpyt | tagld => apply tagld | tagst => apply tagst | waitc => apply waitc | fence => apply fence
  | bar => apply bar | barGrp => apply barGrp | await => apply await | yieldOp => apply yieldOp
  | backoffImm => apply backoffImm | backoffReg => apply backoffReg | rpost => apply rpost | rtake => apply rtake
  | mmap => apply mmap | mmal => apply mmal | accz => apply accz | accld => apply accld | accst => apply accst
  | braRel => apply braRel | braLong => apply braLong | brx => apply brx | callRel => apply callRel
  | callLong => apply callLong | callx => apply callx | ret => apply ret | exit => apply exit | skip => apply skip
  | nop => apply nop | trap => apply trap | bpt => apply bpt | fetchw => apply fetchw | binpush => apply binpush
  | bindrain => apply bindrain | launch => apply launch | rdsys => apply rdsys | wrsys => apply wrsys
  | setctl => apply setctl | rand => apply rand | feat => apply feat | watch => apply watch | gret => apply gret
  | tret => apply tret | pdone => apply pdone | xred => apply xred | wmov => apply wmov | walu => apply walu
  | _ => exact fun _ _ _ _ h => nomatch h

/-- Every row but the events has fields. -/
theorem encodeFields_isSome (i : Instr) : (encodeFields i).isSome = !i.isEvent := by
  cases i with
  | vote h form a m => cases form <;> rfl
  | elane h form m => cases form <;> rfl
  | walu h op d a b => cases b <;> rfl
  | _ => rfl

section fields

variable {i : Instr} {f : Fields} {x1 : Dword}

theorem isEvent_of_encodeFields (he : encodeFields i = some (f, x1)) : i.isEvent = false := by
  simpa [he] using (encodeFields_isSome i).symm

theorem isLong_of_encodeFields (he : encodeFields i = some (f, x1)) : i.isLong = f.long := by
  rw [Instr.isLong, he]

theorem encode_of_encodeFields (he : encodeFields i = some (f, x1)) :
    encode i = if i.isLong then [f.pack, x1] else [f.pack] := by
  rw [encode, isLong_of_encodeFields he, he]

end fields

/-! ## Native registers -/

theorem Reg.native_ofCode (n : BitVec 8) : (Reg.ofCode false n).native = true := rfl

theorem SrcB.native_parse (bi long : Bool) (sb sc : BitVec 8) (w1 : Dword) :
    (SrcB.parse false bi long sb sc w1).native = true := by
  cases bi <;> cases long <;> rfl

theorem parseAlu_native {f : Fields} {w1 : Dword} : ∀ i ∈ parseAlu {} f w1, i.native = true := by
  unfold parseAlu
  dsimp only
  split <;> rintro _ ⟨⟩ <;> try split_ifs
  all_goals simp [Instr.native, Reg.native_ofCode, SrcB.native_parse]

theorem parseMem_native {f : Fields} {w1 : Dword} : ∀ i ∈ parseMem {} f w1, i.native = true := by
  unfold parseMem
  dsimp only
  split <;> rintro _ ⟨⟩
  all_goals simp [Instr.native, Reg.native_ofCode]

theorem parseCtl_native {f : Fields} {w1 : Dword} : ∀ i ∈ parseCtl {} f w1, i.native = true := by
  unfold parseCtl
  dsimp only
  split <;> rintro _ ⟨⟩ <;> try split_ifs
  all_goals simp [Instr.native, Reg.native_ofCode]

/-- Native code names architectural registers alone (Table 7-5). -/
theorem parse_native {f : Fields} {w1 : Dword} {i : Instr} (h : parse {} f w1 = some i) : i.native = true := by
  unfold parse at h
  split_ifs at h
  · exact parseAlu_native i h
  · exact parseMem_native i h
  · exact parseCtl_native i h

/-! ## The word after a short instruction -/

/-- MOVI with BI has its value in SC, and without BI in WORD1. -/
theorem parse_movi {f : Fields} (h : f.opc = 0x018#10) (w1 : Dword) :
    parse {} f w1 = some (if f.mod.getLsbD 0 then .moviShort f.h (IntTy.ofCode (f.mod.extractLsb' 1 4)) (.v f.dst) f.sc
      else .moviLong f.h (IntTy.ofCode (f.mod.extractLsb' 1 4)) (.v f.dst) w1) := by
  rw [parse, parseAlu, h]
  rfl

/-- Where L is clear, WORD1 is read by a MOVI without BI alone. -/
theorem parse_short {f : Fields} (hl : f.long = false) (hm : f.opc = 0x018#10 → f.mod.getLsbD 0 = true) (w1 x1 : Dword) :
    parse {} f w1 = parse {} f x1 := by
  by_cases h : f.opc = 0x018#10
  · rw [parse_movi h, parse_movi h, hm h, if_pos rfl, if_pos rfl]
  · unfold parse parseMem parseCtl
    congr 1
    · unfold parseAlu
      dsimp only
      rw [hl]
      split
      case h_24 hf => exact absurd (BitVec.eq_of_toNat_eq hf) h
      all_goals rfl
    · rw [hl]
      rfl

/-- A short instruction reads back whatever follows it: a MOVI without BI is a long form. -/
theorem parse_of_short {i : Instr} {f : Fields} {x1 : Dword} (hp : parse {} f x1 = some i)
    (he : encodeFields i = some (f, x1)) (hl : i.isLong = false) (w1 : Dword) : parse {} f w1 = some i := by
  rw [parse_short ((isLong_of_encodeFields he).symm.trans hl) _ w1 x1, hp]
  intro hm
  rw [parse_movi hm] at hp
  by_contra hb
  rw [if_neg hb] at hp
  cases hp
  exact Bool.noConfusion hl

/-! ## Words -/

/-- The fields of an instruction stand in the words w0 and w1, of which the second is its own where it is a long form. -/
def Instr.HasWords (i : Instr) (w0 w1 : Dword) : Prop :=
  ∃ f x1, encodeFields i = some (f, x1) ∧ f.pack = w0 ∧ (i.isLong = true → x1 = w1)

/-- Words decode to an instruction exactly where they parse to it, it is well formed and they are its own (R153). -/
theorem decode_eq_some {l : Lit} {w0 w1 : Dword} {i : Instr} : decode l w0 w1 = some i ↔
    parse l (Fields.unpack w0) w1 = some i ∧ i.wellFormed = true ∧ i.HasWords w0 w1 := by
  unfold decode Instr.HasWords Instr.isLong
  cases parse l (Fields.unpack w0) w1 with
  | none => simp
  | some j =>
    rw [Option.ite_none_right_eq_some, Bool.and_eq_true, Option.some.injEq, and_comm]
    refine and_congr_right ?_
    rintro rfl
    refine and_congr_right fun _ => ?_
    cases encodeFields j with
    | none => simp
    | some p =>
      obtain ⟨f, x1⟩ := p
      cases hl : f.long <;> simp [hl, and_comm]

/-- Settles O58: by decode_eq_some, and since a short instruction reads nothing of the word after it. -/
theorem decodingAndEncodingAgree : Obligations.DecodingAndEncodingAgree := by
  unfold Obligations.DecodingAndEncodingAgree
  refine ⟨fun i hev hn hw => ?encode, fun w0 w1 i hd => ?decode⟩
  case encode =>
    obtain ⟨⟨f, x1⟩, he⟩ := Option.isSome_iff_exists.mp ((encodeFields_isSome i).trans (by rw [hev]; rfl))
    have hp : parse {} f x1 = some i := parse_encodeFields i hn hw f x1 he
    rw [encode_of_encodeFields he]
    split_ifs with hl
    · exact ⟨_, _, rfl, decode_eq_some.mpr ⟨by rwa [Fields.unpack_pack], hw, f, x1, he, rfl, fun _ => rfl⟩⟩
    · refine ⟨_, rfl, fun w1 => decode_eq_some.mpr ⟨?_, hw, f, x1, he, rfl, fun h => absurd h hl⟩⟩
      rw [Fields.unpack_pack]
      exact parse_of_short hp he ((Bool.not_eq_true _).mp hl) w1
  case decode =>
    obtain ⟨hp, hw, f, x1, he, rfl, hx⟩ := decode_eq_some.mp hd
    refine ⟨isEvent_of_encodeFields he, parse_native hp, hw, (encode_of_encodeFields he).trans ?_⟩
    split_ifs with hl
    · rw [hx hl]
    · rfl

/-- Settles O59: the decoder evaluates on each word. -/
theorem wordsOfTheReference : Obligations.WordsOfTheReference := by
  unfold Obligations.WordsOfTheReference
  decide

end Sys2Proof
end

section
/-! SUPPORT. Warp-uniform registers (R163, R506 to R508): which write of a bundle stands, what a read of the bundle gives, and
the ops that read and write them. -/

namespace Sys2Proof.Machine

/-! ## Writes and reads of one warp -/

/-- A lane below `lane` has written w register n in bundle b. -/
def Warp.LowerWrote (w : Warp) (b n lane : Nat) : Prop := w.wb = b ∧ ∃ l, aget w.wLane n = some l ∧ l < lane

theorem Warp.wr_of_lower {w : Warp} {b n lane : Nat} (h : w.LowerWrote b n lane) (v : Dword) : w.wr b n lane v = w := by
  obtain ⟨hb, l, hl, hlt⟩ := h
  simp only [Warp.wr, hb, if_true, hl, hlt]

/-- A write that stands keeps beside it the value before the bundle, which reads of the bundle give. -/
theorem Warp.wr_of_not_lower {w : Warp} {b n lane : Nat} (h : ¬ w.LowerWrote b n lane) (v : Dword) :
    ∃ lanes olds, (aget lanes n).isSome = true ∧ sget olds n = w.rd b n ∧
      w.wr b n lane v = { w with wb := b, wOld := olds, wLane := lanes, w := sset w.w n v } := by
  by_cases hb : w.wb = b
  · subst hb
    cases hl : aget w.wLane n with
    | none =>
      refine ⟨aset w.wLane n lane, sset w.wOld n (sget w.w n), by simp, by simp [Warp.rd, hl], ?_⟩
      simp only [Warp.wr, if_true, hl]
    | some l =>
      refine ⟨aset w.wLane n lane, w.wOld, by simp, by simp [Warp.rd, hl], ?_⟩
      have hlt : ¬ l < lane := fun hlt => h ⟨rfl, l, hl, hlt⟩
      simp only [Warp.wr, if_true, hl, if_neg hlt]
  · refine ⟨aset [] n lane, sset [] n (sget w.w n), by simp, by simp [Warp.rd, hb], ?_⟩
    simp only [Warp.wr, if_neg hb, aget_nil]

/-- What a write does to its warp: the register it writes, the others, the reads of its bundle and all that is no w
register. -/
theorem Warp.wr_spec (w : Warp) (b n lane : Nat) (v : Dword) :
    (¬ w.LowerWrote b n lane → sget (w.wr b n lane v).w n = v) ∧
    (w.LowerWrote b n lane → sget (w.wr b n lane v).w n = sget w.w n) ∧
    (∀ m, m ≠ n → sget (w.wr b n lane v).w m = sget w.w m) ∧ (w.wr b n lane v).rd b n = w.rd b n ∧
    (w.wb ≠ b → w.rd b n = sget w.w n) ∧ (w.wr b n lane v).role = w.role ∧ (w.wr b n lane v).quarter = w.quarter := by
  have hrd : w.wb ≠ b → w.rd b n = sget w.w n := fun hb => by simp [Warp.rd, hb]
  by_cases h : w.LowerWrote b n lane
  · rw [Warp.wr_of_lower h]
    exact ⟨fun hn => absurd h hn, fun _ => rfl, fun _ _ => rfl, rfl, hrd, rfl, rfl⟩
  · obtain ⟨lanes, olds, hl, ho, hw⟩ := Warp.wr_of_not_lower h v
    rw [hw]
    refine ⟨fun _ => sget_sset_same .., fun hn => absurd hn h, fun m hm => sget_sset_other _ _ hm, ?_, hrd, rfl, rfl⟩
    simp [Warp.rd, hl, ho]

/-! ## The ops -/

section ops

variable {s : State} {e : Env} {i : Instr}

theorem Env.readW_clear (h : e.th.Clear) (s : State) (n : Nat) : e.readW s n = e.w.rd s.bundle n := by
  rw [Env.readW, h.1]
  rfl

theorem readW_ok (h : e.th.Clear) (n : Nat) (s : State) : readW e n s = .ok (e.w.rd s.bundle n) s := by
  rw [← Env.readW_clear h s n]
  rfl

theorem writeW_ok (h : e.th.Clear) (n : Nat) (v : Dword) (s : State) :
    writeW e n v s = .ok () (s.modWarp e.warp fun w => w.wr s.bundle n e.lane v) := by
  rw [writeW, h.2.1]
  rfl

/-- An op that writes a w register and is done. -/
theorem State.writesWarp_of_done {body : Env → M Flow} {n : Nat} {val : Dword} (hx : exec i s = threadOp i s body)
    (h : s.Executes e i) (hl : Instr.isLdc i = false)
    (hb : body e s = .ok .done (s.modWarp e.warp fun w => w.wr s.bundle n e.lane val)) : s.WritesWarp e i n val := by
  obtain ⟨hth, -, hw, -⟩ := State.env_some h.env
  have hm := State.becomes_mod (s := s.modWarp e.warp fun w => w.wr s.bundle n e.lane val)
    (fun t => t.pass e i true none) hth
  refine ⟨_, _, by rw [hx, threadOp_next h, hb, endOp_done], rfl, hm.thread, ?_, ?_, hm.others, fun k hk => ?_⟩
  · exact (Thread.pass_kept (by simp [hl]) h.clear (.refl _) (fun _ _ => rfl) (fun _ _ => rfl) (by simp)).1
  · simp [aget_amod_same, hw]
  · rw [State.modThread_warps, State.modWarp_warps, aget_amod_other _ _ hk]

theorem Thread.rd64_congr {t u : Thread} {d : Reg} (h : t.rd d = u.rd d) (h' : t.rd (regNext d) = u.rd (regNext d)) :
    t.rd64 d = u.rd64 d := by
  rw [Thread.rd64, Thread.rd64, h, h']

theorem Env.sees_regNext {d : Reg} (h : e.sees d) : e.sees (regNext d) := by
  cases d <;> exact h

/-- An op that writes a pair and is done. -/
theorem State.writesPair_of_done {body : Env → M Flow} {d : Reg} {val : Dword} (hx : exec i s = threadOp i s body)
    (h : s.Executes e i) (hl : Instr.isLdc i = false) (hd : Opnd.pair d ∈ Instr.dsts i)
    (hb : body e s = .ok .done (s.modThread e.tid fun t => t.wr64 d val)) : s.Writes e i true d val 0 := by
  obtain ⟨hth, -⟩ := State.env_some h.env
  have hm := State.becomes_mod (fun t => (t.wr64 d val).pass e i true none) hth
  obtain ⟨hk, hr, -⟩ := Thread.pass_kept (i := i) (u := e.th.wr64 d val) (xs := regsOf true d) (ps := []) (fl := 0)
    (by simp [hl]) h.clear ((Thread.Changed.refl e.th).wr64 d val) (fun x hm => Thread.rd_wrW_other e.th true val hm)
    (fun n _ => by simp [Thread.p]) (by simp)
  refine ⟨_, _, by rw [hx, threadOp_next h, hb, endOp_done, State.modThread_modThread], hm, fun hs => ?_, hk⟩
  rw [if_pos rfl, Thread.rdW, if_pos rfl]
  by_cases hz : d = .v 255
  · rw [if_pos hz, Thread.rd64, if_pos hz]
  · obtain ⟨h1, h2⟩ := holds_of_ok (w64 := true) (ok_of_checks h.checks hd) hs hz
    rw [if_neg hz, Thread.rd64_congr (hr d hs) (hr _ (Env.sees_regNext hs)), Thread.rd64_wr64 e.th d val hz h1 (h2 rfl)]

/-- Check 6 of Table 7-7 refuses an operand that the thread cannot name, where checks 4 and 5 pass. -/
theorem preCheck_of_badOperand {o : Opnd} (hf : Instr.features i = []) (hr : Instr.roleOk i e.w.role = true)
    (ho : o ∈ Instr.srcs i ++ Instr.dsts i) (hbad : o.ok e.c.regs e.th.handler (e.ctx.has 7) = false) :
    preCheck e i = some (pcFault .illegalOperand e.th.pc) := by
  have hany : ((Instr.srcs i ++ Instr.dsts i).any fun o => !o.ok e.c.regs e.th.handler (e.ctx.has 7)) = true :=
    List.any_eq_true.mpr ⟨o, ho, by rw [hbad]; rfl⟩
  simp only [preCheck, hf, List.any_nil, hr, Bool.not_true, Bool.false_eq_true, if_false, hany, if_true]

theorem Opnd.ok_w_of_le {n : Nat} (h : 64 ≤ n) (regs : Nat) (handler watch : Bool) :
    Opnd.ok (.w n) regs handler watch = false := decide_eq_false (by omega)

end ops

/-- Settles O12: what a write does to its warp, and the ops through their reads and writes of w registers. -/
theorem warpUniformRegisters : Obligations.WarpUniformRegisters := by
  unfold Obligations.WarpUniformRegisters
  refine ⟨fun w b n lane v => w.wr_spec b n lane v, fun h d a s e hx => ?fromW, fun h dir d a s e hdir hx => ?toW,
    fun h op d a b e hb => ?checks, fun h op d a b s e hx => ?walu⟩
  case fromW =>
    exact State.writesPair_of_done rfl hx rfl List.mem_cons_self (bind_ok (readW_ok hx.clear ..))
  case toW =>
    refine State.writesWarp_of_done rfl hx rfl ?_
    cases dir with
    | fromW => exact absurd rfl hdir
    | toW => exact bind_ok (writeW_ok hx.clear ..)
    | lo => exact bind_ok (writeW_ok hx.clear ..)
    | wToW => exact (bind_ok (readW_ok hx.clear ..)).trans (bind_ok (writeW_ok hx.clear ..))
  case checks =>
    rcases hb with hd | ha | ⟨n, rfl, hn⟩
    · exact preCheck_of_badOperand rfl rfl (o := .w d.toNat) (by simp [Instr.dsts]) (Opnd.ok_w_of_le hd ..)
    · exact preCheck_of_badOperand rfl rfl (o := .w a.toNat) (by simp [Instr.srcs]) (Opnd.ok_w_of_le ha ..)
    · exact preCheck_of_badOperand rfl rfl (o := .w n.toNat) (by simp [Instr.srcs]) (Opnd.ok_w_of_le hn ..)
  case walu =>
    refine State.writesWarp_of_done rfl hx rfl ((bind_ok (readW_ok hx.clear ..)).trans ?_)
    cases b with
    | reg n =>
      refine (bind_ok (readW_ok hx.clear ..)).trans ((bind_ok (writeW_ok hx.clear ..)).trans ?_)
      cases op <;> rfl
    | imm n =>
      refine (bind_ok (writeW_ok hx.clear ..)).trans ?_
      cases op <;> rfl

end Sys2Proof.Machine
end

section
/-! SUPPORT. What the plane engine, the LNS path and the moves of the accumulator window compute (R199, R211 to R213,
R218 to R223). -/

namespace Sys2Proof.Machine

/-! ## The moves of the window -/

theorem matrixRun_accz {o : MatOp} (h : o.kind = .accz) (sp : Sparse 8) (acc : Sparse 32) : (matrixRun o sp acc).1 =
    acc.filter fun e => e.1 / 1024 < o.dst || o.dst + o.count ≤ e.1 / 1024 := by
  unfold matrixRun
  rw [h]

theorem matrixRun_accld {o : MatOp} (h : o.kind = .accld) (sp : Sparse 8) (acc : Sparse 32) : (matrixRun o sp acc).1 =
    (List.range 1024).foldl (fun a i =>
      sset a (o.dst * 1024 + i) (BitVec.ofNat 32 (leNat (sread sp (o.off + 4 * i) 4)))) acc := by
  unfold matrixRun
  rw [h]

theorem matrixRun_accst_bytes {o : MatOp} (h : o.kind = .accst) (sp : Sparse 8) (acc : Sparse 32) :
    (matrixRun o sp acc).2.1 = (List.range 1024).flatMap fun i => leBytes 4 (sget acc (o.dst * 1024 + i)).toNat := by
  unfold matrixRun
  rw [h]

/-- Values are put under n keys from b on. -/
theorem sget_foldl_sset {w : Nat} (m : Sparse w) (b n : Nat) (f : Nat → BitVec w) (k : Nat) :
    sget ((List.range n).foldl (fun m i => sset m (b + i) (f i)) m) k =
      if b ≤ k ∧ k < b + n then f (k - b) else sget m k := by
  induction n with
  | zero => rw [if_neg (by omega)]; rfl
  | succ n ih =>
    rw [List.range_succ, List.foldl_append, List.foldl_cons, List.foldl_nil, sget_sset, ih]
    by_cases h : k = b + n
    · rw [if_pos h, if_pos (by omega), h, Nat.add_sub_cancel_left]
    · rw [if_neg h]
      by_cases hb : b ≤ k ∧ k < b + n
      · rw [if_pos hb, if_pos (by omega)]
      · rw [if_neg hb, if_neg (by omega)]

/-- The j-th piece of pieces of one length that stand in a row. -/
theorem take_drop_flatMap {α β : Type} {f : α → List β} {n : Nat} (hf : ∀ a, (f a).length = n) :
    ∀ (l : List α) {j : Nat} (hj : j < l.length), ((l.flatMap f).drop (n * j)).take n = f l[j]
  | a :: l, 0, _ => by
    rw [List.flatMap_cons, Nat.mul_zero, List.drop_zero, List.take_left' (hf a), List.getElem_cons_zero]
  | a :: l, j + 1, hj => by
    have hlen : n * (j + 1) = (f a).length + n * j := by rw [hf, Nat.mul_succ, Nat.add_comm]
    rw [List.flatMap_cons, hlen, List.drop_length_add_append, List.getElem_cons_succ,
      take_drop_flatMap hf l (Nat.lt_of_succ_lt_succ hj)]

/-- The words of a block stand in its 4096 bytes in order (R223). -/
theorem matrixRun_accst_word {o : MatOp} (h : o.kind = .accst) (sp : Sparse 8) (acc : Sparse 32) {j : Nat} (hj : j < 1024) :
    leNat (((matrixRun o sp acc).2.1.drop (4 * j)).take 4) = (sget acc (o.dst * 1024 + j)).toNat := by
  rw [matrixRun_accst_bytes h, take_drop_flatMap (fun i => leBytes_length 4 _) _ (by rwa [List.length_range]),
    List.getElem_range, leNat_leBytes]
  exact Nat.mod_eq_of_lt (BitVec.isLt _)

/-! ## Products -/

/-- Steps that each change one word, no two of them the same: every word is changed from its first value. -/
theorem sget_foldl_once {α β : Type} {w : Nat} {step : Sparse w × β → α → Sparse w × β} {key : α → Nat}
    {val : α → BitVec w → BitVec w}
    (hs : ∀ r x, (step r x).1 = sset r.1 (key x) (val x (sget r.1 (key x)))) {xs : List α} (hn : (xs.map key).Nodup)
    {x : α} (hx : x ∈ xs) (r : Sparse w × β) :
    sget (xs.foldl step r).1 (key x) = val x (sget r.1 (key x)) := by
  have hout : ∀ (ys : List α) (r : Sparse w × β) (k : Nat), k ∉ ys.map key → sget (ys.foldl step r).1 k = sget r.1 k := by
    intro ys
    induction ys with
    | nil => exact fun _ _ _ => rfl
    | cons y t ih =>
      intro r k hk
      rw [List.map_cons, List.mem_cons, not_or] at hk
      rw [List.foldl_cons, ih _ k hk.2, hs, sget_sset_other _ _ hk.1]
  induction xs generalizing r with
  | nil => cases hx
  | cons y t ih =>
    rw [List.map_cons, List.nodup_cons] at hn
    rw [List.foldl_cons]
    rcases List.mem_cons.mp hx with rfl | ht
    · rw [hout t _ _ hn.1, hs, sget_sset_same]
    · have hne : key x ≠ key y := fun h => hn.1 (h ▸ List.mem_map_of_mem ht)
      rw [ih hn.2 ht, hs, sget_sset_other _ _ hne]

/-- Word of the window that holds element (m, j) of a product (R222). -/
def elemIdx (dst : Nat) (x : Nat × Nat) : Nat := accIdx (dst + x.2 / 32) x.1 (x.2 % 32)

theorem elemIdx_nodup (dst n : Nat) : ((List.range 32 ×ˢ List.range n).map (elemIdx dst)).Nodup := by
  refine List.Nodup.map_on (fun x hx y hy h => ?_) (List.nodup_range.product List.nodup_range)
  have hxm := List.mem_range.mp (List.mem_product.mp hx).1
  have hym := List.mem_range.mp (List.mem_product.mp hy).1
  unfold elemIdx accIdx at h
  exact Prod.ext (by omega) (by omega)

/-- One element of a product enters the window (R219). -/
def elemWrite (dst fill : Nat) (masked : Nat → Nat → Bool) (elem : Nat → Nat → Nat → FRes) (r : Sparse 32 × BitVec 7)
    (x : Nat × Nat) : Sparse 32 × BitVec 7 :=
  if masked x.1 x.2 then (sset r.1 (elemIdx dst x) (BitVec.ofNat 32 fill), r.2)
  else
    (sset r.1 (elemIdx dst x) (BitVec.ofNat 32 (elem x.1 x.2 (sget r.1 (elemIdx dst x)).toNat).1),
      r.2 ||| (elem x.1 x.2 (sget r.1 (elemIdx dst x)).toNat).2)

theorem productWrite_eq (dst n fill : Nat) (masked : Nat → Nat → Bool) (elem : Nat → Nat → Nat → FRes) (acc : Sparse 32) :
    productWrite dst n fill masked elem acc =
      (List.range 32 ×ˢ List.range n).foldl (elemWrite dst fill masked elem) (acc, 0) := by
  simp only [SProd.sprod, List.product, List.foldl_flatMap, List.foldl_map]
  rfl

theorem elemWrite_window (dst fill : Nat) (masked : Nat → Nat → Bool) (elem : Nat → Nat → Nat → FRes)
    (r : Sparse 32 × BitVec 7) (x : Nat × Nat) : (elemWrite dst fill masked elem r x).1 = sset r.1 (elemIdx dst x)
      (if masked x.1 x.2 then BitVec.ofNat 32 fill
        else BitVec.ofNat 32 (elem x.1 x.2 (sget r.1 (elemIdx dst x)).toNat).1) := by
  unfold elemWrite
  split <;> rfl

/-- An element of a product: FILL where it is masked, else the engine's value from the word that stood there (R219). -/
theorem sget_productWrite (dst fill : Nat) (masked : Nat → Nat → Bool) (elem : Nat → Nat → Nat → FRes)
    (acc : Sparse 32) {n m j : Nat} (hm : m < 32) (hj : j < n) :
    sget (productWrite dst n fill masked elem acc).1 (accIdx (dst + j / 32) m (j % 32)) =
      if masked m j then BitVec.ofNat 32 fill
      else BitVec.ofNat 32 (elem m j (sget acc (accIdx (dst + j / 32) m (j % 32))).toNat).1 := by
  have hmem : (m, j) ∈ List.range 32 ×ˢ List.range n :=
    List.mem_product.mpr ⟨List.mem_range.mpr hm, List.mem_range.mpr hj⟩
  rw [productWrite_eq]
  exact sget_foldl_once (val := fun x w => if masked x.1 x.2 then BitVec.ofNat 32 fill
    else BitVec.ofNat 32 (elem x.1 x.2 w.toNat).1) (elemWrite_window dst fill masked elem) (elemIdx_nodup dst n) hmem _

theorem matrixRun_mmap {o : MatOp} (h : o.kind = .mmap) (sp : Sparse 8) (acc : Sparse 32) :
    let b := planeBlk o.block
    (matrixRun o sp acc).1 =
      (productWrite o.dst b.n b.fill (triMasked b.tri b.diag b.roworg b.colorg) (planeElem b sp) acc).1 := by
  unfold matrixRun
  rw [h]

theorem matrixRun_mmal {o : MatOp} (h : o.kind = .mmal) (sp : Sparse 8) (acc : Sparse 32) :
    let b := lnsBlk o.block
    (matrixRun o sp acc).1 =
      (productWrite o.dst (32 * b.nc) b.fill (triMasked b.tri b.diag b.roworg b.colorg) (lnsElem b sp) acc).1 := by
  unfold matrixRun
  rw [h]

/-! ## Sums -/

theorem foldl_add_eq_sum {α : Type} (f : α → Int) (l : List α) (a : Int) :
    l.foldl (fun x y => x + f y) a = a + (l.map f).sum := by
  induction l generalizing a with
  | nil => simp
  | cons y t ih => rw [List.foldl_cons, ih, List.map_cons, List.sum_cons, Int.add_assoc]

/-- The value of plane bits: all weigh 2^i but the last of a signed value (R212). -/
theorem planeVal_eq (sgn : Bool) {p : Nat} (bit : Nat → Nat) (hp : 0 < p) : planeVal sgn p bit =
    ((List.range p).map fun i => (bit i * 2 ^ i : Int)).sum - if sgn then bit (p - 1) * 2 ^ p else 0 := by
  obtain ⟨q, rfl⟩ := Nat.exists_eq_add_one_of_ne_zero hp.ne'
  have hlow : ((List.range q).map fun i =>
      (if sgn && i + 1 == q + 1 then -((2 ^ i : Nat) : Int) else (2 ^ i : Nat)) * (bit i : Int)) =
      (List.range q).map fun i => (bit i * 2 ^ i : Int) := by
    refine List.map_congr_left fun i hi => ?_
    have hne : (i + 1 == q + 1) = false := by simpa using (List.mem_range.mp hi).ne
    rw [hne, Bool.and_false, if_neg Bool.false_ne_true, Int.mul_comm]
    push_cast
    rfl
  unfold planeVal
  rw [foldl_add_eq_sum, List.range_succ, List.map_append, List.map_append, hlow]
  cases sgn
  · simp [mul_comm]
  · simp [pow_succ]
    ring

/-! ## Integer planes -/

theorem sextInt_toNat {w : Nat} (hw : 0 < w) (x : BitVec w) : sextInt w x.toNat = x.toInt := by
  obtain ⟨v, rfl⟩ := Nat.exists_eq_add_one_of_ne_zero hw.ne'
  have hx := x.isLt
  rw [sextInt, BitVec.toInt_eq_toNat_cond, Nat.mod_eq_of_lt hx, Nat.add_sub_cancel]
  refine if_congr ?_ rfl rfl
  rw [Nat.pow_succ]
  omega

theorem ofInt_toNat_mod (r : Int) : (BitVec.ofInt 64 r).toNat % 2 ^ 32 = (BitVec.ofInt 32 r).toNat := by
  rw [BitVec.toNat_ofInt, BitVec.toNat_ofInt]
  omega

/-- An element of integer planes: the dot product and the word under ACC, saturated to 32 bits (R218). -/
theorem planeElem_int {b : PlaneBlk} (h : b.kblk = 3) (sp : Sparse 8) (m n : Nat) (word : Word) :
    let r : Int := b.dot sp m n 0 b.k + (if b.acc then word.toInt else 0)
    (planeElem b sp m n word.toNat).1 = (BitVec.ofInt 32 (max (-2147483648) (min 2147483647 r))).toNat ∧
      (planeElem b sp m n word.toNat).2 = if -2147483648 ≤ r ∧ r ≤ 2147483647 then 0 else flagSAT := by
  intro r
  have hsat : satInt 32 true true r = (BitVec.ofInt 64 (max (-2147483648) (min 2147483647 r)),
      if max (-2147483648) (min 2147483647 r) = r then 0 else flagSAT) := satInt_eq 32 true true r (by decide)
  have hrange : max (-2147483648) (min 2147483647 r) = r ↔ -2147483648 ≤ r ∧ r ≤ 2147483647 := by omega
  simp only [planeElem, if_pos h, sextInt_toNat (w := 32) (by decide)]
  rw [show b.dot sp m n 0 b.k + (if b.acc then word.toInt else 0) = r from rfl, hsat]
  exact ⟨ofInt_toNat_mod _, if_congr hrange rfl rfl⟩

/-! ## Exponent records -/

theorem Val.negIf_false (v : Val) : v.negIf false = v := by
  cases v <;> simp [Val.negIf]

/-- What a sum in FP32 adds (R218, R407). -/
theorem accAdd_eq (y t : FRes) :
    let sum := addVal (Fmt.f32.val y.1 0) (Fmt.f32.val t.1 0) .rn
    accAdd y t = ((roundTo .f32 .rn sum.1 0).1, y.2 ||| t.2 ||| (sum.2 ||| (roundTo .f32 .rn sum.1 0).2)) := by
  simp only [accAdd, fadd', Val.negIf_false]

theorem accAdd_word (w : Nat) (t : FRes) :
    let sum := addVal (Fmt.f32.val w 0) (Fmt.f32.val t.1 0) .rn
    accAdd (w, 0) t = ((roundTo .f32 .rn sum.1 0).1, t.2 ||| (sum.2 ||| (roundTo .f32 .rn sum.1 0).2)) := by
  simp only [accAdd_eq, BitVec.ofNat_eq_ofNat, BitVec.zero_or]

/-- The i-th block's dot product, scaled by its exponent records and rounded to FP32, or a NaN where a record is 0x8000
(R213, R218). -/
def PlaneBlk.term (b : PlaneBlk) (sp : Sparse 8) (m n i : Nat) : FRes :=
  let ea := spHalf sp (b.aexp + 2 * (32 * i + m))
  let eb := spHalf sp (b.bexp + 2 * (b.n * i + n))
  if ea = 0x8000 || eb = 0x8000 then (Fmt.f32.cnan, flagNV)
  else scaledF32 (b.dot sp m n (i * b.kb) b.kb) (sextInt 16 ea + sextInt 16 eb - b.pa - b.pb + 4)

/-- The sum before block i (R218). -/
def PlaneBlk.partialSum (b : PlaneBlk) (sp : Sparse 8) (m n word i : Nat) : FRes :=
  (List.range i).foldl (fun y i => accAdd y (b.term sp m n i)) (if b.acc then word else negZero, 0)

theorem PlaneBlk.partialSum_succ (b : PlaneBlk) (sp : Sparse 8) (m n word i : Nat) :
    b.partialSum sp m n word (i + 1) = accAdd (b.partialSum sp m n word i) (b.term sp m n i) := by
  rw [partialSum, List.range_succ, List.foldl_append]
  rfl

theorem planeElem_records {b : PlaneBlk} (h : b.kblk < 3) (sp : Sparse 8) (m n word : Nat) :
    planeElem b sp m n word = b.partialSum sp m n word (b.k / b.kb) := by
  rw [planeElem, if_neg h.ne]
  rfl

theorem leNat_lt (bs : List Byte) : leNat bs < 256 ^ bs.length := by
  induction bs with
  | nil => decide
  | cons x t ih =>
    have hx : x.toNat < 256 := x.isLt
    rw [leNat, List.length_cons, Nat.pow_succ]
    omega

/-- A record of the scratchpad as a 16-bit word. -/
theorem spHalf_eq (sp : Sparse 8) (a : Nat) : spHalf sp a = (BitVec.ofNat 16 (leNat (sread sp a 2))).toNat := by
  have hlt := leNat_lt (sread sp a 2)
  rw [sread_length] at hlt
  exact (Nat.mod_eq_of_lt hlt).symm

theorem PlaneBlk.term_eq (b : PlaneBlk) (sp : Sparse 8) (m n i : Nat) :
    let ea := BitVec.ofNat 16 (leNat (sread sp (b.aexp + 2 * (32 * i + m)) 2))
    let eb := BitVec.ofNat 16 (leNat (sread sp (b.bexp + 2 * (b.n * i + n)) 2))
    b.term sp m n i = if ea = 0x8000#16 ∨ eb = 0x8000#16 then (0x7FC00000, flagNV)
      else scaledF32 (b.dot sp m n (i * b.kb) b.kb) (ea.toInt + eb.toInt - b.pa - b.pb + 4) := by
  intro ea eb
  have hnan : ∀ x : BitVec 16, x.toNat = 0x8000 ↔ x = 0x8000#16 := fun x =>
    BitVec.toNat_inj (y := 0x8000#16)
  simp only [term, spHalf_eq, sextInt_toNat (w := 16) (by decide), Bool.or_eq_true, decide_eq_true_eq, hnan]
  rfl

/-! ## The LNS path -/

theorem l6T_mod (q : Int) :
    (l6T (q % 4).toNat : Int) = ([32768, 38968, 46341, 55109] : List Int).getD (q % 4).toNat 0 := by
  have h : ∀ r, r < 4 → (l6T r : Int) = ([32768, 38968, 46341, 55109] : List Int).getD r 0 := by decide
  exact h _ (by omega)

/-- A product of two L6 codes that are no NaN, in units of 2^-23 (R199). -/
def lnsProduct (x y : Nat) : Int :=
  let q := l6Log x + l6Log y
  let mag : Int := [32768, 38968, 46341, 55109].getD (q % 4).toNat 0 * 2 ^ (q / 4 + 8).toNat
  if x = 0x10 ∨ y = 0x10 then 0 else if x / 32 = y / 32 then mag else -mag

theorem lnsTerm_eq (a b : Nat) : lnsTerm a b =
    if a % 64 = 0x30 ∨ b % 64 = 0x30 then none else some (lnsProduct (a % 64) (b % 64)) := by
  have hsign : ∀ u < 2, ∀ v < 2, ((u == 1) ^^ (v == 1)) = !decide (u = v) := by decide
  have hlog : ∀ c, l6n c = l6Log c := fun _ => rfl
  simp only [lnsTerm, lnsProduct, hlog, hsign (a % 64 / 32) (by omega) (b % 64 / 32) (by omega), l6T_mod, Nat.cast_mul,
    Nat.cast_pow, Nat.cast_ofNat, Bool.or_eq_true, Bool.not_eq_true', decide_eq_true_eq, decide_eq_false_iff_not, ite_not,
    apply_ite some]

/-- A term joins a sum; a NaN makes it one (R199). -/
def addTerm (acc t : Option Int) : Option Int :=
  match acc, t with
  | some x, some y => some (x + y)
  | _, _ => none

theorem foldl_addTerm_none (l : List (Option Int)) : l.foldl addTerm none = none := by
  induction l with
  | nil => rfl
  | cons t l ih => exact ih

theorem foldl_addTerm_nan {l : List (Option Int)} (h : none ∈ l) (a : Option Int) : l.foldl addTerm a = none := by
  obtain ⟨l, r, rfl⟩ := List.append_of_mem h
  have hnone : ∀ x : Option Int, addTerm x none = none := fun x => by cases x <;> rfl
  rw [List.foldl_append, List.foldl_cons, hnone, foldl_addTerm_none]

theorem foldl_addTerm_some (l : List Int) (a : Int) : (l.map some).foldl addTerm (some a) = some (a + l.sum) := by
  induction l generalizing a with
  | nil => simp
  | cons y l ih =>
    rw [List.map_cons, List.foldl_cons, List.sum_cons, ← Int.add_assoc]
    exact ih (a + y)

/-- The terms of an element's dot product (R221). -/
def LnsBlk.terms (b : LnsBlk) (sp : Sparse 8) (m n : Nat) : List (Option Int) :=
  (List.range b.k).map fun k =>
    lnsTerm (sget sp (b.abase + m * b.k + k)).toNat (sget sp (b.bbase + n * b.k + k)).toNat

/-- An element adds to the word, or to -0, its dot product (R221). -/
theorem lnsElem_eq (b : LnsBlk) (sp : Sparse 8) (m n word : Nat) : lnsElem b sp m n word =
    accAdd (if b.acc then word else negZero, 0) (match (b.terms sp m n).foldl addTerm (some 0) with
      | none => (Fmt.f32.cnan, 0)
      | some x => scaledF32 x (b.x - 23)) := by
  rw [LnsBlk.terms, List.foldl_map]
  rfl

theorem lnsElem_nan {b : LnsBlk} {sp : Sparse 8} {m n : Nat} (h : none ∈ b.terms sp m n) (word : Nat) :
    lnsElem b sp m n word = accAdd (if b.acc then word else negZero, 0) (Fmt.f32.cnan, 0) := by
  rw [lnsElem_eq, foldl_addTerm_nan h]

theorem lnsElem_sum {b : LnsBlk} {sp : Sparse 8} {m n : Nat} {l : List Int} (h : b.terms sp m n = l.map some) (word : Nat) :
    lnsElem b sp m n word = accAdd (if b.acc then word else negZero, 0) (scaledF32 l.sum (b.x - 23)) := by
  rw [lnsElem_eq, h, foldl_addTerm_some, Int.zero_add]

/-! ## The statement -/

/-- Settles O16, part by part: the moves and the products, the engine's values, and the values of plane bits. -/
theorem matrixResults : Obligations.MatrixResults := by
  unfold Obligations.MatrixResults
  refine ⟨fun o sp acc => ⟨fun h j => ?accz, fun h j => ?accld, fun h => ?accst, fun h m j hm hj => ?mmap,
    fun h m j hm hj => ?mmal⟩, fun b sp m n word h => ?int, fun b sp m n word h => ?records,
    fun sgn p bit hp _ => planeVal_eq sgn bit hp, fun b sp m n word => ⟨fun h => ?nan, fun h => ?sum⟩⟩
  case accz =>
    rw [matrixRun_accz h, sget_filter acc fun k => k / 1024 < o.dst || o.dst + o.count ≤ k / 1024]
    by_cases hin : o.dst ≤ j / 1024 ∧ j / 1024 < o.dst + o.count
    · rw [if_pos hin, if_neg (by simp; omega)]
    · rw [if_neg hin, if_pos (by simp; omega)]
  case accld =>
    rw [matrixRun_accld h, sget_foldl_sset]
    refine if_ctx_congr (by omega) (fun hj => ?_) fun _ => rfl
    rw [show j - o.dst * 1024 = j % 1024 by omega]
  case accst =>
    obtain ⟨hacc, hlen, -⟩ := matrixRun_accst h sp acc
    exact ⟨hacc, hlen, fun j hj => matrixRun_accst_word h sp acc hj⟩
  case mmap =>
    rw [matrixRun_mmap h]
    exact sget_productWrite _ _ _ _ _ hm hj
  case mmal =>
    rw [matrixRun_mmal h]
    exact sget_productWrite _ _ _ _ _ hm hj
  case int =>
    have hdot := planeElem_int h sp m n word
    simp only [PlaneBlk.dot, Nat.zero_add] at hdot
    exact hdot
  case records =>
    refine ⟨b.partialSum sp m n word.toNat, rfl, fun i => ?_, planeElem_records h sp m n word.toNat⟩
    rw [PlaneBlk.partialSum_succ, accAdd_eq, PlaneBlk.term_eq]
    rfl
  case nan =>
    obtain ⟨k, hk, hnan⟩ := h
    have hmem : none ∈ b.terms sp m n :=
      List.mem_map.mpr ⟨k, List.mem_range.mpr hk, by rw [lnsTerm_eq, if_pos hnan]⟩
    exact (lnsElem_nan hmem word.toNat).trans (accAdd_word _ _)
  case sum =>
    have hterms : b.terms sp m n = ((List.range b.k).map fun k => lnsProduct
        ((sget sp (b.abase + m * b.k + k)).toNat % 64) ((sget sp (b.bbase + n * b.k + k)).toNat % 64)).map some := by
      rw [List.map_map]
      exact List.map_congr_left fun k hk => by
        rw [lnsTerm_eq, if_neg fun hn => h ⟨k, List.mem_range.mp hk, hn⟩]
        rfl
    exact (lnsElem_sum hterms word.toNat).trans (accAdd_word _ _)

end Sys2Proof.Machine
end

section
/-! SUPPORT. Stage rings: what a step of RPOST, RTAKE or SETCTL leaves in the control block, and what such an op answers
where no thread waits on the ring (R227, R475, R476, R481). -/

namespace Sys2Proof.Machine

/-! ## The control block (Table 10-6) -/

/-- Bytes apart from those written read as before. -/
theorem sread_swrite_apart {m : Sparse 8} {a k n : Nat} {bs : List Byte} (h : k + n ≤ a ∨ a + bs.length ≤ k) :
    sread (swrite m a bs) k n = sread m k n :=
  sread_congr fun _ _ _ => sget_swrite_out (by omega)

/-- A number that is read where its bytes have been written. -/
theorem leNat_sread_swrite (m : Sparse 8) (a n v : Nat) : leNat (sread (swrite m a (leBytes n v)) a n) = v % 256 ^ n := by
  have h := sread_swrite (m := m) (a := a) (bs := leBytes n v)
  rw [leBytes_length] at h
  rw [h, leNat_leBytes]

/-- Some of the bytes just written. -/
theorem sread_swrite_within (m : Sparse 8) {a : Nat} {bs : List Byte} (i : Nat) {n : Nat} (h : i + n ≤ bs.length) :
    sread (swrite m a bs) (a + i) n = (bs.drop i).take n := by
  induction n generalizing i with
  | zero => simp [sread]
  | succ n ih =>
    rw [sread, sget_swrite_in (by omega), Nat.add_assoc, ih (i + 1) (by omega),
      List.drop_eq_getElem_cons (i := i) (by omega), List.take_succ_cons]

/-- The scratchpad after the writes of a ring step, in their order. -/
def ringAfter (i : Instr) (r : Nat) (u : Thread) (sp : Sparse 8) : Sparse 8 :=
  (ringWrites i r u sp).foldl (fun m w => swrite m w.1 w.2) sp

section
variable (h : Hdr) (k : BitVec 3) (x : Reg) (r : Nat) (u : Thread) (sp : Sparse 8)

theorem ringAfter_rpost : ringAfter (.rpost h k x) r u sp =
    swrite (swrite (swrite sp (ringSlot r (ringPosts sp r % 2 ^ ringLogd sp r)) (leBytes 4 (u.rd x).toNat)) (128 * r + 12)
      (leBytes 2 (Nat.xor (leNat (sread sp (128 * r + 12) 2)) (2 ^ (ringPosts sp r % 2 ^ ringLogd sp r)))))
      (128 * r + 4) (leBytes 4 (ringPosts sp r + 1)) := rfl

theorem ringAfter_rtake : ringAfter (.rtake h k x) r u sp = swrite sp (128 * r + 8) (leBytes 4 (ringTakes sp r + 1)) := rfl

theorem ringAfter_setctl : ringAfter (.setctl h k x) r u sp =
    swrite (swrite sp (128 * r) [(sget sp (128 * r) &&& 0xF8#8) ||| ((u.rd x).setWidth 8 &&& 7#8)]) (128 * r + 4)
      (leBytes 10 0) := rfl

/-- RPOST counts its post, leaves TAKE and LOGD, and puts its word into the slot (R227). -/
theorem ringAfter_rpost_reads (hl : ringLogd sp r ≤ 4) :
    let m := ringAfter (.rpost h k x) r u sp
    ringPosts m r = (ringPosts sp r + 1) % 2 ^ 32 ∧ ringTakes m r = ringTakes sp r ∧ ringLogd m r = ringLogd sp r ∧
      leNat (sread m (ringSlot r (ringPosts sp r % 2 ^ ringLogd sp r)) 4) = (u.rd x).toNat := by
  have hslot : ringPosts sp r % 2 ^ ringLogd sp r < 16 :=
    (Nat.mod_lt _ (Nat.two_pow_pos _)).trans_le (Nat.pow_le_pow_right (by decide) hl)
  rw [ringAfter_rpost]
  generalize hs : ringPosts sp r % 2 ^ ringLogd sp r = s at hslot ⊢
  refine ⟨leNat_sread_swrite .., ?_, ?_, ?_⟩
  · rw [ringTakes, sread_swrite_apart, sread_swrite_apart, sread_swrite_apart, ringTakes] <;>
      simp only [ringSlot, leBytes_length] <;> omega
  · rw [ringLogd, sread_swrite_apart, sread_swrite_apart, sread_swrite_apart, ringLogd] <;>
      simp only [ringSlot, leBytes_length] <;> omega
  · rw [sread_swrite_apart, sread_swrite_apart, leNat_sread_swrite]
    · exact Nat.mod_eq_of_lt (u.rd x).isLt
    all_goals
      simp only [ringSlot, leBytes_length]
      omega

/-- RTAKE counts its take and leaves POST (R227). -/
theorem ringAfter_rtake_reads :
    let m := ringAfter (.rtake h k x) r u sp
    ringPosts m r = ringPosts sp r ∧ ringTakes m r = (ringTakes sp r + 1) % 2 ^ 32 := by
  rw [ringAfter_rtake]
  refine ⟨?_, leNat_sread_swrite ..⟩
  rw [ringPosts, sread_swrite_apart (Or.inl (by omega)), ringPosts]

/-- The low three bits of a byte that SETCTL puts together (R481). -/
theorem low3_setctl (b : BitVec 8) (w : Word) : (b &&& 0xF8#8 ||| w.setWidth 8 &&& 7#8).toNat % 8 = w.toNat % 8 := by
  have hbits : (b &&& 0xF8#8 ||| w.setWidth 8 &&& 7#8).setWidth 3 = w.setWidth 3 := by
    ext i hi
    interval_cases i <;> simp
  simpa only [BitVec.toNat_setWidth] using congrArg BitVec.toNat hbits

/-- SETCTL empties the ring and sets its depth (R481). -/
theorem ringAfter_setctl_reads :
    let m := ringAfter (.setctl h k x) r u sp
    ringPosts m r = 0 ∧ ringTakes m r = 0 ∧ ringLogd m r = (u.rd x).toNat % 8 := by
  rw [ringAfter_setctl]
  refine ⟨?_, ?_, ?_⟩
  · rw [ringPosts, sread_swrite_within _ 0 (by decide)]
    rfl
  · rw [ringTakes, show 128 * r + 8 = 128 * r + 4 + 4 by omega, sread_swrite_within _ 4 (by decide)]
    rfl
  · have hlow : ∀ (b : Byte) (t : List Byte), leNat (b :: t) % 8 = b.toNat % 8 := fun b t => by rw [leNat]; omega
    rw [ringLogd, sread, hlow, sget_swrite_out (Or.inl (by omega))]
    exact (congrArg (fun b : Byte => b.toNat % 8) (sget_sset_same ..)).trans (low3_setctl _ _)

end

/-! ## The step -/

/-- RPOST, RTAKE or SETCTL on ring r, at none of the faults that its operand and the ring's depth can give, and without a
need for the token (R227, R314, R481). -/
def Env.AllowsRing (e : Env) (i : Instr) (r : Nat) : Prop :=
  (∃ (h : Hdr) (k : BitVec 3) (a : Reg), i = .rpost h k a ∧ k.toNat = r ∧ ringLogd e.c.sp r ≤ 4 ∧ e.needsToken = false) ∨
    (∃ (h : Hdr) (k : BitVec 3) (d : Reg), i = .rtake h k d ∧ k.toNat = r ∧ ringLogd e.c.sp r ≤ 4 ∧ e.needsToken = false) ∨
    (∃ (h : Hdr) (k : BitVec 3) (a : Reg), i = .setctl h k a ∧ k.toNat = r ∧ (e.th.rd a).toNat ≤ 4)

/-- The first write of a ring step, next in coherence order (R228). -/
theorem State.ringPut_cons (s : State) (coh : Nat) (o : Ord) (own carried : List Rel) (w : Nat × List Byte)
    (ws : List (Nat × List Byte)) : s.ringPut coh o own carried (w :: ws) =
      let x := s.logMsg (spKey coh w.1) (sread (s.spOf coh) w.1 w.2.length) w.2 o.view
        (own.map fun r => { r with view := joinView r.view o.view }) carried true false
      (x.2.setSp coh w.1 w.2).ringPut coh (o.join [x.1]) own carried ws := rfl

/-- The writes of a ring step change the scratchpad, the list of writes and the next number (R228). -/
theorem State.ringPut_state (s : State) (coh : Nat) (o : Ord) (own carried : List Rel) (ws : List (Nat × List Byte)) :
    let t := (s.ringPut coh o own carried ws).2
    t = { s.modCohort coh fun c => { c with sp := ws.foldl (fun m w => swrite m w.1 w.2) c.sp } with
      hist := t.hist, nextId := t.nextId } := by
  induction ws generalizing s o with
  | nil => simp [State.ringPut, State.modCohort, amod]
  | cons w ws ih =>
    rw [State.ringPut_cons]
    refine (ih _ _).trans ?_
    simp only [State.modCohort, State.setSp, State.logMsg, State.freshId, amod_amod]
    rfl

theorem ringRegs_changed (i : Instr) (r : Nat) (t : Thread) (sp : Sparse 8) : t.Changed (ringRegs i r t sp) := by
  unfold ringRegs
  split
  · exact (Thread.Changed.refl t).wr _ _
  · exact .refl t

/-- The rings of a cohort that stay broken after a ring op on ring r: SETCTL ends its breach (R481). -/
def brokenAfter (i : Instr) (r : Nat) (l : List Nat) : List Nat :=
  match i with
  | .setctl .. => l.filter (· != r)
  | _ => l

/-- State t is s after a step of i by the thread of e in cohort c, whose broken rings are `broken` then. -/
structure State.RingStep (s t : State) (e : Env) (i : Instr) (r : Nat) (c : Cohort) (broken : List Nat) : Prop where
  rest : t = { s with
    threads := t.threads, cohorts := t.cohorts, warps := t.warps, hist := t.hist, nextId := t.nextId }
  threads : ∃ o, t.threads = amod s.threads e.tid fun u => { ringRegs i r u c.sp with ord := o }
  cohort : aget t.cohorts e.coh = some { c with sp := ringAfter i r e.th c.sp, broken := broken }
  cohorts : ∀ k, k ≠ e.coh → aget t.cohorts k = aget s.cohorts k
  warp : ∃ l, aget t.warps e.warp = some { e.w with taken := l }
  warps : ∀ k, k ≠ e.warp → aget t.warps k = aget s.warps k

section
variable {s t : State} {e : Env} {i : Instr} {r : Nat} {c : Cohort} {broken : List Nat}

/-- The writes of the step, its registers and its order. -/
theorem State.ringPut_step (hc : aget s.cohorts e.coh = some c) (hw : aget s.warps e.warp = some e.w) (o : Ord)
    (own carried : List Rel) :
    let x := s.ringPut e.coh o own carried (ringWrites i r e.th c.sp)
    s.RingStep ((x.2.modThread e.tid fun u => ringRegs i r u c.sp).setOrd e.tid x.1) e i r c c.broken := by
  intro x
  have hx : x.2 = { s.modCohort e.coh fun c' => { c' with
      sp := (ringWrites i r e.th c.sp).foldl (fun m w => swrite m w.1 w.2) c'.sp } with
      hist := x.2.hist, nextId := x.2.nextId } := s.ringPut_state ..
  have hcoh : x.2.cohorts = amod s.cohorts e.coh fun c' => { c' with
      sp := (ringWrites i r e.th c.sp).foldl (fun m w => swrite m w.1 w.2) c'.sp } := by rw [hx]; rfl
  have hwarps : x.2.warps = s.warps := by rw [hx]; rfl
  refine ⟨?_, ⟨x.1, ?_⟩, ?_, fun k hk => ?_, ⟨e.w.taken, ?_⟩, fun k _ => ?_⟩
  · rw [State.setOrd, State.modThread_modThread, State.modThread, hx]
    rfl
  · rw [State.setOrd, State.modThread_modThread, State.modThread, hx]
    rfl
  · rw [State.setOrd, State.modThread_cohorts, State.modThread_cohorts, hcoh, aget_amod_same, hc]
    rfl
  · rw [State.setOrd, State.modThread_cohorts, State.modThread_cohorts, hcoh, aget_amod_other _ _ hk]
  · rw [State.setOrd, State.modThread_warps, State.modThread_warps, hwarps, hw]
  · rw [State.setOrd, State.modThread_warps, State.modThread_warps, hwarps]

/-- The warp of the thread learns what its RTAKE has acquired (R228). -/
theorem State.RingStep.acquired (h : s.RingStep t e i r c broken) (f : List Nat → List Nat) :
    s.RingStep (t.modWarp e.warp fun w => { w with taken := f w.taken }) e i r c broken := by
  obtain ⟨l, hl⟩ := h.warp
  refine ⟨?_, h.threads, h.cohort, h.cohorts, ⟨f l, ?_⟩, fun k hk => ?_⟩
  · rw [State.modWarp, h.rest]
  · rw [State.modWarp_warps, aget_amod_same, hl]
    rfl
  · rw [State.modWarp_warps, aget_amod_other _ _ hk, h.warps k hk]

/-- The set of broken rings changes besides (R481). -/
theorem State.RingStep.mended (h : s.RingStep t e i r c broken) (f : List Nat → List Nat) :
    s.RingStep (t.modCohort e.coh fun c => { c with broken := f c.broken }) e i r c (f broken) := by
  refine ⟨?_, h.threads, ?_, fun k hk => ?_, h.warp, h.warps⟩
  · rw [State.modCohort, h.rest]
  · rw [State.modCohort_cohorts, aget_amod_same, h.cohort]
    rfl
  · rw [State.modCohort_cohorts, aget_amod_other _ _ hk, h.cohorts k hk]

theorem ringDo_step (hi : e.AllowsRing i r) (ht : aget s.threads e.tid = some e.th) (hc : aget s.cohorts e.coh = some c)
    (hw : aget s.warps e.warp = some e.w) (hb : c.broken.contains r = false) :
    ∃ t, ringDo e i r s = .ok () t ∧ s.RingStep t e i r c (brokenAfter i r c.broken) := by
  have hbroken : isBroken e r s = .ok false s := by rw [isBroken, hc, Option.getD_some, hb]
  have hsp : getSp e s = .ok c.sp s := by rw [getSp, hc]; rfl
  have hth : getTh e s = .ok e.th s := by rw [getTh, ht]; rfl
  have hput := fun i => State.ringPut_step (i := i) (r := r) hc hw (ringOrder e i r c.sp s).1 (ringOrder e i r c.sp s).2.1
    (ringOrder e i r c.sp s).2.2
  unfold ringDo
  rw [bind_ok hbroken]
  simp only [Bool.false_eq_true, if_false]
  rw [bind_ok hsp, bind_ok hth, bind_ok (modify_ok _ s)]
  rcases hi with ⟨h, k, a, rfl, -⟩ | ⟨h, k, d, rfl, -⟩ | ⟨h, k, a, rfl, -⟩
  · exact ⟨_, rfl, hput _⟩
  · exact ⟨_, rfl, (hput _).acquired fun l => joinView l _⟩
  · exact ⟨_, rfl, (hput _).mended _⟩

/-- The same threads wait on a ring where one thread's changes leave its status. -/
theorem State.ringWaiters_of_status {f : Thread → Thread} (hf : ∀ u, (f u).status = u.status) {tid : Nat}
    (ht : t.threads = amod s.threads tid f) (coh r : Nat) : t.ringWaiters coh r = s.ringWaiters coh r := by
  unfold State.ringWaiters State.cohThreads
  rw [ht, amod, List.filter_map, List.filter_map, List.map_map, List.filter_filter, List.filter_filter]
  have hkey : ∀ w : Nat × Thread, (if w.1 = tid then (w.1, f w.2) else w).1 = w.1 := fun w => by split <;> rfl
  have hst : ∀ w : Nat × Thread, (if w.1 = tid then (w.1, f w.2) else w).2.status = w.2.status := fun w => by
    split
    · exact hf w.2
    · rfl
  simp only [Function.comp_def, hkey, hst]

theorem ringRegs_status (i : Instr) (r : Nat) (u : Thread) (sp : Sparse 8) : (ringRegs i r u sp).status = u.status := by
  rw [(ringRegs_changed i r u sp).rest]

/-- A step wakes no thread where none waits on the ring (R227). -/
theorem State.RingStep.ringWake (h : s.RingStep t e i r c broken) (hq : s.ringWaiters e.coh r = []) :
    t.ringWake e.coh r = t := by
  obtain ⟨o, ho⟩ := h.threads
  have hw := State.ringWaiters_of_status (f := fun u => { ringRegs i r u c.sp with ord := o })
    (fun u => ringRegs_status i r u c.sp) ho e.coh r
  rw [State.ringWake, hw, hq]
  rfl

theorem Thread.Changed.withOrd {t u : Thread} (h : t.Changed u) (o : Ord) :
    Thread.Changed { t with ord := o } { u with ord := o } := by
  refine ⟨?_, h.exp⟩
  rw [h.rest]

/-! ## The op -/

theorem exec_ring (hi : e.AllowsRing i r) (s : State) : exec i s = threadOp i s (ringBody i r) := by
  rcases hi with ⟨h, k, a, rfl, rfl, -⟩ | ⟨h, k, d, rfl, rfl, -⟩ | ⟨h, k, a, rfl, rfl, -⟩ <;> rfl

theorem Env.AllowsRing.isLdc (hi : e.AllowsRing i r) : Instr.isLdc i = false := by
  rcases hi with ⟨h, k, a, rfl, -⟩ | ⟨h, k, d, rfl, -⟩ | ⟨h, k, a, rfl, -⟩ <;> rfl

/-- The state in which the cohort uses ring r (R228). -/
def State.usesRing (s : State) (coh r : Nat) : State := s.modCohort coh fun c => { c with rings := insertNat r c.rings }

/-- Past its checks a ring op takes its step or waits. -/
theorem ringBody_tries (hi : e.AllowsRing i r) (hc : aget s.cohorts e.coh = some e.c) (hr : 128 * (r + 1) ≤ e.c.scratch) :
    ringBody i r e s = ringTry e i r (s.usesRing e.coh r) := by
  have hsp : getSp e s = .ok e.c.sp s := by rw [getSp, hc]; rfl
  have hchecks : ringChecks e i r s = .ok () s := by
    unfold ringChecks
    rcases hi with ⟨h, k, a, rfl, -, hl, -⟩ | ⟨h, k, d, rfl, -, hl, -⟩ | ⟨h, k, a, rfl, -, ha⟩
    · simp only [Nat.not_lt.mpr hr, Nat.not_lt.mpr hl, if_false, bind_ok hsp, pure_ok]
    · simp only [Nat.not_lt.mpr hr, Nat.not_lt.mpr hl, if_false, bind_ok hsp, pure_ok]
    · simp only [Nat.not_lt.mpr hr, Nat.not_lt.mpr ha, if_false, pure_ok]
  unfold ringBody
  rw [bind_ok hchecks, bind_ok (modify_ok _ s)]
  rcases hi with ⟨h, k, a, rfl, -, -, hn⟩ | ⟨h, k, d, rfl, -, -, hn⟩ | ⟨h, k, a, rfl, -⟩
  · rw [hn]; rfl
  · rw [hn]; rfl
  · cases e.needsToken <;> rfl

/-- On a ring that is not broken the condition of R227 and R481 decides. -/
theorem ringCan_ok (hc : aget s.cohorts e.coh = some c) (hb : c.broken.contains r = false) :
    ringCan e i r s = .ok (ringReady i c.sp r) s := by
  have hbroken : isBroken e r s = .ok false s := by rw [isBroken, hc, Option.getD_some, hb]
  have hsp : getSp e s = .ok c.sp s := by rw [getSp, hc]; rfl
  unfold ringCan
  rw [bind_ok hbroken]
  exact bind_ok hsp

theorem ringTry_ready (hi : e.AllowsRing i r) (ht : aget s.threads e.tid = some e.th) (hc : aget s.cohorts e.coh = some c)
    (hw : aget s.warps e.warp = some e.w) (hb : c.broken.contains r = false) (hq : s.ringWaiters e.coh r = [])
    (hready : ringReady i c.sp r = true) :
    ∃ t, ringTry e i r s = .ok .done t ∧ s.RingStep t e i r c (brokenAfter i r c.broken) := by
  obtain ⟨t, hdo, hstep⟩ := ringDo_step hi ht hc hw hb
  refine ⟨t, ?_, hstep⟩
  unfold ringTry
  rw [bind_ok (ringCan_ok hc hb), hready, if_pos rfl, bind_ok hdo, bind_ok (modify_ok _ t), hstep.ringWake hq, pure_ok]

theorem ringTry_waits (hc : aget s.cohorts e.coh = some c) (hb : c.broken.contains r = false)
    (hready : ringReady i c.sp r = false) : ringTry e i r s =
      .ok .stay (s.modThread e.tid fun t => { t with status := ringWait e i r, granted := false }) := by
  unfold ringTry
  rw [bind_ok (ringCan_ok hc hb), hready, if_neg Bool.false_ne_true, bind_ok (modTh_ok ..), pure_ok]

/-- The thread has passed its op in the order that the op left it. -/
theorem Thread.pass_past_ord {u : Thread} {o : Ord} (hl : Instr.isLdc i = false) (he : e.th.Clear)
    (hc : Thread.Changed e.th u) :
    let v := ({ u with ord := o } : Thread).pass e i true none
    Thread.Past e i v { u with ord := v.ord } := by
  intro v
  have hpast : Thread.Past e i v { u with ord := o } := Thread.pass_past hl he (hc.withOrd o)
  have hord : v.ord = o := by
    rw [hpast.rest, Env.closes]
    split <;> rfl
  rw [hord]
  exact hpast

end

/-! ## The statement -/

/-- Settles O32: a ring op by its condition, and what its writes leave in the control block. -/
theorem stageRings : Obligations.StageRings := by
  unfold Obligations.StageRings
  refine ⟨fun i r s e _ hi hx hr hb hq _ => ?op, fun h k x u sp => ⟨ringAfter_rpost_reads h k x k.toNat u sp, ?take,
    ringAfter_setctl_reads h k x k.toNat u sp⟩⟩
  case op =>
    replace hi : e.AllowsRing i r := hi
    obtain ⟨hth, hcoh, hw, -⟩ := State.env_some hx.env
    let c : Cohort := { e.c with rings := insertNat r e.c.rings }
    have hc : aget (s.usesRing e.coh r).cohorts e.coh = some c := by
      rw [State.usesRing, State.modCohort_cohorts, aget_amod_same, hcoh]
      rfl
    have hbody := ringBody_tries hi hcoh hr
    refine ⟨fun hready => ?step, fun hready => ?wait⟩
    case wait =>
      exact State.stands_of_stay (exec_ring hi s) hx (hbody.trans (ringTry_waits hc hb hready))
        (State.becomes_mod (s := s.usesRing e.coh r) _ hth)
    case step =>
      obtain ⟨t, htry, hstep⟩ := ringTry_ready hi (s := s.usesRing e.coh r) hth hc hw hb hq hready
      obtain ⟨o, ho⟩ := hstep.threads
      obtain ⟨l, hwarp⟩ := hstep.warp
      refine ⟨t.modThread e.tid fun u => u.pass e i true none, _, _, _,
        by rw [exec_ring hi, threadOp_next hx, hbody.trans htry, endOp_done], ?_, ?_,
        Thread.pass_past_ord (o := o) hi.isLdc hx.clear (ringRegs_changed i r e.th e.c.sp), hstep.cohort, ?_, hwarp, rfl,
        fun k hk => ?_, fun k hk => ?_, hstep.warps⟩
      · rw [State.modThread, hstep.rest, State.usesRing, State.modCohort]
      · rw [State.modThread_threads, ho, aget_amod_same, aget_amod_same, State.usesRing, State.modCohort_threads, hth]
        rfl
      · rfl
      · rw [State.modThread_threads, ho, aget_amod_other _ _ hk, aget_amod_other _ _ hk, State.usesRing,
          State.modCohort_threads]
      · rw [State.modThread_cohorts, hstep.cohorts k hk, State.usesRing, State.modCohort_cohorts, aget_amod_other _ _ hk]
  case take =>
    obtain ⟨hpost, htake⟩ := ringAfter_rtake_reads h k x k.toNat u sp
    exact ⟨hpost, htake, rfl⟩

end Sys2Proof.Machine
end

section
/-! SUPPORT. Accesses of the host (R238, R253): what recalls and the host's reads and writes of memory change. -/

namespace Sys2Proof.Machine

theorem writeDirty_clean (m : Sparse 8) (key : Nat) (bs : List Byte) (i : Nat) : writeDirty m key bs 0#128 i = m := by
  induction bs generalizing i with
  | nil => rfl
  | cons b t ih => rw [writeDirty, BitVec.getLsbD_zero, if_neg Bool.false_ne_true, ih]

/-- A write-back of lines without dirty bytes has no effect (R239). -/
theorem State.writeBack_clean (s : State) (pid : Nat) {ls : List StashLine} (h : ∀ l ∈ ls, l.dirty = 0#128) :
    s.writeBack pid ls = s := by
  induction ls with
  | nil => rfl
  | cons l t ih =>
    have hl := h l List.mem_cons_self
    have hone : s.writeBack pid [l] = s := by
      simp only [State.writeBack, List.foldl_cons, List.foldl_nil, hl, writeDirty_clean, bne_self_eq_false, Bool.false_and,
        Bool.false_eq_true, if_false, zero_ne_one]
    rw [State.writeBack_cons, hone, ih fun x hx => h x (List.mem_cons_of_mem _ hx)]

/-! ## Recalls -/

/-- The stash lines over n bytes from a key are clean. -/
def State.CleanOver (s : State) (key n : Nat) : Prop :=
  ∀ c ∈ s.cohorts, ∀ l ∈ c.2.lines, l.2.overlaps key n = true → l.2.dirty = 0#128

/-- State t is s but for stash lines, memory, lost write-backs and free values. -/
def State.Recalled (s t : State) : Prop :=
  t = { s with mem := t.mem, lost := t.lost, free := t.free, cohorts := t.cohorts }

theorem State.Recalled.refl (s : State) : s.Recalled s := rfl

theorem State.Recalled.trans {a b c : State} (h : a.Recalled b) (g : b.Recalled c) : a.Recalled c := by
  unfold State.Recalled at *
  rw [g, h]

theorem State.writeBack_recalled (s : State) (pid : Nat) (ls : List StashLine) : s.Recalled (s.writeBack pid ls) := by
  rw [State.writeBack_state]
  rfl

/-- A recall changes stash lines, and memory where they are not lost (R238, R325). -/
theorem State.recall_recalled (s : State) (key n : Nat) (write : Bool) : s.Recalled (s.recall key n write) := by
  unfold State.recall
  dsimp only
  split
  · refine State.Recalled.trans (List.foldlRecOn (motive := s.Recalled) _ _ (.refl s) fun t ht c _ => ?_) rfl
    exact ht.trans (t.writeBack_recalled ..)
  · rfl

/-- After the recall of a read the lines over its bytes are clean (R238). -/
theorem State.recall_cleanOver (s : State) (key n : Nat) : (s.recall key n false).CleanOver key n := by
  unfold State.recall
  extract_lets hit
  split
  · intro c hc l hl hover
    obtain ⟨d, -, rfl⟩ := List.mem_map.mp hc
    simp only [Bool.false_eq_true, if_false] at hl
    obtain ⟨x, -, rfl⟩ := List.mem_map.mp hl
    by_cases hx : hit x = true
    · rw [if_pos hx]; rfl
    · rw [if_neg hx] at hover; exact absurd hover hx
  · next hno =>
    intro c hc l hl hover
    exact absurd (List.any_eq_true.mpr ⟨c, hc, List.any_eq_true.mpr ⟨l, hl, hover⟩⟩) hno

/-- A recall of clean lines leaves memory as it is. -/
theorem State.recall_mem_of_clean {s : State} {key n : Nat} (h : s.CleanOver key n) (write : Bool) :
    (s.recall key n write).mem = s.mem := by
  unfold State.recall
  extract_lets hit
  split
  · refine List.foldlRecOn (motive := fun t : State => t.mem = s.mem) _ _ rfl fun t ht c hc => ?_
    rw [State.writeBack_clean]
    · exact ht
    · intro l hl
      obtain ⟨e, he, rfl⟩ := List.mem_map.mp hl
      obtain ⟨hmem, hhit⟩ := List.mem_filter.mp he
      exact h c hc e hmem hhit
  · rfl

/-- Without stash lines there is nothing to recall. -/
theorem State.recall_noStash {s : State} (h : s.noStash) (key n : Nat) (write : Bool) : s.recall key n write = s :=
  State.recall_none s key n write fun c hc l hl => by rw [h c hc] at hl; cases hl

/-! ## The host -/

/-- An access of the host to the memory of a partition (Table 16-2). -/
theorem exec_hostAccess {pid addr : Nat} {data : List Byte} {s : State} (hpid : pid < 4)
    (hfit : addr + data.length ≤ s.partBytes pid) (write : Bool) : exec (.hostRequesterAccess write pid addr data) s =
      .next (if write then s.hostWrite (pid * 2 ^ 50 + addr) data else s.hostRead (pid * 2 ^ 50 + addr) data.length) := by
  change execHostRequesterAccess write pid addr data s = _
  rw [execHostRequesterAccess, decide_eq_false (Nat.not_le.mpr hpid), decide_eq_false (Nat.not_lt.mpr hfit)]
  cases write <;> rfl

/-- No partition has the memory (log entry 11). -/
theorem exec_hostAccess_fault {pid addr : Nat} {data : List Byte} {s : State}
    (h : 4 ≤ pid ∨ s.partBytes pid < addr + data.length) (write : Bool) :
    exec (.hostRequesterAccess write pid addr data) s = .fault .noSuchMemory := by
  change execHostRequesterAccess write pid addr data s = _
  rw [execHostRequesterAccess, if_pos (by simpa using h)]

theorem State.hostRead_eq (s : State) (key n : Nat) :
    s.hostRead key n = { s.recall key n false with host := (s.hostRead key n).host } := rfl

/-- An agent's write of physical memory: listed next, and in memory once the lines over it are recalled (R238, R253). -/
theorem State.writeMem_eq (s : State) (key : Nat) (bs : List Byte) (view : List Nat) (rels : List Rel) :
    let r := s.recall key bs.length false
    let t := s.writeMem key bs view rels
    ∃ m, t = { s with
        mem := swrite r.mem key bs, cohorts := t.cohorts, hist := s.hist ++ [m], lost := t.lost, free := t.free
        nextId := s.nextId + 1 } ∧ m.ts = s.nextId ∧ m.key = key ∧ m.new = bs ∧ t.noLines key bs.length := by
  intro r t
  let u := (r.logMsg key (sread r.mem key bs.length) bs view rels [] false true).2
  have hr : s.Recalled r := s.recall_recalled ..
  have hv : u.Recalled (u.recall key bs.length true) := u.recall_recalled ..
  have hmem : (u.recall key bs.length true).mem = r.mem :=
    State.recall_mem_of_clean (s := u) (s.recall_cleanOver key bs.length) true
  have ht : t = { u.recall key bs.length true with mem := swrite (u.recall key bs.length true).mem key bs } := rfl
  refine ⟨{ ts := r.nextId, key := key, new := bs, old := sread r.mem key bs.length, view := joinView view [r.nextId]
            rels := [] ++ rels.map (Rel.ofWrite r.nextId), agent := true }, ?_, by rw [hr], rfl, rfl, ?_⟩
  · rw [ht, hmem, hv]
    simp only [u, State.logMsg, State.freshId]
    rw [hr]
  · rw [ht]
    exact u.recall_noLines key bs.length

theorem State.hostWrite_eq (s : State) (key : Nat) (data : List Byte) :
    let r := s.recall key data.length false
    let t := s.hostWrite key data
    ∃ m, t = { s with
        mem := swrite r.mem key data, cohorts := t.cohorts, hist := s.hist ++ [m], lost := t.lost, free := t.free
        host := joinView s.host [s.nextId], nextId := s.nextId + 1 } ∧
      m.ts = s.nextId ∧ m.key = key ∧ m.new = data ∧ t.noLines key data.length := by
  intro r t
  obtain ⟨m, hw, hts, hkey, hnew, hlines⟩ := s.writeMem_eq key data s.host [{ insts := hostInsts, view := s.host }]
  have hlast : (s.writeMem key data s.host [{ insts := hostInsts, view := s.host }]).hist.getLast? = some m := by
    rw [hw, List.getLast?_concat]
  have ht : t = { s.writeMem key data s.host [{ insts := hostInsts, view := s.host }] with
      host := joinView s.host [s.nextId] } := by
    simp only [t, State.hostWrite, hlast, hts]
    rw [hw]
  refine ⟨m, ?_, hts, hkey, hnew, ?_⟩
  · rw [ht, hw]
  · rw [ht]
    exact hlines

/-- Settles O24: a write of the host recalls the lines in its way and is listed last; a read cleans them; no partition's
memory ends the access. -/
theorem hostAccesses : Obligations.HostAccesses := by
  unfold Obligations.HostAccesses
  refine fun pid addr data s => ⟨fun hpid hfit => ?_, fun hno write => exec_hostAccess_fault hno write⟩
  intro key
  obtain ⟨m, ht, hts, hkey, hnew, hlines⟩ := s.hostWrite_eq key data
  have hout : ∀ a, ¬ (key ≤ a ∧ a < key + data.length) →
      sget (s.hostWrite key data).mem a = sget (s.recall key data.length false).mem a := fun a ha => by
    rw [ht]
    exact sget_swrite_out (by omega)
  refine ⟨⟨s.hostWrite key data, m, exec_hostAccess hpid hfit true, ?_, hout, fun hs a ha => ?_, hlines, by rw [ht], hts,
    hkey, hnew, by rw [ht]⟩, s.hostRead key data.length, exec_hostAccess hpid hfit false, s.hostRead_eq .., fun hs => ?_⟩
  · rw [ht]
    exact sread_swrite
  · rw [hout a ha, State.recall_noStash hs]
  · exact (s.hostRead_eq key data.length).trans (by rw [State.recall_noStash hs])

end Sys2Proof.Machine
end

section
/-! SUPPORT. How an op ends that has changed more of its thread than registers (R128, R233, R371): operations
outstanding, the order of its accesses, or its state. -/

namespace Sys2Proof.Machine

/-- An op between two clear threads settles without a change, a load among them. -/
theorem Thread.settle_fst {u : Thread} {e : Env} (hu : u.Clear) (he : e.th.Clear) (ks : List RegKey) (ldc : Bool) :
    (u.settle e ks ldc).1 = u := by
  cases ldc with
  | false => rw [Thread.settle_clear hu he]
  | true =>
    have hrest : u.restore [] = u := Thread.unkeep_clear hu
    obtain ⟨-, hlose, hwin⟩ := he
    have hdrop : ∀ os : List OutOp, os.map (OutOp.drop []) = os := fun os => by
      refine (List.map_congr_left fun o _ => ?_).trans (List.map_id os)
      unfold OutOp.drop
      split <;> simp
    have hsplit : u.out.dropLast ++ u.out.drop (u.out.length - 1) = u.out := by
      rw [List.dropLast_eq_take, List.take_append_drop]
    simp only [Thread.settle, if_true, hrest, hlose, hwin, List.filter_nil, List.map_nil, hdrop, hsplit]

/-- The thread's expansion but for its temporaries. -/
def Thread.template (t : Thread) : Option Exp := t.exp.map fun x => { x with temps := [] }

theorem Thread.template_eq {t u : Thread} (h : u.template = t.template) :
    t.exp = none ∧ u.exp = none ∨ ∃ x y, t.exp = some x ∧ u.exp = some y ∧ y.idx = x.idx ∧ y.ops = x.ops := by
  unfold Thread.template at h
  cases ht : t.exp <;> cases hu : u.exp <;> rw [ht, hu] at h
  · exact .inl ⟨rfl, rfl⟩
  · cases h
  · cases h
  · simp only [Option.map_some, Option.some.injEq, Exp.mk.injEq] at h
    obtain ⟨-, -, hops, hidx, -⟩ := h
    exact .inr ⟨_, _, rfl, rfl, hidx, hops⟩

/-- A clear thread in the expansion of its op passes it. -/
theorem Thread.pass_past_clear {e : Env} {u : Thread} (i : Instr) (he : e.th.Clear) (hu : u.Clear)
    (hx : u.template = e.th.template) : Thread.Past e i (u.pass e i true none) u := by
  unfold Thread.pass
  simp only [Bool.true_and, if_true, Thread.settle_fst hu he]
  obtain ⟨hnone, hexp⟩ | ⟨x, y, hsome, hexp, hidx, hops⟩ := Thread.template_eq hx
  · refine ⟨fun _ => ?_, fun n hn => ?_, ?_⟩
    · simp only [hexp]
    · obtain ⟨x, hsome, -⟩ := hn
      exact absurd (hnone.symm.trans hsome) nofun
    · simp only [hexp, Env.closes, Env.lastOp, hnone, Bool.false_eq_true, if_false]
  · have hne : e.th.exp ≠ none := by rw [hsome]; exact nofun
    by_cases hlast : y.idx + 1 < y.ops.length
    · have hgoes : e.lastOp = false := by
        simp only [Env.lastOp, hsome, ← hidx, ← hops, Nat.not_le.mpr hlast, decide_false]
      simp only [hexp, hlast, if_true]
      refine ⟨fun hn => absurd hn hne, fun n _ => ?_, ?_⟩
      · simp only [Thread.rd, hexp]
      · simp only [Env.closes, hgoes, Bool.false_eq_true, if_false]
    · have hends : e.lastOp = true := by
        simp only [Env.lastOp, hsome, ← hidx, ← hops, Nat.not_lt.mp hlast, decide_true]
      simp only [hexp, hlast, if_false]
      refine ⟨fun hn => absurd hn hne, fun n hn => ?_, ?_⟩
      · obtain ⟨z, hz, hlt⟩ := hn
        cases hsome.symm.trans hz
        exact absurd (hidx ▸ hops ▸ hlt) hlast
      · simp only [Env.closes, hends, if_true, Thread.endExp]
        rfl

/-- An op that is done in a state that is r but for its thread, which is u. -/
theorem State.ends_of_clear {s r r' : State} {e : Env} {i : Instr} {u : Thread} {body : Env → M Flow}
    (hx : exec i s = threadOp i s body) (h : s.Executes e i) (hb : body e s = .ok .done r') (hr : r.Becomes e.tid r' u)
    (hu : u.Clear) (ht : u.template = e.th.template) : s.Ends r e i u :=
  ⟨_, _, by rw [hx, threadOp_next h, hb, endOp_done], hr.modThread _, Thread.pass_past_clear i h.clear hu ht⟩

end Sys2Proof.Machine
end

section
/-! SUPPORT. The stash (R236 to R239, R482, R483, R493): SMAP, SFLUSH and SINV, the lines that leave it, and the end of the
operations of class CPY that write lines back. -/

namespace Sys2Proof.Machine

/-! ## Lines that are written back -/

/-- Where a line is written back, its dirty bytes stand in memory, and no other byte changes (R239). -/
theorem sget_writeDirty (m : Sparse 8) (key : Nat) (bs : List Byte) (d : BitVec 128) (i a : Nat) :
    sget (writeDirty m key bs d i) a =
      if key + i ≤ a ∧ a < key + i + bs.length ∧ d.getLsbD (a - key) = true then bs.getD (a - (key + i)) 0
      else sget m a := by
  induction bs generalizing m i with
  | nil => rw [writeDirty, if_neg (by simp only [List.length_nil]; omega)]
  | cons b t ih =>
    rw [writeDirty, ih, List.length_cons]
    by_cases ha : a = key + i
    · subst ha
      rw [if_neg (by omega), Nat.add_sub_cancel_left, Nat.sub_self, List.getD_cons_zero]
      by_cases hd : d.getLsbD i = true
      · rw [if_pos hd, if_pos ⟨by omega, by omega, hd⟩, sget_sset_same]
      · rw [if_neg hd, if_neg (by tauto)]
    · have hm : sget (if d.getLsbD i then sset m (key + i) b else m) a = sget m a := by
        split
        · exact sget_sset_other m b ha
        · rfl
      rw [hm]
      by_cases hin : key + i ≤ a ∧ a < key + i + (t.length + 1) ∧ d.getLsbD (a - key) = true
      · obtain ⟨hlo, hhi, hd⟩ := hin
        rw [if_pos ⟨by omega, by omega, hd⟩, if_pos ⟨hlo, hhi, hd⟩,
          show a - (key + i) = a - (key + (i + 1)) + 1 by omega, List.getD_cons_succ]
      · rw [if_neg hin, if_neg fun h => hin ⟨by omega, by omega, h.2.2⟩]

/-- A write-back, where no link is down, changes memory alone (R239, R325). -/
theorem State.writeBack_up {s : State} (h : s.linkDown = false) (pid : Nat) (l : StashLine) :
    s.writeBack pid [l] = { s with mem := writeDirty s.mem l.key l.bytes l.dirty 0 } := by
  simp only [State.writeBack, List.foldl_cons, List.foldl_nil, h, Bool.and_false, Bool.false_eq_true, if_false, zero_ne_one]

/-- The lines of a cohort that a test selects are written back. -/
theorem State.flushLines_eq {s : State} {coh : Nat} {c : Cohort} (hc : aget s.cohorts coh = some c) (sel : Nat → Bool)
    (drop : Bool) : s.flushLines coh sel drop =
      (s.writeBack (s.cohPid c) ((c.lines.filter fun x => sel x.1).map (·.2))).modCohort coh fun c =>
        { c with lines := if drop then c.lines.filter fun x => !sel x.1
                 else c.lines.map fun x => if sel x.1 then (x.1, x.2.clean) else x } := by
  simp only [State.flushLines, hc]

theorem State.flushLines_threads {s : State} (coh : Nat) (sel : Nat → Bool) (drop : Bool) :
    (s.flushLines coh sel drop).threads = s.threads ∧ (s.flushLines coh sel drop).nextId = s.nextId := by
  unfold State.flushLines
  split
  · exact ⟨rfl, rfl⟩
  · dsimp only
    rw [State.writeBack_state]
    exact ⟨rfl, rfl⟩

/-- The stash lines of a cohort after one of them is written back (R238, R239). -/
def linesAfter (ls : Assoc StashLine) (line : Nat) (gone : Bool) : Assoc StashLine :=
  if gone then ls.filter fun x => !(x.1 == line) else ls.map fun x => if x.1 == line then (x.1, x.2.clean) else x

theorem aget_linesAfter {ls : Assoc StashLine} {line : Nat} {l : StashLine} (h : aget ls line = some l) (gone : Bool)
    (k : Nat) : aget (linesAfter ls line gone) k =
      if k = line then (if gone then none else some l.clean) else aget ls k := by
  unfold linesAfter
  cases gone with
  | true =>
    rw [if_pos rfl, aget_filter ls fun n => !(n == line)]
    by_cases hk : k = line <;> simp [hk]
  | false =>
    rw [if_neg Bool.false_ne_true, aget_mapIf ls (fun x => (x.1 == line) = true) StashLine.clean]
    by_cases hk : k = line
    · simp [hk, h]
    · simp [hk]

/-- The one line of a cohort with a number is written back. -/
theorem State.dropLine_eq {s : State} {coh line : Nat} {c : Cohort} {l : StashLine} (hc : aget s.cohorts coh = some c)
    (hup : s.linkDown = false) (hl : c.lines.filter (fun x => x.1 == line) = [(line, l)]) (gone : Bool) :
    s.dropLine coh line gone = { s with
      mem := writeDirty s.mem l.key l.bytes l.dirty 0
      cohorts := amod s.cohorts coh fun c => { c with lines := linesAfter c.lines line gone } } := by
  rw [State.dropLine, State.flushLines_eq hc, hl]
  exact congrArg (State.modCohort · coh _) (State.writeBack_up hup _ l)

/-! ## Operations that retire -/

/-- State t is s but for the orders of its threads. -/
structure State.Reordered (s t : State) : Prop where
  rest : t = { s with threads := t.threads }
  thread : ∀ k, ∃ o, aget t.threads k = (aget s.threads k).map fun w => { w with ord := o }

theorem State.Reordered.refl (s : State) : s.Reordered s := by
  refine ⟨rfl, fun k => ?_⟩
  cases h : aget s.threads k with
  | none => exact ⟨{}, rfl⟩
  | some w => exact ⟨w.ord, rfl⟩

theorem State.Reordered.trans {a b c : State} (h : a.Reordered b) (g : b.Reordered c) : a.Reordered c := by
  refine ⟨by rw [g.rest, h.rest], fun k => ?_⟩
  obtain ⟨o, ho⟩ := h.thread k
  obtain ⟨p, hp⟩ := g.thread k
  exact ⟨p, by rw [hp, ho, Option.map_map]; rfl⟩

theorem State.Reordered.of_map (s : State) (p : Nat → Prop) [DecidablePred p] (f : Ord → Ord) :
    s.Reordered { s with
      threads := s.threads.map fun e => if p e.1 then (e.1, { e.2 with ord := f e.2.ord }) else e } := by
  refine ⟨rfl, fun k => ?_⟩
  dsimp only
  rw [aget_mapIf s.threads (fun e => p e.1) fun w : Thread => { w with ord := f w.ord }]
  cases aget s.threads k with
  | none => exact ⟨{}, rfl⟩
  | some w =>
    rw [Option.map_some]
    split
    · exact ⟨f w.ord, rfl⟩
    · exact ⟨w.ord, rfl⟩

/-- A copy that retires orders the later accesses of its cohort's threads (R251). -/
theorem State.settleCopy_reordered (s : State) (c : Copy) : s.Reordered (s.settleCopy c) := by
  unfold State.settleCopy
  dsimp only
  split
  · exact .refl s
  · exact .of_map s (cohOf · = c.coh) fun o =>
      { o with must := joinView o.must (s.spWrites c.wrote), after := joinView o.after (s.spWrites c.met) }

/-- Without outstanding writes there is nothing to order. -/
theorem State.settleCopy_quiet {s : State} (h : s.hist = []) (c : Copy) : s.settleCopy c = s := by
  have hno : ∀ ts, s.spWrites ts = [] := fun ts => by
    rw [State.spWrites, h]
    exact List.filter_eq_nil_iff.mpr fun _ _ => Bool.false_ne_true
  simp only [State.settleCopy, hno, List.isEmpty_nil, Bool.and_self, if_true]

/-- The copies of retired operations have left (R251). -/
def State.freed (s : State) (ids : List Nat) : State :=
  { s with copies := s.copies.filter fun c => !(c.2.landed && ids.contains c.1) }

theorem State.reap_reordered {s : State} {tid : Nat} {v : Thread} (h : aget s.threads tid = some v) :
    (s.freed v.retired).Reordered (s.reap tid) := by
  unfold State.reap
  rw [h]
  exact List.foldlRecOn (motive := (s.freed v.retired).Reordered) _ _ (.refl _) fun t ht c _ =>
    ht.trans (t.settleCopy_reordered c.2)

theorem State.reap_quiet {s : State} {tid : Nat} {v : Thread} (h : aget s.threads tid = some v) (hh : s.hist = []) :
    s.reap tid = s.freed v.retired := by
  unfold State.reap
  rw [h]
  exact List.foldlRecOn (motive := fun t => t = s.freed v.retired) _ _ rfl fun t ht c _ => by
    rw [ht, State.settleCopy_quiet (s := s.freed v.retired) hh]

/-! ## The statement -/

theorem exec_smap (h : Hdr) (m : BitVec 3) (a b : Reg) (s : State) : exec (.smap h m a b) s = execSmap h m a b s := rfl
theorem exec_sflush (h : Hdr) (a b : Reg) (s : State) : exec (.sflush h a b) s = execSflush h a b s := rfl
theorem exec_sinv (h : Hdr) (a b : Reg) (s : State) : exec (.sinv h a b) s = execSinv h a b s := rfl

theorem addStashOp_ok (e : Env) (r : State) : addStashOp e r =
    .ok () (State.modThread { r with nextId := r.nextId + 1 } e.tid fun t =>
      { t with out := t.out ++ [{ cls := .cpy, id := r.nextId }] }) := rfl

/-- An op that is done with an operation of class CPY more outstanding (R232). -/
theorem State.ends_of_adds {s r : State} {e : Env} {i : Instr} {id : Nat} {body : Env → M Flow}
    (hx : exec i s = threadOp i s body) (h : s.Executes e i) (hth : aget r.threads e.tid = some e.th)
    (hb : body e s = .ok .done (r.modThread e.tid fun t => { t with out := t.out ++ [{ cls := .cpy, id := id }] })) :
    s.Ends r e i { e.th with out := e.th.out ++ [{ cls := .cpy, id := id }] } :=
  let adds := fun t : Thread => { t with out := t.out ++ [{ cls := .cpy, id := id }] }
  State.ends_of_clear hx h hb (State.becomes_mod adds hth) h.clear rfl

/-- Settles O22: the slot, the lines written back and the operation of each stash instruction; one line that leaves or is
cleaned, byte by byte; and the end of a write-back's operation. -/
theorem stashOperations : Obligations.StashOperations := by
  unfold Obligations.StashOperations
  refine ⟨fun h m a b s e => ?map, fun h a b s e lo hi hrange => ⟨fun hx hroom => ?flush, fun hx => ?inv⟩,
    fun coh line s c l hc hup hl i gone hi => ?line, fun tid id s u hcopy hu hout => ?retire⟩
  case map =>
    intro va vb len slot put hx hptr hok
    obtain ⟨hth, hcoh, -⟩ := State.env_some hx.env
    replace hptr : ptrOk (e.th.rd64 a) = true := hptr
    replace hok : smapOk e.c m.toNat (e.th.rd64 a) (e.th.rd b).toNat = true := hok
    refine ⟨fun hnone => State.ends_of_clear (r' := s.modCohort e.coh put) (exec_smap h m a b s) hx ?_
      ⟨rfl, hth, fun _ _ => rfl⟩ hx.clear rfl, fun old hold hroom => ?_⟩
    · simp only [hptr, Bool.not_true, Bool.false_eq_true, if_false, bind_ok (get_ok s), hcoh, Option.getD_some, hok, hnone,
        bind_ok (modify_ok _ _), pure_ok]
      rfl
    · intro s'
      obtain ⟨hths, hid⟩ : s'.threads = s.threads ∧ s'.nextId = s.nextId := State.flushLines_threads ..
      rw [← hid]
      refine State.ends_of_adds (exec_smap h m a b s) hx (hths ▸ hth) ?_
      simp only [hptr, Bool.not_true, Bool.false_eq_true, if_false, bind_ok (get_ok s), hcoh, Option.getD_some, hok, hold,
        hroom, bind_ok (modify_ok _ _), bind_ok (addStashOp_ok ..), pure_ok]
      rfl
  case flush =>
    obtain ⟨hth, -⟩ := State.env_some hx.env
    obtain ⟨hths, hid⟩ := State.flushLines_threads (s := s) e.coh (fun l => lo ≤ l && l < hi) false
    rw [← hid]
    refine State.ends_of_adds (exec_sflush h a b s) hx (hths ▸ hth) ?_
    simp only [bind_ok hrange, hroom, Bool.not_true, Bool.false_eq_true, if_false, bind_ok (modify_ok _ _),
      bind_ok (addStashOp_ok ..), pure_ok]
  case inv =>
    obtain ⟨hth, hcoh, -⟩ := State.env_some hx.env
    refine State.ends_of_clear (exec_sinv h a b s) hx (r' := s.discardLines e.coh lo hi) ?_ ?_ hx.clear rfl
    · simp only [bind_ok hrange, bind_ok (modify_ok _ _), pure_ok]
    · rw [State.discardLines, hcoh]
      exact ⟨rfl, hth, fun _ _ => rfl⟩
  case line =>
    have hget : aget c.lines line = some l := by
      have := aget_filter c.lines (fun n => n == line) line
      rw [hl] at this
      simpa [aget] using this.symm
    refine ⟨s.dropLine coh line gone, ?_, ?_⟩
    · rcases hi with ⟨rfl, rfl⟩ | rfl <;> rfl
    · rw [State.dropLine_eq hc hup hl]
      refine ⟨rfl, fun k hk => ?_, ⟨linesAfter c.lines line gone, ?_, ?_, fun k hk => ?_⟩,
        fun a => ?_⟩
      · dsimp only
        rw [aget_amod_other _ _ hk]
      · simp only [aget_amod_same, hc, Option.map_some]
      · rw [aget_linesAfter hget, if_pos rfl]
        rfl
      · rw [aget_linesAfter hget, if_neg hk]
      · simpa using sget_writeDirty s.mem l.key l.bytes l.dirty 0 a
  case retire =>
    intro v r
    let f := fun t : Thread => if (t.out.any fun o => o.cls == .cpy && o.id == id) then t.finish id none else t
    have hv : aget (s.modThread tid f).threads tid = some v := by
      rw [State.modThread_threads, aget_amod_same, hu, Option.map_some]
      simp only [f, hout, if_true]
      rfl
    have hm := State.becomes_mod f hu
    have hreap := State.reap_reordered hv
    refine ⟨(s.modThread tid f).reap tid, ?_, fun hh => ?_, ?_, ?_, fun k hk => ?_⟩
    · change Host.Outcome.next (if (aget s.copies id).isSome then s else (s.modThread tid f).reap tid) = _
      rw [hcopy]
      rfl
    · rw [State.reap_quiet hv hh]
      exact ⟨rfl, hv, hm.others⟩
    · exact hreap.rest
    · obtain ⟨o, ho⟩ := hreap.thread tid
      exact ⟨o, ho.trans (congrArg (Option.map _) hv)⟩
    · obtain ⟨o, ho⟩ := hreap.thread k
      exact ⟨o, ho.trans (congrArg (Option.map _) (hm.others k hk))⟩

end Sys2Proof.Machine
end

section
/-! SUPPORT. Two copies under one number: the run of the first wakes a thread whose fault ends the launch, and with it the
first copy, so that the copy the number names after the run is not the one whose completion object is updated (R244,
R247). The statement asks for rising copy numbers after the run alone. -/

namespace Sys2Proof.Machine

/-- The copy descriptor of the scene: one row of 4 bytes, from 0x10000 to byte 16 of the scratchpad. -/
def twinDesc (comp : Nat) : List Byte :=
  leBytes 4 0 ++ leBytes 4 1 ++ leBytes 8 0x10000 ++ leBytes 12 0 ++ leBytes 4 4 ++ leBytes 4 16 ++ leBytes 8 0 ++
    leBytes 4 comp ++ leBytes 16 0

/-- The copy number 7, of a thread. -/
def twinCopy (tid comp : Nat) : Copy :=
  { id := 7, tid := tid, coh := cohOf tid, planes := false, desc := twinDesc comp, descOff := 0, pc := 0x10008 }

/-- The state that the refutation starts from: the first copy, with its completion object at 0x800, writes the control
block of ring 0 of cohort 2, where thread 2049 waits at a SETCTL whose operand is out of range; the second one, without
a completion object, is of cohort 6 in another launch. -/
def twinScene : State :=
  let s := State.placed State.reset 64 0x07F83D87
  { s with
    issue := []
    launches := aset s.launches 5 progLaunch
    cohorts := [(2, { progCohort 1 with rings := [0] }), (6, progCohort 5)]
    threads := aset (amod s.threads 2049 fun t => { t with
      status := .ring 0 0 (.setctl { guard := 15, ginv := false, stall := 0, yld := false } 0 (.v 1))
      regs := [(1, 5)] }) 6144 {}
    copies := [(7, twinCopy 2048 0x800), (7, twinCopy 6144 0x80000000)] }

/-- A copy without a completion object of a thread of the state, whose landing changes the scratchpad of its cohort. -/
def State.landsAnothers (s s' : State) (id : Nat) (x : Copy) : Bool :=
  decide (x.id = id) && (cdescOf x.desc).nocomp && (aget s'.threads x.tid).isSome && (aget s'.cohorts x.coh).any fun k =>
    match exec (.copyLand id) s with
    | .next t => decide ((aget t.cohorts x.coh).map (·.sp) ≠ some k.sp)
    | _ => true

/-- The accesses of the copy of that number are all made, and it lands so. -/
def State.twinLands (s : State) (id : Nat) : Bool :=
  match s.runCopy id with
  | some (c, _, none, s') => decide (c.id = id) && rising 0 s'.copies && (aget s'.copies id).any (s.landsAnothers s' id)
  | _ => false

theorem twinScene_lands : twinScene.twinLands 7 = true := by decide +kernel

/-- The statement has a copy without a completion object leave the scratchpad of its cohort as it is when it lands. -/
theorem not_landsAnothers_of_copies (h : Obligations.Copies) {id : Nat} {s s' : State} {c x : Copy} {e : Env}
    (hrun : s.runCopy id = some (c, e, none, s')) (hc : c.id = id) (hr : rising 0 s'.copies = true)
    (hx : aget s'.copies id = some x) : s.landsAnothers s' id x = false := by
  unfold Obligations.Copies at h
  obtain ⟨⟨-, hland⟩, -⟩ := h
  by_contra hl
  simp only [State.landsAnothers, Bool.not_eq_false, Bool.and_eq_true, decide_eq_true_eq, Option.any_eq_true,
    Option.isSome_iff_exists] at hl
  obtain ⟨⟨⟨hid, hno⟩, u, hu⟩, k, hk, hsp⟩ := hl
  obtain ⟨t, ht, -, -, -, -, -, -, -, y, hy, hyk⟩ := hland id s s' c x e u k hrun hc hx hid hr hu hk (.inl hno)
  simp [ht, hy, hyk, hno] at hsp

/-- Refutes O23: the copy numbers of the state before the run are not bound to differ; where two copies have one number,
the completion object of the first is updated when the other, which has none, lands. -/
theorem not_copies : ¬ Obligations.Copies := by
  intro h
  have hx := twinScene_lands
  unfold State.twinLands at hx
  split at hx
  case h_1 c e s' hrun =>
    simp only [Bool.and_eq_true, decide_eq_true_eq, Option.any_eq_true] at hx
    obtain ⟨⟨hc, hr⟩, x, hcopy, hl⟩ := hx
    rw [not_landsAnothers_of_copies h hrun hc hr hcopy] at hl
    exact absurd hl (by decide)
  case h_2 => exact absurd hx (by decide)

end Sys2Proof.Machine
end

section
/-! SUPPORT. Waiting: WAITC, the reads of an AWAIT, and BACKOFF (R234, R364 to R366, R369). -/

namespace Sys2Proof.Machine

theorem exec_waitc (h : Hdr) (cls : CtrClass) (n : BitVec 5) (s : State) : exec (.waitc h cls n) s = execWaitc h cls n s :=
  rfl

theorem exec_awaitReread (tid : Nat) (s : State) : exec (.awaitReread tid) s = execAwaitReread tid s := rfl

theorem exec_backoffExpiry (tid : Nat) (s : State) : exec (.backoffExpiry tid) s =
    .next (s.modThread tid fun t => if t.status = .backoff then { t with status := .ready } else t) := rfl

/-! ## How a thread passes its op and waits -/

theorem Thread.Changed.clear {t u : Thread} (h : t.Changed u) (ht : t.Clear) : u.Clear := by
  rw [h.rest]
  exact ht

/-- A thread that has passed its op has done so in any wait and order. -/
theorem Thread.Past.withWait {e : Env} {i : Instr} {v u : Thread} (h : Thread.Past e i v u) (st : TStatus) (d : Bool)
    (o : Ord) : Thread.Past e i { v with status := st, departing := d, ord := o }
      { u with status := st, departing := d, ord := o } := by
  refine ⟨h.pc, h.temps, ?_⟩
  rw [h.rest]
  unfold Env.closes
  split <;> rfl

/-- A clear thread passes its op into a wait. -/
theorem Thread.pass_past_into {e : Env} (i : Instr) (he : e.th.Clear) (st : TStatus) :
    Thread.Past e i { e.th.pass e i true none with status := st } { e.th with status := st } := by
  have h := (Thread.pass_past_clear i he he rfl).withWait st e.th.departing e.th.ord
  have hv : ({ e.th.pass e i true none with status := st } : Thread) =
      { e.th.pass e i true none with status := st, departing := e.th.departing, ord := e.th.ord } := by
    rw [← Thread.pass_departing e.th e i true none, ← Thread.pass_ord e.th e i true none]
  rw [hv]
  exact h

theorem passInto_ends {s : State} {e : Env} {i : Instr} {st : TStatus} {body : Env → M Flow}
    (hx : exec i s = threadOp i s body) (h : s.Executes e i) (hb : body e = passInto e i st) :
    s.Ends s e i { e.th with status := st } := by
  obtain ⟨hth, -⟩ := State.env_some h.env
  refine ⟨s.modThread e.tid fun t => { t.pass e i true none with status := st }, _, ?_, State.becomes_mod _ hth,
    Thread.pass_past_into i h.clear st⟩
  rw [hx, threadOp_next h, hb, passInto, bind_ok (modTh_ok ..), pure_ok, endOp_stay]

/-- SCOPE_CLAMP is added where the op was clamped. -/
theorem setClamp_adds (e : Env) (c : Bool) (s : State) :
    setClamp e c s = .ok () (s.modThread e.tid fun t => t.orFlags (clampFlag c)) := by
  rw [setClamp_ok]
  cases c with
  | true => rfl
  | false =>
    have hid : s.modThread e.tid (fun t => t.orFlags (clampFlag false)) = s := by simp [State.modThread, amod, clampFlag]
    rw [hid]
    rfl

/-! ## WAITC -/

theorem exec_waitc_held {h : Hdr} {cls : CtrClass} {n : BitVec 5} {s : State} {e : Env} (hx : s.Executes e (.waitc h cls n))
    (hc : s.coverOf (e.th.covered cls n.toNat) = .held) : exec (.waitc h cls n) s = .next s := by
  simp only [exec_waitc, execWaitc, guarded, hx.env, hx.checks, hx.active, if_true, hc]

theorem exec_waitc_covers {h : Hdr} {cls : CtrClass} {n : BitVec 5} {s : State} {e : Env}
    (hx : s.Executes e (.waitc h cls n)) (hc : s.coverOf (e.th.covered cls n.toNat) = .clear) :
    let wrote := (e.th.covered cls n.toNat).foldl (fun v o => joinView v o.wrote) []
    s.Ends { s with warps := amod s.warps e.warp fun w => { w with covered := joinView w.covered (s.spWrites wrote) } } e
      (.waitc h cls n) (e.th.cover cls n.toNat) := by
  refine ⟨_, _, ?_, State.becomes_set .., Thread.pass_past_clear (u := e.th.cover cls n.toNat) _ hx.clear hx.clear rfl⟩
  simp only [exec_waitc, execWaitc, guarded, hx.env, hx.checks, hx.active, if_true, hc]
  rfl

/-! ## AWAIT -/

/-- A read of bytes that stand at a key, by a thread. -/
theorem seeIfM_observes (e : Env) (acq : List Byte → Option Scope) (key : Nat) (cur : List Byte) :
    Observes (seeIfM e acq key cur) :=
  ⟨fun s t a h => by
    cases h
    exact (chooseSeen_observed ..).trans (State.setOrd_observed ..)⟩

theorem alignCheck_observes (va n : Nat) (ptr : Dword) (acc : Nat) : Observes (alignCheck va n ptr acc) := by
  unfold alignCheck
  split
  · exact observes_pure _
  · exact observes_throw _

theorem awaitRead_observes (e : Env) (w : AwaitSpec) : Observes (awaitRead e w) := by
  refine (alignCheck_observes ..).bind fun _ => ?_
  split
  · exact observes_ite_throw fun _ => observes_ite_throw fun _ => observes_get.bind fun _ =>
      (seeIfM_observes ..).bind fun _ => observes_pure _
  · exact (checkRead_observes ..).bind fun _ => (readMemM_observes ..).bind fun _ => (seeIfM_observes ..).bind fun _ =>
      observes_pure _

section
variable {s s' : State} {e : Env} {w : AwaitSpec} {v : Dword}

/-- The thread after the read, in the order that it left. -/
theorem awaitRead_thread (hth : aget s.threads e.tid = some e.th) (hr : awaitRead e w s = .ok v s') :
    aget s'.threads e.tid = some (e.ordered s').th :=
  ((awaitRead_observes e w).observed s s' v hr).executing hth

theorem awaitTry_ends (hth : aget s.threads e.tid = some e.th) (hr : awaitRead e w s = .ok v s')
    (hc : awaitCond w.w64 w.cmp v w.b = true) : ∃ r, awaitTry e w s = .ok .done r ∧
      s'.Becomes e.tid r (((e.ordered s').th.orFlags (clampFlag w.clamp)).wrW w.w64 w.d v) := by
  refine ⟨(s'.modThread e.tid fun t => t.orFlags (clampFlag w.clamp)).modThread e.tid fun t => t.wrW w.w64 w.d v, ?_,
    (State.becomes_mod _ (awaitRead_thread hth hr)).modThread _⟩
  rw [awaitTry, bind_ok hr, hc, if_pos rfl, awaitEnd, bind_ok (setClamp_adds ..), bind_ok (modTh_ok ..), pure_ok]

theorem awaitTry_waits (hth : aget s.threads e.tid = some e.th) (hr : awaitRead e w s = .ok v s')
    (hc : awaitCond w.w64 w.cmp v w.b = false) : ∃ r, awaitTry e w s = .ok .stay r ∧
      s'.Becomes e.tid r { (e.ordered s').th with status := .awaiting w } :=
  ⟨_, by rw [awaitTry, bind_ok hr, hc, if_neg Bool.false_ne_true, bind_ok (modTh_ok ..), pure_ok],
    State.becomes_mod _ (awaitRead_thread hth hr)⟩

end

/-- One read of an AWAIT that executes: it ends where the condition holds, and waits where it does not. -/
theorem exec_await_reads {h : Hdr} {loc w64 : Bool} {cmp : AwaitCmp} {scope : Scope} {d a b : Reg} {s s' : State} {e : Env}
    {v : Dword} :
    let i : Instr := .await h loc w64 cmp scope d a b
    let spec : AwaitSpec :=
      { loc := loc, w64 := w64, cmp := cmp, a := e.th.rdW (!loc) a, b := e.th.rdW w64 b, d := d, op := i, pers := e.pers,
        scope := e.reach scope, clamp := e.clamps scope }
    s.Executes e i → e.needsToken = false → (e.clamps scope && e.ctx.con.scopeTrap) = false →
    awaitRead e spec s = .ok v s' →
    (awaitCond w64 cmp v spec.b = true →
      s.Ends s' e i (((e.ordered s').th.orFlags (clampFlag spec.clamp)).wrW w64 d v)) ∧
    (awaitCond w64 cmp v spec.b = false → s.Stands s' e i { (e.ordered s').th with status := .awaiting spec }) := by
  intro i spec hx hn hs hr
  obtain ⟨hth, -⟩ := State.env_some hx.env
  obtain ⟨body, hop, hbody⟩ : ∃ body, exec i s = threadOp i s body ∧ body e s = awaitTry e spec s := by
    refine ⟨_, rfl, ?_⟩
    rw [bind_ok (by rw [clampScope_eq, hs]; rfl), hn]
    rfl
  refine ⟨fun hc => ?_, fun hc => ?_⟩
  · obtain ⟨r, htry, hbec⟩ := awaitTry_ends hth hr hc
    have hch : Thread.Changed (e.ordered s').th _ := ((Thread.Changed.refl _).orFlags (clampFlag spec.clamp)).wrW w64 d v
    exact State.ends_of_clear hop hx (hbody.trans htry) hbec (hch.clear hx.clear) hch.exp
  · obtain ⟨r, htry, hbec⟩ := awaitTry_waits hth hr hc
    exact State.stands_of_stay hop hx (hbody.trans htry) hbec

section
variable {tid : Nat} {s : State} {e : Env} {w : AwaitSpec}

/-- AWAIT_REREAD of a resident cohort is one more read of its AWAIT (R365). -/
theorem exec_awaitReread_resident (he : s.envOf tid w.pers = some e) (hst : e.th.status = .awaiting w)
    (hc : e.c.core.isSome = true) :
    let q : Env := { e with th := { e.th with status := .ready } }
    let r := s.modThread tid fun t => { t with status := .ready }
    exec (.awaitReread tid) s = .next (endOp w.op r q (awaitTry q w r)) := by
  obtain ⟨-, hth, -⟩ := State.envOf_some he
  have hcore : e.c.core.isNone = false := by rw [← Option.not_isSome, hc]; rfl
  simp only [exec_awaitReread, execAwaitReread, hth, hst, he, hcore, Bool.false_eq_true, if_false, event]

theorem exec_awaitReread_saved (he : s.envOf tid w.pers = some e) (hst : e.th.status = .awaiting w)
    (hc : e.c.core = none) : exec (.awaitReread tid) s = .next (s.rereadSaved e w) := by
  obtain ⟨-, hth, -⟩ := State.envOf_some he
  simp only [exec_awaitReread, execAwaitReread, hth, hst, he, hc, Option.isNone_none, if_true, event]

/-- A further read of an AWAIT. -/
theorem exec_awaitReread_reads {s' : State} {v : Dword} (he : s.envOf tid w.pers = some e)
    (hst : e.th.status = .awaiting w) (hc : e.c.core.isSome = true) (hcl : e.th.Clear) :
    let u : Thread := { e.th with status := .ready }
    let q := { e with th := u }
    awaitRead q w (s.modThread tid fun t => { t with status := .ready }) = .ok v s' →
    let r := (q.ordered s').th
    ∃ t x, exec (.awaitReread tid) s = .next t ∧ s'.Becomes tid t x ∧
      (awaitCond w.w64 w.cmp v w.b = true → Thread.Past q w.op x ((r.orFlags (clampFlag w.clamp)).wrW w.w64 w.d v)) ∧
      (awaitCond w.w64 w.cmp v w.b = false → x = { r with status := .awaiting w }) := by
  intro u q hr r
  obtain ⟨rfl, hth, -⟩ := State.envOf_some he
  have hq : aget (s.modThread e.tid fun t => { t with status := .ready }).threads e.tid = some u :=
    (State.becomes_mod _ hth).thread
  have hx := exec_awaitReread_resident he hst hc
  cases hcond : awaitCond w.w64 w.cmp v w.b with
  | true =>
    obtain ⟨t, htry, hbec⟩ := awaitTry_ends (e := q) hq hr hcond
    have hch : Thread.Changed r _ := ((Thread.Changed.refl r).orFlags (clampFlag w.clamp)).wrW w.w64 w.d v
    refine ⟨_, _, hx, ?_, fun _ => Thread.pass_past_clear (e := q) w.op hcl (hch.clear hcl) hch.exp, nofun⟩
    rw [htry, endOp_done]
    exact hbec.modThread _
  | false =>
    obtain ⟨t, htry, hbec⟩ := awaitTry_waits (e := q) hq hr hcond
    exact ⟨t, _, by rw [hx, htry, endOp_stay], hbec, nofun, fun _ => rfl⟩

/-- A thread of a saved cohort leaves its wait. -/
theorem State.leaves_wait {r : State} (he : s.envOf tid w.pers = some e) (hr : r.threads = s.threads) :
    r.Becomes tid (r.modThread e.tid fun t => { t.unkeep with status := .ready })
      { e.th.unkeep with status := .ready } := by
  obtain ⟨rfl, hth, -⟩ := State.envOf_some he
  exact State.becomes_mod (s := r) (fun t => { t.unkeep with status := .ready }) (by rw [hr]; exact hth)

/-- A read for a thread of a saved cohort (Table 2-8). -/
theorem exec_awaitReread_leaves (he : s.envOf tid w.pers = some e) (hst : e.th.status = .awaiting w)
    (hc : e.c.core = none) :
    let leaves := fun (s' : State) => ∃ t, exec (.awaitReread tid) s = .next t ∧
      (s.keepDraws s').Becomes tid t { e.th.unkeep with status := .ready }
    (∀ v s', awaitRead e w s = .ok v s' →
      (awaitCond w.w64 w.cmp v w.b = true → leaves s') ∧
      (awaitCond w.w64 w.cmp v w.b = false → exec (.awaitReread tid) s = .next (s.keepDraws s'))) ∧
    ∀ f s', awaitRead e w s = .error f s' → leaves s' := by
  intro leaves
  have hx := exec_awaitReread_saved he hst hc
  have hleave : ∀ r, (s.keepDraws r).Becomes tid _ _ := fun r => State.leaves_wait he (r := s.keepDraws r) rfl
  refine ⟨fun v s' hr => ⟨fun hcond => ⟨_, hx.trans ?_, hleave s'⟩, fun hcond => hx.trans ?_⟩,
    fun f s' hr => ⟨_, hx.trans ?_, hleave s'⟩⟩
  · simp only [State.rereadSaved, hr, hcond, if_true]
  · simp only [State.rereadSaved, hr, hcond, Bool.false_eq_true, if_false]
  · simp only [State.rereadSaved, hr, if_true]

end

/-! ## BACKOFF -/

theorem exec_backoffImm_delays {h : Hdr} {n : BitVec 12} {s : State} {e : Env} (hx : s.Executes e (.backoffImm h n)) :
    s.Ends s e (.backoffImm h n) { e.th with status := .backoff } :=
  passInto_ends (body := fun e => passInto e (.backoffImm h n) .backoff) rfl hx rfl

theorem exec_backoffReg_delays {h : Hdr} {a : Reg} {s : State} {e : Env} (hx : s.Executes e (.backoffReg h a)) :
    s.Ends s e (.backoffReg h a)
      (if (e.th.rd a).setWidth 16 = 0#16 then e.th else { e.th with status := .backoff }) := by
  let body : Env → M Flow := fun e =>
    if (e.th.rd a).toNat % 65536 = 0 then pure .done else passInto e (.backoffReg h a) .backoff
  have hop : exec (.backoffReg h a) s = threadOp (.backoffReg h a) s body := rfl
  obtain ⟨hth, -⟩ := State.env_some hx.env
  have hzero : (e.th.rd a).setWidth 16 = 0#16 ↔ (e.th.rd a).toNat % 65536 = 0 := by
    rw [← BitVec.toNat_inj, BitVec.toNat_setWidth]
    rfl
  by_cases h0 : (e.th.rd a).toNat % 65536 = 0
  · rw [if_pos (hzero.mpr h0)]
    exact State.ends_of_clear hop hx (by simp only [body, h0, if_true, pure_ok]) ⟨rfl, hth, fun _ _ => rfl⟩ hx.clear rfl
  · rw [if_neg (mt hzero.mp h0)]
    exact passInto_ends hop hx (if_neg h0)

end Sys2Proof.Machine
end

section
/-! SUPPORT. Arrivals at barriers (R37, R265, R371 to R375): what the arriving thread becomes, and the phase that it joins
or completes. -/

namespace Sys2Proof.Machine

/-! ## Tables -/

theorem aset_aset {α : Type} (m : Assoc α) (k : Nat) (v w : α) : aset (aset m k v) k w = aset m k w := by
  induction m with
  | nil => simp [aset]
  | cons e m ih =>
    obtain ⟨j, u⟩ := e
    by_cases hlt : k < j
    · simp [aset, hlt]
    · by_cases heq : k = j
      · simp [aset, heq]
      · simp [aset, hlt, heq, ih]

/-- A test that a changed thread passes in any case comes to the same over the threads of a cohort. -/
theorem State.cohThreads_all_modThread (s : State) {tid : Nat} (f : Thread → Thread) (coh : Nat) {p : Nat × Thread → Bool}
    (hp : ∀ u, p (tid, u) = true) : ((s.modThread tid f).cohThreads coh).all p = (s.cohThreads coh).all p := by
  simp only [State.cohThreads, State.modThread_threads, List.all_filter, amod, List.all_map]
  congr 1
  funext x
  obtain ⟨j, u⟩ := x
  simp only [Function.comp_apply]
  by_cases hj : j = tid
  · subst hj
    simp only [if_true, hp]
  · simp only [if_neg hj]

theorem State.barMet_modThread (s : State) (tid coh : Nat) (f : Thread → Thread) (mask : Word) {arrived : List Nat}
    (h : tid ∈ arrived) : (s.modThread tid f).barMet coh mask arrived = s.barMet coh mask arrived :=
  s.cohThreads_all_modThread f coh fun u => by simp [h]

theorem State.groupMet_modThread (s : State) (tid lid g : Nat) (f : Thread → Thread) (l : Launch) {arrived : List Nat}
    (h : tid ∈ arrived) : (s.modThread tid f).groupMet lid g l arrived = s.groupMet lid g l arrived := by
  have hcoh : ∀ c, (s.modThread tid f).cohArrived c arrived = s.cohArrived c arrived := fun c =>
    s.cohThreads_all_modThread f c fun u => by simp [h]
  simp only [State.groupMet, hcoh]
  rfl

/-! ## The arriving thread -/

/-- The executing thread once it has arrived in a phase with its release, before the phase completes (R373). -/
def Env.arrives (e : Env) (i : Instr) (arv cl : Bool) (wait : TStatus) (need : TokenNeed) : Thread :=
  { (e.th.orFlags (clampFlag cl)).pass e i true none with
    status := if arv then e.th.status else if e.det then .token need else wait
    departing := e.th.departing || (!arv && e.det), ord := e.th.ord.release }

theorem Env.arrives_past {e : Env} (he : e.th.Clear) (i : Instr) (arv cl : Bool) (wait : TStatus) (need : TokenNeed)
    (st : TStatus) (o : Ord) : Thread.Past e i { e.arrives i arv cl wait need with status := st, ord := o }
      { e.th.orFlags (clampFlag cl) with status := st, departing := e.th.departing || (!arv && e.det), ord := o } :=
  (Thread.pass_past_clear (u := e.th.orFlags (clampFlag cl)) i he he rfl).withWait st _ o

/-- The thread passes, waits and releases; its release is what the phase keeps of it. -/
theorem arrives_ok {s : State} {e : Env} (hth : aget s.threads e.tid = some e.th) (i : Instr) (arv cl : Bool)
    (wait : TStatus) (need : TokenNeed) (sc : Scope) (k : Rel → M Flow) : ∃ f, f e.th = e.arrives i arv cl wait need ∧
      (do setClamp e cl
          departM e i arv wait need
          let rel ← releaseM e sc
          k rel) s = k { insts := e.insts sc, view := e.th.ord.release.view } (s.modThread e.tid f) := by
  let g : Thread → Thread := fun t =>
    let t := (t.orFlags (clampFlag cl)).pass e i true none
    if arv then t
    else if e.det then { t with status := .token need, departing := true }
    else { t with status := wait }
  have hord : (g e.th).ord = e.th.ord := by
    simp only [g]
    split_ifs <;> exact Thread.pass_ord ..
  refine ⟨fun t => { g t with ord := e.th.ord.release }, ?_, ?_⟩
  · simp only [g, Env.arrives]
    cases arv <;> cases e.det <;> simp [Thread.pass_status, Thread.pass_departing]
  · have hget : (s.modThread e.tid g).ordOf e.tid = e.th.ord := by
      rw [State.ordOf, (State.becomes_mod g hth).thread, Option.map_some, Option.getD_some, hord]
    rw [bind_ok (setClamp_adds ..), departM, bind_ok (modTh_ok ..), State.modThread_modThread]
    have hrel : releaseM e sc (s.modThread e.tid g) = .ok { insts := e.insts sc, view := e.th.ord.release.view }
        (s.modThread e.tid fun t => { g t with ord := e.th.ord.release }) := by
      rw [releaseM, State.carry, hget, State.setOrd, State.modThread_modThread]
    exact bind_ok hrel

/-! ## Departures with the end of the phase -/

/-- A thread once the phase that it may wait in has completed, where the thread is among those that go on. -/
def Thread.phaseEnd (y : Thread) (rels : Assoc Rel) (wait : TStatus) (need : TokenNeed) (k : Nat) (here : Prop)
    [Decidable here] : Thread :=
  { y with
    status := if here ∧ y.status = wait then .ready else y.status
    ord := y.phaseOrd rels [wait, .token need] k }

section
variable {wait : TStatus} {need : TokenNeed} {here : Prop} [Decidable here] {rels : Assoc Rel} {own : Rel}

/-- A thread other than the last one departs as its own arrival names it. -/
theorem Thread.phaseEnd_aset_other (y : Thread) {j k : Nat} (hk : k ≠ j) :
    y.phaseEnd (aset rels j own) wait need k here =
      { y with
        status := if here ∧ y.status = wait then .ready else y.status
        ord := match aget rels k with
          | some r => if y.status = wait ∨ y.status = .token need then
              y.ord.acquire r.insts ((aset rels j own).map (·.2)) else y.ord
          | none => y.ord } := by
  rw [Thread.phaseEnd, Thread.phaseOrd, aget_aset_other _ _ hk]
  cases aget rels k <;> simp

/-- The last thread of a phase departs at once, unless its departure takes the token (R373). -/
theorem Env.arrives_phaseEnd {e : Env} (i : Instr) (arv cl : Bool) (hst : e.th.status = .ready) (hready : wait ≠ .ready)
    (htoken : wait ≠ .token need) (hhere : here) (hown : aget rels e.tid = some own) :
    (e.arrives i arv cl wait need).phaseEnd rels wait need e.tid here =
      { e.arrives i arv cl wait need with
        status := if arv then .ready else if e.det then .token need else .ready
        ord := if !arv then e.th.ord.release.acquire own.insts (rels.map (·.2)) else e.th.ord.release } := by
  have hstatus : (e.arrives i arv cl wait need).status = if arv then .ready else if e.det then .token need else wait := by
    rw [← hst]
    rfl
  have hord : (e.arrives i arv cl wait need).ord = e.th.ord.release := rfl
  rw [Thread.phaseEnd, Thread.phaseOrd, hown, hstatus, hord]
  cases arv <;> cases e.det <;> simp [hhere, hready.symm, htoken.symm]

/-- The arriving thread has passed its op, whether it completes the phase or not. -/
theorem Env.arrives_past_phase {e : Env} (he : e.th.Clear) (i : Instr) (arv cl met : Bool) (hst : e.th.status = .ready)
    (hready : wait ≠ .ready) (htoken : wait ≠ .token need) (hhere : here) (hown : aget rels e.tid = some own) :
    Thread.Past e i
      (if met then (e.arrives i arv cl wait need).phaseEnd rels wait need e.tid here else e.arrives i arv cl wait need)
      { e.th.orFlags (clampFlag cl) with
        status := if arv then .ready else if e.det then .token need else if met then .ready else wait
        departing := e.th.departing || (!arv && e.det)
        ord := if met && !arv then e.th.ord.release.acquire own.insts (rels.map (·.2)) else e.th.ord.release } := by
  cases met with
  | true =>
    rw [if_pos rfl, Env.arrives_phaseEnd i arv cl hst hready htoken hhere hown]
    exact Env.arrives_past he i arv cl wait need _ _
  | false =>
    rw [← hst]
    exact Env.arrives_past he i arv cl wait need _ _

end

/-! ## Named barriers -/

section
variable {s : State} {e : Env} {coh : Nat} {c : Cohort}

/-- A thread that arrives at a named barrier (R371). -/
theorem exec_bar_arrives {h : Hdr} {scope : Scope} {arv : Bool} {b : BitVec 8} {m : Reg} :
    let i : Instr := .bar h scope arv b m
    let n := b.toNat
    let x := e.c.bar n
    s.Executes e i → n < e.c.nbar → x.arrived.contains e.tid = false → e.needsToken = false →
    barRefused e (barMask e m) x = false → (e.clamps scope && e.ctx.con.scopeTrap) = false →
    ∃ f, f e.th = e.arrives i arv (e.clamps scope) (.named n x.phase) (.named n x.phase) ∧
      exec i s = .next (State.barCheck e.coh ((s.modThread e.tid f).barArrive e.coh e.tid n (barMask e m)
        { insts := e.insts (e.reach scope), view := e.th.ord.release.view }) n) := by
  intro i n x hx hn ha ht hm hs
  obtain ⟨hth, -⟩ := State.env_some hx.env
  obtain ⟨f, hf, hrun⟩ := arrives_ok hth i arv (e.clamps scope) (.named n x.phase) (.named n x.phase) (e.reach scope)
    fun rel => do
      modify fun s => State.barCheck e.coh (s.barArrive e.coh e.tid n (barMask e m) rel) n
      pure .stay
  obtain ⟨body, hop, hbody⟩ : ∃ body, exec i s = threadOp i s body ∧ body e s = .ok .stay (State.barCheck e.coh
      ((s.modThread e.tid f).barArrive e.coh e.tid n (barMask e m)
        { insts := e.insts (e.reach scope), view := e.th.ord.release.view }) n) := by
    refine ⟨_, rfl, ?_⟩
    have hfits : ¬ e.c.nbar ≤ b.toNat := Nat.not_le.mpr hn
    have hnew : (e.c.bar b.toNat).arrived.contains e.tid = false := ha
    have hmask : barRefused e (barMask e m) (e.c.bar b.toNat) = false := hm
    rw [bind_ok (by rw [clampScope_eq, hs]; rfl)]
    simp only [hfits, hnew, ht, hmask, if_false, Bool.false_eq_true]
    exact hrun
  exact ⟨f, hf, by rw [hop, threadOp_next hx, hbody, endOp_stay]⟩

/-- The arrival joins the open phase, and completes it where it is the last that the phase waits for. -/
theorem State.barCheck_barArrive (hc : aget s.cohorts coh = some c) (tid n : Nat) (mask : Word) (rel : Rel) :
    let x := c.bar n
    let x2 : NBar := { x with mask := some mask, arrived := tid :: x.arrived, rels := aset x.rels tid rel }
    let r := s.barArrive coh tid n mask rel
    State.barCheck coh r n = if s.barMet coh mask (tid :: x.arrived) then r.barDone coh n x2 else r := by
  intro x x2 r
  have hr : aget r.cohorts coh = some { c with bars := aset c.bars n x2 } := by
    simp only [r, State.barArrive, State.modCohort_cohorts, aget_amod_same, hc, Option.map_some]
    rfl
  have hx : ({ c with bars := aset c.bars n x2 } : Cohort).bar n = x2 := by
    rw [Cohort.bar, aget_aset_same, Option.getD_some]
  exact State.barCheck_eq hr hx rfl

/-- What a named arrival comes to. -/
theorem State.barArrive_joins (hc : aget s.cohorts coh = some c) (tid n : Nat) (mask : Word) (rel : Rel) :
    let x := c.bar n
    let met := s.barMet coh mask (tid :: x.arrived)
    let x1 : NBar := { phase := x.phase + 1 }
    let x2 : NBar := { x with mask := some mask, arrived := tid :: x.arrived, rels := aset x.rels tid rel }
    let t := State.barCheck coh (s.barArrive coh tid n mask rel) n
    t = { s with threads := t.threads, cohorts := t.cohorts } ∧
      aget t.cohorts coh = some { c with bars := aset c.bars n (if met then x1 else x2) } ∧
      (∀ k, k ≠ coh → aget t.cohorts k = aget s.cohorts k) ∧
      ∀ k, aget t.threads k = (aget s.threads k).map fun y =>
        if met then y.phaseEnd x2.rels (.named n x.phase) (.named n x.phase) k (cohOf k = coh) else y := by
  intro x met x1 x2 t
  have hcheck : t = if met then (s.barArrive coh tid n mask rel).barDone coh n x2 else s.barArrive coh tid n mask rel :=
    State.barCheck_barArrive hc tid n mask rel
  cases hmet : met with
  | true =>
    rw [hcheck, hmet, if_pos rfl]
    refine ⟨rfl, ?_, fun k hk => ?_, fun k => State.aget_barDone ..⟩
    · simp only [State.barDone_cohorts, State.barArrive, State.modCohort_cohorts, aget_amod_same, hc, Option.map_some,
        aset_aset, if_true]
      rfl
    · rw [State.barDone_cohorts, aget_amod_other _ _ hk, State.barArrive, State.modCohort_cohorts, aget_amod_other _ _ hk]
  | false =>
    rw [hcheck, hmet, if_neg Bool.false_ne_true]
    refine ⟨rfl, ?_, fun k hk => ?_, fun k => ?_⟩
    · simp only [State.barArrive, State.modCohort_cohorts, aget_amod_same, hc, Option.map_some, Bool.false_eq_true,
        if_false]
      rfl
    · rw [State.barArrive, State.modCohort_cohorts, aget_amod_other _ _ hk]
    · simp only [State.barArrive, State.modCohort_threads, Bool.false_eq_true, if_false, Option.map_id']

end

/-! ## Group barriers -/

section
variable {s : State} {e : Env} {lid n : Nat} {l : Launch}

/-- A thread that arrives at a group barrier (R374). -/
theorem exec_barGrp_arrives {h : Hdr} {scope : Scope} {arv : Bool} {g : BitVec 8} :
    let i : Instr := .barGrp h scope arv g
    let n := g.toNat
    let x := e.l.gbar n
    s.Executes e i → e.member n = true → x.arrived.contains e.tid = false → e.needsToken = false →
    (e.clamps scope && e.ctx.con.scopeTrap) = false →
    ∃ f, f e.th = e.arrives i arv (e.clamps scope) (.grp n x.phase) (.grp n x.phase) ∧
      exec i s = .next (State.grpCheck e.c.launch ((s.modThread e.tid f).grpArrive e.c.launch e.tid n
        { insts := e.insts (e.reach scope), view := e.th.ord.release.view }) n) := by
  intro i n x hx hm ha ht hs
  obtain ⟨hth, -⟩ := State.env_some hx.env
  obtain ⟨f, hf, hrun⟩ := arrives_ok hth i arv (e.clamps scope) (.grp n x.phase) (.grp n x.phase) (e.reach scope)
    fun rel => do
      modify fun s => State.grpCheck e.c.launch (s.grpArrive e.c.launch e.tid n rel) n
      pure .stay
  obtain ⟨body, hop, hbody⟩ : ∃ body, exec i s = threadOp i s body ∧ body e s = .ok .stay (State.grpCheck e.c.launch
      ((s.modThread e.tid f).grpArrive e.c.launch e.tid n
        { insts := e.insts (e.reach scope), view := e.th.ord.release.view }) n) := by
    refine ⟨_, rfl, ?_⟩
    have hmember : e.member g.toNat = true := hm
    have hnew : (e.l.gbar g.toNat).arrived.contains e.tid = false := ha
    rw [bind_ok (by rw [clampScope_eq, hs]; rfl)]
    simp only [hmember, hnew, ht, Bool.not_true, if_false, Bool.false_eq_true]
    exact hrun
  exact ⟨f, hf, by rw [hop, threadOp_next hx, hbody, endOp_stay]⟩

/-- The arrival joins the open phase, and completes it where it is the last that the phase waits for. -/
theorem State.grpCheck_grpArrive (hl : aget s.launches lid = some l) (hg : (aget l.groups n).isSome = true) (tid : Nat)
    (rel : Rel) :
    let x := l.gbar n
    let x2 : GBar := { x with arrived := tid :: x.arrived, rels := aset x.rels tid rel }
    let r := s.grpArrive lid tid n rel
    State.grpCheck lid r n =
      if l.status.isNone && s.groupMet lid n l (tid :: x.arrived) then r.grpDone lid n x2 else r := by
  intro x x2 r
  have hr : aget r.launches lid = some { l with gbars := aset l.gbars n x2 } := by
    simp only [r, State.grpArrive, State.modLaunch_launches, aget_amod_same, hl, Option.map_some]
    rfl
  have hx : ({ l with gbars := aset l.gbars n x2 } : Launch).gbar n = x2 := by
    rw [Launch.gbar, aget_aset_same, Option.getD_some]
  simp only [State.grpCheck, hr, hx, hg, x2, List.isEmpty_cons, Bool.not_false, Bool.and_true]
  rfl

/-- What an arrival at a group barrier comes to. -/
theorem State.grpArrive_joins (hl : aget s.launches lid = some l) (hg : (aget l.groups n).isSome = true) (tid : Nat)
    (rel : Rel) :
    let x := l.gbar n
    let met := l.status.isNone && s.groupMet lid n l (tid :: x.arrived)
    let x1 : GBar := { phase := x.phase + 1 }
    let x2 : GBar := { x with arrived := tid :: x.arrived, rels := aset x.rels tid rel }
    let t := State.grpCheck lid (s.grpArrive lid tid n rel) n
    t = { s with threads := t.threads, launches := t.launches } ∧
      aget t.launches lid = some { l with gbars := aset l.gbars n (if met then x1 else x2) } ∧
      (∀ k, k ≠ lid → aget t.launches k = aget s.launches k) ∧
      ∀ k, aget t.threads k = (aget s.threads k).map fun y =>
        if met then y.phaseEnd x2.rels (.grp n x.phase) (.grp n x.phase) k
          (((s.launchCohorts lid).map (·.1)).contains (cohOf k) = true)
        else y := by
  intro x met x1 x2 t
  have hcheck : t = if met then (s.grpArrive lid tid n rel).grpDone lid n x2 else s.grpArrive lid tid n rel :=
    State.grpCheck_grpArrive hl hg tid rel
  cases hmet : met with
  | true =>
    rw [hcheck, hmet, if_pos rfl]
    refine ⟨rfl, ?_, fun k hk => ?_, fun k => State.aget_grpDone ..⟩
    · simp only [State.grpDone_launches, State.grpArrive, State.modLaunch_launches, aget_amod_same, hl, Option.map_some,
        aset_aset, if_true]
      rfl
    · rw [State.grpDone_launches, aget_amod_other _ _ hk, State.grpArrive, State.modLaunch_launches, aget_amod_other _ _ hk]
  | false =>
    rw [hcheck, hmet, if_neg Bool.false_ne_true]
    refine ⟨rfl, ?_, fun k hk => ?_, fun k => ?_⟩
    · simp only [State.grpArrive, State.modLaunch_launches, aget_amod_same, hl, Option.map_some, Bool.false_eq_true,
        if_false]
      rfl
    · rw [State.grpArrive, State.modLaunch_launches, aget_amod_other _ _ hk]
    · simp only [State.grpArrive, State.modLaunch_threads, Bool.false_eq_true, if_false, Option.map_id']

/-- The cohort of the executing thread is of the launch of its barrier. -/
theorem Env.mem_launchCohorts (hx : s.env = some e) :
    ((s.launchCohorts e.c.launch).map (·.1)).contains (cohOf e.tid) = true := by
  obtain ⟨-, hcoh, -, -, -, htid, -⟩ := State.env_some hx
  have hin : (e.coh, e.c) ∈ s.launchCohorts e.c.launch :=
    List.mem_filter.mpr ⟨mem_of_aget hcoh, beq_self_eq_true e.c.launch⟩
  rw [List.contains_iff_mem, ← htid]
  exact List.mem_map_of_mem (f := (·.1)) hin

end

/-! ## The statement -/

/-- Settles O31: what a wait comes to by what it covers or reads, and a barrier's arrival by the phase that it joins. -/
theorem waitsAndBarriers : Obligations.WaitsAndBarriers := by
  unfold Obligations.WaitsAndBarriers
  refine ⟨⟨fun _ _ _ _ _ hx => ⟨exec_waitc_covers hx, exec_waitc_held hx⟩,
    fun _ _ _ _ _ _ _ _ _ _ _ _ => exec_await_reads, fun _ _ _ _ _ _ => exec_awaitReread_reads,
    fun _ _ _ _ => exec_awaitReread_leaves, fun _ _ _ _ => exec_backoffImm_delays,
    fun _ _ _ _ => exec_backoffReg_delays, fun tid s u hu hst => ?expiry⟩,
    fun h scope arv b m s e => ?named, fun h scope arv g s e => ?group⟩
  case expiry =>
    have hm := State.becomes_mod (fun t : Thread => if t.status = .backoff then { t with status := .ready } else t) hu
    rw [if_pos hst] at hm
    exact ⟨_, exec_backoffExpiry tid s, hm⟩
  case named =>
    intro i n x wait met o own rels x1 x2 hx hn ha ht hst hm hs
    obtain ⟨hth, hcoh, -, -, -, htid, -⟩ := State.env_some hx.env
    obtain ⟨f, hf, hrun⟩ := exec_bar_arrives hx hn ha ht hm hs
    obtain ⟨hrest, hbar, hcohorts, hthreads⟩ :=
      State.barArrive_joins (s := s.modThread e.tid f) hcoh e.tid n (barMask e m) own
    have hmet : (s.modThread e.tid f).barMet e.coh (barMask e m) (e.tid :: (e.c.bar n).arrived) = met :=
      State.barMet_modThread s e.tid e.coh f (barMask e m) (List.mem_cons_self ..)
    rw [hmet] at hbar hthreads
    refine ⟨_, _, hrun, hrest, hbar, hcohorts, ?_, Env.arrives_past_phase (wait := wait) (need := .named n x.phase)
      (here := cohOf e.tid = e.coh) (own := own) (rels := rels) hx.clear i arv (e.clamps scope) met hst nofun nofun
      htid.symm (aget_aset_same ..), fun k hk => ?_⟩
    · rw [hthreads, State.modThread_threads, aget_amod_same, hth, Option.map_some, Option.map_some, hf]
    · rw [hthreads, State.modThread_threads, aget_amod_other _ _ hk]
      simp only [Thread.phaseEnd_aset_other _ hk]
      rfl
  case group =>
    intro i n x wait met o own rels x1 x2 hx hmem ha ht hst hs
    obtain ⟨hth, -, -, hl, -⟩ := State.env_some hx.env
    obtain ⟨f, hf, hrun⟩ := exec_barGrp_arrives hx hmem ha ht hs
    have hgroup : (aget e.l.groups n).isSome = true := (Bool.and_eq_true_iff.mp hmem).1
    obtain ⟨hrest, hbar, hlaunches, hthreads⟩ :=
      State.grpArrive_joins (s := s.modThread e.tid f) hl hgroup e.tid own
    have hmet : (s.modThread e.tid f).groupMet e.c.launch n e.l (e.tid :: (e.l.gbar n).arrived) =
        s.groupMet e.c.launch n e.l (e.tid :: x.arrived) :=
      State.groupMet_modThread s e.tid e.c.launch n f e.l (List.mem_cons_self ..)
    rw [hmet] at hbar hthreads
    refine ⟨_, _, hrun, hrest, hbar, hlaunches, ?_, Env.arrives_past_phase (wait := wait) (need := .grp n x.phase)
      (here := ((s.launchCohorts e.c.launch).map (·.1)).contains (cohOf e.tid) = true) (own := own)
      (rels := rels) hx.clear i arv (e.clamps scope) met hst nofun nofun (Env.mem_launchCohorts hx.env) (aget_aset_same ..), fun k hk => ?_⟩
    · rw [hthreads, State.modThread_threads, aget_amod_same, hth, Option.map_some, Option.map_some, hf]
      rfl
    · rw [hthreads, State.modThread_threads, aget_amod_other _ _ hk]
      simp only [Thread.phaseEnd_aset_other _ hk]
      rfl

end Sys2Proof.Machine
end

section
/-! SUPPORT. The canonical form of memory, tags and the tables of threads and cohorts (R8, R253, R285) through the operations
on State: for each of them, that a state with the invariant has it afterwards. -/

namespace Sys2Proof.Machine

/-! ## Computations and outcomes -/

/-- The state in which a computation ends, well or in a fault, has the invariant. -/
def Good {α : Type} (r : EStateM.Result FaultInfo State α) : Prop :=
  match r with
  | .ok _ t => t.Inv
  | .error _ t => t.Inv

/-- From a state with the invariant the computation leads to one. -/
def Keeps {α : Type} (x : M α) : Prop := ∀ s : State, s.Inv → Good (x s)

/-- A next state has the invariant. -/
def Formed (o : Host.Outcome State Fault Refusal) : Prop :=
  match o with
  | .next t => t.Inv
  | .fault _ => True
  | .refused _ => True

theorem Formed.inv {o : Host.Outcome State Fault Refusal} {t : State} (h : Formed o) (ht : o = .next t) : t.Inv := by
  rw [ht] at h
  exact h

theorem Good.inv {α : Type} {r : EStateM.Result FaultInfo State α} {a : α} {t : State} (h : Good r) (ht : r = .ok a t) :
    t.Inv := by
  rw [ht] at h
  exact h

theorem Good.inv_error {α : Type} {r : EStateM.Result FaultInfo State α} {f : FaultInfo} {t : State} (h : Good r)
    (ht : r = .error f t) : t.Inv := by
  rw [ht] at h
  exact h

theorem keeps_pure {α : Type} {a : α} : Keeps (pure a : M α) := fun _ h => h

theorem keeps_throw {α : Type} {f : FaultInfo} : Keeps (throw f : M α) := fun _ h => h

theorem keeps_get : Keeps (get : M State) := fun _ h => h

theorem keeps_set {s : State} (h : s.Inv) : Keeps (set s : M PUnit) := fun _ _ => h

theorem keeps_modify {f : State → State} (hf : ∀ s : State, s.Inv → (f s).Inv) : Keeps (modify f : M PUnit) := hf

theorem Keeps.bind {α β : Type} {x : M α} {f : α → M β} (hx : Keeps x) (hf : ∀ a, Keeps (f a)) : Keeps (x >>= f) := by
  intro s h
  have hs := hx s h
  cases hxs : x s with
  | ok a t =>
    rw [bind_ok hxs]
    exact hf a t (hs.inv hxs)
  | error f t =>
    rw [bind_error hxs]
    exact hs.inv_error hxs

/-- A computation that goes on with the state that it reads. -/
theorem keeps_get_bind {α : Type} {f : State → M α} (hf : ∀ s : State, s.Inv → Keeps (f s)) : Keeps (get >>= f) :=
  fun s h => hf s h s h

theorem Keeps.ite {α : Type} {c : Prop} [Decidable c] {x y : M α} (hx : Keeps x) (hy : Keeps y) :
    Keeps (if c then x else y) := by
  split
  · exact hx
  · exact hy

/-- A check that throws where a condition holds, before the rest. -/
theorem keeps_check {α : Type} {c : Prop} [Decidable c] {f : FaultInfo} {rest : PUnit → M α} (h : ∀ r, Keeps (rest r)) :
    Keeps (if c then throw f >>= rest else rest ⟨⟩) := .ite (keeps_throw.bind h) (h ⟨⟩)

/-- A step before the rest where a condition holds. -/
theorem Keeps.when {α : Type} {c : Prop} [Decidable c] {x : M PUnit} {rest : PUnit → M α} (hx : Keeps x)
    (h : ∀ r, Keeps (rest r)) : Keeps (if c then x >>= rest else rest ⟨⟩) := .ite (hx.bind h) (h ⟨⟩)

/-- One of two steps before the rest. -/
theorem keeps_branch {α β : Type} {c : Prop} [Decidable c] {x y : M β} {rest : β → M α} (hx : Keeps x) (hy : Keeps y)
    (h : ∀ b, Keeps (rest b)) : Keeps (if c then x >>= rest else y >>= rest) := .ite (hx.bind h) (hy.bind h)

theorem keeps_forM {β : Type} {f : β → M PUnit} {l : List β} (hf : ∀ x, Keeps (f x)) : Keeps (l.forM f) := by
  induction l with
  | nil => exact keeps_pure
  | cons x t ih => exact Keeps.bind (hf x) fun _ => ih

theorem keeps_mapM {β γ : Type} {f : β → M γ} {l : List β} (hf : ∀ x, Keeps (f x)) : Keeps (l.mapM f) := by
  induction l with
  | nil => exact keeps_pure
  | cons x t ih =>
    rw [List.mapM_cons]
    exact Keeps.bind (hf x) fun _ => ih.bind fun _ => keeps_pure

/-! ## States -/

/-- What the invariant speaks of. -/
def State.tables (s : State) : List Host.Cell × Sparse 4 × Assoc Thread × Assoc Cohort := (s.mem, s.tags, s.threads, s.cohorts)

theorem State.Inv.same {s t : State} (h : s.Inv) (e : t.tables = s.tables) : t.Inv := by
  simp only [State.tables, Prod.mk.injEq] at e
  obtain ⟨hm, hg, ht, hc⟩ := e
  exact ⟨hm ▸ h.mem, hg ▸ h.tags, ht ▸ h.threads, hc ▸ h.cohorts⟩

theorem State.Inv.ite {c : Prop} [Decidable c] {s t : State} (hs : s.Inv) (ht : t.Inv) : (if c then s else t).Inv := by
  split
  · exact hs
  · exact ht

/-- The state of a pair that a function answers. -/
theorem State.Inv.at {α : Type} {p : α × State} {a : α} {t : State} (h : p.2.Inv) (e : p = (a, t)) : t.Inv := by
  rw [e] at h
  exact h

theorem State.Inv.at_fst {α : Type} {p : State × α} {a : α} {t : State} (h : p.1.Inv) (e : p = (t, a)) : t.Inv := by
  rw [e] at h
  exact h

/-- The state of a triple that a function answers. -/
theorem State.Inv.at_snd {β γ : Type} {p : β × γ × State} {x : β} {y : γ} {t : State} (h : p.2.2.Inv)
    (e : p = (x, y, t)) : t.Inv := by
  rw [e] at h
  exact h

theorem State.Inv.snd_ite {α : Type} {c : Prop} [Decidable c] {p q : α × State} (hp : p.2.Inv) (hq : q.2.Inv) :
    (if c then p else q).2.Inv := by
  split
  · exact hp
  · exact hq

theorem State.Inv.foldl {α : Type} {f : State → α → State} {xs : List α} {s : State} (h : s.Inv)
    (hf : ∀ (t : State) (x : α), t.Inv → (f t x).Inv) : (xs.foldl f s).Inv :=
  List.foldlRecOn (motive := State.Inv) xs f h fun t ht x _ => hf t x ht

theorem State.Inv.withThreads {s : State} {m : Assoc Thread} (h : s.Inv) (hm : rising 0 m = true) :
    State.Inv { s with threads := m } := ⟨h.mem, h.tags, hm, h.cohorts⟩

theorem State.Inv.withCohorts {s : State} {m : Assoc Cohort} (h : s.Inv) (hm : rising 0 m = true) :
    State.Inv { s with cohorts := m } := ⟨h.mem, h.tags, h.threads, hm⟩

theorem State.Inv.withMem {s : State} {m : List Host.Cell} (h : s.Inv) (hm : Memory.wf m = true) :
    State.Inv { s with mem := m } := ⟨hm, h.tags, h.threads, h.cohorts⟩

theorem rising_mapVals {α : Type} {m : Assoc α} {lo : Nat} {g : Nat × α → Nat × α} (r : rising lo m = true)
    (hg : ∀ e, (g e).1 = e.1) : rising lo (m.map g) = true := (rising_map hg lo).trans r

section
variable {s : State} {α : Type} {n tid coh lid cid key core sec pid st : Nat}

theorem State.Inv.pick (h : s.Inv) : (s.pick n).2.Inv := by
  rw [State.pick_state]
  exact h.same (by rfl)

theorem State.Inv.draw (h : s.Inv) : s.draw.2.Inv := h.same (by rfl)

theorem keeps_pickM : Keeps (pickM n) := fun _ h => h.pick

theorem keeps_drawM : Keeps drawM := fun _ h => h.draw

theorem State.Inv.setThread {t : Thread} (h : s.Inv) : (s.setThread tid t).Inv :=
  h.withThreads (rising_aset t h.threads (Nat.zero_le tid))

theorem State.Inv.modThread {f : Thread → Thread} (h : s.Inv) : (s.modThread tid f).Inv :=
  h.withThreads (rising_amod tid f h.threads)

theorem State.Inv.modCohort {f : Cohort → Cohort} (h : s.Inv) : (s.modCohort coh f).Inv :=
  h.withCohorts (rising_amod coh f h.cohorts)

theorem State.Inv.modWarp {f : Warp → Warp} (h : s.Inv) : (s.modWarp n f).Inv := h.same (by rfl)

theorem State.Inv.modLaunch {f : Launch → Launch} (h : s.Inv) : (s.modLaunch lid f).Inv := h.same (by rfl)

theorem State.Inv.modCtx {f : Ctx → Ctx} (h : s.Inv) : (s.modCtx cid f).Inv := h.same (by rfl)

theorem State.Inv.freshId (h : s.Inv) : s.freshId.2.Inv := h.same (by rfl)

end
end Sys2Proof.Machine
end

section
/-! SUPPORT. The canonical form through memory, walkers' slots, the ends of launches and the order of accesses (R47, R78,
R238, R253 to R271). -/

namespace Sys2Proof.Machine

section
variable {s : State} {α : Type} {n tid coh lid cid key core sec slot pid st : Nat} {e : Env} {w : Who}

/-! ## Memory -/

theorem State.Inv.writeBack {ls : List StashLine} (h : s.Inv) : (s.writeBack pid ls).Inv := by
  have hm := s.writeBack_wf pid ls h.mem
  rw [State.writeBack_state] at hm ⊢
  exact ⟨hm, h.tags, h.threads, h.cohorts⟩

theorem State.Inv.recall {write : Bool} (h : s.Inv) : (s.recall key n write).Inv := by
  unfold State.recall
  extract_lets hit
  split
  · have hf := h.foldl (xs := s.cohorts) (f := fun s c => s.writeBack (s.cohPid c.2) ((c.2.lines.filter hit).map (·.2)))
      fun _ _ ht => ht.writeBack
    exact hf.withCohorts (rising_mapVals hf.cohorts fun _ => rfl)
  · exact h

theorem State.Inv.logMsg {old new : List Byte} {view : List Nat} {own carried : List Rel} {rmw agent : Bool} (h : s.Inv) :
    (s.logMsg key old new view own carried rmw agent).2.Inv := h.same (by rfl)

theorem State.Inv.performAll (h : s.Inv) : s.performAll.Inv := h.same (by rfl)

theorem State.Inv.setSp {bs : List Byte} (h : s.Inv) : (s.setSp coh n bs).Inv := h.modCohort

theorem State.Inv.readMem (h : s.Inv) : (s.readMem key n).2.Inv := h.recall

theorem State.Inv.setMem {bs : List Byte} (h : s.Inv) : (s.setMem key bs).Inv :=
  h.recall.withMem (wf_swrite key bs h.recall.mem)

theorem State.Inv.writeMem {bs : List Byte} {view : List Nat} {rels : List Rel} (h : s.Inv) :
    (s.writeMem key bs view rels).Inv := h.readMem.logMsg.setMem

theorem keeps_readMemM : Keeps (readMemM key n) := fun _ h => h.readMem

theorem keeps_writeMemM {bs : List Byte} {view : List Nat} {rels : List Rel} : Keeps (writeMemM key bs view rels) :=
  fun _ h => h.writeMem

/-! ## Cached versions -/

theorem State.Inv.note {what cluster addr : Nat} {v : List Byte} (h : s.Inv) : (s.note what cluster cid addr v).Inv :=
  .ite h (.ite (h.same (by rfl)) (h.same (by rfl)))

theorem State.Inv.boundSeen {what : List Nat} {cluster : Nat} {grp : Seen → Nat} (h : s.Inv) :
    (s.boundSeen what cluster n grp).Inv := by
  refine .ite h ?_
  split
  · exact h.pick
  · exact h.pick.same (by rfl)

theorem keeps_cached {names : List (Nat × Nat)} {cluster : Nat} {keep : Bool} {cur : List Byte} :
    Keeps (cached names cluster cid keep cur) := fun _ h => (State.Inv.ite (h.foldl fun _ _ ht => ht.note) h).pick

/-! ## Walkers' slots -/

theorem State.Inv.loadRange {p : PendRange} (h : s.Inv) : (s.loadRange lid p slot core).Inv := h.same (by rfl)

theorem State.Inv.refillSlot (h : s.Inv) : (s.refillSlot sec slot).Inv := by
  unfold State.refillSlot
  split
  · exact h
  · refine .ite ?_ h
    split
    · exact (h.same (by rfl)).loadRange
    · exact h.loadRange

theorem State.Inv.refillAll (h : s.Inv) : s.refillAll.Inv := .ite h (h.foldl fun _ _ ht => ht.refillSlot)

/-! ## Ends -/

theorem State.Inv.fixRotation (h : s.Inv) : s.fixRotation.Inv := h.same (by rfl)

theorem State.Inv.dropCohort (h : s.Inv) : (s.dropCohort coh).Inv := by
  unfold State.dropCohort
  extract_lets s1
  have h1 : s1.Inv := by
    unfold s1
    split
    · exact h.writeBack
    · exact h
  exact ⟨h1.mem, h1.tags, rising_filter _ h1.threads, rising_filter _ h1.cohorts⟩

theorem State.Inv.unpark {ts : List Nat} (h : s.Inv) : (s.unpark ts).Inv := by
  refine State.Inv.same (h.withThreads (rising_mapVals h.threads fun e => ?_)) (by rfl)
  split <;> rfl

theorem State.Inv.disarm (h : s.Inv) : (s.disarm lid).Inv := by
  unfold State.disarm
  split
  · exact h
  · exact h.unpark.same (by rfl)

theorem State.Inv.dropGang {l : Launch} (h : s.Inv) : (s.dropGang lid l).Inv := .ite h (h.same (by rfl))

theorem State.Inv.beforeSignal {v : List Nat} (h : s.Inv) : (s.beforeSignal lid v).Inv := h.modLaunch

theorem State.Inv.endLaunch (h : s.Inv) : (s.endLaunch lid st).Inv := by
  unfold State.endLaunch
  split
  · exact h
  · exact .ite h ((h.foldl fun _ _ ht => ht.beforeSignal.dropCohort).disarm.dropGang.same (by rfl)).fixRotation.refillAll

theorem State.Inv.endContext (h : s.Inv) : (s.endContext cid st).Inv := h.foldl fun _ _ ht => .ite ht.endLaunch ht

theorem State.Inv.clearCore (h : s.Inv) : (s.clearCore core).Inv := h.foldl fun _ _ ht => ht.endLaunch

theorem State.Inv.freezeCore (h : s.Inv) : (s.freezeCore core).Inv := (h.same (by rfl)).clearCore

theorem State.Inv.freezeEngine (h : s.Inv) : (s.freezeEngine core).Inv := ((h.pick (n := 2)).same (by rfl)).clearCore

theorem State.Inv.stopPartition (h : s.Inv) : (s.stopPartition pid).Inv :=
  (h.foldl fun _ _ ht => .ite ht.endLaunch ht).same (by rfl)

/-! ## The order of accesses -/

theorem State.Inv.fenceOrder {o : Ord} {insts : List Nat} (h : s.Inv) : (s.fenceOrder o insts).2.Inv := h.same (by rfl)

theorem State.Inv.chooseSeen {o : Ord} {ms seen : List Msg} (h : s.Inv) : (chooseSeen o ms seen s).2.2.Inv := by
  induction ms generalizing seen s with
  | nil => exact h
  | cons m t ih =>
    rw [Machine.chooseSeen]
    split
    · exact ih h
    · dsimp only
      split
      · exact ih h.pick
      · exact ih h.pick

theorem State.Inv.observe {o : Ord} {own : List Nat} {acq : List Byte → Option (List Nat)} {cur : List Byte} (h : s.Inv) :
    (s.observe o own acq key cur).2.2.Inv := h.chooseSeen

theorem State.Inv.placeAt {o : Ord} {own carried : List Rel} {rmw : Bool} {cur bs : List Byte} {later : List Msg} {k : Nat}
    (h : s.Inv) : (s.placeAt o own carried rmw key cur bs later k).2.2.Inv := h.same (by rfl)

theorem State.Inv.placeWrite {o : Ord} {own : List Rel} {cur bs : List Byte} (h : s.Inv) :
    (s.placeWrite o own key cur bs).2.2.Inv := h.pick.placeAt

theorem State.Inv.setOrd {o : Ord} (h : s.Inv) : (s.setOrd tid o).Inv := h.modThread

theorem State.Inv.noteMade (h : s.Inv) : (s.noteMade tid n).Inv := .ite h.modWarp h

theorem keeps_seeIfM {acq : List Byte → Option Scope} {cur : List Byte} : Keeps (seeIfM e acq key cur) :=
  fun _ h => (h.observe (own := e.allInsts) (acq := fun b => (acq b).map e.insts)).setOrd

theorem keeps_seeM {acq : Option Scope} {cur : List Byte} : Keeps (seeM e acq key cur) := keeps_seeIfM

theorem keeps_placeM {rel : Option Scope} {cur bs : List Byte} : Keeps (placeM e rel key cur bs) :=
  fun _ h => h.placeWrite.setOrd.noteMade

theorem keeps_readSeenM {acq : Option Scope} : Keeps (readSeenM e acq key n) := keeps_readMemM.bind fun _ => keeps_seeM

theorem keeps_writeSeenM {rel : Option Scope} {bs : List Byte} : Keeps (writeSeenM e rel key bs) :=
  keeps_readMemM.bind fun _ => keeps_placeM.bind fun _ => keeps_modify fun _ h => h.setMem

theorem State.Inv.rmw {acq rel : Option Scope} {cur : List Byte} {f : List Byte → Option (List Byte)} (h : s.Inv) :
    (s.rmw e acq rel key cur f).2.2.Inv := by
  unfold State.rmw
  dsimp only
  split
  · exact h.pick.setOrd
  · exact h.pick.placeAt.setOrd.noteMade

theorem keeps_rmwM {acq rel : Option Scope} {f : List Byte → Option (List Byte)} : Keeps (rmwM e acq rel key n f) :=
  keeps_readMemM.bind fun _ _ h => .ite h.rmw h.rmw.setMem

theorem State.Inv.fenceBy {insts : List Nat} (h : s.Inv) : (s.fenceBy tid insts).Inv := h.fenceOrder.setOrd

theorem State.Inv.fenceCohort (h : s.Inv) : (s.fenceCohort coh).Inv := by
  unfold State.fenceCohort
  split
  · exact h
  · exact h.foldl fun _ _ ht => ht.fenceBy

theorem State.Inv.joinThread {v : List Nat} (h : s.Inv) : (s.joinThread tid v).Inv := h.setOrd

theorem State.Inv.carry (h : s.Inv) : (s.carry tid).2.Inv := h.setOrd

theorem keeps_releaseM {sc : Scope} : Keeps (releaseM e sc) := fun _ h => h.carry

end
end Sys2Proof.Machine
end

section
/-! SUPPORT. The canonical form through translation, the checks of accesses and fetches, faults, and the frame of a thread's
op (R159, R274 to R301). -/

namespace Sys2Proof.Machine

section
variable {s : State} {α : Type} {n tid coh lid cid key core sec slot pid st : Nat} {e : Env} {w : Who} {a : Access} {p : Place}
  {va : VAddr} {ptr : Dword}

/-! ## Walks -/

theorem State.Inv.noteUsed {cl va : Nat} {r : Walked × List (Nat × Nat)} (h : s.Inv) : (s.noteUsed cl cid va r).Inv := by
  have hf := h.foldl (xs := r.2) (f := fun s x => s.note 4 cl cid x.1 (leBytes 8 x.2)) fun _ _ ht => ht.note
  unfold State.noteUsed
  dsimp only
  split
  · exact .ite hf.note.boundSeen hf
  · exact hf

theorem keeps_walkM : Keeps (walkM w va) := by
  intro s h
  unfold walkM
  split
  · exact h
  · exact h.pick.noteUsed

theorem keeps_linkNeedM : Keeps (linkNeedM key) := by
  intro s h
  unfold linkNeedM
  split
  · exact h.pick (n := 2)
  · exact h

theorem keeps_linkNeedWalk : Keeps (linkNeedWalk w va) := by
  intro s h
  unfold linkNeedWalk
  split
  · exact h.pick (n := 2)
  · exact h

theorem keeps_walkFor : Keeps (walkFor w a) := by
  unfold walkFor
  exact keeps_check fun _ => keeps_linkNeedWalk.bind fun _ => keeps_get.bind fun _ => keeps_check fun _ => keeps_walkM

theorem keeps_placeOf {r : Walked} : Keeps (placeOf w a r) :=
  match r with
  | .unmapped => keeps_throw
  | .format _ => keeps_throw
  | .leaf pte log => keeps_check fun _ => keeps_get.bind fun s => by
    dsimp only
    split
    · exact keeps_check fun _ => keeps_pure
    · exact keeps_throw

theorem keeps_checkTo3 : Keeps (checkTo3 w a) := keeps_walkFor.bind fun _ => keeps_placeOf

/-! ## The checks of an access -/

theorem keeps_checkWatch : Keeps (checkWatch w a) := keeps_get.bind fun _ => by
  split
  · exact keeps_throw
  · exact keeps_pure

theorem keeps_seeTag {fx : Bool} : Keeps (seeTag w fx key) := by
  intro s h
  unfold seeTag
  dsimp only
  split
  · exact h
  · next tid _ =>
    split
    · have ho := h.observe (o := s.orderOf w tid) (own := []) (acq := fun _ => none) (key := tagKey key)
        (cur := [(sget s.tags (key / 32)).setWidth 8])
      exact .ite ho.setOrd ho
    · exact h

theorem keeps_checkTag : Keeps (checkTag w a p) :=
  .ite (keeps_seeTag.bind fun _ => .ite keeps_throw keeps_pure) keeps_pure

theorem keeps_checkFrom4 : Keeps (checkFrom4 w a p) :=
  keeps_checkWatch.bind fun _ => .ite (keeps_checkTag.bind fun _ => keeps_pure) keeps_pure

theorem keeps_checkPlace : Keeps (checkPlace w a) :=
  keeps_checkTo3.bind fun _ => keeps_checkFrom4.bind fun _ => .ite keeps_pure keeps_throw

theorem keeps_checkRead : Keeps (checkRead w a) :=
  keeps_checkPlace.bind fun _ => keeps_linkNeedM.bind fun _ => keeps_check fun _ => keeps_pure

theorem keeps_storeM {bs : List Byte} {view : List Nat} {rels : List Rel} : Keeps (storeM w key bs view rels) :=
  keeps_linkNeedM.bind fun _ => .ite (keeps_modify fun _ h => h.stopPartition) keeps_writeMemM

theorem keeps_readVirt {acc unit units : Nat} {rd : Nat → Nat → M (List Byte)} (hr : ∀ k n, Keeps (rd k n)) :
    Keeps (readVirt w ptr acc unit units rd) := by
  induction units generalizing ptr with
  | zero => exact keeps_pure
  | succ u ih => exact keeps_checkRead.bind fun p => Keeps.bind (hr p.key unit) fun _ => ih.bind fun _ => keeps_pure

theorem State.Inv.observeWhole {o : Ord} {ps : List (Nat × List Byte)} (h : s.Inv) : (s.observeWhole o ps).2.2.Inv := h.pick

theorem keeps_structUnits {acc unit units : Nat} : Keeps (structUnits w ptr acc unit units) := by
  induction units generalizing ptr with
  | zero => exact keeps_pure
  | succ u ih => exact keeps_checkRead.bind fun _ => keeps_readMemM.bind fun _ => ih.bind fun _ => keeps_pure

theorem keeps_readPieces {ps : List (Nat × List Byte)} : Keeps (readPieces w ps) := by
  intro s h
  unfold readPieces
  split
  · exact h
  · exact h.observeWhole (o := s.orderOf w _) (ps := ps)

/-! ## Accesses of agents -/

theorem State.Inv.tryM {x : M α} (h : s.Inv) (hx : Keeps x) : (tryM s x).2.Inv := by
  unfold Machine.tryM
  split
  · next hxs => exact (hx s h).inv hxs
  · exact h.same (by rfl)

theorem State.Inv.tryAgent {x : M α} (h : s.Inv) (hx : Keeps x) : (tryAgent s w x).2.Inv := by
  unfold Machine.tryAgent
  split
  · next hxs => exact (hx s h).inv hxs
  · exact .ite (h.same (by rfl)).stopPartition (h.same (by rfl))

theorem keeps_readAfter {view : List Nat} : Keeps (readAfter view key n) := keeps_readMemM.bind fun cur _ h =>
  h.observe (o := { view := view }) (own := []) (acq := fun _ => none) (key := key) (cur := cur)

theorem State.Inv.agentRead {view : List Nat} (h : s.Inv) : (s.agentRead w ptr n view).2.Inv :=
  h.tryAgent (keeps_readVirt fun _ _ => keeps_readAfter)

theorem keeps_acquireUnit {insts view : List Nat} : Keeps (acquireUnit w insts view ptr n) :=
  keeps_checkRead.bind fun p => keeps_readMemM.bind fun cur _ h =>
    h.observe (o := { view := view }) (own := insts) (acq := fun _ => some insts) (key := p.key) (cur := cur)

theorem keeps_writeVirt {acc unit units : Nat} {bs : List Byte} {view : List Nat} {rels : List Rel} :
    Keeps (writeVirt w ptr acc unit bs units view rels) := by
  induction units generalizing ptr bs with
  | zero => exact keeps_pure
  | succ u ih => exact keeps_checkPlace.bind fun _ => keeps_storeM.bind fun _ => ih

/-! ## Fetches -/

theorem keeps_fetchPlace : Keeps (fetchPlace w va) := keeps_checkTo3

theorem keeps_fetchTags {granules : Nat} : Keeps (fetchTags w a p granules key) := by
  induction granules generalizing key with
  | zero => exact keeps_pure
  | succ g ih => exact keeps_checkTag.bind fun _ => ih

theorem keeps_fetchRest : Keeps (fetchRest w va n p) :=
  keeps_checkWatch.bind fun _ => keeps_check fun _ => keeps_linkNeedM.bind fun _ => keeps_check fun _ => keeps_fetchTags

theorem State.Inv.boundOps {cl : Nat} (h : s.Inv) : (s.boundOps cl).Inv := h.boundSeen

theorem keeps_lineText {guest : Option (VAddr × Nat)} : Keeps (lineText w va p guest) :=
  keeps_readMemM.bind fun _ => keeps_readPieces.bind fun _ => keeps_get.bind fun _ => keeps_check fun _ => by
    dsimp only
    split
    · exact keeps_pure
    · exact keeps_cached.bind fun _ => (keeps_modify fun _ h => h.boundSeen.boundOps).bind fun _ => keeps_pure

theorem keeps_targetLine : Keeps (targetLine w va) :=
  keeps_fetchPlace.bind fun _ => keeps_fetchRest.bind fun _ => keeps_lineText.bind fun _ => keeps_pure

/-! ## Faults -/

theorem State.Inv.queuePost {p : Post} (h : s.Inv) : (s.queuePost cid p).Inv := h.modCtx

theorem State.Inv.handlerOk (h : s.Inv) : (s.handlerOk e).2.Inv := by
  unfold State.handlerOk
  split <;> next hx => exact (h.tryM keeps_targetLine).at hx

theorem State.Inv.raise {long : Bool} {f : FaultInfo} (h : s.Inv) : (s.raise e long f).1.Inv := by
  unfold State.raise
  split
  · exact h.freezeCore
  · split
    · exact h.modThread.queuePost
    · split
      next hx =>
        have hs := State.Inv.at (.snd_ite h.handlerOk h) hx
        split
        · exact hs.modThread
        · exact hs.queuePost

theorem State.Inv.endByFault (h : s.Inv) : (s.endByFault lid).Inv := .ite h.endLaunch (h.same (by rfl))

theorem State.Inv.takeFault {long : Bool} {f : FaultInfo} (h : s.Inv) : (s.takeFault e long f).Inv := by
  unfold State.takeFault
  split
  · next hx => exact (h.raise.at_fst hx).modThread.endByFault
  · next hx => exact h.raise.at_fst hx

theorem State.Inv.faultAll {es : List Env} {long : Bool} {f : FaultInfo} (h : s.Inv) : (s.faultAll es long f).Inv := by
  unfold State.faultAll
  split
  next t _ hx =>
    have hr : t.Inv := by
      refine State.Inv.at_fst ?_ hx
      exact List.foldlRecOn (motive := fun acc : State × Bool => acc.1.Inv) es _ h fun _ ht _ _ => ht.raise
    split
    · exact .ite (hr.foldl fun _ _ ht => ht.modThread).endByFault hr
    · exact hr

theorem State.Inv.keepDraws {t : State} (h : s.Inv) : (s.keepDraws t).Inv := h.same (by rfl)

/-! ## Ops of threads -/

theorem formed_guarded {i : Instr} {act : Env → State} (h : s.Inv) (ha : ∀ e, (act e).Inv) : Formed (guarded i s act) := by
  unfold guarded
  split
  · trivial
  · split
    · exact h.takeFault
    · split
      · exact ha _
      · exact h.setThread

theorem formed_aluOp {i : Instr} {f : Env → Thread} (h : s.Inv) : Formed (aluOp i s f) := formed_guarded h fun _ => h.setThread

theorem State.Inv.endOp {i : Instr} {r : EStateM.Result FaultInfo State Flow} (h : s.Inv) (hr : Good r) :
    (endOp i s e r).Inv :=
  match r with
  | .ok .done _ => hr.modThread
  | .ok (.goto _) _ => hr.modThread
  | .ok .stay _ => hr
  | .error _ _ => h.keepDraws.takeFault

theorem formed_threadOp {i : Instr} {body : Env → M Flow} (h : s.Inv) (hb : ∀ e, Keeps (body e)) :
    Formed (threadOp i s body) := formed_guarded h fun e => h.endOp (hb e s h)

theorem keeps_modTh {f : Thread → Thread} : Keeps (modTh e f) := fun _ h => h.modThread

theorem keeps_getTh : Keeps (getTh e) := fun _ h => h

theorem keeps_tokenStop {need : TokenNeed} : Keeps (tokenStop e need) := keeps_modTh.bind fun _ => keeps_pure

theorem keeps_userTrap {i : Instr} {kind code : Nat} : Keeps (userTrap e i kind code) := by
  intro s h
  unfold userTrap
  split
  · exact h
  · split
    · next hx => exact (h.handlerOk.at hx).modThread
    · next hx => exact h.handlerOk.at hx

theorem keeps_clampScope {sc : Scope} : Keeps (clampScope e sc) := .ite keeps_pure (.ite keeps_throw keeps_pure)

theorem keeps_clampOpt {sc : Option Scope} : Keeps (clampOpt e sc) :=
  match sc with
  | none => keeps_pure
  | some _ => keeps_clampScope.bind fun _ => keeps_pure

theorem keeps_setClamp {c : Bool} : Keeps (setClamp e c) := .ite keeps_modTh keeps_pure

theorem State.Inv.settleCopy {c : Copy} (h : s.Inv) : (s.settleCopy c).Inv := by
  refine .ite h (h.withThreads (rising_mapVals h.threads fun _ => ?_))
  split <;> rfl

theorem State.Inv.reap (h : s.Inv) : (s.reap tid).Inv := (h.same (by rfl)).foldl fun _ _ ht => ht.settleCopy

end
end Sys2Proof.Machine
end

section
/-! SUPPORT. The canonical form through format descriptors, personalities, barriers and stage rings (R117 to R139, R200 to
R208, R226 to R228, R370 to R376). -/

namespace Sys2Proof.Machine

section
variable {s : State} {α : Type} {n k tid coh lid cid key core sec slot pid st : Nat} {e : Env} {w : Who} {a : Access} {p : Place}
  {pc : VAddr} {ptr : Dword} {ctx : Ctx}

/-! ## Formats -/

theorem keeps_readDesc {d : Nat} : Keeps (readDesc w ctx d) := by
  unfold readDesc
  refine .ite keeps_pure (keeps_get_bind fun s h => ?_)
  have hs : Good ((structUnits w.noWatch (untag (ctx.con.fmttab + BitVec.ofNat 64 (32 * d))) 0 32 1 >>= fun x =>
    readPieces w x) s) := keeps_structUnits.bind (fun _ => keeps_readPieces) s h
  dsimp only
  split
  · exact (keeps_set (h.same (by rfl))).bind fun _ => .ite keeps_throw keeps_pure
  · next hx =>
    refine (keeps_set (hs.inv hx)).bind fun _ => ?_
    split
    · exact keeps_pure
    · exact keeps_cached.bind fun _ => keeps_pure

theorem keeps_descFor {d : Nat} : Keeps (descFor w ctx d) := by
  intro s h
  unfold descFor
  split
  · next hx => exact (keeps_readDesc s h).inv hx
  · exact h.same (by rfl)

theorem keeps_formatCheck {dr : Except FaultInfo (Option Desc)} : Keeps (formatCheck dr a) :=
  match dr with
  | .error _ => keeps_throw
  | .ok none => keeps_throw
  | .ok (some _) => .ite keeps_throw keeps_pure

theorem keeps_elemDesc : Keeps (elemDesc w ctx p a) := keeps_descFor.bind fun _ => keeps_formatCheck

theorem keeps_readScale {d : Desc} {x : Dword} {acc : Nat} {buf : List BufStore} {rd : Nat → Nat → M (List Byte)}
    (hr : ∀ k n, Keeps (rd k n)) : Keeps (readScale w d x acc buf rd) :=
  .ite keeps_pure <| keeps_checkTo3.bind fun p => keeps_checkFrom4.bind fun _ => .ite
    (keeps_linkNeedM.bind fun _ => .ite keeps_pure (Keeps.bind (hr p.key 1) fun _ => keeps_pure)) keeps_pure

theorem keeps_scaleGet {r : ScaleRead} : Keeps r.get :=
  match r with
  | .here _ _ => keeps_pure
  | .absent _ => keeps_throw
  | .down _ => keeps_throw

/-! ## Personalities -/

theorem keeps_persUnits : Keeps (persUnits w ptr n) := by
  intro s h
  have hs := keeps_structUnits (w := w.noWatch) (ptr := untag ptr) (acc := 7) (unit := 8) (units := n / 8) s h
  unfold persUnits
  split
  · next hx => exact hs.inv_error hx
  · next hx => exact hs.inv hx

theorem keeps_persCached {g : Guest} {b : List Byte} {hid : List Nat} : Keeps (persCached g ptr b hid) := by
  unfold persCached
  split
  · exact keeps_pure
  · exact keeps_get.bind fun _ => keeps_cached.bind fun _ => (keeps_modify fun _ h => h.boundSeen.boundOps).bind fun _ =>
      keeps_pure

theorem keeps_persRead {g : Guest} : Keeps (persRead g ptr n) :=
  keeps_persUnits.bind fun _ => keeps_readPieces.bind fun _ => keeps_persCached

theorem keeps_persHeader {g : Guest} : Keeps (persHeader g ctx) := by
  unfold persHeader
  refine keeps_check fun _ => keeps_persRead.bind fun _ => keeps_check fun _ => keeps_check fun _ =>
    keeps_persRead.bind fun _ => ?_
  split
  · exact keeps_throw
  · exact .ite (keeps_persRead.bind fun _ => keeps_check fun _ => keeps_pure) keeps_pure

/-! ## Barriers -/

theorem State.Inv.releaseIn {wait : TStatus} (h : s.Inv) : (s.releaseIn coh wait).Inv := by
  refine h.withThreads (rising_mapVals h.threads fun _ => ?_)
  split <;> rfl

theorem State.Inv.releaseOf {wait : TStatus} (h : s.Inv) : (s.releaseOf lid wait).Inv := by
  refine h.withThreads (rising_mapVals h.threads fun _ => ?_)
  split <;> rfl

theorem State.Inv.acquirePhase {rels : Assoc Rel} {waits : List TStatus} (h : s.Inv) : (s.acquirePhase rels waits).Inv := by
  refine h.withThreads (rising_mapVals h.threads fun _ => ?_)
  split
  · split <;> rfl
  · rfl

theorem State.Inv.barCheck {b : Nat} (h : s.Inv) : (State.barCheck coh s b).Inv := by
  unfold State.barCheck
  split
  · exact h
  · split
    · exact h
    · exact .ite h.acquirePhase.modCohort.releaseIn h

theorem State.Inv.barArrive {b : Nat} {mask : Word} {rel : Rel} (h : s.Inv) : (s.barArrive coh tid b mask rel).Inv :=
  h.modCohort

theorem keeps_departM {i : Instr} {arv : Bool} {wait : TStatus} {need : TokenNeed} : Keeps (departM e i arv wait need) :=
  keeps_modTh

theorem State.Inv.grpCheck {g : Nat} (h : s.Inv) : (State.grpCheck lid s g).Inv := by
  unfold State.grpCheck
  split
  · exact h
  · exact .ite h.acquirePhase.modLaunch.releaseOf h

theorem State.Inv.grpArrive {g : Nat} {rel : Rel} (h : s.Inv) : (s.grpArrive lid tid g rel).Inv := h.modLaunch

/-! ## Stage rings -/

section
variable {i : Instr} {r : Nat}

theorem keeps_scrambleRing : Keeps (scrambleRing coh r) :=
  keeps_drawM.bind fun _ => keeps_drawM.bind fun _ => keeps_modify fun _ h => h.modCohort

theorem keeps_getSp : Keeps (getSp e) := fun _ h => h

theorem keeps_isBroken : Keeps (isBroken e r) := fun _ h => h

theorem keeps_ringChecks : Keeps (ringChecks e i r) := by
  unfold ringChecks
  extract_lets rest checked
  have hr : ∀ u, Keeps (rest u) := fun _ => by
    unfold rest
    split
    · exact keeps_pure
    · exact keeps_getSp.bind fun _ => .ite keeps_throw keeps_pure
  have hc : ∀ u, Keeps (checked u) := fun _ => keeps_check hr
  split
  · exact keeps_check hc
  · exact hc ()

theorem keeps_ringCan : Keeps (ringCan e i r) :=
  keeps_isBroken.bind fun _ => .ite (keeps_pickM.bind fun _ => keeps_pure) (keeps_getSp.bind fun _ => keeps_pure)

theorem State.Inv.ringPut {o : Ord} {own carried : List Rel} {ws : List (Nat × List Byte)} (h : s.Inv) :
    (s.ringPut coh o own carried ws).2.Inv :=
  List.foldlRecOn (motive := fun x : Ord × State => x.2.Inv) ws _ h fun _ ht _ _ => (ht.same (by rfl)).setSp

theorem keeps_ringDo : Keeps (ringDo e i r) := by
  unfold ringDo
  refine keeps_isBroken.bind fun _ => Keeps.when keeps_scrambleRing fun _ => keeps_getSp.bind fun _ => keeps_getTh.bind fun _ =>
    Keeps.bind (keeps_modify fun s h => ?_) fun _ => ?_
  · dsimp only
    split
    · exact h.ringPut.modThread.setOrd.modCohort
    · exact h.ringPut.modThread.setOrd.modWarp
    · exact h.ringPut.modThread.setOrd
  · split
    · exact keeps_pure
    · exact .ite keeps_scrambleRing keeps_pure

theorem State.Inv.ringRetest (h : s.Inv) : (s.ringRetest r tid).2.Inv := by
  unfold State.ringRetest
  split
  · exact h
  · split
    · exact h
    · next e _ =>
      extract_lets src th test
      have hs : Good (test s) := keeps_ringChecks.bind (fun _ => .ite keeps_pure keeps_ringCan) s h
      split
      · next hx => exact hs.inv hx
      · next hx =>
        have h1 := (hs.inv hx).modThread (tid := tid) (f := fun t => { t with status := .ready })
        exact h1.endOp (keeps_ringDo.bind (fun _ => keeps_pure) _ h1)
      · next hx => exact (hs.inv_error hx).modThread.takeFault

theorem State.Inv.ringFirst {ts : List Nat} (h : s.Inv) : (s.ringFirst r ts).2.Inv := by
  induction ts generalizing s with
  | nil => exact h
  | cons t rest ih =>
    unfold State.ringFirst
    split
    · next hx => exact h.ringRetest.at hx
    · next hx => exact ih (h.ringRetest.at hx)

theorem State.Inv.ringServe {fuel : Nat} (h : s.Inv) : (s.ringServe coh r fuel).Inv := by
  induction fuel generalizing s with
  | zero => exact h
  | succ n ih =>
    unfold State.ringServe
    split
    · next hx => exact ih (h.ringFirst.at hx)
    · next hx => exact h.ringFirst.at hx

theorem State.Inv.ringWake (h : s.Inv) : (s.ringWake coh r).Inv := h.ringServe

theorem keeps_ringTry : Keeps (ringTry e i r) :=
  keeps_ringCan.bind fun _ => .ite
    (keeps_ringDo.bind fun _ => (keeps_modify fun _ h => h.ringWake).bind fun _ => keeps_pure)
    (keeps_modTh.bind fun _ => keeps_pure)

theorem keeps_ringBody : Keeps (ringBody i r e) := by
  unfold ringBody
  refine keeps_ringChecks.bind fun _ => (keeps_modify fun _ h => h.modCohort).bind fun _ => ?_
  split
  · exact keeps_tokenStop
  · exact keeps_ringTry

theorem State.Inv.ringStore {x : Nat} {before : Sparse 8} (h : s.Inv) : (s.ringStore coh r x n before).Inv := by
  unfold State.ringStore
  split
  · exact h
  · extract_lets waits breach s1 s2
    have h1 : s1.Inv := .ite h.modCohort h
    have h2 : s2.Inv := by
      unfold s2
      split
      · have hs := keeps_scrambleRing (coh := coh) (r := r) s1 h1
        split
        · next hx => exact hs.inv hx
        · next hx => exact hs.inv_error hx
      · exact h1
    exact .ite h1 h2.ringWake

end

theorem State.Inv.putSp {x : Nat} {bs : List Byte} (h : s.Inv) : (s.putSp coh x bs).Inv :=
  h.setSp.foldl fun _ _ ht => ht.ringStore

theorem State.Inv.writeSp {x : Nat} {bs : List Byte} {view : List Nat} {rels : List Rel} (h : s.Inv) :
    (s.writeSp coh x bs view rels).Inv := h.logMsg.putSp

end
end Sys2Proof.Machine
end

section
/-! SUPPORT. The canonical form through the plane engine, the stash, and the accesses of threads (R211 to R225, R235 to R240,
R357 to R362). -/

namespace Sys2Proof.Machine

section
variable {s : State} {α : Type} {n k tid coh lid cid key core sec slot pid st : Nat} {e : Env} {w : Who} {a : Access} {p : Place}
  {pc : VAddr} {ptr : Dword} {ctx : Ctx} {acq rel : Option Scope} {cl : Bool}

/-! ## The plane engine -/

theorem State.Inv.mixUnits {us : List Nat} {o : Ord} {sp : Sparse 8} (h : s.Inv) : (mixUnits coh us o sp s).2.Inv :=
  List.foldlRecOn (motive := fun x : Sparse 8 × State => x.2.Inv) us _ h fun _ ht u _ =>
    ht.observe (o := o) (own := []) (acq := fun _ => none) (key := spKey coh (16 * u)) (cur := sread sp (16 * u) 16)

theorem State.Inv.accstUnits {off : Nat} {out : List Byte} {us : List Nat} {o : Ord} (h : s.Inv) :
    (accstUnits coh off out us o s).2.Inv := by
  refine List.foldlRecOn (motive := fun x : Ord × State => x.2.Inv) us _ h fun x hx u _ => ?_
  dsimp only
  exact State.Inv.putSp hx.placeWrite

theorem keeps_matrixIssue {i : Instr} {ps : List Env} : Keeps (matrixIssue i ps) := by
  intro s h
  unfold matrixIssue
  split
  · exact h
  · extract_lets off c
    split
    · exact h
    · exact h.freshId.modCohort.foldl fun _ _ ht => ht.modThread

theorem State.Inv.computeMatrix (h : s.Inv) : (s.computeMatrix coh).Inv := by
  unfold State.computeMatrix
  split
  · exact h
  · split
    · exact h
    · exact h.mixUnits.modCohort.accstUnits.modCohort

theorem State.Inv.retireMatrix (h : s.Inv) : (s.retireMatrix coh).Inv := by
  unfold State.retireMatrix
  split
  · refine h.modCohort.withThreads (rising_mapVals h.modCohort.threads fun _ => ?_)
    split
    · rfl
    · split <;> rfl
  · exact h

theorem formed_matrixRetire (h : s.Inv) : Formed (execMatrixRetire coh s) := by
  unfold execMatrixRetire
  split
  · exact h
  · exact State.Inv.retireMatrix (.ite h h.computeMatrix)

/-! ## The stash -/

theorem keeps_fillChecks : Keeps (fillChecks w a ptr p n) := by
  induction n generalizing ptr p with
  | zero => exact keeps_pure
  | succ n ih =>
    unfold fillChecks
    exact keeps_get.bind fun _ => keeps_check fun _ => Keeps.when keeps_checkWatch fun _ => keeps_check fun _ =>
      keeps_checkTag.bind fun _ => keeps_linkNeedM.bind fun _ => keeps_check fun _ => ih

theorem keeps_fillLine {line : Nat} {r : Walked} : Keeps (fillLine e line ptr a r) :=
  keeps_placeOf.bind fun _ => keeps_fillChecks.bind fun _ => keeps_readMemM.bind fun _ =>
    (keeps_modify fun _ h => h.modCohort).bind fun _ => keeps_pure

theorem State.Inv.flushLines {sel : Nat → Bool} {drop : Bool} (h : s.Inv) : (s.flushLines coh sel drop).Inv := by
  unfold State.flushLines
  split
  · exact h
  · exact h.writeBack.modCohort

theorem State.Inv.dropLine {line : Nat} {write : Bool} (h : s.Inv) : (s.dropLine coh line write).Inv := h.flushLines

theorem keeps_stashLine {off : Nat} {sl : StashSlot} {store : Bool} : Keeps (stashLine e off n sl store) := by
  unfold stashLine
  refine keeps_get.bind fun _ => ?_
  split
  · exact keeps_walkFor.bind fun _ => keeps_fillLine
  · exact keeps_walkFor.bind fun _ => keeps_get.bind fun _ => .ite
      ((keeps_modify fun _ h => h.dropLine).bind fun _ => keeps_fillLine)
      (keeps_placeOf.bind fun _ => keeps_checkFrom4.bind fun _ => .ite keeps_pure keeps_throw)

theorem State.Inv.recallOthers {line : Nat} (h : s.Inv) : (s.recallOthers coh line key n).Inv := by
  unfold State.recallOthers
  split
  · exact h.recall
  · exact h.modCohort.recall.modCohort

theorem keeps_readLocal {x : LPlace} : Keeps (readLocal e acq x n) := by
  unfold readLocal
  split
  · exact keeps_get.bind fun _ => keeps_seeM
  · exact keeps_stashLine.bind fun _ => keeps_seeM

theorem keeps_storeLine {line i : Nat} {l : StashLine} {bs : List Byte} : Keeps (storeLine e rel line i l bs) :=
  keeps_get.bind fun _ => keeps_placeM.bind fun _ => keeps_modify fun _ h => h.recallOthers.modCohort

theorem keeps_storeSp {x : Nat} {bs : List Byte} : Keeps (storeSp e rel x bs) :=
  keeps_get.bind fun _ => keeps_placeM.bind fun _ => keeps_modify fun _ h => h.putSp

theorem keeps_writeLocal {x : LPlace} {bs : List Byte} : Keeps (writeLocal e rel x bs) := by
  unfold writeLocal
  split
  · exact keeps_storeSp
  · exact keeps_stashLine.bind fun _ => keeps_storeLine

/-! ## Loads -/

theorem keeps_alignCheck {x acc : Nat} : Keeps (alignCheck x n ptr acc) := .ite keeps_pure keeps_throw

theorem keeps_finishLoad {dests : List (Reg × Word)} {preds : List (Nat × Bool)} {fault : Option FaultInfo}
    {src : List Access} : Keeps (finishLoad e dests preds fault src) := by
  unfold finishLoad
  extract_lets o rest
  have hr : ∀ u, Keeps (rest u) := fun _ => keeps_pure
  split
  · split
    · exact keeps_throw.bind hr
    · exact keeps_modTh.bind hr
  · exact (keeps_modify fun _ h => h.freshId.modThread).bind hr

theorem keeps_absentLoad {dests : List (Reg × Word)} {resid : BitVec 8} : Keeps (absentLoad e a dests resid) :=
  .ite keeps_finishLoad keeps_throw

theorem keeps_readMine : Keeps (readMine e acq key n) := keeps_readSeenM.bind fun _ => keeps_pure

theorem keeps_elementOf {dr : Except FaultInfo (Option Desc)} {hi : Bool} : Keeps (elementOf a dr hi) :=
  keeps_formatCheck.bind fun _ => keeps_check fun _ => keeps_pure

theorem keeps_elementAccess {store : Bool} : Keeps (elementAccess e ptr store) := by
  unfold elementAccess
  refine keeps_checkTo3.bind fun _ => keeps_descFor.bind fun _ => ?_
  split <;> exact keeps_pure

theorem keeps_loadElement {dr : Except FaultInfo (Option Desc)} {hi : Bool} : Keeps (loadElement e a p dr hi) := by
  unfold loadElement
  refine keeps_checkFrom4.bind fun _ => .ite (keeps_elementOf.bind fun _ => (keeps_readScale fun _ _ => keeps_readSeenM).bind
    fun _ => ?_) keeps_pure
  split
  · exact keeps_pure
  · exact keeps_pure
  · exact keeps_linkNeedM.bind fun _ => .ite keeps_pure keeps_pure

theorem keeps_localPlaceM {x : Word} {acc : Nat} : Keeps (localPlaceM e x n acc) := by
  unfold localPlaceM
  refine keeps_alignCheck.bind fun _ => keeps_get.bind fun _ => ?_
  split
  · exact keeps_throw
  · split
    · exact .ite keeps_pure keeps_pure
    · exact keeps_pure

theorem keeps_overLocal {x : LPlace} {b : List Byte} : Keeps (overLocal e x b) := by
  intro s h
  unfold overLocal
  split
  · exact h
  · split <;> exact h

section
variable {hd : Hdr} {sz : MSize} {sgn hi w64 : Bool} {ty : TTy} {rnd : Rnd} {d x b : Reg} {off : MemOff} {resid : BitVec 8}

theorem formed_ld (h : s.Inv) : Formed (execLd hd sz sgn acq d x off resid s) := formed_threadOp h fun e => by
  refine .ite keeps_pure (keeps_clampOpt.bind fun c => keeps_alignCheck.bind fun _ => keeps_checkTo3.bind fun p =>
    .ite keeps_tokenStop (keeps_checkFrom4.bind fun here => keeps_branch keeps_linkNeedM keeps_pure fun _ => ?_))
  exact .ite keeps_absentLoad (.ite (keeps_setClamp.bind fun _ => keeps_finishLoad)
    (keeps_setClamp.bind fun _ => keeps_readMine.bind fun _ => keeps_finishLoad))

theorem formed_ldt (h : s.Inv) : Formed (execLdt hd ty rnd hi acq d x off resid s) := formed_threadOp h fun e => by
  refine .ite keeps_pure (keeps_clampOpt.bind fun _ => keeps_elementAccess.bind fun _ => .ite keeps_tokenStop
    (keeps_loadElement.bind fun _ => ?_))
  split
  · exact keeps_absentLoad
  · exact keeps_setClamp.bind fun _ => keeps_finishLoad
  · exact keeps_setClamp.bind fun _ => keeps_readMine.bind fun _ => keeps_modTh.bind fun _ => keeps_finishLoad

theorem formed_ldl (h : s.Inv) : Formed (execLdl hd sz sgn acq d x off s) := formed_threadOp h fun e => by
  refine .ite keeps_pure (keeps_clampOpt.bind fun _ => keeps_localPlaceM.bind fun _ => ?_)
  split
  · exact keeps_pure
  · exact keeps_readLocal.bind fun _ => keeps_overLocal.bind fun _ => keeps_setClamp.bind fun _ => keeps_finishLoad

/-! ## Stores -/

theorem keeps_bufferM {x : BufStore} : Keeps (bufferM e x) := keeps_modTh

theorem keeps_storeSeen {bs : List Byte} : Keeps (storeSeen e rel key bs) :=
  keeps_linkNeedM.bind fun _ => .ite (keeps_modify fun _ h => h.stopPartition) keeps_writeSeenM

theorem keeps_storeMine {bs : List Byte} : Keeps (storeMine e rel key bs) := .ite keeps_bufferM keeps_storeSeen

theorem formed_st (h : s.Inv) : Formed (execSt hd sz rel x off b s) := formed_threadOp h fun _ =>
  keeps_clampOpt.bind fun _ => keeps_alignCheck.bind fun _ => keeps_checkTo3.bind fun _ => .ite keeps_tokenStop
    (keeps_checkFrom4.bind fun _ => .ite (keeps_storeMine.bind fun _ => keeps_setClamp.bind fun _ => keeps_pure) keeps_throw)

theorem formed_stl (h : s.Inv) : Formed (execStl hd sz rel x off b s) := formed_threadOp h fun e => by
  refine keeps_clampOpt.bind fun r => keeps_localPlaceM.bind fun q => ?_
  dsimp only
  split
  · exact keeps_pure
  · refine .ite ?_ (keeps_writeLocal.bind fun _ => keeps_setClamp.bind fun _ => keeps_pure)
    split
    · exact keeps_bufferM.bind fun _ => keeps_setClamp.bind fun _ => keeps_pure
    · exact keeps_stashLine.bind fun _ => keeps_bufferM.bind fun _ => keeps_setClamp.bind fun _ => keeps_pure

theorem keeps_elementBytes {ds : Desc} {c : Nat} : Keeps (elementBytes e ds key hi c) :=
  .ite (keeps_readMine.bind fun _ => keeps_pure) keeps_pure

theorem formed_stt (h : s.Inv) : Formed (execStt hd ty rnd hi rel x off b s) := formed_threadOp h fun e => by
  refine keeps_clampOpt.bind fun _ => keeps_elementAccess.bind fun _ => .ite keeps_tokenStop
    (keeps_checkFrom4.bind fun _ => .ite ?_ keeps_throw)
  refine keeps_elementOf.bind fun _ => (keeps_readScale fun _ _ => keeps_readSeenM).bind fun _ => keeps_scaleGet.bind fun _ => ?_
  exact keeps_elementBytes.bind fun _ => keeps_storeMine.bind fun _ => keeps_setClamp.bind fun _ => keeps_modTh.bind fun _ =>
    keeps_pure

theorem keeps_commitOne {x : BufStore} : Keeps (commitOne e x) := by
  refine keeps_get.bind fun _ => .ite keeps_storeSp ?_
  split
  · exact .ite keeps_storeLine keeps_storeSeen
  · exact keeps_storeSeen

theorem State.Inv.commitStores (h : s.Inv) : (s.commitStores tid).Inv := by
  unfold State.commitStores
  split
  · exact h
  · next e _ =>
    refine .ite h ?_
    have hs := keeps_forM (l := e.th.commits) (fun x => keeps_commitOne (e := e) (x := x)) _
      (h.modThread (tid := tid) (f := fun t => { t with commits := [] }))
    dsimp only
    split
    · next hx => exact hs.inv hx
    · next hx => exact hs.inv_error hx

/-! ## Atomics -/

theorem keeps_atomStep {op : AtomOp} {b c : Nat} {ret : Bool} : Keeps (atomStep e w64 sgn op acq rel ptr b c ret) := by
  refine keeps_alignCheck.bind fun _ => keeps_checkPlace.bind fun _ => keeps_linkNeedM.bind fun _ => .ite ?_
    (keeps_rmwM.bind fun _ => keeps_pure)
  exact Keeps.when (keeps_modify fun _ h => h.stopPartition) fun _ => keeps_pure

theorem formed_atom {op : AtomOp} {ord : AtomOrd} {sc : Scope} (h : s.Inv) :
    Formed (execAtom hd w64 sgn op ord sc d x off b s) := formed_threadOp h fun e => by
  refine .ite keeps_pure (.ite (keeps_tokenStop.bind fun _ => keeps_pure) (keeps_clampOpt.bind fun _ =>
    keeps_atomStep.bind fun _ => keeps_setClamp.bind fun _ => ?_))
  dsimp only
  split
  · exact keeps_pure
  · exact keeps_finishLoad
  · exact keeps_finishLoad

theorem formed_red {op : AtomOp} (h : s.Inv) : Formed (execRed hd w64 sgn op rel x off b s) := formed_threadOp h fun _ =>
  .ite (keeps_tokenStop.bind fun _ => keeps_pure) (keeps_clampOpt.bind fun _ => keeps_atomStep.bind fun _ =>
    keeps_setClamp.bind fun _ => keeps_pure)

/-! ## Page requests, code flushes, tags -/

theorem State.Inv.fqRdidx (h : s.Inv) : (s.fqRdidx cid ctx).2.Inv := by
  unfold State.fqRdidx
  split <;> next hx => exact h.agentRead.at hx

theorem State.Inv.requested {page : Nat} (h : s.Inv) : (s.requested cid ctx page).2.Inv := h.fqRdidx

theorem formed_pgreq {y : BitVec 8} (h : s.Inv) : Formed (execPgreq hd x y s) := formed_threadOp h fun _ =>
  keeps_checkTo3.bind fun _ => Keeps.when
    (keeps_modify fun _ h => .ite h.fqRdidx h.fqRdidx.modThread.queuePost) fun _ => keeps_pure

theorem State.Inv.flushCode {clusters known : List Nat} {va : Nat} (h : s.Inv) :
    (s.flushCode cid clusters known va n).Inv := h.same (by rfl)

theorem formed_cflush {sc : Scope} (h : s.Inv) : Formed (execCflush hd sc x b s) := formed_threadOp h fun _ =>
  keeps_clampScope.bind fun _ => keeps_check fun _ => Keeps.when (keeps_modify fun _ h => h.flushCode) fun _ =>
    keeps_setClamp.bind fun _ => keeps_pure

theorem keeps_tagPlace {ptr' : Dword} {store : Bool} : Keeps (tagPlace w ptr ptr' store) :=
  keeps_checkTo3.bind fun _ => keeps_checkWatch.bind fun _ => keeps_check fun _ => keeps_pure

theorem formed_tagld (h : s.Inv) : Formed (execTagld hd d x off s) := formed_threadOp h fun _ =>
  .ite keeps_pure (keeps_tagPlace.bind fun _ => keeps_branch keeps_seeTag keeps_pure fun _ => keeps_finishLoad)

theorem keeps_tagPlaces {first : Dword} : Keeps (tagPlaces w ptr n first) := by
  induction n generalizing ptr first with
  | zero => exact keeps_pure
  | succ n ih => exact keeps_tagPlace.bind fun _ => ih.bind fun _ => keeps_pure

theorem State.Inv.withTags {m : Sparse 4} (h : s.Inv) (hm : m.wf = true) : State.Inv { s with tags := m } :=
  ⟨h.mem, hm, h.threads, h.cohorts⟩

theorem State.Inv.storeTags {ks : List Nat} {v : BitVec 4} (h : s.Inv) : (storeTags tid ks v s).Inv := by
  refine State.Inv.setOrd (List.foldlRecOn (motive := fun x : List Nat × State => x.2.Inv) ks _ h fun x hx k _ => ?_)
  split
  next hy =>
    have hp := hx.placeWrite.at_snd hy
    exact (hp.withTags (wf_sset _ _ hp.tags)).noteMade

theorem formed_tagst (h : s.Inv) : Formed (execTagst hd x off b s) := formed_threadOp h fun _ =>
  keeps_check fun _ => keeps_tagPlaces.bind fun _ => (keeps_modify fun _ h => h.storeTags).bind fun _ => keeps_pure

end
end
end Sys2Proof.Machine
end

section
/-! SUPPORT. The canonical form through waits, control flow, the placement of cohorts, walkers and completion (R29, R54, R63 to
R92, R363 to R376, R384 to R405). -/

namespace Sys2Proof.Machine

section
variable {s t : State} {α : Type} {n k tid coh lid cid key core sec slot pid st : Nat} {e : Env} {w : Who} {p : Place}
  {pc : VAddr} {ptr : Dword} {ctx : Ctx} {hd : Hdr} {sc : Scope} {i : Instr} {l : Launch}

/-! ## Waits -/

theorem keeps_passInto {x : TStatus} : Keeps (passInto e i x) := keeps_modTh.bind fun _ => keeps_pure

theorem State.Inv.deliver {long : Bool} {f : FaultInfo} (h : s.Inv) : (s.deliver e long n f).Inv := h.modThread.takeFault

theorem formed_waitc {cls : CtrClass} {x : BitVec 5} (h : s.Inv) : Formed (execWaitc hd cls x s) := by
  unfold execWaitc
  refine formed_guarded h fun e => ?_
  split
  · exact h
  · exact h.modThread
  · exact h.deliver
  · exact h.modWarp.setThread

theorem formed_fence (h : s.Inv) : Formed (execFence hd sc s) := formed_threadOp h fun _ =>
  keeps_clampScope.bind fun _ => (keeps_modify fun _ h => h.fenceBy).bind fun _ => keeps_setClamp.bind fun _ => keeps_pure

theorem formed_bar {arv : Bool} {b : BitVec 8} {m : Reg} (h : s.Inv) : Formed (execBar hd sc arv b m s) := by
  refine formed_threadOp h fun e => keeps_clampScope.bind fun _ => ?_
  refine keeps_check fun _ => .ite keeps_pure (.ite (keeps_tokenStop.bind fun _ => keeps_pure) (keeps_check fun _ => ?_))
  exact keeps_setClamp.bind fun _ => keeps_departM.bind fun _ => keeps_releaseM.bind fun _ =>
    (keeps_modify fun _ h => h.barArrive.barCheck).bind fun _ => keeps_pure

theorem formed_barGrp {arv : Bool} {g : BitVec 8} (h : s.Inv) : Formed (execBarGrp hd sc arv g s) := by
  refine formed_threadOp h fun e => keeps_clampScope.bind fun _ => keeps_check fun _ => ?_
  refine .ite keeps_pure (.ite (keeps_tokenStop.bind fun _ => keeps_pure) ?_)
  exact keeps_setClamp.bind fun _ => keeps_departM.bind fun _ => keeps_releaseM.bind fun _ =>
    (keeps_modify fun _ h => h.grpArrive.grpCheck).bind fun _ => keeps_pure

theorem keeps_awaitRead {x : AwaitSpec} : Keeps (awaitRead e x) := by
  unfold awaitRead
  refine keeps_alignCheck.bind fun _ => .ite ?_ ?_
  · exact keeps_check fun _ => keeps_check fun _ => keeps_get.bind fun _ => keeps_seeIfM.bind fun _ => keeps_pure
  · exact keeps_checkRead.bind fun _ => keeps_readMemM.bind fun _ => keeps_seeIfM.bind fun _ => keeps_pure

theorem keeps_awaitEnd {x : AwaitSpec} {v : Dword} : Keeps (awaitEnd e x v) :=
  keeps_setClamp.bind fun _ => keeps_modTh.bind fun _ => keeps_pure

theorem keeps_awaitTry {x : AwaitSpec} : Keeps (awaitTry e x) :=
  keeps_awaitRead.bind fun _ => .ite keeps_awaitEnd (keeps_modTh.bind fun _ => keeps_pure)

theorem keeps_awaitShared {x : AwaitSpec} : Keeps (awaitShared e x) :=
  .ite keeps_pure (keeps_alignCheck.bind fun _ => keeps_checkTo3.bind fun _ => keeps_pure)

theorem formed_await {loc w64 : Bool} {cmp : AwaitCmp} {d a b : Reg} (h : s.Inv) :
    Formed (execAwait hd loc w64 cmp sc d a b s) := by
  refine formed_threadOp h fun e => keeps_clampScope.bind fun _ => .ite (keeps_awaitShared.bind fun _ => ?_) keeps_awaitTry
  exact .ite (keeps_tokenStop.bind fun _ => keeps_pure) keeps_awaitTry

theorem State.Inv.rereadSaved {x : AwaitSpec} (h : s.Inv) : (s.rereadSaved e x).Inv := by
  unfold State.rereadSaved
  split
  next hx =>
    have ht := State.Inv.at (by split <;> exact h.keepDraws) hx
    exact .ite ht.modThread ht

theorem formed_awaitReread (h : s.Inv) : Formed (execAwaitReread tid s) := by
  unfold execAwaitReread
  split
  · exact h
  · split
    · split
      · exact h
      · split
        · exact h.rereadSaved
        · exact h.modThread.endOp (keeps_awaitTry _ h.modThread)
    · exact h

theorem formed_backoffImm {x : BitVec 12} (h : s.Inv) : Formed (execBackoffImm hd x s) :=
  formed_threadOp h fun _ => keeps_passInto

theorem formed_backoffReg {a : Reg} (h : s.Inv) : Formed (execBackoffReg hd a s) :=
  formed_threadOp h fun _ => .ite keeps_pure keeps_passInto

theorem formed_backoffExpiry (h : s.Inv) : Formed (execBackoffExpiry tid s) := h.modThread

theorem formed_rpost {r : BitVec 3} {a : Reg} (h : s.Inv) : Formed (execRpost hd r a s) :=
  formed_threadOp h fun _ => keeps_ringBody

theorem formed_rtake {r : BitVec 3} {a : Reg} (h : s.Inv) : Formed (execRtake hd r a s) :=
  formed_threadOp h fun _ => keeps_ringBody

theorem formed_setctl {r : BitVec 3} {a : Reg} (h : s.Inv) : Formed (execSetctl hd r a s) :=
  formed_threadOp h fun _ => keeps_ringBody

/-! ## Control flow -/

theorem keeps_pairTarget {v : Dword} : Keeps (pairTarget v) := .ite keeps_pure keeps_throw

theorem keeps_branchTo : Keeps (branchTo e pc) := keeps_targetLine.bind fun _ => keeps_check fun _ => keeps_pure

theorem formed_braRel {off : BitVec 24} (h : s.Inv) : Formed (execBraRel hd off s) := formed_threadOp h fun _ => keeps_branchTo

theorem formed_braLong (h : s.Inv) : Formed (execBraLong hd pc s) := formed_threadOp h fun _ => keeps_branchTo

theorem formed_brx {a : Reg} (h : s.Inv) : Formed (execBrx hd a s) :=
  formed_threadOp h fun _ => keeps_pairTarget.bind fun _ => keeps_branchTo

theorem keeps_pushReturn {target : Dword} : Keeps (pushReturn e pc target) := by
  unfold pushReturn
  exact keeps_getTh.bind fun _ => .ite keeps_modTh (keeps_check fun _ => keeps_checkPlace.bind fun _ =>
    keeps_storeMine.bind fun _ => keeps_modTh)

theorem keeps_callTarget {cls : Option Nat} : Keeps (callTarget e pc cls) := by
  unfold callTarget
  refine keeps_targetLine.bind fun _ => ?_
  split
  split
  · refine keeps_check fun _ => ?_
    extract_lets rest entered
    have hr : ∀ u, Keeps (entered u) := fun _ => keeps_check fun _ => keeps_pure
    split
    · exact keeps_check hr
    · exact hr ()
  · refine keeps_check fun _ => ?_
    extract_lets rest entered
    have hr : ∀ x, Keeps (entered x) := fun _ => keeps_check fun _ => keeps_pure
    exact .ite (keeps_pure.bind hr) (keeps_persHeader.bind fun _ => keeps_pure.bind hr)

theorem keeps_callTo {long : Bool} {cls : Option Nat} : Keeps (callTo e long pc cls) :=
  keeps_callTarget.bind fun _ => keeps_pushReturn.bind fun _ => keeps_pure

theorem formed_callRel {off : BitVec 24} (h : s.Inv) : Formed (execCallRel hd off s) := formed_threadOp h fun _ => keeps_callTo

theorem formed_callLong (h : s.Inv) : Formed (execCallLong hd pc s) := formed_threadOp h fun _ => keeps_callTo

theorem formed_callx {cls : BitVec 8} {a : Reg} (h : s.Inv) : Formed (execCallx hd cls a s) :=
  formed_threadOp h fun _ => keeps_pairTarget.bind fun _ => keeps_callTo

theorem keeps_entryPc {v x : Dword} : Keeps (entryPc v x) := .ite keeps_pure keeps_throw

theorem formed_ret (h : s.Inv) : Formed (execRet hd s) := formed_threadOp h fun e => by
  split
  · exact keeps_entryPc.bind fun _ => keeps_modTh.bind fun _ => keeps_pure
  · exact keeps_check fun _ => keeps_checkRead.bind fun _ => keeps_readMine.bind fun _ => keeps_entryPc.bind fun _ =>
      keeps_modTh.bind fun _ => keeps_pure

theorem formed_exit (h : s.Inv) : Formed (execExit hd s) := formed_guarded h fun e => by
  split
  · exact h
  · exact h.modThread
  · exact .ite h h.deliver
  · exact .ite h (.ite h.modThread h.modThread)

theorem formed_skip {x : BitVec 3} (h : s.Inv) : Formed (execSkip hd x s) := by
  unfold execSkip
  dsimp only
  split
  · trivial
  · split
    · exact h.takeFault
    · exact h.setThread

theorem formed_trap {x : BitVec 8} (h : s.Inv) : Formed (execTrap hd x s) := formed_threadOp h fun _ => keeps_userTrap

theorem formed_bpt (h : s.Inv) : Formed (execBpt hd s) := formed_threadOp h fun _ => keeps_userTrap

theorem formed_gret (h : s.Inv) : Formed (execGret hd s) :=
  formed_threadOp h fun _ => keeps_check fun _ => keeps_modTh.bind fun _ => keeps_pure

theorem formed_tret (h : s.Inv) : Formed (execTret hd s) :=
  formed_threadOp h fun _ => keeps_check fun _ => keeps_modTh.bind fun _ => keeps_pure

theorem formed_pdone (h : s.Inv) : Formed (execPdone hd s) := formed_threadOp h fun e => by
  refine keeps_check fun _ => keeps_get_bind fun s h => ?_
  exact (keeps_set h.agentRead).bind fun _ => keeps_modTh.bind fun _ => keeps_modTh.bind fun _ => keeps_pure

/-! ## Cohorts -/

theorem State.Inv.chooseQuarters {free : List Nat} (h : s.Inv) : (chooseQuarters free n s).2.Inv := by
  induction n generalizing free s with
  | zero => exact h
  | succ n ih => exact ih h.pick

theorem State.Inv.joinRotation {qs : List Nat} (h : s.Inv) : (s.joinRotation core lid qs).Inv := h.same (by rfl)

theorem State.Inv.place (h : s.Inv) : (s.place coh core).Inv := by
  unfold State.place
  split
  · exact h
  · exact (h.chooseQuarters.foldl fun _ _ ht => ht.modWarp).modCohort.joinRotation

theorem rising_foldl_aset {α β : Type} {m : Assoc α} {xs : List β} {f : β → Nat} {g : β → α} (r : rising 0 m = true) :
    rising 0 (xs.foldl (fun m x => aset m (f x) (g x)) m) = true :=
  List.foldlRecOn (motive := fun m => rising 0 m = true) xs _ r fun _ ht _ _ => rising_aset _ ht (Nat.zero_le _)

theorem State.Inv.createCohort {index logical : Nat} {coord : List Nat} {binfire : Dword} {sp : Sparse 8} {view : List Nat}
    (h : s.Inv) : (s.createCohort lid core index logical coord binfire sp view).Inv := by
  unfold State.createCohort
  split
  · exact h
  · refine State.Inv.modLaunch (State.Inv.place ?_)
    exact ⟨h.mem, h.tags, rising_foldl_aset h.threads, rising_aset _ h.cohorts (Nat.zero_le _)⟩

/-! ## Walkers -/

theorem State.Inv.emit {x : Walker} (h : s.Inv) : (s.emit x).Inv := .ite (h.same (by rfl)) (State.Inv.same h (by rfl)).refillSlot

theorem State.Inv.handOut {x : PendRange} (h : s.Inv) : (s.handOut lid x).Inv := h.modLaunch

theorem State.Inv.divide (h : s.Inv) : (s.divide lid).Inv := by
  unfold State.divide
  split
  · exact h
  · exact h.foldl fun _ _ ht => .ite ht.modLaunch.loadRange ht.modLaunch

theorem State.Inv.takeIndex (h : s.Inv) : (s.takeIndex lid n).Inv := by
  unfold State.takeIndex
  split
  · exact h.emit
  · split
    · exact h
    · split
      · exact h.handOut
      · dsimp only
        split
        · exact h.loadRange.emit
        · exact h.loadRange

theorem State.Inv.splitWalker {x : Walker} {grain : Nat} (h : s.Inv) : (s.splitWalker x grain sec slot core).Inv :=
  h.same (by rfl)

theorem State.Inv.localSplit {grain : Nat} (h : s.Inv) (ht : s.localSplit core lid grain = some t) : t.Inv := by
  unfold State.localSplit at ht
  dsimp only at ht
  split at ht
  · split at ht
    · cases ht
      exact h.splitWalker
    · cases ht
  · cases ht

theorem State.Inv.farSplit (h : s.Inv) (ht : s.farSplit core lid l = some t) : t.Inv := by
  unfold State.farSplit at ht
  dsimp only at ht
  split at ht
  · split at ht
    · cases ht
      exact h.splitWalker
    · cases ht
  · cases ht

theorem State.Inv.serveWork (h : s.Inv) (ht : s.serveWork core lid l = some t) : t.Inv := by
  unfold State.serveWork at ht
  dsimp only at ht
  split at ht
  · cases ht
    exact h.loadRange
  · cases ht
  · split at ht
    · exact h.farSplit ht
    · exact h.localSplit ht

theorem State.Inv.serveFirst {rs : List WorkReq} (h : s.Inv) : (s.serveFirst rs).Inv := by
  induction rs with
  | nil => exact h
  | cons r rest ih =>
    unfold State.serveFirst
    split
    · next hx =>
      obtain ⟨l, -, hl⟩ := Option.bind_eq_some_iff.mp hx
      exact State.Inv.serveWork (h.same (by rfl)) hl
    · exact ih

theorem State.Inv.serveSection (h : s.Inv) : (s.serveSection sec).Inv := (State.Inv.same h (by rfl)).serveFirst

theorem formed_walkerEmission (h : s.Inv) : Formed (execWalkerEmission core lid s) := by
  unfold execWalkerEmission
  split
  · exact h
  · split
    · exact h
    · split
      · exact h.emit.createCohort
      · exact h

theorem formed_persistentCohortCreate (h : s.Inv) : Formed (execPersistentCohortCreate lid core s) := by
  unfold execPersistentCohortCreate
  split
  · exact h
  · split
    · exact h.createCohort
    · exact h

theorem formed_workRequest (h : s.Inv) : Formed (execWorkRequest core lid s) := by
  unfold execWorkRequest
  split
  · exact h
  · split
    · exact (State.Inv.same h (by rfl)).serveSection
    · exact h

theorem formed_split (h : s.Inv) : Formed (execSplit sec slot core s) := by
  unfold execSplit
  split
  · split
    · exact h
    · extract_lets home donor
      split
      · exact h.serveSection
      · exact h
  · exact h

theorem State.Inv.answer {r : FetchReq} {coord : Option (List Nat)} (h : s.Inv) : (s.answer r coord).Inv :=
  (State.Inv.same h (by rfl)).writeSp

theorem State.Inv.withdraw (h : s.Inv) : (s.withdraw core lid l).2.Inv := by
  unfold State.withdraw
  dsimp only
  split
  · exact h.emit
  · split
    · split
      · exact h.handOut
      · exact h.loadRange.emit
    · split
      · next hs =>
        have ht := h.localSplit hs
        split
        · exact ht.emit
        · exact ht
      · split
        · exact h.emit
        · split
          · exact h.handOut
          · split
            · exact h.emit
            · exact h

theorem State.Inv.serveFetch {r : FetchReq} (h : s.Inv) : (s.serveFetch r).Inv := by
  unfold State.serveFetch
  split
  · exact h
  · split
    · exact h
    · exact .ite h.answer (.ite (.ite h.modLaunch.answer h.answer) (.ite h h.withdraw.answer))

theorem formed_withdrawal (h : s.Inv) : Formed (execWithdrawal n s) := by
  unfold execWithdrawal
  split
  · exact h
  · split
    · exact h.serveFetch
    · exact h

theorem State.Inv.answerFetches (h : s.Inv) : (s.answerFetches lid).Inv := h.foldl fun _ _ ht => ht.serveFetch

theorem State.Inv.saveWalkers (h : s.Inv) : (s.saveWalkers lid).Inv := (State.Inv.same h (by rfl)).modLaunch

theorem State.Inv.restoreWalkers (h : s.Inv) : (s.restoreWalkers lid).Inv := by
  unfold State.restoreWalkers
  split
  · exact h
  · refine h.foldl fun u p hu => ?_
    dsimp only
    split
    · exact hu.modLaunch
    · exact (hu.modLaunch.pick (n := 64)).loadRange

/-! ## Completion -/

theorem State.Inv.setStatus (h : s.Inv) : (s.setStatus lid st).Inv := (State.Inv.same h (by rfl)).modLaunch.refillAll

theorem State.Inv.signal (h : s.Inv) : (s.signal lid).Inv := by
  unfold State.signal
  split
  · exact h
  · extract_lets s1 s2
    have h2 : s2.Inv := by
      unfold s2
      split
      · exact h.same (by rfl)
      · exact h.modLaunch
    split
    · exact .ite h (.ite h2 (.ite h2 (h2.tryAgent keeps_writeVirt)))
    · exact h2
    · exact h

theorem State.Inv.qcbWrite {q : Queue} {o unit : Nat} {bs : List Byte} (h : s.Inv) : (s.qcbWrite q o unit bs).Inv := by
  unfold State.qcbWrite
  split
  · exact h
  · exact .ite h (h.tryAgent keeps_writeVirt)

theorem formed_completionSignalWrite (h : s.Inv) : Formed (execCompletionSignalWrite lid s) := by
  unfold execCompletionSignalWrite
  split
  · exact h
  · split
    · exact h
    · split
      · exact h
      · exact h.setStatus.signal

end
end Sys2Proof.Machine
end

section
/-! SUPPORT. The canonical form through copies, convergence points and collectives (R54 to R56, R241 to R252, R513 to R516). -/

namespace Sys2Proof.Machine

section
variable {s t : State} {α : Type} {n k u tid coh lid cid key core sec slot pid st : Nat} {e : Env} {w : Who} {p : Place}
  {pc : VAddr} {ptr row : Dword} {ctx : Ctx} {hd : Hdr} {sc : Scope} {i : Instr} {l : Launch} {x : CopyEnv} {c : Copy}
  {bs : List Byte} {store : Bool} {d : Desc}

/-! ## The issue of a copy -/

theorem keeps_readCopyDesc {off : Nat} {planes : Bool} : Keeps (readCopyDesc e off planes) := by
  intro s h
  unfold readCopyDesc
  split
  · exact h
  · have hs := keeps_seeM (e := e) (acq := none) (key := spKey e.coh off) (cur := sread (s.spOf e.coh) off 64) s h
    split
    · next hx => exact hs.inv_error hx
    · next hx =>
      split
      · exact hs.inv hx
      · exact hs.inv hx

theorem keeps_startCopy {off : Nat} {planes : Bool} : Keeps (startCopy e off planes) := by
  unfold startCopy
  refine keeps_get_bind fun s h => keeps_check fun _ => .ite keeps_pure (keeps_readCopyDesc.bind fun _ => .ite ?_ ?_)
  · exact (keeps_modify fun _ _ => h.keepDraws).bind fun _ => keeps_pure
  · exact (keeps_modify fun _ ht => (State.Inv.same ht (by rfl)).modThread).bind fun _ => keeps_pure

theorem formed_acpy {a : Reg} (h : s.Inv) : Formed (execAcpy hd a s) := formed_threadOp h fun _ => keeps_startCopy

theorem formed_acpyt {a : Reg} (h : s.Inv) : Formed (execAcpyt hd a s) := formed_threadOp h fun _ => keeps_startCopy

/-! ## The accesses of a copy -/

theorem keeps_copySee : Keeps (copySee x key bs) := fun s h =>
  (h.observe (o := x.ord s) (own := x.e.allInsts) (acq := fun _ => none) (key := key) (cur := bs)).same (by rfl)

theorem keeps_copyPlace {cur : List Byte} : Keeps (copyPlace x key cur bs) := fun s h =>
  (h.placeWrite (o := x.ord s) (own := []) (key := key) (cur := cur) (bs := bs)).same (by rfl)

theorem keeps_copyMem : Keeps (copyMem x key n) := keeps_readMemM.bind fun _ => keeps_copySee

theorem keeps_spRead {a : Nat} : Keeps (spRead x a n) := keeps_get.bind fun _ => keeps_copySee

theorem keeps_spWrite {a : Nat} : Keeps (spWrite x a bs) :=
  keeps_get.bind fun _ => keeps_copyPlace.bind fun _ => keeps_modify fun _ h => h.putSp

theorem keeps_copyStore : Keeps (copyStore x key bs) :=
  keeps_linkNeedM.bind fun _ => .ite (keeps_modify fun _ h => h.stopPartition)
    (keeps_readMemM.bind fun _ => keeps_copyPlace.bind fun _ => keeps_modify fun _ h => h.setMem)

theorem keeps_copyFlags {f : BitVec 7} : Keeps (copyFlags n f) := keeps_modify fun _ h => h.same (by rfl)

theorem keeps_copyRead4 : Keeps (copyRead4 x ptr) := keeps_checkRead.bind fun _ => keeps_copyMem

theorem keeps_copyWrite : Keeps (copyWrite x ptr bs) := keeps_checkPlace.bind fun _ => keeps_copyStore

theorem keeps_putSpBytes {ls : List (Nat × Byte)} : Keeps (putSpBytes x ls) := keeps_forM fun _ => keeps_spWrite

theorem keeps_putMemBytes {ls : List (Nat × Byte)} : Keeps (putMemBytes x ls) := keeps_forM fun _ => keeps_copyStore

theorem keeps_rawUnit : Keeps (rawUnit x u) := by
  unfold rawUnit
  refine .ite ?_ ?_
  · exact (keeps_mapM fun _ => keeps_copyRead4.bind fun _ => keeps_pure).bind fun _ => keeps_putSpBytes
  · extract_lets per r to_
    split
    refine .ite ?_ keeps_pure
    exact .ite (keeps_spRead.bind fun _ => keeps_copyWrite)
      ((keeps_mapM fun _ => keeps_copyRead4).bind fun _ => keeps_pure.bind fun _ => keeps_copyWrite)

theorem keeps_copyPieces : Keeps (copyPieces x ptr n store) := by
  unfold copyPieces
  exact keeps_checkPlace.bind fun _ => .ite (keeps_checkPlace.bind fun _ => keeps_pure) keeps_pure

theorem keeps_copyElem {known : Option Desc} : Keeps (copyElem x ptr n store known) := by
  unfold copyElem
  refine keeps_copyPieces.bind fun ps => ?_
  split
  · exact keeps_throw
  · extract_lets far rest
    have hr : ∀ d, Keeps (rest d) := fun _ => (keeps_mapM fun _ => keeps_elemDesc).bind fun _ => .ite keeps_throw keeps_pure
    split
    · exact keeps_pure.bind hr
    · exact keeps_elemDesc.bind hr

theorem keeps_rowFormat {r : Nat} : Keeps (rowFormat x r row store) := by
  unfold rowFormat
  refine keeps_get.bind fun _ => ?_
  split
  · exact keeps_pure
  · exact keeps_copyElem.bind fun _ => (keeps_modify fun _ h => h.same (by rfl)).bind fun _ => keeps_pure

theorem keeps_rowCheck {log : Nat} : Keeps (rowCheck x row store log d) := .ite keeps_throw keeps_pure

theorem keeps_readPieces' {a : Access} {ps : List (Place × Nat)} : Keeps (readPieces' x a ps) := by
  induction ps with
  | nil => exact keeps_pure
  | cons p t ih =>
    exact keeps_linkNeedM.bind fun _ => keeps_check fun _ => keeps_copyMem.bind fun _ => ih.bind fun _ => keeps_pure

theorem keeps_readElem {kb : Nat} : Keeps (readElem x row d k kb) := by
  unfold readElem
  exact keeps_copyElem.bind fun _ => keeps_check fun _ => (keeps_readScale fun _ _ => keeps_copyMem).bind fun _ =>
    keeps_scaleGet.bind fun _ => keeps_readPieces'.bind fun _ => keeps_pure

theorem keeps_decodeElem {r : Nat} : Keeps (decodeElem x r k) :=
  keeps_rowFormat.bind fun _ => keeps_rowCheck.bind fun _ => keeps_readElem.bind fun _ => keeps_rowCheck.bind fun _ => keeps_pure

theorem keeps_decodeUnit : Keeps (decodeUnit x n u) :=
  (keeps_mapM fun _ => keeps_decodeElem.bind fun _ => keeps_pure).bind fun _ => keeps_putSpBytes.bind fun _ => keeps_copyFlags

theorem keeps_spElem {r : Nat} : Keeps (spElem x r k) := keeps_spRead.bind fun _ => keeps_pure

theorem keeps_blockPlaces : Keeps (blockPlaces x ptr bs n) := by
  induction n generalizing ptr bs with
  | zero => exact keeps_pure
  | succ n ih => exact keeps_checkPlace.bind fun _ => ih.bind fun _ => keeps_pure

theorem keeps_plainCodes {r : Nat} : Keeps (plainCodes x d r k) :=
  keeps_spElem.bind fun _ => .ite (keeps_spElem.bind fun _ => keeps_pure) keeps_pure

theorem keeps_encodeElem {r log : Nat} : Keeps (encodeElem x r k d log) := by
  unfold encodeElem
  refine keeps_copyElem.bind fun _ => keeps_check fun _ => keeps_rowCheck.bind fun _ => .ite keeps_pure (.ite ?_ (.ite ?_
    keeps_pure))
  · exact keeps_plainCodes.bind fun _ => keeps_pure
  · exact (keeps_mapM fun _ => keeps_spElem).bind fun _ => keeps_checkPlace.bind fun _ => keeps_blockPlaces.bind fun _ =>
      keeps_pure

theorem keeps_encodeUnit : Keeps (encodeUnit x n u) := by
  unfold encodeUnit
  exact keeps_rowFormat.bind fun _ => keeps_rowCheck.bind fun _ => (keeps_mapM fun _ => keeps_encodeElem).bind fun _ =>
    keeps_putMemBytes.bind fun _ => (keeps_forM fun _ => keeps_copyStore).bind fun _ => keeps_copyFlags

theorem keeps_planesBlock {v b : Nat} : Keeps (planesBlock x v b) :=
  keeps_rowFormat.bind fun _ => (keeps_mapM fun _ => .ite keeps_pure (keeps_readElem.bind fun _ => keeps_pure)).bind fun _ =>
    keeps_pure

theorem keeps_planesUnit : Keeps (planesUnit x n u) := by
  unfold planesUnit
  refine (keeps_mapM fun _ => (keeps_mapM fun _ => keeps_planesBlock).bind fun _ => keeps_pure).bind fun _ => ?_
  exact (keeps_forM fun _ => keeps_forM fun _ => keeps_putSpBytes).bind fun _ =>
    (keeps_forM fun _ => keeps_putSpBytes).bind fun _ => keeps_copyFlags

theorem keeps_copyUnit : Keeps (copyUnit x n u) :=
  .ite keeps_planesUnit (.ite keeps_rawUnit (.ite keeps_decodeUnit keeps_encodeUnit))

theorem State.Inv.runUnits (h : s.Inv) : (runUnits x u n s).2.Inv := by
  induction n generalizing s with
  | zero => exact h
  | succ n ih =>
    unfold Machine.runUnits
    split
    · exact h
    · let left := ((aget s.copies u).map Copy.left).getD []
      have hp := h.pick (n := left.length)
      have hc := keeps_copyUnit (x := x) (n := u) (u := left.getD (s.pick left.length).1 0) _ hp
      dsimp only
      split
      · next hx => exact ih ((hc.inv hx).same (by rfl))
      · exact hp.keepDraws

/-! ## The ends of a copy -/

theorem State.Inv.runCopy {r : Option FaultInfo} (h : s.Inv) (hx : s.runCopy n = some (c, e, r, t)) : t.Inv := by
  unfold State.runCopy at hx
  obtain ⟨y, -, hy⟩ := Option.map_eq_some_iff.mp hx
  cases hy
  exact h.runUnits

theorem State.Inv.advanceCopy (h : s.Inv) : (s.advanceCopy n).Inv := by
  unfold State.advanceCopy
  split
  · exact h
  · exact h.pick.runUnits

theorem State.Inv.updateComp (h : s.Inv) : (s.updateComp c n bs).Inv := h.logMsg.putSp

theorem State.Inv.endCopy {f : Option FaultInfo} (h : s.Inv) : (s.endCopy c f).Inv := by
  unfold State.endCopy
  extract_lets d c s1
  have h1 : s1.Inv := .ite h h.updateComp
  exact (State.Inv.same h1 (by rfl)).modThread.reap

theorem formed_copyLand (h : s.Inv) : Formed (execCopyLand n s) := by
  unfold execCopyLand
  split
  · next hx => exact (h.runCopy hx).endCopy
  · exact h

theorem formed_copyPark (h : s.Inv) : Formed (execCopyPark n s) := by
  unfold execCopyPark
  split
  · next hx =>
    split
    · exact (State.Inv.same (h.runCopy hx) (by rfl)).queuePost
    · exact h
  · exact h

theorem formed_copyFaultStop (h : s.Inv) : Formed (execCopyFaultStop n s) := by
  unfold execCopyFaultStop
  split
  · next hx =>
    split
    · exact h
    · split
      · exact (h.runCopy hx).freezeEngine
      · exact (h.runCopy hx).endCopy
  · exact h

/-! ## Convergence points -/

theorem State.Inv.unwait {ws : List (Nat × ConvWait)} (h : s.Inv) : (s.unwait ws).Inv := h.foldl fun _ _ ht => ht.modThread

theorem State.Inv.leaveInstance {ps : Parts} {y : Nat × ConvWait} (h : s.Inv) : (leaveInstance i ps s y).Inv := by
  unfold Machine.leaveInstance
  split
  · exact h
  · exact h.setThread

theorem State.Inv.runInstance {ws : List (Nat × ConvWait)} (h : s.Inv) : (runInstance i ws s).Inv := by
  unfold Machine.runInstance
  extract_lets envs ps
  split
  · have hm := keeps_matrixIssue (i := i) (ps := ps) s h
    split
    · next hx => exact (hm.inv hx).foldl fun _ _ ht => ht.leaveInstance
    · next hx => exact (hm.inv_error hx).unwait.faultAll
  · exact h.foldl fun _ _ ht => ht.leaveInstance

theorem State.Inv.tryInstance (h : s.Inv) : (s.tryInstance tid).Inv := by
  unfold State.tryInstance
  split
  · exact h
  · split
    · exact h
    · exact .ite h.runInstance h

theorem State.Inv.recheckLane {warp lane : Nat} (h : s.Inv) : (State.recheckLane warp s lane).Inv := by
  unfold State.recheckLane
  dsimp only
  split
  · exact h
  · split
    · exact h
    · exact .ite h.unwait.faultAll h.tryInstance

theorem State.Inv.recheckWarp {warp : Nat} (h : s.Inv) : (s.recheckWarp warp).Inv := h.foldl fun _ _ ht => ht.recheckLane

theorem State.Inv.arrive {m : Reg} (h : s.Inv) : (arrive i m s e).Inv := by
  unfold Machine.arrive
  exact .ite h.takeFault (.ite h (.ite (State.Inv.ite h.unwait h.unwait.faultAll).modThread.tryInstance h.unwait.faultAll))

theorem formed_convOp {m : Reg} (h : s.Inv) : Formed (convOp i m s) := by
  unfold convOp
  split
  · trivial
  · split
    · exact h.takeFault
    · exact h.arrive

/-! ## Collectives -/

theorem State.Inv.contribData {y : Contrib} (h : s.Inv) : (s.contribData y).2.Inv := by
  unfold State.contribData
  exact h.observe (own := []) (acq := fun _ => none) (key := spKey y.coh y.off)

theorem State.Inv.contribute {g : Nat} (h : s.Inv) : (State.contribute lid g s coh).Inv := by
  unfold State.contribute
  split
  · refine .ite h ?_
    split
    · exact h
    · exact h.contribData.modLaunch
  · exact h

theorem State.Inv.collRelease {g : Nat} {f : BitVec 7} {cs : List Contrib} (h : s.Inv) :
    (s.collRelease lid g bs f cs).Inv := by
  unfold State.collRelease
  refine State.Inv.modLaunch ?_
  refine List.foldlRecOn (motive := fun acc : State × List (Nat × Nat) => acc.1.Inv) _ _ h fun acc ht y _ => ?_
  dsimp only
  split
  · exact ht
  · exact ht.freshId.setThread

theorem State.Inv.collFault {g : Nat} (h : s.Inv) : (s.collFault lid g).Inv := by
  unfold State.collFault
  exact (h.foldl fun _ _ ht => ht.modThread).modLaunch.faultAll

theorem State.Inv.collEnd {g : Nat} {ps : List (Nat × List Contrib)} (h : s.Inv) : (s.collEnd g ps).Inv := by
  unfold State.collEnd
  dsimp only
  split
  · exact h
  · exact .ite (h.foldl fun _ _ ht => ht.collFault) (h.foldl fun _ _ ht => ht.collRelease)

theorem State.Inv.collMet {g : Nat} (h : s.Inv) : (s.collMet lid g l).Inv := by
  unfold State.collMet
  dsimp only
  split
  · refine .ite h.modCtx.collEnd ?_
    split
    · exact h.same (by rfl)
    · exact State.Inv.collEnd (h.same (by rfl))
  · exact h

theorem State.Inv.collCheck {g : Nat} (h : s.Inv) : (State.collCheck lid s g).Inv := by
  have hf := h.foldl (xs := s.liveMembers lid g) (f := State.contribute lid g) fun _ _ ht => ht.contribute
  unfold State.collCheck
  dsimp only
  split
  · exact hf
  · exact .ite hf.collMet hf

theorem keeps_xredChecks {ty : XredTy} {mode : XredMode} {off vb g : Nat} : Keeps (xredChecks e ty mode off vb g) :=
  keeps_check fun _ => .ite keeps_throw keeps_pure

theorem formed_xred {ty : XredTy} {op : XredOp} {mode : XredMode} {a b : Reg} {g : BitVec 8} (h : s.Inv) :
    Formed (execXred hd ty op mode sc a b g s) := by
  refine formed_threadOp h fun e => keeps_clampScope.bind fun _ => keeps_xredChecks.bind fun _ => .ite keeps_pure ?_
  exact keeps_modTh.bind fun _ => (keeps_modify fun _ h => h.modLaunch.collCheck).bind fun _ => keeps_pure

theorem formed_xredResultWrite {g : Nat} (h : s.Inv) : Formed (execXredResultWrite lid g s) := by
  unfold execXredResultWrite
  split
  · exact h
  · dsimp only
    split
    · exact h
    · refine State.Inv.modLaunch (State.Inv.foldl ?_ fun _ _ ht => ht.modThread)
      exact List.foldlRecOn (motive := fun acc : State × Assoc Nat => acc.1.Inv) _ _ h fun _ ht _ _ => ht.writeSp

end
end Sys2Proof.Machine
end

section
/-! SUPPORT. The canonical form through the ends of threads, fault queues, guest decoding, requests for work and bins (R93 to
R139, R284 to R303, R404, R405). -/

namespace Sys2Proof.Machine

section
variable {s t : State} {α : Type} {n k u tid coh lid cid key core sec slot pid st : Nat} {e : Env} {w : Who} {p : Place}
  {pc va : VAddr} {ptr : Dword} {ctx : Ctx} {hd : Hdr} {i op : Instr} {l : Launch} {bs : List Byte} {b : Bin}

/-! ## The ends of threads -/

theorem State.Inv.groupsCheck {groups : List Nat} (h : s.Inv) : (s.groupsCheck lid groups).Inv :=
  (h.foldl fun _ _ ht => ht.grpCheck).foldl fun _ _ ht => ht.collCheck

theorem State.Inv.releaseCohort (h : s.Inv) : (s.releaseCohort coh).Inv := by
  unfold State.releaseCohort
  split
  · exact h
  · exact h.dropCohort.fixRotation.modLaunch.groupsCheck

theorem State.Inv.afterExit (h : s.Inv) : (s.afterExit tid).Inv := by
  unfold State.afterExit
  split
  · exact h
  · have hg := (h.recheckWarp (warp := warpOf tid)).foldl (xs := (s.recheckWarp (warpOf tid)).openBars (cohOf tid))
      (f := State.barCheck (cohOf tid)) fun _ _ ht => ht.barCheck
    exact .ite hg.groupsCheck.releaseCohort hg.groupsCheck

theorem State.Inv.endsBefore (h : s.Inv) : (s.endsBefore tid).Inv := by
  unfold State.endsBefore
  split
  · exact h.beforeSignal
  · exact h

theorem formed_threadEnd (h : s.Inv) : Formed (execThreadEnd tid s) := by
  unfold execThreadEnd
  split
  · exact h
  · split
    · exact h.endsBefore.setThread.afterExit
    · exact h

theorem formed_loadDataReturn (h : s.Inv) : Formed (execLoadDataReturn tid n s) := h.modThread

/-! ## Fault queues -/

theorem State.Inv.postEvent {result : Nat} (h : s.Inv) : (s.postEvent st result).Inv := by
  unfold State.postEvent
  split
  · exact h
  · exact .ite h (State.Inv.same h (by rfl)).writeMem

theorem keeps_postM {q : Post} : Keeps (postM w ctx cid q) := by
  unfold postM
  refine Keeps.when keeps_writeVirt fun _ => keeps_get.bind fun _ => (keeps_readVirt fun _ _ => keeps_readAfter).bind fun _ =>
    .ite keeps_pure (keeps_get.bind fun _ => keeps_writeVirt.bind fun _ => keeps_get.bind fun _ => ?_)
  exact keeps_writeVirt.bind fun _ => keeps_pure

theorem State.Inv.posted {q : Post} (h : s.Inv) : (s.posted cid q).Inv := (h.foldl fun _ _ ht => ht.modThread).modCtx

theorem State.Inv.stopContext (h : s.Inv) : (s.stopContext cid).Inv := h.endContext.modCtx.postEvent

theorem State.Inv.dropPost {q : Post} (h : s.Inv) : (s.dropPost cid q).Inv := (h.foldl fun _ _ ht => ht.modThread).modCtx

theorem formed_faultPost (h : s.Inv) : Formed (execFaultPost cid s) := by
  unfold execFaultPost
  split
  · exact h
  · split
    · exact h
    · split
      · exact h
      · split
        next hx =>
        have hr := State.Inv.at (.snd_ite h.requested h) hx
        split
        · exact hr.dropPost
        · split
          · next hy => exact State.Inv.posted ((hr.tryAgent keeps_postM).at hy)
          · next hy => exact (hr.tryAgent keeps_postM).at hy
          · next hy =>
            have ht := (hr.tryAgent keeps_postM).at hy
            exact State.Inv.ite ht ht.stopContext

theorem State.Inv.replay (h : s.Inv) : (s.replay cid n).Inv := by
  unfold State.replay
  split
  · exact h
  · next q _ =>
    have hf := h.foldl (xs := q.tids) (f := fun s t => s.modThread t fun t =>
      if TStatus.isParked t.status then { t with status := .ready, wpSuppress := q.watch } else t) fun _ _ ht => ht.modThread
    refine State.Inv.modCtx ?_
    split
    · exact hf
    · refine State.Inv.same (hf.withThreads (rising_mapVals hf.threads fun _ => ?_)) (by rfl)
      split <;> rfl

theorem State.Inv.abortRecord (h : s.Inv) : (s.abortRecord cid n).Inv := by
  unfold State.abortRecord
  split
  · exact h
  · exact (h.foldl fun _ _ ht => ht.endLaunch).modCtx

theorem State.Inv.poison {acc : Nat} {x : Dword} (h : s.Inv) : (s.poison tid acc x).Inv := h.modThread

theorem formed_uncorrectableError {site : ErrSite} (h : s.Inv) : Formed (execUncorrectableError site s) := by
  cases site with
  | atOp tid addr acc => exact h.poison
  | atLoad tid id addr => exact h.modThread
  | atCopy id addr =>
    show State.Inv (match aget s.copies id with
      | none => s
      | some c => s.poison c.tid 4 addr)
    split
    · exact h
    · exact h.poison
  | atPref => exact h
  | noRequester sec => exact State.Inv.ite h.stopPartition h

/-! ## Guest decoding -/

theorem State.Inv.enterEmu (h : s.Inv) : (s.enterEmu e).Inv := by
  unfold State.enterEmu
  split
  · exact h.keepDraws.modThread
  · exact h.keepDraws.takeFault

theorem State.Inv.guestEnv {pers : Nat} (h : s.Inv) : (s.guestEnv e pers p).2.Inv := by
  unfold State.guestEnv
  split
  next hx =>
    refine State.Inv.at ?_ hx
    split
    · exact h
    · exact h.draw

theorem State.Inv.decodeAt {pers : Nat} (h : s.Inv) : (s.decodeAt e pers p).Inv := by
  unfold State.decodeAt
  dsimp only
  split
  · exact h.modThread.keepDraws.modThread
  · exact .ite h.modThread.keepDraws.guestEnv.takeFault h.modThread.keepDraws.modThread
  · exact h.modThread.keepDraws.guestEnv.takeFault

theorem formed_guestFetchDecode (h : s.Inv) : Formed (execGuestFetchDecode tid s) := by
  unfold execGuestFetchDecode
  split
  · exact h
  · split
    · exact h
    · split
      · exact h.keepDraws.takeFault
      · dsimp only
        split
        · exact h.keepDraws
        · split
          · exact h.keepDraws.takeFault
          · exact h.keepDraws.decodeAt

/-! ## Requests for work -/

theorem formed_fetchw {a : Reg} (h : s.Inv) : Formed (execFetchw hd a s) := formed_threadOp h fun _ =>
  keeps_check fun _ => keeps_check fun _ => keeps_get.bind fun _ => keeps_check fun _ => .ite keeps_pure
    (keeps_storeSp.bind fun _ => (keeps_modify fun _ h => h.same (by rfl)).bind fun _ => keeps_pure)

theorem keeps_binRef {ref : Nat} : Keeps (binRef e ref) := keeps_get.bind fun _ => keeps_check fun _ => keeps_pure

theorem keeps_binRecord {a : Reg} {ref : Nat} : Keeps (binRecord e a n ref) := by
  unfold binRecord
  extract_lets rest
  have hr : ∀ u, Keeps (rest u) := fun _ => keeps_pure
  split
  · exact keeps_check hr
  · exact keeps_check hr

theorem keeps_askBin {q : BinReq} : Keeps (askBin e i q) := keeps_modTh.bind fun _ => keeps_pure

theorem formed_binpush {sz : BitVec 4} {a x : Reg} (h : s.Inv) : Formed (execBinpush hd sz a x s) :=
  formed_threadOp h fun _ => keeps_binRef.bind fun _ => keeps_binRecord.bind fun _ => keeps_askBin

theorem formed_bindrain {close : Bool} {x : Reg} (h : s.Inv) : Formed (execBindrain hd close x s) :=
  formed_threadOp h fun _ => keeps_binRef.bind fun _ => keeps_askBin

theorem State.Inv.submit (h : s.Inv) : (s.submit e sec bs).Inv := (h.carry (tid := e.tid)).same (by rfl)

theorem formed_launch {d a x : Reg} (h : s.Inv) : Formed (execLaunch hd d a x s) := formed_threadOp h fun e => by
  refine keeps_check fun _ => keeps_get.bind fun _ => keeps_check fun _ =>
    (keeps_readVirt fun _ _ => keeps_readSeenM).bind fun _ => keeps_get.bind fun _ => .ite ?_ (.ite ?_ ?_)
  · exact (keeps_modify fun _ h => h.submit).bind fun _ => keeps_modTh.bind fun _ => keeps_pure
  · exact (keeps_modify fun _ h => h.freshId.modThread).bind fun _ => keeps_pure
  · exact keeps_modTh.bind fun _ => keeps_pure

theorem State.Inv.devAdmit (h : s.Inv) : (s.devAdmit cid sec).Inv := by
  unfold State.devAdmit
  split
  · exact h
  · refine .ite h ?_
    split
    · split
      · exact h
      · exact h.submit.modThread
    · exact h

/-! ## Bins -/

theorem State.Inv.modBin {f : Bin → Bin} (h : s.Inv) : (s.modBin k f).Inv := h.same (by rfl)

theorem State.Inv.ringRead (h : s.Inv) : (s.ringRead l n).2.Inv := by
  unfold State.ringRead
  split
  · exact h
  · exact h.agentRead

theorem State.Inv.ringWrite (h : s.Inv) : (s.ringWrite l n bs).2.Inv := by
  unfold State.ringWrite
  split
  · exact h
  · split <;> next hx => exact (h.tryAgent keeps_writeVirt).at hx

theorem State.Inv.binEval (h : s.Inv) : (s.binEval k).Inv := by
  unfold State.binEval
  split
  · exact h
  · dsimp only
    split
    · exact h.modBin
    · exact h.freshId.modBin
    · exact h.modBin

theorem State.Inv.pushDone {f : Thread → Thread} (h : s.Inv) : (s.pushDone e op f).Inv := h.setThread

theorem State.Inv.pushFault {f : FaultInfo} (h : s.Inv) : (s.pushFault e op f).Inv := h.modThread.takeFault

theorem State.Inv.spillEvent {ref : Nat} (h : s.Inv) : (s.spillEvent l ref).Inv := by
  unfold State.spillEvent
  split
  · exact (State.Inv.same h (by rfl)).qcbWrite
  · exact h

theorem State.Inv.accept (h : s.Inv) : (s.accept k b l e op bs).Inv := by
  unfold State.accept
  dsimp only
  split
  · exact .ite h.carry.ringWrite.pushDone.modBin.binEval h.carry.ringWrite.pushDone.endLaunch
  · exact .ite h.carry.pushDone.modBin.binEval h.carry.pushDone.endLaunch

theorem State.Inv.pushArrives {bin : Nat} (h : s.Inv) : (s.pushArrives e op sec bin bs).Inv := by
  unfold State.pushArrives
  dsimp only
  split
  · exact h.pushFault
  · exact .ite h.pushFault (.ite h.pushFault (.ite h.pushFault (.ite h.spillEvent.pushFault h.accept)))

theorem State.Inv.drainArrives {bin : Nat} {close : Bool} (h : s.Inv) : (s.drainArrives e op sec bin close).Inv := by
  unfold State.drainArrives
  dsimp only
  split
  · exact h.pushFault
  · exact .ite h.pushFault (.ite h.pushDone h.pushDone.modBin.binEval)

theorem formed_binPushArrival (h : s.Inv) : Formed (execBinPushArrival tid s) := by
  unfold execBinPushArrival
  split
  · split
    · exact h.pushArrives
    · exact h
  · exact h

theorem formed_binDrainArrival (h : s.Inv) : Formed (execBinDrainArrival tid s) := by
  unfold execBinDrainArrival
  split
  · split
    · exact h.drainArrives
    · exact h
  · exact h

theorem formed_binSpillAutoReplay {bin : Nat} (h : s.Inv) : Formed (execBinSpillAutoReplay sec bin s) := by
  unfold execBinSpillAutoReplay
  split
  · exact h
  · dsimp only
    split
    · exact h.pick.unpark
    · exact h

theorem formed_binAgeExpiry {bin : Nat} (h : s.Inv) : Formed (execBinAgeExpiry sec bin s) := by
  unfold execBinAgeExpiry
  dsimp only
  split
  · exact h
  · split
    · exact h.modBin.binEval
    · exact h

theorem formed_binPriorityPromotion {bin : Nat} (h : s.Inv) : Formed (execBinPriorityPromotion sec bin s) := by
  unfold execBinPriorityPromotion
  dsimp only
  split
  · exact h
  · split
    · exact h.modBin
    · exact h

theorem formed_binFireSelect (h : s.Inv) : Formed (execBinFireSelect sec core s) := by
  unfold execBinFireSelect
  split
  · split
    · exact h.modBin
    · exact h
  · exact h

theorem State.Inv.fireBytes {rs : List BinRec} (h : s.Inv) : (s.fireBytes l rs).2.Inv := by
  induction rs generalizing s with
  | nil => exact h
  | cons r t ih =>
    unfold State.fireBytes
    split
    next hx =>
    have hr := State.Inv.at (by
      split
      · exact h
      · exact h.ringRead) hx
    split
    · exact hr
    · split <;> next hy => exact (ih hr).at hy

theorem State.Inv.refillBin (h : s.Inv) (ht : s.refillBin k l n = some t) : t.Inv := by
  induction n generalizing s with
  | zero =>
    cases ht
    exact h
  | succ n ih =>
    unfold State.refillBin at ht
    split at ht
    · cases ht
      exact h
    · split at ht
      · cases ht
        exact h
      · split at ht
        · cases ht
          exact h
        · dsimp only at ht
          split at ht
          · cases ht
          · exact ih h.ringRead.modBin ht

theorem State.Inv.fire (h : s.Inv) : (s.fire k core b l).Inv := by
  unfold State.fire
  dsimp only
  split
  · next hx => exact State.Inv.endLaunch (h.fireBytes.at hx)
  · next hx =>
    have hf := h.fireBytes.at hx
    split
    · exact hf.modBin.createCohort.modBin.endLaunch
    · next hr => exact (hf.modBin.createCohort.modBin.refillBin hr).binEval

theorem formed_binFireComplete (h : s.Inv) : Formed (execBinFireComplete sec s) := by
  unfold execBinFireComplete
  split
  · exact h
  · split
    · exact h.fire
    · exact h

theorem formed_binArmingEnd (h : s.Inv) : Formed (execBinArmingEnd lid s) := by
  unfold execBinArmingEnd
  split
  · exact h
  · split
    · exact h
    · split
      · exact h.disarm.setStatus.signal
      · split
        · exact h
        · exact h.disarm.setStatus.signal
      · exact h

end
end Sys2Proof.Machine
end

section
/-! SUPPORT. The canonical form through the residence of cohorts, bundles, the acceptance of launches and queues (R26, R41, R48
to R52, R67 to R77, R304 to R316, R330 to R334). -/

namespace Sys2Proof.Machine

section
variable {s t : State} {α : Type} {n k tid coh lid cid key core sec pid st fn : Nat} {e : Env} {w : Who} {p : Place}
  {ptr : Dword} {ctx : Ctx} {hd : Hdr} {i op : Instr} {l : Launch} {bs : List Byte} {view : List Nat} {q : Queue}

/-! ## Saves and readmissions -/

theorem State.Inv.requestSave (h : s.Inv) : (s.requestSave coh).Inv := h.modCohort

theorem State.Inv.requestRoom (h : s.Inv) : (s.requestRoom coh).Inv := h.modCohort

theorem State.Inv.withdrawSave (h : s.Inv) : (s.withdrawSave coh).Inv := by
  unfold State.withdrawSave
  split
  · exact h
  · refine .ite (State.Inv.modCohort (h.withThreads (rising_mapVals h.threads fun _ => ?_))) h
    split <;> rfl

theorem formed_saveRequest (h : s.Inv) : Formed (execSaveRequest coh s) := h.requestSave

theorem State.Inv.saveCohort {replayable : Bool} (h : s.Inv) : (s.saveCohort coh replayable).Inv := by
  unfold State.saveCohort
  extract_lets s1 s2
  have h1 : s1.Inv := by
    unfold s1
    split
    · exact h.fenceCohort.writeBack
    · exact h
  refine State.Inv.fixRotation (State.Inv.modCohort (State.Inv.same
    (h1.withThreads (rising_mapVals h1.threads fun _ => ?_)) (by rfl)))
  split <;> rfl

theorem formed_replayableDeschedule (h : s.Inv) : Formed (execReplayableDeschedule coh s) := by
  unfold execReplayableDeschedule
  split
  · exact h
  · exact State.Inv.ite h.saveCohort h

theorem State.Inv.findSafe {known : List Nat} {off : Nat} (h : s.Inv) : (s.findSafe w known ptr off n).2.Inv := by
  induction n generalizing s ptr with
  | zero => exact h
  | succ n ih =>
    unfold State.findSafe
    split
    · next hx => exact h.agentRead.at hx
    · next hx => exact .snd_ite (h.agentRead.at hx) (ih (h.agentRead.at hx))

theorem State.Inv.liveEntry {known : List Nat} {pc j : Nat} (h : s.Inv) : (s.liveEntry w known ptr pc j n).2.Inv := by
  induction n generalizing s j with
  | zero => exact h
  | succ n ih =>
    unfold State.liveEntry
    split
    · next hx => exact h.agentRead.at hx
    · next hx =>
      have hr := h.agentRead.at hx
      dsimp only
      split
      · split
        · next hy => exact hr.findSafe.at hy
        · next hy => exact ih (hr.findSafe.at hy)
      · exact ih hr

theorem State.Inv.safeEntry (h : s.Inv) : (s.safeEntry tid).2.Inv := by
  unfold State.safeEntry
  split
  · exact h
  · exact .snd_ite h h.liveEntry

theorem formed_preemptHandlerEntry (h : s.Inv) : Formed (execPreemptHandlerEntry tid s) := by
  unfold execPreemptHandlerEntry
  split
  · next hx => exact h.safeEntry.at hx
  · next hx => exact State.Inv.modThread (h.safeEntry.at hx)

theorem State.Inv.readmit (h : s.Inv) : (s.readmit coh core).Inv := by
  refine State.Inv.fenceCohort (State.Inv.place (h.modCohort.withThreads (rising_mapVals h.modCohort.threads fun _ => ?_)))
  split <;> rfl

theorem formed_readmission (h : s.Inv) : Formed (execReadmission coh core s) := by
  unfold execReadmission
  split
  · exact h
  · split
    · exact h
    · exact State.Inv.ite h.readmit h

/-! ## Room -/

theorem State.Inv.createAt (h : s.Inv) : (s.createAt lid core n l).Inv := .ite h.createCohort h.takeIndex.createCohort

theorem State.Inv.clearRoom (h : s.Inv) : (s.clearRoom lid).Inv := by
  unfold State.clearRoom
  split
  · exact h
  · exact .ite (h.modLaunch.foldl fun _ _ ht => ht.withdrawSave) h.modLaunch

theorem State.Inv.takeRoom (h : s.Inv) : (s.takeRoom lid core l).Inv := by
  unfold State.takeRoom
  split
  · exact .ite h h.clearRoom.createAt
  · split
    · exact .ite h.clearRoom.readmit h
    · exact h
  · exact h

theorem State.Inv.askNext {x : Need} (h : s.Inv) : (s.askNext lid core n x).Inv := by
  unfold State.askNext
  split
  · exact h.requestRoom
  · exact h

theorem State.Inv.seekRoom {x : Need} (h : s.Inv) : (s.seekRoom lid core n x).Inv := by
  unfold State.seekRoom
  split
  · exact .ite h.askNext h
  · exact .ite h.clearRoom.modLaunch.askNext h.clearRoom

theorem formed_makeRoom (h : s.Inv) : Formed (execMakeRoom lid core s) := by
  unfold execMakeRoom
  split
  · exact h
  · extract_lets need mine
    clear_value need mine
    split
    · exact h.clearRoom
    · split
      · exact h
      · split
        · exact h
        · split
          · exact h.takeRoom
          · exact h.seekRoom

theorem State.Inv.saveUnder (h : s.Inv) : (s.saveUnder coh).Inv := by
  unfold State.saveUnder
  split
  · exact h
  · exact .ite h.saveCohort h.withdrawSave

theorem formed_cohortSave (h : s.Inv) : Formed (execCohortSave coh s) := State.Inv.ite h.saveUnder h

theorem formed_forcedSave (h : s.Inv) : Formed (execForcedSave coh s) := State.Inv.ite h.saveUnder h

/-! ## Switches -/

theorem State.Inv.completeFires (h : s.Inv) : (s.completeFires cid).Inv := h.foldl fun t x ht => by
  split
  · split
    · exact .ite ht.fire ht
    · exact ht
  · exact ht

theorem State.Inv.saveLaunch (h : s.Inv) : (s.saveLaunch lid).Inv := h.foldl fun _ _ ht => ht.requestSave

theorem State.Inv.switchOut (h : s.Inv) : (s.switchOut cid).Inv := by
  unfold State.switchOut
  have ha := (h.completeFires (cid := cid)).foldl (xs := (s.completeFires cid).launchesOf cid) (f := State.answerFetches)
    fun _ _ ht => ht.answerFetches
  exact ((ha.modCtx.foldl fun _ _ ht => ht.saveWalkers).foldl fun _ _ ht => ht.saveLaunch).refillAll

theorem formed_timeSliceExpiry (h : s.Inv) : Formed (execTimeSliceExpiry cid s) := by
  unfold execTimeSliceExpiry
  split
  · exact State.Inv.ite h.switchOut h
  · exact h

theorem formed_launchPreemption (h : s.Inv) : Formed (execLaunchPreemption lid s) := by
  unfold execLaunchPreemption
  split
  · exact State.Inv.ite h.answerFetches.saveWalkers.modLaunch.saveLaunch.refillAll h
  · exact h

/-! ## Bundles -/

theorem State.Inv.nowReady (h : s.Inv) : (s.nowReady tid).2.Inv := by
  unfold State.nowReady
  split
  · exact h
  · refine .snd_ite h.setThread (.snd_ite h ?_)
    split
    next hx =>
      have hr := State.Inv.at (.snd_ite h h.pick) hx
      exact .snd_ite hr.setThread hr.setThread

theorem State.Inv.readyOf {cs : List Cand} (h : s.Inv) : (readyOf cs s).2.Inv := by
  induction cs generalizing s with
  | nil => exact h
  | cons c t ih => exact ih h.nowReady

theorem State.Inv.issueBundle {rdy : List Cand} {turn : Option Cand} (h : s.Inv) : (s.issueBundle rdy turn).Inv := by
  unfold State.issueBundle
  dsimp only
  split
  · exact h.same (by rfl)
  · exact h.pick.same (by rfl)

theorem formed_bundleForm (h : s.Inv) : Formed (execBundleForm core n s) := h.readyOf.issueBundle

theorem formed_rotationTurn (h : s.Inv) : Formed (execRotationTurn core n s) := by
  unfold execRotationTurn
  dsimp only
  split
  · exact h.readyOf.issueBundle
  · exact (State.Inv.same h.readyOf (by rfl)).issueBundle

/-! ## Launches -/

theorem keeps_entryCheck {r : LaunchRec} : Keeps (entryCheck w ctx r) :=
  keeps_targetLine.bind fun _ => .ite keeps_pure (.ite keeps_pure (.ite keeps_pure (keeps_persHeader.bind fun _ => keeps_pure)))

theorem keeps_agentReadM : Keeps (agentReadM w ptr n view) := fun _ h => h.agentRead

theorem keeps_attempt {x : M α} (hx : Keeps x) : Keeps (attempt w x) := fun _ h => h.tryAgent hx

theorem keeps_testRecord {r : LaunchRec} : Keeps (testRecord cid ctx sec bs r view) := by
  unfold testRecord
  refine keeps_get.bind fun _ => .ite keeps_pure ?_
  extract_lets rest
  have hr : ∀ tab, Keeps (rest tab) := fun tab => by
    unfold rest
    split
    · exact keeps_pure
    · refine .ite keeps_pure (.ite keeps_pure (.ite keeps_pure ((keeps_attempt keeps_entryCheck).bind fun _ =>
        .ite keeps_pure ?_)))
      dsimp only
      split
      · exact keeps_pure
      · exact .ite keeps_pure (.ite keeps_pure keeps_pure)
  exact .ite (keeps_agentReadM.bind hr) (keeps_pure.bind hr)

theorem State.Inv.test {r : LaunchRec} (h : s.Inv) : (s.test cid ctx sec bs r view).2.Inv := by
  have ht := keeps_testRecord (cid := cid) (ctx := ctx) (sec := sec) (bs := bs) (r := r) (view := view) s h
  unfold State.test
  split
  · next hx => exact ht.inv hx
  · next hx => exact ht.inv_error hx

theorem State.Inv.addLaunch (h : s.Inv) : (s.addLaunch l).2.Inv := h.same (by rfl)

theorem State.Inv.refuse (h : s.Inv) : (s.refuse lid st).Inv := h.setStatus.signal

theorem State.Inv.start (h : s.Inv) : (s.start lid).Inv := by
  unfold State.start
  split
  · exact h
  · exact .ite (h.same (by rfl)) (.ite h.refuse (.ite h h.divide))

theorem State.Inv.acceptPlain {src : Source} (h : s.Inv) : (s.acceptPlain cid sec ctx src bs).Inv := by
  unfold State.acceptPlain
  dsimp only
  split
  · exact h.test.addLaunch.refuse
  · exact h.test.addLaunch.start

theorem State.Inv.addParts {src : Source} {ps : List (Nat × List Byte)} (h : s.Inv) : (s.addParts cid ctx src ps).2.Inv := by
  induction ps generalizing s with
  | nil => exact h
  | cons x t ih =>
    unfold State.addParts
    dsimp only
    split
    · exact ih h.addLaunch
    · exact ih h.test.addLaunch

theorem State.Inv.rollback (h : s.Inv) : (s.rollback lid).Inv := by
  unfold State.rollback
  extract_lets hub s1 parts
  have h1 : s1.Inv := by
    unfold s1
    split
    · exact .ite (h.same (by rfl)) h
    · exact h
  exact (h1.foldl fun _ _ ht => ht.refuse).refuse

theorem State.Inv.gangSubs {r : LaunchRec} (h : s.Inv) : (s.gangSubs cid ctx r view).2.Inv := by
  unfold State.gangSubs
  dsimp only
  split
  · exact h.agentRead
  · exact h

theorem State.Inv.acceptGang {src : Source} (h : s.Inv) : (s.acceptGang cid sec ctx src bs).Inv := by
  unfold State.acceptGang
  dsimp only
  refine .ite h.addLaunch.refuse (.ite (State.Inv.rollback (State.Inv.foldl h.gangSubs.addLaunch.addParts.modLaunch ?_))
    h.gangSubs.addLaunch.addParts.modLaunch)
  intro t x ht
  split
  · exact ht.refuse
  · exact ht

theorem State.Inv.acceptRecord {src : Source} (h : s.Inv) : (s.acceptRecord cid sec src bs).Inv := by
  unfold State.acceptRecord
  split
  · exact h
  · exact .ite h.addLaunch.refuse (.ite h.acceptPlain (.ite h.acceptGang h.addLaunch.refuse))

theorem State.Inv.commit {parts : List Nat} (h : s.Inv) : (s.commit parts).Inv :=
  ((State.Inv.same h (by rfl)).foldl fun _ _ ht => ht.modLaunch).foldl fun _ _ ht => ht.start

theorem formed_gangCommit (h : s.Inv) : Formed (execGangCommit s) := by
  unfold execGangCommit
  split
  · exact h
  · split
    · exact h.same (by rfl)
    · split
      · exact h.rollback
      · dsimp only
        split
        · exact h.commit
        · exact h.same (by rfl)

theorem formed_gangReservationTimeout (h : s.Inv) : Formed (execGangReservationTimeout s) := by
  unfold execGangReservationTimeout
  split
  · exact h
  · exact h.rollback

/-! ## Queues -/

theorem State.Inv.modQueue {f : Queue → Queue} (h : s.Inv) : (s.modQueue k f).Inv := h.same (by rfl)

theorem State.Inv.acquireFor (h : s.Inv) : (s.acquireFor k q ptr n).2.Inv := by
  unfold State.acquireFor
  split
  · exact h
  · split
    · next hx => exact State.Inv.modQueue ((h.tryAgent keeps_acquireUnit).at hx)
    · next hx => exact (h.tryAgent keeps_acquireUnit).at hx

theorem State.Inv.setQState {err : Nat} (h : s.Inv) : (s.setQState k q st err).Inv := .ite h h.modQueue.qcbWrite

theorem State.Inv.consume (h : s.Inv) : (s.consume k).Inv := by
  unfold State.consume
  split
  · exact h
  · exact h.modQueue.qcbWrite.setQState

theorem State.Inv.doorbell {qn : Nat} (h : s.Inv) : (s.doorbell fn sec qn).Inv := by
  unfold State.doorbell
  split
  · exact h
  · refine .ite h ?_
    split
    · next hx => exact h.acquireFor.at hx
    · next hx =>
      extract_lets s1
      have h1 : s1.Inv := State.Inv.modQueue (h.acquireFor.at hx)
      split
      · exact .ite h1.setQState h1
      · exact h1

theorem formed_queueDoorbell {qn : Nat} (h : s.Inv) : Formed (execQueueDoorbell fn sec qn s) := by
  unfold execQueueDoorbell
  split
  · exact h
  · split
    · exact h.same (by rfl)
    · exact h.doorbell

theorem State.Inv.slot (h : s.Inv) : (s.slot q).2.Inv := by
  unfold State.slot
  split
  · exact h
  · dsimp only
    split
    · next hx => exact h.agentRead.at hx
    · next hx =>
      have hr := h.agentRead.at hx
      split
      · split
        · next hy => exact hr.agentRead.at hy
        · next hy => exact hr.agentRead.at hy
      · exact hr

theorem State.Inv.touch (h : s.Inv) : (s.touch k).Inv := h.freshId.modQueue

theorem State.Inv.packet {o : Nat} {act : Queue → List Byte → State → State} (h : s.Inv)
    (ha : ∀ q b (t : State), t.Inv → (act q b t).Inv) : (packet o k s act).Inv := by
  unfold Machine.packet
  split
  · exact h
  · refine .ite h ?_
    split
    · next hx => exact (State.Inv.touch (h.slot.at hx)).setQState
    · next hx => exact .ite (ha _ _ _ (State.Inv.touch (h.slot.at hx))) h

theorem formed_packetNop (h : s.Inv) : Formed (execPacketNop k s) := h.packet fun _ _ _ ht => ht.consume

theorem formed_packetLaunch (h : s.Inv) : Formed (execPacketLaunch k s) := h.packet fun _ _ _ ht => ht.acceptRecord.consume

theorem State.Inv.waitRead (h : s.Inv) : (s.waitRead k q bs).Inv := by
  unfold State.waitRead
  split
  · next hx => exact State.Inv.setQState (h.acquireFor.at hx)
  · next hx => exact .ite (State.Inv.consume (h.acquireFor.at hx)) (State.Inv.setQState (h.acquireFor.at hx))

theorem formed_packetWait (h : s.Inv) : Formed (execPacketWait k s) := h.packet fun _ _ _ ht => ht.waitRead

theorem formed_queueWaitResume (h : s.Inv) : Formed (execQueueWaitResume k s) := by
  unfold execQueueWaitResume
  split
  · exact h
  · split
    · exact h
    · split
      · next hx => exact State.Inv.setQState (h.slot.at hx)
      · next hx =>
        split
        · exact State.Inv.waitRead (h.slot.at hx)
        · exact h.slot.at hx

theorem formed_packetSignal (h : s.Inv) : Formed (execPacketSignal k s) := h.packet fun _ _ t ht => by
  split
  · exact ht
  · dsimp only
    split
    · next hx => exact State.Inv.consume ((ht.tryAgent keeps_writeVirt).at hx)
    · next hx => exact State.Inv.setQState ((ht.tryAgent keeps_writeVirt).at hx)

theorem formed_deviceLaunchQueueTake (h : s.Inv) : Formed (execDeviceLaunchQueueTake cid sec s) := by
  unfold execDeviceLaunchQueueTake
  dsimp only
  split
  · exact h
  · split
    · exact h
    · exact (State.Inv.same h.freshId (by rfl)).acceptRecord.devAdmit

theorem State.Inv.unbind (h : s.Inv) : (s.unbind k).Inv := (h.foldl fun _ _ ht => .ite ht.endLaunch.signal ht).same (by rfl)

/-! ## The restore of a context -/

theorem State.Inv.reawait {a : AwaitSpec} (h : s.Inv) : (s.reawait tid a).Inv := by
  unfold State.reawait
  split
  · exact h
  · next e _ =>
    have ha := keeps_awaitRead (e := { e with th := { e.th with status := .ready } }) (x := a) s h
    dsimp only
    split
    · next hx =>
      have ht := ha.inv hx
      exact .ite (ht.modThread.endOp (keeps_awaitEnd _ ht.modThread)) ht
    · exact h.keepDraws

theorem State.Inv.reevaluate (h : s.Inv) : (s.reevaluate cid).Inv := by
  refine (h.foldl fun _ _ ht => ht.reawait).foldl fun t x ht => ?_
  split
  · next hx => exact State.Inv.waitRead (ht.slot.at hx)
  · next hx => exact ht.slot.at hx

theorem State.Inv.applyHeld (h : s.Inv) : (s.applyHeld cid).Inv := by
  unfold State.applyHeld
  split
  · exact h
  · exact h.modCtx.foldl fun _ _ ht => .ite ht.abortRecord ht.replay

theorem formed_contextRestore (h : s.Inv) : Formed (execContextRestore cid s) := by
  unfold execContextRestore
  split
  · exact h
  · split
    · exact State.Inv.foldl (h.same (by rfl)) fun _ _ ht => ht.restoreWalkers
    · split
      · exact ((State.Inv.ite h.reevaluate h).modCtx.foldl fun _ _ ht => ht.restoreWalkers).applyHeld
      · exact h

end
end Sys2Proof.Machine
end

section
/-! SUPPORT. The canonical form through the predicate and system ops, the admin commands and the images of contexts (R162 to R167,
R285 to R291, R304 to R312, R328 to R340). -/

namespace Sys2Proof.Machine

section
variable {s t : State} {α : Type} {n k tid coh lid cid key sec pid st fn compl : Nat} {e : Env} {w : Who} {ctx : Ctx} {hd : Hdr}
  {a b d : Reg} {view : List Nat}

/-! ## Warp registers and system registers -/

theorem keeps_writeW {v : Dword} : Keeps (writeW e n v) := by
  intro s h
  unfold writeW
  split
  · exact h.modWarp
  · exact h.modWarp.modThread

theorem keeps_readW : Keeps (readW e n) := fun _ h => h

theorem formed_wmov {dir : WmovDir} (h : s.Inv) : Formed (execWmov hd dir d a s) := formed_threadOp h fun e => by
  split
  · exact keeps_writeW.bind fun _ => keeps_pure
  · exact keeps_readW.bind fun _ => keeps_modTh.bind fun _ => keeps_pure
  · exact keeps_readW.bind fun _ => keeps_writeW.bind fun _ => keeps_pure
  · exact keeps_writeW.bind fun _ => keeps_pure

theorem formed_walu {op : WaluOp} {x y : BitVec 8} {z : WaluSrc} (h : s.Inv) : Formed (execWalu hd op x y z s) :=
  formed_threadOp h fun e => keeps_readW.bind fun _ => by
    split
    · exact keeps_readW.bind fun _ => keeps_writeW.bind fun _ => keeps_pure
    · exact keeps_pure.bind fun _ => keeps_writeW.bind fun _ => keeps_pure

theorem keeps_earlyFlags {fs : List (BitVec 7)} : Keeps (earlyFlags fs) := by
  induction fs with
  | nil => exact keeps_pure
  | cons g t ih => exact ih.bind fun _ => .ite keeps_pure (keeps_pickM.bind fun _ => keeps_pure)

theorem formed_rdsys {lo : Bool} {srn : BitVec 12} (h : s.Inv) : Formed (execRdsys hd lo srn d s) := formed_threadOp h fun _ =>
  keeps_branch keeps_earlyFlags keeps_pure fun _ => keeps_modTh.bind fun _ => keeps_pure

theorem keeps_wpWrite {wp : Wp} {isCtl : Bool} {v : Dword} : Keeps (wpWrite wp isCtl v) := by
  unfold wpWrite
  split
  · exact .ite keeps_pure keeps_throw
  · exact .ite keeps_pure keeps_throw

theorem keeps_flushPlaces {csp : Dword} {spilled : Word} : Keeps (flushPlaces e csp spilled n) := by
  induction n generalizing csp spilled with
  | zero => exact keeps_pure
  | succ n ih =>
    unfold flushPlaces
    exact keeps_check fun _ => keeps_checkPlace.bind fun _ => ih.bind fun _ => keeps_pure

theorem keeps_flushStores {ks : List Nat} {vs : List Dword} : Keeps (flushStores e ks vs) := by
  induction ks generalizing vs with
  | nil => exact keeps_pure
  | cons k ks ih =>
    cases vs with
    | nil => exact keeps_pure
    | cons v vs => exact keeps_storeMine.bind fun _ => ih

theorem keeps_writeCsdepth {v : Dword} : Keeps (writeCsdepth e v) :=
  .ite (keeps_flushPlaces.bind fun _ => keeps_flushStores.bind fun _ => keeps_modTh) keeps_modTh

theorem keeps_vectorOf {v : Dword} : Keeps (vectorOf v) := .ite keeps_pure keeps_throw

theorem keeps_writeSys {v : Dword} : Keeps (writeSys e n v) := by
  unfold writeSys
  split
  · exact keeps_modTh
  · exact keeps_writeCsdepth
  · exact keeps_modTh
  · exact keeps_check fun _ => keeps_modTh
  · exact keeps_vectorOf.bind fun _ => keeps_modTh
  · exact keeps_check fun _ => keeps_modTh
  · exact keeps_vectorOf.bind fun _ => keeps_modify fun _ h => h.modCohort
  · exact keeps_wpWrite.bind fun _ => keeps_modTh
  · exact keeps_wpWrite.bind fun _ => keeps_modTh
  · exact keeps_wpWrite.bind fun _ => keeps_modTh
  · exact keeps_wpWrite.bind fun _ => keeps_modTh
  · exact keeps_throw

theorem formed_wrsys {lo : Bool} {srn : BitVec 12} (h : s.Inv) : Formed (execWrsys hd lo srn a s) := formed_threadOp h fun _ =>
  keeps_writeSys.bind fun _ => keeps_pure

theorem formed_watch {x : BitVec 8} (h : s.Inv) : Formed (execWatch hd x a b s) := formed_threadOp h fun _ =>
  keeps_check fun _ => keeps_check fun _ => keeps_check fun _ => keeps_modTh.bind fun _ => keeps_pure

/-! ## Records of the functions -/

theorem State.Inv.modFunc {f : Func → Func} (h : s.Inv) : (s.modFunc fn f).Inv := h.same (by rfl)

theorem State.Inv.first {i : Instr} (h : s.Inv) : (s.first i).Inv := h.same (by rfl)

theorem State.Inv.complRecord {result : Nat} (h : s.Inv) : (s.complRecord compl st result view).Inv := h.writeMem

theorem State.Inv.retireEntry (h : s.Inv) : (s.retireEntry fn).Inv := h.modFunc

theorem State.Inv.complete {result : Nat} (h : s.Inv) : (s.complete fn compl st result view).Inv := by
  unfold State.complete
  extract_lets s1
  have h1 : s1.Inv := h.complRecord
  split
  · exact h1
  · exact .ite h1.retireEntry h1.modFunc

theorem State.Inv.firmRead (h : s.Inv) : (s.firmRead view key n).2.Inv :=
  h.readMem.observe (own := []) (acq := fun _ => none)

theorem State.Inv.firmAcquire (h : s.Inv) : (s.firmAcquire view key n).2.2.Inv := by
  induction n generalizing s view key with
  | zero => exact h
  | succ n ih => exact ih (h.readMem.observe (own := hostInsts) (acq := fun _ => some hostInsts))

theorem formed_command {act : Func → State → Done × State} (h : s.Inv) (ha : ∀ f, (act f s).2.Inv) :
    Formed (command fn compl s act) := by
  unfold command
  split
  · exact h
  · split
    · exact h
    · split
      · next hx => exact State.Inv.complete ((ha _).at hx)
      · next hx => exact (ha _).at hx

theorem State.Inv.nextEntry (h : s.Inv) : (s.nextEntry fn).Inv := by
  unfold State.nextEntry
  split
  · exact h
  · refine .ite h ?_
    split
    next hx =>
      extract_lets s1
      have h1 : s1.Inv := State.Inv.modFunc (h.firmAcquire.at_snd hx)
      split
      · exact h1.modFunc.first
      · exact h1.complRecord.retireEntry

theorem formed_adminDoorbell (h : s.Inv) : Formed (execAdminDoorbell fn s) := by
  unfold execAdminDoorbell
  split
  · exact h
  · split
    · exact h
    · exact h.modFunc.nextEntry

theorem formed_admBaseWrite {v : Dword} (h : s.Inv) : Formed (execAdmBaseWrite fn v s) := h.modFunc

theorem formed_onContext {act : Func → Ctx → State → Done × State} (h : s.Inv) (ha : ∀ f c, (act f c s).2.Inv) :
    Formed (onContext fn compl cid s act) := formed_command h fun f => by
  split
  · exact h
  · exact ha f _

/-! ## Shootdowns and scrubs -/

theorem State.Inv.dropTlb {p : Seen → Bool} (h : s.Inv) : (s.dropTlb p).Inv := h.same (by rfl)

theorem State.Inv.recallLines {p : Cohort → StashLine → Bool} (h : s.Inv) : (s.recallLines p).Inv :=
  h.foldl fun _ _ ht => ht.flushLines

theorem State.Inv.shoot {va len : Nat} (h : s.Inv) : (s.shoot cid va len).Inv := by
  unfold State.shoot
  split
  · exact h
  · exact h.recallLines.dropTlb

theorem State.Inv.markStores {cids : List Nat} (h : s.Inv) : (s.markStores cids).Inv :=
  h.withThreads (rising_mapVals h.threads fun _ => by split <;> rfl)

theorem State.Inv.scrub {lo : Nat} (h : s.Inv) : (s.scrub pid lo n).Inv :=
  ⟨wf_filter _ h.mem, wf_filter _ h.tags, h.threads, rising_mapVals h.cohorts fun _ => rfl⟩

theorem State.Inv.fqHeader (h : s.Inv) : (s.fqHeader cid ctx).Inv := h.tryAgent keeps_writeVirt

theorem State.Inv.setStage (h : s.Inv) : (s.setStage fn n).Inv := h.modFunc

theorem State.Inv.afterShoot {f : Func} {cids : List Nat} {shoot : State → State} {next : State → Done × State} (h : s.Inv)
    (hs : (shoot s).Inv) (hn : ∀ t, t.Inv → (next t).2.Inv) : (s.afterShoot fn f cids shoot next).2.Inv := by
  unfold State.afterShoot
  extract_lets s1
  have h1 : s1.Inv := .ite hs.markStores h
  exact .snd_ite h1.setStage (hn _ h1.performAll)

theorem State.Inv.shootFrames {lo : Nat} (h : s.Inv) : (s.shootFrames pid lo n).Inv := h.foldl fun _ _ ht => ht.shoot

/-! ## Commands on contexts -/

theorem formed_ctxCreate {desc : Nat} (h : s.Inv) : Formed (execCtxCreate fn compl desc s) := formed_command h fun f => by
  refine .snd_ite h (.snd_ite h (.snd_ite h.firmRead (.snd_ite h.firmRead ?_)))
  split
  · exact h.firmRead
  · exact h.firmRead
  · split
    next hx => exact State.Inv.fqHeader (State.Inv.same ((State.Inv.pick h.firmRead).at hx) (by rfl))

theorem State.Inv.abortDevq (h : s.Inv) : (s.abortDevq cid).Inv := (State.Inv.same h (by rfl)).foldl fun t x ht => by
  split
  · exact ht
  · exact ht.addLaunch.refuse

theorem State.Inv.dropContext (h : s.Inv) : (s.dropContext cid ctx).Inv := by
  unfold State.dropContext
  extract_lets _ s1 s2
  have h1 : s1.Inv := h.same (by rfl)
  have h2 : s2.Inv := h1.foldl fun _ _ ht => ht.scrub
  exact h2.same (by rfl)

/-- The launches of a context ended and signaled (R335). -/
theorem State.Inv.endLaunchesOf {xs : List (Nat × Launch)} (h : s.Inv) :
    (xs.foldl (fun s l => if l.2.cid = cid && !l.2.signaled then (s.endLaunch l.1 st).signal l.1 else s) s).Inv :=
  h.foldl fun _ _ ht => .ite ht.endLaunch.signal ht

theorem formed_ctxDestroy (h : s.Inv) : Formed (execCtxDestroy fn compl cid s) :=
  formed_onContext h fun _ _ => h.endLaunchesOf.abortDevq.dropContext

theorem formed_qBind {qcb : Nat} (h : s.Inv) : Formed (execQBind fn compl cid qcb sec s) := formed_onContext h fun f c => by
  refine .snd_ite h (.snd_ite h (.snd_ite h ?_))
  dsimp only
  split
  · next hx => exact h.agentRead.at hx
  · next hx =>
    have hr := h.agentRead.at hx
    refine .snd_ite hr (.snd_ite hr ?_)
    split
    · exact hr
    · exact (State.Inv.same hr (by rfl)).qcbWrite

theorem formed_qUnbind {qn : Nat} (h : s.Inv) : Formed (execQUnbind fn compl sec qn s) := formed_command h fun f => by
  split
  · exact h
  · exact .snd_ite h h.unbind

theorem State.Inv.holdCommand {abort : Bool} (h : s.Inv) : (s.holdCommand cid n abort).Inv := h.modCtx

theorem formed_faultReplay {idx : Nat} (h : s.Inv) : Formed (execFaultReplay fn compl cid idx s) :=
  formed_onContext h fun f c => by
    split
    · exact h
    · exact .ite h.replay h.holdCommand

theorem formed_faultAbort {idx : Nat} (h : s.Inv) : Formed (execFaultAbort fn compl cid idx s) :=
  formed_onContext h fun f c => by
    split
    · exact h
    · exact .ite h.abortRecord h.holdCommand

theorem formed_shootdown {va len : Nat} (h : s.Inv) : Formed (execShootdown fn compl cid va len s) :=
  formed_onContext h fun _ _ => h.afterShoot h.shoot fun _ ht => ht

theorem formed_frameAssign {frame : Nat} (h : s.Inv) : Formed (execFrameAssign fn compl cid frame n s) :=
  formed_onContext h fun _ _ => .snd_ite h (.snd_ite h (h.same (by rfl)))

theorem formed_frameRelease {frame : Nat} (h : s.Inv) : Formed (execFrameRelease fn compl cid frame n s) :=
  formed_onContext h fun _ _ => .snd_ite h (.snd_ite h.scrub (.snd_ite h
    (h.afterShoot h.shootFrames fun _ ht => State.Inv.setStage (State.Inv.same ht (by rfl)))))

theorem formed_watchSet {slot scope core : Nat} {addr ctl : Dword} (h : s.Inv) :
    Formed (execWatchSet fn compl cid slot scope core addr ctl s) := formed_onContext h fun _ _ => .snd_ite h (h.same (by rfl))

theorem formed_binAbort {bin : Nat} (h : s.Inv) : Formed (execBinAbort fn compl sec bin s) := formed_command h fun f => by
  refine .snd_ite h ?_
  split
  · exact h
  · split
    · exact h
    · exact h.endLaunch.signal

/-! ## Images -/

theorem rising_overlayMap {base new : Assoc α} (r : rising 0 base = true) : rising 0 (overlayMap base new) = true :=
  rising_foldl_aset r

theorem formed_migSave (h : s.Inv) : Formed (execMigSave fn compl cid s) := by
  have hs : (s.switchOut cid).Inv := h.switchOut
  generalize hw : s.switchOut cid = w at hs
  refine formed_onContext h fun _ _ => ?_
  rw [hw]
  exact .snd_ite hs (.snd_ite h (State.Inv.same h.freshId (by rfl)))

theorem State.Inv.install {im : Image} (h : s.Inv) : (s.install im fn cid pid).Inv :=
  ⟨h.mem, h.tags, rising_overlayMap h.threads, rising_overlayMap h.cohorts⟩

theorem formed_migRestore {image : Nat} (h : s.Inv) : Formed (execMigRestore fn compl image s) := formed_command h fun f => by
  split
  · exact h
  · refine .snd_ite h (.snd_ite h (.snd_ite h (.snd_ite h ?_)))
    extract_lets free
    clear_value free
    split
    · exact h
    · exact State.Inv.same ((h.pick (n := free.length)).install (fn := fn)) (by rfl)

theorem formed_gangAssign {gang : Nat} {fns : List Nat} {withdraw : Bool} (h : s.Inv) :
    Formed (execGangAssign fn compl gang fns withdraw s) := formed_command h fun _ =>
  .snd_ite h (.snd_ite h (.snd_ite (h.foldl fun _ _ ht => ht.modFunc) (.snd_ite h (h.foldl fun _ _ ht => ht.modFunc))))

end
end Sys2Proof.Machine
end

section
/-! SUPPORT. The canonical form through partitions, quiesce, resets, sessions and host accesses, the stash and the token (R149 to
R157, R303, R322 to R346). -/

namespace Sys2Proof.Machine

section
variable {s t : State} {n k tid coh lid cid key sec pid st fn compl : Nat} {e : Env} {ctx : Ctx} {hd : Hdr} {a b : Reg}
  {l : Launch} {secs : List Nat}

/-! ## Partitions -/

theorem State.Inv.silence (h : s.Inv) : (s.silence pid).Inv :=
  State.Inv.same (h.foldl (f := fun s l => if l.2.pid = pid then s.endLaunch l.1 stAborted else s) (xs := s.launches)
    fun _ _ ht => .ite ht.endLaunch ht) (by rfl)

theorem State.Inv.destroyContexts (h : s.Inv) : (s.destroyContexts pid).Inv := h.silence.foldl fun _ _ ht => ht.dropContext

theorem State.Inv.scrubAll (h : s.Inv) : (s.scrubAll pid).Inv := ⟨wf_filter _ h.mem, wf_filter _ h.tags, h.threads, h.cohorts⟩

theorem State.Inv.dropBells (h : s.Inv) : (s.dropBells secs).Inv := h.same (by rfl)

theorem State.Inv.applyConfig {cfg : BitVec 8} (h : s.Inv) : (s.applyConfig cfg).Inv := by
  unfold State.applyConfig
  extract_lets _ olds s1
  have h1 : s1.Inv := h.foldl fun _ _ ht => ht.destroyContexts
  clear_value s1
  exact State.Inv.dropBells (State.Inv.foldl (State.Inv.same h1 (by rfl)) fun _ _ ht => ht.scrubAll)

theorem formed_partcfgCommit (h : s.Inv) : Formed (execPartcfgCommit s) := by
  unfold execPartcfgCommit
  extract_lets cfg _ s1
  have h1 : s1.Inv := h.same (by rfl)
  split
  · exact h1.applyConfig
  · exact h1.same (by rfl)

theorem State.Inv.flushSection (h : s.Inv) : (s.flushSection sec).Inv :=
  State.Inv.foldl (State.Inv.same h (by rfl)) fun _ _ ht => ht.flushLines

theorem formed_quiesceRequest (h : s.Inv) : Formed (execQuiesceRequest sec s) := by
  unfold execQuiesceRequest
  split
  · exact h
  · extract_lets _ s1
    have h1 : s1.Inv := h.same (by rfl)
    split
    · exact h1.same (by rfl)
    · exact h1.flushSection.same (by rfl)

theorem State.Inv.releaseSection (h : s.Inv) : (s.releaseSection sec).Inv :=
  State.Inv.foldl (State.Inv.dropBells (State.Inv.same h (by rfl))) fun _ _ ht => ht.doorbell

theorem formed_quiesceRelease (h : s.Inv) : Formed (execQuiesceRelease sec s) := State.Inv.ite h.releaseSection h

theorem formed_hubShootGo (h : s.Inv) : Formed (execHubShootGo s) := by
  unfold execHubShootGo
  extract_lets _ _ s1 _ _
  have h1 : s1.Inv := h.recallLines
  exact h1.same (by rfl)

theorem formed_partSet {cfg : Nat} (h : s.Inv) : Formed (execPartSet fn compl cfg s) := formed_command h fun f => by
  refine .snd_ite h (.snd_ite h (.snd_ite h (.snd_ite h ?_)))
  have hf : ∀ xs : List Nat, (xs.foldl State.flushSection s).Inv := fun _ => h.foldl fun _ _ ht => ht.flushSection
  exact State.Inv.foldl (State.Inv.dropTlb (State.Inv.applyConfig (State.Inv.same (hf _) (by rfl))))
    fun _ _ ht => ht.releaseSection

theorem State.Inv.loseLines (h : s.Inv) : (s.loseLines pid).Inv :=
  h.withCohorts (rising_mapVals h.cohorts fun _ => by split <;> rfl)

theorem State.Inv.resetPartition (h : s.Inv) : (s.resetPartition pid).Inv :=
  State.Inv.dropBells (State.Inv.same (State.Inv.scrubAll (State.Inv.destroyContexts (pid := pid)
    (State.Inv.loseLines (pid := pid) h))) (by rfl))

theorem formed_partReset (h : s.Inv) : Formed (execPartReset fn compl pid s) := formed_command h fun _ =>
  .snd_ite h (.snd_ite h h.resetPartition)

/-! ## Registers, resets and sessions -/

theorem State.Inv.writePartcfg {v : Dword} (h : s.Inv) : (s.writePartcfg v).Inv := .ite (h.same (by rfl)) (h.same (by rfl))

theorem State.Inv.writeShoot {v : Dword} (h : s.Inv) : (s.writeShoot v).Inv := .ite (h.same (by rfl)) (h.same (by rfl))

theorem State.Inv.writeReg {r : DevReg} {v : Dword} (h : s.Inv) : (s.writeReg r v).Inv := by
  cases r with
  | hubPartcfg => exact h.writePartcfg
  | secQctl n => exact .ite h h.first
  | secIlv n => exact h.same (by rfl)
  | secNetb n => exact h.same (by rfl)
  | hubShoot => exact h.writeShoot
  | admBase fn => exact h.first
  | admLog fn => exact h.modFunc
  | admWridx fn => exact h.modFunc
  | admRdidx fn => exact h
  | admEvaddr fn => exact h.modFunc
  | admDb fn => exact .ite h.first h
  | qdb fn sec => exact .ite h.first h

theorem formed_registerWrite {r : DevReg} {v : Dword} (h : s.Inv) : Formed (execRegisterWrite r v s) := h.writeReg

theorem State.Inv.moduleReset (h : s.Inv) : s.moduleReset.Inv :=
  ⟨wf_filter _ h.mem, State.inv_reset.tags, State.inv_reset.threads, State.inv_reset.cohorts⟩

theorem formed_moduleReset (h : s.Inv) : Formed (execModuleReset s) := h.moduleReset

theorem formed_sectionsTrained (h : s.Inv) : Formed (execSectionsTrained s) := by
  unfold execSectionsTrained
  split
  · exact h
  · dsimp only
    split
    · exact h.same (by rfl)
    · exact h.same (by rfl)

theorem formed_trainingFailure (h : s.Inv) : Formed (execTrainingFailure sec s) := by
  unfold execTrainingFailure
  split
  · exact h
  · exact h.same (by rfl)

theorem formed_capUnmet (h : s.Inv) : Formed (execCapUnmet n s) := State.Inv.ite h.postEvent h

theorem formed_heatFluxHigh (h : s.Inv) : Formed (execHeatFluxHigh sec s) := h.same (by rfl)

theorem formed_heatFluxLow (h : s.Inv) : Formed (execHeatFluxLow sec s) := h.same (by rfl)

theorem State.Inv.endFunction (h : s.Inv) : (s.endFunction fn st).Inv := h.foldl fun _ _ ht => ht.endContext

theorem State.Inv.modVf {f : Func → Func} (h : s.Inv) : (s.modVf fn f).Inv := h.same (by rfl)

theorem State.Inv.freezeVf {error : Bool} (h : s.Inv) : (s.freezeVf fn error).Inv := by
  unfold State.freezeVf
  split
  · exact h
  · exact .ite h h.endFunction.modVf

theorem formed_tdiLeaveRun (h : s.Inv) : Formed (execTdiLeaveRun fn s) := h.modVf

theorem formed_ideIntegrityFailure (h : s.Inv) : Formed (execIdeIntegrityFailure fn s) := h.freezeVf

theorem formed_pluginPmpBreach (h : s.Inv) : Formed (execPluginPmpBreach fn s) := h.freezeVf

theorem formed_vfReset (h : s.Inv) : Formed (execVfReset fn s) := h.modVf

theorem formed_tdispRequest {target : TdiState} (h : s.Inv) : Formed (execTdispRequest fn target s) := by
  cases target with
  | error => exact h.freshId.freezeVf
  | configLocked => exact h.freshId.modVf
  | run => exact h.freshId.modVf
  | configUnlocked => exact h.freshId.modVf

theorem State.Inv.removeVfs (h : s.Inv) : s.removeVfs.Inv := by
  unfold State.removeVfs
  extract_lets s1
  have h1 : s1.Inv := h.foldl fun _ _ ht => ht.endLaunchesOf.abortDevq.dropContext
  clear_value s1
  exact h1.same (by rfl)

theorem formed_pcieConfiguration {vfs : Nat} {part plugin : List Nat} (h : s.Inv) :
    Formed (execPcieConfiguration vfs part plugin s) := by
  unfold execPcieConfiguration
  split
  · exact h.removeVfs
  · split
    · exact h
    · exact h.same (by rfl)

/-! ## The host, the links and the firmware -/

theorem State.Inv.hostRead (h : s.Inv) : (s.hostRead key n).Inv := h.readMem.same (by rfl)

theorem State.Inv.hostWrite {data : List Byte} (h : s.Inv) : (s.hostWrite key data).Inv := by
  unfold State.hostWrite
  extract_lets s1
  have h1 : s1.Inv := h.writeMem
  split
  · exact h1.same (by rfl)
  · exact h1

theorem formed_hostRequesterAccess {write : Bool} {addr : Nat} {data : List Byte} (h : s.Inv) :
    Formed (execHostRequesterAccess write pid addr data s) := by
  unfold execHostRequesterAccess
  split
  · trivial
  · split
    · exact h.hostWrite
    · exact h.hostRead

theorem formed_correctedError {stage : CheckStage} (h : s.Inv) : Formed (execCorrectedError stage s) := h.same (by rfl)

theorem formed_firmwareUpdate {signed : Bool} (h : s.Inv) : Formed (execFirmwareUpdate n signed s) :=
  State.Inv.ite (h.same (by rfl)) h

theorem State.Inv.modPort {f : Port → Port} (h : s.Inv) : (s.modPort n f).Inv := h.same (by rfl)

theorem formed_flitReceive {crcOk : Bool} (h : s.Inv) : Formed (execFlitReceive n crcOk s) := by
  unfold execFlitReceive
  extract_lets p
  split
  · exact h
  · split
    · exact h.modPort
    · split
      · exact h.modPort
      · exact h.first

theorem formed_linkDown (h : s.Inv) : Formed (execLinkDown n s) := h.modPort

theorem formed_linkTrained (h : s.Inv) : Formed (execLinkTrained n s) := h.modPort

/-! ## The stash -/

theorem keeps_addStashOp : Keeps (addStashOp e) := keeps_modify fun _ h => h.freshId.modThread

theorem formed_smap {m : BitVec 3} (h : s.Inv) : Formed (execSmap hd m a b s) := formed_threadOp h fun e => by
  refine keeps_check fun _ => keeps_get.bind fun _ => keeps_check fun _ => ?_
  extract_lets _ _ rest
  have hr : ∀ u, Keeps (rest u) := fun _ => (keeps_modify fun _ h => h.modCohort).bind fun _ => keeps_pure
  dsimp only
  split
  · exact .ite keeps_pure ((keeps_modify fun _ h => h.flushLines).bind fun _ => keeps_addStashOp.bind hr)
  · exact hr ()

theorem keeps_stashRange {c : Cohort} {x : Nat} : Keeps (stashRange c x n) := .ite keeps_pure keeps_throw

theorem formed_sflush (h : s.Inv) : Formed (execSflush hd a b s) := formed_threadOp h fun _ =>
  keeps_stashRange.bind fun _ => .ite keeps_pure
    ((keeps_modify fun _ h => h.flushLines).bind fun _ => keeps_addStashOp.bind fun _ => keeps_pure)

theorem State.Inv.discardLines {lo hi : Nat} (h : s.Inv) : (s.discardLines coh lo hi).Inv := by
  unfold State.discardLines
  split
  · exact h
  · exact State.Inv.modCohort (h.same (by rfl))

theorem formed_sinv (h : s.Inv) : Formed (execSinv hd a b s) := formed_threadOp h fun _ =>
  keeps_stashRange.bind fun _ => (keeps_modify fun _ h => h.discardLines).bind fun _ => keeps_pure

theorem formed_stashRecall {line : Nat} {write : Bool} (h : s.Inv) : Formed (execStashRecall coh line write s) := h.dropLine

theorem formed_stashEviction {line : Nat} (h : s.Inv) : Formed (execStashEviction coh line s) := h.dropLine

theorem formed_stashWriteBackRetire (h : s.Inv) : Formed (execStashWriteBackRetire tid n s) := State.Inv.ite h h.modThread.reap

/-! ## The token -/

theorem State.Inv.createDue {j i : Nat} (h : s.Inv) : (s.createDue lid j i l).2.Inv := by
  unfold State.createDue
  extract_lets home coord cs
  refine .snd_ite h.clearRoom.createCohort ?_
  split
  · split
    next hx =>
      refine State.Inv.seekRoom ?_
      split at hx
      · cases hx
        exact h
      · split at hx
        · cases hx
          exact h
        · cases hx
          exact h.pick
  · split
    next hx => exact State.Inv.createCohort (State.Inv.clearRoom (h.pick.at hx))

theorem State.Inv.fillCore {j fuel : Nat} (h : s.Inv) : (s.fillCore lid j fuel).2.Inv := by
  induction fuel generalizing s with
  | zero => exact h
  | succ f ih =>
    unfold State.fillCore
    split
    · exact h
    · split
      · exact h
      · split
        · next hx => exact ih (h.createDue.at hx)
        · next hx => exact h.createDue.at hx

theorem State.Inv.fillDue (h : s.Inv) : (s.fillDue lid l).2.Inv :=
  .snd_ite h (List.foldlRecOn (motive := fun x : Bool × State => x.2.Inv) _ _ h fun _ hx _ _ => .snd_ite hx.fillCore hx)

theorem State.Inv.receive (h : s.Inv) : (s.receive lid).Inv := by
  unfold State.receive
  split
  · exact h
  · split
    · exact h
    · exact h.foldl fun _ _ ht => ht.joinThread

theorem State.Inv.passToken {w : Nat} {rest : List Nat} (h : s.Inv) : (s.passToken lid w rest).Inv := by
  unfold State.passToken
  split
  next hx =>
    refine State.Inv.receive (State.Inv.modLaunch (State.Inv.at ?_ hx))
    exact List.foldlRecOn (motive := fun x : List Nat × State => x.2.Inv) _ _ h fun _ hx _ _ => hx.carry

theorem State.Inv.beginRound (h : s.Inv) : (s.beginRound lid l).Inv := by
  unfold State.beginRound
  split
  · next hx => exact h.fillDue.at hx
  · next hx => exact State.Inv.receive (State.Inv.modLaunch (h.fillDue.at hx))

theorem State.Inv.ringCanNow {r pers : Nat} {op : Instr} (h : s.Inv) : (s.ringCanNow tid r pers op).2.Inv := by
  unfold State.ringCanNow
  split
  · exact h
  · split
    · next hx => exact (keeps_ringCan _ h).inv hx
    · exact h.keepDraws

theorem State.Inv.tokenCan {need : TokenNeed} (h : s.Inv) : (s.tokenCan tid need).2.Inv := by
  unfold State.tokenCan
  split
  · exact h
  · split
    · exact h
    · exact h.ringCanNow
    · exact h.ringCanNow
    · exact h
    · exact h
    · split
      · exact h
      · split
        · exact h.keepDraws
        · exact h.keepDraws

theorem State.Inv.tokenLane {ts : List (Nat × Thread)} (h : s.Inv) : (s.tokenLane ts).2.Inv := by
  induction ts generalizing s with
  | nil => exact h
  | cons x rest ih =>
    unfold State.tokenLane
    split
    · split
      · next hx => exact h.tokenCan.at hx
      · next hx => exact ih (h.tokenCan.at hx)
    · exact ih h

theorem State.Inv.performToken {x : Thread} {need : TokenNeed} (h : s.Inv) : (s.performToken tid x need).Inv := by
  unfold State.performToken
  refine .ite h.modThread ?_
  split
  · split
    · exact h
    · exact h.modThread.endOp (Keeps.bind keeps_awaitRead (fun _ => .ite keeps_awaitEnd keeps_tokenStop) _ h.modThread)
  · exact h.modThread

theorem State.Inv.visit {w : Nat} {rest : List Nat} (h : s.Inv) : (s.visit lid w rest).Inv := by
  unfold State.visit
  split
  · exact h.passToken
  · extract_lets ts
    refine .ite h ?_
    split
    · next hx => exact State.Inv.performToken (h.tokenLane.at hx)
    · next hx => exact State.Inv.passToken (h.tokenLane.at hx)

theorem formed_tokenVisit (h : s.Inv) : Formed (execTokenVisit lid s) := by
  unfold execTokenVisit
  split
  · exact h
  · split
    · exact h
    · split
      · exact h.beginRound
      · exact h.visit

end
end Sys2Proof.Machine
end

section
/-! SUPPORT. The canonical form through every instruction and event, through the issue of threads and through a step (R8, R253,
R285). -/

namespace Sys2Proof.Machine

section
variable {s : State} {tid pers cid fn : Nat} {e : Env} {i : Instr}

/-! ## Every instruction and event -/

theorem formed_nop {hd : Hdr} (h : s.Inv) : Formed (execNop hd s) := formed_aluOp h

theorem formed_yieldOp {hd : Hdr} (h : s.Inv) : Formed (execYieldOp hd s) := formed_aluOp h

/-- By the instruction: register ops, convergence ops and the messages of a session each have one lemma, the others their own. -/
theorem formed_exec (h : s.Inv) : Formed (exec i s) :=
  match i with
  | .iadd .. | .isub .. | .imul .. | .imulh .. | .imad .. | .imin .. | .imax .. | .iabs .. | .isetp .. | .idp4 ..
  | .shl .. | .shr .. | .shf .. | .logt .. | .bfe .. | .bfi .. | .popc .. | .clz .. | .brev .. | .pswz .. | .lea ..
  | .sel .. | .mov .. | .movX .. | .moviShort .. | .moviLong .. | .fadd .. | .fmul .. | .ffma .. | .fmin .. | .fmax ..
  | .fsetp .. | .frnd .. | .fclass .. | .padd .. | .pmul .. | .pfma .. | .pminmax .. | .sfn .. | .cvt .. | .qnt ..
  | .lmul .. | .ladd .. | .plop3 .. | .pmovP2r .. | .pmovR2p .. | .pref .. | .rand ..
  | .feat .. => formed_aluOp h
  | .shfl .. | .vote .. | .redw .. | .matchOp .. | .elane .. | .mmap .. | .mmal .. | .accz .. | .accld ..
  | .accst .. => formed_convOp h
  | .getVersion | .getCapabilities | .negotiateAlgorithms | .getDigests | .getCertificate | .challenge
  | .getMeasurements | .keyExchange | .finish | .endSession => State.Inv.same h (by rfl)
  | .nop .. => formed_nop h
  | .yieldOp .. => formed_yieldOp h
  | .ld .. => formed_ld h
  | .ldt .. => formed_ldt h
  | .ldl .. => formed_ldl h
  | .st .. => formed_st h
  | .stl .. => formed_stl h
  | .stt .. => formed_stt h
  | .atom .. => formed_atom h
  | .red .. => formed_red h
  | .pgreq .. => formed_pgreq h
  | .smap .. => formed_smap h
  | .sflush .. => formed_sflush h
  | .sinv .. => formed_sinv h
  | .cflush .. => formed_cflush h
  | .acpy .. => formed_acpy h
  | .acpyt .. => formed_acpyt h
  | .tagld .. => formed_tagld h
  | .tagst .. => formed_tagst h
  | .waitc .. => formed_waitc h
  | .fence .. => formed_fence h
  | .bar .. => formed_bar h
  | .barGrp .. => formed_barGrp h
  | .await .. => formed_await h
  | .awaitReread .. => formed_awaitReread h
  | .backoffImm .. => formed_backoffImm h
  | .backoffReg .. => formed_backoffReg h
  | .backoffExpiry .. => formed_backoffExpiry h
  | .rpost .. => formed_rpost h
  | .rtake .. => formed_rtake h
  | .matrixRetire .. => formed_matrixRetire h
  | .braRel .. => formed_braRel h
  | .braLong .. => formed_braLong h
  | .brx .. => formed_brx h
  | .callRel .. => formed_callRel h
  | .callLong .. => formed_callLong h
  | .callx .. => formed_callx h
  | .ret .. => formed_ret h
  | .exit .. => formed_exit h
  | .threadEnd .. => formed_threadEnd h
  | .skip .. => formed_skip h
  | .trap .. => formed_trap h
  | .bpt .. => formed_bpt h
  | .fetchw .. => formed_fetchw h
  | .binpush .. => formed_binpush h
  | .bindrain .. => formed_bindrain h
  | .launch .. => formed_launch h
  | .rdsys .. => formed_rdsys h
  | .wrsys .. => formed_wrsys h
  | .setctl .. => formed_setctl h
  | .watch .. => formed_watch h
  | .gret .. => formed_gret h
  | .tret .. => formed_tret h
  | .pdone .. => formed_pdone h
  | .xred .. => formed_xred h
  | .xredResultWrite .. => formed_xredResultWrite h
  | .wmov .. => formed_wmov h
  | .walu .. => formed_walu h
  | .bundleForm .. => formed_bundleForm h
  | .rotationTurn .. => formed_rotationTurn h
  | .guestFetchDecode .. => formed_guestFetchDecode h
  | .loadDataReturn .. => formed_loadDataReturn h
  | .copyLand .. => formed_copyLand h
  | .copyPark .. => formed_copyPark h
  | .copyFaultStop .. => formed_copyFaultStop h
  | .walkerEmission .. => formed_walkerEmission h
  | .persistentCohortCreate .. => formed_persistentCohortCreate h
  | .workRequest .. => formed_workRequest h
  | .split .. => formed_split h
  | .withdrawal .. => formed_withdrawal h
  | .makeRoom .. => formed_makeRoom h
  | .replayableDeschedule .. => formed_replayableDeschedule h
  | .readmission .. => formed_readmission h
  | .saveRequest .. => formed_saveRequest h
  | .preemptHandlerEntry .. => formed_preemptHandlerEntry h
  | .cohortSave .. => formed_cohortSave h
  | .forcedSave .. => formed_forcedSave h
  | .timeSliceExpiry .. => formed_timeSliceExpiry h
  | .contextRestore .. => formed_contextRestore h
  | .launchPreemption .. => formed_launchPreemption h
  | .queueDoorbell .. => formed_queueDoorbell h
  | .packetNop .. => formed_packetNop h
  | .packetLaunch .. => formed_packetLaunch h
  | .packetWait .. => formed_packetWait h
  | .packetSignal .. => formed_packetSignal h
  | .queueWaitResume .. => formed_queueWaitResume h
  | .deviceLaunchQueueTake .. => formed_deviceLaunchQueueTake h
  | .gangReservationTimeout => formed_gangReservationTimeout h
  | .gangCommit => formed_gangCommit h
  | .completionSignalWrite .. => formed_completionSignalWrite h
  | .binPushArrival .. => formed_binPushArrival h
  | .binDrainArrival .. => formed_binDrainArrival h
  | .binSpillAutoReplay .. => formed_binSpillAutoReplay h
  | .binAgeExpiry .. => formed_binAgeExpiry h
  | .binPriorityPromotion .. => formed_binPriorityPromotion h
  | .binFireSelect .. => formed_binFireSelect h
  | .binFireComplete .. => formed_binFireComplete h
  | .binArmingEnd .. => formed_binArmingEnd h
  | .tokenVisit .. => formed_tokenVisit h
  | .faultPost .. => formed_faultPost h
  | .uncorrectableError .. => formed_uncorrectableError h
  | .stashRecall .. => formed_stashRecall h
  | .stashEviction .. => formed_stashEviction h
  | .flitReceive .. => formed_flitReceive h
  | .linkDown .. => formed_linkDown h
  | .adminDoorbell .. => formed_adminDoorbell h
  | .admBaseWrite .. => formed_admBaseWrite h
  | .ctxCreate .. => formed_ctxCreate h
  | .ctxDestroy .. => formed_ctxDestroy h
  | .qBind .. => formed_qBind h
  | .qUnbind .. => formed_qUnbind h
  | .faultReplay .. => formed_faultReplay h
  | .faultAbort .. => formed_faultAbort h
  | .shootdown .. => formed_shootdown h
  | .frameAssign .. => formed_frameAssign h
  | .frameRelease .. => formed_frameRelease h
  | .watchSet .. => formed_watchSet h
  | .binAbort .. => formed_binAbort h
  | .migSave .. => formed_migSave h
  | .migRestore .. => formed_migRestore h
  | .partSet .. => formed_partSet h
  | .partReset .. => formed_partReset h
  | .gangAssign .. => formed_gangAssign h
  | .partcfgCommit => formed_partcfgCommit h
  | .quiesceRequest .. => formed_quiesceRequest h
  | .quiesceRelease .. => formed_quiesceRelease h
  | .hubShootGo => formed_hubShootGo h
  | .registerWrite .. => formed_registerWrite h
  | .moduleReset => formed_moduleReset h
  | .sectionsTrained => formed_sectionsTrained h
  | .trainingFailure .. => formed_trainingFailure h
  | .capUnmet .. => formed_capUnmet h
  | .heatFluxHigh .. => formed_heatFluxHigh h
  | .heatFluxLow .. => formed_heatFluxLow h
  | .tdiLeaveRun .. => formed_tdiLeaveRun h
  | .ideIntegrityFailure .. => formed_ideIntegrityFailure h
  | .pluginPmpBreach .. => formed_pluginPmpBreach h
  | .vfReset .. => formed_vfReset h
  | .stashWriteBackRetire .. => formed_stashWriteBackRetire h
  | .hostRequesterAccess .. => formed_hostRequesterAccess h
  | .pcieConfiguration .. => formed_pcieConfiguration h
  | .tdispRequest .. => formed_tdispRequest h
  | .correctedError .. => formed_correctedError h
  | .firmwareUpdate .. => formed_firmwareUpdate h
  | .linkTrained .. => formed_linkTrained h

/-! ## The issue of a thread's next op -/

theorem State.Inv.standIn {k : RegKey} (h : s.Inv) : (State.standIn tid s k).Inv := by
  unfold State.standIn
  split
  · exact h
  · exact .ite h.pick h.pick.modThread

theorem State.Inv.raceFor {k : RegKey} (h : s.Inv) : (State.raceFor tid s k).Inv := by
  unfold State.raceFor
  split
  · exact h
  · exact .ite h.pick h.pick.modThread

theorem State.Inv.standInAll {ks : List RegKey} (h : s.Inv) : (ks.foldl (State.standIn tid) s).Inv :=
  h.foldl fun _ _ ht => ht.standIn

theorem State.Inv.unsettled (h : s.Inv) : (s.unsettled tid i).Inv := by
  unfold State.unsettled
  extract_lets th g s1 act s2
  have h1 : s1.Inv := h.standInAll
  have h2 : s2.Inv := .ite h1.standInAll h1
  exact .ite (h2.foldl fun _ _ ht => ht.raceFor) h2

theorem formed_runOp (h : s.Inv) : Formed (s.runOp tid pers i) := by
  have hx : Formed (exec i { s with cur := some { tid := tid, pers := pers } }) := formed_exec (h.same (by rfl))
  unfold State.runOp
  split
  · next t ht =>
    rw [ht] at hx
    exact State.Inv.commitStores (State.Inv.modThread (State.Inv.same hx (by rfl)))
  · exact hx

theorem formed_issueNative {p : Place} (h : s.Inv) : Formed (s.issueNative e p) := by
  unfold State.issueNative
  split
  · exact h.keepDraws.takeFault
  · extract_lets s1
    have h1 : s1.Inv := h.keepDraws
    split
    split
    · exact h1.takeFault
    · split
      · exact h1.takeFault
      · exact formed_runOp (.ite h1 h1.unsettled)

theorem formed_issueExp (h : s.Inv) : Formed (s.issueExp tid) := by
  unfold State.issueExp
  split
  · exact h
  · split
    · exact h
    · exact formed_runOp h

theorem formed_issueThread (h : s.Inv) : Formed (s.issueThread tid) := by
  unfold State.issueThread
  split
  · exact h
  · split
    · exact h
    · split
      · exact h.enterEmu
      · split
        · exact formed_exec h
        · extract_lets s1
          have h1 : s1.Inv := h.keepDraws
          split
          · exact formed_issueExp h1
          · split
            · exact h1.keepDraws.takeFault
            · extract_lets s2
              have h2 : s2.Inv := h1.keepDraws
              have hg : Formed (exec (.guestFetchDecode tid) s2) := formed_exec h2
              split
              · exact formed_issueNative h2
              · split
                · next ht =>
                  rw [ht] at hg
                  exact formed_issueExp hg
                · exact hg

theorem formed_issueNext (h : s.Inv) : Formed s.issueNext := by
  unfold State.issueNext
  split
  · exact h
  · exact formed_issueThread (State.Inv.modThread (h.same (by rfl)))

/-! ## What the module does of its own accord -/

theorem State.Inv.endDue (h : s.Inv) : s.endDue.Inv := State.Inv.foldl (State.Inv.same h (by rfl)) fun _ _ ht => ht.endLaunch

theorem State.Inv.stopLost (h : s.Inv) : s.stopLost.Inv :=
  State.Inv.foldl (State.Inv.same h (by rfl)) fun _ _ ht => ht.stopPartition

theorem formed_serve (h : s.Inv) : Formed (s.serve fn) := by
  unfold State.serve
  split
  · exact formed_exec h
  · exact h.nextEntry

theorem formed_act {a : Act} (h : s.Inv) : Formed (s.act a) := by
  cases a with
  | event i => exact formed_exec h
  | perform => exact h.performAll
  | serve fn => exact formed_serve h
  | matrix coh => exact State.Inv.ite h h.computeMatrix
  | advance id => exact h.advanceCopy
  | powerCap => exact State.Inv.same (h.pick (n := 1600001)) (by rfl)

theorem formed_runInternal (h : s.Inv) : Formed s.runInternal := by
  unfold State.runInternal
  extract_lets as
  split
  next hx =>
    have ht := State.Inv.at (State.Inv.snd_ite h h.pick) hx
    split
    · exact formed_act (ht.same (by rfl))
    · exact ht

/-! ## A step -/

/-- By what a step turns to: a lost write-back, the agenda, a thread of the bundles, the launches that end, or the module. -/
theorem formed_turn (h : s.Inv) : Formed s.turn := by
  unfold State.turn
  split
  · exact h.stopLost
  · split
    · exact formed_exec (h.same (by rfl))
    · split
      · exact formed_issueNext h
      · split
        · exact h.endDue
        · exact formed_runInternal h

end

/-- Settles O57: every function of the model that answers a state keeps the four tables of the invariant in canonical form. -/
theorem stepKeepsForm : Obligations.StepKeepsForm := by
  intro s t h hs
  exact (formed_turn h).inv hs

end Sys2Proof.Machine
end

section
/-! SUPPORT. The frame of the reads and checks of an access where no stash line stands (R237, R238): beside what every access
leaves, memory and cohorts are as they were. -/

namespace Sys2Proof.Machine

/-- State t has only observed s, and where there is no stash line to recall it has the same memory and cohorts. -/
structure State.Still (s t : State) : Prop where
  observed : s.Observed t
  calm : s.noStash → t.mem = s.mem ∧ t.cohorts = s.cohorts

theorem State.Still.of_rest {s t : State} (h : t = { s with free := t.free, seen := t.seen }) : s.Still t := by
  refine ⟨.of_rest ?_, fun _ => ?_⟩ <;> rw [h]
  exact ⟨rfl, rfl⟩

theorem State.Still.refl (s : State) : s.Still s := .of_rest rfl

theorem State.Still.noStash {s t : State} (h : s.Still t) (hs : s.noStash) : t.noStash := by
  unfold State.noStash
  rw [(h.calm hs).2]
  exact hs

theorem State.Still.trans {a b c : State} (h : a.Still b) (g : b.Still c) : a.Still c := by
  refine ⟨h.observed.trans g.observed, fun hs => ?_⟩
  obtain ⟨hm, hc⟩ := h.calm hs
  obtain ⟨gm, gc⟩ := g.calm (h.noStash hs)
  exact ⟨gm.trans hm, gc.trans hc⟩

theorem State.Still.foldl {α : Type} {f : State → α → State} (hf : ∀ (s : State) (x : α), s.Still (f s x)) (xs : List α)
    (s : State) : s.Still (xs.foldl f s) :=
  List.foldlRecOn (motive := s.Still) xs f (.refl s) fun t ht x _ => ht.trans (hf t x)

/-! ## State -/

theorem State.pick_still (s : State) (n : Nat) : s.Still (s.pick n).2 := .of_rest (by rw [State.pick_state])

theorem State.note_still (s : State) (what cluster cid addr : Nat) (v : List Byte) :
    s.Still (s.note what cluster cid addr v) := by
  unfold State.note
  dsimp only
  split_ifs <;> exact .of_rest rfl

theorem State.boundSeen_still (s : State) (what : List Nat) (cluster n : Nat) (grp : Seen → Nat) :
    s.Still (s.boundSeen what cluster n grp) := by
  unfold State.boundSeen
  dsimp only
  split_ifs
  · exact .refl s
  · split
    · exact s.pick_still _
    · exact (s.pick_still _).trans (.of_rest rfl)

theorem State.noteUsed_still (s : State) (cl cid va : Nat) (r : Walked × List (Nat × Nat)) :
    s.Still (s.noteUsed cl cid va r) := by
  have h := State.Still.foldl (fun s (x : Nat × Nat) => s.note_still 4 cl cid x.1 (leBytes 8 x.2)) r.2 s
  unfold State.noteUsed
  dsimp only
  split
  · split_ifs
    · exact (h.trans (State.note_still ..)).trans (State.boundSeen_still ..)
    · exact h
  · exact h

theorem chooseSeen_still (o : Ord) (ms seen : List Msg) (s : State) : s.Still (chooseSeen o ms seen s).2.2 := by
  induction ms generalizing seen s with
  | nil => exact .refl s
  | cons m t ih =>
    rw [chooseSeen]
    split_ifs
    · exact ih ..
    · dsimp only
      split_ifs <;> exact (s.pick_still 2).trans (ih ..)

theorem State.recall_still (s : State) (key n : Nat) (write : Bool) : s.Still (s.recall key n write) :=
  ⟨s.recall_observed key n write, fun hs => by rw [State.recall_noStash hs]; exact ⟨rfl, rfl⟩⟩

theorem State.setOrd_still (s : State) (tid : Nat) (o : Ord) : s.Still (s.setOrd tid o) :=
  ⟨s.setOrd_observed tid o, fun _ => ⟨rfl, rfl⟩⟩

/-! ## Computations -/

/-- Where the computation ends well, it has only observed, and has left memory and cohorts where no stash line stands. -/
structure Rests {α : Type} (x : M α) : Prop where
  still : ∀ (s t : State) (a : α), x s = .ok a t → s.Still t

theorem rests_pure {α : Type} (a : α) : Rests (pure a : M α) := ⟨fun s _ _ h => by cases h; exact .refl s⟩

theorem rests_throw {α : Type} (f : FaultInfo) : Rests (throw f : M α) := ⟨fun _ _ _ h => by cases h⟩

theorem rests_get : Rests (get : M State) := ⟨fun s _ _ h => by cases h; exact .refl s⟩

theorem Rests.bind {α β : Type} {x : M α} {f : α → M β} (hx : Rests x) (hf : ∀ a, Rests (f a)) : Rests (x >>= f) := by
  refine ⟨fun s t b h => ?_⟩
  cases hxs : x s with
  | ok a s' =>
    rw [bind_ok hxs] at h
    exact (hx.still s s' a hxs).trans ((hf a).still s' t b h)
  | error f' s' =>
    rw [bind_error hxs] at h
    cases h

theorem Rests.ite {α : Type} {c : Prop} [Decidable c] {x y : M α} (hx : Rests x) (hy : Rests y) :
    Rests (if c then x else y) := by
  split
  · exact hx
  · exact hy

/-- A check that throws where a condition holds, before the rest. -/
theorem rests_ite_throw {α : Type} {c : Prop} [Decidable c] {f : FaultInfo} {rest : PUnit → M α}
    (h : ∀ r, Rests (rest r)) : Rests (if c then throw f >>= rest else rest ⟨⟩) :=
  .ite ((rests_throw f).bind h) (h ⟨⟩)

/-- A free choice, where there is one. -/
theorem rests_of_pick {α : Type} {x : M α} (h : ∀ s, (∃ a n, x s = .ok a (s.pick n).2) ∨ ∃ a, x s = .ok a s) :
    Rests x := by
  refine ⟨fun s t a hx => ?_⟩
  obtain ⟨b, n, hb⟩ | ⟨b, hb⟩ := h s
  · cases hb.symm.trans hx
    exact s.pick_still n
  · cases hb.symm.trans hx
    exact .refl s

theorem readMemM_rests (key n : Nat) : Rests (readMemM key n) :=
  ⟨fun s t a h => by cases h; exact s.recall_still key n false⟩

theorem walkM_rests (w : Who) (va : VAddr) : Rests (walkM w va) := by
  refine ⟨fun s t a h => ?_⟩
  unfold walkM at h
  split at h
  · cases h
    exact .refl s
  · cases h
    exact (s.pick_still _).trans (State.noteUsed_still ..)

theorem linkNeedM_rests (key : Nat) : Rests (linkNeedM key) := by
  refine rests_of_pick fun s => ?_
  unfold linkNeedM
  split
  · exact .inl ⟨_, 2, rfl⟩
  · exact .inr ⟨_, rfl⟩

theorem linkNeedWalk_rests (w : Who) (va : VAddr) : Rests (linkNeedWalk w va) := by
  refine rests_of_pick fun s => ?_
  unfold linkNeedWalk
  split
  · exact .inl ⟨_, 2, rfl⟩
  · exact .inr ⟨_, rfl⟩

theorem walkFor_rests (w : Who) (a : Access) : Rests (walkFor w a) := by
  unfold walkFor
  refine rests_ite_throw fun _ => (linkNeedWalk_rests ..).bind fun _ => rests_get.bind fun _ => ?_
  exact rests_ite_throw fun _ => walkM_rests ..

theorem placeOf_rests (w : Who) (a : Access) (r : Walked) : Rests (placeOf w a r) := by
  cases r with
  | unmapped => exact rests_throw _
  | format pa => exact rests_throw _
  | leaf pte log =>
    refine rests_ite_throw fun _ => rests_get.bind fun s => ?_
    dsimp only
    split
    · exact rests_ite_throw fun _ => rests_pure _
    · exact rests_throw _

theorem checkTo3_rests (w : Who) (a : Access) : Rests (checkTo3 w a) := (walkFor_rests ..).bind fun _ => placeOf_rests ..

theorem checkWatch_rests (w : Who) (a : Access) : Rests (checkWatch w a) := by
  refine rests_get.bind fun s => ?_
  split
  · exact rests_throw _
  · exact rests_pure _

theorem seeTag_rests (w : Who) (fx : Bool) (key : Nat) : Rests (seeTag w fx key) := by
  refine ⟨fun s t a h => ?_⟩
  unfold seeTag at h
  dsimp only at h
  split at h
  · cases h
    exact .refl s
  · split at h
    · cases h
      split
      · exact (chooseSeen_still ..).trans (State.setOrd_still ..)
      · exact chooseSeen_still ..
    · cases h
      exact .refl s

theorem checkTag_rests (w : Who) (a : Access) (p : Place) : Rests (checkTag w a p) := by
  unfold checkTag
  refine .ite ((seeTag_rests ..).bind fun t => ?_) (rests_pure _)
  exact .ite (rests_throw _) (rests_pure _)

theorem checkFrom4_rests (w : Who) (a : Access) (p : Place) : Rests (checkFrom4 w a p) :=
  (checkWatch_rests ..).bind fun _ => .ite ((checkTag_rests ..).bind fun _ => rests_pure _) (rests_pure _)

/-- The checks of an access. -/
theorem checkPlace_rests (w : Who) (a : Access) : Rests (checkPlace w a) :=
  (checkTo3_rests ..).bind fun _ => (checkFrom4_rests ..).bind fun _ => .ite (rests_pure _) (rests_throw _)

theorem checkRead_rests (w : Who) (a : Access) : Rests (checkRead w a) :=
  (checkPlace_rests ..).bind fun _ => (linkNeedM_rests _).bind fun _ => rests_ite_throw fun _ => rests_pure _

/-- A read of physical memory by a thread. -/
theorem readSeenM_rests (e : Env) (acq : Option Scope) (key n : Nat) : Rests (readSeenM e acq key n) :=
  (readMemM_rests ..).bind fun _ => ⟨fun s t a h => by
    cases h
    exact (chooseSeen_still ..).trans (State.setOrd_still ..)⟩

/-! ## The element, its format and its scale -/

theorem structUnits_rests (w : Who) (ptr : Dword) (acc unit units : Nat) : Rests (structUnits w ptr acc unit units) := by
  induction units generalizing ptr with
  | zero => exact rests_pure _
  | succ u ih => exact (checkRead_rests ..).bind fun _ => (readMemM_rests ..).bind fun _ => (ih _).bind fun _ => rests_pure _

theorem readPieces_rests (w : Who) (ps : List (Nat × List Byte)) : Rests (readPieces w ps) := by
  refine rests_of_pick fun s => ?_
  unfold readPieces
  split
  · exact .inr ⟨_, rfl⟩
  · exact .inl ⟨_, _, rfl⟩

theorem cached_rests (names : List (Nat × Nat)) (cluster cid : Nat) (keep : Bool) (cur : List Byte) :
    Rests (cached names cluster cid keep cur) := by
  refine ⟨fun s t a h => ?_⟩
  have hn : s.Still (if keep then names.foldl (fun s k => s.note k.1 cluster cid k.2 cur) s else s) := by
    split
    · exact .foldl (fun t k => t.note_still ..) names s
    · exact .refl s
  cases h
  exact hn.trans (State.pick_still ..)

theorem readDesc_rests (w : Who) (ctx : Ctx) (d : Nat) : Rests (readDesc w ctx d) := by
  unfold readDesc
  refine .ite (rests_pure _) ⟨fun s t a h => ?_⟩
  extract_lets one at h
  have hone : Rests one := (structUnits_rests ..).bind (readPieces_rests w)
  rw [bind_ok (get_ok s)] at h
  cases hr : one s with
  | error f s' =>
    rw [hr] at h
    simp only [bind_ok (set_ok ..)] at h
    split at h
    · cases h
    · cases h
      exact .of_rest rfl
  | ok x s' =>
    have hs := hone.still _ _ _ hr
    rw [hr] at h
    simp only [bind_ok (set_ok ..)] at h
    cases hw : w.cluster with
    | none =>
      rw [hw] at h
      cases h
      exact hs
    | some cl =>
      rw [hw] at h
      exact hs.trans (((cached_rests ..).bind fun _ => rests_pure _).still _ _ _ h)

theorem descFor_rests (w : Who) (ctx : Ctx) (d : Nat) : Rests (descFor w ctx d) := by
  refine ⟨fun s t a h => ?_⟩
  unfold descFor at h
  split at h
  · next hok =>
    cases h
    exact (readDesc_rests w ctx d).still _ _ _ hok
  · cases h
    exact .of_rest rfl

theorem elementAccess_rests (e : Env) (ptr : Dword) (store : Bool) : Rests (elementAccess e ptr store) := by
  refine (checkTo3_rests ..).bind fun _ => (descFor_rests ..).bind fun _ => ?_
  split
  · exact rests_pure _
  · exact rests_pure _

theorem formatCheck_rests (dr : Except FaultInfo (Option Desc)) (a : Access) : Rests (formatCheck dr a) := by
  unfold formatCheck
  split
  · exact rests_throw _
  · exact rests_throw _
  · exact .ite (rests_throw _) (rests_pure _)

theorem elementOf_rests (x : Access) (dr : Except FaultInfo (Option Desc)) (hi : Bool) : Rests (elementOf x dr hi) :=
  (formatCheck_rests ..).bind fun _ => rests_ite_throw fun _ => rests_pure _

theorem readScale_rests (w : Who) (d : Desc) (a : Dword) (acc : Nat) (buf : List BufStore) {rd : Nat → Nat → M (List Byte)}
    (hr : ∀ k n, Rests (rd k n)) : Rests (readScale w d a acc buf rd) := by
  unfold readScale
  refine .ite (rests_pure _) ((checkTo3_rests ..).bind fun _ => (checkFrom4_rests ..).bind fun _ => ?_)
  exact .ite ((linkNeedM_rests _).bind fun _ => .ite (rests_pure _) ((hr ..).bind fun _ => rests_pure _)) (rests_pure _)

theorem readMine_rests (e : Env) (acq : Option Scope) (key n : Nat) : Rests (readMine e acq key n) :=
  (readSeenM_rests ..).bind fun _ => rests_pure _

theorem elementBytes_rests (e : Env) (ds : Desc) (key : Nat) (hi : Bool) (c : Nat) : Rests (elementBytes e ds key hi c) :=
  .ite ((readMine_rests ..).bind fun _ => rests_pure _) (rests_pure _)

end Sys2Proof.Machine
end

section
/-! SUPPORT. A store of a thread to memory (R132, R238, R260, R497): it takes its place in coherence order and is made, or it
joins the buffer of its expansion. -/

namespace Sys2Proof.Machine

/-! ## In coherence order -/

/-- A release adds to what a thread's write follows (R260). -/
theorem Ord.follows_forWrite {o : Ord} {ts : Nat} (h : o.follows ts = true) (e : Env) (rel : Option Scope) :
    (o.forWrite e rel).1.follows ts = true := by
  cases rel with
  | none => exact h
  | some sc =>
    simp only [Ord.forWrite, Ord.release, Ord.join, Ord.follows, Bool.or_eq_true, List.contains_iff_mem, mem_joinView] at h ⊢
    tauto

/-- A write of a thread in coherence order, before its bytes stand anywhere. -/
theorem placeM_writes (s : State) (e : Env) (rel : Option Scope) (key : Nat) (cur bs : List Byte) :
    ∃ fin y, placeM e rel key cur bs s = .ok fin y ∧ fin.length = bs.length ∧ s.StoresSp y e.tid ∧
      y.cohorts = s.cohorts ∧ (s.lastAt e.tid key bs.length → fin = bs) := by
  let w := (s.ordFor e.tid).forWrite e rel
  have hp := State.placeWrite_state s w.1 w.2 key cur bs
  have hm : ∀ (t : State) (ts : Nat), t.noteMade e.tid ts = { t with warps := (t.noteMade e.tid ts).warps } := fun t ts => by
    unfold State.noteMade
    split <;> rfl
  let o := (s.placeWrite w.1 w.2 key cur bs).2.1
  let x := (s.placeWrite w.1 w.2 key cur bs).2.2
  have hx : x = { s with hist := x.hist, nextId := x.nextId, free := x.free } := hp.1
  refine ⟨_, (x.setOrd e.tid o).noteMade e.tid s.nextId, rfl, hp.2, ⟨?_, o, ?_⟩, ?_, fun hl =>
    State.placeWrite_last (fun m hm ho => Ord.follows_forWrite (State.follows_ordFor (hl m hm ho)) e rel) w.2 cur⟩ <;>
    rw [hm, State.setOrd, State.modThread, hx]

theorem State.Recalled.lastAt {s t : State} (h : s.Recalled t) {tid key n : Nat} (hl : s.lastAt tid key n) :
    t.lastAt tid key n := by
  rw [h]
  exact hl

/-- A store of a thread to memory, with no write listed at its bytes that it need not follow, stands there; beside them only
what the recall of their lines writes back changes (R238). -/
theorem writeSeenM_stores (s : State) (e : Env) (rel : Option Scope) (key : Nat) (bs : List Byte) {u : Thread}
    (hu : aget s.threads e.tid = some u) :
    ∃ x, writeSeenM e rel key bs s = .ok () x ∧ aget x.threads e.tid = some { u with ord := x.ordOf e.tid } ∧
      (s.lastAt e.tid key bs.length → sread x.mem key bs.length = bs) ∧
      ∀ a, ¬ (key ≤ a ∧ a < key + bs.length) → sget x.mem a = sget (s.recall key bs.length false).mem a := by
  let r := s.recall key bs.length false
  have hr : s.Recalled r := s.recall_recalled ..
  obtain ⟨fin, y, hy, hlen, hst, hcoh, hlast⟩ := placeM_writes r e rel key (sread r.mem key bs.length) bs
  let z := y.recall key fin.length true
  have hz : y.Recalled z := y.recall_recalled ..
  have hzmem : z.mem = r.mem := by
    have hclean : y.CleanOver key fin.length := by
      unfold State.CleanOver
      rw [hcoh, hlen]
      exact s.recall_cleanOver key bs.length
    exact (State.recall_mem_of_clean hclean true).trans (by rw [hst.rest])
  have hth : aget y.threads e.tid = some { u with ord := y.ordOf e.tid } := hst.thread (by rw [hr]; exact hu)
  have hzt : z.threads = y.threads := by rw [hz]
  refine ⟨{ z with mem := swrite z.mem key fin }, ?_, ?_, fun hl => ?_, fun a ha => ?_⟩
  · have hread : readMemM key bs.length s = .ok (sread r.mem key bs.length) r := rfl
    rw [writeSeenM, bind_ok hread, bind_ok hy, modify_ok]
    rfl
  · have hord : z.ordOf e.tid = y.ordOf e.tid := by rw [State.ordOf, hzt]; rfl
    exact (congrArg (aget · e.tid) hzt).trans (hord ▸ hth)
  · obtain rfl := hlast (hr.lastAt hl)
    exact sread_swrite
  · exact (sget_swrite_out (by omega)).trans (congrArg (sget · a) hzmem)

/-! ## In the buffer of an expansion -/

/-- A thread with a store at the end of its expansion's buffer (R132). -/
def Thread.buffering (t : Thread) (w : BufStore) : Thread :=
  { t with exp := t.exp.map fun x => { x with stores := x.stores ++ [w] } }

/-- A thread in the midst of an expansion goes on to its next op. -/
theorem Thread.pass_goesOn {e : Env} {i : Instr} {u : Thread} {x : Exp} (hl : Instr.isLdc i = false) (he : e.th.Clear)
    (hu : u.Clear) (hx : u.exp = some x) (hi : x.idx + 1 < x.ops.length) :
    (u.pass e i true none).exp = some { x with idx := x.idx + 1 } := by
  unfold Thread.pass
  simp only [Bool.true_and, hl, Bool.false_and, if_true, Thread.settle_clear hu he, hx, hi]

/-- With the last op of the expansion its stores are to be performed. -/
theorem Thread.pass_ends {e : Env} {i : Instr} {u : Thread} {x : Exp} (hl : Instr.isLdc i = false) (he : e.th.Clear)
    (hu : u.Clear) (hx : u.exp = some x) (hi : ¬ x.idx + 1 < x.ops.length) :
    (u.pass e i true none).exp = none ∧ (u.pass e i true none).commits = u.commits ++ x.stores := by
  unfold Thread.pass
  simp only [Bool.true_and, hl, Bool.false_and, if_true, Thread.settle_clear hu he, hx, hi, if_false, Thread.endExp,
    and_self]

theorem Thread.pass_buffering_goesOn {e : Env} {i : Instr} {u : Thread} {x : Exp} (hl : Instr.isLdc i = false)
    (he : e.th.Clear) (hu : u.Clear) (hx : u.exp = some x) (hi : x.idx + 1 < x.ops.length) (w : BufStore) :
    (u.buffering w).pass e i true none = (u.pass e i true none).buffering w := by
  have hb : (u.buffering w).Clear := hu
  unfold Thread.pass
  simp only [Bool.true_and, hl, Bool.false_and, if_true, Thread.settle_clear hu he, Thread.settle_clear hb he]
  simp only [Thread.buffering, hx, Option.map_some, hi, if_true]

theorem Thread.pass_buffering_ends {e : Env} {i : Instr} {u : Thread} {x : Exp} (hl : Instr.isLdc i = false)
    (he : e.th.Clear) (hu : u.Clear) (hx : u.exp = some x) (hi : ¬ x.idx + 1 < x.ops.length) (w : BufStore) :
    (u.buffering w).pass e i true none =
      { u.pass e i true none with commits := (u.pass e i true none).commits ++ [w] } := by
  have hb : (u.buffering w).Clear := hu
  unfold Thread.pass
  simp only [Bool.true_and, hl, Bool.false_and, if_true, Thread.settle_clear hu he, Thread.settle_clear hb he]
  simp only [Thread.buffering, hx, Option.map_some, hi, if_false, Thread.endExp, Thread.dropTemps, List.append_assoc]

@[simp] theorem Thread.buffering_rd (t : Thread) (w : BufStore) (x : Reg) : (t.buffering w).rd x = t.rd x := by
  cases x with
  | v n => rfl
  | k n =>
    unfold Thread.rd Thread.buffering
    cases t.exp <;> rfl

theorem Thread.Kept.buffering {e : Env} {i : Instr} {v : Thread} {xs : List Reg} {ps : List Nat} {fl : BitVec 7}
    (h : Thread.Kept e i v xs ps fl) (w : BufStore) : Thread.Kept e i (v.buffering w) xs ps fl := by
  refine ⟨fun x hx hs => (v.buffering_rd w x).trans (h.regs x hx hs), h.preds, h.flags, h.pc, ?_⟩
  rw [Thread.buffering, h.rest]

theorem Thread.Kept.withCommits {e : Env} {i : Instr} {v : Thread} {xs : List Reg} {ps : List Nat} {fl : BitVec 7}
    (h : Thread.Kept e i v xs ps fl) (ws : List BufStore) : Thread.Kept e i { v with commits := ws } xs ps fl := by
  refine ⟨h.regs, h.preds, h.flags, h.pc, ?_⟩
  rw [h.rest]

theorem Env.multiOp_exp {e : Env} (h : e.multiOp = true) : ∃ x, e.th.exp = some x := by
  unfold Env.multiOp at h
  split at h
  · next x hx => exact ⟨x, hx⟩
  · cases h

/-- A thread passes its op in the order that its accesses left. -/
theorem Thread.pass_withOrd {e : Env} {i : Instr} {u : Thread} (hl : Instr.isLdc i = false) (he : e.th.Clear) (hu : u.Clear)
    (o : Ord) : Thread.pass { u with ord := o } e i true none = { u.pass e i true none with ord := o } := by
  have ho : Thread.Clear { u with ord := o } := hu
  unfold Thread.pass
  simp only [Bool.true_and, hl, Bool.false_and, if_true, Thread.settle_clear hu he, Thread.settle_clear ho he]
  cases u.exp with
  | none => rfl
  | some x =>
    dsimp only
    split
    · rfl
    · simp only [Thread.endExp, Thread.dropTemps]

theorem Env.ordered_closes (e : Env) (r : State) :
    (e.ordered r).closes (e.ordered r).th = { e.closes e.th with ord := r.ordOf e.tid } := by
  change (if e.lastOp = true then _ else _) = _
  unfold Env.closes
  split <;> rfl

theorem Thread.Kept.ordered {e : Env} {i : Instr} {v : Thread} {xs : List Reg} {ps : List Nat} {fl : BitVec 7}
    (h : Thread.Kept e i v xs ps fl) (r : State) : Thread.Kept (e.ordered r) i { v with ord := r.ordOf e.tid } xs ps fl := by
  refine ⟨h.regs, h.preds, h.flags, h.pc, ?_⟩
  rw [Env.ordered_closes, h.rest]

/-- An op that is done, with its store in its thread's buffer, in a state that is r otherwise. -/
theorem State.buffers_of_done {s r r' : State} {e : Env} {i : Instr} {w : BufStore} {fl : BitVec 7} {body : Env → M Flow}
    (hx : exec i s = threadOp i s body) (h : s.Executes e i) (hl : Instr.isLdc i = false) (hm : e.multiOp = true)
    (hb : body e s = .ok .done r') (hr : r.Becomes e.tid r' (((e.ordered r).th.orFlags fl).buffering w)) :
    s.Buffers r e i w fl := by
  obtain ⟨x, hexp⟩ := Env.multiOp_exp hm
  let u := (e.ordered r).th.orFlags fl
  have hu : u.Clear := h.clear
  have hkept : Thread.Kept (e.ordered r) i (u.pass e i true none) [] [] fl := by
    rw [show u = { e.th.orFlags fl with ord := r.ordOf e.tid } from rfl,
      Thread.pass_withOrd (u := e.th.orFlags fl) hl h.clear h.clear]
    exact (Thread.pass_kept (by rw [hl]; rfl) h.clear ((Thread.Changed.refl _).orFlags fl) (fun _ _ => rfl)
      (fun _ _ => rfl) rfl).1.ordered r
  refine ⟨_, _, x, by rw [hx, threadOp_next h, hb, endOp_done], hr.modThread _, ?_, hexp, ?_⟩
  · by_cases hi : x.idx + 1 < x.ops.length
    · rw [Thread.pass_buffering_goesOn hl h.clear hu hexp hi]
      exact hkept.buffering w
    · rw [Thread.pass_buffering_ends hl h.clear hu hexp hi]
      exact hkept.withCommits _
  · split
    · next hi =>
      rw [Thread.pass_buffering_goesOn hl h.clear hu hexp hi, Thread.buffering, Thread.pass_goesOn hl h.clear hu hexp hi]
      exact ⟨_, rfl, rfl⟩
    · next hi =>
      obtain ⟨hnone, hcommits⟩ := Thread.pass_ends hl h.clear hu hexp hi
      rw [Thread.pass_buffering_ends hl h.clear hu hexp hi]
      exact ⟨hnone, congrArg (· ++ [w]) hcommits⟩

/-! ## The store of an op -/

theorem bufferM_ok (e : Env) (w : BufStore) (s : State) :
    bufferM e w s = .ok () (s.modThread e.tid fun t => t.buffering w) := rfl

theorem State.Still.thread {s t : State} {e : Env} {i : Instr} (h : s.Still t) (hx : s.Executes e i) :
    aget t.threads e.tid = some (e.ordered t).th := h.observed.executing (State.env_some hx.env).1

/-- An op that stores to memory, once it has looked, adds its flags and is done. -/
theorem State.stores_of_storeMine {s s' s2 : State} {e : Env} {i : Instr} {key : Nat} {bs : List Byte} {rel : Option Scope}
    {fl : BitVec 7} {body : Env → M Flow} (hx : exec i s = threadOp i s body) (h : s.Executes e i)
    (hl : Instr.isLdc i = false) (hs : s.Still s') (hlink : linkNeedM key s' = .ok false s2)
    (hb : ∀ r, storeMine e rel key bs s' = .ok () r → body e s = .ok .done (r.modThread e.tid fun t => t.orFlags fl)) :
    s.Stores s' s2 e i { scratch := false, key := key, bytes := bs, rel := rel } fl := by
  have hs2 : s.Still s2 := hs.trans ((linkNeedM_rests key).still _ _ _ hlink)
  unfold State.Stores
  split
  · next hm =>
    let w : BufStore := { scratch := false, key := key, bytes := bs, rel := rel }
    refine State.buffers_of_done hx h hl hm (hb (s'.modThread e.tid fun t => t.buffering w) ?_)
      ((State.becomes_mod (fun t => t.buffering w) (hs.thread h)).modThread fun t => t.orFlags fl)
    rw [storeMine, if_pos hm, bufferM_ok]
  · next hm =>
    obtain ⟨x, hw, hth, hlast, hout⟩ := writeSeenM_stores s2 e rel key bs (hs2.thread h)
    refine ⟨x, hw, ?_, hlast, fun a ha => ⟨hout a ha, fun hno => ?_⟩⟩
    · refine State.ends_of_clear hx h (hb x ?_) (State.becomes_mod _ hth) h.clear rfl
      rw [storeMine, if_neg hm, storeSeen, bind_ok hlink, if_neg Bool.false_ne_true, hw]
    · rw [hout a ha, State.recall_noStash (hs2.noStash hno), (hs2.calm hno).1]

end Sys2Proof.Machine
end

section
/-! SUPPORT. ST and STT (R258, R495, R497): the checks of their access, the bytes of the element, and the store. -/

namespace Sys2Proof.Machine

theorem exec_st (h : Hdr) (sz : MSize) (rel : Option Scope) (a : Reg) (off : MemOff) (b : Reg) (s : State) :
    exec (.st h sz rel a off b) s = execSt h sz rel a off b s := rfl

theorem exec_stt (h : Hdr) (ty : TTy) (rnd : Rnd) (hi : Bool) (rel : Option Scope) (a : Reg) (off : MemOff) (b : Reg)
    (s : State) : exec (.stt h ty rnd hi rel a off b) s = execStt h ty rnd hi rel a off b s := rfl

/-! ## What the parts of an access come to -/

theorem clampOpt_ok {e : Env} {sc : Option Scope} (h : (e.clampsOpt sc && e.ctx.con.scopeTrap) = false) (s : State) :
    clampOpt e sc s = .ok (e.reachOpt sc, e.clampsOpt sc) s := by
  rw [clampOpt_eq, h, if_neg Bool.false_ne_true]

theorem alignCheck_ok {a n : Nat} (h : a % n = 0) (addr : Dword) (acc : Nat) (s : State) :
    alignCheck a n addr acc s = .ok () s := by
  rw [alignCheck, if_pos h, pure_ok]

/-- A computation that ends well has a first part that does. -/
theorem bind_ok_split {α β : Type} {x : M α} {f : α → M β} {s t : State} {b : β} (h : (x >>= f) s = .ok b t) :
    ∃ a s', x s = .ok a s' ∧ f a s' = .ok b t := by
  cases hx : x s with
  | ok a s' => exact ⟨a, s', rfl, (bind_ok hx).symm.trans h⟩
  | error g s' => cases (bind_error hx).symm.trans h

/-- The checks of an access in their two parts: to that of the permission, and from that of the watchpoints (Table 7-7). -/
theorem checkPlace_split {w : Who} {x : Access} {p : Place} {s s' : State} (h : checkPlace w x s = .ok p s') :
    ∃ t, checkTo3 w x s = .ok p t ∧ checkFrom4 w x p t = .ok true s' := by
  obtain ⟨q, t, h3, hq⟩ := bind_ok_split h
  obtain ⟨ok, r, h4, hr⟩ := bind_ok_split hq
  cases ok with
  | false => cases hr
  | true =>
    cases hr
    exact ⟨t, h3, h4⟩

theorem Thread.orFlags_orFlags (t : Thread) (f g : BitVec 7) : (t.orFlags f).orFlags g = t.orFlags (f ||| g) := by
  unfold Thread.orFlags
  rw [BitVec.or_assoc]

/-! ## ST -/

theorem st_stores {h : Hdr} {sz : MSize} {rel : Option Scope} {a b : Reg} {off : MemOff} {s s' s2 : State} {e : Env} {p : Place}
    (hx : s.Executes e (.st h sz rel a off b)) (hcl : (e.clampsOpt rel && e.ctx.con.scopeTrap) = false)
    (hal : (e.th.gptr a off (mBytes sz)).toNat % mBytes sz = 0)
    (hp : checkPlace e.who { ptr := e.th.gptr a off (mBytes sz), n := mBytes sz, wr := true, acc := 1 } s = .ok p s')
    (htok : (e.needsToken && pteDshr p.pte) = false) (hlink : linkNeedM p.key s' = .ok false s2) :
    s.Stores s' s2 e (.st h sz rel a off b)
      { scratch := false, key := p.key, bytes := storeBytes e.th sz b, rel := e.reachOpt rel } (clampFlag (e.clampsOpt rel)) := by
  obtain ⟨t, h3, h4⟩ := checkPlace_split hp
  refine State.stores_of_storeMine (exec_st ..) hx rfl ((checkPlace_rests ..).still _ _ _ hp) hlink fun r hr => ?_
  simp only [bind_ok (clampOpt_ok hcl s), bind_ok (alignCheck_ok hal _ _ s), bind_ok h3, htok, Bool.false_eq_true, if_false,
    bind_ok h4, if_true, bind_ok hr, bind_ok (setClamp_adds ..), pure_ok]

/-! ## STT -/

theorem Fmt.bytes_f4 : Fmt.bytes .f4 = 1 := rfl

theorem Desc.codeOut_length (d : Desc) (old : List Byte) (hi : Bool) (c : Nat) : (d.codeOut old hi c).length = d.fmt.bytes := by
  unfold Desc.codeOut
  split
  · next hf => rw [leBytes_length, hf, Fmt.bytes_f4]
  · exact leBytes_length ..

theorem Desc.codeOut_whole {d : Desc} (h : d.fmt ≠ .f4) (old : List Byte) (hi : Bool) (c : Nat) :
    d.codeOut old hi c = leBytes d.fmt.bytes c := if_neg h

theorem setBytes_length {bs new : List Byte} {i : Nat} (h : i + new.length ≤ bs.length) :
    (setBytes bs i new).length = bs.length := by
  simp only [setBytes, List.length_append, List.length_take, List.length_drop]
  omega

theorem overlay_length (ws : List BufStore) (scratch : Bool) (key : Nat) (bs : List Byte) :
    (overlay ws scratch key bs).length = bs.length := by
  simp [overlay]

theorem seeM_length {e : Env} {acq : Option Scope} {key : Nat} {cur b : List Byte} {s t : State}
    (h : seeM e acq key cur s = .ok b t) : b.length = cur.length := by
  cases h
  exact List.foldlRecOn (motive := fun b : List Byte => b.length = cur.length) _ _ rfl fun b hb m _ =>
    (patch_length ..).trans hb

theorem readMine_length {e : Env} {acq : Option Scope} {key n : Nat} {b : List Byte} {s t : State}
    (h : readMine e acq key n s = .ok b t) : b.length = n := by
  obtain ⟨c, r, hc, hr⟩ := bind_ok_split h
  obtain ⟨cur, q, hcur, hsee⟩ := bind_ok_split hc
  cases hr
  cases hcur
  rw [overlay_length, seeM_length hsee, sread_length]

/-- An element of whole bytes is stored where it stands; one of F4 with the aligned unit of 4 bytes that holds it (R258). -/
theorem elementBytes_ok {e : Env} {ds : Desc} {k key c : Nat} {hi : Bool} {bs : List Byte} {s t : State}
    (h : elementBytes e ds k hi c s = .ok (key, bs) t) :
    (ds.fmt ≠ .f4 → key = k ∧ bs = leBytes ds.fmt.bytes c) ∧ (ds.fmt = .f4 → key = k - k % 4 ∧ bs.length = 4) := by
  unfold elementBytes at h
  by_cases hf : ds.fmt = .f4
  · rw [if_pos hf] at h
    obtain ⟨old, r, hold, hr⟩ := bind_ok_split h
    cases hr
    have hlen := readMine_length hold
    have hfit : k % 4 + (ds.codeOut ((old.drop (k % 4)).take 1) hi c).length ≤ old.length := by
      rw [Desc.codeOut_length, hf, Fmt.bytes_f4]
      omega
    exact ⟨fun hn => absurd hf hn, fun _ => ⟨rfl, (setBytes_length hfit).trans hlen⟩⟩
  · rw [if_neg hf] at h
    cases h
    exact ⟨fun _ => ⟨rfl, Desc.codeOut_whole hf ..⟩, fun hn => absurd hn hf⟩

theorem stt_stores {h : Hdr} {ty : TTy} {rnd : Rnd} {hi : Bool} {rel : Option Scope} {a b : Reg} {off : MemOff}
    {s s1 s3 s4 s' s2 : State} {e : Env} {x : Access} {p : Place} {dr : Except FaultInfo (Option Desc)} {ds : Desc}
    {sc key : Nat} {src : List Access} {bs : List Byte} {r : FRes} (hx : s.Executes e (.stt h ty rnd hi rel a off b))
    (hcl : (e.clampsOpt rel && e.ctx.con.scopeTrap) = false)
    (hel : elementAccess e (e.th.gptr a off 1) true s = .ok (x, p, dr) s1) (htok : (e.needsToken && pteDshr p.pte) = false)
    (h4 : checkFrom4 e.who x p s1 = .ok true s1) (hof : elementOf x dr hi s1 = .ok ds s3)
    (hsc : readScale e.who ds x.ptr 1 e.buffered (readSeenM e none) s3 = .ok (.here sc src) s4)
    (hr : ds.encode rnd ((TTy.fmt ty).val ((e.th.rd b).toNat % 2 ^ (TTy.fmt ty).bits) 0) sc = r)
    (hbs : elementBytes e ds p.key hi r.1 s4 = .ok (key, bs) s') (hlink : linkNeedM key s' = .ok false s2) :
    s.Stores s' s2 e (.stt h ty rnd hi rel a off b)
      { scratch := false, key := key, bytes := bs, rel := e.reachOpt rel } (clampFlag (e.clampsOpt rel) ||| r.2) := by
  have h1 : s.Still s1 := (elementAccess_rests ..).still _ _ _ hel
  have h3 : s1.Still s3 := (elementOf_rests ..).still _ _ _ hof
  have hs4 : s3.Still s4 := (readScale_rests _ _ _ _ _ fun _ _ => readSeenM_rests ..).still _ _ _ hsc
  have hstill : s.Still s' := ((h1.trans h3).trans hs4).trans ((elementBytes_rests ..).still _ _ _ hbs)
  refine State.stores_of_storeMine (exec_stt ..) hx rfl hstill hlink fun y hy => ?_
  have hget : (ScaleRead.get (.here sc src)) s4 = .ok sc s4 := rfl
  simp only [bind_ok (clampOpt_ok hcl s), bind_ok hel, htok, Bool.false_eq_true, if_false, bind_ok h4, if_true, bind_ok hof,
    bind_ok hsc, bind_ok hget, hr, bind_ok hbs, bind_ok hy, bind_ok (setClamp_adds ..), bind_ok (modTh_ok ..), pure_ok,
    State.modThread_modThread, Thread.orFlags_orFlags]

end Sys2Proof.Machine
end

section
/-! SUPPORT. STL (R226, R228, R236, R252, R258): a store to the scratchpad of a cohort, and one to a line of its stash. -/

namespace Sys2Proof.Machine

theorem exec_stl (h : Hdr) (sz : MSize) (rel : Option Scope) (a : Reg) (off : MemOff) (b : Reg) (s : State) :
    exec (.stl h sz rel a off b) s = execStl h sz rel a off b s := rfl

theorem storeBytes_length (t : Thread) (sz : MSize) (b : Reg) : (storeBytes t sz b).length = mBytes sz := by
  cases sz with
  | b16 => rfl
  | b1 => exact leBytes_length ..
  | b2 => exact leBytes_length ..
  | b4 => exact leBytes_length ..
  | b8 => exact leBytes_length ..

theorem mBytes_pos (sz : MSize) : 0 < mBytes sz := by cases sz <;> decide

/-- An aligned access stays in its 128 bytes. -/
theorem mBytes_fit {sz : MSize} {x : Nat} (h : x % mBytes sz = 0) : x % 128 + mBytes sz ≤ 128 := by
  cases sz <;> simp only [mBytes] at h ⊢ <;> omega

/-! ## The place of the access -/

theorem localPlaceM_scratch {s : State} {e : Env} {a : Word} {n acc : Nat} (hc : aget s.cohorts e.coh = some e.c)
    (hal : a.toNat % n = 0) (hin : a.toNat + n ≤ e.c.scratch) (hheld : s.held e.coh a.toNat n (acc == 1) = false) :
    localPlaceM e a n acc s = .ok (some (.scratch a.toNat)) s := by
  have hp : e.c.localPlace a.toNat n = some (.scratch a.toNat) := if_pos hin
  simp only [localPlaceM, bind_ok (alignCheck_ok hal _ _ s), bind_ok (get_ok s), hc, Option.getD_some, hp, hheld,
    Bool.false_eq_true, if_false, pure_ok]

theorem localPlaceM_stash {s : State} {e : Env} {a : Word} {n acc o : Nat} {sl : StashSlot}
    (hc : aget s.cohorts e.coh = some e.c) (hal : a.toNat % n = 0) (hp : e.c.localPlace a.toNat n = some (.stash o sl)) :
    localPlaceM e a n acc s = .ok (some (.stash o sl)) s := by
  simp only [localPlaceM, bind_ok (alignCheck_ok hal _ _ s), bind_ok (get_ok s), hc, Option.getD_some, hp, pure_ok]

/-! ## The scratchpad -/

theorem State.ringWake_quiet {s t : State} {coh r : Nat} (h : s.ringWaiters coh r = []) (ht : t.threads = s.threads) :
    t.ringWake coh r = t := by
  have hw : t.ringWaiters coh r = [] := by
    simp only [State.ringWaiters, State.cohThreads, ht] at h ⊢
    exact h
  rw [State.ringWake, hw]
  rfl

/-- What a broken ring holds becomes undefined (R228): of its cohort the scratchpad alone changes. -/
theorem scrambleRing_ok (coh r : Nat) (s : State) : ∃ (t : State) (f : Sparse 8 → Sparse 8),
    scrambleRing coh r s = .ok ⟨⟩ t ∧ t.threads = s.threads ∧
    t.cohorts = amod s.cohorts coh fun c => { c with sp := f c.sp } :=
  ⟨_, fun sp => swrite (swrite sp (128 * r + 4) (leBytes 10 s.draw.1)) (128 * r + 64) (leBytes 64 s.draw.2.draw.1),
    rfl, rfl, rfl⟩

/-- Without a thread that waits on the ring, a store to its control block changes of the cohort its scratchpad and the set of
its broken rings alone (R227, R228). -/
theorem State.ringStore_cohort {s : State} {coh r : Nat} {c : Cohort} (h : s.ringWaiters coh r = [])
    (hc : aget s.cohorts coh = some c) (a n : Nat) (before : Sparse 8) :
    ∃ y, aget (s.ringStore coh r a n before).cohorts coh = some y ∧ y = { c with sp := y.sp, broken := y.broken } := by
  simp only [State.ringStore, hc]
  generalize (_ && _ : Bool) = breach
  cases breach
  · simp only [Bool.false_eq_true, if_false]
    split
    · exact ⟨c, hc, rfl⟩
    · rw [State.ringWake_quiet h rfl]
      exact ⟨c, hc, rfl⟩
  · have hb : aget (s.modCohort coh fun c => { c with broken := insertNat r c.broken }).cohorts coh =
        some { c with broken := insertNat r c.broken } := by
      rw [modCohort_cohorts, aget_amod_same, hc, Option.map_some]
    simp only [if_true]
    split
    · exact ⟨_, hb, rfl⟩
    · obtain ⟨t, f, ht, hthreads, hcohorts⟩ :=
        scrambleRing_ok coh r (s.modCohort coh fun c => { c with broken := insertNat r c.broken })
      rw [ht, State.ringWake_quiet h hthreads, hcohorts, aget_amod_same, hb]
      exact ⟨_, rfl, rfl⟩

/-- A store of a thread inside one 16-byte unit, or at bytes of no ring, where no thread waits on its ring. -/
theorem storeSp_writes (s : State) (e : Env) (rel : Option Scope) {a : Nat} {bs : List Byte} {c : Cohort}
    (hpos : 0 < bs.length) (hfit : a % 128 + bs.length ≤ 128) (hc : aget s.cohorts e.coh = some c)
    (hw : a < 1024 → s.ringWaiters e.coh (a / 128) = []) :
    ∃ r, storeSp e rel a bs s = .ok () r ∧ s.StoresSp r e.tid ∧
      ∃ y, aget r.cohorts e.coh = some y ∧ y = { c with sp := y.sp, broken := y.broken } ∧
        (1024 ≤ a → y.broken = c.broken ∧
          (s.lastAt e.tid (spKey e.coh a) bs.length → sread y.sp a bs.length = bs) ∧
          ∀ k, ¬ (a ≤ k ∧ k < a + bs.length) → sget y.sp k = sget c.sp k) := by
  obtain ⟨fin, y, hy, hlen, hst, hcoh, hlast⟩ :=
    placeM_writes s e rel (spKey e.coh a) (sread (s.spOf e.coh) a bs.length) bs
  have hz : aget (y.setSp e.coh a fin).cohorts e.coh = some { c with sp := swrite c.sp a fin } := by
    rw [State.setSp, State.modCohort_cohorts, hcoh, aget_amod_same, hc, Option.map_some]
  have hput := State.putSp_unit y e.coh (a := a) (bs := fin) (by omega) (by omega)
  refine ⟨y.putSp e.coh a fin, ?_, ?_⟩
  · rw [storeSp, bind_ok (get_ok s), bind_ok hy, modify_ok]
  · rw [hput]
    split
    · next ha =>
      have hquiet : (y.setSp e.coh a fin).ringWaiters e.coh (a / 128) = [] :=
        (State.ringWaiters_of_ord hst.threads.choose_spec e.coh (a / 128)).trans (hw ha)
      obtain ⟨x, hx, hxc⟩ := State.ringStore_cohort hquiet hz a fin.length (y.spOf e.coh)
      refine ⟨?_, x, hx, ?_, fun h => absurd ha (Nat.not_lt.mpr h)⟩
      · rw [State.ringStore_quiet hquiet]
        refine ⟨?_, hst.threads⟩
        rw [State.setSp, State.modCohort, hst.rest]
      · rw [hxc]
    · refine ⟨⟨?_, hst.threads⟩, _, hz, rfl, fun _ => ⟨rfl, fun hl => ?_, fun k hk => sget_swrite_out (by omega)⟩⟩
      · rw [State.setSp, State.modCohort, hst.rest]
      · obtain rfl := hlast hl
        exact sread_swrite

section
variable {h : Hdr} {sz : MSize} {rel : Option Scope} {a b : Reg} {off : MemOff} {s s' : State} {e : Env} {l : StashLine}
  {o : Nat} {sl : StashSlot}

theorem stl_scratch_buffers (hx : s.Executes e (.stl h sz rel a off b)) (hcl : (e.clampsOpt rel && e.ctx.con.scopeTrap) = false)
    (hp : localPlaceM e (e.th.lptr a off (mBytes sz)) (mBytes sz) 1 s = .ok (some (.scratch o)) s) (hm : e.multiOp = true) :
    s.Buffers s e (.stl h sz rel a off b)
      { scratch := true, key := o, bytes := storeBytes e.th sz b, rel := e.reachOpt rel } (clampFlag (e.clampsOpt rel)) := by
  let w : BufStore := { scratch := true, key := o, bytes := storeBytes e.th sz b, rel := e.reachOpt rel }
  refine State.buffers_of_done (exec_stl ..) hx rfl hm ?_
    ((State.becomes_mod (fun t => t.buffering w) ((State.Still.refl s).thread hx)).modThread fun t =>
      t.orFlags (clampFlag (e.clampsOpt rel)))
  simp only [bind_ok (clampOpt_ok hcl s), bind_ok hp, hm, if_true, bind_ok (bufferM_ok ..), bind_ok (setClamp_adds ..), pure_ok]
  rfl

theorem stl_scratch_stores {r : State} (hx : s.Executes e (.stl h sz rel a off b))
    (hcl : (e.clampsOpt rel && e.ctx.con.scopeTrap) = false)
    (hp : localPlaceM e (e.th.lptr a off (mBytes sz)) (mBytes sz) 1 s = .ok (some (.scratch o)) s) (hm : e.multiOp = false)
    (hr : storeSp e (e.reachOpt rel) o (storeBytes e.th sz b) s = .ok () r) (hs : s.StoresSp r e.tid) :
    s.Ends r e (.stl h sz rel a off b) ((e.ordered r).th.orFlags (clampFlag (e.clampsOpt rel))) := by
  have hth : aget r.threads e.tid = some (e.ordered r).th := hs.thread (State.env_some hx.env).1
  refine State.ends_of_clear (exec_stl ..) hx ?_
    (State.becomes_mod (fun t => t.orFlags (clampFlag (e.clampsOpt rel))) hth) hx.clear rfl
  simp only [bind_ok (clampOpt_ok hcl s), bind_ok hp, hm, Bool.false_eq_true, if_false, writeLocal, bind_ok hr,
    bind_ok (setClamp_adds ..), pure_ok]

/-! ## A line of the stash -/

theorem State.modCohort_observed (s : State) (coh : Nat) (f : Cohort → Cohort) : s.Observed (s.modCohort coh f) := .of_rest rfl

theorem State.dropLine_observed (s : State) (coh line : Nat) (write : Bool) : s.Observed (s.dropLine coh line write) := by
  unfold State.dropLine State.flushLines
  split
  · exact .refl s
  · refine State.Observed.trans ?_ (State.modCohort_observed ..)
    rw [State.writeBack_state]
    exact .of_rest rfl

theorem observes_modify {f : State → State} (hf : ∀ s : State, s.Observed (f s)) : Observes (modify f : M PUnit) :=
  ⟨fun s t _ h => by cases h; exact hf s⟩

theorem Observes.ite {α : Type} {c : Prop} [Decidable c] {x y : M α} (hx : Observes x) (hy : Observes y) :
    Observes (if c then x else y) := by
  split
  · exact hx
  · exact hy

/-- A step before the rest where a condition holds. -/
theorem Observes.when {α : Type} {c : Prop} [Decidable c] {x : M PUnit} {rest : PUnit → M α} (hx : Observes x)
    (h : ∀ r, Observes (rest r)) : Observes (if c then x >>= rest else rest ⟨⟩) := .ite (hx.bind h) (h ⟨⟩)

theorem fillChecks_observes (w : Who) (x : Access) (ptr : Dword) (p : Place) (n : Nat) : Observes (fillChecks w x ptr p n) := by
  induction n generalizing ptr p with
  | zero => exact observes_pure _
  | succ n ih =>
    unfold fillChecks
    exact observes_get.bind fun _ => observes_ite_throw fun _ => Observes.when (checkWatch_observes ..) fun _ =>
      observes_ite_throw fun _ => (checkTag_observes ..).bind fun _ => (linkNeedM_observes _).bind fun _ =>
        observes_ite_throw fun _ => ih ..

theorem fillLine_observes (e : Env) (line : Nat) (ptr : Dword) (x : Access) (r : Walked) : Observes (fillLine e line ptr x r) :=
  (placeOf_observes ..).bind fun _ => (fillChecks_observes ..).bind fun _ => (readMemM_observes ..).bind fun _ =>
    (observes_modify fun _ => State.modCohort_observed ..).bind fun _ => observes_pure _

/-- The line of an access, which a miss fills (R236, R237). -/
theorem stashLine_observes (e : Env) (off n : Nat) (sl : StashSlot) (store : Bool) : Observes (stashLine e off n sl store) := by
  unfold stashLine
  refine observes_get.bind fun _ => ?_
  split
  · exact (walkFor_observes ..).bind fun _ => fillLine_observes ..
  · refine (walkFor_observes ..).bind fun _ => observes_get.bind fun _ => .ite ?_ ?_
    · exact (observes_modify fun _ => State.dropLine_observed ..).bind fun _ => fillLine_observes ..
    · exact (placeOf_observes ..).bind fun _ => (checkFrom4_observes ..).bind fun _ => .ite (observes_pure _) (observes_throw _)

theorem State.recallOthers_threads (s : State) (coh line key n : Nat) : (s.recallOthers coh line key n).threads = s.threads := by
  have hrec : ∀ t : State, (t.recall key n true).threads = t.threads := fun t => by rw [t.recall_recalled key n true]
  unfold State.recallOthers
  split
  · exact hrec s
  · exact hrec _

/-- A store to a line: it takes its place in coherence order and stands in the line, other cohorts' lines over its bytes
written back (R238, R252). -/
theorem storeLine_writes (s : State) (e : Env) (rel : Option Scope) (line i : Nat) (l : StashLine) (bs : List Byte)
    {u : Thread} (hu : aget s.threads e.tid = some u) :
    ∃ r, storeLine e rel line i l bs s = .ok () r ∧ aget r.threads e.tid = some { u with ord := r.ordOf e.tid } ∧
      ∀ y, aget r.cohorts e.coh = some y → ∃ fin ts, aget y.lines line = some (l.put i fin ts) ∧
        fin.length = bs.length ∧ (s.lastAt e.tid (l.key + i) bs.length → fin = bs) := by
  obtain ⟨fin, y, hy, hlen, hst, -, hlast⟩ := placeM_writes s e rel (l.key + i) ((l.bytes.drop i).take bs.length) bs
  let z := y.recallOthers e.coh line (l.key + i) bs.length
  have hz : z.threads = y.threads := State.recallOthers_threads ..
  refine ⟨z.modCohort e.coh fun c => { c with lines := aset c.lines line (l.put i fin s.nextId) }, ?_, ?_, fun c hc => ?_⟩
  · rw [storeLine, bind_ok (get_ok s), bind_ok hy, modify_ok]
  · have hord : z.ordOf e.tid = y.ordOf e.tid := by rw [State.ordOf, hz]; rfl
    exact (congrArg (aget · e.tid) hz).trans (hord ▸ hst.thread hu)
  · rw [State.modCohort_cohorts, aget_amod_same] at hc
    obtain ⟨d, -, rfl⟩ := Option.map_eq_some_iff.mp hc
    exact ⟨fin, s.nextId, aget_aset_same .., hlen, hlast⟩

theorem markDirty_getLsbD (m : BitVec 128) (i n k : Nat) :
    (markDirty m i n).getLsbD k = (m.getLsbD k || decide (i ≤ k ∧ k < min 128 (i + n))) := by
  have hbit : (BitVec.ofNat 128 (2 ^ n - 1) <<< i).getLsbD k = decide (i ≤ k ∧ k < min 128 (i + n)) := by
    rw [BitVec.getLsbD_shiftLeft, BitVec.getLsbD_ofNat, Nat.testBit_two_pow_sub_one, Bool.eq_iff_iff]
    simp only [Bool.and_eq_true, decide_eq_true_eq, Bool.not_eq_true', decide_eq_false_iff_not]
    omega
  rw [markDirty, BitVec.getLsbD_or, hbit]

theorem setBytes_inside {bs new : List Byte} {i : Nat} (h : i ≤ bs.length) :
    ((setBytes bs i new).drop i).take new.length = new := by
  have hlen : (bs.take i).length = i := List.length_take_of_le h
  rw [setBytes, List.append_assoc, List.drop_left' hlen, List.take_left' rfl]

theorem setBytes_outside {bs new : List Byte} {i k : Nat} (hk : ¬ (i ≤ k ∧ k < i + new.length)) (hb : k < bs.length) :
    (setBytes bs i new)[k]? = bs[k]? := by
  rw [setBytes, List.append_assoc]
  by_cases hlt : k < i
  · rw [List.getElem?_append_left (by rw [List.length_take]; omega), List.getElem?_take_of_lt hlt]
  · have hle : i ≤ bs.length := by omega
    rw [List.getElem?_append_right (by rw [List.length_take]; omega), List.length_take_of_le hle,
      List.getElem?_append_right (by omega), List.getElem?_drop]
    congr 1
    omega

theorem stl_stash_buffers (hx : s.Executes e (.stl h sz rel a off b)) (hcl : (e.clampsOpt rel && e.ctx.con.scopeTrap) = false)
    (hp : localPlaceM e (e.th.lptr a off (mBytes sz)) (mBytes sz) 1 s = .ok (some (.stash o sl)) s) (hm : e.multiOp = true)
    (hl : stashLine e o (mBytes sz) sl true s = .ok l s') :
    s.Buffers s' e (.stl h sz rel a off b)
      { scratch := false, key := l.key + o % 128, line := some (o / 128), bytes := storeBytes e.th sz b, rel := e.reachOpt rel }
      (clampFlag (e.clampsOpt rel)) := by
  let w : BufStore := { scratch := false, key := l.key + o % 128, line := some (o / 128), bytes := storeBytes e.th sz b
                        rel := e.reachOpt rel }
  have hth := ((stashLine_observes ..).observed _ _ _ hl).executing (State.env_some hx.env).1
  refine State.buffers_of_done (exec_stl ..) hx rfl hm ?_
    ((State.becomes_mod (fun t => t.buffering w) hth).modThread fun t => t.orFlags (clampFlag (e.clampsOpt rel)))
  simp only [bind_ok (clampOpt_ok hcl s), bind_ok hp, hm, if_true, bind_ok hl, bind_ok (bufferM_ok ..),
    bind_ok (setClamp_adds ..), pure_ok]
  rfl

theorem stl_stash_stores {r : State} (hx : s.Executes e (.stl h sz rel a off b))
    (hcl : (e.clampsOpt rel && e.ctx.con.scopeTrap) = false)
    (hp : localPlaceM e (e.th.lptr a off (mBytes sz)) (mBytes sz) 1 s = .ok (some (.stash o sl)) s) (hm : e.multiOp = false)
    (hl : stashLine e o (mBytes sz) sl true s = .ok l s')
    (hr : storeLine e (e.reachOpt rel) (o / 128) (o % 128) l (storeBytes e.th sz b) s' = .ok () r)
    (hth : aget r.threads e.tid = some (e.ordered r).th) :
    s.Ends r e (.stl h sz rel a off b) ((e.ordered r).th.orFlags (clampFlag (e.clampsOpt rel))) := by
  refine State.ends_of_clear (exec_stl ..) hx ?_
    (State.becomes_mod (fun t => t.orFlags (clampFlag (e.clampsOpt rel))) hth) hx.clear rfl
  have hw : writeLocal e (e.reachOpt rel) (.stash o sl) (storeBytes e.th sz b) s = .ok () r := by
    rw [writeLocal, storeBytes_length, bind_ok hl, hr]
  simp only [bind_ok (clampOpt_ok hcl s), bind_ok hp, hm, Bool.false_eq_true, if_false, bind_ok hw,
    bind_ok (setClamp_adds ..), pure_ok]

end
end Sys2Proof.Machine
end

section
/-! SUPPORT. RED and ATOM without a destination (R260, R269, R359, R467): one atomic step at their place. -/

namespace Sys2Proof.Machine

theorem exec_red (h : Hdr) (w64 sgn : Bool) (op : AtomOp) (rel : Option Scope) (a : Reg) (off : MemOff) (b : Reg) (s : State) :
    exec (.red h w64 sgn op rel a off b) s = execRed h w64 sgn op rel a off b s := rfl

theorem exec_atom (h : Hdr) (w64 sgn : Bool) (op : AtomOp) (ord : AtomOrd) (sc : Scope) (d a : Reg) (off : MemOff) (b : Reg)
    (s : State) : exec (.atom h w64 sgn op ord sc d a off b) s = execAtom h w64 sgn op ord sc d a off b s := rfl

/-! ## The atomic step -/

theorem State.noteMade_state (s : State) (tid ts : Nat) :
    s.noteMade tid ts = { s with warps := (s.noteMade tid ts).warps } := by
  unfold State.noteMade
  split <;> rfl

/-- An atomic step changes the order of its thread, and what every write in coherence order does. -/
theorem State.rmw_storesSp (s : State) (e : Env) (acq rel : Option Scope) (key : Nat) (cur : List Byte)
    (f : List Byte → Option (List Byte)) : s.StoresSp (s.rmw e acq rel key cur f).2.2 e.tid := by
  unfold State.rmw
  extract_lets o ms later ks
  dsimp only
  rw [State.pick_state]
  split
  · exact ⟨rfl, _, rfl⟩
  · refine ⟨?_, ?_⟩
    · rw [State.noteMade_state]
      rfl
    · rw [State.noteMade_state]
      exact ⟨_, rfl⟩

/-- Where no write is listed that the thread need not follow, the step reads what stands there, and what it writes stands
there in the end (R269). -/
theorem State.rmw_last {s : State} {e : Env} {key : Nat} {cur : List Byte} (h : s.lastAt e.tid key cur.length)
    (acq rel : Option Scope) (f : List Byte → Option (List Byte)) {bs : List Byte} (hf : f cur = some bs) :
    (s.rmw e acq rel key cur f).1 = cur ∧ (s.rmw e acq rel key cur f).2.1 = bs := by
  have hlater : (s.writesAt key cur.length).takeWhile (fun m => !(s.ordFor e.tid).knows m.ts && !(s.ordFor e.tid).follows m.ts) =
      [] := by
    rw [List.takeWhile_eq_nil_iff]
    intro hlt
    obtain ⟨hm, hov⟩ : (s.writesAt key cur.length).get ⟨0, hlt⟩ ∈ s.hist ∧
        Msg.overlaps ((s.writesAt key cur.length).get ⟨0, hlt⟩) key cur.length = true :=
      List.mem_filter.mp (List.mem_reverse.mp (List.get_mem _ _))
    simpa using fun _ => State.follows_ordFor (h _ hm hov)
  have hks : ∀ p : Nat → Bool, ∀ i, ((List.range (([] : List Msg).length + 1)).filter p).getD i 0 = 0 := by
    intro p i
    have hone : List.range (([] : List Msg).length + 1) = [0] := rfl
    rw [hone, List.filter_cons, List.filter_nil]
    split
    · cases i <;> rfl
    · rfl
  have hb : ∀ k, bytesBefore key cur [] k = cur := fun k => by rw [bytesBefore, List.take_nil]; rfl
  unfold State.rmw
  simp only [hlater, hks, hb, hf, State.placeAt, List.take_nil, List.reverse_nil, redo]
  exact ⟨trivial, trivial⟩

/-- An atomic step of a thread on memory. -/
theorem rmwM_steps (s : State) (e : Env) (acq rel : Option Scope) (key n : Nat) (f : List Byte → Option (List Byte))
    {u : Thread} (hu : aget s.threads e.tid = some u) :
    ∃ b x, rmwM e acq rel key n f s = .ok b x ∧ aget x.threads e.tid = some { u with ord := x.ordOf e.tid } ∧
      (s.lastAt e.tid key n → ∀ bs, f (s.peek key n) = some bs → sread x.mem key bs.length = bs) := by
  let r := s.recall key n false
  have hr : s.Recalled r := s.recall_recalled ..
  let q := r.rmw e acq rel key (sread r.mem key n) f
  have hst : r.StoresSp q.2.2 e.tid := State.rmw_storesSp ..
  have hth : aget q.2.2.threads e.tid = some { u with ord := q.2.2.ordOf e.tid } := hst.thread (by rw [hr]; exact hu)
  have hread : readMemM key n s = .ok (sread r.mem key n) r := rfl
  let x := if (f q.1).isNone then q.2.2 else q.2.2.setMem key q.2.1
  have hxt : x.threads = q.2.2.threads := by
    unfold x State.setMem
    split
    · rfl
    · rw [q.2.2.recall_recalled]
  refine ⟨q.1, x, ?_, ?_, fun hl bs hbs => ?_⟩
  · exact (bind_ok hread).trans rfl
  · have hord : x.ordOf e.tid = q.2.2.ordOf e.tid := by rw [State.ordOf, hxt]; rfl
    rw [hxt, hord, hth]
  · have hlast : r.lastAt e.tid key (sread r.mem key n).length := by
      rw [sread_length]
      exact hr.lastAt hl
    obtain ⟨hold, hnew⟩ := State.rmw_last (rel := rel) (acq := acq) hlast f hbs
    have hx : x = q.2.2.setMem key bs := by
      have hsome : (f q.1).isNone = false := by rw [hold]; exact congrArg Option.isNone hbs
      unfold x
      rw [hsome, if_neg Bool.false_ne_true, hnew]
    rw [hx]
    exact sread_swrite

/-- Only .cas uses a third operand (Table 17-5). -/
theorem atomNew_of_ne_cas {op : AtomOp} (h : op ≠ .cas) (w64 sgn : Bool) (old b c d : Nat) :
    atomNew w64 sgn op old b c = atomNew w64 sgn op old b d := by
  cases op
  case cas => exact absurd rfl h
  all_goals rfl

/-! ## The op -/

/-- The bytes of an atomic step. -/
def atomBytes (w64 : Bool) : Nat := if w64 then 8 else 4

theorem atomStep_ok {e : Env} {w64 : Bool} {ptr : Dword} {s s' s1 : State} {p : Place}
    (hal : ptr.toNat % atomBytes w64 = 0)
    (hp : checkPlace e.who { ptr := ptr, n := atomBytes w64, rd := true, wr := true, acc := 2 } s = .ok p s')
    (hlink : linkNeedM p.key s' = .ok false s1) (hth : aget s1.threads e.tid = some (e.ordered s1).th) (sgn : Bool)
    (op : AtomOp) (acq rel : Option Scope) (b c : Nat) (ret : Bool) :
    ∃ y x, atomStep e w64 sgn op acq rel ptr b c ret s = .ok y x ∧ aget x.threads e.tid = some (e.ordered x).th ∧
      (s1.lastAt e.tid p.key (atomBytes w64) →
        ∀ new, atomNew w64 sgn op (leNat (s1.peek p.key (atomBytes w64))) b c = some new →
          sread x.mem p.key (atomBytes w64) = leBytes (atomBytes w64) new) := by
  obtain ⟨old, x, hstep, hx, hlast⟩ := rmwM_steps s1 e acq rel p.key (atomBytes w64)
    (fun bs => (atomNew w64 sgn op (leNat bs) b c).map (leBytes (atomBytes w64))) hth
  let q : Access := { ptr := ptr, n := atomBytes w64, rd := true, wr := true, acc := 2 }
  refine ⟨(q.at_ p.log, some (leNat old)), x, ?_, hx, fun hl new hnew => ?_⟩
  · unfold atomStep
    unfold atomBytes at hal hp hstep
    simp only [bind_ok (alignCheck_ok hal _ _ s), bind_ok hp, bind_ok hlink, Bool.false_eq_true, if_false, bind_ok hstep, pure_ok]
    rfl
  · have hbs := hlast hl (leBytes (atomBytes w64) new) (by rw [hnew]; rfl)
    rwa [leBytes_length] at hbs

/-- What RED, and ATOM without a destination, leave at the place p, where c is what .cas brings. -/
def State.Steps (s s1 : State) (e : Env) (i : Instr) (w64 sgn : Bool) (op : AtomOp) (key b c : Nat) : Prop :=
  ∃ t v, exec i s = .next t ∧ aget t.threads e.tid = some v ∧ (e.th.exp = none → v.pc = e.seqNext (Instr.isLong i)) ∧
    (s1.lastAt e.tid key (atomBytes w64) →
      ∀ new, atomNew w64 sgn op (leNat (s1.peek key (atomBytes w64))) b c = some new →
        sread t.mem key (atomBytes w64) = leBytes (atomBytes w64) new)

theorem State.steps_of_done {s s1 x : State} {e : Env} {i : Instr} {w64 sgn : Bool} {op : AtomOp} {key b c : Nat}
    {fl : BitVec 7} {body : Env → M Flow} (hi : exec i s = threadOp i s body) (h : s.Executes e i)
    (hth : aget x.threads e.tid = some (e.ordered x).th)
    (hb : body e s = .ok .done (x.modThread e.tid fun t => t.orFlags fl))
    (hnew : s1.lastAt e.tid key (atomBytes w64) →
      ∀ new, atomNew w64 sgn op (leNat (s1.peek key (atomBytes w64))) b c = some new →
        sread x.mem key (atomBytes w64) = leBytes (atomBytes w64) new) : s.Steps s1 e i w64 sgn op key b c := by
  obtain ⟨t, v, ht, hbec, hpast⟩ :=
    State.ends_of_clear hi h hb (State.becomes_mod (fun t => t.orFlags fl) hth) h.clear rfl
  refine ⟨t, v, ht, hbec.thread, hpast.pc, fun hl new hn => ?_⟩
  rw [hbec.rest]
  exact hnew hl new hn

section
variable {h : Hdr} {w64 sgn : Bool} {op : AtomOp} {a b : Reg} {off : MemOff} {s s' s1 : State} {e : Env} {p : Place} {i : Instr}

theorem red_steps {rel : Option Scope} (hx : s.Executes e (.red h w64 sgn op rel a off b)) (hop : op ≠ .cas)
    (hcl : (e.clampsOpt rel && e.ctx.con.scopeTrap) = false) (htok : e.needsToken = false)
    (hal : (e.th.gptr a off (atomBytes w64)).toNat % atomBytes w64 = 0)
    (hp : checkPlace e.who
      { ptr := e.th.gptr a off (atomBytes w64), n := atomBytes w64, rd := true, wr := true, acc := 2 } s = .ok p s')
    (hlink : linkNeedM p.key s' = .ok false s1) (c : Nat) :
    s.Steps s1 e (.red h w64 sgn op rel a off b) w64 sgn op p.key (e.th.rdW w64 b).toNat c := by
  have hstill : s.Still s1 := ((checkPlace_rests ..).still _ _ _ hp).trans ((linkNeedM_rests _).still _ _ _ hlink)
  obtain ⟨y, x, hstep, hth, hnew⟩ := atomStep_ok hal hp hlink (hstill.thread hx) sgn op none (e.reachOpt rel)
    (e.th.rdW w64 b).toNat 0 false
  refine State.steps_of_done (exec_red ..) hx hth (fl := clampFlag (e.clampsOpt rel)) ?_ fun hl new hn =>
    hnew hl new (by rw [atomNew_of_ne_cas hop]; exact hn)
  unfold atomBytes at hstep
  simp only [htok, Bool.false_eq_true, if_false, bind_ok (clampOpt_ok hcl s), bind_ok hstep, bind_ok (setClamp_adds ..), pure_ok]

theorem atom_steps {ord : AtomOrd} {sc : Scope} (hx : s.Executes e (.atom h w64 sgn op ord sc (.v 255) a off b))
    (hcl : (e.clampsOpt (atomScope ord sc) && e.ctx.con.scopeTrap) = false) (htok : e.needsToken = false)
    (hal : (e.th.gptr a off (atomBytes w64)).toNat % atomBytes w64 = 0)
    (hp : checkPlace e.who
      { ptr := e.th.gptr a off (atomBytes w64), n := atomBytes w64, rd := true, wr := true, acc := 2 } s = .ok p s')
    (hlink : linkNeedM p.key s' = .ok false s1) :
    s.Steps s1 e (.atom h w64 sgn op ord sc (.v 255) a off b) w64 sgn op p.key (e.th.rdW w64 b).toNat
      (e.th.rdW w64 (regPlus b (if w64 then 2 else 1))).toNat := by
  have hstill : s.Still s1 := ((checkPlace_rests ..).still _ _ _ hp).trans ((linkNeedM_rests _).still _ _ _ hlink)
  obtain ⟨y, x, hstep, hth, hnew⟩ := atomStep_ok hal hp hlink (hstill.thread hx) sgn op (e.reachOpt (atomScope ord sc))
    (atomRel ord (e.reachOpt (atomScope ord sc))) (e.th.rdW w64 b).toNat (e.th.rdW w64 (regPlus b (if w64 then 2 else 1))).toNat
    false
  refine State.steps_of_done (exec_atom ..) hx hth (fl := clampFlag (e.clampsOpt (atomScope ord sc))) ?_ hnew
  unfold atomBytes at hstep
  have hret : (Reg.v 255 != Reg.v 255) = false := rfl
  simp only [hret, Bool.false_and, htok, Bool.false_eq_true, if_false, bind_ok (clampOpt_ok hcl s), bind_ok hstep,
    bind_ok (setClamp_adds ..), pure_ok]

end
end Sys2Proof.Machine
end

section
/-! SUPPORT. TAGST (R260, R359, R500): each tag takes its place in coherence order, and where the thread must follow every
store of it that is listed, it stands. -/

namespace Sys2Proof.Machine

theorem exec_tagst (h : Hdr) (a : Reg) (off : MemOff) (b : Reg) (s : State) :
    exec (.tagst h a off b) s = execTagst h a off b s := rfl

/-! ## What a write in coherence order leaves of those listed -/

/-- Two listed writes of the same bytes, that may differ in what they found (R252). -/
structure Msg.Same (x y : Msg) : Prop where
  ts : x.ts = y.ts
  key : x.key = y.key
  new : x.new = y.new

theorem Msg.Same.overlaps {x y : Msg} (h : x.Same y) (key n : Nat) : x.overlaps key n = y.overlaps key n := by
  rw [Msg.overlaps, Msg.overlaps, h.key, h.new]

theorem redo_same {key : Nat} {bs : List Byte} {ms : List Msg} {x : Msg} (h : x ∈ (redo key bs ms).2) :
    ∃ y ∈ ms, x.Same y := by
  induction ms generalizing bs with
  | nil => cases h
  | cons m t ih =>
    simp only [redo] at h
    rcases List.mem_cons.mp h with rfl | h
    · exact ⟨m, List.mem_cons_self, rfl, rfl, rfl⟩
    · obtain ⟨y, hy, hs⟩ := ih h
      exact ⟨y, List.mem_cons_of_mem m hy, hs⟩

/-- A write over which only writes of the same bytes at its place come leaves its bytes. -/
theorem redo_of_same {key : Nat} {b : Byte} {ms : List Msg} (h : ∀ m ∈ ms, m.key = key ∧ m.new = [b]) :
    (redo key [b] ms).1 = [b] := by
  induction ms with
  | nil => rfl
  | cons m t ih =>
    obtain ⟨hkey, hnew⟩ := h m List.mem_cons_self
    have hp : patch [b] key m.new m.key = [b] := by
      rw [hkey, hnew]
      simp [patch]
    rw [redo, hp]
    exact ih fun x hx => h x (List.mem_cons_of_mem m hx)

theorem passable_mem {s : State} {o : Ord} {key n : Nat} {m : Msg} (h : m ∈ passable o (s.writesAt key n)) :
    m ∈ s.hist ∧ m.overlaps key n = true ∧ o.follows m.ts = false := by
  have hw : m ∈ s.writesAt key n := (List.takeWhile_sublist _).mem h
  obtain ⟨hm, hov⟩ := List.mem_filter.mp (List.mem_reverse.mp hw)
  exact ⟨hm, hov, by simpa using List.mem_takeWhile_imp h⟩

/-- Beside the write itself, the list holds what it held. -/
theorem State.placeWrite_hist {s : State} {o : Ord} {own : List Rel} {key : Nat} {cur bs : List Byte} {x : Msg}
    (h : x ∈ (s.placeWrite o own key cur bs).2.2.hist) : (∃ y ∈ s.hist, x.Same y) ∨ x.key = key ∧ x.new = bs := by
  unfold State.placeWrite State.placeAt at h
  dsimp only at h
  rw [State.pick_state] at h
  simp only [State.freshId] at h
  have hold : ∀ redone : List Msg, (∀ y ∈ redone, ∃ z ∈ s.hist, y.Same z) →
      x ∈ s.hist.map (fun x => (redone.find? fun y => y.ts == x.ts).getD x) → ∃ y ∈ s.hist, x.Same y := by
    intro redone hr hx
    obtain ⟨y, hy, rfl⟩ := List.mem_map.mp hx
    cases hf : redone.find? fun z => z.ts == y.ts with
    | none => exact ⟨y, hy, rfl, rfl, rfl⟩
    | some z => exact hr z (List.mem_of_find?_eq_some hf)
  have hredo : ∀ y ∈ (redo key bs ((passable o (s.writesAt key bs.length)).take
      ((slotsAmong (passable o (s.writesAt key bs.length))).getD
        (s.pick (slotsAmong (passable o (s.writesAt key bs.length))).length).1 0)).reverse).2, ∃ z ∈ s.hist, y.Same z := by
    intro y hy
    obtain ⟨z, hz, hs⟩ := redo_same hy
    exact ⟨z, (passable_mem (List.mem_of_mem_take (List.mem_reverse.mp hz))).1, hs⟩
  rcases List.mem_append.mp h with h | h
  · exact .inl (hold _ hredo (List.mem_of_mem_take h))
  · rcases List.mem_cons.mp h with rfl | h
    · exact .inr ⟨rfl, rfl⟩
    · exact .inl (hold _ hredo (List.mem_of_mem_drop h))

/-! ## The tags -/

/-- A listed write that the tag of a granule, as byte b, need not fear: another tag's, one that it follows, or one of b. -/
def Msg.Harmless (o : Ord) (k : Nat) (b : Byte) (m : Msg) : Prop :=
  m.overlaps (tagKey k) 1 = true → o.follows m.ts = true ∨ m.key = tagKey k ∧ m.new = [b]

theorem Msg.Same.harmless {x y : Msg} {o : Ord} {k : Nat} {b : Byte} (h : x.Same y) (hy : y.Harmless o k b) :
    x.Harmless o k b := by
  intro hov
  rw [h.overlaps] at hov
  rw [h.ts, h.key, h.new]
  exact hy hov

theorem tagKey_eq {j k : Nat} : tagKey j = tagKey k ↔ j / 32 = k / 32 := by
  unfold tagKey
  omega

/-- The write of one granule's tag, with what the thread has written before. -/
def tagStep (tid : Nat) (o : Ord) (v : BitVec 4) (x : List Nat × State) (k : Nat) : List Nat × State :=
  let (fin, o', s) := x.2.placeWrite o [] (tagKey k) [(sget x.2.tags (k / 32)).setWidth 8] [v.setWidth 8]
  (joinView x.1 o'.view, State.noteMade { s with tags := sset s.tags (k / 32) ((fin.headD 0).setWidth 4) } tid x.2.nextId)

theorem storeTags_eq (tid : Nat) (ks : List Nat) (v : BitVec 4) (s : State) : storeTags tid ks v s =
    (ks.foldl (tagStep tid (s.ordFor tid) v) ([], s)).2.setOrd tid
      ((s.ordFor tid).join (ks.foldl (tagStep tid (s.ordFor tid) v) ([], s)).1) := rfl

section
variable {tid k : Nat} {o : Ord} {v : BitVec 4} {x : List Nat × State}

theorem tagStep_mem (tid : Nat) (o : Ord) (v : BitVec 4) (x : List Nat × State) (j : Nat) :
    (tagStep tid o v x j).2.mem = x.2.mem := by
  unfold tagStep
  dsimp only
  rw [State.noteMade_state, (State.placeWrite_state ..).1]

theorem tagStep_harmless (h : ∀ m ∈ x.2.hist, m.Harmless o k (v.setWidth 8)) (j : Nat) :
    ∀ m ∈ (tagStep tid o v x j).2.hist, m.Harmless o k (v.setWidth 8) := by
  intro m hm
  unfold tagStep at hm
  dsimp only at hm
  rw [State.noteMade_state] at hm
  rcases State.placeWrite_hist hm with ⟨y, hy, hs⟩ | ⟨hkey, hnew⟩
  · exact hs.harmless (h y hy)
  · intro hov
    rw [Msg.overlaps, hkey, hnew] at hov
    simp only [List.length_singleton, Bool.and_eq_true, decide_eq_true_eq] at hov
    exact .inr ⟨by omega, hnew⟩

theorem tagStep_same (h : ∀ m ∈ x.2.hist, m.Harmless o k (v.setWidth 8)) {j : Nat} (hj : j / 32 = k / 32) :
    sget (tagStep tid o v x j).2.tags (k / 32) = v := by
  have hfin : (x.2.placeWrite o [] (tagKey j) [(sget x.2.tags (j / 32)).setWidth 8] [v.setWidth 8]).1 = [v.setWidth 8] := by
    refine redo_of_same fun m hm => ?_
    obtain ⟨hmem, hov, hno⟩ := passable_mem (List.mem_of_mem_take (List.mem_reverse.mp hm))
    rw [tagKey_eq.mpr hj] at hov ⊢
    rcases h m hmem hov with hf | hs
    · rw [hf] at hno
      cases hno
    · exact hs
  have hv : ((v.setWidth 8).setWidth 4 : BitVec 4) = v := by
    apply BitVec.eq_of_toNat_eq
    have := v.isLt
    simp only [BitVec.toNat_setWidth]
    omega
  unfold tagStep
  dsimp only
  rw [State.noteMade_state, hfin]
  dsimp only
  rw [hj, sget_sset_same]
  exact hv

theorem tagStep_other {j : Nat} (hj : j / 32 ≠ k / 32) :
    sget (tagStep tid o v x j).2.tags (k / 32) = sget x.2.tags (k / 32) := by
  unfold tagStep
  dsimp only
  rw [State.noteMade_state]
  dsimp only
  rw [sget_sset_other _ _ (Ne.symm hj), (State.placeWrite_state ..).1]

/-- After the writes of several granules a tag stands where it did, or where it was among them. -/
theorem tagSteps_stand {ks : List Nat} (h : ∀ m ∈ x.2.hist, m.Harmless o k (v.setWidth 8))
    (hk : k ∈ ks ∨ sget x.2.tags (k / 32) = v) : sget (ks.foldl (tagStep tid o v) x).2.tags (k / 32) = v := by
  induction ks generalizing x with
  | nil => exact hk.resolve_left (by simp)
  | cons j t ih =>
    refine ih (tagStep_harmless h j) ?_
    by_cases hj : j / 32 = k / 32
    · exact .inr (tagStep_same h hj)
    · rw [tagStep_other hj]
      refine hk.imp (fun hm => ?_) id
      exact (List.mem_cons.mp hm).resolve_left fun he => hj (by rw [he])

end

theorem storeTags_mem (tid : Nat) (ks : List Nat) (v : BitVec 4) (s : State) : (storeTags tid ks v s).mem = s.mem := by
  rw [storeTags_eq]
  exact List.foldlRecOn (motive := fun x : List Nat × State => x.2.mem = s.mem) ks _ rfl fun x hx j _ =>
    (tagStep_mem ..).trans hx

/-- The tag of each granule stands, where the thread must follow every store of it that is listed (R260). -/
theorem storeTags_stand {s : State} {tid k : Nat} {ks : List Nat} (v : BitVec 4) (hk : k ∈ ks)
    (h : s.lastAt tid (tagKey k) 1) : sget (storeTags tid ks v s).tags (k / 32) = v := by
  rw [storeTags_eq]
  exact tagSteps_stand (fun m hm hov => .inl (State.follows_ordFor (h m hm hov))) (.inl hk)

/-! ## The op -/

theorem tagst_next {h : Hdr} {a b : Reg} {off : MemOff} {s s' : State} {e : Env} {ks : List Nat}
    (hx : s.Executes e (.tagst h a off b)) (h4 : (e.th.rd b).extractLsb' 4 4 = 0) (h16 : (e.th.rd b).extractLsb' 16 16 = 0)
    (hks : tagPlaces e.who (e.th.gptr a off 32) (((e.th.rd b).extractLsb' 8 8).toNat + 1) (e.th.gptr a off 32) s = .ok ks s') :
    exec (.tagst h a off b) s = .next ((storeTags e.tid (ks.filter isLocalKey) ((e.th.rd b).setWidth 4) s').modThread e.tid
      fun t => t.pass e (.tagst h a off b) true none) := by
  have hb4 : bitsOf (e.th.rd b).toNat 7 4 = 0 := (bitsOf_toNat (e.th.rd b) 4 3).trans (by rw [h4]; rfl)
  have hb16 : bitsOf (e.th.rd b).toNat 31 16 = 0 := (bitsOf_toNat (e.th.rd b) 16 15).trans (by rw [h16]; rfl)
  have hb8 : bitsOf (e.th.rd b).toNat 15 8 = ((e.th.rd b).extractLsb' 8 8).toNat := bitsOf_toNat (e.th.rd b) 8 7
  rw [exec_tagst, execTagst, threadOp_next hx]
  simp only [hb4, hb16, hb8, ne_eq, not_true, decide_false, Bool.or_false, Bool.false_eq_true, if_false, bind_ok hks,
    bind_ok (modify_ok _ _), pure_ok, endOp_done, BitVec.ofNat_toNat]

theorem tagst_stores {h : Hdr} {a b : Reg} {off : MemOff} {s s' : State} {e : Env} {ks : List Nat}
    (hx : s.Executes e (.tagst h a off b)) (h4 : (e.th.rd b).extractLsb' 4 4 = 0) (h16 : (e.th.rd b).extractLsb' 16 16 = 0)
    (hks : tagPlaces e.who (e.th.gptr a off 32) (((e.th.rd b).extractLsb' 8 8).toNat + 1) (e.th.gptr a off 32) s = .ok ks s') :
    ∃ t, exec (.tagst h a off b) s = .next t ∧ t.mem = s'.mem ∧
      ∀ k ∈ ks, isLocalKey k = true → s'.lastAt e.tid (tagKey k) 1 → sget t.tags (k / 32) = (e.th.rd b).setWidth 4 :=
  ⟨_, tagst_next hx h4 h16 hks, storeTags_mem .., fun _ hk hl hlast =>
    storeTags_stand _ (List.mem_filter.mpr ⟨hk, hl⟩) hlast⟩

end Sys2Proof.Machine
end

section
/-! SUPPORT. The statement of the stores (R258, R359, R467, R495 to R497, R500). -/

namespace Sys2Proof.Machine

/-- Settles O19: each op past its checks, by what its store comes to in memory, in the scratchpad, in a line of the stash or
among the tags. -/
theorem memoryStores : Obligations.MemoryStores := by
  unfold Obligations.MemoryStores
  refine ⟨?_, ?_, ?_⟩
  · intro h w64 sgn op a b off s s' s1 e p i
    extract_lets n x old cv
    intro hi hx hal htok hp hlink
    rcases hi with ⟨rel, rfl, hop, hcl⟩ | ⟨ord, sc, rfl, hcl⟩
    · exact red_steps hx hop hcl htok hal hp hlink cv
    · exact atom_steps hx hcl htok hal hp hlink
  · intro h a b off s s' e ks v ptr hx h4 h16 hks
    exact tagst_stores hx h4 h16 hks
  · intro h rel a b off s s' s2 e fl hcl
    refine ⟨?_, ?_, ?_⟩
    · intro sz p n x i hx hal hp htok hlink
      exact st_stores hx hcl hal hp htok hlink
    · intro ty rnd hi x p dr ds sc key src bs s1 s3 s4 i val r hx hel htok h4 hof hsc hbs hlink
      obtain ⟨hwhole, hf4⟩ := elementBytes_ok hbs
      exact ⟨hwhole, hf4, stt_stores hx hcl hel htok h4 hof hsc rfl hbs hlink⟩
    · intro sz n x i bs hx hal
      obtain ⟨hth, hc, -⟩ := State.env_some hx.env
      have hlen : bs.length = n := storeBytes_length ..
      refine ⟨fun hin hheld => ?_, fun o sl l hp hl => ?_⟩
      · have hp := localPlaceM_scratch (acc := 1) hc hal hin hheld
        split
        · next hm => exact stl_scratch_buffers hx hcl hp hm
        · next hm =>
          intro hw
          obtain ⟨r, hr, hs, hcoh⟩ := storeSp_writes s e (e.reachOpt rel) (a := x) (bs := bs)
            (by rw [hlen]; exact mBytes_pos sz) (by rw [hlen]; exact mBytes_fit hal) hc hw
          rw [hlen] at hcoh
          exact ⟨r, hr, stl_scratch_stores hx hcl hp (by simpa using hm) hr hs, hs.rest, hcoh⟩
      · have hp := localPlaceM_stash (acc := 1) hc hal hp
        have hth' := ((stashLine_observes ..).observed _ _ _ hl).executing hth
        split
        · next hm => exact stl_stash_buffers hx hcl hp hm hl
        · next hm =>
          obtain ⟨r, hr, hrth, hline⟩ := storeLine_writes s' e (e.reachOpt rel) (o / 128) (o % 128) l bs hth'
          refine ⟨r, hr, stl_stash_stores hx hcl hp (by simpa using hm) hl hr hrth, fun y hy => ?_⟩
          obtain ⟨fin, ts, hl', hfin, hlast⟩ := hline y hy
          rw [hlen] at hfin hlast
          refine ⟨_, hl', rfl, fun k => ?_, fun hl => ?_, fun k hk hb => ?_⟩
          · rw [← hfin]
            exact markDirty_getLsbD ..
          · obtain rfl := hlast hl
            by_cases hfit : l.bytes.length < o % 128 + n
            · exact .inr hfit
            · refine .inl ?_
              rw [List.take_of_length_le (by omega : bs.length ≤ l.bytes.length - o % 128), ← hlen]
              exact setBytes_inside (by omega)
          · exact setBytes_outside (by rw [hfin]; exact hk) hb

end Sys2Proof.Machine
end
